-- ==== Sys2Proof/Word.lean ====
section
/-! DEFINITION. The words of the machine: bytes, 32-bit and 64-bit words, and operand codes. -/

namespace Sys2Proof

/-- One byte, the smallest addressable unit (R214). -/
abbrev Byte := BitVec 8

/-- A 32-bit register or word (R169). -/
abbrev Word := BitVec 32

/-- A 64-bit value: a register pair, an address, or a control word. -/
abbrev DWord := BitVec 64

/-- A 7-bit operand code (R179). -/
abbrev Code := BitVec 7

end Sys2Proof
end

