-- ==== Sys2Proof/Config.lean ====
section
/-! DEFINITION. What the manual leaves to the part or leaves open: constants of the package, and free values, which are
opaque so that nothing can be proved of them. -/

namespace Sys2Proof.Config
open Sys2Proof

/-- Stack capacity in bytes as the device identity reports it: 64 GB, decimal (R2, R3, R9). [DESIGN CHOICE: log 13] -/
def stackCapacity : Nat := 64000000000

/-- Part variant reported in the identity: 0 for 3480P, 1 for 3480M (R21); no program can observe it (R1). -/
opaque variant : BitVec 1

/-- Firmware security version (R19, R21). -/
opaque securityVersion : DWord

/-- Digest of the service die's firmware, measured into register 0 (R20). -/
opaque firmwareDigest : BitVec 256

/-- Digests of the IO die, compute die and interposer microcode images, for registers 1 to 3 (R20). -/
opaque microcodeDigest : Nat → BitVec 256

/-- SM2 signature of a report under the device identity key: 64 bytes as two 256-bit numbers (R19, R21). [DESIGN CHOICE: log 13] -/
opaque sm2Sign : List Byte → BitVec 512

/-- The SM3 digest of the firmware signing public key that the mask ROM of the service die holds (R19). -/
opaque romKeyDigest : BitVec 256

/-- The firmware signing public key that comes with the firmware (R19). -/
opaque firmwareKey : List Byte

/-- The SM2 signature that comes with the firmware (R19). -/
opaque firmwareSignature : BitVec 512

/-- Whether an SM2 signature of an SM3 digest verifies under a public key (R19). -/
opaque sm2Verify : List Byte → BitVec 256 → BitVec 512 → Bool

/-- The least firmware security version, fused (R19). -/
opaque fusedVersion : DWord

/-- The public part of the package's device identity key pair; the private part is what sm2Sign signs with (R19). -/
opaque identityKey : List Byte

/-- Drasen's signature of the identity public key: the certificate that the service die stores (R19). -/
opaque identityCert : List Byte

/-- The message of the service die that agrees a key for span port p, with the binding of the port that it tells (R43, R46). -/
opaque keyMessage : Nat → Nat → List Byte

/-- The partition to which the peer's message says that its end of the port is bound (R46). -/
opaque messageBinding : List Byte → Nat

/-- Keys that SM2 key agreement gives from the peer's message: transmit key, receive key, salts (R43); none when the peer
does not authenticate. -/
opaque keyAgreement : List Byte → Nat → Option (BitVec 128 × BitVec 128 × BitVec 32 × BitVec 32)

/-- DETAIL bytes of a fault queue record of a kind whose layout R447 does not give (3 DIELOST, 8 THERMAL, 9 LINK, 10 PEERERR), from what
R68 says they tell: at least 40 bytes are taken as given, missing ones as zero. [DESIGN CHOICE: log 87] -/
opaque openDetail : Nat → List Nat → List Byte

/-- The n-th free 32-bit value (R235, R390, R357, R369). [DESIGN CHOICE: log 4] -/
opaque freeWord : Nat → Word

/-- The n-th free byte (R127, R198, R235). [DESIGN CHOICE: log 4] -/
opaque freeByte : Nat → Byte

/-- What register r reads as while an uncompleted matrix instruction holds it: free for each n (R235). -/
opaque busyRead : Nat → Nat → Word

/-- Keys and salts of rollover n of a port: transmit key, receive key, salts (R44). -/
opaque rolloverKeys : Nat → Nat → BitVec 128 × BitVec 128 × BitVec 32 × BitVec 32

/-- Round trip of a span link in clk, measured at training (R35). -/
opaque spanRoundTrip : Nat → Nat

/-- Round trip of a link in clk, measured at training (R35): within the package it is taken as the 8 clk of R25. [DESIGN CHOICE: log 94] -/
def roundTrip (n : Nat) : Nat := if 320 ≤ n ∧ n < 336 then spanRoundTrip (n - 320) else 8

/-- The word at an offset of die control space at which no chapter assigns a register (R9). [DESIGN CHOICE: log 52] -/
opaque openControl : Nat → Nat → DWord

/-- Count of a die event that no rule lets one compute, by die, counter and clk: bank cycles (R81). -/
opaque freeCount : Nat → Nat → Nat → BitVec 48

/-- Credits of class c that a receiver grants on a link at training (R32, R36). -/
opaque linkCredits : Nat → Nat → Byte

end Sys2Proof.Config
end

