-- ==== Sys2Proof/Syntax.lean ====
section
/-! DEFINITION. The instructions of the Tinath 3480 and the steps and events of its units: one constructor for each row of
the opcode table (the fields of an instruction are its encoding fields, low bits first; a device step carries the data that
it acts on). -/

namespace Sys2Proof

/-- A partition configuration command of the service die (R18, R78). -/
inductive PartCmd where
  /-- A die held in die reset joins a partition. -/
  | addDie (part die : Nat)
  /-- A die held in die reset leaves its partition. -/
  | removeDie (part die : Nat)
  /-- The partition's floor and ceiling of shared links, in units of 1/64 (R78). -/
  | setShare (link part floor ceiling : Nat)
  /-- The measurement register that records the partition's code objects (R20). -/
  | setMeasure (part reg : Nat)
  /-- The partition's virtual function of an endpoint port is enabled or disabled (R49). -/
  | setFunction (part port : Nat) (enabled : Bool)
  /-- A span port is bound to one partition (R46). -/
  | bindSpan (part port : Nat)
  /-- The supervisor of a span port's partition has the flits cleared that are kept while the port is down (R39). [DESIGN CHOICE: log 102] -/
  | clearSpan (part port : Nat)
  deriving DecidableEq, Repr

/-- Where an error is found: an address range, or state with no address (R23). -/
inductive ErrSite where
  /-- A 64-byte-aligned range of a socket: physical address and length in bytes. -/
  | range (pa len : Nat)
  /-- Registers of the thread with this identity. -/
  | thread (uid : Nat)
  /-- Mover state of this core without an address; for a scrub, an issue slot. -/
  | core (core : Nat)
  /-- An entry of this rill in port of a core. -/
  | rill (core port : Nat)
  /-- The mailbox or the message port of a core. -/
  | messages (core : Nat)
  /-- A page-table entry that the walk of this page reads, at a physical address (R213). -/
  | walk (die part vpage pa : Nat)
  /-- The line of a cluster's L1 at a physical address (R213); clusters are numbered die × 16 + cluster. -/
  | line (cluster pa : Nat)
  /-- The full/empty bit of the word at a key (R213). -/
  | bit (key : Nat)
  /-- SRAM of an L2 slice of a die (R75). -/
  | slice (die slice : Nat)
  deriving DecidableEq, Repr

/-- A BAR of physical function 0 at a port (R54). -/
structure PortBar where
  /-- Port. -/
  port : Nat
  /-- Number of the BAR. -/
  bar : Nat
  deriving DecidableEq, Repr

/-- A request that a peer package sends on a span port (R56). -/
inductive SpanOp where
  /-- Read of len bytes. -/
  | read (len : Nat)
  /-- Write of the bytes. -/
  | write (data : List Byte)
  /-- Read-modify-write: amo minor 0-10, or 27 for fx64, 64-bit when wide; both operands. -/
  | rmw (op : Nat) (wide : Bool) (v n : DWord)
  deriving DecidableEq, Repr

/-- The registers that the supervisor or the host writes by name. [DEDUCED: log 30] -/
inductive RegName where
  /-- Memory control block word at the byte offset 0x000, 0x008, 0x010 or 0x018 of a die, written by a supervisor or else through
  physical function 0 (R199, R447). -/
  | memControl (die off : Nat) (super : Bool)
  /-- Stream descriptor word i (64 bits, 0 the lowest) of a stream, written by the host through a port, or by a supervisor (none) (R57). -/
  | stream (part stream word : Nat) (port : Option Nat)
  /-- Thread control block word of a die: 0x000 TSEL or 0x008 TPC and ACT (R418). -/
  | threadControl (die off : Nat)
  /-- Fault table entry of a die, ACT (R210). -/
  | faultEntry (die entry : Nat)
  /-- A supervisor's clearing of a down span port's replay buffer (R39). -/
  | spanClear (port : Nat)
  /-- A port set to refuse all traffic other than DOE until an IDE stream is active (R50). -/
  | ideRequire (port : Nat)
  deriving DecidableEq, Repr

/-- Every instruction and device step of the opcode table. -/
inductive Instr where
  /-- R278. 16-bit move: ga := gb. -/
  | movS (a : BitVec 6) (b : BitVec 5)
  /-- R278. 16-bit ga := ga + gb. -/
  | addS (a : BitVec 6) (b : BitVec 5)
  /-- R278. 16-bit ga := ga − gb. -/
  | subS (a : BitVec 6) (b : BitVec 5)
  /-- R278. 16-bit ga := ga AND gb. -/
  | andS (a : BitVec 6) (b : BitVec 5)
  /-- R278. 16-bit ga := ga OR gb. -/
  | orS (a : BitVec 6) (b : BitVec 5)
  /-- R278. 16-bit ga := ga XOR gb. -/
  | xorS (a : BitVec 6) (b : BitVec 5)
  /-- R278. 16-bit ga := ga + a sign-extended 5-bit immediate. -/
  | addiS (a : BitVec 6) (i : BitVec 5)
  /-- R278. 16-bit shift left of ga by n. -/
  | shliS (a : BitVec 6) (n : BitVec 5)
  /-- R278. 16-bit logical shift right of ga by n. -/
  | shriS (a : BitVec 6) (n : BitVec 5)
  /-- R278. 16-bit ga := a sign-extended 5-bit immediate. -/
  | ldiS (a : BitVec 6) (i : BitVec 5)
  /-- R278. 16-bit word load ga := [gb]. -/
  | ldS (a : BitVec 6) (b : BitVec 5)
  /-- R278. 16-bit word store [gb] := ga. -/
  | stS (a : BitVec 6) (b : BitVec 5)
  /-- R278. Branch by a 6-bit offset when gb is zero. -/
  | bzS (o : BitVec 6) (b : BitVec 5)
  /-- R278. Branch by a 6-bit offset when gb is non-zero. -/
  | bnzS (o : BitVec 6) (b : BitVec 5)
  /-- R313. PC := G(b) as a parcel index. -/
  | ret (b : BitVec 5)
  /-- R317. Raises the breakpoint cause with code n and parks the thread. -/
  | brk (n : BitVec 5)
  /-- R303. D := A + B modulo 2^32. -/
  | add (d : Code) (a : Code) (b : Code)
  /-- R303. D := A − B modulo 2^32. -/
  | sub (d : Code) (a : Code) (b : Code)
  /-- R303. Low 32 bits of the product. -/
  | mul (d : Code) (a : Code) (b : Code)
  /-- R303. High 32 bits of the signed product. -/
  | mulh (d : Code) (a : Code) (b : Code)
  /-- R303. High 32 bits of the natural product. -/
  | mulhn (d : Code) (a : Code) (b : Code)
  /-- R303. Signed 64-bit product into the pair D. -/
  | mulw (d : Code) (a : Code) (b : Code)
  /-- R303. Natural 64-bit product into the pair D. -/
  | mulwn (d : Code) (a : Code) (b : Code)
  /-- R304. Signed 32-bit quotient without trap. -/
  | div (d : Code) (a : Code) (b : Code)
  /-- R304. Natural 32-bit quotient without trap. -/
  | divn (d : Code) (a : Code) (b : Code)
  /-- R304. Signed 32-bit remainder. -/
  | rem (d : Code) (a : Code) (b : Code)
  /-- R304. Natural 32-bit remainder. -/
  | remn (d : Code) (a : Code) (b : Code)
  /-- R303. Bitwise AND. -/
  | and (d : Code) (a : Code) (b : Code)
  /-- R303. Bitwise OR. -/
  | or (d : Code) (a : Code) (b : Code)
  /-- R303. Bitwise XOR. -/
  | xor (d : Code) (a : Code) (b : Code)
  /-- R303. A AND NOT B. -/
  | andn (d : Code) (a : Code) (b : Code)
  /-- R303. Shift left by B[4:0]. -/
  | shl (d : Code) (a : Code) (b : Code)
  /-- R303. Logical shift right by B[4:0]. -/
  | shr (d : Code) (a : Code) (b : Code)
  /-- R303. Arithmetic shift right by B[4:0]. -/
  | sra (d : Code) (a : Code) (b : Code)
  /-- R303. Rotate left by B[4:0]. -/
  | rol (d : Code) (a : Code) (b : Code)
  /-- R303. Signed minimum. -/
  | min (d : Code) (a : Code) (b : Code)
  /-- R303. Signed maximum. -/
  | max (d : Code) (a : Code) (b : Code)
  /-- R303. Natural minimum. -/
  | minn (d : Code) (a : Code) (b : Code)
  /-- R303. Natural maximum. -/
  | maxn (d : Code) (a : Code) (b : Code)
  /-- R305. Count of leading zero bits. -/
  | clz (d : Code) (a : Code)
  /-- R305. Count of trailing zero bits. -/
  | ctz (d : Code) (a : Code)
  /-- R305. Count of one bits. -/
  | popc (d : Code) (a : Code)
  /-- R305. Bit reversal. -/
  | brev (d : Code) (a : Code)
  /-- R303. 64-bit pair add. -/
  | addD (d : Code) (a : Code) (b : Code)
  /-- R303. 64-bit pair subtract. -/
  | subD (d : Code) (a : Code) (b : Code)
  /-- R303. 64-bit pair shift left by B[5:0]. -/
  | shlD (d : Code) (a : Code) (b : Code)
  /-- R304. Signed 64-bit quotient. -/
  | divS64 (d : Code) (a : Code) (b : Code)
  /-- R304. Natural 64-bit quotient. -/
  | divnN64 (d : Code) (a : Code) (b : Code)
  /-- R304. Signed 64-bit remainder. -/
  | remS64 (d : Code) (a : Code) (b : Code)
  /-- R304. Natural 64-bit remainder. -/
  | remnN64 (d : Code) (a : Code) (b : Code)
  /-- R306. D := A + sign-extended imm12. -/
  | addi (d : Code) (a : Code) (i : BitVec 12)
  /-- R306. D := A AND zero-extended imm12. -/
  | andi (d : Code) (a : Code) (i : BitVec 12)
  /-- R306. D := A OR zero-extended imm12. -/
  | ori (d : Code) (a : Code) (i : BitVec 12)
  /-- R306. D := A XOR zero-extended imm12. -/
  | xori (d : Code) (a : Code) (i : BitVec 12)
  /-- R306. Shift left by an immediate count. -/
  | shli (d : Code) (a : Code) (n : BitVec 5)
  /-- R306. Logical shift right by an immediate count. -/
  | shri (d : Code) (a : Code) (n : BitVec 5)
  /-- R306. Arithmetic shift right by an immediate count. -/
  | srai (d : Code) (a : Code) (n : BitVec 5)
  /-- R308. Signed 32-bit compare into pD. -/
  | cmpS32 (c : BitVec 3) (p : BitVec 4) (a : Code) (b : Code)
  /-- R308. Natural 32-bit compare into pD. -/
  | cmpN32 (c : BitVec 3) (p : BitVec 4) (a : Code) (b : Code)
  /-- R308. Signed 64-bit pair compare into pD. -/
  | cmpS64 (c : BitVec 3) (p : BitVec 4) (a : Code) (b : Code)
  /-- R308. Natural 64-bit pair compare into pD. -/
  | cmpN64 (c : BitVec 3) (p : BitVec 4) (a : Code) (b : Code)
  /-- R310. pD := pA AND pB. -/
  | pand (p : BitVec 4) (a : BitVec 4) (q : BitVec 4)
  /-- R310. pD := pA OR pB. -/
  | por (p : BitVec 4) (a : BitVec 4) (q : BitVec 4)
  /-- R310. pD := pA XOR pB. -/
  | pxor (p : BitVec 4) (a : BitVec 4) (q : BitVec 4)
  /-- R310. pD := NOT pA. -/
  | pnot (p : BitVec 4) (a : BitVec 4)
  /-- R309. Compare A with a sign-extended immediate into pD. -/
  | cmpi (c : BitVec 3) (p : BitVec 4) (a : Code) (i : BitVec 12)
  /-- R307. D := sign-extended imm19. -/
  | ldi (d : Code) (i : BitVec 19)
  /-- R307. D[31:13] := imm19, keeping D[12:0]. -/
  | ldih (d : Code) (i : BitVec 19)
  /-- R312. Unconditional branch to PC + offset. -/
  | b (o : BitVec 19)
  /-- R312. Branch when pN is true. -/
  | bp (p : BitVec 4) (o : BitVec 19)
  /-- R312. Branch when pN is false. -/
  | bnp (p : BitVec 4) (o : BitVec 19)
  /-- R313. G(D) := PC + 2, then branch by imm19. -/
  | call (d : Code) (o : BitVec 19)
  /-- R313. PC := G(A). -/
  | jmp (a : Code)
  /-- R313. G(D) := PC + 2 and PC := the old G(A). -/
  | callr (d : Code) (a : Code)
  /-- R341. Byte load, zero-extended. -/
  | ldB (d : Code) (b : Code) (r : BitVec 2) (m : BitVec 2) (o : BitVec 5)
  /-- R341. Half-word load, zero-extended. -/
  | ldH (d : Code) (b : Code) (r : BitVec 2) (m : BitVec 2) (o : BitVec 5)
  /-- R341. Word load. -/
  | ldW (d : Code) (b : Code) (r : BitVec 2) (m : BitVec 2) (o : BitVec 5)
  /-- R341. 8-byte load into a pair. -/
  | ldD (d : Code) (b : Code) (r : BitVec 2) (m : BitVec 2) (o : BitVec 5)
  /-- R341. 16-byte load into a quad. -/
  | ldQ (d : Code) (b : Code) (r : BitVec 2) (m : BitVec 2) (o : BitVec 5)
  /-- R341. Byte load, sign-extended. -/
  | ldBs (d : Code) (b : Code) (r : BitVec 2) (m : BitVec 2) (o : BitVec 5)
  /-- R341. Half-word load, sign-extended. -/
  | ldHs (d : Code) (b : Code) (r : BitVec 2) (m : BitVec 2) (o : BitVec 5)
  /-- R341. Load of size off5[2:0] with byte offset x0. -/
  | ldExtended (d : Code) (b : Code) (r : BitVec 2) (m : BitVec 2) (z : BitVec 3)
  /-- R341. Byte store. -/
  | stB (d : Code) (b : Code) (r : BitVec 2) (m : BitVec 2) (o : BitVec 5)
  /-- R341. Half-word store. -/
  | stH (d : Code) (b : Code) (r : BitVec 2) (m : BitVec 2) (o : BitVec 5)
  /-- R341. Word store. -/
  | stW (d : Code) (b : Code) (r : BitVec 2) (m : BitVec 2) (o : BitVec 5)
  /-- R341. 8-byte store from a pair. -/
  | stD (d : Code) (b : Code) (r : BitVec 2) (m : BitVec 2) (o : BitVec 5)
  /-- R341. 16-byte store from a quad. -/
  | stQ (d : Code) (b : Code) (r : BitVec 2) (m : BitVec 2) (o : BitVec 5)
  /-- R341. Store of size off5[2:0] with byte offset x0. -/
  | stExtended (d : Code) (b : Code) (r : BitVec 2) (m : BitVec 2) (z : BitVec 3)
  /-- R350. Atomic add at the home, returning the old value. -/
  | amoAdd (d : Code) (a : Code) (o : BitVec 3) (s : BitVec 3) (w : BitVec 1)
  /-- R350. Atomic AND at the home, returning the old value. -/
  | amoAnd (d : Code) (a : Code) (o : BitVec 3) (s : BitVec 3) (w : BitVec 1)
  /-- R350. Atomic OR at the home, returning the old value. -/
  | amoOr (d : Code) (a : Code) (o : BitVec 3) (s : BitVec 3) (w : BitVec 1)
  /-- R350. Atomic XOR at the home, returning the old value. -/
  | amoXor (d : Code) (a : Code) (o : BitVec 3) (s : BitVec 3) (w : BitVec 1)
  /-- R350. Atomic signed minimum, returning the old value. -/
  | amoMin (d : Code) (a : Code) (o : BitVec 3) (s : BitVec 3) (w : BitVec 1)
  /-- R350. Atomic signed maximum, returning the old value. -/
  | amoMax (d : Code) (a : Code) (o : BitVec 3) (s : BitVec 3) (w : BitVec 1)
  /-- R350. Atomic natural minimum, returning the old value. -/
  | amoMinn (d : Code) (a : Code) (o : BitVec 3) (s : BitVec 3) (w : BitVec 1)
  /-- R350. Atomic natural maximum, returning the old value. -/
  | amoMaxn (d : Code) (a : Code) (o : BitVec 3) (s : BitVec 3) (w : BitVec 1)
  /-- R350. Atomic swap, returning the old value. -/
  | amoSwap (d : Code) (a : Code) (o : BitVec 3) (s : BitVec 3) (w : BitVec 1)
  /-- R350. Atomic compare-and-swap, returning the old value in the first half of D. -/
  | amoCas (d : Code) (a : Code) (o : BitVec 3) (s : BitVec 3) (w : BitVec 1)
  /-- R351. Atomic binary32 add with RNE, returning the old value. -/
  | amoFadd (d : Code) (a : Code) (o : BitVec 3) (s : BitVec 3)
  /-- R350. Posted reduction add at the home. -/
  | redAdd (d : Code) (a : Code) (o : BitVec 3) (s : BitVec 3) (w : BitVec 1)
  /-- R350. Posted reduction AND. -/
  | redAnd (d : Code) (a : Code) (o : BitVec 3) (s : BitVec 3) (w : BitVec 1)
  /-- R350. Posted reduction OR. -/
  | redOr (d : Code) (a : Code) (o : BitVec 3) (s : BitVec 3) (w : BitVec 1)
  /-- R350. Posted reduction XOR. -/
  | redXor (d : Code) (a : Code) (o : BitVec 3) (s : BitVec 3) (w : BitVec 1)
  /-- R350. Posted signed minimum. -/
  | redMin (d : Code) (a : Code) (o : BitVec 3) (s : BitVec 3) (w : BitVec 1)
  /-- R350. Posted signed maximum. -/
  | redMax (d : Code) (a : Code) (o : BitVec 3) (s : BitVec 3) (w : BitVec 1)
  /-- R350. Posted natural minimum. -/
  | redMinn (d : Code) (a : Code) (o : BitVec 3) (s : BitVec 3) (w : BitVec 1)
  /-- R350. Posted natural maximum. -/
  | redMaxn (d : Code) (a : Code) (o : BitVec 3) (s : BitVec 3) (w : BitVec 1)
  /-- R350. Posted swap. -/
  | redSwap (d : Code) (a : Code) (o : BitVec 3) (s : BitVec 3) (w : BitVec 1)
  /-- R350. Posted compare-and-swap. -/
  | redCas (d : Code) (a : Code) (o : BitVec 3) (s : BitVec 3) (w : BitVec 1)
  /-- R351. Posted binary32 add with RNE. -/
  | redFadd (d : Code) (a : Code) (o : BitVec 3) (s : BitVec 3)
  /-- R351. Posted fixed-point add of a converted binary64, modulo 2^64. -/
  | redFx64 (d : Code) (a : Code) (o : BitVec 3) (s : BitVec 3)
  /-- R353. Scoped acquire, release, acquire-release or sc fence. -/
  | fence (o : BitVec 3) (s : BitVec 3)
  /-- R356. Arrive at a barrier object, completing the phase at EXPECT. -/
  | barj (a : Code) (s : BitVec 3)
  /-- R356. Wait for a barrier object's sense, with an optional timeout. -/
  | barw (d : Code) (a : Code) (s : BitVec 3)
  /-- R356. Arrive at a barrier object and leave it for later phases. -/
  | barx (a : Code) (s : BitVec 3)
  /-- R347. Prefetch a line into the home slice and, for wave threads, the L1. -/
  | pf (a : Code)
  /-- R348. Drop the clean bytes of a cluster-L1 line. -/
  | inval (a : Code)
  /-- R348. Write back the dirty bytes of a cluster-L1 line. -/
  | wback (a : Code)
  /-- R343. Wait for full, then read the word and leave it full. -/
  | ldf (d : Code) (b : Code) (r : BitVec 2) (m : BitVec 2) (f : BitVec 5)
  /-- R343. Wait for full, then read the word and set it empty. -/
  | lde (d : Code) (b : Code) (r : BitVec 2) (m : BitVec 2) (f : BitVec 5)
  /-- R343. Wait for empty, then write the word and set it full. -/
  | stf (d : Code) (b : Code) (r : BitVec 2) (m : BitVec 2) (f : BitVec 5)
  /-- R343. Write the word and set it full without waiting. -/
  | stx (d : Code) (b : Code) (r : BitVec 2) (m : BitVec 2) (f : BitVec 5)
  /-- R343. Set the word empty without waiting. -/
  | sete (b : Code) (r : BitVec 2) (m : BitVec 2) (f : BitVec 5)
  /-- R343. Read the full/empty state of the word. -/
  | fest (d : Code) (b : Code) (r : BitVec 2) (m : BitVec 2) (f : BitVec 5)
  /-- R345. Load n words into consecutive registers. -/
  | ldm (d : Code) (b : Code) (r : BitVec 2) (m : BitVec 2) (n : BitVec 5)
  /-- R345. Store n consecutive registers as words. -/
  | stm (d : Code) (b : Code) (r : BitVec 2) (m : BitVec 2) (n : BitVec 5)
  /-- R326. binary32 add. -/
  | fadd (d : Code) (a : Code) (b : Code) (r : BitVec 3)
  /-- R326. binary32 subtract. -/
  | fsub (d : Code) (a : Code) (b : Code) (r : BitVec 3)
  /-- R326. binary32 multiply. -/
  | fmul (d : Code) (a : Code) (b : Code) (r : BitVec 3)
  /-- R326. binary32 divide, correctly rounded. -/
  | fdiv (d : Code) (a : Code) (b : Code) (r : BitVec 3)
  /-- R334. Packed binary16 add. -/
  | hadd2 (d : Code) (a : Code) (b : Code)
  /-- R334. Packed binary16 multiply. -/
  | hmul2 (d : Code) (a : Code) (b : Code)
  /-- R334. Packed binary16 fused multiply-add with addend from x0. -/
  | hfma2 (d : Code) (a : Code) (b : Code)
  /-- R334. Packed bfloat16 add. -/
  | badd2 (d : Code) (a : Code) (b : Code)
  /-- R334. Packed bfloat16 multiply. -/
  | bmul2 (d : Code) (a : Code) (b : Code)
  /-- R334. Packed bfloat16 fused multiply-add. -/
  | bfma2 (d : Code) (a : Code) (b : Code)
  /-- R335. binary64 add. -/
  | dadd (d : Code) (a : Code) (b : Code)
  /-- R335. binary64 multiply. -/
  | dmul (d : Code) (a : Code) (b : Code)
  /-- R335. binary64 fused multiply-add with addend pair from x0. -/
  | dfma (d : Code) (a : Code) (b : Code)
  /-- R337. Convert to signed 32-bit. -/
  | cvtS32 (d : Code) (a : Code) (s : BitVec 4) (r : BitVec 3)
  /-- R337. Convert to natural 32-bit. -/
  | cvtN32 (d : Code) (a : Code) (s : BitVec 4) (r : BitVec 3)
  /-- R337. Convert to signed 64-bit. -/
  | cvtS64 (d : Code) (a : Code) (s : BitVec 4) (r : BitVec 3)
  /-- R337. Convert to natural 64-bit. -/
  | cvtN64 (d : Code) (a : Code) (s : BitVec 4) (r : BitVec 3)
  /-- R337. Convert to binary32. -/
  | cvtF32 (d : Code) (a : Code) (s : BitVec 4) (r : BitVec 3)
  /-- R337. Convert to binary16. -/
  | cvtF16 (d : Code) (a : Code) (s : BitVec 4) (r : BitVec 3)
  /-- R337. Convert to bfloat16. -/
  | cvtBf16 (d : Code) (a : Code) (s : BitVec 4) (r : BitVec 3)
  /-- R337. Convert to binary64. -/
  | cvtF64 (d : Code) (a : Code) (s : BitVec 4) (r : BitVec 3)
  /-- R337. Convert to E4M3, non-saturating. -/
  | cvtE4m3 (d : Code) (a : Code) (s : BitVec 4) (r : BitVec 3)
  /-- R337. Convert to E5M2. -/
  | cvtE5m2 (d : Code) (a : Code) (s : BitVec 4) (r : BitVec 3)
  /-- R337. Convert to E2M1, saturating. -/
  | cvtE2m1 (d : Code) (a : Code) (s : BitVec 4) (r : BitVec 3)
  /-- R337. Convert to E4M3, saturating. -/
  | cvtE4m3Sat (d : Code) (a : Code) (s : BitVec 4) (r : BitVec 3)
  /-- R331. binary32 compare into pD. -/
  | fcmpF32 (c : BitVec 3) (p : BitVec 4) (a : Code) (b : Code)
  /-- R331. binary64 compare into pD. -/
  | fcmpF64 (c : BitVec 3) (p : BitVec 4) (a : Code) (b : Code)
  /-- R332. Class of a binary32 operand as a one-hot word. -/
  | fclass (d : Code) (a : Code)
  /-- R332. Class of a binary64 operand as a one-hot word. -/
  | fclassF64 (d : Code) (a : Code)
  /-- R333. binary32 minimum under COMPAT[6:5]. -/
  | fmin (d : Code) (a : Code) (b : Code)
  /-- R333. binary32 maximum under COMPAT[6:5]. -/
  | fmax (d : Code) (a : Code) (b : Code)
  /-- R328. Correctly rounded square root. -/
  | fsqrt (d : Code) (a : Code) (r : BitVec 3)
  /-- R328. Correctly rounded reciprocal. -/
  | frcp (d : Code) (a : Code) (r : BitVec 3)
  /-- R328. Correctly rounded reciprocal square root. -/
  | frsq (d : Code) (a : Code) (r : BitVec 3)
  /-- R328. Correctly rounded 2^a. -/
  | fexp2 (d : Code) (a : Code) (r : BitVec 3)
  /-- R328. Correctly rounded log2 a. -/
  | flog2 (d : Code) (a : Code) (r : BitVec 3)
  /-- R328. Sine of an argument in turns. -/
  | fsin (d : Code) (a : Code) (r : BitVec 3)
  /-- R328. Cosine of an argument in turns. -/
  | fcos (d : Code) (a : Code) (r : BitVec 3)
  /-- R248. Sine in radians, or the legacy turn form under bit 10. -/
  | fsinR (d : Code) (a : Code) (r : BitVec 3)
  /-- R248. Cosine in radians, or the legacy turn form under bit 10. -/
  | fcosR (d : Code) (a : Code) (r : BitVec 3)
  /-- R329. Integral value toward −∞. -/
  | ffloor (d : Code) (a : Code)
  /-- R329. Integral value toward +∞. -/
  | fceil (d : Code) (a : Code)
  /-- R329. Integral value toward zero. -/
  | ftrunc (d : Code) (a : Code)
  /-- R329. Integral value in the rounding mode. -/
  | frint (d : Code) (a : Code) (r : BitVec 3)
  /-- R329. a − floor(a), rounded. -/
  | ffrac (d : Code) (a : Code) (r : BitVec 3)
  /-- R330. Clear bit 31. -/
  | fabs (d : Code) (a : Code)
  /-- R330. Invert bit 31. -/
  | fneg (d : Code) (a : Code)
  /-- R327. binary32 fused A × B + C, with C named by x0. -/
  | fma (d : Code) (a : Code) (b : Code) (r : BitVec 3)
  /-- R327. binary32 fused C − A × B. -/
  | fnma (d : Code) (a : Code) (b : Code) (r : BitVec 3)
  /-- R360. Write G(B) to message register mN of the named core. -/
  | mput (n : BitVec 4) (a : Code) (b : Code)
  /-- R361. Wait for mN full, read it and empty it. -/
  | mget (d : Code) (n : BitVec 4)
  /-- R362. Send a 16-byte message to a core's mailbox. -/
  | msend (a : Code) (b : Code)
  /-- R363. Wait for and read the oldest mailbox message. -/
  | rmsg (d : Code) (s : BitVec 3)
  /-- R364. Dequeue a rill entry, or enter the handler on a control entry. -/
  | qget (d : Code) (n : BitVec 2)
  /-- R364. Enqueue a data entry on an out rill. -/
  | qput (n : BitVec 2) (a : Code)
  /-- R364. Enqueue a control entry on an out rill. -/
  | qctl (n : BitVec 2) (a : Code)
  /-- R364. Read the rill count and head flag without waiting. -/
  | qpeek (d : Code) (n : BitVec 2)
  /-- R365. Migrate the thread to the named core. -/
  | go (a : Code)
  /-- R366. Send a spawned update context toward an address's home. -/
  | spawn (a : Code) (b : Code)
  /-- R368. Cross the thread onto a wave engine of its cluster. -/
  | wenter (a : Code)
  /-- R368. Return an entered thread to a swarm slot. -/
  | wleave (a : Code)
  /-- R371. Add an expectation of bytes to a weir source. -/
  | wexp (n : BitVec 3) (a : Code) (b : Code)
  /-- R372. Wait for a weir phase to complete. -/
  | wwait (a : Code) (s : BitVec 3)
  /-- R372. Read a weir's completion, phase and error. -/
  | wpoll (d : Code) (a : Code) (s : BitVec 3)
  /-- R375. Post a linear copy command to the mover. -/
  | mvcopy (a : Code) (p : BitVec 3) (s : BitVec 3)
  /-- R375. Post a two-dimensional copy command. -/
  | mvcopy2 (a : Code) (p : BitVec 3) (s : BitVec 3)
  /-- R375. Post a gather command. -/
  | mvgath (a : Code) (p : BitVec 3) (s : BitVec 3)
  /-- R375. Post a scatter command. -/
  | mvscat (a : Code) (p : BitVec 3) (s : BitVec 3)
  /-- R375. Post a fill command, optionally setting full/empty bits. -/
  | mvfill (a : Code) (p : BitVec 3) (s : BitVec 3)
  /-- R375. Post a reduce-copy command. -/
  | mvred (a : Code) (p : BitVec 3) (s : BitVec 3)
  /-- R381. Read A from the lane named by G(B). -/
  | shfl (d : Code) (a : Code) (b : Code)
  /-- R381. Read A from the own lane XOR G(B). -/
  | shflx (d : Code) (a : Code) (b : Code)
  /-- R381. OR of pA over the executing set. -/
  | voteAny (p : BitVec 4) (a : BitVec 4)
  /-- R381. AND of pA over the executing set. -/
  | voteAll (p : BitVec 4) (a : BitVec 4)
  /-- R381. 64-bit mask of pA over the executing set. -/
  | ballot (d : Code) (a : BitVec 4)
  /-- R383. Sum of A over the executing set. -/
  | lsum (d : Code) (a : Code) (t : BitVec 2)
  /-- R383. Minimum of A over the executing set. -/
  | lmin (d : Code) (a : Code) (t : BitVec 2)
  /-- R381. Broadcast A from the lane named by the lowest lane's G(B). -/
  | bcast (d : Code) (a : Code) (b : Code)
  /-- R390. Team matrix multiply-accumulate with bfloat16 operands. -/
  | mmaBf16 (d : Code) (a : Code) (b : Code) (k : BitVec 1)
  /-- R390. Matrix multiply-accumulate with binary16 operands. -/
  | mmaF16 (d : Code) (a : Code) (b : Code) (k : BitVec 1)
  /-- R390. FP8 matrix multiply with E4M3 A and E4M3 B. -/
  | mmaF8E4m3E4m3 (d : Code) (a : Code) (b : Code) (k : BitVec 1)
  /-- R390. FP8 matrix multiply with E4M3 A and E5M2 B. -/
  | mmaF8E4m3E5m2 (d : Code) (a : Code) (b : Code) (k : BitVec 1)
  /-- R390. FP8 matrix multiply with E5M2 A and E4M3 B. -/
  | mmaF8E5m2E4m3 (d : Code) (a : Code) (b : Code) (k : BitVec 1)
  /-- R390. FP8 matrix multiply with E5M2 A and E5M2 B. -/
  | mmaF8E5m2E5m2 (d : Code) (a : Code) (b : Code) (k : BitVec 1)
  /-- R390. INT8 matrix multiply into INT32. -/
  | mmaF8S8 (d : Code) (a : Code) (b : Code) (k : BitVec 1)
  /-- R390. Matrix multiply with INT4 weights dequantised to bfloat16. -/
  | mmaQ4 (d : Code) (a : Code) (b : Code) (k : BitVec 1)
  /-- R390. MX-FP4 matrix multiply with block scales. -/
  | mmaMx4 (d : Code) (a : Code) (b : Code) (k : BitVec 1)
  /-- R392. Term-serial INT8 matrix multiply with INT8 weights. -/
  | mmaTs8W8 (d : Code) (a : Code) (b : Code) (k : BitVec 1)
  /-- R392. Term-serial INT8 matrix multiply with INT4 weights. -/
  | mmaTs8W4 (d : Code) (a : Code) (b : Code) (k : BitVec 1)
  /-- R398. Sample a texture with quad derivatives. -/
  | smp (d : Code) (a : Code) (b : Code)
  /-- R398. Sample a texture at an explicit level. -/
  | smpl (d : Code) (a : Code) (b : Code)
  /-- R398. Sample a texture with explicit gradients. -/
  | smpg (d : Code) (a : Code) (b : Code)
  /-- R399. Read one texel without filtering. -/
  | fetch (d : Code) (a : Code) (b : Code)
  /-- R400. Perspective-correct interpolation of an attribute. -/
  | interp (d : Code) (a : Code) (b : Code)
  /-- R397. Horizontal quad difference. -/
  | ddx (d : Code) (a : Code)
  /-- R397. Vertical quad difference. -/
  | ddy (d : Code) (a : Code)
  /-- R401. Hand a primitive index and its record to setup. -/
  | pemit (a : Code) (b : Code)
  /-- R401. Emit a primitive index as culled. -/
  | pemitCull (a : Code)
  /-- R402. Capture a pixel's colour and sample mask for export at its turn. -/
  | pexp (a : Code) (b : Code)
  /-- R319. iN := G(A) whole. -/
  | iset (n : BitVec 3) (a : Code)
  /-- R319. G(A) := iN. -/
  | iget (n : BitVec 3) (a : Code)
  /-- R319. Advance the OFFSET of iN by an immediate. -/
  | iadv (n : BitVec 3) (i : BitVec 12)
  /-- R319. Set iN from base, bound, step and POSTINC with WRAP 0. -/
  | isetFields (n : BitVec 3) (a : Code) (u : BitVec 7) (s : BitVec 4) (c : BitVec 1)
  /-- R319. Set iN from base, bound, step and POSTINC with WRAP 1. -/
  | isetWrap (n : BitVec 3) (a : Code) (u : BitVec 7) (s : BitVec 4) (c : BitVec 1)
  /-- R321. xN := sign-extended imm19. -/
  | xset (n : BitVec 2) (i : BitVec 19)
  /-- R321. xN[31:13] := imm19. -/
  | xsetHi (n : BitVec 2) (i : BitVec 19)
  /-- R321. xN := G(A). -/
  | xld (n : BitVec 2) (a : Code)
  /-- R407. Read state word s into D. -/
  | sget (d : Code) (s : BitVec 7)
  /-- R407. Write G(A) to state word s. -/
  | sset (a : Code) (s : BitVec 7)
  /-- R408. Write uniform register c0–c127 on every copy of the group. -/
  | cset (n : BitVec 7) (a : Code)
  /-- R408. Write uniform register c128–c255 on every copy of the group. -/
  | csetHigh (n : BitVec 7) (a : Code)
  /-- R409. Raise TRAP with code n and park for the supervisor. -/
  | trap (n : BitVec 7)
  /-- R411. Post a 64-byte record image into a stream slot. -/
  | launch (d : Code) (a : Code) (b : Code)
  /-- R412. Add to a timeline counter, as a release at part. -/
  | tlsig (a : Code) (b : Code)
  /-- R412. Set a timeline counter, as a release at part. -/
  | tlsigSet (a : Code) (b : Code)
  /-- R413. Not eligible until issue + max(8, G(A)) clk. -/
  | sleep (a : Code)
  /-- R311. D := pN ? G(A) : G(B). -/
  | sel (d : Code) (a : Code) (b : Code) (p : BitVec 4)
  /-- R311. D := NOT pN ? G(A) : G(B). -/
  | selNot (d : Code) (a : Code) (b : Code) (p : BitVec 4)
  /-- R361. Wait until message register m0 is full, without emptying it (the row WMSG with b = 0). -/
  | wmsg0
  /-- R361. Wait until message register m1 is full, without emptying it (the row WMSG with b = 1). -/
  | wmsg1
  /-- R361. Wait until message register m2 is full, without emptying it (the row WMSG with b = 2). -/
  | wmsg2
  /-- R361. Wait until message register m3 is full, without emptying it (the row WMSG with b = 3). -/
  | wmsg3
  /-- R361. Wait until message register m4 is full, without emptying it (the row WMSG with b = 4). -/
  | wmsg4
  /-- R361. Wait until message register m5 is full, without emptying it (the row WMSG with b = 5). -/
  | wmsg5
  /-- R361. Wait until message register m6 is full, without emptying it (the row WMSG with b = 6). -/
  | wmsg6
  /-- R361. Wait until message register m7 is full, without emptying it (the row WMSG with b = 7). -/
  | wmsg7
  /-- R361. Wait until message register m8 is full, without emptying it (the row WMSG with b = 8). -/
  | wmsg8
  /-- R361. Wait until message register m9 is full, without emptying it (the row WMSG with b = 9). -/
  | wmsg9
  /-- R361. Wait until message register m10 is full, without emptying it (the row WMSG with b = 10). -/
  | wmsg10
  /-- R361. Wait until message register m11 is full, without emptying it (the row WMSG with b = 11). -/
  | wmsg11
  /-- R361. Wait until message register m12 is full, without emptying it (the row WMSG with b = 12). -/
  | wmsg12
  /-- R361. Wait until message register m13 is full, without emptying it (the row WMSG with b = 13). -/
  | wmsg13
  /-- R361. Wait until message register m14 is full, without emptying it (the row WMSG with b = 14). -/
  | wmsg14
  /-- R361. Wait until message register m15 is full, without emptying it (the row WMSG with b = 15). -/
  | wmsg15
  /-- R319. Index register i0 is cleared to zero (the row ICLR with N = 0). -/
  | iclr0
  /-- R319. Index register i1 is cleared to zero (the row ICLR with N = 1). -/
  | iclr1
  /-- R319. Index register i2 is cleared to zero (the row ICLR with N = 2). -/
  | iclr2
  /-- R319. Index register i3 is cleared to zero (the row ICLR with N = 3). -/
  | iclr3
  /-- R319. Index register i4 is cleared to zero (the row ICLR with N = 4). -/
  | iclr4
  /-- R319. Index register i5 is cleared to zero (the row ICLR with N = 5). -/
  | iclr5
  /-- R319. Index register i6 is cleared to zero (the row ICLR with N = 6). -/
  | iclr6
  /-- R319. Index register i7 is cleared to zero (the row ICLR with N = 7). -/
  | iclr7
  /-- R317. No effect beyond one issue interval. -/
  | nop
  /-- R277. Relaxed prefix fused with the following memory instruction. -/
  | rx
  /-- R155. 16-bit return from the light handler, reversing the g0–g3 exchange. -/
  | lretS
  /-- R316. Gives up turns to other eligible threads without parking. -/
  | yield
  /-- R315. Ends the thread; outstanding work is still performed. -/
  | exit
  /-- R354. Group barrier: arrive and wait for every live member. -/
  | bar
  /-- R354. Gang barrier. -/
  | barGang
  /-- R389. Arm the team once its earlier accesses are performed. -/
  | mrdy
  /-- R393. Wait until the team's earlier mma instructions have completed. -/
  | mwait
  /-- R403. End a pixel thread without contribution. -/
  | kill
  /-- R410. Return from the light handler. -/
  | lret
  /-- R406. 32-bit no-operation. -/
  | nopLong
  /-- R15. Power-on or the host's fundamental reset clears everything except fuses, including partition configuration and the thermal trip latch. -/
  | coldReset
  /-- R15. A host command to the service die resets every passenger except the service die and clears partition configuration. -/
  | deviceReset
  /-- R15. A host or supervisor command resets one partition's dies and clears its measurement register; stacks and mirrored streams are kept, and started records complete once (R66). -/
  | partitionReset (part : Nat)
  /-- R15. Fault handling or a supervisor command resets one compute die's cores, caches, cistern and rasteriser: egress is quiesced and the link is held in reset. -/
  | dieReset (die : Nat)
  /-- R15. After the 2 µs hold of a die or partition reset, the die's link is retrained. -/
  | dieLinkRetrain (die : Nat)
  /-- R15. A die returns from reset, and accesses held at their sources are performed. -/
  | dieReturn (die : Nat)
  /-- R15. An access held 50 µs for a reset die completes as die-lost: a load returns zero, a store is discarded and a record is written. -/
  | dieLostTimeout (die : Nat)
  /-- R16. After a cold or device reset, the next bring-up phase starts when the previous phase ends, and failures are recorded by socket. -/
  | bringUpPhase (failed : List Nat)
  /-- R14. Every 10 µs the service die reads the junction sensors and acts on the hottest reading. -/
  | junctionSensorRead (celsius socket : Nat)
  /-- R11. Loss of the reference input records a clock fault and holds the package in reset. -/
  | clockFault
  /-- R11. Return of the reference input releases the package from the clock-fault reset. -/
  | clockReferenceReturn
  /-- R18. A host mailbox command adds or removes dies held in die reset; moves of running dies are rejected with a status. -/
  | partitionConfiguration (cmd : PartCmd)
  /-- R20. A host extension sets a measurement register M to SM3(M ‖ d). -/
  | measurementExtend (reg : Nat) (digest : List Byte)
  /-- R21. On request, the service die returns a report signed with SM2 holding the nonce, identity, presence map and measurements. -/
  | attestationReport (nonce : List Byte)
  /-- R92. A start command makes the service die check the supervisor object, extend the measurement and start supervisor threads on every die. -/
  | supervisorStart (part codeVA : Nat)
  /-- R49. The service die sets a PCI Express port to endpoint or root port while its partitions are in reset. -/
  | portModeSet (port : Nat) (root : Bool) (parts : List Nat)
  /-- R50. IDE keys are set with IDE_KM over an SPDM session on DOE mailbox 0 of physical function 0. -/
  | ideKeySet (port stream : Nat) (key : List Byte)
  /-- R50. An IDE integrity failure drops the link and is logged as a link event. -/
  | ideIntegrityFailure (port : Nat)
  /-- R23. A detected uncorrectable error is reported to the owning fault queue and to the log; a thread holding state with no address is killed. -/
  | uncorrectableError (site : ErrSite)
  /-- R75. Patrol scrubbing reads and corrects HBM and SRAM within its budget allowance. -/
  | patrolScrub (site : ErrSite) (corrected : Bool)
  /-- R73. Every 10 µs all budget counters and the partition link shares are reloaded, and deferred work runs in order. -/
  | budgetPeriod
  /-- R30. A received flit is RS-decoded, CRC-checked, authenticated on span links and header-checked, then delivered by channel-class order or treated as bad. -/
  | flitReceive (link : Nat) (flit : List Byte)
  /-- R35. When the repeat timeout expires without an acknowledgement, the sender repeats the flit. -/
  | repeatTimeout (link seq : Nat)
  /-- R37. A flit repeated 8 times without acknowledgement makes the link retrain, keeping the replay buffers and received maps. -/
  | linkRetrain (link : Nat)
  /-- R37. A failed retraining fails the link: the die pair is lost, the ports go down, or routes are changed. -/
  | linkFailed (link : Nat)
  /-- R38. A lane over its error threshold takes its module out of service to retrain and repair it. -/
  | laneRepair (link module lanes : Nat)
  /-- R39. A span port with a failed lane runs on 4 lanes, or goes down with fewer than 4 good lanes. -/
  | spanLaneFailure (port failed : Nat)
  /-- R43. The two service dies agree span keys with SM2 key agreement on MGMT and exchange port bindings. -/
  | keyAgreement (port : Nat) (peer : List Byte) (peerPart : Nat)
  /-- R44. The service die installs a new key in the empty slot at the receiver and then the sender, and new flits are sealed under it. -/
  | keyRollover (port : Nat)
  /-- R44. After 2^36 flits under one key a rollover is requested; after 2^40 no new data flits are sent. -/
  | keyUseLimit (port : Nat)
  /-- R44. With no old-slot flit left in the replay buffer and the switch acknowledged, the sender sends a retire notice and both ends clear the old slot. -/
  | slotRetire (port : Nat)
  /-- R43. One SEQ failing authentication 4 times takes the port down and logs a security event. -/
  | spanAuthFailure (port seq : Nat)
  /-- R58. A host write to a stream area fills the full/empty bits of its words, or is discarded whole with a HOSTERR record. -/
  | hostStreamWrite (part port off : Nat) (data : List Byte)
  /-- R64. A stream write or record state change arriving on MIRROR is applied to a live copy and acknowledged. -/
  | mirrorWrite (part stream off : Nat) (data : List Byte)
  /-- R59. When word 15 of slot HEAD becomes full, the placer copies the record, marks it accepted in every live copy and advances HEAD. -/
  | recordAccept (part stream : Nat)
  /-- R270. The translator completes the conversion of a Cuique region into its translated-code cache, and the record's gangs may then be placed on the die. -/
  | cuiqueTranslation (die part codeVA : Nat)
  /-- R66. Writing 1 to CANCEL completes every record of the stream not yet started with status CANCELLED. -/
  | streamCancel (part stream : Nat)
  /-- R62. Writing HOSTHEAD releases completion entries that the placer holds until HOSTHEAD ≥ n − 255. -/
  | hostheadWrite (part stream : Nat) (value : Word)
  /-- R62. When a record's work has ended, the placer writes the completion entry, posts it to CQHOST, applies the signal and empties the slot. -/
  | recordComplete (part stream slot : Nat)
  /-- R65. Loss of a die moves stream homes and mirrors, reruns or fails started records, and closes draws. -/
  | dieLost (die : Nat)
  /-- R67. A host 8-byte write raises counter k to v if v is not lower, else logs CTRLOW; waiting records are tested again. -/
  | timelineSet (part ctr : Nat) (value : DWord)
  /-- R67. A host 8-byte write adds to counter k, saturating with CTRSAT; waiting records are tested again. -/
  | timelineAdd (part ctr : Nat) (value : DWord)
  /-- R69. Writing FQHEAD frees fault-queue space; a LOST record is written first, then waiting THREAD records. -/
  | fqheadWrite (part : Nat) (value : Word)
  /-- R55. A write to a peer aperture entry by the host, or by a supervisor of its PART, with illegal supervisor writes ignored and logged. -/
  | apertureEntryWrite (io k : Nat) (entry : BitVec 128) (writer : Option Nat)
  /-- R56. A write to a span aperture entry: any field by the host, only EN and WR by the owning supervisor. -/
  | spanApertureEntryWrite (io k : Nat) (entry : BitVec 128) (writer : Option Nat)
  /-- R55. A PCI Express completion for a peer read returns data, or on error returns zero with a PEERERR record. -/
  | peerReadCompletion (access status : Nat) (data : List Byte)
  /-- R55. A peer read with no completion after 50 ms returns zero and writes a PEERERR record. -/
  | peerReadTimeout (access : Nat)
  /-- R51. A host write through BAR4 is performed at its home in arrival order for its port. -/
  | hostMemoryWrite (part port off : Nat) (data : List Byte)
  /-- R51. A host read through BAR4 is served at its home, or receives Unsupported Request. -/
  | hostMemoryRead (part port off len : Nat)
  /-- R54. A physical-function-0 access to the mailbox, IO-die control, die control or stacks; absent ranges read zero and writes there are logged. -/
  | managementBarAccess (bar : PortBar) (off : Nat) (write : Bool) (data : List Byte) (len : Nat)
  /-- R71. A request from below a root port addresses PA[51:0], is checked against the partition, and is performed at its home in port order. -/
  | upstreamRequest (port : Nat) (addr : DWord) (write : Bool) (data : List Byte) (len : Nat)
  /-- R56. A request arriving from the peer package is performed at the local bound partition's homes with its rights. -/
  | spanRequest (port part off : Nat) (op : SpanOp)
  /-- R96. Every 64 clk each die's placer chooses and places at most one gang, resident grid share, restore or pixel group. -/
  | placementWindow
  /-- R99. A gang offered 20 µs without placement reserves a planned cluster range on a die. -/
  | drainReservation (part stream slot : Nat)
  /-- R106. When every resident group of a grid has been parked 50 µs and a gang waits, parked gangs of that grid are evicted so that it fits. -/
  | stallResolution (part stream slot : Nat)
  /-- R109. A supervisor or reset request pre-empts whole gangs, which are halted and saved. -/
  | preemptionRequest (gangs : List Nat)
  /-- R109. A frame gang whose reservation has been held 20 µs pre-empts batch and background gangs holding its plan. -/
  | framePreemption (die : Nat)
  /-- R112. The context engine finishes writing a save to the die's stack and its partner's, and the next save on a common stack starts. -/
  | saveComplete (gang : Nat)
  /-- R115. A raster control write waits until no draw is running, then is applied to every die of the partition. -/
  | rasterControlWrite (part off : Nat) (value : DWord)
  /-- R122. Setup takes the next emitted index, converts, tests area and facing, clips and sends the primitive to each tile owner. -/
  | primitiveSetup (die : Nat)
  /-- R124. At least every 256 clk with a draw in flight, a source sends its bound as a watermark to every die. -/
  | watermarkPeriod (die : Nat)
  /-- R123. A sluice primitive message is received into its source's merge buffer in SSEQ order. -/
  | primitiveMessage (src dst : Nat) (payload : List Byte)
  /-- R124. A watermark message raises the source's bound once every earlier primitive has arrived. -/
  | watermark (src dst : Nat) (payload : List Byte)
  /-- R125. A credit message updates a source's running total of returned credits. -/
  | credit (src dst : Nat) (payload : List Byte)
  /-- R127. A close of ordinal o counts as END of draw o from every source, or from the named lost die. -/
  | close (src dst : Nat) (payload : List Byte)
  /-- R126. The merge releases a head primitive once no source can still send a lower tag, and returns its credit. -/
  | mergeRelease (die : Nat)
  /-- R130. The owner forms covered quads of a released primitive in order and packs them into pixel static waves. -/
  | rasterise (die : Nat)
  /-- R131. A pixel static wave starts when full, after 64 clk with no release, or at the end of the draw. -/
  | staticWaveStart (die group wave : Nat)
  /-- R132. At its turn in tag order, an export is depth- and stencil-tested and blended into the target samples. -/
  | exportApply (die : Nat)
  /-- R203. An access arriving at its home slice or bank is applied there in the location's single order. -/
  | homeAccess (access : Nat)
  /-- R144. A reply arrives, writes its pending destinations and makes the thread eligible. -/
  | memoryReply (access : Nat)
  /-- R207. A walk finishes: the translation is filled, or the translation cause is raised at the faulting accesses. -/
  | pageWalkComplete (die part vpage : Nat)
  /-- R211. ACT = 1 moves a fault-table entry to resolving, and every waiter retries with a fresh translation. -/
  | faultReplay (die entry : Nat)
  /-- R211. ACT = 2 kills every waiter of a fault-table entry, and their records become FAULTED. -/
  | faultKill (die entry : Nat)
  /-- R208. Writing IBUSY = 1 with IALL 0 drops translations of pages IVA to IVA + ICOUNT − 1 on every die of the partition. -/
  | tlbInvalidateRange (part first count : Nat)
  /-- R208. Writing IBUSY = 1 with IALL 1 drops every translation of the partition. -/
  | tlbInvalidateAll (part : Nat)
  /-- R208. Once no stale translation remains and its accesses are performed, IBUSY reads 0. -/
  | invalidationComplete (part : Nat)
  /-- R227. Every 32 clk each die announces up to 64 pending sc operations, carrying the rest to the next window. -/
  | heraldWindow
  /-- R228. 128 clk after a window ends, homes apply its sc read-modify-writes in order S, and the fences complete. -/
  | heraldCompletion (access : Nat)
  /-- R162. An arriving migrant or spawned context takes the highest free slot, or waits in the landing area or the overflow region. -/
  | migrantArrival (thread : Nat)
  /-- R163. A freed slot is taken by the oldest migrant waiting in the landing area. -/
  | landingSlotTake (core : Nat)
  /-- R164. A context in an overflow queue moves into the landing area as space frees, after 200 clk. -/
  | overflowMove (core : Nat)
  /-- R149. An arriving message-register write fills the register, or waits in the message port, and wakes waiters. -/
  | messageRegisterArrival (core reg : Nat) (value : Word) (sender : Nat)
  /-- R150. A message enters the mailbox, or waits at a full one, and may raise MAIL. -/
  | mailboxArrival (core : Nat) (msg : BitVec 128) (sender : Nat) (mover : Bool)
  /-- R152. A rill entry becomes readable at the reader 4 clk after its write, and a waiting reader resumes. -/
  | rillEntryReadable (core port : Nat)
  /-- R155. At an instruction boundary the thread swaps g0–g3 with h0–h3, sets %lhret, %lhcause and %lhdat, and continues at %lhpc. -/
  | lightHandlerEntry (thread : Nat) (cause : Nat) (datum : Word)
  /-- R375. The mover takes its next queued command, reads the block and performs its elements in ascending order. -/
  | moverCommandStart (core : Nat)
  /-- R378. At its end the command sends its weir decrements, then the mailbox message, then the COPY event. -/
  | moverCommandComplete (core : Nat)
  /-- R371. A decrement lowers PENDING of the mover's source, setting ERR on underflow or no match. -/
  | weirDecrement (weir place bytes : Nat)
  /-- R392. A matrix instruction completes T + 8 clk after it begins, writing D, and the next queued mma may begin. -/
  | mmaComplete (core : Nat)
  /-- R356. A barw whose timeout expires returns 1 and is not an acquire. -/
  | barwTimeout (thread : Nat)
  /-- R413. The thread becomes eligible at its sleep deadline. -/
  | sleepExpiry (thread : Nat)
  /-- R417. A thread parked for %wdlim µs raises WATCHDOG, and its wait is abandoned. -/
  | watchdog (thread : Nat)
  /-- R418. ACT 1 replays the parked thread's faulting instruction. -/
  | threadReplay (die : Nat)
  /-- R418. ACT 2 resumes the parked thread at the next instruction, skipping the faulting one. -/
  | threadResumeNext (die : Nat)
  /-- R418. ACT 3 resumes the parked thread at TPC. -/
  | threadResumeAtTpc (die : Nat)
  /-- R418. ACT 4 kills the parked thread, removing it from any fault-table entry. -/
  | threadKill (die : Nat)
  /-- R418. A write to CTX changes the state of a thread parked on a fault, or its saved image, ignoring illegal fields. -/
  | contextWrite (die off : Nat) (value : Word)
  /-- R81. A write to a die event counter's COUNT or select word; a COUNT write supersedes that clk's events, and OVF clears on 1. -/
  | eventCounterWrite (die k : Nat) (select : Bool) (value : DWord)
  /-- R57. A write to a control register with no behaviour of its own, such as descriptor fields, TBASE, PRIVPOOL or TSEL, under its access rules. -/
  | registerWrite (reg : RegName) (value : DWord)
  /-- R65. The service die fails; the two die copies of each stream and of the counters continue without it. -/
  | serviceDieFailure
  /-- R65. The service die returns and its copies of the streams, counters and fault queue are rebuilt from the die copies. -/
  | serviceDieReturn
  /-- R37. A link's retraining succeeds within 20 µs, and the unacknowledged flits are then repeated from the kept replay buffers. -/
  | retrainingComplete (link : Nat)
  /-- R38. A module taken out of service returns after at most 10 µs with its lane repaired onto a spare. -/
  | laneRepairComplete (link module : Nat)
  /-- R39. A down span port trains again, E restarts at zero, and only MGMT traffic crosses it until a key is live. -/
  | spanPortReturn (port : Nat)
  /-- R48. A PCI Express port's link to its partner goes down, and later posts through it are discarded with a LINK record. -/
  | pcieLinkDown (port : Nat)
  /-- R48. A down PCI Express port trains again in FLIT mode after bring-up. -/
  | pcieLinkUp (port : Nat) (flitMode : Bool)
  /-- R18. The channel cores finish clearing a departing die's stack, which takes up to 1.5 s, and the die may join another partition. -/
  | stackClearComplete (die : Nat)
  /-- R112. The context engine finishes reading a gang's saved areas, and the restored threads become ready at the next window. -/
  | restoreComplete (gang : Nat)
  /-- R290. Decoding an unassigned encoding raises the illegal-instruction trap, parks the thread and writes a THREAD record. -/
  | illegalInstruction
  /-- R275. A first parcel of 0x0000 raises the zero-parcel trap. -/
  | zeroParcel
  /-- R264. A fetch of a parcel at or beyond the code region bound raises the fetch-bound fault. -/
  | fetchBound
  /-- R273. A translated Cuique legacy word resolves its operands and raises the legacy trap with its sub-cause and record. -/
  | legacyTrap (sub : Nat) (wordVA : Nat) (d a b : BitVec 8) (lit : Word)
  deriving DecidableEq, Repr

end Sys2Proof
end

