-- ==== Sys2Proof/Machine/State.lean ====
section
/-! DEFINITION. The state of the machine: everything the manual gives it, as plain data, and the state right after reset. -/

namespace Sys2Proof.Machine
open Sys2Proof

/-- A finite table from numbers to values, sorted by number: what is not listed has the table's default. -/
abbrev Table (α : Type) := List (Nat × α)

/-- Memory: address and byte, addresses strictly rising, no byte listed that equals what an unlisted address reads as. -/
abbrev Memory := List Host.Cell

/-- The causes of R415. -/
inductive Cause where
  /-- 1: illegal instruction (R276, R290). -/
  | illegal
  /-- 2: zero first parcel (R275). -/
  | zeroParcel
  /-- 3: wrong engine (R291). -/
  | wrongEngine
  /-- 4: fetch bound (R264). -/
  | fetchBound
  /-- 5: register bound (R170, R181). -/
  | regBound
  /-- 6: index bound (R181). -/
  | indexBound
  /-- 7: translation (R205). -/
  | translation
  /-- 8: permission (R206). -/
  | permission
  /-- 9: alignment (R194). -/
  | alignment
  /-- 10: window (R193 to R197 and every rule that names it). -/
  | window
  /-- 11: privilege (R407). -/
  | privilege
  /-- 12: barrier scope (R84, R356). -/
  | barrierScope
  /-- 13: migration oversize (R160). -/
  | migOversize
  /-- 14: weir expectation overflow (R371). -/
  | weirOverflow
  /-- 15: legacy unsupported (R273). -/
  | legacy
  /-- 16: floating point, delivered to the supervisor (R246). -/
  | float
  /-- 17: breakpoint (R317). -/
  | breakpoint
  /-- 18: watchdog (R417). -/
  | watchdog
  /-- 19: trap (R409). -/
  | trap
  deriving DecidableEq, Repr

/-- Where a thread stands (R141, R405). A core number is (die × 16 + cluster) × 64 + core, with cluster 15 for channel cores and
core 32 to 37 for wave engines; shifted left by 6 it is the core name of R359. -/
inductive Place where
  /-- Not placed. -/
  | nowhere
  /-- A barrel slot of a swarm or channel core. -/
  | swarm (core slot : Nat)
  /-- A position of a lane of a wave engine. -/
  | wave (core lane pos : Nat)
  /-- On the way to a core, or waiting in its landing area or overflow queue (R158, R163, R164). -/
  | transit (core : Nat)
  deriving DecidableEq, Repr

/-- What a memory access does at its home. -/
inductive AccOp where
  /-- Load of n bytes, sign-extended from n bytes when sx. -/
  | load (n : Nat) (sx : Bool)
  /-- Store of the low n bytes of the data. -/
  | store (n : Nat) (data : BitVec 128)
  /-- Full/empty operation op (R343) with its register value. -/
  | fe (op : Nat) (v : Word)
  /-- Read-modify-write (R350): operation, 64-bit, value, second value of cas, and whether the old value returns. -/
  | rmw (op : Nat) (wide : Bool) (v n : DWord) (ret : Bool)
  /-- The same on 64 bits of the private window, whose high word stands at another key (R198). -/
  | rmwPair (op hi : Nat) (v n : DWord) (ret : Bool)
  /-- Load of further words at these physical addresses (R345). -/
  | ldm (words : List Nat)
  /-- Store of words at these physical addresses (R345). -/
  | stm (words : List (Nat × Word))
  /-- Prefetch of the line (R347). -/
  | prefetch
  deriving DecidableEq, Repr

/-- How far an outstanding access has come. -/
inductive AccPhase where
  /-- On its way to the home. -/
  | sent
  /-- Parked at the home in the wait table or with a ticket (R147, R148). -/
  | parked
  /-- Held because the home die is in reset, since the clk given (R15). -/
  | held (since : Nat)
  /-- Waiting for a completion from PCI Express (R55). -/
  | peer
  /-- Announced on the herald and not yet complete (R227). -/
  | herald
  /-- Performed: the reply, least register first. -/
  | done (reply : List Word)
  deriving DecidableEq, Repr

/-- An outstanding access (R144, R340): the thread waits for it, or only its destination registers do. -/
structure Flight where
  /-- Identity of the access. -/
  id : Nat
  /-- Identity of the thread that issued it. -/
  owner : Nat
  /-- Physical address, the sort key of its home. -/
  pa : Nat
  /-- Operation. -/
  op : AccOp
  /-- First destination register, and how many are pending. -/
  dst : Nat
  /-- Number of destination registers. -/
  nreg : Nat
  /-- The thread stands still until the reply (an access without rx that must wait). -/
  blocks : Bool
  /-- Counts as spawned update context, not as rx access (R340). -/
  spawned : Bool
  /-- The access uses the cluster L1 of this core (wave global CLEVEL 0 and private accesses, R202). -/
  viaL1 : Bool
  /-- Leaf entry of its page, 0 where there is none (R204). -/
  pte : DWord
  /-- Latency L with which it was sent (R145). -/
  lat : Nat
  /-- Acquires in the cluster L1 of its thread when it has been performed (R221). -/
  acq : Bool
  /-- How far it has come. -/
  phase : AccPhase
  deriving DecidableEq, Repr

/-- Cross-lane operations (R381). -/
inductive CrossOp where
  | shfl | shflx | voteAny | voteAll | ballot | lsum (t : BitVec 2) | lmin (t : BitVec 2) | bcast
  deriving DecidableEq, Repr

/-- Quad operations (R396). -/
inductive QuadOp where
  | smp | ddx | ddy
  deriving DecidableEq, Repr

/-- Matrix forms by minor (R385). -/
inductive TeamOp where
  | mrdy
  | mwait
  /-- mma of this minor, with keep: D and A registers as resolved, and the B address pair's value. -/
  | mma (minor : Nat) (keep : Bool)
  deriving DecidableEq, Repr

/-- What a thread waits for (R104, R380, R420). Full/empty, message register, mailbox, weir and barrier object waits are
parked in the sense of R104; the others hold the thread out of rotation. -/
inductive Wait where
  /-- A full/empty access at its home. -/
  | fe (access : Nat)
  /-- Message register reg full; take empties it (mget) (R361). -/
  | msgReg (reg : Nat) (take : Bool)
  /-- A message in the mailbox (R363). -/
  | mailbox
  /-- A weir's phase to differ from p, or ERR (R372). -/
  | weir (pa : Nat) (phase : Bool)
  /-- A barrier object's sense, until a deadline clk (0 for none) (R356). -/
  | barObj (pa : Nat) (want : Bool) (deadline : Nat)
  /-- A rill entry or space (R152). -/
  | rill (port : Nat)
  /-- The clk of a sleep (R413). -/
  | sleep (deadline : Nat)
  /-- The group's barrier (R354). -/
  | bar
  /-- The gang's barrier (R354). -/
  | barGang
  /-- A cross-lane instruction (R167). -/
  | cross (op : CrossOp) (d a b : Code)
  /-- A quad instruction (R396). -/
  | quad (op : QuadOp) (d a b : Code)
  /-- A team instruction: D and A as resolved, the B address (R386). -/
  | team (op : TeamOp) (d a : Nat) (b : DWord)
  /-- A page walk of its partition for this virtual page (R207, R209). -/
  | walk (die vpage : Nat)
  /-- The reply of an access that holds the thread (R15, R143). -/
  | access (id : Nat)
  /-- Its own outstanding accesses (R144, R353); the instruction then executes. -/
  | drain
  /-- Fewer than 4 rx accesses or spawned contexts outstanding (R144, R165). -/
  | slots
  /-- A free wave position for wenter, or slot for wleave (R168). -/
  | engine
  /-- Its index within setup's window of 1,024 (R121); parked (R401). -/
  | emit (index : Nat)
  /-- Texture data from outside the package; the instruction then executes. -/
  | texels
  deriving DecidableEq, Repr

/-- A thread's fault while it is parked at the faulting instruction (R416). [DEDUCED: log 24] -/
structure FaultRec where
  /-- Cause. -/
  cause : Cause
  /-- Address concerned. -/
  addr : DWord
  /-- Operand position, 255 for none. -/
  pos : Nat
  /-- Index register, 255 for none. -/
  idx : Nat
  /-- Code: n of trap or brk, or exception flags. -/
  code : Nat
  /-- Access kind (R416 byte 31). -/
  acc : Nat
  /-- Parcels of the faulting instruction, for resuming at the next (R418). -/
  len : Nat
  /-- Fault-table entry joined (R210), if any. -/
  entry : Option Nat
  /-- Waits with a fault ticket (R212). -/
  ticket : Option Nat
  /-- SEQ of the THREAD record, for the completion's DETAIL (R62). -/
  seq : Nat
  deriving DecidableEq, Repr

/-- The running state of a thread. -/
inductive Run where
  /-- No thread (a free place, or a thread that has ended). -/
  | absent
  /-- Eligible once readyAt has come and no pending register stands in the way. -/
  | ready
  /-- Waiting. -/
  | waiting (w : Wait)
  /-- Parked on a fault. -/
  | faulted (f : FaultRec)
  deriving DecidableEq, Repr

/-- Pre-emption state of a thread (R110 to R112). -/
inductive Hold where
  | running | halted | saved
  deriving DecidableEq, Repr

/-- Pixel data of a pixel thread (R130, R402). -/
structure Pixel where
  /-- Pixel coordinates. -/
  x : Nat
  /-- Pixel coordinates. -/
  y : Nat
  /-- Covered-sample mask. -/
  cov : BitVec 4
  /-- Ordinal and index of its primitive. -/
  ord : Nat
  /-- Index of its primitive. -/
  prim : Nat
  /-- A helper (R130). -/
  helper : Bool
  /-- Exported already (R402). -/
  exported : Bool
  deriving DecidableEq, Repr

/-- How a waiting instruction completes: its destination register, the index registers it advances, and its parcels. -/
structure Finish where
  /-- First destination register number. -/
  dst : Nat
  /-- Index registers to advance (R183). -/
  adv : List Nat
  /-- Parcels of the instruction, its rx prefix included. -/
  len : Nat
  deriving DecidableEq, Repr

/-- Registers that await a result (R144, R146, R186): general registers by number, predicate p as 128 + p, index register j as 144 + j and
extension register j as 152 + j. -/
structure Mark where
  /-- First register. -/
  first : Nat
  /-- Number of registers. -/
  count : Nat
  /-- Clk from which the result is there. -/
  till : Nat
  /-- Outstanding access that brings it, if it waits for one. -/
  flight : Option Nat
  deriving DecidableEq, Repr

/-- A thread and its context (R169, R404, R420). -/
structure Thread where
  /-- The model's identity of the thread. -/
  uid : Nat
  /-- Running state. -/
  run : Run
  /-- Pre-emption state. -/
  hold : Hold
  /-- Current place. -/
  place : Place
  /-- General registers. -/
  g : Vector Word 128
  /-- Predicates; bit 0 reads as one (R173). -/
  p : BitVec 16
  /-- Index registers. -/
  idx : Vector Word 8
  /-- Extension registers. -/
  x : Vector Word 4
  /-- Shadow registers. -/
  h : Vector Word 4
  /-- PC, a parcel index. -/
  pc : Word
  /-- Light-handler PC. -/
  lhpc : Word
  /-- Light-handler enables, bits 2 to 5. -/
  lhen : Word
  /-- Return PC. -/
  lhret : Word
  /-- Cause of the latest entry. -/
  lhcause : Word
  /-- Datum of the latest entry. -/
  lhdat : Word
  /-- Inside a handler. -/
  inH : Bool
  /-- Pending handler causes by number (R155). -/
  pend : BitVec 6
  /-- Datum of a pending MAIL event. -/
  pendMail : Word
  /-- Datum of a pending COPY event. -/
  pendCopy : Word
  /-- Declared register count. -/
  count : Nat
  /-- First entry of the register file. -/
  base : Nat
  /-- Encoding version of its object. -/
  version : Byte
  /-- Compatibility word. -/
  compat : BitVec 16
  /-- Exception enables. -/
  fxen : BitVec 5
  /-- REACH: near means go. -/
  reach : Bool
  /-- Issue priority. -/
  prio : Nat
  /-- Primitive role. -/
  prim : Bool
  /-- Virtual address of the code region. -/
  codeVA : Nat
  /-- Code region bound in parcels. -/
  bound : Nat
  /-- Key of the translated object of a Cuique thread. -/
  tkey : Nat
  /-- Private size. -/
  privSize : Nat
  /-- Private backing base. -/
  privBase : Nat
  /-- Partition. -/
  part : Nat
  /-- Group, by the model's identity; its low 13 bits are the group identity of R161. -/
  grp : Nat
  /-- Gang, by the model's identity. -/
  gang : Nat
  /-- Role word index. -/
  role : Nat
  /-- Thread number within its role. -/
  tid : Nat
  /-- Gang index. -/
  gangIdx : Nat
  /-- Group index in the gang. -/
  gidx : Nat
  /-- ARGS. -/
  args : DWord
  /-- Stream of its record. -/
  stream : Nat
  /-- Slot of its record. -/
  slot : Nat
  /-- Run number of its record. -/
  runNo : Nat
  /-- Belongs to a record (a supervisor thread does not, R92). -/
  ofRecord : Bool
  /-- Slice bounds. -/
  dslo : Word
  /-- Slice bounds. -/
  dshi : Word
  /-- Basin offset of its role's part. -/
  basin : Word
  /-- Entered a wave engine by wenter. -/
  entered : Bool
  /-- Core where it was placed, for rills and wleave. -/
  homeCore : Nat
  /-- Stands as a guest: it has arrived by migration or as a spawned context (R162). -/
  guest : Bool
  /-- Vacated from its slot while it is parked: it rejoins a landing queue when its wait ends (R163). -/
  vacated : Bool
  /-- Spawner, for an update context. -/
  spawner : Option Nat
  /-- Pixel data. -/
  pixel : Option Pixel
  /-- An rx prefix has issued and its instruction is next. -/
  rx : Bool
  /-- Clk at which it is eligible again. -/
  readyAt : Nat
  /-- Skip count, or turns waited on a wave engine (R101, R102). -/
  skip : Nat
  /-- Turns that a yield still gives up. -/
  yields : Nat
  /-- Clk since which it has been parked (R104). -/
  parkedAt : Nat
  /-- Clk at which its last access was performed (R227). -/
  performedAt : Nat
  /-- Completion data of its wait. -/
  fin : Finish
  /-- Registers of uncompleted matrix instructions: D and A (R235). -/
  busy : List Nat
  /-- The model's own: number of the free values its busy registers read as. -/
  seed : Nat
  /-- Replay list of a save, and kept replies (R110, R352). -/
  replay : List Flight
  /-- Registers that its latest instruction on a wave engine writes, whose result is there at readyAt; none when the thread is not ready
  before that clk (R146). -/
  cur : Option (List (Nat × Nat))
  /-- Registers of its earlier instructions that await a result (R146, R186). -/
  marks : List Mark
  /-- Clk until which it awaits a memory reply (R82). -/
  memTo : Nat
  /-- Locations of a migrating access as translated at its origin: key, window and leaf entry (R209). -/
  carried : List (Nat × Nat × DWord)
  /-- A spawned store on its way: the key and the operation that it performs at its destination (R165, R342). -/
  update : Option (Nat × AccOp)
  /-- Core or engine that a context on its way has left (the model's own). -/
  origin : Nat
  deriving DecidableEq, Repr

/-- A message waiting for, or in, a message port (R149). -/
structure PortWrite where
  /-- Register. -/
  reg : Nat
  /-- Value. -/
  value : Word
  /-- Sending thread: out of rotation until the write has entered. -/
  sender : Nat
  /-- Entered the port; otherwise it waits at the target behind it. -/
  entered : Bool
  /-- A mover command: the four words of R373, m12 to m15, as one group. -/
  cmd : Option (BitVec 128)
  deriving DecidableEq, Repr

/-- A mailbox message (R150, R378). -/
structure Mail where
  /-- The 16 bytes, gB in bits [31:0]. -/
  msg : BitVec 128
  /-- A mover completion message. -/
  mover : Bool
  /-- Sending thread, held while the message waits at the target behind the first 32 (0 for none). -/
  sender : Nat
  deriving DecidableEq, Repr

/-- A rill entry at the reader's in port: 32 bits, control flag, and the clk at which it is readable (R152). -/
structure RillEntry where
  /-- Data bits. -/
  data : Word
  /-- Control flag. -/
  ctl : Bool
  /-- Readable from this clk. -/
  at_ : Nat
  deriving DecidableEq, Repr

/-- A wired rill port (R151, R267): direction, the core and port joined to it, and its owner thread. -/
structure Wire where
  /-- Port number. -/
  port : Nat
  /-- An out port. -/
  out : Bool
  /-- Neighbour core. -/
  peer : Nat
  /-- Neighbour's port. -/
  peerPort : Nat
  /-- Owner thread. -/
  owner : Nat
  /-- Gang that holds the core's rills. -/
  gang : Nat
  deriving DecidableEq, Repr

/-- Who posted a mover command, as far as its accesses and records need it (R377, R378, R438). -/
structure Poster where
  /-- Identity. -/
  uid : Nat
  /-- Partition. -/
  part : Nat
  /-- A supervisor thread. -/
  super : Bool
  /-- Posted by a thread of a record. -/
  ofRecord : Bool
  /-- Gang. -/
  gang : Nat
  /-- Bytes 44 to 47 of a THREAD record: thread number, group identity and role. -/
  ident : Nat
  /-- Stream. -/
  stream : Nat
  /-- Slot. -/
  slot : Nat
  /-- Run number. -/
  runNo : Nat
  deriving DecidableEq, Repr

/-- A mover command in the queue or in progress (R373 to R377). -/
structure MoverCmd where
  /-- m12 to m15, m12 in bits [31:0]. -/
  words : BitVec 128
  /-- Posting thread. -/
  poster : Poster
  /-- Block contents, once read and found good. -/
  block : Option (List Byte)
  /-- Elements done. -/
  k : Nat
  /-- Bytes done and not yet counted at the weir. -/
  uncounted : Nat
  /-- Clk at which element 0 of the present run is performed, less its number, once the run has begun. -/
  base : Option Nat
  /-- Waits in the fault table: cause, address, access kind, entry or ticket. -/
  fault : Option FaultRec
  /-- The next element whose accesses set out ahead of its turn (R376). -/
  ahead : Nat
  /-- Clk at which the accesses of element 0 of the present run set out, less its number. -/
  start : Nat
  /-- The weir at which it counts, once the block has been read. -/
  weir : Option Nat
  /-- Ended: status, cause code and address. -/
  ended : Option (Nat × Nat × Nat)
  deriving DecidableEq, Repr

/-- An issued matrix instruction that has not completed (R390 to R392). -/
structure MmaJob where
  /-- Team: group, and role × 64 + team number. -/
  team : Nat × Nat
  /-- Minor of the form. -/
  minor : Nat
  /-- Compatibility word of its threads. -/
  compat : BitVec 16
  /-- Live threads: identity, team thread number, first D register. -/
  who : List (Nat × Nat × Nat)
  /-- A operand of the 256 team threads, up to four words each. -/
  a : List (List Word)
  /-- B bytes. -/
  b : List Byte
  /-- Registers that its completion leaves unspecified: identity and first of 16 (R390). -/
  free : List (Nat × Nat)
  /-- Clk at which it completes. -/
  doneAt : Nat
  deriving DecidableEq, Repr

/-- A swarm core, channel core or wave engine (R149, R150, R152, R156, R82). -/
structure Core where
  /-- Message registers. -/
  m : Vector Word 16
  /-- Full bits of the message registers. -/
  mFull : BitVec 16
  /-- Message port: 16 writes, and those waiting behind it. -/
  port : List PortWrite
  /-- Mailbox: 32 messages, and those waiting at it. -/
  mail : List Mail
  /-- Rill in ports q0 to q3. -/
  rill : Vector (List RillEntry) 4
  /-- Wired ports. -/
  wires : List Wire
  /-- Event counters. -/
  evc0 : Word
  /-- Event counters. -/
  evc1 : Word
  /-- Event selects. -/
  evs0 : Byte
  /-- Event selects. -/
  evs1 : Byte
  /-- Slot that issued last (R101). -/
  last : Nat
  /-- First clk at which it may issue again: one issue per clk (R143), slots taken by background activity (R76). -/
  issued : Nat
  /-- One more than the clk of the last issue of a thread, 0 for none (R82). -/
  ran : Nat
  /-- Landing area, oldest first: identities of waiting threads (R163). -/
  landing : List Nat
  /-- Overflow queue, oldest first (R164). -/
  overflow : List Nat
  /-- Mover queue, the command in progress first (R156). -/
  movers : List MoverCmd
  /-- Matrix array queue (R392). -/
  mmaQ : List MmaJob
  /-- Clk at which the array is free. -/
  mmaFree : Nat
  /-- Clk at which the binary64 unit is free (R146). -/
  f64Free : Nat
  /-- Threads of the dynamic wave formed in this clk that have not issued yet (R166). -/
  wave : List Nat
  deriving DecidableEq, Repr

/-- The core right after its SRAMs are cleared (R16 phase 5); the counters and the rotation start as log entry 2 says. [DESIGN CHOICE: log 2] -/
def Core.reset : Core where
  m := Vector.replicate 16 0
  mFull := 0
  port := []
  mail := []
  rill := Vector.replicate 4 []
  wires := []
  evc0 := 0
  evc1 := 0
  evs0 := 0
  evs1 := 0
  last := 63
  issued := 0
  ran := 0
  landing := []
  overflow := []
  movers := []
  mmaQ := []
  mmaFree := 0
  f64Free := 0
  wave := []

/-- Team state (R389, R391). -/
structure Team where
  /-- Armed by mrdy. -/
  armed : Bool
  /-- Operand latch: A class and the A operand. -/
  latch : Option (Nat × List (List Word))
  /-- B bytes of its instructions since the last mwait (R235). -/
  held : List (Nat × Nat)
  deriving DecidableEq, Repr

/-- A role of a record: its role-table entry and its role word (R85, R265). -/
structure RoleEntry where
  /-- Declared register count. -/
  nreg : Nat
  /-- Wave role. -/
  wave : Bool
  /-- Issue priority. -/
  prio : Nat
  /-- Packing flag. -/
  pack : Bool
  /-- REACH. -/
  reach : Bool
  /-- PRIM. -/
  prim : Bool
  /-- FXEN. -/
  fxen : BitVec 5
  /-- Rill map number. -/
  rmap : Nat
  /-- Entry PC. -/
  entry : Nat
  /-- Basin bytes. -/
  basin : Nat
  /-- Private size. -/
  priv : Nat
  deriving DecidableEq, Repr

/-- A code object as the placer read it (R263 to R267). -/
structure CodeObj where
  /-- VERSION. -/
  version : Nat
  /-- COMPAT. -/
  compat : BitVec 16
  /-- Virtual address of the code region. -/
  codeVA : Nat
  /-- Bytes of the code region. -/
  size : Nat
  /-- Role table. -/
  roles : List RoleEntry
  /-- Rill maps: four port words each. -/
  rmaps : List (List Word)
  /-- Key of the translation of a Cuique object. -/
  tkey : Nat
  deriving DecidableEq, Repr

/-- What a save keeps of a group beside its threads (R111, R420): the bytes and full words of its basin allocation by key, and the
entries of its cores' in ports by core × 4 + port. -/
structure Saved where
  /-- Basin bytes. -/
  bytes : Memory
  /-- Full words. -/
  full : List Nat
  /-- Rill contents. -/
  rills : Table (List RillEntry)
  /-- Wired ports, by core. -/
  wires : List (Nat × Wire)
  deriving DecidableEq, Repr

/-- A group resident on a cluster, or saved (R87, R161). -/
structure Group where
  /-- The model's identity: a multiple of 8,192 that no other group has, plus the 13 bits of R161 (die, cluster, entry). -/
  id : Nat
  /-- Its gang. -/
  gang : Nat
  /-- Partition. -/
  part : Nat
  /-- Group index in the gang. -/
  gidx : Nat
  /-- Has a swarm role (R221). -/
  swarm : Bool
  /-- Has wave threads, and so a uniform set on every engine. -/
  wave : Bool
  /-- Uniform registers; an unlisted one is zero. -/
  uni : Table Word
  /-- Basin allocation: base and size. -/
  basin : Nat × Nat
  /-- Private backing ranges: physical base and bytes. -/
  backing : List (Nat × Nat)
  /-- Its teams, by role × 64 + team number. -/
  teams : Table Team
  /-- Pixel group: static waves started, and quads waiting in each of the four static waves. -/
  pixel : Option (List Bool × List Nat)
  /-- What its save holds. -/
  saved : Option Saved
  /-- The last clk at which a thread of it that has left was not parked (R104). -/
  lastBusy : Nat
  deriving DecidableEq, Repr

/-- Status of a gang (R96, R105, R110 to R112). -/
inductive GangStatus where
  | resident | halted | saving | saved | restoring
  deriving DecidableEq, Repr

/-- A gang that has been placed and has not ended (R86). -/
structure Gang where
  /-- The model's identity; rises in placement order. -/
  id : Nat
  /-- Record: partition, stream, slot, run number. -/
  part : Nat
  /-- Stream of its record. -/
  stream : Nat
  /-- Slot of its record. -/
  slot : Nat
  /-- Index in the grid. -/
  index : Nat
  /-- Die and first cluster. -/
  die : Nat
  /-- First cluster. -/
  cluster : Nat
  /-- Number of groups. -/
  size : Nat
  /-- Class of its stream. -/
  cls : Nat
  /-- Status. -/
  status : GangStatus
  /-- Evicted by stall resolution (offered after unplaced gangs, R95). -/
  evicted : Bool
  /-- Placed under a drain reservation (R106). -/
  drained : Bool
  /-- A pixel group's gang (R131). -/
  pixel : Bool
  /-- Mover commands that its save holds, by core, in order (R110). -/
  movers : List (Nat × MoverCmd)
  deriving DecidableEq, Repr

/-- States of a record (R93). -/
inductive RecState where
  | accepted | waiting | ready | running | ending
  deriving DecidableEq, Repr

/-- A translated instruction that no native encoding stands for (R269, R271 to R273). -/
inductive TSpecial where
  /-- Raises the illegal-instruction trap. -/
  | illegal
  /-- Legacy trap: sub-cause, index of the Cuique word, its D, A and B codes (255 for none), literal. -/
  | legacy (sub word : Nat) (d a b : BitVec 8) (lit : Word)
  /-- Fetch-bound fault at a branch or call. -/
  | bound
  /-- Fetch-bound fault when p15 is true (a BZ whose target has no word). -/
  | boundIf
  deriving DecidableEq, Repr

/-- A translated Cuique object (R270, R271). -/
structure TCode where
  /-- The model's number of the object in the caches. -/
  key : Nat
  /-- Partition. -/
  part : Nat
  /-- ENTRY of each role. -/
  entries : List Nat
  /-- SM3 digest of the region. -/
  digest : List Byte
  /-- Region address for which it was last asked. -/
  codeVA : Nat
  /-- Translated parcels; the translated bound is their number. -/
  parcels : List (BitVec 16)
  /-- Instructions without a native encoding, by translated PC. -/
  specials : Table TSpecial
  /-- Translated start of each word; none for a literal. -/
  starts : List (Option Nat)
  deriving DecidableEq, Repr

/-- What a stream offers: a gang never placed, by its index; a saved gang; or a resident grid, whole (R95, R100, R105). -/
inductive OfferKey where
  /-- A gang never placed. -/
  | fresh (index : Nat)
  /-- A saved gang. -/
  | saved (gang : Nat)
  /-- A resident grid, whole. -/
  | resident
  deriving DecidableEq, Repr

/-- An accepted record that has not completed (R59 to R66, R93). -/
structure Rec where
  /-- Slot. -/
  slot : Nat
  /-- The 16 words. -/
  words : Vector Word 16
  /-- Order of acceptance in the stream. -/
  seq : Nat
  /-- State. -/
  state : RecState
  /-- Failure kept from acceptance or found at placement: rejection detail. -/
  fail : Option Nat
  /-- Its code object. -/
  obj : Option CodeObj
  /-- Run number. -/
  run : Nat
  /-- Next gang index never placed. -/
  nextGang : Nat
  /-- Gangs ended. -/
  ended : Nat
  /-- What has been offered without placement, each with the clk of the first window in which it was (R99). -/
  offered : List (OfferKey × Nat)
  /-- FAULTED kept: the SEQ that its DETAIL gives, or what stands for it until the record is written. -/
  faulted : Option Nat
  /-- Draw ordinal (R118). -/
  ord : Option Nat
  /-- Ran again after a fault (RERUN). -/
  rerun : Bool
  /-- Status and detail, once its completion is decided. -/
  status : Option (Nat × Nat)
  /-- The gang for which others were evicted, and the die on which it is placed ahead of R97 (R106). -/
  ahead : Option (Nat × OfferKey)
  /-- Socket of a die lost while this draw ran (R127). -/
  lost : Option Nat
  /-- The translation of its Cuique object, for a die whose cache has lost it (R270). -/
  tcode : Option TCode
  deriving DecidableEq, Repr

/-- A launch stream (R57 to R66). [DEDUCED: log 82] -/
structure Stream where
  /-- CQHOST. -/
  cqhost : DWord
  /-- The port through which the host last wrote CQHOST, or none when a supervisor did (R62). -/
  cqPort : Option Nat
  /-- DONE. -/
  done : Word
  /-- HOSTHEAD. -/
  hosthead : Word
  /-- MIRROR. -/
  mirror : Nat
  /-- HOME. -/
  home : Nat
  /-- CLASS. -/
  cls : Nat
  /-- HEAD. -/
  head : Nat
  /-- EN. -/
  en : Bool
  /-- Full words of the record slots, by slot × 16 + word: the service die's copy. -/
  words : Table Word
  /-- Completion queue entries by index, four words each: the service die's copy. -/
  cq : Table (BitVec 128)
  /-- Accepted records, oldest first. -/
  recs : List Rec
  /-- Records accepted so far. -/
  nacc : Nat
  /-- Completions held until the queue has space (R62). -/
  held : List (Nat × Nat × Nat)
  deriving DecidableEq, Repr

/-- A stream before its descriptor is written: every field zero (R57). -/
def Stream.reset : Stream where
  cqhost := 0
  cqPort := none
  done := 0
  hosthead := 0
  mirror := 0
  home := 0
  cls := 0
  head := 0
  en := false
  words := []
  cq := []
  recs := []
  nacc := 0
  held := []

/-- A draw of the raster stream (R118 to R128): ordinal, record slot, descriptor bytes and the dies of its slices. -/
structure Draw where
  /-- Ordinal. -/
  ord : Nat
  /-- Its record: stream. -/
  stream : Nat
  /-- Record slot. -/
  slot : Nat
  /-- The 128 descriptor bytes. -/
  desc : List Byte
  /-- Dies present at its placement, ascending; none before it is placed. -/
  dies : List Nat
  /-- Next gang index of each die (R120). -/
  next : Table Nat
  /-- The pixel role, once it is placed. -/
  pixRole : Option RoleEntry
  /-- Dies lost or reset while it ran (R127). -/
  gone : List Nat
  deriving DecidableEq, Repr

/-- A fault queue record (R68, R447). -/
structure FqRec where
  /-- The 64 bytes. -/
  bytes : List Byte
  deriving DecidableEq, Repr

/-- A THREAD record that waits while the queue is full, with what it belongs to (R69, R94). -/
structure FqWait where
  /-- The record's bytes without SEQ. -/
  bytes : List Byte
  /-- What stands for its SEQ until it is written: above every SEQ, and its own. -/
  guess : Nat
  /-- Waiting thread, 0 for a mover's or an export's. -/
  thread : Nat
  /-- Record: stream and slot. -/
  stream : Nat
  /-- Slot. -/
  slot : Nat
  deriving DecidableEq, Repr

/-- What waits for a counter home in reset, in the order of its arrival (R70). -/
inductive HomeOp where
  /-- A counter operation: add or set, counter and value. -/
  | counter (add : Bool) (ctr : Nat) (value : DWord)
  /-- A fault queue record: a THREAD record, which waits for room too, or another. -/
  | record (w : FqWait) (isThread : Bool)
  deriving DecidableEq, Repr

/-- A partition (R17, R57, R67 to R70, R118). -/
structure Part where
  /-- Number. -/
  id : Nat
  /-- Its dies, ascending. -/
  dies : List Nat
  /-- Running: started and not in partition reset. -/
  running : Bool
  /-- Supervisor code object, once started: its virtual address and the object as the service die read it (R92). -/
  superCode : Option (Nat × CodeObj)
  /-- Measurement register of its code objects (R20). -/
  measReg : Option Nat
  /-- Endpoint ports on which its virtual function is enabled. -/
  functions : List Nat
  /-- Streams by number; an unlisted one is Stream.reset. -/
  streams : Table Stream
  /-- Timeline counters; an unlisted one is zero. -/
  ctrs : Table DWord
  /-- Counter home die. -/
  home : Nat
  /-- Counter mirror die. -/
  mirror : Option Nat
  /-- FQTAIL. -/
  fqTail : Word
  /-- FQHEAD. -/
  fqHead : Word
  /-- SEQ: records written since the last partition reset. -/
  fqSeq : Nat
  /-- Records dropped while full. -/
  fqDropped : Nat
  /-- THREAD records waiting. -/
  fqWait : List FqWait
  /-- The records by index: the service die's copy. -/
  fq : Table FqRec
  /-- Counter operations and records waiting for a counter home in reset (R70). -/
  homeWait : List HomeOp
  /-- %wdlim. -/
  wdlim : Word
  /-- Draws accepted that are neither void nor complete, in the order of their ordinals. -/
  draws : List Draw
  /-- Raster control writes that wait for running draws (R115): offset and value. -/
  rastWait : List (Nat × DWord)
  /-- An invalidation in progress (R208). -/
  ibusy : Bool
  /-- Accesses with an identity below this one were translated before the invalidation in progress (the model's own). -/
  ibusyFrom : Nat
  /-- A start of its supervisor that waits for a read of its code object. -/
  starting : Option Nat
  deriving DecidableEq, Repr

/-- A fault table entry (R210). -/
structure FaultEntry where
  /-- Virtual page. -/
  vpage : Nat
  /-- Cause: translation or permission. -/
  cause : Cause
  /-- Waiting threads and mover commands (a mover by core number + 2^40, an export by die + 2^41, an
  early test by die + 2^42). -/
  waiters : List Nat
  /-- Resolving. -/
  resolving : Bool
  /-- SEQ of its record. -/
  seq : Nat
  deriving DecidableEq, Repr

/-- A cached translation: leaf entry for a page of 64 KiB or 512 MiB (R207). -/
structure TlbEntry where
  /-- Partition. -/
  part : Nat
  /-- First virtual page. -/
  vpage : Nat
  /-- Pages covered: 1 or 8192. -/
  pages : Nat
  /-- The leaf entry. -/
  pte : DWord
  deriving DecidableEq, Repr

/-- The memory control block (R199). -/
structure MemCtl where
  /-- +0x000: TBASE and EN. -/
  troot : DWord
  /-- +0x008: PBASE and PSIZE. -/
  privpool : DWord
  /-- +0x010: IVA. -/
  iva : DWord
  /-- +0x018: ICOUNT, IALL; IBUSY is Part.ibusy. -/
  ictl : DWord
  deriving DecidableEq, Repr

/-- A page walk (R207, R208): partition, virtual page, the TROOT with which it began, and whether an entry that it read held an
uncorrectable error (R213). -/
structure Walk where
  /-- Partition. -/
  part : Nat
  /-- Virtual page. -/
  vpage : Nat
  /-- TROOT at its begin. -/
  root : DWord
  /-- An entry came back malformed. -/
  bad : Bool
  /-- Waiting units, numbered as the waiters of a fault table entry; threads wait by their own state. -/
  waits : List Nat
  deriving DecidableEq, Repr

/-- A read outside the package by a unit that is no thread's access: a mover, an export or test unit, the placer, or a texture lookup (R55,
R56). -/
structure UnitRead where
  /-- The unit. -/
  unit : Nat
  /-- What it is for: the element of a mover command, else 0. -/
  tag : Nat
  /-- Key of the first byte. -/
  key : Nat
  /-- Bytes. -/
  len : Nat
  /-- Identity of the request. -/
  id : Nat
  /-- The bytes, once they have come. -/
  data : Option (List Byte)
  /-- It has completed as die-lost (R15, R45). -/
  lost : Bool
  deriving DecidableEq, Repr

/-- A pointer entry in a walk cache (R207). -/
structure PtrEntry where
  /-- Partition. -/
  part : Nat
  /-- Level of the table that holds it: 3 or 2. -/
  level : Nat
  /-- Virtual address bits above those that the lower levels index. -/
  index : Nat
  /-- The entry. -/
  pte : DWord
  deriving DecidableEq, Repr

/-- An emitted primitive as setup holds it: three vertices (X, Y in 24.8; z and 1/w in binary32) and attributes (R121, R122). -/
structure Prim where
  /-- Draw ordinal. -/
  ord : Nat
  /-- Index. -/
  idx : Nat
  /-- Source die. -/
  src : Nat
  /-- Stream sequence (R123). -/
  sseq : Nat
  /-- Front-facing. -/
  front : Bool
  /-- Attributes per vertex. -/
  nattr : Nat
  /-- X, Y, z and 1/w of each vertex. -/
  verts : List (Int × Int × Word × Word)
  /-- Attributes, vertex by vertex. -/
  attrs : List Word
  deriving DecidableEq, Repr

/-- The slice of a draw that a die's setup takes (R120, R121). -/
structure Slice where
  /-- Draw ordinal. -/
  ord : Nat
  /-- Next index. -/
  next : Nat
  /-- End of the slice. -/
  stop : Nat
  deriving DecidableEq, Repr

/-- An emission waiting at setup (R121). -/
structure Emission where
  /-- Draw ordinal. -/
  ord : Nat
  /-- Index. -/
  idx : Nat
  /-- The record read: 12 + 3 × NATTR words, or none for a culled index. -/
  words : Option (List Word)
  deriving DecidableEq, Repr

/-- A quad that has not entered a static wave (R130). -/
structure Quad where
  /-- Draw ordinal. -/
  ord : Nat
  /-- Primitive index. -/
  prim : Nat
  /-- Front-facing. -/
  front : Bool
  /-- Top-left pixel. -/
  x : Nat
  /-- Top-left pixel. -/
  y : Nat
  /-- Covered samples of its four pixels. -/
  cov : List (BitVec 4)
  /-- Sample depths of its four pixels. -/
  z : List (List Word)
  /-- Samples tested so far under EARLY, of 16. -/
  tested : Nat
  deriving DecidableEq, Repr

/-- A sample export waiting for its turn (R132, R402). -/
structure Export where
  /-- Draw ordinal. -/
  ord : Nat
  /-- Primitive index. -/
  prim : Nat
  /-- Pixel. -/
  x : Nat
  /-- Pixel. -/
  y : Nat
  /-- The pixel thread; its turn waits until it has exported or ended. -/
  thread : Nat
  /-- Covered samples. -/
  cov : BitVec 4
  /-- Sample depths in binary32, samples 0 to 3. -/
  z : List Word
  /-- Colour and mask once exported; a mask of zero contributes nothing. -/
  value : Option (BitVec 128 × BitVec 4)
  deriving DecidableEq, Repr

/-- What one die holds of one source's sluice stream (R123 to R126). -/
structure Source where
  /-- Source die. -/
  die : Nat
  /-- Next SSEQ to be taken in order. -/
  nextSeq : Nat
  /-- Primitives received in order and not released: the entries of its buffer. -/
  got : List Prim
  /-- Primitives that arrived ahead of a missing SSEQ. -/
  early : List Prim
  /-- Bound B_s: ordinal and index. -/
  bound : Nat × Nat
  /-- Watermarks that wait for a missing SSEQ: ordinal, index, SSEQ. -/
  marks : List (Nat × Nat × Nat)
  /-- Credits returned in total, modulo 2^16. -/
  returned : Nat
  deriving DecidableEq, Repr

/-- What one die holds of one destination's sluice stream (R123, R125). -/
structure Dest where
  /-- Destination die. -/
  die : Nat
  /-- SSEQ of the next primitive: primitives sent in total, modulo 2^16. -/
  nextSeq : Nat
  /-- Credits received in total, modulo 2^16, beyond the first 512. -/
  credits : Nat
  deriving DecidableEq, Repr

/-- A die's rasteriser (R115 to R136). -/
structure Raster where
  /-- Raster control word. -/
  control : DWord
  /-- Ownership table. -/
  owner : Vector Byte 256
  /-- NEXTORD (R115, R118). -/
  nextOrd : Nat
  /-- Slices that setup has not finished, in ordinal order. -/
  slices : List Slice
  /-- Emissions that setup has not taken. -/
  emissions : List Emission
  /-- Its own bound: the lowest tag that it may still send (R124). -/
  bound : Nat × Nat
  /-- Streams from sources. -/
  sources : List Source
  /-- Streams to destinations. -/
  dests : List Dest
  /-- Closes received: ordinal and LOST (R127). -/
  closes : List (Nat × Nat)
  /-- Primitives released and not yet rasterised, oldest first. -/
  released : List Prim
  /-- Quads of rasterised primitives that have entered no static wave. -/
  quads : List Quad
  /-- Exports in tag order. -/
  exports : List Export
  /-- Clk of the last release (R131). -/
  lastRelease : Nat
  /-- Releases made in that clk. -/
  relCount : Nat
  /-- Clk in which setup last took an index (R122). -/
  setupClk : Nat
  /-- Indices taken in that clk. -/
  setupCount : Nat
  /-- Released primitives of draws that have not completed, for interpolation. -/
  prims : List Prim
  /-- A target access of the export of this thread waits on a fault (R448). -/
  expFault : Option (FaultRec × Nat)
  /-- A target access of an early test waits on a fault. -/
  earlyFault : Option FaultRec
  deriving DecidableEq, Repr

/-- The raster block after a reset: zero (R115). -/
def Raster.reset : Raster where
  control := 0
  owner := Vector.replicate 256 0
  nextOrd := 0
  slices := []
  emissions := []
  bound := (0, 0)
  sources := []
  dests := []
  closes := []
  released := []
  quads := []
  exports := []
  lastRelease := 0
  relCount := 0
  setupClk := 0
  setupCount := 0
  prims := []
  expFault := none
  earlyFault := none

/-- A thread of a placement: role, thread number, place, first register; absent when the team has no such thread. -/
structure ThreadPlan where
  /-- Role word index. -/
  role : Nat
  /-- Thread number. -/
  tid : Nat
  /-- Place. -/
  place : Place
  /-- First register. -/
  base : Nat
  /-- Absent. -/
  absent : Bool
  deriving DecidableEq, Repr

/-- A drain reservation: partition, stream, slot and gang index, first cluster and count, clk since (R99). -/
structure Drain where
  /-- Partition. -/
  part : Nat
  /-- Stream. -/
  stream : Nat
  /-- Slot. -/
  slot : Nat
  /-- What it is for. -/
  key : OfferKey
  /-- First cluster. -/
  cluster : Nat
  /-- Clusters. -/
  size : Nat
  /-- Since this clk. -/
  since : Nat
  /-- Its plan, fixed for its life. -/
  plan : List ThreadPlan
  deriving DecidableEq, Repr

/-- What the save of a whole die holds beside its gangs (R111). -/
structure DieSave where
  /-- The gangs saved with it. -/
  gangs : List Nat
  /-- Local memory cells. -/
  bytes : Memory
  /-- Full bits of local memory. -/
  full : List Nat
  /-- Message registers and mailbox of each core. -/
  boxes : List (Nat × Vector Word 16 × BitVec 16 × List Mail)
  deriving DecidableEq, Repr

/-- A compute die and its stack. -/
structure Die where
  /-- Present (R16). -/
  present : Bool
  /-- Held in die reset. -/
  inReset : Bool
  /-- Lost: its link or reset failed (R15, R37). -/
  lost : Bool
  /-- Its stack is being cleared (R18). -/
  clearing : Bool
  /-- Its stack must be cleared before it joins another partition: the partition it left (R18). -/
  left : Option Nat
  /-- Memory control block. -/
  mcb : MemCtl
  /-- Fault table by entry number. -/
  ftab : Table FaultEntry
  /-- Fault ticket counter (R212). -/
  fticket : Nat
  /-- Thread control block: TSEL. -/
  tsel : Word
  /-- Thread control block: TPC. -/
  tpc : Word
  /-- Thread control block: TERR. -/
  terr : Bool
  /-- Raster. -/
  rast : Raster
  /-- Last stream served per class (R97). -/
  served : Vector Nat 4
  /-- Drain reservations (R99). -/
  drains : List Drain
  /-- Translated-code cache, least recently used first (R270). -/
  tcache : List TCode
  /-- Translations under way (R270). -/
  tpend : List TCode
  /-- Second-level TLB, most recently used first, at most 16,384 entries (R207). -/
  tlb : List TlbEntry
  /-- Walk cache, most recently used first, at most 256 pointer entries (R207). -/
  wcache : List PtrEntry
  /-- Walks, the first 64 in flight, the others waiting (R207). -/
  walks : List Walk
  /-- Clk at which its context engine is free (R112). -/
  saveFree : Nat
  /-- The save of the whole die, until its gangs return (R111). -/
  saved : Option DieSave
  deriving DecidableEq, Repr

/-- A die before bring-up has found it, or after a die reset: every block cleared (R15, R80, R115, R199, R200). [DESIGN CHOICE: log 2] -/
def Die.reset : Die where
  present := false
  inReset := true
  lost := false
  clearing := false
  left := none
  mcb := ⟨0, 0, 0, 0⟩
  ftab := []
  fticket := 0
  tsel := 0
  tpc := 0
  terr := false
  rast := Raster.reset
  served := Vector.replicate 4 63
  drains := []
  tcache := []
  tpend := []
  tlb := []
  wcache := []
  walks := []
  saveFree := 0
  saved := none

/-- A die event counter: value, select word, and one more than the clk of the last write of COUNT, 0 for none (R80, R81). -/
structure EvCounter where
  /-- COUNT. -/
  count : DWord
  /-- Select word. -/
  sel : DWord
  /-- One more than the clk at which COUNT was last written. -/
  wrote : Nat
  deriving DecidableEq, Repr

/-- A counter after a die reset (R80). -/
def EvCounter.reset : EvCounter := ⟨0, 0, 0⟩

/-- An L1 line: line address, valid and dirty masks, and its bytes (R202). -/
structure L1Line where
  /-- Physical address of byte 0, a multiple of 128. -/
  pa : Nat
  /-- Valid bytes. -/
  valid : BitVec 128
  /-- Dirty bytes. -/
  dirty : BitVec 128
  /-- Contents, byte 0 lowest. -/
  bytes : BitVec 1024
  /-- Partition of its bytes. -/
  part : Nat
  deriving DecidableEq, Repr

/-- Key slot states (R43). -/
inductive SlotState where
  | empty | live | retiring
  deriving DecidableEq, Repr

/-- A key slot: key, salt, flits sealed, E0 and state (R43, R42). -/
structure KeySlot where
  /-- Key, 128 bits. -/
  key : BitVec 128
  /-- Salt. -/
  salt : Word
  /-- Flits sealed under it. -/
  used : Nat
  /-- Counter base E0, once known. -/
  e0 : Option Nat
  /-- State. -/
  state : SlotState
  deriving DecidableEq, Repr

/-- An empty key slot. -/
def KeySlot.reset : KeySlot := ⟨0, 0, 0, none, .empty⟩

/-- A flit in a replay buffer (R34, R35). -/
structure Replay where
  /-- Extended sequence number. -/
  seq : Nat
  /-- The flit's bytes 0 to 111 as first sent, ACK and ACKV zero. -/
  bytes : List Byte
  /-- Sealed under the slot that its KSEL names (R41). -/
  sealed : Bool
  /-- Times sent. -/
  sent : Nat
  /-- Clk of the last sending. -/
  at_ : Nat
  /-- Of a packet on the fallback route (R40). -/
  fallback : Bool
  deriving DecidableEq, Repr

/-- A packet that waits to be sent (R31, R34): its class is in the header. -/
structure Packet where
  /-- A reply: of class MRSP, or the reply half of MVDATA or WALK (R33). -/
  reply : Bool
  /-- On the fallback route, in whose buffers it travels (R40). -/
  fallback : Bool
  /-- The request to a peer package that it carries, 0 for none. -/
  acc : Nat
  /-- Header bits other than FLAST, FIDX, KSEL, SEQ, ACK and ACKV. -/
  head : Nat
  /-- Payload of each flit. -/
  flits : List (List Byte)
  deriving DecidableEq, Repr

/-- A link as one end sees it: socket links 0 to 63 at their passengers and 336 to 399 at their routers, router links 64 to 319
(64 + router × 4 + direction), span ports 320 to 335. -/
structure Link where
  /-- Trained and in service. -/
  up : Bool
  /-- Retraining (R37). -/
  training : Bool
  /-- Failed (R37). -/
  failed : Bool
  /-- Failed lanes by module, of 48 modules (R38). -/
  lanes : Table Nat
  /-- Retired modules (R38). -/
  retired : List Nat
  /-- Modules out of service for repair. -/
  repairing : List Nat
  /-- The class served last (R33). -/
  served : Nat
  /-- The budget period in which `spent` was spent (R73). -/
  period : Nat
  /-- Flits sent in that period by partition; 31 for the background unit (R78, R79). -/
  spent : Table Nat
  /-- Next extended sequence number to send. -/
  txNext : Nat
  /-- Replay buffer. -/
  replay : List Replay
  /-- Every sequence number below this one has been received good. -/
  rxBase : Nat
  /-- Received sequence numbers beyond it. -/
  rxMap : List Nat
  /-- Good flits received and not yet delivered: sequence number, class, bytes. -/
  rxBuf : List (Nat × Nat × List Byte)
  /-- Packets that wait to be sent, oldest first. -/
  queue : List Packet
  /-- Flits sent in all, per class. -/
  sentOf : Table Nat
  /-- Credit totals last received, per class (R36). -/
  credits : List Nat
  /-- Good flits delivered: packets, newest first (a record of what left the link). -/
  delivered : List (Nat × List (List Byte))
  /-- Bad flits counted (R30). -/
  bad : Nat
  /-- Repeat requests to send (R35). -/
  nak : List Nat
  /-- Failed authentications per sequence number (R43). -/
  authFail : Table Nat
  deriving DecidableEq, Repr

/-- A link before training. -/
def Link.reset : Link where
  up := false
  training := false
  failed := false
  lanes := []
  retired := []
  repairing := []
  served := 15
  period := 0
  spent := []
  txNext := 0
  replay := []
  rxBase := 0
  rxMap := []
  rxBuf := []
  queue := []
  sentOf := []
  credits := List.replicate 16 0
  delivered := []
  bad := 0
  nak := []
  authFail := []

/-- A span port's sealing state (R39 to R46). -/
structure Span where
  /-- Good lanes, 8 or 4 in use; fewer is down. -/
  lanes : Nat
  /-- Partition bound by the service die. -/
  part : Nat
  /-- The peer's bound partition. -/
  peerPart : Nat
  /-- Transmit key slots. -/
  tx : Vector KeySlot 2
  /-- Receive key slots. -/
  rx : Vector KeySlot 2
  /-- Current transmit slot. -/
  cur : Nat
  /-- Switch acknowledgement received. -/
  acked : Bool
  /-- Key events to resend in control flits (R36): bits [3:0] and SEQ. -/
  keyEvent : BitVec 16
  /-- Flits under a new slot whose switch notice has not come (R42). -/
  waiting : List (List Byte)
  /-- Requests that have left through the port, each with the sequence number of its last flit. -/
  asked : List (Nat × Nat)
  deriving DecidableEq, Repr

/-- A span port before training. -/
def Span.reset : Span where
  lanes := 8
  part := 0
  peerPart := 0
  tx := Vector.replicate 2 KeySlot.reset
  rx := Vector.replicate 2 KeySlot.reset
  cur := 0
  acked := false
  keyEvent := 0
  waiting := []
  asked := []

/-- A PCI Express port (R48 to R50). -/
structure Port where
  /-- Link up. -/
  up : Bool
  /-- Root port mode. -/
  root : Bool
  /-- Bound partitions. -/
  parts : List Nat
  /-- IDE streams: number and key. -/
  ide : Table (List Byte)
  /-- Refuses all traffic other than DOE until an IDE stream is active. -/
  ideOnly : Bool
  deriving DecidableEq, Repr

/-- A port takes traffic other than DOE (R50). -/
def Port.open_ (x : Port) : Bool := !x.ideOnly || !x.ide.isEmpty

/-- What the device sends to the outside. -/
inductive OutMsg where
  /-- Posted write to a PCI Express address through a port, with its No Snoop attribute (R55). -/
  | posted (port : Nat) (addr : DWord) (data : List Byte) (noSnoop : Bool)
  /-- Read request through a peer aperture: access identity, port, address, length, No Snoop and Relaxed Ordering (R55). -/
  | readReq (access port : Nat) (addr : DWord) (len : Nat) (noSnoop relaxed : Bool)
  /-- Read-modify-write request through a peer aperture, performed at its home outside (R224): operation, 64-bit, value, second value of cas. -/
  | rmwReq (access port : Nat) (addr : DWord) (op : Nat) (wide : Bool) (v n : DWord) (noSnoop : Bool)
  /-- Completion of a host, management or upstream read. -/
  | readData (port : Nat) (data : List Byte)
  /-- Unsupported Request completion. -/
  | unsupported (port : Nat)
  /-- Command status of the service die: command name and status. -/
  | status (what : String) (code : Nat)
  /-- Attestation report (R21). -/
  | report (bytes : List Byte)
  /-- The device identity as the service die publishes it: presence map, stack capacity, identity public key and its certificate (R16, R19). -/
  | identity (present : DWord) (capacity : Nat) (key cert : List Byte)
  /-- A surprise link-down (R14). -/
  | linkDown (port : Nat)
  /-- A request through a span aperture to the peer package: access identity, port, offset. -/
  | span (access port off : Nat) (op : SpanOp)
  /-- Reply to a peer package's request: data, or an error reply. -/
  | spanReply (port : Nat) (data : Option (List Byte))
  /-- A flit on a link (R27). -/
  | flit (link : Nat) (bytes : List Byte)
  deriving DecidableEq, Repr

/-- An sc operation that waits for the herald, or has been announced on it (R227, R228). -/
structure Herald where
  /-- Identity: that of the access for a read-modify-write. -/
  id : Nat
  /-- Thread. -/
  thread : Nat
  /-- A fence.sc; otherwise an sc read-modify-write. -/
  fence : Bool
  /-- Clk at which the last earlier access of its thread was performed. -/
  after_ : Nat
  /-- Partition. -/
  part : Nat
  /-- Die that announces it. -/
  die : Nat
  /-- Sort key of R228: die, cluster, core, slot. -/
  key : Nat
  /-- First window in which it could be announced. -/
  window : Nat
  /-- Completion instant once announced. -/
  due : Option Nat
  deriving DecidableEq, Repr

/-- Memory that an uncompleted instruction or object holds: a barrier object or weir in use, all of whose fields a foreign write
leaves unspecified (R357, R369), or the B bytes of a matrix instruction, of which exactly the touched ones are (R235). -/
structure Region where
  /-- First byte's key. -/
  key : Nat
  /-- Bytes. -/
  len : Nat
  /-- An object, as opposed to B bytes. -/
  whole : Bool
  /-- Team whose instruction holds B bytes: group, and role × 64 + team number; (0, 0) for an object. -/
  team : Nat × Nat
  deriving DecidableEq, Repr

/-- Service die log entry: kind, number and address. -/
structure LogEntry where
  /-- What. -/
  what : String
  /-- Socket, port or other number. -/
  num : Nat
  /-- Address, 0 where there is none. -/
  addr : Nat
  deriving DecidableEq, Repr

/-- The steps of the units outside the instruction stream, with the data each acts on: what stands in the agenda and the
timers of the machine. One constructor for each row of the opcode table that has no encoding (R-numbers there). [DESIGN CHOICE: log 12] -/
inductive Event where
  /-- R15: as Instr.coldReset. -/
  | coldReset
  /-- R15: as Instr.deviceReset. -/
  | deviceReset
  /-- R15: as Instr.partitionReset. -/
  | partitionReset (part : Nat)
  /-- R15: as Instr.dieReset. -/
  | dieReset (die : Nat)
  /-- R15: as Instr.dieLinkRetrain. -/
  | dieLinkRetrain (die : Nat)
  /-- R15: as Instr.dieReturn. -/
  | dieReturn (die : Nat)
  /-- R15: as Instr.dieLostTimeout. -/
  | dieLostTimeout (die : Nat)
  /-- R16: as Instr.bringUpPhase. -/
  | bringUpPhase (failed : List Nat)
  /-- R14: as Instr.junctionSensorRead. -/
  | junctionSensorRead (celsius socket : Nat)
  /-- R11: as Instr.clockFault. -/
  | clockFault
  /-- R11: as Instr.clockReferenceReturn. -/
  | clockReferenceReturn
  /-- R18: as Instr.partitionConfiguration. -/
  | partitionConfiguration (cmd : PartCmd)
  /-- R20: as Instr.measurementExtend. -/
  | measurementExtend (reg : Nat) (digest : List Byte)
  /-- R21: as Instr.attestationReport. -/
  | attestationReport (nonce : List Byte)
  /-- R92: as Instr.supervisorStart. -/
  | supervisorStart (part codeVA : Nat)
  /-- R49: as Instr.portModeSet. -/
  | portModeSet (port : Nat) (root : Bool) (parts : List Nat)
  /-- R50: as Instr.ideKeySet. -/
  | ideKeySet (port stream : Nat) (key : List Byte)
  /-- R50: as Instr.ideIntegrityFailure. -/
  | ideIntegrityFailure (port : Nat)
  /-- R23: as Instr.uncorrectableError. -/
  | uncorrectableError (site : ErrSite)
  /-- R75: as Instr.patrolScrub. -/
  | patrolScrub (site : ErrSite) (corrected : Bool)
  /-- R73: as Instr.budgetPeriod. -/
  | budgetPeriod
  /-- R30: as Instr.flitReceive. -/
  | flitReceive (link : Nat) (flit : List Byte)
  /-- R35: as Instr.repeatTimeout. -/
  | repeatTimeout (link seq : Nat)
  /-- R37: as Instr.linkRetrain. -/
  | linkRetrain (link : Nat)
  /-- R37: as Instr.linkFailed. -/
  | linkFailed (link : Nat)
  /-- R38: as Instr.laneRepair. -/
  | laneRepair (link module lanes : Nat)
  /-- R39: as Instr.spanLaneFailure. -/
  | spanLaneFailure (port failed : Nat)
  /-- R43: as Instr.keyAgreement. -/
  | keyAgreement (port : Nat) (peer : List Byte) (peerPart : Nat)
  /-- R44: as Instr.keyRollover. -/
  | keyRollover (port : Nat)
  /-- R44: as Instr.keyUseLimit. -/
  | keyUseLimit (port : Nat)
  /-- R44: as Instr.slotRetire. -/
  | slotRetire (port : Nat)
  /-- R43: as Instr.spanAuthFailure. -/
  | spanAuthFailure (port seq : Nat)
  /-- R58: as Instr.hostStreamWrite. -/
  | hostStreamWrite (part port off : Nat) (data : List Byte)
  /-- R64: as Instr.mirrorWrite. -/
  | mirrorWrite (part stream off : Nat) (data : List Byte)
  /-- R59: as Instr.recordAccept. -/
  | recordAccept (part stream : Nat)
  /-- R270: as Instr.cuiqueTranslation. -/
  | cuiqueTranslation (die part codeVA : Nat)
  /-- R66: as Instr.streamCancel. -/
  | streamCancel (part stream : Nat)
  /-- R62: as Instr.hostheadWrite. -/
  | hostheadWrite (part stream : Nat) (value : Word)
  /-- R62: as Instr.recordComplete. -/
  | recordComplete (part stream slot : Nat)
  /-- R65: as Instr.dieLost. -/
  | dieLost (die : Nat)
  /-- R67: as Instr.timelineSet. -/
  | timelineSet (part ctr : Nat) (value : DWord)
  /-- R67: as Instr.timelineAdd. -/
  | timelineAdd (part ctr : Nat) (value : DWord)
  /-- R69: as Instr.fqheadWrite. -/
  | fqheadWrite (part : Nat) (value : Word)
  /-- R55: as Instr.apertureEntryWrite. -/
  | apertureEntryWrite (io k : Nat) (entry : BitVec 128) (writer : Option Nat)
  /-- R56: as Instr.spanApertureEntryWrite. -/
  | spanApertureEntryWrite (io k : Nat) (entry : BitVec 128) (writer : Option Nat)
  /-- R55: as Instr.peerReadCompletion. -/
  | peerReadCompletion (access status : Nat) (data : List Byte)
  /-- R55: as Instr.peerReadTimeout. -/
  | peerReadTimeout (access : Nat)
  /-- R51: as Instr.hostMemoryWrite. -/
  | hostMemoryWrite (part port off : Nat) (data : List Byte)
  /-- R51: as Instr.hostMemoryRead. -/
  | hostMemoryRead (part port off len : Nat)
  /-- R54: as Instr.managementBarAccess. -/
  | managementBarAccess (bar : PortBar) (off : Nat) (write : Bool) (data : List Byte) (len : Nat)
  /-- R71: as Instr.upstreamRequest. -/
  | upstreamRequest (port : Nat) (addr : DWord) (write : Bool) (data : List Byte) (len : Nat)
  /-- R56: as Instr.spanRequest. -/
  | spanRequest (port part off : Nat) (op : SpanOp)
  /-- R96: as Instr.placementWindow. -/
  | placementWindow
  /-- R99: as Instr.drainReservation. -/
  | drainReservation (part stream slot : Nat)
  /-- R106: as Instr.stallResolution. -/
  | stallResolution (part stream slot : Nat)
  /-- R109: as Instr.preemptionRequest. -/
  | preemptionRequest (gangs : List Nat)
  /-- R109: as Instr.framePreemption. -/
  | framePreemption (die : Nat)
  /-- R112: as Instr.saveComplete. -/
  | saveComplete (gang : Nat)
  /-- R110: the halt of a gang ends; what of its accesses is not performed goes to its replay lists. -/
  | haltEnd (gang : Nat)
  /-- R115: as Instr.rasterControlWrite. -/
  | rasterControlWrite (part off : Nat) (value : DWord)
  /-- R122: as Instr.primitiveSetup. -/
  | primitiveSetup (die : Nat)
  /-- R124: as Instr.watermarkPeriod. -/
  | watermarkPeriod (die : Nat)
  /-- R123: as Instr.primitiveMessage. -/
  | primitiveMessage (src dst : Nat) (payload : List Byte)
  /-- R124: as Instr.watermark. -/
  | watermark (src dst : Nat) (payload : List Byte)
  /-- R125: as Instr.credit. -/
  | credit (src dst : Nat) (payload : List Byte)
  /-- R127: as Instr.close. -/
  | close (src dst : Nat) (payload : List Byte)
  /-- R126: as Instr.mergeRelease. -/
  | mergeRelease (die : Nat)
  /-- R130: as Instr.rasterise. -/
  | rasterise (die : Nat)
  /-- R131: as Instr.staticWaveStart. -/
  | staticWaveStart (die group wave : Nat)
  /-- R132: as Instr.exportApply. -/
  | exportApply (die : Nat)
  /-- R203: as Instr.homeAccess. -/
  | homeAccess (access : Nat)
  /-- R144: as Instr.memoryReply. -/
  | memoryReply (access : Nat)
  /-- R207: as Instr.pageWalkComplete. -/
  | pageWalkComplete (die part vpage : Nat)
  /-- R211: as Instr.faultReplay. -/
  | faultReplay (die entry : Nat)
  /-- R211: as Instr.faultKill. -/
  | faultKill (die entry : Nat)
  /-- R208: as Instr.tlbInvalidateRange. -/
  | tlbInvalidateRange (part first count : Nat)
  /-- R208: as Instr.tlbInvalidateAll. -/
  | tlbInvalidateAll (part : Nat)
  /-- R208: as Instr.invalidationComplete. -/
  | invalidationComplete (part : Nat)
  /-- R227: as Instr.heraldWindow. -/
  | heraldWindow
  /-- R228: as Instr.heraldCompletion. -/
  | heraldCompletion (access : Nat)
  /-- R162: as Instr.migrantArrival. -/
  | migrantArrival (thread : Nat)
  /-- R163: as Instr.landingSlotTake. -/
  | landingSlotTake (core : Nat)
  /-- R164: as Instr.overflowMove. -/
  | overflowMove (core : Nat)
  /-- R149: as Instr.messageRegisterArrival. -/
  | messageRegisterArrival (core reg : Nat) (value : Word) (sender : Nat)
  /-- R150: as Instr.mailboxArrival. -/
  | mailboxArrival (core : Nat) (msg : BitVec 128) (sender : Nat) (mover : Bool)
  /-- R152: as Instr.rillEntryReadable. -/
  | rillEntryReadable (core port : Nat)
  /-- R155: as Instr.lightHandlerEntry. -/
  | lightHandlerEntry (thread : Nat) (cause : Nat) (datum : Word)
  /-- R375: as Instr.moverCommandStart. -/
  | moverCommandStart (core : Nat)
  /-- R378: as Instr.moverCommandComplete. -/
  | moverCommandComplete (core : Nat)
  /-- R371: as Instr.weirDecrement. -/
  | weirDecrement (weir place bytes : Nat)
  /-- R392: as Instr.mmaComplete. -/
  | mmaComplete (core : Nat)
  /-- R356: as Instr.barwTimeout. -/
  | barwTimeout (thread : Nat)
  /-- R413: as Instr.sleepExpiry. -/
  | sleepExpiry (thread : Nat)
  /-- R417: as Instr.watchdog. -/
  | watchdog (thread : Nat)
  /-- R418: as Instr.threadReplay. -/
  | threadReplay (die : Nat)
  /-- R418: as Instr.threadResumeNext. -/
  | threadResumeNext (die : Nat)
  /-- R418: as Instr.threadResumeAtTpc. -/
  | threadResumeAtTpc (die : Nat)
  /-- R418: as Instr.threadKill. -/
  | threadKill (die : Nat)
  /-- R418: as Instr.contextWrite. -/
  | contextWrite (die off : Nat) (value : Word)
  /-- R81: as Instr.eventCounterWrite. -/
  | eventCounterWrite (die k : Nat) (select : Bool) (value : DWord)
  /-- R57: as Instr.registerWrite. -/
  | registerWrite (reg : RegName) (value : DWord)
  /-- R65: as Instr.serviceDieFailure. -/
  | serviceDieFailure
  /-- R65: as Instr.serviceDieReturn. -/
  | serviceDieReturn
  /-- R37: as Instr.retrainingComplete. -/
  | retrainingComplete (link : Nat)
  /-- R38: as Instr.laneRepairComplete. -/
  | laneRepairComplete (link module : Nat)
  /-- R39: as Instr.spanPortReturn. -/
  | spanPortReturn (port : Nat)
  /-- R48: as Instr.pcieLinkDown. -/
  | pcieLinkDown (port : Nat)
  /-- R48: as Instr.pcieLinkUp. -/
  | pcieLinkUp (port : Nat) (flitMode : Bool)
  /-- R18: as Instr.stackClearComplete. -/
  | stackClearComplete (die : Nat)
  /-- R112: as Instr.restoreComplete. -/
  | restoreComplete (gang : Nat)
  /-- R51, R57, R67, R68: a host write to BAR0 of a partition's function, whose effects the table lists one by one. -/
  | hostControlWrite (part port off : Nat) (data : List Byte)
  /-- R51, R57, R58, R67, R68: a host read of BAR0 or BAR2 of a partition's function. -/
  | hostRead (part port bar off len : Nat)
  deriving DecidableEq, Repr
/-- A message for a core of a die held in reset (R15, R359): it goes on when the die returns and is lost when it does not. -/
structure HeldMsg where
  /-- Die. -/
  die : Nat
  /-- Held since this clk. -/
  since : Nat
  /-- Its arrival. -/
  event : Event
  deriving DecidableEq, Repr

/-- Faults of the model: the machine stops. -/
inductive Fault where
  /-- Raised by step while the thermal trip is latched and no cold reset stands in the agenda: the clock is stopped and
  nothing happens until a cold reset (R14). Safe: the manual gives the package no step. -/
  | thermalTrip
  /-- Raised by step while the service die holds the package in reset, for a lost reference (R11) or a failed bring-up phase
  1 or 2 (R16), and no input stands in the agenda. Safe: the manual gives the package no step. -/
  | packageHeld
  deriving DecidableEq, Repr

/-- Refusals of the model. -/
inductive Refusal where
  /-- No meaning for the instruction of this mnemonic: raised by an arm of exec. Safe. -/
  | notModelled (mnemonic : String)
  deriving DecidableEq, Repr

/-- The whole machine. -/
structure State where
  /-- The thread that issues. -/
  th : Thread
  /-- All other threads. -/
  threads : List Thread
  /-- Memory: physical addresses, and channel-core local memories from 2^52. -/
  mem : Memory
  /-- Word addresses whose full/empty bit is full, strictly rising. -/
  full : List Nat
  /-- Outstanding accesses. -/
  flights : List Flight
  /-- Parked full/empty accesses in the order in which they parked. -/
  feWaits : List (Nat × Nat)
  /-- Ticket counters of wait tables by home (R148). -/
  feTickets : Table Word
  /-- Heralded operations. -/
  heralds : List Herald
  /-- Memory held by objects in use and by matrix instructions. -/
  regions : List Region
  /-- Messages held for dies in reset. -/
  heldMsgs : List HeldMsg
  /-- Cores and engines; an unlisted one is Core.reset. -/
  cores : Table Core
  /-- L1 lines of clusters by (die × 16 + cluster), most recently used first, at most 16,384 each (R202). -/
  l1 : Table (List L1Line)
  /-- TLBs of clusters by (die × 16 + cluster), most recently used first, at most 1,024 entries each (R207). -/
  ctlb : Table (List TlbEntry)
  /-- Lines that the L2 slices hold, by (die × 32 + slice) × 512 + set: line number and eviction priority, most recently used first, at
  most 16 each (R203, R204). -/
  l2 : Table (List (Nat × Nat))
  /-- Die event counters by die × 64 + counter; an unlisted one is EvCounter.reset (R80). -/
  evc : Table EvCounter
  /-- Groups. -/
  groups : List Group
  /-- Gangs. -/
  gangs : List Gang
  /-- Compute dies 0 to 23 with their stacks. -/
  dies : Vector Die 24
  /-- Partitions 0 to 23 in use. -/
  parts : List Part
  /-- %clk: arithmetic clock count since the last cold reset. -/
  clk : Nat
  /-- Bring-up phases completed (R16). -/
  phase : Nat
  /-- Thermal trip latch (R14). -/
  trip : Bool
  /-- Held in reset by a clock fault (R11) or a failed phase 1 or 2 (R16). -/
  clockHeld : Bool
  /-- Fault pin (R16). -/
  faultPin : Bool
  /-- Service die present and running (R65). -/
  sdUp : Bool
  /-- Service die log, newest first. -/
  sdLog : List LogEntry
  /-- Measurement registers 0 to 15 (R20). -/
  meas : Vector (BitVec 256) 16
  /-- Aperture tables of IO dies 56 and 57: 32 entries each (R55). -/
  apert : Vector (BitVec 128) 64
  /-- Span aperture tables: 8 entries each (R56). -/
  spanApert : Vector (BitVec 128) 16
  /-- PCI Express ports 0 to 3 (R48). -/
  ports : Vector Port 4
  /-- Management mailbox bytes (R53), unlisted bytes zero. -/
  mbox : Table Byte
  /-- Links; an unlisted one is Link.reset. -/
  links : Table Link
  /-- Span ports 0 to 15. -/
  spans : Vector Span 16
  /-- Router links that have failed (R40). -/
  badRoutes : List Nat
  /-- Floors and ceilings by link: partition, F and C in 64ths of a period's flit times (R78). -/
  shares : Table (List (Nat × Nat × Nat))
  /-- Population as the service die measured it last: bit s for socket s (R16). -/
  population : DWord
  /-- Reads outside the package by units. -/
  unitReads : List UnitRead
  /-- Pages that a unit asked for and whose walk failed: unit and virtual page. -/
  badWalks : List (Nat × Nat)
  /-- Budget spent in this period by activity (R73 to R75). -/
  budget : Table Nat
  /-- Work deferred to the next period, in order, each with the budgets that it is charged to (R74). -/
  deferred : List (List Nat × Event)
  /-- Messages to the outside, newest first. -/
  out : List OutMsg
  /-- Inputs and internal events due now, in order (the model's own). -/
  agenda : List Event
  /-- Events due at a later clk, in order of clk (the model's own). -/
  timers : List (Nat × Event)
  /-- Number of the next free value (the model's own). -/
  free : Nat
  /-- Next identity (the model's own). -/
  nextId : Nat
  deriving DecidableEq, Repr

/-- The thread record where no thread stands: every register holds a value. [DESIGN CHOICE: log 1] -/
def Thread.reset : Thread where
  uid := 0
  run := .absent
  hold := .running
  place := .nowhere
  g := Vector.replicate 128 0
  p := 1
  idx := Vector.replicate 8 0
  x := Vector.replicate 4 0
  h := Vector.replicate 4 0
  pc := 0
  lhpc := 0
  lhen := 0
  lhret := 0
  lhcause := 0
  lhdat := 0
  inH := false
  pend := 0
  pendMail := 0
  pendCopy := 0
  count := 8
  base := 0
  version := 3
  compat := 0
  fxen := 0
  reach := false
  prio := 0
  prim := false
  codeVA := 0
  bound := 0
  tkey := 0
  privSize := 0
  privBase := 0
  part := 0
  grp := 0
  gang := 0
  role := 0
  tid := 0
  gangIdx := 0
  gidx := 0
  args := 0
  stream := 0
  slot := 0
  runNo := 0
  ofRecord := false
  dslo := 0
  dshi := 0
  basin := 0
  entered := false
  homeCore := 0
  guest := false
  vacated := false
  spawner := none
  pixel := none
  rx := false
  readyAt := 0
  skip := 0
  yields := 0
  parkedAt := 0
  performedAt := 0
  fin := ⟨0, [], 0⟩
  busy := []
  seed := 0
  replay := []
  cur := none
  marks := []
  memTo := 0
  carried := []
  update := none
  origin := 0

/-- The machine right after a cold reset: bring-up phase 1 begins (R15, R16); no die is present yet, no partition
configured, memory lists nothing. [DESIGN CHOICE: log 1] -/
def State.reset : State where
  th := Thread.reset
  threads := []
  mem := []
  full := []
  flights := []
  feWaits := []
  feTickets := []
  heralds := []
  regions := []
  heldMsgs := []
  cores := []
  l1 := []
  ctlb := []
  l2 := []
  evc := []
  groups := []
  gangs := []
  dies := Vector.replicate 24 Die.reset
  parts := []
  clk := 0
  phase := 0
  trip := false
  clockHeld := false
  faultPin := false
  sdUp := true
  sdLog := []
  meas := Vector.replicate 16 0
  apert := Vector.replicate 64 0
  spanApert := Vector.replicate 16 0
  ports := Vector.replicate 4 ⟨false, false, [], [], false⟩
  mbox := []
  links := []
  spans := Vector.replicate 16 Span.reset
  badRoutes := []
  shares := []
  population := 0
  unitReads := []
  badWalks := []
  budget := []
  deferred := []
  out := []
  agenda := []
  timers := [(200000000, .bringUpPhase [])]
  free := 0
  nextId := 1

end Sys2Proof.Machine
end

