-- ==== Sys2Proof/Machine/Memory.lean ====
section
/-! DEFINITION. Tables and memory: bytes, little-endian wider reads and writes, and full/empty bits (R3, R200). -/

namespace Sys2Proof.Machine
open Sys2Proof

/-- Entry k of a table. -/
def Table.get {α : Type} : Table α → Nat → Option α
  | [], _ => none
  | (j, v) :: r, k => if j = k then some v else Table.get r k

/-- The table with entry k set to v, sorted. -/
def Table.put {α : Type} : Table α → Nat → α → Table α
  | [], k, v => [(k, v)]
  | (j, w) :: r, k, v =>
    if k < j then (k, v) :: (j, w) :: r else if k = j then (k, v) :: r else (j, w) :: Table.put r k v

/-- The table without entry k. -/
def Table.drop {α : Type} (t : Table α) (k : Nat) : Table α := t.filter (fun e => e.1 != k)

/-- Entry k, or the default d. -/
def Table.at {α : Type} (t : Table α) (k : Nat) (d : α) : α := (Table.get t k).getD d

/-- What an unlisted byte reads as: HBM and SRAM are cleared to zero before use (R16 phases 4 and 5). [DEDUCED: log 8] -/
def unlisted : Byte := 0

/-- The byte at an address. [DEDUCED: log 8] -/
def memRead : Memory → Nat → Byte
  | [], _ => unlisted
  | (k, v) :: r, a => if k = a then v else memRead r a

/-- A listed byte set, in its place in the order of addresses. -/
def memInsert : Memory → Nat → Byte → Memory
  | [], a, v => [(a, v)]
  | (k, w) :: r, a, v => if a < k then (a, v) :: (k, w) :: r else if a = k then (a, v) :: r else (k, w) :: memInsert r a v

/-- Memory with one byte written, in canonical form. -/
def memWrite (m : Memory) (a : Nat) (v : Byte) : Memory :=
  if v = unlisted then m.filter (fun c => c.1 != a) else memInsert m a v

/-- Addresses strictly rise and every one is above lo, and no byte equals what an unlisted one reads as. -/
def memWfFrom : Option Nat → Memory → Bool
  | _, [] => true
  | lo, (k, v) :: r => (match lo with | none => true | some j => decide (j < k)) && v != unlisted && memWfFrom (some k) r

/-- The canonical form of memory. -/
def Memory.wf (m : Memory) : Bool := memWfFrom none m

/-- The n bytes from a, little-endian, as a 128-bit value (R3). -/
def readBytes (m : Memory) (a : Nat) : Nat → BitVec 128
  | 0 => 0
  | n + 1 => (readBytes m (a + 1) n <<< 8) ||| (memRead m a).setWidth 128

/-- Memory with the low n bytes of v written from a, little-endian (R3). -/
def writeBytes (m : Memory) (a : Nat) : Nat → BitVec 128 → Memory
  | 0, _ => m
  | n + 1, v => writeBytes (memWrite m a (v.setWidth 8)) (a + 1) n (v >>> 8)

/-- The n bytes from a as a list, lowest first. -/
def readList (m : Memory) (a : Nat) : Nat → List Byte
  | 0 => []
  | n + 1 => memRead m a :: readList m (a + 1) n

/-- Memory with a list of bytes written from a. -/
def writeList (m : Memory) (a : Nat) : List Byte → Memory
  | [] => m
  | v :: r => writeList (memWrite m a v) (a + 1) r

/-- Memory with every byte of [lo, hi) back to zero. -/
def clearRange (m : Memory) (lo hi : Nat) : Memory := m.filter (fun c => decide (c.1 < lo ∨ hi ≤ c.1))

/-- A 32-bit word of memory. -/
def readWord (m : Memory) (a : Nat) : Word := (readBytes m a 4).setWidth 32

/-- A 64-bit word of memory. -/
def readDWord (m : Memory) (a : Nat) : DWord := (readBytes m a 8).setWidth 64

/-- The full/empty bit of the word at a (R200). -/
def isFull (l : List Nat) (a : Nat) : Bool := l.contains a

/-- The list of full words with word a full, strictly rising. -/
def addFull : List Nat → Nat → List Nat
  | [], a => [a]
  | k :: r, a => if a < k then a :: k :: r else if a = k then k :: r else k :: addFull r a

/-- The full/empty bit of word a set to b. -/
def setFull (l : List Nat) (a : Nat) (b : Bool) : List Nat := if b then addFull l a else l.filter (· != a)

/-- The list of full words strictly rises above lo. -/
def fullWfFrom : Option Nat → List Nat → Bool
  | _, [] => true
  | lo, k :: r => (match lo with | none => true | some j => decide (j < k)) && fullWfFrom (some k) r

/-- A little-endian list of n bytes of a number. -/
def leBytes : Nat → Nat → List Byte
  | 0, _ => []
  | n + 1, v => BitVec.ofNat 8 v :: leBytes n (v / 256)

/-- The number whose little-endian bytes are given. -/
def leNat : List Byte → Nat
  | [] => 0
  | b :: r => b.toNat + 256 * leNat r

/-- n bytes from position i of a list, zero where the list ends. -/
def sliceNat (l : List Byte) (i n : Nat) : Nat := leNat ((l.drop i).take n)

/-- Bits [hi:lo] of a number. -/
def bits (v hi lo : Nat) : Nat := v / 2 ^ lo % 2 ^ (hi + 1 - lo)

end Sys2Proof.Machine
end

