-- ==== Sys2Proof/Machine/Ops.lean ====
section
/-! DEFINITION. The named operations over registers, threads, cores, dies and partitions; the fault queue; taking a cause
(parking a thread and writing its THREAD record) and light-handler entry, and the returns from both. -/

namespace Sys2Proof.Machine
open Sys2Proof

/-- The outcome of a meaning. -/
abbrev Out := Host.Outcome State Fault Refusal

/-! Core numbers (R141, R359). -/

/-- The core number of a die, cluster and core. -/
def coreNo (die cluster core : Nat) : Nat := (die * 16 + cluster) * 64 + core

/-- Die of a core number. -/
def coreDie (c : Nat) : Nat := c / 1024

/-- Cluster of a core number. -/
def coreCluster (c : Nat) : Nat := c / 64 % 16

/-- Core within its cluster. -/
def coreIdx (c : Nat) : Nat := c % 64

/-- A wave engine (R359). -/
def coreIsWave (c : Nat) : Bool := decide (32 ≤ coreIdx c)

/-- A 32-bit core name that names an existing core (R359). -/
def coreNameOk (n : Word) : Bool :=
  let v := n.toNat
  let cl := bits v 15 12
  let co := bits v 11 6
  decide (bits v 31 21 = 0) && decide (bits v 20 16 < 24) &&
    ((decide (cl < 12) && decide (co < 38)) || (cl == 15 && decide (co < 32)))

/-- The core number that a core name names. -/
def coreOfName (n : Word) : Nat := bits n.toNat 20 6

/-! Registers of a thread (R169 to R176). -/

/-- General register n. A register that an uncompleted matrix instruction holds reads a free value (R235). -/
def Thread.rd (t : Thread) (n : Nat) : Word :=
  if t.busy.contains n then Config.busyRead t.seed n else t.g[n]?.getD 0

/-- General register n written. A register that an uncompleted matrix instruction holds is left with a free value (R235). -/
def Thread.wr (t : Thread) (n : Nat) (v : Word) : Thread :=
  { t with g := t.g.setIfInBounds n (if t.busy.contains n then Config.busyRead (t.seed + 1) n else v) }

/-- The pair from register n (R171). -/
def Thread.rd2 (t : Thread) (n : Nat) : DWord := t.rd (n + 1) ++ t.rd n

/-- The pair from register n written. -/
def Thread.wr2 (t : Thread) (n : Nat) (v : DWord) : Thread :=
  (t.wr n (v.setWidth 32)).wr (n + 1) (v.extractLsb' 32 32)

/-- The quad from register n (R171). -/
def Thread.rd4 (t : Thread) (n : Nat) : BitVec 128 := t.rd2 (n + 2) ++ t.rd2 n

/-- The quad from register n written. -/
def Thread.wr4 (t : Thread) (n : Nat) (v : BitVec 128) : Thread :=
  (t.wr2 n (v.setWidth 64)).wr2 (n + 2) (v.extractLsb' 64 64)

/-- Registers from n written with a list of words. -/
def Thread.wrs (t : Thread) (n : Nat) : List Word → Thread
  | [] => t
  | v :: r => Thread.wrs (t.wr n v) (n + 1) r

/-- Predicate n; p0 reads true (R173). -/
def Thread.rdP (t : Thread) (n : Nat) : Bool := n == 0 || t.p.getLsbD n

/-- Predicate n written; a write of p0 is ignored (R173). -/
def Thread.wrP (t : Thread) (n : Nat) (v : Bool) : Thread :=
  if n = 0 then t
  else { t with p := if v then t.p ||| (1#16 <<< n) else t.p &&& ~~~(1#16 <<< n) }

/-- The predicate word: bit 0 reads 1 (R173). -/
def Thread.predWord (t : Thread) : Word := (t.p ||| 1#16).setWidth 32

/-- Index register j. -/
def Thread.rdI (t : Thread) (j : Nat) : Word := t.idx[j]?.getD 0

/-- Index register j written whole. -/
def Thread.wrI (t : Thread) (j : Nat) (v : Word) : Thread := { t with idx := t.idx.setIfInBounds j v }

/-- Extension register j. -/
def Thread.rdX (t : Thread) (j : Nat) : Word := t.x[j]?.getD 0

/-- Extension register j written. -/
def Thread.wrX (t : Thread) (j : Nat) (v : Word) : Thread := { t with x := t.x.setIfInBounds j v }

/-- The core or engine on which the thread stands. -/
def Thread.core (t : Thread) : Nat :=
  match t.place with
  | .nowhere => 0
  | .swarm c _ => c
  | .wave c _ _ => c
  | .transit c => c

/-- The die on which the thread stands. -/
def Thread.die (t : Thread) : Nat := coreDie t.core

/-- The thread stands on a wave engine. -/
def Thread.isWave (t : Thread) : Bool :=
  match t.place with
  | .wave _ _ _ => true
  | _ => false

/-- A supervisor thread: slots 56 to 62 of channel core 0 (R414). -/
def Thread.isSuper (t : Thread) : Bool :=
  match t.place with
  | .swarm c k => coreCluster c == 15 && coreIdx c == 0 && decide (56 ≤ k) && decide (k ≤ 62)
  | _ => false

/-- A live thread: not exited and not killed. -/
def Thread.live (t : Thread) : Bool := t.run != .absent

/-- The place word (R141, R405). -/
def Thread.placeWord (t : Thread) : Word :=
  match t.place with
  | .nowhere => 0
  | .swarm c k => BitVec.ofNat 32 (c * 64 + k)
  | .wave c l p => BitVec.ofNat 32 (2 ^ 31 + p * 2 ^ 21 + c * 64 + l)
  | .transit c => BitVec.ofNat 32 (c * 64)

/-- The 21-bit place at which the mover of a core stands: slot 63 (R156, R369). -/
def moverPlace (c : Nat) : Nat := c * 64 + 63

/-- The key of the order S for a place: die, cluster, core, slot (R228). -/
def Thread.orderKey (t : Thread) : Nat :=
  match t.place with
  | .swarm c k => c * 4096 + k
  | .wave c l p => c * 4096 + 32 * l + p
  | .transit c => c * 4096
  | .nowhere => 0

/-- The encoding table of the thread (R268). -/
def Thread.isCuique (t : Thread) : Bool := t.version == 0xCF

/-! State accessors. -/

/-- Core c. -/
def State.core (s : State) (c : Nat) : Core := Table.at s.cores c Core.reset

/-- Core c changed. -/
def State.updCore (s : State) (c : Nat) (f : Core → Core) : State :=
  { s with cores := Table.put s.cores c (f (s.core c)) }

/-- Die d. -/
def State.die (s : State) (d : Nat) : Die := s.dies[d]?.getD Die.reset

/-- Die d changed. -/
def State.updDie (s : State) (d : Nat) (f : Die → Die) : State :=
  { s with dies := s.dies.setIfInBounds d (f (s.die d)) }

/-- Partition p. -/
def State.part? (s : State) (p : Nat) : Option Part := s.parts.find? (fun q => q.id == p)

/-- Partition p changed. -/
def State.updPart (s : State) (p : Nat) (f : Part → Part) : State :=
  { s with parts := s.parts.map (fun q => if q.id == p then f q else q) }

/-- The dies of partition p. -/
def State.partDies (s : State) (p : Nat) : List Nat := ((s.part? p).map (·.dies)).getD []

/-- The partition of a die. -/
def State.partOfDie (s : State) (d : Nat) : Option Nat := (s.parts.find? (fun q => q.dies.contains d)).map (·.id)

/-- The present dies of partition p. -/
def State.presentDies (s : State) (p : Nat) : List Nat :=
  (s.partDies p).filter (fun d => (s.die d).present && !(s.die d).inReset && !(s.die d).lost)

/-- The first thread among all that satisfies f, the issuing one first. -/
def State.findThread (s : State) (f : Thread → Bool) : Option Thread :=
  if f s.th then some s.th else s.threads.find? f

/-- The thread with this identity. -/
def State.thread? (s : State) (uid : Nat) : Option Thread := s.findThread (fun t => t.uid == uid && t.live)

/-- Every thread changed by f. -/
def State.mapThreads (s : State) (f : Thread → Thread) : State :=
  { s with th := f s.th, threads := s.threads.map f }

/-- The thread with this identity changed. -/
def State.updThread (s : State) (uid : Nat) (f : Thread → Thread) : State :=
  s.mapThreads (fun t => if t.uid == uid then f t else t)

/-- All live threads that satisfy f. -/
def State.selThreads (s : State) (f : Thread → Bool) : List Thread := (s.th :: s.threads).filter (fun t => t.live && f t)

/-- Some live thread satisfies f. -/
def State.anyThread (s : State) (f : Thread → Bool) : Bool := (s.th :: s.threads).any (fun t => t.live && f t)

/-- Stream n of a partition. -/
def Part.stream (p : Part) (n : Nat) : Stream := Table.at p.streams n Stream.reset

/-- Stream n of a partition changed. -/
def Part.updStream (p : Part) (n : Nat) (f : Stream → Stream) : Part :=
  { p with streams := Table.put p.streams n (f (p.stream n)) }

/-- Stream n of partition p changed. -/
def State.updStream (s : State) (p n : Nat) (f : Stream → Stream) : State :=
  s.updPart p (fun q => q.updStream n f)

/-- Group g changed. -/
def State.updGroup (s : State) (g : Nat) (f : Group → Group) : State :=
  { s with groups := s.groups.map (fun x => if x.id == g then f x else x) }

/-- The group with this identity. -/
def State.group? (s : State) (g : Nat) : Option Group := s.groups.find? (fun x => x.id == g)

/-- The gang with this identity. -/
def State.gang? (s : State) (g : Nat) : Option Gang := s.gangs.find? (fun x => x.id == g)

/-- Gang g changed. -/
def State.updGang (s : State) (g : Nat) (f : Gang → Gang) : State :=
  { s with gangs := s.gangs.map (fun x => if x.id == g then f x else x) }

/-- An event appended to the agenda. -/
def State.later (s : State) (e : Event) : State := { s with agenda := s.agenda ++ [e] }

/-- A timer inserted in order of clk, after those of the same clk. -/
def insertTimer : List (Nat × Event) → Nat → Event → List (Nat × Event)
  | [], c, e => [(c, e)]
  | (c', e') :: r, c, e => if c < c' then (c, e) :: (c', e') :: r else (c', e') :: insertTimer r c e

/-- An event due at clk c. -/
def State.at_ (s : State) (c : Nat) (e : Event) : State := { s with timers := insertTimer s.timers c e }

/-- An event due at clk c, unless the same event is already due. -/
def State.atOnce (s : State) (c : Nat) (e : Event) : State :=
  if s.timers.any (fun x => x.2 == e) then s else s.at_ c e

/-- The next clk at or after c that is a multiple of n (windows of R96, R227, R73). -/
def nextMultiple (c n : Nat) : Nat := (c + n - 1) / n * n

/-- A message to the outside. -/
def State.send (s : State) (m : OutMsg) : State := { s with out := m :: s.out }

/-- A service die log entry. -/
def State.log (s : State) (what : String) (num : Nat) : State := { s with sdLog := ⟨what, num, 0⟩ :: s.sdLog }

/-- A service die log entry that names an address. -/
def State.logAt (s : State) (what : String) (num addr : Nat) : State := { s with sdLog := ⟨what, num, addr⟩ :: s.sdLog }

/-! Latencies of the idle-device model (R145). -/

/-- Two clk counts for a passage to another die and back: 60 each way. -/
def crossing (d e : Nat) : Nat := if d = e then 0 else 120

/-- Latency of a message between cores (R446). -/
def msgLatency (c e : Nat) : Nat :=
  (if c = e then 8 else if c / 64 = e / 64 then 24 else 64) + crossing (coreDie c) (coreDie e) / 2

/-! Event counters (R80 to R82). -/

/-- A core event counted by the core counters whose selects name it (R82). -/
def coreEvent (s : State) (c : Nat) (ev : Nat) (n : Nat) : State :=
  let k := s.core c
  if k.evs0.toNat ≠ ev ∧ k.evs1.toNat ≠ ev then s
  else s.updCore c (fun c => { c with
    evc0 := if c.evs0.toNat = ev then c.evc0 + BitVec.ofNat 32 n else c.evc0
    evc1 := if c.evs1.toNat = ev then c.evc1 + BitVec.ofNat 32 n else c.evc1 })

/-- Event counter k of a die. -/
def State.evCounter (s : State) (die k : Nat) : EvCounter := Table.at s.evc (die * 64 + k) EvCounter.reset

/-- A counter selects this event in this instance. -/
def EvCounter.selects (e : EvCounter) (block ev inst : Nat) : Bool :=
  e.sel.getLsbD 63 && bits e.sel.toNat 55 48 == block && bits e.sel.toNat 47 32 == ev && decide (inst < 32) && e.sel.getLsbD inst

/-- n events counted: COUNT wraps or saturates, and OVF is set, as SAT says (R80). -/
def EvCounter.add (e : EvCounter) (n : Nat) : EvCounter :=
  let v := e.count.toNat + n
  if v < 2 ^ 48 then { e with count := BitVec.ofNat 64 v }
  else { e with count := BitVec.ofNat 64 (if e.sel.getLsbD 62 then 2 ^ 48 - 1 else v % 2 ^ 48), sel := e.sel ||| (1#64 <<< 61) }

/-- A die event counted by the die's counters (R80, R81); the events of a clk in which COUNT has been written are not counted. [DEDUCED: log 65] -/
def dieEvent (s : State) (die block ev inst n : Nat) : State :=
  if s.evc.isEmpty then s
  else { s with evc := s.evc.map (fun e =>
    if e.1 / 64 == die && e.2.wrote != s.clk + 1 && e.2.selects block ev inst then (e.1, e.2.add n) else e) }

/-- A die event of a cluster's instance: channel cores belong to none. -/
def clusterEvent (s : State) (c block ev n : Nat) : State :=
  if coreCluster c < 12 then dieEvent s (coreDie c) block ev (coreCluster c) n else s

/-! The fault queue (R68 to R70). -/

/-- Cause codes (R415). -/
def Cause.code : Cause → Nat
  | .illegal => 1 | .zeroParcel => 2 | .wrongEngine => 3 | .fetchBound => 4 | .regBound => 5 | .indexBound => 6
  | .translation => 7 | .permission => 8 | .alignment => 9 | .window => 10 | .privilege => 11 | .barrierScope => 12
  | .migOversize => 13 | .weirOverflow => 14 | .legacy => 15 | .float => 16 | .breakpoint => 17 | .watchdog => 18
  | .trap => 19

/-- The bytes of a fault queue record but for SEQ: kind, cause, socket, place, address, 40 bytes of detail (R68). -/
def fqBytes (kind cause socket place : Nat) (addr : Nat) (detail : List Byte) : List Byte :=
  ([BitVec.ofNat 8 kind, BitVec.ofNat 8 cause, BitVec.ofNat 8 socket, 0] ++ leBytes 4 place ++ leBytes 8 addr ++
    leBytes 8 0 ++ (detail ++ List.replicate 40 0).take 40)

/-- The bytes of a record with its SEQ in bytes 16 to 23 (R68). -/
def fqWithSeq (b : List Byte) (seq : Nat) : List Byte := b.take 16 ++ leBytes 8 seq ++ b.drop 24

/-- Physical address of record n of the queue on a die (R68). -/
def fqAddr (die n : Nat) : Nat := die * 2 ^ 46 + 0x01D00000 + 64 * (n % 4096)

/-- One record written to every live copy (R68, R70). -/
def fqWrite (s : State) (q : Part) (b : List Byte) : State :=
  let n := q.fqTail.toNat
  let bytes := fqWithSeq b q.fqSeq
  let m := writeList s.mem (fqAddr q.home n) bytes
  let m := match q.mirror with
    | some d => writeList m (fqAddr d n) bytes
    | none => m
  { s with mem := m }.updPart q.id (fun q =>
    { q with fqTail := q.fqTail + 1, fqSeq := q.fqSeq + 1, fq := Table.put q.fq (n % 4096) ⟨bytes⟩ })

/-- The queue is full (R69). -/
def Part.fqFull (q : Part) : Bool := q.fqTail - q.fqHead == 4096

/-- The counter home takes operations: its die is not in reset (R70). -/
def State.homeUp (s : State) (q : Part) : Bool := !(s.die q.home).inReset

/-- A THREAD record would wait for room (R69). -/
def Part.fqHolds (q : Part) (isThread : Bool) : Bool := isThread && (q.fqFull || !q.fqWait.isEmpty)

/-- The SEQ that the next record of the partition takes; what stands for it while the record waits. -/
def fqNextSeq (s : State) (p : Nat) (isThread : Bool) : Nat :=
  match s.part? p with
  | none => 0
  | some q => if !s.homeUp q || q.fqHolds isThread then 2 ^ 64 + s.nextId else q.fqSeq

/-- A record for partition p: every record waits while its home is in reset; a THREAD record waits while the queue is full, any other
is dropped and counted while it is full (R69, R70). -/
def fqPush (s : State) (p : Nat) (b : List Byte) (w : FqWait) : State :=
  match s.part? p with
  | none => s
  | some q =>
    let th := b.head? == some 1
    let w := { w with guess := 2 ^ 64 + s.nextId }
    let next (s : State) : State := { s with nextId := s.nextId + 1 }
    if !s.homeUp q then next (s.updPart p (fun q => { q with homeWait := q.homeWait ++ [.record w th] }))
    else if q.fqHolds th then next (s.updPart p (fun q => { q with fqWait := q.fqWait ++ [w] }))
    else if q.fqFull then s.updPart p (fun q => { q with fqDropped := q.fqDropped + 1 })
    else fqWrite s q b

/-- A record that no thread waits for. -/
def fqNote (s : State) (p : Nat) (b : List Byte) : State := fqPush s p b ⟨b, 0, 0, 0, 0⟩

/-- A HOSTERR record: stream, slot, word, source, BAR offset, address (R447). -/
def hosterr (s : State) (p stream slot word source barOff addr : Nat) : State :=
  fqNote s p (fqBytes 6 0 0xFF 0 addr
    (leBytes 1 stream ++ leBytes 1 slot ++ leBytes 1 word ++ leBytes 1 source ++ leBytes 4 0 ++ leBytes 8 barOff))

/-- A DIELOST record (R15, R68): socket and address; no stream records are named. [DESIGN CHOICE: log 87] -/
def dielost (s : State) (p socket addr : Nat) : State := fqNote s p (fqBytes 3 0 socket 0 addr (Config.openDetail 3 []))

/-! Taking a cause (R416), and the fault table (R210 to R212). -/

/-- A fault with no operand, no address and no code. -/
def faultOf (c : Cause) (len : Nat) : FaultRec := ⟨c, 0, 255, 255, 0, 0, len, none, none, 0⟩

/-- Fault of an address with an access kind. [DEDUCED: log 19] -/
def faultAt (c : Cause) (len : Nat) (addr : DWord) (acc : Nat) : FaultRec := ⟨c, addr, 255, 255, 0, acc, len, none, none, 0⟩

/-- Lane mask of a THREAD record: the thread's lane bit on a wave engine, 1 on a swarm core (R416). -/
def Thread.laneMask (t : Thread) : Nat :=
  match t.place with
  | .wave _ l _ => 2 ^ l
  | _ => 1

/-- The detail bytes 24 to 63 of a THREAD record (R416). -/
def threadDetail (t : Thread) (f : FaultRec) : List Byte :=
  leBytes 4 t.pc.toNat ++ leBytes 1 f.pos ++ leBytes 1 f.idx ++ leBytes 1 f.code ++ leBytes 1 f.acc ++
    leBytes 8 t.laneMask ++ leBytes 2 (f.entry.getD 0xFFFF) ++ leBytes 2 0 ++
    leBytes 4 ((if t.isWave then 0 else t.tid % 2048) + t.grp % 8192 * 2048 + t.role * 2 ^ 24) ++
    leBytes 1 t.stream ++ leBytes 1 t.slot ++ leBytes 2 t.runNo ++ leBytes 4 0 ++ leBytes 8 0

/-- The THREAD record of a fault of thread t (R416). -/
def threadRecord (t : Thread) (f : FaultRec) : List Byte :=
  fqBytes 1 f.cause.code t.die t.placeWord.toNat f.addr.toNat (threadDetail t f)

/-- The lowest of 0 to 255 not in a fault table, if any. -/
def freeEntry (l : Table FaultEntry) : Option Nat := (List.range 256).find? (fun e => (Table.get l e).isNone)

/-- The open entry of a page and cause (R210): one in state resolving accepts no new waiters. -/
def openEntry (l : Table FaultEntry) (vpage : Nat) (c : Cause) : Option Nat :=
  (l.find? (fun e => e.2.vpage == vpage && e.2.cause == c && !e.2.resolving)).map (·.1)

/-- A waiter w joins the fault table of a die for a page and cause (R210): it joins the open entry, or opens a free one and
writes the record that rec gives for the entry number, or takes a ticket (R212). Answers entry, ticket and SEQ. [DEDUCED: log 23] -/
def joinFault (s : State) (die p vpage : Nat) (c : Cause) (w : Nat) (rec : Nat → List Byte) (wait : FqWait) :
    State × Option Nat × Option Nat × Nat :=
  let d := s.die die
  match openEntry d.ftab vpage c with
  | some e =>
    let s := if c = .translation then dieEvent s die 7 1 0 1 else s
    (s.updDie die (fun d => { d with ftab := d.ftab.map (fun x =>
      if x.1 == e then (x.1, { x.2 with waiters := x.2.waiters ++ [w] }) else x) }), some e, none,
      ((Table.get d.ftab e).map (·.seq)).getD 0)
  | none =>
    match freeEntry d.ftab with
    | some e =>
      let seq := fqNextSeq s p true
      let s := s.updDie die (fun d => { d with ftab := Table.put d.ftab e ⟨vpage, c, [w], false, seq⟩ })
      (fqPush s p (rec e) { wait with bytes := rec e }, some e, none, seq)
    | none =>
      (s.updDie die (fun d => { d with fticket := d.fticket + 1 }), none, some d.fticket, 0)

/-- TAKING A CAUSE (R416): thread t parks at its instruction, at the rx prefix when it has one, and its THREAD record is
written; translation and permission causes go through the fault table (R210). Answers the state and the parked thread. -/
def parkFault (s : State) (t : Thread) (f : FaultRec) : State × Thread :=
  let w : FqWait := ⟨[], 0, t.uid, t.stream, t.slot⟩
  let len := f.len + (if t.rx then 1 else 0)
  if f.cause = .translation ∨ f.cause = .permission then
    let (s, e, k, seq) := joinFault s t.die t.part (f.addr.toNat / 65536) f.cause t.uid
      (fun e => threadRecord t { f with entry := some e }) w
    (s, { t with run := .faulted { f with entry := e, ticket := k, seq := seq, len := len }, rx := false, parkedAt := s.clk, carried := [] })
  else
    let seq := fqNextSeq s t.part true
    (fqPush s t.part (threadRecord t f) { w with bytes := threadRecord t f },
      { t with run := .faulted { f with seq := seq, len := len }, rx := false, parkedAt := s.clk, carried := [] })

/-- The issuing thread takes a cause. -/
def raise (s : State) (f : FaultRec) : State :=
  let (s', t) := parkFault s s.th f
  { s' with th := t }

/-! Light handlers (R154, R155). -/

/-- The first four registers exchanged with h0 to h3 (R155). -/
def exchange (t : Thread) : Thread :=
  { t with
    h := #v[t.g[0], t.g[1], t.g[2], t.g[3]]
    g := (((t.g.set 0 t.h[0]).set 1 t.h[1]).set 2 t.h[2]).set 3 t.h[3] }

/-- One issue interval of a handler entry or return: 8 clk on a swarm core, 4 on a wave engine (R155). -/
def Thread.handlerTime (t : Thread) : Nat := if t.isWave then 4 else 8

/-- The registers that the latest instruction of a wave thread writes join those that await a result (R146). -/
def Thread.settleCur (t : Thread) (clk : Nat) : Thread :=
  match t.cur with
  | none => t
  | some ws =>
    let live := t.marks.filter (fun m => m.flight.isSome || decide (clk < m.till))
    { t with cur := none, marks := if clk < t.readyAt then live ++ ws.map (fun w => ⟨w.1, w.2, t.readyAt, none⟩) else live }

/-- The thread may issue as far as its latest instruction goes: its interval is over, or it waits only for results (R143, R146). -/
def Thread.mayIssue (t : Thread) (clk : Nat) : Bool := decide (t.readyAt ≤ clk) || t.cur.isSome

/-- ENTRY to the light handler (R155): exchange, %lhret, %lhcause and %lhdat, in-handler mark, and on at %lhpc. -/
def enterHandler (t : Thread) (clk : Nat) (cause : Nat) (dat ret : Word) : Thread :=
  { exchange (t.settleCur clk) with
    carried := []
    lhret := ret, lhcause := BitVec.ofNat 32 cause, lhdat := dat, inH := true, pc := t.lhpc, rx := false
    readyAt := clk + t.handlerTime }

/-- Cause n is enabled for the thread (R154, R404): RILL while %lhpc is not zero, 2 to 5 by %lhen. -/
def Thread.enabled (t : Thread) (n : Nat) : Bool :=
  if n = 1 then t.lhpc != 0 else decide (2 ≤ n) && decide (n ≤ 5) && t.lhen.getLsbD n

/-- RETURN from the light handler (R155): exchange back and on at %lhret; the lowest pending cause is entered at once, with
%lhret the PC at which the return would have continued. -/
def leaveHandler (t : Thread) (clk : Nat) : Thread :=
  let t' : Thread := { exchange t with inH := false, pc := t.lhret, readyAt := clk + t.handlerTime }
  if t.pend.getLsbD 2 then
    { enterHandler t' clk 2 t.pendMail t.lhret with pend := t.pend &&& ~~~(1#6 <<< 2) }
  else if t.pend.getLsbD 3 then
    { enterHandler t' clk 3 t.pendCopy t.lhret with pend := t.pend &&& ~~~(1#6 <<< 3) }
  else t'

/-! Ending an instruction. -/

/-- The instruction of the issuing thread completes: the PC moves past it and its rx prefix, and the thread is eligible again
after the interval. [DESIGN CHOICE: log 5] -/
def Thread.done (t : Thread) (clk len interval : Nat) : Thread :=
  { t with
    pc := t.pc + BitVec.ofNat 32 (len + (if t.rx then 1 else 0)), rx := false, run := .ready, carried := []
    readyAt := clk + interval, seed := t.seed + (if t.busy.isEmpty then 0 else 2) }

/-- A transfer of control: the PC is the target. -/
def Thread.jump (t : Thread) (clk : Nat) (target : Word) (interval : Nat) : Thread :=
  { t with
    pc := target, rx := false, run := .ready, readyAt := clk + interval, carried := []
    seed := t.seed + (if t.busy.isEmpty then 0 else 2) }

/-- The issuing thread waits at its instruction with what its completion writes and advances; its rx prefix is part of the
instruction. -/
def Thread.await (t : Thread) (clk : Nat) (w : Wait) (dst : Nat) (adv : List Nat) (len : Nat) : Thread :=
  { t with
    run := .waiting w, parkedAt := clk, rx := false
    fin := ⟨dst, adv, len + (if t.rx then 1 else 0)⟩ }

/-- The wait ends and the instruction executes again from its start (R380, R417, R207). -/
def Thread.again (t : Thread) (clk : Nat) : Thread := { t with run := .ready, readyAt := clk }

/-- The issuing thread replaced. -/
def State.put (s : State) (t : Thread) : State := { s with th := t }

/-- Swarm interval or wave delay of an instruction (R143, R146). [DESIGN CHOICE: log 5] -/
def Thread.interval (t : Thread) (swarm wave : Nat) : Nat := if t.isWave then wave else swarm

/-- Wrong engine: an S instruction on a wave engine or a W instruction on a swarm core (R291). -/
def Thread.onlyWave (t : Thread) : Bool := !t.isWave

/-! Events for handlers (R155, R380). -/

/-- A wait that an event abandons (R380): a parked wait in the sense of R104, a rill wait or a sleep. -/
def Wait.abandonable : Wait → Bool
  | .fe _ | .msgReg _ _ | .mailbox | .weir _ _ | .barObj _ _ _ | .rill _ | .sleep _ | .emit _ => true
  | _ => false

/-- A wait that counts as parked in the sense of R104. -/
def Wait.parked : Wait → Bool
  | .fe _ | .msgReg _ _ | .mailbox | .weir _ _ | .barObj _ _ _ | .emit _ => true
  | _ => false

/-- An event of cause 2 or 3 reaches a thread (R155, R380): it is pending, merged with one of its cause that is, and a wait that it
abandons outside a handler ends: a sleep is over, any other parked instruction executes again. -/
def deliverEvent (t : Thread) (clk cause : Nat) (dat : Word) : Thread :=
  let t : Thread := if t.pend.getLsbD cause then t else
    let t := { t with pend := t.pend ||| (1#6 <<< cause) }
    if cause = 2 then { t with pendMail := dat } else { t with pendCopy := dat }
  if t.inH || t.rx then t
  else match t.run with
    | .waiting (.sleep _) => { t with run := .ready, readyAt := clk, pc := t.pc + BitVec.ofNat 32 t.fin.len }
    | .waiting w => if w.abandonable then t.again clk else t
    | _ => t

/-- A pending event is delivered at an instruction boundary outside a handler (R155, R380). [DEDUCED: log 84] -/
def takePending (t : Thread) (clk : Nat) : Thread :=
  if t.inH || t.rx || t.run != .ready then t
  else if t.pend.getLsbD 2 then
    { enterHandler t clk 2 t.pendMail t.pc with pend := t.pend &&& ~~~(1#6 <<< 2) }
  else if t.pend.getLsbD 3 then
    { enterHandler t clk 3 t.pendCopy t.pc with pend := t.pend &&& ~~~(1#6 <<< 3) }
  else t

/-- The state in which an operation of a unit goes on: such an operation always answers a next state. -/
def stateOf (o : Out) (s : State) : State := match o with | .next u => u | _ => s

/-! Budgets (R73, R74). -/

/-- Work charged to budgets, each by its key with its amount and its allowance in a period; none when one is exhausted. -/
def chargeAll : List (Nat × Nat × Nat) → Table Nat → Option (Table Nat)
  | [], b => some b
  | x :: r, b =>
    let used := Table.at b x.1 0
    if x.2.2 < used + x.2.1 then none else chargeAll r (Table.put b x.1 (used + x.2.1))

/-- Work is charged to its budgets in this period; none when one is exhausted, or earlier work charged to one of them waits. [DEDUCED: log 80] -/
def spend (s : State) (l : List (Nat × Nat × Nat)) : Option State :=
  if s.deferred.any (fun d => d.1.any (fun k => l.any (fun x => x.1 == k))) then none
  else (chargeAll l s.budget).map (fun b => { s with budget := b }.atOnce (nextMultiple (s.clk + 1) 10000) .budgetPeriod)

/-- Work is deferred to the next period, behind what waits for these budgets. -/
def defer (s : State) (keys : List Nat) (e : Event) : State :=
  { s with deferred := s.deferred ++ [(keys, e)] }.atOnce (nextMultiple (s.clk + 1) 10000) .budgetPeriod

/-- WORK OF AN ACTIVITY within its budgets: it is done now, or deferred and nothing else. -/
def budgeted (s : State) (l : List (Nat × Nat × Nat)) (e : Event) (go late : State → State) : State :=
  match spend s l with
  | some s => go s
  | none => late (defer s (l.map (·.1)) e)

end Sys2Proof.Machine
end

