-- ==== Sys2Proof/WellFormed.lean ====
section
/-! DEFINITION. Which instructions are legal encodings in each encoding version: the checks of R276 step 3 that the opcode
map states for field values (R282, R283, R285 to R290, R171, R268, R277, R404). -/

namespace Sys2Proof

/-- The encoding versions a decoder table exists for; translated Cuique code uses version 3 (R268). -/
inductive Ver where
  /-- Version 1. -/
  | v1
  /-- Version 2. -/
  | v2
  /-- Version 3, and the value 0xCF of translated code. -/
  | v3
  deriving DecidableEq, Repr

/-- The decoder table that a VERSION byte selects (R268); other values are malformed objects and never run. -/
def Ver.ofByte (v : Byte) : Ver := if v = 1 then .v1 else if v = 2 then .v2 else .v3

/-- A code that names an index register and not a register itself (R179, R180). -/
def indirect (v : Ver) (c : Code) : Bool := v != .v1 && decide (120 ≤ c.toNat)

/-- A direct code of a k-register operand is a multiple of k (R171); indirect codes are checked at resolution. -/
def alignedTo (v : Ver) (k : Nat) (c : Code) : Bool := indirect v c || c.toNat % k == 0

/-- Ordering and scope of an atomic (R285): both assigned, and sc only with scope part. -/
def ordScopeOk (o s : BitVec 3) : Bool :=
  decide (o.toNat ≤ 4) && decide (s.toNat ≤ 4) && (o != 4 || s == 3)

/-- A state word that the thread's version has (R404, R268). -/
def stateWordAssigned (v : Ver) (n : Code) : Bool :=
  decide (n.toNat ≤ 25) || n == 40 || (v != .v1 && decide (32 ≤ n.toNat ∧ n.toNat ≤ 39))

/-- A 32-bit state word that users or supervisors may write (R404, R407). -/
def stateWordWritable (n : Code) : Bool :=
  [2, 5, 6, 7, 10, 11, 12, 13, 14, 15, 16, 17, 32, 33, 34, 35, 36, 37, 38, 39, 40].contains n.toNat

/-- Alignment of the data operand of a load or store of size code z (R282, R171). -/
def sizeAligned (v : Ver) (z : BitVec 3) (d : Code) : Bool :=
  if z = 3 then alignedTo v 2 d else if z = 4 then alignedTo v 4 d else true

/-- The list of an ldm with direct codes holds neither register of its base pair (R345). -/
def ldmDisjoint (v : Ver) (d b : Code) (n : BitVec 5) : Bool :=
  indirect v d || indirect v b ||
    (decide (b.toNat + 1 < d.toNat) || decide (d.toNat + n.toNat < b.toNat))

/-- The types of R287 that occupy a pair. -/
def isWide (t : Nat) : Bool := t == 2 || t == 3 || t == 7

/-- A conversion from type code s to type code t with rounding field r (R336). -/
def cvtOk (v : Ver) (t : Nat) (d a : Code) (s : BitVec 4) (r : BitVec 3) : Bool :=
  decide (s.toNat ≤ 10) && decide (r.toNat ≤ 4) && s.toNat != t &&
    (!isWide s.toNat || alignedTo v 2 a) && (!isWide t || alignedTo v 2 d) &&
    (!(decide (t ≤ 3) && decide (s.toNat ≤ 3)) || r == 0)

/-- Value operand of an atomic: a pair when wide; for cas a pair or a quad (R350). -/
def amoOk (v : Ver) (cas : Bool) (d : Code) (o s : BitVec 3) (w : BitVec 1) : Bool :=
  ordScopeOk o s && (if cas then alignedTo v (if w = 1 then 4 else 2) d else w == 0 || alignedTo v 2 d)

/-- The ordering of a reduction is rlx or rel (R288). -/
def redOrd (o : BitVec 3) : Bool := o == 0 || o == 2

/-- A mover command: report set not empty, scope assigned, A a quad (R373, R288). -/
def mvOk (v : Ver) (a : Code) (p s : BitVec 3) : Bool := p != 0 && decide (s.toNat ≤ 4) && alignedTo v 4 a

/-- A matrix instruction: D a multiple of 4, A of k registers (R385). -/
def mmaOk (v : Ver) (k : Nat) (d a : Code) : Bool := alignedTo v 4 d && alignedTo v k a

/-- Ranges of the data that a device step carries. -/
def dieOk (d : Nat) : Bool := decide (d < 24)

/-- The field values of an instruction are those its version assigns (R276 step 3); a device step names existing units. -/
def wellFormed (v : Ver) : Instr → Bool
  | .movS a b => !(a == 0 && b == 0)
  | .mulw d _ _ | .mulwn d _ _ => alignedTo v 2 d
  | .addD d a b | .subD d a b | .divS64 d a b | .divnN64 d a b | .remS64 d a b | .remnN64 d a b
  | .dadd d a b | .dmul d a b | .dfma d a b => alignedTo v 2 d && alignedTo v 2 a && alignedTo v 2 b
  | .shlD d a _ => alignedTo v 2 d && alignedTo v 2 a
  | .cmpS32 c _ _ _ | .cmpN32 c _ _ _ => decide (c.toNat ≤ 5)
  | .cmpS64 c _ a b | .cmpN64 c _ a b => decide (c.toNat ≤ 5) && alignedTo v 2 a && alignedTo v 2 b
  | .fcmpF64 _ _ a b => alignedTo v 2 a && alignedTo v 2 b
  | .fclassF64 _ a => alignedTo v 2 a
  | .ldB _ _ r _ _ | .ldH _ _ r _ _ | .ldW _ _ r _ _ | .ldBs _ _ r _ _ | .ldHs _ _ r _ _ => r != 3
  | .ldD d _ r _ _ => r != 3 && alignedTo v 2 d
  | .ldQ d _ r _ _ => r != 3 && alignedTo v 4 d
  | .ldExtended d _ r _ z => r != 3 && z != 7 && sizeAligned v z d
  | .stD d _ _ _ _ => alignedTo v 2 d
  | .stQ d _ _ _ _ => alignedTo v 4 d
  | .stExtended d _ _ _ z => decide (z.toNat ≤ 4) && sizeAligned v z d
  | .ldf _ _ r _ _ | .lde _ _ r _ _ | .stf _ _ r _ _ | .stx _ _ r _ _ | .fest _ _ r _ _ | .sete _ r _ _ => r != 3
  | .ldm d b r _ n => r != 3 && ldmDisjoint v d b n
  | .stm _ _ r _ _ => r != 3
  | .amoAdd d _ o s w | .amoAnd d _ o s w | .amoOr d _ o s w | .amoXor d _ o s w | .amoMin d _ o s w
  | .amoMax d _ o s w | .amoMinn d _ o s w | .amoMaxn d _ o s w | .amoSwap d _ o s w => amoOk v false d o s w
  | .amoCas d _ o s w => amoOk v true d o s w
  | .amoFadd _ _ o s => ordScopeOk o s
  | .redAdd d _ o s w | .redAnd d _ o s w | .redOr d _ o s w | .redXor d _ o s w | .redMin d _ o s w
  | .redMax d _ o s w | .redMinn d _ o s w | .redMaxn d _ o s w | .redSwap d _ o s w =>
    redOrd o && amoOk v false d o s w
  | .redCas d _ o s w => redOrd o && amoOk v true d o s w
  | .redFadd _ _ o s => redOrd o && decide (s.toNat ≤ 4)
  | .redFx64 d _ o s => redOrd o && decide (s.toNat ≤ 4) && alignedTo v 2 d
  | .fence o s => o != 0 && ordScopeOk o s
  | .barj _ s | .barx _ s | .wwait _ s => decide (s.toNat ≤ 4)
  | .barw _ _ s | .wpoll _ _ s => decide (s.toNat ≤ 4)
  | .rmsg d s => decide (s.toNat ≤ 4) && alignedTo v 4 d
  | .msend _ b => alignedTo v 4 b
  | .mvcopy a p s | .mvcopy2 a p s | .mvgath a p s | .mvscat a p s | .mvfill a p s | .mvred a p s => mvOk v a p s
  | .fadd _ _ _ r | .fsub _ _ _ r | .fmul _ _ _ r | .fdiv _ _ _ r | .fma _ _ _ r | .fnma _ _ _ r =>
    decide (r.toNat ≤ 4)
  | .fsqrt _ _ r | .frcp _ _ r | .frsq _ _ r | .fexp2 _ _ r | .flog2 _ _ r | .fsin _ _ r | .fcos _ _ r
  | .fsinR _ _ r | .fcosR _ _ r | .frint _ _ r | .ffrac _ _ r => decide (r.toNat ≤ 4)
  | .cvtS32 d a s r => cvtOk v 0 d a s r
  | .cvtN32 d a s r => cvtOk v 1 d a s r
  | .cvtS64 d a s r => cvtOk v 2 d a s r
  | .cvtN64 d a s r => cvtOk v 3 d a s r
  | .cvtF32 d a s r => cvtOk v 4 d a s r
  | .cvtF16 d a s r => cvtOk v 5 d a s r
  | .cvtBf16 d a s r => cvtOk v 6 d a s r
  | .cvtF64 d a s r => cvtOk v 7 d a s r
  | .cvtE4m3 d a s r => cvtOk v 8 d a s r
  | .cvtE5m2 d a s r => cvtOk v 9 d a s r
  | .cvtE2m1 d a s r => cvtOk v 10 d a s r
  | .cvtE4m3Sat d a s r => cvtOk v 8 d a s r
  | .ballot d _ => alignedTo v 2 d
  | .lsum _ _ t | .lmin _ _ t => t != 3
  | .mmaBf16 d a _ _ | .mmaF16 d a _ _ | .mmaQ4 d a _ _ => mmaOk v 4 d a
  | .mmaF8E4m3E4m3 d a _ _ | .mmaF8E4m3E5m2 d a _ _ | .mmaF8E5m2E4m3 d a _ _ | .mmaF8E5m2E5m2 d a _ _
  | .mmaF8S8 d a _ _ => mmaOk v 2 d a
  | .mmaMx4 d a _ _ | .mmaTs8W8 d a _ _ | .mmaTs8W4 d a _ _ => v == .v3 && mmaOk v 2 d a
  | .smp d _ _ | .smpl d _ _ | .smpg d _ _ | .fetch d _ _ => alignedTo v 4 d
  | .pemit _ _ | .pemitCull _ => v == .v3
  | .pexp a _ => alignedTo v 4 a
  | .iset _ _ | .iget _ _ | .iclr0 | .iclr1 | .iclr2 | .iclr3 | .iclr4 | .iclr5 | .iclr6
  | .iclr7 | .iadv _ _ | .isetFields _ _ _ _ _ | .isetWrap _ _ _ _ _ => v != .v1
  | .sget d s => stateWordAssigned v s && (!(s == 18 || s == 21) || alignedTo v 2 d)
  | .sset _ s => stateWordAssigned v s && stateWordWritable s
  | .tlsig _ b | .tlsigSet _ b => alignedTo v 2 b
  | .dieReset d | .dieReturn d | .dieLost d | .dieLinkRetrain d | .dieLostTimeout d | .stackClearComplete d => dieOk d
  | .measurementExtend r d => decide (r < 16) && d.length == 32
  | .attestationReport n => n.length == 32
  | .flitReceive _ f => f.length == 128
  | .recordAccept _ n | .streamCancel _ n => decide (n < 64)
  | .timelineSet _ k _ | .timelineAdd _ k _ => decide (k < 4096)
  | _ => true

end Sys2Proof
end

