-- ==== Sys2Proof/Machine/Operands.lean ====
section
/-! DEFINITION. Operand forms: resolution of operand codes, index-register advance, operand overrides, and the frame that
every register instruction shares: check, resolve, read, compute, write, advance (R177, R179 to R184, R276, R299). -/

namespace Sys2Proof.Machine
open Sys2Proof

/-- A failed resolution: cause, operand position, index register (255 for none), and whether its reserved bits were set. -/
structure OpErr where
  /-- Index bound or register bound. -/
  cause : Cause
  /-- Operand position (R182). -/
  pos : Nat
  /-- Index register. -/
  idx : Nat
  /-- Raised by non-zero reserved bits (R188). -/
  reserved : Bool
  deriving DecidableEq, Repr

/-- A register operand: position, code, number of registers, alignment (R171, R181, R284). -/
structure Opnd where
  /-- Position. -/
  pos : Nat
  /-- Code. -/
  code : Code
  /-- Registers. -/
  k : Nat
  /-- Alignment. -/
  align : Nat
  deriving DecidableEq, Repr

/-- One register. -/
def reg (pos : Nat) (c : Code) : Opnd := ⟨pos, c, 1, 1⟩
/-- An even pair. -/
def pair (pos : Nat) (c : Code) : Opnd := ⟨pos, c, 2, 2⟩
/-- A quad. -/
def quad (pos : Nat) (c : Code) : Opnd := ⟨pos, c, 4, 4⟩
/-- An address pair, exempt from alignment (R284). -/
def addrPair (pos : Nat) (c : Code) : Opnd := ⟨pos, c, 2, 1⟩
/-- k registers without alignment. -/
def span (pos : Nat) (c : Code) (k : Nat) : Opnd := ⟨pos, c, k, 1⟩

/-- The code names an index register for this thread (R179, R268). -/
def Thread.indirect (t : Thread) (c : Code) : Bool := Sys2Proof.indirect (Ver.ofByte t.version) c

/-- The declared count an operand is checked against; in a Cuique thread every operand but the scratch operand (code 127) is
checked against N, two below the declared count (R271). -/
def Thread.limit (t : Thread) (c : Code) : Nat := if t.isCuique && c != 127 then t.count - 2 else t.count

/-- Effective offset of an index register (R181). -/
def idxOffset (v : Word) : Nat :=
  let b := bits v.toNat 13 7
  let off := bits v.toNat 20 14
  if v.getLsbD 26 && b != 0 then off % b else off

/-- RESOLVE (R181): the first register number that an operand reaches. -/
def resolve (t : Thread) (o : Opnd) : Except OpErr Nat :=
  let j := o.code.toNat - 120
  let v := t.rdI j
  if t.indirect o.code && bits v.toNat 31 27 != 0 then .error ⟨.indexBound, o.pos, j, true⟩
  else if t.indirect o.code && decide (bits v.toNat 13 7 < idxOffset v + o.k) then .error ⟨.indexBound, o.pos, j, false⟩
  else
    let n := if t.indirect o.code then bits v.toNat 6 0 + idxOffset v else o.code.toNat
    let ix := if t.indirect o.code then j else 255
    if n % o.align != 0 then .error ⟨.regBound, o.pos, ix, false⟩
    else if t.limit o.code < n + o.k then .error ⟨.regBound, o.pos, ix, false⟩
    else .ok n

/-- Signed four-bit step of an index register. -/
def idxStep (v : Word) : Int := (v.extractLsb' 21 4).toInt

/-- An index register with OFFSET replaced (R178). -/
def withOffset (v : Word) (off : Nat) : Word := (v &&& ~~~(0x7F#32 <<< 14)) ||| (BitVec.ofNat 32 (off % 128) <<< 14)

/-- OFFSET moved by s: modulo BOUND under WRAP, else modulo 128 (R183, R319). -/
def moveOffset (v : Word) (s : Int) : Word :=
  let b := bits v.toNat 13 7
  let off : Int := bits v.toNat 20 14
  if v.getLsbD 26 then (if b = 0 then v else withOffset v ((off + s) % b).toNat) else withOffset v ((off + s) % 128).toNat

/-- ADVANCE of index register j: only when POSTINC is set (R183). -/
def advance (t : Thread) (j : Nat) : Thread :=
  let v := t.rdI j
  if v.getLsbD 25 then t.wrI j (moveOffset v (idxStep v)) else t

/-- The distinct index registers that the codes use, but for those in except (R183, R184). -/
def usedIdx (t : Thread) (cs : List Code) (except : List Nat) : List Nat :=
  (((cs.filter t.indirect).map (fun c => c.toNat - 120)).dedup).filter (fun j => !except.contains j)

/-- Each index register of the list advanced once. -/
def advances (t : Thread) (js : List Nat) : Thread := js.foldl advance t

/-- The state after an operand fault of the issuing thread: INDEX enters the handler when enabled, outside a handler and not
raised by reserved bits; everything else goes to the supervisor (R188, R424). -/
def operandFault (s : State) (len : Nat) (e : OpErr) : State :=
  let t := s.th
  if e.cause = .indexBound ∧ !e.reserved ∧ t.enabled 4 ∧ !t.inH then
    (coreEvent s t.core 7 1).put (enterHandler t s.clk 4 (BitVec.ofNat 32 (e.pos + 16 * e.idx)) t.pc)
  else raise s ⟨e.cause, 0, e.pos, e.idx, 0, 0, len, none, none, 0⟩

/-! Operand overrides (R177). -/

/-- The override of position n is armed. -/
def Thread.armed (t : Thread) (n : Nat) : Bool := decide (1 ≤ n) && (t.rdX n).getLsbD 31

/-- The cause that an override raises at step 4 of R276 for an instruction whose single-register sources stand in the
positions of ovr: wrong engine on a swarm core, illegal for a thread entered by wenter. -/
def overrideCause (t : Thread) (ovr : List Nat) : Option Cause :=
  if ovr.any t.armed then
    if !t.isWave then some .wrongEngine else if t.entered then some .illegal else none
  else none

/-- Uniform register n of the thread's group (R175). -/
def State.uniform (s : State) (t : Thread) (n : Nat) : Word :=
  match s.group? t.grp with
  | some g => Table.at g.uni n 0
  | none => 0

/-- The value of a single-register source in position pos: the uniform register under an armed override, else register n. -/
def State.src (s : State) (t : Thread) (pos n : Nat) : Word :=
  if t.armed pos then s.uniform t (bits (t.rdX pos).toNat 7 0) else t.rd n

/-- ARM cleared in the overrides that the instruction applied. -/
def clearArms (t : Thread) (ovr : List Nat) : Thread :=
  ovr.foldl (fun t n => if t.armed n then t.wrX n (t.rdX n &&& 0x7FFFFFFF) else t) t

/-! The frame of an instruction. -/

/-- Step 4 of R276 for overrides, then the instruction. -/
def checkOverride (s : State) (len : Nat) (ovr : List Nat) (k : State) : State :=
  match overrideCause s.th ovr with
  | some c => raise s (faultOf c len)
  | none => k

/-- One operand resolved. -/
def ops1 (s : State) (len : Nat) (ovr : List Nat) (o : Opnd) (k : Nat → State) : State :=
  checkOverride s len ovr <|
    match resolve s.th o with
    | .error e => operandFault s len e
    | .ok n => k n

/-- Two operands resolved in order; the first fault stops (R182). -/
def ops2 (s : State) (len : Nat) (ovr : List Nat) (o p : Opnd) (k : Nat → Nat → State) : State :=
  ops1 s len ovr o fun n =>
    match resolve s.th p with
    | .error e => operandFault s len e
    | .ok m => k n m

/-- Three operands resolved in order. -/
def ops3 (s : State) (len : Nat) (ovr : List Nat) (o p q : Opnd) (k : Nat → Nat → Nat → State) : State :=
  ops2 s len ovr o p fun n m =>
    match resolve s.th q with
    | .error e => operandFault s len e
    | .ok l => k n m l

/-- Four operands resolved in order. -/
def ops4 (s : State) (len : Nat) (ovr : List Nat) (o p q r : Opnd) (k : Nat → Nat → Nat → Nat → State) : State :=
  ops3 s len ovr o p q fun n m l =>
    match resolve s.th r with
    | .error e => operandFault s len e
    | .ok i => k n m l i

/-- The thread after its writes t: index registers of the codes advance, the PC moves on (R183, R299). -/
def finish (s : State) (t : Thread) (codes : List Code) (except : List Nat) (len interval : Nat) : State :=
  s.put ((advances t (usedIdx s.th codes except)).done s.clk len interval)

/-- A 7-bit code of a 16-bit form's field (R278). -/
def code16 {w : Nat} (c : BitVec w) : Code := c.setWidth 7

/-- D := f A B on single registers. -/
def alu3 (len sw wv : Nat) (d a b : Code) (f : Word → Word → Word) (s : State) : State :=
  ops3 s len [1, 2] (reg 1 a) (reg 2 b) (reg 0 d) fun na nb nd =>
    finish s ((clearArms s.th [1, 2]).wr nd (f (s.src s.th 1 na) (s.src s.th 2 nb))) [a, b, d] [] len
      (s.th.interval sw wv)

/-- D := f A on single registers. -/
def alu2 (len sw wv : Nat) (d a : Code) (f : Word → Word) (s : State) : State :=
  ops2 s len [1] (reg 1 a) (reg 0 d) fun na nd =>
    finish s ((clearArms s.th [1]).wr nd (f (s.src s.th 1 na))) [a, d] [] len (s.th.interval sw wv)

/-- The pair D := f A B on single registers. -/
def alu3w (len sw wv : Nat) (d a b : Code) (f : Word → Word → DWord) (s : State) : State :=
  ops3 s len [1, 2] (reg 1 a) (reg 2 b) (pair 0 d) fun na nb nd =>
    finish s ((clearArms s.th [1, 2]).wr2 nd (f (s.src s.th 1 na) (s.src s.th 2 nb))) [a, b, d] [] len
      (s.th.interval sw wv)

/-- The pair D := f A B on pairs. -/
def alu3d (len sw wv : Nat) (d a b : Code) (f : DWord → DWord → DWord) (s : State) : State :=
  ops3 s len [] (pair 1 a) (pair 2 b) (pair 0 d) fun na nb nd =>
    finish s (s.th.wr2 nd (f (s.th.rd2 na) (s.th.rd2 nb))) [a, b, d] [] len (s.th.interval sw wv)

/-- An instruction for wave engines only (W) or swarm cores only (S) on the wrong engine (R291). -/
def onEngine (wave : Bool) (s : State) (len : Nat) (k : State) : State :=
  if s.th.isWave = wave then k else raise s (faultOf .wrongEngine len)

end Sys2Proof.Machine
end

