-- ==== Sys2Proof/Machine/Control.lean ====
section
/-! DEFINITION. Branches, calls, register jumps, yield, breakpoint and the instructions without effect (R278, R279, R312 to
R317). -/

namespace Sys2Proof.Machine
open Sys2Proof

/-- A branch of len parcels: taken, the PC is the branch's own PC plus the offset; otherwise it moves on (R281, R312). -/
def branch (len : Nat) (taken : Bool) (off : Word) (s : State) : State :=
  if taken then s.put (s.th.jump s.clk (s.th.pc + off) (s.th.interval 8 1))
  else finish s s.th [] [] len (s.th.interval 8 1)

/-- R312. Always taken. -/
def execB (o : BitVec 19) (s : State) : Out := .next (branch 2 true (o.signExtend 32) s)

/-- R312. Taken when pN is true. -/
def execBp (p : BitVec 4) (o : BitVec 19) (s : State) : Out := .next (branch 2 (s.th.rdP p.toNat) (o.signExtend 32) s)

/-- R312. Taken when pN is false; bnp p0 never branches. -/
def execBnp (p : BitVec 4) (o : BitVec 19) (s : State) : Out := .next (branch 2 (!s.th.rdP p.toNat) (o.signExtend 32) s)

/-- The 16-bit branches: b is operand position 1 (R278, R314). -/
def branch16 (o : BitVec 6) (b : BitVec 5) (want : Bool) (s : State) : State :=
  ops1 s 1 [1] (reg 1 (code16 b)) fun nb =>
    branch 1 ((s.src s.th 1 nb == 0) == want) (o.signExtend 32) (s.put (clearArms s.th [1]))

/-- R278. Taken when G(b) is zero. -/
def execBzS (o : BitVec 6) (b : BitVec 5) (s : State) : Out := .next (branch16 o b true s)

/-- R278. Taken when G(b) is not zero. -/
def execBnzS (o : BitVec 6) (b : BitVec 5) (s : State) : Out := .next (branch16 o b false s)

/-- R313. The link register takes PC + 2 and control goes to PC plus the offset. -/
def execCall (d : Code) (o : BitVec 19) (s : State) : Out := .next (
  ops1 s 2 [] (reg 0 d) fun nd =>
    let t := advances (s.th.wr nd (s.th.pc + 2)) (usedIdx s.th [d] [])
    s.put (t.jump s.clk (s.th.pc + o.signExtend 32) (s.th.interval 8 4)))

/-- R313. PC := G(A), a parcel index. -/
def execJmp (a : Code) (s : State) : Out := .next (
  ops1 s 2 [1] (reg 1 a) fun na =>
    s.put ((advances (clearArms s.th [1]) (usedIdx s.th [a] [])).jump s.clk (s.src s.th 1 na) (s.th.interval 8 1)))

/-- R313. The target is read before the link register takes PC + 2. -/
def execCallr (d a : Code) (s : State) : Out := .next (
  ops2 s 2 [1] (reg 1 a) (reg 0 d) fun na nd =>
    let t := advances ((clearArms s.th [1]).wr nd (s.th.pc + 2)) (usedIdx s.th [a, d] [])
    s.put (t.jump s.clk (s.src s.th 1 na) (s.th.interval 8 4)))

/-- R279, R313. PC := G(b), a parcel index. -/
def execRet (b : BitVec 5) (s : State) : Out := .next (
  ops1 s 1 [1] (reg 1 (code16 b)) fun nb =>
    s.put ((clearArms s.th [1]).jump s.clk (s.src s.th 1 nb) (s.th.interval 8 1)))

/-- R316. No register changes; on a swarm core the thread gives up its turns until the eighth, on a wave engine its place in
one dynamic wave. -/
def execYield (s : State) : Out := .next (
  finish s { s.th with yields := s.th.interval 8 1 } [] [] 1 (s.th.interval 8 1))

/-- R317. The breakpoint cause with code n; the thread parks at the brk. -/
def execBrk (n : BitVec 5) (s : State) : Out := .next (raise s { faultOf .breakpoint 1 with code := n.toNat })

/-- R279. No effect beyond its issue interval. -/
def execNop (s : State) : Out := .next (finish s s.th [] [] 1 (s.th.interval 8 1))

/-- R288. The two-parcel nop of major 28. -/
def execNopLong (s : State) : Out := .next (finish s s.th [] [] 2 (s.th.interval 8 1))

end Sys2Proof.Machine
end

