-- ==== Sys2Proof/Machine/Flags.lean ====
section
/-! DEFINITION. Exception flags, the compatibility word's fields, the end of a floating-point instruction, and the FLOAT event
(R245, R246, R249). The machine has no arithmetic flags beside these and the predicates. -/

namespace Sys2Proof.Machine
open Sys2Proof

/-- Detected exceptions: bit 0 invalid, 1 divide by zero, 2 overflow, 3 underflow, 4 inexact (R245). -/
abbrev Flags := BitVec 5

/-- Exception flags from their five bits. -/
def flagsOf (invalid dz overflow underflow inexact : Bool) : Flags :=
  (if invalid then 1 else 0) ||| (if dz then 2 else 0) ||| (if overflow then 4 else 0) |||
    (if underflow then 8 else 0) ||| (if inexact then 16 else 0)

/-- Bit k of a compatibility word. -/
def compatBit (c : BitVec 16) (k : Nat) : Bool := c.getLsbD k

/-- MODE (R323): rounding mode 0 RNE, 1 RZ, 2 RDN, 3 RUP of a rounding field. -/
def roundMode (c : BitVec 16) (r : BitVec 3) : Nat :=
  if r = 0 then bits c.toNat 12 11 else r.toNat - 1

/-- The FLOAT event of the issuing thread after its instruction has written its result (R246, R155): entered when cause 5 is
enabled outside a handler, else a floating-point fault at the next instruction. -/
def floatEvent (s : State) (fl : Flags) : State :=
  if fl &&& s.th.fxen = 0 then s
  else if s.th.enabled 5 ∧ !s.th.inH then
    (coreEvent s s.th.core 7 1).put (enterHandler s.th s.th.readyAt 5 (fl.setWidth 32) s.th.pc)
  else raise s { faultOf .float 0 with code := fl.toNat }

/-- The end of a floating-point instruction that detected fl. -/
def finishF (s : State) (t : Thread) (codes : List Code) (interval : Nat) (fl : Flags) : State :=
  floatEvent (finish s t codes [] 2 interval) fl

end Sys2Proof.Machine
end

