-- ==== Sys2Proof/Machine/Float.lean ====
section
/-! DEFINITION. Floating-point formats, rounding, and the operations on exact values (R238 to R258, R323). -/

namespace Sys2Proof.Machine
open Sys2Proof

/-- How a format treats its highest exponent (R238). -/
inductive FmtKind where
  /-- Infinities and NaNs. -/
  | ieee
  /-- One NaN of each sign, no infinity. -/
  | e4m3
  /-- Neither. -/
  | e2m1
  deriving DecidableEq, Repr

/-- A floating-point format: exponent and fraction widths. -/
structure Fmt where
  /-- Exponent bits. -/
  ebits : Nat
  /-- Fraction bits. -/
  fbits : Nat
  /-- Kind. -/
  kind : FmtKind
  deriving DecidableEq, Repr

/-- binary64. -/
def f64 : Fmt := ⟨11, 52, .ieee⟩
/-- binary32. -/
def f32 : Fmt := ⟨8, 23, .ieee⟩
/-- binary16. -/
def f16 : Fmt := ⟨5, 10, .ieee⟩
/-- bfloat16. -/
def bf16 : Fmt := ⟨8, 7, .ieee⟩
/-- FP8 E5M2. -/
def e5m2 : Fmt := ⟨5, 2, .ieee⟩
/-- FP8 E4M3. -/
def e4m3 : Fmt := ⟨4, 3, .e4m3⟩
/-- MX-FP4 E2M1. -/
def e2m1 : Fmt := ⟨2, 1, .e2m1⟩

/-- Width in bits. -/
def Fmt.width (f : Fmt) : Nat := 1 + f.ebits + f.fbits
/-- Exponent bias. -/
def Fmt.bias (f : Fmt) : Nat := 2 ^ (f.ebits - 1) - 1

/-- A number read from a format: a NaN with its sign, signalling mark and fraction at the top of 52 bits; an infinity; or
(-1)^s × m × 2^e (R239). -/
inductive FVal where
  | nan (s signalling : Bool) (frac : Nat)
  | inf (s : Bool)
  | fin (s : Bool) (m : Nat) (e : Int)
  deriving DecidableEq, Repr

/-- The value of a field pattern (R239, R240). -/
def unpack (f : Fmt) (v : Nat) : FVal :=
  let s := v.testBit (f.ebits + f.fbits)
  let e := v / 2 ^ f.fbits % 2 ^ f.ebits
  let m := v % 2 ^ f.fbits
  let top := 2 ^ f.ebits - 1
  if f.kind = .ieee ∧ e = top then
    if m = 0 then .inf s else .nan s (!m.testBit (f.fbits - 1)) (m * 2 ^ (52 - f.fbits))
  else if f.kind = .e4m3 ∧ e = top ∧ m = 7 then .nan s false (m * 2 ^ 49)
  else if e = 0 then .fin s m (1 - (f.bias : Int) - f.fbits)
  else .fin s (2 ^ f.fbits + m) ((e : Int) - f.bias - f.fbits)

/-- A subnormal pattern. -/
def subnormal (f : Fmt) (v : Nat) : Bool := v / 2 ^ f.fbits % 2 ^ f.ebits == 0 && v % 2 ^ f.fbits != 0

/-- The sign bit of a format set or clear. -/
def signBits (f : Fmt) (s : Bool) : Nat := if s then 2 ^ (f.ebits + f.fbits) else 0

/-- Infinity of a sign. -/
def infBits (f : Fmt) (s : Bool) : Nat := signBits f s + (2 ^ f.ebits - 1) * 2 ^ f.fbits

/-- Largest finite value of a sign, as bits. -/
def maxBits (f : Fmt) (s : Bool) : Nat :=
  signBits f s + (match f.kind with
    | .ieee => (2 ^ f.ebits - 1) * 2 ^ f.fbits - 1
    | .e4m3 => 0x7E
    | .e2m1 => 7)

/-- The canonical NaN (R240); E2M1 has none, and a NaN converted to it gives 0 (R243). -/
def canonNan (f : Fmt) : Nat :=
  match f.kind with
  | .ieee => (2 ^ f.ebits - 1) * 2 ^ f.fbits + 2 ^ (f.fbits - 1)
  | .e4m3 => 0x7F
  | .e2m1 => 0

/-- A NaN result (R244, R255): the first NaN operand made quiet and converted when bit 9 is set, else canonical. -/
def nanBits (f : Fmt) (keep : Bool) (ops : List FVal) : Nat :=
  let first := ops.find? (fun v => match v with | .nan _ _ _ => true | _ => false)
  match keep, first with
  | true, some (.nan s _ frac) =>
    (match f.kind with
      | .ieee => signBits f s + (2 ^ f.ebits - 1) * 2 ^ f.fbits + ((frac ||| 2 ^ 51) / 2 ^ (52 - f.fbits))
      | .e4m3 => if s then 0xFF else 0x7F
      | .e2m1 => 0)
  | _, _ => canonNan f

/-- m / 2^k rounded to an integer in a mode: sign s decides RDN and RUP (R242). Answers the integer and whether it is
inexact. -/
def roundShift (mode : Nat) (s : Bool) (m k : Nat) : Nat × Bool :=
  let q := m / 2 ^ k
  let r := m % 2 ^ k
  let up := match mode with
    | 0 => decide (2 ^ k < 2 * r) || (2 * r == 2 ^ k && q % 2 == 1)
    | 1 => false
    | 2 => s && r != 0
    | _ => !s && r != 0
  (if up then q + 1 else q, r != 0)

/-- m × 2^e rounded to a multiple of 2^q, in units of 2^q. -/
def roundAt (mode : Nat) (s : Bool) (m : Nat) (e q : Int) : Nat × Bool :=
  if q ≤ e then (m * 2 ^ (e - q).toNat, false) else roundShift mode s m (q - e).toNat

/-- m × 2^e < n × 2^d. -/
def dyLt (m : Nat) (e : Int) (n : Nat) (d : Int) : Bool :=
  let lo := min e d
  decide (m * 2 ^ (e - lo).toNat < n * 2 ^ (d - lo).toNat)

/-- What overflow handling a destination has: E4M3 conversions are saturating or not (R243). -/
def overflowBits (f : Fmt) (sat : Bool) (mode : Nat) (s : Bool) : Nat :=
  match f.kind with
  | .ieee =>
    match mode with
    | 0 => infBits f s
    | 1 => maxBits f s
    | 2 => if s then infBits f s else maxBits f s
    | _ => if s then maxBits f s else infBits f s
  | .e4m3 => if !sat && mode == 0 then canonNan f else maxBits f s
  | .e2m1 => maxBits f s

/-- A non-zero value m × 2^e of sign s rounded to a format (R242, R243); flush replaces a tiny result by zero (R251, R252).
Answers the bits and the flags overflow, underflow and inexact (R245). -/
def roundTo (f : Fmt) (sat flush : Bool) (mode : Nat) (s : Bool) (m : Nat) (e : Int) : Nat × Flags :=
  let q := e + m.size - 1 - f.fbits
  let u := roundAt mode s m e q
  let emin : Int := 1 - f.bias
  let qmax : Int := (2 ^ f.ebits - 1 : Int) - f.bias - f.fbits - (if f.kind = .ieee then 1 else 0)
  let nmax := match f.kind with | .ieee => 2 ^ (f.fbits + 1) - 1 | .e4m3 => 14 | .e2m1 => 3
  if dyLt nmax qmax u.1 q then (overflowBits f sat mode s, flagsOf false false true false true)
  else if dyLt u.1 q 1 emin then
    if flush then (signBits f s, flagsOf false false false true true)
    else
      let t := roundAt mode s m e (emin - f.fbits)
      (signBits f s + t.1, flagsOf false false false t.2 t.2)
  else
    -- u.1 may have reached the next power of two
    let carry := u.1 == 2 ^ (f.fbits + 1)
    let n := if carry then 2 ^ f.fbits else u.1
    let x := (q + f.fbits + f.bias + (if carry then 1 else 0)).toNat
    (signBits f s + x * 2 ^ f.fbits + (n - 2 ^ f.fbits), flagsOf false false false false u.2)

/-! Operands and results (R323). -/

/-- An operand read by IN: its value and whether it is a signalling NaN. -/
def inVal (c : BitVec 16) (f : Fmt) (v : Nat) : FVal :=
  let flush := (f == f32 && compatBit c 0) || (f == f16 && compatBit c 2)
  match unpack f v with
  | .fin s m e => if flush && subnormal f v then .fin s 0 0 else .fin s m e
  | x => x

/-- A signalling NaN. -/
def FVal.sig : FVal → Bool
  | .nan _ true _ => true
  | _ => false

/-- A NaN. -/
def FVal.isNan : FVal → Bool
  | .nan _ _ _ => true
  | _ => false

/-- Sign. -/
def FVal.sign : FVal → Bool
  | .nan s _ _ => s
  | .inf s => s
  | .fin s _ _ => s

/-- A zero. -/
def FVal.isZero : FVal → Bool
  | .fin _ m _ => m == 0
  | _ => false

/-- An infinity. -/
def FVal.isInf : FVal → Bool
  | .inf _ => true
  | _ => false

/-- The negated value; a NaN is unchanged, because a negation inside an operation does not act on NaN operands. -/
def FVal.neg : FVal → FVal
  | .nan s q f => .nan s q f
  | .inf s => .inf !s
  | .fin s m e => .fin (!s) m e

/-- An exact result: the NaN of an invalid operation or of a NaN operand, or a value; dz when an infinity comes of finite
operands exactly. -/
inductive Exact where
  | nan (invalid : Bool)
  | inf (s dz : Bool)
  | fin (s : Bool) (m : Nat) (e : Int)
  deriving DecidableEq, Repr

/-- The sum of two finite values with the zero sign of R243. -/
def sumFin (mode : Nat) (s1 : Bool) (m1 : Nat) (e1 : Int) (s2 : Bool) (m2 : Nat) (e2 : Int) : Exact :=
  let e := min e1 e2
  let x : Int := (if s1 then -1 else 1) * (m1 * 2 ^ (e1 - e).toNat : Nat)
  let y : Int := (if s2 then -1 else 1) * (m2 * 2 ^ (e2 - e).toNat : Nat)
  let z := x + y
  if z = 0 then .fin (if m1 = 0 ∧ m2 = 0 ∧ s1 = s2 then s1 else mode == 2) 0 0
  else .fin (decide (z < 0)) z.natAbs e

/-- a + b. -/
def addX (mode : Nat) (a b : FVal) : Exact :=
  match a, b with
  | .nan _ _ _, _ => .nan false
  | _, .nan _ _ _ => .nan false
  | .inf s, .inf t => if s = t then .inf s false else .nan true
  | .inf s, _ => .inf s false
  | _, .inf s => .inf s false
  | .fin s m e, .fin t n d => sumFin mode s m e t n d

/-- a × b; under legacy zero a zero factor gives +0, even with a NaN or infinite factor (R253). -/
def mulX (legacy : Bool) (a b : FVal) : Exact :=
  if legacy && (a.isZero || b.isZero) then .fin false 0 0
  else match a, b with
  | .nan _ _ _, _ => .nan false
  | _, .nan _ _ _ => .nan false
  | .inf s, .inf t => .inf (s != t) false
  | .inf s, .fin t n _ => if n = 0 then .nan true else .inf (s != t) false
  | .fin s m _, .inf t => if m = 0 then .nan true else .inf (s != t) false
  | .fin s m e, .fin t n d => .fin (s != t) (m * n) (e + d)

/-- An exact product taken as an operand of a sum. -/
def Exact.toVal : Exact → FVal
  | .nan _ => .nan false false 0
  | .inf s _ => .inf s
  | .fin s m e => .fin s m e

/-- The quotient of non-zero finite values to far beyond binary32 precision: an inexact quotient carries a further odd bit,
which rounds as the exact value does. -/
def quotFin (s : Bool) (m : Nat) (e : Int) (n : Nat) (d : Int) : Exact :=
  let q := m * 2 ^ 96 / n
  .fin s (2 * q + (if m * 2 ^ 96 % n = 0 then 0 else 1)) (e - d - 97)

/-- a / b. -/
def divX (a b : FVal) : Exact :=
  match a, b with
  | .nan _ _ _, _ => .nan false
  | _, .nan _ _ _ => .nan false
  | .inf _, .inf _ => .nan true
  | .inf s, .fin t _ _ => .inf (s != t) false
  | .fin s _ _, .inf t => .fin (s != t) 0 0
  | .fin s m e, .fin t n d =>
    if n = 0 then (if m = 0 then .nan true else .inf (s != t) true)
    else if m = 0 then .fin (s != t) 0 0
    else quotFin (s != t) m e n d

/-- The greatest r below 2^k with r² ≤ n, from the highest bit down. -/
def isqrtFrom (n : Nat) : Nat → Nat → Nat
  | 0, r => r
  | k + 1, r => isqrtFrom n k (if (r + 2 ^ k) * (r + 2 ^ k) ≤ n then r + 2 ^ k else r)

/-- Integer square root of a number below 2^256. -/
def isqrt (n : Nat) : Nat := isqrtFrom n 128 0

/-- Square root of a positive finite value. -/
def sqrtFin (m : Nat) (e : Int) : Exact :=
  let odd := e % 2
  let n := (if odd = 0 then m else 2 * m) * 2 ^ 120
  let r := isqrt n
  .fin false (2 * r + (if r * r = n then 0 else 1)) ((e - odd) / 2 - 61)

/-- √a. -/
def sqrtX : FVal → Exact
  | .nan _ _ _ => .nan false
  | .inf s => if s then .nan true else .inf false false
  | .fin s m e => if m = 0 then .fin s 0 0 else if s then .nan true else sqrtFin m e

/-- 1 ÷ √ of a positive finite value. -/
def rsqrtFin (m : Nat) (e : Int) : Exact :=
  let odd := e % 2
  let n := if odd = 0 then m else 2 * m
  let r := isqrt (2 ^ 200 / n)
  .fin false (2 * r + (if r * r * n = 2 ^ 200 then 0 else 1)) (-((e - odd) / 2) - 101)

/-- 1 ÷ √a (R247). -/
def rsqrtX : FVal → Exact
  | .nan _ _ _ => .nan false
  | .inf s => if s then .nan true else .fin false 0 0
  | .fin s m e => if m = 0 then .inf s true else if s then .nan true else rsqrtFin m e

/-! The transcendental functions (R247, R248), in fixed point with 640 fraction bits. Their values at arguments other than
those of R247's table are irrational, so a further odd bit stands for the rest. -/

/-- Fraction bits of the fixed-point values. [DEDUCED: log 88] -/
def fixW : Nat := 640

/-- π × 2^640, rounded down. -/
def piFix : Nat :=
  0x3243f6a8885a308d313198a2e03707344a4093822299f31d0082efa98ec4e6c89452821e638d01377be5466cf34e90c6cc0ac29b7c97c50dd3f84d5b5b54709179216d5d98979fb1bd1310ba698dfb5ac

/-- ln 2 × 2^640, rounded down. -/
def ln2Fix : Nat :=
  0xb17217f7d1cf79abc9e3b39803f2f6af40f343267298b62d8a0d175b8baafa2be7b876206debac98559552fb4afa1b10ed2eae35c138214427573b291169b8253e96ca16224ae8c51acbda11317c387e

/-- 2 ÷ π × 2^800, rounded down. -/
def twoOverPi : Nat :=
  0xa2f9836e4e441529fc2757d1f534ddc0db6295993c439041fe5163abdebbc561b7246e3a424dd2e006492eea09d1921cfe1deb1cb129a73ee88235f52ebb4484e99c7026b45f7e413991d639835339f49c845f8bbdf9283b1ff897ffde05980fef2f118b

/-- The sum of n terms of the exponential series from term k: t, t×x/k, … [DEDUCED: log 88] -/
def expSeries (x : Nat) : Nat → Nat → Nat → Nat
  | 0, _, _ => 0
  | n + 1, k, t => t + expSeries x n (k + 1) (t * x / 2 ^ fixW / k)

/-- An alternating series with ratio x² ÷ ((k)(k+1)): sine from k = 2 and t = x, cosine from k = 1 and t = 1. -/
def trigSeries (x2 : Nat) : Nat → Nat → Nat → Int
  | 0, _, _ => 0
  | n + 1, k, t => (t : Int) - trigSeries x2 n (k + 2) (t * x2 / 2 ^ fixW / (k * (k + 1)))

/-- sin of a fixed-point angle in [0, π/2). -/
def sinFix (x : Nat) : Nat := (trigSeries (x * x / 2 ^ fixW) 90 2 x).toNat

/-- cos of a fixed-point angle in [0, π/2). -/
def cosFix (x : Nat) : Nat := (trigSeries (x * x / 2 ^ fixW) 90 1 (2 ^ fixW)).toNat

/-- A fixed-point value as an inexact result. -/
def fixExact (s : Bool) (v : Nat) : Exact := .fin s (2 * v + 1) (-(fixW : Int) - 1)

/-- 2^a. -/
def exp2X : FVal → Exact
  | .nan _ _ _ => .nan false
  | .inf s => if s then .fin false 0 0 else .inf false false
  | .fin s m e =>
    if m = 0 then .fin false 1 0
    else if 0 ≤ e ∧ 9 ≤ (e + m.size : Int) then .fin false 1 (if s then -2000 else 2000)
    else if 0 ≤ e then .fin false 1 (if s then -(m * 2 ^ e.toNat : Nat) else (m * 2 ^ e.toNat : Nat))
    else if 9 ≤ (e + m.size : Int) then .fin false 3 (if s then -2000 else 2000)
    else
      -- a = n + x with n an integer and 0 ≤ x < 1
      let k := (-e).toNat
      let z : Int := if s then -(m : Int) else m
      let n := z / 2 ^ k
      let x := (z % 2 ^ k).toNat
      if x = 0 then .fin false 1 n
      else
        let y := x * ln2Fix / 2 ^ k
        .fin false (2 * expSeries y 140 1 (2 ^ fixW) + 1) (n - fixW - 1)

/-- The bits of log2 of y in [1, 2), by repeated squaring: n bits, first bit first. -/
def log2Bits (w : Nat) : Nat → Nat → Nat → Nat
  | 0, _, acc => acc
  | n + 1, y, acc =>
    let z := y * y / 2 ^ w
    if 2 ^ (w + 1) ≤ z then log2Bits w n (z / 2) (2 * acc + 1) else log2Bits w n z (2 * acc)

/-- log2 a. -/
def log2X : FVal → Exact
  | .nan _ _ _ => .nan false
  | .inf s => if s then .nan true else .inf false false
  | .fin s m e =>
    if m = 0 then .inf true true
    else if s then .nan true
    else
      let n := m.size - 1
      let x : Int := e + n
      if m = 2 ^ n then (if x = 0 then .fin false 0 0 else .fin (decide (x < 0)) x.natAbs 0)
      else
        -- 160 bits of the fraction, and a further odd bit
        let fr := 2 * log2Bits fixW 160 (m * 2 ^ (fixW - n)) 0 + 1
        let v : Int := x * 2 ^ 161 + fr
        .fin (decide (v < 0)) v.natAbs (-161)

/-- ± sin or cos of quadrant k and angle θ within it; exact at θ = 0. -/
def trigAt (k : Nat) (neg zero : Bool) (theta : Nat) (cosine : Bool) (zeroSign : Bool) : Exact :=
  let q := (k + (if cosine then 1 else 0)) % 4
  let s := decide (2 ≤ q)
  if zero then (if q % 2 = 0 then .fin zeroSign 0 0 else .fin (s != neg) 1 0)
  else fixExact (s != neg) (if q % 2 = 0 then sinFix theta else cosFix theta)

/-- sin(2πa) or cos(2πa) (R247). The argument's magnitude is reduced; the sine takes its sign. -/
def sinturnX (cosine : Bool) : FVal → Exact
  | .nan _ _ _ => .nan false
  | .inf _ => .nan true
  | .fin s m e =>
    let neg := s && !cosine
    -- 4|a| = m × 2^(e+2): quadrant and fraction
    if 0 ≤ e + 2 then
      trigAt (m * 2 ^ (e + 2).toNat % 4) neg true 0 cosine (if cosine then false else s)
    else
      let k := (-(e + 2)).toNat
      let r := m % 2 ^ k
      trigAt (m / 2 ^ k % 4) neg (r == 0) (r * (piFix / 2) / 2 ^ k) cosine (if cosine then false else s)

/-- sin(a) or cos(a) of radians (R248). -/
def sinradX (cosine : Bool) : FVal → Exact
  | .nan _ _ _ => .nan false
  | .inf _ => .nan true
  | .fin s m e =>
    if m = 0 then (if cosine then .fin false 1 0 else .fin s 0 0)
    else
      -- |a| × 2/π with 640 fraction bits
      let y := if 0 ≤ e then m * 2 ^ e.toNat * twoOverPi / 2 ^ 160 else m * twoOverPi / 2 ^ (160 + (-e).toNat)
      let r := y % 2 ^ fixW
      trigAt (y / 2 ^ fixW % 4) (s && !cosine) false (r * piFix / 2 ^ (fixW + 1)) cosine false

/-! Results. -/

/-- OUT (R323): the exact result e of operands ops rounded to f; sat for a saturating E4M3 conversion. -/
def outF (c : BitVec 16) (f : Fmt) (sat : Bool) (mode : Nat) (ops : List FVal) (e : Exact) : Nat × Flags :=
  let sig := ops.any FVal.sig
  match e with
  | .nan inv => (nanBits f (compatBit c 9) ops, flagsOf (inv || sig) false false false false)
  | .inf s dz => (infBits f s, flagsOf sig dz false false false)
  | .fin s m x =>
    if m = 0 then (signBits f s, flagsOf sig false false false false)
    else
      let flush := (f == f32 && compatBit c 1) || (f == f16 && compatBit c 2)
      let r := roundTo f sat flush mode s m x
      (r.1, r.2 ||| flagsOf sig false false false false)

/-- Legacy precision (R257): fraction bits [1:0] of a finite non-zero binary32 result cleared. -/
def legacyPrec (c : BitVec 16) (r : Nat × Flags) : Nat × Flags :=
  if compatBit c 7 && r.1 / 2 ^ 23 % 256 != 255 && r.1 % 2 ^ 31 != 0 then
    let v := r.1 / 4 * 4
    (v, r.2 ||| flagsOf false false false (v % 2 ^ 31 == 0) (v != r.1))
  else r

/-- a < b; false when either is NaN (R244, R331). -/
def FVal.lt (a b : FVal) : Bool :=
  if a.isNan || b.isNan then false else
  match a, b with
  | .inf s, .inf t => s && !t
  | .inf s, _ => s
  | _, .inf t => !t
  | .fin s m e, .fin t n d =>
    match s, t with
    | false, false => dyLt m e n d
    | true, true => dyLt n d m e
    | true, false => m != 0 || n != 0
    | false, true => false
  | _, _ => false

/-- a = b of two numbers that are not NaN; -0 equals +0. -/
def FVal.eq (a b : FVal) : Bool := !a.isNan && !b.isNan && !a.lt b && !b.lt a

/-- A value rounded to an integer in a mode (R329): magnitude and whether it is inexact. -/
def integral (mode : Nat) (s : Bool) (m : Nat) (e : Int) : Nat × Bool := roundAt mode s m e 0

/-- fadd at a home (R351): RNE, subnormals kept, canonical NaN, no exception. -/
def memFadd (old v : Word) : Word :=
  let a := unpack f32 old.toNat
  let b := unpack f32 v.toNat
  BitVec.ofNat 32 (outF 0 f32 false 0 [a, b] (addX 0 a b)).1

/-- FX of a binary64 (R351): RNE(f × 2^32) saturated to a signed 64-bit integer; NaN gives 0. -/
def fxOf (v : DWord) : DWord :=
  let sat (s : Bool) (n : Nat) : DWord :=
    if s then (if 2 ^ 63 ≤ n then BitVec.ofNat 64 (2 ^ 63) else -(BitVec.ofNat 64 n))
    else if 2 ^ 63 ≤ n then BitVec.ofNat 64 (2 ^ 63 - 1) else BitVec.ofNat 64 n
  match unpack f64 v.toNat with
  | .nan _ _ _ => 0
  | .inf s => sat s (2 ^ 63)
  | .fin s m e => if 64 < (e + m.size : Int) then sat s (2 ^ 63) else sat s (roundAt 0 s m (e + 32) 0).1

end Sys2Proof.Machine
end

