-- ==== Sys2Proof/Machine/FloatOps.lean ====
section
/-! DEFINITION. Floating-point and conversion instructions (R322 to R338). -/

namespace Sys2Proof.Machine
open Sys2Proof

/-- A computed result: its bits and the exceptions detected. -/
abbrev FRes := Nat × Flags

/-- The compatibility word of the issuing thread. -/
def State.compat (s : State) : BitVec 16 := s.th.compat

/-- D := f A B on single registers, with exceptions. -/
def fbin (sw wv : Nat) (d a b : Code) (f : Word → Word → FRes) (s : State) : State :=
  ops3 s 2 [1, 2] (reg 1 a) (reg 2 b) (reg 0 d) fun na nb nd =>
    let r := f (s.src s.th 1 na) (s.src s.th 2 nb)
    finishF s ((clearArms s.th [1, 2]).wr nd (BitVec.ofNat 32 r.1)) [a, b, d] (s.th.interval sw wv) r.2

/-- D := f A on single registers, with exceptions. -/
def fun1 (sw wv : Nat) (d a : Code) (f : Word → FRes) (s : State) : State :=
  ops2 s 2 [1] (reg 1 a) (reg 0 d) fun na nd =>
    let r := f (s.src s.th 1 na)
    finishF s ((clearArms s.th [1]).wr nd (BitVec.ofNat 32 r.1)) [a, d] (s.th.interval sw wv) r.2

/-- The code of the addend: bits [6:0] of x0 (R174, R325). -/
def addendCode (t : Thread) : Code := (t.rdX 0).setWidth 7

/-- D := f A B C on single registers with the addend named by x0 in position 3 (R325). -/
def ftri (d a b : Code) (f : Word → Word → Word → FRes) (s : State) : State :=
  let c := addendCode s.th
  ops4 s 2 [1, 2, 3] (reg 1 a) (reg 2 b) (reg 3 c) (reg 0 d) fun na nb nc nd =>
    let r := f (s.src s.th 1 na) (s.src s.th 2 nb) (s.src s.th 3 nc)
    finishF s ((clearArms s.th [1, 2, 3]).wr nd (BitVec.ofNat 32 r.1)) [a, b, c, d] (s.th.interval 8 4) r.2

/-! binary32 arithmetic (R326, R327). -/

/-- fadd, and fsub by negating b. -/
def faddR (c : BitVec 16) (mode : Nat) (sub : Bool) (x y : Word) : FRes :=
  let a := inVal c f32 x.toNat
  let b := inVal c f32 y.toNat
  outF c f32 false mode [a, b] (addX mode a (if sub then b.neg else b))

/-- fmul with legacy zero. -/
def fmulR (c : BitVec 16) (mode : Nat) (x y : Word) : FRes :=
  let a := inVal c f32 x.toNat
  let b := inVal c f32 y.toNat
  outF c f32 false mode [a, b] (mulX (compatBit c 3) a b)

/-- fdiv. -/
def fdivR (c : BitVec 16) (mode : Nat) (x y : Word) : FRes :=
  let a := inVal c f32 x.toNat
  let b := inVal c f32 y.toNat
  outF c f32 false mode [a, b] (divX a b)

/-- p + c, or c - p, of an exact product: an invalid product stays invalid. -/
def sumProduct (mode : Nat) (neg : Bool) (p : Exact) (c : FVal) : Exact :=
  match p with
  | .nan inv => .nan inv
  | p => addX mode (if neg then p.toVal.neg else p.toVal) c

/-- fma and fnma, with legacy zero (R253) and the unfused form (R254). -/
def fmaR (c : BitVec 16) (mode : Nat) (neg : Bool) (x y z : Word) : FRes :=
  let a := inVal c f32 x.toNat
  let b := inVal c f32 y.toNat
  let d := inVal c f32 z.toNat
  let p := mulX (compatBit c 3) a b
  if compatBit c 4 then
    let q := outF c f32 false mode [a, b] p
    let p' : Exact := match p with
      | .nan inv => .nan inv
      | _ => match unpack f32 q.1 with
        | .nan _ _ _ => .nan false
        | .inf s => .inf s false
        | .fin s m e => .fin s m e
    let r := outF c f32 false mode [a, b, d] (sumProduct mode neg p' d)
    (r.1, r.2 ||| q.2)
  else outF c f32 false mode [a, b, d] (sumProduct mode neg p d)

/-! Unary operations (R328 to R330). -/

/-- f(a) rounded, for the correctly rounded functions. -/
def funcR (c : BitVec 16) (mode : Nat) (f : FVal → Exact) (x : Word) : FRes :=
  let a := inVal c f32 x.toNat
  outF c f32 false mode [a] (f a)

/-- f(a) with legacy precision (R257). -/
def funcLegacy (c : BitVec 16) (mode : Nat) (f : FVal → Exact) (x : Word) : FRes := legacyPrec c (funcR c mode f x)

/-- fsin.r and fcos.r (R248). -/
def radR (c : BitVec 16) (mode : Nat) (cosine : Bool) (x : Word) : FRes :=
  if compatBit c 10 then
    let a := inVal c f32 x.toNat
    let k := unpack f32 0x3E22F983
    let t := outF 0 f32 false 0 [a, k] (mulX false a k)
    let y : FVal := match a with
      | .nan _ _ _ => a
      | _ => unpack f32 t.1
    legacyPrec c (outF c f32 false mode [a] (sinturnX cosine y))
  else funcLegacy c mode (sinradX cosine) x

/-- The integral value in a mode; inexact when wanted (R329). -/
def integralR (c : BitVec 16) (mode : Nat) (flag : Bool) (x : Word) : FRes :=
  let a := inVal c f32 x.toNat
  match a with
  | .fin s m e =>
    let n := integral mode s m e
    let r := outF 0 f32 false 0 [a] (.fin s n.1 0)
    (r.1, flagsOf false false false false (flag && n.2))
  | .inf s => (infBits f32 s, 0)
  | a => outF c f32 false mode [a] (.nan false)

/-- a - floor(a) (R329). -/
def fracR (c : BitVec 16) (mode : Nat) (x : Word) : FRes :=
  let a := inVal c f32 x.toNat
  match a with
  | .fin s m e => outF c f32 false mode [a] (sumFin mode s m e (!s) (integral 2 s m e).1 0)
  | .inf _ => outF c f32 false mode [a] (.nan true)
  | a => outF c f32 false mode [a] (.nan false)

/-! Compare, class, minimum and maximum (R331 to R333). -/

/-- The predicate and the flags of fcmp. -/
def fcmpR (cc : BitVec 3) (a b : FVal) : Bool × Flags :=
  let nan := a.isNan || b.isNan
  let sig := a.sig || b.sig
  let v := match cc.toNat with
    | 0 => a.eq b
    | 1 => !a.eq b
    | 2 => a.lt b
    | 3 => !nan && !a.lt b
    | 4 => a.lt b || a.eq b
    | 5 => b.lt a
    | 6 => nan
    | _ => !nan
  let inv := if 2 ≤ cc.toNat ∧ cc.toNat ≤ 5 then nan else sig
  (v, flagsOf inv false false false false)

/-- fclass: one bit for the class. -/
def classOf (f : Fmt) : FVal → Word
  | .nan _ sig _ => if sig then 256 else 512
  | .inf s => if s then 1 else 128
  | .fin s m _ =>
    if m = 0 then (if s then 8 else 16)
    else if m < 2 ^ f.fbits then (if s then 4 else 32)
    else if s then 2 else 64

/-- The bits of a binary32 operand as IN returns it. -/
def inBits (c : BitVec 16) (x : Word) : Nat :=
  if compatBit c 0 && subnormal f32 x.toNat then signBits f32 (x.toNat.testBit 31) else x.toNat

/-- fmin, and fmax by exchanging the order (R256). -/
def fminR (c : BitVec 16) (max : Bool) (x y : Word) : FRes :=
  let a := inVal c f32 x.toNat
  let b := inVal c f32 y.toNat
  let before (p q : FVal) : Bool := if max then q.lt p else p.lt q
  let inv := flagsOf (a.sig || b.sig) false false false false
  let nan : FRes := (nanBits f32 (compatBit c 9) [a, b], inv)
  let mode := bits c.toNat 6 5
  -- the lesser with -0 < +0
  let lesser : FRes := if a.isZero && b.isZero then (if a.sign != max then inBits c x else inBits c y, inv)
    else (if before a b then inBits c x else inBits c y, inv)
  if mode = 2 then (if !a.isNan && !b.isNan && before a b then (inBits c x, inv)
    else if b.isNan then nan else (inBits c y, inv))
  else if mode = 1 then
    (if a.sig || b.sig || (a.isNan && b.isNan) then nan
    else if a.isNan then (inBits c y, inv)
    else if b.isNan then (inBits c x, inv)
    else lesser)
  else if a.isNan || b.isNan then nan else lesser

/-! Packed halves and binary64 (R334, R335). -/

/-- A packed instruction from its element operation. -/
def packed (f : Nat → Nat → Nat → FRes) (x y z : Word) : FRes :=
  let lo := f (x.toNat % 65536) (y.toNat % 65536) (z.toNat % 65536)
  let hi := f (x.toNat / 65536) (y.toNat / 65536) (z.toNat / 65536)
  (lo.1 + 65536 * hi.1, lo.2 ||| hi.2)

/-- Element sum. -/
def addE (c : BitVec 16) (f : Fmt) (x y : Nat) : FRes :=
  let a := inVal c f x
  let b := inVal c f y
  let m := roundMode c 0
  outF c f false m [a, b] (addX m a b)

/-- Element product. -/
def mulE (c : BitVec 16) (f : Fmt) (x y : Nat) : FRes :=
  let a := inVal c f x
  let b := inVal c f y
  outF c f false (roundMode c 0) [a, b] (mulX false a b)

/-- Element fused product-sum. -/
def fmaE (c : BitVec 16) (f : Fmt) (x y z : Nat) : FRes :=
  let a := inVal c f x
  let b := inVal c f y
  let d := inVal c f z
  let m := roundMode c 0
  outF c f false m [a, b, d] (sumProduct m false (mulX false a b) d)

/-- A binary64 instruction; a wave thread waits for its engine's binary64 unit and then holds it for 16 clk, together with
the other lanes of its dynamic wave (R146, R322). -/
def f64Unit (s : State) (k : State → State) : State :=
  if s.th.isWave then
    let c := s.core s.th.core
    if s.clk < c.f64Free ∧ c.f64Free ≠ s.clk + 16 then s.put (s.th.again c.f64Free)
    else k (s.updCore s.th.core (fun c => { c with f64Free := s.clk + 16 }))
  else k s

/-- P(D) := f P(A) P(B). -/
def fbin64 (d a b : Code) (f : DWord → DWord → FRes) (s : State) : State :=
  ops3 s 2 [] (pair 1 a) (pair 2 b) (pair 0 d) fun na nb nd =>
    f64Unit s fun s =>
      let r := f (s.th.rd2 na) (s.th.rd2 nb)
      finishF s (s.th.wr2 nd (BitVec.ofNat 64 r.1)) [a, b, d] (s.th.interval 16 20) r.2

/-! Conversions (R336, R337). -/

/-- The float format of a type code 4 to 10 (R287). -/
def fmtOf : Nat → Fmt
  | 4 => f32 | 5 => f16 | 6 => bf16 | 7 => f64 | 8 => e4m3 | 9 => e5m2 | _ => e2m1

/-- Width of a type in bits. -/
def typeWidth (t : Nat) : Nat := if t ≤ 1 then 32 else if t ≤ 3 then 64 else (fmtOf t).width

/-- Least and greatest value of an integer type. -/
def intRange (t : Nat) : Int × Int :=
  match t with
  | 0 => (-(2 ^ 31), 2 ^ 31 - 1)
  | 1 => (0, 2 ^ 32 - 1)
  | 2 => (-(2 ^ 63), 2 ^ 63 - 1)
  | _ => (0, 2 ^ 64 - 1)

/-- The value of an integer operand. -/
def intVal (t v : Nat) : Int :=
  match t with
  | 0 => (BitVec.ofNat 32 v).toInt
  | 2 => (BitVec.ofNat 64 v).toInt
  | _ => v

/-- An integer as bits of an integer type. -/
def intBits (t : Nat) (v : Int) : Nat := (v % 2 ^ typeWidth t).toNat

/-- The result of an invalid conversion to an integer (R258): NaN, above or below the range. -/
def badInt (c : BitVec 16) (t : Nat) (nan below : Bool) : Nat :=
  if compatBit c 8 then
    (if nan then 0 else if below then intBits t (intRange t).1 else intBits t (intRange t).2)
  else 2 ^ (typeWidth t - 1)

/-- A conversion of the operand bits v from type src to type dst (R337). -/
def cvtR (c : BitVec 16) (src dst mode v : Nat) (sat : Bool) : FRes :=
  if src ≤ 3 ∧ dst ≤ 3 then (intBits dst (max (intRange dst).1 (min (intVal src v) (intRange dst).2)), 0)
  else
    let x : FVal := if src ≤ 3 then .fin (decide (intVal src v < 0)) (intVal src v).natAbs 0
      else inVal c (fmtOf src) (v % 2 ^ typeWidth src)
    if dst ≤ 3 then
      let bad := flagsOf true false false false false
      match x with
      | .nan _ _ _ => (badInt c dst true false, bad)
      | .inf s => (badInt c dst false s, bad)
      | .fin s m e =>
        if 80 < (e + m.size : Int) then (badInt c dst false s, bad)
        else
          let n := integral mode s m e
          let y : Int := if s then -(n.1 : Int) else n.1
          if y < (intRange dst).1 ∨ (intRange dst).2 < y then (badInt c dst false s, bad)
          else (intBits dst y, flagsOf false false false false n.2)
    else
      let f := fmtOf dst
      match x with
      | .nan _ _ _ =>
        let r := outF c f sat mode [x] (.nan false)
        (r.1, r.2 ||| flagsOf (dst == 10) false false false false)
      | .inf s =>
        if dst = 10 ∨ (dst = 8 ∧ sat) then (maxBits f s, 0)
        else if dst = 8 then (canonNan f, flagsOf true false false false false)
        else (infBits f s, 0)
      | .fin s m e => outF c f sat mode [x] (.fin s m e)

/-- cvt to type dst: a 64-bit type is a pair, a narrow one the low bits of a register (R322). -/
def cvt (dst : Nat) (sat : Bool) (d a : Code) (src : BitVec 4) (r : BitVec 3) (s : State) : State :=
  let wide := isWide src.toNat
  let mode := roundMode s.compat r
  let od := if isWide dst then pair 0 d else reg 0 d
  let put (t : Thread) (nd : Nat) (v : Nat) : Thread :=
    if isWide dst then t.wr2 nd (BitVec.ofNat 64 v) else t.wr nd (BitVec.ofNat 32 v)
  if wide then
    ops2 s 2 [] (pair 1 a) od fun na nd =>
      let x := cvtR s.compat src.toNat dst mode (s.th.rd2 na).toNat sat
      finishF s (put s.th nd x.1) [a, d] (s.th.interval 8 4) x.2
  else
    ops2 s 2 [1] (reg 1 a) od fun na nd =>
      let x := cvtR s.compat src.toNat dst mode (s.src s.th 1 na).toNat sat
      finishF s (put (clearArms s.th [1]) nd x.1) [a, d] (s.th.interval 8 4) x.2

/-- R326. a + b. -/
def execFadd (d a b : Code) (r : BitVec 3) (s : State) : Out := .next (fbin 8 4 d a b (faddR s.compat (roundMode s.compat r) false) s)

/-- R326. a - b. -/
def execFsub (d a b : Code) (r : BitVec 3) (s : State) : Out := .next (fbin 8 4 d a b (faddR s.compat (roundMode s.compat r) true) s)

/-- R326. a × b. -/
def execFmul (d a b : Code) (r : BitVec 3) (s : State) : Out := .next (fbin 8 4 d a b (fmulR s.compat (roundMode s.compat r)) s)

/-- R326. a ÷ b. -/
def execFdiv (d a b : Code) (r : BitVec 3) (s : State) : Out := .next (fbin 24 16 d a b (fdivR s.compat (roundMode s.compat r)) s)

/-- R327. a × b + c. -/
def execFma (d a b : Code) (r : BitVec 3) (s : State) : Out := .next (ftri d a b (fmaR s.compat (roundMode s.compat r) false) s)

/-- R327. c - a × b. -/
def execFnma (d a b : Code) (r : BitVec 3) (s : State) : Out := .next (ftri d a b (fmaR s.compat (roundMode s.compat r) true) s)

/-- R334. Element sums of two binary16 pairs. -/
def execHadd2 (d a b : Code) (s : State) : Out := .next (fbin 8 4 d a b (fun x y => packed (fun p q _ => addE s.compat f16 p q) x y 0) s)

/-- R334. Element products of two binary16 pairs. -/
def execHmul2 (d a b : Code) (s : State) : Out := .next (fbin 8 4 d a b (fun x y => packed (fun p q _ => mulE s.compat f16 p q) x y 0) s)

/-- R334. Element sums of two bfloat16 pairs. -/
def execBadd2 (d a b : Code) (s : State) : Out := .next (fbin 8 4 d a b (fun x y => packed (fun p q _ => addE s.compat bf16 p q) x y 0) s)

/-- R334. Element products of two bfloat16 pairs. -/
def execBmul2 (d a b : Code) (s : State) : Out := .next (fbin 8 4 d a b (fun x y => packed (fun p q _ => mulE s.compat bf16 p q) x y 0) s)

/-- R334. Element products with the addend that x0 names. -/
def execHfma2 (d a b : Code) (s : State) : Out := .next (ftri d a b (packed (fmaE s.compat f16)) s)

/-- R334. Element products with the addend that x0 names. -/
def execBfma2 (d a b : Code) (s : State) : Out := .next (ftri d a b (packed (fmaE s.compat bf16)) s)

/-- R335. binary64 sum. -/
def execDadd (d a b : Code) (s : State) : Out := .next (fbin64 d a b (fun x y => addE s.compat f64 x.toNat y.toNat) s)

/-- R335. binary64 product. -/
def execDmul (d a b : Code) (s : State) : Out := .next (fbin64 d a b (fun x y => mulE s.compat f64 x.toNat y.toNat) s)

/-- R335, R325. binary64 fused product-sum; the addend pair is named by x0. -/
def execDfma (d a b : Code) (s : State) : Out := .next (
  let c := addendCode s.th
  ops4 s 2 [] (pair 1 a) (pair 2 b) (pair 3 c) (pair 0 d) fun na nb nc nd =>
    f64Unit s fun s =>
      let r := fmaE s.compat f64 (s.th.rd2 na).toNat (s.th.rd2 nb).toNat (s.th.rd2 nc).toNat
      finishF s (s.th.wr2 nd (BitVec.ofNat 64 r.1)) [a, b, c, d] (s.th.interval 16 20) r.2)

/-- R336, R337. Conversion to type code 0. -/
def execCvtS32 (d a : Code) (t : BitVec 4) (r : BitVec 3) (s : State) : Out := .next (cvt 0 false d a t r s)

/-- R336, R337. Conversion to type code 1. -/
def execCvtN32 (d a : Code) (t : BitVec 4) (r : BitVec 3) (s : State) : Out := .next (cvt 1 false d a t r s)

/-- R336, R337. Conversion to type code 2. -/
def execCvtS64 (d a : Code) (t : BitVec 4) (r : BitVec 3) (s : State) : Out := .next (cvt 2 false d a t r s)

/-- R336, R337. Conversion to type code 3. -/
def execCvtN64 (d a : Code) (t : BitVec 4) (r : BitVec 3) (s : State) : Out := .next (cvt 3 false d a t r s)

/-- R336, R337. Conversion to type code 4. -/
def execCvtF32 (d a : Code) (t : BitVec 4) (r : BitVec 3) (s : State) : Out := .next (cvt 4 false d a t r s)

/-- R336, R337. Conversion to type code 5. -/
def execCvtF16 (d a : Code) (t : BitVec 4) (r : BitVec 3) (s : State) : Out := .next (cvt 5 false d a t r s)

/-- R336, R337. Conversion to type code 6. -/
def execCvtBf16 (d a : Code) (t : BitVec 4) (r : BitVec 3) (s : State) : Out := .next (cvt 6 false d a t r s)

/-- R336, R337. Conversion to type code 7. -/
def execCvtF64 (d a : Code) (t : BitVec 4) (r : BitVec 3) (s : State) : Out := .next (cvt 7 false d a t r s)

/-- R336, R337. Conversion to type code 8. -/
def execCvtE4m3 (d a : Code) (t : BitVec 4) (r : BitVec 3) (s : State) : Out := .next (cvt 8 false d a t r s)

/-- R336, R337. Conversion to type code 9. -/
def execCvtE5m2 (d a : Code) (t : BitVec 4) (r : BitVec 3) (s : State) : Out := .next (cvt 9 false d a t r s)

/-- R336, R337. Conversion to type code 10. -/
def execCvtE2m1 (d a : Code) (t : BitVec 4) (r : BitVec 3) (s : State) : Out := .next (cvt 10 false d a t r s)

/-- R336, R337. Saturating conversion to E4M3. -/
def execCvtE4m3Sat (d a : Code) (t : BitVec 4) (r : BitVec 3) (s : State) : Out := .next (cvt 8 true d a t r s)

/-- R331. Compare of binary32. -/
def execFcmpF32 (c : BitVec 3) (p : BitVec 4) (a b : Code) (s : State) : Out := .next (
  ops2 s 2 [1, 2] (reg 1 a) (reg 2 b) fun na nb =>
    let r := fcmpR c (inVal s.compat f32 (s.src s.th 1 na).toNat) (inVal s.compat f32 (s.src s.th 2 nb).toNat)
    finishF s ((clearArms s.th [1, 2]).wrP p.toNat r.1) [a, b] (s.th.interval 8 4) r.2)

/-- R331. Compare of binary64. -/
def execFcmpF64 (c : BitVec 3) (p : BitVec 4) (a b : Code) (s : State) : Out := .next (
  ops2 s 2 [] (pair 1 a) (pair 2 b) fun na nb =>
    let r := fcmpR c (unpack f64 (s.th.rd2 na).toNat) (unpack f64 (s.th.rd2 nb).toNat)
    finishF s (s.th.wrP p.toNat r.1) [a, b] (s.th.interval 8 4) r.2)

/-- R332. Class of a binary32. -/
def execFclass (d a : Code) (s : State) : Out := .next (alu2 2 8 4 d a (fun x => classOf f32 (inVal s.compat f32 x.toNat)) s)

/-- R332. Class of a binary64. -/
def execFclassF64 (d a : Code) (s : State) : Out := .next (
  ops2 s 2 [] (pair 1 a) (reg 0 d) fun na nd =>
    finish s (s.th.wr nd (classOf f64 (unpack f64 (s.th.rd2 na).toNat))) [a, d] [] 2 (s.th.interval 8 4))

/-- R333. The lesser, as COMPAT[6:5] chooses. -/
def execFmin (d a b : Code) (s : State) : Out := .next (fbin 8 4 d a b (fminR s.compat false) s)

/-- R333. The greater, as COMPAT[6:5] chooses. -/
def execFmax (d a b : Code) (s : State) : Out := .next (fbin 8 4 d a b (fminR s.compat true) s)

/-- R328, R247, R248. Square root. -/
def execFsqrt (d a : Code) (r : BitVec 3) (s : State) : Out := .next (fun1 24 16 d a (funcR s.compat (roundMode s.compat r) sqrtX) s)

/-- R328, R247, R248. 1 ÷ a. -/
def execFrcp (d a : Code) (r : BitVec 3) (s : State) : Out := .next (fun1 24 16 d a (funcLegacy s.compat (roundMode s.compat r) (divX (.fin false 1 0))) s)

/-- R328, R247, R248. 1 ÷ √a. -/
def execFrsq (d a : Code) (r : BitVec 3) (s : State) : Out := .next (fun1 24 16 d a (funcLegacy s.compat (roundMode s.compat r) rsqrtX) s)

/-- R328, R247, R248. 2^a. -/
def execFexp2 (d a : Code) (r : BitVec 3) (s : State) : Out := .next (fun1 24 16 d a (funcLegacy s.compat (roundMode s.compat r) exp2X) s)

/-- R328, R247, R248. log2 a. -/
def execFlog2 (d a : Code) (r : BitVec 3) (s : State) : Out := .next (fun1 24 16 d a (funcLegacy s.compat (roundMode s.compat r) log2X) s)

/-- R328, R247, R248. sin(2πa). -/
def execFsin (d a : Code) (r : BitVec 3) (s : State) : Out := .next (fun1 24 16 d a (funcLegacy s.compat (roundMode s.compat r) (sinturnX false)) s)

/-- R328, R247, R248. cos(2πa). -/
def execFcos (d a : Code) (r : BitVec 3) (s : State) : Out := .next (fun1 24 16 d a (funcLegacy s.compat (roundMode s.compat r) (sinturnX true)) s)

/-- R328, R247, R248. sin of radians. -/
def execFsinR (d a : Code) (r : BitVec 3) (s : State) : Out := .next (fun1 24 16 d a (radR s.compat (roundMode s.compat r) false) s)

/-- R328, R247, R248. cos of radians. -/
def execFcosR (d a : Code) (r : BitVec 3) (s : State) : Out := .next (fun1 24 16 d a (radR s.compat (roundMode s.compat r) true) s)

/-- R329. Towards −∞. -/
def execFfloor (d a : Code) (s : State) : Out := .next (fun1 8 4 d a (integralR s.compat 2 false) s)

/-- R329. Towards +∞. -/
def execFceil (d a : Code) (s : State) : Out := .next (fun1 8 4 d a (integralR s.compat 3 false) s)

/-- R329. Towards zero. -/
def execFtrunc (d a : Code) (s : State) : Out := .next (fun1 8 4 d a (integralR s.compat 1 false) s)

/-- R329. The integral value in the rounding mode. -/
def execFrint (d a : Code) (r : BitVec 3) (s : State) : Out := .next (fun1 8 4 d a (integralR s.compat (roundMode s.compat r) true) s)

/-- R329. a - floor(a). -/
def execFfrac (d a : Code) (r : BitVec 3) (s : State) : Out := .next (fun1 8 4 d a (fracR s.compat (roundMode s.compat r)) s)

/-- R330. Bit 31 cleared. -/
def execFabs (d a : Code) (s : State) : Out := .next (alu2 2 8 4 d a (fun x => x &&& 0x7FFFFFFF) s)

/-- R330. Bit 31 inverted. -/
def execFneg (d a : Code) (s : State) : Out := .next (alu2 2 8 4 d a (fun x => x ^^^ 0x80000000) s)

end Sys2Proof.Machine
end

