-- ==== Sys2Proof/Machine/Blocks.lean ====
section
/-! DEFINITION. The control blocks in die control space: what each word reads as, and the events that a write of it starts
(R80, R115, R199, R210, R418), the IO dies' tables (R53), and the saved image of a thread (R420). -/

namespace Sys2Proof.Machine
open Sys2Proof

/-- First byte of die control space within a compute die (R9). -/
def ctlBase : Nat := 0x200000000000

/-- Outstanding rx accesses and reductions of a thread (R144, R340). -/
def State.rxOut (s : State) (uid : Nat) : Nat :=
  (s.flights.filter (fun f => f.owner == uid && !f.blocks && !f.spawned && f.op != .prefetch)).length

/-- Spawned stores and update contexts of a thread that have not been performed (R165, R340, R367). -/
def State.spawnOut (s : State) (uid : Nat) : Nat :=
  (s.flights.filter (fun f => f.owner == uid && f.spawned)).length +
    (s.selThreads (fun t => t.spawner == some uid)).length

/-- Kind and address or deadline of a wait (R420). -/
def waitWord (s : State) : Run → Nat × Nat
  | .waiting (.fe id) => (1, ((s.flights.find? (fun f => f.id == id)).map (·.pa)).getD 0)
  | .waiting (.msgReg r _) => (2, r)
  | .waiting .mailbox => (3, 0)
  | .waiting (.weir a _) => (4, a)
  | .waiting (.barObj a _ _) => (5, a)
  | .waiting (.rill p) => (6, p)
  | .waiting (.sleep d) => (7, d)
  | _ => (0, 0)

/-- Access kind of a replay entry: as byte 31 of R416. -/
def AccOp.kind : AccOp → Nat
  | .load _ _ | .ldm _ | .prefetch => 1
  | .store _ _ | .stm _ => 2
  | _ => 3

/-- Bytes of an access. -/
def AccOp.size : AccOp → Nat
  | .load n _ | .store n _ => n
  | .fe _ _ => 4
  | .rmw _ w _ _ _ => if w then 8 else 4
  | .rmwPair _ _ _ _ _ => 8
  | .ldm l => 4 * l.length
  | .stm l => 4 * l.length
  | .prefetch => 0

/-- A replay entry of 32 bytes: kind, size, address, and 16 bytes of data or the kept reply (R420). -/
def replayBytes (f : Flight) : List Byte :=
  let data : Nat := match f.phase, f.op with
    | .done r, _ => r.foldr (fun w n => w.toNat + 2 ^ 32 * n) 0
    | _, .store _ d => d.toNat
    | _, .fe _ v => v.toNat
    | _, .rmw _ _ v n _ => v.toNat + 2 ^ 64 * n.toNat
    | _, .rmwPair _ _ v n _ => v.toNat + 2 ^ 64 * n.toNat
    | _, _ => 0
  leBytes 4 f.op.kind ++ leBytes 4 f.op.size ++ leBytes 8 f.pa ++ leBytes 16 data

/-- The 768-byte context of a thread (R420). [DEDUCED: log 35] -/
def contextImage (s : State) (t : Thread) : List Byte :=
  let w := waitWord s t.run
  let faulted := match t.run with | .faulted _ => 1 | _ => 0
  ((List.range 128).flatMap (fun k => leBytes 4 (if k < t.count then (t.g[k]?.getD 0).toNat else 0))) ++
    leBytes 4 t.predWord.toNat ++ leBytes 4 t.pc.toNat ++ leBytes 4 t.placeWord.toNat ++
    leBytes 4 ((if t.inH then 1 else 0) + 2 * faulted + (if t.entered then 4 else 0) + 8 * (t.pend.toNat / 2) +
      2 ^ 8 * (s.rxOut t.uid % 8) + 2 ^ 11 * (s.spawnOut t.uid % 8)) ++
    ((List.range 8).flatMap (fun k => leBytes 4 (t.rdI k).toNat)) ++
    ((List.range 4).flatMap (fun k => leBytes 4 (t.rdX k).toNat)) ++
    ((List.range 4).flatMap (fun k => leBytes 4 (t.h[k]?.getD 0).toNat)) ++
    leBytes 4 t.lhpc.toNat ++ leBytes 4 t.lhen.toNat ++ leBytes 4 t.lhret.toNat ++ leBytes 4 t.lhcause.toNat ++
    leBytes 4 t.lhdat.toNat ++
    leBytes 4 (t.count + 2 ^ 8 * t.version.toNat + 2 ^ 16 * t.compat.toNat) ++
    leBytes 16 (w.1 + 2 ^ 8 * w.2) ++
    ((t.replay.take 4).flatMap replayBytes ++ List.replicate 128 0).take 128 ++ leBytes 8 0

/-- The thread at TSEL of a die that CTX shows: parked on a fault there, or of a saved gang (R418). -/
def State.ctxThread (s : State) (die : Nat) : Option Thread :=
  s.findThread (fun t => t.live && t.die == die && t.placeWord == (s.die die).tsel &&
    (t.hold == .saved || (match t.run with | .faulted _ => true | _ => false)))

/-- WAITERS, CAUSE, VPAGE and STATE of a fault table entry as its two 64-bit words (R210). -/
def faultEntryWord (e : Option FaultEntry) (high : Bool) : DWord :=
  match e with
  | none => 0
  | some e =>
    if high then BitVec.ofNat 64 (e.cause.code + e.waiters.length % 2 ^ 24 * 2 ^ 32)
    else BitVec.ofNat 64 ((if e.resolving then 2 else 1) + e.vpage * 2 ^ 16)

/-- An enabled counter counts the bank cycles of HBM channels, whose number for an access no rule of the manual gives: its count is a free
value. [DESIGN CHOICE: log 70] -/
def openEvent (sel : DWord) : Bool :=
  sel.getLsbD 63 && (sel.toNat % 2 ^ 32 != 0) && bits sel.toNat 55 48 == 3 && bits sel.toNat 47 32 == 0

/-- The 64-bit control word at an offset of a die's control space; none where no block assigns one. -/
def ctlRead (s : State) (die off : Nat) : Option DWord :=
  let d := s.die die
  let p := s.partOfDie die
  if off = 0x4000 then some d.rast.control
  else if off = 0x4008 then some (BitVec.ofNat 64 d.rast.nextOrd)
  else if 0x4100 ≤ off ∧ off < 0x4200 then
    some (BitVec.ofNat 64 (leNat ((d.rast.owner.toList.drop (off - 0x4100)).take 8)))
  else if off = 0x6000 then some d.mcb.troot
  else if off = 0x6008 then some d.mcb.privpool
  else if off = 0x6010 then some d.mcb.iva
  else if off = 0x6018 then
    some (d.mcb.ictl ||| (if ((p.bind s.part?).map (·.ibusy)).getD false then 1 else 0))
  else if 0x7000 ≤ off ∧ off < 0x8000 then
    some (faultEntryWord (Table.get d.ftab ((off - 0x7000) / 16)) ((off - 0x7000) % 16 == 8))
  else if off = 0x8000 then some (d.tsel.setWidth 64)
  else if off = 0x8008 then some (d.tpc ++ (if d.terr then 0x100#32 else 0))
  else if 0x8100 ≤ off ∧ off < 0x8400 then
    some (match s.ctxThread die with
      | some t => BitVec.ofNat 64 (sliceNat (contextImage s t) (off - 0x8100) 8)
      | none => 0)
  else if 0x10000 ≤ off ∧ off < 0x10400 then
    let k := (off - 0x10000) / 16
    let e := s.evCounter die k
    some (if (off - 0x10000) % 16 = 0 then (if openEvent e.sel then (Config.freeCount die k s.clk).setWidth 64 else e.count) else e.sel)
  else none

/-- The value that a control word will hold once the write of it that still stands in the agenda is applied. -/
def pendingCtl (s : State) (die off : Nat) : Option DWord :=
  let waiting : List (Nat × DWord) := (((s.partOfDie die).bind s.part?).map Part.rastWait).getD []
  match s.agenda.reverse.findSome? (fun e =>
    match e with
    | .registerWrite (.memControl d o _) v => if d = die ∧ o = off then some v else none
    | .registerWrite (.threadControl d o) v => if d = die ∧ o = off then some v else none
    | .eventCounterWrite d k sel v => if d = die ∧ 0x10000 + 16 * k + (if sel then 8 else 0) = off then some v else none
    | .rasterControlWrite p o v => if s.partOfDie die = some p ∧ o = off then some v else none
    | _ => none) with
  | some v => some v
  | none => (waiting.reverse.find? (fun w => w.1 == off)).map (·.2)

/-- What the unwritten bytes of a narrower write are taken as: the current value, with the bits that act when they are written
clear. -/
def ctlMergeBase (s : State) (die off : Nat) : DWord :=
  let v := ((pendingCtl s die off).orElse (fun _ => ctlRead s die off)).getD 0
  if off = 0x6018 then v &&& ~~~1#64
  else if off = 0x8008 then v &&& ~~~7#64
  else if 0x10000 ≤ off ∧ off < 0x10400 ∧ off % 16 = 8 then v &&& ~~~(1#64 <<< 61)
  else v

/-- The events that a write of a 64-bit control word starts; mask bytes that were written decide which context words are. -/
def ctlWrite (s : State) (die off : Nat) (super : Bool) (v : DWord) (first n : Nat) : State :=
  if off = 0x4000 ∨ (0x4100 ≤ off ∧ off < 0x4200) then
    match s.partOfDie die with
    | some p => s.later (.rasterControlWrite p off v)
    | none => s
  else if 0x6000 ≤ off ∧ off < 0x6020 then s.later (.registerWrite (.memControl die off super) v)
  else if 0x7000 ≤ off ∧ off < 0x8000 then
    if off % 16 = 0 then s.later (.registerWrite (.faultEntry die ((off - 0x7000) / 16)) v) else s
  else if off = 0x8000 ∨ off = 0x8008 then s.later (.registerWrite (.threadControl die off) v)
  else if 0x8100 ≤ off ∧ off < 0x8400 then
    let s := if first < 4 then s.later (.contextWrite die (off - 0x8100) (v.setWidth 32)) else s
    if 4 < first + n then s.later (.contextWrite die (off - 0x8100 + 4) (v.extractLsb' 32 32)) else s
  else if 0x10000 ≤ off ∧ off < 0x10400 then
    s.later (.eventCounterWrite die ((off - 0x10000) / 16) (off % 16 == 8) v)
  else s

/-- n bytes at an offset of a die's control space, n at most 16. What stands where no chapter assigns a register is open. [DESIGN CHOICE: log 52] -/
def ctlReadBytes (s : State) (die off n : Nat) : BitVec 128 :=
  let word (o : Nat) : DWord := (ctlRead s die o).getD (Config.openControl die o)
  let lo := word (off / 8 * 8)
  let hi := if 8 < n then word (off / 8 * 8 + 8) else 0
  ((hi ++ lo) >>> (8 * (off % 8))) &&& (BitVec.allOnes 128 >>> (128 - 8 * n))

/-- n bytes written at an offset of a die's control space. -/
def ctlWriteBytes (s : State) (die off n : Nat) (super : Bool) (v : BitVec 128) : State :=
  if 8 < n then
    ctlWrite (ctlWrite s die off super (v.setWidth 64) 0 8) die (off + 8) super (v.extractLsb' 64 64) 0 8
  else
    let o := off / 8 * 8
    let k := off % 8
    let m : DWord := (BitVec.allOnes 64 >>> (64 - 8 * n)) <<< (8 * k)
    let w := (ctlMergeBase s die o &&& ~~~m) ||| ((v.setWidth 64 <<< (8 * k)) &&& m)
    ctlWrite s die o super w k n

/-- The aperture table, span aperture table and port status of an IO die, and the management mailbox (R53): n bytes at an
offset. The layout of a port status block is not given: its bytes are free values. -/
def ioRead (s : State) (socket off n : Nat) : BitVec 128 × State :=
  let io := socket - 56
  let cut (l : List Byte) (k : Nat) : BitVec 128 := BitVec.ofNat 128 (sliceNat l k n)
  if socket = 60 then (BitVec.ofNat 128 (leNat ((List.range n).map (fun i => Table.at s.mbox (off + i) 0))), s)
  else
    let o := off - 0x3F0000000000
    if o < 0x200 then (cut (leBytes 16 ((s.apert[io * 32 + o / 16]?).getD 0).toNat) (o % 16), s)
    else if o < 0x280 then (cut (leBytes 16 ((s.spanApert[io * 8 + (o - 0x200) / 16]?).getD 0).toNat) (o % 16), s)
    else if 0x1000 ≤ o ∧ o < 0x2000 then
      (BitVec.ofNat 128 (leNat ((List.range n).map (fun i => Config.freeByte (s.free + i)))), { s with free := s.free + n })
    else (0, s)

/-- R55. A peer aperture entry written: by the host, or by a supervisor of the partition that PART names, which cannot change PART; any
other supervisor write is ignored and logged. Reserved bits, and PBASE below bit 12, are held as zero. -/
def writeAperture (s : State) (io k : Nat) (entry : BitVec 128) (writer : Option Nat) : State :=
  let part (e : BitVec 128) : Nat := bits e.toNat 39 35
  let e := entry &&& 0xFFFFFFFFFFFFF000000000F80000010F#128
  let old := (s.apert[io * 32 + k]?).getD 0
  let put : State := { s with apert := s.apert.setIfInBounds (io * 32 + k) e }
  match writer with
  | none => put
  | some p => if part old = p ∧ part e = p then put else hosterr s p 255 255 255 2 0 ((56 + io) * 2 ^ 46 + 0x3F0000000000 + 16 * k)

/-- R56. A span aperture entry written: by the host, or EN and WR alone by a supervisor of the partition that PART names. -/
def writeSpanAperture (s : State) (io k : Nat) (entry : BitVec 128) (writer : Option Nat) : State :=
  let e := entry &&& 0xFFFFFFFFFFFF0000000000F800000003#128
  let old := (s.spanApert[io * 8 + k]?).getD 0
  let put : State := { s with spanApert := s.spanApert.setIfInBounds (io * 8 + k) e }
  match writer with
  | none => put
  | some p =>
    if bits old.toNat 39 35 = p ∧ entry &&& ~~~3#128 = old &&& ~~~3#128 then put
    else hosterr s p 255 255 255 2 0 ((56 + io) * 2 ^ 46 + 0x3F0000000200 + 16 * k)

/-- n bytes written at an offset of an IO die's tables or of the mailbox, by the partition given or by the host. -/
def ioWrite (s : State) (socket off n : Nat) (v : BitVec 128) (writer : Option Nat) : State :=
  let io := socket - 56
  let merge (old : BitVec 128) (k : Nat) : BitVec 128 :=
    let m : BitVec 128 := (BitVec.allOnes 128 >>> (128 - 8 * n)) <<< (8 * k)
    (old &&& ~~~m) ||| ((v <<< (8 * k)) &&& m)
  if socket = 60 then
    { s with mbox := (List.range n).foldl (fun t i => Table.put t (off + i) (v.extractLsb' (8 * i) 8)) s.mbox }
  else
    let o := off - 0x3F0000000000
    if o < 0x200 then
      writeAperture s io (o / 16) (merge ((s.apert[io * 32 + o / 16]?).getD 0) (o % 16)) writer
    else if o < 0x280 then
      writeSpanAperture s io ((o - 0x200) / 16) (merge ((s.spanApert[io * 8 + (o - 0x200) / 16]?).getD 0) (o % 16)) writer
    else s

end Sys2Proof.Machine
end

