-- ==== Sys2Proof/Machine/Address.lean ====
section
/-! DEFINITION. Addresses: windows, the checks of R194, page-table walks and TLBs, homes and latencies, migration targets
(R8 to R10, R53, R145, R157, R193 to R199, R205 to R209). -/

namespace Sys2Proof.Machine
open Sys2Proof

/-- Who makes an access: partition, core on which it stands, supervisor, basin mode, and the private region (size, backing
base, thread number) of a thread. -/
structure Agent where
  /-- Partition. -/
  part : Nat
  /-- Core or engine. -/
  core : Nat
  /-- Supervisor thread. -/
  super : Bool
  /-- Basin mode (R196). -/
  mode : Nat
  /-- Private size, backing base and thread number. -/
  priv : Option (Nat × Nat × Nat)
  deriving DecidableEq, Repr

/-- A thread as an agent. -/
def agentOf (t : Thread) (mode : Nat) : Agent := ⟨t.part, t.core, t.isSuper, mode, some (t.privSize, t.privBase, t.tid)⟩

/-- Rights that an access needs (R206). -/
structure Need where
  /-- Read. -/
  r : Bool
  /-- Write. -/
  w : Bool
  /-- Execute. -/
  x : Bool
  /-- USER is checked. -/
  user : Bool
  deriving DecidableEq, Repr

/-- Loads and prefetches. -/
def needR : Need := ⟨true, false, false, true⟩
/-- Stores. -/
def needW : Need := ⟨false, true, false, true⟩
/-- Atomics and reductions. -/
def needRW : Need := ⟨true, true, false, true⟩
/-- Instruction fetch. -/
def needX : Need := ⟨false, false, true, true⟩
/-- The placer's reads. -/
def needPlacer : Need := ⟨true, false, false, false⟩

/-- A checked location: memory key (the physical address, or a channel-core local memory from 2^52), window (0 global, 1
self-local, 2 basin, 3 cistern, 4 private) and leaf entry. [DESIGN CHOICE: log 9] -/
structure Loc where
  /-- Memory key. -/
  key : Nat
  /-- Window. -/
  win : Nat
  /-- Leaf entry of a global access. -/
  pte : DWord
  deriving DecidableEq, Repr

/-- The outcome of the checks of R194. -/
inductive Chk where
  /-- The location. -/
  | ok (l : Loc)
  /-- The first check that fails. -/
  | bad (c : Cause)
  /-- No TLB holds the page: a walk is needed. -/
  | miss (vpage : Nat)
  deriving DecidableEq, Repr

/-! Homes. -/

/-- Key of byte o of a core's local memory or an engine's scratchpad (R9); channel-core local memory has no address. [DESIGN CHOICE: log 9] -/
def localKey (c o : Nat) : Nat :=
  if coreCluster c = 15 then 2 ^ 52 + (coreDie c * 32 + coreIdx c) * 2 ^ 19 + o
  else coreDie c * 2 ^ 46 + 2 ^ 40 + coreCluster c * 2 ^ 25 + coreIdx c * 2 ^ 19 + o

/-- Socket of a key below 2^52 (R8). -/
def socketOf (k : Nat) : Nat := k / 2 ^ 46

/-- The core whose local memory or scratchpad holds a key. -/
def keyCore (k : Nat) : Option Nat :=
  if 2 ^ 52 ≤ k then
    let j := (k - 2 ^ 52) / 2 ^ 19
    some (coreNo (j / 32) 15 (j % 32))
  else
    let o := k % 2 ^ 46
    if socketOf k < 24 ∧ 2 ^ 40 ≤ o ∧ o < 2 ^ 45 then
      some (coreNo (socketOf k) ((o - 2 ^ 40) / 2 ^ 25) ((o - 2 ^ 40) % 2 ^ 25 / 2 ^ 19))
    else none

/-- Home channel (R10), and the channel core of a cistern offset (R157). -/
def homeChannel (k : Nat) : Nat := bits k 12 8 ^^^ bits k 20 16

/-- The die on which a key is performed; none for an IO die or the service die. -/
def keyDie (k : Nat) : Option Nat :=
  match keyCore k with
  | some c => some (coreDie c)
  | none => if socketOf k < 24 then some (socketOf k) else if 32 ≤ socketOf k ∧ socketOf k < 56 then some (socketOf k - 32) else none

/-- A key in die control space. -/
def isCtl (k : Nat) : Bool := decide (socketOf k < 24) && decide (2 ^ 45 ≤ k % 2 ^ 46)

/-- A key in a stack. -/
def isStack (k : Nat) : Bool := decide (32 ≤ socketOf k) && decide (socketOf k < 56)

/-- A key in a cistern. -/
def isCistern (k : Nat) : Bool := decide (socketOf k < 24) && decide (k % 2 ^ 46 < 2 ^ 25)

/-- A key in a peer window. -/
def isPeer (k : Nat) : Bool := (socketOf k == 56 || socketOf k == 57) && decide (k % 2 ^ 46 < 2 ^ 45)

/-- A key in a span window. -/
def isSpan (k : Nat) : Bool :=
  (socketOf k == 56 || socketOf k == 57) && decide (2 ^ 45 ≤ k % 2 ^ 46) && decide (k % 2 ^ 46 < 2 ^ 45 + 2 ^ 44)

/-- L of R145 for a core or engine and a key; an access to HBM is taken as an L2 hit. [DEDUCED: log 6] -/
def latency (c : Nat) (k : Nat) : Nat :=
  match keyCore k with
  | some o =>
    if o = c then (if coreIsWave c then 20 else 8)
    else if o / 64 = c / 64 then 24
    else 64 + crossing (coreDie c) (coreDie o)
  | none =>
    match keyDie k with
    | some d =>
      let base := if isStack k then 120 else 64
      let own := coreNo d 15 (homeChannel k)
      if c = own ∧ !isCtl k then 24 else base + crossing (coreDie c) d
    | none => 240

/-- The core to which a go access migrates (R157); none where it never migrates. -/
def migrateTo (l : Loc) : Option Nat :=
  if l.win = 2 then (keyCore l.key).bind (fun c => if coreIsWave c then none else some c)
  else if l.win = 3 then some (coreNo (socketOf l.key) 15 (homeChannel l.key))
  else if l.win = 0 ∧ isStack l.key then some (coreNo (socketOf l.key - 32) 15 (homeChannel l.key))
  else none

/-! Windows (R193 to R198). -/

/-- A window resolved: a key and the die that must belong to the partition, or a virtual address. -/
inductive Win where
  /-- Memory key, window and die. -/
  | phys (key win die : Nat)
  /-- Virtual address. -/
  | virt (va : Nat)
  deriving DecidableEq, Repr

/-- Basin addresses (R196); whether the die exists is step 5's question. -/
def basinWin (g : Agent) (a : Nat) : Option Win :=
  let d := bits a 55 51
  let cl := bits a 50 47
  let o := bits a 23 0
  if bits a 46 25 ≠ 0 ∨ 11 < cl then none
  else if bits a 24 24 = 0 then
    if g.mode = 0 then
      if 0x5C000 ≤ o % 2 ^ 19 then none else some (.phys (localKey (coreNo d cl (o / 2 ^ 19)) (o % 2 ^ 19)) 2 d)
    else
      let n := match g.mode with | 1 => 4 | 2 => 64 | _ => 256
      if 0xB80000 ≤ o then none
      else some (.phys (localKey (coreNo d cl (o / n % 32)) (o / (32 * n) * n + o % n)) 2 d)
  else if g.mode = 0 ∧ bits o 23 21 = 0 ∧ bits o 20 18 ≤ 5 then
    some (.phys (localKey (coreNo d cl (32 + bits o 20 18)) (o % 2 ^ 18)) 2 d)
  else none

/-- PRIV (R198). -/
def privAddr (base size tid o : Nat) : Nat := base + (tid / 64 * (size / 4) + o / 4) * 256 + tid % 64 * 4 + o % 4

/-- Step 1 of R194: the window and its own rules; full/empty instructions need a banked window. -/
def windowOf (g : Agent) (fe : Bool) (a : Nat) : Option Win :=
  let d := bits a 55 51
  match a / 2 ^ 56 with
  | 0x00 => if fe ∨ bits a 55 55 ≠ 0 then none else some (.virt (bits a 54 0))
  | 0xF1 =>
    let o := bits a 23 0
    if bits a 55 24 ≠ 0 ∨ (if coreIsWave g.core then 0x40000 else 0x5C000) ≤ o then none
    else some (.phys (localKey g.core o) 1 (coreDie g.core))
  | 0xF2 => basinWin g a
  | 0xF3 =>
    let o := bits a 24 0
    if bits a 50 25 ≠ 0 then none
    else if o < 0x1D00000 ∨ (g.super ∧ o < 0x1E00000) then some (.phys (d * 2 ^ 46 + o) 3 d)
    else none
  | 0xF4 =>
    match g.priv with
    | some (size, base, tid) =>
      let o := bits a 31 0
      if fe ∨ bits a 55 32 ≠ 0 ∨ size ≤ o then none
      else some (.phys (privAddr base size tid o) 4 (coreDie g.core))
    | none => none
  | _ => none

/-! Translation (R205 to R208). -/

/-- Physical address of a virtual address under a leaf. -/
def leafPA (pages : Nat) (pte : DWord) (va : Nat) : Nat :=
  if pages = 1 then bits pte.toNat 51 16 * 2 ^ 16 + bits va 15 0 else bits pte.toNat 51 29 * 2 ^ 29 + bits va 28 0

/-- The base of a page lies where a leaf may point (R205). -/
def leafBaseOk (s : State) (p pa : Nat) : Bool :=
  let dies := s.partDies p
  if isStack pa then dies.contains (socketOf pa - 32) && decide (pa % 2 ^ 46 < Config.stackCapacity)
  else if isCtl pa then dies.contains (socketOf pa) && decide (pa % 2 ^ 46 < ctlBase + 2 ^ 24)
  else isPeer pa || isSpan pa ||
    ((socketOf pa == 56 || socketOf pa == 57) && decide (0x3F0000000000 ≤ pa % 2 ^ 46) && decide (pa % 2 ^ 46 < 0x3F0000002000)) ||
    (socketOf pa == 60 && decide (pa % 2 ^ 46 < 2 ^ 16))

/-- A table lies in the partition's stacks. -/
def tableOk (s : State) (p pa : Nat) : Bool :=
  isStack pa && (s.partDies p).contains (socketOf pa - 32) && decide (pa % 2 ^ 46 < Config.stackCapacity)

/-- A leaf entry without a malformed field. -/
def leafOk (e : Nat) : Bool :=
  bits e 63 52 == 0 && bits e 15 11 == 0 && (e.testBit 1 || !e.testBit 2) && bits e 6 5 != 3 && bits e 10 9 != 3

/-- A pointer entry without a malformed field. -/
def pointerOk (e : Nat) : Bool := bits e 63 52 == 0 && bits e 15 11 == 0 && bits e 10 4 == 0

/-- An entry with R, W or X set is a leaf. -/
def isLeaf (e : Nat) : Bool := bits e 3 1 != 0

/-- A pointer entry that the walk cache of a die holds (R207). -/
def cachedPtr (s : State) (die p level index : Nat) : Option Nat :=
  ((s.die die).wcache.find? (fun e => e.part == p && e.level == level && e.index == index)).map (fun e => e.pte.toNat)

/-- Where the entries of a walk from a root lie, and what the walk reads at them: level 3, 2 and 1. A pointer entry that the walk cache
holds is not read. -/
structure WalkPath where
  /-- Address of the level-3 entry. -/
  a3 : Nat
  /-- The level-3 entry. -/
  e3 : Nat
  /-- Address of the level-2 entry. -/
  a2 : Nat
  /-- The level-2 entry. -/
  e2 : Nat
  /-- Address of the level-1 entry. -/
  a1 : Nat
  /-- The level-1 entry. -/
  e1 : Nat
  deriving DecidableEq, Repr

/-- The path of a walk with the tables, and the walk cache, as they stand. -/
def walkPath (s : State) (die p va : Nat) (root : DWord) : WalkPath :=
  let entry (a : Nat) : Nat := (readDWord s.mem a).toNat
  let a3 := bits root.toNat 51 16 * 2 ^ 16 + 8 * bits va 54 42
  let e3 := (cachedPtr s die p 3 (bits va 54 42)).getD (entry a3)
  let a2 := bits e3 51 16 * 2 ^ 16 + 8 * bits va 41 29
  let e2 := (cachedPtr s die p 2 (bits va 54 29)).getD (entry a2)
  let a1 := bits e2 51 16 * 2 ^ 16 + 8 * bits va 28 16
  ⟨a3, e3, a2, e2, a1, entry a1⟩

/-- A pointer of the walk's level-3 or level-2 entry is good: valid, no leaf, without a malformed field, to a table of the partition. -/
def pointerGood (s : State) (p e : Nat) : Bool := e.testBit 0 && !isLeaf e && pointerOk e && tableOk s p (bits e 51 16 * 2 ^ 16)

/-- The WALK of R205 from a root with the tables as they stand: the leaf and its pages, or none for the translation cause. -/
def walkFrom (s : State) (die p va : Nat) (root : DWord) : Option (DWord × Nat) :=
  let w := walkPath s die p va root
  let leaf (e pages : Nat) : Option (DWord × Nat) :=
    if leafOk e && leafBaseOk s p (leafPA pages (BitVec.ofNat 64 e) 0) then some (BitVec.ofNat 64 e, pages) else none
  if !root.getLsbD 0 || !tableOk s p (bits root.toNat 51 16 * 2 ^ 16) || !pointerGood s p w.e3 || !w.e2.testBit 0 then none
  else if isLeaf w.e2 then (if bits w.e2 28 16 = 0 then leaf w.e2 8192 else none)
  else if !pointerGood s p w.e2 || !w.e1.testBit 0 || !isLeaf w.e1 then none
  else leaf w.e1 1

/-- The walk from the root that stands in the memory control block. -/
def walk (s : State) (die p va : Nat) : Option (DWord × Nat) := walkFrom s die p va (s.die die).mcb.troot

/-- The pointer entries of a good walk held in the walk cache (R207). [DESIGN CHOICE: log 17] -/
def cachePath (s : State) (die p va : Nat) (root : DWord) : State :=
  let w := walkPath s die p va root
  let put (l : List PtrEntry) (e : PtrEntry) : List PtrEntry := (e :: l.filter (fun x => x != e)).take 256
  s.updDie die (fun d =>
    let l := if pointerGood s p w.e3 then put d.wcache ⟨p, 3, bits va 54 42, BitVec.ofNat 64 w.e3⟩ else d.wcache
    { d with wcache := if pointerGood s p w.e2 then put l ⟨p, 2, bits va 54 29, BitVec.ofNat 64 w.e2⟩ else l })

/-- An entry translates a virtual page of a partition. -/
def TlbEntry.covers (e : TlbEntry) (p vpage : Nat) : Bool := e.part == p && decide (e.vpage ≤ vpage) && decide (vpage < e.vpage + e.pages)

/-- The translation that the TLB of a core's cluster holds. -/
def clusterTlb (s : State) (core p vpage : Nat) : Option TlbEntry := (Table.at s.ctlb (core / 64) []).find? (fun e => e.covers p vpage)

/-- The translation of a virtual page in the TLB of a core's cluster, or in the second level of its die (R207). -/
def tlbFind (s : State) (core p vpage : Nat) : Option TlbEntry :=
  (clusterTlb s core p vpage).orElse (fun _ => (s.die (coreDie core)).tlb.find? (fun e => e.covers p vpage))

/-- A translation put into a cluster's TLB of 1,024 entries. [DESIGN CHOICE: log 17] -/
def fillCluster (s : State) (cl : Nat) (e : TlbEntry) : State :=
  { s with ctlb := Table.put s.ctlb cl ((e :: (Table.at s.ctlb cl []).filter (fun x => x != e)).take 1024) }

/-- Translations of a die and its clusters, and pointer entries of its walk cache, dropped (R207, R208). -/
def dropCached (s : State) (die : Nat) (f : TlbEntry → Bool) (g : PtrEntry → Bool) : State :=
  let s := s.updDie die (fun d => { d with tlb := d.tlb.filter (fun e => !f e), wcache := d.wcache.filter (fun e => !g e) })
  { s with ctlb := s.ctlb.map (fun e => if e.1 / 16 = die then (e.1, e.2.filter (fun x => !f x)) else e) }

/-- An access of a core uses a translation: one that the cluster's TLB lacks is taken from the second level. [DESIGN CHOICE: log 17] -/
def tlbUse (s : State) (core p vpage : Nat) : State :=
  match clusterTlb s core p vpage with
  | some _ => s
  | none =>
    match (s.die (coreDie core)).tlb.find? (fun e => e.covers p vpage) with
    | some e => fillCluster (clusterEvent s core 1 3 1) (core / 64) e
    | none => s

/-- A walk's translation filled into the second-level TLB of a die, of 16,384 entries (R207). [DESIGN CHOICE: log 17] -/
def tlbFill (s : State) (die p vpage : Nat) (pte : DWord) (pages : Nat) : State :=
  s.updDie die (fun d => { d with tlb := ((⟨p, vpage / pages * pages, pages, pte⟩ : TlbEntry) :: d.tlb).take 16384 })

/-- Step 4 of R194: the rights of R206. -/
def permOk (super : Bool) (n : Need) (pte : DWord) : Bool :=
  (!n.r || pte.getLsbD 1) && (!n.w || pte.getLsbD 2) && (!n.x || pte.getLsbD 3) &&
    (!n.user || (if super then !(n.x && pte.getLsbD 4) else pte.getLsbD 4))

/-- A span port in service (R39). -/
def State.spanUp (s : State) (p : Nat) : Bool :=
  decide (4 ≤ (s.spans[p]?.getD Span.reset).lanes) && (Table.at s.links (320 + p) Link.reset).up

/-- Step 5 of R194 for a physical address: partition and population (R8, R9, R53, R55, R56). -/
def populated (s : State) (p : Nat) (super write : Bool) (pa : Nat) : Bool :=
  let k := socketOf pa
  let o := pa % 2 ^ 46
  if isStack pa then (s.partDies p).contains (k - 32) && decide (o < Config.stackCapacity)
  else if isCtl pa then super && (s.partDies p).contains k && decide (o < ctlBase + 2 ^ 24)
  else if isPeer pa then
    let e := (s.apert[(k - 56) * 32 + o / 2 ^ 40]?).getD 0
    e.getLsbD 0 && bits e.toNat 39 35 == p && (!write || e.getLsbD 1)
  else if isSpan pa then
    let j := (k - 56) * 8 + (o - 2 ^ 45) / 2 ^ 41
    let e := (s.spanApert[j]?).getD 0
    e.getLsbD 0 && bits e.toNat 39 35 == p && (!write || e.getLsbD 1) && s.spanUp j
  else if k = 56 ∨ k = 57 then
    super && decide (0x3F0000000000 ≤ o) &&
      (decide (o < 0x3F0000000280) || (decide (0x3F0000001000 ≤ o) && decide (o < 0x3F0000002000)))
  else k == 60 && super && decide (o < 2 ^ 16)

/-- THE CHECKS of R194, in order. -/
def checkAddr (s : State) (g : Agent) (a : DWord) (size : Nat) (n : Need) (fe : Bool) : Chk :=
  match windowOf g fe a.toNat with
  | none => .bad .window
  | some w =>
    if a.toNat % size ≠ 0 then .bad .alignment
    else match w with
      | .phys key win die => if (s.partDies g.part).contains die then .ok ⟨key, win, 0⟩ else .bad .window
      | .virt va =>
        match tlbFind s g.core g.part (va / 2 ^ 16) with
        | none => .miss (va / 2 ^ 16)
        | some e =>
          if !permOk g.super n e.pte then .bad .permission
          else
            let pa := leafPA e.pages e.pte va
            if populated s g.part g.super n.w pa then .ok ⟨pa, 0, e.pte⟩ else .bad .window

/-! The L2 slices (R203, R204). -/

/-- The set of a stack's address in its home slice, of 512 sets. [DESIGN CHOICE: log 91] -/
def l2Set (k : Nat) : Nat := (((socketOf k - 32) * 32 + homeChannel k) * 512) + k / 128 % 2 + 2 * (k / 8192 % 256)

/-- The line of an address is held by its home slice. -/
def l2Hit (s : State) (k : Nat) : Bool := (Table.at s.l2 (l2Set k) []).any (fun x => x.1 == k / 128)

/-- A set of 16 lines without the one that is evicted first: the least recently used of priority 0 or 1, of priority 2 only where there is
no other (R204). -/
def l2Evict (l : List (Nat × Nat)) : List (Nat × Nat) :=
  if l.length < 16 then l
  else match l.reverse.find? (fun x => x.2 != 2) with
    | some x => l.erase x
    | none => l.dropLast

/-- AN ACCESS AT A HOME SLICE with the attributes of its page (R203, R204): its line becomes the most recently used; one that is not held is
allocated, at cache level 2 it is not; priority 1 is inserted least recent. Accesses and misses are counted (R81). -/
def l2Touch (s : State) (k : Nat) (pte : DWord) : State :=
  if !isStack k then s
  else
    let d := socketOf k - 32
    let n := l2Set k
    let l := Table.at s.l2 n []
    let prio := bits pte.toNat 10 9
    let s := dieEvent s d 2 0 (homeChannel k) 1
    if l2Hit s k then
      { s with l2 := Table.put s.l2 n ((l.filter (fun x => x.1 == k / 128)) ++ l.filter (fun x => x.1 != k / 128)) }
    else
      let s := dieEvent s d 2 1 (homeChannel k) 1
      if bits pte.toNat 6 5 = 2 then s
      else
        let l := l2Evict l
        { s with l2 := Table.put s.l2 n (if prio = 1 then l ++ [(k / 128, 1)] else (k / 128, prio) :: l) }

/-- What an access to a stack takes beyond an L2 hit: 80 clk from HBM (R145). -/
def hbmExtra (s : State) (k : Nat) : Nat := if isStack k && !l2Hit s k then 80 else 0

/-- What the second-level TLB adds to an access of a core at an address (R207). -/
def tlbExtra (s : State) (core p : Nat) (a : DWord) : Nat :=
  if a.toNat / 2 ^ 56 = 0 ∧ (clusterTlb s core p (bits a.toNat 54 16)).isNone then 16 else 0

/-! Walks (R207, R208). -/

/-- What one entry read of a walk takes: the latency from the walker's die to the entry's home. -/
def entryTime (s : State) (die a : Nat) : Nat := 120 + hbmExtra s a + crossing die (socketOf a - 32)

/-- What a walk takes: its entry reads at the levels that the walk cache does not hold (R207). [DEDUCED: log 18] -/
def walkTime (s : State) (die p va : Nat) (root : DWord) : Nat :=
  let w := walkPath s die p va root
  let read (c : Option Nat) (a : Nat) : Nat := if c.isSome then 0 else entryTime s die a
  if !root.getLsbD 0 || !tableOk s p (bits root.toNat 51 16 * 2 ^ 16) then 1
  else
    read (cachedPtr s die p 3 (bits va 54 42)) w.a3 +
      (if pointerGood s p w.e3 then
        read (cachedPtr s die p 2 (bits va 54 29)) w.a2 + (if pointerGood s p w.e2 then entryTime s die w.a1 else 0)
      else 0)

/-- A walk among the first 64 of a die begins: it counts, and ends after its entry reads, each an access at its home slice. -/
def beginWalk (s : State) (d : Nat) (w : Walk) : State :=
  let va := w.vpage * 2 ^ 16
  let t := walkTime s d w.part va w.root
  let x := walkPath s d w.part va w.root
  let s := dieEvent s d 7 0 0 1
  let s := [x.a3, x.a2, x.a1].foldl (fun s a => if tableOk s w.part a then l2Touch s a 0 else s) s
  s.at_ (s.clk + t) (.pageWalkComplete d w.part w.vpage)

/-- A walk of a die for a page of a partition: shared with one under way, or a new one, which waits while 64 are in flight (R207). A unit
that waits for it is named. -/
def askWalk (s : State) (d p vpage : Nat) (unit : Option Nat) : State :=
  let add (w : Walk) : Walk := { w with waits := w.waits ++ (unit.toList.filter (fun u => !w.waits.contains u)) }
  if (s.die d).walks.any (fun w => w.part == p && w.vpage == vpage) then
    s.updDie d (fun x => { x with walks := x.walks.map (fun w => if w.part == p && w.vpage == vpage then add w else w) })
  else
    let w : Walk := ⟨p, vpage, (s.die d).mcb.troot, false, unit.toList⟩
    let full := decide (64 ≤ (s.die d).walks.length)
    let s := s.updDie d (fun x => { x with walks := x.walks ++ [w] })
    if full then s else beginWalk s d w

/-- The issuing thread waits for the walk of its page. The thread's access kind and address stay with its wait for the fault that the walk
may raise. -/
def startWalk (s : State) (vpage acc : Nat) (addr : DWord) (len : Nat) : State :=
  let t := s.th
  let s := clusterEvent s t.core 1 3 1
  let s := s.put { t with run := .waiting (.walk t.die vpage), parkedAt := s.clk, rx := false,
                          fin := ⟨acc, [addr.toNat], len + (if t.rx then 1 else 0)⟩ }
  askWalk s t.die t.part vpage none

/-- A fetched parcel. -/
inductive Fetched where
  /-- The parcel. -/
  | parcel (v : BitVec 16)
  /-- At or beyond the bound (R264). -/
  | bound
  /-- Translation, permission or window at the fetch. -/
  | bad (c : Cause) (addr : DWord)
  /-- A walk is needed. -/
  | miss (vpage : Nat) (addr : DWord)
  deriving DecidableEq, Repr

/-- The parcel at a PC of a thread (R264, R271): translated parcels for a Cuique thread. -/
def fetchParcel (s : State) (t : Thread) (pc : Nat) : Fetched :=
  if t.bound ≤ pc then .bound
  else if t.isCuique then
    .parcel ((((s.die t.die).tcache.find? (fun c => c.key == t.tkey)).bind (fun c => c.parcels[pc]?)).getD 0)
  else
    let a := BitVec.ofNat 64 (t.codeVA + 2 * pc)
    match checkAddr s (agentOf t 0) a 2 needX false with
    | .ok l => .parcel ((readBytes s.mem l.key 2).setWidth 16)
    | .bad c => .bad c a
    | .miss vp => .miss vp a

end Sys2Proof.Machine
end

