-- ==== Sys2Proof/Machine/Crypto.lean ====
section
/-! DEFINITION. The codes and ciphers that the manual names: CRC-32C, Reed–Solomon (128, 116), SM3, SM4 and GCM (R19 to R21, R29,
R41). -/

namespace Sys2Proof.Machine
open Sys2Proof

/-! CRC-32C (R29). -/

/-- One byte taken into a reflected CRC-32C remainder. -/
def crcByte (c : Word) (b : Byte) : Word :=
  (List.range 8).foldl (fun (c : Word) _ => if c.getLsbD 0 then (c >>> 1) ^^^ 0x82F63B78#32 else c >>> 1) (c ^^^ b.setWidth 32)

/-- The CRC-32C of a string of bytes. -/
def crc32c (l : List Byte) : Word := ~~~(l.foldl crcByte 0xFFFFFFFF#32)

/-! Reed–Solomon over GF(2^8) with x^8 + x^4 + x^3 + x^2 + 1 (R29). -/

/-- Multiplication by α = 2. -/
def gfDouble (a : Nat) : Nat := if a < 128 then 2 * a else (2 * a - 256) ^^^ 0x1D

/-- The product by doubling the first factor n times. -/
def gfMulGo : Nat → Nat → Nat → Nat → Nat
  | 0, _, _, r => r
  | n + 1, a, b, r => gfMulGo n (gfDouble a) (b / 2) (if b % 2 = 1 then r ^^^ a else r)

/-- The product of two elements. -/
def gfMul (a b : Nat) : Nat := gfMulGo 8 a b 0

/-- α^k. -/
def gfExp : Nat → Nat
  | 0 => 1
  | k + 1 => gfDouble (gfExp k)

/-- The inverse a^254 of a non-zero element. -/
def gfInv (a : Nat) : Nat :=
  let a2 := gfMul a a
  let a4 := gfMul a2 a2
  let a8 := gfMul a4 a4
  let a16 := gfMul a8 a8
  let a32 := gfMul a16 a16
  let a64 := gfMul a32 a32
  let a128 := gfMul a64 a64
  gfMul a128 (gfMul a64 (gfMul a32 (gfMul a16 (gfMul a8 (gfMul a4 a2)))))

/-- A polynomial, lowest coefficient first, at a point. -/
def polyAt (p : List Nat) (x : Nat) : Nat := p.foldr (fun c r => c ^^^ gfMul r x) 0

/-- The sum of two polynomials. -/
def polyAdd : List Nat → List Nat → List Nat
  | [], q => q
  | p, [] => p
  | a :: p, b :: q => (a ^^^ b) :: polyAdd p q

/-- A polynomial times a constant. -/
def polyScale (c : Nat) (p : List Nat) : List Nat := p.map (gfMul c)

/-- The product of two polynomials. -/
def polyMul : List Nat → List Nat → List Nat
  | [], _ => []
  | a :: p, q => polyAdd (polyScale a q) (0 :: polyMul p q)

/-- The generator, with roots α^0 to α^11. -/
def rsGen : List Nat := (List.range 12).foldl (fun g k => polyMul g [gfExp k, 1]) [1]

/-- One message symbol taken into a remainder of 12 symbols, highest first. -/
def rsStep (gen : List Nat) (r : List Nat) (m : Nat) : List Nat :=
  let f := m ^^^ r.headD 0
  (r.drop 1 ++ [0]).zipWith (fun a g => a ^^^ gfMul f g) gen

/-- The parity of 116 message symbols: byte 0 is the highest coefficient. [PRESUMED: log 66] -/
def rsParity (l : List Nat) : List Nat :=
  let gen := (rsGen.take 12).reverse
  l.foldl (rsStep gen) (List.replicate 12 0)

/-- The syndrome at α^j. -/
def rsSyndrome (l : List Nat) (j : Nat) : Nat :=
  let a := gfExp j
  l.foldl (fun r c => gfMul r a ^^^ c) 0

/-- The state of the search for the error locator: locator, earlier locator, its length, steps since, earlier discrepancy. -/
structure RsSearch where
  /-- Locator. -/
  c : List Nat
  /-- Locator before the last change of length. -/
  b : List Nat
  /-- Length. -/
  l : Nat
  /-- Steps since then. -/
  m : Nat
  /-- Discrepancy then. -/
  d : Nat
  deriving DecidableEq, Repr

/-- Step n of the search with syndromes s. -/
def rsSearch (s : List Nat) (x : RsSearch) (n : Nat) : RsSearch :=
  let d := (List.range (x.l + 1)).foldl (fun r i => r ^^^ gfMul (x.c[i]?.getD 0) (if i ≤ n then s[n - i]?.getD 0 else 0)) 0
  if d = 0 then { x with m := x.m + 1 }
  else
    let c := polyAdd x.c (List.replicate x.m 0 ++ polyScale (gfMul d (gfInv x.d)) x.b)
    if 2 * x.l ≤ n then ⟨c, x.c, n + 1 - x.l, 1, d⟩ else { x with c := c, m := x.m + 1 }

/-- The formal derivative of a polynomial. -/
def polyDeriv (p : List Nat) : List Nat := ((p.zipIdx).map (fun e => if e.2 % 2 = 1 then e.1 else 0)).drop 1

/-- RS DECODING of 128 symbols: the symbols with up to 6 errors corrected, or none. -/
def rsDecode (l : List Nat) : Option (List Nat) :=
  let s := (List.range 12).map (rsSyndrome l)
  if s.all (· == 0) then some l
  else
    let x := (List.range 12).foldl (rsSearch s) ⟨[1], [1], 0, 1, 1⟩
    let omega := (polyMul s x.c).take 12
    let der := polyDeriv x.c
    -- position p counts from the last symbol
    let fix (p : Nat) : Nat :=
      let xi := gfExp ((255 - p) % 255)
      if polyAt x.c xi = 0 then gfMul (gfExp p) (gfMul (polyAt omega xi) (gfInv (polyAt der xi))) else 0
    let roots := ((List.range 128).filter (fun p => polyAt x.c (gfExp ((255 - p) % 255)) == 0)).length
    if 6 < x.l ∨ roots ≠ x.l then none
    else
      let r := (l.zipIdx).map (fun e => e.1 ^^^ fix (127 - e.2))
      if ((List.range 12).map (rsSyndrome r)).all (· == 0) then some r else none

/-! SM3 (R19, R20, R92, R270). -/

/-- The big-endian word of four bytes. -/
def beWord (l : List Byte) : Word := BitVec.ofNat 32 ((l.take 4).foldl (fun n b => n * 256 + b.toNat) 0)

/-- The n big-endian bytes of a number. -/
def beBytes (n v : Nat) : List Byte := (leBytes n v).reverse

/-- Successive pieces of n bytes. -/
def pieces (n : Nat) : Nat → List Byte → List (List Byte)
  | 0, _ => []
  | k + 1, l => l.take n :: pieces n k (l.drop n)

/-- P1 of SM3. -/
def sm3P1 (x : Word) : Word := x ^^^ x.rotateLeft 15 ^^^ x.rotateLeft 23

/-- The message words 0 to 67 of a block, newest first. -/
def sm3Expand (b : List Word) : List Word :=
  (List.range 52).foldl (fun (w : List Word) _ =>
    let at_ (k : Nat) : Word := w[k - 1]?.getD 0
    (sm3P1 (at_ 16 ^^^ at_ 9 ^^^ (at_ 3).rotateLeft 15) ^^^ (at_ 13).rotateLeft 7 ^^^ at_ 6) :: w) b.reverse

/-- Round j of the compression: registers A to H. -/
def sm3Round (w : List Word) (v : List Word) (j : Nat) : List Word :=
  match v with
  | [a, b, c, d, e, f, g, h] =>
    let t : Word := if j < 16 then 0x79CC4519 else 0x7A879D8A
    let ss1 := (a.rotateLeft 12 + e + t.rotateLeft (j % 32)).rotateLeft 7
    let ss2 := ss1 ^^^ a.rotateLeft 12
    let ff := if j < 16 then a ^^^ b ^^^ c else (a &&& b) ||| (a &&& c) ||| (b &&& c)
    let gg := if j < 16 then e ^^^ f ^^^ g else (e &&& f) ||| (~~~e &&& g)
    let wj := w[j]?.getD 0
    let tt1 := ff + d + ss2 + (wj ^^^ w[j + 4]?.getD 0)
    let tt2 := gg + h + ss1 + wj
    [tt1, a, b.rotateLeft 9, c, tt2 ^^^ tt2.rotateLeft 9 ^^^ tt2.rotateLeft 17, e, f.rotateLeft 19, g]
  | v => v

/-- A block of 64 bytes taken into a chaining value. -/
def sm3Block (v : List Word) (b : List Byte) : List Word :=
  let w := (sm3Expand ((pieces 4 16 b).map beWord)).reverse
  ((List.range 64).foldl (sm3Round w) v).zipWith (· ^^^ ·) v

/-- The SM3 DIGEST of a string of bytes: 32 bytes. -/
def sm3 (l : List Byte) : List Byte :=
  let pad := (119 - l.length % 64) % 64
  let m := l ++ [0x80] ++ List.replicate pad 0 ++ beBytes 8 (8 * l.length)
  let v := (pieces 64 (m.length / 64) m).foldl sm3Block
    [0x7380166F, 0x4914B2B9, 0x172442D7, 0xDA8A0600, 0xA96F30BC, 0x163138AA, 0xE38DEE4D, 0xB0FB0E4E]
  v.flatMap (fun w => beBytes 4 w.toNat)

/-! SM4 and GCM (R41). -/

/-- The SM4 substitution, entry 0 in the highest byte. -/
def sm4Box : Nat :=
  0xd690e9fecce13db716b614c228fb2c052b679a762abe04c3aa441326498606999c4250f491ef987a33540b43edcfac62e4b31ca9c908e89580df94fa758f3fa6 * 2 ^ 1536 +
  0x4707a7fcf37317ba83593c19e6854fa8686b81b27164da8bf8eb0f4b70569d351e240e5e6358d1a225227c3b01217887d40046579fd327524c3602e7a0c4c89e * 2 ^ 1024 +
  0xeabf8ad240c738b5a3f7f2cef96115a1e0ae5da49b341a55ad933230f58cb1e31df6e22e8266ca60c02923ab0d534e6fd5db3745defd8e2f03ff6a726d6c5b51 * 2 ^ 512 +
  0x8d1baf92bbddbc7f11d95c411f105ad80ac13188a5cd7bbd2d74d012b8e5b4b08969974a0c96777e65b9f109c56ec68418f07dec3adc4d2079ee5f3ed7cb3948

/-- The substitution of a byte. -/
def sm4Sub (b : Nat) : Nat := sm4Box / 2 ^ (8 * (255 - b)) % 256

/-- The substitution of the four bytes of a word. -/
def sm4Tau (x : Word) : Word :=
  BitVec.ofNat 32 (((List.range 4).map (fun i => sm4Sub (bits x.toNat (8 * i + 7) (8 * i)) * 2 ^ (8 * i))).sum)

/-- One round on the last four words, newest last. -/
def sm4Round (lin : Word → Word) (x : List Word) (k : Word) : List Word :=
  match x with
  | [a, b, c, d] => [b, c, d, a ^^^ lin (sm4Tau (b ^^^ c ^^^ d ^^^ k))]
  | x => x

/-- The 32 round keys of a key. -/
def sm4Keys (key : BitVec 128) : List Word :=
  let w (i : Nat) : Word := key.extractLsb' (96 - 32 * i) 32
  let start := [w 0 ^^^ 0xA3B1BAC6, w 1 ^^^ 0x56AA3350, w 2 ^^^ 0x677D9197, w 3 ^^^ 0xB27022DC]
  let ck (i : Nat) : Word :=
    BitVec.ofNat 32 (((List.range 4).map (fun j => (4 * i + j) * 7 % 256 * 2 ^ (24 - 8 * j))).sum)
  ((List.range 32).foldl (fun (a : List Word × List Word) i =>
    let x := sm4Round (fun y => y ^^^ y.rotateLeft 13 ^^^ y.rotateLeft 23) a.1 (ck i)
    (x, a.2 ++ [x.getLastD 0])) (start, [])).2

/-- The SM4 ENCRYPTION of a block under round keys. -/
def sm4Block (ks : List Word) (x : BitVec 128) : BitVec 128 :=
  let w (i : Nat) : Word := x.extractLsb' (96 - 32 * i) 32
  let lin (y : Word) : Word := y ^^^ y.rotateLeft 2 ^^^ y.rotateLeft 10 ^^^ y.rotateLeft 18 ^^^ y.rotateLeft 24
  match ks.foldl (fun a k => sm4Round lin a k) [w 0, w 1, w 2, w 3] with
  | [a, b, c, d] => ((d ++ c) ++ b) ++ a
  | _ => 0

/-- The block of up to 16 bytes, the first byte highest, zero after its end. -/
def blockOf (l : List Byte) : BitVec 128 :=
  BitVec.ofNat 128 ((l ++ List.replicate (16 - l.length) 0).foldl (fun (n : Nat) (b : Byte) => n * 256 + b.toNat) 0)

/-- The 16 bytes of a block. -/
def blockBytes (x : BitVec 128) : List Byte := beBytes 16 x.toNat

/-- The product in the field of GHASH. -/
def ghashMul (x y : BitVec 128) : BitVec 128 :=
  ((List.range 128).foldl (fun (a : BitVec 128 × BitVec 128) i =>
    (if x.getLsbD (127 - i) then a.1 ^^^ a.2 else a.1,
      if a.2.getLsbD 0 then (a.2 >>> 1) ^^^ (0xE1#128 <<< 120) else a.2 >>> 1)) (0, y)).1

/-- GHASH of additional data and ciphertext. -/
def ghash (h : BitVec 128) (aad ct : List Byte) : BitVec 128 :=
  let run (a : BitVec 128) (l : List Byte) : BitVec 128 :=
    (pieces 16 ((l.length + 15) / 16) l).foldl (fun a b => ghashMul (a ^^^ blockOf b) h) a
  ghashMul (run (run 0 aad) ct ^^^ BitVec.ofNat 128 (8 * aad.length * 2 ^ 64 + 8 * ct.length)) h

/-- The keystream applied to a string, from counter block 2 of an initialisation vector of 12 bytes. -/
def gcmCrypt (ks : List Word) (iv l : List Byte) : List Byte :=
  ((List.range ((l.length + 15) / 16)).flatMap (fun i => blockBytes (sm4Block ks (blockOf (iv ++ beBytes 4 (i + 2)))))).zipWith
    (fun k b => k ^^^ b) l

/-- The GCM tag of a ciphertext: 16 bytes. -/
def gcmTag (ks : List Word) (iv aad ct : List Byte) : List Byte :=
  blockBytes (ghash (sm4Block ks 0) aad ct ^^^ sm4Block ks (blockOf (iv ++ beBytes 4 1)))

/-- SEALING: ciphertext and tag. -/
def gcmSeal (key : BitVec 128) (iv aad pt : List Byte) : List Byte :=
  let ks := sm4Keys key
  let ct := gcmCrypt ks iv pt
  ct ++ gcmTag ks iv aad ct

/-- OPENING: the plaintext where the tag holds. -/
def gcmOpen (key : BitVec 128) (iv aad ct tag : List Byte) : Option (List Byte) :=
  let ks := sm4Keys key
  if gcmTag ks iv aad ct = tag then some (gcmCrypt ks iv ct) else none

end Sys2Proof.Machine
end

