-- ==== Sys2Proof/Machine/LinkLayer.lean ====
section
/-! DEFINITION. The sending half of the link layer: flits and their codes, the replay buffer, sealing, control flits, and the packets that
wait for credits, keys and replay space (R27 to R36, R41 to R46); routes between sockets (R6, R7, R40). -/

namespace Sys2Proof.Machine
open Sys2Proof

/-! Routes (R6, R7, R40). -/

/-- Router column and row of a populated socket (R6). -/
def routerOf (n : Nat) : Nat × Nat :=
  if n < 24 then (1 + n % 6, 2 * (n / 6))
  else if n < 56 then (1 + (n - 32) % 6, 2 * ((n - 32) / 6) + 1)
  else if n = 56 then (0, 3)
  else if n = 57 then (7, 3)
  else (0, 4)

/-- The router link from a router in a direction: 0 to 3 for x + 1, x − 1, y + 1, y − 1. [DEDUCED: log 25] -/
def routerLink (x y dir : Nat) : Nat := 64 + (8 * y + x) * 4 + dir

/-- The links crossed along x, at row y. -/
def linksX (a b y : Nat) : List Nat :=
  if a ≤ b then (List.range (b - a)).map (fun i => routerLink (a + i) y 0) else (List.range (a - b)).map (fun i => routerLink (a - i) y 1)

/-- The links crossed along y, at column x. -/
def linksY (a b x : Nat) : List Nat :=
  if a ≤ b then (List.range (b - a)).map (fun i => routerLink x (a + i) 2) else (List.range (a - b)).map (fun i => routerLink x (a - i) 3)

/-- The route x first (R7). -/
def routeX (p q : Nat × Nat) : List Nat := linksX p.1 q.1 p.2 ++ linksY p.2 q.2 q.1

/-- The fallback route, y first (R40). -/
def routeY (p q : Nat × Nat) : List Nat := linksY p.2 q.2 p.1 ++ linksX p.1 q.1 q.2

/-- The same link from its other end. [DEDUCED: log 25] -/
def otherEnd (n : Nat) : Nat :=
  let r := (n - 64) / 4
  let x := r % 8
  let y := r / 8
  match (n - 64) % 4 with
  | 0 => routerLink (x + 1) y 1
  | 1 => routerLink (x - 1) y 0
  | 2 => routerLink x (y + 1) 3
  | _ => routerLink x (y - 1) 2

/-- The router to which a router's end of a link belongs. -/
def routerAt (n : Nat) : Nat × Nat := if 336 ≤ n then routerOf (n - 336) else ((n - 64) / 4 % 8, (n - 64) / 32)

/-- The far end of a link within the package; none for a span port. -/
def farEnd (n : Nat) : Option Nat :=
  if n < 64 then some (336 + n)
  else if n < 320 then some (otherEnd n)
  else if 336 ≤ n ∧ n < 400 then some (n - 336)
  else none

/-- The link on which a router sends a packet from src to dst, and whether it travels on the fallback route (R7, R40): x first, unless that
route crosses a failed link; then y first, and where that link has failed, along the row back toward the source's column. [DEDUCED: log 62] -/
def nextLink (s : State) (cur : Nat × Nat) (src dst : Nat) (fb : Bool) : Option (Nat × Bool) :=
  let q := routerOf dst
  let good (m : Option Nat) : Option (Nat × Bool) := m.bind (fun m => if s.badRoutes.contains m then none else some (m, true))
  if cur = q then some (336 + dst, fb)
  else if !fb && !((routeX (routerOf src) q).any s.badRoutes.contains) then ((routeX cur q).head?).map (fun m => (m, false))
  else (good (routeY cur q).head?).orElse (fun _ => good (linksX cur.1 (routerOf src).1 cur.2).head?)

/-- The links that a packet crosses between two sockets (R7). -/
def linksCrossed (a b : Nat) : List Nat := if a = b then [] else a :: routeX (routerOf a) (routerOf b) ++ [336 + b]

/-- Both routes between two sockets cross failed links (R40). [DEDUCED: log 62] -/
def State.unreachable (s : State) (a b : Nat) : Bool :=
  let p := routerOf a
  let q := routerOf b
  (routeX p q).any s.badRoutes.contains && (routeY p q).any s.badRoutes.contains

/-! Accessors. -/

/-- Link n. -/
def State.link (s : State) (n : Nat) : Link := Table.at s.links n Link.reset

/-- Link n changed. -/
def State.updLink (s : State) (n : Nat) (f : Link → Link) : State := { s with links := Table.put s.links n (f (s.link n)) }

/-- Span port p. -/
def State.span (s : State) (p : Nat) : Span := s.spans[p]?.getD Span.reset

/-- Span port p changed. -/
def State.updSpan (s : State) (p : Nat) (f : Span → Span) : State := { s with spans := s.spans.setIfInBounds p (f (s.span p)) }

/-- The span port of a link. -/
def spanOf (n : Nat) : Option Nat := if 320 ≤ n ∧ n < 336 then some (n - 320) else none

/-! The header (R28). -/

/-- SEQ. -/
def hdrSeq (h : Nat) : Nat := bits h 11 0
/-- CHAN. -/
def hdrChan (h : Nat) : Nat := bits h 15 12
/-- KIND. -/
def hdrKind (h : Nat) : Nat := bits h 17 16
/-- KSEL. -/
def hdrKsel (h : Nat) : Nat := bits h 18 18
/-- FIDX. -/
def hdrFidx (h : Nat) : Nat := bits h 20 19
/-- FLAST. -/
def hdrFlast (h : Nat) : Nat := bits h 22 21
/-- DST. -/
def hdrDst (h : Nat) : Nat := bits h 28 23
/-- SRC. -/
def hdrSrc (h : Nat) : Nat := bits h 34 29
/-- PART. -/
def hdrPart (h : Nat) : Nat := bits h 39 35
/-- The header without ACK and ACKV. [DEDUCED: log 58] -/
def hdrBare (h : Nat) : Nat := h % 2 ^ 40 + bits h 63 53 * 2 ^ 53

/-- A header from PART, SRC, DST, KIND and CHAN. -/
def hdrOf (part src dst kind chan : Nat) : Nat := part * 2 ^ 35 + src * 2 ^ 29 + dst * 2 ^ 23 + kind * 2 ^ 16 + chan * 2 ^ 12

/-! Flits. -/

/-- The 128 bytes of a flit from its first 112, both codes computed afresh (R29). -/
def flitOf (b : List Byte) : List Byte :=
  let m := b ++ leBytes 4 (crc32c b).toNat
  m ++ (rsParity (m.map BitVec.toNat)).map (BitVec.ofNat 8)

/-- A flit goes out, its header with the present cumulative acknowledgement (R35): a span port's leaves the package; another arrives at the
far end of its link 4 clk later (R25), where noise is an input of its own. [DESIGN CHOICE: log 94] -/
def emit (s : State) (n : Nat) (b : List Byte) : State :=
  let l := s.link n
  let h := hdrBare (sliceNat b 0 8)
  let h := if l.rxBase = 0 then h else h + (l.rxBase - 1) % 4096 * 2 ^ 40 + 2 ^ 52
  let s := if n < 24 then dieEvent s n 4 0 (hdrChan h) 1 else s
  let f := flitOf (leBytes 8 h ++ b.drop 8)
  match farEnd n with
  | some m => s.at_ (s.clk + 4) (.flitReceive m f)
  | none => s.send (.flit n f)

/-- PART, SRC and DST of the control and idle flits of a link's end. -/
def linkHead (s : State) (n kind : Nat) : Nat :=
  match spanOf n with
  | some p => hdrOf (s.span p).part (56 + p / 8) (56 + p / 8) kind 15
  | none => hdrOf 31 (n % 64) (n % 64) kind 15

/-- A link in service: trained, and not retraining (R37). -/
def Link.ready (l : Link) : Bool := l.up && !l.training

/-- The payload of a control flit (R36). -/
def controlPayload (s : State) (n : Nat) : List Byte :=
  let l := s.link n
  let req := (l.nak.take 16).map (fun e => e % 4096 + 2 ^ 15) ++ List.replicate (16 - (l.nak.take 16).length) 0
  let total (c : Nat) : Nat :=
    (Config.linkCredits n c).toNat + ((l.delivered.filter (fun d => d.1 == c)).map (fun d => d.2.length)).sum
  req.flatMap (leBytes 2) ++ (List.range 16).map (fun c => BitVec.ofNat 8 (total c)) ++
    leBytes 2 (match spanOf n with | some p => (s.span p).keyEvent.toNat | none => 0) ++ List.replicate 54 0

/-- A link control flit goes out. -/
def sendControl (s : State) (n : Nat) : State :=
  if (s.link n).ready then emit s n (leBytes 8 (linkHead s n 1) ++ controlPayload s n) else s

/-- An idle flit goes out, which carries the acknowledgement; only while the link is trained (R47). -/
def sendIdle (s : State) (n : Nat) : State :=
  if (s.link n).ready then emit s n (leBytes 8 (linkHead s n 2) ++ List.replicate 104 0) else s

/-! Sealing (R41, R42). -/

/-- Initialisation vector of a counter value under a slot: salt, then counter. [PRESUMED: log 66] -/
def sealIV (salt : Word) (counter : Nat) : List Byte := leBytes 4 salt.toNat ++ leBytes 8 counter

/-- The 112 bytes of a data flit as it is first sent: sealed when a slot is given. -/
def dataFlit (h : Nat) (payload : List Byte) (key : Option (KeySlot × Nat)) : List Byte :=
  match key with
  | some (k, e) => leBytes 8 h ++ gcmSeal k.key (sealIV k.salt (e - k.e0.getD e)) (leBytes 8 h) ((payload ++ List.replicate 88 0).take 88)
  | none => leBytes 8 h ++ (payload ++ List.replicate 104 0).take 104

/-- Slot i of a direction. -/
def slotAt (v : Vector KeySlot 2) (i : Nat) : KeySlot := v[i]?.getD KeySlot.reset

/-- The current transmit slot, when it is live. -/
def Span.sealing (x : Span) : Option KeySlot := let k := slotAt x.tx x.cur; if k.state = .live then some k else none

/-! Partition shares of links (R78, R79). -/

/-- Flit times of one unit of a period: 15,000, less in proportion for each retired module (R38, R78). -/
def Link.unit (l : Link) : Nat := 15000 * (48 - l.retired.length) / 48

/-- Flits of a partition, or of the background unit, in the period of this clk. -/
def Link.spentNow (l : Link) (clk p : Nat) : Nat := if l.period = clk / 10000 then Table.at l.spent p 0 else 0

/-- A flit charged to the partition that its PART names, or to the background unit (R79). -/
def Link.charge (l : Link) (clk p : Nat) : Link :=
  { l with period := clk / 10000, spent := Table.put (if l.period = clk / 10000 then l.spent else []) p (l.spentNow clk p + 1) }

/-- Floor and ceiling of a partition on a link: from zero to everything but the reserved unit where the service die has set none. -/
def shareOf (s : State) (n p : Nat) : Nat × Nat := (((Table.at s.shares n []).find? (fun e => e.1 == p)).map (·.2)).getD (0, 63)

/-- A packet's class. -/
def Packet.cls (x : Packet) : Nat := hdrChan x.head

/-- A packet's partition. -/
def Packet.part (x : Packet) : Nat := hdrPart x.head

/-- What a request packet may still take of a shared link in this period (R78): its partition stays below its ceiling, and above its floor it
leaves room for the floors of the others that wait. Replies and PART 31 are never held (R79). -/
def shareAllows (s : State) (n : Nat) (x : Packet) : Bool :=
  let l := s.link n
  let used := l.spentNow s.clk
  let k := x.flits.length
  let p := x.part
  let (f, c) := shareOf s n p
  let others := ((l.queue.filter (fun y => !y.reply && y.part != p && y.part != 31)).map Packet.part).dedup
  let owed := (others.map (fun q => (shareOf s n q).1 * l.unit - used q)).sum
  let total := ((List.range 32).map used).sum
  (Table.at s.shares n []).length < 2 || x.reply || p == 31 ||
    (decide (used p + k ≤ c * l.unit) && (decide (used p + k ≤ f * l.unit) || decide (total + owed + k ≤ 64 * l.unit)))

/-! Sending data (R31 to R36, R43, R44). -/

/-- A repeat timeout begins (R35). -/
def armRepeat (s : State) (n e : Nat) : State := s.at_ (s.clk + Config.roundTrip n + 32) (.repeatTimeout n e)

/-- One new data flit with the next sequence number. -/
def sendFlit (s : State) (n : Nat) (h : Nat) (payload : List Byte) (fallback : Bool) : State :=
  let e := (s.link n).txNext
  let slot := (spanOf n).bind (fun p => (s.span p).sealing)
  let ksel := match spanOf n with | some p => (if slot.isSome then (s.span p).cur else 0) | none => 0
  let b := dataFlit (h + ksel * 2 ^ 18 + e % 4096) payload (slot.map (fun k => (k, e)))
  let s := s.updLink n (fun l => { l.charge s.clk (hdrPart h) with
    txNext := e + 1, replay := l.replay ++ [⟨e, b, slot.isSome, 1, s.clk, fallback⟩], sentOf := Table.put l.sentOf (hdrChan h) (Table.at l.sentOf (hdrChan h) 0 + 1) })
  let s := match spanOf n, slot with
    | some p, some k =>
      let s := s.updSpan p (fun x => { x with tx := x.tx.setIfInBounds x.cur { k with used := k.used + 1 } })
      if k.used + 1 = 2 ^ 36 then s.later (.keyUseLimit p) else s
    | _, _ => s
  armRepeat (emit s n b) n e

/-- A packet may go out now, its share apart: replay space, credits of its class unless it is a reply (R33) or on the fallback route, whose
buffers have none of the credits that R36 tells, and a key on a span port. [DEDUCED: log 61] -/
def mayGo (s : State) (n : Nat) (x : Packet) : Bool :=
  let l := s.link n
  let k := x.flits.length
  let credit := x.reply || x.fallback || decide (k ≤ ((l.credits[x.cls]?.getD 0) + 256 - Table.at l.sentOf x.cls 0 % 256) % 256)
  let key := match spanOf n with
    | none => true
    | some p =>
      match (s.span p).sealing with
      | some q => decide (q.used + k ≤ 2 ^ 40)
      | none => x.cls == 9 && x.part == 31
  l.ready && decide (l.replay.length + k ≤ 1024) && credit && key

/-- A packet goes out: consecutive sequence numbers (R31). -/
def sendPacket (s : State) (n : Nat) (x : Packet) : State :=
  let last := x.flits.length - 1
  let s := (x.flits.zipIdx).foldl (fun s f => sendFlit s n (x.head + last * 2 ^ 21 + f.2 * 2 ^ 19) f.1 x.fallback) s
  let s := s.updLink n (fun l => { l with served := x.cls })
  match spanOf n with
  | some p => if x.acc = 0 then s else s.updSpan p (fun y => { y with asked := y.asked ++ [(x.acc, (s.link n).txNext - 1)] })
  | none => s

/-- The packets of a queue that stand first of their class, partition and set of buffers. -/
def queueHeads : List (Packet × Nat) → List (Packet × Nat) → List (Packet × Nat)
  | [], l => l
  | x :: r, l =>
    if l.any (fun y => y.1.cls == x.1.cls && y.1.part == x.1.part && y.1.fallback == x.1.fallback) then queueHeads r l
    else queueHeads r (l ++ [x])

/-- The packet to serve among candidates: classes round-robin from the one served last, and in a class the partition that has gone least
beyond its floor, weighted by floor plus one (R33, R78). [DEDUCED: log 61] -/
def serveNext (s : State) (n : Nat) : List (Packet × Nat) → Option (Packet × Nat)
  | [] => none
  | x :: r =>
    let l := s.link n
    let turn (y : Packet) : Nat := (y.cls + 15 - l.served) % 16
    let past (y : Packet) : Nat := (l.spentNow s.clk y.part - (shareOf s n y.part).1 * l.unit) * 64 / ((shareOf s n y.part).1 + 1)
    match serveNext s n r with
    | none => some x
    | some y => if turn y.1 < turn x.1 ∨ (turn y.1 = turn x.1 ∧ past y.1 < past x.1) then some y else some x

/-- What may go out goes out; a packet that may not holds back those behind it of its class, partition and set of buffers. -/
def pumpGo (n : Nat) : Nat → State → State
  | 0, s => s
  | f + 1, s =>
    let go := (queueHeads ((s.link n).queue.zipIdx) []).filter (fun x => mayGo s n x.1 && shareAllows s n x.1)
    match serveNext s n go with
    | none => s
    | some (x, i) => pumpGo n f (sendPacket (s.updLink n (fun l => { l with queue := l.queue.eraseIdx i })) n x)

/-- The queue of a link is served; what its share holds back waits for the next period, and is counted (R78, R81). -/
def pumpLink (s : State) (n : Nat) : State :=
  let s := pumpGo n ((s.link n).queue.length + 1) s
  let held := (queueHeads ((s.link n).queue.zipIdx) []).filter (fun x => mayGo s n x.1 && !shareAllows s n x.1)
  if held.isEmpty then s
  else
    let s := if n < 24 then held.foldl (fun s x => dieEvent s n 4 4 x.1.cls x.1.flits.length) s else s
    s.atOnce (nextMultiple (s.clk + 1) 10000) .budgetPeriod

/-- A packet is handed to a link. -/
def sendOn (s : State) (n : Nat) (x : Packet) : State := pumpLink (s.updLink n (fun l => { l with queue := l.queue ++ [x] })) n

/-- Bytes cut into pieces of n, at most f of them. -/
def piecesOf (n : Nat) : Nat → List Byte → List (List Byte)
  | 0, _ => []
  | f + 1, l => if l.length ≤ n then [l] else l.take n :: piecesOf n f (l.drop n)

/-- A payload handed to a link as packets of at most 4 flits, of 104 bytes, or 88 on a span port (R31): the IO die segments it anew at the
boundary. -/
def sendBytes (s : State) (n acc head : Nat) (reply : Bool) (l : List Byte) : State :=
  let z := if (spanOf n).isSome then 88 else 104
  (piecesOf (4 * z) (l.length + 1) l).foldl (fun s p => sendOn s n ⟨reply, false, acc, head, piecesOf z 4 p⟩) s

/-- Bytes for a span port leave a socket for the port's IO die, which segments them for the port (R31): each packet begins with the port and the
identity of the request. [DESIGN CHOICE: log 59] -/
def sendToPort (s : State) (src port acc head : Nat) (reply : Bool) (l : List Byte) : State :=
  (piecesOf 408 (l.length + 1) l).foldl (fun s p => sendBytes s src acc head reply (leBytes 1 port ++ leBytes 7 acc ++ p)) s

/-- A request, or a reply, of n bytes leaves a socket for a span port in the name of the port's bound partition (R56). Of its payload the layout
is not given: the model's bytes are free values. [DESIGN CHOICE: log 59] -/
def sendSpan (s : State) (src port acc cls n : Nat) : State :=
  sendToPort { s with free := s.free + n } src port acc (hdrOf (s.span port).part src (56 + port / 8) 0 cls) (cls == 1)
    ((List.range n).map (fun j => Config.freeByte (s.free + j)))

/-- The message by which the service die agrees a key for a port, with the port's binding, leaves on the MGMT class with PART 31 (R43, R46). -/
def sendKeyMessage (s : State) (port : Nat) : State :=
  sendToPort s 60 port 0 (hdrOf 31 60 (56 + port / 8) 0 9) false (Config.keyMessage port (s.span port).part)

/-! Training (R15, R16, R36, R39). -/

/-- Unacknowledged flits as packets again, in their order. -/
def regroup (l : List Replay) : List Packet :=
  l.foldl (fun (a : List Packet) r =>
    let h := sliceNat r.bytes 0 8
    let head := hdrBare h - hdrBare h % 2 ^ 12 - hdrKsel h * 2 ^ 18 - hdrFidx h * 2 ^ 19 - hdrFlast h * 2 ^ 21
    if hdrFidx h = 0 then a ++ [⟨hdrChan h == 1, r.fallback, 0, head, [r.bytes.drop 8]⟩]
    else match a.getLast? with
      | some x => a.dropLast ++ [{ x with flits := x.flits ++ [r.bytes.drop 8] }]
      | none => [⟨hdrChan h == 1, r.fallback, 0, head, [r.bytes.drop 8]⟩]) []

/-- A link's end that leaves service and begins again: its lanes stand, and what it is to send. -/
def Link.renew (l : Link) (queue : List Packet) : Link :=
  { Link.reset with lanes := l.lanes, retired := l.retired, repairing := l.repairing, bad := l.bad, period := l.period, spent := l.spent, queue := queue }

/-- A trained end of a link within the package: the far end has granted its credits. -/
def Link.trained (l : Link) (n : Nat) : Link :=
  { l with up := true, training := false, failed := false, credits := (List.range 16).map (fun c => (Config.linkCredits ((farEnd n).getD n) c).toNat) }

end Sys2Proof.Machine
end

