-- ==== Sys2Proof/Machine/Migrant.lean ====
section
/-! DEFINITION. Migrants: the context of a thread laid out in 128 bytes, its second migrant, and the thread that they give (R159, R161). -/

namespace Sys2Proof.Machine
open Sys2Proof

/-- An index register compressed to 21 bits (R159). -/
def compressIdx (v : Word) : BitVec 21 :=
  v.extractLsb' 26 1 ++ v.extractLsb' 25 1 ++ v.extractLsb' 21 4 ++ v.extractLsb' 14 5 ++ v.extractLsb' 7 5 ++ v.extractLsb' 0 5

/-- The index register that a compressed one gives. -/
def expandIdx (c : BitVec 21) : Word :=
  0#5 ++ c.extractLsb' 20 1 ++ c.extractLsb' 19 1 ++ c.extractLsb' 15 4 ++ 0#2 ++ c.extractLsb' 10 5 ++ 0#2 ++ c.extractLsb' 5 5 ++ 0#2 ++
    c.extractLsb' 0 5

/-- A number whose least significant field of w bits is the first of a list. -/
def joinFields (w : Nat) : List Nat → Nat
  | [] => 0
  | v :: r => v % 2 ^ w + 2 ^ w * joinFields w r

/-- THE MIGRANT of a thread (R159). -/
def migrant (t : Thread) : BitVec 1024 :=
  BitVec.ofNat 1024
    (joinFields 32 ((List.range 24).map (fun k => (t.g[k]?.getD 0).toNat)) + 2 ^ 768 * (t.pc.toNat % 2 ^ 25) + 2 ^ 793 * (t.p.toNat / 2) +
      2 ^ 808 * (t.placeWord.toNat % 2 ^ 21) + 2 ^ 829 * (t.tid % 2 ^ 11 + 2 ^ 11 * (t.grp % 2 ^ 13)) +
      2 ^ 853 * joinFields 21 (t.idx.toList.map (fun v => (compressIdx v).toNat)) + 2 ^ 1022 * (t.role % 4))

/-- Some value of the second migrant is not zero: it is sent (R159). -/
def needsSecond (t : Thread) : Bool :=
  t.inH || t.x.toList.any (· != 0) || t.h.toList.any (· != 0) || t.lhpc != 0 || t.lhen != 0 || t.lhret != 0 || t.pend != 0

/-- THE SECOND MIGRANT of a thread (R159). -/
def secondMigrant (t : Thread) : BitVec 1024 :=
  BitVec.ofNat 1024
    (joinFields 32 ((t.x.toList ++ t.h.toList ++ [t.lhpc, t.lhen, t.lhret, t.lhcause, t.lhdat]).map BitVec.toNat) +
      2 ^ 416 * ((if t.inH then 1 else 0) + 2 * (t.pend.toNat / 2)))

/-- A 32-bit field of a migrant. -/
def migrantWord (m : BitVec 1024) (k : Nat) : Word := m.extractLsb' (32 * k) 32

/-- A thread with the registers, predicates, PC and index registers of a migrant; what its group's descriptor gives stays (R161). -/
def unpackFirst (t : Thread) (m : BitVec 1024) : Thread :=
  { t with
    g := Vector.ofFn (fun k => if k.val < 24 then migrantWord m k.val else 0)
    pc := (m.extractLsb' 768 25).setWidth 32
    p := m.extractLsb' 793 15 ++ t.p.extractLsb' 0 1
    idx := Vector.ofFn (fun k => expandIdx (m.extractLsb' (853 + 21 * k.val) 21))
    tid := (m.extractLsb' 829 11).toNat
    role := (m.extractLsb' 1022 2).toNat }

/-- A thread with the state of a second migrant, all zero where none was sent. The data of pending events travel with it. [DEDUCED: log 93] -/
def unpackSecond (t : Thread) (m : BitVec 1024) : Thread :=
  { t with
    x := Vector.ofFn (fun k => migrantWord m k.val)
    h := Vector.ofFn (fun k => migrantWord m (4 + k.val))
    lhpc := migrantWord m 8
    lhen := migrantWord m 9
    lhret := migrantWord m 10
    lhcause := migrantWord m 11
    lhdat := migrantWord m 12
    inH := m.getLsbD 416
    pend := m.extractLsb' 417 5 ++ 0#1 }

/-- THE CONTEXT THAT ARRIVES of a thread that departs: what its migrants carry (R158, R159). -/
def carry (t : Thread) : Thread :=
  unpackSecond (unpackFirst t (migrant t)) (if needsSecond t then secondMigrant t else 0)

end Sys2Proof.Machine
end

