-- ==== Sys2Proof/Machine/Access.lean ====
section
/-! DEFINITION. Performing accesses: the operations at a home, full/empty waits, the cluster L1, outstanding accesses, and the
shared course of every memory instruction (R144, R147, R148, R200 to R204, R215, R222, R340 to R352). -/

namespace Sys2Proof.Machine
open Sys2Proof

/-! Operations at a home. -/

/-- The registers of a loaded value of n bytes, least first. -/
def replyWords (n : Nat) (v : BitVec 128) : List Word :=
  if n ≤ 4 then [v.setWidth 32]
  else if n = 8 then [v.setWidth 32, v.extractLsb' 32 32]
  else [v.setWidth 32, v.extractLsb' 32 32, v.extractLsb' 64 32, v.extractLsb' 96 32]

/-- A loaded value extended to its registers (R341). -/
def loadValue (n : Nat) (sx : Bool) (v : BitVec 128) : BitVec 128 :=
  if sx then (if n = 1 then (v.setWidth 8).signExtend 128 else (v.setWidth 16).signExtend 128) else v

/-- NEW(old) of R350 at a width, without fadd. -/
def rmwBits {w : Nat} (op : Nat) (old v n : BitVec w) : BitVec w :=
  match op with
  | 0 => old + v
  | 1 => old &&& v
  | 2 => old ||| v
  | 3 => old ^^^ v
  | 4 => if old.slt v then old else v
  | 5 => if old.slt v then v else old
  | 6 => if old.ult v then old else v
  | 7 => if old.ult v then v else old
  | 8 => v
  | _ => if old = v then n else old

/-- NEW(old) of R350: operations 0 to 10, 32-bit or 64-bit. -/
def rmwNew (op : Nat) (wide : Bool) (old v n : DWord) : DWord :=
  if op = 10 then (memFadd (old.setWidth 32) (v.setWidth 32)).setWidth 64
  else if wide then rmwBits op old v n
  else (rmwBits op (old.setWidth 32) (v.setWidth 32) (n.setWidth 32)).setWidth 64

/-- Two byte ranges meet. [DEDUCED: log 36] -/
def meets (a n b m : Nat) : Bool := decide (a < b + m) && decide (b < a + n)

/-- n bytes of memory read. -/
def memLoad (s : State) (k n : Nat) : BitVec 128 × State := (readBytes s.mem k n, s)

/-- n bytes of memory written by an access: an object in use that they touch is left with free values in all its bytes (R357, R369).
[DEDUCED: log 36] -/
def memStore (s : State) (k n : Nat) (v : BitVec 128) : State :=
  let s : State := { s with mem := writeBytes s.mem k n v }
  (s.regions.filter (fun r => r.whole && meets k n r.key r.len)).foldl (fun s r =>
    { s with mem := writeList s.mem r.key ((List.range r.len).map (fun i => Config.freeByte (s.free + i))), free := s.free + r.len }) s

/-- The memory of an object in use begins or ends. -/
def State.setRegion (s : State) (key len : Nat) (whole on : Bool) : State :=
  let rest := s.regions.filter (fun r => r != ⟨key, len, whole, (0, 0)⟩)
  { s with regions := if on then rest ++ [⟨key, len, whole, (0, 0)⟩] else rest }

/-- n bytes read at a key: memory, die control space, or an IO die's or the service die's own range. -/
def homeRead (s : State) (k n : Nat) : BitVec 128 × State :=
  if isCtl k then (ctlReadBytes s (socketOf k) (k % 2 ^ 46 - ctlBase) n, s)
  else if k < 2 ^ 52 ∧ 56 ≤ socketOf k then ioRead s (socketOf k) (k % 2 ^ 46) n
  else memLoad s k n

/-- n bytes written at a key. -/
def homeWrite (s : State) (k n : Nat) (v : BitVec 128) (writer : Option Nat) : State :=
  if isCtl k then ctlWriteBytes s (socketOf k) (k % 2 ^ 46 - ctlBase) n writer.isSome v
  else if k < 2 ^ 52 ∧ 56 ≤ socketOf k then ioWrite s (socketOf k) (k % 2 ^ 46) n v writer
  else memStore s k n v

/-- A full/empty operation may proceed in this state of its word's bit (R343). -/
def feReady (op : Nat) (full : Bool) : Bool :=
  match op with
  | 0 => full
  | 1 => full
  | 2 => !full
  | _ => true

/-- A full/empty operation that may proceed, at its home (R343): the state and the register result. -/
def feDo (s : State) (k op : Nat) (v : Word) : State × List Word :=
  let (v128, s) := memLoad s k 4
  let old : Word := v128.setWidth 32
  match op with
  | 0 => (s, [old])
  | 1 => ({ s with full := setFull s.full k false }, [old])
  | 4 => ({ s with full := setFull s.full k false }, [])
  | 5 => (s, [if isFull s.full k then 1 else 0])
  | _ => ({ memStore s k 4 (v.setWidth 128) with full := setFull s.full k true }, [])

/-- An access performed at its home: the state and its reply. -/
def homeDo (s : State) (k : Nat) (op : AccOp) (writer : Option Nat) : State × List Word :=
  match op with
  | .load n sx => let (v, s) := homeRead s k n; (s, replyWords n (loadValue n sx v))
  | .store n d => (homeWrite s k n d writer, [])
  | .fe o v => feDo s k o v
  | .rmw o wide v n ret =>
    let z := if wide then 8 else 4
    let (old, s) := homeRead s k z
    let s := homeWrite s k z ((rmwNew o wide (old.setWidth 64) v n).setWidth 128) writer
    (s, if ret then replyWords z old else [])
  | .rmwPair o hi v n ret =>
    let (lo, s) := homeRead s k 4
    let (up, s) := homeRead s hi 4
    let old : DWord := up.setWidth 32 ++ lo.setWidth 32
    let new := rmwNew o true old v n
    let s := homeWrite (homeWrite s k 4 ((new.setWidth 32).setWidth 128) writer) hi 4 ((new.extractLsb' 32 32).setWidth 128) writer
    (s, if ret then replyWords 8 (old.setWidth 128) else [])
  | .ldm ks =>
    ks.foldl (fun (acc : State × List Word) k =>
      let (v, s) := homeRead acc.1 k 4
      (s, acc.2 ++ [v.setWidth 32])) (s, [])
  | .stm ws => (ws.foldl (fun s w => homeWrite s w.1 4 (w.2.setWidth 128) writer) s, [])
  | .prefetch => (s, [])

/-! The keys of an access. -/

/-- The byte ranges of an access at a key. -/
def AccOp.ranges (op : AccOp) (k : Nat) : List (Nat × Nat) :=
  match op with
  | .ldm ks => ks.map (fun x => (x, 4))
  | .stm ws => ws.map (fun w => (w.1, 4))
  | .rmwPair _ hi _ _ _ => [(k, 4), (hi, 4)]
  | op => [(k, max 1 op.size)]

/-- The keys of an access. -/
def AccOp.keys (op : AccOp) (k : Nat) : List Nat := (op.ranges k).map Prod.fst

/-- The keys of an outstanding access. -/
def Flight.keys (f : Flight) : List Nat := match f.op.keys f.pa with | [] => [f.pa] | l => l

/-- A key outside the package. -/
def isOutside (k : Nat) : Bool := isPeer k || isSpan k

/-! The cluster L1 (R198, R202, R204, R215, R216, R221). -/

/-- Cluster number of a core. -/
def clusterOf (c : Nat) : Nat := c / 64

/-- The byte mask of n bytes from byte i of a line. -/
def lineMask (i n : Nat) : BitVec 128 := (BitVec.allOnes 128 >>> (128 - n)) <<< i

/-- The bit mask of a byte mask: bytes of a line that are set. -/
def spreadMask (m : BitVec 128) : BitVec 1024 :=
  (List.range 128).foldl (fun acc i => if m.getLsbD i then acc ||| (0xFF#1024 <<< (8 * i)) else acc) 0

/-- The 128 bytes of memory at a line's address. -/
def memLine (m : Memory) (pa : Nat) : BitVec 1024 := BitVec.ofNat 1024 (leNat (readList m pa 128))

/-- The line at an address of a cluster's L1, an empty one where none is held. -/
def l1Line (s : State) (cl pa part : Nat) : L1Line :=
  ((Table.at s.l1 cl []).find? (fun l => l.pa == pa)).getD ⟨pa, 0, 0, 0, part⟩

/-- The bytes of a line that a mask names are written at their home slice. -/
def writeBackBytes (s : State) (l : L1Line) (m : BitVec 128) : State :=
  if m = 0 then s
  else (List.range 128).foldl (fun s i =>
    if m.getLsbD i then memStore s (l.pa + i) 1 ((l.bytes.extractLsb' (8 * i) 8).setWidth 128) else s) (l2Touch s l.pa 0)

/-- The least recently used line leaves an L1 that holds more than 2 MiB, its dirty bytes written back (R202). [DESIGN CHOICE: log 17] -/
def l1Evict (s : State) (cl : Nat) : State :=
  let ls := Table.at s.l1 cl []
  match ls.drop 16384 with
  | [] => s
  | l :: _ => writeBackBytes { s with l1 := Table.put s.l1 cl (ls.take 16384) } l l.dirty

/-- The line put back as the most recently used; a line without a valid byte is dropped. -/
def l1Put (s : State) (cl : Nat) (l : L1Line) : State :=
  let rest := (Table.at s.l1 cl []).filter (fun x => x.pa != l.pa)
  l1Evict { s with l1 := Table.put s.l1 cl (if l.valid = 0 then rest else l :: rest) } cl

/-- Every byte of a line valid: bytes not valid are filled from the home, dirty bytes stay (R202, R216). [DESIGN CHOICE: log 17] -/
def l1Fill (m : Memory) (l : L1Line) : L1Line :=
  let keep := spreadMask l.valid
  { l with bytes := (l.bytes &&& keep) ||| (memLine m l.pa &&& ~~~keep), valid := BitVec.allOnes 128 }

/-- A line's dirty bytes written to the home, which leaves them clean. -/
def l1WriteBack (s : State) (cl : Nat) (l : L1Line) : State := l1Put (writeBackBytes s l l.dirty) cl { l with dirty := 0 }

/-- The L1 of a cluster holds n bytes at a key. -/
def l1Holds (s : State) (cl k n : Nat) : Bool :=
  (l1Line s cl (k / 128 * 128) 0).valid &&& lineMask (k % 128) n == lineMask (k % 128) n

/-- The line of a key filled from its home slice, a miss of the cluster (R81). -/
def l1Miss (s : State) (cl part k : Nat) (pte : DWord) : State :=
  let s := l2Touch (clusterEvent s (cl * 64) 1 2 1) k pte
  l1Put s cl (l1Fill s.mem (l1Line s cl (k / 128 * 128) part))

/-- n bytes at a key read through the L1. -/
def l1Read (s : State) (cl part k n : Nat) (pte : DWord) : BitVec 128 × State :=
  let s := if l1Holds s cl k n then s else l1Miss s cl part k pte
  let l := l1Line s cl (k / 128 * 128) part
  (((l.bytes >>> (8 * (k % 128))).setWidth 128) &&& (BitVec.allOnes 128 >>> (128 - 8 * n)), l1Put s cl l)

/-- n bytes at a key written through the L1: held dirty under write-back, else written to the home and to the line if it is
present (R204). -/
def l1Write (s : State) (cl part k n : Nat) (back : Bool) (pte : DWord) (v : BitVec 128) : State :=
  let l := l1Line s cl (k / 128 * 128) part
  let m := lineMask (k % 128) n
  let sm := spreadMask m
  let bytes := (l.bytes &&& ~~~sm) ||| ((v.setWidth 1024 <<< (8 * (k % 128))) &&& sm)
  if back then l1Put s cl { l with bytes := bytes, valid := l.valid ||| m, dirty := l.dirty ||| m }
  else
    let s := memStore (l2Touch s k pte) k n v
    if l.valid = 0 then s else l1Put s cl { l with bytes := bytes, valid := l.valid ||| m }

/-- Dirty bytes of a location written back and its clean bytes dropped, before an atomic (R352). -/
def l1Flush (s : State) (cl part k n : Nat) : State :=
  let l := l1Line s cl (k / 128 * 128) part
  let m := lineMask (k % 128) n
  l1Put (writeBackBytes s l (l.dirty &&& m)) cl { l with valid := l.valid &&& ~~~m, dirty := l.dirty &&& ~~~m }

/-- The release part of R221: every dirty byte of the cluster L1 that belongs to the partition is written back. -/
def l1Release (s : State) (cl part : Nat) : State :=
  ((Table.at s.l1 cl []).filter (fun l => l.part == part && l.dirty != 0)).foldl (fun s l => l1WriteBack s cl l) s

/-- The acquire part of R221: every clean byte of the cluster L1 that belongs to the partition is invalidated. -/
def l1Acquire (s : State) (cl part : Nat) : State :=
  { s with l1 := Table.put s.l1 cl ((Table.at s.l1 cl []).filterMap (fun l =>
      if l.part == part then (if l.dirty = 0 then none else some { l with valid := l.dirty }) else some l)) }

/-- Bytes of an L1 line that lie in a thread's private data (R198). -/
def privMask (t : Thread) (l : L1Line) : BitVec 128 :=
  let w := t.privSize / 4
  (List.range 128).foldl (fun m i =>
    let o := l.pa + i - t.privBase
    if t.privBase ≤ l.pa + i && decide (w != 0) && o / 256 / w == t.tid / 64 && decide (o / 256 / w * w ≤ o / 256) && o % 256 / 4 == t.tid % 64 then
      m ||| (1#128 <<< i) else m) 0

/-- A thread's private bytes in its cluster's L1 written back, or not, and dropped. -/
def dropPrivate (s : State) (t : Thread) (back : Bool) : State :=
  if t.privSize = 0 then s
  else
    (Table.at s.l1 (clusterOf t.core) []).foldl (fun s l =>
      let m := privMask t l
      if l.valid &&& m = 0 then s
      else
        l1Put (if back then writeBackBytes s l (l.dirty &&& m) else s) (clusterOf t.core)
          { l with valid := l.valid &&& ~~~m, dirty := l.dirty &&& ~~~m }) s

/-- The thread's group has a swarm role (R221). -/
def groupSwarm (s : State) (t : Thread) : Bool := ((s.group? t.grp).map (·.swarm)).getD false

/-- A wave thread's operation at this scope acts on its cluster's L1 (R221). -/
def scopeL1 (s : State) (t : Thread) (scope : BitVec 3) : Bool := t.isWave && (scope != 0 || groupSwarm s t)

/-- The ordering has a release part: rel, ar, sc. -/
def isRelease (o : BitVec 3) : Bool := o == 2 || o == 3 || o == 4

/-- The ordering has an acquire part: acq, ar, sc. -/
def isAcquire (o : BitVec 3) : Bool := o == 1 || o == 3 || o == 4

/-- The L1 action of a release: the accesses that it performs are accesses of its thread (R227). -/
def releaseL1 (s : State) (t : Thread) (scope : BitVec 3) : State :=
  if scopeL1 s t scope then
    let s := l1Release s (clusterOf t.core) t.part
    s.updThread t.uid (fun t => { t with performedAt := max t.performedAt s.clk })
  else s

/-- The L1 action of an acquire. [DEDUCED: log 73] -/
def acquireL1 (s : State) (t : Thread) (scope : BitVec 3) : State :=
  if scopeL1 s t scope then l1Acquire s (clusterOf t.core) t.part else s

/-! The end of waits. -/

/-- A waiting thread's instruction completes: its registers, index registers and PC, ready at a clk. -/
def Thread.complete (t : Thread) (ws : List Word) (at_ : Nat) : Thread :=
  let t := advances (t.wrs t.fin.dst ws) t.fin.adv
  { t with pc := t.pc + BitVec.ofNat 32 t.fin.len, run := .ready, readyAt := at_, carried := [] }

/-- The outstanding access with this identity changed. -/
def State.mapFlight (s : State) (id : Nat) (h : Flight → Flight) : State :=
  { s with flights := s.flights.map (fun g => if g.id == id then h g else g) }

/-- The outstanding access with this identity gone. -/
def State.dropFlight (s : State) (id : Nat) : State :=
  { s with flights := s.flights.filter (fun g => g.id != id) }

/-- Threads that wait for their own outstanding accesses, or for room among them, try again (R144, R165). -/
def pokeOwner (s : State) (uid : Nat) : State :=
  s.updThread uid (fun t =>
    match t.run with
    | .waiting .drain => t.again s.clk
    | .waiting .slots => t.again s.clk
    | _ => t)

/-- What is left of a latency once an access has been performed at its home: all of it for one that was parked there (R147), else its second
half (R340). -/
def Flight.rest (f : Flight) : Nat := if f.phase == .parked then f.lat else f.lat - f.lat / 2

/-- Two lists of byte ranges meet. -/
def rangesMeet (xs ys : List (Nat × Nat)) : Bool := xs.any (fun x => ys.any (fun y => meets x.1 x.2 y.1 y.2))

/-- Later accesses of its thread that have reached the home of an access and stand behind it, since they touch its bytes (R216), go on. -/
def wakeYounger (s : State) (f : Flight) : State :=
  (s.flights.filter (fun g => g.owner == f.owner && decide (f.id < g.id) && g.phase == .sent && rangesMeet (g.op.ranges g.pa) (f.op.ranges f.pa) &&
    !s.timers.any (fun x => x.2 == .homeAccess g.id))).foldl (fun s g => s.later (.homeAccess g.id)) s

/-- An outstanding access has been performed with this reply (R144, R147): an acquire takes effect (R221); a thread that stands at it
completes when the reply arrives, or its pending registers are written then; one without a reply is over. -/
def flightDone (s : State) (f : Flight) (reply : List Word) : State :=
  let s := wakeYounger s f
  let s := if f.acq then (match s.thread? f.owner with
    | some t => l1Acquire s (clusterOf t.core) t.part
    | none => s) else s
  let s := s.updThread f.owner (fun t => { t with performedAt := s.clk })
  if f.blocks then
    pokeOwner ((s.dropFlight f.id).updThread f.owner (fun t =>
      if t.run == .waiting (.access f.id) || t.run == .waiting (.fe f.id) then t.complete reply (s.clk + f.rest) else t)) f.owner
  else if f.nreg = 0 then
    pokeOwner (s.dropFlight f.id) f.owner
  else
    let s := s.mapFlight f.id (fun g => { g with phase := .done reply })
    pokeOwner (s.at_ (s.clk + f.rest) (.memoryReply f.id)) f.owner

/-! Full/empty waits (R147, R148). -/

/-- The home of a banked word: its core, or the die of a cistern word. -/
def feHome (k : Nat) : Nat := (keyCore k).getD (2 ^ 30 + socketOf k)

/-- The parked accesses that hold an entry of their home's table, in the order in which they parked: the first 256 of each
home; later ones hold tickets. -/
def feEntries (s : State) (home : Nat) : List (Nat × Nat) := (s.feWaits.filter (fun e => feHome e.2 == home)).take 256

/-- A parked access by its identity. -/
def State.flight? (s : State) (id : Nat) : Option Flight := s.flights.find? (fun f => f.id == id)

/-- The oldest parked access with an entry on word k that can succeed now. -/
def feNext (s : State) (k : Nat) : Option Flight :=
  ((feEntries s (feHome k)).filter (fun e => e.2 == k)).findSome? (fun e =>
    (s.flight? e.1).bind (fun f =>
      match f.op with
      | .fe op _ => if feReady op (isFull s.full k) then some f else none
      | _ => none))

/-- THE PASS (R343): parked accesses on the words ks are retried, the oldest first, until none can succeed; an entry that frees
admits the next ticket, whose word is then tried too. [DEDUCED: log 34] -/
def fePass : Nat → State → List Nat → State
  | 0, s, _ => s
  | _, s, [] => s
  | n + 1, s, k :: ks =>
    match feNext s k with
    | none => fePass n s ks
    | some f =>
      let home := feHome k
      let s := { s with feWaits := s.feWaits.filter (fun e => e.1 != f.id) }
      let admitted := ((feEntries s home)[255]?).toList.map (·.2)
      let (s, reply) := homeDo s k f.op none
      fePass n (flightDone s f reply) (k :: ks ++ admitted)

/-- The pass after a change of state of words ks, with steps for every parked access. [DEDUCED: log 34] -/
def feChange (s : State) (ks : List Nat) : State := fePass (3 * s.feWaits.length + ks.length + 1) s ks

/-- An access parks at its home: an entry, or a ticket from the home's counter when the table is full. -/
def fePark (s : State) (f : Flight) : State :=
  let home := feHome f.pa
  let full := decide (256 ≤ (s.feWaits.filter (fun e => feHome e.2 == home)).length)
  let s := if full then { s with feTickets := Table.put s.feTickets home (Table.at s.feTickets home 0 + 1) } else s
  { s.mapFlight f.id (fun g => { g with phase := .parked }) with feWaits := s.feWaits ++ [(f.id, f.pa)] }

/-- The state of a full/empty bit changes by this operation. -/
def feChanges (op : Nat) (full : Bool) : Bool :=
  match op with
  | 1 => true
  | 2 => true
  | 3 => !full
  | 4 => full
  | _ => false

/-- An access performed at its home, with the pass that a change of state starts. [DEDUCED: log 16] -/
def perform (s : State) (k : Nat) (op : AccOp) (writer : Option Nat) : State × List Word :=
  let change := match op with
    | .fe o _ => feChanges o (isFull s.full k)
    | _ => false
  let (s, r) := homeDo s k op writer
  (if change then feChange s [k] else s, r)

/-- An access must wait at its home for its word's state. -/
def mustWait (s : State) (k : Nat) (op : AccOp) : Bool :=
  match op with
  | .fe o _ => !feReady o (isFull s.full k)
  | _ => false

/-- An access of a page performed at its homes, whose slices it passes (R203, R204). -/
def performAt (s : State) (k : Nat) (op : AccOp) (pte : DWord) (writer : Option Nat) : State × List Word :=
  perform ((op.keys k).foldl (fun s a => l2Touch s a pte) s) k op writer

/-! Accesses of wave threads (R202, R215, R235). -/

/-- A wave access that uses the L1 (R202, R215): the private window, and global pages of cache level 0 in a stack. -/
def usesL1 (l : Loc) : Bool := l.win == 4 || (l.win == 0 && isStack l.key && bits l.pte.toNat 6 5 == 0)

/-- Stores to this location stay dirty in the L1 (R198, R204). -/
def writesBack (l : Loc) : Bool := l.win == 4 || l.pte.getLsbD 7

/-- The whole of a load or store of a wave thread is performed at its cluster's L1: a hit, or a store that stays dirty (R215). -/
def l1Serves (s : State) (t : Thread) (l : Loc) (op : AccOp) : Bool :=
  t.isWave && usesL1 l &&
    (match op with
    | .load n _ => l1Holds s (clusterOf t.core) l.key n
    | .ldm ks => ks.all (fun k => l1Holds s (clusterOf t.core) k 4)
    | .store _ _ => writesBack l
    | .stm _ => writesBack l
    | _ => false)

/-- The matrix team to which a thread belongs: group, and role × 64 + team number. -/
def Thread.team (t : Thread) : Nat × Nat := (t.grp, t.role * 64 + t.tid / 256)

/-- Byte k belongs to the B bytes of an uncompleted matrix instruction of the team (R235). -/
def heldByte (s : State) (team : Nat × Nat) (k : Nat) : Bool :=
  s.regions.any (fun r => !r.whole && r.team == team && meets k 1 r.key r.len)

/-- The low n bytes of a value from key k with the bytes that the team's instructions hold replaced by free bytes. -/
def freeBytes (s : State) (team : Nat × Nat) (k : Nat) : Nat → BitVec 128 → BitVec 128
  | 0, v => v
  | n + 1, v =>
    let v := freeBytes s team k n v
    if heldByte s team (k + n) then
      (v &&& ~~~(0xFF#128 <<< (8 * n))) ||| ((Config.freeByte (s.free + n)).setWidth 128 <<< (8 * n))
    else v

/-- The held bytes of n from key k that a thread of the team has written are left with free values. -/
def freeHeld (s : State) (team : Nat × Nat) (k n : Nat) : State :=
  { s with mem := writeBytes s.mem k n (freeBytes s team k n (readBytes s.mem k n)), free := s.free + n }

/-- What a thread of a team reads and leaves when it touches the B bytes of an uncompleted instruction of its team (R235): s as it stood
before the access, r the access as it was performed. -/
def teamTouch (s : State) (t : Thread) (k : Nat) (op : AccOp) (r : State × List Word) : State × List Word :=
  let held (x : Nat × Nat) : Bool := (List.range x.2).any (fun i => heldByte s t.team (x.1 + i))
  let xs := (op.ranges k).filter held
  if !t.isWave || xs.isEmpty then r
  else
    let reply := match op with
      | .load n sx => replyWords n (loadValue n sx (freeBytes s t.team k n (readBytes s.mem k n)))
      | .ldm ks => ks.map (fun a => (freeBytes s t.team a 4 (readBytes s.mem a 4)).setWidth 32)
      | _ => (r.2.zipIdx).map (fun x => Config.freeWord (s.free + x.2))
    let s' : State := { r.1 with free := r.1.free + 128 }
    (if op.kind = 1 then s' else xs.foldl (fun s x => freeHeld s t.team x.1 x.2) s', reply)

/-- The bytes of a read-modify-write of a wave thread leave its cluster's L1 before it is sent (R352). -/
def rmwFlush (s : State) (t : Thread) (l : Loc) (op : AccOp) : State :=
  match op with
  | .rmw _ _ _ _ _ | .rmwPair _ _ _ _ _ =>
    if t.isWave && usesL1 l then (op.ranges l.key).foldl (fun s x => l1Flush s (clusterOf t.core) t.part x.1 x.2) s else s
  | _ => s

/-- One load or store of n bytes at a location through the L1. -/
def l1Access (s : State) (t : Thread) (l : Loc) (op : AccOp) : State × List Word :=
  let cl := clusterOf t.core
  match op with
  | .load n sx => let (v, s) := l1Read s cl t.part l.key n l.pte; (s, replyWords n (loadValue n sx v))
  | .store n d => (l1Write s cl t.part l.key n (writesBack l) l.pte d, [])
  | .ldm ks => ks.foldl (fun (x : State × List Word) k =>
      let (v, s) := l1Read x.1 cl t.part k 4 l.pte
      (s, x.2 ++ [v.setWidth 32])) (s, [])
  | .stm ws => (ws.foldl (fun s w => l1Write s cl t.part w.1 4 (writesBack l) l.pte (w.2.setWidth 128)) s, [])
  | op => performAt s l.key op l.pte (some t.part)

/-- A load or store of a wave thread through its cluster's L1 where R215 uses it, else at the home. [DEDUCED: log 16] -/
def wavePerform (s : State) (t : Thread) (l : Loc) (op : AccOp) : State × List Word :=
  teamTouch s t l.key op (if usesL1 l then l1Access s t l op else performAt s l.key op l.pte (some t.part))

/-! Migration (R157 to R160). -/

/-- A context that can be packed (R160), with the PC given. -/
def Thread.packable (t : Thread) (pc : Word) : Bool :=
  decide (t.count ≤ 24) && decide (pc.toNat < 2 ^ 25) &&
    t.idx.toList.all (fun v => bits v.toNat 31 27 == 0 && decide (bits v.toNat 6 0 ≤ 31) &&
      decide (bits v.toNat 13 7 ≤ 31) && decide (bits v.toNat 20 14 ≤ 31))

/-- Threads of a cluster that wait for a position or slot try again (R168). -/
def pokeEngine (s : State) (cl : Nat) : State :=
  s.mapThreads (fun t => if t.live && t.core / 64 == cl && t.run == .waiting .engine then t.again s.clk else t)

/-- A slot of a core has become free: waiting migrants, and threads that wait to leave an engine of its cluster, take it (R163, R168). -/
def slotFreed (s : State) (c : Nat) : State :=
  pokeEngine (if (s.core c).landing.isEmpty then s else s.later (.landingSlotTake c)) (c / 64)

/-- DEPARTURE (R158): the issuing thread's context leaves for a core, packed as R159 gives, with the locations of its access as they were
translated here (R209); its slot and registers are free, and the migrant arrives 16 clk later, 60 more for a die crossing. -/
def depart (s : State) (t : Thread) (dest : Nat) (ls : List Loc) : State :=
  let c := t.core
  let s := s.put { carry t with place := .transit dest, origin := c, run := .ready, rx := false, guest := true,
                                carried := ls.map (fun l => (l.key, l.win, l.pte)) }
  let s := slotFreed (clusterEvent (coreEvent s c 5 1) c 5 0 1) c
  s.at_ (s.clk + 16 + crossing (coreDie c) (coreDie dest) / 2) (.migrantArrival t.uid)

/-- The context that a spawn sends: the spawner's g0 to g23, predicates and index registers, at a PC; the rest zero. -/
def contextOf (t : Thread) (uid c : Nat) (pc : Word) : Thread :=
  { Thread.reset with
    uid := uid, run := .ready, place := .transit c
    g := Vector.ofFn (fun k => if k.val < 24 then t.g[k]?.getD 0 else 0)
    p := t.p, idx := t.idx, pc := pc, count := t.count, version := t.version, compat := t.compat, fxen := t.fxen
    reach := t.reach, prio := t.prio, codeVA := t.codeVA, bound := t.bound, tkey := t.tkey, privSize := t.privSize
    privBase := t.privBase, part := t.part, grp := t.grp, gang := t.gang, role := t.role, tid := t.tid
    gangIdx := t.gangIdx, gidx := t.gidx, args := t.args, stream := t.stream, slot := t.slot, runNo := t.runNo
    ofRecord := t.ofRecord, dslo := t.dslo, dshi := t.dshi, basin := t.basin, homeCore := t.homeCore, guest := true
    spawner := some t.uid }

/-- A spawned context leaves for a core (R165, R366). -/
def sendContext (s : State) (t u : Thread) (c : Nat) : State :=
  ({ s with nextId := s.nextId + 1, threads := s.threads ++ [{ u with uid := s.nextId, origin := t.core }] } : State).at_
    (s.clk + 16 + crossing t.die (coreDie c) / 2) (.migrantArrival s.nextId)

/-! Outstanding accesses of a thread. -/

/-- Not performed yet; a prefetch is no outstanding access (R340). -/
def Flight.undone (f : Flight) : Bool := f.op != .prefetch && (match f.phase with | .done _ => false | _ => true)

/-- Outstanding accesses of a thread that have not been performed, its spawned stores included (R340). -/
def State.undone (s : State) (uid : Nat) : Bool :=
  s.flights.any (fun f => f.owner == uid && f.undone) || s.anyThread (fun t => t.spawner == some uid && t.update.isSome)

/-- Any outstanding access of a thread, replies not yet arrived included. -/
def State.outstanding (s : State) (uid : Nat) : Bool := s.flights.any (fun f => f.owner == uid)

/-- An outstanding access of the thread that waits somewhere, or a spawned store of it, touches these bytes: a later access to them must
follow it (R216). One on the way to its home is followed there by a later one, but for a wave thread, whose accesses are performed at their
issue. -/
def State.heldAt (s : State) (t : Thread) (xs : List (Nat × Nat)) : Bool :=
  s.flights.any (fun f => f.owner == t.uid && f.undone && (t.isWave || f.phase != .sent) && rangesMeet (f.op.ranges f.pa) xs) ||
    s.anyThread (fun u => u.spawner == some t.uid && (match u.update with | some (k, op) => rangesMeet (op.ranges k) xs | none => false))

/-- Registers of a thread that await a result: those that an outstanding access brings (R144), those of earlier instructions on a wave engine,
and those of its latest one there (R146, R186). -/
def awaited (s : State) (t : Thread) : List (Nat × Nat) :=
  ((s.flights.filter (fun f => f.owner == t.uid && f.nreg != 0 && !f.blocks)).map (fun f => (f.dst, f.nreg))) ++
    ((t.marks.filter (fun m => match m.flight with
      | some id => s.flights.any (fun f => f.id == id)
      | none => decide (s.clk < m.till))).map (fun m => (m.first, m.count))) ++
    (if s.clk < t.readyAt then t.cur.getD [] else [])

/-- One of n registers from this one awaits a result. -/
def awaits (s : State) (t : Thread) (first n : Nat) : Bool := (awaited s t).any (fun r => meets first n r.1 r.2)

/-! The course of a memory instruction. -/

/-- An access instruction as its meaning hands it over. -/
structure Acc where
  /-- Address. -/
  addr : DWord
  /-- Access size for the alignment check. -/
  size : Nat
  /-- Access kind of R416. -/
  kind : Nat
  /-- Rights. -/
  need : Need
  /-- Full/empty instruction. -/
  fe : Bool
  /-- Operation. -/
  op : AccOp
  /-- First destination register. -/
  dst : Nat
  /-- Destination registers. -/
  nreg : Nat
  /-- Index registers to advance. -/
  adv : List Nat
  /-- Parcels, without the prefix. -/
  len : Nat
  /-- Migrates when the destination is another core. -/
  go : Bool
  /-- Travels as a spawned update context. -/
  spawn : Bool
  /-- Basin mode. -/
  mode : Nat
  /-- Scope of an acquiring operation. -/
  acq : Option (BitVec 3)
  deriving DecidableEq, Repr

/-- The operation at a location: 8 and 16 bytes of the private window lie word by word, each 256 bytes on (R198). -/
def placedOp (l : Loc) (op : AccOp) : AccOp :=
  if l.win ≠ 4 then op
  else match op with
    | .load n _ => if n ≤ 4 then op else .ldm ((List.range (n / 4)).map (fun j => l.key + 256 * j))
    | .store n d => if n ≤ 4 then op else .stm ((List.range (n / 4)).map (fun j => (l.key + 256 * j, d.extractLsb' (32 * j) 32)))
    | .rmw o true v n ret => .rmwPair o (l.key + 256) v n ret
    | op => op

/-- A new outstanding access of the issuing thread, with the latency given. [DEDUCED: log 15] -/
def addFlight (s : State) (a : Acc) (l : Loc) (lat : Nat) (blocks spawned : Bool) (phase : AccPhase) : State × Nat :=
  let id := s.nextId
  let acq := match a.acq with | some z => scopeL1 s s.th z | none => false
  ({ s with nextId := s.nextId + 1,
            flights := s.flights ++ [⟨id, s.th.uid, l.key, a.op, a.dst, a.nreg, blocks, spawned, s.th.isWave && usesL1 l, l.pte, lat, acq, phase⟩] }, id)

/-- The issuing thread's instruction completes with these register values after an interval. -/
def accessEnd (s : State) (a : Acc) (reply : List Word) (interval : Nat) : State :=
  s.put ((advances (s.th.wrs a.dst reply) a.adv).done s.clk a.len interval)

/-- The socket at which a key is performed: a stack's keys at its die. -/
def homeSocket (k : Nat) : Nat := (keyDie k).getD (socketOf k)

/-- The home die of a key is held in reset, or cannot be reached from a socket (R15, R40). [DEDUCED: log 22, 62] -/
def homeHeld (s : State) (src k : Nat) : Bool :=
  (match keyDie k with
  | some d => (s.die d).inReset
  | none => false) || s.unreachable src (homeSocket k)

/-- A PCI Express port. -/
def State.port (s : State) (k : Nat) : Port := s.ports[k]?.getD ⟨false, false, [], [], false⟩

/-- Traffic other than DOE passes a port: its link is up and, where it must be, an IDE stream is active (R48, R50). -/
def State.portOpen (s : State) (k : Nat) : Bool := (s.port k).up && (s.port k).open_

/-- The request by which an access acts on a key outside the package. -/
def AccOp.request (op : AccOp) : SpanOp :=
  match op with
  | .store n d => .write (leBytes n d.toNat)
  | .stm ws => .write (ws.flatMap (fun w => leBytes 4 w.2.toNat))
  | .rmw o w v n _ => .rmw o w v n
  | .rmwPair o _ v n _ => .rmw o true v n
  | op => .read op.size

/-- A REQUEST LEAVES THE PACKAGE from a socket for a key through its IO die, with an identity (R55, R56): through a peer aperture writes are posted, and
reads and read-modify-writes wait for a completion of at most 50 ms, with the attributes of the table entry; through a span aperture every
request is answered. A port that takes no traffic discards a write, and ends a read in an error (R50). Answers whether a completion comes.
[DESIGN CHOICE: log 59, 92] -/
def sendOutside (s : State) (src id k : Nat) (r : SpanOp) : State × Bool :=
  let io := socketOf k - 56
  let o := k % 2 ^ 46
  if isPeer k then
    let e := (s.apert[io * 32 + o / 2 ^ 40]?).getD 0
    let port := io * 2 + (if e.getLsbD 8 then 1 else 0)
    let addr : DWord := e.extractLsb' 64 64 + BitVec.ofNat 64 (o % 2 ^ 40)
    let ns := e.getLsbD 3
    let wait (s : State) : State := s.at_ (s.clk + 50000000) (.peerReadTimeout id)
    match r with
    | .write l => (if s.portOpen port then s.send (.posted port addr l ns) else s, false)
    | .read n => (if s.portOpen port then wait (s.send (.readReq id port addr n ns (e.getLsbD 2))) else s.later (.peerReadCompletion id 1 []), true)
    | .rmw op w v n =>
      (if s.portOpen port then wait (s.send (.rmwReq id port addr op w v n ns)) else s.later (.peerReadCompletion id 1 []), true)
  else
    let j := io * 8 + (o - 2 ^ 45) / 2 ^ 41
    let e := (s.spanApert[j]?).getD 0
    let off := (bits e.toNat 127 64 + (o - 2 ^ 45) % 2 ^ 41) % 2 ^ 64
    let n := match r with | .read _ => 8 | .write l => l.length | .rmw _ _ _ _ => 16
    (sendSpan (s.send (.span id j off r)) src j id 0 n, true)

/-- The words of an operation at keys outside the package, or the others; other operations are one whole. -/
def AccOp.part (op : AccOp) (outside : Bool) : AccOp :=
  match op with
  | .ldm ks => .ldm (ks.filter (fun k => isOutside k == outside))
  | .stm ws => .stm (ws.filter (fun w => isOutside w.1 == outside))
  | op => op

/-- An outstanding access leaves the package: words of it at homes within are written now. -/
def sendFlight (s : State) (src id k : Nat) (op : AccOp) (part : Nat) : State × Bool :=
  let s := match op with
    | .stm _ => (perform s k (op.part false) (some part)).1
    | _ => s
  sendOutside s src id ((((op.keys k).find? isOutside)).getD k) (op.part true).request

/-! Reads outside the package by units. -/

/-- A message for a die held in reset waits for it, for at most 50 µs (R15, R359). -/
def holdMessage (s : State) (die : Nat) (ev : Event) : State :=
  let h : HeldMsg := ⟨die, s.clk, ev⟩
  let s : State := { s with heldMsgs := s.heldMsgs ++ [h] }
  s.at_ (s.clk + 50000) (.dieLostTimeout die)

/-- The unit of a core's mover. -/
def moverUnit (core : Nat) : Nat := 2 ^ 40 + core
/-- The unit that applies a die's exports. -/
def exportUnit (die : Nat) : Nat := 2 ^ 41 + die
/-- The unit that makes a die's early tests. -/
def earlyUnit (die : Nat) : Nat := 2 ^ 42 + die
/-- The placer of a partition: as it accepts from stream k below 64, begins a draw of stream k - 64, or reads the supervisor's object at 128. -/
def placerUnit (part k : Nat) : Nat := 2 ^ 43 + 256 * part + k

/-- A unit that waits goes on: a mover, an export or test unit, a placer, or a thread at a texture lookup. -/
def pokeUnit (s : State) (u : Nat) : State :=
  if 2 ^ 43 ≤ u then
    let p := (u - 2 ^ 43) / 256
    let k := u % 256
    if k < 64 then s.later (.recordAccept p k)
    else if k < 128 then s.atOnce (nextMultiple (s.clk + 1) 64) .placementWindow
    else match (s.part? p).bind Part.starting with
      | some va => s.later (.supervisorStart p va)
      | none => s
  else if 2 ^ 42 ≤ u then s.later (.rasterise (u - 2 ^ 42))
  else if 2 ^ 41 ≤ u then s.later (.exportApply (u - 2 ^ 41))
  else if 2 ^ 40 ≤ u then s.later (.moverCommandStart (u - 2 ^ 40))
  else s.updThread u (fun t => if t.run == .waiting .texels then t.again s.clk else t)

/-- The read of a unit for a purpose at a key. -/
def State.unitRead? (s : State) (u tag k n : Nat) : Option UnitRead :=
  s.unitReads.find? (fun r => r.unit == u && r.tag == tag && r.key == k && r.len == n)

/-- A unit of a socket reads n bytes at a key outside the package, unless it has asked for them already; or waits for a home in reset, and
then reads there (R15). -/
def askOutside (s : State) (src u tag k n : Nat) : State :=
  match s.unitRead? u tag k n with
  | some _ => s
  | none =>
    let id := s.nextId
    let s : State := { s with nextId := id + 1, unitReads := s.unitReads ++ [⟨u, tag, k, n, id, none, false⟩] }
    if isOutside k then (sendOutside s src id k (.read n)).1 else holdMessage s (homeSocket k) (.peerReadCompletion id 0 [])

/-- The reads of a unit are forgotten: those that match. -/
def dropReads (s : State) (u : Nat) (f : UnitRead → Bool) : State :=
  { s with unitReads := s.unitReads.filter (fun r => !(r.unit == u && f r)) }

/-- Clk at which an access on its way arrives at its home. -/
def State.dueHome (s : State) (id : Nat) : Nat := (((s.timers.find? (fun x => x.2 == .homeAccess id))).map (fun x => x.1)).getD 0

/-- L of an access (R145, R207, R340): a hit in the cluster L1, or the latency to its home with what the slice and the translation add, and one
clk for each further word of ldm and stm. -/
def accessTime (s : State) (a : Acc) (l : Loc) : Nat :=
  let t := s.th
  let more := match a.op with
    | .ldm ks => if a.size = 4 then ks.length - 1 else 0
    | .stm ws => if a.size = 4 then ws.length - 1 else 0
    | _ => 0
  (if l1Serves s t l a.op then 40
   else latency t.core l.key + ((a.op.keys l.key).map (hbmExtra s)).foldl max 0) + tlbExtra s t.core t.part a.addr + more

/-- The issuing thread's translation of an access stays in its cluster's TLB. -/
def useTlb (s : State) (a : DWord) : State := if a.toNat / 2 ^ 56 = 0 then tlbUse s s.th.core s.th.part (bits a.toNat 54 16) else s

/-- The latency of an access of the issuing thread at a home slice, with what the slice and the translation add (R145, R207). -/
def objectTime (s : State) (a : DWord) (l : Loc) : Nat := latency s.th.core l.key + hbmExtra s l.key + tlbExtra s s.th.core s.th.part a

/-- The translation and the line of the slice that such an access uses (R203, R207). -/
def useHome (s : State) (a : DWord) (l : Loc) : State := l2Touch (useTlb s a) l.key l.pte

/-- An access that leaves for its home and does not hold the thread: it is performed L ÷ 2 clk later (R340), after every earlier access of
the thread to a byte of it (R216). [DEDUCED: log 15] -/
def launchFlight (s : State) (a : Acc) (l : Loc) (spawned : Bool) : State :=
  let lat := accessTime s a l
  let earlier := s.flights.filter (fun f => f.owner == s.th.uid && f.phase == .sent && rangesMeet (f.op.ranges f.pa) (a.op.ranges l.key))
  let due := (earlier.map (fun f => s.dueHome f.id)).foldl max (s.clk + lat / 2)
  let (s, id) := addFlight (useTlb s a.addr) a l lat false spawned .sent
  accessEnd (s.at_ due (.homeAccess id)) a [] 8

/-- The issuing thread after its access has left as an outstanding one: a swarm thread stands at it, and so does an acquiring one; another
wave thread goes on, its registers pending (R344, R146). -/
def standBy (s : State) (a : Acc) (w : Wait) : State :=
  if s.th.isWave && a.acq.isNone then accessEnd s a [] 4 else s.put (s.th.await s.clk w a.dst a.adv a.len)

/-- The first key of an access whose home cannot be reached now. -/
def heldKey (s : State) (a : Acc) (l : Loc) : Option Nat := (a.op.keys l.key).find? (homeHeld s s.th.die)

/-- An access of the issuing thread performed now, and what the thread does meanwhile: it completes after L; it parks at the home
of a full/empty word; it is held while the home is in reset; or it waits for a completion from outside. [DEDUCED: log 14] -/
def performNow (s : State) (a : Acc) (l : Loc) : State :=
  let t := s.th
  let a := { a with op := placedOp l a.op }
  let lat := accessTime s a l
  let here := l1Serves s t l a.op
  let blocks := !t.isWave || a.acq.isSome
  let s := rmwFlush (useTlb s a.addr) t l a.op
  match (if here then none else heldKey s a l) with
  | some k =>
    let (s, id) := addFlight s a l lat blocks false (.held s.clk)
    (standBy s a (.access id)).at_ (s.clk + 50000) (.dieLostTimeout (homeSocket k))
  | none =>
    if (a.op.keys l.key).any isOutside then
      let (s, id) := addFlight s a l lat blocks false .peer
      let (s, waits) := sendFlight s t.die id l.key a.op t.part
      if waits then standBy s a (.access id) else accessEnd (s.dropFlight id) a [] (max 8 lat)
    else if mustWait s l.key a.op then
      let (s, id) := addFlight s a l lat blocks false .parked
      let s := match s.flight? id with
        | some f => fePark s f
        | none => s
      standBy s a (.fe id)
    else
      let (s, reply) := if t.isWave then wavePerform s t l a.op else performAt s l.key a.op l.pte (some t.part)
      let w := if t.isWave then lat else max 8 lat
      let s := s.put { s.th with performedAt := s.clk, memTo := s.clk + w }
      let s := match a.acq with | some z => acquireL1 s s.th z | none => s
      accessEnd s a reply w

/-- THE CHECK OF AN ACCESS, or the location with which the thread has come (R194, R209). -/
def checkAccess (s : State) (a : Acc) : Chk :=
  match s.th.carried with
  | (k, w, p) :: _ => .ok ⟨k, w, p⟩
  | [] => checkAddr s (agentOf s.th a.mode) a.addr a.size a.need a.fe

/-- An access at its location once it stays where it is: a spawned store (R342), an rx access or a reduction, which leaves its registers
pending, at most 4 at once (R144), or an access that is performed after every outstanding access of the thread (R219, R222). [DEDUCED: log 14] -/
def accessAt (s : State) (a : Acc) (posted : Bool) (l : Loc) : State :=
  let t := s.th
  let op := placedOp l a.op
  let free := !t.isWave && (t.rx || posted || a.spawn)
  if s.heldAt t (op.ranges l.key) then s.put (t.await s.clk .drain 0 [] a.len)
  else if free && decide (4 ≤ (if a.spawn then s.spawnOut t.uid else s.rxOut t.uid)) then s.put (t.await s.clk .slots 0 [] a.len)
  else if !t.isWave && !t.rx && s.undone t.uid then s.put (t.await s.clk .drain 0 [] a.len)
  else if !free then performNow s a l
  else match (if a.spawn then migrateTo l else none) with
    | some c =>
      accessEnd (sendContext (useTlb s a.addr) t { contextOf t 0 c 0 with update := some (l.key, op) } c) a [] 8
    | none => launchFlight s { a with op := op } l a.spawn

/-- THE COURSE OF AN ACCESS INSTRUCTION after its operands: the checks of R194; migration of a go access (R157, R190); or the access
where the thread stands. [DEDUCED: log 14] -/
def access (s : State) (a : Acc) (posted : Bool) : State :=
  let t := s.th
  match checkAccess s a with
  | .bad c => raise s (faultAt c a.len a.addr a.kind)
  | .miss vp => startWalk s vp a.kind a.addr a.len
  | .ok l =>
    match (if a.go && !t.isWave then migrateTo l else none) with
    | some c =>
      if c = t.core then
        (if s.undone t.uid then s.put (t.await s.clk .drain 0 [] a.len) else performNow s a l)
      else if t.isSuper then raise s (faultOf .illegal a.len)
      else if s.undone t.uid then s.put (t.await s.clk .drain 0 [] a.len)
      else if !t.packable t.pc then raise s (faultOf .migOversize a.len)
      else depart (useTlb s a.addr) t c [l]
    | none => accessAt s a posted l

end Sys2Proof.Machine
end

