-- ==== Sys2Proof/Machine/MemOps.lean ====
section
/-! DEFINITION. Loads and stores, full/empty instructions, multiple-register forms, atomics and reductions, prefetch and L1
maintenance, fences, barriers and barrier objects (R339 to R357). -/

namespace Sys2Proof.Machine
open Sys2Proof

/-! Loads and stores (R341, R342). -/

/-- The data bits of k registers from n. -/
def dataBits (t : Thread) (n k : Nat) : BitVec 128 :=
  if k = 1 then (t.rd n).setWidth 128 else if k = 2 then (t.rd2 n).setWidth 128 else t.rd4 n

/-- go after the role's REACH has resolved near (R157, R342). -/
def goes (t : Thread) (r : BitVec 2) : Bool := r == 2 || (r == 0 && t.reach)

/-- Reach 2 or 3 is wrong on a wave engine (R283). -/
def checkReach (s : State) (len : Nat) (r : BitVec 2) (k : State) : State :=
  if s.th.isWave && decide (2 ≤ r.toNat) then raise s (faultOf .wrongEngine len) else k

/-- A size code: bytes, registers, alignment, sign extension (R341). -/
def sizeOf_ (z : Nat) : Nat × Nat × Bool :=
  match z with
  | 0 => (1, 1, false) | 1 => (2, 1, false) | 2 => (4, 1, false) | 3 => (8, 2, false) | 4 => (16, 4, false)
  | 5 => (1, 1, true) | _ => (2, 1, true)

/-- A load of size code z: base in position 1, data in position 0 (R341). -/
def loadState (len z : Nat) (d b : Code) (r m : BitVec 2) (off : DWord) (s : State) : State :=
  let (n, k, sx) := sizeOf_ z
  checkReach s len r <|
    ops2 s len [] (addrPair 1 b) ⟨0, d, k, k⟩ fun nb nd =>
      access s ⟨s.th.rd2 nb + off, n, 1, needR, false, .load n sx, nd, k, usedIdx s.th [b, d] [], len, goes s.th r, false,
        m.toNat, none⟩ false

/-- A store of size code z. -/
def storeState (len z : Nat) (d b : Code) (r m : BitVec 2) (off : DWord) (s : State) : State :=
  let (n, k, _) := sizeOf_ z
  checkReach s len r <|
    ops2 s len [] (addrPair 1 b) ⟨0, d, k, k⟩ fun nb nd =>
      access s ⟨s.th.rd2 nb + off, n, 2, needW, false, .store n (dataBits s.th nd k), 0, 0, usedIdx s.th [b, d] [], len,
        goes s.th r, r == 3, m.toNat, none⟩ false

/-- A scaled offset of five bits (R282). -/
def off5 (o : BitVec 5) (scale : Nat) : DWord := BitVec.ofNat 64 (o.toNat * scale)

/-- The offset of the extended forms: x0 as a signed value (R282). -/
def offX (t : Thread) : DWord := (t.rdX 0).signExtend 64

/-- R341. Load of size code 0. -/
def execLdB (d b : Code) (r m : BitVec 2) (o : BitVec 5) (s : State) : Out := .next (loadState 2 0 d b r m (off5 o 1) s)

/-- R341. Load of size code 1. -/
def execLdH (d b : Code) (r m : BitVec 2) (o : BitVec 5) (s : State) : Out := .next (loadState 2 1 d b r m (off5 o 2) s)

/-- R341. Load of size code 2. -/
def execLdW (d b : Code) (r m : BitVec 2) (o : BitVec 5) (s : State) : Out := .next (loadState 2 2 d b r m (off5 o 4) s)

/-- R341. Load of size code 3. -/
def execLdD (d b : Code) (r m : BitVec 2) (o : BitVec 5) (s : State) : Out := .next (loadState 2 3 d b r m (off5 o 8) s)

/-- R341. Load of size code 4. -/
def execLdQ (d b : Code) (r m : BitVec 2) (o : BitVec 5) (s : State) : Out := .next (loadState 2 4 d b r m (off5 o 16) s)

/-- R341. Load of size code 5. -/
def execLdBs (d b : Code) (r m : BitVec 2) (o : BitVec 5) (s : State) : Out := .next (loadState 2 5 d b r m (off5 o 1) s)

/-- R341. Load of size code 6. -/
def execLdHs (d b : Code) (r m : BitVec 2) (o : BitVec 5) (s : State) : Out := .next (loadState 2 6 d b r m (off5 o 2) s)

/-- R341, R282. Load with the offset x0. -/
def execLdExtended (d b : Code) (r m : BitVec 2) (z : BitVec 3) (s : State) : Out := .next (loadState 2 z.toNat d b r m (offX s.th) s)

/-- R341. Store of size code 0. -/
def execStB (d b : Code) (r m : BitVec 2) (o : BitVec 5) (s : State) : Out := .next (storeState 2 0 d b r m (off5 o 1) s)

/-- R341. Store of size code 1. -/
def execStH (d b : Code) (r m : BitVec 2) (o : BitVec 5) (s : State) : Out := .next (storeState 2 1 d b r m (off5 o 2) s)

/-- R341. Store of size code 2. -/
def execStW (d b : Code) (r m : BitVec 2) (o : BitVec 5) (s : State) : Out := .next (storeState 2 2 d b r m (off5 o 4) s)

/-- R341. Store of size code 3. -/
def execStD (d b : Code) (r m : BitVec 2) (o : BitVec 5) (s : State) : Out := .next (storeState 2 3 d b r m (off5 o 8) s)

/-- R341. Store of size code 4. -/
def execStQ (d b : Code) (r m : BitVec 2) (o : BitVec 5) (s : State) : Out := .next (storeState 2 4 d b r m (off5 o 16) s)

/-- R341, R282. Store with the offset x0. -/
def execStExtended (d b : Code) (r m : BitVec 2) (z : BitVec 3) (s : State) : Out := .next (storeState 2 z.toNat d b r m (offX s.th) s)

/-- R278. ld.w ga, [gb+0]. -/
def execLdS (a : BitVec 6) (b : BitVec 5) (s : State) : Out := .next (loadState 1 2 (code16 a) (code16 b) 0 0 0 s)

/-- R278. st.w ga, [gb+0]. -/
def execStS (a : BitVec 6) (b : BitVec 5) (s : State) : Out := .next (storeState 1 2 (code16 a) (code16 b) 0 0 0 s)

/-! Full/empty instructions (R343, R344). -/

/-- A full/empty instruction with a data register: op, and whether it writes the register. -/
def feState (op : Nat) (writes : Bool) (d b : Code) (r m : BitVec 2) (f : BitVec 5) (s : State) : State :=
  checkReach s 2 r <|
    ops2 s 2 [] (addrPair 1 b) (reg 0 d) fun nb nd =>
      access s ⟨s.th.rd2 nb + off5 f 4, 4, 3, needRW, true, .fe op (s.th.rd nd), nd, if writes then 1 else 0,
        usedIdx s.th [b, d] [], 2, goes s.th r, false, m.toNat, none⟩ false

/-- R343. Waits until full; reads the word. -/
def execLdf (d b : Code) (r m : BitVec 2) (f : BitVec 5) (s : State) : Out := .next (feState 0 true d b r m f s)

/-- R343. Waits until full; reads the word and leaves it empty. -/
def execLde (d b : Code) (r m : BitVec 2) (f : BitVec 5) (s : State) : Out := .next (feState 1 true d b r m f s)

/-- R343. Waits until empty; writes the word and leaves it full. -/
def execStf (d b : Code) (r m : BitVec 2) (f : BitVec 5) (s : State) : Out := .next (feState 2 false d b r m f s)

/-- R343. Writes the word and leaves it full. -/
def execStx (d b : Code) (r m : BitVec 2) (f : BitVec 5) (s : State) : Out := .next (feState 3 false d b r m f s)

/-- R343. D := 1 if full, else 0. -/
def execFest (d b : Code) (r m : BitVec 2) (f : BitVec 5) (s : State) : Out := .next (feState 5 true d b r m f s)

/-- R343. The bit becomes empty. -/
def execSete (b : Code) (r m : BitVec 2) (f : BitVec 5) (s : State) : Out := .next (
  checkReach s 2 r <|
    ops1 s 2 [] (addrPair 1 b) fun nb =>
      access s ⟨s.th.rd2 nb + off5 f 4, 4, 3, needRW, true, .fe 4 0, 0, 0, usedIdx s.th [b] [], 2, goes s.th r, false,
        m.toNat, none⟩ false)

/-! Multiple-register forms (R345, R346). -/

/-- The n words from an address checked in ascending order: their locations, or the first check that fails and its word. -/
def checkWords (s : State) (g : Agent) (a : DWord) (n : Need) : Nat → Nat → List Loc × Option (Chk × DWord)
  | _, 0 => ([], none)
  | j, k + 1 =>
    let aj := a + BitVec.ofNat 64 (4 * j)
    match checkAddr s g aj 4 n false with
    | .ok l =>
      let (ls, e) := checkWords s g a n (j + 1) k
      (l :: ls, e)
    | c => ([], some (c, aj))

/-- The words of an ldm or stm of a wave thread, each at its own location. -/
def waveWords (s : State) (t : Thread) : List (Loc × AccOp) → State × List Word
  | [] => (s, [])
  | (l, op) :: r =>
    let (s, v) := wavePerform s t l op
    let (s, vs) := waveWords s t r
    (s, v ++ vs)

/-- Some word of a list lies outside the package, or its home cannot be reached now. -/
def wordsAway (s : State) (t : Thread) (ls : List Loc) : Bool := ls.any (fun l => isOutside l.key || homeHeld s t.die l.key)

/-- The words of an stm before a failing one are performed (R346). -/
def partStore (s : State) (t : Thread) (ls : List Loc) (words : List Word) : State :=
  if wordsAway s t ls then s
  else if t.isWave then (waveWords s t ((ls.zip words).map (fun x => (x.1, .store 4 (x.2.setWidth 128))))).1
  else (ls.zip words).foldl (fun s x => (performAt s x.1.key (.store 4 (x.2.setWidth 128)) x.1.pte (some t.part)).1) s

/-- An ldm or stm of which every word has its location, performed now: words on pages of different attributes one by one. -/
def multiNow (s : State) (a : Acc) (l : Loc) (ls : List Loc) (words : List Word) (load : Bool) : State :=
  let t := s.th
  if t.isWave && !wordsAway s t ls && ls.any (fun x => x.pte != l.pte || x.win != l.win) then
    let lat := accessTime s a l
    let s := useTlb s a.addr
    let (s, vs) := waveWords s t (if load then ls.map (fun x => (x, .load 4 false)) else (ls.zip words).map (fun x => (x.1, .store 4 (x.2.setWidth 128))))
    accessEnd (s.put { s.th with performedAt := s.clk, memTo := s.clk + lat }) a vs lat
  else performNow s a l

/-- ldm and stm (R345): words in ascending order, an stm's words before a failing one already performed (R346); ldm writes no
register unless every word has been read. -/
def multi (load : Bool) (d b : Code) (r m : BitVec 2) (n : BitVec 5) (s : State) : State :=
  let cnt := n.toNat + 1
  checkReach s 2 r <|
    ops2 s 2 [] (addrPair 1 b) (span 0 d cnt) fun nb nd =>
      let t := s.th
      if load && decide (nd ≤ nb + 1) && decide (nb < nd + cnt) then raise s (faultOf .illegal 2)
      else
        let a := t.rd2 nb
        let kind := if load then 1 else 2
        let need := if load then needR else needW
        let adv := usedIdx t [b, d] []
        let (ls, e) := if t.carried.isEmpty then checkWords s (agentOf t m.toNat) a need 0 cnt
          else (t.carried.map (fun x => (⟨x.1, x.2.1, x.2.2⟩ : Loc)), none)
        let words := (List.range ls.length).map (fun j => t.rd (nd + j))
        let keys := ls.map (·.key)
        let op : AccOp := if load then .ldm keys else .stm (keys.zip words)
        let fault (s : State) : State :=
          match e with
          | some (.bad c, aj) => raise s (faultAt c 2 aj kind)
          | some (.miss vp, aj) => startWalk s vp kind aj 2
          | _ => s
        let wait (w : Wait) : State := s.put (t.await s.clk w 0 [] 2)
        match ls with
        | [] => fault s
        | l :: _ =>
          let acc : Acc := ⟨a, 4, kind, need, false, op, nd, if load then cnt else 0, adv, 2, goes t r, false, m.toNat, none⟩
          match (if goes t r && !t.isWave then migrateTo l else none) with
          | some c =>
            if c ≠ t.core then
              if t.isSuper then raise s (faultOf .illegal 2)
              else if e.isSome then fault s
              else if s.undone t.uid then wait .drain
              else if !t.packable t.pc then raise s (faultOf .migOversize 2)
              else depart (useTlb s a) t c ls
            else if s.undone t.uid then wait .drain
            else if e.isSome then fault (if load then s else partStore s t ls words)
            else performNow s acc l
          | none =>
            if s.heldAt t (op.ranges l.key) then wait .drain
            else if !t.isWave && t.rx then
              if e.isSome then fault s
              else if 4 ≤ s.rxOut t.uid then wait .slots
              else launchFlight s acc l false
            else if !t.isWave && s.undone t.uid then wait .drain
            else if e.isSome then fault (if load then s else partStore s t ls words)
            else multiNow s acc l ls words load

/-- R345. n + 1 registers loaded. -/
def execLdm (d b : Code) (r m : BitVec 2) (n : BitVec 5) (s : State) : Out := .next (multi true d b r m n s)

/-- R345. n + 1 registers stored. -/
def execStm (d b : Code) (r m : BitVec 2) (n : BitVec 5) (s : State) : Out := .next (multi false d b r m n s)

/-! Ordering (R217 to R221, R227). -/

/-- An sc operation of the issuing thread waits for the herald (R227): the first window that begins at a clk later than that of
its last earlier access. [DEDUCED: log 21] -/
def announce (s : State) (id : Nat) (fence : Bool) : State :=
  let t := s.th
  let w := nextMultiple (max s.clk (t.performedAt + 1)) 32
  let h : Herald := ⟨id, t.uid, fence, t.performedAt, t.part, t.die, t.orderKey, w, none⟩
  let s : State := { s with heralds := s.heralds ++ [h] }
  if s.timers.any (fun x => x.2 == .heraldWindow && decide (x.1 ≤ w + 1)) then s else s.at_ (w + 1) .heraldWindow

/-! Atomics and reductions (R349 to R352). -/

/-- amo and red: the operation at its home, releasing or acquiring as the ordering says; an sc one waits for the herald. -/
def atomic (op : Nat) (ret fx : Bool) (d a : Code) (o sc : BitVec 3) (w : BitVec 1) (s : State) : State :=
  let wide := w == 1
  let cas := op == 9
  let k := if cas then (if wide then 4 else 2) else if wide then 2 else 1
  ops2 s 2 [] (addrPair 1 a) ⟨0, d, k, k⟩ fun na nd =>
    let t := s.th
    let v : DWord := if wide then t.rd2 nd else (t.rd nd).setWidth 64
    let n : DWord := if cas then (if wide then t.rd2 (nd + 2) else (t.rd (nd + 1)).setWidth 64) else 0
    let acc : Acc := ⟨t.rd2 na, if wide then 8 else 4, 3, needRW, false,
      .rmw op wide (if fx then fxOf v else v) n ret, nd, if ret then (if wide then 2 else 1) else 0, usedIdx t [a, d] [], 2,
      false, false, 0, none⟩
    match checkAddr s (agentOf t 0) acc.addr acc.size acc.need false with
    | .bad c => raise s (faultAt c 2 acc.addr 3)
    | .miss vp => startWalk s vp 3 acc.addr 2
    | .ok l =>
      let acc := { acc with op := placedOp l acc.op }
      if isRelease o && s.undone t.uid then s.put (t.await s.clk .drain 0 [] 2)
      else if isAcquire o && (s.heldAt t (acc.op.ranges l.key) || (!t.isWave && s.undone t.uid)) then s.put (t.await s.clk .drain 0 [] 2)
      else
        let s := if isRelease o then releaseL1 s t sc else s
        if o = 4 then
          let s := rmwFlush s t l acc.op
          let (s, id) := addFlight (useTlb s acc.addr) acc l (accessTime s acc l) true false .herald
          let s := announce s id false
          s.put (s.th.await s.clk (.access id) nd acc.adv 2)
        else if isAcquire o then performNow s { acc with acq := some sc } l
        else accessAt s acc (!ret) l

/-- R350. Operation 0, the old value returned. -/
def execAmoAdd (d a : Code) (o z : BitVec 3) (w : BitVec 1) (s : State) : Out := .next (atomic 0 true false d a o z w s)

/-- R350. Operation 1, the old value returned. -/
def execAmoAnd (d a : Code) (o z : BitVec 3) (w : BitVec 1) (s : State) : Out := .next (atomic 1 true false d a o z w s)

/-- R350. Operation 2, the old value returned. -/
def execAmoOr (d a : Code) (o z : BitVec 3) (w : BitVec 1) (s : State) : Out := .next (atomic 2 true false d a o z w s)

/-- R350. Operation 3, the old value returned. -/
def execAmoXor (d a : Code) (o z : BitVec 3) (w : BitVec 1) (s : State) : Out := .next (atomic 3 true false d a o z w s)

/-- R350. Operation 4, the old value returned. -/
def execAmoMin (d a : Code) (o z : BitVec 3) (w : BitVec 1) (s : State) : Out := .next (atomic 4 true false d a o z w s)

/-- R350. Operation 5, the old value returned. -/
def execAmoMax (d a : Code) (o z : BitVec 3) (w : BitVec 1) (s : State) : Out := .next (atomic 5 true false d a o z w s)

/-- R350. Operation 6, the old value returned. -/
def execAmoMinn (d a : Code) (o z : BitVec 3) (w : BitVec 1) (s : State) : Out := .next (atomic 6 true false d a o z w s)

/-- R350. Operation 7, the old value returned. -/
def execAmoMaxn (d a : Code) (o z : BitVec 3) (w : BitVec 1) (s : State) : Out := .next (atomic 7 true false d a o z w s)

/-- R350. Operation 8, the old value returned. -/
def execAmoSwap (d a : Code) (o z : BitVec 3) (w : BitVec 1) (s : State) : Out := .next (atomic 8 true false d a o z w s)

/-- R350. Operation 9, the old value returned. -/
def execAmoCas (d a : Code) (o z : BitVec 3) (w : BitVec 1) (s : State) : Out := .next (atomic 9 true false d a o z w s)

/-- R351. binary32 sum at the home, the old value returned. -/
def execAmoFadd (d a : Code) (o z : BitVec 3) (s : State) : Out := .next (atomic 10 true false d a o z 0 s)

/-- R350. Operation 0, no register written. -/
def execRedAdd (d a : Code) (o z : BitVec 3) (w : BitVec 1) (s : State) : Out := .next (atomic 0 false false d a o z w s)

/-- R350. Operation 1, no register written. -/
def execRedAnd (d a : Code) (o z : BitVec 3) (w : BitVec 1) (s : State) : Out := .next (atomic 1 false false d a o z w s)

/-- R350. Operation 2, no register written. -/
def execRedOr (d a : Code) (o z : BitVec 3) (w : BitVec 1) (s : State) : Out := .next (atomic 2 false false d a o z w s)

/-- R350. Operation 3, no register written. -/
def execRedXor (d a : Code) (o z : BitVec 3) (w : BitVec 1) (s : State) : Out := .next (atomic 3 false false d a o z w s)

/-- R350. Operation 4, no register written. -/
def execRedMin (d a : Code) (o z : BitVec 3) (w : BitVec 1) (s : State) : Out := .next (atomic 4 false false d a o z w s)

/-- R350. Operation 5, no register written. -/
def execRedMax (d a : Code) (o z : BitVec 3) (w : BitVec 1) (s : State) : Out := .next (atomic 5 false false d a o z w s)

/-- R350. Operation 6, no register written. -/
def execRedMinn (d a : Code) (o z : BitVec 3) (w : BitVec 1) (s : State) : Out := .next (atomic 6 false false d a o z w s)

/-- R350. Operation 7, no register written. -/
def execRedMaxn (d a : Code) (o z : BitVec 3) (w : BitVec 1) (s : State) : Out := .next (atomic 7 false false d a o z w s)

/-- R350. Operation 8, no register written. -/
def execRedSwap (d a : Code) (o z : BitVec 3) (w : BitVec 1) (s : State) : Out := .next (atomic 8 false false d a o z w s)

/-- R350. Operation 9, no register written. -/
def execRedCas (d a : Code) (o z : BitVec 3) (w : BitVec 1) (s : State) : Out := .next (atomic 9 false false d a o z w s)

/-- R351. binary32 sum at the home. -/
def execRedFadd (d a : Code) (o z : BitVec 3) (s : State) : Out := .next (atomic 10 false false d a o z 0 s)

/-- R351. FX of the binary64 pair added modulo 2^64. -/
def execRedFx64 (d a : Code) (o z : BitVec 3) (s : State) : Out := .next (atomic 0 false true d a o z 1 s)

/-! Prefetch and L1 maintenance (R347, R348). -/

/-- The location that a prefetch names, when every check of R194 passes; a page that no TLB holds is walked. -/
def prefetchLoc (s : State) (a : DWord) : State × Option Loc :=
  let t := s.th
  match checkAddr s (agentOf t 0) a 1 needR false with
  | .ok l => (useTlb s a, some l)
  | .bad _ => (s, none)
  | .miss vp =>
    match walk s t.die t.part (bits a.toNat 54 0) with
    | none => (s, none)
    | some (pte, pages) =>
      let l : Loc := ⟨leafPA pages pte (bits a.toNat 54 0), 0, pte⟩
      (askWalk s t.die t.part vp none,
        if permOk t.isSuper needR pte && populated s t.part t.isSuper false l.key then some l else none)

/-- R347. The home slice allocates the line after L ÷ 2, and the L1 of a wave thread's cluster fills it after L; no visible state changes and no
check raises a cause. -/
def execPf (a : Code) (s : State) : Out := .next (
  ops1 s 2 [] (addrPair 1 a) fun na =>
    let t := s.th
    let (s, r) := prefetchLoc s (t.rd2 na)
    let s := match r with
      | none => s
      | some l =>
        if isStack l.key && (l.win == 4 || (l.win == 0 && decide (bits l.pte.toNat 6 5 ≤ 1))) then
          let lat := latency t.core l.key
          let f : Flight := ⟨s.nextId, t.uid, l.key, .prefetch, clusterOf t.core, 0, false, false, t.isWave && usesL1 l, l.pte, lat, false, .sent⟩
          ({ s with nextId := s.nextId + 1, flights := s.flights ++ [f] } : State).at_ (s.clk + lat / 2) (.homeAccess f.id)
        else s
    finish s s.th [a] [] 2 (s.th.interval 8 4))

/-- inval and wback: the line of a global or private address (R348). -/
def maintain (a : Code) (f : State → Nat → L1Line → State) (wait : Bool) (s : State) : State :=
  onEngine true s 2 <|
    ops1 s 2 [] (addrPair 1 a) fun na =>
      let t := s.th
      let addr := t.rd2 na
      match checkAddr s (agentOf t 0) addr 1 needR false with
      | .bad c => raise s (faultAt c 2 addr 1)
      | .miss vp => startWalk s vp 1 addr 2
      | .ok l =>
        if l.win ≠ 0 ∧ l.win ≠ 4 then raise s (faultAt .window 2 addr 1)
        else
          let line := l1Line s (clusterOf t.core) (l.key / 128 * 128) t.part
          let busy := wait && line.dirty != 0
          finish (f (useTlb s addr) (clusterOf t.core) line) t [a] [] 2 ((if busy then latency t.core l.key else 4) + tlbExtra s t.core t.part addr)

/-- R348. The clean bytes of the line are dropped. -/
def execInval (a : Code) (s : State) : Out := .next (maintain a (fun s cl l => l1Put s cl { l with valid := l.dirty }) false s)

/-- R348. The dirty bytes of the line are written to the home and stay clean. -/
def execWback (a : Code) (s : State) : Out := .next (maintain a l1WriteBack true s)

/-! Fences (R353). -/

/-- R353, R219 to R221, R227. Every outstanding access is performed first; the L1 actions; fence.sc completes at its herald instant. -/
def execFence (o z : BitVec 3) (s : State) : Out := .next (
  let t := s.th
  if s.undone t.uid then s.put (t.await s.clk .drain 0 [] 2)
  else
    let dirty := t.isWave && (Table.at s.l1 (clusterOf t.core) []).any (fun l => l.dirty != 0)
    let s := if isRelease o then releaseL1 s t z else s
    if o = 4 then
      let id := s.nextId
      let s := announce { s with nextId := s.nextId + 1 } id true
      s.put (s.th.await s.clk (.access id) 0 [] 2)
    else
      let s := if isAcquire o then acquireL1 s t z else s
      finish s s.th [] [] 2 (if t.isWave then (if dirty && isRelease o then 120 else 4) else 8))

/-! Group and gang barriers (R354, R108). -/

/-- Members of a group's or gang's barrier: live threads, spawned contexts apart (R367). -/
def barMember (gang : Bool) (id : Nat) (t : Thread) : Bool :=
  t.live && t.spawner.isNone && t.ofRecord && (if gang then t.gang == id else t.grp == id)

/-- The barrier of a group or gang completes when every member waits at it: each continues after the latency, with its L1
acquired (R226, R354). -/
def barCheck (s : State) (gang : Bool) (id : Nat) (lastDie : Nat) : State :=
  let w : Wait := if gang then .barGang else .bar
  let home := match s.gangs.find? (fun g => if gang then g.id == id else (s.group? id).map (·.gang) == some g.id) with
    | some g => g.die
    | none => lastDie
  if s.anyThread (fun t => barMember gang id t && t.run != .waiting w) || !s.anyThread (barMember gang id) then s
  else
    let base := s.clk + (if gang then 48 else 16) + (if lastDie = home then 0 else 60)
    let waves := s.selThreads (fun t => barMember gang id t && scopeL1 s t (if gang then 1 else 0))
    let s := waves.foldl (fun s t => l1Acquire s (clusterOf t.core) t.part) s
    s.mapThreads (fun t =>
      if barMember gang id t then t.complete [] (base + (if t.die = home then 0 else 60)) else t)

/-- bar and bar.gang: the thread's accesses are performed and released, then it arrives and waits. -/
def barState (gang : Bool) (s : State) : State :=
  let t := s.th
  if s.undone t.uid then s.put (t.await s.clk .drain 0 [] 2)
  else
    let s := releaseL1 s t (if gang then 1 else 0)
    let s := s.put (s.th.await s.clk (if gang then .barGang else .bar) 0 [] 2)
    barCheck s gang (if gang then t.gang else t.grp) t.die

/-- R354. Arrives at its group's barrier and waits. -/
def execBar  (s : State) : Out := .next (barState false s)

/-- R354. Arrives at its gang's barrier and waits. -/
def execBarGang  (s : State) : Out := .next (barState true s)

/-! Barrier objects (R355 to R357). -/

/-- An operation on an object whose home die is held in reset waits for it (R15): when the die returns it executes again, when
it does not the instruction completes as die-lost with its registers zero (R352). -/
def holdRetry (s : State) (k dst nreg : Nat) (adv : List Nat) (len : Nat) : State :=
  let acc : Acc := ⟨0, 1, 3, needRW, false, .ldm [], dst, nreg, adv, len, false, false, 0, none⟩
  let (s, id) := addFlight s acc ⟨k, 0, 0⟩ (latency s.th.core k) true false (.held s.clk)
  (s.put (s.th.await s.clk (.access id) dst adv len)).at_ (s.clk + 50000) (.dieLostTimeout (homeSocket k))

/-- The record of a thread, while it has not completed. -/
def State.recOf (s : State) (t : Thread) : Option Rec :=
  if t.ofRecord then (s.part? t.part).bind (fun q => (q.stream t.stream).recs.find? (fun r => r.slot == t.slot)) else none

/-- The thread's grid is resident (R84). [DEDUCED: log 37] -/
def residentGrid (s : State) (t : Thread) : Bool := ((s.recOf t).map (fun r => r.words[0].getLsbD 5)).getD false

/-- An address of a barrier object or weir, 16 or 64 bytes in the global window with R and W rights, given to k, with the time that the
access takes, once it is known; the object's home is up and every earlier access of the thread has been performed. -/
def withObject (s : State) (a : DWord) (size : Nat) (dst nreg : Nat) (adv : List Nat) (drain : Bool)
    (k : State → Nat → Loc → State) : State :=
  let t := s.th
  match checkAddr s (agentOf t 0) a 1 needRW false with
  | .bad c => raise s (faultAt c 2 a 3)
  | .miss vp => startWalk s vp 3 a 2
  | .ok l =>
    if l.win ≠ 0 ∨ !isStack l.key then raise s (faultAt .window 2 a 3)
    else if a.toNat % size ≠ 0 then raise s (faultAt .alignment 2 a 3)
    else if drain && s.undone t.uid then s.put (t.await s.clk .drain 0 [] 2)
    else if homeHeld s t.die l.key then holdRetry s l.key dst nreg adv 2
    else k (useHome s a l) (max 8 (objectTime s a l)) l

/-- Threads parked at a barrier object whose want its SENSE now is return 0, and acquire (R356). -/
def wakeBarw (s : State) (k : Nat) (sense : Bool) : State :=
  let hit (t : Thread) : Bool := match t.run with | .waiting (.barObj a w _) => a == k && w == sense | _ => false
  let s := (s.selThreads (fun t => hit t && t.isWave)).foldl (fun s t => l1Acquire s (clusterOf t.core) t.part) s
  s.mapThreads (fun t => if t.live && hit t then t.complete [0] (s.clk + latency t.core k) else t)

/-- The object is in use while ARRIVED is not zero or a barw is parked (R357). -/
def barInUse (s : State) (k : Nat) : State :=
  let arrived := bits (readBytes s.mem k 8).toNat 55 32
  let parked := s.anyThread (fun t => match t.run with | .waiting (.barObj a _ _) => a == k | _ => false)
  s.setRegion k 16 true (arrived != 0 || parked)

/-- One arrival at the object at key k, with a departure for barx (R356). -/
def arrive (s : State) (k : Nat) (leave : Bool) : State :=
  let o := (readBytes s.mem k 16).toNat
  let expect := bits o 23 0
  let arrived := (bits o 55 32 + 1) % 2 ^ 24
  let sense := o.testBit 56
  let drop := (bits o 87 64 + (if leave then 1 else 0)) % 2 ^ 24
  let grid := if o.testBit 57 then 2 ^ 57 else 0
  let put (e a : Nat) (sn : Bool) (d : Nat) : State :=
    { s with mem := writeBytes s.mem k 16 (BitVec.ofNat 128 (e + a * 2 ^ 32 + (if sn then 2 ^ 56 else 0) + grid + d * 2 ^ 64)) }
  if expect ≤ arrived then barInUse (wakeBarw (put (expect - drop) 0 (!sense) 0) k (!sense)) k
  else barInUse (put expect arrived sense drop) k

/-- A reserved field of a barrier object is not zero (R355). -/
def barReserved (o : Nat) : Bool := bits o 127 88 != 0 || bits o 63 58 != 0 || bits o 31 24 != 0

/-- barj and barx. -/
def barArrive (leave : Bool) (a : Code) (z : BitVec 3) (s : State) : State :=
  ops1 s 2 [] (addrPair 1 a) fun na =>
    let t := s.th
    let adv := usedIdx t [a] []
    withObject s (t.rd2 na) 16 0 0 adv true fun s n l =>
      let o := (readBytes s.mem l.key 16).toNat
      if barReserved o then raise s (faultOf .illegal 2)
      else if o.testBit 57 && !residentGrid s t then raise s (faultOf .barrierScope 2)
      else
        let s := arrive (releaseL1 s t z) l.key leave
        s.put ((advances s.th adv).done s.clk 2 n)

/-- R356. One arrival; a release at its scope. -/
def execBarj (a : Code) (z : BitVec 3) (s : State) : Out := .next (barArrive false a z s)

/-- R356. One arrival and one departure. -/
def execBarx (a : Code) (z : BitVec 3) (s : State) : Out := .next (barArrive true a z s)

/-- R356. Returns 0 once SENSE is G(D)[31], an acquire; 1 after G(D)[30:0] µs, if that is not 0. -/
def execBarw (d a : Code) (z : BitVec 3) (s : State) : Out := .next (
  ops2 s 2 [] (addrPair 1 a) (reg 0 d) fun na nd =>
    let t := s.th
    let adv := usedIdx t [a, d] []
    withObject s (t.rd2 na) 16 nd 1 adv false fun s n l =>
      let o := (readBytes s.mem l.key 16).toNat
      let want := (t.rd nd).getLsbD 31
      let us := (t.rd nd).toNat % 2 ^ 31
      if barReserved o then raise s (faultOf .illegal 2)
      else if o.testBit 57 && !residentGrid s t then raise s (faultOf .barrierScope 2)
      else if o.testBit 56 = want then
        let s := acquireL1 s t z
        s.put ((advances (s.th.wr nd 0) adv).done s.clk 2 n)
      else
        let deadline := if us = 0 then 0 else s.clk + 1000 * us
        let s := s.put (t.await s.clk (.barObj l.key want deadline) nd adv 2)
        let s := barInUse s l.key
        if us = 0 then s else s.at_ deadline (.barwTimeout t.uid))

/-! The rx prefix (R277) and the traps of fetch and decode (R264, R275, R290). -/

/-- A parcel begins an instruction that may follow the prefix: majors 13, 14, 15 and 29, ld.s and st.s. -/
def rxFollows (v : BitVec 16) : Bool :=
  if v.getLsbD 0 then [13, 14, 15, 29].contains (bits v.toNat 5 1) else [10, 11].contains (bits v.toNat 4 1)

/-- R277. The prefix fuses with the instruction after it, which step then fetches; another instruction after it, or none below the bound, is illegal at the prefix. -/
def execRx  (s : State) : Out := .next (
  match fetchParcel s s.th (s.th.pc.toNat + 1) with
  | .parcel v => if !s.th.rx && rxFollows v then s.put { s.th with rx := true } else raise s (faultOf .illegal 0)
  | .bound => raise s (faultOf .illegal 0)
  | .bad c a => raise s (faultAt c 0 a 4)
  | .miss vp a => startWalk s vp 4 a 0)

/-- R264. The fetch-bound fault. [DEDUCED: log 19] -/
def execFetchBound  (s : State) : Out := .next (raise { s with th := { s.th with rx := false } } (faultAt .fetchBound 0 (BitVec.ofNat 64 (s.th.codeVA + 2 * s.th.pc.toNat)) 4))

/-- R275. The zero-parcel trap. -/
def execZeroParcel  (s : State) : Out := .next (raise { s with th := { s.th with rx := false } } (faultOf .zeroParcel 1))

/-- R290. The illegal-instruction trap. -/
def execIllegalInstruction  (s : State) : Out := .next (raise { s with th := { s.th with rx := false } } (faultOf .illegal 0))

end Sys2Proof.Machine
end

