-- ==== Sys2Proof/Machine/Messages.lean ====
section
/-! DEFINITION. Message registers and ports, mailboxes, rills, and the events that reach light handlers (R149 to R155, R359 to
R364, R380, R446). -/

namespace Sys2Proof.Machine
open Sys2Proof

/-! Core names and message times. -/

/-- The core that a name gives for a thread: an existing core of a die of its partition (R359). -/
def namedCore (s : State) (t : Thread) (n : Word) : Option Nat :=
  if coreNameOk n && (s.partDies t.part).contains (coreDie (coreOfName n)) then some (coreOfName n) else none

/-- A message of this kind from a thread to a target has not arrived yet: the clk of the last one (R149, R150: one thread's
messages to one place arrive in program order). -/
def lastArrival (s : State) (same : Event → Bool) : Nat :=
  (s.timers.filter (fun x => same x.2)).foldl (fun m x => max m x.1) 0

/-- A message that leaves core c for core e now: its arrival after L ÷ 2 (R446), not before an earlier one of its kind. -/
def sendMessage (s : State) (c e : Nat) (ev : Event) (same : Event → Bool) : State :=
  s.at_ (max (s.clk + msgLatency c e / 2) (lastArrival s same)) ev

/-! Waiting threads. -/

/-- The thread that began to wait first (R361, R363). -/
def oldest (l : List Thread) : Option Thread :=
  l.foldl (fun (b : Option Thread) t =>
    match b with
    | none => some t
    | some u => if t.parkedAt < u.parkedAt || (t.parkedAt == u.parkedAt && decide (t.orderKey < u.orderKey)) then some t else some u) none

/-- A thread waits in the message instruction for register r of core c, taking it or not. -/
def waitsMsg (c r : Nat) (take : Bool) (t : Thread) : Bool :=
  t.hold == .running && t.core == c && t.run == .waiting (.msgReg r take)

/-! The message port (R149) and the posting of mover commands (R156, R373). -/

/-- A command word without a reserved value (R373). -/
def cmdWordOk (w : Nat) : Bool :=
  bits w 15 11 == 0 && bits w 4 3 == 0 && decide (bits w 10 8 ≤ 4) && bits w 7 5 != 0 && decide (bits w 2 0 ≤ 5)

/-- A thread as the poster of a command. -/
def posterOf (s : State) (uid : Nat) : Poster :=
  let t := ((s.th :: s.threads).find? (fun t => t.uid == uid)).getD Thread.reset
  ⟨uid, t.part, t.isSuper, t.ofRecord, t.gang,
    (if t.isWave then 0 else t.tid % 2048) + t.grp % 8192 * 2048 + t.role * 2 ^ 24, t.stream, t.slot, t.runNo⟩

/-- A command enters the mover's queue of a core; one with a reserved value is discarded (R373). -/
def postMover (s : State) (c : Nat) (p : Poster) (words : BitVec 128) : State :=
  if cmdWordOk (words.extractLsb' 96 32).toNat then
    let cmd : MoverCmd := ⟨words, p, none, 0, 0, none, none, 0, 0, none, none⟩
    let first := (s.core c).movers.isEmpty
    let s := s.updCore c (fun k => { k with movers := k.movers ++ [cmd] })
    if first then s.later (.moverCommandStart c) else s
  else s

/-- Registers that a write in the port concerns: a command concerns all four request ports. -/
def PortWrite.regs (c : Nat) (w : PortWrite) : List Nat :=
  if w.cmd.isSome || (w.reg == 15 && !coreIsWave c) then [12, 13, 14, 15] else [w.reg]

/-- Places of the port that the write takes. [DEDUCED: log 72] -/
def PortWrite.size (w : PortWrite) : Nat := if w.cmd.isSome then 4 else 1

/-- The write can be applied: its register is empty, or the mover's queue has room. -/
def portReady (k : Core) (c : Nat) (w : PortWrite) : Bool :=
  if w.cmd.isSome then k.mFull &&& 0x7000#16 == 0 && decide (k.movers.length < 8)
  else if w.reg == 15 && !coreIsWave c then decide (k.movers.length < 8)
  else !k.mFull.getLsbD w.reg

/-- A register fills (R361): the oldest mget takes the value, and every wmsg completes. -/
def fillReg (s : State) (c r : Nat) (v : Word) : State :=
  let taker := oldest (s.selThreads (waitsMsg c r true))
  let s := s.mapThreads (fun t => if t.live && waitsMsg c r false t then t.complete [] (s.clk + 8) else t)
  match taker with
  | some t => s.updThread t.uid (fun t => t.complete [v] (s.clk + 8))
  | none => s.updCore c (fun k => { k with m := k.m.setIfInBounds r v, mFull := k.mFull ||| (1#16 <<< r) })

/-- A write of the port is applied. -/
def portApply (s : State) (c : Nat) (w : PortWrite) : State :=
  match w.cmd with
  | some words => postMover s c (posterOf s w.sender) words
  | none =>
    if w.reg = 15 ∧ !coreIsWave c then
      let k := s.core c
      let words : BitVec 128 := w.value ++ k.m[14] ++ k.m[13] ++ k.m[12]
      let s := if cmdWordOk w.value.toNat then s.updCore c (fun k => { k with mFull := k.mFull &&& 0x0FFF#16 }) else s
      postMover s c (posterOf s w.sender) words
    else fillReg s c w.reg w.value

/-- The first write of the port that can be applied and that no earlier one to its registers precedes, and the port without it. -/
def portNext (k : Core) (c : Nat) : List Nat → List PortWrite → List PortWrite → Option (PortWrite × List PortWrite)
  | _, _, [] => none
  | seen, before, w :: r =>
    if !w.entered then none
    else if (w.regs c).all (fun n => !seen.contains n) && portReady k c w then some (w, before ++ r)
    else portNext k c (seen ++ w.regs c) (before ++ [w]) r

/-- The first waiting write enters the port when it fits. [DEDUCED: log 72] -/
def portEnter : Nat → List PortWrite → Option (List PortWrite)
  | _, [] => none
  | used, w :: r =>
    if w.entered then (portEnter (used + w.size) r).map (fun r => w :: r)
    else if used + w.size ≤ 16 then some ({ w with entered := true } :: r)
    else none

/-- The port's writes enter and are applied as far as they can be. -/
def portPump : Nat → State → Nat → State
  | 0, s, _ => s
  | n + 1, s, c =>
    let k := s.core c
    match portEnter 0 k.port with
    | some l => portPump n (s.updCore c (fun k => { k with port := l })) c
    | none =>
      match portNext k c [] [] k.port with
      | some (w, l) => portPump n (portApply (s.updCore c (fun k => { k with port := l })) c w) c
      | none => s

/-- The pump with steps for every write. -/
def pumpPort (s : State) (c : Nat) : State := portPump (2 * (s.core c).port.length + 1) s c

/-- A write arrives at a core's port. -/
def arriveWrite (s : State) (c : Nat) (w : PortWrite) : State :=
  pumpPort (s.updCore c (fun k => { k with port := k.port ++ [w] })) c

/-- A thread has a write or a message that waits at its target: it is out of rotation (R149, R150). -/
def State.msgHeld (s : State) (uid : Nat) : Bool :=
  s.cores.any (fun c => c.2.port.any (fun w => !w.entered && w.sender == uid) ||
    (c.2.mail.drop 32).any (fun m => m.sender == uid))

/-- A write to m15 of a swarm or channel core posts a command: it follows every earlier access of its thread (R231). -/
def drained (s : State) (post : Bool) (len : Nat) (k : State) : State :=
  if post && s.undone s.th.uid then s.put (s.th.await s.clk .drain 0 [] len) else k

/-- R360. G(B) goes to message register N of the core named by G(A). -/
def execMput (n : BitVec 4) (a b : Code) (s : State) : Out := .next (
  ops2 s 2 [1, 2] (reg 1 a) (reg 2 b) fun na nb =>
    let t := s.th
    match namedCore s t (s.src t 1 na) with
    | none => raise s (faultOf .window 2)
    | some c =>
      let post := n.toNat == 15 && !coreIsWave c
      drained s post 2 <|
        -- a posted command releases at its scope what its poster has written (R232)
        let s := if post then releaseL1 s t ((s.src t 2 nb).extractLsb' 8 3) else s
        let s := finish s (clearArms s.th [1, 2]) [a, b] [] 2 (t.interval 8 4)
        sendMessage s t.core c (.messageRegisterArrival c n.toNat (s.src t 2 nb) t.uid) (fun e =>
          match e with
          | .messageRegisterArrival c' _ _ u => c' == c && u == t.uid
          | _ => false))

/-- R149. A write arrives at register reg of a core. -/
def execMessageRegisterArrival (core reg : Nat) (value : Word) (sender : Nat) (s : State) : Out := .next (
  if (s.die (coreDie core)).inReset then
    holdMessage s (coreDie core) (.messageRegisterArrival core reg value sender)
  else arriveWrite s core ⟨reg, value, sender, false, none⟩)

/-- R361. Takes the register, or waits until it is full. -/
def execMget (d : Code) (n : BitVec 4) (s : State) : Out := .next (
  let t := s.th
  if !t.isWave && decide (12 ≤ n.toNat) then raise s (faultOf .illegal 2)
  else
    ops1 s 2 [] (reg 0 d) fun nd =>
      let k := s.core t.core
      if k.mFull.getLsbD n.toNat then
        let s := finish s (t.wr nd (k.m[n.toNat]?.getD 0)) [d] [] 2 8
        pumpPort (s.updCore t.core (fun k => { k with mFull := k.mFull &&& ~~~(1#16 <<< n.toNat) })) t.core
      else s.put (t.await s.clk (.msgReg n.toNat true) nd (usedIdx t [d] []) 2))

/-- Waits until register n is full, and leaves it so (R361). -/
def waitReg (n : Nat) (s : State) : State :=
  let t := s.th
  if !t.isWave && decide (12 ≤ n) then raise s (faultOf .illegal 1)
  else if (s.core t.core).mFull.getLsbD n then finish s t [] [] 1 8
  else s.put (t.await s.clk (.msgReg n false) 0 [] 1)

/-- R361. Waits until m0 is full. -/
def execWmsg0 (s : State) : Out := .next (waitReg 0 s)

/-- R361. Waits until m1 is full. -/
def execWmsg1 (s : State) : Out := .next (waitReg 1 s)

/-- R361. Waits until m2 is full. -/
def execWmsg2 (s : State) : Out := .next (waitReg 2 s)

/-- R361. Waits until m3 is full. -/
def execWmsg3 (s : State) : Out := .next (waitReg 3 s)

/-- R361. Waits until m4 is full. -/
def execWmsg4 (s : State) : Out := .next (waitReg 4 s)

/-- R361. Waits until m5 is full. -/
def execWmsg5 (s : State) : Out := .next (waitReg 5 s)

/-- R361. Waits until m6 is full. -/
def execWmsg6 (s : State) : Out := .next (waitReg 6 s)

/-- R361. Waits until m7 is full. -/
def execWmsg7 (s : State) : Out := .next (waitReg 7 s)

/-- R361. Waits until m8 is full. -/
def execWmsg8 (s : State) : Out := .next (waitReg 8 s)

/-- R361. Waits until m9 is full. -/
def execWmsg9 (s : State) : Out := .next (waitReg 9 s)

/-- R361. Waits until m10 is full. -/
def execWmsg10 (s : State) : Out := .next (waitReg 10 s)

/-- R361. Waits until m11 is full. -/
def execWmsg11 (s : State) : Out := .next (waitReg 11 s)

/-- R361. Waits until m12 is full. -/
def execWmsg12 (s : State) : Out := .next (waitReg 12 s)

/-- R361. Waits until m13 is full. -/
def execWmsg13 (s : State) : Out := .next (waitReg 13 s)

/-- R361. Waits until m14 is full. -/
def execWmsg14 (s : State) : Out := .next (waitReg 14 s)

/-- R361. Waits until m15 is full. -/
def execWmsg15 (s : State) : Out := .next (waitReg 15 s)

/-! Events for light handlers (R154, R155, R380). -/

/-- The thread stands at an instruction boundary and may issue. -/
def atBoundary (s : State) (t : Thread) : Bool :=
  t.run == .ready && t.hold == .running && t.mayIssue s.clk && !t.rx && !s.msgHeld t.uid &&
    (match t.place with | .swarm _ _ => true | .wave _ _ _ => true | _ => false)

/-- A wave thread that has entered its handler with cause COPY has acquired (R232). -/
def entryAcquire (s : State) (t : Thread) : State :=
  if t.isWave && t.inH && t.lhcause == 3 then l1Acquire s (clusterOf t.core) t.part else s

/-- A thread at a boundary enters its handler for a pending event, unless g0 to g3 await a result (R146, R155). -/
def takeEvent (s : State) (t : Thread) : Thread := if awaits s t 0 4 then t else takePending t s.clk

/-- An event of cause 2 or 3 reaches a thread: discarded when it is not enabled or the thread has ended, entered at a boundary,
else pending. A full/empty access that it abandons leaves its home's table, and an object that it leaves may be out of use. -/
def deliver (s : State) (uid cause : Nat) (dat : Word) : State :=
  match s.thread? uid with
  | none => s
  | some t =>
    if !t.enabled cause then s
    else
      let u := deliverEvent t s.clk cause dat
      let s := s.updThread uid (fun _ => u)
      let s := match t.run, u.run with
        | .waiting (.fe id), .ready =>
          let s : State := { s.dropFlight id with feWaits := s.feWaits.filter (fun e => e.1 != id) }
          feChange s (s.feWaits.map (·.2))
        | .waiting (.barObj k _ _), .ready => barInUse s k
        | _, _ => s
      match s.thread? uid with
      | none => s
      | some t =>
        let v := takeEvent s t
        if atBoundary s t && v.inH && !t.inH then entryAcquire ((coreEvent s t.core 7 1).updThread uid (fun _ => v)) v else s

/-- R155, R380. An event reaches a thread's light handler: it is entered at an instruction boundary, or pending until one. -/
def execLightHandlerEntry (thread cause : Nat) (datum : Word) (s : State) : Out := .next (deliver s thread cause datum)

/-- Threads that stand at a core, in place order (R228, R380). -/
def standingAt (s : State) (c : Nat) (f : Thread → Bool) : Option Thread :=
  (s.selThreads (fun t => t.hold == .running && f t &&
    (match t.place with | .swarm k _ => k == c | .wave k _ _ => k == c | _ => false))).foldl
    (fun (b : Option Thread) t =>
      match b with
      | none => some t
      | some u => if t.orderKey < u.orderKey then some t else some u) none

/-- A message has entered the mailbox of a core with this many ahead of it: the MAIL event, if a thread takes it (R380). -/
def mailEvent (s : State) (c ahead : Nat) : State :=
  match standingAt s c (fun t => t.enabled 2 && !t.inH) with
  | some t => s.later (.lightHandlerEntry t.uid 2 (BitVec.ofNat 32 ahead))
  | none =>
    match standingAt s c (fun t => t.enabled 2) with
    | some t => s.later (.lightHandlerEntry t.uid 2 (BitVec.ofNat 32 ahead))
    | none => s

/-! Mailboxes (R150, R362, R363). -/

/-- The words of a message. -/
def msgWords (m : BitVec 128) : List Word :=
  [m.setWidth 32, m.extractLsb' 32 32, m.extractLsb' 64 32, m.extractLsb' 96 32]

/-- A mover's message received by a wave thread is an acquire (R232, R363). [DEDUCED: log 73] -/
def mailAcquire (s : State) (t : Thread) (m : Mail) : State :=
  if m.mover && t.isWave then l1Acquire s (clusterOf t.core) t.part else s

/-- A message arrives at a mailbox: the oldest waiting rmsg takes it at once, else it enters, or waits behind a full one. -/
def arriveMail (s : State) (c : Nat) (m : Mail) : State :=
  let k := s.core c
  match (if k.mail.isEmpty then oldest (s.selThreads (fun t => t.hold == .running && t.core == c && t.run == .waiting .mailbox)) else none) with
  | some t => mailAcquire (s.updThread t.uid (fun t => t.complete (msgWords m.msg) (s.clk + 8))) t m
  | none =>
    let n := k.mail.length
    let s := s.updCore c (fun k => { k with mail := k.mail ++ [m] })
    if n < 32 then mailEvent s c n else s

/-- R362. The quad B goes to the mailbox of the core named by G(A). -/
def execMsend (a b : Code) (s : State) : Out := .next (
  ops2 s 2 [1] (reg 1 a) (quad 2 b) fun na nb =>
    let t := s.th
    match namedCore s t (s.src t 1 na) with
    | none => raise s (faultOf .window 2)
    | some c =>
      let msg := t.rd4 nb
      let s := finish s (clearArms t [1]) [a, b] [] 2 (t.interval 8 4)
      sendMessage s t.core c (.mailboxArrival c msg t.uid false) (fun e =>
        match e with
        | .mailboxArrival c' _ u _ => c' == c && u == t.uid
        | _ => false))

/-- R150. A message arrives at the mailbox of a core. -/
def execMailboxArrival (core : Nat) (msg : BitVec 128) (sender : Nat) (mover : Bool) (s : State) : Out := .next (
  if (s.die (coreDie core)).inReset then holdMessage s (coreDie core) (.mailboxArrival core msg sender mover)
  else arriveMail s core ⟨msg, mover, sender⟩)

/-- R363. Takes the oldest message, or waits for one. -/
def execRmsg (d : Code) (z : BitVec 3) (s : State) : Out := .next (
  ops1 s 2 [] (quad 0 d) fun nd =>
    let t := s.th
    match (s.core t.core).mail with
    | [] => s.put (t.await s.clk .mailbox nd (usedIdx t [d] []) 2)
    | m :: r =>
      let s := s.updCore t.core (fun k => { k with mail := r })
      let s := if 32 ≤ r.length then mailEvent s t.core 31 else s
      let s := if m.mover then acquireL1 s t z else s
      finish s (s.th.wr4 nd m.msg) [d] [] 2 8)

/-! Rills (R151 to R153, R364). -/

/-- The wired port of the issuing thread: it stands where it was placed, owns the port, and the direction fits (none: either). -/
def wireOf (s : State) (n : Nat) (out : Option Bool) : Option Wire :=
  let t := s.th
  if t.core = t.homeCore then
    (s.core t.core).wires.find? (fun w => w.port == n && w.owner == t.uid && (match out with | some o => w.out == o | none => true))
  else none

/-- The entries of an in port. -/
def rillAt (s : State) (c n : Nat) : List RillEntry := (s.core c).rill[n]?.getD []

/-- A rill instruction: an S instruction whose window fault comes after its operands resolve. -/
def rillOp (s : State) (n : BitVec 2) (out : Option Bool) (k : Wire → State) : State :=
  match wireOf s n.toNat out with
  | none => raise s (faultOf .window 2)
  | some w => k w

/-- Threads of a core that wait at a port try again. -/
def wakeRill (s : State) (c n : Nat) : State :=
  s.mapThreads (fun t => if t.live && t.core == c && t.run == .waiting (.rill n) then t.again s.clk else t)

/-- qput and qctl: the entry is readable 4 clk later. -/
def rillPut (n : BitVec 2) (a : Code) (ctl : Bool) (s : State) : State :=
  onEngine false s 2 <|
    ops1 s 2 [1] (reg 1 a) fun na =>
      rillOp s n (some true) fun w =>
        let t := s.th
        if 16 ≤ (rillAt s w.peer w.peerPort).length then s.put (t.await s.clk (.rill n.toNat) 0 [] 2)
        else
          let e : RillEntry := ⟨t.rd na, ctl, s.clk + 4⟩
          let s := s.updCore w.peer (fun k => { k with rill := k.rill.setIfInBounds w.peerPort ((k.rill[w.peerPort]?.getD []) ++ [e]) })
          (finish s t [a] [] 2 8).at_ (s.clk + 4) (.rillEntryReadable w.peer w.peerPort)

/-- R364. An entry with control flag 0. -/
def execQput (n : BitVec 2) (a : Code) (s : State) : Out := .next (rillPut n a false s)

/-- R364. An entry with control flag 1. -/
def execQctl (n : BitVec 2) (a : Code) (s : State) : Out := .next (rillPut n a true s)

/-- R364, R153. Dequeues the head: data into G(D); a control entry outside a handler enters it with cause RILL. -/
def execQget (d : Code) (n : BitVec 2) (s : State) : Out := .next (
  onEngine false s 2 <|
    ops1 s 2 [] (reg 0 d) fun nd =>
      rillOp s n (some false) fun w =>
        let t := s.th
        match rillAt s t.core n.toNat with
        | [] => s.put (t.await s.clk (.rill n.toNat) 0 [] 2)
        | e :: r =>
          if s.clk < e.at_ then s.put (t.await s.clk (.rill n.toNat) 0 [] 2)
          else
            let ctl := e.ctl && !t.inH
            if ctl && t.lhpc == 0 then raise s (faultOf .illegal 2)
            else
              let s := s.updCore t.core (fun k => { k with rill := k.rill.setIfInBounds n.toNat r })
              let s := wakeRill s w.peer w.peerPort
              if ctl then (coreEvent s t.core 7 1).put (enterHandler t s.clk 1 e.data t.pc)
              else finish s (t.wr nd e.data) [d] [] 2 8)

/-- R364. Readable entries and the head's flag of an in port, or free places of an out port; never waits. -/
def execQpeek (d : Code) (n : BitVec 2) (s : State) : Out := .next (
  onEngine false s 2 <|
    ops1 s 2 [] (reg 0 d) fun nd =>
      rillOp s n none fun w =>
        let t := s.th
        let v : Nat :=
          if w.out then 16 - (rillAt s w.peer w.peerPort).length
          else
            let l := (rillAt s t.core n.toNat).filter (fun e => decide (e.at_ ≤ s.clk))
            l.length + (match l with | e :: _ => if e.ctl then 32 else 0 | [] => 0)
        finish s (t.wr nd (BitVec.ofNat 32 v)) [d] [] 2 8)

/-- R152. An entry becomes readable: a reader that waits for it goes on. -/
def execRillEntryReadable (core port : Nat) (s : State) : Out := .next (wakeRill s core port)

end Sys2Proof.Machine
end

