-- ==== Sys2Proof/Machine/Mover.lean ====
section
/-! DEFINITION. Weirs and the mover: its commands, elements, stops and reports (R156, R231, R232, R369 to R378, R437, R438). -/

namespace Sys2Proof.Machine
open Sys2Proof

/-! Weirs (R369 to R372). -/

/-- The eight entries of a weir. -/
def weirEntries (s : State) (k : Nat) : List Nat := (List.range 8).map (fun j => (readDWord s.mem (k + 8 * j)).toNat)

/-- NSRC + 1 of entry 0. -/
def weirSources (e : List Nat) : Nat := bits (e.headD 0) 51 49 + 1

/-- PENDING of an entry. -/
def pendingOf (e : Nat) : Nat := bits e 47 24

/-- The object keeps the layout of R369. [DEDUCED: log 74] -/
def weirOk (e : List Nat) : Bool :=
  let n := weirSources e
  e.all (fun v => bits v 63 53 == 0 && bits v 23 21 == 0) &&
    (e.drop 1).all (fun v => bits v 52 48 == 0) && (e.drop n).all (fun v => v == 0) &&
    decide (((e.take n).map (fun v => bits v 20 0)).Nodup)

/-- Every PENDING of the sources is zero. -/
def weirIdle (e : List Nat) : Bool := (e.take (weirSources e)).all (fun v => pendingOf v == 0)

/-- PHASE of entry 0. -/
def weirPhase (e : List Nat) : Bool := (e.headD 0).testBit 48

/-- ERR of entry 0. -/
def weirErr (e : List Nat) : Bool := (e.headD 0).testBit 52

/-- A wwait is parked on the weir. -/
def weirWaited (s : State) (k : Nat) : Bool :=
  s.anyThread (fun t => match t.run with | .waiting (.weir a _) => a == k | _ => false)

/-- The weir's entries put back; it is in use while a PENDING is not zero or a wwait is parked on it. -/
def weirPut (s : State) (k : Nat) (e : List Nat) : State :=
  let s : State := { s with mem := writeList s.mem k (e.flatMap (fun v => leBytes 8 v)) }
  s.setRegion k 64 true (!weirIdle e || weirWaited s k)

/-- An entry with another PENDING. -/
def withPending (v p : Nat) : Nat := v % 2 ^ 24 + p % 2 ^ 24 * 2 ^ 24 + v / 2 ^ 48 * 2 ^ 48

/-- An entry list with ERR set. -/
def withErr (e : List Nat) : List Nat :=
  match e with
  | v :: r => (if v.testBit 52 then v else v + 2 ^ 52) :: r
  | [] => []

/-- Parked wwait instructions whose phase the weir has left, or all when ERR is set, return (R370, R372). -/
def wakeWeir (s : State) (k : Nat) (e : List Nat) : State :=
  let hit (t : Thread) : Bool :=
    match t.run with | .waiting (.weir a p) => a == k && (weirErr e || weirPhase e != p) | _ => false
  let woken := s.selThreads hit
  let s := (woken.filter (fun t => t.isWave && !weirErr e)).foldl (fun s t => l1Acquire s (clusterOf t.core) t.part) s
  let s := s.mapThreads (fun t => if t.live && hit t then t.complete [] (s.clk + latency t.core k) else t)
  if woken.isEmpty then s else s.setRegion k 64 true (!weirIdle e || weirWaited s k)

/-- A DECREMENT of bytes by the mover of a place (R371): past zero, or without a source of the place, it sets ERR; when the last
PENDING becomes zero the phase flips (R370). -/
def weirDec (s : State) (k place n : Nat) : State :=
  let e := weirEntries s k
  let idx := (e.take (weirSources e)).findIdx? (fun v => bits v 20 0 == place)
  let e' := match idx with
    | none => withErr e
    | some j =>
      let v := e[j]?.getD 0
      let e' := e.set j (withPending v (pendingOf v - n))
      if pendingOf v < n then withErr e' else e'
  let e' := if !weirIdle e && weirIdle e' && n != 0 then
      (match e' with | v :: r => (if v.testBit 48 then v - 2 ^ 48 else v + 2 ^ 48) :: r | [] => []) else e'
  wakeWeir (weirPut s k e') k e'

/-- ERR set in the weir: a counted command has failed (R377). -/
def weirFail (s : State) (k : Nat) : State :=
  let e := withErr (weirEntries s k)
  wakeWeir (weirPut s k e) k e

/-- R371. A decrement arrives at the weir. -/
def execWeirDecrement (weir place bytes : Nat) (s : State) : Out := .next (weirDec s weir place bytes)

/-- The weir of an instruction: global window, R and W rights, layout of R369; then at its home after every outstanding access of
the thread (R340, R370). [DEDUCED: log 74] -/
def withWeir (s : State) (a : DWord) (dst nreg : Nat) (adv : List Nat)
    (k : State → Nat → Loc → List Nat → State) : State :=
  withObject s a 1 dst nreg adv true fun s n l =>
    let e := weirEntries s l.key
    if l.key % 64 != 0 || !weirOk e then raise s (faultOf .illegal 2) else k s n l e

/-- R371. An expectation of G(B) bytes for source n. -/
def execWexp (n : BitVec 3) (a b : Code) (s : State) : Out := .next (
  ops2 s 2 [2] (addrPair 1 a) (reg 2 b) fun na nb =>
    let t := s.th
    let addr := t.rd2 na
    let adv := usedIdx t [a, b] []
    withWeir s addr 0 0 adv fun s time l e =>
      let v := (s.src t 2 nb).toNat
      let x := e[n.toNat]?.getD 0
      if weirSources e ≤ n.toNat then raise s (faultAt .window 2 addr 3)
      else if 2 ^ 24 ≤ pendingOf x + v then raise s (faultOf .weirOverflow 2)
      else
        let s := if v = 0 then s else weirPut s l.key (e.set n.toNat (withPending x (pendingOf x + v)))
        s.put ((advances (clearArms s.th [2]) adv).done s.clk 2 time))

/-- R372. Returns when every PENDING is zero or ERR is set; else parks until the phase changes or ERR is set. -/
def execWwait (a : Code) (z : BitVec 3) (s : State) : Out := .next (
  ops1 s 2 [] (addrPair 1 a) fun na =>
    let t := s.th
    let adv := usedIdx t [a] []
    withWeir s (t.rd2 na) 0 0 adv fun s time l e =>
      if weirIdle e || weirErr e then
        let s := if weirErr e then s else acquireL1 s t z
        s.put ((advances s.th adv).done s.clk 2 time)
      else
        let s := s.put (t.await s.clk (.weir l.key (weirPhase e)) 0 adv 2)
        s.setRegion l.key 64 true true)

/-- R372. C, PHASE and ERR into G(D); never waits. -/
def execWpoll (d a : Code) (z : BitVec 3) (s : State) : Out := .next (
  ops2 s 2 [] (addrPair 1 a) (reg 0 d) fun na nd =>
    let t := s.th
    let adv := usedIdx t [a, d] []
    withWeir s (t.rd2 na) nd 1 adv fun s time l e =>
      let v := (if weirIdle e then 1 else 0) + (if weirPhase e then 2 else 0) + (if weirErr e then 4 else 0)
      let s := if weirIdle e && !weirErr e then acquireL1 s t z else s
      s.put ((advances (s.th.wr nd (BitVec.ofNat 32 v)) adv).done s.clk 2 time))

/-! Commands (R373, R374). -/

/-- mvop: m12 to m15 as one group into the core's port, after every earlier access of the thread. -/
def moverOp (minor : Nat) (a : Code) (p z : BitVec 3) (s : State) : State :=
  onEngine false s 2 <|
    ops1 s 2 [] (quad 1 a) fun na =>
      let t := s.th
      drained s true 2 <|
        let word : Word := (t.rd (na + 3) &&& 0xFFFF0000#32) |||
          BitVec.ofNat 32 (z.toNat * 256 + p.toNat * 32 + minor)
        let words : BitVec 128 := word ++ t.rd (na + 2) ++ t.rd (na + 1) ++ t.rd na
        let s := finish s t [a] [] 2 8
        arriveWrite s t.core ⟨15, word, t.uid, false, some words⟩

/-- R373. OP 0. -/
def execMvcopy (a : Code) (p z : BitVec 3) (s : State) : Out := .next (moverOp 0 a p z s)

/-- R373. OP 1. -/
def execMvcopy2 (a : Code) (p z : BitVec 3) (s : State) : Out := .next (moverOp 1 a p z s)

/-- R373. OP 2. -/
def execMvgath (a : Code) (p z : BitVec 3) (s : State) : Out := .next (moverOp 2 a p z s)

/-- R373. OP 3. -/
def execMvscat (a : Code) (p z : BitVec 3) (s : State) : Out := .next (moverOp 3 a p z s)

/-- R373. OP 4. -/
def execMvfill (a : Code) (p z : BitVec 3) (s : State) : Out := .next (moverOp 4 a p z s)

/-- R373. OP 5. -/
def execMvred (a : Code) (p z : BitVec 3) (s : State) : Out := .next (moverOp 5 a p z s)

/-- m15 of a command. -/
def MoverCmd.word (c : MoverCmd) : Nat := (c.words.extractLsb' 96 32).toNat

/-- OP. -/
def MoverCmd.opc (c : MoverCmd) : Nat := c.word % 8

/-- REPORT. -/
def MoverCmd.report (c : MoverCmd) : Nat := bits c.word 7 5

/-- TAG. -/
def MoverCmd.tag (c : MoverCmd) : Nat := bits c.word 31 16

/-- LEN: m14. -/
def MoverCmd.len (c : MoverCmd) : Nat := (c.words.extractLsb' 64 32).toNat

/-- A field of the command block: n bytes from i. -/
def MoverCmd.field (c : MoverCmd) (i n : Nat) : Nat := sliceNat (c.block.getD []) i n

/-- SRC. -/
def MoverCmd.src (c : MoverCmd) : Nat := c.field 0 8
/-- DST. -/
def MoverCmd.dst (c : MoverCmd) : Nat := c.field 8 8
/-- IDX. -/
def MoverCmd.idx (c : MoverCmd) : Nat := c.field 48 8
/-- Byte 56: ESIZE, ROP or FE. -/
def MoverCmd.code (c : MoverCmd) : Nat := c.field 56 1

/-- Element size of a gather, scatter or reduction (R375). -/
def MoverCmd.esize (c : MoverCmd) : Nat :=
  if c.opc = 5 then (if c.code = 1 ∨ c.code = 7 then 8 else 4) else 2 ^ c.code

/-- The mover of a core as an agent: the rights are the poster's (R206). -/
def moverAgent (c : Nat) (p : Poster) : Agent := ⟨p.part, c, p.super, 0, none⟩

/-- A 64-bit address. -/
def dw (a : Nat) : DWord := BitVec.ofNat 64 a

/-- The window number of an address. -/
def topByte (a : Nat) : Nat := a % 2 ^ 64 / 2 ^ 56

/-- Why a unit's access stops: its cause, address and access kind; or what it waits for: a die held in reset, a walk, or data that comes from
outside. -/
inductive MStop where
  /-- A cause of R194. -/
  | cause (c : Cause) (addr kind : Nat)
  /-- The home die is in reset. -/
  | held (die : Nat)
  /-- A walk for this page (R207). -/
  | walk (vpage : Nat)
  /-- Reads of keys outside the package: first byte and length. -/
  | outside (l : List (Nat × Nat))
  deriving DecidableEq, Repr

/-- A checked access of a unit: its location; on a miss a walk, whose failure it finds afterwards (R207, R209). -/
def unitAt (s : State) (u : Nat) (g : Agent) (a size : Nat) (n : Need) (kind : Nat) : Except MStop Loc :=
  match checkAddr s g (dw a) size n false with
  | .ok l => if homeHeld s (coreDie g.core) l.key then .error (.held (homeSocket l.key)) else .ok l
  | .bad c => .error (.cause c (a % 2 ^ 64) kind)
  | .miss v => if s.badWalks.contains (u, v) then .error (.cause .translation (a % 2 ^ 64) kind) else .error (.walk v)

/-- The TLB and the slice that an access at a location passes (R204, R207). -/
def passAt (s : State) (g : Agent) (a : Nat) (l : Loc) : State :=
  let s := if topByte a = 0 then tlbUse s g.core g.part (bits a 54 16) else s
  l2Touch s l.key l.pte

/-- A checked mover access: the location's key. -/
def moverAt (s : State) (g : Agent) (a size : Nat) (n : Need) (kind : Nat) : State × Except MStop Nat :=
  match unitAt s (moverUnit g.core) g a size n kind with
  | .ok l => (passAt s g a l, .ok l.key)
  | .error e => (s, .error e)

/-- The largest naturally aligned piece, of at most 8 bytes, at a key. -/
def pieceSize (k n : Nat) : Nat :=
  if k % 8 = 0 ∧ 8 ≤ n then 8 else if k % 4 = 0 ∧ 4 ≤ n then 4 else if k % 2 = 0 ∧ 2 ≤ n then 2 else 1

/-- n bytes from a key, read piece by piece. -/
def readRun : Nat → State → Nat → Nat → State × List Byte
  | 0, s, _, _ => (s, [])
  | f + 1, s, k, n =>
    if n = 0 then (s, [])
    else
      let z := pieceSize k n
      let (v, s) := homeRead s k z
      let (s, r) := readRun f s (k + z) (n - z)
      (s, leBytes z v.toNat ++ r)

/-- Bytes written from a key, piece by piece. -/
def writeRun (p : Nat) : Nat → State → Nat → List Byte → State
  | 0, s, _, _ => s
  | f + 1, s, k, l =>
    if l.isEmpty then s
    else
      let z := pieceSize k l.length
      writeRun p f (homeWrite s k z (BitVec.ofNat 128 (leNat (l.take z))) (some p)) (k + z) (l.drop z)

/-- Bytes that a unit of a socket writes at a checked key; through an aperture they leave as one posted write. -/
def unitWrite (s : State) (src p k : Nat) (l : List Byte) : State :=
  if isOutside k then (sendOutside s src 0 k (.write l)).1 else writeRun p l.length s k l

/-- n bytes that a unit reads at a checked key, for a purpose: those outside the package once they have come. -/
def unitRead (s : State) (u tag k n : Nat) : State × Except MStop (List Byte) :=
  if isOutside k then
    match s.unitRead? u tag k n with
    | some r =>
      if r.lost then (s, .error (.cause .window 0 5))
      else (match r.data with
        | some l => (s, .ok ((l ++ List.replicate n 0).take n))
        | none => (s, .error (.outside [(k, n)])))
    | none => (s, .error (.outside [(k, n)]))
  else let (s, l) := readRun n s k n; (s, .ok l)

/-- n bytes that a unit of a die reads at a checked key: those outside the package, or at a home in reset, once they have come; a read that has
been lost gives zeros (R15, R55). -/
def unitFetch (s : State) (u die k n : Nat) : State × Except MStop (List Byte) :=
  match s.unitRead? u 0 k n with
  | some r =>
    (match r.data with
    | some l => (s, .ok ((l ++ List.replicate n 0).take n))
    | none => (s, .error (.outside [(k, n)])))
  | none =>
    if isOutside k || homeHeld s die k then (s, .error (.outside [(k, n)])) else let (s, l) := readRun n s k n; (s, .ok l)

/-- What a unit of a die waits for is asked for. -/
def askUnit (s : State) (u die part : Nat) (e : MStop) : State :=
  match e with
  | .walk v => askWalk s die part v (some u)
  | .outside l => l.foldl (fun s x => askOutside s die u 0 x.1 x.2) s
  | _ => s

/-- An access stops for good, as opposed to one that waits. -/
def MStop.final : MStop → Bool
  | .cause _ _ _ => true
  | _ => false

/-- The reads of a unit, and what its walks have found, are forgotten. -/
def forgetUnit (s : State) (u : Nat) : State :=
  { dropReads s u (fun _ => true) with badWalks := s.badWalks.filter (fun x => x.1 != u) }

/-- m source bytes of element j from an address, each piece up to the next multiple of 64 checked by itself; the pieces that have to come from
outside are named together. [DEDUCED: log 76] -/
def moverRead : Nat → State → Agent → Nat → Nat → Nat → Nat → State × Except MStop (List Byte)
  | 0, s, _, _, _, _, _ => (s, .ok [])
  | f + 1, s, g, j, a, m, align =>
    if m = 0 then (s, .ok [])
    else
      let n := min m (64 - a % 64)
      match moverAt s g a align needR 5 with
      | (s, .error e) => (s, .error e)
      | (s, .ok k) =>
        match unitRead s (moverUnit g.core) j k n with
        | (s, .error (.outside l)) =>
          (match moverRead f s g j (a + n) (m - n) align with
          | (s, .error (.outside r)) => (s, .error (.outside (l ++ r)))
          | (s, _) => (s, .error (.outside l)))
        | (s, .error (.cause c _ kind)) => (s, .error (.cause c a kind))
        | (s, .error e) => (s, .error e)
        | (s, .ok l) =>
          match moverRead f s g j (a + n) (m - n) align with
          | (s, .error e) => (s, .error e)
          | (s, .ok r) => (s, .ok (l ++ r))

/-- Number of 64-byte-aligned runs of n bytes from a. -/
def runsOf (a n : Nat) : Nat := if n = 0 then 0 else (a % 64 + n + 63) / 64

/-- Run j of n bytes from a: its offset and length. -/
def runAt (a n j : Nat) : Nat × Nat :=
  let o := if j = 0 then 0 else 64 * j - a % 64
  (o, min n (64 * (j + 1) - a % 64) - o)

/-- Element k of a copy of rows: destination, source and length; none past the end. -/
def rowElem : Nat → Nat → Nat → Nat → Nat → Nat → Nat → Option (Nat × Nat × Nat)
  | 0, _, _, _, _, _, _ => none
  | r + 1, d, s, n, dp, sp, k =>
    let z := runsOf d n
    if k < z then
      let (o, m) := runAt d n k
      some (d + o, s + o, m)
    else rowElem r ((d + dp) % 2 ^ 64) ((s + sp) % 2 ^ 64) n dp sp (k - z)

/-- Element k of a copy or fill. -/
def MoverCmd.run (c : MoverCmd) (k : Nat) : Option (Nat × Nat × Nat) :=
  if c.opc = 1 then rowElem (c.field 40 4) c.dst c.src c.len (c.field 36 4) (c.field 32 4) k
  else rowElem 1 c.dst c.src c.len 0 0 k

/-- The command has an element k. -/
def MoverCmd.has (c : MoverCmd) (k : Nat) : Bool :=
  match c.opc with
  | 2 => decide (k < c.len)
  | 3 => decide (k < c.len)
  | 5 => decide (k < c.len / c.esize)
  | _ => (c.run k).isSome

/-- A weir that the command may count at: its key, when it keeps R369 and has a source at the mover's place. -/
def moverWeir (s : State) (c : Nat) (a : MoverCmd) : State × Except MStop (Option Nat) :=
  let w := a.field 16 8
  match moverAt s (moverAgent c a.poster) w 1 needRW 6 with
  | (s, .error e) => (s, .error e)
  | (s, .ok k) =>
    if topByte w ≠ 0 ∨ !isStack k then (s, .error (.cause .window w 6))
    else
      let e := weirEntries s k
      let good := k % 64 == 0 && weirOk e && (e.take (weirSources e)).any (fun v => bits v 20 0 == moverPlace c)
      (s, .ok (if good then some k else none))

/-- The mailbox that the command names, if REPORT asks for a message and R359 allows it. -/
def moverMbox (s : State) (a : MoverCmd) : Option Nat :=
  let n : Word := BitVec.ofNat 32 (a.field 24 4)
  if a.report.testBit 0 && coreNameOk n && (s.partDies a.poster.part).contains (coreDie (coreOfName n)) then
    some (coreOfName n) else none

/-- A block that R374 calls malformed, weir and mailbox apart. -/
def MoverCmd.malformed (c : MoverCmd) : Bool :=
  let o := c.opc
  let gs := o == 2 || o == 3
  (!c.report.testBit 1 && c.field 16 8 != 0) || (!c.report.testBit 0 && c.field 24 4 != 0) || c.field 28 4 != 0 ||
    (o != 1 && (c.field 32 4 != 0 || c.field 36 4 != 0 || c.field 40 4 != 0)) || c.field 44 4 != 0 ||
    (!gs && c.idx != 0) || c.field 57 7 != 0 ||
    decide ((if gs then 4 else if o = 4 then 2 else if o = 5 then 7 else 0) < c.code) ||
    topByte c.dst == 0xF4 || (o != 4 && topByte c.src == 0xF4) || (gs && topByte c.idx == 0xF4) ||
    (c.report.testBit 1 && topByte (c.field 16 8) == 0xF4) || (o == 5 && c.len % c.esize != 0) ||
    (o == 4 && c.code != 0 && (c.dst % 4 != 0 || c.len % 4 != 0 || !([0xF1, 0xF2, 0xF3].contains (topByte c.dst))))

/-! Elements (R375, R376). -/

/-- The full/empty bits of n words from a key set for mvfill, with the pass that a change starts (R343). -/
def fillBits (s : State) (k n : Nat) (full : Bool) : State :=
  let ks := ((List.range (n / 4)).map (fun i => k + 4 * i)).filter (fun a => isFull s.full a != full)
  let s : State := { s with full := ks.foldl (fun l a => setFull l a full) s.full }
  if ks.isEmpty then s else feChange s ks

/-- The source bytes of element k, and the index of a gather's or scatter's. -/
def moverSource (s : State) (g : Agent) (c : MoverCmd) (k : Nat) : State × Except MStop (List Byte × Nat) :=
  let e := c.esize
  let index (s : State) : State × Except MStop Nat :=
    match moverRead 4 s g k (c.idx + 4 * k) 4 4 with
    | (s, .error x) => (s, .error x)
    | (s, .ok ix) => (s, .ok (leNat ix))
  let data (s : State) (a m align ix : Nat) : State × Except MStop (List Byte × Nat) :=
    match moverRead m s g k a m align with
    | (s, .error x) => (s, .error x)
    | (s, .ok v) => (s, .ok (v, ix))
  match c.opc with
  | 2 =>
    match index s with
    | (s, .error x) => (s, .error x)
    | (s, .ok ix) => data s (c.src + ix * e) e e ix
  | 3 =>
    match data s (c.src + k * e) e e 0 with
    | (s, .error (.outside l)) =>
      (match index s with
      | (s, .error (.outside r)) => (s, .error (.outside (l ++ r)))
      | (s, _) => (s, .error (.outside l)))
    | (s, .error x) => (s, .error x)
    | (s, .ok v) =>
      match index s with
      | (s, .error x) => (s, .error x)
      | (s, .ok ix) => (s, .ok (v.1, ix))
  | 5 => data s (c.src + k * e) e e 0
  | 4 =>
    match c.run k with
    | none => (s, .ok ([], 0))
    | some (d, _, m) => (s, .ok ((List.range m).map (fun i => BitVec.ofNat 8 (c.src / 2 ^ (8 * ((d - c.dst + i) % 8)))), 0))
  | _ =>
    match c.run k with
    | none => (s, .ok ([], 0))
    | some (_, a, m) => data s a m 1 0

/-- Where element k goes: address, access size and rights. -/
def MoverCmd.target (c : MoverCmd) (k ix : Nat) : Nat × Nat × Need :=
  match c.opc with
  | 2 => (c.dst + k * c.esize, c.esize, needW)
  | 3 => (c.dst + ix * c.esize, c.esize, needW)
  | 5 => (c.dst + k * c.esize, c.esize, needRW)
  | _ => (((c.run k).map (·.1)).getD c.dst, 1, needW)

/-- The read-modify-write of an element of a reduction (R375). -/
def MoverCmd.reduce (c : MoverCmd) (v : List Byte) : Nat × Bool × DWord :=
  let n : DWord := BitVec.ofNat 64 (leNat v)
  (match c.code with | 2 => 4 | 3 => 5 | 4 => 6 | 5 => 7 | 6 => 10 | _ => 0, c.esize == 8, if c.code = 7 then fxOf n else n)

/-- ELEMENT k: the bytes it counts, or what stops it. Its whole source is read before it is written (R376). -/
def moverElem (s : State) (core : Nat) (c : MoverCmd) (k : Nat) : State × Except MStop Nat :=
  let g := moverAgent core c.poster
  let p := c.poster.part
  match moverSource s g c k with
  | (s, .error x) => (s, .error x)
  | (s, .ok (v, ix)) =>
    let (a, z, need) := c.target k ix
    if v.isEmpty then (s, .ok 0)
    else match moverAt s g a z need 6 with
    | (s, .error x) => (s, .error x)
    | (s, .ok d) =>
      if c.opc = 5 then
        let (op, wide, n) := c.reduce v
        if isOutside d then ((sendOutside s (coreDie core) 0 d (.rmw op wide n 0)).1, .ok c.esize)
        else ((homeDo s d (.rmw op wide n 0 false) (some p)).1, .ok c.esize)
      else
        let s := unitWrite s (coreDie core) p d v
        (if c.opc = 4 ∧ c.code ≠ 0 then fillBits s d v.length (c.code == 1) else s, .ok v.length)

/-! Timing (R156, R376, R437). -/

/-- Where an access of a mover would be performed, translated as the tables stand. -/
def moverLoc (s : State) (g : Agent) (a : Nat) (n : Need) : Option Loc :=
  match checkAddr s g (dw a) 1 n false with
  | .ok l => some l
  | .bad _ => none
  | .miss v => (walk s (coreDie g.core) g.part (v * 65536)).map (fun e => ⟨leafPA e.2 e.1 (a % 2 ^ 55), 0, e.1⟩)

/-- L of a mover access, 0 when it would stop. [DEDUCED: log 31] -/
def moverLat (s : State) (core : Nat) (c : MoverCmd) (a : Nat) (n : Need) : Nat :=
  match moverLoc s (moverAgent core c.poster) a n with
  | some l => latency core l.key + hbmExtra s l.key
  | none => 0

/-- Li + Ls and Ld of element k. -/
def moverLats (s : State) (core : Nat) (c : MoverCmd) (k : Nat) : Nat × Nat :=
  let l := moverLat s core c
  let e := c.esize
  if c.has k then
    match c.opc with
    | 2 => (l (c.idx + 4 * k) needR + l c.src needR, l (c.dst + k * e) needW)
    | 3 => (l (c.idx + 4 * k) needR + l (c.src + k * e) needR, l c.dst needW)
    | 5 => (l (c.src + k * e) needR, l (c.dst + k * e) needRW)
    | o => match c.run k with
      | some (d, a, _) => (if o = 4 then 0 else l a needR, l d needW)
      | none => (0, 0)
  else (0, 0)

/-- Clk of element k after element 0. -/
def MoverCmd.pace (c : MoverCmd) (k : Nat) : Nat := if c.opc = 2 ∨ c.opc = 3 then 4 * k else k

/-! Stops and reports (R377, R378). -/

/-- The command in progress changed. -/
def updCmd (s : State) (core : Nat) (f : MoverCmd → MoverCmd) : State :=
  s.updCore core (fun k => { k with movers := match k.movers with | c :: r => f c :: r | [] => [] })

/-- The decrement for the elements not yet counted. -/
def countWeir (s : State) (core : Nat) (c : MoverCmd) : State :=
  let s := updCmd s core (fun c => { c with uncounted := 0 })
  match c.weir with
  | some k => if c.uncounted = 0 then s else s.later (.weirDecrement k (moverPlace core) c.uncounted)
  | none => s

/-- A command ends with a status, cause code and address; its completion follows at once. [DEDUCED: log 31] -/
def endCmd (s : State) (core : Nat) (c : MoverCmd) (status cause addr : Nat) : State :=
  (updCmd (countWeir (forgetUnit s (moverUnit core)) core c) core
    (fun c => { c with ended := some (status, cause, addr), fault := none })).later (.moverCommandComplete core)

/-- The THREAD record of a mover command that stops at element k (R438). -/
def moverRecord (core : Nat) (c : MoverCmd) (f : FaultRec) (entry : Nat) : List Byte :=
  fqBytes 1 f.cause.code (coreDie core) (moverPlace core) f.addr.toNat
    (leBytes 4 0 ++ [0xFF, 0xFF, 0] ++ leBytes 1 f.acc ++ leBytes 8 1 ++ leBytes 2 entry ++ leBytes 2 0 ++
      leBytes 4 c.poster.ident ++ leBytes 1 c.poster.stream ++ leBytes 1 c.poster.slot ++ leBytes 2 c.poster.runNo ++
      leBytes 4 c.k ++ leBytes 8 0)

/-- A STOP at element k (R377): a translation or permission cause joins the fault table of the mover's die; any other ends the
command with status ACCESS; a home in reset, a walk and sources outside the package are waited for. [DEDUCED: log 23] -/
def stopCmd (s : State) (core : Nat) (c : MoverCmd) (e : MStop) : State :=
  match e with
  | .cause x a kind =>
    if x = .translation ∨ x = .permission then
      let s := countWeir (forgetUnit s (moverUnit core)) core c
      let f := faultAt x 0 (dw a) kind
      let w : FqWait := ⟨[], 0, 0, c.poster.stream, c.poster.slot⟩
      let (s, en, tk, sq) := joinFault s (coreDie core) c.poster.part (a / 65536) x (core + 2 ^ 40) (moverRecord core c f) w
      updCmd s core (fun c => { c with fault := some { f with entry := en, ticket := tk, seq := sq }, base := none })
    else endCmd s core c 3 x.code a
  | .held d => holdMessage s d (.moverCommandStart core)
  | .walk v => askWalk s (coreDie core) c.poster.part v (some (moverUnit core))
  | .outside l => l.foldl (fun s x => askOutside s (coreDie core) (moverUnit core) c.k x.1 x.2) s

/-- The mover takes its next step at this clk, unless it has one due by then. -/
def moverNext (s : State) (core c : Nat) : State :=
  if s.timers.any (fun x => x.2 == .moverCommandStart core && decide (x.1 ≤ c)) then s else s.at_ c (.moverCommandStart core)

/-- A run of the command sets off at its element k: 16 clk and more later the accesses of that element set out, and after Ls and Ld it is
performed (R437). -/
def setOff (s : State) (core more : Nat) : State :=
  match (s.core core).movers with
  | [] => s
  | c :: _ =>
    let (ls, ld) := moverLats s core c c.k
    let now := s.clk + 16 + more
    moverNext (updCmd s core (fun x => { x with
      base := some (now + ls + ld - c.pace c.k), start := now - c.pace c.k, ahead := c.k })) core now

/-- Source bytes of an element have come from outside: if its turn is now, it is performed Ld later, and those after it in their turn. -/
def moverData (s : State) (core k : Nat) : State :=
  match (s.core core).movers with
  | [] => s
  | c :: _ =>
    match c.base with
    | some b => if c.k = k then updCmd s core (fun x => { x with base := some (max b (s.clk + (moverLats s core c k).2 - c.pace k)) }) else s
    | none => s

/-- The command block is read (R374), and the weir with it; a good command sets out at its first element. -/
def openCmd (s : State) (core : Nat) (c : MoverCmd) : State :=
  let a := (c.words.setWidth 64).toNat
  let lb := moverLat s core c a needR
  match moverAt s (moverAgent core c.poster) a 64 needR 7 with
  | (s, .error e) => stopCmd s core c e
  | (s, .ok k) =>
    match unitRead s (moverUnit core) c.k k 64 with
    | (s, .error (.cause x _ _)) => stopCmd s core c (.cause x a 7)
    | (s, .error e) => stopCmd s core c e
    | (s, .ok b) =>
      let c := { c with block := some b }
      let (s, w) := if c.report.testBit 1 && topByte (c.field 16 8) != 0xF4 then moverWeir s core c else (s, .ok none)
      match w with
      | .error (.walk v) => stopCmd s core c (.walk v)
      | .error e =>
        -- a translation or permission stop reads the block afresh on replay
        let again : Bool := match e with | .cause x _ _ => x == .translation || x == .permission | _ => true
        stopCmd (if again then s else updCmd s core (fun x => { x with block := some b })) core c e
      | .ok w =>
        let weirBad := c.report.testBit 1 && w.isNone
        let mboxBad := c.report.testBit 0 && (moverMbox s c).isNone
        let s := updCmd (dropReads s (moverUnit core) (fun _ => true)) core (fun x => { x with block := some b, weir := w })
        if c.malformed || weirBad || mboxBad then endCmd s core c 1 0 0
        else
          setOff s core (if isOutside k then 0 else lb - 8)

/-! The course of a command (R375, R376, R437). -/

/-- The accesses of element j set out: walks for pages that the TLBs lack, and requests for what lies outside. An element whose destination
lies outside waits for its turn, so that it reads what an earlier one has written. [DEDUCED: log 76] -/
def setOut (s : State) (core : Nat) (c : MoverCmd) (j : Nat) : State :=
  let g := moverAgent core c.poster
  let ask (s : State) (v : Nat) : State := askWalk s (coreDie core) c.poster.part v (some (moverUnit core))
  let (s, out) := match (moverSource s g c j).2 with
    | .error (.walk v) => (ask s v, [])
    | .error (.outside l) => (s, l)
    | _ => (s, [])
  let (a, z, need) := c.target j 0
  match (if c.opc = 3 then .error (.held 0) else unitAt s (moverUnit core) g a z need 6) with
  | .error (.walk v) => ask s v
  | .ok l => if isOutside l.key then s else out.foldl (fun s x => askOutside s (coreDie core) (moverUnit core) j x.1 x.2) s
  | _ => out.foldl (fun s x => askOutside s (coreDie core) (moverUnit core) j x.1 x.2) s

/-- The accesses of the elements whose time has come set out, at most n. -/
def setOutAll (core : Nat) : Nat → State → State
  | 0, s => s
  | n + 1, s =>
    match (s.core core).movers with
    | c :: _ =>
      if c.has c.ahead && decide (c.start + c.pace c.ahead ≤ s.clk) then
        setOutAll core n (updCmd (setOut s core c c.ahead) core (fun x => { x with ahead := c.ahead + 1 }))
      else s
    | [] => s

/-- R375, R376, R437. The mover of a core takes its next command, reads its block, sends out the accesses of its elements, and performs the
elements in ascending order, each at its clk; past the last one the command completes. -/
def execMoverCommandStart (core : Nat) (s : State) : Out := .next (
  match (s.core core).movers with
  | [] => s
  | c :: _ =>
    if c.ended.isSome then s.later (.moverCommandComplete core)
    else if c.fault.isSome then s
    else if c.block.isNone then openCmd s core c
    else
      match c.base with
      | none => setOff s core 0
      | some b =>
        let s := setOutAll core 4096 s
        let ahead := (((s.core core).movers.head?).map MoverCmd.ahead).getD 0
        let s := if c.has ahead then moverNext s core (max (s.clk + 1) (c.start + c.pace ahead)) else s
        let due := b + c.pace c.k
        if s.clk < due then moverNext s core due
        else if c.has c.k then
          match moverElem s core c c.k with
          | (s, .error e) => stopCmd s core { c with ahead := ahead } e
          | (s, .ok n) =>
            let c' : MoverCmd := { c with k := c.k + 1, uncounted := c.uncounted + n, ahead := max ahead (c.k + 1) }
            let s := dropReads (updCmd s core (fun _ => c')) (moverUnit core) (fun r => r.tag == c.k)
            let s := if c'.k % 64 = 0 ∧ c'.has c'.k then countWeir s core c' else s
            let next := if c'.has c'.k then b + c'.pace c'.k else if c.opc = 2 ∨ c.opc = 3 then due else due + 1
            if c'.has c'.k then moverNext s core (max s.clk next) else s.at_ (max s.clk next) (.moverCommandComplete core)
        else s.later (.moverCommandComplete core))

/-- R378. The reports of the command that has ended: the weir, then the message, then COPY; the next command starts. -/
def execMoverCommandComplete (core : Nat) (s : State) : Out := .next (
  match (s.core core).movers with
  | [] => s
  | c :: rest =>
    if c.ended.isNone && (c.fault.isSome || c.block.isNone || c.has c.k) then s
    else
      let (status, cause, addr) := c.ended.getD (0, 0, 0)
      let s := forgetUnit (countWeir s core c) (moverUnit core)
      let s := match c.weir with
        | some k => if status = 0 then s else weirFail s k
        | none => s
      let msg : BitVec 128 := BitVec.ofNat 128 (status + (if status = 3 then cause else 0) * 2 ^ 8 + c.tag * 2 ^ 16 + c.k * 2 ^ 32 +
        (if status = 2 ∨ status = 3 then addr else 0) * 2 ^ 64)
      let (s, at_) := match (if c.block.isSome then moverMbox s c else none) with
        | some e =>
          let t := s.clk + msgLatency core e / 2
          (s.at_ t (.mailboxArrival e msg (moverUnit core) true), t)
        | none => (s, s.clk)
      let s := if c.report.testBit 2 && status != 1 then
          match s.thread? c.poster.uid with
          | some t => s.at_ (max at_ (s.clk + msgLatency core t.core / 2)) (.lightHandlerEntry c.poster.uid 3 (BitVec.ofNat 32 c.tag))
          | none => s
        else s
      let s := s.updCore core (fun k => { k with movers := rest })
      let s := pumpPort s core
      let s := if c.poster.ofRecord then s.later (.recordComplete c.poster.part c.poster.stream c.poster.slot) else s
      if rest.isEmpty then s else s.later (.moverCommandStart core))

end Sys2Proof.Machine
end

