-- ==== Sys2Proof/Machine/Place.lean ====
section
/-! DEFINITION. Resources of cores, engines and clusters, and the placement that fits them (R85 to R91, R98, R99, R105, R170,
R198). -/

namespace Sys2Proof.Machine
open Sys2Proof

/-- Register allocation of a declared count (R87, R170). -/
def allocOf (n : Nat) : Nat := (n + 7) / 8 * 8

/-- The lowest multiple of align at which n units below cap overlap none of the ranges (base, size). -/
def lowestFit (used : List (Nat × Nat)) (n cap align : Nat) : Option Nat :=
  let up (x : Nat) : Nat := (x + align - 1) / align * align
  let cand := 0 :: used.map (fun r => up (r.1 + r.2))
  let ok := cand.filter (fun b => decide (b + n ≤ cap) && used.all (fun r => r.2 == 0 || !meets b n r.1 r.2))
  match ok with
  | [] => none
  | b :: r => some (r.foldl min b)

/-- What is taken: swarm slots (core, slot, first register, registers), lane positions (engine, lane, position, first register,
registers), group entries (cluster, entry), clusters of uniform sets, basin ranges (cluster, base, size) and private ranges
(die, base, bytes). -/
structure Occ where
  /-- Swarm slots. -/
  swarm : List (Nat × Nat × Nat × Nat)
  /-- Lane positions. -/
  wave : List (Nat × Nat × Nat × Nat × Nat)
  /-- Group entries. -/
  entries : List (Nat × Nat)
  /-- Clusters, one for each uniform set. -/
  unis : List Nat
  /-- Basin ranges. -/
  basins : List (Nat × Nat × Nat)
  /-- Private ranges. -/
  pools : List (Nat × Nat × Nat)
  deriving DecidableEq, Repr

/-- Nothing is taken. -/
def Occ.empty : Occ := ⟨[], [], [], [], [], []⟩

/-- A group is saved: it holds no core, engine or cluster resource. -/
def State.groupSaved (s : State) (g : Group) : Bool := ((s.gang? g.gang).map (fun x => x.status == .saved)).getD false

/-- What is taken now. A saved gang holds only its private backing. -/
def occupied (s : State) : Occ where
  swarm := (s.th :: s.threads).filterMap (fun t =>
    match t.place with
    | .swarm c k => if t.hold == .saved then none else some (c, k, t.base, allocOf t.count)
    | _ => none)
  wave := (s.th :: s.threads).filterMap (fun t =>
    match t.place with
    | .wave c l p => if t.hold == .saved then none else some (c, l, p, t.base, allocOf t.count)
    | _ => none)
  entries := (s.groups.filter (fun g => !s.groupSaved g)).map (fun g => (g.id % 8192 / 16, g.id % 16))
  unis := (s.groups.filter (fun g => g.wave && !s.groupSaved g)).map (fun g => g.id % 8192 / 16)
  basins := (s.groups.filter (fun g => !s.groupSaved g)).map (fun g => (g.id % 8192 / 16, g.basin.1, g.basin.2))
  pools := s.groups.flatMap (fun g => g.backing.map (fun b => (g.id % 8192 / 256, b.1, b.2)))

/-- Register ranges of a core that are taken. -/
def Occ.regsOf (o : Occ) (c : Nat) : List (Nat × Nat) := (o.swarm.filter (fun x => x.1 == c)).map (fun x => (x.2.2.1, x.2.2.2))

/-- Slots of a core that are taken. -/
def Occ.slotsOf (o : Occ) (c : Nat) : List Nat := (o.swarm.filter (fun x => x.1 == c)).map (fun x => x.2.1)

/-- Register ranges of a lane that are taken. -/
def Occ.laneRegs (o : Occ) (c l : Nat) : List (Nat × Nat) :=
  (o.wave.filter (fun x => x.1 == c && x.2.1 == l)).map (fun x => (x.2.2.2.1, x.2.2.2.2))

/-- Positions of a lane that are taken. -/
def Occ.lanePos (o : Occ) (c l : Nat) : List Nat := (o.wave.filter (fun x => x.1 == c && x.2.1 == l)).map (fun x => x.2.2.1)

/-- Slots 0 to 62 of a core that are free; slots 56 to 62 of channel core 0 are the supervisor's (R91). -/
def Occ.freeSlots (o : Occ) (c : Nat) : List Nat :=
  let used := o.slotsOf c
  (List.range 63).filter (fun k => !used.contains k && !(coreCluster c == 15 && coreIdx c == 0 && decide (56 ≤ k)))

/-- Free positions of a lane. -/
def Occ.freePos (o : Occ) (c l : Nat) : List Nat :=
  let used := o.lanePos c l
  (List.range 32).filter (fun k => !used.contains k)

/-- A group of a placement: cluster, entry, basin range, private ranges by role, threads. -/
structure GroupPlan where
  /-- Cluster number. -/
  cluster : Nat
  /-- Entry. -/
  entry : Nat
  /-- Basin range. -/
  basin : Nat × Nat
  /-- Private ranges by role. -/
  backing : List (Nat × Nat)
  /-- Threads. -/
  threads : List ThreadPlan
  deriving DecidableEq, Repr

/-- One swarm thread on a cluster (R88): the first core that fits when packed, else the one with the most free slots. -/
def planSwarm (o : Occ) (cl : Nat) (pack : Bool) (n : Nat) : Option (Nat × Nat × Nat) :=
  let cand := (List.range 32).filterMap (fun j =>
    let c := cl * 64 + j
    match o.freeSlots c, lowestFit (o.regsOf c) n 2048 1 with
    | k :: r, some b => some (c, k, b, r.length)
    | _, _ => none)
  match cand with
  | [] => none
  | x :: r =>
    let y := if pack then x else r.foldl (fun b z => if b.2.2.2 < z.2.2.2 then z else b) x
    some (y.1, y.2.1, y.2.2.1)

/-- The threads t to t + n - 1 of a swarm role. -/
def planSwarms (cl role : Nat) (e : RoleEntry) : Nat → Nat → Occ → Option (List ThreadPlan × Occ)
  | 0, _, o => some ([], o)
  | n + 1, t, o =>
    let a := allocOf e.nreg
    match planSwarm o cl e.pack a with
    | none => none
    | some (c, k, b) =>
      match planSwarms cl role e n (t + 1) { o with swarm := (c, k, b, a) :: o.swarm } with
      | none => none
      | some (l, o) => some (⟨role, t, .swarm c k, b, false⟩ :: l, o)

/-- m threads at the lowest free positions of a lane: position and first register of each. [DESIGN CHOICE: log 97] -/
def planLane (c l a : Nat) : Nat → Occ → Option (List (Nat × Nat) × Occ)
  | 0, o => some ([], o)
  | m + 1, o =>
    match o.freePos c l, lowestFit (o.laneRegs c l) a 2048 1 with
    | p :: _, some b =>
      (planLane c l a m { o with wave := (c, l, p, b, a) :: o.wave }).map (fun x => ((p, b) :: x.1, x.2))
    | _, _ => none

/-- A team on an engine: four threads on every lane from lane l on. -/
def planTeamOn (c a : Nat) : Nat → Nat → Occ → Option (List (Nat × List (Nat × Nat)) × Occ)
  | 0, _, o => some ([], o)
  | n + 1, l, o =>
    match planLane c l a 4 o with
    | none => none
    | some (x, o) => (planTeamOn c a n (l + 1) o).map (fun y => ((l, x) :: y.1, y.2))

/-- Team j of a wave role (R89): the lowest-numbered engine that takes it whole. -/
def planTeam (cl role j total : Nat) (e : RoleEntry) (o : Occ) : Option (List ThreadPlan × Occ) :=
  (List.range 6).findSome? (fun i =>
    let c := cl * 64 + 32 + i
    (planTeamOn c (allocOf e.nreg) 64 0 o).map (fun x =>
      (x.1.flatMap (fun (lane : Nat × List (Nat × Nat)) =>
        (lane.2.zipIdx).map (fun (p : (Nat × Nat) × Nat) =>
          let t := 256 * j + 64 * p.2 + lane.1
          ⟨role, t, .wave c lane.1 p.1.1, p.1.2, decide (total ≤ t)⟩)), x.2)))

/-- Teams j to j + n - 1. -/
def planTeams (cl role total : Nat) (e : RoleEntry) : Nat → Nat → Occ → Option (List ThreadPlan × Occ)
  | 0, _, o => some ([], o)
  | n + 1, j, o =>
    match planTeam cl role j total e o with
    | none => none
    | some (l, o) => (planTeams cl role total e n (j + 1) o).map (fun x => (l ++ x.1, x.2))

/-- The threads of a role of a group. -/
def planRole (cl role total : Nat) (e : RoleEntry) (o : Occ) : Option (List ThreadPlan × Occ) :=
  if e.wave then planTeams cl role total e ((total + 255) / 256) 0 o else planSwarms cl role e total 0 o

/-- The threads of the roles, in role-word order; a role is its number, threads and entry. -/
def planRoles (cl : Nat) : List (Nat × Nat × RoleEntry) → Occ → Option (List ThreadPlan × Occ)
  | [], o => some ([], o)
  | (r, n, e) :: rs, o =>
    match planRole cl r n e o with
    | none => none
    | some (l, o) => (planRoles cl rs o).map (fun x => (l ++ x.1, x.2))

/-- Bytes of private backing of a role (R198), in whole pages of 64 KiB. -/
def backingBytes (n : Nat) (e : RoleEntry) : Nat := ((n + 63) / 64 * (e.priv * 64) + 65535) / 65536 * 65536

/-- The private ranges of the roles in the pool of a die; role numbers without one take size 0. -/
def planBacking (die pool size : Nat) : List (Nat × Nat × RoleEntry) → Occ → Option (List (Nat × Nat) × Occ)
  | [], o => some ([], o)
  | (_, n, e) :: rs, o =>
    let b := backingBytes n e
    if b = 0 then (planBacking die pool size rs o).map (fun x => ((0, 0) :: x.1, x.2))
    else
      match lowestFit ((o.pools.filter (fun x => x.1 == die)).map (fun x => (x.2.1 - pool, x.2.2))) b size 65536 with
      | none => none
      | some a => (planBacking die pool size rs { o with pools := (die, pool + a, b) :: o.pools }).map (fun x => ((pool + a, b) :: x.1, x.2))

/-- A group's share of a cluster (R87): the lowest free entry, uniform set, basin and private backing; its threads are still to be planned.
[DESIGN CHOICE: log 97] -/
def planShare (s : State) (cl : Nat) (roles : List (Nat × Nat × RoleEntry)) (o : Occ) : Option (GroupPlan × Occ) :=
  let used := (o.entries.filter (fun e => e.1 == cl)).map (·.2)
  let wave := roles.any (fun r => r.2.2.wave)
  let pool := (s.die (cl / 16)).mcb.privpool.toNat
  let need := (roles.map (fun r => r.2.2.basin)).sum
  match (List.range 16).find? (fun e => !used.contains e) with
  | none => none
  | some entry =>
    if wave && decide (8 ≤ (o.unis.filter (fun u => u == cl)).length) then none
    else
      match lowestFit ((o.basins.filter (fun b => b.1 == cl)).map (fun b => b.2)) need 0xB80000 256 with
      | none => none
      | some base =>
        (planBacking (cl / 16) (bits pool 51 16 * 65536) (bits pool 15 0 * 65536) roles o).map (fun x =>
          (⟨cl, entry, (base, need), x.1, []⟩,
            { x.2 with entries := (cl, entry) :: o.entries, unis := if wave then cl :: o.unis else o.unis,
                       basins := (cl, base, need) :: o.basins }))

/-- A GROUP on a cluster (R87 to R89). -/
def planGroup (s : State) (cl : Nat) (roles : List (Nat × Nat × RoleEntry)) (o : Occ) : Option (GroupPlan × Occ) :=
  match planShare s cl roles o with
  | none => none
  | some (g, o) => (planRoles cl roles o).map (fun x => ({ g with threads := x.1 }, x.2))

/-! Records (R60, R85, R86). -/

/-- Word i of a record. -/
def Rec.word (r : Rec) (i : Nat) : Nat := (r.words[i]?.getD 0).toNat

/-- The 64-bit value in words i and i + 1. -/
def Rec.word2 (r : Rec) (i : Nat) : Nat := r.word i + r.word (i + 1) * 2 ^ 32

/-- NROLE + 1. -/
def Rec.nroles (r : Rec) : Nat := bits (r.word 0) 9 8 + 1

/-- GANGS. -/
def Rec.gangs (r : Rec) : Nat := bits (r.word 10) 23 0

/-- The roles of a record: number, GPG, THREADS and role-table entry. -/
def Rec.roles (r : Rec) : List (Nat × Nat × Nat × RoleEntry) :=
  match r.obj with
  | none => []
  | some o => (List.range r.nroles).filterMap (fun i =>
      let w := r.word (12 + i)
      (o.roles[bits w 3 0]?).map (fun e => (i, bits w 7 4, bits w 21 8, e)))

/-- G of a gang (R86). -/
def Rec.gsize (r : Rec) : Nat := 1 + (r.roles.map (fun x => x.2.1)).foldl max 0

/-- The roles that have threads in group g. -/
def Rec.groupRoles (r : Rec) (g : Nat) : List (Nat × Nat × RoleEntry) :=
  (r.roles.filter (fun x => decide (g ≤ x.2.1))).map (fun x => (x.1, x.2.2.1, x.2.2.2))

/-- The groups g to g + n - 1 of a gang on clusters from cl on. -/
def planGroups (s : State) (r : Rec) : Nat → Nat → Nat → Occ → Option (List GroupPlan × Occ)
  | 0, _, _, o => some ([], o)
  | n + 1, g, cl, o =>
    match planGroup s cl (r.groupRoles g) o with
    | none => none
    | some (p, o) => (planGroups s r n (g + 1) (cl + 1) o).map (fun x => (p :: x.1, x.2))

/-- A gang of a record on clusters k on of a die. -/
def planGang (s : State) (r : Rec) (die k : Nat) (o : Occ) : Option (List GroupPlan × Occ) :=
  if 12 < k + r.gsize then none else planGroups s r r.gsize 0 (die * 16 + k) o

/-- The record of a slot of a stream of a partition. -/
def State.rec? (s : State) (p st sl : Nat) : Option Rec :=
  (s.part? p).bind (fun q => (q.stream st).recs.find? (fun r => r.slot == sl))

/-- The places and registers of a gang that is saved, as a plan. -/
def savedPlan (s : State) (g : Gang) : List ThreadPlan :=
  ((s.th :: s.threads).filter (fun t => t.gang == g.id && t.hold == .saved)).map (fun t => ⟨t.role, t.tid, t.place, t.base, !t.live⟩)

/-- A saved gang of a record that waits to be restored, the one offered first. -/
def savedGang (s : State) (p st sl : Nat) (evicted : Bool) : Option Gang :=
  s.gangs.find? (fun g => g.part == p && g.stream == st && g.slot == sl && g.status == .saved && g.evicted == evicted)

/-- What is taken on a die for a newcomer, with what its drain reservations plan (R99). -/
def withPlans (s : State) (die : Nat) (o : Occ) : Occ :=
  (s.die die).drains.foldl (fun o x =>
    x.plan.foldl (fun (o : Occ) t =>
      let n := ((s.rec? x.part x.stream x.slot).bind (fun r => (r.roles[t.role]?).map (fun e => e.2.2.2.nreg))).getD 128
      match t.place with
      | .swarm c k => { o with swarm := (c, k, t.base, allocOf n) :: o.swarm }
      | .wave c l p => { o with wave := (c, l, p, t.base, allocOf n) :: o.wave }
      | _ => o) o) o

/-- The highest free slot and the lowest fitting register range for a guest at a core (R162). -/
def guestSlot (s : State) (c n : Nat) : Option (Nat × Nat) :=
  let o := withPlans s (coreDie c) (occupied s)
  match (o.freeSlots c).getLast?, lowestFit (o.regsOf c) n 2048 1 with
  | some k, some b => some (k, b)
  | _, _ => none

end Sys2Proof.Machine
end

