-- ==== Sys2Proof/Machine/Migrate.lean ====
section
/-! DEFINITION. Migration, landing areas and overflow, spawned update contexts, and the crossings between a swarm core and a wave
engine (R157 to R165, R168, R365 to R368). -/

namespace Sys2Proof.Machine
open Sys2Proof

/-! Arrivals (R162 to R164). -/

/-- A wait in which a guest counts as parked (R104). -/
def Run.parked : Run → Bool
  | .waiting w => w.parked
  | _ => false

/-- A guest that is parked in a slot of a core. -/
def parkedGuest (c : Nat) (t : Thread) : Bool :=
  match t.place with
  | .swarm k _ => k == c && t.guest && t.live && t.run.parked && t.hold == .running
  | _ => false

/-- Guests that park while migrants wait in the landing area leave their slots, their waits kept (R163). [DEDUCED: log 33] -/
def vacateGuests (s : State) (c : Nat) : State :=
  if (s.core c).landing.isEmpty then s
  else pokeEngine (s.mapThreads (fun t => if parkedGuest c t then { t with place := .transit c, vacated := true } else t)) (c / 64)

/-- A migrant takes a guest slot: it restarts after 12 clk (R158, R162). -/
def settle (s : State) (uid c k b : Nat) : State :=
  (coreEvent s c 6 1).updThread uid (fun t => { t with place := .swarm c k, base := b, readyAt := s.clk + 12, guest := true })

/-- The allocation of a thread. -/
def Thread.alloc (t : Thread) : Nat := allocOf t.count

/-- Waiting migrants of a landing area take free slots in arrival order; an overflow queue moves up as space frees. -/
def landingTake : Nat → State → Nat → State
  | 0, s, _ => s
  | n + 1, s, c =>
    match (s.core c).landing with
    | [] => s
    | u :: r =>
      match s.thread? u with
      | none => landingTake n (s.updCore c (fun k => { k with landing := r })) c
      | some t =>
        match guestSlot s c t.alloc with
        | none => s
        | some (k, b) => landingTake n (settle (s.updCore c (fun k => { k with landing := r })) u c k b) c

/-- The landing area of a core after a slot or a place in it may have become free. -/
def landingPump (s : State) (c : Nat) : State :=
  let s := vacateGuests s c
  let s := landingTake (s.core c).landing.length s c
  let k := s.core c
  if !k.overflow.isEmpty && decide (k.landing.length < 128) then s.atOnce (s.clk + 200) (.overflowMove c) else s

/-- A context arrives at a core: a slot, the landing area, or the overflow region. Where in the bytes of these areas a waiting context lies is
not given: contexts that wait are kept as threads, apart from memory. [DEDUCED: log 27] [DESIGN CHOICE: log 95] -/
def arriveAt (s : State) (uid c : Nat) : State :=
  match s.thread? uid with
  | none => s
  | some t =>
    let k := s.core c
    let s := (clusterEvent s c 5 1 1).updThread uid (fun t => { t with place := .transit c, vacated := false })
    if !k.overflow.isEmpty || decide (128 ≤ k.landing.length) then
      landingPump ((clusterEvent s c 5 3 1).updCore c (fun k => { k with overflow := k.overflow ++ [uid] })) c
    else
      match (if k.landing.isEmpty then guestSlot s c t.alloc else none) with
      | some (j, b) => settle s uid c j b
      | none => landingPump ((clusterEvent s c 5 2 1).updCore c (fun k => { k with landing := k.landing ++ [uid] })) c

/-- R158, R162 to R164. A migrant arrives at its destination; it waits while the die is held in reset (R15). -/
def execMigrantArrival (thread : Nat) (s : State) : Out := .next (
  match s.thread? thread with
  | none => s
  | some t =>
    match t.place with
    | .transit c =>
      if (s.die (coreDie c)).inReset then holdMessage s (coreDie c) (.migrantArrival thread) else arriveAt s thread c
    | _ => s)

/-- R163. A slot has become free at a core: waiting migrants take it. -/
def execLandingSlotTake (core : Nat) (s : State) : Out := .next (landingPump s core)

/-- R164. The oldest context of an overflow queue moves into the landing area, ahead of any later arrival. -/
def execOverflowMove (core : Nat) (s : State) : Out := .next (
  let k := s.core core
  match k.overflow with
  | [] => s
  | u :: r =>
    if 128 ≤ k.landing.length then s
    else landingPump (s.updCore core (fun k => { k with overflow := r, landing := k.landing ++ [u] })) core)

/-- A vacated guest whose wait has ended rejoins the back of the landing queue of the core that its next access needs, as the argument tells
it; a guest that has parked while migrants wait leaves its slot to them (R163). [DEDUCED: log 33] -/
def rejoin (s : State) (next : Thread → Nat) : Option State :=
  match (s.selThreads (fun t => t.vacated && t.run == .ready && t.hold == .running)).head? with
  | some t => some (arriveAt s t.uid (next t))
  | none => (s.cores.find? (fun c => !c.2.landing.isEmpty && s.anyThread (parkedGuest c.1))).map (fun c => landingPump s c.1)

/-! go (R365) and spawn (R366, R367). -/

/-- R365. The thread moves to the swarm or channel core that G(A) names and goes on after the go. [DEDUCED: log 27] -/
def execGo (a : Code) (s : State) : Out := .next (
  onEngine false s 2 <|
    ops1 s 2 [1] (reg 1 a) fun na =>
      let t := s.th
      if t.isSuper then raise s (faultOf .illegal 2)
      else
        match namedCore s t (s.src t 1 na) with
        | none => raise s (faultOf .window 2)
        | some c =>
          if coreIsWave c then raise s (faultOf .window 2)
          else if s.undone t.uid then s.put (t.await s.clk .drain 0 [] 2)
          else if c = t.core then finish s t [a] [] 2 8
          else if !t.packable (t.pc + 2) then raise s (faultOf .migOversize 2)
          else depart s ((advances t (usedIdx t [a] [])).done s.clk 2 0) c [])

/-- The destination of a spawned context: the core of R157, the thread's own core for its local memory and for a global address
outside the stacks; none for a private address or a scratchpad. [DEDUCED: log 71] -/
def spawnDest (t : Thread) (l : Loc) : Option Nat :=
  if l.win = 1 then some t.core
  else if l.win = 4 then none
  else
    match migrateTo l with
    | some c => some c
    | none => if l.win = 0 then some t.core else none

/-- R366, R367. A context goes to the core of the address's word, once the thread's earlier accesses have been performed. -/
def execSpawn (a b : Code) (s : State) : Out := .next (
  onEngine false s 2 <|
    ops2 s 2 [2] (addrPair 1 a) (reg 2 b) fun na nb =>
      let t := s.th
      let addr := t.rd2 na
      match checkAddr s (agentOf t 0) addr 1 needR false with
      | .bad c => raise s (faultAt c 2 addr 1)
      | .miss vp => startWalk s vp 1 addr 2
      | .ok l =>
        match spawnDest t l with
        | none => raise s (faultAt .window 2 addr 1)
        | some c =>
          let pc := t.rd nb
          if !t.packable (if t.bound ≤ pc.toNat then 0 else pc) then raise s (faultOf .migOversize 2)
          else if 4 ≤ s.spawnOut t.uid then s.put (t.await s.clk .slots 0 [] 2)
          else if s.undone t.uid then s.put (t.await s.clk .drain 0 [] 2)
          else
            let t' := advances t (usedIdx t [a, b] [])
            (sendContext (useTlb s addr) t' (contextOf t' 0 c pc) c).put (t'.done s.clk 2 8))

/-! Crossings (R168, R191, R198, R368). -/

/-- The engine, lane, position and registers for a thread of this allocation on a cluster: the lowest-numbered engine with a lane
that has room, and of its lanes with room the one with the most free positions. -/
def engineFor (s : State) (cl n : Nat) : Option (Nat × Nat × Nat × Nat) :=
  let o := withPlans s (cl / 16) (occupied s)
  if 12 ≤ cl % 16 then none
  else
    (List.range 6).findSome? (fun i =>
      let c := cl * 64 + 32 + i
      let cand := (List.range 64).filterMap (fun l =>
        match o.freePos c l, lowestFit (o.laneRegs c l) n 2048 1 with
        | p :: r, some b => some (l, p, b, r.length)
        | _, _ => none)
      match cand with
      | [] => none
      | x :: r =>
        let y := r.foldl (fun (b : Nat × Nat × Nat × Nat) z => if b.2.2.2 < z.2.2.2 then z else b) x
        some (c, y.1, y.2.1, y.2.2.1))

/-- What a crossing to a wave engine does in the cluster's L1, where the thread's accesses go from then on (R198, R202): its private data are
read afresh, and so are the global ones, which it may have stored or acquired before (R225, R230). [DEDUCED: log 73] -/
def enterL1 (s : State) (t : Thread) : State := l1Acquire (dropPrivate s t true) (clusterOf t.core) t.part

/-- What a crossing to a swarm core does there: its private data and the dirty global ones are at their homes, where its accesses go from then
on. [DEDUCED: log 73] -/
def leaveL1 (s : State) (t : Thread) : State := l1Release (dropPrivate s t true) (clusterOf t.core) t.part

/-- R168, R368. The thread crosses to a wave engine of its cluster, at target PC G(A). -/
def execWenter (a : Code) (s : State) : Out := .next (
  onEngine false s 2 <|
    ops1 s 2 [1] (reg 1 a) fun na =>
      let t := s.th
      if t.isSuper then raise s (faultOf .illegal 2)
      else if 24 < t.count then raise s (faultOf .migOversize 2)
      else if s.undone t.uid then s.put (t.await s.clk .drain 0 [] 2)
      else
        match engineFor s (t.core / 64) t.alloc with
        | none => s.put (t.await s.clk .engine 0 [] 2)
        | some (c, l, p, b) =>
          let t' := (advances t (usedIdx t [a] [])).jump s.clk (t.rd na) 28
          slotFreed ((enterL1 s t).put { t' with place := .wave c l p, base := b, entered := true }) t.core)

/-- R168, R368. An entered thread returns to a swarm slot of the cluster, at target PC G(A). -/
def execWleave (a : Code) (s : State) : Out := .next (
  onEngine true s 2 <|
    ops1 s 2 [1] (reg 1 a) fun na =>
      let t := s.th
      if !t.entered then raise s (faultOf .illegal 2)
      else if s.undone t.uid then s.put (t.await s.clk .drain 0 [] 2)
      else
        match planSwarm (withPlans s t.die (occupied s)) (t.core / 64) true t.alloc with
        | none => s.put (t.await s.clk .engine 0 [] 2)
        | some (c, k, b) =>
          let s := leaveL1 s t
          let t' := (advances t (usedIdx t [a] [])).jump s.clk (s.src t 1 na) 28
          pokeEngine (s.put { t' with place := .swarm c k, base := b, entered := false, guest := false }) (t.core / 64))

end Sys2Proof.Machine
end

