-- ==== Sys2Proof/Machine/Cross.lean ====
section
/-! DEFINITION. Instructions that the threads of a static wave or of a quad execute together: cross-lane and derivative
instructions (R167, R381 to R384, R396, R397). -/

namespace Sys2Proof.Machine
open Sys2Proof

/-! Acting as another thread. -/

/-- The thread with an identity exchanged with the issuing one, so that an operation on the issuing thread acts on it. -/
def State.focus (s : State) (uid : Nat) : State :=
  if s.th.uid = uid then s
  else match s.threads.find? (fun t => t.uid == uid) with
    | none => s
    | some t => { s with th := t, threads := s.threads.map (fun x => if x.uid == uid then s.th else x) }

/-- An operation on the thread with this identity. -/
def asThread (s : State) (uid : Nat) (f : State → State) : State :=
  let me := s.th.uid
  if (s.thread? uid).isNone then s
  else (f (s.focus uid)).focus me

/-! Static waves, quads and teams (R89, R396). -/

/-- A member of the static wave w of a role of a group: live, placed on the engine, not entered, not a spawned context. -/
def waveMember (g r w : Nat) (t : Thread) : Bool :=
  t.live && t.grp == g && t.role == r && t.tid / 64 == w && !t.entered && t.spawner.isNone && t.isWave

/-- Lane of a thread (R89). -/
def Thread.lane (t : Thread) : Nat := t.tid % 64

/-- The order of insertion of a thread into a list by thread number. -/
def insertTid (t : Thread) : List Thread → List Thread
  | [] => [t]
  | u :: r => if t.tid < u.tid then t :: u :: r else u :: insertTid t r

/-- Threads by thread number. -/
def byTid (l : List Thread) : List Thread := l.foldr insertTid []

/-- The least PC among threads. -/
def lowestPc (l : List Thread) : Nat := (l.map (fun t => t.pc.toNat)).foldl min (2 ^ 32)

/-! Executing sets. -/

/-- A member's first registers, D then A then B, or its fault. -/
structure Resolved where
  /-- Identity. -/
  uid : Nat
  /-- Lane. -/
  lane : Nat
  /-- D. -/
  d : Nat
  /-- Value of A. -/
  a : Word
  /-- Value of B. -/
  b : Word
  deriving DecidableEq, Repr

/-- Resolution of D, A and B of a member with their operand forms; an absent operand is none. -/
def resolveMember (t : Thread) (a b d : Option Opnd) : Except OpErr (Nat × Nat × Nat) :=
  let one (o : Option Opnd) : Except OpErr Nat := match o with | none => .ok 0 | some o => resolve t o
  match one a with
  | .error e => .error e
  | .ok na => match one b with
    | .error e => .error e
    | .ok nb => match one d with
      | .error e => .error e
      | .ok nd => .ok (na, nb, nd)

/-- The members of a set resolved: those that fault park by themselves (R384). -/
def resolveSet (a b d : Option Opnd) : List Thread → State → State × List Resolved
  | [], s => (s, [])
  | t :: r, s =>
    match resolveMember t a b d with
    | .error e =>
      resolveSet a b d r (asThread s t.uid (fun s => operandFault (s.put { s.th with run := .ready }) 2 e))
    | .ok (na, nb, nd) =>
      let av := if a.isSome then s.src t 1 na else 0
      let bv := if b.isSome then s.src t 2 nb else 0
      let (s, l) := resolveSet a b d r s
      (s, ⟨t.uid, t.lane, nd, av, bv⟩ :: l)

/-- The value of A at a lane of the set, or the reader's own. -/
def laneValue (l : List Resolved) (lane : Nat) (own : Word) : Word :=
  ((l.find? (fun m => m.lane == lane)).map (·.a)).getD own

/-- The exact sum of values (R383). -/
def sumAll (l : List FVal) : Exact :=
  if l.any FVal.isNan then .nan false
  else if l.any (fun v => v.isInf && v.sign) && l.any (fun v => v.isInf && !v.sign) then .nan true
  else match l.find? FVal.isInf with
    | some v => .inf v.sign false
    | none =>
      match l with
      | [] => .fin false 0 0
      | v :: r => r.foldl (fun (e : Exact) x => addX 0 e.toVal x) (match v with | .fin s m x => .fin s m x | _ => .fin false 0 0)

/-- lsum and lmin over the values of the set in lane order (R383): the result and its exceptions. -/
def laneFold (min : Bool) (ty : BitVec 2) (c : BitVec 16) (l : List Word) : FRes :=
  let c' := c &&& 0x263
  if ty = 2 then
    if min then
      match l with
      | [] => (0, 0)
      | [x] => fminR c' false x x
      | x :: r => r.foldl (fun (acc : FRes) y =>
          let z := fminR c' false (BitVec.ofNat 32 acc.1) y
          (z.1, acc.2 ||| z.2)) (x.toNat, 0)
    else
      let v := l.map (fun x => inVal c' f32 x.toNat)
      outF c' f32 false 0 v (sumAll v)
  else if min then
    match l with
    | [] => (0, 0)
    | x :: r => ((r.foldl (fun m y => if (if ty = 0 then y.slt m else y.ult m) then y else m) x).toNat, 0)
  else ((l.foldl (fun m y => m + y) 0).toNat, 0)

/-- A member of a set completes with its writes: index registers advance, results after an interval, its exceptions (R246). -/
def completeMember (s : State) (uid : Nat) (codes : List Code) (ovr : List Nat) (interval : Nat) (fl : Flags)
    (w : Thread → Thread) : State :=
  asThread s uid (fun s => finishF s (w (clearArms s.th ovr)) codes interval fl)

/-- A cross-lane instruction of an executing set, the i-th to execute (R382). -/
def runSet (s : State) (op : CrossOp) (d a b : Code) (set : List Thread) (i : Nat) : State :=
  let (oa, ob, od) : Option Opnd × Option Opnd × Option Opnd := match op with
    | .shfl => (some (reg 1 a), some (reg 2 b), some (reg 0 d))
    | .shflx => (some (reg 1 a), some (reg 2 b), some (reg 0 d))
    | .bcast => (some (reg 1 a), some (reg 2 b), some (reg 0 d))
    | .voteAny => (none, none, none)
    | .voteAll => (none, none, none)
    | .ballot => (none, none, some (pair 0 d))
    | .lsum _ => (some (reg 1 a), none, some (reg 0 d))
    | .lmin _ => (some (reg 1 a), none, some (reg 0 d))
  let (s, l) := resolveSet oa ob od set s
  let pa (m : Resolved) : Bool := ((set.find? (fun t => t.uid == m.uid)).map (fun t => t.rdP (a.toNat % 16))).getD false
  let c : BitVec 16 := ((set.head?).map (·.compat)).getD 0
  let codes := [oa, ob, od].filterMap (fun o => o.map (·.code))
  let ovr := (if oa.isSome then [1] else []) ++ (if ob.isSome then [2] else [])
  let low : Word := ((l.head?).map (·.b)).getD 0
  let mask := l.foldl (fun n m => if pa m then n + 2 ^ m.lane else n) 0
  let fold : FRes := match op with
    | .lsum t => laneFold false t c (l.map (·.a))
    | .lmin t => laneFold true t c (l.map (·.a))
    | _ => (0, 0)
  l.foldl (fun s m =>
    completeMember s m.uid codes ovr (i + 8) fold.2 (fun t =>
      match op with
      | .shfl => t.wr m.d (laneValue l (m.b.toNat % 64) m.a)
      | .shflx => t.wr m.d (laneValue l (m.lane ^^^ (m.b.toNat % 64)) m.a)
      | .bcast => t.wr m.d (laneValue l (low.toNat % 64) m.a)
      | .voteAny => t.wrP (d.toNat / 8 % 16) (l.any pa)
      | .voteAll => t.wrP (d.toNat / 8 % 16) (l.all pa)
      | .ballot => t.wr2 m.d (BitVec.ofNat 64 mask)
      | .lsum _ => t.wr m.d (BitVec.ofNat 32 fold.1)
      | .lmin _ => t.wr m.d (BitVec.ofNat 32 fold.1))) s

/-- The sets of waiting threads execute, lowest PC first, one per clk. -/
def runSets : Nat → List Thread → Nat → State → State
  | 0, _, _, s => s
  | n + 1, l, i, s =>
    match l with
    | [] => s
    | _ =>
      let pc := lowestPc l
      let set := l.filter (fun t => t.pc.toNat == pc)
      let rest := l.filter (fun t => t.pc.toNat != pc)
      let s := match set with
        | t :: _ => (match t.run with | .waiting (.cross op d a b) => runSet s op d a b set i | _ => s)
        | [] => s
      runSets n rest (i + 1) s

/-- A thread waits at a cross-lane instruction. -/
def waitsCross (t : Thread) : Bool := match t.run with | .waiting (.cross _ _ _ _) => true | _ => false

/-- R167. When every live thread of a static wave waits at a cross-lane instruction, its sets execute. -/
def crossCheck (s : State) (g r w : Nat) : State :=
  let l := s.selThreads (waveMember g r w)
  if l.isEmpty || !l.all waitsCross then s else runSets l.length (byTid l) 0 s

/-- A cross-lane instruction issues: the thread waits for its static wave. -/
def crossLane (op : CrossOp) (d a b : Code) (s : State) : State :=
  onEngine true s 2 <|
    let t := s.th
    let ovr := match op with | .shfl => [1, 2] | .shflx => [1, 2] | .bcast => [1, 2] | .lsum _ => [1] | .lmin _ => [1] | _ => []
    checkOverride s 2 ovr <|
      if t.entered then raise s (faultOf .illegal 2)
      else crossCheck (s.put (t.await s.clk (.cross op d a b) 0 [] 2)) t.grp t.role (t.tid / 64)

/-- R381. A at lane G(B)[5:0]. -/
def execShfl (d a b : Code) (s : State) : Out := .next (crossLane .shfl d a b s)

/-- R381. A at the thread's own lane XOR G(B)[5:0]. -/
def execShflx (d a b : Code) (s : State) : Out := .next (crossLane .shflx d a b s)

/-- R381. OR of pA over the set. -/
def execVoteAny (p a : BitVec 4) (s : State) : Out := .next (crossLane .voteAny (p.setWidth 7 <<< 3) (a.setWidth 7) 0 s)

/-- R381. AND of pA over the set. -/
def execVoteAll (p a : BitVec 4) (s : State) : Out := .next (crossLane .voteAll (p.setWidth 7 <<< 3) (a.setWidth 7) 0 s)

/-- R381. The mask of lanes of the set whose pA is true. -/
def execBallot (d : Code) (a : BitVec 4) (s : State) : Out := .next (crossLane .ballot d (a.setWidth 7) 0 s)

/-- R383. The sum over the set. -/
def execLsum (d a : Code) (t : BitVec 2) (s : State) : Out := .next (crossLane (.lsum t) d a 0 s)

/-- R383. The minimum over the set. -/
def execLmin (d a : Code) (t : BitVec 2) (s : State) : Out := .next (crossLane (.lmin t) d a 0 s)

/-- R381. A at the lane that the lowest lane of the set names. -/
def execBcast (d a b : Code) (s : State) : Out := .next (crossLane .bcast d a b s)

end Sys2Proof.Machine
end

