-- ==== Sys2Proof/Decode.lean ====
section
/-! DEFINITION. Decoding of instruction parcels in each encoding version (R268, R274 to R291), total, none for every
encoding that R290 makes illegal; and the encoder. -/

namespace Sys2Proof

/-- Major 0 of the opcode map (R288, R289). -/
def decM0 (mi : BitVec 5) (b a d : Code) : Option Instr :=
  if mi = 0 then some (.add d a b) else
  if mi = 1 then some (.sub d a b) else
  if mi = 2 then some (.mul d a b) else
  if mi = 3 then some (.mulh d a b) else
  if mi = 4 then some (.mulhn d a b) else
  if mi = 5 then some (.mulw d a b) else
  if mi = 6 then some (.mulwn d a b) else
  if mi = 7 then some (.div d a b) else
  if mi = 8 then some (.divn d a b) else
  if mi = 9 then some (.rem d a b) else
  if mi = 10 then some (.remn d a b) else
  if mi = 11 then some (.and d a b) else
  if mi = 12 then some (.or d a b) else
  if mi = 13 then some (.xor d a b) else
  if mi = 14 then some (.andn d a b) else
  if mi = 15 then some (.shl d a b) else
  if mi = 16 then some (.shr d a b) else
  if mi = 17 then some (.sra d a b) else
  if mi = 18 then some (.rol d a b) else
  if mi = 19 then some (.min d a b) else
  if mi = 20 then some (.max d a b) else
  if mi = 21 then some (.minn d a b) else
  if mi = 22 then some (.maxn d a b) else
  if mi = 23 ∧ b = 0 then some (.clz d a) else
  if mi = 23 ∧ b = 1 then some (.ctz d a) else
  if mi = 23 ∧ b = 2 then some (.popc d a) else
  if mi = 23 ∧ b = 3 then some (.brev d a) else
  if mi = 24 then some (.addD d a b) else
  if mi = 25 then some (.subD d a b) else
  if mi = 26 then some (.shlD d a b) else
  if mi = 27 then some (.divS64 d a b) else
  if mi = 28 then some (.divnN64 d a b) else
  if mi = 29 then some (.remS64 d a b) else
  if mi = 30 then some (.remnN64 d a b) else
  none

/-- Major 1 of the opcode map (R288, R289). -/
def decM1 (mi : BitVec 5) (b a d : Code) : Option Instr :=
  some (.addi d a (mi ++ b))

/-- Major 2 of the opcode map (R288, R289). -/
def decM2 (mi : BitVec 5) (b a d : Code) : Option Instr :=
  some (.andi d a (mi ++ b))

/-- Major 3 of the opcode map (R288, R289). -/
def decM3 (mi : BitVec 5) (b a d : Code) : Option Instr :=
  some (.ori d a (mi ++ b))

/-- Major 4 of the opcode map (R288, R289). -/
def decM4 (mi : BitVec 5) (b a d : Code) : Option Instr :=
  some (.xori d a (mi ++ b))

/-- Major 5 of the opcode map (R288, R289). -/
def decM5 (mi : BitVec 5) (b a d : Code) : Option Instr :=
  if mi = 0 ∧ b.extractLsb' 5 2 = 0 then some (.shli d a (b.extractLsb' 0 5)) else
  if mi = 0 ∧ b.extractLsb' 5 2 = 1 then some (.shri d a (b.extractLsb' 0 5)) else
  if mi = 0 ∧ b.extractLsb' 5 2 = 2 then some (.srai d a (b.extractLsb' 0 5)) else
  none

/-- Major 6 of the opcode map (R288, R289). -/
def decM6 (mi : BitVec 5) (b a d : Code) : Option Instr :=
  if mi = 0 then some (.cmpS32 (d.extractLsb' 0 3) (d.extractLsb' 3 4) a b) else
  if mi = 1 then some (.cmpN32 (d.extractLsb' 0 3) (d.extractLsb' 3 4) a b) else
  if mi = 2 then some (.cmpS64 (d.extractLsb' 0 3) (d.extractLsb' 3 4) a b) else
  if mi = 3 then some (.cmpN64 (d.extractLsb' 0 3) (d.extractLsb' 3 4) a b) else
  if mi = 4 ∧ b.extractLsb' 4 3 = 0 ∧ a.extractLsb' 4 3 = 0 ∧ d.extractLsb' 0 3 = 0 then some (.pand (d.extractLsb' 3 4) (a.extractLsb' 0 4) (b.extractLsb' 0 4)) else
  if mi = 5 ∧ b.extractLsb' 4 3 = 0 ∧ a.extractLsb' 4 3 = 0 ∧ d.extractLsb' 0 3 = 0 then some (.por (d.extractLsb' 3 4) (a.extractLsb' 0 4) (b.extractLsb' 0 4)) else
  if mi = 6 ∧ b.extractLsb' 4 3 = 0 ∧ a.extractLsb' 4 3 = 0 ∧ d.extractLsb' 0 3 = 0 then some (.pxor (d.extractLsb' 3 4) (a.extractLsb' 0 4) (b.extractLsb' 0 4)) else
  if mi = 7 ∧ b = 0 ∧ a.extractLsb' 4 3 = 0 ∧ d.extractLsb' 0 3 = 0 then some (.pnot (d.extractLsb' 3 4) (a.extractLsb' 0 4)) else
  none

/-- Major 7 of the opcode map (R288, R289). -/
def decM7 (mi : BitVec 5) (b a d : Code) : Option Instr :=
  some (.cmpi (d.extractLsb' 0 3) (d.extractLsb' 3 4) a (mi ++ b))

/-- Major 8 of the opcode map (R288, R289). -/
def decM8 (mi : BitVec 5) (b a d : Code) : Option Instr :=
  some (.ldi d (mi ++ b ++ a))

/-- Major 9 of the opcode map (R288, R289). -/
def decM9 (mi : BitVec 5) (b a d : Code) : Option Instr :=
  some (.ldih d (mi ++ b ++ a))

/-- Major 10 of the opcode map (R288, R289). -/
def decM10 (mi : BitVec 5) (b a d : Code) : Option Instr :=
  if d = 0 then some (.b (mi ++ b ++ a)) else
  if d.extractLsb' 0 3 = 1 then some (.bp (d.extractLsb' 3 4) (mi ++ b ++ a)) else
  if d.extractLsb' 0 3 = 2 then some (.bnp (d.extractLsb' 3 4) (mi ++ b ++ a)) else
  none

/-- Major 11 of the opcode map (R288, R289). -/
def decM11 (mi : BitVec 5) (b a d : Code) : Option Instr :=
  some (.call d (mi ++ b ++ a))

/-- Major 12 of the opcode map (R288, R289). -/
def decM12 (mi : BitVec 5) (b a d : Code) : Option Instr :=
  if mi = 0 ∧ b = 0 ∧ d = 0 then some (.jmp a) else
  if mi = 1 ∧ b = 0 then some (.callr d a) else
  none

/-- Major 13 of the opcode map (R288, R289). -/
def decM13 (mi : BitVec 5) (b a d : Code) : Option Instr :=
  if b.extractLsb' 0 3 = 0 then some (.ldB d a (b.extractLsb' 3 2) (b.extractLsb' 5 2) mi) else
  if b.extractLsb' 0 3 = 1 then some (.ldH d a (b.extractLsb' 3 2) (b.extractLsb' 5 2) mi) else
  if b.extractLsb' 0 3 = 2 then some (.ldW d a (b.extractLsb' 3 2) (b.extractLsb' 5 2) mi) else
  if b.extractLsb' 0 3 = 3 then some (.ldD d a (b.extractLsb' 3 2) (b.extractLsb' 5 2) mi) else
  if b.extractLsb' 0 3 = 4 then some (.ldQ d a (b.extractLsb' 3 2) (b.extractLsb' 5 2) mi) else
  if b.extractLsb' 0 3 = 5 then some (.ldBs d a (b.extractLsb' 3 2) (b.extractLsb' 5 2) mi) else
  if b.extractLsb' 0 3 = 6 then some (.ldHs d a (b.extractLsb' 3 2) (b.extractLsb' 5 2) mi) else
  if mi.extractLsb' 3 2 = 0 ∧ b.extractLsb' 0 3 = 7 then some (.ldExtended d a (b.extractLsb' 3 2) (b.extractLsb' 5 2) (mi.extractLsb' 0 3)) else
  none

/-- Major 14 of the opcode map (R288, R289). -/
def decM14 (mi : BitVec 5) (b a d : Code) : Option Instr :=
  if b.extractLsb' 0 3 = 0 then some (.stB d a (b.extractLsb' 3 2) (b.extractLsb' 5 2) mi) else
  if b.extractLsb' 0 3 = 1 then some (.stH d a (b.extractLsb' 3 2) (b.extractLsb' 5 2) mi) else
  if b.extractLsb' 0 3 = 2 then some (.stW d a (b.extractLsb' 3 2) (b.extractLsb' 5 2) mi) else
  if b.extractLsb' 0 3 = 3 then some (.stD d a (b.extractLsb' 3 2) (b.extractLsb' 5 2) mi) else
  if b.extractLsb' 0 3 = 4 then some (.stQ d a (b.extractLsb' 3 2) (b.extractLsb' 5 2) mi) else
  if mi.extractLsb' 3 2 = 0 ∧ b.extractLsb' 0 3 = 7 then some (.stExtended d a (b.extractLsb' 3 2) (b.extractLsb' 5 2) (mi.extractLsb' 0 3)) else
  none

/-- Major 15 of the opcode map (R288, R289). -/
def decM15 (mi : BitVec 5) (b a d : Code) : Option Instr :=
  if mi = 0 then some (.amoAdd d a (b.extractLsb' 0 3) (b.extractLsb' 3 3) (b.extractLsb' 6 1)) else
  if mi = 1 then some (.amoAnd d a (b.extractLsb' 0 3) (b.extractLsb' 3 3) (b.extractLsb' 6 1)) else
  if mi = 2 then some (.amoOr d a (b.extractLsb' 0 3) (b.extractLsb' 3 3) (b.extractLsb' 6 1)) else
  if mi = 3 then some (.amoXor d a (b.extractLsb' 0 3) (b.extractLsb' 3 3) (b.extractLsb' 6 1)) else
  if mi = 4 then some (.amoMin d a (b.extractLsb' 0 3) (b.extractLsb' 3 3) (b.extractLsb' 6 1)) else
  if mi = 5 then some (.amoMax d a (b.extractLsb' 0 3) (b.extractLsb' 3 3) (b.extractLsb' 6 1)) else
  if mi = 6 then some (.amoMinn d a (b.extractLsb' 0 3) (b.extractLsb' 3 3) (b.extractLsb' 6 1)) else
  if mi = 7 then some (.amoMaxn d a (b.extractLsb' 0 3) (b.extractLsb' 3 3) (b.extractLsb' 6 1)) else
  if mi = 8 then some (.amoSwap d a (b.extractLsb' 0 3) (b.extractLsb' 3 3) (b.extractLsb' 6 1)) else
  if mi = 9 then some (.amoCas d a (b.extractLsb' 0 3) (b.extractLsb' 3 3) (b.extractLsb' 6 1)) else
  if mi = 10 ∧ b.extractLsb' 6 1 = 0 then some (.amoFadd d a (b.extractLsb' 0 3) (b.extractLsb' 3 3)) else
  if mi = 16 then some (.redAdd d a (b.extractLsb' 0 3) (b.extractLsb' 3 3) (b.extractLsb' 6 1)) else
  if mi = 17 then some (.redAnd d a (b.extractLsb' 0 3) (b.extractLsb' 3 3) (b.extractLsb' 6 1)) else
  if mi = 18 then some (.redOr d a (b.extractLsb' 0 3) (b.extractLsb' 3 3) (b.extractLsb' 6 1)) else
  if mi = 19 then some (.redXor d a (b.extractLsb' 0 3) (b.extractLsb' 3 3) (b.extractLsb' 6 1)) else
  if mi = 20 then some (.redMin d a (b.extractLsb' 0 3) (b.extractLsb' 3 3) (b.extractLsb' 6 1)) else
  if mi = 21 then some (.redMax d a (b.extractLsb' 0 3) (b.extractLsb' 3 3) (b.extractLsb' 6 1)) else
  if mi = 22 then some (.redMinn d a (b.extractLsb' 0 3) (b.extractLsb' 3 3) (b.extractLsb' 6 1)) else
  if mi = 23 then some (.redMaxn d a (b.extractLsb' 0 3) (b.extractLsb' 3 3) (b.extractLsb' 6 1)) else
  if mi = 24 then some (.redSwap d a (b.extractLsb' 0 3) (b.extractLsb' 3 3) (b.extractLsb' 6 1)) else
  if mi = 25 then some (.redCas d a (b.extractLsb' 0 3) (b.extractLsb' 3 3) (b.extractLsb' 6 1)) else
  if mi = 26 ∧ b.extractLsb' 6 1 = 0 then some (.redFadd d a (b.extractLsb' 0 3) (b.extractLsb' 3 3)) else
  if mi = 27 ∧ b.extractLsb' 6 1 = 1 then some (.redFx64 d a (b.extractLsb' 0 3) (b.extractLsb' 3 3)) else
  none

/-- Major 16 of the opcode map (R288, R289). -/
def decM16 (mi : BitVec 5) (b a d : Code) : Option Instr :=
  if mi = 0 ∧ b.extractLsb' 6 1 = 0 ∧ a = 0 ∧ d = 0 then some (.fence (b.extractLsb' 0 3) (b.extractLsb' 3 3)) else
  if mi = 1 ∧ b = 0 ∧ a = 0 ∧ d = 0 then some .bar else
  if mi = 2 ∧ b = 0 ∧ a = 0 ∧ d = 0 then some .barGang else
  if mi = 3 ∧ b.extractLsb' 0 3 = 0 ∧ b.extractLsb' 6 1 = 0 ∧ d = 0 then some (.barj a (b.extractLsb' 3 3)) else
  if mi = 4 ∧ b.extractLsb' 0 3 = 0 ∧ b.extractLsb' 6 1 = 0 then some (.barw d a (b.extractLsb' 3 3)) else
  if mi = 5 ∧ b.extractLsb' 0 3 = 0 ∧ b.extractLsb' 6 1 = 0 ∧ d = 0 then some (.barx a (b.extractLsb' 3 3)) else
  if mi = 6 ∧ b = 0 ∧ d = 0 then some (.pf a) else
  if mi = 7 ∧ b = 0 ∧ d = 0 then some (.inval a) else
  if mi = 8 ∧ b = 0 ∧ d = 0 then some (.wback a) else
  none

/-- Major 17 of the opcode map (R288, R289). -/
def decM17 (mi : BitVec 5) (b a d : Code) : Option Instr :=
  if mi.extractLsb' 0 2 = 0 then some (.fadd d a b (mi.extractLsb' 2 3)) else
  if mi.extractLsb' 0 2 = 1 then some (.fsub d a b (mi.extractLsb' 2 3)) else
  if mi.extractLsb' 0 2 = 2 then some (.fmul d a b (mi.extractLsb' 2 3)) else
  if mi.extractLsb' 0 2 = 3 then some (.fdiv d a b (mi.extractLsb' 2 3)) else
  none

/-- Major 18 of the opcode map (R288, R289). -/
def decM18 (mi : BitVec 5) (b a d : Code) : Option Instr :=
  if mi = 0 then some (.hadd2 d a b) else
  if mi = 1 then some (.hmul2 d a b) else
  if mi = 2 then some (.hfma2 d a b) else
  if mi = 3 then some (.badd2 d a b) else
  if mi = 4 then some (.bmul2 d a b) else
  if mi = 5 then some (.bfma2 d a b) else
  if mi = 6 then some (.dadd d a b) else
  if mi = 7 then some (.dmul d a b) else
  if mi = 8 then some (.dfma d a b) else
  if mi = 9 then some (.cvtS32 d a (b.extractLsb' 0 4) (b.extractLsb' 4 3)) else
  if mi = 10 then some (.cvtN32 d a (b.extractLsb' 0 4) (b.extractLsb' 4 3)) else
  if mi = 11 then some (.cvtS64 d a (b.extractLsb' 0 4) (b.extractLsb' 4 3)) else
  if mi = 12 then some (.cvtN64 d a (b.extractLsb' 0 4) (b.extractLsb' 4 3)) else
  if mi = 13 then some (.cvtF32 d a (b.extractLsb' 0 4) (b.extractLsb' 4 3)) else
  if mi = 14 then some (.cvtF16 d a (b.extractLsb' 0 4) (b.extractLsb' 4 3)) else
  if mi = 15 then some (.cvtBf16 d a (b.extractLsb' 0 4) (b.extractLsb' 4 3)) else
  if mi = 16 then some (.cvtF64 d a (b.extractLsb' 0 4) (b.extractLsb' 4 3)) else
  if mi = 17 then some (.cvtE4m3 d a (b.extractLsb' 0 4) (b.extractLsb' 4 3)) else
  if mi = 18 then some (.cvtE5m2 d a (b.extractLsb' 0 4) (b.extractLsb' 4 3)) else
  if mi = 19 then some (.cvtE2m1 d a (b.extractLsb' 0 4) (b.extractLsb' 4 3)) else
  if mi = 20 then some (.cvtE4m3Sat d a (b.extractLsb' 0 4) (b.extractLsb' 4 3)) else
  none

/-- Major 19 of the opcode map (R288, R289). -/
def decM19 (mi : BitVec 5) (b a d : Code) : Option Instr :=
  if mi = 0 then some (.fcmpF32 (d.extractLsb' 0 3) (d.extractLsb' 3 4) a b) else
  if mi = 1 then some (.fcmpF64 (d.extractLsb' 0 3) (d.extractLsb' 3 4) a b) else
  if mi = 2 ∧ b = 0 then some (.fclass d a) else
  if mi = 3 ∧ b = 0 then some (.fclassF64 d a) else
  if mi = 4 then some (.fmin d a b) else
  if mi = 5 then some (.fmax d a b) else
  none

/-- Major 20 of the opcode map (R288, R289). -/
def decM20 (mi : BitVec 5) (b a d : Code) : Option Instr :=
  if mi.extractLsb' 0 2 = 0 ∧ b = 0 then some (.fsqrt d a (mi.extractLsb' 2 3)) else
  if mi.extractLsb' 0 2 = 0 ∧ b = 1 then some (.frcp d a (mi.extractLsb' 2 3)) else
  if mi.extractLsb' 0 2 = 0 ∧ b = 2 then some (.frsq d a (mi.extractLsb' 2 3)) else
  if mi.extractLsb' 0 2 = 0 ∧ b = 3 then some (.fexp2 d a (mi.extractLsb' 2 3)) else
  if mi.extractLsb' 0 2 = 0 ∧ b = 4 then some (.flog2 d a (mi.extractLsb' 2 3)) else
  if mi.extractLsb' 0 2 = 0 ∧ b = 5 then some (.fsin d a (mi.extractLsb' 2 3)) else
  if mi.extractLsb' 0 2 = 0 ∧ b = 6 then some (.fcos d a (mi.extractLsb' 2 3)) else
  if mi.extractLsb' 0 2 = 0 ∧ b = 7 then some (.fsinR d a (mi.extractLsb' 2 3)) else
  if mi.extractLsb' 0 2 = 0 ∧ b = 8 then some (.fcosR d a (mi.extractLsb' 2 3)) else
  if mi = 0 ∧ b = 9 then some (.ffloor d a) else
  if mi = 0 ∧ b = 10 then some (.fceil d a) else
  if mi = 0 ∧ b = 11 then some (.ftrunc d a) else
  if mi.extractLsb' 0 2 = 0 ∧ b = 12 then some (.frint d a (mi.extractLsb' 2 3)) else
  if mi.extractLsb' 0 2 = 0 ∧ b = 13 then some (.ffrac d a (mi.extractLsb' 2 3)) else
  if mi = 0 ∧ b = 14 then some (.fabs d a) else
  if mi = 0 ∧ b = 15 then some (.fneg d a) else
  if mi.extractLsb' 0 2 = 1 then some (.fma d a b (mi.extractLsb' 2 3)) else
  if mi.extractLsb' 0 2 = 2 then some (.fnma d a b (mi.extractLsb' 2 3)) else
  none

/-- Major 21 of the opcode map (R288, R289). -/
def decM21 (mi : BitVec 5) (b a d : Code) : Option Instr :=
  if mi = 0 ∧ d.extractLsb' 4 3 = 0 then some (.mput (d.extractLsb' 0 4) a b) else
  if mi = 1 ∧ b = 0 ∧ a.extractLsb' 4 3 = 0 then some (.mget d (a.extractLsb' 0 4)) else
  if mi = 2 ∧ d = 0 then some (.msend a b) else
  if mi = 3 ∧ b.extractLsb' 0 3 = 0 ∧ b.extractLsb' 6 1 = 0 ∧ a = 0 then some (.rmsg d (b.extractLsb' 3 3)) else
  if mi = 4 ∧ b = 0 ∧ a.extractLsb' 2 5 = 0 then some (.qget d (a.extractLsb' 0 2)) else
  if mi = 5 ∧ b = 0 ∧ d.extractLsb' 2 5 = 0 then some (.qput (d.extractLsb' 0 2) a) else
  if mi = 6 ∧ b = 0 ∧ d.extractLsb' 2 5 = 0 then some (.qctl (d.extractLsb' 0 2) a) else
  if mi = 7 ∧ b = 0 ∧ a.extractLsb' 2 5 = 0 then some (.qpeek d (a.extractLsb' 0 2)) else
  if mi = 8 ∧ b = 0 ∧ d = 0 then some (.go a) else
  if mi = 9 ∧ d = 0 then some (.spawn a b) else
  if mi = 10 ∧ b = 0 ∧ d = 0 then some (.wenter a) else
  if mi = 11 ∧ b = 0 ∧ d = 0 then some (.wleave a) else
  if mi = 12 ∧ d.extractLsb' 3 4 = 0 then some (.wexp (d.extractLsb' 0 3) a b) else
  if mi = 13 ∧ b.extractLsb' 0 3 = 0 ∧ b.extractLsb' 6 1 = 0 ∧ d = 0 then some (.wwait a (b.extractLsb' 3 3)) else
  if mi = 14 ∧ b.extractLsb' 0 3 = 0 ∧ b.extractLsb' 6 1 = 0 then some (.wpoll d a (b.extractLsb' 3 3)) else
  none

/-- Major 22 of the opcode map (R288, R289). -/
def decM22 (mi : BitVec 5) (b a d : Code) : Option Instr :=
  if mi = 0 ∧ b.extractLsb' 6 1 = 0 ∧ d = 0 then some (.mvcopy a (b.extractLsb' 0 3) (b.extractLsb' 3 3)) else
  if mi = 1 ∧ b.extractLsb' 6 1 = 0 ∧ d = 0 then some (.mvcopy2 a (b.extractLsb' 0 3) (b.extractLsb' 3 3)) else
  if mi = 2 ∧ b.extractLsb' 6 1 = 0 ∧ d = 0 then some (.mvgath a (b.extractLsb' 0 3) (b.extractLsb' 3 3)) else
  if mi = 3 ∧ b.extractLsb' 6 1 = 0 ∧ d = 0 then some (.mvscat a (b.extractLsb' 0 3) (b.extractLsb' 3 3)) else
  if mi = 4 ∧ b.extractLsb' 6 1 = 0 ∧ d = 0 then some (.mvfill a (b.extractLsb' 0 3) (b.extractLsb' 3 3)) else
  if mi = 5 ∧ b.extractLsb' 6 1 = 0 ∧ d = 0 then some (.mvred a (b.extractLsb' 0 3) (b.extractLsb' 3 3)) else
  none

/-- Major 23 of the opcode map (R288, R289). -/
def decM23 (mi : BitVec 5) (b a d : Code) : Option Instr :=
  if mi = 0 then some (.shfl d a b) else
  if mi = 1 then some (.shflx d a b) else
  if mi = 2 ∧ b = 0 ∧ a.extractLsb' 4 3 = 0 ∧ d.extractLsb' 0 3 = 0 then some (.voteAny (d.extractLsb' 3 4) (a.extractLsb' 0 4)) else
  if mi = 3 ∧ b = 0 ∧ a.extractLsb' 4 3 = 0 ∧ d.extractLsb' 0 3 = 0 then some (.voteAll (d.extractLsb' 3 4) (a.extractLsb' 0 4)) else
  if mi = 4 ∧ b = 0 ∧ a.extractLsb' 4 3 = 0 then some (.ballot d (a.extractLsb' 0 4)) else
  if mi = 5 ∧ b.extractLsb' 2 5 = 0 then some (.lsum d a (b.extractLsb' 0 2)) else
  if mi = 6 ∧ b.extractLsb' 2 5 = 0 then some (.lmin d a (b.extractLsb' 0 2)) else
  if mi = 7 then some (.bcast d a b) else
  none

/-- Major 24 of the opcode map (R288, R289). -/
def decM24 (mi : BitVec 5) (b a d : Code) : Option Instr :=
  if mi = 0 ∧ b = 0 ∧ a = 0 ∧ d = 0 then some .mrdy else
  if mi = 2 ∧ b = 0 ∧ a = 0 ∧ d = 0 then some .mwait else
  if mi.extractLsb' 1 4 = 2 then some (.mmaBf16 d a b (mi.extractLsb' 0 1)) else
  if mi.extractLsb' 1 4 = 3 then some (.mmaF16 d a b (mi.extractLsb' 0 1)) else
  if mi.extractLsb' 1 4 = 4 then some (.mmaF8E4m3E4m3 d a b (mi.extractLsb' 0 1)) else
  if mi.extractLsb' 1 4 = 5 then some (.mmaF8E4m3E5m2 d a b (mi.extractLsb' 0 1)) else
  if mi.extractLsb' 1 4 = 6 then some (.mmaF8E5m2E4m3 d a b (mi.extractLsb' 0 1)) else
  if mi.extractLsb' 1 4 = 7 then some (.mmaF8E5m2E5m2 d a b (mi.extractLsb' 0 1)) else
  if mi.extractLsb' 1 4 = 8 then some (.mmaF8S8 d a b (mi.extractLsb' 0 1)) else
  if mi.extractLsb' 1 4 = 9 then some (.mmaQ4 d a b (mi.extractLsb' 0 1)) else
  if mi.extractLsb' 1 4 = 10 then some (.mmaMx4 d a b (mi.extractLsb' 0 1)) else
  if mi.extractLsb' 1 4 = 11 then some (.mmaTs8W8 d a b (mi.extractLsb' 0 1)) else
  if mi.extractLsb' 1 4 = 12 then some (.mmaTs8W4 d a b (mi.extractLsb' 0 1)) else
  none

/-- Major 25 of the opcode map (R288, R289). -/
def decM25 (mi : BitVec 5) (b a d : Code) : Option Instr :=
  if mi = 0 then some (.smp d a b) else
  if mi = 1 then some (.smpl d a b) else
  if mi = 2 then some (.smpg d a b) else
  if mi = 3 then some (.fetch d a b) else
  if mi = 4 then some (.interp d a b) else
  if mi = 5 ∧ b = 0 then some (.ddx d a) else
  if mi = 6 ∧ b = 0 then some (.ddy d a) else
  if mi = 7 ∧ d = 0 then some (.pemit a b) else
  if mi = 7 ∧ b = 0 ∧ d = 1 then some (.pemitCull a) else
  if mi = 8 ∧ d = 0 then some (.pexp a b) else
  if mi = 9 ∧ b = 0 ∧ a = 0 ∧ d = 0 then some .kill else
  none

/-- Major 26 of the opcode map (R288, R289). -/
def decM26 (mi : BitVec 5) (b a d : Code) : Option Instr :=
  if mi = 0 ∧ b = 0 ∧ d.extractLsb' 3 4 = 0 then some (.iset (d.extractLsb' 0 3) a) else
  if mi = 0 ∧ b = 0 ∧ d.extractLsb' 3 4 = 1 then some (.iget (d.extractLsb' 0 3) a) else
  if mi = 0 ∧ b = 0 ∧ a = 0 ∧ d.extractLsb' 3 4 = 2 ∧ d.extractLsb' 0 3 = 0 then some .iclr0 else
  if mi = 0 ∧ b = 0 ∧ a = 0 ∧ d.extractLsb' 3 4 = 2 ∧ d.extractLsb' 0 3 = 1 then some .iclr1 else
  if mi = 0 ∧ b = 0 ∧ a = 0 ∧ d.extractLsb' 3 4 = 2 ∧ d.extractLsb' 0 3 = 2 then some .iclr2 else
  if mi = 0 ∧ b = 0 ∧ a = 0 ∧ d.extractLsb' 3 4 = 2 ∧ d.extractLsb' 0 3 = 3 then some .iclr3 else
  if mi = 0 ∧ b = 0 ∧ a = 0 ∧ d.extractLsb' 3 4 = 2 ∧ d.extractLsb' 0 3 = 4 then some .iclr4 else
  if mi = 0 ∧ b = 0 ∧ a = 0 ∧ d.extractLsb' 3 4 = 2 ∧ d.extractLsb' 0 3 = 5 then some .iclr5 else
  if mi = 0 ∧ b = 0 ∧ a = 0 ∧ d.extractLsb' 3 4 = 2 ∧ d.extractLsb' 0 3 = 6 then some .iclr6 else
  if mi = 0 ∧ b = 0 ∧ a = 0 ∧ d.extractLsb' 3 4 = 2 ∧ d.extractLsb' 0 3 = 7 then some .iclr7 else
  if a = 0 ∧ d.extractLsb' 3 4 = 3 then some (.iadv (d.extractLsb' 0 3) (mi ++ b)) else
  if d.extractLsb' 3 4 = 4 then some (.isetFields (d.extractLsb' 0 3) a b (mi.extractLsb' 0 4) (mi.extractLsb' 4 1)) else
  if d.extractLsb' 3 4 = 5 then some (.isetWrap (d.extractLsb' 0 3) a b (mi.extractLsb' 0 4) (mi.extractLsb' 4 1)) else
  none

/-- Major 27 of the opcode map (R288, R289). -/
def decM27 (mi : BitVec 5) (b a d : Code) : Option Instr :=
  if d.extractLsb' 2 5 = 0 then some (.xset (d.extractLsb' 0 2) (mi ++ b ++ a)) else
  if d.extractLsb' 2 5 = 1 then some (.xsetHi (d.extractLsb' 0 2) (mi ++ b ++ a)) else
  if mi = 0 ∧ b = 0 ∧ d.extractLsb' 2 5 = 2 then some (.xld (d.extractLsb' 0 2) a) else
  none

/-- Major 28 of the opcode map (R288, R289). -/
def decM28 (mi : BitVec 5) (b a d : Code) : Option Instr :=
  if mi = 0 ∧ a = 0 then some (.sget d b) else
  if mi = 1 ∧ d = 0 then some (.sset a b) else
  if mi = 2 ∧ b = 0 then some (.cset d a) else
  if mi = 3 ∧ b = 0 then some (.csetHigh d a) else
  if mi = 4 ∧ a = 0 ∧ d = 0 then some (.trap b) else
  if mi = 5 ∧ b = 0 ∧ a = 0 ∧ d = 0 then some .lret else
  if mi = 6 then some (.launch d a b) else
  if mi = 7 ∧ d = 0 then some (.tlsig a b) else
  if mi = 8 ∧ d = 0 then some (.tlsigSet a b) else
  if mi = 9 ∧ b = 0 ∧ d = 0 then some (.sleep a) else
  if mi = 10 ∧ b = 0 ∧ a = 0 ∧ d = 0 then some .nopLong else
  none

/-- Major 29 of the opcode map (R288, R289). -/
def decM29 (mi : BitVec 5) (b a d : Code) : Option Instr :=
  if b.extractLsb' 0 3 = 0 then some (.ldf d a (b.extractLsb' 3 2) (b.extractLsb' 5 2) mi) else
  if b.extractLsb' 0 3 = 1 then some (.lde d a (b.extractLsb' 3 2) (b.extractLsb' 5 2) mi) else
  if b.extractLsb' 0 3 = 2 then some (.stf d a (b.extractLsb' 3 2) (b.extractLsb' 5 2) mi) else
  if b.extractLsb' 0 3 = 3 then some (.stx d a (b.extractLsb' 3 2) (b.extractLsb' 5 2) mi) else
  if b.extractLsb' 0 3 = 4 ∧ d = 0 then some (.sete a (b.extractLsb' 3 2) (b.extractLsb' 5 2) mi) else
  if b.extractLsb' 0 3 = 5 then some (.fest d a (b.extractLsb' 3 2) (b.extractLsb' 5 2) mi) else
  if b.extractLsb' 0 3 = 6 then some (.ldm d a (b.extractLsb' 3 2) (b.extractLsb' 5 2) mi) else
  if b.extractLsb' 0 3 = 7 then some (.stm d a (b.extractLsb' 3 2) (b.extractLsb' 5 2) mi) else
  none

/-- Major 30 of the opcode map (R288, R289). -/
def decM30 (mi : BitVec 5) (b a d : Code) : Option Instr :=
  if mi.extractLsb' 4 1 = 0 then some (.sel d a b (mi.extractLsb' 0 4)) else
  if mi.extractLsb' 4 1 = 1 then some (.selNot d a b (mi.extractLsb' 0 4)) else
  none

/-- A 16-bit instruction from its fields op4, a and b (R278, R279). -/
def dec16 (op : BitVec 4) (a : BitVec 6) (b : BitVec 5) : Option Instr :=
  if op = 0 then some (.movS a b) else
  if op = 1 then some (.addS a b) else
  if op = 2 then some (.subS a b) else
  if op = 3 then some (.andS a b) else
  if op = 4 then some (.orS a b) else
  if op = 5 then some (.xorS a b) else
  if op = 6 then some (.addiS a b) else
  if op = 7 then some (.shliS a b) else
  if op = 8 then some (.shriS a b) else
  if op = 9 then some (.ldiS a b) else
  if op = 10 then some (.ldS a b) else
  if op = 11 then some (.stS a b) else
  if op = 12 then some (.bzS a b) else
  if op = 13 then some (.bnzS a b) else
  if op = 14 ∧ a = 0 ∧ b = 0 then some .nop else
  if op = 14 ∧ a = 1 ∧ b = 0 then some .rx else
  if op = 14 ∧ a = 2 then some (.ret b) else
  if op = 14 ∧ a = 3 ∧ b = 0 then some .lretS else
  if op = 14 ∧ a = 4 ∧ b = 0 then some .yield else
  if op = 14 ∧ a = 5 ∧ b = 0 then some .wmsg0 else
  if op = 14 ∧ a = 5 ∧ b = 1 then some .wmsg1 else
  if op = 14 ∧ a = 5 ∧ b = 2 then some .wmsg2 else
  if op = 14 ∧ a = 5 ∧ b = 3 then some .wmsg3 else
  if op = 14 ∧ a = 5 ∧ b = 4 then some .wmsg4 else
  if op = 14 ∧ a = 5 ∧ b = 5 then some .wmsg5 else
  if op = 14 ∧ a = 5 ∧ b = 6 then some .wmsg6 else
  if op = 14 ∧ a = 5 ∧ b = 7 then some .wmsg7 else
  if op = 14 ∧ a = 5 ∧ b = 8 then some .wmsg8 else
  if op = 14 ∧ a = 5 ∧ b = 9 then some .wmsg9 else
  if op = 14 ∧ a = 5 ∧ b = 10 then some .wmsg10 else
  if op = 14 ∧ a = 5 ∧ b = 11 then some .wmsg11 else
  if op = 14 ∧ a = 5 ∧ b = 12 then some .wmsg12 else
  if op = 14 ∧ a = 5 ∧ b = 13 then some .wmsg13 else
  if op = 14 ∧ a = 5 ∧ b = 14 then some .wmsg14 else
  if op = 14 ∧ a = 5 ∧ b = 15 then some .wmsg15 else
  if op = 14 ∧ a = 6 ∧ b = 0 then some .exit else
  if op = 14 ∧ a = 7 then some (.brk b) else
  none

/-- The assignment of a major's fields (R288), before the checks of field values. -/
def decMajor (ma : BitVec 5) (mi : BitVec 5) (b a d : Code) : Option Instr :=
  match ma with
  | 0 => decM0 mi b a d
  | 1 => decM1 mi b a d
  | 2 => decM2 mi b a d
  | 3 => decM3 mi b a d
  | 4 => decM4 mi b a d
  | 5 => decM5 mi b a d
  | 6 => decM6 mi b a d
  | 7 => decM7 mi b a d
  | 8 => decM8 mi b a d
  | 9 => decM9 mi b a d
  | 10 => decM10 mi b a d
  | 11 => decM11 mi b a d
  | 12 => decM12 mi b a d
  | 13 => decM13 mi b a d
  | 14 => decM14 mi b a d
  | 15 => decM15 mi b a d
  | 16 => decM16 mi b a d
  | 17 => decM17 mi b a d
  | 18 => decM18 mi b a d
  | 19 => decM19 mi b a d
  | 20 => decM20 mi b a d
  | 21 => decM21 mi b a d
  | 22 => decM22 mi b a d
  | 23 => decM23 mi b a d
  | 24 => decM24 mi b a d
  | 25 => decM25 mi b a d
  | 26 => decM26 mi b a d
  | 27 => decM27 mi b a d
  | 28 => decM28 mi b a d
  | 29 => decM29 mi b a d
  | 30 => decM30 mi b a d
  | _ => none

/-- The five fields of a 32-bit word: minor [31:27], B [26:20], A [19:13], D [12:6], major [5:1] (R280). -/
def enc32 (mi : BitVec 5) (b a d : Code) (ma : BitVec 5) : List (BitVec 16) :=
  let w : BitVec 32 := mi ++ b ++ a ++ d ++ ma ++ 1#1
  [w.extractLsb' 0 16, w.extractLsb' 16 16]

/-- The parcel of a 16-bit instruction: b [15:11], a [10:5], op4 [4:1] (R278). -/
def enc16 (op : BitVec 4) (a : BitVec 6) (b : BitVec 5) : List (BitVec 16) := [b ++ a ++ op ++ 0#1]

/-- A 32-bit instruction word in version v: the fields, the exchange of A and B of major 25 in versions 1 and 2
(R268, R395), then the field checks (R276 step 3). -/
def decode32 (v : Ver) (w : BitVec 32) : Option Instr :=
  let ma := w.extractLsb' 1 5
  let d : Code := w.extractLsb' 6 7
  let a : Code := w.extractLsb' 13 7
  let b : Code := w.extractLsb' 20 7
  let mi := w.extractLsb' 27 5
  let swap := ma == 25 && v != .v3
  (decMajor ma mi (if swap then a else b) (if swap then b else a) d).filter (wellFormed v)

/-- A one-parcel instruction (R278). -/
def decode16 (v : Ver) (p : BitVec 16) : Option Instr :=
  (dec16 (p.extractLsb' 1 4) (p.extractLsb' 5 6) (p.extractLsb' 11 5)).filter (wellFormed v)

/-- The instruction at the head of a list of parcels, and its length in parcels (R274); none for the zero parcel, an
illegal encoding, and a list that ends within the instruction. -/
def decode (v : Ver) : List (BitVec 16) → Option (Instr × Nat)
  | [] => none
  | p :: rest =>
    if p = 0 then none
    else if p.getLsbD 0 then
      match rest with
      | [] => none
      | q :: _ => (decode32 v (q ++ p)).map (·, 2)
    else (decode16 v p).map (·, 1)

/-- The parcels of an instruction of version 3; a device step has none. -/
def encode : Instr → List (BitVec 16)
  | .movS a b => enc16 0 a b
  | .addS a b => enc16 1 a b
  | .subS a b => enc16 2 a b
  | .andS a b => enc16 3 a b
  | .orS a b => enc16 4 a b
  | .xorS a b => enc16 5 a b
  | .addiS a i => enc16 6 a i
  | .shliS a n => enc16 7 a n
  | .shriS a n => enc16 8 a n
  | .ldiS a i => enc16 9 a i
  | .ldS a b => enc16 10 a b
  | .stS a b => enc16 11 a b
  | .bzS o b => enc16 12 o b
  | .bnzS o b => enc16 13 o b
  | .nop => enc16 14 0#6 0#5
  | .rx => enc16 14 1#6 0#5
  | .ret b => enc16 14 2#6 b
  | .lretS => enc16 14 3#6 0#5
  | .yield => enc16 14 4#6 0#5
  | .wmsg0 => enc16 14 5#6 0#5
  | .wmsg1 => enc16 14 5#6 1#5
  | .wmsg2 => enc16 14 5#6 2#5
  | .wmsg3 => enc16 14 5#6 3#5
  | .wmsg4 => enc16 14 5#6 4#5
  | .wmsg5 => enc16 14 5#6 5#5
  | .wmsg6 => enc16 14 5#6 6#5
  | .wmsg7 => enc16 14 5#6 7#5
  | .wmsg8 => enc16 14 5#6 8#5
  | .wmsg9 => enc16 14 5#6 9#5
  | .wmsg10 => enc16 14 5#6 10#5
  | .wmsg11 => enc16 14 5#6 11#5
  | .wmsg12 => enc16 14 5#6 12#5
  | .wmsg13 => enc16 14 5#6 13#5
  | .wmsg14 => enc16 14 5#6 14#5
  | .wmsg15 => enc16 14 5#6 15#5
  | .exit => enc16 14 6#6 0#5
  | .brk n => enc16 14 7#6 n
  | .add d a b => enc32 0#5 b a d 0
  | .sub d a b => enc32 1#5 b a d 0
  | .mul d a b => enc32 2#5 b a d 0
  | .mulh d a b => enc32 3#5 b a d 0
  | .mulhn d a b => enc32 4#5 b a d 0
  | .mulw d a b => enc32 5#5 b a d 0
  | .mulwn d a b => enc32 6#5 b a d 0
  | .div d a b => enc32 7#5 b a d 0
  | .divn d a b => enc32 8#5 b a d 0
  | .rem d a b => enc32 9#5 b a d 0
  | .remn d a b => enc32 10#5 b a d 0
  | .and d a b => enc32 11#5 b a d 0
  | .or d a b => enc32 12#5 b a d 0
  | .xor d a b => enc32 13#5 b a d 0
  | .andn d a b => enc32 14#5 b a d 0
  | .shl d a b => enc32 15#5 b a d 0
  | .shr d a b => enc32 16#5 b a d 0
  | .sra d a b => enc32 17#5 b a d 0
  | .rol d a b => enc32 18#5 b a d 0
  | .min d a b => enc32 19#5 b a d 0
  | .max d a b => enc32 20#5 b a d 0
  | .minn d a b => enc32 21#5 b a d 0
  | .maxn d a b => enc32 22#5 b a d 0
  | .clz d a => enc32 23#5 0#7 a d 0
  | .ctz d a => enc32 23#5 1#7 a d 0
  | .popc d a => enc32 23#5 2#7 a d 0
  | .brev d a => enc32 23#5 3#7 a d 0
  | .addD d a b => enc32 24#5 b a d 0
  | .subD d a b => enc32 25#5 b a d 0
  | .shlD d a b => enc32 26#5 b a d 0
  | .divS64 d a b => enc32 27#5 b a d 0
  | .divnN64 d a b => enc32 28#5 b a d 0
  | .remS64 d a b => enc32 29#5 b a d 0
  | .remnN64 d a b => enc32 30#5 b a d 0
  | .addi d a i => enc32 (i.extractLsb' 7 5) (i.extractLsb' 0 7) a d 1
  | .andi d a i => enc32 (i.extractLsb' 7 5) (i.extractLsb' 0 7) a d 2
  | .ori d a i => enc32 (i.extractLsb' 7 5) (i.extractLsb' 0 7) a d 3
  | .xori d a i => enc32 (i.extractLsb' 7 5) (i.extractLsb' 0 7) a d 4
  | .shli d a n => enc32 0#5 (0#2 ++ n) a d 5
  | .shri d a n => enc32 0#5 (1#2 ++ n) a d 5
  | .srai d a n => enc32 0#5 (2#2 ++ n) a d 5
  | .cmpS32 c p a b => enc32 0#5 b a (p ++ c) 6
  | .cmpN32 c p a b => enc32 1#5 b a (p ++ c) 6
  | .cmpS64 c p a b => enc32 2#5 b a (p ++ c) 6
  | .cmpN64 c p a b => enc32 3#5 b a (p ++ c) 6
  | .pand p a q => enc32 4#5 (0#3 ++ q) (0#3 ++ a) (p ++ 0#3) 6
  | .por p a q => enc32 5#5 (0#3 ++ q) (0#3 ++ a) (p ++ 0#3) 6
  | .pxor p a q => enc32 6#5 (0#3 ++ q) (0#3 ++ a) (p ++ 0#3) 6
  | .pnot p a => enc32 7#5 0#7 (0#3 ++ a) (p ++ 0#3) 6
  | .cmpi c p a i => enc32 (i.extractLsb' 7 5) (i.extractLsb' 0 7) a (p ++ c) 7
  | .ldi d i => enc32 (i.extractLsb' 14 5) (i.extractLsb' 7 7) (i.extractLsb' 0 7) d 8
  | .ldih d i => enc32 (i.extractLsb' 14 5) (i.extractLsb' 7 7) (i.extractLsb' 0 7) d 9
  | .b o => enc32 (o.extractLsb' 14 5) (o.extractLsb' 7 7) (o.extractLsb' 0 7) 0#7 10
  | .bp p o => enc32 (o.extractLsb' 14 5) (o.extractLsb' 7 7) (o.extractLsb' 0 7) (p ++ 1#3) 10
  | .bnp p o => enc32 (o.extractLsb' 14 5) (o.extractLsb' 7 7) (o.extractLsb' 0 7) (p ++ 2#3) 10
  | .call d o => enc32 (o.extractLsb' 14 5) (o.extractLsb' 7 7) (o.extractLsb' 0 7) d 11
  | .jmp a => enc32 0#5 0#7 a 0#7 12
  | .callr d a => enc32 1#5 0#7 a d 12
  | .ldB d b r m o => enc32 o (m ++ r ++ 0#3) b d 13
  | .ldH d b r m o => enc32 o (m ++ r ++ 1#3) b d 13
  | .ldW d b r m o => enc32 o (m ++ r ++ 2#3) b d 13
  | .ldD d b r m o => enc32 o (m ++ r ++ 3#3) b d 13
  | .ldQ d b r m o => enc32 o (m ++ r ++ 4#3) b d 13
  | .ldBs d b r m o => enc32 o (m ++ r ++ 5#3) b d 13
  | .ldHs d b r m o => enc32 o (m ++ r ++ 6#3) b d 13
  | .ldExtended d b r m z => enc32 (0#2 ++ z) (m ++ r ++ 7#3) b d 13
  | .stB d b r m o => enc32 o (m ++ r ++ 0#3) b d 14
  | .stH d b r m o => enc32 o (m ++ r ++ 1#3) b d 14
  | .stW d b r m o => enc32 o (m ++ r ++ 2#3) b d 14
  | .stD d b r m o => enc32 o (m ++ r ++ 3#3) b d 14
  | .stQ d b r m o => enc32 o (m ++ r ++ 4#3) b d 14
  | .stExtended d b r m z => enc32 (0#2 ++ z) (m ++ r ++ 7#3) b d 14
  | .amoAdd d a o s w => enc32 0#5 (w ++ s ++ o) a d 15
  | .amoAnd d a o s w => enc32 1#5 (w ++ s ++ o) a d 15
  | .amoOr d a o s w => enc32 2#5 (w ++ s ++ o) a d 15
  | .amoXor d a o s w => enc32 3#5 (w ++ s ++ o) a d 15
  | .amoMin d a o s w => enc32 4#5 (w ++ s ++ o) a d 15
  | .amoMax d a o s w => enc32 5#5 (w ++ s ++ o) a d 15
  | .amoMinn d a o s w => enc32 6#5 (w ++ s ++ o) a d 15
  | .amoMaxn d a o s w => enc32 7#5 (w ++ s ++ o) a d 15
  | .amoSwap d a o s w => enc32 8#5 (w ++ s ++ o) a d 15
  | .amoCas d a o s w => enc32 9#5 (w ++ s ++ o) a d 15
  | .amoFadd d a o s => enc32 10#5 (0#1 ++ s ++ o) a d 15
  | .redAdd d a o s w => enc32 16#5 (w ++ s ++ o) a d 15
  | .redAnd d a o s w => enc32 17#5 (w ++ s ++ o) a d 15
  | .redOr d a o s w => enc32 18#5 (w ++ s ++ o) a d 15
  | .redXor d a o s w => enc32 19#5 (w ++ s ++ o) a d 15
  | .redMin d a o s w => enc32 20#5 (w ++ s ++ o) a d 15
  | .redMax d a o s w => enc32 21#5 (w ++ s ++ o) a d 15
  | .redMinn d a o s w => enc32 22#5 (w ++ s ++ o) a d 15
  | .redMaxn d a o s w => enc32 23#5 (w ++ s ++ o) a d 15
  | .redSwap d a o s w => enc32 24#5 (w ++ s ++ o) a d 15
  | .redCas d a o s w => enc32 25#5 (w ++ s ++ o) a d 15
  | .redFadd d a o s => enc32 26#5 (0#1 ++ s ++ o) a d 15
  | .redFx64 d a o s => enc32 27#5 (1#1 ++ s ++ o) a d 15
  | .fence o s => enc32 0#5 (0#1 ++ s ++ o) 0#7 0#7 16
  | .bar => enc32 1#5 0#7 0#7 0#7 16
  | .barGang => enc32 2#5 0#7 0#7 0#7 16
  | .barj a s => enc32 3#5 (0#1 ++ s ++ 0#3) a 0#7 16
  | .barw d a s => enc32 4#5 (0#1 ++ s ++ 0#3) a d 16
  | .barx a s => enc32 5#5 (0#1 ++ s ++ 0#3) a 0#7 16
  | .pf a => enc32 6#5 0#7 a 0#7 16
  | .inval a => enc32 7#5 0#7 a 0#7 16
  | .wback a => enc32 8#5 0#7 a 0#7 16
  | .ldf d b r m f => enc32 f (m ++ r ++ 0#3) b d 29
  | .lde d b r m f => enc32 f (m ++ r ++ 1#3) b d 29
  | .stf d b r m f => enc32 f (m ++ r ++ 2#3) b d 29
  | .stx d b r m f => enc32 f (m ++ r ++ 3#3) b d 29
  | .sete b r m f => enc32 f (m ++ r ++ 4#3) b 0#7 29
  | .fest d b r m f => enc32 f (m ++ r ++ 5#3) b d 29
  | .ldm d b r m n => enc32 n (m ++ r ++ 6#3) b d 29
  | .stm d b r m n => enc32 n (m ++ r ++ 7#3) b d 29
  | .fadd d a b r => enc32 (r ++ 0#2) b a d 17
  | .fsub d a b r => enc32 (r ++ 1#2) b a d 17
  | .fmul d a b r => enc32 (r ++ 2#2) b a d 17
  | .fdiv d a b r => enc32 (r ++ 3#2) b a d 17
  | .hadd2 d a b => enc32 0#5 b a d 18
  | .hmul2 d a b => enc32 1#5 b a d 18
  | .hfma2 d a b => enc32 2#5 b a d 18
  | .badd2 d a b => enc32 3#5 b a d 18
  | .bmul2 d a b => enc32 4#5 b a d 18
  | .bfma2 d a b => enc32 5#5 b a d 18
  | .dadd d a b => enc32 6#5 b a d 18
  | .dmul d a b => enc32 7#5 b a d 18
  | .dfma d a b => enc32 8#5 b a d 18
  | .cvtS32 d a s r => enc32 9#5 (r ++ s) a d 18
  | .cvtN32 d a s r => enc32 10#5 (r ++ s) a d 18
  | .cvtS64 d a s r => enc32 11#5 (r ++ s) a d 18
  | .cvtN64 d a s r => enc32 12#5 (r ++ s) a d 18
  | .cvtF32 d a s r => enc32 13#5 (r ++ s) a d 18
  | .cvtF16 d a s r => enc32 14#5 (r ++ s) a d 18
  | .cvtBf16 d a s r => enc32 15#5 (r ++ s) a d 18
  | .cvtF64 d a s r => enc32 16#5 (r ++ s) a d 18
  | .cvtE4m3 d a s r => enc32 17#5 (r ++ s) a d 18
  | .cvtE5m2 d a s r => enc32 18#5 (r ++ s) a d 18
  | .cvtE2m1 d a s r => enc32 19#5 (r ++ s) a d 18
  | .cvtE4m3Sat d a s r => enc32 20#5 (r ++ s) a d 18
  | .fcmpF32 c p a b => enc32 0#5 b a (p ++ c) 19
  | .fcmpF64 c p a b => enc32 1#5 b a (p ++ c) 19
  | .fclass d a => enc32 2#5 0#7 a d 19
  | .fclassF64 d a => enc32 3#5 0#7 a d 19
  | .fmin d a b => enc32 4#5 b a d 19
  | .fmax d a b => enc32 5#5 b a d 19
  | .fsqrt d a r => enc32 (r ++ 0#2) 0#7 a d 20
  | .frcp d a r => enc32 (r ++ 0#2) 1#7 a d 20
  | .frsq d a r => enc32 (r ++ 0#2) 2#7 a d 20
  | .fexp2 d a r => enc32 (r ++ 0#2) 3#7 a d 20
  | .flog2 d a r => enc32 (r ++ 0#2) 4#7 a d 20
  | .fsin d a r => enc32 (r ++ 0#2) 5#7 a d 20
  | .fcos d a r => enc32 (r ++ 0#2) 6#7 a d 20
  | .fsinR d a r => enc32 (r ++ 0#2) 7#7 a d 20
  | .fcosR d a r => enc32 (r ++ 0#2) 8#7 a d 20
  | .ffloor d a => enc32 0#5 9#7 a d 20
  | .fceil d a => enc32 0#5 10#7 a d 20
  | .ftrunc d a => enc32 0#5 11#7 a d 20
  | .frint d a r => enc32 (r ++ 0#2) 12#7 a d 20
  | .ffrac d a r => enc32 (r ++ 0#2) 13#7 a d 20
  | .fabs d a => enc32 0#5 14#7 a d 20
  | .fneg d a => enc32 0#5 15#7 a d 20
  | .fma d a b r => enc32 (r ++ 1#2) b a d 20
  | .fnma d a b r => enc32 (r ++ 2#2) b a d 20
  | .mput n a b => enc32 0#5 b a (0#3 ++ n) 21
  | .mget d n => enc32 1#5 0#7 (0#3 ++ n) d 21
  | .msend a b => enc32 2#5 b a 0#7 21
  | .rmsg d s => enc32 3#5 (0#1 ++ s ++ 0#3) 0#7 d 21
  | .qget d n => enc32 4#5 0#7 (0#5 ++ n) d 21
  | .qput n a => enc32 5#5 0#7 a (0#5 ++ n) 21
  | .qctl n a => enc32 6#5 0#7 a (0#5 ++ n) 21
  | .qpeek d n => enc32 7#5 0#7 (0#5 ++ n) d 21
  | .go a => enc32 8#5 0#7 a 0#7 21
  | .spawn a b => enc32 9#5 b a 0#7 21
  | .wenter a => enc32 10#5 0#7 a 0#7 21
  | .wleave a => enc32 11#5 0#7 a 0#7 21
  | .wexp n a b => enc32 12#5 b a (0#4 ++ n) 21
  | .wwait a s => enc32 13#5 (0#1 ++ s ++ 0#3) a 0#7 21
  | .wpoll d a s => enc32 14#5 (0#1 ++ s ++ 0#3) a d 21
  | .mvcopy a p s => enc32 0#5 (0#1 ++ s ++ p) a 0#7 22
  | .mvcopy2 a p s => enc32 1#5 (0#1 ++ s ++ p) a 0#7 22
  | .mvgath a p s => enc32 2#5 (0#1 ++ s ++ p) a 0#7 22
  | .mvscat a p s => enc32 3#5 (0#1 ++ s ++ p) a 0#7 22
  | .mvfill a p s => enc32 4#5 (0#1 ++ s ++ p) a 0#7 22
  | .mvred a p s => enc32 5#5 (0#1 ++ s ++ p) a 0#7 22
  | .shfl d a b => enc32 0#5 b a d 23
  | .shflx d a b => enc32 1#5 b a d 23
  | .voteAny p a => enc32 2#5 0#7 (0#3 ++ a) (p ++ 0#3) 23
  | .voteAll p a => enc32 3#5 0#7 (0#3 ++ a) (p ++ 0#3) 23
  | .ballot d a => enc32 4#5 0#7 (0#3 ++ a) d 23
  | .lsum d a t => enc32 5#5 (0#5 ++ t) a d 23
  | .lmin d a t => enc32 6#5 (0#5 ++ t) a d 23
  | .bcast d a b => enc32 7#5 b a d 23
  | .mrdy => enc32 0#5 0#7 0#7 0#7 24
  | .mwait => enc32 2#5 0#7 0#7 0#7 24
  | .mmaBf16 d a b k => enc32 (2#4 ++ k) b a d 24
  | .mmaF16 d a b k => enc32 (3#4 ++ k) b a d 24
  | .mmaF8E4m3E4m3 d a b k => enc32 (4#4 ++ k) b a d 24
  | .mmaF8E4m3E5m2 d a b k => enc32 (5#4 ++ k) b a d 24
  | .mmaF8E5m2E4m3 d a b k => enc32 (6#4 ++ k) b a d 24
  | .mmaF8E5m2E5m2 d a b k => enc32 (7#4 ++ k) b a d 24
  | .mmaF8S8 d a b k => enc32 (8#4 ++ k) b a d 24
  | .mmaQ4 d a b k => enc32 (9#4 ++ k) b a d 24
  | .mmaMx4 d a b k => enc32 (10#4 ++ k) b a d 24
  | .mmaTs8W8 d a b k => enc32 (11#4 ++ k) b a d 24
  | .mmaTs8W4 d a b k => enc32 (12#4 ++ k) b a d 24
  | .smp d a b => enc32 0#5 b a d 25
  | .smpl d a b => enc32 1#5 b a d 25
  | .smpg d a b => enc32 2#5 b a d 25
  | .fetch d a b => enc32 3#5 b a d 25
  | .interp d a b => enc32 4#5 b a d 25
  | .ddx d a => enc32 5#5 0#7 a d 25
  | .ddy d a => enc32 6#5 0#7 a d 25
  | .pemit a b => enc32 7#5 b a 0#7 25
  | .pemitCull a => enc32 7#5 0#7 a 1#7 25
  | .pexp a b => enc32 8#5 b a 0#7 25
  | .kill => enc32 9#5 0#7 0#7 0#7 25
  | .iset n a => enc32 0#5 0#7 a (0#4 ++ n) 26
  | .iget n a => enc32 0#5 0#7 a (1#4 ++ n) 26
  | .iclr0 => enc32 0#5 0#7 0#7 (2#4 ++ 0#3) 26
  | .iclr1 => enc32 0#5 0#7 0#7 (2#4 ++ 1#3) 26
  | .iclr2 => enc32 0#5 0#7 0#7 (2#4 ++ 2#3) 26
  | .iclr3 => enc32 0#5 0#7 0#7 (2#4 ++ 3#3) 26
  | .iclr4 => enc32 0#5 0#7 0#7 (2#4 ++ 4#3) 26
  | .iclr5 => enc32 0#5 0#7 0#7 (2#4 ++ 5#3) 26
  | .iclr6 => enc32 0#5 0#7 0#7 (2#4 ++ 6#3) 26
  | .iclr7 => enc32 0#5 0#7 0#7 (2#4 ++ 7#3) 26
  | .iadv n i => enc32 (i.extractLsb' 7 5) (i.extractLsb' 0 7) 0#7 (3#4 ++ n) 26
  | .isetFields n a u s c => enc32 (c ++ s) u a (4#4 ++ n) 26
  | .isetWrap n a u s c => enc32 (c ++ s) u a (5#4 ++ n) 26
  | .xset n i => enc32 (i.extractLsb' 14 5) (i.extractLsb' 7 7) (i.extractLsb' 0 7) (0#5 ++ n) 27
  | .xsetHi n i => enc32 (i.extractLsb' 14 5) (i.extractLsb' 7 7) (i.extractLsb' 0 7) (1#5 ++ n) 27
  | .xld n a => enc32 0#5 0#7 a (2#5 ++ n) 27
  | .sget d s => enc32 0#5 s 0#7 d 28
  | .sset a s => enc32 1#5 s a 0#7 28
  | .cset n a => enc32 2#5 0#7 a n 28
  | .csetHigh n a => enc32 3#5 0#7 a n 28
  | .trap n => enc32 4#5 n 0#7 0#7 28
  | .lret => enc32 5#5 0#7 0#7 0#7 28
  | .launch d a b => enc32 6#5 b a d 28
  | .tlsig a b => enc32 7#5 b a 0#7 28
  | .tlsigSet a b => enc32 8#5 b a 0#7 28
  | .sleep a => enc32 9#5 0#7 a 0#7 28
  | .nopLong => enc32 10#5 0#7 0#7 0#7 28
  | .sel d a b p => enc32 (0#1 ++ p) b a d 30
  | .selNot d a b p => enc32 (1#1 ++ p) b a d 30
  | .coldReset .. => []
  | .deviceReset .. => []
  | .partitionReset .. => []
  | .dieReset .. => []
  | .dieLinkRetrain .. => []
  | .dieReturn .. => []
  | .dieLostTimeout .. => []
  | .bringUpPhase .. => []
  | .junctionSensorRead .. => []
  | .clockFault .. => []
  | .clockReferenceReturn .. => []
  | .partitionConfiguration .. => []
  | .measurementExtend .. => []
  | .attestationReport .. => []
  | .supervisorStart .. => []
  | .portModeSet .. => []
  | .ideKeySet .. => []
  | .ideIntegrityFailure .. => []
  | .uncorrectableError .. => []
  | .patrolScrub .. => []
  | .budgetPeriod .. => []
  | .flitReceive .. => []
  | .repeatTimeout .. => []
  | .linkRetrain .. => []
  | .linkFailed .. => []
  | .laneRepair .. => []
  | .spanLaneFailure .. => []
  | .keyAgreement .. => []
  | .keyRollover .. => []
  | .keyUseLimit .. => []
  | .slotRetire .. => []
  | .spanAuthFailure .. => []
  | .hostStreamWrite .. => []
  | .mirrorWrite .. => []
  | .recordAccept .. => []
  | .cuiqueTranslation .. => []
  | .streamCancel .. => []
  | .hostheadWrite .. => []
  | .recordComplete .. => []
  | .dieLost .. => []
  | .timelineSet .. => []
  | .timelineAdd .. => []
  | .fqheadWrite .. => []
  | .apertureEntryWrite .. => []
  | .spanApertureEntryWrite .. => []
  | .peerReadCompletion .. => []
  | .peerReadTimeout .. => []
  | .hostMemoryWrite .. => []
  | .hostMemoryRead .. => []
  | .managementBarAccess .. => []
  | .upstreamRequest .. => []
  | .spanRequest .. => []
  | .placementWindow .. => []
  | .drainReservation .. => []
  | .stallResolution .. => []
  | .preemptionRequest .. => []
  | .framePreemption .. => []
  | .saveComplete .. => []
  | .rasterControlWrite .. => []
  | .primitiveSetup .. => []
  | .watermarkPeriod .. => []
  | .primitiveMessage .. => []
  | .watermark .. => []
  | .credit .. => []
  | .close .. => []
  | .mergeRelease .. => []
  | .rasterise .. => []
  | .staticWaveStart .. => []
  | .exportApply .. => []
  | .homeAccess .. => []
  | .memoryReply .. => []
  | .pageWalkComplete .. => []
  | .faultReplay .. => []
  | .faultKill .. => []
  | .tlbInvalidateRange .. => []
  | .tlbInvalidateAll .. => []
  | .invalidationComplete .. => []
  | .heraldWindow .. => []
  | .heraldCompletion .. => []
  | .migrantArrival .. => []
  | .landingSlotTake .. => []
  | .overflowMove .. => []
  | .messageRegisterArrival .. => []
  | .mailboxArrival .. => []
  | .rillEntryReadable .. => []
  | .lightHandlerEntry .. => []
  | .moverCommandStart .. => []
  | .moverCommandComplete .. => []
  | .weirDecrement .. => []
  | .mmaComplete .. => []
  | .barwTimeout .. => []
  | .sleepExpiry .. => []
  | .watchdog .. => []
  | .threadReplay .. => []
  | .threadResumeNext .. => []
  | .threadResumeAtTpc .. => []
  | .threadKill .. => []
  | .contextWrite .. => []
  | .eventCounterWrite .. => []
  | .registerWrite .. => []
  | .serviceDieFailure .. => []
  | .serviceDieReturn .. => []
  | .retrainingComplete .. => []
  | .laneRepairComplete .. => []
  | .spanPortReturn .. => []
  | .pcieLinkDown .. => []
  | .pcieLinkUp .. => []
  | .stackClearComplete .. => []
  | .restoreComplete .. => []
  | .illegalInstruction .. => []
  | .zeroParcel .. => []
  | .fetchBound .. => []
  | .legacyTrap .. => []

/-- Encoding in a version: versions 1 and 2 exchange the A and B fields of major 25 (R268). -/
def encodeV (v : Ver) (i : Instr) : List (BitVec 16) :=
  match v, encode i with
  | .v3, ps => ps
  | _, [p, q] =>
    let w : BitVec 32 := q ++ p
    if w.extractLsb' 1 5 = 25#5 then
      enc32 (w.extractLsb' 27 5) (w.extractLsb' 13 7) (w.extractLsb' 20 7) (w.extractLsb' 6 7) 25
    else [p, q]
  | _, ps => ps

/-- The instruction that the decoder reads from an opcode-table word: its first parcel is bits [15:0] and its second
bits [31:16]; bits above nbits are zero. -/
def decodeTableWord (_nbits w : Nat) : Option Instr :=
  (decode .v3 [BitVec.ofNat 16 w, BitVec.ofNat 16 (w / 65536)]).map (·.1)

end Sys2Proof
end

