-- ==== Sys2Proof/Machine/Cuique.lean ====
section
/-! DEFINITION. The Cuique set: words, the translator and its cache, and the legacy trap (R269 to R273). -/

namespace Sys2Proof.Machine
open Sys2Proof

/-! Words (R269, R272). -/

/-- A Cuique word of a region: OP, D, A and B. -/
structure CWord where
  /-- Operation, with the L flag in bit 7. -/
  op : Nat
  /-- D. -/
  d : Nat
  /-- A. -/
  a : Nat
  /-- B. -/
  b : Nat
  deriving DecidableEq, Repr

/-- The word of a 32-bit value. -/
def cword (v : Nat) : CWord := ⟨v % 256, v / 2 ^ 8 % 256, v / 2 ^ 16 % 256, v / 2 ^ 24 % 256⟩

/-- The words of a region. -/
def cwords : List Byte → List Nat
  | a :: b :: c :: d :: r => leNat [a, b, c, d] :: cwords r
  | _ => []

/-- Which words are literals: the word after every operation with the L flag. -/
def literalsOf : Bool → List Nat → List Bool
  | _, [] => []
  | true, _ :: r => true :: literalsOf false r
  | false, v :: r => false :: literalsOf (decide (128 ≤ v % 256)) r

/-- An operation in the table of R272 without L. -/
def plainOp (k : Nat) : Bool :=
  decide (k ≤ 0x0D) || (decide (0x10 ≤ k) && decide (k ≤ 0x1F)) || (decide (0x30 ≤ k) && decide (k ≤ 0x35)) ||
    (decide (0x40 ≤ k) && decide (k ≤ 0x47)) || (decide (0x50 ≤ k) && decide (k ≤ 0x53))

/-- An OP in the table of R272. -/
def knownOp (op : Nat) : Bool :=
  if op < 128 then plainOp op
  else
    let k := op - 128
    plainOp k && k != 0x00 && k != 0x01 && k != 0x33 && k != 0x34 && k != 0x35 && !(decide (0x50 ≤ k) && decide (k ≤ 0x53))

/-- Which of D, A and B an operation takes as register operands. -/
def namesOf (op : Nat) : Bool × Bool × Bool :=
  let l := decide (128 ≤ op)
  let k := op % 128
  if k = 0x01 then (true, true, false)
  else if (0x02 ≤ k ∧ k ≤ 0x0D) ∨ (0x10 ≤ k ∧ k ≤ 0x15) then (true, true, !l)
  else if 0x16 ≤ k ∧ k ≤ 0x1F then (true, true, false)
  else if k = 0x31 then (true, false, false)
  else if k = 0x40 ∨ k = 0x41 then (true, true, false)
  else if k = 0x42 ∨ k = 0x43 ∨ k = 0x44 then (true, true, !l)
  else if k = 0x45 then (false, true, !l)
  else if k = 0x46 ∨ k = 0x47 then (true, true, false)
  else if 0x50 ≤ k ∧ k ≤ 0x53 then (true, true, true)
  else (false, false, false)

/-- The operand codes that a word names. -/
def namedCodes (w : CWord) : List Nat :=
  let n := namesOf w.op
  (if n.1 then [w.d] else []) ++ (if n.2.1 then [w.a] else []) ++ (if n.2.2 then [w.b] else [])

/-- What a word translates to as a whole when it is no plain sequence. -/
inductive CKind where
  /-- A literal: nothing. -/
  | none
  /-- One instruction that raises the illegal-instruction trap. -/
  | illegal
  /-- One legacy trap of this sub-cause. -/
  | legacy (sub : Nat)
  /-- The sequence of its operation. -/
  | plain
  deriving DecidableEq, Repr

/-- The kind of an operation word; last when the region ends with it. -/
def kindOf (w : CWord) (last : Bool) : CKind :=
  if 128 ≤ w.op ∧ (w.b ≠ 0 ∨ last) then .illegal
  else if !knownOp w.op then .illegal
  else if (namedCodes w).any (fun c => decide (135 ≤ c)) then .illegal
  else match w.op with
    | 0x50 => .legacy 1
    | 0x51 => .legacy 2
    | 0x52 => .legacy 3
    | 0x53 => .legacy 5
    | _ => if (namedCodes w).any (fun c => decide (120 ≤ c) && decide (c < 128)) then .legacy 4 else .plain

/-- Parcels of an operation's sequence (R272). -/
def plainLen (w : CWord) : Nat :=
  let k := w.op % 128
  if w.op = 0xC0 ∨ w.op = 0xC1 then 10
  else
    (if k = 0x00 ∨ k = 0x33 ∨ k = 0x34 then 1
    else if k = 0x13 ∨ k = 0x31 then 4
    else if k = 0x40 ∨ k = 0x41 then (if 31 < w.b then 6 else 4)
    else 2) + (if 128 ≤ w.op ∧ k ≠ 0x30 ∧ k ≠ 0x31 ∧ k ≠ 0x32 then 4 else 0)

/-- Parcels of a word. -/
def clen (w : CWord) (k : CKind) : Nat :=
  match k with
  | .none => 0
  | .plain => plainLen w
  | _ => 2

/-- The kinds of the words of a region. -/
def kindsOf : List Nat → List Bool → List CKind
  | [], _ => []
  | v :: r, true :: ls => .none :: (let _ := v; kindsOf r ls)
  | v :: r, _ :: ls => kindOf (cword v) r.isEmpty :: kindsOf r ls
  | v :: r, [] => kindOf (cword v) r.isEmpty :: kindsOf r []

/-- Translated starts: none for a literal. -/
def startsOf : List Nat → List CKind → Nat → List (Option Nat)
  | v :: vs, k :: ks, n => (if k = .none then none else some n) :: startsOf vs ks (n + clen (cword v) k)
  | _, _, _ => []

/-! Sequences (R272). -/

/-- The native code of a Cuique register code: g0 to g127, or i0 to i6. -/
def ncode (c : Nat) : Code := BitVec.ofNat 7 (if c < 128 then c else c - 8)

/-- The scratch operand S. -/
def scratch : Code := 127

/-- The three-operand instructions of the table. -/
def cBinary (k : Nat) (d a b : Code) : Option Instr :=
  match k with
  | 0x02 => some (.add d a b)
  | 0x03 => some (.sub d a b)
  | 0x04 => some (.mul d a b)
  | 0x05 => some (.mulh d a b)
  | 0x06 => some (.and d a b)
  | 0x07 => some (.or d a b)
  | 0x08 => some (.xor d a b)
  | 0x09 => some (.shl d a b)
  | 0x0A => some (.shr d a b)
  | 0x0B => some (.sra d a b)
  | 0x0C => some (.min d a b)
  | 0x0D => some (.max d a b)
  | 0x10 => some (.fadd d a b 0)
  | 0x11 => some (.fsub d a b 0)
  | 0x12 => some (.fmul d a b 0)
  | 0x14 => some (.fmin d a b)
  | 0x15 => some (.fmax d a b)
  | 0x42 => some (.smp d a b)
  | 0x43 => some (.fetch d a b)
  | 0x44 => some (.interp d a b)
  | 0x45 => some (.pexp a b)
  | _ => none

/-- The two-operand instructions of the table. -/
def cUnary (k : Nat) (d a : Code) : Option Instr :=
  match k with
  | 0x01 => some (.ori d a 0)
  | 0x16 => some (.frcp d a 0)
  | 0x17 => some (.frsq d a 0)
  | 0x18 => some (.fexp2 d a 0)
  | 0x19 => some (.flog2 d a 0)
  | 0x1A => some (.fsinR d a 0)
  | 0x1B => some (.fcosR d a 0)
  | 0x1C => some (.ffloor d a)
  | 0x1D => some (.ffrac d a 0)
  | 0x1E => some (.cvtS32 d a 4 0)
  | 0x1F => some (.cvtF32 d a 0 0)
  | 0x46 => some (.ddx d a)
  | 0x47 => some (.ddy d a)
  | _ => none

/-- S := lit. -/
def setScratch (lit : Nat) : List Instr :=
  [.ldi scratch (BitVec.ofNat 19 lit), .ldih scratch (BitVec.ofNat 19 (lit / 2 ^ 13))]

/-- The sequence of an operation that is no branch. -/
def cSequence (w : CWord) (lit : Nat) : List Instr :=
  let l := decide (128 ≤ w.op)
  let k := w.op % 128
  let d := ncode w.d
  let a := ncode w.a
  let b := if l then scratch else ncode w.b
  if k = 0x40 ∨ k = 0x41 then
    let access (o : BitVec 5) : Instr := if k = 0x40 then .ldW d scratch 0 0 o else .stW d scratch 0 0 o
    let far : Instr := if k = 0x40 then .ldExtended d scratch 0 0 2 else .stExtended d scratch 0 0 2
    if l then setScratch lit ++ [.shli scratch scratch 2, .add scratch scratch a, access 0]
    else if 31 < w.b then [.xset 0 (BitVec.ofNat 19 (4 * w.b)), .ori scratch a 0, far]
    else [.ori scratch a 0, access (BitVec.ofNat 5 w.b)]
  else
    (if l then setScratch lit else []) ++
      (match k with
      | 0x00 => [.nop]
      | 0x13 => [.xset 0 (d.setWidth 19), .fma d a b 0]
      | 0x33 => [.ret 31]
      | 0x34 => [.exit]
      | 0x35 => [.kill]
      | _ => ((cBinary k d a b).toList ++ (cUnary k d a).toList).take 1)

/-- A branch operation: its target is a word, or none, with the word offset of its B or literal. -/
def branchOff (w : CWord) (lit : Nat) : Int :=
  if 128 ≤ w.op then (BitVec.ofNat 32 lit).toInt else (BitVec.ofNat 8 w.b).toInt

/-- The translation of a word: its parcels, and what stands in them by offset; none makes the object malformed. -/
def cTranslate (starts : List (Option Nat)) (i : Nat) (v lit : Nat) (k : CKind) : Option (List (BitVec 16) × Table TSpecial) :=
  let w := cword v
  let code (x : Nat) (on : Bool) : BitVec 8 := if on then BitVec.ofNat 8 x else 255
  match k with
  | .none => some ([], [])
  | .illegal => some ([1, 0], [(0, .illegal)])
  | .legacy sub =>
    let n := namesOf w.op
    some ([1, 0], [(0, .legacy sub i (code w.d n.1) (code w.a n.2.1) (code w.b n.2.2) (BitVec.ofNat 32 (if 128 ≤ w.op then lit else 0)))])
  | .plain =>
    let m := w.op % 128
    if m = 0x30 ∨ m = 0x31 ∨ m = 0x32 then
      let j := (i : Int) + branchOff w lit
      let target := if j < 0 then none else (starts[j.toNat]?).join
      let here := (starts[i]?).join.getD 0
      let cmp := encode (.cmpi 0 15 (ncode w.d) 0)
      match target with
      | none =>
        if m = 0x31 then some (cmp ++ [1, 0], [(2, .boundIf)]) else some ([1, 0], [(0, .bound)])
      | some t =>
        let off : Int := (t : Int) - here - (if m = 0x31 then 2 else 0)
        if off < -262144 ∨ 262143 < off then none
        else
          let o := BitVec.ofInt 19 off
          some (match m with
            | 0x30 => (encode (.b o), [])
            | 0x31 => (cmp ++ encode (.bp 15 o), [])
            | _ => (encode (.call 31 o), []))
    else some ((cSequence w lit).flatMap encode, [])

/-- The translations of the words from word i on, with the translated PC n. -/
def cTranslateAll (starts : List (Option Nat)) : List Nat → List CKind → Nat → Nat → Option (List (BitVec 16) × Table TSpecial)
  | v :: vs, k :: ks, i, n =>
    match cTranslate starts i v (vs.headD 0) k with
    | none => none
    | some (p, sp) =>
      match cTranslateAll starts vs ks (i + 1) (n + p.length) with
      | none => none
      | some (q, sq) => some (p ++ q, sp.map (fun e => (e.1 + n, e.2)) ++ sq)
  | _, _, _, _ => some ([], [])

/-- THE TRANSLATION of a region (R271); none when the object is malformed. -/
def translate (key part codeVA : Nat) (entries : List Nat) (region : List Byte) : Option TCode :=
  let ws := cwords region
  let ks := kindsOf ws (literalsOf false ws)
  let starts := startsOf ws ks 0
  match cTranslateAll starts ws ks 0 0 with
  | none => none
  | some (p, sp) =>
    if 2 ^ 28 < 2 * p.length then none else some ⟨key, part, entries, sm3 region, codeVA, p, sp, starts⟩

/-- The translated start of a word that is not a literal. -/
def TCode.start (c : TCode) (w : Nat) : Option Nat := (c.starts[w]?).join

/-! The cache (R270). -/

/-- A cached translation of the same partition, entries and digest. -/
def cacheHit (c x : TCode) : Bool := c.part == x.part && c.entries == x.entries && c.digest == x.digest

/-- Bytes that translations take. -/
def cacheBytes (l : List TCode) : Nat := (l.map (fun c => 2 * c.parcels.length)).sum

/-- Objects that no thread uses are evicted, the least recently used first, until a new one fits in 256 MiB. -/
def evictFor (used : List Nat) (need : Nat) : List TCode → List TCode
  | [] => []
  | c :: r =>
    if cacheBytes (c :: r) + need ≤ 2 ^ 28 then c :: r
    else if used.contains c.key then c :: evictFor used (need + 2 * c.parcels.length) r
    else evictFor used need r

/-- Bank cycles of the slices of a die that filling its cache with a translation takes. [DEDUCED: log 80] -/
def TCode.cycles (c : TCode) : Nat := (2 * c.parcels.length + 63) / 64

/-- Bank cycles that the slices of a die give a period's refills: 2 % of each of 32 (R75). [DEDUCED: log 80] -/
def refillAllow : Nat := 6400

/-- R270. The conversion of a region on a die completes: it enters the cache once it fits and the refill budget allows it; until then it
waits. -/
def execCuiqueTranslation (die part codeVA : Nat) (s : State) : Out := .next (
  match (s.die die).tpend.find? (fun c => c.part == part && c.codeVA == codeVA) with
  | none => s
  | some c =>
    let used := (s.selThreads (fun t => t.isCuique && t.hold != .saved)).map (·.tkey)
    let kept := evictFor used (2 * c.parcels.length) (s.die die).tcache
    if 2 ^ 28 < cacheBytes kept + 2 * c.parcels.length then s.at_ (s.clk + 64) (.cuiqueTranslation die part codeVA)
    else
      budgeted s [(2 ^ 27 + die, min c.cycles refillAllow, refillAllow)] (.cuiqueTranslation die part codeVA)
        (fun s => (s.updDie die (fun d => { d with tcache := kept ++ [c], tpend := d.tpend.filter (fun x => x != c) })).atOnce
          (nextMultiple (s.clk + 1) 64) .placementWindow) (fun s => s))

/-- The translation is asked for on a die: a hit becomes the most recently used, a miss is converted at 64 bytes and 4 words a clk, and takes
the periods that its refill needs. -/
def askTranslation (s : State) (die : Nat) (c : TCode) (bytes : Nat) : State :=
  let d := s.die die
  if d.tcache.any (cacheHit c) then
    s.updDie die (fun d => { d with tcache := d.tcache.filter (fun x => !cacheHit c x) ++ d.tcache.filter (cacheHit c) })
  else if d.tpend.any (cacheHit c) then s
  else
    (s.updDie die (fun d => { d with tpend := d.tpend ++ [c] })).at_
      (s.clk + (bytes + 63) / 64 + (bytes / 4 + 3) / 4 + (c.cycles - 1) / refillAllow * 10000)
      (.cuiqueTranslation die c.part c.codeVA)

/-- The number of an equal translation that some die knows. -/
def knownKey (s : State) (c : TCode) : Option Nat :=
  (s.dies.toList.findSome? (fun d => (d.tcache ++ d.tpend).find? (cacheHit c))).map (·.key)

/-- What stands at a translated PC of a thread when it is no native instruction. -/
def specialAt (s : State) (t : Thread) (pc : Nat) : Option TSpecial :=
  if !t.isCuique then none
  else ((s.die t.die).tcache.find? (fun c => c.key == t.tkey)).bind (fun c => Table.get c.specials pc)

/-! The legacy trap (R273). -/

/-- A named operand resolved as R273 gives: its register, or the fault. -/
def legacyResolve (t : Thread) (pos : Nat) (c : BitVec 8) : Except OpErr (Option Nat) :=
  let n := t.count - 2
  let k := c.toNat
  if k = 255 then .ok none
  else if k < 128 then (if k < n then .ok (some k) else .error ⟨.regBound, pos, 255, false⟩)
  else
    let j := k - 128
    let v := t.rdI j
    if bits v.toNat 31 27 ≠ 0 then .error ⟨.indexBound, pos, j, true⟩
    else if bits v.toNat 13 7 < idxOffset v + 1 then .error ⟨.indexBound, pos, j, false⟩
    else
      let r := bits v.toNat 6 0 + idxOffset v
      if r < n then .ok (some r) else .error ⟨.regBound, pos, j, false⟩

/-- The values of D, A and B, or the first fault in the order A, B, D. -/
def legacyValues (t : Thread) (d a b : BitVec 8) : Except OpErr (Word × Word × Word) :=
  let val (r : Option Nat) : Word := (r.map t.rd).getD 0
  match legacyResolve t 1 a with
  | .error e => .error e
  | .ok ra => match legacyResolve t 2 b with
    | .error e => .error e
    | .ok rb => match legacyResolve t 0 d with
      | .error e => .error e
      | .ok rd => .ok (val rd, val ra, val rb)

/-- Home lane of a thread; 0 on a swarm core. -/
def Thread.homeLane (t : Thread) : Nat := match t.place with | .wave _ l _ => l | _ => 0

/-- The other threads of the dynamic wave of which the issuing thread is one that raise the trap with it. -/
def legacyMates (s : State) (d a b : BitVec 8) : List Thread :=
  let t := s.th
  if !t.isWave then []
  else s.threads.filter (fun u => (s.core t.core).wave.contains u.uid && u.live && u.pc == t.pc && u.tkey == t.tkey &&
    (match legacyValues u d a b with | .ok _ => true | .error _ => false))

/-- R273. The operands that the word names resolve; then the threads of the dynamic wave park and share one THREAD record. -/
def execLegacyTrap (sub : Nat) (wordVA : Nat) (d a b : BitVec 8) (lit : Word) (s : State) : Out := .next (
  match legacyValues s.th d a b with
  | .error e => operandFault s 2 e
  | .ok _ =>
    let t := s.th
    let mates := legacyMates s d a b
    let all := t :: mates
    let mask := if t.isWave then (all.map (fun u => 2 ^ u.homeLane)).sum else 1
    let low := all.foldl (fun (x : Thread) u => if u.homeLane < x.homeLane then u else x) t
    let v := match legacyValues low d a b with | .ok v => v | .error _ => (0, 0, 0)
    let rec_ := fqBytes 1 Cause.legacy.code t.die t.placeWord.toNat 0
      (leBytes 8 wordVA ++ leBytes 4 t.pc.toNat ++ leBytes 1 sub ++ leBytes 1 low.homeLane ++ leBytes 2 0 ++ leBytes 8 mask ++
        leBytes 4 v.1.toNat ++ leBytes 4 v.2.1.toNat ++ leBytes 4 v.2.2.toNat ++ leBytes 4 lit.toNat)
    let seq := fqNextSeq s t.part true
    let s := fqPush s t.part rec_ ⟨rec_, 0, t.uid, t.stream, t.slot⟩
    let park (u : Thread) : Thread := { u with run := .faulted { faultOf .legacy 2 with seq := seq }, parkedAt := s.clk }
    let s := s.put (park s.th)
    let s : State := { s with threads := s.threads.map (fun u => if mates.any (fun m => m.uid == u.uid) then park u else u) }
    s.updCore t.core (fun k => { k with wave := k.wave.filter (fun u => !mates.any (fun m => m.uid == u)) }))

end Sys2Proof.Machine
end

