-- ==== Sys2Proof/Machine/Matrix.lean ====
section
/-! DEFINITION. Matrix instructions: teams, the operand latch, the matrix array and its arithmetic (R235, R259 to R262, R385 to
R393, R444). -/

namespace Sys2Proof.Machine
open Sys2Proof

/-! Forms (R385, R388). -/

/-- A class of a form by minor: 0 bfloat16, 1 binary16, 2 E4M3, 3 E5M2, 4 signed INT8, 5 E2M1. -/
def classOfForm (minor : Nat) : Nat :=
  match minor with
  | 2 => 0 | 3 => 1 | 4 => 2 | 5 => 2 | 6 => 3 | 7 => 3 | 8 => 4 | 9 => 0 | 10 => 5 | _ => 4

/-- A registers of a form. -/
def aRegs (minor : Nat) : Nat := if minor = 2 ∨ minor = 3 ∨ minor = 9 then 4 else 2

/-- Bytes of B. -/
def bExtent (minor : Nat) : Nat :=
  match minor with
  | 2 => 4096 | 3 => 4096 | 9 => 1184 | 10 => 1088 | 12 => 1024 | _ => 2048

/-- The form multiplies floating-point elements. -/
def floatForm (minor : Nat) : Bool := decide (2 ≤ minor) && decide (minor ≤ 7) || minor == 9 || minor == 10

/-- A signed number of n bits. -/
def signedOf (n v : Nat) : Int := if 2 ^ (n - 1) ≤ v then (v : Int) - 2 ^ n else v

/-- Word w of the A operand of team thread t; the elements of an exited or absent thread are zero. -/
def aWord (a : List (List Word)) (t w : Nat) : Nat := ((((a[t]?).getD [])[w]?).getD 0).toNat

/-- The bits of element i of team thread t's A row (R387). -/
def aBits (minor : Nat) (a : List (List Word)) (t i : Nat) : Nat :=
  match classOfForm minor with
  | 0 => bits (aWord a t (i / 2)) (16 * (i % 2) + 15) (16 * (i % 2))
  | 1 => bits (aWord a t (i / 2)) (16 * (i % 2) + 15) (16 * (i % 2))
  | 5 => bits (aWord a t 0) (4 * i + 3) (4 * i)
  | _ => bits (aWord a t (i / 4)) (8 * (i % 4) + 7) (8 * (i % 4))

/-- The team thread that holds A(m, k), and its element. -/
def aPlace (m k : Nat) : Nat × Nat := (m + 64 * (k / 8), k % 8)

/-- A value times 2 to a power; a NaN scale makes a canonical NaN (R239). -/
def scaled (v : FVal) (e8 : Nat) : FVal :=
  if e8 = 255 then .nan false false (2 ^ 51)
  else match v with
    | .fin s m e => .fin s m (e + e8 - 127)
    | v => v

/-- Byte i of B. -/
def bByte (b : List Byte) (i : Nat) : Nat := ((b[i]?).getD 0).toNat

/-- Nibble n of a row of 32 bytes at k (R241). -/
def bNibble (b : List Byte) (k n : Nat) : Nat :=
  let v := bByte b (32 * k + n / 2)
  if n % 2 = 0 then v % 16 else v / 16

/-- The value of A(m, k) in a float form. -/
def aVal (minor : Nat) (c : BitVec 16) (a : List (List Word)) (m k : Nat) : FVal :=
  let (t, i) := aPlace m k
  let v := aBits minor a t i
  match classOfForm minor with
  | 0 => unpack bf16 v
  | 1 => inVal c f16 v
  | 2 => unpack e4m3 v
  | 3 => unpack e5m2 v
  | _ =>
    -- an exited or absent thread of t < 64 leaves its row the scale 127
    let sa := if (a[m]?).getD [] = [] then 127 else aWord a m 1 % 256
    scaled (unpack e2m1 v) sa

/-- The weight of mma.q4: RNE((q - z) × s) in bfloat16 (R260). -/
def q4Weight (q z s : Nat) : FVal :=
  let d : Int := (q : Int) - z
  let n : FVal := .fin (decide (d < 0)) d.natAbs 0
  let sv := unpack bf16 s
  unpack bf16 (outF 0 bf16 false 0 [sv] (mulX false n sv)).1

/-- The value of B(k, n) in a float form. -/
def bVal (minor : Nat) (c : BitVec 16) (b : List Byte) (k n : Nat) : FVal :=
  match minor with
  | 2 => unpack bf16 (sliceNat b (128 * k + 2 * n) 2)
  | 3 => inVal c f16 (sliceNat b (128 * k + 2 * n) 2)
  | 4 => unpack e4m3 (bByte b (64 * k + n))
  | 5 => unpack e5m2 (bByte b (64 * k + n))
  | 6 => unpack e4m3 (bByte b (64 * k + n))
  | 7 => unpack e5m2 (bByte b (64 * k + n))
  | 9 => q4Weight (bNibble b k n) (bNibble (b.drop 1152) 0 n) (sliceNat b (1024 + 2 * n) 2)
  | _ => scaled (unpack e2m1 (bNibble b k n)) (bByte b (1024 + n))

/-- A(m, k) in an integer form. -/
def aInt (minor : Nat) (a : List (List Word)) (m k : Nat) : Int :=
  let (t, i) := aPlace m k
  signedOf 8 (aBits minor a t i)

/-- B(k, n) in an integer form. -/
def bInt (minor : Nat) (b : List Byte) (k n : Nat) : Int :=
  if minor = 12 then signedOf 4 (bNibble b k n) else signedOf 8 (bByte b (64 * k + n))

/-- The exact sum of a group of products; a NaN product or opposite infinities make a NaN. -/
def sumExact (l : List Exact) : Exact :=
  let nan := l.any (fun e => match e with | .nan _ => true | _ => false)
  if nan then .nan false else sumAll (l.map Exact.toVal)

/-- One group of R259: t is the rounded sum of 8 products, and D takes D + t. -/
def mmaGroup (minor : Nat) (c : BitVec 16) (a : List (List Word)) (b : List Byte) (m n j : Nat) (d : Nat) : Nat :=
  let ks := (List.range 8).map (fun i => 8 * j + i)
  let av := ks.map (fun k => aVal minor c a m k)
  let bv := ks.map (fun k => bVal minor c b k n)
  let p := (av.zip bv).map (fun x => mulX (compatBit c 3) x.1 x.2)
  let ops := (av.zip bv).flatMap (fun x => [x.1, x.2])
  let t := (outF c f32 false 0 ops (sumExact p)).1
  let dv := unpack f32 d
  let tv := unpack f32 t
  (outF c f32 false 0 [dv, tv] (addX 0 dv tv)).1

/-- D(m, n) after the instruction (R390): bits 2, 3 and 9 of the compatibility word act (R259). -/
def mmaElement (minor : Nat) (c : BitVec 16) (a : List (List Word)) (b : List Byte) (m n : Nat) (d : Word) : Word :=
  if floatForm minor then
    let c' := c &&& 0x20C
    BitVec.ofNat 32 ((List.range 4).foldl (fun d j => mmaGroup minor c' a b m n j d) d.toNat)
  else
    BitVec.ofInt 32 ((d.toNat : Int) + ((List.range 32).map (fun k => aInt minor a m k * bInt minor b k n)).sum)

/-! Term-serial time (R262, R392). -/

/-- Booth digit j of an INT8 activation (R262). -/
def boothDigit (v j : Nat) : Int :=
  let bit (i : Nat) : Int := if v.testBit i then 1 else 0
  bit (2 * j) - 2 * bit (2 * j + 1) + (if j = 0 then 0 else bit (2 * j - 1))

/-- Non-zero Booth digits of the 256 activations of slice s. -/
def boothCount (a : List (List Word)) (s : Nat) : Nat :=
  ((List.range 256).map (fun x =>
    let (t, i) := aPlace (8 * s + x / 32) (x % 32)
    ((List.range 4).filter (fun j => boothDigit (aBits 8 a t i) j != 0)).length)).sum

/-- T of a form in clk. -/
def arrayTime (minor : Nat) (a : List (List Word)) : Nat :=
  match minor with
  | 2 => 32 | 3 => 32 | 9 => 32 | 10 => 8 | 11 => (((List.range 8).map (fun s => max (boothCount a s) 256)).sum + 511) / 512
  | 12 => (((List.range 8).map (fun s => max (boothCount a s) 256)).sum + 511) / 512
  | _ => 16

/-! Teams (R386, R389). -/

/-- A member of team j of a role of a group. -/
def teamMember (g r j : Nat) (t : Thread) : Bool :=
  t.live && t.grp == g && t.role == r && t.tid / 256 == j && !t.entered && t.spawner.isNone && t.isWave

/-- A thread waits at a matrix instruction. -/
def waitsTeam (t : Thread) : Bool := match t.run with | .waiting (.team _ _ _ _) => true | _ => false

/-- State of a team. -/
def Group.team (g : Group) (k : Nat) : Team := Table.at g.teams k ⟨false, none, []⟩

/-- A team of a group changed. -/
def updTeam (s : State) (g k : Nat) (f : Team → Team) : State :=
  s.updGroup g (fun x => { x with teams := Table.put x.teams k (f (x.team k)) })

/-- Every member takes a cause at its instruction. -/
def trapTeam (s : State) (l : List Thread) (c : Cause) : State :=
  l.foldl (fun s t => asThread s t.uid (fun s => raise (s.put { s.th with run := .ready }) (faultOf c 2))) s

/-- Every member's instruction completes, ready at a clk. -/
def releaseTeam (s : State) (l : List Thread) (at_ : Nat) : State :=
  s.mapThreads (fun t => if l.any (fun u => u.uid == t.uid) && t.live then t.complete [] at_ else t)

/-- The clk at which the team's last thread arrived. -/
def lastArrived (l : List Thread) : Nat := (l.map (·.parkedAt)).foldl max 0

/-- A first register of an earlier uncompleted instruction of the team in a thread that overlaps D in part (R390). -/
def partial_ (jobs : List MmaJob) (team : Nat × Nat) (uid d : Nat) : List (Nat × Nat) :=
  (jobs.filter (fun j => j.team == team)).flatMap (fun j =>
    (j.who.filter (fun w => w.1 == uid && w.2.2 != d && decide (w.2.2 < d + 16) && decide (d < w.2.2 + 16))).flatMap (fun w =>
      [(uid, w.2.2), (uid, d)]))

/-- The team's mma is issued into the array (R389 to R392). -/
def issueMma (s : State) (minor : Nat) (keep : Bool) (l : List Thread) : State :=
  match l with
  | [] => s
  | lead :: _ =>
    match lead.run with
    | .waiting (.team _ _ _ baddr) =>
      let g := lead.grp
      let k := lead.role * 64 + lead.tid / 256
      let c := lead.core
      let tm := ((s.group? g).map (fun x => x.team k)).getD ⟨false, none, []⟩
      let cls := classOfForm minor
      let o := baddr.toNat % 2 ^ 24
      if !tm.armed then trapTeam s l .illegal
      else if (match tm.latch with | some (x, _) => x != cls | none => false) then trapTeam s l .illegal
      else if baddr.toNat / 2 ^ 24 ≠ 0xF100000000 ∨ 0x40000 < o + bExtent minor then
        trapTeam s [lead] .window
      else if o % 256 ≠ 0 then trapTeam s [lead] .alignment
      else
        let regsOf (t : Thread) : Nat × Nat := match t.run with | .waiting (.team _ d a _) => (d, a) | _ => (0, 0)
        let a : List (List Word) := match tm.latch with
          | some (_, a) => a
          | none => (List.range 256).map (fun i =>
              match l.find? (fun t => t.tid % 256 == i) with
              | some t => (List.range (aRegs minor)).map (fun w => t.rd ((regsOf t).2 + w))
              | none => [])
        let key := localKey c o
        let n := bExtent minor
        let b := readList s.mem key n
        let core := s.core c
        let time := arrayTime minor a
        let start := max (s.clk + 1) core.mmaFree
        let who := l.map (fun t => (t.uid, t.tid % 256, (regsOf t).1))
        let job : MmaJob := ⟨(g, k), minor, lead.compat, who, a, b, l.flatMap (fun t => partial_ core.mmaQ (g, k) t.uid (regsOf t).1),
          start + time + 8⟩
        let latched := tm.latch.isSome
        let s := coreEvent s c 9 time
        let s := if minor = 11 ∨ minor = 12 then coreEvent s c 10 (((List.range 8).map (boothCount a)).sum) else s
        let s := s.updCore c (fun x => { x with mmaQ := x.mmaQ ++ [job], mmaFree := start + time })
        let s := updTeam s g k (fun t => { armed := false, latch := if keep then some (cls, a) else none, held := t.held ++ [(key, n)] })
        let s : State := { s with regions := s.regions ++ [⟨key, n, false, (g, k)⟩] }
        let s := s.mapThreads (fun t =>
          if l.any (fun u => u.uid == t.uid) && t.live then
            let r := regsOf t
            let t' := t.complete [] (s.clk + 1)
            { t' with busy := t'.busy ++ (List.range 16).map (fun i => r.1 + i) ++
                        (if latched then [] else (List.range (aRegs minor)).map (fun i => r.2 + i)) }
          else t)
        s.at_ job.doneAt (.mmaComplete c)
    | _ => s

/-- The team's mwait completes: its instructions are all complete, and its operands are free again. -/
def endMwait (s : State) (l : List Thread) (g k : Nat) : State :=
  let held := ((s.group? g).map (fun x => (x.team k).held)).getD []
  let s := updTeam s g k (fun t => { t with held := [] })
  let s : State := { s with regions := held.foldl (fun r h => r.erase ⟨h.1, h.2, false, (g, k)⟩) s.regions }
  let s := s.mapThreads (fun t => if l.any (fun u => u.uid == t.uid) then { t with busy := [] } else t)
  releaseTeam s l (max s.clk (lastArrived l + 4))

/-- R167, R386. When every live thread of a team waits at a matrix instruction: at different PCs each takes the illegal-instruction
trap; at one, the team's instruction is issued, or stays waiting for the array. -/
def teamCheck (s : State) (g r j : Nat) : State :=
  let l := byTid (s.selThreads (teamMember g r j))
  if l.isEmpty || !l.all waitsTeam then s
  else
    let pc := lowestPc l
    if l.any (fun t => t.pc.toNat != pc) then trapTeam s l .illegal
    else
      match l with
      | [] => s
      | lead :: _ =>
        let k := r * 64 + j
        match lead.run with
        | .waiting (.team .mrdy _ _ _) => releaseTeam (updTeam s g k (fun t => { t with armed := true })) l (s.clk + 4)
        | .waiting (.team .mwait _ _ _) =>
          if (s.core lead.core).mmaQ.any (fun x => x.team == (g, k)) then s else endMwait s l g k
        | .waiting (.team (.mma minor keep) _ _ _) =>
          if 4 ≤ (s.core lead.core).mmaQ.length then s else issueMma s minor keep l
        | _ => s

/-- A thread arrives at a matrix instruction. -/
def arriveTeam (s : State) (op : TeamOp) (d a : Nat) (b : DWord) (adv : List Nat) : State :=
  let t := s.th
  teamCheck (s.put (t.await s.clk (.team op d a b) 0 adv 2)) t.grp t.role (t.tid / 256)

/-- R389. Every access of the team performed first; the team is armed. -/
def execMrdy (s : State) : Out := .next (
  onEngine true s 2 <|
    if s.th.entered then raise s (faultOf .illegal 2)
    else if s.undone s.th.uid then s.put (s.th.await s.clk .drain 0 [] 2)
    else arriveTeam s .mrdy 0 0 0 [])

/-- R393. Completes when every mma of the team has. -/
def execMwait (s : State) : Out := .next (
  onEngine true s 2 <|
    if s.th.entered then raise s (faultOf .illegal 2) else arriveTeam s .mwait 0 0 0 [])

/-- mma: A and B resolve in positions 1 and 2, D in position 0. -/
def mma (minor : Nat) (d a b : Code) (k : BitVec 1) (s : State) : State :=
  onEngine true s 2 <|
    if s.th.entered then raise s (faultOf .illegal 2)
    else
      ops3 s 2 [] ⟨1, a, aRegs minor, aRegs minor⟩ (addrPair 2 b) ⟨0, d, 16, 4⟩ fun na nb nd =>
        arriveTeam s (.mma minor (k == 1)) nd na (s.th.rd2 nb) (usedIdx s.th [a, b, d] [])

/-- R385, R390. Form 2. -/
def execMmaBf16 (d a b : Code) (k : BitVec 1) (s : State) : Out := .next (mma 2 d a b k s)

/-- R385, R390. Form 3. -/
def execMmaF16 (d a b : Code) (k : BitVec 1) (s : State) : Out := .next (mma 3 d a b k s)

/-- R385, R390. Form 4. -/
def execMmaF8E4m3E4m3 (d a b : Code) (k : BitVec 1) (s : State) : Out := .next (mma 4 d a b k s)

/-- R385, R390. Form 5. -/
def execMmaF8E4m3E5m2 (d a b : Code) (k : BitVec 1) (s : State) : Out := .next (mma 5 d a b k s)

/-- R385, R390. Form 6. -/
def execMmaF8E5m2E4m3 (d a b : Code) (k : BitVec 1) (s : State) : Out := .next (mma 6 d a b k s)

/-- R385, R390. Form 7. -/
def execMmaF8E5m2E5m2 (d a b : Code) (k : BitVec 1) (s : State) : Out := .next (mma 7 d a b k s)

/-- R385, R390. Form 8. -/
def execMmaF8S8 (d a b : Code) (k : BitVec 1) (s : State) : Out := .next (mma 8 d a b k s)

/-- R385, R390. Form 9. -/
def execMmaQ4 (d a b : Code) (k : BitVec 1) (s : State) : Out := .next (mma 9 d a b k s)

/-- R385, R390. Form 10. -/
def execMmaMx4 (d a b : Code) (k : BitVec 1) (s : State) : Out := .next (mma 10 d a b k s)

/-- R385, R390. Form 11. -/
def execMmaTs8W8 (d a b : Code) (k : BitVec 1) (s : State) : Out := .next (mma 11 d a b k s)

/-- R385, R390. Form 12. -/
def execMmaTs8W4 (d a b : Code) (k : BitVec 1) (s : State) : Out := .next (mma 12 d a b k s)

/-- R390, R392. The oldest instruction of an engine's array completes: D is written in the registers of its live threads; a team
that waits for the array or for its completion goes on. -/
def execMmaComplete (core : Nat) (s : State) : Out := .next (
  match (s.core core).mmaQ with
  | [] => s
  | j :: r =>
    if s.clk < j.doneAt then s
    else
      let s := s.updCore core (fun x => { x with mmaQ := r })
      let s := s.mapThreads (fun t =>
        match j.who.find? (fun w => w.1 == t.uid) with
        | some (_, i, d) =>
          if t.live then
            { t with g := (List.range 16).foldl (fun g x =>
                g.setIfInBounds (d + x) (mmaElement j.minor j.compat j.a j.b (i % 64) (16 * (i / 64) + x) (t.g[d + x]?.getD 0))) t.g }
          else t
        | none => t)
      let s : State := if j.free.isEmpty then s else
        { s.mapThreads (fun t =>
            (j.free.filter (fun f => f.1 == t.uid)).foldl (fun t f =>
              { t with g := (List.range 16).foldl (fun g x => g.setIfInBounds (f.2 + x) (Config.freeWord (s.free + f.2 + x))) t.g }) t)
          with free := s.free + 256 }
      let teams := (s.selThreads (fun t => t.core == core && waitsTeam t)).map (fun t => (t.grp, t.role, t.tid / 256))
      teams.dedup.foldl (fun s t => teamCheck s t.1 t.2.1 t.2.2) s)

end Sys2Proof.Machine
end

