-- ==== Sys2Proof/Machine/Texture.lean ====
section
/-! DEFINITION. Colour formats and their conversions, sampler descriptors, texture sampling, fetch and derivatives (R133, R134,
R137 to R139, R394 to R399). -/

namespace Sys2Proof.Machine
open Sys2Proof

/-! Exact values. -/

/-- A non-zero quotient of naturals to far beyond binary32 precision, an inexact one with a further odd bit. -/
def ratioExact (s : Bool) (num den : Nat) : Exact :=
  if num = 0 then .fin s 0 0
  else
    let k := 100 + den.size
    let q := num * 2 ^ k / den
    .fin s (2 * q + (if num * 2 ^ k % den = 0 then 0 else 1)) (-(k : Int) - 1)

/-- RNE(x, binary32) of a rational; zero is +0. -/
def rneRat (x : Rat) : Word :=
  BitVec.ofNat 32 (outF 0 f32 false 0 [] (ratioExact (decide (x.num < 0)) x.num.natAbs x.den)).1

/-- m × 2^e as a rational. -/
def dyRat (s : Bool) (m : Nat) (e : Int) : Rat :=
  let v : Rat := if 0 ≤ e then ((m * 2 ^ e.toNat : Nat) : Rat) else mkRat m (2 ^ (-e).toNat)
  if s then -v else v

/-- The value of a finite binary32; none for a NaN or an infinity. -/
def ratOf (w : Word) : Option Rat :=
  match unpack f32 w.toNat with
  | .fin s m e => some (dyRat s m e)
  | _ => none

/-- Floor of a rational. -/
def floorRat (x : Rat) : Int := x.num / (x.den : Int)

/-- RNE of a non-negative rational to an integer. -/
def rneInt (x : Rat) : Nat :=
  let n := x.num.toNat
  let q := n / x.den
  let r := 2 * (n % x.den)
  if x.den < r ∨ (r = x.den ∧ q % 2 = 1) then q + 1 else q

/-! Colour conversions (R134). -/

/-- The largest v below 2^n bits with v^k ≤ x. -/
def rootBelow (k x : Nat) : Nat → Nat → Nat
  | 0, v => v
  | n + 1, v => rootBelow k x n (if (v + 2 ^ n) ^ k ≤ x then v + 2 ^ n else v)

/-- UNORM to float. -/
def unormIn (n u : Nat) : Word := rneRat (mkRat u (2 ^ n - 1))

/-- The linear value of an 8-bit sRGB value. -/
def srgbIn (v : Nat) : Word :=
  -- v ÷ 255 ≤ 0.04045 for v ≤ 10
  if v ≤ 10 then rneRat (mkRat (v * 100) (255 * 1292))
  else
    let num := 200 * v + 2805
    let den := 53805
    let x := num ^ 12 * 2 ^ 400 / den ^ 12
    let r := rootBelow 5 x 81 0
    BitVec.ofNat 32 (outF 0 f32 false 0 [] (.fin false (2 * r + 1) (-81))).1

/-- A binary32 clamped to [0, 1] for a UNORM store; a NaN stores 0. -/
def clamp01 (c : Word) : Rat :=
  match unpack f32 c.toNat with
  | .nan _ _ _ => 0
  | .inf s => if s then 0 else 1
  | .fin s m e => let v := dyRat s m e; if v < 0 then 0 else if 1 < v then 1 else v

/-- Float to UNORM. -/
def unormOut (n : Nat) (c : Word) : Nat := rneInt (clamp01 c * ((2 ^ n - 1 : Nat) : Rat))

/-- 255 × S of a linear value is above (or at) a bound k + 1/2. -/
def srgbAbove (v : Rat) (k : Nat) : Bool :=
  let b : Rat := mkRat (1000 * k + 500 + 14025) 269025
  decide (b ^ 12 ≤ v ^ 5)

/-- Linear to sRGB. -/
def srgbOut (c : Word) : Nat :=
  let v := clamp01 c
  if v ≤ mkRat 31308 10000000 then rneInt (v * mkRat (255 * 1292) 100)
  else ((List.range 255).filter (fun k => srgbAbove v k)).length

/-- binary16 to binary32; a NaN is canonical. -/
def halfIn (h : Nat) : Word :=
  let v := unpack f16 h
  match v with
  | .nan _ _ _ => BitVec.ofNat 32 (canonNan f32)
  | .inf s => BitVec.ofNat 32 (infBits f32 s)
  | .fin s m e => BitVec.ofNat 32 (outF 0 f32 false 0 [] (.fin s m e)).1

/-- binary32 to binary16, RNE with overflow to infinity. -/
def halfOut (w : Word) : Nat :=
  let v := unpack f32 w.toNat
  match v with
  | .nan _ _ _ => canonNan f16
  | .inf s => infBits f16 s
  | .fin s m e => (outF 0 f16 false 0 [] (.fin s m e)).1

/-- Bytes of a sample of a format (R133). -/
def formatBytes (f : Nat) : Nat :=
  match f with
  | 5 => 8 | 6 => 16 | 17 => 8 | _ => 4

/-- A texel or colour sample read: R, G, B, A (R134). -/
def colourIn (f : Nat) (v : Nat) : List Word :=
  let byte (i : Nat) : Nat := bits v (8 * i + 7) (8 * i)
  match f with
  | 1 => [unormIn 8 (byte 0), unormIn 8 (byte 1), unormIn 8 (byte 2), unormIn 8 (byte 3)]
  | 2 => [srgbIn (byte 0), srgbIn (byte 1), srgbIn (byte 2), unormIn 8 (byte 3)]
  | 3 => [unormIn 8 (byte 2), unormIn 8 (byte 1), unormIn 8 (byte 0), unormIn 8 (byte 3)]
  | 4 => [unormIn 10 (bits v 9 0), unormIn 10 (bits v 19 10), unormIn 10 (bits v 29 20), unormIn 2 (bits v 31 30)]
  | 5 => [halfIn (bits v 15 0), halfIn (bits v 31 16), halfIn (bits v 47 32), halfIn (bits v 63 48)]
  | _ => [BitVec.ofNat 32 (bits v 31 0), BitVec.ofNat 32 (bits v 63 32), BitVec.ofNat 32 (bits v 95 64), BitVec.ofNat 32 (bits v 127 96)]

/-! Descriptors (R137). -/

/-- A sampler descriptor keeps its layout and names only assigned values. -/
def samplerOk (v : Nat) : Bool :=
  bits v 255 248 == 0 && decide (bits v 223 220 ≤ 4) && bits v 212 208 == 0 && decide (bits v 207 204 ≤ 14) && bits v 203 200 == 0 &&
    decide (1 ≤ bits v 199 192) && decide (bits v 199 192 ≤ 6) && decide (bits v 191 176 ≤ 16383) &&
    decide (bits v 175 160 ≤ 16383) && bits v 159 64 == 0 && bits v 7 0 == 0 && bits v 63 55 == 0

/-- W_l. -/
def levelW (v l : Nat) : Nat := max 1 ((bits v 175 160 + 1) / 2 ^ l)

/-- H_l. -/
def levelH (v l : Nat) : Nat := max 1 ((bits v 191 176 + 1) / 2 ^ l)

/-- Bytes of a texel. -/
def texelBytes (v : Nat) : Nat := formatBytes (bits v 199 192)

/-- Address of level l: each starts at the next 256-byte boundary after the one before. -/
def levelBase (v : Nat) : Nat → Nat
  | 0 => bits v 63 0
  | l + 1 => (levelBase v l + levelW v l * levelH v l * texelBytes v + 255) / 256 * 256

/-- A relaxed read of a wave thread (R215): its value and its latency; or the cause, or what it waits for: a walk, or data from outside the
package or from a home in reset. -/
def texRead (s : State) (a n : Nat) : State × Except MStop (Nat × Nat) :=
  let t := s.th
  match checkAddr s (agentOf t 0) (dw a) n needR false with
  | .bad c => (s, .error (.cause c a 1))
  | .miss v => (s, .error (if s.badWalks.contains (t.uid, v) then .cause .translation a 1 else .walk v))
  | .ok l =>
    let s := useTlb s (dw a)
    let lat := latency t.core l.key + hbmExtra s l.key
    let cl := clusterOf t.core
    if usesL1 l && l1Holds s cl l.key n then
      let (v, s) := l1Read s cl t.part l.key n l.pte
      (s, .ok (v.toNat, 40))
    else if isOutside l.key || homeHeld s t.die l.key || (s.unitRead? t.uid 0 l.key n).isSome then
      match unitFetch s t.uid t.die l.key n with
      | (s, .ok v) => (s, .ok (leNat v, 0))
      | (s, .error e) => (s, .error e)
    else if usesL1 l then
      let (v, s) := l1Read s cl t.part l.key n l.pte
      (s, .ok (v.toNat, lat))
    else
      let (v, s) := homeRead (l2Touch s l.key l.pte) l.key n
      (s, .ok (v.toNat, lat))

/-- The descriptor at an address: 32 bytes, aligned, in the global window (R398). -/
def readSampler (s : State) (a : Nat) : State × Except MStop Nat :=
  if a / 2 ^ 55 ≠ 0 then (s, .error (.cause .window a 1))
  else if a % 32 ≠ 0 then (s, .error (.cause .alignment a 1))
  else
    match texRead s a 16 with
    | (s, .error e) => (s, .error e)
    | (s, .ok lo) =>
      match texRead s (a + 16) 16 with
      | (s, .error e) => (s, .error e)
      | (s, .ok hi) =>
        let v := lo.1 + hi.1 * 2 ^ 128
        (s, if samplerOk v then .ok v else .error (.cause .illegal a 1))

/-! Sampling (R138, R139). -/

/-- An index resolved by an address mode: 0 wrap, 1 mirror, 2 clamp, 3 border (none outside). -/
def wrapIndex (mode : Nat) (i : Int) (n : Nat) : Option Nat :=
  match mode with
  | 0 => some (i % n).toNat
  | 1 => let j := (i % (2 * n)).toNat
         some (if j < n then j else 2 * n - 1 - j)
  | 2 => some (if i < 0 then 0 else if (n : Int) ≤ i then n - 1 else i.toNat)
  | _ => if 0 ≤ i ∧ i < n then some i.toNat else none

/-- The weighted sum so far: a sum of finite parts for each of four components, whether a NaN, +∞ or −∞ has come with weight, and
whether one has come with weight zero; and the latency of the first texel read. -/
structure TexAcc where
  /-- Sums of the finite values, four components. -/
  sum : List Rat
  /-- A NaN, +∞, −∞, or a non-finite value of weight zero, per component. -/
  odd : List (Bool × Bool × Bool × Bool)
  /-- Latency of the first texel. -/
  lat : Option Nat
  deriving DecidableEq

/-- Nothing summed. -/
def TexAcc.zero : TexAcc := ⟨[0, 0, 0, 0], List.replicate 4 (false, false, false, false), none⟩

/-- A texel with a weight added. -/
def TexAcc.add (x : TexAcc) (w : Rat) (t : List Word) (lat : Nat) : TexAcc where
  sum := (x.sum.zip t).map (fun p => match ratOf p.2 with | some v => p.1 + w * v | none => p.1)
  odd := (x.odd.zip t).map (fun p =>
    let (n, hi, lo, z) := p.1
    match unpack f32 p.2.toNat with
    | .nan _ _ _ => if w = 0 then (n, hi, lo, true) else (true, hi, lo, z)
    | .inf s => if w = 0 then (n, hi, lo, true) else if s then (n, hi, true, z) else (n, true, lo, z)
    | _ => p.1)
  lat := if x.lat.isSome then x.lat else some lat

/-- A texel of a level, read and added; one that the border mode places outside adds nothing. -/
def addTexel (s : State) (d l : Nat) (i j : Int) (w : Rat) (x : TexAcc) : State × Except MStop TexAcc :=
  match wrapIndex (bits d 217 216) i (levelW d l), wrapIndex (bits d 219 218) j (levelH d l) with
  | some a, some b =>
    let n := texelBytes d
    match texRead s (levelBase d l + (b * levelW d l + a) * n) n with
    | (s, .error e) => (s, .error e)
    | (s, .ok v) => (s, .ok (x.add w (colourIn (bits d 199 192) v.1) v.2))
  | _, _ => (s, .ok x)

/-- The texels of a list added. -/
def addTexels (d l : Nat) : List (Int × Int × Rat) → State → TexAcc → State × Except MStop TexAcc
  | [], s, x => (s, .ok x)
  | (i, j, w) :: r, s, x =>
    match addTexel s d l i j w x with
    | (s, .error e) => (s, .error e)
    | (s, .ok x) => addTexels d l r s x

/-- The texels and weights of a filter at a point of a level (R139). -/
def filterTaps (d l : Nat) (linear : Bool) (u v : Rat) : List (Int × Int × Rat) :=
  if linear then
    let axis (x : Rat) (n : Nat) : Int × Rat :=
      let y := x * (n : Rat) - 1 / 2
      let i := floorRat y
      (i, (floorRat ((y - (i : Rat)) * 256) : Rat) / 256)
    let (i, f) := axis u (levelW d l)
    let (j, g) := axis v (levelH d l)
    [(i, j, (1 - f) * (1 - g)), (i + 1, j, f * (1 - g)), (i, j + 1, (1 - f) * g), (i + 1, j + 1, f * g)]
  else [(floorRat (u * (levelW d l : Rat)), floorRat (v * (levelH d l : Rat)), 1)]

/-- A coordinate: a NaN or an infinity is taken as 0 (R398); and so is a derivative that is one. [DESIGN CHOICE: log 96] -/
def coordOf (w : Word) : Rat := (ratOf w).getD 0

/-- floor(128 × log2 of x) for a positive rational. -/
def log2x128 (x : Rat) : Int :=
  let n := x.num.toNat ^ 128
  let m := x.den ^ 128
  let k : Int := (n.size : Int) - m.size
  -- 2^k ≤ n ÷ m, or 2^(k-1)
  if (if 0 ≤ k then decide (m * 2 ^ k.toNat ≤ n) else decide (m ≤ n * 2 ^ (-k).toNat)) then k else k - 1

/-- λ × 256 clamped to [MINLOD, min(MAXLOD, LEVELS)] (R138); where MINLOD is the greater bound, it is the result. [DESIGN CHOICE: log 96] -/
def clampLod (d : Nat) (x : Int) : Int :=
  let lo : Int := bits d 247 240 * 16
  let hi : Int := min (bits d 239 232 * 16) (bits d 207 204 * 256)
  max lo (min x hi)

/-- BIAS × 256. -/
def biasOf (d : Nat) : Int := signedOf 8 (bits d 231 224) * 16

/-- Level of detail × 256, probes and the probes' axis, from the four derivatives (R138). -/
def lodOf (d : Nat) (ux vx uy vy : Rat) : Int × Nat × Rat × Rat :=
  let w : Rat := (bits d 175 160 + 1 : Nat)
  let h : Rat := (bits d 191 176 + 1 : Nat)
  let px := (w * ux) ^ 2 + (h * vx) ^ 2
  let py := (w * uy) ^ 2 + (h * vy) ^ 2
  let pmax := max px py
  let pmin := min px py
  let cap := 2 ^ bits d 223 220
  let n := if pmax = 0 then 1 else if pmin = 0 then cap
    else min cap (((List.range cap).find? (fun k => decide (pmax ≤ ((k + 1 : Nat) : Rat) ^ 2 * pmin))).map (· + 1) |>.getD cap)
  let lod := if pmax = 0 then (bits d 247 240 * 16 : Int)
    else clampLod d (log2x128 (pmax / ((n * n : Nat) : Rat)) + biasOf d)
  (lod, n, if py ≤ px then (ux, vx) else (uy, vy))

/-- The levels, their weights and the filter for a λ × 256 (R138). -/
def levelsOf (d : Nat) (lod : Int) : List (Nat × Rat) × Bool :=
  let top := bits d 207 204
  if lod ≤ 0 then ([(0, 1)], d.testBit 213)
  else
    let linear := d.testBit 214
    if d.testBit 215 then
      let l := (lod / 256).toNat
      let m : Rat := ((lod % 256 : Int) : Rat) / 256
      ([(min l top, 1 - m), (min (l + 1) top, m)], linear)
    else ([(min ((lod + 128) / 256).toNat top, 1)], linear)

/-- The points of the probes (R139); a coordinate that rounds to an infinity is taken as 0. [DESIGN CHOICE: log 96] -/
def probesOf (u v : Rat) (n : Nat) (du dv : Rat) : List (Rat × Rat) :=
  if n = 1 then [(u, v)]
  else (List.range n).map (fun (k : Nat) =>
    let o : Rat := mkRat (2 * k + 1) (2 * n) - 1 / 2
    (coordOf (rneRat (u + o * du)), coordOf (rneRat (v + o * dv))))

/-- The taps of all probes and levels. -/
def allTaps (d : Nat) (u v : Rat) (lod : Int) (n : Nat) (du dv : Rat) : List (Nat × List (Int × Int × Rat)) :=
  let (ls, linear) := levelsOf d lod
  (probesOf u v n du dv).flatMap (fun p => ls.map (fun l =>
    (l.1, (filterTaps d l.1 linear p.1 p.2).map (fun t => (t.1, t.2.1, t.2.2 * l.2 / (n : Rat))))))

/-- The texels of all levels added. -/
def addLevels (d : Nat) : List (Nat × List (Int × Int × Rat)) → State → TexAcc → State × Except MStop TexAcc
  | [], s, x => (s, .ok x)
  | (l, taps) :: r, s, x =>
    match addTexels d l taps s x with
    | (s, .error e) => (s, .error e)
    | (s, .ok x) => addLevels d r s x

/-- The result of a sampling: RNE of each sum; a NaN or opposite infinities give the canonical NaN; a non-finite texel of weight zero
leaves a free value. [DESIGN CHOICE: log 75] -/
def texResult (s : State) (x : TexAcc) : State × List Word :=
  ({ s with free := s.free + 4 }, ((x.sum.zip x.odd).zipIdx).map (fun p =>
    let (n, hi, lo, z) := p.1.2
    if n || (hi && lo) then BitVec.ofNat 32 (canonNan f32)
    else if z then Config.freeWord (s.free + p.2)
    else if hi then BitVec.ofNat 32 (infBits f32 false)
    else if lo then BitVec.ofNat 32 (infBits f32 true)
    else rneRat p.1.1))

/-- What a sampling reads, summed; or the first stop. -/
def sampleSum (s : State) (addr : Nat) (u v : Rat) (pick : Nat → Int × Nat × Rat × Rat) : State × Except MStop TexAcc :=
  match readSampler s addr with
  | (s, .error e) => (s, .error e)
  | (s, .ok d) =>
    let (lod, n, du, dv) := pick d
    addLevels d (allTaps d u v lod n du dv) s TexAcc.zero

/-- The issuing thread stops at a texture read: it parks at the fault, or waits and then executes again. -/
def texStop (s : State) (e : MStop) : State :=
  let t := s.th
  match e with
  | .cause c a _ => raise (forgetUnit (s.put { t with run := .ready }) t.uid) (if c = .illegal then faultOf c 2 else faultAt c 2 (dw a) 1)
  | e =>
    let s := match e with | .walk _ => clusterEvent s t.core 1 3 1 | _ => s
    askUnit (s.put (t.await s.clk .texels 0 [] 2)) t.uid t.die t.part e

/-- The issuing thread's sampling at a point with derivatives, or with a given λ × 256: it completes, parks at the fault, or waits for what it
reads. -/
def sampleAt (s : State) (nd : Nat) (codes : List Code) (addr : Nat) (u v : Rat) (pick : Nat → Int × Nat × Rat × Rat) : State :=
  match sampleSum s addr u v pick with
  | (s', .error e) => texStop (if e.final then s' else s) e
  | (s, .ok x) =>
    let (s, l) := texResult s x
    finish (forgetUnit s s.th.uid) (s.th.wrs nd l) codes [] 2 (x.lat.getD 0 + 16)

/-- What the issuing thread's sampling has to wait for. -/
def sampleNeeds (s : State) (addr : Nat) (u v : Rat) (pick : Nat → Int × Nat × Rat × Rat) : Option MStop :=
  match (sampleSum s addr u v pick).2 with
  | .error e => if e.final then none else some e
  | .ok _ => none

/-! Quads (R396). -/

/-- A member of quad q of a static wave. -/
def quadMember (g r w q : Nat) (t : Thread) : Bool := waveMember g r w t && t.lane / 4 == q

/-- A thread waits at a quad instruction. -/
def waitsQuad (t : Thread) : Bool := match t.run with | .waiting (.quad _ _ _ _) => true | _ => false

/-- The member of a set at a position 0 to 3 of its quad. -/
def quadAt (set : List Thread) (i : Nat) : Option Thread := set.find? (fun t => t.tid % 4 == i)

/-- The value of register operand A or B of a quad member. -/
def quadVal (s : State) (t : Thread) (pos : Nat) (o : Opnd) (i : Nat) : Word :=
  match resolve t o with
  | .ok n => if i = 0 && o.k == 1 then s.src t pos n else t.rd (n + i)
  | .error _ => 0

/-- A difference as fsub with rounding field 0; +0 without flags when a position is missing (R397). -/
def quadDiff (s : State) (set : List Thread) (i j pos : Nat) (o : Opnd) (k : Nat) : FRes :=
  match quadAt set i, quadAt set j with
  | some a, some b => faddR a.compat (roundMode a.compat 0) true (quadVal s a pos o k) (quadVal s b pos o k)
  | _, _ => (0, 0)

/-- A difference of coordinates in binary32, RNE; 0 when a position is missing (R138, R398), and where it overflows. [DESIGN CHOICE: log 96] -/
def coordDiff (s : State) (set : List Thread) (i : Nat) (o : Opnd) (k : Nat) : Rat :=
  match quadAt set i, quadAt set 0 with
  | some a, some b => coordOf (rneRat (coordOf (quadVal s a 2 o k) - coordOf (quadVal s b 2 o k)))
  | _, _ => 0

/-- A quad instruction of a set. -/
def runQuad (s : State) (op : QuadOp) (d a b : Code) (set : List Thread) : State :=
  match op with
  | .smp =>
    let ob := span 2 b 2
    let ux := coordDiff s set 1 ob 0
    let vx := coordDiff s set 1 ob 1
    let uy := coordDiff s set 2 ob 0
    let vy := coordDiff s set 2 ob 1
    let pts := set.map (fun t => (t.uid, coordOf (quadVal s t 2 ob 0), coordOf (quadVal s t 2 ob 1)))
    let pick (v : Nat) : Int × Nat × Rat × Rat := lodOf v ux vx uy vy
    -- while one of the set waits for what it reads, the set waits
    let needs := set.filterMap (fun t =>
      match resolve t (addrPair 1 a) with
      | .ok na => (sampleNeeds (s.put { t with run := .ready }) (t.rd2 na).toNat (coordOf (quadVal s t 2 ob 0)) (coordOf (quadVal s t 2 ob 1)) pick).map
          (fun e => (t.uid, e))
      | .error _ => none)
    if !needs.isEmpty then needs.foldl (fun s x => asThread s x.1 (fun s => texStop s x.2)) s
    else pts.foldl (fun s p => asThread s p.1 (fun s =>
      ops3 s 2 [] (addrPair 1 a) (span 2 b 2) (quad 0 d) fun na _ nd =>
        sampleAt s nd [a, b, d] (s.th.rd2 na).toNat p.2.1 p.2.2 pick)) s
  | .ddx =>
    let oa := reg 1 a
    let vals := set.map (fun t => (t.uid, quadDiff s set (t.tid % 4 / 2 * 2 + 1) (t.tid % 4 / 2 * 2) 1 oa 0))
    vals.foldl (fun s p => asThread s p.1 (fun s =>
      ops2 s 2 [1] (reg 1 a) (reg 0 d) fun _ nd =>
        finishF s ((clearArms s.th [1]).wr nd (BitVec.ofNat 32 p.2.1)) [a, d] 4 p.2.2)) s
  | .ddy =>
    let oa := reg 1 a
    let vals := set.map (fun t => (t.uid, quadDiff s set (t.tid % 2 + 2) (t.tid % 2) 1 oa 0))
    vals.foldl (fun s p => asThread s p.1 (fun s =>
      ops2 s 2 [1] (reg 1 a) (reg 0 d) fun _ nd =>
        finishF s ((clearArms s.th [1]).wr nd (BitVec.ofNat 32 p.2.1)) [a, d] 4 p.2.2)) s

/-- The sets of a quad's waiting threads execute, lowest PC first. -/
def runQuads : Nat → List Thread → State → State
  | 0, _, s => s
  | n + 1, l, s =>
    match l with
    | [] => s
    | _ =>
      let pc := lowestPc l
      let set := l.filter (fun t => t.pc.toNat == pc)
      let s := match set with
        | t :: _ => (match t.run with | .waiting (.quad op d a b) => runQuad s op d a b set | _ => s)
        | [] => s
      runQuads n (l.filter (fun t => t.pc.toNat != pc)) s

/-- When every live thread of a quad waits at a quad instruction, its sets execute. -/
def quadCheck (s : State) (g r w q : Nat) : State :=
  let l := s.selThreads (quadMember g r w q)
  if l.isEmpty || !l.all waitsQuad then s else runQuads l.length (byTid l) s

/-- A thread waits at a quad instruction, once its operands resolve; one that entered by wenter has no quad. -/
def arriveQuad (s : State) (op : QuadOp) (d a b : Code) : State :=
  let t := s.th
  if t.entered || t.spawner.isSome then raise s (faultOf .illegal 2)
  else quadCheck (s.put (t.await s.clk (.quad op d a b) 0 [] 2)) t.grp t.role (t.tid / 64) (t.lane / 4)

/-- R398. A texture sampled with the derivatives of its quad. -/
def execSmp (d a b : Code) (s : State) : Out := .next (
  onEngine true s 2 <|
    ops3 s 2 [] (addrPair 1 a) (span 2 b 2) (quad 0 d) fun _ _ _ => arriveQuad s .smp d a b)

/-- R397. The difference along x. -/
def execDdx (d a : Code) (s : State) : Out := .next (
  onEngine true s 2 <| ops2 s 2 [1] (reg 1 a) (reg 0 d) fun _ _ => arriveQuad s .ddx d a 0)

/-- R397. The difference along y. -/
def execDdy (d a : Code) (s : State) : Out := .next (
  onEngine true s 2 <| ops2 s 2 [1] (reg 1 a) (reg 0 d) fun _ _ => arriveQuad s .ddy d a 0)

/-- λ of smpl × 256: G(B+2) + BIAS; a NaN takes MINLOD. -/
def givenLod (d : Nat) (w : Word) : Int :=
  match unpack f32 w.toNat with
  | .nan _ _ _ => bits d 247 240 * 16
  | .inf s => clampLod d (if s then -(2 ^ 20) else 2 ^ 20)
  | .fin s m e => clampLod d (floorRat (dyRat s m e * 256) + biasOf d)

/-- R398. Level given by λ, one probe. -/
def execSmpl (d a b : Code) (s : State) : Out := .next (
  onEngine true s 2 <|
    ops3 s 2 [] (addrPair 1 a) (span 2 b 3) (quad 0 d) fun na nb nd =>
      let t := s.th
      sampleAt s nd [a, b, d] (t.rd2 na).toNat (coordOf (t.rd nb)) (coordOf (t.rd (nb + 1)))
        (fun v => (givenLod v (t.rd (nb + 2)), 1, 0, 0)))

/-- R398. Derivatives given: du/dx, dv/dx, du/dy, dv/dy. -/
def execSmpg (d a b : Code) (s : State) : Out := .next (
  onEngine true s 2 <|
    ops3 s 2 [] (addrPair 1 a) (span 2 b 6) (quad 0 d) fun na nb nd =>
      let t := s.th
      let c (i : Nat) : Rat := coordOf (t.rd (nb + i))
      sampleAt s nd [a, b, d] (t.rd2 na).toNat (c 0) (c 1) (fun v => lodOf v (c 2) (c 3) (c 4) (c 5)))

/-- R399. One texel without filtering; zero outside the level or beyond the levels. -/
def execFetch (d a b : Code) (s : State) : Out := .next (
  onEngine true s 2 <|
    ops3 s 2 [] (addrPair 1 a) (span 2 b 3) (quad 0 d) fun na nb nd =>
      let t := s.th
      match readSampler s (t.rd2 na).toNat with
      | (s', .error e) => texStop (if e.final then s' else s) e
      | (s, .ok v) =>
        let i := (t.rd nb).toInt
        let j := (t.rd (nb + 1)).toInt
        let l := (t.rd (nb + 2)).toNat
        if bits v 207 204 < l ∨ i < 0 ∨ j < 0 ∨ (levelW v l : Int) ≤ i ∨ (levelH v l : Int) ≤ j then
          finish (forgetUnit s t.uid) (s.th.wrs nd [0, 0, 0, 0]) [a, b, d] [] 2 4
        else
          let n := texelBytes v
          match texRead s (levelBase v l + (j.toNat * levelW v l + i.toNat) * n) n with
          | (s', .error e) => texStop (if e.final then s' else s) e
          | (s, .ok w) => finish (forgetUnit s t.uid) (s.th.wrs nd (colourIn (bits v 199 192) w.1)) [a, b, d] [] 2 (w.2 + 4))

end Sys2Proof.Machine
end

