-- ==== Sys2Proof/Machine/Ending.lean ====
section
/-! DEFINITION. The end of a thread, its group, gang and record's work, and the kill of a faulted thread (R87, R94, R108, R211, R315). -/

namespace Sys2Proof.Machine
open Sys2Proof

/-! What a thread's end frees (R87, R94, R315). -/

/-- Something still writes the registers of an ended thread: an access with a reply to come, or a matrix instruction. -/
def State.stillWrites (s : State) (t : Thread) : Bool :=
  s.flights.any (fun f => f.owner == t.uid && f.nreg != 0) ||
    (s.core t.core).mmaQ.any (fun j => j.who.any (fun w => w.1 == t.uid))

/-- A place that has become free is offered: to a landing area, or to threads that wait to cross. -/
def offerPlace (s : State) (p : Place) : State :=
  match p with
  | .swarm c _ =>
    let s := if (s.core c).landing.isEmpty then s else s.later (.landingSlotTake c)
    pokeEngine s (c / 64)
  | .wave c _ _ => pokeEngine s (c / 64)
  | _ => s

/-- An ended thread of which no register is written any more gives up its place, and is forgotten once its accesses are performed. The
threads that a partial team never had keep
theirs until the group ends (R89). -/
def reap (s : State) (uid : Nat) : State :=
  match (s.th :: s.threads).find? (fun t => t.uid == uid && !t.live) with
  | none => s
  | some t =>
    if s.stillWrites t then s
    else
      let s := s.updThread uid (fun t => { t with place := .nowhere })
      let s : State := { s with threads := s.threads.filter (fun x => x.live || x.place != .nowhere || s.outstanding x.uid) }
      offerPlace s t.place

/-- A group ends when no thread of it lives, spawned contexts included; a pixel group must also be able to take no further quads
(R131). Its entry, sets, basin and backing are free, and so are the places of threads it never had. -/
def groupCheck (s : State) (g : Nat) : State :=
  match s.group? g with
  | none => s
  | some x =>
    let open_ := match x.pixel with | some (started, _) => !started.all id | none => false
    if open_ || s.anyThread (fun t => t.grp == g) then s
    else
      { s with groups := s.groups.filter (fun y => y.id != g),
               threads := s.threads.filter (fun t => t.grp != g || t.live || s.stillWrites t) }

/-- A record that may have come to its end is looked at again (R94). -/
def recheck (s : State) (p st sl : Nat) : State :=
  match s.rec? p st sl with
  | some r => if r.state == .ending then s.later (.recordComplete p st sl) else s
  | none => s

/-- A gang ends when every thread of it has exited or been killed; the last gang of a record puts it into ENDING (R93, R94). -/
def gangCheck (s : State) (id : Nat) : State :=
  match s.gang? id with
  | none => s
  | some x =>
    let open_ := s.groups.any (fun g => g.gang == id && g.pixel.isSome)
    if open_ || s.anyThread (fun t => t.gang == id && t.spawner.isNone) then s
    else
      let s : State := { s with gangs := s.gangs.filter (fun y => y.id != id), cores := s.cores.map (fun c =>
        if c.2.wires.any (fun w => w.gang == id) then (c.1, { c.2 with wires := [], rill := Vector.replicate 4 [] }) else c) }
      let s := if x.pixel then s
        else s.updStream x.part x.stream (fun q => { q with recs := q.recs.map (fun r =>
          if r.slot == x.slot then
            let n := r.ended + 1
            { r with ended := n, state := if n = r.gangs && r.state == .running then .ending else r.state }
          else r) })
      let s := match (s.rec? x.part x.stream x.slot).bind (·.ord) with
        | some _ => s.later (.primitiveSetup x.die)
        | none => s
      recheck s x.part x.stream x.slot

/-- THE END OF A THREAD (R315, R403): nothing further of it issues; what it has outstanding is performed. It counts as arrived at
its barriers, and is an inactive lane, a missing quad member and an absent member of its team. -/
def endThread (s : State) (uid : Nat) : State :=
  match s.thread? uid with
  | none => s
  | some t =>
    let s := dropPrivate s t false
    let s := match t.run with
      | .waiting (.fe id) =>
        let s : State := { s.dropFlight id with feWaits := s.feWaits.filter (fun (e : Nat × Nat) => e.1 != id) }
        feChange s (s.feWaits.map (fun (e : Nat × Nat) => e.2))
      | .waiting .texels => forgetUnit s uid
      | .waiting (.access id) =>
        if s.flights.any (fun (f : Flight) => f.id == id && f.op == AccOp.ldm []) then s.dropFlight id else s
      | _ => s
    let busy := match t.run with | .waiting w => if w.parked then t.parkedAt else s.clk | _ => s.clk
    let s := s.updGroup t.grp (fun g => { g with lastBusy := max g.lastBusy busy })
    let s := s.updThread uid (fun t => { t with run := .absent, pend := 0, rx := false, vacated := false })
    let s := match t.place with
      | .transit c => (s.updCore c (fun k => { k with landing := k.landing.filter (· != uid), overflow := k.overflow.filter (· != uid) })).updThread
          uid (fun t => { t with place := .nowhere })
      | _ => reap s uid
    let s := match t.run with
      | .waiting (.barObj k _ _) => barInUse s k
      | .waiting (.weir k _) => s.setRegion k 64 true (!weirIdle (weirEntries s k) || weirWaited s k)
      | _ => s
    let s := match t.spawner with
      | some u => pokeOwner s u
      | none => s
    let s := barCheck s false t.grp t.die
    let s := barCheck s true t.gang t.die
    let s := if t.isWave then
        quadCheck (teamCheck (crossCheck s t.grp t.role (t.tid / 64)) t.grp t.role (t.tid / 256)) t.grp t.role (t.tid / 64) (t.lane / 4)
      else s
    let s := if t.pixel.isSome then s.later (.exportApply t.die) else s
    if t.ofRecord then recheck (gangCheck (groupCheck s t.grp) t.gang) t.part t.stream t.slot else s

/-- The record of a thread keeps FAULTED with the SEQ of its first killed thread's record (R62, R93). -/
def noteFaulted (s : State) (t : Thread) (seq : Nat) : State :=
  if t.ofRecord then
    s.updStream t.part t.stream (fun q => { q with recs := q.recs.map (fun r =>
      if r.slot == t.slot && r.faulted.isNone then { r with faulted := some seq } else r) })
  else s

/-- A thread is killed on a fault with this SEQ. -/
def killThread (s : State) (uid seq : Nat) : State :=
  match s.thread? uid with
  | none => s
  | some t => endThread (noteFaulted s t seq) uid

/-- R315. The thread ends. -/
def execExit (s : State) : Out := .next (endThread s s.th.uid)

/-- R403. A pixel thread that has not exported ends and contributes nothing. -/
def execKill (s : State) : Out := .next (
  onEngine true s 2 <|
    match s.th.pixel with
    | some p => if p.exported then raise s (faultOf .illegal 2) else endThread s s.th.uid
    | none => raise s (faultOf .illegal 2))

end Sys2Proof.Machine
end

