-- ==== Sys2Proof/Machine/Raster.lean ====
section
/-! DEFINITION. The rasteriser: draws and tags, setup and the sluice, the merge, quads in order, target arithmetic and exports
(R115 to R136, R140, R400 to R402, R448). -/

namespace Sys2Proof.Machine
open Sys2Proof

/-! Tags and draws (R118, R119, R123). -/

/-- Ordinal a precedes b, in serial arithmetic (R118). -/
def precedes (a b : Nat) : Bool :=
  let d := (b + 2 ^ 32 - a) % 2 ^ 32
  decide (1 ≤ d) && decide (d < 2 ^ 31)

/-- The order of tags (R123). -/
def tagLt (a b : Nat × Nat) : Bool := precedes a.1 b.1 || (a.1 == b.1 && decide (a.2 < b.2))

/-- The tag of a primitive. -/
def Prim.tag (p : Prim) : Nat × Nat := (p.ord, p.idx)

/-- The next ordinal. -/
def ordNext (o : Nat) : Nat := (o + 1) % 2 ^ 32

/-- A field of a draw descriptor. -/
def Draw.field (d : Draw) (i n : Nat) : Nat := sliceNat d.desc i n

/-- NPRIM. -/
def Draw.nprim (d : Draw) : Nat := d.field 0 4
/-- NATTR. -/
def Draw.nattr (d : Draw) : Nat := d.field 5 1
/-- SAMPLES. -/
def Draw.samples (d : Draw) : Nat := d.field 6 1
/-- Bit k of FLAGS. -/
def Draw.flag (d : Draw) (k : Nat) : Bool := (d.field 7 1).testBit k
/-- CFMT. [DEDUCED: log 40] -/
def Draw.cfmt (d : Draw) : Nat := d.field 20 1
/-- DFMT. -/
def Draw.dfmt (d : Draw) : Nat := d.field 21 1

/-- The pixels drawn (R119): the target within the scissor, as x0, y0, x1, y1. -/
def Draw.window (d : Draw) : Nat × Nat × Nat × Nat :=
  (d.field 64 2, d.field 66 2, min (d.field 68 2) (d.field 16 2), min (d.field 70 2) (d.field 18 2))

/-- The draw with an ordinal. -/
def State.draw? (s : State) (p ord : Nat) : Option Draw := (s.part? p).bind (fun q => q.draws.find? (fun d => d.ord == ord))

/-- The draw of a thread's record. -/
def State.drawOf (s : State) (t : Thread) : Option Draw :=
  (s.part? t.part).bind (fun q => q.draws.find? (fun d => d.stream == t.stream && d.slot == t.slot))

/-- The slice of a die in a draw (R120). -/
def Draw.slice (d : Draw) (die : Nat) : Option (Nat × Nat) :=
  let n := d.dies.length
  (d.dies.idxOf? die).map (fun j => (d.nprim * j / n, d.nprim * (j + 1) / n))

/-- A die's rasteriser changed. -/
def State.updRast (s : State) (die : Nat) (f : Raster → Raster) : State := s.updDie die (fun d => { d with rast := f d.rast })

/-- A die's rasteriser. -/
def State.rast (s : State) (die : Nat) : Raster := (s.die die).rast

/-- The draws of a partition up to an ordinal. -/
def drawsBefore (s : State) (p ord : Nat) : List Draw :=
  (((s.part? p).map (·.draws)).getD []).filter (fun d => d.ord == ord || precedes d.ord ord)

/-! Setup (R121, R122). -/

/-- A window coordinate in 24.8, RNE; none for a NaN or a value outside the range. -/
def fix8 (w : Word) : Option Int :=
  (ratOf w).bind (fun v =>
    if v < -8388608 ∨ mkRat 838860799609375 100000000 < v then none
    else
      let m := rneInt ((if v < 0 then -v else v) * 256)
      some (if v < 0 then -(m : Int) else m))

/-- A vertex of a record: X, Y, z, 1/w. -/
def vertexOf (ws : List Word) (v : Nat) : Option (Int × Int × Word × Word) :=
  match fix8 (ws[4 * v]?.getD 0), fix8 (ws[4 * v + 1]?.getD 0) with
  | some x, some y => some (x, y, ws[4 * v + 2]?.getD 0, ws[4 * v + 3]?.getD 0)
  | _, _ => none

/-- The doubled area of a primitive. -/
def area (a b c : Int × Int × Word × Word) : Int := (b.1 - a.1) * (c.2.1 - a.2.1) - (c.1 - a.1) * (b.2.1 - a.2.1)

/-- The pixels of the bounding box within the window: x0, y0, x1, y1, the ends not included; none when empty. [DEDUCED: log 78] -/
def boxOf (d : Draw) (vs : List (Int × Int × Word × Word)) : Option (Nat × Nat × Nat × Nat) :=
  let xs := vs.map (·.1)
  let ys := vs.map (·.2.1)
  let (wx0, wy0, wx1, wy1) := d.window
  let lo (l : List Int) (w : Nat) : Nat := max w ((l.foldl min (2 ^ 40)) / 256).toNat
  let hi (l : List Int) (w : Nat) : Nat := min w ((l.foldl max (-(2 ^ 40))) / 256 + 1).toNat
  let b := (lo xs wx0, lo ys wy0, hi xs wx1, hi ys wy1)
  if b.1 < b.2.2.1 ∧ b.2.1 < b.2.2.2 then some b else none

/-- Steps 1 to 4 of R122: the primitive of an emission, or none when it is culled. -/
def setupPrim (d : Draw) (src : Nat) (e : Emission) : Option Prim :=
  e.words.bind (fun ws =>
    match vertexOf ws 0, vertexOf ws 1, vertexOf ws 2 with
    | some a, some b, some c =>
      let ar := area a b c
      let front := if d.flag 3 then decide (ar < 0) else decide (0 < ar)
      if ar = 0 ∨ (front ∧ d.flag 1) ∨ (!front ∧ d.flag 2) ∨ (boxOf d [a, b, c]).isNone then none
      else some ⟨d.ord, e.idx, src, 0, front, d.nattr, [a, b, c], ws.drop 12⟩
    | _, _, _ => none)

/-- The owner of a tile (R116). -/
def Raster.ownerOf (r : Raster) (tx ty : Nat) : Nat := ((r.owner[ty % 16 * 16 + tx % 16]?.getD 0).toNat) % 32

/-- The tiles that a box touches, in ascending ty and then tx. [DEDUCED: log 78] -/
def tilesOf (b : Nat × Nat × Nat × Nat) : List (Nat × Nat) :=
  let x0 := b.1 / 64
  let y0 := b.2.1 / 64
  (List.range ((b.2.2.2 - 1) / 64 + 1 - y0)).flatMap (fun j => (List.range ((b.2.2.1 - 1) / 64 + 1 - x0)).map (fun i => (x0 + i, y0 + j)))

/-- The dies to which setup sends a primitive, each once, ascending (R122). -/
def ownersOf (r : Raster) (d : Draw) (p : Prim) : List Nat :=
  match boxOf d p.verts with
  | none => []
  | some b =>
    let own := (tilesOf b).map (fun t => r.ownerOf t.1 t.2)
    (List.range 24).filter (fun e => own.contains e)

/-! Sluice messages (R123 to R125, R127). -/

/-- The payload of a primitive message. -/
def primPayload (p : Prim) : List Byte :=
  let i32 (x : Int) : List Byte := leBytes 4 (x % 2 ^ 32).toNat
  leBytes 4 p.ord ++ leBytes 4 p.idx ++ leBytes 2 p.sseq ++ leBytes 1 p.src ++ [1] ++ leBytes 1 p.nattr ++
    [if p.front then 1 else 0, 0, 0] ++
    p.verts.flatMap (fun v => i32 v.1 ++ i32 v.2.1 ++ leBytes 4 v.2.2.1.toNat ++ leBytes 4 v.2.2.2.toNat) ++
    p.attrs.flatMap (fun w => leBytes 4 w.toNat)

/-- The 16-byte payload of a watermark, credit or close. -/
def sluicePayload (w0 w1 sseq src mtype fin : Nat) : List Byte :=
  leBytes 4 w0 ++ leBytes 4 w1 ++ leBytes 2 sseq ++ leBytes 1 src ++ leBytes 1 mtype ++ leBytes 1 fin ++ [0, 0, 0]

/-- The primitive of a payload; none where the message breaks R123. -/
def primOf (l : List Byte) : Option Prim :=
  let f (i n : Nat) : Nat := sliceNat l i n
  let n := f 12 1
  if l.length ≠ 64 + 12 * n ∨ 28 < n ∨ f 11 1 ≠ 1 ∨ 31 < f 10 1 ∨ 1 < f 13 1 ∨ f 14 2 ≠ 0 then none
  else
    let i32 (i : Nat) : Int := (BitVec.ofNat 32 (f i 4)).toInt
    some ⟨f 0 4, f 4 4, f 10 1, f 8 2, f 13 1 == 1, n,
      (List.range 3).map (fun v => (i32 (16 + 16 * v), i32 (20 + 16 * v), BitVec.ofNat 32 (f (24 + 16 * v) 4), BitVec.ofNat 32 (f (28 + 16 * v) 4))),
      (List.range (3 * n)).map (fun k => BitVec.ofNat 32 (f (64 + 4 * k) 4))⟩

/-- A short message keeps the layout of its kind. -/
def shortOk (l : List Byte) (mtype : Nat) : Bool :=
  let f (i n : Nat) : Nat := sliceNat l i n
  l.length == 16 && f 11 1 == mtype && decide (f 10 1 ≤ 31) && f 13 3 == 0 &&
    (match mtype with
      | 2 => decide (f 12 1 ≤ 1)
      | 3 => f 12 1 == 0 && f 2 6 == 0 && f 8 2 == 0
      | _ => f 12 1 == 0 && f 5 3 == 0 && f 8 2 == 0)

/-- A message that breaks R123 is discarded and counted as a bad flit of the socket's link (R80). -/
def badSluice (s : State) (dst : Nat) : State := dieEvent s dst 4 2 3 1

/-- What a die holds of a source. -/
def Raster.source (r : Raster) (die : Nat) : Source :=
  (r.sources.find? (fun x => x.die == die)).getD ⟨die, 0, [], [], (0, 0), [], 0⟩

/-- What a die holds of a source changed. -/
def Raster.updSource (r : Raster) (die : Nat) (f : Source → Source) : Raster :=
  { r with sources := r.sources.filter (fun x => x.die != die) ++ [f (r.source die)] }

/-- What a die holds of a destination. -/
def Raster.dest (r : Raster) (die : Nat) : Dest := (r.dests.find? (fun x => x.die == die)).getD ⟨die, 0, 0⟩

/-- What a die holds of a destination changed. -/
def Raster.updDest (r : Raster) (die : Nat) (f : Dest → Dest) : Raster :=
  { r with dests := r.dests.filter (fun x => x.die != die) ++ [f (r.dest die)] }

/-- A source holds a credit for a destination: fewer than 512 primitives sent are not yet returned. -/
def Raster.hasCredit (r : Raster) (die : Nat) : Bool :=
  let d := r.dest die
  decide ((d.nextSeq + 2 ^ 16 - d.credits) % 2 ^ 16 < 512)

/-- The dies of the partition of a die. -/
def State.peers (s : State) (die : Nat) : List Nat := ((s.partOfDie die).map s.partDies).getD []

/-- A primitive of a source taken in order: the entry, and the bound that it implies (R126). -/
def Source.take (x : Source) (p : Prim) : Source :=
  { x with nextSeq := (x.nextSeq + 1) % 2 ^ 16, got := x.got ++ [p],
           bound := if tagLt x.bound (p.ord, p.idx + 1) then (p.ord, p.idx + 1) else x.bound }

/-- Primitives that have arrived early are taken as their turn comes, and watermarks are applied when every primitive up to
theirs has arrived; a lower bound than the one held is ignored (R124). -/
def Source.pump : Nat → Source → Source
  | 0, x => x
  | n + 1, x =>
    match x.early.find? (fun p => p.sseq == x.nextSeq) with
    | some p => Source.pump n ({ x with early := x.early.filter (fun q => q != p) }.take p)
    | none =>
      let ripe (m : Nat × Nat × Nat) : Bool := decide ((x.nextSeq + 2 ^ 17 - 1 - m.2.2) % 2 ^ 16 < 2 ^ 15)
      (x.marks.filter ripe).foldl (fun x m =>
        if tagLt x.bound (m.1, m.2.1) then { x with bound := (m.1, m.2.1) } else x) { x with marks := x.marks.filter (fun m => !ripe m) }

/-- A source's record after something has arrived. -/
def Source.settle (x : Source) : Source := x.pump (x.early.length + 1)

/-- A bound moved past the ordinals that closes pass for a source: a void ordinal, or one of which the source was lost (R127). [DEDUCED: log 68, 81] -/
def passCloses (closes : List (Nat × Nat)) (die : Nat) : Nat → Nat × Nat → Nat × Nat
  | 0, b => b
  | n + 1, b =>
    if closes.any (fun c => c.1 == b.1 && (c.2 == 255 || c.2 == die)) then passCloses closes die n (ordNext b.1, 0) else b

/-- B_s at a die (R126). [DEDUCED: log 81] -/
def Raster.boundOf (r : Raster) (die : Nat) : Nat × Nat := passCloses r.closes die r.closes.length (r.source die).bound

/-- R123. A primitive arrives from another die. -/
def execPrimitiveMessage (src dst : Nat) (payload : List Byte) (s : State) : Out := .next (
  match primOf payload with
  | none => badSluice s dst
  | some p =>
    if (s.die dst).inReset then s
    else
      (s.updRast dst (fun r => r.updSource src (fun x => { x with early := x.early ++ [p] }.settle))).later (.mergeRelease dst))

/-- R124. A watermark arrives: END stands for the bound (o + 1, 0). -/
def execWatermark (src dst : Nat) (payload : List Byte) (s : State) : Out := .next (
  if !shortOk payload 2 then badSluice s dst
  else if (s.die dst).inReset then s
  else
    let f (i n : Nat) : Nat := sliceNat payload i n
    let m := if f 12 1 = 1 then (ordNext (f 0 4), 0, f 8 2) else (f 0 4, f 4 4, f 8 2)
    (s.updRast dst (fun r => r.updSource src (fun x => { x with marks := x.marks ++ [m] }.settle))).later (.mergeRelease dst))

/-- R125. Credits return: a total that does not advance the count held is ignored. -/
def execCredit (src dst : Nat) (payload : List Byte) (s : State) : Out := .next (
  if !shortOk payload 3 then badSluice s dst
  else if (s.die dst).inReset then s
  else
    let total := sliceNat payload 0 2
    (s.updRast dst (fun r => r.updDest src (fun d =>
      let n := (total + 2 ^ 16 - d.credits) % 2 ^ 16
      if 0 < n ∧ n < 2 ^ 15 then { d with credits := total } else d))).later (.primitiveSetup dst))

/-- R127. A close arrives: it is applied for every source, or for the lost die, when the source's bound comes to its ordinal. -/
def execClose (src dst : Nat) (payload : List Byte) (s : State) : Out := .next (
  if src = dst ∧ payload.isEmpty then s
  else if !shortOk payload 4 then badSluice s dst
  else if (s.die dst).inReset then s
  else
    let c := (sliceNat payload 0 4, sliceNat payload 4 1)
    (s.updRast dst (fun r => { r with closes := r.closes ++ [c] })).later (.mergeRelease dst))

/-- A sluice message of a die leaves for another die of the partition, as one packet of the SLUICE class (R32, R123). -/
def sendSluice (s : State) (src dst : Nat) (l : List Byte) : State :=
  let s := dieEvent s src 6 1 0 ((l.length + 103) / 104)
  sendBytes s src 0 (hdrOf ((s.partOfDie src).getD 31) src dst 0 3) false l

/-- A watermark with a die's bound leaves for every other die of the partition; END at the end of slice o. -/
def sendWatermark (s : State) (die : Nat) (fin : Option Nat) : State :=
  let r := s.rast die
  ((s.peers die).filter (fun d => d != die)).foldl (fun s d =>
    let sseq := ((r.dest d).nextSeq + 2 ^ 16 - 1) % 2 ^ 16
    let w := match fin with
      | some o => sluicePayload o (2 ^ 32 - 1) sseq die 2 1
      | none => sluicePayload r.bound.1 r.bound.2 sseq die 2 0
    sendSluice (dieEvent s die 6 2 0 1) die d w) s

/-- A close leaves the raster stream's home die for every other die and is applied there. -/
def sendClose (s : State) (p home ord lost : Nat) : State :=
  let l := sluicePayload ord lost 0 home 4 0
  (s.partDies p).foldl (fun s d => if d = home then s.at_ s.clk (.close home d l) else sendSluice s home d l) s

/-- A die has a draw in flight. -/
def drawInFlight (s : State) (die : Nat) : Bool :=
  (((s.partOfDie die).bind s.part?).map (fun q => q.draws.any (fun d => d.dies.contains die))).getD false

/-- R124. At least once every 256 clk while a draw is in flight, a source sends its bound. -/
def execWatermarkPeriod (die : Nat) (s : State) : Out := .next (
  if drawInFlight s die && !(s.die die).inReset then (sendWatermark s die none).atOnce (s.clk + 256) (.watermarkPeriod die) else s)

/-! Setup's course (R121, R122, R124). -/

/-- Every gang that a draw gives a die has been placed and has ended. -/
def dieGangsEnded (s : State) (p : Nat) (d : Draw) (die : Nat) : Bool :=
  let total := ((s.rec? p d.stream d.slot).map (·.gangs)).getD 0
  decide (total ≤ Table.at d.next die 0) &&
    !s.gangs.any (fun g => g.part == p && g.stream == d.stream && g.slot == d.slot && g.die == die && !g.pixel)

/-- Threads parked at an index that has come within range execute again (R121). -/
def wakeEmit (s : State) (die stream slot next : Nat) : State :=
  s.mapThreads (fun t =>
    match t.run with
    | .waiting (.emit i) =>
      if t.die == die && t.stream == stream && t.slot == slot && decide (i < next + 1024) then t.again s.clk else t
    | _ => t)

/-- The next primitive of a slice is taken: none when setup must wait. Culled when it was emitted so, or is missing for good. -/
def setupOne (s : State) (die p : Nat) : Option State :=
  let r := s.rast die
  match r.slices with
  | [] => none
  | sl :: rest =>
    match s.draw? p sl.ord with
    | none => none
    | some d =>
      if (drawsBefore s p sl.ord).any (fun x => x.dies.isEmpty) then none
      else if sl.stop ≤ sl.next then
        let b := match rest with
          | nx :: _ => if nx.ord = ordNext sl.ord then (nx.ord, nx.next) else (ordNext sl.ord, 0)
          | [] => (ordNext sl.ord, 0)
        let s := s.updRast die (fun r => { r with slices := rest, bound := b, emissions := r.emissions.filter (fun e => e.ord != sl.ord) })
        some ((sendWatermark s die (some sl.ord)).later (.mergeRelease die))
      else
        let e := r.emissions.find? (fun e => e.ord == sl.ord && e.idx == sl.next)
        if e.isNone && !dieGangsEnded s p d die then none
        else
          let prim := e.bind (setupPrim d die)
          -- a lost owner takes none (R127)
          let dsts := ((prim.map (ownersOf r d)).getD []).filter (fun x => !d.gone.contains x)
          if dsts.any (fun x => !r.hasCredit x) then none
          else
            let s := s.updRast die (fun r => { r with
              slices := { sl with next := sl.next + 1 } :: rest, bound := (sl.ord, sl.next + 1), setupClk := s.clk,
              setupCount := if r.setupClk = s.clk then r.setupCount + 1 else 1,
              emissions := r.emissions.filter (fun e => !(e.ord == sl.ord && e.idx == sl.next)) })
            let s := if prim.isSome then dieEvent s die 6 0 0 1 else s
            let s := match prim with
              | none => s
              | some q => dsts.foldl (fun s x =>
                  let q := { q with sseq := ((s.rast die).dest x).nextSeq }
                  let s := s.updRast die (fun r => r.updDest x (fun d => { d with nextSeq := (d.nextSeq + 1) % 2 ^ 16 }))
                  if x = die then s.updRast die (fun r => r.updSource die (fun y => y.take q))
                  else sendSluice s die x (primPayload q)) s
            some ((wakeEmit s die d.stream d.slot (sl.next + 1)).later (.mergeRelease die))

/-- Up to n steps of setup, and at most 4 indices in a clk (R122); answers whether more may follow. -/
def setupRun (die p : Nat) : Nat → State → State × Bool
  | 0, s => (s, true)
  | n + 1, s =>
    if (s.rast die).setupClk = s.clk ∧ 4 ≤ (s.rast die).setupCount then (s, true)
    else match setupOne s die p with
      | none => (s, false)
      | some s => setupRun die p n s

/-- R122. Setup takes at most 4 primitives of its slice in a clk, in ascending index. -/
def execPrimitiveSetup (die : Nat) (s : State) : Out := .next (
  match s.partOfDie die with
  | none => s
  | some p =>
    if (s.die die).inReset || s.timers.any (fun x => x.2 == .primitiveSetup die) then s
    else
      let (s, more) := setupRun die p 8 s
      if more then s.at_ (s.clk + 1) (.primitiveSetup die) else s)

/-! pemit (R401). -/

/-- The index rules of R121: out of the slice or already emitted, too far ahead, or in range. -/
inductive EmitCheck where
  | bad
  | far
  | ok (d : Draw)
  deriving DecidableEq, Repr

/-- An index checked for the issuing thread. -/
def emitCheck (s : State) (i : Nat) : EmitCheck :=
  let t := s.th
  match s.drawOf t with
  | none => .bad
  | some d =>
    let r := s.rast t.die
    match r.slices.find? (fun x => x.ord == d.ord) with
    | none => .bad
    | some sl =>
      if i < sl.next ∨ sl.stop ≤ i ∨ r.emissions.any (fun e => e.ord == d.ord && e.idx == i) then .bad
      else if sl.next + 1024 ≤ i then .far
      else .ok d

/-- An emission handed to setup. -/
def emitTo (s : State) (die ord i : Nat) (ws : Option (List Word)) : State :=
  (s.updRast die (fun r => { r with emissions := r.emissions ++ [⟨ord, i, ws⟩] })).later (.primitiveSetup die)

/-- Relaxed loads of n words of 16 bytes or less from an address: the words and the latency of the first. -/
def readWords : Nat → State → Nat → State × Except MStop (List Word × Nat)
  | 0, s, _ => (s, .ok ([], 0))
  | n + 1, s, a =>
    match texRead s a 4 with
    | (s, .error e) => (s, .error e)
    | (s, .ok v) =>
      match readWords n s (a + 4) with
      | (s, .error e) => (s, .error e)
      | (s, .ok r) => (s, .ok (BitVec.ofNat 32 v.1 :: r.1, v.2))

/-- R401. Index G(A) with the record at gB:gB+1. -/
def execPemit (a b : Code) (s : State) : Out := .next (
  onEngine true s 2 <|
    ops2 s 2 [1] (reg 1 a) (addrPair 2 b) fun na nb =>
      let t := s.th
      if !t.prim then raise s (faultOf .illegal 2)
      else
        let i := (s.src t 1 na).toNat
        let addr := (t.rd2 nb).toNat
        let w := topByte addr
        if w ≠ 0 ∧ w ≠ 0xF1 ∧ w ≠ 0xF4 then raise s (faultAt .window 2 (dw addr) 1)
        else if addr % 16 ≠ 0 then raise s (faultAt .alignment 2 (dw addr) 1)
        else match emitCheck s i with
          | .bad => raise s { faultOf .window 2 with pos := 1 }
          | .far => s.put (t.await s.clk (.emit i) 0 [] 2)
          | .ok d =>
            match readWords (12 + 3 * d.nattr) s addr with
            | (s', .error e) => texStop (if e.final then s' else s) e
            | (s, .ok (ws, l)) =>
              let s := emitTo (forgetUnit s t.uid) t.die d.ord i (some ws)
              finish s (clearArms s.th [1]) [a, b] [] 2 (l + (48 + 12 * d.nattr + 15) / 16 - 1))

/-- R401. Index G(A) as culled. -/
def execPemitCull (a : Code) (s : State) : Out := .next (
  onEngine true s 2 <|
    ops1 s 2 [1] (reg 1 a) fun na =>
      let t := s.th
      if !t.prim then raise s (faultOf .illegal 2)
      else
        let i := (s.src t 1 na).toNat
        match emitCheck s i with
        | .bad => raise s { faultOf .window 2 with pos := 1 }
        | .far => s.put (t.await s.clk (.emit i) 0 [] 2)
        | .ok d => finish (emitTo s t.die d.ord i none) (clearArms s.th [1]) [a] [] 2 4)

/-! The merge (R126). -/

/-- The source whose head has the least tag. -/
def leastHead (l : List Source) : Option (Source × Prim) :=
  l.foldl (fun b x =>
    match x.got, b with
    | p :: _, some (_, q) => if tagLt p.tag q.tag then some (x, p) else b
    | p :: _, none => some (x, p)
    | [], _ => b) none

/-- Another source keeps a head of tag t from being released: it has no head and may still send a lower tag. A die that takes part
in no draw up to this one sends none. -/
def blocks (s : State) (die p : Nat) (t : Nat × Nat) (src : Nat) : Bool :=
  let r := s.rast die
  let b := if src = die then r.bound else r.boundOf src
  (r.source src).got.isEmpty && !tagLt t b && (drawsBefore s p t.1).any (fun d => d.dies.isEmpty || d.dies.contains src)

/-- The raster order unit has work in hand that a release must wait for (R130). -/
def Raster.busy (r : Raster) : Bool := !r.quads.isEmpty || !r.released.isEmpty

/-- A draw has ended on a die: every source has passed it and nothing of it waits there (R128, R131). -/
def drawEnded (s : State) (p die ord : Nat) : Bool :=
  match s.draw? p ord with
  | none => true
  | some d =>
    let r := s.rast die
    !d.dies.isEmpty && !r.slices.any (fun x => x.ord == ord) && !r.released.any (fun x => x.ord == ord) &&
      !r.quads.any (fun x => x.ord == ord) && (r.source die).got.all (fun x => x.ord != ord) &&
      d.dies.all (fun e => e == die || (precedes ord (r.boundOf e).1 &&
        (r.source e).got.all (fun x => x.ord != ord) && (r.source e).early.all (fun x => x.ord != ord)))

/-- The pixel groups of a draw on a die. -/
def pixelGroups (s : State) (p : Nat) (d : Draw) (die : Nat) : List Group :=
  s.groups.filter (fun g => g.pixel.isSome && ((s.gang? g.gang).map (fun x =>
    x.part == p && x.stream == d.stream && x.slot == d.slot && x.die == die)).getD false)

/-- Where a draw has ended, its static waves that hold quads start and no group of it takes further ones (R131). -/
def drawEnd (s : State) (p die : Nat) : State :=
  let ended := (((s.part? p).map (·.draws)).getD []).filter (fun d => d.dies.contains die && drawEnded s p die d.ord)
  ended.foldl (fun s d =>
    let s := (pixelGroups s p d die).foldl (fun s g =>
      match g.pixel with
      | none => s
      | some (st, n) =>
        let s := (List.range 4).foldl (fun s k =>
          if !st[k]?.getD true && n[k]?.getD 0 != 0 then s.later (.staticWaveStart die g.id k) else s) s
        let s := s.updGroup g.id (fun x => { x with pixel := some ((st.zip n).map (fun y => y.1 || y.2 == 0), n) })
        gangCheck (groupCheck s g.id) g.gang) s
    recheck s p d.stream d.slot) s

/-- R126. The head of the least tag is released when no other source can still send a lower one; at most 4 in a clk, and none while
quads of the last wait. Its credit returns. -/
def execMergeRelease (die : Nat) (s : State) : Out := .next (
  match s.partOfDie die with
  | none => s
  | some p =>
    let r := s.rast die
    if (s.die die).inReset || r.busy then s
    else match leastHead r.sources with
      | none => drawEnd s p die
      | some (src, q) =>
        if (s.peers die).any (fun x => x != src.die && blocks s die p q.tag x) then drawEnd s p die
        else if r.lastRelease = s.clk ∧ 4 ≤ r.relCount then s.atOnce (s.clk + 1) (.mergeRelease die)
        else
          -- what a lost die had sent before takes none of the credits of its new stream (R127)
          let gone := ((s.draw? p q.ord).map (fun d => d.gone.contains src.die)).getD false
          let total := if gone then src.returned else (src.returned + 1) % 2 ^ 16
          let s := s.updRast die (fun r => { r.updSource src.die (fun x => { x with got := x.got.drop 1, returned := total }) with
            released := [q], prims := r.prims ++ [q], lastRelease := s.clk,
            relCount := if r.lastRelease = s.clk then r.relCount + 1 else 1 })
          let s := if src.die = die then (s.updRast die (fun r => r.updDest die (fun d => { d with credits := total }))).later (.primitiveSetup die)
            else if gone then s
            else sendSluice s die src.die (sluicePayload total 0 0 die 3 0)
          s.later (.rasterise die))

/-! Coverage (R129). -/

/-- An edge function a → b at a point, in squared 24.8 units. -/
def edgeAt (a b : Int × Int × Word × Word) (px py : Int) : Int := (b.1 - a.1) * (py - a.2.1) - (b.2.1 - a.2.1) * (px - a.1)

/-- A sample on the edge a → b of a primitive whose area has sign g is covered: a top edge, or a left edge. -/
def topLeft (g : Int) (a b : Int × Int × Word × Word) : Bool :=
  let dx := g * (b.1 - a.1)
  let dy := g * (b.2.1 - a.2.1)
  if dy = 0 then decide (0 < dx) else decide (dy < 0)

/-- Sample offsets in sixteenths of a pixel. -/
def sampleOffset (samples k : Nat) : Nat × Nat :=
  if samples = 1 then (8, 8) else match k with | 0 => (6, 2) | 1 => (14, 6) | 2 => (2, 10) | _ => (10, 14)

/-- A sample's position in 24.8. -/
def samplePos (samples x y k : Nat) : Int × Int :=
  let o := sampleOffset samples k
  ((256 * x + 16 * o.1 : Nat), (256 * y + 16 * o.2 : Nat))

/-- The barycentric weights of a point, exact. -/
def weightsAt (p : Prim) (px py : Int) : List Rat :=
  match p.verts with
  | [a, b, c] =>
    let ar := area a b c
    [edgeAt b c px py, edgeAt c a px py, edgeAt a b px py].map (fun e => Rat.divInt e ar)
  | _ => []

/-- Coverage of a sample by the edges. -/
def edgesCover (p : Prim) (px py : Int) : Bool :=
  match p.verts with
  | [a, b, c] =>
    let g : Int := if area a b c < 0 then -1 else 1
    let one (u v : Int × Int × Word × Word) : Bool :=
      let e := g * edgeAt u v px py
      decide (0 < e) || (e == 0 && topLeft g u v)
    one b c && one c a && one a b
  | _ => false

/-- The depth of a point in binary32, when it lies in [0, 1]. -/
def depthAt (p : Prim) (px py : Int) : Option Word :=
  let zs := p.verts.map (fun v => ratOf v.2.2.1)
  if zs.any Option.isNone then none
  else
    let z := ((weightsAt p px py).zip zs).foldl (fun s x => s + x.1 * x.2.getD 0) 0
    let w := rneRat z
    let v := (ratOf w).getD 2
    if v < 0 ∨ 1 < v then none else some w

/-- Covered samples and depths of a pixel. -/
def pixelCover (d : Draw) (p : Prim) (x y : Nat) : BitVec 4 × List Word :=
  let (x0, y0, x1, y1) := d.window
  if x < x0 ∨ y < y0 ∨ x1 ≤ x ∨ y1 ≤ y then (0, [0, 0, 0, 0])
  else
    let one (k : Nat) : Option Word :=
      let pos := samplePos d.samples x y k
      if edgesCover p pos.1 pos.2 then depthAt p pos.1 pos.2 else none
    let l := (List.range 4).map (fun k => if k < d.samples then one k else none)
    (BitVec.ofNat 4 (((l.zipIdx).map (fun e => if e.1.isSome then 2 ^ e.2 else 0)).sum), l.map (fun e => e.getD 0))

/-- The quads of a primitive on a die, in the order of R130. -/
def quadsOf (r : Raster) (d : Draw) (die : Nat) (p : Prim) : List Quad :=
  match boxOf d p.verts with
  | none => []
  | some b =>
    ((tilesOf b).filter (fun t => r.ownerOf t.1 t.2 == die)).flatMap (fun t =>
      let x0 := max b.1 (64 * t.1) / 2
      let y0 := max b.2.1 (64 * t.2) / 2
      let x1 := (min b.2.2.1 (64 * t.1 + 64) + 1) / 2
      let y1 := (min b.2.2.2 (64 * t.2 + 64) + 1) / 2
      (List.range (y1 - y0)).flatMap (fun j => (List.range (x1 - x0)).filterMap (fun i =>
        let x := 2 * (x0 + i)
        let y := 2 * (y0 + j)
        let c := [pixelCover d p x y, pixelCover d p (x + 1) y, pixelCover d p x (y + 1), pixelCover d p (x + 1) (y + 1)]
        if c.all (fun e => e.1 == 0) then none
        else some ⟨d.ord, p.idx, p.front, x, y, c.map (·.1), c.map (·.2), 0⟩)))

/-! Target samples (R117, R133 to R136, R448). -/

/-- The agent as which an owner die accesses targets: a user thread of the partition (R448). -/
def targetAgent (p die : Nat) : Agent := ⟨p, coreNo die 15 0, false, 0, none⟩

/-- Address of a target sample (R117). -/
def targetAddr (base width samples b x y k : Nat) : Nat :=
  base + ((y / 64) * ((width + 63) / 64) + x / 64) * (4096 * samples * b) + ((y % 64) * 64 + x % 64) * (samples * b) + k * b

/-- Comparison number f of R136. -/
def compares (f : Nat) (lt eq : Bool) : Bool :=
  match f with
  | 0 => false | 1 => lt | 2 => eq | 3 => lt || eq | 4 => !lt && !eq | 5 => !eq | 6 => !lt | _ => true

/-- The depth test z ⊙ stored; a stored NaN of a float format is neither less, equal nor greater. -/
def depthTest (fmt f : Nat) (z : Word) (stored : Nat) : Bool :=
  if fmt = 18 then
    let a := unormOut 24 z
    let b := stored % 2 ^ 24
    compares f (decide (a < b)) (a == b)
  else
    let a := unpack f32 z.toNat
    let b := unpack f32 (stored % 2 ^ 32)
    if b.isNan then f == 5 || f == 7 else compares f (a.lt b) (a.eq b)

/-- Stencil operations of R136. -/
def stencilOp (op old ref : Nat) : Nat :=
  match op with
  | 0 => old | 1 => 0 | 2 => ref | 3 => min 255 (old + 1) | 4 => old - 1 | 5 => 255 - old | 6 => (old + 1) % 256 | _ => (old + 255) % 256

/-- What the tests of a sample give: passed, and the bytes of the depth target to write, if any. -/
structure Tested where
  /-- Both tests pass. -/
  pass : Bool
  /-- New value of the depth-stencil sample. -/
  value : Option Nat
  deriving DecidableEq, Repr

/-- The DEPTH AND STENCIL TESTS of a sample whose stored value is given (R136). -/
def testSample (d : Draw) (z : Word) (stored : Nat) : Tested :=
  let st := if d.dfmt = 17 then bits stored 39 32 else bits stored 31 24
  let sops := d.field 39 2
  let sref := d.field 36 1
  let a := sref &&& d.field 37 1
  let b := st &&& d.field 37 1
  let spass := !d.flag 5 || compares (bits sops 2 0) (decide (a < b)) (a == b)
  let zpass := !d.flag 6 || depthTest d.dfmt (d.field 35 1) z stored
  let op := if !spass then bits sops 5 3 else if !zpass then bits sops 8 6 else bits sops 11 9
  let mask := d.field 38 1
  let st' := ((st &&& (255 - mask)) ||| (stencilOp op st sref &&& mask))
  let pass := spass && zpass
  let zw := pass && d.flag 4 && d.flag 6
  let sw := d.flag 5 && op != 0 && mask != 0
  let nst := if sw then st' else st
  let nz := if zw then (if d.dfmt = 18 then unormOut 24 z else z.toNat) else if d.dfmt = 18 then stored % 2 ^ 24 else stored % 2 ^ 32
  ⟨pass, if zw || sw then some (match d.dfmt with
      | 17 => nz + nst * 2 ^ 32
      | 18 => nz + nst * 2 ^ 24
      | _ => nz) else none⟩

/-- Position and width of channel c in a colour sample (R133). -/
def channelBits (f c : Nat) : Nat × Nat :=
  match f with
  | 3 => (if c = 3 then 24 else 16 - 8 * c, 8)
  | 4 => (10 * c, if c = 3 then 2 else 10)
  | 5 => (16 * c, 16)
  | 6 => (32 * c, 32)
  | _ => (8 * c, 8)

/-- A colour channel as stored (R134). -/
def channelOut (f c : Nat) (v : Word) : Nat :=
  match f with
  | 2 => if c = 3 then unormOut 8 v else srgbOut v
  | 4 => unormOut (if c = 3 then 2 else 10) v
  | 5 => halfOut v
  | 6 => v.toNat
  | _ => unormOut 8 v

/-- RNE(1 - x, binary32). -/
def oneMinus (x : Word) : Word :=
  BitVec.ofNat 32 (outF 0 f32 false 0 [] (addX 0 (unpack f32 0x3F800000) (unpack f32 x.toNat).neg)).1

/-- A blend factor of channel c (R135). -/
def factorOf (n c : Nat) (src dst konst : List Word) : Word :=
  let at_ (l : List Word) (i : Nat) : Word := l[i]?.getD 0
  match n with
  | 0 => 0
  | 1 => 0x3F800000
  | 2 => at_ src c
  | 3 => oneMinus (at_ src c)
  | 4 => at_ src 3
  | 5 => oneMinus (at_ src 3)
  | 6 => at_ dst 3
  | 7 => oneMinus (at_ dst 3)
  | 8 => at_ dst c
  | 9 => oneMinus (at_ dst c)
  | 10 => at_ konst c
  | _ => oneMinus (at_ konst c)

/-- S × fs ± D × fd rounded once. -/
def blendSum (a fa b fb : Word) (negA negB : Bool) : Word :=
  let prod (x y : Word) (neg : Bool) : FVal :=
    let v := (mulX false (unpack f32 x.toNat) (unpack f32 y.toNat)).toVal
    if neg then v.neg else v
  let x := prod a fa negA
  let y := prod b fb negB
  BitVec.ofNat 32 (outF 0 f32 false 0 [] (addX 0 x y)).1

/-- A source component as blending takes it: clamped for UNORM and sRGB targets (R135). -/
def blendSource (f : Nat) (w : Word) : Word := if f ≤ 4 then rneRat (clamp01 w) else w

/-- The BLEND of a channel (R135). -/
def blendChannel (d : Draw) (c : Nat) (src dst : List Word) : Word :=
  let fac := if c = 3 then d.field 33 1 else d.field 32 1
  let op := if c = 3 then bits (d.field 34 1) 5 3 else bits (d.field 34 1) 2 0
  let konst := (List.range 4).map (fun i => BitVec.ofNat 32 (d.field (48 + 4 * i) 4))
  let s := src[c]?.getD 0
  let t := dst[c]?.getD 0
  let fs := factorOf (fac % 16) c src dst konst
  let fd := factorOf (fac / 16) c src dst konst
  match op with
  | 0 => blendSum s fs t fd false false
  | 1 => blendSum s fs t fd false true
  | 2 => blendSum s fs t fd true false
  | 3 => BitVec.ofNat 32 (fminR 0 false s t).1
  | _ => BitVec.ofNat 32 (fminR 0 true s t).1

/-- The colour sample after an export: channels that CMASK enables (R135). -/
def colourOut (d : Draw) (colour : List Word) (old : Nat) : Nat :=
  let f := d.cfmt
  let blend := (d.field 34 1).testBit 6
  let src := if blend then colour.map (blendSource f) else colour
  let dst := colourIn f old
  (List.range 4).foldl (fun v c =>
    if (d.field 22 1).testBit c then
      let (lo, n) := channelBits f c
      let x := channelOut f c (if blend then blendChannel d c src dst else src[c]?.getD 0)
      v - bits v (lo + n - 1) lo * 2 ^ lo + x * 2 ^ lo
    else v) old

/-- A target access of a unit of the owner die checked: its key, or why it stops. -/
def targetKey (s : State) (u p die a n : Nat) (w : Bool) : State × Except MStop Nat :=
  let g := targetAgent p die
  match unitAt s u g a (min n 8) (if w then needW else needR) (if w then 2 else 1) with
  | .ok l => (passAt s g a l, .ok l.key)
  | .error e => (s, .error e)

/-- A target sample read by a unit; one outside the package is waited for (R55, R56, R117). -/
def targetRead (s : State) (u die k n : Nat) : State × Except MStop Nat :=
  match unitFetch s u die k n with
  | (s, .ok l) => (s, .ok (leNat l))
  | (s, .error e) => (s, .error e)

/-- The key of a target sample when it is needed. -/
def targetIf (on : Bool) (s : State) (u p die a n : Nat) (w : Bool) : State × Except MStop Nat :=
  if on then targetKey s u p die a n w else (s, .ok 0)

/-- The depth-stencil sample of a pixel's sample: its address, bytes, and stored value when a test reads it. -/
def depthSample (s : State) (u p die : Nat) (d : Draw) (x y k : Nat) : State × Except MStop (Nat × Nat × Nat) :=
  let n := formatBytes d.dfmt
  let a := targetAddr (d.field 24 8) (d.field 16 2) d.samples n x y k
  match targetIf (d.flag 5 || d.flag 6) s u p die a n false with
  | (s, .error e) => (s, .error e)
  | (s, .ok key) =>
    if d.flag 5 || d.flag 6 then
      match targetRead s u die key n with
      | (s, .ok v) => (s, .ok (a, n, v))
      | (s, .error e) => (s, .error e)
    else (s, .ok (a, n, 0))

/-- A sample of an export applied (R132, R135, R136): every access is checked before the first write. [DEDUCED: log 77] -/
def applySample (s : State) (u p die : Nat) (d : Draw) (x y k : Nat) (z : Word) (colour : List Word) : State × Except MStop Unit :=
  match depthSample s u p die d x y k with
  | (s, .error e) => (s, .error e)
  | (s, .ok (da, dn, stored)) =>
    let t := testSample d z stored
    match targetIf t.value.isSome s u p die da dn true with
    | (s, .error e) => (s, .error e)
    | (s, .ok dk) =>
      let n := formatBytes d.cfmt
      let ca := targetAddr (d.field 8 8) (d.field 16 2) d.samples n x y k
      let blend := (d.field 34 1).testBit 6
      let on := t.pass && d.field 8 8 != 0 && d.field 22 1 != 0
      match targetIf (on && blend) s u p die ca n false with
      | (s, .error e) => (s, .error e)
      | (s, .ok _) =>
        match targetIf on s u p die ca n true with
        | (s, .error e) => (s, .error e)
        | (s, .ok ck) =>
          let old := if on && (blend || d.field 22 1 != 15) then targetRead s u die ck n else (s, .ok 0)
          match old with
          | (s, .error e) => (s, .error e)
          | (s, .ok old) =>
            let s := match t.value with
              | some v => unitWrite s die p dk (leBytes dn v)
              | none => s
            (if on then unitWrite s die p ck (leBytes n (colourOut d colour old)) else s, .ok ())

/-- The early test of a sample (R132): whether it passes; a failing one takes its stencil operation now. -/
def earlySample (s : State) (u p die : Nat) (d : Draw) (x y k : Nat) (z : Word) : State × Except MStop Bool :=
  match depthSample s u p die d x y k with
  | (s, .error e) => (s, .error e)
  | (s, .ok (a, n, stored)) =>
    let t := testSample d z stored
    if t.pass then (s, .ok true)
    else match targetIf t.value.isSome s u p die a n true with
      | (s, .error e) => (s, .error e)
      | (s, .ok k) =>
        (match t.value with
          | some v => unitWrite s die p k (leBytes n v)
          | none => s, .ok false)

/-- The THREAD record of a target fault that opens an entry (R448). -/
def exportRecord (die : Nat) (d : Draw) (run : Nat) (f : FaultRec) (entry : Nat) : List Byte :=
  fqBytes 1 f.cause.code die 0 f.addr.toNat
    (leBytes 4 0 ++ [0xFF, 0xFF, 0] ++ leBytes 1 f.acc ++ leBytes 8 0 ++ leBytes 2 entry ++ leBytes 2 0 ++
      leBytes 4 0 ++ leBytes 1 d.stream ++ leBytes 1 d.slot ++ leBytes 2 run ++ leBytes 4 0 ++ leBytes 8 0)

/-- A target access has faulted: a translation or permission cause joins the owner's fault table. -/
def targetFault (s : State) (p die : Nat) (d : Draw) (early : Bool) (c : Cause) (a kind : Nat) : State × FaultRec :=
  let f := faultAt c 0 (dw a) kind
  let run := ((s.rec? p d.stream d.slot).map (·.run)).getD 0
  let (s, en, tk, sq) := joinFault s die p (a / 65536) c (die + (if early then 2 ^ 42 else 2 ^ 41)) (exportRecord die d run f)
    ⟨[], 0, 0, d.stream, d.slot⟩
  (s, { f with entry := en, ticket := tk, seq := sq })

/-! Exports (R132, R402). -/

/-- A pixel thread has been given a quad, and its static wave has not started (R131). [DEDUCED: log 32] -/
def unstarted (s : State) (uid : Nat) : Bool :=
  (s.th :: s.threads).any (fun t => t.uid == uid && t.pixel.isSome &&
    (match (s.group? t.grp).bind Group.pixel with | some (st, _) => !(st[t.tid / 64]?.getD true) | none => false))

/-- An export whose turn has come: it has a value or its thread has ended, and no earlier export of its pixel waits. [DEDUCED: log 32] -/
def turnOf (s : State) (blockAt : Option Nat) : List Export → List (Nat × Nat) → Option Export
  | [], _ => none
  | e :: r, seen =>
    if blockAt = some e.thread then none
    else if !seen.contains (e.x, e.y) && (e.value.isSome || ((s.thread? e.thread).isNone && !unstarted s e.thread)) then some e
    else turnOf s blockAt r ((e.x, e.y) :: seen)

/-- The samples of an export that are still to be applied. -/
def Export.todo (e : Export) : List Nat :=
  match e.value with
  | none => []
  | some (_, m) => (List.range 4).filter (fun k => (e.cov &&& m).getLsbD k)

/-- An export of a die changed. -/
def updExport (s : State) (die thread : Nat) (f : Export → Export) : State :=
  s.updRast die (fun r => { r with exports := r.exports.map (fun e => if e.thread == thread then f e else e) })

/-- A sample of an export is done with. -/
def dropSample (s : State) (die thread k : Nat) : State :=
  updExport s die thread (fun e => { e with cov := e.cov &&& ~~~(1#4 <<< k) })

/-- Exports are applied while one has its turn. [DEDUCED: log 65] -/
def applyExports (die p : Nat) : Nat → State → State
  | 0, s => s
  | n + 1, s =>
    let r := s.rast die
    match turnOf s (r.expFault.map (·.2)) r.exports [] with
    | none => s
    | some e =>
      match s.draw? p e.ord, e.todo with
      | some d, k :: _ =>
        let colour := match e.value with | some v => msgWords v.1 | none => []
        match applySample s (exportUnit die) p die d e.x e.y k (e.z[k]?.getD 0) colour with
        | (s, .ok _) => applyExports die p n (dropSample (forgetUnit s (exportUnit die)) die e.thread k)
        | (s, .error (.cause c a kind)) =>
          let s := forgetUnit s (exportUnit die)
          if c = .translation ∨ c = .permission then
            let (s, f) := targetFault s p die d false c a kind
            s.updRast die (fun r => { r with expFault := some (f, e.thread) })
          else applyExports die p n (dropSample s die e.thread k)
        | (s, .error (.held h)) => holdMessage s h (.exportApply die)
        | (s, .error e) => askUnit s (exportUnit die) die p e
      | d, _ =>
        let blends := (match d with | some d => (d.field 34 1).testBit 6 | none => false) && (match e.value with | some v => v.2 != 0 | none => false)
        let s := if blends then dieEvent s die 6 3 0 1 else s
        let s := s.updRast die (fun r => { r with exports := r.exports.filter (fun x => x.thread != e.thread) })
        applyExports die p n s

/-- R132. At its turn an export is tested and blended into the target; a thread that has ended without one gives up its turn. Quads
that wait for it are tested, and its draw may have ended. -/
def execExportApply (die : Nat) (s : State) : Out := .next (
  match s.partOfDie die with
  | none => s
  | some p =>
    if (s.die die).inReset then s
    else
      let s := applyExports die p (5 * (s.rast die).exports.length + 1) s
      let s := if (s.rast die).busy then s.later (.rasterise die) else s
      (((s.part? p).map (·.draws)).getD []).foldl (fun s d => recheck s p d.stream d.slot) s)

/-- R402. The colour quad and the mask of the issuing pixel thread are captured. -/
def execPexp (a b : Code) (s : State) : Out := .next (
  onEngine true s 2 <|
    ops2 s 2 [2] (quad 1 a) (reg 2 b) fun na nb =>
      let t := s.th
      match t.pixel with
      | none => raise s (faultOf .illegal 2)
      | some p =>
        if p.exported then raise s (faultOf .illegal 2)
        else
          let m := (s.src t 2 nb).setWidth 4
          let s := updExport s t.die t.uid (fun e => { e with value := some (t.rd4 na, m) })
          let t := { clearArms s.th [2] with pixel := some { p with exported := true } }
          (finish s t [a, b] [] 2 4).later (.exportApply t.die))

/-! interp (R400). -/

/-- Attribute a at a point of a primitive. -/
def interpAt (p : Prim) (a : Nat) (px py : Int) : Word :=
  let rs := p.verts.map (fun v => ratOf v.2.2.2)
  let fs := (List.range 3).map (fun v => ratOf (p.attrs[p.nattr * v + a]?.getD 0))
  if p.nattr ≤ a then 0
  else if rs.any Option.isNone || fs.any Option.isNone then BitVec.ofNat 32 (canonNan f32)
  else
    let wr := (weightsAt p px py).zipWith (fun w r => w * r.getD 0) rs
    let den := wr.sum
    if den = 0 then BitVec.ofNat 32 (canonNan f32)
    else rneRat ((wr.zipWith (fun w f => w * f.getD 0) fs).sum / den)

/-- R400. An attribute of the pixel's primitive at the pixel centre or at a sample. -/
def execInterp (d a b : Code) (s : State) : Out := .next (
  onEngine true s 2 <|
    ops3 s 2 [1, 2] (reg 1 a) (reg 2 b) (reg 0 d) fun na nb nd =>
      let t := s.th
      match t.pixel with
      | none => raise s (faultOf .illegal 2)
      | some x =>
        let k := bits (s.src t 1 na).toNat 4 0
        let sel := (s.src t 2 nb).toNat
        let samples := ((s.draw? t.part x.ord).map (·.samples)).getD 1
        let pos := if sel.testBit 2 && decide (sel % 4 < samples) then samplePos samples x.x x.y (sel % 4) else samplePos 1 x.x x.y 0
        let v := match (s.rast t.die).prims.find? (fun p => p.ord == x.ord && p.idx == x.prim) with
          | some p => interpAt p k pos.1 pos.2
          | none => 0
        finish s ((clearArms s.th [1, 2]).wr nd v) [a, b, d] [] 2 8)

/-! Quads and static waves (R130, R131). -/

/-- A pixel group of a draw that can take a quad, and the static wave that does: 16 quads fill it. -/
def openWave (s : State) (p : Nat) (d : Draw) (die : Nat) : Option (Group × Nat × Nat) :=
  (pixelGroups s p d die).findSome? (fun g =>
    match g.pixel with
    | none => none
    | some (st, n) => ((List.range 4).find? (fun k => !st[k]?.getD true && decide (n[k]?.getD 16 < 16))).map (fun k => (g, k, n[k]?.getD 0)))

/-- The thread of a lane of a pixel group with its first values (R130). -/
def quadThread (q : Quad) (i : Nat) (t : Thread) : Thread :=
  let x := q.x + i % 2
  let y := q.y + i / 2
  let cov := q.cov[i]?.getD 0
  let helper := cov == 0
  let g := t.wrs 0 [BitVec.ofNat 32 x, BitVec.ofNat 32 y, cov.setWidth 32, BitVec.ofNat 32 q.prim,
    (if q.front then 1 else 0) ||| (if helper then 2 else 0)]
  { g with pixel := some ⟨x, y, cov, q.ord, q.prim, helper, false⟩ }

/-- A quad enters a static wave: its threads are made ready to start, and its exports take their place in tag order. -/
def enterQuad (s : State) (die : Nat) (q : Quad) (g : Group) (k n : Nat) : State :=
  let role (t : Thread) : Option Nat :=
    if t.grp = g.id ∧ t.spawner.isNone ∧ t.tid / 4 = 16 * k + n then some (t.tid % 4) else none
  let s := s.mapThreads (fun t => match role t with | some i => quadThread q i t | none => t)
  let exps := (List.range 4).filterMap (fun i =>
    let cov := q.cov[i]?.getD 0
    if cov == 0 then none
    else (s.threads.find? (fun t => role t == some i)).map (fun t =>
      ⟨q.ord, q.prim, q.x + i % 2, q.y + i / 2, t.uid, cov, q.z[i]?.getD [], none⟩))
  let s := s.updRast die (fun r => { r with exports := r.exports ++ exps })
  let s := s.updGroup g.id (fun x => { x with pixel := x.pixel.map (fun p => (p.1, p.2.set k (n + 1))) })
  if n + 1 = 16 then s.later (.staticWaveStart die g.id k)
  else s.atOnce (max s.clk ((s.rast die).lastRelease + 64)) (.staticWaveStart die g.id k)

/-- The early tests of a quad go on: done with it, or it must wait. [DEDUCED: log 77] -/
def earlyQuad (die p : Nat) (d : Draw) : Nat → State → Quad → State × Quad × Bool
  | 0, s, q => (s, q, true)
  | n + 1, s, q =>
    if 16 ≤ q.tested then (s, q, true)
    else
      let i := q.tested / 4
      let k := q.tested % 4
      let x := q.x + i % 2
      let y := q.y + i / 2
      let skip := { q with tested := q.tested + 1 }
      let fail := { skip with cov := q.cov.set i ((q.cov[i]?.getD 0) &&& ~~~(1#4 <<< k)) }
      if !(q.cov[i]?.getD 0).getLsbD k then earlyQuad die p d n s skip
      else if (s.rast die).exports.any (fun e => e.x == x && e.y == y) then (s, q, false)
      else match earlySample s (earlyUnit die) p die d x y k (((q.z[i]?.getD [])[k]?).getD 0) with
        | (s, .ok true) => earlyQuad die p d n (forgetUnit s (earlyUnit die)) skip
        | (s, .ok false) => earlyQuad die p d n (forgetUnit s (earlyUnit die)) fail
        | (s, .error (.cause c a kind)) =>
          let s := forgetUnit s (earlyUnit die)
          if c = .translation ∨ c = .permission then
            let (s, f) := targetFault s p die d true c a kind
            (s.updRast die (fun r => { r with earlyFault := some f }), q, false)
          else earlyQuad die p d n s fail
        | (s, .error (.held h)) => (holdMessage s h (.rasterise die), q, false)
        | (s, .error e) => (askUnit s (earlyUnit die) die p e, q, false)

/-- Waiting quads enter static waves, in order, as long as one takes them. -/
def enterQuads (die p : Nat) : Nat → State → State
  | 0, s => s
  | n + 1, s =>
    let r := s.rast die
    match r.quads with
    | [] => s
    | q :: rest =>
      match s.draw? p q.ord with
      | none => enterQuads die p n (s.updRast die (fun r => { r with quads := rest }))
      | some d =>
        let (s, q, go) := if d.flag 0 then (if r.earlyFault.isSome then (s, q, false) else earlyQuad die p d 17 s q) else (s, q, true)
        let s := s.updRast die (fun r => { r with quads := q :: rest })
        if !go then s
        else if q.cov.all (fun c => c == 0) then enterQuads die p n (s.updRast die (fun r => { r with quads := rest }))
        else match openWave s p d die with
          | none => s
          | some (g, k, m) => enterQuads die p n (enterQuad (s.updRast die (fun r => { r with quads := rest })) die q g k m)

/-- R130. The quads of the released primitive are formed and enter static waves; when all have, the next primitive may be released.
While one can enter none, a pixel group is wanted at the next placement window. -/
def execRasterise (die : Nat) (s : State) : Out := .next (
  match s.partOfDie die with
  | none => s
  | some p =>
    if (s.die die).inReset then s
    else
      let s := match (s.rast die).quads, (s.rast die).released with
        | [], q :: rest =>
          let l := match s.draw? p q.ord with
            | some d => quadsOf (s.rast die) d die q
            | none => []
          s.updRast die (fun r => { r with released := rest, quads := l })
        | _, _ => s
      let s := enterQuads die p ((s.rast die).quads.length + 1) s
      if (s.rast die).quads.isEmpty then s.later (.mergeRelease die)
      else s.atOnce (nextMultiple (s.clk + 1) 64) .placementWindow)

/-- R131. A static wave starts: with 16 quads, or with one and no release for 64 clk, or at the end of its draw. -/
def execStaticWaveStart (die group wave : Nat) (s : State) : Out := .next (
  match s.group? group with
  | none => s
  | some g =>
    match g.pixel with
    | none => s
    | some (st, n) =>
      let m := n[wave]?.getD 0
      let idle := (s.rast die).lastRelease + 64
      let ended := ((s.gang? g.gang).map (fun x =>
        (((s.part? x.part).map (·.draws)).getD []).any (fun d => d.stream == x.stream && d.slot == x.slot && drawEnded s x.part die d.ord))).getD true
      if st[wave]?.getD true || m == 0 then s
      else if m < 16 && !ended && decide (s.clk < idle) then s.atOnce idle (.staticWaveStart die group wave)
      else
        let s := s.updGroup group (fun x => { x with pixel := some (st.set wave true, n) })
        s.mapThreads (fun t =>
          if t.grp == group && t.spawner.isNone && t.tid / 64 == wave && t.pixel.isSome && t.run == .absent && t.place != .nowhere
          then { t with run := .ready, readyAt := s.clk } else t))

/-! Raster control (R115). -/

/-- A draw of the partition runs or ends. -/
def drawRunning (q : Part) : Bool :=
  q.draws.any (fun d => (q.stream d.stream).recs.any (fun r => r.slot == d.slot && (r.state == .running || r.state == .ending)))

/-- A raster control word as it is held: reserved bits are zero. -/
def rasterMask (off : Nat) (v : DWord) : DWord :=
  if off = 0x4000 then v &&& 0xFFF03F01#64 else v

/-- A write applied to the block of a die. -/
def applyRaster (off : Nat) (v : DWord) (r : Raster) : Raster :=
  if off = 0x4000 then { r with control := rasterMask off v }
  else { r with owner := (List.range 8).foldl (fun o i => o.setIfInBounds (off - 0x4100 + i) (v.extractLsb' (8 * i) 8)) r.owner }

/-- Waiting raster control writes are applied to every die of the partition once no draw runs. -/
def rasterPump (s : State) (p : Nat) : State :=
  match s.part? p with
  | none => s
  | some q =>
    if drawRunning q then s
    else
      let s := q.rastWait.foldl (fun s w => q.dies.foldl (fun s d => s.updRast d (applyRaster w.1 w.2)) s) s
      s.updPart p (fun q => { q with rastWait := [] })

/-- R115. A write of the raster control block of any die of the partition. -/
def execRasterControlWrite (part off : Nat) (value : DWord) (s : State) : Out := .next (
  rasterPump (s.updPart part (fun q => { q with rastWait := q.rastWait ++ [(off, value)] })) part)

end Sys2Proof.Machine
end

