-- ==== Sys2Proof/Machine/Streams.lean ====
section
/-! DEFINITION. Code objects as the placer reads them, launch streams and records, completion, timeline counters and the fault queue
(R57 to R70, R93, R94, R263 to R267). -/

namespace Sys2Proof.Machine
open Sys2Proof

/-! Code objects (R263 to R267). -/

/-- n bytes that the placer of a home die reads for a purpose with these rights, in pieces that end at multiples of 64; those that lie outside the
package or at a home in reset once they have come (R15, R207). -/
def placerRead (u p home : Nat) (need : Need) : Nat → State → Nat → Nat → State × Except MStop (List Byte)
  | 0, s, _, _ => (s, .ok [])
  | f + 1, s, a, n =>
    if n = 0 then (s, .ok [])
    else
      let m := min n (64 - a % 64)
      let g : Agent := ⟨p, coreNo home 15 0, false, 0, none⟩
      match checkAddr s g (dw a) 1 need false with
      | .bad c => (s, .error (.cause c a 1))
      | .miss v => (s, .error (if s.badWalks.contains (u, v) then .cause .translation a 1 else .walk v))
      | .ok l =>
        match unitFetch (passAt s g a l) u home l.key m with
        | (s, .error e) => (s, .error e)
        | (s, .ok b) =>
          match placerRead u p home need f s (a + m) (n - m) with
          | (s, .ok r) => (s, .ok (b ++ r))
          | (s, .error e) => (s, .error e)

/-- n bytes at an address for the placer of a die, with R rights alone. -/
def placerBytes (s : State) (u p home a n : Nat) : State × Except MStop (List Byte) := placerRead u p home needPlacer (n / 64 + 2) s a n

/-- A role-table entry, its ENTRY as written (R265). -/
def roleOf (l : List Byte) : RoleEntry :=
  let v := leNat l
  ⟨bits v 7 0, v.testBit 29, bits v 31 30, v.testBit 32, v.testBit 33, v.testBit 34, BitVec.ofNat 5 (bits v 39 35), bits v 47 40,
    bits v 127 96, bits v 159 128, bits v 191 160⟩

/-- A role-table entry keeps R265 and R266. -/
def roleOk (cuique : Bool) (nrmaps : Nat) (l : List Byte) : Bool :=
  let v := leNat l
  let e := roleOf l
  bits v 255 192 == 0 && bits v 95 48 == 0 && bits v 28 8 == 0 && decide (8 ≤ e.nreg) && decide (e.nreg ≤ (if cuique then 126 else 128)) &&
    e.priv % 16 == 0 && decide (e.priv ≤ 2 ^ 20) && e.basin % 256 == 0 && decide (e.basin ≤ 0xB80000) && decide (e.rmap ≤ nrmaps) &&
    (if e.wave then !e.reach && e.rmap == 0 else !e.prim)

/-- A rill-map port word keeps R267. -/
def portOk (v : Nat) : Bool := bits v 31 14 == 0 && bits v 7 4 == 0

/-- Two byte ranges, empty ones aside, do not meet. -/
def apart (a b : Nat × Nat) : Bool := a.2 == 0 || b.2 == 0 || !meets a.1 a.2 b.1 b.2

/-- A header keeps R263. -/
def headerOk (h : List Byte) : Bool :=
  let f (i n : Nat) : Nat := sliceNat h i n
  let ver := f 4 1
  let size := f 12 4
  let parts := [(0, 64), (f 16 4, 32 * f 5 1), (f 20 4, 16 * f 24 1), (f 8 4, size)]
  f 0 4 == 0x54484B43 && [3, 2, 1, 0xCF].contains ver && decide (1 ≤ f 5 1) && decide (f 5 1 ≤ 16) && bits (f 6 2) 15 13 == 0 &&
    bits (f 6 2) 6 5 != 3 && f 8 4 % 256 == 0 && f 16 4 % 32 == 0 && f 20 4 % 16 == 0 && (h.drop 25).all (· == 0) &&
    (if ver = 0xCF then size % 4 == 0 && decide (4 ≤ size) && decide (size ≤ 2 ^ 26)
     else size % 2 == 0 && decide (2 ≤ size) && decide (size ≤ 2 ^ 28)) &&
    (parts.zipIdx).all (fun a => (parts.zipIdx).all (fun b => decide (b.2 ≤ a.2) || apart a.1 b.1))

/-- An object as read: its CodeObj, the translation of a Cuique region, and the bytes of its role table. -/
structure ObjRead where
  /-- The object. -/
  obj : CodeObj
  /-- Translation. -/
  tcode : Option TCode
  /-- Role table. -/
  table : List Byte

/-- The roles of a Cuique object with their translated entries and two more registers (R266, R271). -/
def cuiqueRoles (c : TCode) (l : List RoleEntry) : Option (List RoleEntry) :=
  l.mapM (fun e => (c.start e.entry).map (fun n => { e with entry := n, nreg := e.nreg + 2 }))

/-- An object that breaks a rule (R263). -/
def malformedAt (code : Nat) : MStop := .cause .illegal code 1

/-- An object from its header, tables and Cuique region; an error when it is malformed. -/
def makeObject (s : State) (p code : Nat) (h rt rm region : List Byte) : State × Except MStop ObjRead :=
  let f (i n : Nat) : Nat := sliceNat h i n
  let cuique := f 4 1 == 0xCF
  let rows := (List.range (f 5 1)).map (fun i => (rt.drop (32 * i)).take 32)
  let ports := (List.range (4 * f 24 1)).map (fun i => sliceNat rm (4 * i) 4)
  let rmaps := (List.range (f 24 1)).map (fun i => (List.range 4).map (fun j => BitVec.ofNat 32 (ports[4 * i + j]?.getD 0)))
  let roles := rows.map roleOf
  if !rows.all (roleOk cuique (f 24 1)) || !ports.all portOk then (s, .error (malformedAt code))
  else if cuique then
    match translate s.nextId p (code + f 8 4) (roles.map (·.entry)) region with
    | none => (s, .error (malformedAt code))
    | some c =>
      let c := { c with key := (knownKey s c).getD s.nextId }
      match cuiqueRoles c roles with
      | none => (s, .error (malformedAt code))
      | some roles =>
        ({ s with nextId := s.nextId + 1 },
          .ok ⟨⟨0xCF, BitVec.ofNat 16 (f 6 2), code + f 8 4, 2 * c.parcels.length, roles, rmaps, c.key⟩, some c, rt⟩)
  else if roles.all (fun e => decide (e.entry < f 12 4 / 2)) then
    (s, .ok ⟨⟨f 4 1, BitVec.ofNat 16 (f 6 2), code + f 8 4, f 12 4, roles, rmaps, 0⟩, none, rt⟩)
  else (s, .error (malformedAt code))

/-- A CODE OBJECT read and checked (R263 to R267): its header and tables, and a Cuique region, which the translator converts; an error when it is
unreadable or malformed, or has to be waited for. -/
def readObject (s : State) (u p home code : Nat) : State × Except MStop ObjRead :=
  if code % 256 ≠ 0 ∨ 2 ^ 55 ≤ code then (s, .error (malformedAt code))
  else match placerBytes s u p home code 64 with
    | (s, .error e) => (s, .error e)
    | (s, .ok h) =>
      if !headerOk h then (s, .error (malformedAt code))
      else
        let f (i n : Nat) : Nat := sliceNat h i n
        match placerBytes s u p home (code + f 16 4) (32 * f 5 1) with
        | (s, .error e) => (s, .error e)
        | (s, .ok rt) => match placerBytes s u p home (code + f 20 4) (16 * f 24 1) with
          | (s, .error e) => (s, .error e)
          | (s, .ok rm) => match placerBytes s u p home (code + f 8 4) (if f 4 1 = 0xCF then f 12 4 else 0) with
            | (s, .error e) => (s, .error e)
            | (s, .ok region) => makeObject s p code h rt rm region

/-! Stream areas (R57, R58, R64). -/

/-- Offset of stream n in the cistern of its home and mirror. -/
def streamOff (n : Nat) : Nat := 0x01E00000 + 0x8000 * n

/-- The dies that hold copies of a stream. [DEDUCED: log 82] -/
def Stream.copies (x : Stream) : List Nat := [x.home, x.mirror].dedup

/-- Word i of the record slots is full. -/
def Stream.isFull (x : Stream) (i : Nat) : Bool := (Table.get x.words i).isSome

/-- A word of a record slot written and full in every live copy. -/
def fillWord (s : State) (p n i : Nat) (v : Word) : State :=
  match s.part? p with
  | none => s
  | some q =>
    let s := (q.stream n).copies.foldl (fun (s : State) d =>
      let a := d * 2 ^ 46 + streamOff n + 4 * i
      { s with mem := writeBytes s.mem a 4 (v.setWidth 128), full := addFull s.full a }) s
    s.updStream p n (fun x => { x with words := Table.put x.words i v })

/-- A slot's 16 words emptied in every live copy. -/
def emptySlot (s : State) (p n slot : Nat) : State :=
  match s.part? p with
  | none => s
  | some q =>
    let s := (q.stream n).copies.foldl (fun (s : State) d =>
      let a := d * 2 ^ 46 + streamOff n + 64 * slot
      { s with full := s.full.filter (fun k => !(decide (a ≤ k) && decide (k < a + 64))) }) s
    s.updStream p n (fun x => { x with words := x.words.filter (fun e => e.1 / 16 != slot) })

/-- A completion entry written to every live copy. -/
def putEntry (s : State) (p n i : Nat) (e : BitVec 128) : State :=
  match s.part? p with
  | none => s
  | some q =>
    let s := (q.stream n).copies.foldl (fun (s : State) d =>
      { s with mem := writeBytes s.mem (d * 2 ^ 46 + streamOff n + 0x4000 + 16 * i) 16 e }) s
    s.updStream p n (fun x => { x with cq := Table.put x.cq i e })

/-- Every word and entry of a stream copied to a die that has become home or mirror (R65). -/
def copyStream (s : State) (p n die : Nat) : State :=
  match s.part? p with
  | none => s
  | some q =>
    let x := q.stream n
    let base := die * 2 ^ 46 + streamOff n
    let s : State := { s with mem := clearRange s.mem base (base + 0x8000),
                              full := s.full.filter (fun k => !(decide (base ≤ k) && decide (k < base + 0x8000))) }
    let s := x.words.foldl (fun (s : State) e =>
      { s with mem := writeBytes s.mem (base + 4 * e.1) 4 (e.2.setWidth 128), full := addFull s.full (base + 4 * e.1) }) s
    x.cq.foldl (fun (s : State) e => { s with mem := writeBytes s.mem (base + 0x4000 + 16 * e.1) 16 e.2 }) s

/-! Counters (R67, R70). -/

/-- A counter of a partition. -/
def Part.ctr (q : Part) (k : Nat) : DWord := Table.at q.ctrs k 0

/-- An operation on a counter: set, or add. -/
def ctrDo (s : State) (p : Nat) (add : Bool) (k : Nat) (v : DWord) : State :=
  match s.part? p with
  | none => s
  | some q =>
    let c := q.ctr k
    let put (w : DWord) (s : State) : State := s.updPart p (fun q => { q with ctrs := Table.put q.ctrs k w })
    if add then
      if 2 ^ 64 ≤ c.toNat + v.toNat then
        fqNote (put (BitVec.allOnes 64) s) p (fqBytes 5 0 0xFF 0 0 (leBytes 8 k ++ leBytes 8 v.toNat))
      else put (c + v) s
    else if v.ult c then fqNote s p (fqBytes 4 0 0xFF 0 0 (leBytes 8 k ++ leBytes 8 v.toNat ++ leBytes 8 c.toNat))
    else put v s

/-! Completion (R62, R63). -/

/-- Dirty bytes of a partition leave every L1: a release at sys. -/
def releaseAll (s : State) (p : Nat) : State := (s.l1.map (·.1)).foldl (fun s cl => l1Release s cl p) s

/-- Clean bytes of a partition leave every L1: an acquire at sys. -/
def acquireAll (s : State) (p : Nat) : State := (s.l1.map (·.1)).foldl (fun s cl => l1Acquire s cl p) s

/-- Completion entry n may be written: HOSTHEAD is at least n - 255. -/
def Stream.mayWrite (x : Stream) : Bool := decide ((x.done.toNat + 2 ^ 32 - x.hosthead.toNat) % 2 ^ 32 ≤ 255)

/-- The completion entry (R62). [DEDUCED: log 69] -/
def cqEntry (r : Rec) (n slot status detail clk : Nat) : BitVec 128 :=
  let w0 := bits (r.word 0) 31 16 + slot * 2 ^ 16 + (if r.rerun then 2 ^ 30 else 0) + ((n / 256 % 2 + 1) % 2) * 2 ^ 31
  BitVec.ofNat 128 (w0 + (status + detail % 2 ^ 24 * 2 ^ 8) * 2 ^ 32 + clk % 2 ^ 64 * 2 ^ 64)

/-- A LINK record of a partition for a port (R62). -/
def linkNote (s : State) (p port : Nat) : State := fqNote s p (fqBytes 9 0 (56 + port / 2) 0 0 (Config.openDetail 9 [port]))

/-- The copy of an entry posted to CQHOST, when the port takes it (R48, R50). Where a supervisor last wrote CQHOST and no endpoint port has the
function enabled, no rule names a port: the copy is discarded with a LINK record for port 0. [DEDUCED: log 69] [DESIGN CHOICE: log 100] -/
def postEntry (s : State) (p : Nat) (x : Stream) (e : BitVec 128) : State :=
  if x.cqhost = 0 then s
  else
    let port := match x.cqPort with
      | some k => some k
      | none =>
        let l : List Nat := ((s.part? p).map Part.functions).getD []
        (List.range 4).find? (fun k => l.contains k && !(s.port k).root)
    match port with
    | some k => if s.portOpen k then s.send (.posted k x.cqhost (leBytes 16 e.toNat) false) else linkNote s p k
    | none => linkNote s p 0

/-- A draw leaves the partition's list: void when it was never placed (R127). [DEDUCED: log 68] -/
def dropDraw (s : State) (p ord : Nat) : State :=
  match s.part? p, s.draw? p ord with
  | some q, some d =>
    let s := s.updPart p (fun q => { q with draws := q.draws.filter (fun x => x.ord != ord) })
    let s := if d.dies.isEmpty && decide (1 < q.dies.length) then sendClose s p (q.stream d.stream).home ord 255 else s
    let s := q.dies.foldl (fun s e => ((s.updRast e (fun r => { r with prims := r.prims.filter (fun x => x.ord != ord) })).later
      (.primitiveSetup e)).later (.mergeRelease e)) s
    rasterPump s p
  | _, _ => s

/-- The held completion of a stream that is written next: in the order in which records complete, but a record with SERIAL follows every earlier
one (R63). -/
def Stream.nextHeld (x : Stream) : Option (Nat × Nat × Nat) :=
  x.held.find? (fun h =>
    match x.recs.find? (fun r => r.slot == h.1) with
    | some r => !(r.word 0).testBit 10 || (x.recs.head?.map (·.slot)) == some h.1
    | none => true)

/-- The next held completion of a stream is written: entry, post, signal, empty slot (R62). -/
def finishRec (s : State) (p n : Nat) : State :=
  match s.part? p with
  | none => s
  | some q =>
    let x := q.stream n
    match x.nextHeld with
    | none => s
    | some (slot, status, detail) =>
      let rest := x.held.filter (fun h => h.1 != slot)
      match x.recs.find? (fun r => r.slot == slot) with
      | none => s.updStream p n (fun x => { x with held := rest })
      | some r =>
        let e := cqEntry r x.done.toNat slot status detail s.clk
        let s := putEntry (releaseAll s p) p n (x.done.toNat % 256) e
        let s := s.updStream p n (fun x => { x with done := x.done + 1, held := rest })
        let s := postEntry s p x e
        let s := if (r.word 0).testBit 7 then
            ctrDo s p ((r.word 1).testBit 24) (bits (r.word 1) 23 12) (BitVec.ofNat 64 (r.word2 4)) else s
        let s := emptySlot s p n slot
        let s := s.updStream p n (fun x => { x with recs := x.recs.filter (fun r => r.slot != slot) })
        match r.ord with
        | some o => dropDraw s p o
        | none => s

/-- A record's completion is decided: its entry waits for its turn (R63), and a rejection is recorded (R61). -/
def holdRec (s : State) (p n slot status detail : Nat) : State :=
  let s := s.updStream p n (fun x => { x with
    held := x.held ++ [(slot, status, detail)],
    recs := x.recs.map (fun r => if r.slot == slot then { r with status := some (status, detail) } else r) })
  if status = 1 then fqNote s p (fqBytes 7 0 0xFF 0 0 (leBytes 1 n ++ leBytes 1 slot ++ leBytes 1 detail)) else s

/-! A record's course (R93). -/

/-- A record changed. -/
def updRec (s : State) (p n slot : Nat) (f : Rec → Rec) : State :=
  s.updStream p n (fun x => { x with recs := x.recs.map (fun r => if r.slot == slot then f r else r) })

/-- Each group of a gang of the record can be placed on an empty cluster of some present die (R90, R198). -/
def groupsFit (s : State) (p : Nat) (r : Rec) : Bool :=
  (List.range r.gsize).all (fun g => (s.presentDies p).any (fun d => (planGroup s (d * 16) (r.groupRoles g) Occ.empty).isSome))

/-- Detail 4 (R61). [DEDUCED: log 67] -/
def detail4 (s : State) (p : Nat) (r : Rec) : Bool :=
  bits (r.word 0) 3 0 == 1 &&
    (r.gangs == 0 || r.roles.any (fun x => decide (11 < x.2.1) || x.2.2.1 == 0) || !groupsFit s p r)

/-- The next change that a record of stream n can make by itself, if any. -/
def recChange (s : State) (q : Part) (n : Nat) (x : Stream) (r : Rec) : Option State :=
  let type := bits (r.word 0) 3 0
  let first := (x.recs.head?.map (·.slot)) == some r.slot
  if r.status.isSome then none
  else match r.state with
    | .accepted =>
      if (r.word 0).testBit 10 && !first then none
      else if type = 3 ∧ r.fail.isNone then some (holdRec s q.id n r.slot 0 0)
      else some (updRec s q.id n r.slot (fun r => { r with state := .waiting }))
    | .waiting =>
      if (r.word 0).testBit 6 && decide ((q.ctr (bits (r.word 1) 11 0)).toNat < r.word2 2) then none
      else some (updRec s q.id n r.slot (fun r => { r with state := .ready }))
    | .ready =>
      match r.fail with
      | some d => some (holdRec s q.id n r.slot 1 d)
      | none =>
        if type = 2 then some (holdRec s q.id n r.slot 0 0)
        else if r.nextGang = 0 && r.offered.isEmpty && detail4 s q.id r then some (holdRec s q.id n r.slot 1 4)
        else none
    | _ => none

/-- The next change of any record of the partition. -/
def recStep (s : State) (p : Nat) : Option State :=
  (s.part? p).bind (fun q =>
    if !q.running || !s.homeUp q then none
    else q.streams.findSome? (fun e =>
      if e.2.nextHeld.isSome && e.2.mayWrite then some (finishRec s p e.1) else e.2.recs.findSome? (recChange s q e.1 e.2)))

/-- The records of a partition change as far as they can by themselves. -/
def settleGo (p : Nat) : Nat → State → State
  | 0, s => s
  | n + 1, s =>
    match recStep s p with
    | none => s
    | some s => settleGo p n s

/-- Records waiting to be placed. -/
def Part.offers (q : Part) : Bool :=
  q.streams.any (fun e => e.2.recs.any (fun r => r.status.isNone && (r.state == .ready || r.state == .running)))

/-- The records of a partition settle; those ready are offered at the next placement window. -/
def settleRecs (s : State) (p : Nat) : State :=
  let n := ((s.part? p).map (fun q => (q.streams.map (fun e => e.2.recs.length)).sum)).getD 0
  let s := settleGo p (6 * n + 1) s
  if ((s.part? p).map Part.offers).getD false then s.atOnce (nextMultiple (s.clk + 1) 64) .placementWindow else s

/-- A counter operation at its home, which waits while the home is in reset (R70); waiting records are tested again. -/
def ctrOp (s : State) (p : Nat) (add : Bool) (k : Nat) (v : DWord) : State :=
  match s.part? p with
  | none => s
  | some q =>
    if s.homeUp q then settleRecs (ctrDo s p add k v) p
    else s.updPart p (fun q => { q with homeWait := q.homeWait ++ [.counter add k v] })

/-! The fault queue (R69, R70). -/

/-- The SEQ of a record that has waited reaches whatever holds what stood for it: parked threads, fault table entries, and the FAULTED of records. -/
def resolveSeq (s : State) (p guess seq : Nat) : State :=
  let s := s.mapThreads (fun t =>
    match t.run with
    | .faulted f => if f.seq = guess then { t with run := .faulted { f with seq := seq } } else t
    | _ => t)
  let s := (s.partDies p).foldl (fun s d => s.updDie d (fun d => { d with ftab := d.ftab.map (fun x =>
    if x.2.seq == guess then (x.1, { x.2 with seq := seq }) else x) })) s
  s.updPart p (fun q => { q with streams := q.streams.map (fun e => (e.1, { e.2 with recs := e.2.recs.map (fun r =>
    if r.faulted == some guess then { r with faulted := some seq } else r) })) })

/-- A record that has waited is written. -/
def fqWritten (s : State) (q : Part) (w : FqWait) : State :=
  recheck (resolveSeq (fqWrite s q w.bytes) q.id w.guess q.fqSeq) q.id w.stream w.slot

/-- While there is space: a LOST record first, then the records that wait. -/
def fqPumpGo (p : Nat) : Nat → State → State
  | 0, s => s
  | n + 1, s =>
    match s.part? p with
    | none => s
    | some q =>
      if q.fqFull || !s.homeUp q then s
      else if q.fqDropped ≠ 0 then
        fqPumpGo p n ((fqWrite s q (fqBytes 11 0 0xFF 0 0 (leBytes 8 q.fqDropped))).updPart p (fun q => { q with fqDropped := 0 }))
      else match q.fqWait with
        | [] => s
        | w :: r => fqPumpGo p n ((fqWritten s q w).updPart p (fun q => { q with fqWait := r }))

/-- Records that wait are written as space allows. -/
def fqPump (s : State) (p : Nat) : State :=
  fqPumpGo p (((s.part? p).map (fun q => q.fqWait.length)).getD 0 + 2) s

/-- What waited for a counter home is done there: a record waits on, or is dropped and counted, while the queue is full. -/
def homeTake (p : Nat) (s : State) (o : HomeOp) : State :=
  match s.part? p, o with
  | some _, .counter add k v => ctrDo s p add k v
  | some q, .record w th =>
    if q.fqHolds th then s.updPart p (fun q => { q with fqWait := q.fqWait ++ [w] })
    else if q.fqFull then (resolveSeq s p w.guess 0xFFFFFF).updPart p (fun q => { q with fqDropped := q.fqDropped + 1 })
    else fqWritten s q w
  | none, _ => s

/-- Counter operations and records that waited for a home in reset, in the order of their arrival (R70); then records that wait for their
THREAD record are looked at again. -/
def homePump (s : State) (p : Nat) : State :=
  match s.part? p with
  | none => s
  | some q =>
    if !s.homeUp q then s
    else
      let s := fqPump (s.updPart p (fun q => { q with homeWait := [] })) p
      let s := q.homeWait.foldl (homeTake p) s
      settleRecs (q.streams.foldl (fun s e => e.2.recs.foldl (fun s r => recheck s p e.1 r.slot) s) s) p

/-- A host access to a function of a partition in reset receives Unsupported Request (R49). -/
def inFunction (s : State) (p : Nat) (k : State) : State :=
  match s.part? p with
  | none => s.send (.unsupported 0)
  | some q => if q.running then k else s.send (.unsupported (q.functions.headD 0))

/-- R69. FQHEAD written by the host or a supervisor. -/
def execFqheadWrite (part : Nat) (value : Word) (s : State) : Out := .next (
  inFunction s part (fqPump (s.updPart part (fun q => { q with fqHead := value })) part))

/-- R67. The host sets a counter. -/
def execTimelineSet (part ctr : Nat) (value : DWord) (s : State) : Out := .next (
  inFunction s part (ctrOp s part false (ctr % 4096) value))

/-- R67. The host adds to a counter. -/
def execTimelineAdd (part ctr : Nat) (value : DWord) (s : State) : Out := .next (
  inFunction s part (ctrOp s part true (ctr % 4096) value))

/-! Acceptance (R59 to R61). -/

/-- The words of a slot. -/
def Stream.slotWords (x : Stream) (slot : Nat) : Vector Word 16 := Vector.ofFn (fun i => Table.at x.words (16 * slot + i.val) 0)

/-- Details 1 to 3 (R61). [DEDUCED: log 67] -/
def detail123 (x : Stream) (slot : Nat) (r : Rec) : Option Nat :=
  let type := bits (r.word 0) 3 0
  let used := r.nroles
  let roleBad := (List.range 4).any (fun i =>
    if i < used then bits (r.word (12 + i)) 31 22 != 0 else r.word (12 + i) != 0)
  if (List.range 15).any (fun i => !x.isFull (16 * slot + i)) then some 1
  else if type = 0 ∨ 3 < type ∨ bits (r.word 0) 15 11 ≠ 0 ∨ bits (r.word 1) 31 25 ≠ 0 then some 2
  else if type ≠ 1 then none
  else if bits (r.word2 6) 63 55 ≠ 0 ∨ bits (r.word 10) 31 24 ≠ 0 ∨ bits (r.word 11) 31 17 ≠ 0 ∨ roleBad then some 2
  else if (r.word 11).testBit 16 ∧ (bits (r.word 11) 15 13 ≠ 0 ∨ bits (r.word 11) 6 5 = 3) then some 3
  else none

/-- Gangs that fit a die when it is empty, at most n. -/
def gangsOn (s : State) (r : Rec) (die : Nat) (avoid : Nat) : Nat → Occ → Nat
  | 0, _ => 0
  | n + 1, o =>
    match (List.range 12).findSome? (fun k =>
      if (List.range r.gsize).any (fun g => avoid.testBit (k + g)) then none else planGang s r die k o) with
    | none => 0
    | some (_, o) => 1 + gangsOn s r die avoid n o

/-- Clusters of a die that PIXCL reserves (R116). -/
def pixClusters (s : State) (die : Nat) : Nat :=
  let c := (s.rast die).control.toNat
  if c.testBit 0 then bits c 31 20 else 0

/-- Detail 7: the gangs of a resident grid do not all fit the present dies when those are empty. -/
def residentFits (s : State) (p : Nat) (r : Rec) : Bool :=
  decide (r.gangs ≤ ((s.presentDies p).map (fun d => gangsOn s r d (pixClusters s d) (min r.gangs 192) Occ.empty)).sum)

/-- A LAUNCH record on the raster stream whose first role is a primitive role, while the raster is enabled (R118). -/
def isDraw (s : State) (home n : Nat) (r : Rec) (o : CodeObj) : Bool :=
  let ctl := (s.rast home).control.toNat
  ((o.roles[bits (r.word 12) 3 0]?).map (·.prim)).getD false && ctl.testBit 0 && bits ctl 13 8 == n

/-- The checks of a LAUNCH record that need its object: details 5 to 7. -/
def detail567 (s : State) (p home n : Nat) (r : Rec) (o : CodeObj) : Option Nat :=
  let used := (List.range r.nroles).map (fun i => bits (r.word (12 + i)) 3 0)
  let prim := ((o.roles[used.headD 0]?).map (·.prim)).getD false
  if used.any (fun i => decide (o.roles.length ≤ i)) || (prim && !isDraw s home n r o) then some 5
  else if r.roles.any (fun x => !x.2.2.2.wave && x.2.2.2.reach && decide (24 < x.2.2.2.nreg)) then some 6
  else if (r.word 0).testBit 5 && !residentFits s p r then some 7
  else none

/-- What acceptance finds of a record: a failure that it keeps, its object, and whether it is a draw; or what its object has to wait for. A draw
is one whatever else fails (R118). -/
def inspect (s : State) (p n : Nat) (x : Stream) (r : Rec) : State × Except MStop (Rec × Bool) :=
  let d := detail123 x r.slot r
  if bits (r.word 0) 3 0 ≠ 1 then (s, .ok ({ r with fail := d }, false))
  else match readObject s (placerUnit p n) p x.home (r.word2 6) with
    | (s, .error e) => if e.final then (s, .ok ({ r with fail := d.orElse (fun _ => some 5) }, false)) else (s, .error e)
    | (s, .ok o) =>
      let r := { r with obj := some o.obj, tcode := o.tcode }
      (s, .ok ({ r with fail := d.orElse (fun _ => detail567 s p x.home n r o.obj) }, isDraw s x.home n r o.obj))

/-- The translation of a record's Cuique object is asked for on every die that may run it (R270). -/
def askAll (s : State) (p : Nat) (r : Rec) : State :=
  match r.tcode, r.fail with
  | some c, none => (s.presentDies p).foldl (fun s e => askTranslation s e c (c.starts.length * 4)) s
  | _, _ => s

/-! Mirroring (R64, R75). -/

/-- Budgets that a write to a stream's area, or a change of a record's state, is charged to: the flits of each link that it crosses on MIRROR to
the live copies and the service die, and a cycle of the cistern bank for each 64 bytes there. [DEDUCED: log 80] -/
def mirrorBudgets (s : State) (p n src off len : Nat) : List (Nat × Nat × Nat) :=
  let dies := (((s.part? p).map (fun q => q.stream n)).map Stream.copies).getD []
  let links := (dies ++ [60]).flatMap (linksCrossed src)
  links.dedup.map (fun m => (2 ^ 24 + m, links.count m * ((len + 103) / 104), 9600)) ++
    dies.map (fun d => (2 ^ 25 + d * 32 + homeChannel (streamOff n + off), (len + 63) / 64, 100))

/-- The record in slot HEAD is accepted (R59): copied, marked in every live copy, HEAD advanced, and checked. It is not accepted yet while its
object has to be waited for, or while the mirroring budget is spent (R75). Answers whether it was. -/
def acceptOne (s : State) (p n : Nat) : State × Bool :=
  match s.part? p with
  | none => (s, false)
  | some q =>
    let x := q.stream n
    let slot := x.head
    let r : Rec := ⟨slot, x.slotWords slot, x.nacc, .accepted, none, none, 0, 0, 0, [], none, none, false, none, none, none, none⟩
    match inspect (acquireAll s p) p n x r with
    | (s, .error e) => (askUnit s (placerUnit p n) x.home p e, false)
    | (s, .ok (r, draw)) =>
      let charge := mirrorBudgets s p n x.home (64 * slot) 1
      match spend s charge with
      | none => (defer s (charge.map (·.1)) (.recordAccept p n), false)
      | some s =>
        let s := askAll (forgetUnit s (placerUnit p n)) p r
        let o := (s.rast x.home).nextOrd
        let s := if draw then
          q.dies.foldl (fun s e => s.updRast e (fun r => { r with nextOrd := ordNext o }))
            (s.updPart p (fun q => { q with draws := q.draws ++ [(⟨o, n, slot, [], [], [], none, []⟩ : Draw)] })) else s
        (s.updStream p n (fun x => { x with
          head := (slot + 1) % 256, nacc := x.nacc + 1, recs := x.recs ++ [{ r with ord := if draw then some o else none }] }), true)

/-- The placer of the home die finds word 15 of slot HEAD full. -/
def acceptable (s : State) (p n : Nat) : Bool :=
  match s.part? p with
  | none => false
  | some q =>
    let x := q.stream n
    x.en && q.running && !(s.die x.home).inReset && x.isFull (16 * x.head + 15) && !x.recs.any (fun r => r.slot == x.head)

/-- Records are accepted while one is there. -/
def acceptAll (p n : Nat) : Nat → State → State
  | 0, s => s
  | k + 1, s =>
    if acceptable s p n then
      match acceptOne s p n with
      | (s, true) => acceptAll p n k s
      | (s, false) => s
    else s

/-- R59. The placer accepts what stands at HEAD; the records then take their course. -/
def execRecordAccept (part stream : Nat) (s : State) : Out := .next (settleRecs (acceptAll part stream 256 s) part)

/-! Host writes to stream areas (R58, R64). -/

/-- A write to a stream's area applied to every live copy: whole empty words become full; any other write is discarded whole with a
HOSTERR record. [DEDUCED: log 79] -/
def applyStreamWrite (s : State) (p n off : Nat) (data : List Byte) : State :=
  match s.part? p with
  | none => s
  | some q =>
    let x := q.stream n
    let bad (o : Nat) : State :=
      if o < 0x4000 then hosterr s p n (o / 64) (o / 4 % 16) 0 0 0 else hosterr s p 255 255 255 1 (0x8000 * n + o) 0
    let words := (List.range (data.length / 4)).map (fun i => (off / 4 + i, BitVec.ofNat 32 (sliceNat data (4 * i) 4)))
    if 0x4000 < off + data.length then bad (max off 0x4000)
    else if off % 4 ≠ 0 then bad off
    else if data.length % 4 ≠ 0 then bad (off + data.length)
    else match words.find? (fun w => x.isFull w.1) with
      | some w => bad (4 * w.1)
      | none => (words.foldl (fun s w => fillWord s p n w.1 w.2) s).later (.recordAccept p n)

/-- The IO die on which a partition's writes arrive, when no port is named: that of the lowest-numbered port of its function. -/
def ioOfPart (s : State) (p : Nat) : Nat := 56 + (((s.part? p).map Part.functions).getD []).foldl min 4 % 4 / 2

/-- R64. A stream write arrives on MIRROR for the live copies; it waits for the next period when the mirroring budget is spent. -/
def execMirrorWrite (part stream off : Nat) (data : List Byte) (s : State) : Out := .next (
  budgeted s (mirrorBudgets s part stream (ioOfPart s part) off data.length) (.mirrorWrite part stream off data)
    (fun s => applyStreamWrite s part stream off data) (fun s => s))

/-- A host access through a port reaches a function of a running partition (R49, R50). -/
def hostReaches (s : State) (p port : Nat) : Bool :=
  match s.part? p with
  | none => false
  | some q => q.running && q.functions.contains port && !(s.port port).root && s.portOpen port

/-- The port of a request, for the order of R52. -/
def requestPort : Event → Option Nat
  | .hostMemoryWrite _ k _ _ | .hostMemoryRead _ k _ _ | .hostStreamWrite _ k _ _ | .upstreamRequest k _ _ _ _
  | .hostControlWrite _ k _ _ | .hostRead _ k _ _ _ | .managementBarAccess ⟨k, _⟩ _ _ _ _ => some k
  | _ => none

/-- The die for which a request of this port is held; later requests of the port wait behind it (R52). [DEDUCED: log 86] -/
def State.portHeld (s : State) (port : Nat) : Option Nat :=
  s.heldMsgs.findSome? (fun m => if requestPort m.event = some port then some m.die else none)

/-- The budget key of a port: later requests of it wait behind one that is deferred (R52). -/
def portKey (port : Nat) : Nat := 2 ^ 26 + port

/-- REQUESTS OF A PORT keep their order (R52): one waits behind an earlier one that is held or deferred. [DEDUCED: log 86] -/
def inOrder (s : State) (port : Nat) (e : Event) (go : Out) : Out :=
  match s.portHeld port with
  | some d => .next (holdMessage s d e)
  | none => if s.deferred.any (fun x => x.1.contains (portKey port)) then .next (defer s [portKey port] e) else go

/-- A host write to BAR2 as it is performed. [DEDUCED: log 79] -/
def hostStream (s : State) (part port off : Nat) (data : List Byte) : State :=
  if 0x200000 < off + data.length ∨ 0x8000 < off % 0x8000 + data.length then hosterr s part 255 255 255 1 off 0
  else
    budgeted s (mirrorBudgets s part (off / 0x8000) (56 + port / 2) (off % 0x8000) data.length ++ [(portKey port, 0, 0)])
      (.hostStreamWrite part port off data) (fun s => applyStreamWrite s part (off / 0x8000) (off % 0x8000) data) (fun s => s)

/-- R58. A host write to BAR2. -/
def execHostStreamWrite (part port off : Nat) (data : List Byte) (s : State) : Out :=
  if !hostReaches s part port then .next (s.send (.unsupported port))
  else inOrder s port (.hostStreamWrite part port off data) (.next (hostStream s part port off data))

/-! Cancel, HOSTHEAD, completion (R62, R66, R94). -/

/-- R66. Records not yet started complete CANCELLED, in order. -/
def execStreamCancel (part stream : Nat) (s : State) : Out := .next (
  match s.part? part with
  | none => s
  | some q =>
    let l := ((q.stream stream).recs.filter (fun r => r.status.isNone &&
      (r.state == .accepted || r.state == .waiting || r.state == .ready))).map (·.slot)
    settleRecs (l.foldl (fun s k => holdRec s part stream k 4 0) s) part)

/-- R62. HOSTHEAD written: completion entries that it held may be written. -/
def execHostheadWrite (part stream : Nat) (value : Word) (s : State) : Out := .next (
  settleRecs (s.updStream part stream (fun x => { x with hosthead := value })) part)

/-- A record's work has ended (R94, R128): no thread, access, mover command or context of it is left, every THREAD record is written,
and every die has released and applied its draw. -/
def workEnded (s : State) (p n slot : Nat) (r : Rec) : Bool :=
  let mine (t : Thread) : Bool := t.ofRecord && t.part == p && t.stream == n && t.slot == slot
  !(s.th :: s.threads).any (fun t => mine t && (t.live || s.outstanding t.uid)) &&
    !s.cores.any (fun c => c.2.movers.any (fun m => m.poster.ofRecord && m.poster.part == p && m.poster.stream == n && m.poster.slot == slot)) &&
    !((s.part? p).map (fun q => q.fqWait.any (fun w => w.bytes.head? == some 1 && w.stream == n && w.slot == slot) ||
        q.homeWait.any (fun o => match o with | .record w th => th && w.stream == n && w.slot == slot | _ => false))).getD false &&
    decide (r.faulted.getD 0 < 2 ^ 64) &&
    (match r.ord.bind (s.draw? p) with
      | none => true
      | some d => d.dies.all (fun e => d.gone.contains e || (drawEnded s p e d.ord && (pixelGroups s p d e).isEmpty &&
          !(s.rast e).exports.any (fun x => x.ord == d.ord))))

/-- R62. A record whose work has ended completes. -/
def execRecordComplete (part stream slot : Nat) (s : State) : Out := .next (
  match s.rec? part stream slot with
  | none => s
  | some r =>
    if r.state != .ending || r.status.isSome || !workEnded s part stream slot r then s
    else
      settleRecs (match r.lost, r.faulted with
        | some k, _ => holdRec s part stream slot 2 k
        | none, some d => holdRec s part stream slot 3 (d % 2 ^ 24)
        | none, none => holdRec s part stream slot 0 0) part)

end Sys2Proof.Machine
end

