-- ==== Sys2Proof/Machine/Launch.lean ====
section
/-! DEFINITION. Placing a gang: where it fits, its rills, its threads' first values, and the start of a draw (R87 to R90, R98,
R116 to R120, R151, R198, R267, R419). -/

namespace Sys2Proof.Machine
open Sys2Proof

/-! Rill maps (R151, R267). -/

/-- A rill port that a role claims on a core: direction, side (0 north, 1 east, 2 south, 3 west) and owner. -/
structure Claim where
  /-- Core. -/
  core : Nat
  /-- Port. -/
  port : Nat
  /-- Out port. -/
  out : Bool
  /-- Side of the neighbour. -/
  side : Nat
  /-- Role of the owner. -/
  role : Nat
  /-- Thread number of the owner. -/
  tid : Nat
  deriving DecidableEq, Repr

/-- Slot of a place. -/
def slotOf (p : Place) : Nat := match p with | .swarm _ k => k | .wave _ _ k => k | _ => 0

/-- Core of a place. -/
def coreOf (p : Place) : Nat := match p with | .swarm c _ => c | .wave c _ _ => c | .transit c => c | .nowhere => 0

/-- Numbers in rising order. -/
def insertBy (f : ThreadPlan → Nat) (x : ThreadPlan) : List ThreadPlan → List ThreadPlan
  | [] => [x]
  | y :: r => if f x < f y then x :: y :: r else y :: insertBy f x r

/-- The claims of a role's map on one core; none when an OWNER names no thread there. -/
def claimsAt (ports : List Word) (role core : Nat) (l : List ThreadPlan) : Option (List Claim) :=
  let own := (l.filter (fun t => t.role == role && coreOf t.place == core)).foldl (fun r t => insertBy (fun x => slotOf x.place) t r) []
  ((ports.zipIdx).filter (fun w => w.1.getLsbD 0)).mapM (fun w =>
    (own[bits w.1.toNat 13 8]?).map (fun t => (⟨core, w.2, w.1.getLsbD 1, bits w.1.toNat 3 2, role, t.tid⟩ : Claim)))

/-- The claims of a group's roles; none when a map is at fault. -/
def claimsOf (o : CodeObj) (roles : List (Nat × Nat × RoleEntry)) (l : List ThreadPlan) : Option (List Claim) :=
  ((roles.filter (fun r => r.2.2.rmap != 0)).mapM (fun r =>
    (((l.filter (fun t => t.role == r.1)).map (fun t => coreOf t.place)).dedup.mapM (fun c =>
      claimsAt ((o.rmaps[r.2.2.rmap - 1]?).getD []) r.1 c l)).map List.flatten)).map List.flatten

/-- The neighbour of a swarm core on a side, if there is one. -/
def neighbour (c side : Nat) : Option Nat :=
  let j := coreIdx c
  match side with
  | 0 => if 8 ≤ j then some (c - 8) else none
  | 1 => if j % 8 < 7 then some (c + 1) else none
  | 2 => if j < 24 then some (c + 8) else none
  | _ => if 0 < j % 8 then some (c - 1) else none

/-- Every claim joined to the one claim of its neighbour on the opposite side and of the other direction; none when a neighbour is
missing, the two ends disagree, or two roles claim one port. -/
def joinClaims (l : List Claim) : Option (List (Claim × Nat × Nat)) :=
  l.mapM (fun x =>
    let own := l.filter (fun y => y.core == x.core && (y.port == x.port || (y.side == x.side && y.out == x.out)))
    match neighbour x.core x.side with
    | none => none
    | some c =>
      match l.filter (fun y => y.core == c && y.side == (x.side + 2) % 4 && y.out != x.out), own with
      | [y], [_] => some (x, c, y.port)
      | _, _ => none)

/-- What the rill maps of a gang's groups say. -/
inductive RillPlan where
  /-- A rule of R151 is broken. -/
  | bad
  /-- A core's rills are held by another gang. -/
  | busy
  /-- The joined claims of each group. -/
  | wires (l : List (List (Claim × Nat × Nat)))
  deriving DecidableEq, Repr

/-- The rills of planned groups; held names cores that a gang planned with them takes. -/
def rillPlan (s : State) (held : List Nat) (r : Rec) (gs : List GroupPlan) : RillPlan :=
  match r.obj with
  | none => .wires []
  | some o =>
    match (gs.zipIdx).mapM (fun g => (claimsOf o (r.groupRoles g.2) g.1.threads).bind joinClaims) with
    | none => .bad
    | some l => if l.any (fun g => g.any (fun x => held.contains x.1.core || !(s.core x.1.core).wires.isEmpty)) then .busy else .wires l

/-! Where a gang fits (R98). -/

/-- A placement found for a gang: first cluster of the die, groups and rills; bad when R151 rejects it. -/
structure Fit where
  /-- Die. -/
  die : Nat
  /-- First cluster. -/
  k : Nat
  /-- Groups. -/
  groups : List GroupPlan
  /-- Rills of each group. -/
  wires : List (List (Claim × Nat × Nat))
  /-- Rejected by R151. -/
  bad : Bool
  deriving DecidableEq, Repr

/-- The lowest cluster of a die at which a gang of the record fits what is taken. [DEDUCED: log 39] -/
def fitGang (s : State) (r : Rec) (die avoid : Nat) (held : List Nat) (o : Occ) : Option (Fit × Occ) :=
  (List.range 12).findSome? (fun k =>
    if (List.range r.gsize).any (fun g => avoid.testBit (k + g)) then none
    else
      match planGang s r die k o with
      | none => none
      | some (gs, o) =>
        match rillPlan s held r gs with
        | .busy => none
        | .bad => if r.nextGang = 0 then some (⟨die, k, gs, [], true⟩, o) else none
        | .wires w => some (⟨die, k, gs, w, false⟩, o))

/-- The translated code of a record's Cuique object is in the cache of a die (R270). -/
def codeReady (s : State) (die : Nat) (r : Rec) : Bool :=
  let key := (r.obj.map CodeObj.tkey).getD 0
  key == 0 || (s.die die).tcache.any (fun c => c.key == key)

/-! First values of threads (R419). -/

/-- i7 of a Cuique thread (R271): BASE N, BOUND 2. -/
def scratchIndex (n : Nat) : Word := BitVec.ofNat 32 (n + 2 * 128)

/-- The first registers of a thread: ARGS and %tid. -/
def firstRegs (args : DWord) (tid : Nat) : Vector Word 128 :=
  ((Vector.replicate 128 (0 : Word)).setIfInBounds 0 (args.setWidth 32)).setIfInBounds 1 (args.extractLsb' 32 32) |>.setIfInBounds 2
    (BitVec.ofNat 32 tid)

/-- The thread of a plan with its first values. -/
def firstThread (uid at_ : Nat) (o : CodeObj) (e : RoleEntry) (args : DWord) (t : ThreadPlan) : Thread :=
  { Thread.reset with
    uid := uid, run := if t.absent then .absent else .ready, place := t.place, g := firstRegs args t.tid
    idx := if o.version = 0xCF then (Vector.replicate 8 (0 : Word)).setIfInBounds 7 (scratchIndex (e.nreg - 2)) else Vector.replicate 8 0
    pc := BitVec.ofNat 32 e.entry, count := e.nreg, base := t.base, version := BitVec.ofNat 8 o.version, compat := o.compat
    fxen := e.fxen, reach := e.reach, prio := e.prio, prim := e.prim, codeVA := o.codeVA, bound := o.size / 2, tkey := o.tkey
    privSize := e.priv, role := t.role, tid := t.tid, args := args, homeCore := coreOf t.place, readyAt := at_, parkedAt := at_ }

/-- Private base and basin offset of each role of a group, by role number. -/
def shares (base : Nat) : List (Nat × Nat × RoleEntry) → List (Nat × Nat) → List (Nat × Nat × Nat)
  | [], _ => []
  | r :: rs, l => (r.1, (l.headD (0, 0)).1, if r.2.2.basin = 0 then 0 else base) :: shares (base + r.2.2.basin) rs (l.drop 1)

/-- A basin offset of part 0 in .i256 mode of a local-memory byte of a swarm core (R196). -/
def i256Of (core off : Nat) : Nat := off / 256 * 8192 + coreIdx core * 256 + off % 256

/-- A key lies in a basin range of a cluster. -/
def inBasin (cluster base size k : Nat) : Bool :=
  match keyCore k with
  | some c =>
    let x := i256Of c (k - localKey c 0)
    c / 64 == cluster && decide (coreIdx c < 32) && decide (base ≤ x) && decide (x < base + size)
  | none => false

/-- What all threads of a group of a record share. -/
structure Seat where
  /-- Gang. -/
  gang : Gang
  /-- Group identity. -/
  gid : Nat
  /-- Group index. -/
  gidx : Nat
  /-- Run number. -/
  run : Nat
  /-- Slice bounds. -/
  slice : Nat × Nat
  deriving DecidableEq, Repr

/-- A thread of a seat. -/
def seatThread (x : Seat) (sh : List (Nat × Nat × Nat)) (t : Thread) : Thread :=
  let own := (sh.find? (fun e => e.1 == t.role)).getD (0, 0, 0)
  { t with
    part := x.gang.part, grp := x.gid, gang := x.gang.id, gangIdx := x.gang.index, gidx := x.gidx, stream := x.gang.stream
    slot := x.gang.slot, runNo := x.run, ofRecord := true, dslo := BitVec.ofNat 32 x.slice.1, dshi := BitVec.ofNat 32 x.slice.2
    privBase := own.2.1, basin := BitVec.ofNat 32 own.2.2 }

/-- A GROUP placed: its threads, its uniform sets at zero, its basin words empty with their data left, its rills wired, and an acquire
of its cluster's L1 (R87, R200, R234). -/
def placeGroup (s : State) (o : CodeObj) (x : Seat) (roles : List (Nat × Nat × RoleEntry)) (args : DWord) (at_ : Nat) (g : GroupPlan)
    (w : List (Claim × Nat × Nat)) (pixel : Option (List Bool × List Nat)) : State :=
  let base := s.nextId
  let sh := shares g.basin.1 roles g.backing
  let ts := (g.threads.zipIdx).filterMap (fun t => (roles.find? (fun r => r.1 == t.1.role)).map (fun r =>
    seatThread x sh (firstThread (base + t.2) at_ o r.2.2 args t.1)))
  let grp : Group := ⟨x.gid, x.gang.id, x.gang.part, x.gidx, roles.any (fun r => !r.2.2.wave), roles.any (fun r => r.2.2.wave), [],
    g.basin, g.backing, [], pixel, none, 0⟩
  let s : State := { s with nextId := base + g.threads.length, threads := s.threads ++ ts, groups := s.groups ++ [grp],
                            full := s.full.filter (fun k => !inBasin g.cluster g.basin.1 g.basin.2 k) }
  let s := w.foldl (fun (s : State) y =>
    let owner := ((ts.find? (fun t => t.role == y.1.role && t.tid == y.1.tid)).map Thread.uid).getD 0
    s.updCore y.1.core (fun c => { c with wires := c.wires ++ [⟨y.1.port, y.1.out, y.2.1, y.2.2, owner, x.gang.id⟩] })) s
  l1Acquire s g.cluster x.gang.part

/-- The object of a record with the compatibility word that holds for its threads (R60). -/
def Rec.running (r : Rec) : Option CodeObj :=
  r.obj.map (fun o => if (r.word 11).testBit 16 then { o with compat := BitVec.ofNat 16 (bits (r.word 11) 15 0) } else o)

/-- ARGS of a record. -/
def Rec.args (r : Rec) : DWord := BitVec.ofNat 64 (r.word2 8)

/-- A GANG placed where it fits, its threads ready at a clk (R96, R98). -/
def placeGang (s : State) (p st : Nat) (r : Rec) (f : Fit) (index at_ : Nat) (drained : Bool) : State :=
  match r.running with
  | none => s
  | some o =>
    let run := if r.nextGang = 0 then r.run + 1 else r.run
    let cls := (((s.part? p).map (fun q => q.stream st)).map Stream.cls).getD 0
    let gang : Gang := ⟨s.nextId, p, st, r.slot, index, f.die, f.k, f.groups.length, cls, .resident, false, drained, false, []⟩
    let slice := ((r.ord.bind (s.draw? p)).bind (fun d => d.slice f.die)).getD (0, 0)
    let s : State := { s with nextId := s.nextId + 1, gangs := s.gangs ++ [gang] }
    let s := (f.groups.zipIdx).foldl (fun (s : State) g =>
      let gid := s.nextId * 8192 + (g.1.cluster * 16 + g.1.entry)
      placeGroup { s with nextId := s.nextId + 1 } o ⟨gang, gid, g.2, run, slice⟩ (r.groupRoles g.2) r.args at_ g.1
        ((f.wires[g.2]?).getD []) none) s
    let s := match r.ord with
      | none => s
      | some o => s.updPart p (fun q => { q with draws := q.draws.map (fun d =>
          if d.ord == o then { d with next := Table.put d.next f.die (index + d.dies.length) } else d) })
    updRec s p st r.slot (fun r => { r with state := .running, run := run, nextGang := r.nextGang + 1 })

/-! The start of a draw (R119, R120, R124). -/

/-- A draw descriptor breaks a rule of R119. [DEDUCED: log 39, 40] -/
def descBad (s : State) (p : Nat) (o : CodeObj) (d : Draw) : Bool :=
  let f := d.field
  let cfmt := f 20 1
  let dfmt := f 21 1
  let flags := f 7 1
  let reserved := flags.testBit 7 || f 23 1 != 0 || f 41 7 != 0 || f 72 56 != 0 || bits (f 22 1) 7 4 != 0 || (f 34 1).testBit 7 ||
    bits (f 35 1) 7 3 != 0 || bits (f 39 2) 15 12 != 0
  let colour := decide (1 ≤ cfmt) && decide (cfmt ≤ 6)
  let depth := decide (16 ≤ dfmt) && decide (dfmt ≤ 18)
  let factors := [f 32 1 % 16, f 32 1 / 16, f 33 1 % 16, f 33 1 / 16].all (fun x => decide (x ≤ 11))
  let ops := decide (bits (f 34 1) 2 0 ≤ 4) && decide (bits (f 34 1) 5 3 ≤ 4)
  let assigned := (f 6 1 == 1 || f 6 1 == 4) && decide (f 5 1 ≤ 28) && factors && ops && (dfmt == 0 || depth) &&
    (colour || (f 8 8 == 0 && (cfmt == 0 || (decide (16 ≤ cfmt) && decide (cfmt ≤ 18)))))
  let dim (n : Nat) : Bool := n == 0 || decide (16384 < n)
  let role := match o.roles[f 4 1]? with | some e => e.wave | none => false
  let own := ((s.partDies p).head?.map (fun e => (s.rast e).owner.toList)).getD []
  reserved || !assigned || dim (f 16 2) || dim (f 18 2) || f 8 8 % 256 != 0 || (dfmt != 0 && f 24 8 % 256 != 0) || !role ||
    ((flags.testBit 4 || flags.testBit 6) && dfmt == 0) || (flags.testBit 5 && dfmt != 17 && dfmt != 18) ||
    own.any (fun b => !(s.presentDies p).contains b.toNat)

/-- What the start of a draw finds. -/
inductive DrawStart where
  /-- It may start, or has started. -/
  | ready
  /-- It is rejected with this detail. -/
  | bad (detail : Nat)
  /-- Its descriptor has to be waited for. -/
  | wait (e : MStop)
  deriving DecidableEq, Repr

/-- THE START OF A DRAW, when it goes from READY to RUNNING: its descriptor, its dies and slices, and the watermarks that tell where
each slice starts; or why it does not start. -/
def startDraw (s : State) (p st : Nat) (r : Rec) (ord : Nat) : State × DrawStart :=
  match s.part? p, s.draw? p ord, r.running with
  | some q, some d, some o =>
    let u := placerUnit p (64 + st)
    if !d.dies.isEmpty then (s, .ready)
    else match placerBytes s u p (q.stream st).home (r.word2 8) 128 with
      | (s, .error e) => (s, if e.final then .bad 2 else .wait e)
      | (s, .ok b) =>
        let s := forgetUnit s u
        let dies := s.presentDies p
        let d := { d with desc := b, dies := dies, next := (dies.zipIdx), pixRole := o.roles[sliceNat b 4 1]? }
        if descBad s p o d then (s, .bad 2)
        else if r.gangs % dies.length ≠ 0 then (s, .bad 4)
        else
          let s := s.updPart p (fun q => { q with draws := q.draws.map (fun x => if x.ord == ord then d else x) })
          let s := dies.foldl (fun s e =>
            let sl := (d.slice e).getD (0, 0)
            let idle := (s.rast e).slices.isEmpty
            let s := s.updRast e (fun r => { r with slices := r.slices ++ [⟨ord, sl.1, sl.2⟩], bound := if idle then (ord, sl.1) else r.bound })
            (sendWatermark s e none).later (.primitiveSetup e)) s
          (dies.foldl (fun (s : State) e => s.atOnce (s.clk + 256) (.watermarkPeriod e)) s, .ready)
  | _, _, _ => (s, .bad 2)

/-- A draw that is offered next waits for its descriptor, or for the placement of what precedes it (R115, R118, R119). -/
def drawWaits (s : State) (p st : Nat) (r : Rec) : Option MStop :=
  r.ord.bind (fun o =>
    match (startDraw s p st r o).2 with
    | .wait e => some e
    | _ => none)

/-! Pixel groups (R131). -/

/-- A pixel group is wanted: a quad waits and no placed group of its draw takes it. Its draw. -/
def pixelWanted (s : State) (p die : Nat) : Option Draw :=
  match (s.rast die).quads with
  | [] => none
  | q :: _ =>
    match s.draw? p q.ord with
    | none => none
    | some d => if (openWave s p d die).isSome then none else some d

/-- Role word index of a pixel group (R131). -/
def pixelRoleNo : Nat := 15

/-- A PIXEL GROUP placed on the lowest-numbered PIXCL cluster on which it fits: one team of absent lanes that quads will fill. -/
def placePixel (s : State) (p die : Nat) (d : Draw) : Option State :=
  match s.rec? p d.stream d.slot, d.pixRole with
  | some r, some e =>
    if !codeReady s die r then none
    else
    let roles := [(pixelRoleNo, 256, e)]
    let mask := pixClusters s die
    let o := occupied s
    match (List.range 12).findSome? (fun k =>
      if mask.testBit k then (planGroup s (die * 16 + k) roles o).map (fun x => (k, x.1)) else none), r.running with
    | some (k, g), some obj =>
      let cls := (((s.part? p).map (fun q => q.stream d.stream)).map Stream.cls).getD 0
      let gang : Gang := ⟨s.nextId, p, d.stream, d.slot, 0, die, k, 1, cls, .resident, false, false, true, []⟩
      let gid := (s.nextId + 1) * 8192 + (g.cluster * 16 + g.entry)
      let g := { g with threads := g.threads.map (fun t => { t with absent := true }) }
      let s : State := { s with nextId := s.nextId + 2, gangs := s.gangs ++ [gang] }
      let s := placeGroup s obj ⟨gang, gid, 0, r.run, (0, 0)⟩ roles r.args (s.clk + 64) g [] (some ([false, false, false, false], [0, 0, 0, 0]))
      some ((s.mapThreads (fun t => if t.grp == gid then { t with g := Vector.replicate 128 0 } else t)).at_ (s.clk + 64) (.rasterise die))
    | _, _ => none
  | _, _ => none

end Sys2Proof.Machine
end

