-- ==== Sys2Proof/Machine/Pending.lean ====
section
/-! DEFINITION. Registers that an instruction reads and writes, and the threads that a register which awaits a result keeps from issuing
(R144, R146, R186, R187, R340, R344). -/

namespace Sys2Proof.Machine
open Sys2Proof

/-- The register operands that an instruction of a thread reads, with the number of registers of each. A step of a unit has none. -/
def readsOf : Instr → List (Code × Nat)
  | .movS _ b | .bzS _ b | .bnzS _ b | .ret b =>
    [(code16 b, 1)]
  | .addS a b | .subS a b | .andS a b | .orS a b | .xorS a b =>
    [(code16 a, 1), (code16 b, 1)]
  | .addiS a _ | .shliS a _ | .shriS a _ =>
    [(code16 a, 1)]
  | .ldS _ b =>
    [(code16 b, 2)]
  | .stS a b =>
    [(code16 a, 1), (code16 b, 2)]
  | .add _ a b | .sub _ a b | .mul _ a b | .mulh _ a b | .mulhn _ a b | .div _ a b | .divn _ a b | .rem _ a b
  | .remn _ a b | .and _ a b | .or _ a b | .xor _ a b | .andn _ a b | .shl _ a b | .shr _ a b | .sra _ a b | .rol _ a b
  | .min _ a b | .max _ a b | .minn _ a b | .maxn _ a b | .hadd2 _ a b | .hmul2 _ a b | .hfma2 _ a b | .badd2 _ a b
  | .bmul2 _ a b | .bfma2 _ a b | .fmin _ a b | .fmax _ a b | .shfl _ a b | .shflx _ a b | .bcast _ a b | .interp _ a b
  | .mulw _ a b | .mulwn _ a b | .cmpS32 _ _ a b | .cmpN32 _ _ a b | .fcmpF32 _ _ a b | .fadd _ a b _ | .fsub _ a b _
  | .fmul _ a b _ | .fdiv _ a b _ | .fma _ a b _ | .fnma _ a b _ | .sel _ a b _ | .selNot _ a b _ | .mput _ a b =>
    [(a, 1), (b, 1)]
  | .clz _ a | .ctz _ a | .popc _ a | .brev _ a | .callr _ a | .fclass _ a | .ffloor _ a | .fceil _ a | .ftrunc _ a
  | .fabs _ a | .fneg _ a | .ddx _ a | .ddy _ a | .addi _ a _ | .andi _ a _ | .ori _ a _ | .xori _ a _ | .shli _ a _
  | .shri _ a _ | .srai _ a _ | .fsqrt _ a _ | .frcp _ a _ | .frsq _ a _ | .fexp2 _ a _ | .flog2 _ a _ | .fsin _ a _
  | .fcos _ a _ | .fsinR _ a _ | .fcosR _ a _ | .frint _ a _ | .ffrac _ a _ | .lsum _ a _ | .lmin _ a _ | .cmpi _ _ a _
  | .jmp a | .go a | .wenter a | .wleave a | .pemitCull a | .sleep a | .qput _ a | .qctl _ a | .iset _ a | .xld _ a
  | .cset _ a | .csetHigh _ a | .sset a _ =>
    [(a, 1)]
  | .addD _ a b | .subD _ a b | .divS64 _ a b | .divnN64 _ a b | .remS64 _ a b | .remnN64 _ a b | .dadd _ a b
  | .dmul _ a b | .dfma _ a b | .cmpS64 _ _ a b | .cmpN64 _ _ a b | .fcmpF64 _ _ a b | .smp _ a b =>
    [(a, 2), (b, 2)]
  | .shlD _ a b | .spawn a b | .wexp _ a b | .launch _ a b =>
    [(a, 2), (b, 1)]
  | .ldih d _ =>
    [(d, 1)]
  | .ldB _ b _ _ _ | .ldH _ b _ _ _ | .ldW _ b _ _ _ | .ldBs _ b _ _ _ | .ldHs _ b _ _ _ | .ldf _ b _ _ _
  | .lde _ b _ _ _ | .fest _ b _ _ _ | .ldD _ b _ _ _ | .ldQ _ b _ _ _ | .ldExtended _ b _ _ _ | .sete b _ _ _
  | .ldm _ b _ _ _ =>
    [(b, 2)]
  | .stB d b _ _ _ | .stH d b _ _ _ | .stW d b _ _ _ | .stf d b _ _ _ | .stx d b _ _ _ =>
    [(d, 1), (b, 2)]
  | .stD d b _ _ _ =>
    [(d, 2), (b, 2)]
  | .stQ d b _ _ _ =>
    [(d, 4), (b, 2)]
  | .stExtended d b _ _ z =>
    [(d, (if z = 3 then 2 else if z = 4 then 4 else 1)), (b, 2)]
  | .amoAdd d a _ _ w | .amoAnd d a _ _ w | .amoOr d a _ _ w | .amoXor d a _ _ w | .amoMin d a _ _ w
  | .amoMax d a _ _ w | .amoMinn d a _ _ w | .amoMaxn d a _ _ w | .amoSwap d a _ _ w | .redAdd d a _ _ w
  | .redAnd d a _ _ w | .redOr d a _ _ w | .redXor d a _ _ w | .redMin d a _ _ w | .redMax d a _ _ w
  | .redMinn d a _ _ w | .redMaxn d a _ _ w | .redSwap d a _ _ w =>
    [(d, (if w = 1 then 2 else 1)), (a, 2)]
  | .amoCas d a _ _ w | .redCas d a _ _ w =>
    [(d, (if w = 1 then 4 else 2)), (a, 2)]
  | .amoFadd d a _ _ | .redFadd d a _ _ | .barw d a _ =>
    [(d, 1), (a, 2)]
  | .redFx64 d a _ _ =>
    [(d, 2), (a, 2)]
  | .barj a _ | .barx a _ | .wwait a _ | .wpoll _ a _ | .pf a | .inval a | .wback a | .fclassF64 _ a =>
    [(a, 2)]
  | .stm d b _ _ n =>
    [(d, (n.toNat + 1)), (b, 2)]
  | .cvtS32 _ a s _ | .cvtN32 _ a s _ | .cvtF32 _ a s _ | .cvtF16 _ a s _ | .cvtBf16 _ a s _ | .cvtE4m3 _ a s _
  | .cvtE5m2 _ a s _ | .cvtE2m1 _ a s _ | .cvtE4m3Sat _ a s _ | .cvtS64 _ a s _ | .cvtN64 _ a s _ | .cvtF64 _ a s _ =>
    [(a, (if isWide s.toNat then 2 else 1))]
  | .msend a b =>
    [(a, 1), (b, 4)]
  | .mvcopy a _ _ | .mvcopy2 a _ _ | .mvgath a _ _ | .mvscat a _ _ | .mvfill a _ _ | .mvred a _ _ =>
    [(a, 4)]
  | .mmaBf16 d a b _ | .mmaF16 d a b _ | .mmaQ4 d a b _ =>
    [(d, 16), (a, 4), (b, 2)]
  | .mmaF8E4m3E4m3 d a b _ | .mmaF8E4m3E5m2 d a b _ | .mmaF8E5m2E4m3 d a b _ | .mmaF8E5m2E5m2 d a b _
  | .mmaF8S8 d a b _ | .mmaMx4 d a b _ | .mmaTs8W8 d a b _ | .mmaTs8W4 d a b _ =>
    [(d, 16), (a, 2), (b, 2)]
  | .smpl _ a b | .fetch _ a b =>
    [(a, 2), (b, 3)]
  | .smpg _ a b =>
    [(a, 2), (b, 6)]
  | .pemit a b | .tlsig a b | .tlsigSet a b =>
    [(a, 1), (b, 2)]
  | .pexp a b =>
    [(a, 4), (b, 1)]
  | _ => []

/-- The register operands that an instruction of a thread writes. -/
def writesOf : Instr → List (Code × Nat)
  | .movS a _ | .addS a _ | .subS a _ | .andS a _ | .orS a _ | .xorS a _ | .addiS a _ | .shliS a _ | .shriS a _
  | .ldiS a _ | .ldS a _ =>
    [(code16 a, 1)]
  | .add d _ _ | .sub d _ _ | .mul d _ _ | .mulh d _ _ | .mulhn d _ _ | .div d _ _ | .divn d _ _ | .rem d _ _
  | .remn d _ _ | .and d _ _ | .or d _ _ | .xor d _ _ | .andn d _ _ | .shl d _ _ | .shr d _ _ | .sra d _ _ | .rol d _ _
  | .min d _ _ | .max d _ _ | .minn d _ _ | .maxn d _ _ | .hadd2 d _ _ | .hmul2 d _ _ | .hfma2 d _ _ | .badd2 d _ _
  | .bmul2 d _ _ | .bfma2 d _ _ | .fmin d _ _ | .fmax d _ _ | .shfl d _ _ | .shflx d _ _ | .bcast d _ _ | .interp d _ _
  | .clz d _ | .ctz d _ | .popc d _ | .brev d _ | .callr d _ | .fclass d _ | .ffloor d _ | .fceil d _ | .ftrunc d _
  | .fabs d _ | .fneg d _ | .ddx d _ | .ddy d _ | .addi d _ _ | .andi d _ _ | .ori d _ _ | .xori d _ _ | .shli d _ _
  | .shri d _ _ | .srai d _ _ | .fsqrt d _ _ | .frcp d _ _ | .frsq d _ _ | .fexp2 d _ _ | .flog2 d _ _ | .fsin d _ _
  | .fcos d _ _ | .fsinR d _ _ | .fcosR d _ _ | .frint d _ _ | .ffrac d _ _ | .lsum d _ _ | .lmin d _ _ | .ldi d _
  | .ldih d _ | .call d _ | .mget d _ | .qget d _ | .qpeek d _ | .ldB d _ _ _ _ | .ldH d _ _ _ _ | .ldW d _ _ _ _
  | .ldBs d _ _ _ _ | .ldHs d _ _ _ _ | .ldf d _ _ _ _ | .lde d _ _ _ _ | .fest d _ _ _ _ | .amoFadd d _ _ _
  | .barw d _ _ | .wpoll d _ _ | .fadd d _ _ _ | .fsub d _ _ _ | .fmul d _ _ _ | .fdiv d _ _ _ | .fma d _ _ _
  | .fnma d _ _ _ | .sel d _ _ _ | .selNot d _ _ _ | .cvtS32 d _ _ _ | .cvtN32 d _ _ _ | .cvtF32 d _ _ _
  | .cvtF16 d _ _ _ | .cvtBf16 d _ _ _ | .cvtE4m3 d _ _ _ | .cvtE5m2 d _ _ _ | .cvtE2m1 d _ _ _ | .cvtE4m3Sat d _ _ _
  | .fclassF64 d _ | .launch d _ _ =>
    [(d, 1)]
  | .mulw d _ _ | .mulwn d _ _ | .addD d _ _ | .subD d _ _ | .divS64 d _ _ | .divnN64 d _ _ | .remS64 d _ _
  | .remnN64 d _ _ | .dadd d _ _ | .dmul d _ _ | .dfma d _ _ | .shlD d _ _ | .ldD d _ _ _ _ | .cvtS64 d _ _ _
  | .cvtN64 d _ _ _ | .cvtF64 d _ _ _ | .ballot d _ =>
    [(d, 2)]
  | .ldQ d _ _ _ _ | .rmsg d _ | .smp d _ _ | .smpl d _ _ | .fetch d _ _ | .smpg d _ _ =>
    [(d, 4)]
  | .ldExtended d _ _ _ z =>
    [(d, (if z = 3 then 2 else if z = 4 then 4 else 1))]
  | .amoAdd d _ _ _ w | .amoAnd d _ _ _ w | .amoOr d _ _ _ w | .amoXor d _ _ _ w | .amoMin d _ _ _ w
  | .amoMax d _ _ _ w | .amoMinn d _ _ _ w | .amoMaxn d _ _ _ w | .amoSwap d _ _ _ w | .amoCas d _ _ _ w =>
    [(d, (if w = 1 then 2 else 1))]
  | .ldm d _ _ _ n =>
    [(d, (n.toNat + 1))]
  | .iget _ a =>
    [(a, 1)]
  | .mmaBf16 d _ _ _ | .mmaF16 d _ _ _ | .mmaQ4 d _ _ _ | .mmaF8E4m3E4m3 d _ _ _ | .mmaF8E4m3E5m2 d _ _ _
  | .mmaF8E5m2E4m3 d _ _ _ | .mmaF8E5m2E5m2 d _ _ _ | .mmaF8S8 d _ _ _ | .mmaMx4 d _ _ _ | .mmaTs8W8 d _ _ _
  | .mmaTs8W4 d _ _ _ =>
    [(d, 16)]
  | .sget d s =>
    [(d, (if s = 18 ∨ s = 21 then 2 else 1))]
  | _ => []

/-- The number of predicate n among the registers that a result can be awaited for; index registers follow from 144, extension registers from
152, and 160 stands for the completion of a wback (R348). -/
def predNo {w : Nat} (n : BitVec w) : Nat := 128 + n.toNat

/-- Predicates, index and extension registers that an instruction reads. -/
def specialReads : Instr → List Nat
  | .pand _ a q | .por _ a q | .pxor _ a q => [predNo a, predNo q]
  | .pnot _ a | .voteAny _ a | .voteAll _ a | .ballot _ a => [predNo a]
  | .bp p _ | .bnp p _ | .sel _ _ _ p | .selNot _ _ _ p => [predNo p]
  | .iget n _ | .iadv n _ | .isetFields n _ _ _ _ | .isetWrap n _ _ _ _ => [144 + n.toNat]
  | .xsetHi n _ => [152 + n.toNat]
  | .fma _ _ _ _ | .fnma _ _ _ _ | .hfma2 _ _ _ | .bfma2 _ _ _ | .dfma _ _ _ => [152]
  | .ldExtended _ _ _ _ _ | .stExtended _ _ _ _ _ => [152, 160]
  | .ldB _ _ _ _ _ | .ldH _ _ _ _ _ | .ldW _ _ _ _ _ | .ldD _ _ _ _ _ | .ldQ _ _ _ _ _ | .ldBs _ _ _ _ _ | .ldHs _ _ _ _ _
  | .stB _ _ _ _ _ | .stH _ _ _ _ _ | .stW _ _ _ _ _ | .stD _ _ _ _ _ | .stQ _ _ _ _ _ | .ldf _ _ _ _ _ | .lde _ _ _ _ _
  | .stf _ _ _ _ _ | .stx _ _ _ _ _ | .fest _ _ _ _ _ | .ldm _ _ _ _ _ | .stm _ _ _ _ _ | .amoAdd _ _ _ _ _ | .amoAnd _ _ _ _ _
  | .amoOr _ _ _ _ _ | .amoXor _ _ _ _ _ | .amoMin _ _ _ _ _ | .amoMax _ _ _ _ _ | .amoMinn _ _ _ _ _ | .amoMaxn _ _ _ _ _
  | .amoSwap _ _ _ _ _ | .amoCas _ _ _ _ _ | .redAdd _ _ _ _ _ | .redAnd _ _ _ _ _ | .redOr _ _ _ _ _ | .redXor _ _ _ _ _
  | .redMin _ _ _ _ _ | .redMax _ _ _ _ _ | .redMinn _ _ _ _ _ | .redMaxn _ _ _ _ _ | .redSwap _ _ _ _ _ | .redCas _ _ _ _ _ => [160]
  | .sete _ _ _ _ | .amoFadd _ _ _ _ | .redFadd _ _ _ _ | .redFx64 _ _ _ _ | .ldS _ _ | .stS _ _ => [160]
  | .fence _ _ | .barj _ _ | .barx _ _ | .barw _ _ _ | .wwait _ _ | .wpoll _ _ _ | .wexp _ _ _ | .launch _ _ _ | .bar | .barGang
  | .mrdy | .wback _ => [160]
  | .sget _ _ => (List.range 16).map (128 + ·)
  | _ => []

/-- Predicates, index and extension registers that an instruction writes. -/
def specialWrites : Instr → List Nat
  | .cmpS32 _ p _ _ | .cmpN32 _ p _ _ | .cmpS64 _ p _ _ | .cmpN64 _ p _ _ | .cmpi _ p _ _ | .fcmpF32 _ p _ _ | .fcmpF64 _ p _ _ => [predNo p]
  | .pand p _ _ | .por p _ _ | .pxor p _ _ | .pnot p _ | .voteAny p _ | .voteAll p _ => [predNo p]
  | .iset n _ | .iadv n _ | .isetFields n _ _ _ _ | .isetWrap n _ _ _ _ => [144 + n.toNat]
  | .iclr0 => [144] | .iclr1 => [145] | .iclr2 => [146] | .iclr3 => [147]
  | .iclr4 => [148] | .iclr5 => [149] | .iclr6 => [150] | .iclr7 => [151]
  | .xset n _ | .xsetHi n _ | .xld n _ => [152 + n.toNat]
  | .wback _ => [160]
  | .sset _ _ => (List.range 16).map (128 + ·)
  | _ => []

/-- The operand that x0 names in a fused form (R325). -/
def addendOf (t : Thread) : Instr → List (Code × Nat)
  | .fma _ _ _ _ | .fnma _ _ _ _ | .hfma2 _ _ _ | .bfma2 _ _ _ => [(addendCode t, 1)]
  | .dfma _ _ _ => [(addendCode t, 2)]
  | _ => []

/-- The registers of an operand: exactly those that a swarm thread resolves (R187); on a wave engine an indirect operand is its whole window,
and uses its index register (R186). -/
def operandRange (t : Thread) (o : Code × Nat) : List (Nat × Nat) :=
  if t.isWave && t.indirect o.1 then
    let j := o.1.toNat - 120
    let v := (t.rdI j).toNat
    [(bits v 6 0, bits v 13 7), (144 + j, 1)]
  else match resolve t ⟨0, o.1, o.2, 1⟩ with
    | .ok n => [(n, o.2)]
    | .error _ => []

/-- The registers that an instruction of a thread writes. -/
def writtenBy (t : Thread) (i : Instr) : List (Nat × Nat) :=
  (writesOf i).flatMap (operandRange t) ++ (specialWrites i).map (fun n => (n, 1))

/-- The registers that an instruction of a thread reads or writes; lret exchanges g0 to g3 (R155), and on a wave engine an override may stand
for a source (R177). -/
def touchedBy (t : Thread) (i : Instr) : List (Nat × Nat) :=
  (readsOf i ++ addendOf t i).flatMap (operandRange t) ++ (specialReads i).map (fun n => (n, 1)) ++ writtenBy t i ++
    (match i with | .lret | .lretS => [(0, 4)] | _ => []) ++ (if t.isWave && !(readsOf i).isEmpty then [(153, 3)] else [])

/-- Instructions of which a rule gives the clk at which a wave thread is ready again, as opposed to that of their results. -/
def holdsThread : Instr → Bool
  | .lret | .lretS | .wenter _ | .wleave _ | .fence _ _ | .bar | .barGang | .barj _ _ | .barx _ _ | .barw _ _ _ | .pf _ | .inval _
  | .sleep _ | .wexp _ _ _ | .wwait _ _ | .launch _ _ _ | .tlsig _ _ | .tlsigSet _ _ | .exit | .rx => true
  | _ => false

/-- The parcels at a PC, as far as they can be fetched now: at most n. -/
def parcelsAt (s : State) (t : Thread) (pc : Nat) : Nat → List (BitVec 16)
  | 0 => []
  | n + 1 =>
    match fetchParcel s t pc with
    | .parcel v => v :: parcelsAt s t (pc + 1) n
    | _ => []

/-- The instruction that a thread would execute next, past an rx prefix. -/
def peek (s : State) (t : Thread) : Option Instr :=
  let v := Ver.ofByte t.version
  match decode v (parcelsAt s t t.pc.toNat 2) with
  | some (.rx, _) => (decode v (parcelsAt s t (t.pc.toNat + 1) 2)).map (·.1)
  | r => r.map (·.1)

/-- The lane of a thread. -/
def Thread.laneNo (t : Thread) : Nat := match t.place with | .wave _ l _ => l | _ => 0

/-- The next instruction of a thread reads or writes a register that awaits a result. -/
def stalled (s : State) (t : Thread) : Bool :=
  let l := awaited s t
  if l.isEmpty || t.update.isSome then false
  else match peek s t with
    | none => false
    | some i => rangesMeet (touchedBy t i) l

/-- What an issued instruction leaves for its successors on a wave engine (R146, R186): its thread may issue again before its results are
there; registers that an outstanding access brings are marked by their windows. s is the state before it. -/
def scoreboard (s : State) (i : Instr) (u : State) : State :=
  let t := s.th
  if !t.isWave then u
  else
    let news := u.flights.filter (fun f => f.owner == t.uid && !f.blocks && f.nreg != 0 && decide (s.nextId ≤ f.id))
    u.updThread t.uid (fun x =>
      if !x.isWave || x.run != .ready then x
      else if !news.isEmpty then
        { x with marks := x.marks ++ news.flatMap (fun f => (writtenBy t i).map (fun w => ⟨w.1, w.2, 0, some f.id⟩)), cur := some [] }
      else if holdsThread i then x else { x with cur := some (writtenBy t i) })

end Sys2Proof.Machine
end

