-- ==== Sys2Proof/Machine/Sched.lean ====
section
/-! DEFINITION. Placement windows, drain reservations, stall resolution, pre-emption, saves and restores (R92 to R116, R131). -/

namespace Sys2Proof.Machine
open Sys2Proof

/-! Offers (R95, R98). -/

/-- A LAUNCH record whose gangs may be placed. -/
def Rec.offerable (r : Rec) : Bool :=
  bits (r.word 0) 3 0 == 1 && r.status.isNone && r.fail.isNone && (r.state == .ready || r.state == .running)

/-- RESIDENT (R60). -/
def Rec.resident (r : Rec) : Bool := (r.word 0).testBit 5

/-- The placed gangs of a record. -/
def State.gangsOf (s : State) (p st slot : Nat) : List Gang := s.gangs.filter (fun g => g.part == p && g.stream == st && g.slot == slot)

/-- A reservation is for this gang. -/
def Drain.isFor (x : Drain) (p st slot : Nat) (key : OfferKey) : Bool := x.part == p && x.stream == st && x.slot == slot && x.key == key

/-- A drain reservation of a gang stands somewhere in its partition. -/
def draining (s : State) (p st slot : Nat) (key : OfferKey) : Bool :=
  (s.partDies p).any (fun d => (s.die d).drains.any (fun x => x.isFor p st slot key))

/-- The index of the next gang that a record offers a die: any unplaced one, or for a draw the next of those that are the die's
(R98, R120). -/
def nextIndex (s : State) (p die : Nat) (r : Rec) : Option Nat :=
  match r.ord with
  | none => if r.nextGang < r.gangs then some r.nextGang else none
  | some o =>
    match s.draw? p o with
    | none => none
    | some d =>
      let i := if d.dies.isEmpty then (s.presentDies p).idxOf? die else Table.get d.next die
      i.bind (fun i => if i < r.gangs then some i else none)

/-- A draw is not placed while the draw 64 ordinals earlier has not completed, or a raster control write waits (R115, R118). -/
def drawBlocked (s : State) (p : Nat) (r : Rec) : Bool :=
  match r.ord with
  | none => false
  | some o => (s.draw? p ((o + 2 ^ 32 - 64) % 2 ^ 32)).isSome || ((s.part? p).map (fun q => !q.rastWait.isEmpty)).getD false

/-- Clusters of a die closed to a gang: pixel clusters (R116) and those of other gangs' drain reservations (R98). -/
def closedTo (s : State) (die p st slot : Nat) (key : OfferKey) : Nat :=
  (s.die die).drains.foldl (fun m x => if x.isFor p st slot key then m else m ||| ((2 ^ x.size - 1) * 2 ^ x.cluster)) (pixClusters s die)

/-- A planned place and its n registers are free. -/
def placeFree (o : Occ) (t : ThreadPlan) (n : Nat) : Bool :=
  match t.place with
  | .swarm c k => !(o.slotsOf c).contains k && (o.regsOf c).all (fun r => !meets t.base n r.1 r.2)
  | .wave c l p => !(o.lanePos c l).contains p && (o.laneRegs c l).all (fun r => !meets t.base n r.1 r.2)
  | _ => true

/-- Registers allocated to a planned thread of a record. -/
def Rec.allocOf (r : Rec) (role : Nat) : Nat := (r.roles[role]?.map (fun e => Machine.allocOf e.2.2.2.nreg)).getD 128

/-- The clusters of a gang as a mask. -/
def Gang.mask (g : Gang) : Nat := (2 ^ g.size - 1) * 2 ^ g.cluster

/-- The threads of a gang. -/
def State.gangThreads (s : State) (id : Nat) : List Thread := (s.th :: s.threads).filter (fun t => t.gang == id && t.ofRecord)

/-- A saved gang can be restored: its places, registers, entries, uniform sets, basins and rills are all free (R105), and its translated code is
in the die's cache (R270). -/
def restoreFits (s : State) (g : Gang) : Bool :=
  let o := occupied s
  let closed := if g.pixel then 0 else closedTo s g.die g.part g.stream g.slot (.saved g.id)
  let places := (s.gangThreads g.id).all (fun t => placeFree o ⟨t.role, t.tid, t.place, t.base, false⟩ (Machine.allocOf t.count) &&
    (!t.isCuique || (s.die g.die).tcache.any (fun c => c.key == t.tkey)))
  let groups := (s.groups.filter (fun x => x.gang == g.id)).all (fun x =>
    let cl := x.id % 8192 / 16
    !o.entries.contains (cl, x.id % 16) && (!x.wave || decide ((o.unis.filter (fun u => u == cl)).length < 8)) &&
      (x.basin.2 == 0 || (o.basins.filter (fun b => b.1 == cl)).all (fun b => b.2.2 == 0 || !meets x.basin.1 x.basin.2 b.2.1 b.2.2)) &&
      ((x.saved.map (fun v => v.wires.all (fun w => (s.core w.1).wires.isEmpty))).getD true))
  g.mask &&& closed == 0 && places && groups

/-- A saved gang of a record that is offered: pre-empted or evicted, with all its resources free (R95, R105). -/
def savedReady (s : State) (p st slot : Nat) (evicted : Bool) : Option Gang :=
  (s.gangsOf p st slot).find? (fun g => g.status == .saved && g.evicted == evicted && restoreFits s g)

/-- What a record offers a die (R95): pre-empted gangs first, then gangs never placed, then evicted ones. None when it has nothing to place; none
within when it has, but offers this die nothing now. -/
def recOffer (s : State) (p die st : Nat) (r : Rec) : Option (Option OfferKey) :=
  if !r.offerable then none
  else match savedReady s p st r.slot false with
    | some g => some (some (.saved g.id))
    | none =>
      if r.nextGang < r.gangs then
        some (if drawBlocked s p r || !codeReady s die r || (drawWaits s p st r).isSome then none
          else if r.resident then (if r.nextGang = 0 then some .resident else none)
          else (nextIndex s p die r).map .fresh)
      else (savedReady s p st r.slot true).map (fun g => some (.saved g.id))

/-- What a stream offers a die now: from its oldest record with a gang to place (R95). -/
def offerOf (s : State) (p die st : Nat) (x : Stream) : Option (Rec × OfferKey) :=
  (x.recs.findSome? (fun r => (recOffer s p die st r).map (fun o => (r, o)))).bind (fun y => y.2.map (fun k => (y.1, k)))

/-! What fits (R97 to R100, R105). -/

/-- Clusters of a die that a drain reservation may not take: any other reservation's, and pixel clusters. -/
def reserved (s : State) (die : Nat) : Nat :=
  (s.die die).drains.foldl (fun m x => m ||| ((2 ^ x.size - 1) * 2 ^ x.cluster)) (pixClusters s die)

/-- Gangs of a resident grid on one die, at most n: what fits and how many are left (R100). -/
def fitMany (s : State) (r : Rec) (die avoid : Nat) : Nat → List Nat → Occ → List Fit × Nat × List Nat × Occ
  | 0, held, o => ([], 0, held, o)
  | n + 1, held, o =>
    match fitGang s r die avoid held o with
    | none => ([], n + 1, held, o)
    | some (f, o) =>
      let held := held ++ f.wires.flatMap (fun g => g.map (fun x => x.1.core))
      let (l, m, held, o) := fitMany s r die avoid n held o
      (f :: l, m, held, o)

/-- Gangs of a resident grid on one die: all that fit of those left, or exactly a draw's share (R100, R120). -/
def shareOn (s : State) (p st : Nat) (r : Rec) (die n : Nat) (held : List Nat) (o : Occ) : List Fit × Nat × List Nat × Occ :=
  let avoid := closedTo s die p st r.slot .resident
  if r.ord.isSome then
    let k := r.gangs / (s.presentDies p).length
    let (l, m, held, o) := fitMany s r die avoid k held o
    (l, if m = 0 then n - k else r.gangs + 1, held, o)
  else fitMany s r die avoid n held o

/-- Where all gangs of a resident grid fit, in ascending die order and then ascending cluster. -/
def fitResident (s : State) (p st : Nat) (r : Rec) : Option (List Fit) :=
  let (l, n, _, _) := (s.presentDies p).foldl (fun (a : List Fit × Nat × List Nat × Occ) d =>
    let (l, n, held, o) := shareOn s p st r d a.2.1 a.2.2.1 a.2.2.2
    (a.1 ++ l, n, held, o)) ([], r.gangs, [], occupied s)
  if n = 0 ∨ (r.ord.isSome ∧ r.gangs % (s.presentDies p).length ≠ 0) then some l else none

/-! Placing. -/

/-- A record found wrong at placement is rejected (R61). -/
def rejectRec (s : State) (p st slot detail : Nat) : State := holdRec s p st slot 1 detail

/-- A gang is placed, or begins to be restored: what stood for its being offered, and its reservations, are gone. -/
def taken (s : State) (p st slot : Nat) (key : OfferKey) : State :=
  let s := (s.partDies p).foldl (fun s d => s.updDie d (fun d => { d with drains := d.drains.filter (fun x => !x.isFor p st slot key) })) s
  updRec s p st slot (fun r => { r with
    offered := r.offered.filter (fun o => o.1 != key), ahead := if (r.ahead.map (·.2)) == some key then none else r.ahead })

/-- The start of a record's work when its first gang is placed: a draw begins, or the record is rejected. Answers whether it goes on. -/
def startWork (s : State) (p st : Nat) (r : Rec) (bad : Bool) : State × Bool :=
  if bad then (rejectRec s p st r.slot 5, false)
  else match r.ord with
    | none => (s, true)
    | some o =>
      match startDraw s p st r o with
      | (s, .ready) => (s, true)
      | (s, .bad d) => (rejectRec s p st r.slot d, false)
      | (s, .wait _) => (s, false)

/-- A fresh gang placed, a draw begun with it, or its record rejected. -/
def placeFresh (s : State) (p st : Nat) (r : Rec) (f : Fit) (index : Nat) (drain : Bool) : State :=
  match startWork (taken s p st r.slot (.fresh index)) p st r f.bad with
  | (s, true) => placeGang s p st r f index (s.clk + 64) drain
  | (s, false) => s

/-- The index of the k-th gang placed on a die of a resident grid: a draw's gangs are dealt over its dies (R120). -/
def residentIndex (s : State) (p : Nat) (r : Rec) (l : List Fit) (k : Nat) : Nat :=
  match r.ord, l[k]? with
  | some _, some f =>
    let dies := s.presentDies p
    ((l.take k).filter (fun x => x.die == f.die)).length * dies.length + dies.idxOf f.die
  | _, _ => k

/-- The gangs of a resident grid placed in order. -/
def placeAll (s : State) (p st : Nat) (r : Rec) (l : List Fit) (drain : Bool) : State :=
  match startWork (taken s p st r.slot .resident) p st r (l.any Fit.bad) with
  | (s, false) => s
  | (s, true) => (l.zipIdx).foldl (fun s f =>
      match s.rec? p st r.slot with
      | some r' => placeGang s p st r' f.1 (residentIndex s p r l f.2) (s.clk + 64) drain
      | none => s) s

/-- A saved gang begins to be restored (R112). -/
def beginRestore (s : State) (g : Gang) : State :=
  let s := s.updGang g.id (fun g => { g with status := .restoring })
  let s := s.mapThreads (fun t => if t.gang == g.id && t.ofRecord then { t with hold := .halted } else t)
  (taken s g.part g.stream g.slot (.saved g.id)).at_ (s.clk + 60000) (.restoreComplete g.id)

/-- An offer taken by a die, if it fits there. -/
def takeOffer (s : State) (p die st : Nat) (r : Rec) (f : OfferKey) : Option State :=
  match f with
  | .fresh i => (fitGang s r die (closedTo s die p st r.slot f) [] (occupied s)).map (fun x => placeFresh s p st r x.1 i false)
  | .saved id => (s.gang? id).bind (fun g => if g.die = die ∧ restoreFits s g = true then some (beginRestore s g) else none)
  | .resident =>
    if (s.presentDies p).head? = some die then (fitResident s p st r).map (fun l => placeAll s p st r l false) else none

/-- Classes in the order in which window w serves them (R97). -/
def classOrder (w : Nat) : List Nat :=
  (if w % 16 = 3 then 1 else if w % 16 = 7 then 2 else if w % 16 = 15 then 3 else 0) :: [0, 1, 2, 3]

/-- The streams of a class, beginning after the one served last. -/
def streamsFrom (q : Part) (cls last : Nat) : List Nat :=
  ((List.range 64).map (fun i => (last + 1 + i) % 64)).filter (fun n => (q.stream n).cls == cls && !(q.stream n).recs.isEmpty)

/-- THE CHOICE of R97: the state after it, and whether it was a resident grid. -/
def choose (s : State) (p die w : Nat) : Option (State × Bool) :=
  (s.part? p).bind (fun q =>
    (classOrder w).findSome? (fun cls =>
      (streamsFrom q cls ((s.die die).served[cls]?.getD 63)).findSome? (fun n =>
        match offerOf s p die n (q.stream n) with
        | none => none
        | some (r, f) =>
          if draining s p n r.slot f then none
          else (takeOffer s p die n r f).map (fun s =>
            (s.updDie die (fun d => { d with served := d.served.setIfInBounds cls n }), f == .resident)))))

/-! Drain reservations (R99, R105). -/

/-- The groups of a drain reservation's gang with its planned threads, if all that it plans is free. -/
def drainFit (s : State) (r : Rec) (die : Nat) (x : Drain) (o : Occ) : Option (Fit × Occ) :=
  if !x.plan.all (fun t => placeFree o t (r.allocOf t.role)) then none
  else
    let o : Occ := x.plan.foldl (fun (o : Occ) t =>
      match t.place with
      | .swarm c k => { o with swarm := (c, k, t.base, r.allocOf t.role) :: o.swarm }
      | .wave c l p => { o with wave := (c, l, p, t.base, r.allocOf t.role) :: o.wave }
      | _ => o) o
    match (List.range x.size).foldl (fun (a : Option (List GroupPlan × Occ)) g =>
        a.bind (fun a =>
          let cl := die * 16 + x.cluster + g
          (planShare s cl (r.groupRoles g) a.2).map (fun y =>
            (a.1 ++ [{ y.1 with threads := x.plan.filter (fun t => coreOf t.place / 64 == cl) }], y.2)))) (some ([], o)) with
    | none => none
    | some (gs, o) =>
      match rillPlan s [] r gs with
      | .busy => none
      | .bad => if r.nextGang = 0 then some (⟨die, x.cluster, gs, [], true⟩, o) else none
      | .wires w => some (⟨die, x.cluster, gs, w, false⟩, o)

/-- The reservations of a record's resident grid with their dies. -/
def drainsOf (s : State) (p st slot : Nat) (key : OfferKey) : List (Nat × Drain) :=
  (s.partDies p).flatMap (fun d => ((s.die d).drains.filter (fun x => x.isFor p st slot key)).map (fun x => (d, x)))

/-- A reservation put among others, the oldest first. -/
def insertDrain (x : Drain) : List Drain → List Drain
  | [] => [x]
  | y :: r => if x.since < y.since then x :: y :: r else y :: insertDrain x r

/-- The reservations that a die looks at, the oldest first: its own, and on the lowest present die those of resident grids anywhere. -/
def drainsFor (s : State) (p die : Nat) : List Drain :=
  let l := (s.die die).drains ++ (if (s.presentDies p).head? = some die then
    ((s.partDies p).filter (fun d => d != die)).flatMap (fun d => (s.die d).drains.filter (fun x => x.key == .resident)) else [])
  l.foldl (fun l x => insertDrain x l) []

/-- A reservation's gang is placed when all that it plans is free, if it still waits. -/
def drainTake (s : State) (p die : Nat) (x : Drain) (r : Rec) : Option (State × Bool) :=
  let waits := drawBlocked s p r || !codeReady s die r || (drawWaits s p x.stream r).isSome
  match x.key with
  | .saved id => (s.gang? id).bind (fun g =>
      if g.status == .saved && g.die == die && restoreFits s g then some (beginRestore s g, false) else none)
  | .fresh i =>
    if waits || nextIndex s p die r != some i then none
    else (drainFit s r die x (occupied s)).map (fun f => (placeFresh s p x.stream r f.1 i true, false))
  | .resident =>
    if waits || (s.presentDies p).head? != some die || r.nextGang != 0 then none
    else
      match (drainsOf s p x.stream x.slot .resident).foldl (fun (a : Option (List Fit × Occ)) y =>
          a.bind (fun a => (drainFit s r y.1 y.2 a.2).map (fun f => (a.1 ++ [f.1], f.2)))) (some ([], occupied s)) with
      | some (l, _) => some (placeAll s p x.stream r l true, true)
      | none => none

/-- A RESERVATION that is ready to place takes the window; of several, the one that was made first (R97, R99). [DESIGN CHOICE: log 97] -/
def takeDrain (s : State) (p die : Nat) : Option (State × Bool) :=
  (drainsFor s p die).findSome? (fun x =>
    match s.rec? p x.stream x.slot with
    | some r => if r.offerable then drainTake s p die x r else none
    | none => none)

/-- Planned places that something takes now. -/
def takenBy (o : Occ) (r : Rec) (l : List ThreadPlan) : Nat := (l.filter (fun t => !placeFree o t (r.allocOf t.role))).length

/-- The reservation of a fresh gang on a die: the range of its least occupied plan. -/
def rangeFor (s : State) (r : Rec) (die taken : Nat) : Option (Nat × List ThreadPlan) :=
  let o := occupied s
  let cand := (List.range 12).filterMap (fun k =>
    if (List.range r.gsize).any (fun g => taken.testBit (k + g)) then none
    else (planGang s r die k Occ.empty).map (fun x =>
      let l := x.1.flatMap GroupPlan.threads
      (k, l, takenBy o r l)))
  match cand with
  | [] => none
  | x :: rest =>
    let y := rest.foldl (fun (b : Nat × List ThreadPlan × Nat) z => if z.2.2 < b.2.2 then z else b) x
    some (y.1, y.2.1)

/-- A reservation made. -/
def addDrain (s : State) (die : Nat) (x : Drain) : State := s.updDie die (fun d => { d with drains := d.drains ++ [x] })

/-- A reservation for one more gang of a record, on the lowest-numbered of these dies with a free range. -/
def reserveOn (s : State) (p st : Nat) (r : Rec) (key : OfferKey) (dies : List Nat) : Option State :=
  (dies.findSome? (fun d => (rangeFor s r d (reserved s d)).map (fun x => (d, x)))).map (fun x =>
    addDrain s x.1 ⟨p, st, r.slot, key, x.2.1, r.gsize, s.clk, x.2.2⟩)

/-- Reservations for every gang that a resident grid needs, taken together; none when one finds none. -/
def reserveAll (s : State) (p st : Nat) (r : Rec) : Nat → Option State
  | 0 => some s
  | n + 1 =>
    (reserveAll s p st r n).bind (fun t =>
      let dies := t.presentDies p
      reserveOn t p st r .resident (if r.ord.isSome then (dies[n % dies.length]?).toList else dies))

/-- The reservation of an offered gang (R99, R100, R105). -/
def reserveFor (s : State) (p st : Nat) (r : Rec) (key : OfferKey) : Option State :=
  let dies := s.presentDies p
  match key with
  | .saved id => (s.gang? id).bind (fun g =>
      if g.status != .saved || g.mask &&& reserved s g.die != 0 then none
      else some (addDrain s g.die ⟨p, st, r.slot, key, g.cluster, g.size, s.clk, savedPlan s g⟩))
  | .fresh i =>
    if dies.any (fun d => nextIndex s p d r == some i) then
      reserveOn s p st r key (dies.filter (fun d => nextIndex s p d r == some i))
    else none
  | .resident => if r.nextGang = 0 then reserveAll s p st r r.gangs else none

/-- An offered gang comes to its 20,000 clk: its reservation, or another try in the next window; nothing when it is no longer offered. -/
def drainDue (part stream slot : Nat) (cls : Nat) (s : State) (key : OfferKey) : State :=
  match s.rec? part stream slot with
  | none => s
  | some r =>
    if !r.offerable || draining s part stream slot key then s
    else match reserveFor s part stream r key with
      | none => s.atOnce (nextMultiple (s.clk + 1) 64) (.drainReservation part stream slot)
      | some t =>
        if cls = 0 then (drainsOf t part stream slot key).foldl (fun (t : State) x => t.atOnce (t.clk + 20000) (.framePreemption x.1)) t else t

/-- R99. A gang that has been offered for 20,000 clk receives its reservation, or tries again in each later window. -/
def execDrainReservation (part stream slot : Nat) (s : State) : Out := .next (
  match s.part? part, s.rec? part stream slot with
  | some q, some r =>
    ((r.offered.filter (fun o => decide (o.2 + 20000 ≤ s.clk))).map (·.1)).foldl (drainDue part stream slot (q.stream stream).cls) s
  | _, _ => s)

/-! Pre-emption (R109 to R113). -/

/-- The lowest ticket of a die's fault table whose holder still waits: a thread, a mover command, an export or an early test. -/
def nextTicket (s : State) (die : Nat) : Option (Nat × Nat × FaultRec) :=
  let of (w : Nat) (f : FaultRec) : Option (Nat × Nat × FaultRec) := f.ticket.map (fun k => (k, w, f))
  let ts := (s.th :: s.threads).filterMap (fun t =>
    if t.die = die then (match t.run with | .faulted f => of t.uid f | _ => none) else none)
  let cmds := s.cores.flatMap (fun c => c.2.movers.map (fun m => (c.1, m))) ++ s.gangs.flatMap Gang.movers
  let ms := cmds.filterMap (fun c => if coreDie c.1 = die then c.2.fault.bind (of (c.1 + 2 ^ 40)) else none)
  let r := s.rast die
  let xs := ((r.expFault.bind (fun f => of (die + 2 ^ 41) f.1)).toList ++ (r.earlyFault.bind (of (die + 2 ^ 42))).toList)
  (ts ++ ms ++ xs).foldl (fun (b : Option (Nat × Nat × FaultRec)) x =>
    match b with | none => some x | some y => if x.1 < y.1 then some x else some y) none

/-- The commands of a core's mover changed, those that a save holds included. -/
def mapMovers (s : State) (core : Nat) (f : MoverCmd → MoverCmd) : State :=
  let s := s.updCore core (fun k => { k with movers := k.movers.map f })
  { s with gangs := s.gangs.map (fun (g : Gang) => { g with movers := g.movers.map (fun m => if m.1 = core then (m.1, f m.2) else m) }) }

/-- A waiter released whose fault satisfies p: it executes again, or goes on from its recorded element. A thread is named by its identity;
mover commands, an export and an early test by the numbers of the fault table. -/
def releaseWaiter (s : State) (die w : Nat) (p : FaultRec → Bool) : State :=
  if 2 ^ 42 ≤ w then (s.updRast die (fun r => { r with earlyFault := r.earlyFault.filter (fun f => !p f) })).later (.rasterise die)
  else if 2 ^ 41 ≤ w then (s.updRast die (fun r => { r with expFault := r.expFault.filter (fun f => !p f.1) })).later (.exportApply die)
  else if 2 ^ 40 ≤ w then
    (mapMovers s (w - 2 ^ 40) (fun c => if (c.fault.map p).getD false then { c with fault := none, base := none } else c)).later
      (.moverCommandStart (w - 2 ^ 40))
  else s.updThread w (fun t => match t.run with | .faulted f => if p f then t.again s.clk else t | _ => t)

/-- A freed entry admits the holder of the lowest ticket, which retries its access at once (R212). -/
def admitTicket (s : State) (die : Nat) : State :=
  match nextTicket s die with
  | none => s
  | some (_, w, f) => if (freeEntry (s.die die).ftab).isNone then s else releaseWaiter s die w (fun x => x.ticket == f.ticket)

/-- A waiter leaves its entry; the last to leave frees the entry, which admits the lowest ticket (R211, R212). -/
def leaveEntry (s : State) (die entry w : Nat) : State :=
  match Table.get (s.die die).ftab entry with
  | none => s
  | some e =>
    let l := e.waiters.filter (· != w)
    if l.isEmpty then admitTicket (s.updDie die (fun d => { d with ftab := Table.drop d.ftab entry })) die
    else s.updDie die (fun d => { d with ftab := Table.put d.ftab entry { e with waiters := l } })

/-- A gang's mover commands on a core stop at an element boundary and are kept for its save (R110). -/
def stopMovers (s : State) (id core : Nat) : State :=
  let mine (c : MoverCmd) : Bool := c.poster.ofRecord && c.poster.gang == id && c.ended.isNone
  let s := match (s.core core).movers with
    | c :: _ => if mine c then countWeir s core c else s
    | [] => s
  let l := (s.core core).movers.filter mine
  if l.isEmpty then s
  else
    let kept := l.map (fun (c : MoverCmd) => (core, { c with base := none }))
    let first := ((s.core core).movers.head?.map mine).getD false
    let s := (if first then forgetUnit s (moverUnit core) else s).updCore core (fun k => { k with movers := k.movers.filter (fun c => !mine c) })
    (s.updGang id (fun g => { g with movers := g.movers ++ kept })).later (.moverCommandStart core)

/-- A gang is halted: nothing more of it issues, and its mover commands stop (R110). -/
def haltGang (s : State) (id : Nat) (evicted : Bool) : State :=
  let s := s.updGang id (fun g => { g with status := .saving, evicted := evicted })
  let s := s.mapThreads (fun t => if t.gang == id && t.ofRecord then { t with hold := .halted } else t)
  (s.cores.map (·.1)).foldl (fun s c => stopMovers s id c) s

/-- The save partner of a die (R112); none when no other die is present. -/
def savePartner (s : State) (d : Nat) : Option Nat :=
  let here (e : Nat) : Bool := (s.die e).present
  let pair (e : Nat) : Nat := if e % 2 = 0 then e + 1 else e - 1
  if here (pair d) then some (pair d)
  else
    match (List.range 24).find? (fun e => e != d && here e && !here (pair e)) with
    | some e => some e
    | none => (List.range 24).find? (fun e => e != d && here e)

/-- A save of gangs on a die begins: at once, or when an earlier save to one of its stacks completes; 60,000 clk, twice that for a die
alone (R112). -/
def beginSave (s : State) (die : Nat) (ids : List Nat) : State :=
  let mate := savePartner s die
  let free := max (s.die die).saveFree ((mate.map (fun e => (s.die e).saveFree)).getD 0)
  let stop := max s.clk free + (if mate.isSome then 60000 else 120000)
  let s := (die :: mate.toList).foldl (fun s e => s.updDie e (fun d => { d with saveFree := stop })) s
  ids.foldl (fun s g => s.at_ stop (.saveComplete g)) s

/-- A core or engine must be vacated: a gang that is being saved has threads there, and no gang that stays has (R113). -/
def vacated (s : State) (c : Nat) : Bool :=
  let here (st : GangStatus) : Bool := s.anyThread (fun t => t.ofRecord && !t.guest && t.homeCore == c && t.core == c &&
    ((s.gang? t.gang).map (fun g => g.status == st)).getD false)
  here .saving && !here .resident

/-- Guests of gangs that stay are sent from the cores and engines of a die that are vacated to the overflow queue of the core they came from, on their
home die, and so are migrants that wait there; they go on to the core that their next access needs (R113). -/
def vacateDie (s : State) (die : Nat) : State :=
  (s.selThreads (fun t => t.ofRecord && t.hold == .running && t.die == die && (t.guest || (s.core t.core).landing.contains t.uid ||
      (s.core t.core).overflow.contains t.uid) && t.core != t.homeCore && vacated s t.core)).foldl (fun s t =>
    let c := t.core
    let s := s.updCore c (fun k => { k with landing := k.landing.filter (· != t.uid), overflow := k.overflow.filter (· != t.uid) })
    let s := s.updThread t.uid (fun t => { t with place := .transit t.homeCore, vacated := t.run != .ready })
    if t.run != .ready then s
    else (s.updCore t.homeCore (fun k => { k with overflow := k.overflow ++ [t.uid] })).atOnce (s.clk + 200) (.overflowMove t.homeCore)) s

/-- The numbers of a list in ascending order, below a bound. -/
def ascending (n : Nat) (l : List Nat) : List Nat := (List.range n).filter l.contains

/-- Resident gangs pre-empted: halted within 2 µs, saved from the request on, by die in ascending order (R109 to R112). -/
def preempt (s : State) (ids : List Nat) (evicted : Bool) : State :=
  let l := s.gangs.filter (fun g => ids.contains g.id && g.status == .resident)
  let s := l.foldl (fun s g => (haltGang s g.id evicted).at_ (s.clk + 2000) (.haltEnd g.id)) s
  (ascending 24 (l.map Gang.die)).foldl (fun s d =>
    vacateDie (beginSave s d ((l.filter (fun g => g.die == d)).map Gang.id)) d) s

/-- A request covers every resident gang of a die: its save is that of the whole die (R111). [DESIGN CHOICE: log 38] -/
def wholeDie (s : State) (ids : List Nat) (die : Nat) : Bool :=
  let l := s.gangs.filter (fun g => g.die == die && g.status == .resident)
  !l.isEmpty && l.all (fun g => ids.contains g.id)

/-- R109. Gangs are pre-empted at a request; the save of a whole die holds its local memories, mailboxes and message registers too. -/
def execPreemptionRequest (gangs : List Nat) (s : State) : Out := .next (
  let dies := (List.range 24).filter (wholeDie s gangs)
  let whole (d : Nat) : DieSave := ⟨(s.gangs.filter (fun g => g.die == d && g.status == .resident)).map Gang.id, [], [], []⟩
  dies.foldl (fun s d => s.updDie d (fun x => { x with saved := some (whole d) })) (preempt s gangs false))

/-- A gang holds a place or registers that a reservation plans. -/
def holdsPlan (s : State) (r : Rec) (l : List ThreadPlan) (id : Nat) : Bool :=
  (s.gangThreads id).any (fun t =>
    let o : Occ := match t.place with
      | .swarm c k => { Occ.empty with swarm := [(c, k, t.base, allocOf t.count)] }
      | .wave c l p => { Occ.empty with wave := [(c, l, p, t.base, allocOf t.count)] }
      | _ => Occ.empty
    l.any (fun x => !placeFree o x (r.allocOf x.role)))

/-- The gangs of class batch or background that stand in the way of a frame-class reservation held for 20,000 clk. -/
def frameTargets (s : State) (p die : Nat) : List Nat :=
  ((s.die die).drains.filter (fun x => decide (x.since + 20000 ≤ s.clk) &&
      ((s.part? p).map (fun q => (q.stream x.stream).cls == 0)).getD false)).flatMap (fun x =>
    match s.rec? p x.stream x.slot with
    | none => []
    | some r => (s.gangs.filter (fun g => g.part == p && decide (2 ≤ g.cls) && g.status == .resident && holdsPlan s r x.plan g.id)).map Gang.id)

/-- R109. A frame-class reservation held for 20,000 clk pre-empts what stands in its way. -/
def execFramePreemption (die : Nat) (s : State) : Out := .next (
  match s.partOfDie die with
  | none => s
  | some p => preempt s (frameTargets s p die) false)

/-- What a thread has under way when its halt ends: an access that holds it is dropped, and executes again at the restore; any other that is
not performed goes to its replay list (R110). -/
def saveThread (s : State) (t : Thread) : State :=
  let mine (f : Flight) : Bool := f.owner == t.uid && (match f.phase with | .done _ => false | _ => true)
  let l := s.flights.filter mine
  if l.isEmpty then s
  else
    let ids := l.map Flight.id
    let waits := s.feWaits.filter (fun w => ids.contains w.1)
    let s : State := { s with flights := s.flights.filter (fun f => !mine f), feWaits := s.feWaits.filter (fun w => !ids.contains w.1) }
    let s := s.updThread t.uid (fun t => { t with replay := t.replay ++ l.filter (fun f => !f.blocks) })
    if waits.isEmpty then s else feChange s (s.feWaits.map (·.2))

/-- R110. The halt of a gang ends: a reply that comes later finds its access recorded for replay. -/
def haltEnds (s : State) (gang : Nat) : State :=
  match s.gang? gang with
  | none => s
  | some g => if g.status != .saving then s else (s.gangThreads gang).foldl saveThread s

/-- A key lies in the local memory of a die's cores. -/
def isLocalOf (die k : Nat) : Bool := match keyCore k with | some c => coreDie c == die | none => false

/-- The save of a whole die takes its local memories with their full bits, message registers and mailboxes (R111). -/
def saveDie (s : State) (die : Nat) : State :=
  s.updDie die (fun d => { d with saved := d.saved.map (fun v => { v with
    bytes := s.mem.filter (fun c => isLocalOf die c.1), full := s.full.filter (isLocalOf die)
    boxes := (s.cores.filter (fun c => coreDie c.1 == die)).map (fun c => (c.1, c.2.m, c.2.mFull, c.2.mail)) }) })

/-- The save of a whole die comes back with the first of its gangs that is restored. [DESIGN CHOICE: log 38] -/
def restoreDie (s : State) (die gang : Nat) : State :=
  match (s.die die).saved with
  | none => s
  | some v =>
    if !v.gangs.contains gang then s
    else
      let s : State := { s with mem := v.bytes.foldl (fun m c => memWrite m c.1 c.2) (s.mem.filter (fun c => !isLocalOf die c.1)),
                                full := v.full.foldl addFull (s.full.filter (fun k => !isLocalOf die k)) }
      let s := v.boxes.foldl (fun s b => s.updCore b.1 (fun k => { k with m := b.2.1, mFull := b.2.2.1, mail := b.2.2.2 })) s
      s.updDie die (fun d => { d with saved := none })

/-- What a group's save holds beside its threads (R111). -/
def saveGroup (s : State) (g : Group) : State :=
  let cl := g.id % 8192 / 16
  let inn (k : Nat) : Bool := inBasin cl g.basin.1 g.basin.2 k
  let wires := s.cores.flatMap (fun c => (c.2.wires.filter (fun w => w.gang == g.gang && c.1 / 64 == cl)).map (fun w => (c.1, w)))
  let rills := wires.map (fun w => (w.1 * 4 + w.2.port, rillAt s w.1 w.2.port))
  let s := s.updGroup g.id (fun x => { x with saved := some ⟨s.mem.filter (fun c => inn c.1), s.full.filter inn, rills, wires⟩ })
  (wires.map (·.1)).dedup.foldl (fun s c => s.updCore c (fun k => { k with wires := [], rill := Vector.replicate 4 [] })) s

/-- R112. A save completes: the gang's places, registers and cluster resources are free. -/
def execSaveComplete (gang : Nat) (s : State) : Out := .next (
  match s.gang? gang with
  | none => s
  | some g =>
    if g.status != .saving then s
    else
      let ts := s.gangThreads gang
      let s := saveDie (haltEnds s gang) g.die
      let s := (s.groups.filter (fun x => x.gang == gang)).foldl saveGroup s
      let s := s.updGang gang (fun g => { g with status := .saved })
      let s := s.mapThreads (fun t => if t.gang == gang && t.ofRecord then { t with hold := .saved } else t)
      let s := ts.foldl (fun s t =>
        match t.place with
        | .transit c => s.updCore c (fun k => { k with landing := k.landing.filter (· != t.uid), overflow := k.overflow.filter (· != t.uid) })
        | p => offerPlace s p) s
      s.atOnce (nextMultiple (s.clk + 1) 64) .placementWindow)

/-- A group's basin and rills as its save holds them. -/
def restoreGroup (s : State) (g : Group) : State :=
  match g.saved with
  | none => s
  | some v =>
    let cl := g.id % 8192 / 16
    let inn (k : Nat) : Bool := inBasin cl g.basin.1 g.basin.2 k
    let s : State := { s with mem := v.bytes.foldl (fun m c => memWrite m c.1 c.2) (s.mem.filter (fun c => !inn c.1)),
                              full := v.full.foldl addFull (s.full.filter (fun k => !inn k)) }
    let s := v.wires.foldl (fun s w => s.updCore w.1 (fun k => { k with wires := k.wires ++ [w.2] })) s
    let s := v.rills.foldl (fun s r => s.updCore (r.1 / 4) (fun k => { k with rill := k.rill.setIfInBounds (r.1 % 4) r.2 })) s
    s.updGroup g.id (fun x => { x with saved := none })

/-- A restored thread: it is ready at a clk, or goes on with its wait; a parked wait and an access that was under way are tried
again, and its replay list is issued again (R107, R110). [DESIGN CHOICE: log 38] -/
def restoreThread (s : State) (at_ : Nat) (t : Thread) : State :=
  let again : Bool := match t.run with
    | .waiting (.sleep _) => false
    | .waiting (.barObj _ _ _) => false
    | .waiting w => w.abandonable || (match w with | .walk _ _ => true | .access _ => true | .drain => true | .slots => true | .engine => true | _ => false)
    | _ => false
  let u : Thread := { t with hold := .running, replay := [], run := if again then .ready else t.run,
                             readyAt := max t.readyAt at_, parkedAt := at_ }
  let u : Thread := match t.run with
    | .waiting (.barObj k want _) =>
      if (readBytes s.mem k 16).getLsbD 56 = want then u.complete [0] (at_ + latency t.core k) else u
    | _ => u
  let s := s.updThread t.uid (fun _ => u)
  let s := t.replay.foldl (fun (s : State) f =>
    { s with flights := s.flights ++ [{ f with phase := .sent }] }.at_ (at_ + f.lat / 2) (.homeAccess f.id)) s
  match t.place with
  | .transit c => if t.vacated && u.run != .ready then s else arriveAt s t.uid c
  | _ => s

/-- R112. A restore completes: the gang's threads are ready at the next window. [DESIGN CHOICE: log 38] -/
def execRestoreComplete (gang : Nat) (s : State) : Out := .next (
  match s.gang? gang with
  | none => s
  | some g =>
    if g.status != .restoring then s
    else
      let at_ := nextMultiple (s.clk + 1) 64
      let s := (s.groups.filter (fun x => x.gang == gang)).foldl restoreGroup (restoreDie s g.die gang)
      let s := s.updGang gang (fun g => { g with status := .resident, evicted := false, movers := [] })
      let s := (s.gangThreads gang).foldl (fun s t => restoreThread s at_ t) s
      g.movers.foldl (fun s m => (s.updCore m.1 (fun k => { k with movers := k.movers ++ [m.2] })).later (.moverCommandStart m.1)) s)

/-! Stall resolution (R104 to R107). -/

/-- The clk since which a thread is parked (R104): it waits so, or on a wave engine its next instruction needs a full/empty access
that is parked. -/
def parkedSince (s : State) (t : Thread) : Option Nat :=
  match t.run with
  | .waiting w => if w.parked then some t.parkedAt else none
  | .ready =>
    if s.flights.any (fun f => f.owner == t.uid && f.phase == .parked) && stalled s t then some (max t.parkedAt t.readyAt) else none
  | _ => none

/-- The last clk at which a thread of a group was not parked, when every live thread of it is parked (R104). -/
def groupParked (s : State) (g : Group) : Option Nat :=
  match s.selThreads (fun t => t.grp == g.id && t.ofRecord) with
  | [] => none
  | l => l.foldl (fun (b : Option Nat) t => b.bind (fun m => (parkedSince s t).map (max m))) (some g.lastBusy)

/-- The gang of a record that waits to be placed: the next one never placed, or an evicted one (R106). -/
def waitingGang (s : State) (p st : Nat) (r : Rec) : Option OfferKey :=
  if r.nextGang < r.gangs then some (.fresh r.nextGang) else (savedGang s p st r.slot true).map (fun g => .saved g.id)

/-- The waiting gang fits a die. -/
def waitingFits (s : State) (p st die : Nat) (r : Rec) (key : OfferKey) : Bool :=
  match key with
  | .fresh _ => (nextIndex s p die r).isSome && (fitGang s r die (closedTo s die p st r.slot key) [] (occupied s)).isSome
  | .saved id => ((s.gang? id).map (fun g => g.die == die && restoreFits s g)).getD false
  | .resident => false

/-- Every resident group of a non-resident grid has been parked for 50,000 clk while a gang of it waits and does not fit (R106). -/
def stallDue (s : State) (p st : Nat) (r : Rec) : Bool :=
  let ids := ((s.gangsOf p st r.slot).filter (fun g => g.status == .resident && !g.pixel)).map Gang.id
  let gs := s.groups.filter (fun x => ids.contains x.gang)
  !r.resident && r.state == .running && r.offerable && r.ahead.isNone && !gs.isEmpty &&
    !(s.gangsOf p st r.slot).any (fun g => g.status == .saving || g.status == .restoring) &&
    (match waitingGang s p st r with
      | some key => !(s.presentDies p).any (fun d => waitingFits s p st d r key)
      | none => false) &&
    gs.all (fun g => match groupParked s g with | some c => decide (c + 50000 ≤ s.clk) | none => false)

/-- The state as it would be with these gangs saved. -/
def State.without (s : State) (ids : List Nat) : State :=
  let s : State := { s with gangs := s.gangs.map (fun (g : Gang) => if ids.contains g.id then { g with status := .saved } else g) }
  s.mapThreads (fun t => if ids.contains t.gang && t.ofRecord then { t with hold := .saved } else t)

/-- The gangs to evict on a die so that the waiting gang fits: the fewest of the most recently placed. -/
def evictions (s : State) (p st die : Nat) (r : Rec) (key : OfferKey) : Option (List Nat) :=
  let l := (((s.gangsOf p st r.slot).filter (fun g => g.die == die && g.status == .resident && !g.drained && !g.pixel)).map Gang.id).reverse
  (List.range l.length).findSome? (fun n =>
    let ids := l.take (n + 1)
    if waitingFits (s.without ids) p st die r key then some ids else none)

/-- R106. Parked gangs of a stalled grid are evicted on the lowest-numbered die where that lets its waiting gang fit. -/
def execStallResolution (part stream slot : Nat) (s : State) : Out := .next (
  match s.rec? part stream slot with
  | none => s
  | some r =>
    match (if stallDue s part stream r then waitingGang s part stream r else none) with
    | none => s
    | some key =>
      match (s.presentDies part).findSome? (fun d => (evictions s part stream d r key).map (fun l => (d, l))) with
      | none => s
      | some (d, l) =>
        let s := preempt s l true
        let ids := (s.gangsOf part stream slot).map Gang.id
        let s : State := { s with groups := s.groups.map (fun g => if ids.contains g.gang then { g with lastBusy := s.clk } else g) }
        let key := match key with | .fresh i => .fresh ((nextIndex s part d r).getD i) | k => k
        updRec s part stream slot (fun r => { r with ahead := some (d, key) }))

/-! The window (R96 to R100). -/

/-- A gang for which others were evicted is placed ahead of R97 (R106). -/
def takeAhead (s : State) (p die : Nat) : Option State :=
  (s.part? p).bind (fun q => q.streams.findSome? (fun e => e.2.recs.findSome? (fun r =>
    match r.ahead with
    | some (d, key) =>
      let stale := drawBlocked s p r || !codeReady s die r || (match key with | .fresh i => nextIndex s p die r != some i | _ => false)
      if d = die ∧ r.offerable = true ∧ stale = false then takeOffer s p die e.1 r key else none
    | none => none)))

/-- One die's window: a pixel group, then a ready reservation, then a gang others were evicted for, then R97. -/
def windowDie (s : State) (p die w : Nat) : State × Bool :=
  match (pixelWanted s p die).bind (placePixel s p die) with
  | some s => (s, false)
  | none =>
    match takeDrain s p die with
    | some x => x
    | none =>
      match takeAhead s p die with
      | some s => (s, false)
      | none => (choose s p die w).getD (s, false)

/-- The windows of a partition's dies, in ascending order, as long as no resident grid takes them all. -/
def windowDies (p w : Nat) : List Nat → State → State
  | [], s => s
  | d :: r, s =>
    let (s, all) := windowDie s p d w
    if all then s else windowDies p w r s

/-- What each stream offers the present dies: the record, and each gang once. -/
def offering (s : State) (p : Nat) : List (Nat × Rec × OfferKey) :=
  match s.part? p with
  | none => []
  | some q => q.streams.flatMap (fun e => (((s.presentDies p).filterMap (fun d => offerOf s p d e.1 e.2)).dedup).map (fun x => (e.1, x)))

/-- A gang is no longer to be placed: its reservation is given up. -/
def drainStale (s : State) (x : Drain) : Bool :=
  match s.rec? x.part x.stream x.slot with
  | none => true
  | some r => !r.offerable || (match x.key with
      | .fresh i => if r.ord.isSome then decide (r.gangs ≤ r.nextGang) else decide (i < r.nextGang)
      | .saved id => ((s.gang? id).map (fun g => g.status != .saved)).getD true
      | .resident => r.nextGang != 0)

/-- What a window needs before it chooses: descriptors of draws that are next are asked for, and translations that a cache has lost (R119, R270). -/
def prepare (s : State) (p : Nat) : State :=
  match s.part? p with
  | none => s
  | some q => q.streams.foldl (fun s e =>
      match e.2.recs.find? (fun r => r.offerable && decide (r.nextGang < r.gangs)) with
      | none => s
      | some r =>
        let s := if (s.presentDies p).all (fun d => codeReady s d r) then s else askAll s p r
        match (if drawBlocked s p r then none else drawWaits s p e.1 r) with
        | some w => askUnit s (placerUnit p (64 + e.1)) e.2.home p w
        | none => s) s

/-- A window of a partition. -/
def windowPart (s : State) (p w : Nat) : State :=
  match s.part? p with
  | none => s
  | some q =>
    if !q.running then s
    else
      let s := prepare s p
      let before := offering s p
      let s := q.dies.foldl (fun s d => s.updDie d (fun x => { x with drains := x.drains.filter (fun y => !drainStale s y) })) s
      let s := windowDies p w (s.presentDies p) s
      let still := offering s p
      let s := (before.filter (fun x => still.any (fun y => y.1 == x.1 && y.2.1.slot == x.2.1.slot && y.2.2 == x.2.2))).foldl (fun s x =>
        match s.rec? p x.1 x.2.1.slot with
        | none => s
        | some r =>
          if r.offered.any (fun o => o.1 == x.2.2) then s
          else (updRec s p x.1 r.slot (fun r => { r with offered := r.offered ++ [(x.2.2, s.clk)] })).at_ (s.clk + 20000)
            (.drainReservation p x.1 r.slot)) s
      let s := q.streams.foldl (fun s e => e.2.recs.foldl (fun s r =>
        match s.rec? p e.1 r.slot with
        | some r => if stallDue s p e.1 r then s.later (.stallResolution p e.1 r.slot) else s
        | none => s) s) s
      let s := (s.presentDies p).foldl (fun s d => if (frameTargets s p d).isEmpty then s else s.later (.framePreemption d)) s
      settleRecs s p

/-- R96. A placement window, on a multiple of 64 clk: every placer chooses and places at most one gang. -/
def execPlacementWindow (s : State) : Out := .next (
  let s := (s.parts.map Part.id).foldl (fun s p => windowPart s p (s.clk / 64)) s
  if s.parts.any (fun q => q.running && (q.offers || q.dies.any (fun d => !(s.rast d).quads.isEmpty))) then
    s.atOnce (nextMultiple (s.clk + 1) 64) .placementWindow
  else s)

end Sys2Proof.Machine
end

