-- ==== Sys2Proof/Machine/System.lean ====
section
/-! DEFINITION. System instructions, time-outs, and the resolution of parked threads and of fault table entries (R67, R81, R199, R208 to
R212, R404 to R420). -/

namespace Sys2Proof.Machine
open Sys2Proof

/-! State words (R404, R405, R407). -/

/-- State words that only a supervisor accesses (R404). -/
def superWord (n : Nat) : Bool := n == 40

/-- A state word of the issuing thread as 64 bits; 32-bit words in the low half. -/
def stateWord (s : State) (t : Thread) (n : Nat) : DWord :=
  let k := s.core t.core
  let w (v : Word) : DWord := v.setWidth 64
  let num (v : Nat) : DWord := BitVec.ofNat 64 (v % 2 ^ 32)
  match n with
  | 0 => w t.placeWord
  | 1 => num (t.core * 64)
  | 2 => w t.predWord
  | 3 => t.compat.setWidth 64
  | 4 => t.fxen.setWidth 64
  | 5 => w t.lhpc
  | 6 => w ((t.lhen &&& 0x3C#32) ||| (if t.lhpc = 0 then 0 else 2))
  | 7 => w t.lhret
  | 8 => w t.lhcause
  | 9 => w t.lhdat
  | 10 => w t.h[0]
  | 11 => w t.h[1]
  | 12 => w t.h[2]
  | 13 => w t.h[3]
  | 14 => w k.evc0
  | 15 => w k.evc1
  | 16 => k.evs0.setWidth 64
  | 17 => k.evs1.setWidth 64
  | 18 => BitVec.ofNat 64 s.clk
  | 19 => num t.tid
  | 20 => num (t.gidx % 16 + t.gangIdx % 2 ^ 24 * 16 + t.role % 16 * 2 ^ 28)
  | 21 => t.args
  | 22 => num (t.slot % 256 + t.stream % 64 * 256 + t.part % 32 * 2 ^ 16)
  | 23 => w t.dslo
  | 24 => w t.dshi
  | 25 => w t.basin
  | 40 => w (((s.part? t.part).map Part.wdlim).getD 0)
  | _ => if 32 ≤ n ∧ n ≤ 39 then w (t.rdI (n - 32)) else 0

/-- A state word written. -/
def setStateWord (s : State) (n : Nat) (v : Word) : State :=
  let t := s.th
  match n with
  | 2 => s.put { t with p := (v.setWidth 16 &&& 0xFFFE#16) ||| 1#16 }
  | 5 => s.put { t with lhpc := v }
  | 6 => s.put { t with lhen := v &&& 0x3C#32 }
  | 7 => s.put { t with lhret := v }
  | 10 => s.put { t with h := t.h.set 0 v }
  | 11 => s.put { t with h := t.h.set 1 v }
  | 12 => s.put { t with h := t.h.set 2 v }
  | 13 => s.put { t with h := t.h.set 3 v }
  | 14 => s.updCore t.core (fun c => { c with evc0 := v })
  | 15 => s.updCore t.core (fun c => { c with evc1 := v })
  | 16 => s.updCore t.core (fun c => { c with evs0 := v.setWidth 8 })
  | 17 => s.updCore t.core (fun c => { c with evs1 := v.setWidth 8 })
  | 40 => s.updPart t.part (fun q => { q with wdlim := v })
  | _ => if 32 ≤ n ∧ n ≤ 39 then s.put (t.wrI (n - 32) v) else s

/-- Step 5 of R276: a state word that the thread's privilege does not allow. -/
def privileged (s : State) (n : Nat) (k : State) : State :=
  if superWord n && !s.th.isSuper then raise s (faultOf .privilege 2) else k

/-- R407. D := state word s; a 64-bit word takes a pair. -/
def execSget (d : Code) (w : BitVec 7) (s : State) : Out := .next (
  let n := w.toNat
  privileged s n <|
    if n = 18 ∨ n = 21 then
      ops1 s 2 [] (pair 0 d) fun nd => finish s (s.th.wr2 nd (stateWord s s.th n)) [d] [] 2 (s.th.interval 8 4)
    else
      ops1 s 2 [] (reg 0 d) fun nd => finish s (s.th.wr nd ((stateWord s s.th n).setWidth 32)) [d] [] 2 (s.th.interval 8 4))

/-- R407. State word s := G(A). An index register's own write stands (R184). -/
def execSset (a : Code) (w : BitVec 7) (s : State) : Out := .next (
  let n := w.toNat
  privileged s n <|
    ops1 s 2 [1] (reg 1 a) fun na =>
      let v := s.src s.th 1 na
      let s' := setStateWord (s.put (clearArms s.th [1])) n v
      finish s' s'.th [a] (if 32 ≤ n ∧ n ≤ 39 then [n - 32] else []) 2 (s.th.interval 8 4))

/-- cset of uniform register n of the thread's group (R175, R408). -/
def setUniform (n : Nat) (a : Code) (s : State) : State :=
  onEngine true s 2 <|
    ops1 s 2 [1] (reg 1 a) fun na =>
      let t := s.th
      if t.entered then raise s (faultOf .illegal 2)
      else
        let v := s.src t 1 na
        finish (s.updGroup t.grp (fun g => { g with uni := Table.put g.uni n v })) (clearArms t [1]) [a] [] 2 16

/-- R408. c0 to c127 := G(A). -/
def execCset (n : BitVec 7) (a : Code) (s : State) : Out := .next (setUniform n.toNat a s)

/-- R408. c128 to c255 := G(A). -/
def execCsetHigh (n : BitVec 7) (a : Code) (s : State) : Out := .next (setUniform (128 + n.toNat) a s)

/-- R409. The TRAP cause with code n. -/
def execTrap (n : BitVec 7) (s : State) : Out := .next (raise s { faultOf .trap 2 with code := n.toNat })

/-- The return from a light handler (R155, R410); illegal outside one. -/
def returnHandler (len : Nat) (s : State) : State :=
  if s.th.inH then
    let t := leaveHandler s.th s.clk
    if t.inH then entryAcquire ((coreEvent s t.core 7 1).put t) t else s.put t
  else raise s (faultOf .illegal len)

/-- R410. The return, as the misc.s form. -/
def execLretS (s : State) : Out := .next (returnHandler 1 s)

/-- R410. The return. -/
def execLret (s : State) : Out := .next (returnHandler 2 s)

/-! launch and tlsig (R411, R412). -/

/-- A release at part: a wave thread's cluster L1 is written back (R221, R234). -/
def releasePart (s : State) : State := if s.th.isWave then l1Release s (clusterOf s.th.core) s.th.part else s

/-- The first slot from HEAD on whose 16 words are all empty. -/
def freeSlot (x : Stream) : Option Nat :=
  let used := (x.words.map (fun e => e.1 / 16)).dedup
  ((List.range 256).map (fun i => (x.head + i) % 256)).find? (fun k => !used.contains k)

/-- The image that a launch of the issuing thread has brought from outside the package, if it has. -/
def broughtImage (s : State) : Option (Nat × List Word) :=
  s.flights.findSome? (fun f =>
    match f.op, f.phase with
    | .load 64 _, .done ws => if f.owner = s.th.uid then some (f.id, ws) else none
    | _, _ => none)

/-- A record image posted to a stream: the result of launch, and the state. -/
def postRecord (s : State) (p n : Nat) (img : List Word) : State × Word :=
  match s.part? p with
  | none => (s, 0x80000002)
  | some q =>
    let x := q.stream n
    if !x.en then (s, 0x80000002)
    else match freeSlot x with
      | none => (s, 0x80000001)
      | some k =>
        (((img.zipIdx).foldl (fun s w => fillWord s p n (16 * k + w.2) w.1) s).later (.recordAccept p n), BitVec.ofNat 32 k)

/-- R411. The record image at P(A) is posted to stream G(B). -/
def execLaunch (d a b : Code) (s : State) : Out := .next (
  ops3 s 2 [2] (addrPair 1 a) (reg 2 b) (reg 0 d) fun na nb nd =>
    let t := s.th
    let addr := t.rd2 na
    let n := (s.src t 2 nb).toNat
    if 64 ≤ n then raise s (faultOf .window 2)
    else match checkAddr s (agentOf t 0) addr 64 needR false with
      | .bad c => raise s (faultAt c 2 addr 1)
      | .miss vp => startWalk s vp 1 addr 2
      | .ok l =>
        if l.win ≠ 0 ∧ l.win ≠ 1 ∧ l.win ≠ 3 then raise s (faultAt .window 2 addr 1)
        else if s.undone t.uid then s.put (t.await s.clk .drain 0 [] 2)
        else if homeHeld s t.die l.key then holdRetry s l.key nd 1 (usedIdx t [a, b, d] []) 2
        else
          let post (s : State) (img : List Word) : State :=
            let home := ((s.part? t.part).map (fun q => (q.stream n).home)).getD 0
            let (s, r) := postRecord (releasePart s) t.part n img
            finish s ((clearArms s.th [2]).wr nd r) [a, b, d] [] 2 (latency t.core l.key + 64 + crossing t.die home + 128)
          match broughtImage s with
          | some (id, ws) => post (s.dropFlight id) ws
          | none =>
            if isPeer l.key ∨ isSpan l.key then
              let acc : Acc := ⟨addr, 64, 1, needR, false, .load 64 false, 0, 0, [], 2, false, false, 0, none⟩
              let (s, id) := addFlight s acc l (latency t.core l.key) true false .peer
              let (s, _) := sendOutside s t.die id l.key (.read 64)
              s.put (s.th.await s.clk (.access id) 0 [] 2)
            else
              let (s, img) := (List.range 16).foldl (fun (x : State × List Word) i =>
                let (v, s) := homeRead x.1 (l.key + 4 * i) 4
                (s, x.2 ++ [v.setWidth 32])) (releasePart s, [])
              post s img)

/-- tlsig and tlsig.set: an operation on counter G(A) with P(B). -/
def signalCounter (add : Bool) (a b : Code) (s : State) : State :=
  ops2 s 2 [1] (reg 1 a) (pair 2 b) fun na nb =>
    let t := s.th
    let k := (s.src t 1 na).toNat
    if 4096 ≤ k then raise s (faultOf .window 2)
    else if s.undone t.uid then s.put (t.await s.clk .drain 0 [] 2)
    else
      let c := if t.die = (s.partDies t.part).headD t.die then 0 else 60
      let v := t.rd2 nb
      let s := releasePart s
      ctrOp (finish s (clearArms s.th [1]) [a, b] [] 2 (2 * (64 + c))) t.part add k v

/-- R412. Adds P(B) to counter G(A). -/
def execTlsig (a b : Code) (s : State) : Out := .next (signalCounter true a b s)

/-- R412. Sets counter G(A) to P(B). -/
def execTlsigSet (a b : Code) (s : State) : Out := .next (signalCounter false a b s)

/-! Time-outs (R356, R413, R417). -/

/-- R413. The thread is not eligible until max(8, G(A)) clk from now. -/
def execSleep (a : Code) (s : State) : Out := .next (
  ops1 s 2 [1] (reg 1 a) fun na =>
    let deadline := s.clk + max 8 (s.src s.th 1 na).toNat
    let t := advances (clearArms s.th [1]) (usedIdx s.th [a] [])
    (s.put (t.await s.clk (.sleep deadline) 0 [] 2)).at_ deadline (.sleepExpiry t.uid))

/-- R413. A sleep whose deadline has come ends. -/
def execSleepExpiry (thread : Nat) (s : State) : Out := .next (
  s.updThread thread (fun t =>
    match t.run with
    | .waiting (.sleep d) => if d ≤ s.clk then { t with pc := t.pc + BitVec.ofNat 32 t.fin.len, run := .ready, readyAt := s.clk } else t
    | _ => t))

/-- R356. A barw whose time is over returns 1. -/
def execBarwTimeout (thread : Nat) (s : State) : Out := .next (
  match s.thread? thread with
  | none => s
  | some t =>
    match t.run with
    | .waiting (.barObj k _ d) =>
      if d ≠ 0 ∧ d ≤ s.clk then barInUse (s.updThread thread (fun t => t.complete [1] s.clk)) k else s
    | _ => s)

/-- The limit of a thread's watchdog has come (R417): it is parked, and its group is resident. -/
def watchdogDue (s : State) (t : Thread) : Option Nat :=
  let lim := ((s.part? t.part).map Part.wdlim).getD 0
  match t.run with
  | .waiting w => if w.parked && lim != 0 && t.hold == .running then some (t.parkedAt + 1000 * lim.toNat) else none
  | _ => none

/-- A wait is given up: a full/empty access leaves its home's table, and an object that it leaves may be out of use. -/
def abandonWait (s : State) (w : Wait) : State :=
  match w with
  | .fe id =>
    let s : State := { s.dropFlight id with feWaits := s.feWaits.filter (fun e => e.1 != id) }
    feChange s (s.feWaits.map (·.2))
  | .barObj k _ _ => barInUse s k
  | .weir k _ => s.setRegion k 64 true (!weirIdle (weirEntries s k) || weirWaited s k)
  | _ => s

/-- R417. A thread that has been parked for the limit raises WATCHDOG at its waiting instruction. -/
def execWatchdog (thread : Nat) (s : State) : Out := .next (
  match s.thread? thread, (s.thread? thread).bind (watchdogDue s) with
  | some t, some d =>
    if s.clk < d then s
    else
      let (s, u) := parkFault s t (faultOf .watchdog t.fin.len)
      let s := s.updThread thread (fun _ => u)
      match t.run with
      | .waiting w => abandonWait s w
      | _ => s
  | _, _ => s)

/-! Resolving a parked thread (R418). -/

/-- The thread at TSEL of a die that is parked on a fault. -/
def State.selected (s : State) (die : Nat) : Option (Thread × FaultRec) :=
  (s.findThread (fun t => t.live && t.die == die && t.placeWord == (s.die die).tsel && (match t.run with | .faulted _ => true | _ => false))).bind
    (fun t => match t.run with | .faulted f => some (t, f) | _ => none)

/-- Parcels of the instruction at a thread's PC with its rx prefix, for a fault that does not know them. -/
def parcelCount (s : State) (t : Thread) : Nat :=
  let n (pc : Nat) : Nat := match fetchParcel s t pc with | .parcel v => if v.getLsbD 0 then 2 else 1 | _ => 1
  match decode (Ver.ofByte t.version) (parcelsAt s t t.pc.toNat 2) with
  | some (.rx, k) => k + n (t.pc.toNat + k)
  | some (_, k) => k
  | none => n t.pc.toNat

/-- An action on the thread at TSEL: TERR tells whether one was there; a waiter leaves its fault table entry first. -/
def onSelected (s : State) (die : Nat) (k : State → Thread → FaultRec → State) : State :=
  match s.selected die with
  | none => s.updDie die (fun d => { d with terr := true })
  | some (t, f) =>
    let s := s.updDie die (fun d => { d with terr := false })
    k (match f.entry with
      | some e => if f.cause = .translation ∨ f.cause = .permission then leaveEntry s die e t.uid else s
      | none => s) t f

/-- R418. The thread replays its instruction. -/
def execThreadReplay (die : Nat) (s : State) : Out := .next (
  onSelected s die fun s t _ => s.updThread t.uid (fun t => t.again s.clk))

/-- R418. The thread resumes at the next instruction. [DEDUCED: log 24] -/
def execThreadResumeNext (die : Nat) (s : State) : Out := .next (
  onSelected s die fun s t f =>
    let n := if f.len = 0 then parcelCount s t else f.len
    s.updThread t.uid (fun t => { t.again s.clk with pc := t.pc + BitVec.ofNat 32 n }))

/-- R418. The thread resumes at TPC. -/
def execThreadResumeAtTpc (die : Nat) (s : State) : Out := .next (
  onSelected s die fun s t _ => s.updThread t.uid (fun t => { t.again s.clk with pc := (s.die die).tpc }))

/-- R418. The thread is killed. -/
def execThreadKill (die : Nat) (s : State) : Out := .next (onSelected s die fun s t f => killThread s t.uid f.seq)

/-- An index register that a context write may hold: its reserved bits stay, and a migratory thread's must pack (R160, R418). -/
def contextIdx (t : Thread) (old v : Word) : Word :=
  let v := if bits v.toNat 31 27 = 0 then v else (old &&& 0xF8000000#32) ||| (v &&& 0x07FFFFFF#32)
  if t.reach && !(decide (bits v.toNat 6 0 ≤ 31) && decide (bits v.toNat 13 7 ≤ 31) && decide (bits v.toNat 20 14 ≤ 31) &&
      bits v.toNat 31 27 == 0) then old else v

/-- One 32-bit word of a thread's context written (R418, R420); the index registers of a version-1 thread stay zero (R268). Place, counts, waits and the replay list stay as they are. [DEDUCED: log 35] -/
def writeContext (t : Thread) (off : Nat) (v : Word) : Thread :=
  let k := off / 4
  if k < 128 then (if k < t.count then { t with g := t.g.setIfInBounds k v } else t)
  else if k = 128 then { t with p := (v.setWidth 16 &&& 0xFFFE#16) ||| 1#16 }
  else if k = 129 then { t with pc := v }
  else if k = 131 then (if bits v.toNat 31 14 = 0 then { t with inH := v.getLsbD 0, pend := (BitVec.ofNat 6 (bits v.toNat 7 3) <<< 1) } else t)
  else if 132 ≤ k ∧ k < 140 ∧ t.version = 1 then t
  else if 132 ≤ k ∧ k < 140 then t.wrI (k - 132) (contextIdx t (t.rdI (k - 132)) v)
  else if 140 ≤ k ∧ k < 144 then t.wrX (k - 140) v
  else if 144 ≤ k ∧ k < 148 then { t with h := t.h.setIfInBounds (k - 144) v }
  else if k = 148 then { t with lhpc := v }
  else if k = 149 then { t with lhen := v &&& 0x3C#32 }
  else if k = 150 then { t with lhret := v }
  else if k = 151 then { t with lhcause := v }
  else if k = 152 then { t with lhdat := v }
  else if k = 153 then
    let c := bits v.toNat 31 16
    (if bits c 15 13 = 0 ∧ bits c 6 5 ≠ 3 then { t with compat := BitVec.ofNat 16 c } else t)
  else t

/-- R418. A word of CTX written while the thread is parked on a fault. -/
def execContextWrite (die off : Nat) (value : Word) (s : State) : Out := .next (
  match s.ctxThread die with
  | none => s
  | some t => s.updThread t.uid (fun t => writeContext t off value))

/-! Fault table entries (R211). -/

/-- The record of a partition keeps FAULTED with a SEQ (R62, R93). -/
def noteRec (s : State) (p st slot seq : Nat) : State :=
  updRec s p st slot (fun r => if r.faulted.isNone then { r with faulted := some seq } else r)

/-- The record of a draw of a die's partition keeps FAULTED. -/
def noteDraw (s : State) (die ord seq : Nat) : State :=
  match (s.partOfDie die).bind (fun p => (s.draw? p ord).map (fun d => (p, d))) with
  | some (p, d) => noteRec s p d.stream d.slot seq
  | none => s

/-- A waiter of an entry killed. -/
def killWaiter (die entry seq : Nat) (s : State) (w : Nat) : State :=
  let mine (f : FaultRec) : Bool := f.entry == some entry
  let r := s.rast die
  if 2 ^ 42 ≤ w then
    match r.earlyFault, r.quads with
    | some f, q :: rest =>
      if !mine f then s
      else
        let i := q.tested / 4
        let q' := { q with tested := q.tested + 1, cov := q.cov.set i ((q.cov[i]?.getD 0) &&& ~~~(1#4 <<< (q.tested % 4))) }
        (noteDraw (s.updRast die (fun r => { r with earlyFault := none, quads := q' :: rest })) die q.ord seq).later (.rasterise die)
    | _, _ => s
  else if 2 ^ 41 ≤ w then
    match r.expFault.bind (fun f => (r.exports.find? (fun e => e.thread == f.2)).map (fun e => (f, e))) with
    | some (f, e) =>
      if !mine f.1 then s
      else
        let s := s.updRast die (fun r => { r with expFault := none })
        (noteDraw (match e.todo with | k :: _ => dropSample s die e.thread k | [] => s) die e.ord seq).later (.exportApply die)
    | none => s
  else if 2 ^ 40 ≤ w then
    let core := w - 2 ^ 40
    let hit (c : MoverCmd) : Bool := (c.fault.map mine).getD false
    let cmds := ((s.core core).movers ++ s.gangs.flatMap (fun g => (g.movers.filter (fun m => m.1 == core)).map (·.2))).filter hit
    let s := cmds.foldl (fun s c => if c.poster.ofRecord then noteRec s c.poster.part c.poster.stream c.poster.slot seq else s) s
    (mapMovers s core (fun c => match c.fault with
      | some f => if mine f then { c with fault := none, ended := some (2, f.cause.code, f.addr.toNat) } else c
      | none => c)).later (.moverCommandStart core)
  else
    match s.thread? w with
    | some t => (match t.run with | .faulted f => if mine f then killThread s w seq else s | _ => s)
    | none => s

/-- ACT on an open entry: it resolves, its waiters are released, and it is free, which admits the lowest ticket. -/
def resolveEntry (s : State) (die entry : Nat) (f : Nat → State → Nat → State) : State :=
  match Table.get (s.die die).ftab entry with
  | none => s
  | some e =>
    if e.resolving then s
    else
      let s := s.updDie die (fun d => { d with ftab := Table.put d.ftab entry { e with resolving := true } })
      let s := e.waiters.foldl (f e.seq) s
      admitTicket (s.updDie die (fun d => { d with ftab := Table.drop d.ftab entry })) die

/-- The cached translations of a fault table entry's page are dropped, so that its waiters translate afresh. [DEDUCED: log 26] -/
def dropPage (s : State) (die entry : Nat) : State :=
  match Table.get (s.die die).ftab entry with
  | none => s
  | some f => dropCached s die (fun e => decide (e.vpage ≤ f.vpage) && decide (f.vpage < e.vpage + e.pages)) (fun _ => true)

/-- R211. The waiters of an entry replay, with a fresh translation. [DEDUCED: log 26] -/
def execFaultReplay (die entry : Nat) (s : State) : Out := .next (
  resolveEntry (dropPage s die entry) die entry (fun _ s w => releaseWaiter s die w (fun f => f.entry == some entry)))

/-- R211. The waiters of an entry are killed. -/
def execFaultKill (die entry : Nat) (s : State) : Out := .next (resolveEntry s die entry (killWaiter die entry))

/-! Registers (R57, R81, R199, R418). -/

/-- R81. A die event counter's value or select word written; OVF is cleared by a 1. -/
def execEventCounterWrite (die k : Nat) (select : Bool) (value : DWord) (s : State) : Out := .next (
  let e := s.evCounter die k
  let ovf := if e.sel.getLsbD 61 && !value.getLsbD 61 then 1#64 <<< 61 else 0
  let count := if openEvent e.sel then (Config.freeCount die k s.clk).setWidth 64 else e.count
  let e := if select then { e with count := count, sel := (value &&& 0xC0FFFFFFFFFFFFFF#64) ||| ovf }
    else { e with count := value &&& 0xFFFFFFFFFFFF#64, wrote := s.clk + 1 }
  { s with evc := Table.put s.evc (die * 64 + k) e })

/-- The mirror of a partition's streams for a home (R57): the lowest-numbered other present die, the home in a one-die partition. -/
def mirrorFor (s : State) (p home : Nat) : Nat := ((s.presentDies p).find? (fun d => d != home)).getD home

/-- A word of the memory control block written (R199, R208). [DEDUCED: log 30] -/
def writeMemControl (s : State) (die off : Nat) (super : Bool) (v : DWord) : State :=
  match s.partOfDie die with
  | none => s
  | some p =>
    let busy := ((s.part? p).map Part.ibusy).getD false
    let all (f : MemCtl → MemCtl) (s : State) : State := (s.partDies p).foldl (fun s d => s.updDie d (fun d => { d with mcb := f d.mcb })) s
    match off % 0x1000 with
    | 0x0 => all (fun m => { m with troot := v &&& 0xFFFFFFFFF0001#64 }) s
    | 0x8 =>
      let v := v &&& 0xFFFFFFFFFFFFF#64
      let base := bits v.toNat 51 16 * 65536
      let size := bits v.toNat 15 0 * 65536
      let lo := (32 + die) * 2 ^ 46
      if s.groups.any (fun g => g.id % 8192 / 256 == die && g.backing.any (fun b => b.2 != 0)) ∨
          (size ≠ 0 ∧ (base < lo ∨ lo + Config.stackCapacity < base + size)) then
        (if super then hosterr s p 255 255 255 2 0 (die * 2 ^ 46 + ctlBase + 0x6008)
         else hosterr s p 255 255 255 1 (die * 0x100000 + 0x6008) 0)
      else s.updDie die (fun d => { d with mcb := { d.mcb with privpool := v } })
    | 0x10 => if busy then s else all (fun m => { m with iva := v &&& 0x7FFFFFFFFF0000#64 }) s
    | 0x18 =>
      if busy then s
      else
        let s := all (fun m => { m with ictl := v &&& 0xFFFF0002#64 }) s
        if v.getLsbD 0 then
          let s := s.updPart p (fun q => { q with ibusy := true })
          if v.getLsbD 1 then s.later (.tlbInvalidateAll p)
          else s.later (.tlbInvalidateRange p (bits (s.die die).mcb.iva.toNat 54 16) (bits v.toNat 31 16))
        else s
    | _ => s

/-- A 64-bit word of a stream descriptor written, by the host through a port or by a supervisor (R57, R62, R66). [DEDUCED: log 43] -/
def writeStream (s : State) (p n word : Nat) (port : Option Nat) (v : DWord) : State :=
  match word with
  | 0 =>
    match s.part? p with
    | none => s
    | some q =>
      let x := q.stream n
      let home := bits v.toNat 26 22
      let move := !x.en && q.dies.contains home
      let s := s.updStream p n (fun x => { x with
        cls := bits v.toNat 21 20, en := v.getLsbD 0, home := if move then home else x.home, mirror := if move then mirrorFor s p home else x.mirror })
      let s := if move then copyStream (copyStream s p n home) p n (mirrorFor s p home) else s
      let s := if v.getLsbD 1 then stateOf (execStreamCancel p n s) s else s
      if v.getLsbD 0 then s.later (.recordAccept p n) else s
  | 1 => stateOf (execHostheadWrite p n (v.setWidth 32) s) s
  | 3 => s.updStream p n (fun x => { x with cqhost := v, cqPort := port })
  | _ => s

/-- R57, R199, R210, R418. A register written by name: an action that the value asks for is taken. -/
def execRegisterWrite (r : RegName) (value : DWord) (s : State) : Out :=
  match r with
  | .memControl die off super => .next (writeMemControl s die off super value)
  | .stream p n word port => .next (writeStream s p n word port value)
  | .threadControl die off =>
    if off % 0x1000 = 0 then .next (s.updDie die (fun d => { d with tsel := value.setWidth 32 }))
    else
      let s := s.updDie die (fun d => { d with tpc := value.extractLsb' 32 32 })
      match bits value.toNat 2 0 with
      | 1 => execThreadReplay die s
      | 2 => execThreadResumeNext die s
      | 3 => execThreadResumeAtTpc die s
      | 4 => execThreadKill die s
      | _ => .next s
  | .faultEntry die e =>
    match bits value.toNat 5 4 with
    | 1 => execFaultReplay die e s
    | 2 => execFaultKill die e s
    | _ => .next s
  | .spanClear port => .next (if s.spanUp port then s else s.updLink (320 + port) (fun l => { l with replay := [], queue := [] }))
  | .ideRequire port => .next { s with ports := s.ports.setIfInBounds port { s.port port with ideOnly := true } }

/-- A write of control space that stands in the agenda is applied (R52). -/
def applyControl (s : State) (e : Event) : State :=
  match e with
  | .registerWrite r v => stateOf (execRegisterWrite r v s) s
  | .rasterControlWrite p o v => stateOf (execRasterControlWrite p o v s) s
  | .contextWrite d o v => stateOf (execContextWrite d o v s) s
  | .eventCounterWrite d k sel v => stateOf (execEventCounterWrite d k sel v s) s
  | e => s.later e

/-- What has been put into the agenda behind its first n events is applied now. -/
def applyAgenda (n : Nat) (s : State) : State := (s.agenda.drop n).foldl applyControl { s with agenda := s.agenda.take n }

end Sys2Proof.Machine
end

