-- ==== Sys2Proof/Machine/Host.lean ====
section
/-! DEFINITION. The outside world: the PCI Express ports and the windows of the host, the aperture tables, drives below a root port,
and requests of a peer package (R48 to R57, R71). -/

namespace Sys2Proof.Machine
open Sys2Proof

/-! Runs of bytes at keys. -/

/-- n bytes read from an offset, piece by piece; a piece without a key reads zero. -/
def readKeys (key : Nat → Option Nat) : Nat → State → Nat → Nat → State × List Byte
  | 0, s, _, _ => (s, [])
  | f + 1, s, o, n =>
    if n = 0 then (s, [])
    else
      let z := pieceSize o n
      let (v, s) := match key o with
        | some k => homeRead s k z
        | none => (0, s)
      let (s, r) := readKeys key f s (o + z) (n - z)
      (s, leBytes z v.toNat ++ r)

/-- Bytes written from an offset, piece by piece; a piece without a key is discarded and logged by the service die (R54). -/
def writeKeys (key : Nat → Option Nat) (writer : Option Nat) : Nat → State → Nat → List Byte → State
  | 0, s, _, _ => s
  | f + 1, s, o, l =>
    if l.isEmpty then s
    else
      let z := pieceSize o l.length
      let s := match key o with
        | some k => homeWrite s k z (BitVec.ofNat 128 (leNat (l.take z))) writer
        | none => s.log "discarded write" o
      writeKeys key writer f s (o + z) (l.drop z)

/-- Bytes written from an offset, and what they write of control space applied, before anything that follows them (R52). -/
def writeRunAt (s : State) (key : Nat → Option Nat) (writer : Option Nat) (o : Nat) (l : List Byte) : State :=
  applyAgenda s.agenda.length (writeKeys key writer l.length s o l)

/-- The home of a byte of a run that is held in reset, or that the IO die cannot reach. [DEDUCED: log 86] -/
def heldHome (s : State) (src : Nat) (key : Nat → Option Nat) (o n : Nat) : Option Nat :=
  [o, o + (n - 1)].findSome? (fun o => (key o).bind (fun k => if homeHeld s src k then some (homeSocket k) else none))

/-! Partition memory through BAR4 (R51), and as a peer package sees it (R56). -/

/-- The dies of a partition that bring-up found present: one that is in a reset, or lost since, keeps its place, and accesses to it are
held as R15 gives. [DEDUCED: log 54] -/
def memoryDies (s : State) (p : Nat) : List Nat := (s.partDies p).filter (fun d => (s.die d).present)

/-- The physical address of BAR4 offset o: o mod C of the stack of the j-th present die, j = o div C. -/
def bar4 (s : State) (p o : Nat) : Option Nat :=
  ((memoryDies s p)[o / Config.stackCapacity]?).map (fun d => (32 + d) * 2 ^ 46 + o % Config.stackCapacity)

/-- Every byte of a run is within the partition's memory. -/
def bar4Ok (s : State) (p o n : Nat) : Bool := (bar4 s p o).isSome && (bar4 s p (o + (n - 1))).isSome

/-- A host write through BAR4 as it is performed. -/
def hostWrite (s : State) (p port o : Nat) (data : List Byte) : State :=
  if bar4Ok s p o data.length then writeRunAt s (bar4 s p) (some p) o data else s.send (.unsupported port)

/-- R51. A host write through BAR4, in arrival order for its port (R52). -/
def execHostMemoryWrite (part port off : Nat) (data : List Byte) (s : State) : Out :=
  let e : Event := .hostMemoryWrite part port off data
  if !hostReaches s part port then .next (s.send (.unsupported port))
  else inOrder s port e (.next (
    match heldHome s (56 + port / 2) (bar4 s part) off data.length with
    | some d => holdMessage s d e
    | none => hostWrite s part port off data))

/-- A host read through BAR4 as it is performed. -/
def hostRead4 (s : State) (p port o n : Nat) : State :=
  if bar4Ok s p o n then
    let (s, l) := readKeys (bar4 s p) n s o n
    s.send (.readData port l)
  else s.send (.unsupported port)

/-- R51. A host read through BAR4, behind the earlier requests of its port. -/
def execHostMemoryRead (part port off len : Nat) (s : State) : Out :=
  let e : Event := .hostMemoryRead part port off len
  if !hostReaches s part port then .next (s.send (.unsupported port))
  else inOrder s port e (.next (
    match heldHome s (56 + port / 2) (bar4 s part) off len with
    | some d => holdMessage s d e
    | none => hostRead4 s part port off len))

/-! BAR0 and reads of BAR2 (R51, R57, R58, R67, R68). -/

/-- Word i of a stream descriptor (R57). -/
def streamWord (x : Stream) (i : Nat) : DWord :=
  match i with
  | 0 => BitVec.ofNat 64 ((if x.en then 1 else 0) + x.head * 2 ^ 4 + x.cls * 2 ^ 20 + x.home * 2 ^ 22 + x.mirror * 2 ^ 27)
  | 1 => x.done ++ x.hosthead
  | 2 => 0
  | _ => x.cqhost

/-- A host write to BAR0 as it is performed: a descriptor word or half word, a counter in its own width, FQHEAD; anything else is
discarded with a HOSTERR record. The widths of accesses to descriptors and fault queue registers are the model's. [DESIGN CHOICE: log 99] -/
def controlWrite (s : State) (p port o : Nat) (data : List Byte) : State :=
  let n := data.length
  let v := BitVec.ofNat 64 (leNat data)
  if o % 8 + n ≤ 8 ∧ o + n ≤ 0x800 ∧ (n = 8 ∨ n = 4 ∧ o % 4 = 0) then
    let i := o % 32 / 8
    let old := streamWord (((s.part? p).map (fun q => q.stream (o / 32))).getD Stream.reset) i
    let w : DWord := if n = 8 then v else if o % 8 = 0 then old.extractLsb' 32 32 ++ v.setWidth 32 else v.setWidth 32 ++ old.setWidth 32
    writeStream s p (o / 32) i (some port) w
  else if n = 8 ∧ o % 8 = 0 ∧ 0x10000 ≤ o ∧ o < 0x18000 then stateOf (execTimelineSet p ((o - 0x10000) / 8) v s) s
  else if n = 8 ∧ o % 8 = 0 ∧ 0x20000 ≤ o ∧ o < 0x28000 then stateOf (execTimelineAdd p ((o - 0x20000) / 8) v s) s
  else if o = 0x30008 ∧ (n = 4 ∨ n = 8) then stateOf (execFqheadWrite p (v.setWidth 32) s) s
  else hosterr s p 255 255 255 1 o 0

/-- A host write to BAR0 of a partition's function. -/
def hostControl (s : State) (p port o : Nat) (data : List Byte) : Out :=
  if !hostReaches s p port then .next (s.send (.unsupported port))
  else inOrder s port (.hostControlWrite p port o data) (.next (controlWrite s p port o data))

/-- What n bytes of BAR0 read as: a counter in any other width than its own is discarded with a HOSTERR record, and reads zero. [DEDUCED: log 52] [DESIGN CHOICE: log 99] -/
def controlRead (s : State) (q : Part) (o n : Nat) : State × Nat :=
  let cut (v : DWord) : Nat := v.toNat / 2 ^ (8 * (o % 8)) % 2 ^ (8 * n)
  if o % 8 + n ≤ 8 ∧ o + n ≤ 0x800 then (s, cut (streamWord (q.stream (o / 32)) (o % 32 / 8)))
  else if 0x10000 ≤ o ∧ o < 0x18000 then
    (if n = 8 ∧ o % 8 = 0 then (s, (q.ctr ((o - 0x10000) / 8)).toNat) else (hosterr s q.id 255 255 255 1 o 0, 0))
  else if o % 8 + n ≤ 8 ∧ 0x30000 ≤ o ∧ o < 0x30008 then (s, cut (q.fqTail.setWidth 64))
  else if o % 8 + n ≤ 8 ∧ 0x30008 ≤ o ∧ o < 0x30010 then (s, cut (q.fqHead.setWidth 64))
  else (s, 0)

/-- The key of a byte of BAR2 in the home copy of its stream. -/
def bar2 (q : Part) (o : Nat) : Option Nat :=
  if o < 0x200000 then some ((q.stream (o / 0x8000)).home * 2 ^ 46 + streamOff (o / 0x8000) + o % 0x8000) else none

/-- A host read of BAR0 or BAR2 of a partition's function. -/
def hostReadBar (s : State) (p port bar o n : Nat) : Out :=
  match hostReaches s p port, s.part? p with
  | true, some q =>
    inOrder s port (.hostRead p port bar o n) (.next (
      match (if bar = 2 then heldHome s (56 + port / 2) (bar2 q) o n else none) with
      | some d => holdMessage s d (.hostRead p port bar o n)
      | none =>
        if bar = 2 then
          let (s, l) := readKeys (bar2 q) n s o n
          s.send (.readData port l)
        else
          let (s, v) := controlRead s q o n
          s.send (.readData port (leBytes n v))))
  | _, _ => .next (s.send (.unsupported port))

/-! Physical function 0 (R53, R54). -/

/-- The key of a byte that physical function 0 reaches; none for an absent die or stack and an unpopulated offset. -/
def managementKey (s : State) (bar o : Nat) : Option Nat :=
  let io (socket k : Nat) : Option Nat :=
    if k < 0x280 ∨ (0x1000 ≤ k ∧ k < 0x2000) then some (socket * 2 ^ 46 + 0x3F0000000000 + k) else none
  let here (d : Nat) : Bool := (s.die d).present
  match bar with
  | 0 =>
    if o < 0x10000 then some (60 * 2 ^ 46 + o)
    else if o < 0x12000 then io 56 (o - 0x10000)
    else if 0x20000 ≤ o ∧ o < 0x22000 then io 57 (o - 0x20000)
    else none
  | 2 =>
    let d := o / 0x100000
    if d < 24 ∧ here d then some (d * 2 ^ 46 + ctlBase + o % 0x100000) else none
  | 4 =>
    let d := o / Config.stackCapacity
    if d < 24 ∧ here d then some ((32 + d) * 2 ^ 46 + o % Config.stackCapacity) else none
  | _ => none

/-- A management access as it is performed. [DEDUCED: log 52] -/
def management (s : State) (port bar o : Nat) (write : Bool) (data : List Byte) (n : Nat) : State :=
  if write then writeRunAt s (managementKey s bar) none o data
  else
    let (s, l) := readKeys (managementKey s bar) n s o n
    s.send (.readData port l)

/-- R54. An access through physical function 0 of an endpoint port, behind the earlier requests of the port; it waits for a die held in reset. -/
def execManagementBarAccess (bar : PortBar) (off : Nat) (write : Bool) (data : List Byte) (len : Nat) (s : State) : Out :=
  let e : Event := .managementBarAccess bar off write data len
  let port := bar.port
  if (s.port port).root || !s.portOpen port then .next (s.send (.unsupported port))
  else inOrder s port e (.next (
    match heldHome s (56 + port / 2) (managementKey s bar.bar) off (if write then data.length else len) with
    | some d => holdMessage s d e
    | none => management s port bar.bar off write data len))

/-- R55. A peer aperture entry written. -/
def execApertureEntryWrite (io k : Nat) (entry : BitVec 128) (writer : Option Nat) (s : State) : Out := .next (
  writeAperture s io k entry writer)

/-- R56. A span aperture entry written. -/
def execSpanApertureEntryWrite (io k : Nat) (entry : BitVec 128) (writer : Option Nat) (s : State) : Out := .next (
  writeSpanAperture s io k entry writer)

/-! Ports (R48 to R50). -/

/-- Port k changed. -/
def State.updPort (s : State) (k : Nat) (f : Port → Port) : State := { s with ports := s.ports.setIfInBounds k (f (s.port k)) }

/-- The partitions bound to a port. -/
def boundParts (s : State) (k : Nat) : List Nat :=
  if (s.port k).root then (s.port k).parts else (s.parts.filter (fun q => q.functions.contains k)).map (·.id)

/-- R49. A port is set as an endpoint or as a root port of exactly one partition, while every partition bound to it, before or after, is
in partition reset; else the command is refused with a status. -/
def execPortModeSet (port : Nat) (root : Bool) (parts : List Nat) (s : State) : Out := .next (
  let running := (boundParts s port ++ parts).any (fun p => ((s.part? p).map Part.running).getD false)
  if 4 ≤ port ∨ running ∨ (root ∧ parts.length ≠ 1) then s.send (.status "port mode" 1)
  else
    let s := s.updPort port (fun x => { x with root := root, parts := if root then parts else [] })
    let functions (q : Part) : List Nat :=
      if root then q.functions.filter (fun k => k != port)
      else if parts.contains q.id && !q.functions.contains port then q.functions ++ [port] else q.functions
    let s : State := { s with parts := s.parts.map (fun (q : Part) => { q with functions := functions q }) }
    s.send (.status "port mode" 0))

/-- A LINK record to every partition bound to a port, and a log entry. -/
def linkEvent (s : State) (what : String) (k : Nat) : State :=
  (boundParts s k).foldl (fun s p => linkNote s p k) (s.log what k)

/-- A port's link goes down: its IDE streams end with it. [PRESUMED: log 51] -/
def portDown (s : State) (what : String) (k : Nat) : State :=
  if (s.port k).up then (linkEvent (s.updPort k (fun x => { x with up := false, ide := [] })) what k).send (.linkDown k) else s

/-- R50. IDE keys are set through DOE mailbox 0. -/
def execIdeKeySet (port stream : Nat) (key : List Byte) (s : State) : Out := .next (
  if (s.port port).up then s.updPort port (fun x => { x with ide := Table.put x.ide stream key }) else s)

/-- R50. An integrity failure drops the link and is logged as a link event. -/
def execIdeIntegrityFailure (port : Nat) (s : State) : Out := .next (portDown s "IDE integrity" port)

/-- R48. The link of a port goes down. [PRESUMED: log 51] -/
def execPcieLinkDown (port : Nat) (s : State) : Out := .next (portDown s "PCIe link down" port)

/-- R48. A port trains again after bring-up; a partner that cannot enter FLIT mode leaves it down. -/
def execPcieLinkUp (port : Nat) (flitMode : Bool) (s : State) : Out := .next (
  if 6 ≤ s.phase && flitMode && !(Table.at s.links (56 + port / 2) Link.reset).failed then s.updPort port (fun x => { x with up := true }) else s)

/-! Drives below a root port (R71, R435). -/

/-- The key of a byte that a request from below a root port may address: stacks, cistern and memories of the partition's dies; ranges
that R197 reserves and control space are closed to it. -/
def upstreamKey (s : State) (p a : Nat) : Option Nat :=
  let d := socketOf a
  let o := a % 2 ^ 46
  let dies := memoryDies s p
  if 2 ^ 52 ≤ a then none
  else if isStack a then (if dies.contains (d - 32) && decide (o < Config.stackCapacity) then some a else none)
  else if !dies.contains d then none
  else if o < 0x1D00000 then some a
  else
    match keyCore a with
    | some c =>
      let k := coreIdx c
      let i := (o - 2 ^ 40) % 2 ^ 19
      if coreCluster c < 12 && ((decide (k < 32) && decide (i < 0x60000)) || (decide (32 ≤ k) && decide (k < 38) && decide (i < 0x40000)))
      then some a else none
    | none => none

/-- The keys of a request of n bytes, checked at every aligned piece. -/
def upstreamOk (s : State) (p a n : Nat) : Bool :=
  decide (0 < n) && (List.range ((a % 8 + n + 7) / 8)).all (fun i =>
    (upstreamKey s p (max a (a / 8 * 8 + 8 * i))).isSome)

/-- Words of a cistern that a write covers whole are set full, and threads parked on them wake (R71, R200). -/
def fillCovered (s : State) (a n : Nat) : State :=
  if !isCistern a then s
  else
    let ws := ((List.range (n / 4 + 2)).map (fun i => a / 4 * 4 + 4 * i)).filter (fun w => decide (a ≤ w) && decide (w + 4 ≤ a + n))
    let new := ws.filter (fun w => !isFull s.full w)
    feChange { s with full := ws.foldl addFull s.full } new

/-- A request from below a root port as it is performed. -/
def upstream (s : State) (p port a : Nat) (write : Bool) (data : List Byte) (n : Nat) : State :=
  if !upstreamOk s p a (if write then data.length else n) then s.send (.unsupported port)
  else if write then fillCovered (writeRunAt s (upstreamKey s p) (some p) a data) a data.length
  else
    let (s, l) := readKeys (upstreamKey s p) n s a n
    s.send (.readData port l)

/-- R71. A request from below a root port. -/
def execUpstreamRequest (port : Nat) (addr : DWord) (write : Bool) (data : List Byte) (len : Nat) (s : State) : Out :=
  let e : Event := .upstreamRequest port addr write data len
  let x := s.port port
  let n := if write then data.length else len
  match x.parts.head?.bind s.part? with
  | none => .next (s.send (.unsupported port))
  | some q =>
    if !x.root || !s.portOpen port || !q.running then .next (s.send (.unsupported port))
    else inOrder s port e (.next (
      match heldHome s (56 + port / 2) (upstreamKey s q.id) addr.toNat n with
      | some d => holdMessage s d e
      | none => upstream s q.id port addr.toNat write data len))

/-! Requests of a peer package (R46, R56). -/

/-- Bytes that a request names. -/
def spanSize : SpanOp → Nat
  | .read n => n
  | .write l => l.length
  | .rmw _ w _ _ => if w then 8 else 4

/-- A request of the peer package as it is performed at the homes of the bound partition; the reply leaves from there. -/
def spanServe (s : State) (p port o : Nat) (op : SpanOp) : State :=
  let n := spanSize op
  let src := ((bar4 s p o).map homeSocket).getD (56 + port / 8)
  let reply (s : State) (r : Option (List Byte)) : State := sendSpan (s.send (.spanReply port r)) src port 0 1 ((r.getD []).length)
  if !bar4Ok s p o n then reply s none
  else match op with
    | .read n =>
      let (s, l) := readKeys (bar4 s p) n s o n
      reply s (some l)
    | .write l => reply (writeRunAt s (bar4 s p) (some p) o l) (some [])
    | .rmw k w v x =>
      let (s, l) := readKeys (bar4 s p) n s o n
      let new := rmwNew (if k = 27 then 0 else k) w (BitVec.ofNat 64 (leNat l)) v x
      reply (writeRunAt s (bar4 s p) (some p) o (leBytes n new.toNat)) (some l)

/-- R56. A request arrives on a span port: its PART must be the peer's bound partition, else its flits are bad. -/
def execSpanRequest (port part off : Nat) (op : SpanOp) (s : State) : Out := .next (
  let x := s.span port
  if !s.spanUp port then s
  else if part ≠ x.peerPart then s.updLink (320 + port) (fun l => { l with bad := l.bad + 1 })
  else match heldHome s (56 + port / 8) (bar4 s x.part) off (spanSize op) with
    | some d => holdMessage s d (.spanRequest port part off op)
    | none => spanServe s x.part port off op)

/-! Requests that were held for a die that does not return (R15). -/

/-- A held request to the die itself completes as die-lost: a read returns zeros, a write is discarded. One that only waited behind it
is performed. -/
def loseRequest (s : State) (die : Nat) (e : Event) : State :=
  let lost (p a : Nat) (s : State) : State := dielost s p die a
  match e with
  | .hostMemoryWrite p port o l =>
    if (heldHome s (56 + port / 2) (bar4 s p) o l.length).isSome then lost p ((bar4 s p o).getD 0) s else hostWrite s p port o l
  | .hostMemoryRead p port o n =>
    if (heldHome s (56 + port / 2) (bar4 s p) o n).isSome then (lost p ((bar4 s p o).getD 0) s).send (.readData port (List.replicate n 0))
    else hostRead4 s p port o n
  | .hostStreamWrite p port o l => hostStream s p port o l
  | .hostControlWrite p port o l => controlWrite s p port o l
  | .hostRead p port bar o n =>
    match s.part? p with
    | none => s
    | some q =>
      if bar = 2 ∧ (heldHome s (56 + port / 2) (bar2 q) o n).isSome then (lost p ((bar2 q o).getD 0) s).send (.readData port (List.replicate n 0))
      else stateOf (hostReadBar s p port bar o n) s
  | .managementBarAccess ⟨port, bar⟩ o w l n =>
    if (heldHome s (56 + port / 2) (managementKey s bar) o (if w then l.length else n)).isSome then
      (if w then s.log "discarded write" o else s.send (.readData port (List.replicate n 0)))
    else management s port bar o w l n
  | .upstreamRequest port a w l n =>
    let p := (s.port port).parts.headD 0
    if (heldHome s (56 + port / 2) (upstreamKey s p) a.toNat (if w then l.length else n)).isSome then
      (let s := lost p a.toNat s
       if w then s else s.send (.readData port (List.replicate n 0)))
    else upstream s p port a.toNat w l n
  | .spanRequest port _ o op =>
    let p := (s.spans[port]?.getD Span.reset).part
    if (heldHome s (56 + port / 8) (bar4 s p) o (spanSize op)).isSome then
      (lost p ((bar4 s p o).getD 0) s).send (.spanReply port (some (match op with
        | .read n => List.replicate n 0 | .write _ => [] | .rmw _ w _ _ => List.replicate (if w then 8 else 4) 0)))
    else spanServe s p port o op
  | _ => s

end Sys2Proof.Machine
end

