-- ==== Sys2Proof/Machine/Index.lean ====
section
/-! DEFINITION. Index-register and extension-register instructions (R318 to R321). -/

namespace Sys2Proof.Machine
open Sys2Proof

/-- The value that iset with fields writes: OFFSET 0, reserved bits 0 (R319). -/
def isetValue (base bound : Code) (step : BitVec 4) (inc wrap : BitVec 1) : Word :=
  0#5 ++ wrap ++ inc ++ step ++ 0#7 ++ bound ++ base

/-- iN := a value that needs no operand; the explicit write stands (R184). -/
def setIdx (n : Nat) (v : Word) (s : State) : State := finish s (s.th.wrI n v) [] [] 2 (s.th.interval 8 4)

/-- R319. iN := G(A), reserved bits included. -/
def execIset (n : BitVec 3) (a : Code) (s : State) : Out := .next (
  ops1 s 2 [1] (reg 1 a) fun na =>
    finish s ((clearArms s.th [1]).wrI n.toNat (s.src s.th 1 na)) [a] [n.toNat] 2 (s.th.interval 8 4))

/-- R319. G(A) := iN; the register that A names is operand position 1. -/
def execIget (n : BitVec 3) (a : Code) (s : State) : Out := .next (
  ops1 s 2 [] (reg 1 a) fun na =>
    finish s (s.th.wr na (s.th.rdI n.toNat)) [a] [] 2 (s.th.interval 8 4))

/-- R319. i0 := 0. -/
def execIclr0 (s : State) : Out := .next (setIdx 0 0 s)
/-- R319. i1 := 0. -/
def execIclr1 (s : State) : Out := .next (setIdx 1 0 s)
/-- R319. i2 := 0. -/
def execIclr2 (s : State) : Out := .next (setIdx 2 0 s)
/-- R319. i3 := 0. -/
def execIclr3 (s : State) : Out := .next (setIdx 3 0 s)
/-- R319. i4 := 0. -/
def execIclr4 (s : State) : Out := .next (setIdx 4 0 s)
/-- R319. i5 := 0. -/
def execIclr5 (s : State) : Out := .next (setIdx 5 0 s)
/-- R319. i6 := 0. -/
def execIclr6 (s : State) : Out := .next (setIdx 6 0 s)
/-- R319. i7 := 0. -/
def execIclr7 (s : State) : Out := .next (setIdx 7 0 s)

/-- R319. OFFSET of iN moved by the signed immediate; nothing else of iN changes. -/
def execIadv (n : BitVec 3) (i : BitVec 12) (s : State) : Out := .next (
  setIdx n.toNat (moveOffset (s.th.rdI n.toNat) i.toInt) s)

/-- R319. iN from BASE a, BOUND u, STEP s and POSTINC c, without WRAP. -/
def execIsetFields (n : BitVec 3) (a u : Code) (st : BitVec 4) (c : BitVec 1) (s : State) : Out := .next (
  setIdx n.toNat (isetValue a u st c 0) s)

/-- R319. iN from BASE a, BOUND u, STEP s and POSTINC c, with WRAP. -/
def execIsetWrap (n : BitVec 3) (a u : Code) (st : BitVec 4) (c : BitVec 1) (s : State) : Out := .next (
  setIdx n.toNat (isetValue a u st c 1) s)

/-- R321. xN := the sign-extended immediate. -/
def execXset (n : BitVec 2) (i : BitVec 19) (s : State) : Out := .next (
  finish s (s.th.wrX n.toNat (i.signExtend 32)) [] [] 2 (s.th.interval 8 4))

/-- R321. xN[31:13] := the immediate. -/
def execXsetHi (n : BitVec 2) (i : BitVec 19) (s : State) : Out := .next (
  finish s (s.th.wrX n.toNat (i ++ (s.th.rdX n.toNat).setWidth 13)) [] [] 2 (s.th.interval 8 4))

/-- R321. xN := G(A); an override armed in x1 applies to A, and the write of xN stands whole (R177). -/
def execXld (n : BitVec 2) (a : Code) (s : State) : Out := .next (
  ops1 s 2 [1] (reg 1 a) fun na =>
    finish s ((clearArms s.th [1]).wrX n.toNat (s.src s.th 1 na)) [a] [] 2 (s.th.interval 8 4))

end Sys2Proof.Machine
end

