-- ==== Sys2Proof/Machine/Integer.lean ====
section
/-! DEFINITION. Integer register-register, immediate, compare, predicate, select and constant instructions, and their 16-bit
forms (R278, R303 to R311). -/

namespace Sys2Proof.Machine
open Sys2Proof

/-- Natural truth as a Boolean of a type code's comparison: conditions eq, ne, lt, ge, le, gt (R308). -/
def condHolds (cc : BitVec 3) (eq lt : Bool) : Bool :=
  match cc.toNat with
  | 0 => eq
  | 1 => !eq
  | 2 => lt
  | 3 => !lt
  | 4 => lt || eq
  | _ => !(lt || eq)

/-- DIVIDE (R304): quotient and remainder, towards zero; division by zero and signed overflow raise nothing. -/
def divide {w : Nat} (x y : BitVec w) (signed : Bool) : BitVec w × BitVec w :=
  if y = 0 then (BitVec.allOnes w, x)
  else if signed then (BitVec.sdiv x y, BitVec.srem x y)
  else (x / y, x % y)

/-- Leading zero bits (R305). -/
def countLeading (a : Word) : Nat := (32 - a.toNat.size)

/-- Trailing zero bits among the low n, n when none is set (R305). -/
def countTrailing (a : Word) : Nat := ((List.range 32).find? (fun i => a.getLsbD i)).getD 32

/-- One bits (R305). -/
def popCount (a : Word) : Nat := ((List.range 32).filter (fun i => a.getLsbD i)).length

/-- Bit k moved to bit 31 - k (R305). -/
def reverseBits (a : Word) : Word := a.reverse

/-- ldih: bits [31:13] replaced, [12:0] kept (R307). -/
def replaceHigh (a : Word) (i : BitVec 19) : Word := i ++ a.setWidth 13

/-- A 16-bit form ga := f ga gb: gb is operand position 1, ga position 0 (R278, R314). [DEDUCED: log 20] -/
def alu16 (a : BitVec 6) (b : BitVec 5) (f : Word → Word → Word) (s : State) : State :=
  ops2 s 1 [1] (reg 1 (code16 b)) (reg 0 (code16 a)) fun nb na =>
    finish s ((clearArms s.th [1]).wr na (f (s.th.rd na) (s.src s.th 1 nb))) [] [] 1 (s.th.interval 8 4)

/-- A 16-bit form ga := f ga with no second register. [DEDUCED: log 20] -/
def alu16i (a : BitVec 6) (f : Word → Word) (s : State) : State :=
  ops1 s 1 [] (reg 0 (code16 a)) fun na =>
    finish s (s.th.wr na (f (s.th.rd na))) [] [] 1 (s.th.interval 8 4)

/-- A compare of single registers (R308). -/
def cmp32 (c : BitVec 3) (p : BitVec 4) (a b : Code) (lt : Word → Word → Bool) (s : State) : State :=
  ops2 s 2 [1, 2] (reg 1 a) (reg 2 b) fun na nb =>
    let x := s.src s.th 1 na
    let y := s.src s.th 2 nb
    finish s ((clearArms s.th [1, 2]).wrP p.toNat (condHolds c (x == y) (lt x y))) [a, b] [] 2 (s.th.interval 8 4)

/-- A compare of pairs (R308). -/
def cmp64 (c : BitVec 3) (p : BitVec 4) (a b : Code) (lt : DWord → DWord → Bool) (s : State) : State :=
  ops2 s 2 [] (pair 1 a) (pair 2 b) fun na nb =>
    let x := s.th.rd2 na
    let y := s.th.rd2 nb
    finish s (s.th.wrP p.toNat (condHolds c (x == y) (lt x y))) [a, b] [] 2 (s.th.interval 8 4)

/-- Predicate logic (R310). -/
def predLogic (p : BitVec 4) (v : Bool) (s : State) : State :=
  finish s (s.th.wrP p.toNat v) [] [] 2 (s.th.interval 8 4)

/-- sel (R311): both operands resolve and advance, whichever is chosen. -/
def selState (p : BitVec 4) (inv : Bool) (d a b : Code) (s : State) : State :=
  alu3 2 8 4 d a b (fun x y => if s.th.rdP p.toNat != inv then x else y) s

/-- R303. (a + b) mod 2^32. -/
def execAdd (d a b : Code) (s : State) : Out := .next (alu3 2 8 4 d a b (fun x y => x + y) s)

/-- R303. (a - b) mod 2^32. -/
def execSub (d a b : Code) (s : State) : Out := .next (alu3 2 8 4 d a b (fun x y => x - y) s)

/-- R303. (a × b) mod 2^32. -/
def execMul (d a b : Code) (s : State) : Out := .next (alu3 2 8 4 d a b (fun x y => x * y) s)

/-- R303. Bits [63:32] of the signed product. -/
def execMulh (d a b : Code) (s : State) : Out := .next (alu3 2 8 4 d a b (fun x y => (x.signExtend 64 * y.signExtend 64).extractLsb' 32 32) s)

/-- R303. Bits [63:32] of the natural product. -/
def execMulhn (d a b : Code) (s : State) : Out := .next (alu3 2 8 4 d a b (fun x y => (x.setWidth 64 * y.setWidth 64).extractLsb' 32 32) s)

/-- R303. The signed product in a pair. -/
def execMulw (d a b : Code) (s : State) : Out := .next (alu3w 2 8 4 d a b (fun x y => x.signExtend 64 * y.signExtend 64) s)

/-- R303. The natural product in a pair. -/
def execMulwn (d a b : Code) (s : State) : Out := .next (alu3w 2 8 4 d a b (fun x y => x.setWidth 64 * y.setWidth 64) s)

/-- R304. Signed quotient. -/
def execDiv (d a b : Code) (s : State) : Out := .next (alu3 2 32 32 d a b (fun x y => (divide x y true).1) s)

/-- R304. Natural quotient. -/
def execDivn (d a b : Code) (s : State) : Out := .next (alu3 2 32 32 d a b (fun x y => (divide x y false).1) s)

/-- R304. Signed remainder. -/
def execRem (d a b : Code) (s : State) : Out := .next (alu3 2 32 32 d a b (fun x y => (divide x y true).2) s)

/-- R304. Natural remainder. -/
def execRemn (d a b : Code) (s : State) : Out := .next (alu3 2 32 32 d a b (fun x y => (divide x y false).2) s)

/-- R303. Bitwise and. -/
def execAnd (d a b : Code) (s : State) : Out := .next (alu3 2 8 4 d a b (fun x y => x &&& y) s)

/-- R303. Bitwise or. -/
def execOr (d a b : Code) (s : State) : Out := .next (alu3 2 8 4 d a b (fun x y => x ||| y) s)

/-- R303. Bitwise exclusive or. -/
def execXor (d a b : Code) (s : State) : Out := .next (alu3 2 8 4 d a b (fun x y => x ^^^ y) s)

/-- R303. a AND NOT b. -/
def execAndn (d a b : Code) (s : State) : Out := .next (alu3 2 8 4 d a b (fun x y => x &&& ~~~y) s)

/-- R303. Left shift by b[4:0]. -/
def execShl (d a b : Code) (s : State) : Out := .next (alu3 2 8 4 d a b (fun x y => x <<< (y.toNat % 32)) s)

/-- R303. Logical right shift by b[4:0]. -/
def execShr (d a b : Code) (s : State) : Out := .next (alu3 2 8 4 d a b (fun x y => x >>> (y.toNat % 32)) s)

/-- R303. Arithmetic right shift by b[4:0]. -/
def execSra (d a b : Code) (s : State) : Out := .next (alu3 2 8 4 d a b (fun x y => x.sshiftRight (y.toNat % 32)) s)

/-- R303. Rotate left by b[4:0]. -/
def execRol (d a b : Code) (s : State) : Out := .next (alu3 2 8 4 d a b (fun x y => x.rotateLeft (y.toNat % 32)) s)

/-- R303. Signed lesser. -/
def execMin (d a b : Code) (s : State) : Out := .next (alu3 2 8 4 d a b (fun x y => if x.slt y then x else y) s)

/-- R303. Signed greater. -/
def execMax (d a b : Code) (s : State) : Out := .next (alu3 2 8 4 d a b (fun x y => if x.slt y then y else x) s)

/-- R303. Natural lesser. -/
def execMinn (d a b : Code) (s : State) : Out := .next (alu3 2 8 4 d a b (fun x y => if x.ult y then x else y) s)

/-- R303. Natural greater. -/
def execMaxn (d a b : Code) (s : State) : Out := .next (alu3 2 8 4 d a b (fun x y => if x.ult y then y else x) s)

/-- R305. Leading zeros. -/
def execClz (d a : Code) (s : State) : Out := .next (alu2 2 8 4 d a (fun x => BitVec.ofNat 32 (countLeading x)) s)

/-- R305. Trailing zeros. -/
def execCtz (d a : Code) (s : State) : Out := .next (alu2 2 8 4 d a (fun x => BitVec.ofNat 32 (countTrailing x)) s)

/-- R305. One bits. -/
def execPopc (d a : Code) (s : State) : Out := .next (alu2 2 8 4 d a (fun x => BitVec.ofNat 32 (popCount x)) s)

/-- R305. Bit reversal. -/
def execBrev (d a : Code) (s : State) : Out := .next (alu2 2 8 4 d a (fun x => reverseBits x) s)

/-- R303. 64-bit sum of pairs. -/
def execAddD (d a b : Code) (s : State) : Out := .next (alu3d 2 8 4 d a b (fun x y => x + y) s)

/-- R303. 64-bit difference of pairs. -/
def execSubD (d a b : Code) (s : State) : Out := .next (alu3d 2 8 4 d a b (fun x y => x - y) s)

/-- R304. Signed 64-bit quotient. -/
def execDivS64 (d a b : Code) (s : State) : Out := .next (alu3d 2 32 32 d a b (fun x y => (divide x y true).1) s)

/-- R304. Natural 64-bit quotient. -/
def execDivnN64 (d a b : Code) (s : State) : Out := .next (alu3d 2 32 32 d a b (fun x y => (divide x y false).1) s)

/-- R304. Signed 64-bit remainder. -/
def execRemS64 (d a b : Code) (s : State) : Out := .next (alu3d 2 32 32 d a b (fun x y => (divide x y true).2) s)

/-- R304. Natural 64-bit remainder. -/
def execRemnN64 (d a b : Code) (s : State) : Out := .next (alu3d 2 32 32 d a b (fun x y => (divide x y false).2) s)

/-- R303. A pair shifted left by b[5:0]. -/
def execShlD (d a b : Code) (s : State) : Out := .next (ops3 s 2 [2] (pair 1 a) (reg 2 b) (pair 0 d) fun na nb nd =>
    finish s ((clearArms s.th [2]).wr2 nd (s.th.rd2 na <<< ((s.src s.th 2 nb).toNat % 64))) [a, b, d] [] 2
      (s.th.interval 8 4))

/-- R306. Sum with the sign-extended immediate. -/
def execAddi (d a : Code) (i : BitVec 12) (s : State) : Out := .next (alu2 2 8 4 d a (fun x => x + i.signExtend 32) s)

/-- R306. And with the zero-extended immediate. -/
def execAndi (d a : Code) (i : BitVec 12) (s : State) : Out := .next (alu2 2 8 4 d a (fun x => x &&& i.setWidth 32) s)

/-- R306. Or with the zero-extended immediate. -/
def execOri (d a : Code) (i : BitVec 12) (s : State) : Out := .next (alu2 2 8 4 d a (fun x => x ||| i.setWidth 32) s)

/-- R306. Exclusive or with the zero-extended immediate. -/
def execXori (d a : Code) (i : BitVec 12) (s : State) : Out := .next (alu2 2 8 4 d a (fun x => x ^^^ i.setWidth 32) s)

/-- R306. Left shift by n. -/
def execShli (d a : Code) (n : BitVec 5) (s : State) : Out := .next (alu2 2 8 4 d a (fun x => x <<< n.toNat) s)

/-- R306. Logical right shift by n. -/
def execShri (d a : Code) (n : BitVec 5) (s : State) : Out := .next (alu2 2 8 4 d a (fun x => x >>> n.toNat) s)

/-- R306. Arithmetic right shift by n. -/
def execSrai (d a : Code) (n : BitVec 5) (s : State) : Out := .next (alu2 2 8 4 d a (fun x => x.sshiftRight n.toNat) s)

/-- R307. D := the sign-extended immediate. -/
def execLdi (d : Code) (i : BitVec 19) (s : State) : Out := .next (ops1 s 2 [] (reg 0 d) fun nd => finish s (s.th.wr nd (i.signExtend 32)) [d] [] 2 (s.th.interval 8 4))

/-- R307. D[31:13] := the immediate; D[12:0] kept. -/
def execLdih (d : Code) (i : BitVec 19) (s : State) : Out := .next (ops1 s 2 [] (reg 0 d) fun nd =>
    finish s (s.th.wr nd (replaceHigh (s.th.rd nd) i)) [d] [] 2 (s.th.interval 8 4))

/-- R308. Compare of registers as signed values. -/
def execCmpS32 (c : BitVec 3) (p : BitVec 4) (a b : Code) (s : State) : Out := .next (cmp32 c p a b (fun x y => x.slt y) s)

/-- R308. Compare of registers as natural values. -/
def execCmpN32 (c : BitVec 3) (p : BitVec 4) (a b : Code) (s : State) : Out := .next (cmp32 c p a b (fun x y => x.ult y) s)

/-- R308. Compare of pairs as signed values. -/
def execCmpS64 (c : BitVec 3) (p : BitVec 4) (a b : Code) (s : State) : Out := .next (cmp64 c p a b (fun x y => x.slt y) s)

/-- R308. Compare of pairs as natural values. -/
def execCmpN64 (c : BitVec 3) (p : BitVec 4) (a b : Code) (s : State) : Out := .next (cmp64 c p a b (fun x y => x.ult y) s)

/-- R309. Compare with the sign-extended immediate; ltn and gen compare as natural numbers. -/
def execCmpi (c : BitVec 3) (p : BitVec 4) (a : Code) (i : BitVec 12) (s : State) : Out := .next (ops1 s 2 [1] (reg 1 a) fun na =>
    let x := s.src s.th 1 na
    let y := i.signExtend 32
    let v := if c = 6 then x.ult y else if c = 7 then !x.ult y else condHolds c (x == y) (x.slt y)
    finish s ((clearArms s.th [1]).wrP p.toNat v) [a] [] 2 (s.th.interval 8 4))

/-- R310. pD := pA AND pB. -/
def execPand (p a q : BitVec 4) (s : State) : Out := .next (predLogic p (s.th.rdP a.toNat && s.th.rdP q.toNat) s)

/-- R310. pD := pA OR pB. -/
def execPor (p a q : BitVec 4) (s : State) : Out := .next (predLogic p (s.th.rdP a.toNat || s.th.rdP q.toNat) s)

/-- R310. pD := pA XOR pB. -/
def execPxor (p a q : BitVec 4) (s : State) : Out := .next (predLogic p (s.th.rdP a.toNat != s.th.rdP q.toNat) s)

/-- R310. pD := NOT pA. -/
def execPnot (p a : BitVec 4) (s : State) : Out := .next (predLogic p (!s.th.rdP a.toNat) s)

/-- R311. D := pN ? A : B. -/
def execSel (d a b : Code) (p : BitVec 4) (s : State) : Out := .next (selState p false d a b s)

/-- R311. D := pN ? B : A. -/
def execSelNot (d a b : Code) (p : BitVec 4) (s : State) : Out := .next (selState p true d a b s)

/-- R278. ga := gb. -/
def execMovS (a : BitVec 6) (b : BitVec 5) (s : State) : Out := .next (alu16 a b (fun _ y => y) s)

/-- R278. ga := ga + gb. -/
def execAddS (a : BitVec 6) (b : BitVec 5) (s : State) : Out := .next (alu16 a b (fun x y => x + y) s)

/-- R278. ga := ga - gb. -/
def execSubS (a : BitVec 6) (b : BitVec 5) (s : State) : Out := .next (alu16 a b (fun x y => x - y) s)

/-- R278. ga := ga AND gb. -/
def execAndS (a : BitVec 6) (b : BitVec 5) (s : State) : Out := .next (alu16 a b (fun x y => x &&& y) s)

/-- R278. ga := ga OR gb. -/
def execOrS (a : BitVec 6) (b : BitVec 5) (s : State) : Out := .next (alu16 a b (fun x y => x ||| y) s)

/-- R278. ga := ga XOR gb. -/
def execXorS (a : BitVec 6) (b : BitVec 5) (s : State) : Out := .next (alu16 a b (fun x y => x ^^^ y) s)

/-- R278. ga := ga + the sign-extended immediate. -/
def execAddiS (a : BitVec 6) (i : BitVec 5) (s : State) : Out := .next (alu16i a (fun x => x + i.signExtend 32) s)

/-- R278. ga shifted left by n. -/
def execShliS (a : BitVec 6) (n : BitVec 5) (s : State) : Out := .next (alu16i a (fun x => x <<< n.toNat) s)

/-- R278. ga shifted right by n. -/
def execShriS (a : BitVec 6) (n : BitVec 5) (s : State) : Out := .next (alu16i a (fun x => x >>> n.toNat) s)

/-- R278. ga := the sign-extended immediate. -/
def execLdiS (a : BitVec 6) (i : BitVec 5) (s : State) : Out := .next (alu16i a (fun _ => i.signExtend 32) s)

end Sys2Proof.Machine
end

