-- ==== Sys2Proof/Machine/MemEvents.lean ====
section
/-! DEFINITION. What happens to accesses after they have been issued: homes, replies, page walks, the herald, invalidations,
completions from outside, and homes that do not return from reset (R15, R144, R203, R207, R208, R227 to R229, R352). -/

namespace Sys2Proof.Machine
open Sys2Proof

/-- An ended owner may be forgotten, and its record may have come to its end, once its accesses are performed. -/
def settleOwner (s : State) (uid : Nat) : State :=
  match (s.th :: s.threads).find? (fun t => t.uid == uid) with
  | none => s
  | some t => if t.live then s else recheck (reap s uid) t.part t.stream t.slot

/-- Partition of an access. -/
def State.partOfFlight (s : State) (f : Flight) : Nat :=
  (((s.th :: s.threads).find? (fun t => t.uid == f.owner)).map Thread.part).getD 0

/-- An access comes to the end of its way with this reply. [DEDUCED: log 28] -/
def arriveReply (s : State) (f : Flight) (reply : List Word) : State := settleOwner (flightDone s f reply) f.owner

/-- The die from which an access has left. -/
def State.flightDie (s : State) (f : Flight) : Nat := (((s.th :: s.threads).find? (fun t => t.uid == f.owner)).map Thread.die).getD 0

/-- An access waits for the home of a key in reset from now on, for at most 50,000 clk (R15). [DEDUCED: log 22] -/
def holdFlight (s : State) (f : Flight) (k : Nat) : State :=
  (s.mapFlight f.id (fun g => { g with phase := .held s.clk })).at_ (s.clk + 50000) (.dieLostTimeout (homeSocket k))

/-- An earlier access of the same thread to bytes of this one waits somewhere (R216). -/
def State.behind (s : State) (f : Flight) : Bool :=
  s.flights.any (fun g => g.owner == f.owner && decide (g.id < f.id) && g.undone && rangesMeet (g.op.ranges g.pa) (f.op.ranges f.pa))

/-- A prefetch at its home slice, which allocates the line; the L1 of a wave thread's cluster takes it with the reply (R347). -/
def prefetchHome (s : State) (f : Flight) : State :=
  let s := l2Touch s f.pa f.pte
  if f.viaL1 then (s.mapFlight f.id (fun g => { g with phase := .done [] })).at_ (s.clk + f.rest) (.memoryReply f.id)
  else settleOwner (s.dropFlight f.id) f.owner

/-- An access performed at its home, or as far as it comes there. -/
def arriveHome (s : State) (f : Flight) : State :=
  match f.keys.find? (homeHeld s (s.flightDie f)) with
  | some k => holdFlight s f k
  | none =>
    if f.op == .prefetch then prefetchHome s f
    else if s.behind f then s
    else if f.keys.any isOutside then
      let (s, waits) := sendFlight (s.mapFlight f.id (fun g => { g with phase := .peer })) (s.flightDie f) f.id f.pa f.op (s.partOfFlight f)
      if waits then s else arriveReply s f []
    else if mustWait s f.pa f.op then fePark s f
    else
      let (s, r) := performAt s f.pa f.op f.pte (some (s.partOfFlight f))
      arriveReply s f r

/-- R203. An access that left for its home arrives there. -/
def execHomeAccess (access : Nat) (s : State) : Out := .next (
  match s.flight? access with
  | none => s
  | some f => if f.phase == .sent then arriveHome s f else s)

/-- The line of a prefetch stands in its cluster's L1. -/
def prefetchFill (s : State) (f : Flight) : State :=
  if f.op == .prefetch && f.viaL1 then l1Put s f.dst (l1Fill s.mem (l1Line s f.dst (f.pa / 128 * 128) (s.partOfFlight f))) else s

/-- R144. A reply arrives: the pending registers take it, unless their thread has ended (R315). [DEDUCED: log 28] -/
def execMemoryReply (access : Nat) (s : State) : Out := .next (
  match s.flight? access with
  | none => s
  | some f =>
    match f.phase with
    | .done r =>
      let s := ((prefetchFill s f).dropFlight access).updThread f.owner (fun t => if t.live then t.wrs f.dst r else t)
      settleOwner (pokeOwner s f.owner) f.owner
    | _ => s)

/-! Homes that do not return (R15, R352, R359). -/

/-- What an access brings when a home that it waits for does not return (R15, R352): zeros for what lies there, which is not written either;
its words at other homes are read and written. -/
def lostReply (s : State) (f : Flight) (die : Nat) : State × List Word :=
  let away (k : Nat) : Bool := homeSocket k == die || homeHeld s (s.flightDie f) k || isOutside k
  match f.op with
  | .ldm ks => ks.foldl (fun (x : State × List Word) k =>
      if away k then (x.1, x.2 ++ [0]) else let (v, s) := homeRead x.1 k 4; (s, x.2 ++ [v.setWidth 32])) (s, [])
  | .stm ws => ((performAt s f.pa (.stm (ws.filter (fun w => !away w.1))) f.pte (some (s.partOfFlight f))).1, [])
  | _ => (s, List.replicate f.nreg 0)

/-- The die of a unit. -/
def unitDie (s : State) (u : Nat) : Nat :=
  if 2 ^ 43 ≤ u then ((s.part? ((u - 2 ^ 43) / 256)).map Part.home).getD 0
  else if 2 ^ 42 ≤ u then u - 2 ^ 42
  else if 2 ^ 41 ≤ u then u - 2 ^ 41
  else if 2 ^ 40 ≤ u then coreDie (u - 2 ^ 40)
  else ((s.thread? u).map Thread.die).getD 0

/-- The partition of a unit. -/
def unitPart (s : State) (u : Nat) : Nat :=
  if 2 ^ 43 ≤ u then (u - 2 ^ 43) / 256
  else if 2 ^ 41 ≤ u then (s.partOfDie (unitDie s u)).getD 0
  else if 2 ^ 40 ≤ u then ((s.core (u - 2 ^ 40)).movers.head?.map (fun c => c.poster.part)).getD 0
  else ((s.thread? u).map Thread.part).getD 0

/-- The bytes of a unit's read have come, or it has been lost; the unit goes on. -/
def unitGot (s : State) (r : UnitRead) (data : List Byte) (lost : Bool) : State :=
  let s : State := { s with unitReads := s.unitReads.map (fun x => if x.id == r.id then { x with data := some data, lost := lost } else x) }
  let s := if 2 ^ 40 ≤ r.unit ∧ r.unit < 2 ^ 41 then moverData s (r.unit - 2 ^ 40) r.tag else s
  pokeUnit s r.unit

/-! A walk that waits for a table on a die in reset (R15, R207). -/

/-- The first home in reset among the tables that a walk reads. -/
def walkHeld (s : State) (die : Nat) (w : Walk) : Option Nat :=
  let va := w.vpage * 2 ^ 16
  let x := walkPath s die w.part va w.root
  let at_ (need : Bool) (a : Nat) : List Nat := if need && tableOk s w.part a then [a] else []
  let go := pointerGood s w.part x.e3
  ((at_ (cachedPtr s die w.part 3 (bits va 54 42)).isNone x.a3 ++ at_ (go && (cachedPtr s die w.part 2 (bits va 54 29)).isNone) x.a2 ++
    at_ (go && pointerGood s w.part x.e2) x.a1).find? (homeHeld s die)).map homeSocket

/-- The walk of a die for a page of a partition ends in the translation cause whatever it reads (R205, R213). -/
def spoilWalk (s : State) (die part vpage : Nat) : State :=
  s.updDie die (fun d => { d with walks := d.walks.map (fun w => if w.part == part && w.vpage == vpage then { w with bad := true } else w) })

/-- A message that was held for a die that does not return is lost. A migrant's thread ends with it; a mover's command ends with status
ACCESS; an export or a test leaves its sample unchanged. [DEDUCED: log 42] -/
def loseMessage (s : State) (die : Nat) (e : Event) : State :=
  match e with
  | .messageRegisterArrival _ _ _ u =>
    dielost s (((s.thread? u).map Thread.part).getD ((s.partOfDie die).getD 0)) die 0
  | .mailboxArrival _ _ u _ => dielost s (((s.thread? u).map Thread.part).getD ((s.partOfDie die).getD 0)) die 0
  | .migrantArrival u =>
    match s.thread? u with
    | some t => dielost (endThread s u) t.part die 0
    | none => s
  | .moverCommandStart c =>
    match (s.core c).movers with
    | m :: _ => dielost (endCmd s c m 3 Cause.window.code 0) m.poster.part die 0
    | [] => s
  | .exportApply d =>
    match (s.rast d).exports with
    | x :: _ => (dielost (match x.todo with | k :: _ => dropSample s d x.thread k | [] => s) ((s.partOfDie d).getD 0) die 0).later (.exportApply d)
    | [] => s
  | .rasterise d =>
    match (s.rast d).quads with
    | q :: rest =>
      let i := q.tested / 4
      let q' := { q with tested := q.tested + 1, cov := q.cov.set i ((q.cov[i]?.getD 0) &&& ~~~(1#4 <<< (q.tested % 4))) }
      (dielost (s.updRast d (fun r => { r with quads := q' :: rest })) ((s.partOfDie d).getD 0) die 0).later (.rasterise d)
    | [] => s
  | .peerReadCompletion id _ _ =>
    match s.unitReads.find? (fun r => r.id == id) with
    | some r => dielost (unitGot s r (List.replicate r.len 0) true) (unitPart s r.unit) die r.key
    | none => s
  | .pageWalkComplete d p v => (spoilWalk s d p v).later (.pageWalkComplete d p v)
  | e => loseRequest s die e

/-- The accesses and messages held for a die since at least 50,000 clk, or all of them, complete as die-lost. -/
def loseHeld (s : State) (die : Nat) (all : Bool) : State :=
  let old (c : Nat) : Bool := all || decide (c + 50000 ≤ s.clk)
  let fs := s.flights.filter (fun f => f.keys.any (fun k => homeSocket k == die) && (match f.phase with | .held c => old c | _ => false))
  let ms := s.heldMsgs.filter (fun m => m.die == die && old m.since)
  let s : State := { s with heldMsgs := s.heldMsgs.filter (fun m => !(m.die == die && old m.since)),
                            heralds := s.heralds.filter (fun h => !fs.any (fun f => f.id == h.id)) }
  let s := fs.foldl (fun s f =>
    let k := (f.keys.find? (fun k => homeSocket k == die)).getD f.pa
    let (s, r) := lostReply s f die
    dielost (arriveReply s f r) (s.partOfFlight f) (socketOf (if k < 2 ^ 52 then k else die * 2 ^ 46)) k) s
  ms.foldl (fun s m => loseMessage s die m.event) s

/-- R15, R40. What has been held for 50,000 clk for a die that is still in reset, or that cannot be reached, completes with a die-lost
record: a load returns zero, a store is discarded. -/
def execDieLostTimeout (die : Nat) (s : State) : Out := .next (loseHeld s die false)

/-- Announced operations in the order S: by window, then by place (R228). -/
def insertS (h : Herald) : List Herald → List Herald
  | [] => [h]
  | x :: r => if h.due.getD 0 < x.due.getD 0 ∨ (h.due = x.due ∧ h.key < x.key) then h :: x :: r else x :: insertS h r

/-- What was held for a die goes on when it has returned (R15): announced sc operations first, in the order S (R229). -/
def releaseHeld (s : State) (die : Nat) : State :=
  let held (f : Flight) : Bool := f.keys.any (fun k => keyDie k == some die) && (match f.phase with | .held _ => true | _ => false)
  let fs := s.flights.filter held
  let ms := s.heldMsgs.filter (fun m => m.die == die)
  let s : State := { s with heldMsgs := s.heldMsgs.filter (fun m => m.die != die) }
  let sc := s.heralds.filter (fun h => fs.any (fun f => f.id == h.id))
  let s := (sc.foldl (fun l h => insertS h l) []).foldl (fun s h => s.later (.heraldCompletion h.id)) s
  let s := (fs.filter (fun f => !sc.any (fun h => h.id == f.id))).foldl (fun s f =>
    if f.op == .ldm [] then (s.dropFlight f.id).updThread f.owner (fun t => t.again s.clk)
    else (s.mapFlight f.id (fun g => { g with phase := .sent })).later (.homeAccess f.id)) s
  ms.foldl (fun s m => s.later m.event) s

/-! Page walks and invalidations (R207, R208). -/

/-- A thread put among others in the order of their places. [DEDUCED: log 29] -/
def insertPlace (t : Thread) : List Thread → List Thread
  | [] => [t]
  | x :: r => if x.orderKey ≤ t.orderKey then x :: insertPlace t r else t :: x :: r

/-- What a walk has found is filled into the second level and into the TLBs of the clusters that wait for it (R207). -/
def fillWalk (s : State) (die : Nat) (w : Walk) (ts : List Thread) (pte : DWord) (pages : Nat) : State :=
  let e : TlbEntry := ⟨w.part, w.vpage / pages * pages, pages, pte⟩
  (ts.map (fun t => t.core / 64)).dedup.foldl (fun s c => fillCluster s c e) (tlbFill s die w.part w.vpage pte pages)

/-- The threads that wait for a walk, in the order of their places. -/
def walkThreads (s : State) (die : Nat) (w : Walk) : List Thread :=
  (s.selThreads (fun t => t.run == .waiting (.walk die w.vpage) && t.part == w.part)).foldl (fun l t => insertPlace t l) []

/-- A walk is over: the next that waits begins; with a translation what waits goes on, without one the threads take the translation cause, and
units find that the walk has failed. [DEDUCED: log 29] -/
def endWalk (s : State) (die : Nat) (w : Walk) (found : Option (DWord × Nat)) : State :=
  let ts := walkThreads s die w
  let s := s.updDie die (fun d => { d with walks := d.walks.filter (fun x => !(x.part == w.part && x.vpage == w.vpage)) })
  let s := match (s.die die).walks[63]? with
    | some x => beginWalk s die x
    | none => s
  let s := match found with
    | some (pte, pages) => ts.foldl (fun s t => s.updThread t.uid (fun t => t.again s.clk)) (fillWalk s die w ts pte pages)
    | none => ts.foldl (fun s t =>
        let (s, u) := parkFault s t (faultAt .translation t.fin.len (BitVec.ofNat 64 (t.fin.adv.headD 0)) t.fin.dst)
        s.updThread t.uid (fun _ => u)) { s with badWalks := s.badWalks ++ w.waits.map (fun u => (u, w.vpage)) }
  w.waits.foldl pokeUnit s

/-- R207. A walk ends: its pointer entries and its translation are filled, and its threads execute again, or the translation cause parks them.
It waits for a table on a die in reset. [DEDUCED: log 29] -/
def execPageWalkComplete (die part vpage : Nat) (s : State) : Out := .next (
  match (s.die die).walks.find? (fun w => w.part == part && w.vpage == vpage) with
  | none => s
  | some w =>
    if w.bad then endWalk s die w none
    else match walkHeld s die w with
      | some d => holdMessage s d (.pageWalkComplete die part vpage)
      | none => endWalk (cachePath s die part (vpage * 2 ^ 16) w.root) die w (walkFrom s die part (vpage * 2 ^ 16) w.root))

/-- Translations of a partition dropped on all its dies, and every entry of its walk caches (R208). -/
def dropTlb (s : State) (p : Nat) (f : TlbEntry → Bool) : State :=
  let s := (s.partDies p).foldl (fun s d => dropCached s d (fun e => e.part == p && f e) (fun e => e.part == p)) s
  (s.updPart p (fun q => { q with ibusyFrom := s.nextId })).at_ (s.clk + 512) (.invalidationComplete p)

/-- R208. The translations of a range of pages are dropped, large ones that overlap it whole. [DEDUCED: log 41] -/
def execTlbInvalidateRange (part first count : Nat) (s : State) : Out := .next (
  dropTlb s part (fun e => meets e.vpage e.pages first count))

/-- R208. Every translation of the partition is dropped. -/
def execTlbInvalidateAll (part : Nat) (s : State) : Out := .next (dropTlb s part (fun _ => true))

/-- An access of a partition that was translated before an identity was given has not been performed yet: a thread's, one with which a thread
is on its way, or a unit's. -/
def translatedBefore (s : State) (part id : Nat) : Bool :=
  s.flights.any (fun f => s.partOfFlight f == part && f.pte != 0 && f.undone && decide (f.id < id)) ||
    s.anyThread (fun t => t.part == part && (t.carried.any (fun x => x.2.2 != 0) || t.update.isSome)) ||
    s.unitReads.any (fun r => unitPart s r.unit == part && r.data.isNone && decide (r.id < id))

/-- R208. IBUSY reads 0 once every access that was translated before has been performed at its home. [DEDUCED: log 41] -/
def execInvalidationComplete (part : Nat) (s : State) : Out := .next (
  match s.part? part with
  | none => s
  | some q =>
    if translatedBefore s part q.ibusyFrom then s.at_ (s.clk + 64) (.invalidationComplete part)
    else s.updPart part (fun q => { q with ibusy := false }))

/-! The herald (R227 to R229). -/

/-- An operation put among others in the order of R227: those carried from earlier windows first, then by place. -/
def insertHerald (now : Nat) (h : Herald) : List Herald → List Herald
  | [] => [h]
  | x :: r =>
    let carried (y : Herald) : Bool := decide (y.window < now)
    if (carried h && !carried x) || (carried h == carried x && decide (h.key < x.key)) then h :: x :: r else x :: insertHerald now h r

/-- The operations that each die announces in a window: what it has announced there counts (R227). -/
def announceNow (s : State) (now : Nat) : List Herald :=
  let wait := s.heralds.filter (fun h => h.due.isNone && decide (h.window ≤ now))
  (List.range 24).flatMap (fun d =>
    let told := (s.heralds.filter (fun h => h.die == d && h.due == some (now + 160))).length
    ((wait.filter (fun h => h.die == d)).foldl (fun l h => insertHerald now h l) []).take (64 - told))

/-- R227. A window of 32 clk: each die announces at most 64 operations, which complete 128 clk after the window's end, in the order S. [DEDUCED: log 21] -/
def execHeraldWindow (s : State) : Out := .next (
  let now := s.clk / 32 * 32
  let due := now + 160
  let ids := (announceNow s now).map Herald.id
  let s : State := { s with heralds := s.heralds.map (fun (h : Herald) => if ids.contains h.id then { h with due := some due } else h) }
  let all := s.heralds.filter (fun h => h.due == some due)
  let s : State := { s with timers := s.timers.filter (fun x => !(x.1 == due && all.any (fun h => x.2 == .heraldCompletion h.id))) }
  let s := (all.foldl (fun l h => insertS h l) []).foldl (fun s h => s.at_ due (.heraldCompletion h.id)) s
  if s.heralds.any (fun h => h.due.isNone) then s.atOnce (now + 33) .heraldWindow else s)

/-- The acquire that an announced operation's completion is (R228). -/
def heraldAcquire (s : State) (h : Herald) : State :=
  match s.thread? h.thread with
  | some t => if t.isWave then l1Acquire s (clusterOf t.core) t.part else s
  | none => s

/-- An announced read-modify-write at its homes: its reply leaves them now, and its thread is ready when it arrives. -/
def heraldApply (s : State) (h : Herald) (f : Flight) : State :=
  let (s, r) := performAt s f.pa f.op f.pte (some (s.partOfFlight f))
  let s := (s.dropFlight f.id).updThread f.owner (fun t =>
    if t.run == .waiting (.access f.id) then { t.complete r (s.clk + f.rest) with performedAt := s.clk } else t)
  settleOwner (heraldAcquire s h) f.owner

/-- R228. An announced operation completes: a fence.sc lets its thread go on; an sc read-modify-write is applied at its home, on the package or
outside it, and its reply leaves; each is an acquire. -/
def execHeraldCompletion (access : Nat) (s : State) : Out := .next (
  match s.heralds.find? (fun h => h.id == access) with
  | none => s
  | some h =>
    let gone : State := { s with heralds := s.heralds.filter (fun x => x.id != access) }
    if h.fence then
      heraldAcquire (gone.updThread h.thread (fun t => if t.run == .waiting (.access access) then t.complete [] s.clk else t)) h
    else
      match s.flight? access with
      | none => gone
      | some f =>
        match f.keys.find? (homeHeld s (s.flightDie f)) with
        | some k => holdFlight s f k
        | none =>
          if f.keys.any isOutside then
            (sendFlight (gone.mapFlight f.id (fun g => { g with phase := .peer, acq := ((s.thread? h.thread).map Thread.isWave).getD false }))
              (s.flightDie f) f.id f.pa f.op (s.partOfFlight f)).1
          else heraldApply gone h f)

/-! Completions from outside the package (R55, R56). -/

/-- A PEERERR record: the address, and aperture and completion status in the detail. [DEDUCED: log 42] -/
def peerErr (s : State) (p pa status : Nat) : State :=
  let io := socketOf pa - 56
  let o := pa % 2 ^ 46
  let ap := if isSpan pa then (o - 2 ^ 45) / 2 ^ 41 else o / 2 ^ 40
  fqNote s p (fqBytes 10 0 (56 + io) 0 pa (Config.openDetail 10 [ap, status]))

/-- The reply words of an access whose data came from outside; words of it within the package are read there. [DEDUCED: log 76] -/
def outsideReply (s : State) (op : AccOp) (d : List Byte) : State × List Word :=
  let v (n : Nat) : BitVec 128 := BitVec.ofNat 128 (sliceNat d 0 n)
  match op with
  | .load n sx => (s, if n ≤ 16 then replyWords n (loadValue n sx (v n))
      else (List.range (n / 4)).map (fun i => BitVec.ofNat 32 (sliceNat d (4 * i) 4)))
  | .rmw _ w _ _ ret => (s, if ret then replyWords (if w then 8 else 4) (v (if w then 8 else 4)) else [])
  | .rmwPair _ _ _ _ ret => (s, if ret then replyWords 8 (v 8) else [])
  | .ldm ks =>
    let (s, r, _) := ks.foldl (fun (x : State × List Word × Nat) k =>
      if isOutside k then (x.1, x.2.1 ++ [BitVec.ofNat 32 (sliceNat d (4 * x.2.2) 4)], x.2.2 + 1)
      else let (w, s) := homeRead x.1 k 4; (s, x.2.1 ++ [w.setWidth 32], x.2.2)) (s, [], 0)
    (s, r)
  | _ => (s, [])

/-- A thread's access outside is over. -/
def accessOutside (s : State) (f : Flight) (data : List Byte) : State :=
  let (s, r) := outsideReply s f.op data
  if f.op.size = 64 then (s.mapFlight f.id (fun g => { g with phase := .done r })).updThread f.owner (fun t => t.again s.clk)
  else arriveReply s f r

/-- A completion of an outside access, with its status and data: an error returns zero and writes a PEERERR record. A unit's read at a home in
reset goes on there. -/
def outsideDone (s : State) (access status : Nat) (data : List Byte) : State :=
  let data := if status = 0 then data else []
  match s.flight? access with
  | some f =>
    if f.phase != .peer then s
    else
      let k := (f.keys.find? isOutside).getD f.pa
      accessOutside (if status = 0 then s else peerErr s (s.partOfFlight f) k status) f data
  | none =>
    match s.unitReads.find? (fun r => r.id == access && r.data.isNone) with
    | none => s
    | some r =>
      if !isOutside r.key then pokeUnit { s with unitReads := s.unitReads.filter (fun x => x.id != access) } r.unit
      else unitGot (if status = 0 then s else peerErr s (unitPart s r.unit) r.key status) r ((data ++ List.replicate r.len 0).take r.len) false

/-- R55. The completion of a read that left the package. -/
def execPeerReadCompletion (access status : Nat) (data : List Byte) (s : State) : Out := .next (outsideDone s access status data)

/-- R55. A completion that has not come after 50 ms is an error. -/
def execPeerReadTimeout (access : Nat) (s : State) : Out := .next (outsideDone s access 4 [])

end Sys2Proof.Machine
end

