-- ==== Sys2Proof/Machine/Reset.lean ====
section
/-! DEFINITION. Resets, loss and return of dies, bring-up, partitions, the supervisor's start, measurements and reports, and
uncorrectable errors (R11 to R23, R65, R66, R70, R92, R127). -/

namespace Sys2Proof.Machine
open Sys2Proof

/-! Work of a record that is stopped (R65, R66). -/

/-- A thread waits for, or on, an object whose use may end with it. -/
def objectOf (t : Thread) : Option (Nat × Bool) :=
  match t.run with
  | .waiting (.barObj k _ _) => some (k, true)
  | .waiting (.weir k _) => some (k, false)
  | _ => none

/-- An object may have come out of use. -/
def settleObject (s : State) (o : Nat × Bool) : State :=
  if o.2 then barInUse s o.1 else s.setRegion o.1 64 true (!weirIdle (weirEntries s o.1) || weirWaited s o.1)

/-- Threads cease at once: they leave the fault table, their waits and places; accesses that wait are given up, others of theirs are
performed, and so are the operations that the herald has announced (R229). -/
def ceaseThreads (s : State) (mine : Thread → Bool) : State :=
  let ts := (s.th :: s.threads).filter mine
  let ids := ts.map Thread.uid
  let s := ts.foldl (fun s t =>
    match t.run with
    | .faulted f => (match f.entry with
        | some e => if f.cause = .translation ∨ f.cause = .permission then leaveEntry s t.die e t.uid else s
        | none => s)
    | _ => s) s
  let s := ts.foldl (fun s t => dropPrivate s t false) s
  let told (id : Nat) : Bool := s.heralds.any (fun h => h.id == id && h.due.isSome)
  let given (f : Flight) : Bool := ids.contains f.owner && !told f.id &&
    (f.blocks || (match f.phase with | .parked => true | .herald => true | .done _ => true | _ => false))
  let gone := (s.flights.filter given).map Flight.id
  let waits := s.feWaits
  let s : State := { s with
    flights := s.flights.filter (fun f => !given f), feWaits := s.feWaits.filter (fun w => !gone.contains w.1)
    heralds := s.heralds.filter (fun h => h.due.isSome || !ids.contains h.thread)
    cores := s.cores.map (fun c => (c.1, { c.2 with
      landing := c.2.landing.filter (fun u => !ids.contains u), overflow := c.2.overflow.filter (fun u => !ids.contains u)
      port := c.2.port, wave := c.2.wave.filter (fun u => !ids.contains u) })) }
  let s := s.mapThreads (fun t => if mine t then
    { t with run := .absent, hold := .running, pend := 0, rx := false, vacated := false, place := .nowhere, replay := [] } else t)
  let s : State := { s with threads := s.threads.filter (fun t => t.live || t.place != .nowhere || s.outstanding t.uid) }
  let s := if waits.length = s.feWaits.length then s else feChange s (waits.map (·.2))
  let s := (ts.filterMap objectOf).foldl settleObject s
  (ts.map Thread.place).foldl offerPlace s

/-- Groups and gangs cease: their matrix instructions, held B bytes and rill wires go with them. -/
def ceaseGangs (s : State) (gangs : List Nat) : State :=
  let gs := s.groups.filter (fun g => gangs.contains g.gang)
  let ids := gs.map Group.id
  { s with
    groups := s.groups.filter (fun g => !gangs.contains g.gang), gangs := s.gangs.filter (fun g => !gangs.contains g.id)
    regions := s.regions.filter (fun r => r.whole || !ids.contains r.team.1)
    cores := s.cores.map (fun c =>
      let k := { c.2 with mmaQ := c.2.mmaQ.filter (fun j => !ids.contains j.team.1) }
      (c.1, if k.wires.any (fun w => gangs.contains w.gang) then { k with wires := [], rill := Vector.replicate 4 [] } else k)) }

/-- Mover commands of these posters cease; the next command of each mover starts. -/
def ceaseMovers (s : State) (mine : Poster → Bool) : State :=
  (s.cores.filter (fun c => c.2.movers.any (fun m => mine m.poster))).foldl (fun s c =>
    (s.updCore c.1 (fun k => { k with movers := k.movers.filter (fun m => !mine m.poster) })).later (.moverCommandStart c.1)) s

/-- The reservations of a record are given up. -/
def dropDrains (s : State) (p st slot : Nat) : State :=
  (s.partDies p).foldl (fun s d => s.updDie d (fun d => { d with
    drains := d.drains.filter (fun x => !(x.part == p && x.stream == st && x.slot == slot)) })) s

/-- Everything of a record's run stops. -/
def stopWork (s : State) (p st slot : Nat) : State :=
  let gangs := (s.gangsOf p st slot).map Gang.id
  let s := ceaseMovers s (fun m => m.ofRecord && m.part == p && m.stream == st && m.slot == slot)
  let s := ceaseThreads s (fun t => t.ofRecord && t.part == p && t.stream == st && t.slot == slot)
  dropDrains (ceaseGangs s gangs) p st slot

/-- A record that has been started is stopped: it runs again when it is restartable and no draw, else it completes with this status and
detail (R65, R66, R127). [DEDUCED: log 45, 46] -/
def stopRecord (s : State) (p st slot status detail : Nat) : State :=
  match s.rec? p st slot with
  | none => s
  | some r =>
    if r.status.isSome then s
    else
      let s := stopWork s p st slot
      if (r.word 0).testBit 4 && r.ord.isNone then
        updRec s p st slot (fun r => { r with state := .ready, nextGang := 0, ended := 0, offered := [], rerun := true, ahead := none })
      else holdRec s p st slot status detail

/-! A die that is lost or reset (R15, R37, R65, R70, R127). -/

/-- A thread stands on a die, or waits there to land, or its context is still on its way from there (R15). -/
def standsOn (s : State) (die : Nat) (t : Thread) : Bool :=
  t.hold != .saved &&
    (match t.place with
    | .transit c =>
      if t.vacated || (s.core c).landing.contains t.uid || (s.core c).overflow.contains t.uid then t.die == die else coreDie t.origin == die
    | _ => t.die == die)

/-- The started records with work on a die: partition, stream and slot. Saved gangs count only when the stack is lost too. -/
def workOn (s : State) (die : Nat) (lost : Bool) : List (Nat × Nat × Nat) :=
  let a := (s.selThreads (fun t => t.ofRecord && standsOn s die t)).map (fun t => (t.part, t.stream, t.slot))
  let b := (s.gangs.filter (fun g => g.die == die && (lost || g.status != .saved))).map (fun g => (g.part, g.stream, g.slot))
  let c := s.cores.flatMap (fun c => if coreDie c.1 = die then
    (c.2.movers.filter (fun m => m.poster.ofRecord)).map (fun m => (m.poster.part, m.poster.stream, m.poster.slot)) else [])
  (a ++ b ++ c).dedup

/-- A running draw of a partition goes on without a die: a close names it, its gangs there count as ended, and the draw will complete
with DIE_LOST (R127). [DEDUCED: log 46] -/
def loseDraw (s : State) (p die : Nat) (d : Draw) : State :=
  match s.part? p, s.rec? p d.stream d.slot with
  | some q, some r =>
    if (r.state != .running && r.state != .ending) || r.status.isSome then s
    else
      let here := d.dies.contains die && !d.gone.contains die
      let next := Table.at d.next die r.gangs
      let unplaced := if here ∧ next < r.gangs then (r.gangs - next + d.dies.length - 1) / d.dies.length else 0
      let placed := (s.gangs.filter (fun g => g.part == p && g.stream == d.stream && g.slot == d.slot && g.die == die && !g.pixel)).length
      let n := r.ended + unplaced + (if here then placed else 0)
      let s := s.updPart p (fun q => { q with draws := q.draws.map (fun x =>
        if x.ord == d.ord then { x with gone := x.gone ++ [die], next := Table.put x.next die r.gangs } else x) })
      let s := updRec s p d.stream d.slot (fun r => { r with
        lost := r.lost.orElse (fun _ => some die), nextGang := r.nextGang + unplaced, ended := n,
        state := if n = r.gangs ∧ r.state = .running then .ending else r.state })
      sendClose s p (q.stream d.stream).home d.ord die
  | _, _ => s

/-- The records of a fault queue copied to a die that has become counter home or mirror (R70). [DEDUCED: log 48] -/
def copyQueue (s : State) (p die : Nat) : State :=
  match s.part? p with
  | none => s
  | some q =>
    let base := fqAddr die 0
    let m := clearRange s.mem base (base + 0x40000)
    { s with mem := q.fq.foldl (fun m e => writeList m (fqAddr die e.1) e.2.bytes) m }

/-- The lowest present die of a partition other than one. -/
def otherDie (s : State) (p die : Nat) : Option Nat := (s.presentDies p).find? (fun d => d != die)

/-- Homes and mirrors move off a die: streams by R65, counters and fault queue by R70. [DEDUCED: log 48] -/
def moveHomes (s : State) (p die : Nat) : State :=
  match s.part? p with
  | none => s
  | some q =>
    let s := q.streams.foldl (fun s e =>
      let x := e.2
      if x.home = die ∧ x.mirror ≠ die then
        let m := mirrorFor s p x.mirror
        let s := s.updStream p e.1 (fun y => { y with home := x.mirror, mirror := m })
        if m = x.mirror then s else copyStream s p e.1 m
      else if x.mirror = die ∧ x.home ≠ die then
        let m := mirrorFor s p x.home
        let s := s.updStream p e.1 (fun y => { y with mirror := m })
        if m = x.home then s else copyStream s p e.1 m
      else s) s
    let renew (home : Nat) (s : State) : State :=
      let m := otherDie s p home
      let s := s.updPart p (fun q => { q with home := home, mirror := m })
      match m with
      | some d => copyQueue s p d
      | none => s
    if q.home = die then (match q.mirror with | some h => renew h s | none => s)
    else if q.mirror = some die then renew q.home s
    else s

/-- A key in a compute die's own memories: cistern, local memories, scratchpads, channel-core memories. -/
def ownMemory (die k : Nat) : Bool :=
  (decide (die * 2 ^ 46 ≤ k) && decide (k < (die + 1) * 2 ^ 46)) ||
    (decide (2 ^ 52 + die * 32 * 2 ^ 19 ≤ k) && decide (k < 2 ^ 52 + (die + 1) * 32 * 2 ^ 19))

/-- What has left a die and is still on its way: its flits, sluice messages, and the messages of its threads and movers (R15). -/
def leftDie (s : State) (die : Nat) (e : Event) : Bool :=
  let from_ (u : Nat) : Bool := if 2 ^ 40 ≤ u then coreDie (u - 2 ^ 40) == die else
    (s.th :: s.threads).any (fun t => t.uid == u && t.live && standsOn s die t)
  match e with
  | .primitiveMessage x _ _ | .watermark x _ _ | .credit x _ _ => x == die
  | .flitReceive n _ => n == 336 + die
  | .repeatTimeout n _ => n == die || n == 336 + die
  | .messageRegisterArrival _ _ _ u => from_ u
  | .mailboxArrival _ _ u _ => from_ u
  | _ => false

/-- The link of a die is held in reset: its own end forgets everything, the router's what it has exchanged, and keeps what it is to send (R15). -/
def holdLink (s : State) (die : Nat) : State :=
  let s := s.updLink die (fun l => l.renew [])
  s.updLink (336 + die) (fun l => l.renew (regroup l.replay ++ l.queue))

/-- A DIE CLEARED (R15): its cores, caches, memories, rasteriser and blocks; everything that stands there ends without a record. An
access parked at one of its words is held at its source from now on, and what has left it and is still on its way is discarded.
[DEDUCED: log 45, 54] -/
def clearDie (s : State) (die : Nat) (lost : Bool) : State :=
  let mine (f : Flight) : Bool := (match f.phase with | .sent => true | .held _ => true | _ => false) &&
    !s.heralds.any (fun h => h.id == f.id && h.due.isSome) && (s.th :: s.threads).any (fun t => t.uid == f.owner && standsOn s die t)
  let s : State := { s with
    timers := s.timers.filter (fun x => !leftDie s die x.2), agenda := s.agenda.filter (fun e => !leftDie s die e)
    flights := s.flights.filter (fun f => !mine f) }
  let s := ceaseThreads s (fun t => t.live && standsOn s die t || (!t.live && t.place != .nowhere && t.die == die))
  let s := ceaseGangs s ((s.gangs.filter (fun g => g.die == die && (lost || g.status != .saved))).map Gang.id)
  let s := if lost then ceaseThreads s (fun t => t.hold == .saved && t.die == die) else s
  let parked (f : Flight) : Bool := f.phase == .parked && ownMemory die f.pa
  let some_ := s.flights.any parked
  let s : State := { s with
    cores := s.cores.filter (fun c => coreDie c.1 != die), l1 := s.l1.filter (fun c => c.1 / 16 != die)
    mem := s.mem.filter (fun c => !ownMemory die c.1), full := s.full.filter (fun k => !ownMemory die k)
    regions := s.regions.filter (fun r => !ownMemory die r.key)
    flights := s.flights.map (fun f => if parked f then { f with phase := .held s.clk } else f)
    feWaits := s.feWaits.filter (fun w => !ownMemory die w.2)
    feTickets := s.feTickets.filter (fun t => t.1 != 2 ^ 30 + die && !(decide (t.1 < 2 ^ 30) && coreDie t.1 == die))
    l2 := s.l2.filter (fun e => e.1 / 2 ^ 14 != die), ctlb := s.ctlb.filter (fun e => e.1 / 16 != die), evc := s.evc.filter (fun e => e.1 / 64 != die) }
  let s := holdLink s die
  let s := s.updDie die (fun d => { Die.reset with
    present := d.present, lost := d.lost || lost, saved := if lost then none else d.saved, clearing := d.clearing, left := d.left, tcache := d.tcache, tpend := d.tpend, inReset := true })
  let s := (s.peers die).foldl (fun s e => s.updRast e (fun r => r.updSource die (fun x => { x with early := [], marks := [] }))) s
  if some_ then s.at_ (s.clk + 50000) (.dieLostTimeout die) else s

/-- Gangs of other dies that have lost their last thread with a die end, and draws go on with what is there. -/
def settleAfter (s : State) (p : Nat) : State :=
  let s := (s.groups.map Group.id).foldl groupCheck s
  let s := (s.gangs.map Gang.id).foldl gangCheck s
  let s := ((s.part? p).map Part.dies).getD [] |>.foldl (fun s e => if (s.die e).inReset then s else (s.later (.primitiveSetup e)).later (.mergeRelease e)) s
  let s := ((s.part? p).map (fun q => q.draws)).getD [] |>.foldl (fun s d => recheck s p d.stream d.slot) s
  settleRecs s p

/-- What the loss or the reset of a die does to its partition, and the die itself. -/
def takeDie (s : State) (die : Nat) (lost : Bool) : State :=
  match s.partOfDie die with
  | none => clearDie s die lost
  | some p =>
    let work := workOn s die lost
    let s := s.updDie die (fun d => { d with inReset := true, lost := d.lost || lost })
    let s := moveHomes s p die
    let s := if lost then fqNote s p (fqBytes 3 0 die 0 0 (Config.openDetail 3 (work.flatMap (fun w => [w.2.1, w.2.2])))) else s
    let s := (((s.part? p).map Part.draws).getD []).foldl (fun s d => loseDraw s p die d) s
    let s := work.foldl (fun s w =>
      match s.rec? w.1 w.2.1 w.2.2 with
      | some r => if r.ord.isSome then s else stopRecord s w.1 w.2.1 w.2.2 2 die
      | none => s) s
    settleAfter (clearDie s die lost) p

/-- R65. A die and its stack are lost. -/
def execDieLost (die : Nat) (s : State) : Out := .next (
  if 24 ≤ die ∨ (s.die die).lost ∨ (s.die die).present = false then s else takeDie (s.log "die lost" die) die true)

/-- Neither a die's link nor its stack's has failed. -/
def State.linkGood (s : State) (die : Nat) : Bool := !(s.link die).failed && !(s.link (32 + die)).failed

/-- R15. A die reset: the die's egress is quiesced and its link held in reset for 2 µs. A die in no partition is held until it joins
one; a die that has been lost returns by it, unless a link has failed (R65). [DEDUCED: log 44] -/
def execDieReset (die : Nat) (s : State) : Out := .next (
  if 24 ≤ die ∨ (s.die die).present = false then s
  else if (s.die die).lost then (if s.linkGood die then s.at_ (s.clk + 2000) (.dieLinkRetrain die) else s)
  else
    let p := s.partOfDie die
    let s := takeDie s die false
    if p.isSome then s.at_ (s.clk + 2000) (.dieLinkRetrain die) else s)

/-- R15. The die's link is retrained, in at most 20 µs (R37); a die that joins a partition comes out of its reset in the same way. -/
def execDieLinkRetrain (die : Nat) (s : State) : Out := .next (
  if (s.die die).inReset && s.linkGood die then
    (s.updLink die (fun l => { l with training := true })).at_ (s.clk + 20000) (.dieReturn die)
  else s)

/-! The supervisor (R92). -/

/-- One supervisor thread: role k of the object in slot 56 + k of channel core 0. [DEDUCED: log 37] -/
def supervisorThread (s : State) (p die va : Nat) (o : CodeObj) (k : Nat) (e : RoleEntry) : State :=
  let c := coreNo die 15 0
  match lowestFit ((occupied s).regsOf c) (allocOf e.nreg) 2048 1 with
  | none => s
  | some b =>
    let t := firstThread s.nextId s.clk o e (BitVec.ofNat 64 va) ⟨k, 0, .swarm c (56 + k), b, false⟩
    let t : Thread := { t with part := p, privSize := 0, g := t.g.setIfInBounds 2 (BitVec.ofNat 32 die) }
    { s with nextId := s.nextId + 1, threads := s.threads ++ [t] }

/-- The supervisor threads of a die. -/
def startSupervisor (s : State) (p die : Nat) : State :=
  match (s.part? p).bind Part.superCode with
  | none => s
  | some (va, o) => (o.roles.zipIdx).foldl (fun s e => supervisorThread s p die va o e.2 e.1) s

/-- A return from reset (R15, R65, R70, R92): copies are restored where the die is home or mirror, its supervisor threads start again,
and what was held for it goes on. -/
def returnDie (s : State) (die : Nat) : State :=
  let s := s.updDie die (fun d => { d with inReset := false, lost := false })
  let s := (s.updLink die (fun l => l.trained die)).updLink (336 + die) (fun l => l.trained (336 + die))
  let s := pumpLink s (336 + die)
  match s.partOfDie die with
  | none => releaseHeld s die
  | some p =>
    let s := (s.partDies p).foldl (fun s e => if e = die then s else s.updRast e (fun r =>
      (r.updSource die (fun x => { x with nextSeq := 0, returned := 0 })).updDest die (fun x => { x with nextSeq := 0, credits := 0 }))) s
    let s := match s.part? p with
      | none => s
      | some q =>
        let s := q.streams.foldl (fun s e =>
          let x := e.2
          if x.home = die ∨ x.mirror = die then copyStream (if x.home = x.mirror then
            (let m := mirrorFor s p x.home
             let s := s.updStream p e.1 (fun y => { y with mirror := m })
             if m = x.home then s else copyStream s p e.1 m) else s) p e.1 die
          else if x.home = x.mirror then
            copyStream (s.updStream p e.1 (fun y => { y with mirror := mirrorFor s p x.home })) p e.1 (mirrorFor s p x.home)
          else s) s
        if q.home = die ∨ q.mirror = some die then copyQueue s p die
        else if q.mirror.isNone ∧ q.running then
          (match otherDie s p q.home with
            | some m => copyQueue (s.updPart p (fun q => { q with mirror := some m })) p m
            | none => s)
        else s
    let s := if ((s.part? p).map Part.running).getD false then startSupervisor s p die else s
    let s := releaseHeld s die
    let s := homePump s p
    let s := ((s.part? p).map (fun q => q.streams.map (fun e => e.1))).getD [] |>.foldl (fun s n => s.later (.recordAccept p n)) s
    settleRecs s p

/-- R15. A die returns from reset. -/
def execDieReturn (die : Nat) (s : State) : Out := .next (
  if 24 ≤ die ∨ (s.die die).inReset = false ∨ (s.die die).present = false ∨ !s.linkGood die then s else returnDie s die)

/-! Partition, device and cold reset (R15, R66). -/

/-- R15, R66, R103. A partition reset: every started record completes once or will run again, a record in WAITING completes, supervisor threads
end, the measurement register is cleared, and every die of the partition is reset. Counters, fault queue and streams are kept in their copies.
[DEDUCED: log 44, 47, 101] -/
def execPartitionReset (part : Nat) (s : State) : Out := .next (
  match s.part? part with
  | none => s
  | some q =>
    let dies := q.dies.filter (fun d => (s.die d).present && !(s.die d).lost)
    let s := dies.foldl (fun s d => s.updDie d (fun d => { d with inReset := true })) s
    let s := q.streams.foldl (fun s e => (e.2.recs.filter (fun r => r.state != .accepted && r.state != .ready)).foldl (fun s r =>
      if r.state == .waiting then (if r.status.isSome then s else holdRec s part e.1 r.slot 5 0) else stopRecord s part e.1 r.slot 5 0) s) s
    let s := dies.foldl (fun s d => clearDie s d false) s
    let s := ceaseThreads s (fun t => t.part == part && t.live)
    let s := ceaseGangs s ((s.gangs.filter (fun g => g.part == part)).map Gang.id)
    let s : State := match q.measReg with
      | some r => { s with meas := s.meas.setIfInBounds r 0 }
      | none => s
    let s := s.updPart part (fun q =>
      let started (d : Draw) : Bool := (q.stream d.stream).recs.all (fun r => r.slot != d.slot || r.status.isSome)
      let draws := q.draws.filter (fun d => !started d)
      { q with running := false, superCode := none, fqSeq := 0, fqWait := [], wdlim := 0, rastWait := [], ibusy := false, starting := none
               homeWait := q.homeWait.filter (fun o => match o with | .counter _ _ _ => true | _ => false), draws := draws })
    dies.foldl (fun s d => s.at_ (s.clk + 2000) (.dieLinkRetrain d)) s)

/-- An event that comes from outside the package alone. -/
def Event.external : Event → Bool
  | .coldReset | .deviceReset | .partitionReset _ | .clockFault | .clockReferenceReturn | .partitionConfiguration _ | .measurementExtend _ _
  | .attestationReport _ | .supervisorStart _ _ | .portModeSet _ _ _ | .ideKeySet _ _ _ | .hostStreamWrite _ _ _ _ | .timelineSet _ _ _
  | .timelineAdd _ _ _ | .hostMemoryWrite _ _ _ _ | .hostMemoryRead _ _ _ _ | .managementBarAccess _ _ _ _ _ | .upstreamRequest _ _ _ _ _
  | .spanRequest _ _ _ _ | .pcieLinkDown _ | .pcieLinkUp _ _ | .junctionSensorRead _ _ | .hostControlWrite _ _ _ _ | .hostRead _ _ _ _ _
  | .flitReceive _ _ | .serviceDieFailure | .serviceDieReturn => true
  | _ => false

/-- R15. A cold reset: everything is as State.reset has it; what still comes from outside stands. -/
def execColdReset (s : State) : Out := .next (
  { State.reset with agenda := s.agenda.filter Event.external, out := s.out, free := s.free })

/-- An event of a link between routers. -/
def routerEvent (e : Event) : Bool :=
  let is (n : Nat) : Bool := decide (64 ≤ n) && decide (n < 320)
  match e with
  | .flitReceive n _ | .repeatTimeout n _ | .linkRetrain n | .retrainingComplete n | .laneRepairComplete n _ => is n
  | _ => false

/-- All passengers but the service die cleared, with partition configuration: its log, the measurements, its mailbox, the routers with their
links, which are no passengers, and the count of clk stand (R15, R20). -/
def deviceClear (s : State) : State :=
  { State.reset with
    agenda := s.agenda.filter Event.external, out := s.out, free := s.free, nextId := s.nextId, clk := s.clk, sdLog := s.sdLog
    meas := s.meas, mbox := s.mbox, sdUp := s.sdUp, population := s.population, badRoutes := s.badRoutes
    links := s.links.filter (fun l => decide (64 ≤ l.1) && decide (l.1 < 320)), timers := s.timers.filter (fun x => routerEvent x.2) }

/-- R15. A device reset: bring-up begins again. -/
def execDeviceReset (s : State) : Out := .next ((deviceClear s).at_ (s.clk + 200000000) (.bringUpPhase []))

/-! The clock and the junction sensors (R11, R14). -/

/-- R11. The reference input is lost: recorded, and the package is held in reset. [DEDUCED: log 50] -/
def execClockFault (s : State) : Out := .next ({ (deviceClear s).log "clock fault" 60 with clockHeld := true })

/-- R11. The reference returns: bring-up begins. [DEDUCED: log 50] -/
def execClockReferenceReturn (s : State) : Out := .next (
  if s.clockHeld && !s.faultPin then ({ s with clockHeld := false }).at_ (s.clk + 200000000) (.bringUpPhase []) else s)

/-- R14. The hottest reading: above 105 °C an alarm record in every fault queue and the log; above 115 °C the clock stops, dies and stacks
lose their power and state, and the trip is latched. -/
def execJunctionSensorRead (celsius socket : Nat) (s : State) : Out := .next (
  if 115 < celsius then
    let s := (List.range 4).foldl (fun s k => if (s.port k).up then s.send (.linkDown k) else s) (s.log "thermal trip" socket)
    { deviceClear s with trip := true, meas := s.meas, phase := s.phase }
  else if 105 < celsius then
    (s.parts.map Part.id).foldl (fun s p => fqNote s p (fqBytes 8 0 socket 0 0 (Config.openDetail 8 [celsius, socket]))) (s.log "thermal alarm" socket)
  else s)

/-! Bring-up (R16). -/

/-- Time of each phase: its bound (R16). [DESIGN CHOICE: log 49] -/
def phaseTime (k : Nat) : Nat :=
  match k with
  | 1 => 200000000
  | 2 => 5000000
  | 3 => 20000000
  | 4 => 1500000000
  | 5 => 300000000
  | 6 => 100000000
  | _ => 1

/-- A die and its stack are marked absent. -/
def markAbsent (s : State) (failed : List Nat) : State :=
  (List.range 24).foldl (fun s d => if failed.contains d || failed.contains (32 + d) then s.updDie d (fun x => { x with present := false }) else s) s

/-- Sockets with a passenger (R6). -/
def populatedSockets : List Nat := List.range 24 ++ (List.range 24).map (32 + ·) ++ [56, 57, 60]

/-- The firmware is loaded: its signing key is the one that the ROM anchors, its signature verifies over its digest, and its security version is
not below the fused minimum (R19). -/
def firmwareLoads : Bool :=
  leNat (sm3 Config.firmwareKey).reverse == Config.romKeyDigest.toNat &&
    Config.sm2Verify Config.firmwareKey Config.firmwareDigest Config.firmwareSignature && !Config.securityVersion.ult Config.fusedVersion

/-- The sockets at which a phase fails, of the numbers that its event names: in phase 6 these are ports, PCI Express 0 to 3 and span port j as
4 + j; firmware that is not loaded is a failure of the service die. -/
def failedSockets (k : Nat) (failed : List Nat) : List Nat :=
  if k = 1 then (if firmwareLoads then failed else 60 :: failed.filter (· != 60))
  else if k = 6 then failed.map (fun n => if n < 4 then 56 + n / 2 else 56 + (n - 4) / 8)
  else failed

/-- A router has a neighbour across its link n (R6). -/
def routerLinkIs (n : Nat) : Bool :=
  let x := (n - 64) / 4 % 8
  let y := (n - 64) / 32
  match (n - 64) % 4 with
  | 0 => decide (x < 7)
  | 1 => decide (0 < x)
  | 2 => decide (y < 7)
  | _ => decide (0 < y)

/-- Phase 3: every socket link trains at both its ends, and the links between routers that are not in service yet. -/
def trainLinks (s : State) (failed : List Nat) : State :=
  let s := populatedSockets.foldl (fun s n =>
    if failed.contains n then s.updLink n (fun l => { l with failed := true })
    else (s.updLink n (fun l => l.trained n)).updLink (336 + n) (fun l => l.trained (336 + n))) s
  (((List.range 256).map (64 + ·)).filter routerLinkIs).foldl (fun s n =>
    if (s.link n).up || (s.link n).failed then s else s.updLink n (fun l => l.trained n)) s

/-- A socket's passenger is present. -/
def State.here (s : State) (n : Nat) : Bool :=
  if n < 24 then (s.die n).present && !(s.die n).lost
  else if n < 56 then (s.die (n - 32)).present && !(s.die (n - 32)).lost
  else !(s.link n).failed

/-- The presence map: bit s for socket s (R21). -/
def presenceMap (s : State) : Nat := populatedSockets.foldl (fun m n => if s.here n then m + 2 ^ n else m) 0

/-- The action of a phase, with the numbers at which it fails. -/
def phaseAction (k : Nat) (failed : List Nat) (s : State) : State :=
  match k with
  | 1 =>
    if firmwareLoads && failed.isEmpty then
      { s with meas := Vector.ofFn (fun i => if i.val = 0 then Config.firmwareDigest
                                             else if i.val < 4 then Config.microcodeDigest i.val else s.meas[i]) }
    else { s with clockHeld := true, faultPin := true }
  | 2 => if failed.isEmpty then s else { s with clockHeld := true }
  | 3 => markAbsent ((List.range 24).foldl (fun s d => s.updDie d (fun x => { x with present := true })) (trainLinks s failed)) failed
  | 4 =>
    let s := markAbsent s failed
    { s with mem := (List.range 24).foldl (fun m d =>
        if (s.die d).present then clearRange m ((32 + d) * 2 ^ 46) ((33 + d) * 2 ^ 46) else m) s.mem }
  | 5 =>
    let s := markAbsent s failed
    (List.range 24).foldl (fun s d => if (s.die d).present then clearDie s d false else s) s
  | 6 =>
    let io (k : Nat) : Bool := !(s.link (56 + k)).failed
    let s : State := { s with ports := Vector.ofFn (fun i => { s.ports[i] with up := !failed.contains i.val && io (i.val / 2) }) }
    (List.range 16).foldl (fun s j =>
      sendControl (s.updLink (320 + j) (fun _ => { Link.reset with up := !failed.contains (4 + j) && io (j / 8) })) (320 + j)) s
  | _ =>
    let m := presenceMap s
    ({ s with population := BitVec.ofNat 64 m }).send (.identity (BitVec.ofNat 64 m) Config.stackCapacity Config.identityKey Config.identityCert)

/-- R16. A phase of bring-up ends, its failures recorded by socket; the next begins unless the package stays in reset. [DESIGN CHOICE: log 49] -/
def execBringUpPhase (failed : List Nat) (s : State) : Out := .next (
  if s.trip || s.clockHeld || 7 ≤ s.phase then s
  else
    let k := s.phase + 1
    let s : State := { s with timers := s.timers.filter (fun x => match x.2 with | .bringUpPhase _ => false | _ => true) }
    let s := (failedSockets k failed).foldl (fun s n => s.log "bring-up failure" n) s
    let s := phaseAction k failed s
    if s.clockHeld then s
    else
      let s : State := { s with phase := k }
      if k < 7 then s.at_ (s.clk + phaseTime (k + 1)) (.bringUpPhase []) else s)

/-! Partition configuration (R17, R18, R70, R78). -/

/-- A partition without dies. -/
def Part.fresh (p : Nat) : Part where
  id := p
  dies := []
  running := false
  superCode := none
  measReg := none
  functions := []
  streams := []
  ctrs := []
  home := 0
  mirror := none
  fqTail := 0
  fqHead := 0
  fqSeq := 0
  fqDropped := 0
  fqWait := []
  fq := []
  homeWait := []
  wdlim := 0
  draws := []
  rastWait := []
  ibusy := false
  ibusyFrom := 0
  starting := none

/-- A partition that a command names exists from then on. -/
def withPart (s : State) (p : Nat) : State :=
  if (s.part? p).isSome then s else { s with parts := s.parts ++ [Part.fresh p] }

/-- A number inserted in ascending order. -/
def insertAsc (x : Nat) : List Nat → List Nat
  | [] => [x]
  | y :: r => if x < y then x :: y :: r else y :: insertAsc x r

/-- A link whose flits partitions share: between routers, or of an IO die (R78). -/
def isShared (n : Nat) : Bool := (decide (64 ≤ n) && decide (n < 320)) || n == 56 || n == 57 || n == 392 || n == 393

/-- A partition's floor and ceiling on a link set; the sum of floors stays at most 63 (R78). -/
def setShare (s : State) (n p f c : Nat) : Option State :=
  let others := (Table.at s.shares n []).filter (fun e => e.1 != p)
  if !isShared n ∨ 24 ≤ p ∨ c < f ∨ 63 < c ∨ 63 < (others.map (fun e => e.2.1)).sum + f then none
  else some { s with shares := Table.put s.shares n (others ++ [(p, f, c)]) }

/-- A configuration command obeyed, or none when it is refused. -/
def configure (s : State) (c : PartCmd) : Option State :=
  let idle (p : Nat) : Bool := !((s.part? p).map Part.running).getD false
  match c with
  | .addDie p d =>
    let x := s.die d
    if 24 ≤ p ∨ 24 ≤ d ∨ !x.present ∨ x.lost ∨ !x.inReset ∨ x.clearing ∨ (s.partOfDie d).isSome ∨ !idle p then none
    else some (((withPart s p).updPart p (fun q => { q with dies := insertAsc d q.dies })).updDie d (fun x => { x with left := none }) |>.at_
      (s.clk + 2000) (.dieLinkRetrain d))
  | .removeDie p d =>
    if s.partOfDie d ≠ some p ∨ !(s.die d).inReset ∨ !idle p then none
    else some (((s.updPart p (fun q => { q with dies := q.dies.filter (fun x => x != d) })).updDie d (fun x => { x with
      left := some p, clearing := true })).at_ (s.clk + 1500000000) (.stackClearComplete d))
  | .setShare n p f c => setShare s n p f c
  | .setMeasure p r =>
    if 24 ≤ p ∨ r < 4 ∨ 16 ≤ r ∨ !idle p then none else some ((withPart s p).updPart p (fun q => { q with measReg := some r }))
  | .setFunction p k on =>
    if 24 ≤ p ∨ 4 ≤ k ∨ (s.port k).root then none
    else some ((withPart s p).updPart p (fun q => { q with functions :=
      if on then (if q.functions.contains k then q.functions else insertAsc k q.functions) else q.functions.filter (fun x => x != k) }))
  | .bindSpan p k =>
    if 24 ≤ p ∨ 16 ≤ k then none
    else
      let s := (withPart s p).updSpan k (fun x => { x with part := p })
      some (if (s.link (320 + k)).up then sendKeyMessage s k else s)
  | .clearSpan p k =>
    if 16 ≤ k ∨ (s.span k).part ≠ p ∨ (s.link (320 + k)).up then none
    else some (s.updLink (320 + k) (fun l => { l with replay := [], queue := [] }))

/-- R18. A partition configuration command, answered with a status: 0 done, 1 refused. -/
def execPartitionConfiguration (cmd : PartCmd) (s : State) : Out := .next (
  if !s.sdUp || s.phase < 7 then s
  else match configure s cmd with
    | some s => s.send (.status "partition configuration" 0)
    | none => s.send (.status "partition configuration" 1))

/-- R18. A stack is clear: every byte is zero, and the die may join another partition. -/
def execStackClearComplete (die : Nat) (s : State) : Out := .next (
  if (s.die die).clearing then
    { s with mem := clearRange s.mem ((32 + die) * 2 ^ 46) ((33 + die) * 2 ^ 46) }.updDie die (fun d => { d with clearing := false, tcache := [], tpend := [] })
  else s)

/-! Measurements and reports (R19 to R21). -/

/-- A register's 32 bytes. [DEDUCED: log 53] -/
def measBytes (v : BitVec 256) : List Byte := beBytes 32 v.toNat

/-- M := SM3(M ‖ d). -/
def extend (s : State) (r : Nat) (digest : List Byte) : State :=
  { s with meas := s.meas.setIfInBounds r (BitVec.ofNat 256 (leNat (sm3 (measBytes (s.meas[r]?.getD 0) ++ digest)).reverse)) }

/-- R20. The host extends one of registers 4 to 15. -/
def execMeasurementExtend (reg : Nat) (digest : List Byte) (s : State) : Out := .next (
  if s.sdUp ∧ 4 ≤ reg ∧ reg < 16 ∧ digest.length = 32 then extend s reg digest else s.send (.status "measurement" 1))

/-- The bytes of a report before its signature (R21). [DEDUCED: log 53] -/
def reportBody (s : State) (nonce : List Byte) : List Byte :=
  (nonce ++ List.replicate 32 0).take 32 ++ leBytes 4 3480 ++ leBytes 4 Config.variant.toNat ++ leBytes 8 (presenceMap s) ++
    leBytes 8 Config.securityVersion.toNat ++ leBytes 8 Config.stackCapacity ++ s.meas.toList.flatMap measBytes ++
    (List.range 24).map (fun d => match s.partOfDie d with | some p => BitVec.ofNat 8 p | none => 0xFF)

/-- R21. A signed report. -/
def execAttestationReport (nonce : List Byte) (s : State) : Out := .next (
  if !s.sdUp then s
  else
    let b := reportBody s nonce
    s.send (.report (b ++ beBytes 64 (Config.sm2Sign b).toNat)))

/-! The start of a partition (R70, R92). -/

/-- Homes and mirrors named afresh, with their copies, before a partition runs: the counters' by R70, and a stream's whose home is no
present die of the partition, or whose mirror R57 names otherwise. [DEDUCED: log 43] -/
def nameHomes (s : State) (p : Nat) : State :=
  match s.presentDies p with
  | [] => s
  | h :: rest =>
    let s := s.updPart p (fun q => { q with home := h, mirror := rest.head? })
    let s := (h :: rest.take 1).foldl (fun s d => copyQueue s p d) s
    (((s.part? p).map Part.streams).getD []).foldl (fun s e =>
      let home := if (h :: rest).contains e.2.home then e.2.home else h
      let m := mirrorFor s p home
      copyStream (copyStream (s.updStream p e.1 (fun x => { x with home := home, mirror := m })) p e.1 home) p e.1 m) s

/-- A supervisor object with the bytes that its start measures: its code region, read with the rights of a fetch, and its role table. [DEDUCED: log 47] -/
def readSupervisor (s : State) (u part home codeVA : Nat) : State × Except MStop (CodeObj × List Byte) :=
  match readObject s u part home codeVA with
  | (s, .error e) => (s, .error e)
  | (s, .ok o) =>
    if o.obj.version ≠ 3 ∨ o.obj.roles.any RoleEntry.wave ∨ 7 < o.obj.roles.length then (s, .error (malformedAt codeVA))
    else match placerRead u part home needX (o.obj.size / 64 + 2) s o.obj.codeVA o.obj.size with
      | (s, .error e) => (s, .error e)
      | (s, .ok region) => (s, .ok (o.obj, region ++ o.table))

/-- The start with a good object: the measurement extended, and a thread of each role started on every die. -/
def startPart (s : State) (q : Part) (codeVA : Nat) (o : CodeObj) (measured : List Byte) : State :=
  let p := q.id
  let s := match q.measReg with
    | some r => extend s r (sm3 measured)
    | none => s
  let s := if q.running then s else nameHomes s p
  let s := s.updPart p (fun q => { q with running := true, superCode := some (codeVA, o), starting := none })
  let s := (s.presentDies p).foldl (fun s d => startSupervisor s p d) s
  let s := q.streams.foldl (fun s e => s.later (.recordAccept p e.1)) s
  settleRecs (s.send (.status "supervisor start" 0)) p

/-- R92. The start of a partition's supervisor: the object is read and checked, the measurement extended, and a thread of each role started
on every die; refused with a status otherwise. A part of the object that has to come from elsewhere is waited for. [DEDUCED: log 47] -/
def execSupervisorStart (part codeVA : Nat) (s : State) : Out := .next (
  let u := placerUnit part 128
  let refuse (s : State) : State := (forgetUnit (s.updPart part (fun q => { q with starting := none })) u).send (.status "supervisor start" 1)
  match s.part? part with
  | none => refuse s
  | some q =>
    match q.dies.find? (fun d => (s.die d).present && !(s.die d).inReset) with
    | none => refuse s
    | some home =>
      if !s.sdUp || s.anyThread (fun t => t.part == part && t.isSuper) then refuse s
      else match readSupervisor s u part home codeVA with
        | (s, .error e) =>
          if e.final then refuse s else askUnit (s.updPart part (fun q => { q with starting := some codeVA })) u home part e
        | (s, .ok (o, m)) => startPart (forgetUnit s u) q codeVA o m)

/-! The service die (R65). -/

/-- R65. The service die fails: the two die copies continue. [DEDUCED: log 57] -/
def execServiceDieFailure (s : State) : Out := .next ({ s.log "service die failure" 60 with sdUp := false })

/-- R65. The service die returns: its copies are rebuilt, which are the ones that this model keeps beside the dies'. -/
def execServiceDieReturn (s : State) : Out := .next ({ s with sdUp := true })

/-! Errors (R22, R23, R213). -/

/-- A MEMERR record of a partition, with the log entry: socket, place and address, and the length of the range, 0 for state with no address. -/
def memErr (s : State) (p : Option Nat) (socket place addr len : Nat) : State :=
  let s := s.logAt "uncorrectable error" socket (if len = 0 then place else addr)
  match p with
  | some p => fqNote s p (fqBytes 2 0 socket place addr (if len = 0 then [] else leBytes 8 len))
  | none => s

/-- An error in a range: the 64-byte-aligned range that holds it. -/
def rangeError (s : State) (pa len : Nat) : State :=
  memErr s ((keyDie pa).bind s.partOfDie) (socketOf pa) 0 (pa / 64 * 64) ((len + pa % 64 + 63) / 64 * 64)

/-- A thread that holds damaged state with no address is killed, its place reported: the SEQ of the record is its completion's, or all ones
where the record is dropped (R62). [DEDUCED: log 55] -/
def threadError (s : State) (t : Thread) : State :=
  let full := ((s.part? t.part).map Part.fqFull).getD false
  let seq := if full then 0xFFFFFF else fqNextSeq s t.part false
  let s := memErr s (some t.part) t.die t.placeWord.toNat 0 0
  let s := match t.run with
    | .faulted f => (match f.entry with
        | some e => if f.cause = .translation ∨ f.cause = .permission then leaveEntry s t.die e t.uid else s
        | none => s)
    | _ => s
  killThread s t.uid seq

/-- An error in a line of an L1: a clean line is dropped, to be read again from its home, and counted as corrected; dirty bytes are written back
as stored, and reported (R213). -/
def lineError (s : State) (cl pa : Nat) : State :=
  match (Table.at s.l1 cl []).find? (fun l => l.pa == pa / 128 * 128) with
  | none => s
  | some l =>
    if l.dirty = 0 then (l1Put s cl { l with valid := 0 }).logAt "corrected error" (cl / 16) l.pa
    else l1WriteBack (memErr s (some l.part) (cl / 16) 0 l.pa 128) cl l

/-- R23, R213. An uncorrectable error is reported: a range by its address, state with no address by its place, and the thread or unit that holds
it is killed. An entry that a walk reads is malformed; a full/empty bit reads as empty; of a damaged mailbox and message port the contents
are lost. [DEDUCED: log 55] -/
def execUncorrectableError (site : ErrSite) (s : State) : Out := .next (
  match site with
  | .range pa len => rangeError s pa len
  | .thread uid =>
    match s.thread? uid with
    | none => s
    | some t => threadError s t
  | .core c =>
    let s := memErr s (s.partOfDie (coreDie c)) (coreDie c) (moverPlace c) 0 0
    (match (s.core c).movers with
    | m :: _ => if m.ended.isSome then s else endCmd s c m 2 0 0
    | [] => s)
  | .rill c port =>
    match ((s.core c).wires.find? (fun w => w.port == port && !w.out)).bind (fun w => s.thread? w.owner) with
    | some t => threadError s t
    | none => memErr s (s.partOfDie (coreDie c)) (coreDie c) (c * 64) 0 0
  | .messages c =>
    (memErr s (s.partOfDie (coreDie c)) (coreDie c) (c * 64) 0 0) |> fun s => pumpPort (s.updCore c (fun k => { k with mail := k.mail.drop 32, port := k.port.filter (fun w => !w.entered) })) c
  | .walk die part vpage pa => spoilWalk (rangeError s pa 64) die part vpage
  | .line cl pa => lineError s cl pa
  | .slice d _ => memErr s (s.partOfDie d) d 0 0 0
  | .bit k =>
    let s := rangeError s k 4
    if isFull s.full (k / 4 * 4) then feChange { s with full := setFull s.full (k / 4 * 4) false } [k / 4 * 4] else s)

end Sys2Proof.Machine
end

