-- ==== Sys2Proof/Machine/Links.lean ====
section
/-! DEFINITION. The receiving half of the link layer, repeats and retraining, failed links and lanes, the keys of span ports, budget
periods and patrol scrubs (R30 to R46, R73 to R77). -/

namespace Sys2Proof.Machine
open Sys2Proof

/-! Bad flits and acknowledgements (R30, R35). -/

/-- Missing sequence numbers below the highest received one. -/
def Link.missing (l : Link) : List Nat :=
  let top := l.rxMap.foldl max l.rxBase
  ((List.range (top - l.rxBase)).map (l.rxBase + ·)).filter (fun e => !l.rxMap.contains e)

/-- A bad flit is discarded and counted, and the repeat of what is missing is requested; e is its own number, where its header could be
read. -/
def badFlit (s : State) (n cls : Nat) (e : Option Nat) : State :=
  let s := s.updLink n (fun l => { l with bad := l.bad + 1, nak := (l.missing ++ e.toList).dedup })
  let s := if n < 24 then dieEvent s n 4 2 cls 1 else s
  if (s.link n).nak.isEmpty then s else sendControl s n

/-- The one number congruent to SEQ that lies within 1,024 of the cumulative acknowledgement (R42). -/
def rebuild (base seq : Nat) : Option Nat :=
  let up := (seq + 4096 - (base + 4095) % 4096) % 4096
  -- up is the distance from the last number acknowledged, base − 1
  if up ≤ 1024 then some (base + up - 1)
  else if 3072 ≤ up ∧ 4096 - up < base then some (base - 1 - (4096 - up))
  else none

/-- The old slot is no longer needed: the switch is acknowledged, and the replay buffer holds nothing sealed under it (R44). -/
def mayRetire (s : State) (p : Nat) : Bool :=
  let x := s.span p
  (slotAt x.tx (1 - x.cur)).state == .retiring && x.acked &&
    (s.link (320 + p)).replay.all (fun r => !(r.sealed && hdrKsel (sliceNat r.bytes 0 8) != x.cur))

/-- The retirement of an old slot follows when it may. -/
def retireCheck (s : State) (n : Nat) : State :=
  match spanOf n with
  | some p => if mayRetire s p then s.later (.slotRetire p) else s
  | none => s

/-- A cumulative acknowledgement frees the replay buffer, and what waits goes out (R34, R35). -/
def takeAck (s : State) (n h : Nat) : State :=
  let l := s.link n
  if h.testBit 52 ∧ 0 < l.txNext then
    let back := (l.txNext - 1 + 4096 - bits h 51 40 % 4096) % 4096
    if l.txNext ≤ back then s
    else
      let a := l.txNext - 1 - back
      retireCheck (pumpLink (s.updLink n (fun l => { l with replay := l.replay.filter (fun r => decide (a < r.seq)) })) n) n
  else s

/-! Repeats (R35, R37). -/

/-- A flit is repeated as it was first sent, with both codes afresh, and charged again (R79); the eighth repeat makes the link retrain. -/
def repeatFlit (s : State) (n e : Nat) : State :=
  match (s.link n).replay.find? (fun r => r.seq == e) with
  | none => s
  | some r =>
    if !(s.link n).ready then s
    else
      let s := s.updLink n (fun l => { l.charge s.clk (hdrPart (sliceNat r.bytes 0 8)) with
        replay := l.replay.map (fun x => if x.seq == e then { x with sent := x.sent + 1, at_ := s.clk } else x) })
      let s := emit s n r.bytes
      let s := if n < 24 then dieEvent s n 4 3 (hdrChan (sliceNat r.bytes 0 8)) 1 else s
      if r.sent = 8 then s.later (.linkRetrain n) else armRepeat s n e

/-- R35. The repeat timeout of a flit expires without an acknowledgement. -/
def execRepeatTimeout (link seq : Nat) (s : State) : Out := .next (
  match (s.link link).replay.find? (fun r => r.seq == seq) with
  | some r => if r.at_ + Config.roundTrip link + 32 ≤ s.clk then repeatFlit s link seq else s
  | none => s)

/-- The two ends of a link; a span port has one in the package. -/
def bothEnds (n : Nat) : List Nat := n :: (farEnd n).toList

/-- R37. The link retrains, in at most 20 µs; replay buffers and received maps stand, and so do key slots (R45). -/
def execLinkRetrain (link : Nat) (s : State) : Out := .next (
  if (s.link link).ready then
    (((bothEnds link).foldl (fun s n => s.updLink n (fun l => { l with training := l.up })) s).log "link retraining" link).at_
      (s.clk + 20000) (.retrainingComplete link)
  else s)

/-- An end of a retrained link repeats its unacknowledged flits, whose repeats are counted afresh, and sends what waits. [DESIGN CHOICE: log 98] -/
def resumeLink (s : State) (n : Nat) : State :=
  let l := s.link n
  if l.training && l.up then
    let s := s.updLink n (fun l => { l with training := false, replay := l.replay.map (fun r => { r with sent := 0 }) })
    pumpLink (l.replay.foldl (fun s r => repeatFlit s n r.seq) s) n
  else s

/-- R37. Retraining ends: unacknowledged flits are repeated, and what waits goes out. -/
def execRetrainingComplete (link : Nat) (s : State) : Out := .next ((bothEnds link).foldl resumeLink s)

/-! Span ports down and up (R39, R43, R45). -/

/-- A request that left through a port completes as die-lost: zeros and a record; a mover's command ends with status ACCESS. -/
def loseAsked (s : State) (port id : Nat) : State :=
  match s.flight? id with
  | some f =>
    if f.phase == .peer then dielost (arriveReply s f (List.replicate f.nreg 0)) (s.partOfFlight f) (56 + port / 8) ((f.keys.find? isSpan).getD f.pa)
    else s
  | none =>
    match s.unitReads.find? (fun r => r.id == id && r.data.isNone) with
    | some r => dielost (unitGot s r (List.replicate r.len 0) true) (unitPart s r.unit) (56 + port / 8) r.key
    | none => s

/-- A span port goes down: key slots of both directions are cleared; sealed flits of the replay buffer are discarded and counted, and the
requests that they carry complete as die-lost; unsealed flits are kept. [DEDUCED: log 56] -/
def spanDown (s : State) (p : Nat) : State :=
  let n := 320 + p
  let gone := (s.link n).replay.filter (fun r => r.sealed)
  let lost := (((s.span p).asked.filter (fun a => gone.any (fun r => r.seq == a.2))).map Prod.fst).dedup
  let s := s.updLink n (fun l => { l with
    up := false, training := false, bad := l.bad + gone.length, replay := l.replay.filter (fun r => !r.sealed), rxMap := [], rxBuf := [], nak := []
    authFail := [] })
  let s := s.updSpan p (fun x => { x with
    tx := Vector.replicate 2 KeySlot.reset, rx := Vector.replicate 2 KeySlot.reset, cur := 0, acked := false, keyEvent := 0, waiting := [], asked := [] })
  lost.foldl (fun s id => loseAsked s p id) (s.log "span port down" p)

/-- R39. A span port trains from down: E starts at zero, and kept flits are sent first; the service dies agree a new key. -/
def execSpanPortReturn (port : Nat) (s : State) : Out := .next (
  if port < 16 ∧ 4 ≤ (s.span port).lanes ∧ !(s.link (320 + port)).up ∧ !(s.link (56 + port / 8)).failed then
    let s := s.updLink (320 + port) (fun l => { l.renew (regroup l.replay ++ l.queue) with up := true })
    let s := pumpLink (sendControl s (320 + port)) (320 + port)
    if s.sdUp then sendKeyMessage s port else s
  else s)

/-- R39. A lane of a span port fails: it runs on 4 lanes, or is down with fewer than 4 good ones. -/
def execSpanLaneFailure (port failed : Nat) (s : State) : Out := .next (
  if 16 ≤ port ∨ failed = 0 then s
  else
    let good := 8 - failed
    let s := (s.updSpan port (fun x => { x with lanes := if 4 ≤ good then 4 else good })).log "span lane failure" port
    if good < 4 then spanDown s port else s)

/-- R43. One SEQ that has failed authentication 4 times takes the port down and is logged. -/
def execSpanAuthFailure (port seq : Nat) (s : State) : Out := .next (
  if port < 16 ∧ 4 ≤ Table.at (s.link (320 + port)).authFail seq 0 then (spanDown s port).log "span authentication" port else s)

/-! Failed links (R37, R40). -/

/-- A router hands a whole packet to the next link of its route (R7, R31, R40). -/
def forward (s : State) (n head : Nat) (flits : List (List Byte)) : State :=
  match nextLink s (routerAt n) (hdrSrc head) (hdrDst head) false with
  | some (m, fb) => sendOn s m ⟨hdrChan head == 1, fb, 0, head, flits⟩
  | none => s

/-- What a router has sent on a failed link and not had acknowledged, and what waits there, goes on the routes that replace it: ordered classes
first, in SEQ order (R40). -/
def reroute (s : State) (n : Nat) : State :=
  let ps := regroup (s.link n).replay
  let all := ps.filter (fun x => decide (6 ≤ x.cls)) ++ ps.filter (fun x => decide (x.cls < 6)) ++ (s.link n).queue
  all.foldl (fun s x => forward s n x.head x.flits) (s.updLink n (fun l => { l with replay := [], queue := [] }))

/-- The passenger of a failed socket link is lost, or its ports go down (R37). [DEDUCED: log 57] -/
def loseSocket (s : State) (n : Nat) : State :=
  if n < 24 then s.later (.dieLost n)
  else if 32 ≤ n ∧ n < 56 then s.later (.dieLost (n - 32))
  else if n = 56 ∨ n = 57 then
    let s := [0, 1].foldl (fun s k => portDown s "IO die link" (2 * (n - 56) + k)) s
    (List.range 8).foldl (fun s j => spanDown s (8 * (n - 56) + j)) s
  else if n = 60 then s.later .serviceDieFailure
  else s

/-- R37. A link whose retraining has failed, or with fewer than 24 modules, is failed: its die and stack are lost, its ports go down, or its
routes move to the fallback order. [DEDUCED: log 57] -/
def execLinkFailed (link : Nat) (s : State) : Out := .next (
  if (s.link link).failed then s
  else
    let s := ((bothEnds link).foldl (fun s n => s.updLink n (fun l => { l with up := false, training := false, failed := true })) s).log "link failed" link
    if 64 ≤ link ∧ link < 320 then
      (bothEnds link).foldl reroute { s with badRoutes := (s.badRoutes ++ bothEnds link).dedup }
    else if 320 ≤ link ∧ link < 336 then spanDown s (link - 320)
    else loseSocket s (if 336 ≤ link then link - 336 else link))

/-- A module with this many failed lanes, more than its 4 spares, is retired; a link with fewer than 24 modules is failed (R38). -/
def retireModule (s : State) (link module lanes : Nat) : State :=
  let s := (s.updLink link (fun l => { l with
    lanes := Table.put l.lanes module lanes, retired := l.retired ++ [module], repairing := l.repairing.filter (· != module) })).log "module retired" link
  if (s.link link).retired.length ≤ 24 then s else s.later (.linkFailed link)

/-- R38. Lanes of a module come over their threshold: its module retrains for at most 10 µs and repairs them from its spares, one module of a link
at a time (R75), or is retired. [DEDUCED: log 63] -/
def execLaneRepair (link module lanes : Nat) (s : State) : Out := .next (
  let l := s.link link
  let total := Table.at l.lanes module 0 + lanes
  if 48 ≤ module || l.retired.contains module then s
  else if 4 < total then retireModule s link module total
  else if l.repairing.isEmpty then
    (s.updLink link (fun l => { l with lanes := Table.put l.lanes module total, repairing := [module] })).at_
      (s.clk + 10000) (.laneRepairComplete link module)
  else defer s [2 ^ 28 + link] (.laneRepair link module lanes))

/-- R38. A module comes back to service. [DEDUCED: log 63] -/
def execLaneRepairComplete (link module : Nat) (s : State) : Out := .next (
  s.updLink link (fun l => { l with repairing := l.repairing.filter (fun m => m != module) }))

/-! Keys (R43, R44). -/

/-- A key installed in an empty transmit slot: its first flit is the next one, which a switch notice announces. [DEDUCED: log 60] -/
def installTx (s : State) (p i : Nat) (key : BitVec 128) (salt : Word) : State :=
  let e := (s.link (320 + p)).txNext
  s.updSpan p (fun x => { x with
    tx := x.tx.setIfInBounds i ⟨key, salt, 0, some e, .live⟩, cur := i, acked := false
    keyEvent := (x.keyEvent &&& 2#16) ||| BitVec.ofNat 16 (1 + 8 * i + e % 4096 * 16) })

/-- A key installed in an empty receive slot; its switch is still to be acknowledged. -/
def installRx (s : State) (p i : Nat) (key : BitVec 128) (salt : Word) : State :=
  s.updSpan p (fun x => { x with rx := x.rx.setIfInBounds i ⟨key, salt, 0, none, .live⟩, keyEvent := x.keyEvent &&& ~~~2#16 })

/-- The switch notice goes out, and what waited for a key or for the new slot. -/
def announceKey (s : State) (p : Nat) : State := pumpLink (sendControl s (320 + p)) (320 + p)

/-- R43. The service dies agree the first key of a port, and exchange their bindings (R46). -/
def execKeyAgreement (port : Nat) (peer : List Byte) (peerPart : Nat) (s : State) : Out := .next (
  if 16 ≤ port ∨ !s.sdUp ∨ !(s.link (320 + port)).up then s.send (.status "key agreement" 1)
  else
    let x := s.span port
    if (x.tx.toList ++ x.rx.toList).any (fun k => k.state != .empty) then s.send (.status "key agreement" 2)
    else match Config.keyAgreement peer port with
      | none => (s.log "key agreement" port).send (.status "key agreement" 1)
      | some (kt, kr, st, sr) =>
        let s := s.updSpan port (fun x => { x with peerPart := peerPart })
        (announceKey (installTx (installRx s port 0 kr sr) port 0 kt st) port).send (.status "key agreement" 0))

/-- The empty slot of a direction. -/
def emptyKeySlot (v : Vector KeySlot 2) : Option Nat := [0, 1].find? (fun i => (slotAt v i).state == .empty)

/-- R44. A rollover of both directions: the new key is installed, first at the receiver, and the sender switches to it; refused with a
busy status while neither slot of a direction is empty. [DEDUCED: log 60] -/
def execKeyRollover (port : Nat) (s : State) : Out := .next (
  if 16 ≤ port ∨ !s.sdUp ∨ ((s.span port).sealing).isNone then s.send (.status "key rollover" 1)
  else
    let x := s.span port
    match emptyKeySlot x.rx, emptyKeySlot x.tx with
    | some i, some j =>
      let (kt, kr, st, sr) := Config.rolloverKeys port s.free
      let s : State := { s with free := s.free + 1 }
      let s := installRx s port i kr sr
      let s := s.updSpan port (fun x => { x with tx := x.tx.setIfInBounds x.cur { slotAt x.tx x.cur with state := .retiring } })
      (announceKey (installTx s port j kt st) port).send (.status "key rollover" 0)
    | _, _ => s.send (.status "key rollover" 2))

/-- R44. A sender that has sealed 2^36 flits under a key requests a rollover. -/
def execKeyUseLimit (port : Nat) (s : State) : Out := .next (
  match (s.span port).sealing with
  | some k => if 2 ^ 36 ≤ k.used then s.later (.keyRollover port) else s
  | none => s)

/-- R44. The sender retires its old slot, and tells the receiver in every control flit until the next switch notice. [DESIGN CHOICE: log 98] -/
def execSlotRetire (port : Nat) (s : State) : Out := .next (
  if port < 16 ∧ mayRetire s port then
    let s := s.updSpan port (fun x => { x with
      tx := x.tx.setIfInBounds (1 - x.cur) KeySlot.reset, keyEvent := (x.keyEvent &&& 2#16) ||| BitVec.ofNat 16 (4 + 8 * x.cur) })
    sendControl s (320 + port)
  else s)

/-! Receiving (R30 to R33, R42, R46). -/

/-- What authentication makes of a data flit on a span port. -/
inductive Opened where
  /-- A good flit: its bytes with the payload in the clear. -/
  | good (b : List Byte)
  /-- It waits for its switch notice. -/
  | waits
  /-- Bad; with the tag failing when set. -/
  | bad (tag : Bool)
  deriving DecidableEq, Repr

/-- GCM authentication of a span data flit with extended number e (R41 to R43). -/
def openFlit (x : Span) (h e : Nat) (b : List Byte) : Opened :=
  let clear := b.take 112
  if x.rx.toList.all (fun k => k.state == .empty) then
    (if hdrChan h = 9 ∧ hdrPart h = 31 then .good clear else .bad false)
  else
    let i := hdrKsel h
    let k := slotAt x.rx i
    let other := slotAt x.rx (1 - i)
    if k.state = .empty then .bad false
    else match k.e0 with
      | none => .waits
      | some e0 =>
        let late : Bool := k.state == .retiring && (match other.e0 with | some f => decide (f ≤ e) | none => false)
        if e < e0 ∨ late then .bad true
        else match gcmOpen k.key (sealIV k.salt (e - e0)) (leBytes 8 (hdrBare h)) ((b.drop 8).take 88) ((b.drop 96).take 16) with
          | some pt => .good (b.take 8 ++ pt)
          | none => .bad true

/-- The header checks of R28, R32 and, on span data flits, R46. [DEDUCED: log 58] -/
def flitHeaderOk (s : State) (n h : Nat) : Bool :=
  let c := hdrChan h
  let k := hdrKind h
  bits h 63 53 == 0 && k != 3 && !(decide (10 ≤ c) && decide (c ≤ 14)) && ((c == 15) == (k == 1 || k == 2)) &&
    (match spanOf n with
    | some p =>
      if hdrPart h == 31 then c == 9
      else hdrPart h == (s.span p).peerPart || (c == 15 && (s.span p).rx.toList.all (fun x => x.state == .empty))
    | none => true)

/-- A sluice message reaches a die's rasteriser, 60 clk after it has left (R145). [DEDUCED: log 94] -/
def takeSluice (s : State) (n src : Nat) (pl : List Byte) : State :=
  let due := s.clk + (60 - 4 * (linksCrossed src n).length)
  let from_ := sliceNat pl 10 1 % 32
  match sliceNat pl 11 1 with
  | 1 => s.at_ due (.primitiveMessage from_ n (pl.take (64 + 12 * sliceNat pl 12 1)))
  | 2 => s.at_ due (.watermark from_ n (pl.take 16))
  | 3 => s.at_ due (.credit from_ n (pl.take 16))
  | 4 => s.at_ due (.close from_ n (pl.take 16))
  | _ => badSluice s n

/-- A packet reaches an IO die: what is for one of its span ports is segmented anew for the port, with the socket from which it came, and with the
PART of the port's bound partition, or 31 for the service die (R28, R31, R46). [DESIGN CHOICE: log 59] -/
def takeAtIo (s : State) (n head : Nat) (pl : List Byte) : State :=
  let port := sliceNat pl 0 1
  if port / 8 + 56 ≠ n then s
  else
    let part := if hdrPart head = 31 then 31 else (s.span port).part
    sendBytes s (320 + port) (sliceNat pl 1 7) (hdrOf part (hdrSrc head) n 0 (hdrChan head)) (hdrChan head == 1) pl

/-- A packet comes in through a span port: the IO die segments it anew for the mesh, to the service die on the MGMT class, else to the socket that
DST names, in the name of its own bound partition (R28, R31, R43, R46). [DESIGN CHOICE: log 59] -/
def takeFromSpan (s : State) (p head : Nat) (pl : List Byte) : State :=
  let io := 56 + p / 8
  if hdrPart head = 31 then sendBytes s io 0 (hdrOf 31 io 60 0 9) false (leBytes 1 p ++ pl.drop 1)
  else if hdrDst head = io then s
  else sendBytes s io 0 (hdrOf (s.span p).part io (hdrDst head) 0 (hdrChan head)) (hdrChan head == 1) pl

/-- A complete packet leaves the receiver: a router forwards it; an IO die takes it over to or from its span ports; the service die takes the peer's
message of a key agreement; a die's rasteriser takes its sluice messages. -/
def deliverPacket (s : State) (n head : Nat) (flits : List (List Byte)) : State :=
  let pl := flits.flatten
  let s := s.updLink n (fun l => { l with delivered := (hdrChan head, flits) :: l.delivered })
  match spanOf n with
  | some p => takeFromSpan s p head pl
  | none =>
    if 64 ≤ n then forward s n head flits
    else if n < 24 ∧ hdrChan head = 3 then takeSluice s n (hdrSrc head) pl
    else if n = 56 ∨ n = 57 then takeAtIo s n head pl
    else if n = 60 ∧ hdrPart head = 31 ∧ hdrChan head = 9 then
      s.later (.keyAgreement (sliceNat pl 0 1) (pl.drop 8) (Config.messageBinding (pl.drop 8)))
    else s

/-- The first packet in the buffer that may be delivered (R31, R32): complete, and for an ordered class with nothing before it missing
or undelivered. Answers its first number and its length. -/
def deliverable (l : Link) : Option (Nat × Nat) :=
  l.rxBuf.findSome? (fun x =>
    let h := sliceNat x.2.2 0 8
    let n := hdrFlast h + 1
    if hdrFidx h = 0 ∧ (List.range n).all (fun i => l.rxBuf.any (fun y => y.1 == x.1 + i && y.2.1 == x.2.1)) ∧
        (x.2.1 < 6 ∨ (x.1 ≤ l.rxBase ∧ l.rxBuf.all (fun y => decide (x.1 ≤ y.1)))) then
      some (x.1, n)
    else none)

/-- Packets delivered while there are any. -/
def deliverAll (n : Nat) : Nat → State → State
  | 0, s => s
  | f + 1, s =>
    let l := s.link n
    match deliverable l with
    | none => s
    | some (e, k) =>
      let part := (List.range k).map (fun i => (l.rxBuf.find? (fun y => y.1 == e + i)).getD (0, 0, []))
      let s := s.updLink n (fun l => { l with rxBuf := l.rxBuf.filter (fun y => !(decide (e ≤ y.1) && decide (y.1 < e + k))) })
      let h := sliceNat ((part.head?.map (fun y => y.2.2)).getD []) 0 8
      deliverAll n f (deliverPacket s n (hdrOf (hdrPart h) (hdrSrc h) (hdrDst h) 0 (hdrChan h)) (part.map (fun y => y.2.2.drop 8)))

/-- The received map moves past every number received in order. -/
def advanceBase : Nat → Link → Link
  | 0, l => l
  | f + 1, l => if l.rxMap.contains l.rxBase then advanceBase f { l with rxBase := l.rxBase + 1, rxMap := l.rxMap.filter (fun e => e != l.rxBase) } else l

/-- The first good flit under a new receive slot acknowledges the switch (R44). Bit 3 of the key event, which the rules give no meaning in an
acknowledgement, stays as it is when sending and is ignored when receiving. [DESIGN CHOICE: log 98] -/
def ackSwitch (s : State) (n h : Nat) : State :=
  match spanOf n with
  | some p =>
    let x := s.span p
    if (slotAt x.rx (hdrKsel h)).state = .live ∧ (slotAt x.rx (hdrKsel h)).used = 0 then
      s.updSpan p (fun x => { x with
        keyEvent := x.keyEvent ||| 2#16, rx := x.rx.setIfInBounds (hdrKsel h) { slotAt x.rx (hdrKsel h) with used := 1 } })
    else s
  | none => s

/-- A good data flit: a number received before is discarded; else it is buffered, gaps are requested, and what has become complete is
delivered. -/
def takeData (s : State) (n e : Nat) (b : List Byte) : State :=
  let l := s.link n
  let h := sliceNat b 0 8
  let s := ackSwitch s n h
  if e < l.rxBase ∨ l.rxMap.contains e then sendIdle s n
  else
    let s := s.updLink n (fun l =>
      let l : Link := { l with rxMap := e :: l.rxMap, rxBuf := l.rxBuf ++ [(e, hdrChan h, b)] }
      let l := advanceBase (l.rxMap.length + 1) l
      { l with nak := l.missing })
    let s := deliverAll n ((s.link n).rxBuf.length + 1) s
    if (s.link n).nak.isEmpty ∧ (spanOf n).isNone then sendIdle s n else sendControl s n

/-- The key events of a control flit (R36, R42, R44): a switch notice gives E0 of a new slot and releases the flits that wait for it;
a switch acknowledgement; a retire notice. -/
def takeKeyEvent (s : State) (p w : Nat) : State :=
  let n := 320 + p
  let slot := bits w 3 3
  let x := s.span p
  let s :=
    if w.testBit 0 ∧ (slotAt x.rx slot).state = .live ∧ (slotAt x.rx slot).e0.isNone then
      match rebuild (s.link n).rxBase (bits w 15 4) with
      | none => s
      | some e0 =>
        let old := slotAt x.rx (1 - slot)
        let s := s.updSpan p (fun x => { x with
          rx := (x.rx.setIfInBounds slot { slotAt x.rx slot with e0 := some e0 }).setIfInBounds (1 - slot)
            (if old.state = .live then { old with state := .retiring } else old)
          waiting := [] })
        x.waiting.foldl (fun s f => s.later (.flitReceive n f)) s
    else s
  let s := if w.testBit 1 then
      retireCheck (s.updSpan p (fun x => { x with acked := true, keyEvent := if x.keyEvent.getLsbD 0 then x.keyEvent &&& 2#16 else x.keyEvent })) n
    else s
  if w.testBit 2 then
    s.updSpan p (fun x => if (slotAt x.rx (1 - slot)).state = .retiring then
      { x with rx := x.rx.setIfInBounds (1 - slot) KeySlot.reset, keyEvent := x.keyEvent &&& ~~~2#16 } else x)
  else s

/-- A link control flit (R36): repeats, credit totals, key events. [DEDUCED: log 61] -/
def takeControl (s : State) (n : Nat) (b : List Byte) : State :=
  let f (i k : Nat) : Nat := sliceNat b i k
  let asked := ((List.range 16).map (fun i => f (8 + 2 * i) 2)).filter (fun w => w.testBit 15)
  let s := asked.foldl (fun s w =>
    match (s.link n).replay.find? (fun r => r.seq % 4096 == w % 4096) with
    | some r => repeatFlit s n r.seq
    | none => s) s
  let s := s.updLink n (fun l => { l with credits := (List.range 16).map (fun c => f (40 + c) 1) })
  let s := match spanOf n with
    | some p => takeKeyEvent s p (f 56 2)
    | none => s
  pumpLink s n

/-- A flit with its header good. -/
def takeFlit (s : State) (n : Nat) (b : List Byte) (e : Nat) : State :=
  let h := sliceNat b 0 8
  if !flitHeaderOk s n h then badFlit s n (hdrChan h) (if hdrKind h = 0 then some e else none)
  else
    let s := takeAck s n h
    match hdrKind h with
    | 0 => takeData s n e b
    | 1 => takeControl s n b
    | _ => s

/-- A failed authentication is counted for its number; the fourth takes the port down. -/
def authFailed (s : State) (p e : Nat) : State :=
  let s := s.updLink (320 + p) (fun l => { l with authFail := Table.put l.authFail e (Table.at l.authFail e 0 + 1) })
  if Table.at (s.link (320 + p)).authFail e 0 = 4 then s.later (.spanAuthFailure p e) else s

/-- A flit received and corrected, its number rebuilt: authentication on span ports, then the header (R30, R42). -/
def takeCorrected (s : State) (n : Nat) (flit b : List Byte) : State :=
  let h := sliceNat b 0 8
  if crc32c (b.take 112) ≠ BitVec.ofNat 32 (sliceNat b 112 4) then badFlit s n (hdrChan h) none
  else if hdrKind h ≠ 0 then takeFlit s n (b.take 112) 0
  else match rebuild (s.link n).rxBase (hdrSeq h) with
    | none => badFlit s n (hdrChan h) none
    | some e =>
      match spanOf n with
      | none => takeFlit s n (b.take 112) e
      | some p =>
        match openFlit (s.span p) h e b with
        | .good c => takeFlit s n c e
        | .waits => s.updSpan p (fun x => if x.waiting.contains flit then x else { x with waiting := x.waiting ++ [flit] })
        | .bad tag => (fun (s : State) => if tag then authFailed s p e else s) (badFlit s n (hdrChan h) (some e))

/-- R30. A flit is received by a link in service: Reed–Solomon decoding, with a corrected error logged (R22); CRC, authentication of span data,
header checks; then its acknowledgement, and its data or its control payload. -/
def execFlitReceive (link : Nat) (flit : List Byte) (s : State) : Out := .next (
  if !(s.link link).ready then s
  else
    let raw := (flit ++ List.replicate 128 0).take 128
    let count (s : State) (h : Nat) : State := if link < 24 then dieEvent s link 4 1 (hdrChan h) 1 else s
    match rsDecode (raw.map BitVec.toNat) with
    | none => badFlit (count s (sliceNat raw 0 8)) link (hdrChan (sliceNat raw 0 8)) none
    | some l =>
      let b := l.map (BitVec.ofNat 8)
      let s := count s (sliceNat b 0 8)
      takeCorrected (if b = raw then s else s.log "corrected error" link) link flit b)

/-! Budgets (R73 to R77). -/

/-- R73, R74, R78. Every budget and the partitions' shares of the links are reloaded; deferred work runs first, in its order, and what the shares
held back goes out. -/
def execBudgetPeriod (s : State) : Out := .next (
  let s : State := { s with budget := [], agenda := s.deferred.map Prod.snd ++ s.agenda, deferred := [] }
  ((s.links.filter (fun l => !l.2.queue.isEmpty)).map Prod.fst).foldl pumpLink s)

/-- A core or engine loses an issue slot: it issues nothing in this clk, and every thread due later is delayed by 1 clk (R76). [DEDUCED: log 85] -/
def stealSlot (s : State) (c : Nat) : State :=
  let s := s.updCore c (fun k => { k with issued := max s.clk k.issued + 1 })
  let s := s.mapThreads (fun t => if t.live && t.core == c && decide (s.clk < t.readyAt) then { t with readyAt := t.readyAt + 1 } else t)
  clusterEvent (coreEvent s c 2 1) c 1 1 1

/-- A corrected error is logged with its address (R22). -/
def corrected (s : State) (on : Bool) (socket addr : Nat) : State := if on then s.logAt "corrected error" socket addr else s

/-- The budget of a range's memory and the most bytes of it that one period's allowance covers: a channel of a stack, a core's local memory, or a
cistern bank. -/
def scrubKey (pa : Nat) : Nat :=
  let d := (keyDie pa).getD 0
  if isStack pa then 2 ^ 20 + d * 32 + homeChannel pa
  else 2 ^ 21 + (match keyCore pa with | some k => k | none => 2 ^ 16 + d * 32 + homeChannel pa)

/-- A range of at most one period's allowance is scrubbed: a bank's cycles are its reads and its corrected write-backs. -/
def scrubRange (s : State) (pa len : Nat) (fixed : Bool) : State :=
  let n := (len + 63) / 64 * (if fixed then 2 else 1)
  let d := (keyDie pa).getD 0
  let c := homeChannel pa
  budgeted s [(scrubKey pa, n, 100)] (.patrolScrub (.range pa len) fixed)
    (fun s =>
      let s := if isStack pa then dieEvent s d 3 1 c n else s
      let s := if isStack pa && fixed then dieEvent s d 3 2 c 1 else s
      corrected s fixed (socketOf pa) pa)
    (fun s => if isStack pa then dieEvent s d 3 3 c 1 else s)

/-- R75. A patrol scrub reads a range or a line, and writes it back when an error is corrected, or takes an issue slot of a core: within the
allowance of its channel, memory or core in this period; of a longer range the rest waits for the next. [DEDUCED: log 64] -/
def execPatrolScrub (site : ErrSite) (corrected : Bool) (s : State) : Out := .next (
  let e : Event := .patrolScrub site corrected
  match site with
  | .range pa len =>
    let most := if corrected then 3200 else 6400
    if most < len then defer (scrubRange s pa most corrected) [scrubKey pa] (.patrolScrub (.range (pa + most) (len - most)) corrected)
    else scrubRange s pa len corrected
  | .thread uid =>
    match s.thread? uid with
    | some t => budgeted s [(2 ^ 22 + t.core, 1, 10)] e (fun s => Machine.corrected (stealSlot s t.core) corrected t.die 0) id
    | none => s
  | .core c | .rill c _ | .messages c =>
    budgeted s [(2 ^ 22 + c, 1, 10)] e (fun s => Machine.corrected (stealSlot s c) corrected (coreDie c) 0) id
  | .walk _ _ _ pa => scrubRange s (pa / 64 * 64) 64 corrected
  | .bit k => scrubRange s (k / 64 * 64) 64 corrected
  | .line cl pa =>
    budgeted s [(2 ^ 21 + 2 ^ 17 + cl, if corrected then 4 else 2, 100)] e (fun s => Machine.corrected s corrected (cl / 16) pa) id
  | .slice d c =>
    budgeted s [(2 ^ 21 + 2 ^ 18 + d * 32 + c, if corrected then 2 else 1, 100)] e
      (fun s => Machine.corrected (if corrected then dieEvent s d 2 2 c 1 else s) corrected d 0) id)

end Sys2Proof.Machine
end

