-- ==== Sys2Proof/Machine/Dispatch.lean ====
section
/-! DEFINITION. The dispatch of every instruction to its meaning. -/

namespace Sys2Proof.Machine
open Sys2Proof

def exec (i : Instr) (s : State) : Host.Outcome State Fault Refusal :=
  match i with
  | .movS a b => Sys2Proof.Machine.execMovS a b s
  | .addS a b => Sys2Proof.Machine.execAddS a b s
  | .subS a b => Sys2Proof.Machine.execSubS a b s
  | .andS a b => Sys2Proof.Machine.execAndS a b s
  | .orS a b => Sys2Proof.Machine.execOrS a b s
  | .xorS a b => Sys2Proof.Machine.execXorS a b s
  | .addiS a im => Sys2Proof.Machine.execAddiS a im s
  | .shliS a n => Sys2Proof.Machine.execShliS a n s
  | .shriS a n => Sys2Proof.Machine.execShriS a n s
  | .ldiS a im => Sys2Proof.Machine.execLdiS a im s
  | .ldS a b => Sys2Proof.Machine.execLdS a b s
  | .stS a b => Sys2Proof.Machine.execStS a b s
  | .bzS o b => Sys2Proof.Machine.execBzS o b s
  | .bnzS o b => Sys2Proof.Machine.execBnzS o b s
  | .ret b => Sys2Proof.Machine.execRet b s
  | .brk n => Sys2Proof.Machine.execBrk n s
  | .add d a b => Sys2Proof.Machine.execAdd d a b s
  | .sub d a b => Sys2Proof.Machine.execSub d a b s
  | .mul d a b => Sys2Proof.Machine.execMul d a b s
  | .mulh d a b => Sys2Proof.Machine.execMulh d a b s
  | .mulhn d a b => Sys2Proof.Machine.execMulhn d a b s
  | .mulw d a b => Sys2Proof.Machine.execMulw d a b s
  | .mulwn d a b => Sys2Proof.Machine.execMulwn d a b s
  | .div d a b => Sys2Proof.Machine.execDiv d a b s
  | .divn d a b => Sys2Proof.Machine.execDivn d a b s
  | .rem d a b => Sys2Proof.Machine.execRem d a b s
  | .remn d a b => Sys2Proof.Machine.execRemn d a b s
  | .and d a b => Sys2Proof.Machine.execAnd d a b s
  | .or d a b => Sys2Proof.Machine.execOr d a b s
  | .xor d a b => Sys2Proof.Machine.execXor d a b s
  | .andn d a b => Sys2Proof.Machine.execAndn d a b s
  | .shl d a b => Sys2Proof.Machine.execShl d a b s
  | .shr d a b => Sys2Proof.Machine.execShr d a b s
  | .sra d a b => Sys2Proof.Machine.execSra d a b s
  | .rol d a b => Sys2Proof.Machine.execRol d a b s
  | .min d a b => Sys2Proof.Machine.execMin d a b s
  | .max d a b => Sys2Proof.Machine.execMax d a b s
  | .minn d a b => Sys2Proof.Machine.execMinn d a b s
  | .maxn d a b => Sys2Proof.Machine.execMaxn d a b s
  | .clz d a => Sys2Proof.Machine.execClz d a s
  | .ctz d a => Sys2Proof.Machine.execCtz d a s
  | .popc d a => Sys2Proof.Machine.execPopc d a s
  | .brev d a => Sys2Proof.Machine.execBrev d a s
  | .addD d a b => Sys2Proof.Machine.execAddD d a b s
  | .subD d a b => Sys2Proof.Machine.execSubD d a b s
  | .shlD d a b => Sys2Proof.Machine.execShlD d a b s
  | .divS64 d a b => Sys2Proof.Machine.execDivS64 d a b s
  | .divnN64 d a b => Sys2Proof.Machine.execDivnN64 d a b s
  | .remS64 d a b => Sys2Proof.Machine.execRemS64 d a b s
  | .remnN64 d a b => Sys2Proof.Machine.execRemnN64 d a b s
  | .addi d a im => Sys2Proof.Machine.execAddi d a im s
  | .andi d a im => Sys2Proof.Machine.execAndi d a im s
  | .ori d a im => Sys2Proof.Machine.execOri d a im s
  | .xori d a im => Sys2Proof.Machine.execXori d a im s
  | .shli d a n => Sys2Proof.Machine.execShli d a n s
  | .shri d a n => Sys2Proof.Machine.execShri d a n s
  | .srai d a n => Sys2Proof.Machine.execSrai d a n s
  | .cmpS32 c p a b => Sys2Proof.Machine.execCmpS32 c p a b s
  | .cmpN32 c p a b => Sys2Proof.Machine.execCmpN32 c p a b s
  | .cmpS64 c p a b => Sys2Proof.Machine.execCmpS64 c p a b s
  | .cmpN64 c p a b => Sys2Proof.Machine.execCmpN64 c p a b s
  | .pand p a q => Sys2Proof.Machine.execPand p a q s
  | .por p a q => Sys2Proof.Machine.execPor p a q s
  | .pxor p a q => Sys2Proof.Machine.execPxor p a q s
  | .pnot p a => Sys2Proof.Machine.execPnot p a s
  | .cmpi c p a im => Sys2Proof.Machine.execCmpi c p a im s
  | .ldi d im => Sys2Proof.Machine.execLdi d im s
  | .ldih d im => Sys2Proof.Machine.execLdih d im s
  | .b o => Sys2Proof.Machine.execB o s
  | .bp p o => Sys2Proof.Machine.execBp p o s
  | .bnp p o => Sys2Proof.Machine.execBnp p o s
  | .call d o => Sys2Proof.Machine.execCall d o s
  | .jmp a => Sys2Proof.Machine.execJmp a s
  | .callr d a => Sys2Proof.Machine.execCallr d a s
  | .ldB d b r m o => Sys2Proof.Machine.execLdB d b r m o s
  | .ldH d b r m o => Sys2Proof.Machine.execLdH d b r m o s
  | .ldW d b r m o => Sys2Proof.Machine.execLdW d b r m o s
  | .ldD d b r m o => Sys2Proof.Machine.execLdD d b r m o s
  | .ldQ d b r m o => Sys2Proof.Machine.execLdQ d b r m o s
  | .ldBs d b r m o => Sys2Proof.Machine.execLdBs d b r m o s
  | .ldHs d b r m o => Sys2Proof.Machine.execLdHs d b r m o s
  | .ldExtended d b r m z => Sys2Proof.Machine.execLdExtended d b r m z s
  | .stB d b r m o => Sys2Proof.Machine.execStB d b r m o s
  | .stH d b r m o => Sys2Proof.Machine.execStH d b r m o s
  | .stW d b r m o => Sys2Proof.Machine.execStW d b r m o s
  | .stD d b r m o => Sys2Proof.Machine.execStD d b r m o s
  | .stQ d b r m o => Sys2Proof.Machine.execStQ d b r m o s
  | .stExtended d b r m z => Sys2Proof.Machine.execStExtended d b r m z s
  | .amoAdd d a o z w => Sys2Proof.Machine.execAmoAdd d a o z w s
  | .amoAnd d a o z w => Sys2Proof.Machine.execAmoAnd d a o z w s
  | .amoOr d a o z w => Sys2Proof.Machine.execAmoOr d a o z w s
  | .amoXor d a o z w => Sys2Proof.Machine.execAmoXor d a o z w s
  | .amoMin d a o z w => Sys2Proof.Machine.execAmoMin d a o z w s
  | .amoMax d a o z w => Sys2Proof.Machine.execAmoMax d a o z w s
  | .amoMinn d a o z w => Sys2Proof.Machine.execAmoMinn d a o z w s
  | .amoMaxn d a o z w => Sys2Proof.Machine.execAmoMaxn d a o z w s
  | .amoSwap d a o z w => Sys2Proof.Machine.execAmoSwap d a o z w s
  | .amoCas d a o z w => Sys2Proof.Machine.execAmoCas d a o z w s
  | .amoFadd d a o z => Sys2Proof.Machine.execAmoFadd d a o z s
  | .redAdd d a o z w => Sys2Proof.Machine.execRedAdd d a o z w s
  | .redAnd d a o z w => Sys2Proof.Machine.execRedAnd d a o z w s
  | .redOr d a o z w => Sys2Proof.Machine.execRedOr d a o z w s
  | .redXor d a o z w => Sys2Proof.Machine.execRedXor d a o z w s
  | .redMin d a o z w => Sys2Proof.Machine.execRedMin d a o z w s
  | .redMax d a o z w => Sys2Proof.Machine.execRedMax d a o z w s
  | .redMinn d a o z w => Sys2Proof.Machine.execRedMinn d a o z w s
  | .redMaxn d a o z w => Sys2Proof.Machine.execRedMaxn d a o z w s
  | .redSwap d a o z w => Sys2Proof.Machine.execRedSwap d a o z w s
  | .redCas d a o z w => Sys2Proof.Machine.execRedCas d a o z w s
  | .redFadd d a o z => Sys2Proof.Machine.execRedFadd d a o z s
  | .redFx64 d a o z => Sys2Proof.Machine.execRedFx64 d a o z s
  | .fence o z => Sys2Proof.Machine.execFence o z s
  | .barj a z => Sys2Proof.Machine.execBarj a z s
  | .barw d a z => Sys2Proof.Machine.execBarw d a z s
  | .barx a z => Sys2Proof.Machine.execBarx a z s
  | .pf a => Sys2Proof.Machine.execPf a s
  | .inval a => Sys2Proof.Machine.execInval a s
  | .wback a => Sys2Proof.Machine.execWback a s
  | .ldf d b r m f => Sys2Proof.Machine.execLdf d b r m f s
  | .lde d b r m f => Sys2Proof.Machine.execLde d b r m f s
  | .stf d b r m f => Sys2Proof.Machine.execStf d b r m f s
  | .stx d b r m f => Sys2Proof.Machine.execStx d b r m f s
  | .sete b r m f => Sys2Proof.Machine.execSete b r m f s
  | .fest d b r m f => Sys2Proof.Machine.execFest d b r m f s
  | .ldm d b r m n => Sys2Proof.Machine.execLdm d b r m n s
  | .stm d b r m n => Sys2Proof.Machine.execStm d b r m n s
  | .fadd d a b r => Sys2Proof.Machine.execFadd d a b r s
  | .fsub d a b r => Sys2Proof.Machine.execFsub d a b r s
  | .fmul d a b r => Sys2Proof.Machine.execFmul d a b r s
  | .fdiv d a b r => Sys2Proof.Machine.execFdiv d a b r s
  | .hadd2 d a b => Sys2Proof.Machine.execHadd2 d a b s
  | .hmul2 d a b => Sys2Proof.Machine.execHmul2 d a b s
  | .hfma2 d a b => Sys2Proof.Machine.execHfma2 d a b s
  | .badd2 d a b => Sys2Proof.Machine.execBadd2 d a b s
  | .bmul2 d a b => Sys2Proof.Machine.execBmul2 d a b s
  | .bfma2 d a b => Sys2Proof.Machine.execBfma2 d a b s
  | .dadd d a b => Sys2Proof.Machine.execDadd d a b s
  | .dmul d a b => Sys2Proof.Machine.execDmul d a b s
  | .dfma d a b => Sys2Proof.Machine.execDfma d a b s
  | .cvtS32 d a z r => Sys2Proof.Machine.execCvtS32 d a z r s
  | .cvtN32 d a z r => Sys2Proof.Machine.execCvtN32 d a z r s
  | .cvtS64 d a z r => Sys2Proof.Machine.execCvtS64 d a z r s
  | .cvtN64 d a z r => Sys2Proof.Machine.execCvtN64 d a z r s
  | .cvtF32 d a z r => Sys2Proof.Machine.execCvtF32 d a z r s
  | .cvtF16 d a z r => Sys2Proof.Machine.execCvtF16 d a z r s
  | .cvtBf16 d a z r => Sys2Proof.Machine.execCvtBf16 d a z r s
  | .cvtF64 d a z r => Sys2Proof.Machine.execCvtF64 d a z r s
  | .cvtE4m3 d a z r => Sys2Proof.Machine.execCvtE4m3 d a z r s
  | .cvtE5m2 d a z r => Sys2Proof.Machine.execCvtE5m2 d a z r s
  | .cvtE2m1 d a z r => Sys2Proof.Machine.execCvtE2m1 d a z r s
  | .cvtE4m3Sat d a z r => Sys2Proof.Machine.execCvtE4m3Sat d a z r s
  | .fcmpF32 c p a b => Sys2Proof.Machine.execFcmpF32 c p a b s
  | .fcmpF64 c p a b => Sys2Proof.Machine.execFcmpF64 c p a b s
  | .fclass d a => Sys2Proof.Machine.execFclass d a s
  | .fclassF64 d a => Sys2Proof.Machine.execFclassF64 d a s
  | .fmin d a b => Sys2Proof.Machine.execFmin d a b s
  | .fmax d a b => Sys2Proof.Machine.execFmax d a b s
  | .fsqrt d a r => Sys2Proof.Machine.execFsqrt d a r s
  | .frcp d a r => Sys2Proof.Machine.execFrcp d a r s
  | .frsq d a r => Sys2Proof.Machine.execFrsq d a r s
  | .fexp2 d a r => Sys2Proof.Machine.execFexp2 d a r s
  | .flog2 d a r => Sys2Proof.Machine.execFlog2 d a r s
  | .fsin d a r => Sys2Proof.Machine.execFsin d a r s
  | .fcos d a r => Sys2Proof.Machine.execFcos d a r s
  | .fsinR d a r => Sys2Proof.Machine.execFsinR d a r s
  | .fcosR d a r => Sys2Proof.Machine.execFcosR d a r s
  | .ffloor d a => Sys2Proof.Machine.execFfloor d a s
  | .fceil d a => Sys2Proof.Machine.execFceil d a s
  | .ftrunc d a => Sys2Proof.Machine.execFtrunc d a s
  | .frint d a r => Sys2Proof.Machine.execFrint d a r s
  | .ffrac d a r => Sys2Proof.Machine.execFfrac d a r s
  | .fabs d a => Sys2Proof.Machine.execFabs d a s
  | .fneg d a => Sys2Proof.Machine.execFneg d a s
  | .fma d a b r => Sys2Proof.Machine.execFma d a b r s
  | .fnma d a b r => Sys2Proof.Machine.execFnma d a b r s
  | .mput n a b => Sys2Proof.Machine.execMput n a b s
  | .mget d n => Sys2Proof.Machine.execMget d n s
  | .msend a b => Sys2Proof.Machine.execMsend a b s
  | .rmsg d z => Sys2Proof.Machine.execRmsg d z s
  | .qget d n => Sys2Proof.Machine.execQget d n s
  | .qput n a => Sys2Proof.Machine.execQput n a s
  | .qctl n a => Sys2Proof.Machine.execQctl n a s
  | .qpeek d n => Sys2Proof.Machine.execQpeek d n s
  | .go a => Sys2Proof.Machine.execGo a s
  | .spawn a b => Sys2Proof.Machine.execSpawn a b s
  | .wenter a => Sys2Proof.Machine.execWenter a s
  | .wleave a => Sys2Proof.Machine.execWleave a s
  | .wexp n a b => Sys2Proof.Machine.execWexp n a b s
  | .wwait a z => Sys2Proof.Machine.execWwait a z s
  | .wpoll d a z => Sys2Proof.Machine.execWpoll d a z s
  | .mvcopy a p z => Sys2Proof.Machine.execMvcopy a p z s
  | .mvcopy2 a p z => Sys2Proof.Machine.execMvcopy2 a p z s
  | .mvgath a p z => Sys2Proof.Machine.execMvgath a p z s
  | .mvscat a p z => Sys2Proof.Machine.execMvscat a p z s
  | .mvfill a p z => Sys2Proof.Machine.execMvfill a p z s
  | .mvred a p z => Sys2Proof.Machine.execMvred a p z s
  | .shfl d a b => Sys2Proof.Machine.execShfl d a b s
  | .shflx d a b => Sys2Proof.Machine.execShflx d a b s
  | .voteAny p a => Sys2Proof.Machine.execVoteAny p a s
  | .voteAll p a => Sys2Proof.Machine.execVoteAll p a s
  | .ballot d a => Sys2Proof.Machine.execBallot d a s
  | .lsum d a t => Sys2Proof.Machine.execLsum d a t s
  | .lmin d a t => Sys2Proof.Machine.execLmin d a t s
  | .bcast d a b => Sys2Proof.Machine.execBcast d a b s
  | .mmaBf16 d a b k => Sys2Proof.Machine.execMmaBf16 d a b k s
  | .mmaF16 d a b k => Sys2Proof.Machine.execMmaF16 d a b k s
  | .mmaF8E4m3E4m3 d a b k => Sys2Proof.Machine.execMmaF8E4m3E4m3 d a b k s
  | .mmaF8E4m3E5m2 d a b k => Sys2Proof.Machine.execMmaF8E4m3E5m2 d a b k s
  | .mmaF8E5m2E4m3 d a b k => Sys2Proof.Machine.execMmaF8E5m2E4m3 d a b k s
  | .mmaF8E5m2E5m2 d a b k => Sys2Proof.Machine.execMmaF8E5m2E5m2 d a b k s
  | .mmaF8S8 d a b k => Sys2Proof.Machine.execMmaF8S8 d a b k s
  | .mmaQ4 d a b k => Sys2Proof.Machine.execMmaQ4 d a b k s
  | .mmaMx4 d a b k => Sys2Proof.Machine.execMmaMx4 d a b k s
  | .mmaTs8W8 d a b k => Sys2Proof.Machine.execMmaTs8W8 d a b k s
  | .mmaTs8W4 d a b k => Sys2Proof.Machine.execMmaTs8W4 d a b k s
  | .smp d a b => Sys2Proof.Machine.execSmp d a b s
  | .smpl d a b => Sys2Proof.Machine.execSmpl d a b s
  | .smpg d a b => Sys2Proof.Machine.execSmpg d a b s
  | .fetch d a b => Sys2Proof.Machine.execFetch d a b s
  | .interp d a b => Sys2Proof.Machine.execInterp d a b s
  | .ddx d a => Sys2Proof.Machine.execDdx d a s
  | .ddy d a => Sys2Proof.Machine.execDdy d a s
  | .pemit a b => Sys2Proof.Machine.execPemit a b s
  | .pemitCull a => Sys2Proof.Machine.execPemitCull a s
  | .pexp a b => Sys2Proof.Machine.execPexp a b s
  | .iset n a => Sys2Proof.Machine.execIset n a s
  | .iget n a => Sys2Proof.Machine.execIget n a s
  | .iadv n im => Sys2Proof.Machine.execIadv n im s
  | .isetFields n a u z c => Sys2Proof.Machine.execIsetFields n a u z c s
  | .isetWrap n a u z c => Sys2Proof.Machine.execIsetWrap n a u z c s
  | .xset n im => Sys2Proof.Machine.execXset n im s
  | .xsetHi n im => Sys2Proof.Machine.execXsetHi n im s
  | .xld n a => Sys2Proof.Machine.execXld n a s
  | .sget d z => Sys2Proof.Machine.execSget d z s
  | .sset a z => Sys2Proof.Machine.execSset a z s
  | .cset n a => Sys2Proof.Machine.execCset n a s
  | .csetHigh n a => Sys2Proof.Machine.execCsetHigh n a s
  | .trap n => Sys2Proof.Machine.execTrap n s
  | .launch d a b => Sys2Proof.Machine.execLaunch d a b s
  | .tlsig a b => Sys2Proof.Machine.execTlsig a b s
  | .tlsigSet a b => Sys2Proof.Machine.execTlsigSet a b s
  | .sleep a => Sys2Proof.Machine.execSleep a s
  | .sel d a b p => Sys2Proof.Machine.execSel d a b p s
  | .selNot d a b p => Sys2Proof.Machine.execSelNot d a b p s
  | .wmsg0 => Sys2Proof.Machine.execWmsg0 s
  | .wmsg1 => Sys2Proof.Machine.execWmsg1 s
  | .wmsg2 => Sys2Proof.Machine.execWmsg2 s
  | .wmsg3 => Sys2Proof.Machine.execWmsg3 s
  | .wmsg4 => Sys2Proof.Machine.execWmsg4 s
  | .wmsg5 => Sys2Proof.Machine.execWmsg5 s
  | .wmsg6 => Sys2Proof.Machine.execWmsg6 s
  | .wmsg7 => Sys2Proof.Machine.execWmsg7 s
  | .wmsg8 => Sys2Proof.Machine.execWmsg8 s
  | .wmsg9 => Sys2Proof.Machine.execWmsg9 s
  | .wmsg10 => Sys2Proof.Machine.execWmsg10 s
  | .wmsg11 => Sys2Proof.Machine.execWmsg11 s
  | .wmsg12 => Sys2Proof.Machine.execWmsg12 s
  | .wmsg13 => Sys2Proof.Machine.execWmsg13 s
  | .wmsg14 => Sys2Proof.Machine.execWmsg14 s
  | .wmsg15 => Sys2Proof.Machine.execWmsg15 s
  | .iclr0 => Sys2Proof.Machine.execIclr0 s
  | .iclr1 => Sys2Proof.Machine.execIclr1 s
  | .iclr2 => Sys2Proof.Machine.execIclr2 s
  | .iclr3 => Sys2Proof.Machine.execIclr3 s
  | .iclr4 => Sys2Proof.Machine.execIclr4 s
  | .iclr5 => Sys2Proof.Machine.execIclr5 s
  | .iclr6 => Sys2Proof.Machine.execIclr6 s
  | .iclr7 => Sys2Proof.Machine.execIclr7 s
  | .nop => Sys2Proof.Machine.execNop s
  | .rx => Sys2Proof.Machine.execRx s
  | .lretS => Sys2Proof.Machine.execLretS s
  | .yield => Sys2Proof.Machine.execYield s
  | .exit => Sys2Proof.Machine.execExit s
  | .bar => Sys2Proof.Machine.execBar s
  | .barGang => Sys2Proof.Machine.execBarGang s
  | .mrdy => Sys2Proof.Machine.execMrdy s
  | .mwait => Sys2Proof.Machine.execMwait s
  | .kill => Sys2Proof.Machine.execKill s
  | .lret => Sys2Proof.Machine.execLret s
  | .nopLong => Sys2Proof.Machine.execNopLong s
  | .coldReset => Sys2Proof.Machine.execColdReset s
  | .deviceReset => Sys2Proof.Machine.execDeviceReset s
  | .partitionReset part => Sys2Proof.Machine.execPartitionReset part s
  | .dieReset die => Sys2Proof.Machine.execDieReset die s
  | .dieLinkRetrain die => Sys2Proof.Machine.execDieLinkRetrain die s
  | .dieReturn die => Sys2Proof.Machine.execDieReturn die s
  | .dieLostTimeout die => Sys2Proof.Machine.execDieLostTimeout die s
  | .bringUpPhase failed => Sys2Proof.Machine.execBringUpPhase failed s
  | .junctionSensorRead celsius socket => Sys2Proof.Machine.execJunctionSensorRead celsius socket s
  | .clockFault => Sys2Proof.Machine.execClockFault s
  | .clockReferenceReturn => Sys2Proof.Machine.execClockReferenceReturn s
  | .partitionConfiguration cmd => Sys2Proof.Machine.execPartitionConfiguration cmd s
  | .measurementExtend reg digest => Sys2Proof.Machine.execMeasurementExtend reg digest s
  | .attestationReport nonce => Sys2Proof.Machine.execAttestationReport nonce s
  | .supervisorStart part codeVA => Sys2Proof.Machine.execSupervisorStart part codeVA s
  | .portModeSet port root parts => Sys2Proof.Machine.execPortModeSet port root parts s
  | .ideKeySet port stream key => Sys2Proof.Machine.execIdeKeySet port stream key s
  | .ideIntegrityFailure port => Sys2Proof.Machine.execIdeIntegrityFailure port s
  | .uncorrectableError site => Sys2Proof.Machine.execUncorrectableError site s
  | .patrolScrub site corrected => Sys2Proof.Machine.execPatrolScrub site corrected s
  | .budgetPeriod => Sys2Proof.Machine.execBudgetPeriod s
  | .flitReceive link flit => Sys2Proof.Machine.execFlitReceive link flit s
  | .repeatTimeout link seq => Sys2Proof.Machine.execRepeatTimeout link seq s
  | .linkRetrain link => Sys2Proof.Machine.execLinkRetrain link s
  | .linkFailed link => Sys2Proof.Machine.execLinkFailed link s
  | .laneRepair link module lanes => Sys2Proof.Machine.execLaneRepair link module lanes s
  | .spanLaneFailure port failed => Sys2Proof.Machine.execSpanLaneFailure port failed s
  | .keyAgreement port peer peerPart => Sys2Proof.Machine.execKeyAgreement port peer peerPart s
  | .keyRollover port => Sys2Proof.Machine.execKeyRollover port s
  | .keyUseLimit port => Sys2Proof.Machine.execKeyUseLimit port s
  | .slotRetire port => Sys2Proof.Machine.execSlotRetire port s
  | .spanAuthFailure port seq => Sys2Proof.Machine.execSpanAuthFailure port seq s
  | .hostStreamWrite part port off data => Sys2Proof.Machine.execHostStreamWrite part port off data s
  | .mirrorWrite part stream off data => Sys2Proof.Machine.execMirrorWrite part stream off data s
  | .recordAccept part stream => Sys2Proof.Machine.execRecordAccept part stream s
  | .cuiqueTranslation die part codeVA => Sys2Proof.Machine.execCuiqueTranslation die part codeVA s
  | .streamCancel part stream => Sys2Proof.Machine.execStreamCancel part stream s
  | .hostheadWrite part stream value => Sys2Proof.Machine.execHostheadWrite part stream value s
  | .recordComplete part stream slot => Sys2Proof.Machine.execRecordComplete part stream slot s
  | .dieLost die => Sys2Proof.Machine.execDieLost die s
  | .timelineSet part ctr value => Sys2Proof.Machine.execTimelineSet part ctr value s
  | .timelineAdd part ctr value => Sys2Proof.Machine.execTimelineAdd part ctr value s
  | .fqheadWrite part value => Sys2Proof.Machine.execFqheadWrite part value s
  | .apertureEntryWrite io k entry writer => Sys2Proof.Machine.execApertureEntryWrite io k entry writer s
  | .spanApertureEntryWrite io k entry writer => Sys2Proof.Machine.execSpanApertureEntryWrite io k entry writer s
  | .peerReadCompletion access status data => Sys2Proof.Machine.execPeerReadCompletion access status data s
  | .peerReadTimeout access => Sys2Proof.Machine.execPeerReadTimeout access s
  | .hostMemoryWrite part port off data => Sys2Proof.Machine.execHostMemoryWrite part port off data s
  | .hostMemoryRead part port off len => Sys2Proof.Machine.execHostMemoryRead part port off len s
  | .managementBarAccess bar off write data len => Sys2Proof.Machine.execManagementBarAccess bar off write data len s
  | .upstreamRequest port addr write data len => Sys2Proof.Machine.execUpstreamRequest port addr write data len s
  | .spanRequest port part off op => Sys2Proof.Machine.execSpanRequest port part off op s
  | .placementWindow => Sys2Proof.Machine.execPlacementWindow s
  | .drainReservation part stream slot => Sys2Proof.Machine.execDrainReservation part stream slot s
  | .stallResolution part stream slot => Sys2Proof.Machine.execStallResolution part stream slot s
  | .preemptionRequest gangs => Sys2Proof.Machine.execPreemptionRequest gangs s
  | .framePreemption die => Sys2Proof.Machine.execFramePreemption die s
  | .saveComplete gang => Sys2Proof.Machine.execSaveComplete gang s
  | .rasterControlWrite part off value => Sys2Proof.Machine.execRasterControlWrite part off value s
  | .primitiveSetup die => Sys2Proof.Machine.execPrimitiveSetup die s
  | .watermarkPeriod die => Sys2Proof.Machine.execWatermarkPeriod die s
  | .primitiveMessage src dst payload => Sys2Proof.Machine.execPrimitiveMessage src dst payload s
  | .watermark src dst payload => Sys2Proof.Machine.execWatermark src dst payload s
  | .credit src dst payload => Sys2Proof.Machine.execCredit src dst payload s
  | .close src dst payload => Sys2Proof.Machine.execClose src dst payload s
  | .mergeRelease die => Sys2Proof.Machine.execMergeRelease die s
  | .rasterise die => Sys2Proof.Machine.execRasterise die s
  | .staticWaveStart die group wave => Sys2Proof.Machine.execStaticWaveStart die group wave s
  | .exportApply die => Sys2Proof.Machine.execExportApply die s
  | .homeAccess access => Sys2Proof.Machine.execHomeAccess access s
  | .memoryReply access => Sys2Proof.Machine.execMemoryReply access s
  | .pageWalkComplete die part vpage => Sys2Proof.Machine.execPageWalkComplete die part vpage s
  | .faultReplay die entry => Sys2Proof.Machine.execFaultReplay die entry s
  | .faultKill die entry => Sys2Proof.Machine.execFaultKill die entry s
  | .tlbInvalidateRange part first count => Sys2Proof.Machine.execTlbInvalidateRange part first count s
  | .tlbInvalidateAll part => Sys2Proof.Machine.execTlbInvalidateAll part s
  | .invalidationComplete part => Sys2Proof.Machine.execInvalidationComplete part s
  | .heraldWindow => Sys2Proof.Machine.execHeraldWindow s
  | .heraldCompletion access => Sys2Proof.Machine.execHeraldCompletion access s
  | .migrantArrival thread => Sys2Proof.Machine.execMigrantArrival thread s
  | .landingSlotTake core => Sys2Proof.Machine.execLandingSlotTake core s
  | .overflowMove core => Sys2Proof.Machine.execOverflowMove core s
  | .messageRegisterArrival core reg value sender => Sys2Proof.Machine.execMessageRegisterArrival core reg value sender s
  | .mailboxArrival core msg sender mover => Sys2Proof.Machine.execMailboxArrival core msg sender mover s
  | .rillEntryReadable core port => Sys2Proof.Machine.execRillEntryReadable core port s
  | .lightHandlerEntry thread cause datum => Sys2Proof.Machine.execLightHandlerEntry thread cause datum s
  | .moverCommandStart core => Sys2Proof.Machine.execMoverCommandStart core s
  | .moverCommandComplete core => Sys2Proof.Machine.execMoverCommandComplete core s
  | .weirDecrement weir place bytes => Sys2Proof.Machine.execWeirDecrement weir place bytes s
  | .mmaComplete core => Sys2Proof.Machine.execMmaComplete core s
  | .barwTimeout thread => Sys2Proof.Machine.execBarwTimeout thread s
  | .sleepExpiry thread => Sys2Proof.Machine.execSleepExpiry thread s
  | .watchdog thread => Sys2Proof.Machine.execWatchdog thread s
  | .threadReplay die => Sys2Proof.Machine.execThreadReplay die s
  | .threadResumeNext die => Sys2Proof.Machine.execThreadResumeNext die s
  | .threadResumeAtTpc die => Sys2Proof.Machine.execThreadResumeAtTpc die s
  | .threadKill die => Sys2Proof.Machine.execThreadKill die s
  | .contextWrite die off value => Sys2Proof.Machine.execContextWrite die off value s
  | .eventCounterWrite die k select value => Sys2Proof.Machine.execEventCounterWrite die k select value s
  | .registerWrite reg value => Sys2Proof.Machine.execRegisterWrite reg value s
  | .serviceDieFailure => Sys2Proof.Machine.execServiceDieFailure s
  | .serviceDieReturn => Sys2Proof.Machine.execServiceDieReturn s
  | .retrainingComplete link => Sys2Proof.Machine.execRetrainingComplete link s
  | .laneRepairComplete link module => Sys2Proof.Machine.execLaneRepairComplete link module s
  | .spanPortReturn port => Sys2Proof.Machine.execSpanPortReturn port s
  | .pcieLinkDown port => Sys2Proof.Machine.execPcieLinkDown port s
  | .pcieLinkUp port flitMode => Sys2Proof.Machine.execPcieLinkUp port flitMode s
  | .stackClearComplete die => Sys2Proof.Machine.execStackClearComplete die s
  | .restoreComplete gang => Sys2Proof.Machine.execRestoreComplete gang s
  | .illegalInstruction => Sys2Proof.Machine.execIllegalInstruction s
  | .zeroParcel => Sys2Proof.Machine.execZeroParcel s
  | .fetchBound => Sys2Proof.Machine.execFetchBound s
  | .legacyTrap sub wordVA d a b lit => Sys2Proof.Machine.execLegacyTrap sub wordVA d a b lit s

end Sys2Proof.Machine
end

