-- ==== Sys2Proof/Machine/Run.lean ====
section
/-! DEFINITION. The course of the machine: which event or thread comes next, fetching an instruction, and running it (R96, R101, R102,
R142 to R146, R154, R163, R166, R264, R275, R290). -/

namespace Sys2Proof.Machine
open Sys2Proof

/-- An event of a unit takes its course. -/
def runEvent (e : Event) (s : State) : Out :=
  match e with
  | .coldReset => Sys2Proof.Machine.execColdReset s
  | .deviceReset => Sys2Proof.Machine.execDeviceReset s
  | .partitionReset part => Sys2Proof.Machine.execPartitionReset part s
  | .dieReset die => Sys2Proof.Machine.execDieReset die s
  | .dieLinkRetrain die => Sys2Proof.Machine.execDieLinkRetrain die s
  | .dieReturn die => Sys2Proof.Machine.execDieReturn die s
  | .dieLostTimeout die => Sys2Proof.Machine.execDieLostTimeout die s
  | .bringUpPhase failed => Sys2Proof.Machine.execBringUpPhase failed s
  | .junctionSensorRead celsius socket => Sys2Proof.Machine.execJunctionSensorRead celsius socket s
  | .clockFault => Sys2Proof.Machine.execClockFault s
  | .clockReferenceReturn => Sys2Proof.Machine.execClockReferenceReturn s
  | .partitionConfiguration cmd => Sys2Proof.Machine.execPartitionConfiguration cmd s
  | .measurementExtend reg digest => Sys2Proof.Machine.execMeasurementExtend reg digest s
  | .attestationReport nonce => Sys2Proof.Machine.execAttestationReport nonce s
  | .supervisorStart part codeVA => Sys2Proof.Machine.execSupervisorStart part codeVA s
  | .portModeSet port root parts => Sys2Proof.Machine.execPortModeSet port root parts s
  | .ideKeySet port stream key => Sys2Proof.Machine.execIdeKeySet port stream key s
  | .ideIntegrityFailure port => Sys2Proof.Machine.execIdeIntegrityFailure port s
  | .uncorrectableError site => Sys2Proof.Machine.execUncorrectableError site s
  | .patrolScrub site corrected => Sys2Proof.Machine.execPatrolScrub site corrected s
  | .budgetPeriod => Sys2Proof.Machine.execBudgetPeriod s
  | .flitReceive link flit => Sys2Proof.Machine.execFlitReceive link flit s
  | .repeatTimeout link seq => Sys2Proof.Machine.execRepeatTimeout link seq s
  | .linkRetrain link => Sys2Proof.Machine.execLinkRetrain link s
  | .linkFailed link => Sys2Proof.Machine.execLinkFailed link s
  | .laneRepair link module lanes => Sys2Proof.Machine.execLaneRepair link module lanes s
  | .spanLaneFailure port failed => Sys2Proof.Machine.execSpanLaneFailure port failed s
  | .keyAgreement port peer peerPart => Sys2Proof.Machine.execKeyAgreement port peer peerPart s
  | .keyRollover port => Sys2Proof.Machine.execKeyRollover port s
  | .keyUseLimit port => Sys2Proof.Machine.execKeyUseLimit port s
  | .slotRetire port => Sys2Proof.Machine.execSlotRetire port s
  | .spanAuthFailure port seq => Sys2Proof.Machine.execSpanAuthFailure port seq s
  | .hostStreamWrite part port off data => Sys2Proof.Machine.execHostStreamWrite part port off data s
  | .mirrorWrite part stream off data => Sys2Proof.Machine.execMirrorWrite part stream off data s
  | .recordAccept part stream => Sys2Proof.Machine.execRecordAccept part stream s
  | .cuiqueTranslation die part codeVA => Sys2Proof.Machine.execCuiqueTranslation die part codeVA s
  | .streamCancel part stream => Sys2Proof.Machine.execStreamCancel part stream s
  | .hostheadWrite part stream value => Sys2Proof.Machine.execHostheadWrite part stream value s
  | .recordComplete part stream slot => Sys2Proof.Machine.execRecordComplete part stream slot s
  | .dieLost die => Sys2Proof.Machine.execDieLost die s
  | .timelineSet part ctr value => Sys2Proof.Machine.execTimelineSet part ctr value s
  | .timelineAdd part ctr value => Sys2Proof.Machine.execTimelineAdd part ctr value s
  | .fqheadWrite part value => Sys2Proof.Machine.execFqheadWrite part value s
  | .apertureEntryWrite io k entry writer => Sys2Proof.Machine.execApertureEntryWrite io k entry writer s
  | .spanApertureEntryWrite io k entry writer => Sys2Proof.Machine.execSpanApertureEntryWrite io k entry writer s
  | .peerReadCompletion access status data => Sys2Proof.Machine.execPeerReadCompletion access status data s
  | .peerReadTimeout access => Sys2Proof.Machine.execPeerReadTimeout access s
  | .hostMemoryWrite part port off data => Sys2Proof.Machine.execHostMemoryWrite part port off data s
  | .hostMemoryRead part port off len => Sys2Proof.Machine.execHostMemoryRead part port off len s
  | .managementBarAccess bar off write data len => Sys2Proof.Machine.execManagementBarAccess bar off write data len s
  | .upstreamRequest port addr write data len => Sys2Proof.Machine.execUpstreamRequest port addr write data len s
  | .spanRequest port part off op => Sys2Proof.Machine.execSpanRequest port part off op s
  | .placementWindow => Sys2Proof.Machine.execPlacementWindow s
  | .drainReservation part stream slot => Sys2Proof.Machine.execDrainReservation part stream slot s
  | .stallResolution part stream slot => Sys2Proof.Machine.execStallResolution part stream slot s
  | .preemptionRequest gangs => Sys2Proof.Machine.execPreemptionRequest gangs s
  | .framePreemption die => Sys2Proof.Machine.execFramePreemption die s
  | .saveComplete gang => Sys2Proof.Machine.execSaveComplete gang s
  | .haltEnd gang => .next (haltEnds s gang)
  | .rasterControlWrite part off value => Sys2Proof.Machine.execRasterControlWrite part off value s
  | .primitiveSetup die => Sys2Proof.Machine.execPrimitiveSetup die s
  | .watermarkPeriod die => Sys2Proof.Machine.execWatermarkPeriod die s
  | .primitiveMessage src dst payload => Sys2Proof.Machine.execPrimitiveMessage src dst payload s
  | .watermark src dst payload => Sys2Proof.Machine.execWatermark src dst payload s
  | .credit src dst payload => Sys2Proof.Machine.execCredit src dst payload s
  | .close src dst payload => Sys2Proof.Machine.execClose src dst payload s
  | .mergeRelease die => Sys2Proof.Machine.execMergeRelease die s
  | .rasterise die => Sys2Proof.Machine.execRasterise die s
  | .staticWaveStart die group wave => Sys2Proof.Machine.execStaticWaveStart die group wave s
  | .exportApply die => Sys2Proof.Machine.execExportApply die s
  | .homeAccess access => Sys2Proof.Machine.execHomeAccess access s
  | .memoryReply access => Sys2Proof.Machine.execMemoryReply access s
  | .pageWalkComplete die part vpage => Sys2Proof.Machine.execPageWalkComplete die part vpage s
  | .faultReplay die entry => Sys2Proof.Machine.execFaultReplay die entry s
  | .faultKill die entry => Sys2Proof.Machine.execFaultKill die entry s
  | .tlbInvalidateRange part first count => Sys2Proof.Machine.execTlbInvalidateRange part first count s
  | .tlbInvalidateAll part => Sys2Proof.Machine.execTlbInvalidateAll part s
  | .invalidationComplete part => Sys2Proof.Machine.execInvalidationComplete part s
  | .heraldWindow => Sys2Proof.Machine.execHeraldWindow s
  | .heraldCompletion access => Sys2Proof.Machine.execHeraldCompletion access s
  | .migrantArrival thread => Sys2Proof.Machine.execMigrantArrival thread s
  | .landingSlotTake core => Sys2Proof.Machine.execLandingSlotTake core s
  | .overflowMove core => Sys2Proof.Machine.execOverflowMove core s
  | .messageRegisterArrival core reg value sender => Sys2Proof.Machine.execMessageRegisterArrival core reg value sender s
  | .mailboxArrival core msg sender mover => Sys2Proof.Machine.execMailboxArrival core msg sender mover s
  | .rillEntryReadable core port => Sys2Proof.Machine.execRillEntryReadable core port s
  | .lightHandlerEntry thread cause datum => Sys2Proof.Machine.execLightHandlerEntry thread cause datum s
  | .moverCommandStart core => Sys2Proof.Machine.execMoverCommandStart core s
  | .moverCommandComplete core => Sys2Proof.Machine.execMoverCommandComplete core s
  | .weirDecrement weir place bytes => Sys2Proof.Machine.execWeirDecrement weir place bytes s
  | .mmaComplete core => Sys2Proof.Machine.execMmaComplete core s
  | .barwTimeout thread => Sys2Proof.Machine.execBarwTimeout thread s
  | .sleepExpiry thread => Sys2Proof.Machine.execSleepExpiry thread s
  | .watchdog thread => Sys2Proof.Machine.execWatchdog thread s
  | .threadReplay die => Sys2Proof.Machine.execThreadReplay die s
  | .threadResumeNext die => Sys2Proof.Machine.execThreadResumeNext die s
  | .threadResumeAtTpc die => Sys2Proof.Machine.execThreadResumeAtTpc die s
  | .threadKill die => Sys2Proof.Machine.execThreadKill die s
  | .contextWrite die off value => Sys2Proof.Machine.execContextWrite die off value s
  | .eventCounterWrite die k select value => Sys2Proof.Machine.execEventCounterWrite die k select value s
  | .registerWrite reg value => Sys2Proof.Machine.execRegisterWrite reg value s
  | .serviceDieFailure => Sys2Proof.Machine.execServiceDieFailure s
  | .serviceDieReturn => Sys2Proof.Machine.execServiceDieReturn s
  | .retrainingComplete link => Sys2Proof.Machine.execRetrainingComplete link s
  | .laneRepairComplete link module => Sys2Proof.Machine.execLaneRepairComplete link module s
  | .spanPortReturn port => Sys2Proof.Machine.execSpanPortReturn port s
  | .pcieLinkDown port => Sys2Proof.Machine.execPcieLinkDown port s
  | .pcieLinkUp port flitMode => Sys2Proof.Machine.execPcieLinkUp port flitMode s
  | .stackClearComplete die => Sys2Proof.Machine.execStackClearComplete die s
  | .restoreComplete gang => Sys2Proof.Machine.execRestoreComplete gang s
  | .hostControlWrite part port off data => hostControl s part port off data
  | .hostRead part port bar off len => hostReadBar s part port bar off len

/-! Fetch and execution (R264, R271 to R275, R290). -/

/-- The issuing thread without its rx mark, for a fault of the fetch itself. -/
def State.unrx (s : State) : State := { s with th := { s.th with rx := false } }

/-- PC of the instruction to run: past an rx prefix that has issued. -/
def Thread.at_ (t : Thread) : Nat := t.pc.toNat + (if t.rx then 1 else 0)

/-- What stands at a PC of a thread. -/
inductive Fetch where
  /-- An instruction. -/
  | instr (i : Instr)
  /-- At or beyond the bound. -/
  | bound
  /-- The zero parcel. -/
  | zero
  /-- An illegal encoding. -/
  | illegal
  /-- A fault of the fetch. -/
  | bad (c : Cause) (a : DWord)
  /-- A walk is needed. -/
  | miss (vpage : Nat) (a : DWord)
  /-- A translated instruction without a native encoding. -/
  | special (x : TSpecial)
  deriving DecidableEq, Repr

/-- The decoding of parcels that have been fetched whole. -/
def decodeAt (v : Ver) (l : List (BitVec 16)) : Fetch :=
  match decode v l with
  | some (i, _) => .instr i
  | none => .illegal

/-- THE FETCH at a PC (R264, R274, R275): one parcel, and a second when the first is long. -/
def fetch (s : State) (t : Thread) (pc : Nat) : Fetch :=
  match specialAt s t pc with
  | some x => .special x
  | none =>
    match fetchParcel s t pc with
    | .bound => .bound
    | .bad c a => .bad c a
    | .miss vp a => .miss vp a
    | .parcel p =>
      if p = 0 then .zero
      else if p.getLsbD 0 then
        match fetchParcel s t (pc + 1) with
        | .bound => .bound
        | .bad c a => .bad c a
        | .miss vp a => .miss vp a
        | .parcel q => decodeAt (Ver.ofByte t.version) [p, q]
      else decodeAt (Ver.ofByte t.version) [p]

/-- The virtual address of a legacy word. -/
def legacyVA (t : Thread) (word : Nat) : Nat := t.codeVA + 4 * word

/-- The issuing thread runs what stands at its PC. -/
def runFetched (s : State) : Fetch → Out
  | .instr i => exec i s
  | .bound => execFetchBound s
  | .zero => execZeroParcel s
  | .illegal => execIllegalInstruction s
  | .bad c a => .next (raise s.unrx (faultAt c 0 a 4))
  | .miss vp a => .next (startWalk s.unrx vp 4 a 0)
  | .special .illegal => execIllegalInstruction s
  | .special (.legacy sub w d a b lit) => execLegacyTrap sub (legacyVA s.th w) d a b lit s
  | .special .bound => execFetchBound s
  | .special .boundIf => if s.th.rdP 15 then execFetchBound s else .next (s.put (s.th.done s.clk 2 8))

/-- The issuing thread executes; on a wave engine the registers that its instruction writes then await their results (R146). -/
def runThread (s : State) : Out :=
  match fetch s s.th s.th.at_ with
  | .instr i =>
    match exec i s with
    | .next u => .next (scoreboard s i u)
    | o => o
  | f => runFetched s f

/-! Who issues (R101, R102, R143, R144, R166). -/

/-- A thread may issue now. -/
def eligible (s : State) (t : Thread) : Bool :=
  atBoundary s t && t.live && t.update.isNone && !(s.die t.die).inReset && !stalled s t

/-- Skip limit of a priority (R101). -/
def skipLimit (p : Nat) : Nat :=
  match p with
  | 3 => 0
  | 2 => 1
  | 1 => 3
  | _ => 15

/-- Looks at ready threads in turn until one issues (R101): a thread that has yielded is passed over until its eighth turn while another
is ready (R316), and one of lower priority until its skip limit. Answers the thread and the others as the looks leave them. -/
def look : Nat → List Thread → Option (Nat × List Thread)
  | n + 1, t :: r =>
    if 1 < t.yields ∧ !r.isEmpty then look n (r ++ [{ t with yields := t.yields - 1 }])
    else if t.yields = 0 ∧ r.any (fun u => decide (t.prio < u.prio)) ∧ t.skip < skipLimit t.prio then look n (r ++ [{ t with skip := t.skip + 1 }])
    else some (t.uid, r)
  | _, _ => none

/-- The ready threads of a core in slot order after the slot that issued last. -/
def rotation (last : Nat) (l : List Thread) : List Thread :=
  (List.range 64).filterMap (fun i => l.find? (fun t =>
    match t.place with
    | .swarm _ k => k == (last + 1 + i) % 64
    | _ => false))

/-- Skip and yield counts after a choice. -/
def settleSkips (s : State) (uid : Nat) (others : List Thread) : State :=
  s.mapThreads (fun t =>
    if !t.live then t
    else if t.uid == uid then { t with skip := 0, yields := 0 }
    else match others.find? (fun u => u.uid == t.uid) with
      | some u => { t with skip := u.skip, yields := u.yields }
      | none => t)

/-- The slot of a thread. -/
def Thread.slotNo (t : Thread) : Nat := match t.place with | .swarm _ k => k | _ => 0

/-- THE DYNAMIC WAVE of an engine (R166) from its ready threads: PC, and one thread of each lane. [DEDUCED: log 83] -/
def gather (l : List Thread) : List Thread :=
  let best (x y : Thread) : Bool := decide (x.prio < y.prio) || (x.prio == y.prio && (decide (x.skip < y.skip) ||
    (x.skip == y.skip && (decide (y.tid < x.tid) || (x.tid == y.tid && decide (y.uid < x.uid))))))
  let forced := l.filter (fun t => decide (15 ≤ t.skip))
  let score (pc : Word) : Nat := ((List.range 64).map (fun k =>
    let here := l.filter (fun t => t.pc == pc && t.laneNo == k)
    if here.isEmpty then 0 else 1 + here.foldl (fun m t => max m t.prio) 0)).sum
  let pick : Option Word := match forced.foldl (fun (b : Option Thread) t => match b with
      | none => some t
      | some u => if t.readyAt < u.readyAt ∨ (t.readyAt = u.readyAt ∧ t.uid < u.uid) then some t else some u) none with
    | some t => some t.pc
    | none => l.foldl (fun (b : Option Word) t => match b with
        | none => some t.pc
        | some w => if score w < score t.pc ∨ (score w = score t.pc ∧ t.pc.toNat < w.toNat) then some t.pc else some w) none
  match pick with
  | none => []
  | some pc => (List.range 64).filterMap (fun k =>
      (l.filter (fun t => t.pc == pc && t.laneNo == k)).foldl (fun (b : Option Thread) t => match b with
        | none => some t
        | some u => if best u t then some t else some u) none)

/-- A thread that has yielded is left out of one dynamic wave, within its bound of turns (R316). [DEDUCED: log 83] -/
def yielded (t : Thread) : Bool := t.yields != 0 && decide (t.skip < 15)

/-- Turns of the ready threads of an engine after a dynamic wave (R102): a thread in it starts afresh; one on a lane where a thread of
higher priority issued has had no turn. -/
def waveTurns (s : State) (ready wave : List Thread) : State :=
  s.mapThreads (fun t =>
    if !t.live || !ready.any (fun u => u.uid == t.uid) then t
    else if wave.any (fun u => u.uid == t.uid) then
      (if yielded t then { t with skip := t.skip + 1, yields := 0 } else { t with skip := 0, yields := 0 })
    else if wave.any (fun u => u.laneNo == t.laneNo && decide (t.prio < u.prio)) then t
    else { t with skip := t.skip + 1 })

/-- An issue counted: on the core, and on the die (R81, R82). -/
def countIssue (s : State) (c : Nat) : State := clusterEvent (coreEvent s c 1 1) c 1 0 1

/-- The choice of a core or engine in this clk: the thread that issues, with the marks that its choice leaves; or nothing, when every thread of
its dynamic wave has yielded. [DEDUCED: log 85] -/
inductive Choice where
  /-- A thread issues. -/
  | thread (uid : Nat) (s : State)
  /-- Every thread of the dynamic wave has yielded. -/
  | idle (s : State)

/-- The mark that a core has issued in this clk. -/
def markIssued (s : State) (c slot : Nat) : State := s.updCore c (fun k => { k with issued := s.clk + 1, ran := s.clk + 1, last := slot })

/-- What a core does in this clk with its eligible threads: nothing when it has issued already, or background activity has taken the slot
(R76). -/
def chooseAt (s : State) (c : Nat) (l : List Thread) : Option Choice :=
  let k := s.core c
  if s.clk < k.issued then none
  else if coreIsWave c && coreCluster c != 15 then
    match gather l with
    | [] => none
    | all =>
      let s := markIssued (waveTurns s l all) c k.last
      match all.filter (fun t => !yielded t) with
      | [] => some (.idle s)
      | t :: r =>
        let s := s.updCore c (fun k => { k with wave := r.map Thread.uid })
        some (.thread t.uid (coreEvent (countIssue s c) c 8 (r.length + 1)))
  else
    let rot := rotation k.last l
    match look 2048 rot with
    | none => none
    | some (u, others) =>
      let slot := ((l.find? (fun t => t.uid == u)).map Thread.slotNo).getD 0
      some (.thread u (countIssue (markIssued (settleSkips s u others) c slot) c))

/-- Threads of a dynamic wave of this clk that have not issued yet: the next one. -/
def restOfWave (s : State) : Option (Nat × State) :=
  match s.cores.find? (fun c => !c.2.wave.isEmpty) with
  | none => none
  | some (c, k) =>
    match k.wave with
    | [] => none
    | u :: r => some (u, s.updCore c (fun k => { k with wave := r }))

/-- The core numbers of a list of threads, ascending. -/
def coresOf (l : List Thread) : List Nat :=
  l.foldl (fun (a : List Nat) t => if a.contains t.core then a else a.filter (fun c => decide (c < t.core)) ++ [t.core] ++
    a.filter (fun c => decide (t.core < c))) []

/-- The choice of the first core, in increasing number, that issues in this clk. -/
def chooseIssue (s : State) : Option Choice :=
  let l := s.selThreads (eligible s)
  (coresOf l).findSome? (fun c => chooseAt s c (l.filter (fun t => t.core == c)))

/-- The thread with this identity stands in the place of the issuing one. -/
def bringUp (s : State) (uid : Nat) : State :=
  if s.th.uid = uid then s
  else match s.threads.find? (fun t => t.uid == uid) with
    | none => s
    | some t =>
      let keep := s.th.live || s.th.place != .nowhere || s.outstanding s.th.uid
      let rest := s.threads.filter (fun x => x.uid != uid)
      { s with th := t, threads := if keep then s.th :: rest else rest }

/-- A chosen thread issues: it enters its handler for a pending event (R155), or executes. [DEDUCED: log 84] -/
def issue (s : State) (uid : Nat) : Out :=
  let s := bringUp s uid
  let t := s.th.settleCur s.clk
  let u := takeEvent s t
  if u.inH && !t.inH then .next (entryAcquire ((coreEvent s u.core 7 1).put u) u)
  else runThread (s.put t)

/-! Guests that are not chosen for an issue (R163, R165). -/

/-- The core that the next access of a thread needs: where its next instruction would send it, else where it is (R157, R163). -/
def neededCore (s : State) (t : Thread) : Nat :=
  let s := bringUp s t.uid
  match ((stateOf (runThread s) s).thread? t.uid).map Thread.place with
  | some (.transit c) => c
  | _ => t.core

/-- A spawned store is over: its context leaves its slot, and its spawner goes on (R165, R342). -/
def endUpdate (s : State) (t : Thread) : State :=
  let s := endThread (s.updThread t.uid (fun t => { t with update := none })) t.uid
  match t.spawner with
  | some p => pokeOwner (s.updThread p (fun x => { x with performedAt := s.clk })) p
  | none => s

/-- A spawned store that has taken its guest slot is performed, or parks at its home on behalf of its spawner when its word is not ready
(R147, R165, R342). -/
def runUpdate (s : State) (t : Thread) (k : Nat) (op : AccOp) : State :=
  if mustWait s k op then
    let id := s.nextId
    let f : Flight := ⟨id, t.spawner.getD t.uid, k, op, 0, 0, false, true, false, 0, 0, false, .sent⟩
    endUpdate (fePark { s with nextId := id + 1, flights := s.flights ++ [f] } f) t
  else endUpdate (performAt s k op 0 (some t.part)).1 t

/-- The next spawned store that has come to its slot. -/
def updateNow (s : State) : Option State :=
  (s.selThreads (fun t => t.update.isSome && atBoundary s t && t.live && !(s.die t.die).inReset)).findSome? (fun t =>
    t.update.map (fun x => runUpdate s t x.1 x.2))

/-- Instructions that only a wave thread executes (R167, R380 to R402). -/
def waveOnly : Instr → Bool
  | .shfl _ _ _ | .shflx _ _ _ | .voteAny _ _ | .voteAll _ _ | .ballot _ _ | .lsum _ _ _ | .lmin _ _ _ | .bcast _ _ _ => true
  | .mrdy | .mwait | .mmaBf16 _ _ _ _ | .mmaF16 _ _ _ _ | .mmaF8E4m3E4m3 _ _ _ _ | .mmaF8E4m3E5m2 _ _ _ _ | .mmaF8E5m2E4m3 _ _ _ _
  | .mmaF8E5m2E5m2 _ _ _ _ | .mmaF8S8 _ _ _ _ | .mmaQ4 _ _ _ _ | .mmaMx4 _ _ _ _ | .mmaTs8W8 _ _ _ _ | .mmaTs8W4 _ _ _ _ => true
  | .smp _ _ _ | .smpl _ _ _ | .smpg _ _ _ | .fetch _ _ _ | .ddx _ _ | .ddy _ _ | .interp _ _ _ | .pexp _ _ | .kill | .wleave _ => true
  | .cset _ _ | .csetHigh _ _ | .inval _ | .wback _ => true
  | _ => false

/-! Time. -/

/-- The clk at which a ready thread may come to issue: its interval is over, a result that it awaits is there, or its core has a slot again. -/
def Thread.wakes (s : State) (t : Thread) : List Nat :=
  (t.readyAt :: (s.core t.core).issued :: t.marks.map Mark.till).filter (fun x => decide (s.clk < x))

/-- The clk at which the machine next has something to do, after the present one. -/
def nextClk (s : State) : Nat :=
  let a := s.timers.map (fun x => x.1)
  let b := (s.selThreads (fun t => t.run == .ready && t.hold == .running)).flatMap (Thread.wakes s)
  let c := (s.selThreads (fun t => t.hold == .running)).filterMap (watchdogDue s)
  match (a ++ b ++ c).foldl (fun (m : Option Nat) x => match m with | none => some x | some y => some (min x y)) none with
  | some x => max x (s.clk + 1)
  | none => s.clk + 1

/-- Clk from the present one to another at which no thread of a core is ready: in between none becomes so (R82). -/
def idleClk (s : State) (c till : Nat) : Nat :=
  if s.anyThread (fun t => t.core == c && eligible s t) then 0
  else till - s.clk - (if (s.core c).ran = s.clk + 1 then 1 else 0)

/-- Clk from the present one to another for which a thread of a core awaits a memory reply (R82). -/
def memClk (s : State) (c till : Nat) : Nat :=
  let l := s.selThreads (fun t => t.core == c && t.live)
  if l.any (fun t => s.flights.any (fun f => f.owner == t.uid)) then till - s.clk
  else min till (l.foldl (fun m t => max m t.memTo) s.clk) - s.clk

/-- Time passes: cores count the clk with no ready thread and those in which a thread awaits a memory reply (R82). -/
def passTime (s : State) : State :=
  let till := nextClk s
  let l := s.cores.filter (fun c => [c.2.evs0, c.2.evs1].any (fun e => e == 3 || e == 4))
  { l.foldl (fun u c => coreEvent (coreEvent u c.1 3 (idleClk s c.1 till)) c.1 4 (memClk s c.1 till)) s with clk := till }

/-- A thread whose watchdog limit has come. -/
def watchdogNow (s : State) : Option Nat :=
  (s.selThreads (fun t => t.hold == .running && (match watchdogDue s t with | some d => decide (d ≤ s.clk) | none => false))).head?.map Thread.uid

/-- The thread that holds an rx prefix and whose instruction comes next. -/
def prefixed (s : State) : Bool := s.th.rx && s.th.run == .ready && s.th.live

/-- The next input that a held package obeys, a cold reset, or the return of the reference when it is not tripped; the others are lost. [DESIGN CHOICE: log 10] -/
def releaseNow (s : State) : Option (Event × State) :=
  match s.agenda.dropWhile (fun e => !(e == .coldReset || (!s.trip && e == .clockReferenceReturn))) with
  | [] => none
  | e :: r => some (e, { s with agenda := r })

/-- What the machine does next. [DESIGN CHOICE: log 10] -/
inductive Turn where
  /-- The package is held in reset, by a trip when set. -/
  | stopped (trip : Bool)
  /-- An event takes its course in the state given. -/
  | event (e : Event) (s : State)
  /-- A spawned store is performed, a vacated guest rejoins a landing queue, or parked guests leave their slots. -/
  | rejoined (s : State)
  /-- A thread issues in the state given. -/
  | thread (uid : Nat) (s : State)
  /-- A core issues nothing in this clk, or time passes. -/
  | passes (s : State)

/-- THE ORDER OF EVENTS AND THREADS within a clk, in the model's one sequence: an instruction after its rx prefix; guests that rejoin and
spawned stores; inputs and events that are due; the watchdog; then cores in increasing number. [DESIGN CHOICE: log 3] -/
def turn (s : State) : Turn :=
  if s.trip || s.clockHeld then
    match releaseNow s with
    | some (e, s) => .event e s
    | none => .stopped s.trip
  else if prefixed s then .thread s.th.uid s
  else match (updateNow s).orElse (fun _ => rejoin s (neededCore s)) with
    | some s => .rejoined s
    | none =>
      match s.agenda with
      | e :: r => .event e { s with agenda := r }
      | [] =>
        match s.timers with
        | (c, e) :: r => if c ≤ s.clk then .event e { s with timers := r } else turnThreads s
        | [] => turnThreads s
where
  /-- Threads, when no event is due. -/
  turnThreads (s : State) : Turn :=
    match watchdogNow s with
    | some u => .event (.watchdog u) s
    | none =>
      match restOfWave s with
      | some (u, s) => if s.anyThread (fun t => t.uid == u && eligible s t) then .thread u s else .passes s
      | none =>
        match chooseIssue s with
        | some (.thread u s) => .thread u s
        | some (.idle s) => .passes s
        | none => .passes (passTime s)

/-- What a turn comes to. -/
def takeTurn : Turn → Out
  | .stopped true => .fault .thermalTrip
  | .stopped false => .fault .packageHeld
  | .event e s => runEvent e s
  | .rejoined s => .next s
  | .thread u s => issue s u
  | .passes s => .next s

end Sys2Proof.Machine
end

