-- ==== Sys2Proof/Machine/Step.lean ====
section
/-! DEFINITION. One step of the machine, and the state in which a given instruction is the next one that it fetches. -/

namespace Sys2Proof.Machine
open Sys2Proof

/-- ONE STEP: the next event of the package or the next instruction of the thread whose turn it is; a fault only while the clock is
stopped or the package is held in reset (R11, R14, R16). [DESIGN CHOICE: log 3, 89] -/
def step (s : State) : Host.Outcome State Fault Refusal := takeTurn (turn s)

/-- Physical address of the code region that withFetchWord uses: in the stack of die 0. -/
def fetchBase : Nat := 32 * 2 ^ 46 + 0x40000

/-- The thread that fetches: on a wave engine when the instruction is one that only a wave thread executes. [DESIGN CHOICE: log 7] -/
def fetchThread (wave : Bool) : Thread :=
  { Thread.reset with
    uid := 1, run := .ready, place := if wave then .wave (coreNo 0 0 32) 0 0 else .swarm (coreNo 0 0 0) 0
    count := 64, codeVA := 0x10000, bound := 16 }

/-- The partition of that thread. -/
def fetchPart : Part := { Part.fresh 0 with dies := [0], running := true }

/-- Die 0 of a running partition, with the code page's translation. -/
def fetchDie (d : Die) : Die :=
  { d with present := true, inReset := false, lost := false, mcb := ⟨BitVec.ofNat 64 (32 * 2 ^ 46 + 0x10001), 0, 0, 0⟩, walks := []
           tlb := [⟨0, 1, 1, BitVec.ofNat 64 (fetchBase + 0x1F)⟩] }

/-- THE LOAD OF ONE INSTRUCTION: bring-up is over, partition 0 is die 0 and runs one thread, whose code region, in the stack of die 0
behind page tables, holds the word's parcels at its PC; no event is due. The step from here fetches and runs it. [DESIGN CHOICE: log 7] -/
def State.withFetchWord (s : State) (nbits w : Nat) : State :=
  let wave := match decodeTableWord nbits w with
    | some i => waveOnly i
    | none => false
  let m := writeBytes s.mem (32 * 2 ^ 46 + 0x10000) 8 (BitVec.ofNat 128 (32 * 2 ^ 46 + 0x20001))
  let m := writeBytes m (32 * 2 ^ 46 + 0x20000) 8 (BitVec.ofNat 128 (32 * 2 ^ 46 + 0x30001))
  let m := writeBytes m (32 * 2 ^ 46 + 0x30008) 8 (BitVec.ofNat 128 (fetchBase + 0x1F))
  { s with
    th := fetchThread wave, threads := [], mem := writeBytes m fetchBase 16 (BitVec.ofNat 128 (w % 2 ^ nbits)), flights := [], heldMsgs := [], ctlb := []
    cores := [], dies := s.dies.setIfInBounds 0 (fetchDie (s.die 0)), parts := [fetchPart], phase := 7, trip := false, clockHeld := false
    agenda := [], timers := [], nextId := 2 }

end Sys2Proof.Machine
end

