-- ==== Sys2Proof/Safety.lean ====
section
/-! DEFINITION. What the statements about the machine say of a state: its canonical form, an operand that reads or writes a register, a
thread that may execute, what an instruction leaves alone, and how it completes or is trapped. -/

namespace Sys2Proof.Machine
open Sys2Proof

/-! The canonical form. -/

/-- Memory and the list of full words are in their canonical forms. -/
def State.wf (s : State) : Prop := Memory.wf s.mem = true ∧ fullWfFrom none s.full = true

/-! Operands. -/

/-- The single-register operand in a position reaches register n: a direct code, or an indirect one through its index register
(R181). -/
def Thread.at1 (t : Thread) (pos : Nat) (c : Code) (n : Nat) : Prop := resolve t (reg pos c) = .ok n

/-- The pair operand in a position reaches registers n and n + 1. -/
def Thread.at2 (t : Thread) (pos : Nat) (c : Code) (n : Nat) : Prop := resolve t (pair pos c) = .ok n

/-- The quad operand in a position reaches registers n to n + 3. -/
def Thread.at4 (t : Thread) (pos : Nat) (c : Code) (n : Nat) : Prop := resolve t (quad pos c) = .ok n

/-- The operand of k registers, aligned to k, reaches registers from n (R171). -/
def Thread.atK (t : Thread) (pos : Nat) (c : Code) (k n : Nat) : Prop := resolve t ⟨pos, c, k, k⟩ = .ok n

/-- The list operand of k registers reaches registers from n. -/
def Thread.atL (t : Thread) (pos : Nat) (c : Code) (k n : Nat) : Prop := resolve t (span pos c k) = .ok n

/-- The address pair in a position reaches registers n and n + 1 (R284). -/
def Thread.atA (t : Thread) (pos : Nat) (c : Code) (n : Nat) : Prop := resolve t (addrPair pos c) = .ok n

/-- No override armed in these positions raises a fault: none is armed, or the thread stands on a wave engine by its role
(R177). -/
def Thread.free (t : Thread) (ovr : List Nat) : Prop := overrideCause t ovr = none

/-- Register n holds v, unless the thread has no such register or an uncompleted matrix instruction of t holds it (R235). -/
def Thread.gets (u t : Thread) (n : Nat) (v : Word) : Prop := n < 128 → n ∉ t.busy → u.g[n]? = some v

/-- Registers n and n + 1 hold the pair v, low word first (R171). -/
def Thread.gets2 (u t : Thread) (n : Nat) (v : DWord) : Prop :=
  u.gets t n (v.setWidth 32) ∧ u.gets t (n + 1) (v.extractLsb' 32 32)

/-! What stays. -/

/-- Parcels that an instruction of len parcels takes with its rx prefix. -/
def Thread.parcels (t : Thread) (len : Nat) : Word := BitVec.ofNat 32 (len + (if t.rx then 1 else 0))

/-- The light-handler state, enables, identity and place of u are those of t. -/
def Thread.specials (t u : Thread) : Prop :=
  u.h = t.h ∧ u.lhpc = t.lhpc ∧ u.lhen = t.lhen ∧ u.lhret = t.lhret ∧ u.lhcause = t.lhcause ∧ u.lhdat = t.lhdat ∧ u.inH = t.inH ∧
    u.pend = t.pend ∧ u.count = t.count ∧ u.fxen = t.fxen ∧ u.compat = t.compat ∧ u.version = t.version ∧ u.place = t.place ∧
    u.uid = t.uid ∧ u.hold = t.hold ∧ u.part = t.part ∧ u.grp = t.grp ∧ u.gang = t.gang

/-- The context of u is that of t but for general registers ds, predicates ps, index registers js and those that an indirect one of
codes names, and the ARM bits of the extension registers ovr, each cleared if it was set. -/
def Thread.frame (t u : Thread) (ds ps : List Nat) (codes : List Code) (js ovr : List Nat) : Prop :=
  (∀ k, k ∉ ds → u.g[k]? = t.g[k]?) ∧ (∀ k, k ∉ ps → u.rdP k = t.rdP k) ∧
    (∀ j, j ∉ js → (∀ c ∈ codes, t.indirect c = true → c.toNat ≠ 120 + j) → u.rdI j = t.rdI j) ∧
    (∀ n, n ∉ ovr → u.rdX n = t.rdX n) ∧
    (∀ n, n ∈ ovr → u.rdX n = if t.armed n then t.rdX n &&& 0x7FFFFFFF else t.rdX n) ∧ t.specials u

/-- Everything but the issuing thread is as before. -/
def State.keeps (s u : State) : Prop := u = { s with th := u.th }

/-- Every byte of memory reads as before. -/
def State.sameMem (s u : State) : Prop := ∀ a, memRead u.mem a = memRead s.mem a

/-- Every byte of memory outside the n bytes at k reads as before. -/
def State.sameMemBut (s u : State) (k n : Nat) : Prop := ∀ a, (a < k ∨ k + n ≤ a) → memRead u.mem a = memRead s.mem a

/-! Completion. -/

/-- The instruction i completes at s with nothing but its thread changed: the PC is past its len parcels and its rx prefix, the thread is
ready, its context is as before but for what is listed, and r holds of it. -/
def State.completes (s : State) (i : Instr) (len : Nat) (ds ps : List Nat) (codes : List Code) (js ovr : List Nat)
    (r : Thread → Prop) : Prop :=
  ∃ u, exec i s = .next u ∧ s.keeps u ∧ s.sameMem u ∧ s.th.frame u.th ds ps codes js ovr ∧ u.th.run = .ready ∧ u.th.rx = false ∧
    u.th.pc = s.th.pc + s.th.parcels len ∧ r u.th

/-- The instruction of three register operands d, a, b in two parcels completes and writes v to register nd. -/
def State.gives3 (s : State) (i : Instr) (d a b : Code) (nd : Nat) (v : Word) : Prop :=
  s.completes i 2 [nd] [] [a, b, d] [] [1, 2] (fun u => u.gets s.th nd v)

/-- The instruction of two register operands d and a in two parcels completes and writes v to register nd. -/
def State.gives2 (s : State) (i : Instr) (d a : Code) (nd : Nat) (v : Word) : Prop :=
  s.completes i 2 [nd] [] [a, d] [] [1] (fun u => u.gets s.th nd v)

/-- The instruction of pair operands completes and writes v to registers nd and nd + 1. -/
def State.givesD (s : State) (i : Instr) (d a b : Code) (nd : Nat) (v : DWord) : Prop :=
  s.completes i 2 [nd, nd + 1] [] [a, b, d] [] [] (fun u => u.gets2 s.th nd v)

/-- The 16-bit form completes and writes v to register na. -/
def State.gives16 (s : State) (i : Instr) (na : Nat) (ovr : List Nat) (v : Word) : Prop :=
  s.completes i 1 [na] [] [] [] ovr (fun u => u.gets s.th na v)

/-- The instruction i of len parcels goes elsewhere: nothing but its thread changes, and the PC is the target. -/
def State.jumps (s : State) (i : Instr) (target : Word) (ds : List Nat) (codes : List Code) (ovr : List Nat) (r : Thread → Prop) : Prop :=
  ∃ u, exec i s = .next u ∧ s.keeps u ∧ s.sameMem u ∧ s.th.frame u.th ds [] codes [] ovr ∧ u.th.run = .ready ∧ u.th.rx = false ∧
    u.th.pc = target ∧ r u.th

/-! Floating point. -/

/-- The value of a finite binary32 pattern (R239); none for an infinity or a NaN. -/
def f32Val (w : Word) : Option ℚ :=
  let sign : ℚ := if w.getLsbD 31 then -1 else 1
  let e := bits w.toNat 30 23
  let m := bits w.toNat 22 0
  if e = 255 then none
  else if e = 0 then some (sign * m / 2 ^ 149)
  else some (sign * (2 ^ 23 + m) * 2 ^ e / 2 ^ 150)

/-- A NaN pattern of binary32 (R238, R240). -/
def f32Nan (w : Word) : Prop := bits w.toNat 30 23 = 255 ∧ bits w.toNat 22 0 ≠ 0

/-- A signalling NaN of binary32 (R240). -/
def f32Sig (w : Word) : Prop := f32Nan w ∧ w.getLsbD 22 = false

/-- The order of binary32 numbers, infinities included: sign and magnitude as an integer, both zeros alike. -/
def f32Key (w : Word) : Int := if w.getLsbD 31 then -(bits w.toNat 30 0 : Nat) else (bits w.toNat 30 0 : Nat)

/-- r is v rounded to binary32 in a mode: 0 nearest with ties to the even fraction, 1 towards zero, 2 down, 3 up (R242). -/
def f32Rounds (mode : Nat) (v : ℚ) (r : Word) : Prop :=
  ∃ q, f32Val r = some q ∧ ∀ z p, f32Val z = some p →
    match mode with
    | 0 => |q - v| ≤ |p - v| ∧ (|q - v| = |p - v| → p = q ∨ r.getLsbD 0 = false)
    | 1 => 0 ≤ q * v ∧ |q| ≤ |v| ∧ (|p| ≤ |v| → |p| ≤ |q|)
    | 2 => q ≤ v ∧ (p ≤ v → p ≤ q)
    | _ => v ≤ q ∧ (v ≤ p → q ≤ p)

/-- A floating-point instruction i of two parcels computes r, its bits and the exceptions detected, for register nd. When none of them is
enabled it completes. Otherwise the result is written and FLOAT is raised after it (R246): the light handler is entered with the
exceptions as its datum, or the thread parks past the instruction with the float cause. -/
def State.givesF (s : State) (i : Instr) (codes : List Code) (ovr : List Nat) (nd : Nat) (r : FRes) : Prop :=
  (r.2 &&& s.th.fxen = 0 → s.completes i 2 [nd] [] codes [] ovr (fun u => u.gets s.th nd (BitVec.ofNat 32 r.1))) ∧
    (r.2 &&& s.th.fxen ≠ 0 → ∃ u, exec i s = .next u ∧
      (s.th.lhen.getLsbD 5 = true → s.th.inH = false →
        u.th.inH = true ∧ u.th.lhcause = 5 ∧ u.th.lhdat = r.2.setWidth 32 ∧ u.th.pc = s.th.lhpc ∧
          u.th.lhret = s.th.pc + s.th.parcels 2 ∧ (4 ≤ nd → u.th.gets s.th nd (BitVec.ofNat 32 r.1)) ∧
          (nd < 4 → nd ∉ s.th.busy → u.th.h[nd]? = some (BitVec.ofNat 32 r.1))) ∧
      ((s.th.lhen.getLsbD 5 = false ∨ s.th.inH = true) →
        ∃ f, u.th.run = .faulted f ∧ f.cause = .float ∧ f.code = r.2.toNat ∧ u.th.pc = s.th.pc + s.th.parcels 2 ∧
          u.th.gets s.th nd (BitVec.ofNat 32 r.1)))

/-! Memory. -/

/-- The two bytes at a key, little-endian. -/
def memHalf (m : Memory) (k : Nat) : BitVec 16 := memRead m (k + 1) ++ memRead m k

/-- The four bytes at a key, little-endian. -/
def memWord (m : Memory) (k : Nat) : Word := memRead m (k + 3) ++ memRead m (k + 2) ++ memRead m (k + 1) ++ memRead m k

/-- Bytes of a size code (R341). -/
def sizeBytes (z : Nat) : Nat :=
  match z with
  | 0 => 1 | 1 => 2 | 2 => 4 | 3 => 8 | 4 => 16 | 5 => 1 | _ => 2

/-- Registers of a size code (R341). -/
def sizeRegs (z : Nat) : Nat :=
  match z with
  | 3 => 2 | 4 => 4 | _ => 1

/-- Key of word j of an access at a location: words of the private window lie 256 bytes apart (R198). -/
def Loc.word (l : Loc) (j : Nat) : Nat := l.key + (if l.win = 4 then 256 else 4) * j

/-- Key of byte j of an access at a location. -/
def Loc.byte (l : Loc) (j : Nat) : Nat := l.word (j / 4) + j % 4

/-- What a load of a size code brings from a location, least register first (R341). -/
def loadedAt (m : Memory) (z : Nat) (l : Loc) : List Word :=
  match z with
  | 0 => [(memRead m l.key).setWidth 32]
  | 1 => [(memHalf m l.key).setWidth 32]
  | 2 => [memWord m l.key]
  | 3 => [memWord m (l.word 0), memWord m (l.word 1)]
  | 4 => [memWord m (l.word 0), memWord m (l.word 1), memWord m (l.word 2), memWord m (l.word 3)]
  | 5 => [(memRead m l.key).signExtend 32]
  | _ => [(memHalf m l.key).signExtend 32]

/-- A key of the package's memory, not of its control space nor of an IO die. -/
def memKey (k : Nat) : Prop := isCtl k = false ∧ (2 ^ 52 ≤ k ∨ socketOf k < 56)

/-- No object in use and no operand of an uncompleted matrix instruction meets these bytes (R235, R357, R369). -/
def State.clearOf (s : State) (k n : Nat) : Prop := ∀ r ∈ s.regions, meets k n r.key r.len = false

/-- The issuing thread performs an access of n bytes at a location at once: its earlier accesses have been performed, it has not migrated for
this one, the homes are there, the bytes are memory that nothing holds, no cluster L1 stands between, and the access does not migrate. -/
def State.performs (s : State) (l : Loc) (n : Nat) (moves : Bool) : Prop :=
  s.undone s.th.uid = false ∧ s.th.carried = [] ∧
    (∀ j, j < n → homeHeld s s.th.die (l.byte j) = false ∧ memKey (l.byte j) ∧ s.clearOf (l.byte j) 1) ∧
    (s.th.isWave = true → usesL1 l = false) ∧
    (s.th.isWave = false → s.th.rx = false ∧ (moves = true → migrateTo l = none ∨ migrateTo l = some s.th.core))

/-- The state s with what an access leaves in u beside its effect: which lines the L2 holds, the translations of the clusters' TLBs, and
event counts (R81, R203, R207). -/
def State.worn (s u : State) : State := { s with l2 := u.l2, ctlb := u.ctlb, evc := u.evc }

/-- The instruction i of len parcels reads memory and completes: the PC is past it, its context is as before but for registers ds and the index
registers that codes name, every byte reads as before, and r holds of the thread. -/
def State.loads (s : State) (i : Instr) (len : Nat) (ds : List Nat) (codes : List Code) (r : Thread → Prop) : Prop :=
  ∃ u, exec i s = .next u ∧ u = { s.worn u with th := u.th } ∧ s.sameMem u ∧ s.th.frame u.th ds [] codes [] [] ∧ u.th.run = .ready ∧
    u.th.rx = false ∧ u.th.pc = s.th.pc + s.th.parcels len ∧ r u.th

/-- Every byte of memory but n bytes at a location reads as before. -/
def State.sameMemAt (s u : State) (l : Loc) (n : Nat) : Prop := ∀ a, (∀ j, j < n → a ≠ l.byte j) → memRead u.mem a = memRead s.mem a

/-- The instruction i of len parcels stores n bytes at a location, byte j being v j: nothing but its thread and those bytes changes. -/
def State.storesAt (s : State) (i : Instr) (len : Nat) (codes : List Code) (l : Loc) (n : Nat) (v : Nat → Byte) : Prop :=
  ∃ u, exec i s = .next u ∧ u = { s.worn u with th := u.th, mem := u.mem } ∧ s.sameMemAt u l n ∧
    (∀ j, j < n → memRead u.mem (l.byte j) = v j) ∧ s.th.frame u.th [] [] codes [] [] ∧ u.th.run = .ready ∧ u.th.rx = false ∧
    u.th.pc = s.th.pc + s.th.parcels len

/-- The instruction i of the issuing thread waits: the thread stays at the instruction, with its registers and memory as before. -/
def State.waitsFor (s : State) (i : Instr) (w : Wait) : Prop :=
  ∃ u, exec i s = .next u ∧ u.th.run = .waiting w ∧ u.th.pc = s.th.pc ∧ u.th.g = s.th.g ∧ u.th.p = s.th.p ∧ s.sameMem u

/-! Room. -/

/-- A register file whose taken ranges these are has n registers in a row free (R170). -/
def fitsRegs (used : List (Nat × Nat)) (n : Nat) : Prop := ∃ b, b + n ≤ 2048 ∧ ∀ r ∈ used, r.2 = 0 ∨ meets b n r.1 r.2 = false

/-- A slot of a swarm core that is not the supervisor's is free, with n registers (R91, R162). -/
def State.slotFor (s : State) (c n : Nat) : Prop :=
  (∃ k, k < 63 ∧ k ∉ (occupied s).slotsOf c ∧ (coreCluster c = 15 → coreIdx c = 0 → k < 56)) ∧ fitsRegs ((occupied s).regsOf c) n

/-- A position of a lane of a wave engine is free, with n registers (R168). -/
def State.laneFor (s : State) (c l n : Nat) : Prop :=
  (∃ p, p < 32 ∧ p ∉ (occupied s).lanePos c l) ∧ fitsRegs ((occupied s).laneRegs c l) n

/-! Traps. -/

/-- The instruction i raises cause c and does nothing else to its thread: the thread is parked at the instruction with its context as
before (R299, R416). -/
def State.traps (s : State) (i : Instr) (c : Cause) : Prop :=
  ∃ u f, exec i s = .next u ∧ u.th.run = .faulted f ∧ f.cause = c ∧ u.th.pc = s.th.pc ∧ u.th.g = s.th.g ∧ u.th.p = s.th.p ∧
    u.th.idx = s.th.idx ∧ u.th.x = s.th.x ∧ s.th.specials u.th

end Sys2Proof.Machine
end

