-- ==== Sys2Proof/Certificates/Slice0/Obligations.lean ====
section
/-! DEFINITION. The statements about this model, from the rules of the manual. A statement names the rules it formalises; registers are
reached through resolved operands (Thread.at1 and its kin), so that every form of an operand is covered. -/

open Sys2Proof Sys2Proof.Machine

/-! Integer instructions. -/

/-- R303. The register-register integer instructions write the results of R303's table to D, for every form of their operands; nothing
else changes but the index registers that an indirect operand advances, applied overrides, and the PC. -/
def Says.IntegerArithmetic : Prop :=
  ∀ (s : State) (d a b : Code) (na nb nd : Nat), s.th.free [1, 2] → s.th.at1 1 a na → s.th.at1 2 b nb → s.th.at1 0 d nd →
    let x := s.src s.th 1 na
    let y := s.src s.th 2 nb
    let k := y.toNat % 32
    s.gives3 (.add d a b) d a b nd (BitVec.ofNat 32 (x.toNat + y.toNat)) ∧
    s.gives3 (.sub d a b) d a b nd (BitVec.ofInt 32 (x.toInt - y.toInt)) ∧
    s.gives3 (.mul d a b) d a b nd (BitVec.ofNat 32 (x.toNat * y.toNat)) ∧
    s.gives3 (.mulh d a b) d a b nd (BitVec.ofInt 32 (x.toInt * y.toInt / 2 ^ 32)) ∧
    s.gives3 (.mulhn d a b) d a b nd (BitVec.ofNat 32 (x.toNat * y.toNat / 2 ^ 32)) ∧
    s.gives3 (.and d a b) d a b nd (x &&& y) ∧
    s.gives3 (.or d a b) d a b nd (x ||| y) ∧
    s.gives3 (.xor d a b) d a b nd (x ^^^ y) ∧
    s.gives3 (.andn d a b) d a b nd (x &&& ~~~y) ∧
    s.gives3 (.shl d a b) d a b nd (BitVec.ofNat 32 (x.toNat * 2 ^ k)) ∧
    s.gives3 (.shr d a b) d a b nd (BitVec.ofNat 32 (x.toNat / 2 ^ k)) ∧
    s.gives3 (.sra d a b) d a b nd (BitVec.ofInt 32 (x.toInt / 2 ^ k)) ∧
    s.gives3 (.rol d a b) d a b nd (BitVec.ofNat 32 (x.toNat * 2 ^ k + x.toNat / 2 ^ (32 - k))) ∧
    s.gives3 (.min d a b) d a b nd (BitVec.ofInt 32 (min x.toInt y.toInt)) ∧
    s.gives3 (.max d a b) d a b nd (BitVec.ofInt 32 (max x.toInt y.toInt)) ∧
    s.gives3 (.minn d a b) d a b nd (BitVec.ofNat 32 (min x.toNat y.toNat)) ∧
    s.gives3 (.maxn d a b) d a b nd (BitVec.ofNat 32 (max x.toNat y.toNat))

/-- R303. The forms with pairs: the wide products, the 64-bit sums, and the shifted pair. -/
def Says.PairResults : Prop :=
  ∀ (s : State) (d a b : Code) (na nb nd : Nat), s.th.at2 0 d nd →
    (s.th.free [1, 2] → s.th.at1 1 a na → s.th.at1 2 b nb →
      let x := s.src s.th 1 na
      let y := s.src s.th 2 nb
      s.completes (.mulw d a b) 2 [nd, nd + 1] [] [a, b, d] [] [1, 2] (fun u => u.gets2 s.th nd (BitVec.ofInt 64 (x.toInt * y.toInt))) ∧
      s.completes (.mulwn d a b) 2 [nd, nd + 1] [] [a, b, d] [] [1, 2] (fun u => u.gets2 s.th nd (BitVec.ofNat 64 (x.toNat * y.toNat)))) ∧
    (s.th.at2 1 a na → s.th.at2 2 b nb →
      let x := s.th.rd2 na
      let y := s.th.rd2 nb
      s.givesD (.addD d a b) d a b nd (BitVec.ofNat 64 (x.toNat + y.toNat)) ∧
      s.givesD (.subD d a b) d a b nd (BitVec.ofInt 64 (x.toInt - y.toInt))) ∧
    (s.th.free [2] → s.th.at2 1 a na → s.th.at1 2 b nb →
      s.completes (.shlD d a b) 2 [nd, nd + 1] [] [a, b, d] [] [2]
        (fun u => u.gets2 s.th nd (BitVec.ofNat 64 ((s.th.rd2 na).toNat * 2 ^ ((s.src s.th 2 nb).toNat % 64)))))

/-- R304. Division rounds towards zero; a divisor of 0 gives all ones and the dividend, the most negative number by -1 gives itself and 0,
and neither raises anything. -/
def Says.Division : Prop :=
  ∀ (s : State) (d a b : Code) (na nb nd : Nat),
    (s.th.free [1, 2] → s.th.at1 1 a na → s.th.at1 2 b nb → s.th.at1 0 d nd →
      let x := s.src s.th 1 na
      let y := s.src s.th 2 nb
      s.gives3 (.div d a b) d a b nd (if y = 0 then BitVec.ofInt 32 (-1) else BitVec.ofInt 32 (x.toInt.tdiv y.toInt)) ∧
      s.gives3 (.divn d a b) d a b nd (if y = 0 then BitVec.ofInt 32 (-1) else BitVec.ofNat 32 (x.toNat / y.toNat)) ∧
      s.gives3 (.rem d a b) d a b nd (if y = 0 then x else BitVec.ofInt 32 (x.toInt.tmod y.toInt)) ∧
      s.gives3 (.remn d a b) d a b nd (if y = 0 then x else BitVec.ofNat 32 (x.toNat % y.toNat))) ∧
    (s.th.at2 1 a na → s.th.at2 2 b nb → s.th.at2 0 d nd →
      let x := s.th.rd2 na
      let y := s.th.rd2 nb
      s.givesD (.divS64 d a b) d a b nd (if y = 0 then BitVec.ofInt 64 (-1) else BitVec.ofInt 64 (x.toInt.tdiv y.toInt)) ∧
      s.givesD (.divnN64 d a b) d a b nd (if y = 0 then BitVec.ofInt 64 (-1) else BitVec.ofNat 64 (x.toNat / y.toNat)) ∧
      s.givesD (.remS64 d a b) d a b nd (if y = 0 then x else BitVec.ofInt 64 (x.toInt.tmod y.toInt)) ∧
      s.givesD (.remnN64 d a b) d a b nd (if y = 0 then x else BitVec.ofNat 64 (x.toNat % y.toNat)))

/-- R305. Leading zeros (32 for 0), trailing zeros (32 for 0), one bits, and bit k moved to bit 31 - k; the selector stands in the B field,
and selectors 4 to 127 do not decode. -/
def Says.BitCounts : Prop :=
  ∀ (s : State) (d a : Code) (na nd : Nat), s.th.free [1] → s.th.at1 1 a na → s.th.at1 0 d nd →
    let x := s.src s.th 1 na
    (∃ n : Nat, s.gives2 (.clz d a) d a nd (BitVec.ofNat 32 n) ∧ n ≤ 32 ∧ (∀ k, 32 - n ≤ k → x.getLsbD k = false) ∧
      (n < 32 → x.getLsbD (31 - n) = true)) ∧
    (∃ n : Nat, s.gives2 (.ctz d a) d a nd (BitVec.ofNat 32 n) ∧ n ≤ 32 ∧ (∀ k, k < n → x.getLsbD k = false) ∧
      (n < 32 → x.getLsbD n = true)) ∧
    s.gives2 (.popc d a) d a nd (BitVec.ofNat 32 ((Finset.range 32).filter (fun k => x.getLsbD k = true)).card) ∧
    (∃ v : Word, s.gives2 (.brev d a) d a nd v ∧ ∀ k, k < 32 → v.getLsbD (31 - k) = x.getLsbD k) ∧
    ∀ (v : Ver) (b : Code),
      let w := 23#5 ++ b ++ a ++ d ++ 0#5 ++ 1#1
      decode v [w.extractLsb' 0 16, w.extractLsb' 16 16] =
        if b = 0 then some (.clz d a, 2) else if b = 1 then some (.ctz d a, 2) else if b = 2 then some (.popc d a, 2)
        else if b = 3 then some (.brev d a, 2) else none

/-- R306, R307, R311. The immediate forms, the constants and the select. -/
def Says.ImmediateResults : Prop :=
  ∀ (s : State) (d a b : Code) (na nb nd : Nat) (i : BitVec 12) (n : BitVec 5) (c : BitVec 19) (p : BitVec 4), s.th.at1 0 d nd →
    (s.th.free [1] → s.th.at1 1 a na →
      let x := s.src s.th 1 na
      s.gives2 (.addi d a i) d a nd (BitVec.ofInt 32 (x.toInt + i.toInt)) ∧
      s.gives2 (.andi d a i) d a nd (x &&& BitVec.ofNat 32 i.toNat) ∧
      s.gives2 (.ori d a i) d a nd (x ||| BitVec.ofNat 32 i.toNat) ∧
      s.gives2 (.xori d a i) d a nd (x ^^^ BitVec.ofNat 32 i.toNat) ∧
      s.gives2 (.shli d a n) d a nd (BitVec.ofNat 32 (x.toNat * 2 ^ n.toNat)) ∧
      s.gives2 (.shri d a n) d a nd (BitVec.ofNat 32 (x.toNat / 2 ^ n.toNat)) ∧
      s.gives2 (.srai d a n) d a nd (BitVec.ofInt 32 (x.toInt / 2 ^ n.toNat))) ∧
    s.completes (.ldi d c) 2 [nd] [] [d] [] [] (fun u => u.gets s.th nd (BitVec.ofInt 32 c.toInt)) ∧
    s.completes (.ldih d c) 2 [nd] [] [d] [] []
      (fun u => u.gets s.th nd (BitVec.ofNat 32 (c.toNat * 2 ^ 13 + (s.th.rd nd).toNat % 2 ^ 13))) ∧
    (s.th.free [1, 2] → s.th.at1 1 a na → s.th.at1 2 b nb →
      s.gives3 (.sel d a b p) d a b nd (if s.th.rdP p.toNat then s.src s.th 1 na else s.src s.th 2 nb) ∧
      s.gives3 (.selNot d a b p) d a b nd (if s.th.rdP p.toNat then s.src s.th 2 nb else s.src s.th 1 na))

/-- R308, R309, R310, R173. Compares and predicate logic write one predicate and no other; a write of p0 is discarded, and p0 reads true. -/
def Obligations.PredicateResults : Prop :=
  ∀ (s : State) (a b : Code) (na nb : Nat) (c : BitVec 3) (p q r : BitVec 4) (i : BitVec 12),
    let holds (eq lt : Prop) : Prop :=
      (c = 0 ∧ eq) ∨ (c = 1 ∧ ¬eq) ∨ (c = 2 ∧ lt) ∨ (c = 3 ∧ ¬lt) ∨ (c = 4 ∧ (lt ∨ eq)) ∨ (c = 5 ∧ ¬(lt ∨ eq))
    let sets (j : Instr) (codes : List Code) (ovr : List Nat) (v : Prop) : Prop :=
      s.completes j 2 [] [p.toNat] codes [] ovr (fun u => (p = 0 → u.rdP 0 = true) ∧ (p ≠ 0 → (u.rdP p.toNat = true ↔ v)))
    (c.toNat ≤ 5 → s.th.free [1, 2] → s.th.at1 1 a na → s.th.at1 2 b nb →
      let x := s.src s.th 1 na
      let y := s.src s.th 2 nb
      sets (.cmpS32 c p a b) [a, b] [1, 2] (holds (x = y) (x.toInt < y.toInt)) ∧
      sets (.cmpN32 c p a b) [a, b] [1, 2] (holds (x = y) (x.toNat < y.toNat))) ∧
    (c.toNat ≤ 5 → s.th.at2 1 a na → s.th.at2 2 b nb →
      let x := s.th.rd2 na
      let y := s.th.rd2 nb
      sets (.cmpS64 c p a b) [a, b] [] (holds (x = y) (x.toInt < y.toInt)) ∧
      sets (.cmpN64 c p a b) [a, b] [] (holds (x = y) (x.toNat < y.toNat))) ∧
    (s.th.free [1] → s.th.at1 1 a na →
      let x := s.src s.th 1 na
      let y := BitVec.ofInt 32 i.toInt
      sets (.cmpi c p a i) [a] [1] (holds (x = y) (x.toInt < y.toInt) ∨ (c = 6 ∧ x.toNat < y.toNat) ∨ (c = 7 ∧ y.toNat ≤ x.toNat))) ∧
    sets (.pand p q r) [] [] (s.th.rdP q.toNat = true ∧ s.th.rdP r.toNat = true) ∧
    sets (.por p q r) [] [] (s.th.rdP q.toNat = true ∨ s.th.rdP r.toNat = true) ∧
    sets (.pxor p q r) [] [] (s.th.rdP q.toNat ≠ s.th.rdP r.toNat) ∧
    sets (.pnot p q) [] [] (s.th.rdP q.toNat = false)

/-- R278, R314. The 16-bit forms act as their 32-bit forms: b, operand position 1, names g0 to g31 and a names g0 to g63, never
indirectly. -/
def Says.ShortForms : Prop :=
  ∀ (s : State) (a : BitVec 6) (b n : BitVec 5) (im : BitVec 5), a.toNat < s.th.limit (code16 a) →
    let x := s.th.rd a.toNat
    (b.toNat < s.th.limit (code16 b) → s.th.free [1] →
      let y := s.src s.th 1 b.toNat
      s.gives16 (.movS a b) a.toNat [1] y ∧
      s.gives16 (.addS a b) a.toNat [1] (BitVec.ofNat 32 (x.toNat + y.toNat)) ∧
      s.gives16 (.subS a b) a.toNat [1] (BitVec.ofInt 32 (x.toInt - y.toInt)) ∧
      s.gives16 (.andS a b) a.toNat [1] (x &&& y) ∧
      s.gives16 (.orS a b) a.toNat [1] (x ||| y) ∧
      s.gives16 (.xorS a b) a.toNat [1] (x ^^^ y)) ∧
    s.gives16 (.addiS a im) a.toNat [] (BitVec.ofInt 32 (x.toInt + im.toInt)) ∧
    s.gives16 (.shliS a n) a.toNat [] (BitVec.ofNat 32 (x.toNat * 2 ^ n.toNat)) ∧
    s.gives16 (.shriS a n) a.toNat [] (BitVec.ofNat 32 (x.toNat / 2 ^ n.toNat)) ∧
    s.gives16 (.ldiS a im) a.toNat [] (BitVec.ofInt 32 im.toInt)

/-! Control transfer, and the instructions without effect. -/

/-- R312, R278. A taken branch goes to its own PC plus the sign-extended offset and changes no register; one not taken completes. -/
def Says.Branches : Prop :=
  ∀ (s : State) (p : BitVec 4) (o : BitVec 19) (q : BitVec 6) (b : BitVec 5),
    let target := s.th.pc + BitVec.ofInt 32 o.toInt
    let near := s.th.pc + BitVec.ofInt 32 q.toInt
    let goes (i : Instr) : Prop := s.jumps i target [] [] [] (fun _ => True)
    let passes (i : Instr) : Prop := s.completes i 2 [] [] [] [] [] (fun _ => True)
    goes (.b o) ∧
    (s.th.rdP p.toNat = true → goes (.bp p o) ∧ passes (.bnp p o)) ∧
    (s.th.rdP p.toNat = false → passes (.bp p o) ∧ goes (.bnp p o)) ∧
    passes (.bnp 0 o) ∧
    (b.toNat < s.th.limit (code16 b) → s.th.free [1] →
      let x := s.src s.th 1 b.toNat
      (x = 0 → s.jumps (.bzS q b) near [] [] [1] (fun _ => True) ∧ s.completes (.bnzS q b) 1 [] [] [] [] [1] (fun _ => True)) ∧
      (x ≠ 0 → s.completes (.bzS q b) 1 [] [] [] [] [1] (fun _ => True) ∧ s.jumps (.bnzS q b) near [] [] [1] (fun _ => True)))

/-- R313. call and callr leave PC + 2 in the link register, callr after it has read its target; jmp and ret go to a register's value. -/
def Says.CallsAndJumps : Prop :=
  ∀ (s : State) (d a : Code) (na nd : Nat) (o : BitVec 19) (b : BitVec 5),
    (s.th.at1 0 d nd → s.jumps (.call d o) (s.th.pc + BitVec.ofInt 32 o.toInt) [nd] [d] [] (fun u => u.gets s.th nd (s.th.pc + 2))) ∧
    (s.th.at1 1 a na → s.th.free [1] →
      s.jumps (.jmp a) (s.src s.th 1 na) [] [a] [1] (fun _ => True) ∧
      (s.th.at1 0 d nd → s.jumps (.callr d a) (s.src s.th 1 na) [nd] [a, d] [1] (fun u => u.gets s.th nd (s.th.pc + 2)))) ∧
    (b.toNat < s.th.limit (code16 b) → s.th.free [1] → s.jumps (.ret b) (s.src s.th 1 b.toNat) [] [] [1] (fun _ => True))

/-- R279, R288, R316, R317. nop and its long form do nothing beyond their issue; yield changes no register; after yield a swarm thread is
eligible 8 clk later and has eight turns to give up, a wave thread one dynamic wave.
Model's choices that it rests on: log 83. -/
def Says.NopAndYield : Prop :=
  ∀ s : State,
    s.completes .nop 1 [] [] [] [] [] (fun u => u.yields = s.th.yields) ∧
    s.completes .nopLong 2 [] [] [] [] [] (fun u => u.yields = s.th.yields) ∧
    s.completes .yield 1 [] [] [] [] []
      (fun u => (s.th.isWave = false → u.readyAt = s.clk + 8 ∧ u.yields = 8) ∧ (s.th.isWave = true → u.yields = 1))

/-- R315, R403. exit ends its thread: no thread of that identity is live afterwards, and it never issues again; kill does the same for a
pixel thread that has not exported. -/
def Obligations.ThreadEnds : Prop :=
  ∀ s : State, s.th.live = true →
    (∃ u, exec .exit s = .next u ∧ u.thread? s.th.uid = none) ∧
    (∀ p, s.th.isWave = true → s.th.pixel = some p → p.exported = false → ∃ u, exec .kill s = .next u ∧ u.thread? s.th.uid = none) ∧
    (s.th.isWave = true → (∀ p, s.th.pixel = some p → p.exported = true) → s.traps .kill .illegal)

/-! Index and extension registers. -/

/-- R319, R320. iset, iget, iclr, iadv and the field forms: the value each gives, its explicit write standing against the post-increment. -/
def Says.IndexRegisters : Prop :=
  ∀ (s : State) (n : BitVec 3) (a : Code) (na : Nat) (im : BitVec 12) (base bound : Code) (st : BitVec 4) (c : BitVec 1),
    let v := s.th.rdI n.toNat
    let sets (i : Instr) (codes : List Code) (ovr : List Nat) (w : Word) : Prop :=
      s.completes i 2 [] [] codes [n.toNat] ovr (fun u => u.rdI n.toNat = w)
    let fields (wrap : Nat) : Word :=
      BitVec.ofNat 32 (base.toNat + bound.toNat * 2 ^ 7 + st.toNat * 2 ^ 21 + c.toNat * 2 ^ 25 + wrap * 2 ^ 26)
    (s.th.at1 1 a na →
      (s.th.free [1] → sets (.iset n a) [a] [1] (s.src s.th 1 na)) ∧
      s.completes (.iget n a) 2 [na] [] [a] [] [] (fun u => u.gets s.th na v)) ∧
    sets (.isetFields n base bound st c) [] [] (fields 0) ∧
    sets (.isetWrap n base bound st c) [] [] (fields 1) ∧
    s.completes (.iadv n im) 2 [] [] [] [n.toNat] [] (fun u =>
      (∀ k, k < 14 ∨ 20 < k → (u.rdI n.toNat).getLsbD k = v.getLsbD k) ∧
      (v.getLsbD 26 = false → ((bits (u.rdI n.toNat).toNat 20 14 : Nat) : Int) = (bits v.toNat 20 14 + im.toInt) % 128) ∧
      (v.getLsbD 26 = true → bits v.toNat 13 7 = 0 → u.rdI n.toNat = v) ∧
      (v.getLsbD 26 = true → bits v.toNat 13 7 ≠ 0 →
        ((bits (u.rdI n.toNat).toNat 20 14 : Nat) : Int) = (bits v.toNat 20 14 + im.toInt) % (bits v.toNat 13 7 : Nat))) ∧
    (∀ j i, (j, i) ∈ [(0, Instr.iclr0), (1, .iclr1), (2, .iclr2), (3, .iclr3), (4, .iclr4), (5, .iclr5), (6, .iclr6), (7, .iclr7)] →
      s.completes i 2 [] [] [] [j] [] (fun u => u.rdI j = 0))

/-- R321, R177. xset, xset.hi and xld write one extension register, whole or in its high bits; an override armed in x1 applies to the
source of xld, and the write of its target stands. -/
def Says.ExtensionRegisters : Prop :=
  ∀ (s : State) (n : BitVec 2) (im : BitVec 19) (a : Code) (na : Nat),
    let sets (i : Instr) (codes : List Code) (ovr : List Nat) (w : Word) : Prop :=
      ∃ u, exec i s = .next u ∧ s.keeps u ∧ u.th.rdX n.toNat = w ∧ u.th.g = s.th.g ∧ u.th.p = s.th.p ∧ u.th.pc = s.th.pc + s.th.parcels 2 ∧
        s.th.specials u.th ∧ (∀ k, k ≠ n.toNat → k ∉ ovr → u.th.rdX k = s.th.rdX k) ∧
        (∀ k, k ≠ n.toNat → k ∈ ovr → u.th.armed k = false) ∧
        (∀ j, (∀ c ∈ codes, s.th.indirect c = true → c.toNat ≠ 120 + j) → u.th.rdI j = s.th.rdI j)
    sets (.xset n im) [] [] (BitVec.ofInt 32 im.toInt) ∧
    sets (.xsetHi n im) [] [] (BitVec.ofNat 32 (im.toNat * 2 ^ 13 + (s.th.rdX n.toNat).toNat % 2 ^ 13)) ∧
    (s.th.free [1] → s.th.at1 1 a na → sets (.xld n a) [a] [1] (s.src s.th 1 na))

/-! Operands. -/

/-- R183. After its effect an instruction advances each index register that its operands use exactly once, if POSTINC is set: by STEP,
modulo 128, or modulo BOUND under WRAP. -/
def Obligations.IndexAdvancesOnce : Prop :=
  ∀ (s : State) (d a b : Code) (na nb nd j : Nat), s.th.free [1, 2] → s.th.at1 1 a na → s.th.at1 2 b nb → s.th.at1 0 d nd →
    (∃ c, (c = a ∨ c = b ∨ c = d) ∧ s.th.indirect c = true ∧ c.toNat = 120 + j) →
    let v := s.th.rdI j
    let m : Nat := if v.getLsbD 26 then bits v.toNat 13 7 else 128
    ∃ u, exec (.add d a b) s = .next u ∧ (v.getLsbD 25 = false → u.th.rdI j = v) ∧
      (v.getLsbD 25 = true → (m = 0 → u.th.rdI j = v) ∧
        (m ≠ 0 → ((bits (u.th.rdI j).toNat 20 14 : Nat) : Int) = (bits v.toNat 20 14 + (v.extractLsb' 21 4).toInt) % m ∧
          ∀ k, k < 14 ∨ 20 < k → (u.th.rdI j).getLsbD k = v.getLsbD k))

/-- R181, R182, R188. An operand that its index register's BOUND, its reserved bits or the declared count does not admit stops the
instruction with an index-bound or register-bound fault that names the operand's position, and no register is written; the index-bound
fault enters the light handler instead, when the handler is enabled for it. -/
def Obligations.OperandFaults : Prop :=
  ∀ (s : State) (d a b : Code), s.th.free [1, 2] → s.th.isCuique = false →
    let v := s.th.rdI (a.toNat - 120)
    let off := idxOffset v
    (s.th.indirect a = false → s.th.count ≤ a.toNat →
      s.traps (.add d a b) .regBound ∧
        ∃ u f, exec (.add d a b) s = .next u ∧ u.th.run = .faulted f ∧ f.pos = 1 ∧ f.idx = 255) ∧
    (s.th.indirect a = true → bits v.toNat 31 27 ≠ 0 → s.traps (.add d a b) .indexBound) ∧
    (s.th.indirect a = true → bits v.toNat 31 27 = 0 → bits v.toNat 13 7 ≤ off →
      ((s.th.lhen.getLsbD 4 = false ∨ s.th.inH = true) → s.traps (.add d a b) .indexBound) ∧
      (s.th.lhen.getLsbD 4 = true → s.th.inH = false →
        ∃ u, exec (.add d a b) s = .next u ∧ u.th.inH = true ∧ u.th.pc = s.th.lhpc ∧ u.th.lhret = s.th.pc ∧ u.th.lhcause = 4)) ∧
    (s.th.indirect a = true → bits v.toNat 31 27 = 0 → off < bits v.toNat 13 7 → s.th.count ≤ bits v.toNat 6 0 + off →
      s.traps (.add d a b) .regBound)

/-! Floating point. -/

/-- R326 to R329, R333, R334, R246. The binary32 and packed instructions complete with the value that their function gives under the
compatibility word and the rounding mode, write one register, and raise FLOAT after the result when an enabled exception is detected. -/
def Says.BinaryFloats : Prop :=
  ∀ (s : State) (d a b : Code) (na nb nd : Nat) (r : BitVec 3), s.th.at1 1 a na → s.th.at1 0 d nd →
    let c := s.th.compat
    let m := roundMode c r
    let x := s.src s.th 1 na
    (s.th.free [1, 2] → s.th.at1 2 b nb →
      let y := s.src s.th 2 nb
      let two (f : Nat → Nat → FRes) : FRes := packed (fun p q _ => f p q) x y 0
      s.givesF (.fadd d a b r) [a, b, d] [1, 2] nd (faddR c m false x y) ∧
      s.givesF (.fsub d a b r) [a, b, d] [1, 2] nd (faddR c m true x y) ∧
      s.givesF (.fmul d a b r) [a, b, d] [1, 2] nd (fmulR c m x y) ∧
      s.givesF (.fdiv d a b r) [a, b, d] [1, 2] nd (fdivR c m x y) ∧
      s.givesF (.fmin d a b) [a, b, d] [1, 2] nd (fminR c false x y) ∧
      s.givesF (.fmax d a b) [a, b, d] [1, 2] nd (fminR c true x y) ∧
      s.givesF (.hadd2 d a b) [a, b, d] [1, 2] nd (two (addE c f16)) ∧
      s.givesF (.hmul2 d a b) [a, b, d] [1, 2] nd (two (mulE c f16)) ∧
      s.givesF (.badd2 d a b) [a, b, d] [1, 2] nd (two (addE c bf16)) ∧
      s.givesF (.bmul2 d a b) [a, b, d] [1, 2] nd (two (mulE c bf16))) ∧
    (s.th.free [1] →
      s.givesF (.fsqrt d a r) [a, d] [1] nd (funcR c m sqrtX x) ∧
      s.givesF (.frcp d a r) [a, d] [1] nd (funcLegacy c m (divX (.fin false 1 0)) x) ∧
      s.givesF (.frsq d a r) [a, d] [1] nd (funcLegacy c m rsqrtX x) ∧
      s.givesF (.fexp2 d a r) [a, d] [1] nd (funcLegacy c m exp2X x) ∧
      s.givesF (.flog2 d a r) [a, d] [1] nd (funcLegacy c m log2X x) ∧
      s.givesF (.fsin d a r) [a, d] [1] nd (funcLegacy c m (sinturnX false) x) ∧
      s.givesF (.fcos d a r) [a, d] [1] nd (funcLegacy c m (sinturnX true) x) ∧
      s.givesF (.fsinR d a r) [a, d] [1] nd (radR c m false x) ∧
      s.givesF (.fcosR d a r) [a, d] [1] nd (radR c m true x) ∧
      s.givesF (.ffloor d a) [a, d] [1] nd (integralR c 2 false x) ∧
      s.givesF (.fceil d a) [a, d] [1] nd (integralR c 3 false x) ∧
      s.givesF (.ftrunc d a) [a, d] [1] nd (integralR c 1 false x) ∧
      s.givesF (.frint d a r) [a, d] [1] nd (integralR c m true x) ∧
      s.givesF (.ffrac d a r) [a, d] [1] nd (fracR c m x))

/-- R325, R327, R334. The fused forms take their addend from the register that x0 names, in operand position 3. -/
def Says.FusedCompletion : Prop :=
  ∀ (s : State) (d a b : Code) (na nb nc nd : Nat) (r : BitVec 3),
    let e : Code := (s.th.rdX 0).setWidth 7
    s.th.free [1, 2, 3] → s.th.at1 1 a na → s.th.at1 2 b nb → s.th.at1 3 e nc → s.th.at1 0 d nd →
    let c := s.th.compat
    let m := roundMode c r
    let x := s.src s.th 1 na
    let y := s.src s.th 2 nb
    let z := s.src s.th 3 nc
    s.givesF (.fma d a b r) [a, b, e, d] [1, 2, 3] nd (fmaR c m false x y z) ∧
    s.givesF (.fnma d a b r) [a, b, e, d] [1, 2, 3] nd (fmaR c m true x y z) ∧
    s.givesF (.hfma2 d a b) [a, b, e, d] [1, 2, 3] nd (packed (fmaE c f16) x y z) ∧
    s.givesF (.bfma2 d a b) [a, b, e, d] [1, 2, 3] nd (packed (fmaE c bf16) x y z)

/-- R242, R326, R327. With no compatibility bit of [4:0] set, sums, differences, products, quotients and fused product-sums of finite
numbers whose exact value does not overflow are the exact value rounded once to binary32 in the rounding mode. -/
def Obligations.FloatRoundedOnce : Prop :=
  ∀ (s : State) (d a b : Code) (na nb nc nd : Nat) (r : BitVec 3) (p q t : ℚ), r.toNat ≤ 4 → s.th.fxen = 0 → bits s.th.compat.toNat 4 0 = 0 →
    s.th.at1 1 a na → s.th.at1 2 b nb → s.th.at1 0 d nd →
    f32Val (s.src s.th 1 na) = some p → f32Val (s.src s.th 2 nb) = some q →
    let m : Nat := if r = 0 then bits s.th.compat.toNat 12 11 else r.toNat - 1
    let fits (v : ℚ) : Prop := |v| ≤ (2 ^ 24 - 1) * 2 ^ 104
    let e : Code := (s.th.rdX 0).setWidth 7
    (s.th.free [1, 2] →
      (fits (p + q) → ∃ z, s.gives3 (.fadd d a b r) d a b nd z ∧ f32Rounds m (p + q) z) ∧
      (fits (p - q) → ∃ z, s.gives3 (.fsub d a b r) d a b nd z ∧ f32Rounds m (p - q) z) ∧
      (fits (p * q) → ∃ z, s.gives3 (.fmul d a b r) d a b nd z ∧ f32Rounds m (p * q) z) ∧
      (q ≠ 0 → fits (p / q) → ∃ z, s.gives3 (.fdiv d a b r) d a b nd z ∧ f32Rounds m (p / q) z)) ∧
    (s.th.free [1, 2, 3] → s.th.at1 3 e nc → f32Val (s.src s.th 3 nc) = some t →
      (fits (p * q + t) → ∃ z, s.completes (.fma d a b r) 2 [nd] [] [a, b, e, d] [] [1, 2, 3] (fun u => u.gets s.th nd z) ∧
        f32Rounds m (p * q + t) z) ∧
      (fits (t - p * q) → ∃ z, s.completes (.fnma d a b r) 2 [nd] [] [a, b, e, d] [] [1, 2, 3] (fun u => u.gets s.th nd z) ∧
        f32Rounds m (t - p * q) z))

/-- R240, R244, R329, R330. A NaN operand gives the canonical NaN when no payload is kept; the integral forms are exact; fabs and fneg act
on bit 31 alone. -/
def Obligations.FloatSpecials : Prop :=
  ∀ (s : State) (d a b : Code) (na nb nd : Nat) (r : BitVec 3), s.th.at1 1 a na → s.th.at1 0 d nd →
    let x := s.src s.th 1 na
    (s.th.free [1] →
      s.gives2 (.fabs d a) d a nd (BitVec.ofNat 32 (x.toNat % 2 ^ 31)) ∧
      s.gives2 (.fneg d a) d a nd (BitVec.ofNat 32 (x.toNat + 2 ^ 31)) ∧
      (s.th.fxen = 0 → s.th.compat.getLsbD 0 = false → ∀ p, f32Val x = some p →
        (∃ z, s.gives2 (.ffloor d a) d a nd z ∧ f32Val z = some (⌊p⌋ : ℚ)) ∧
        (∃ z, s.gives2 (.fceil d a) d a nd z ∧ f32Val z = some (⌈p⌉ : ℚ)) ∧
        (∃ z, s.gives2 (.ftrunc d a) d a nd z ∧ f32Val z = some (if 0 ≤ p then (⌊p⌋ : ℚ) else (⌈p⌉ : ℚ))))) ∧
    (s.th.fxen = 0 → s.th.free [1, 2] → s.th.at1 2 b nb → s.th.compat.getLsbD 3 = false → s.th.compat.getLsbD 9 = false →
      (f32Nan x ∨ f32Nan (s.src s.th 2 nb)) →
      s.gives3 (.fadd d a b r) d a b nd 0x7FC00000 ∧ s.gives3 (.fsub d a b r) d a b nd 0x7FC00000 ∧
      s.gives3 (.fmul d a b r) d a b nd 0x7FC00000 ∧ s.gives3 (.fdiv d a b r) d a b nd 0x7FC00000)

/-- R331, R332. Compares order numbers and infinities with both zeros alike; a NaN makes ne and un true and every other condition false;
fclass sets the one bit of its operand's class. -/
def Obligations.FloatCompareAndClass : Prop :=
  ∀ (s : State) (d a b : Code) (na nb nd : Nat) (c : BitVec 3) (p : BitVec 4), s.th.fxen = 0 → s.th.compat.getLsbD 0 = false → s.th.at1 1 a na →
    let x := s.src s.th 1 na
    (s.th.free [1, 2] → s.th.at1 2 b nb →
      let y := s.src s.th 2 nb
      let nan := f32Nan x ∨ f32Nan y
      let lt := ¬nan ∧ f32Key x < f32Key y
      let eq := ¬nan ∧ f32Key x = f32Key y
      let gt := ¬nan ∧ f32Key y < f32Key x
      s.completes (.fcmpF32 c p a b) 2 [] [p.toNat] [a, b] [] [1, 2] (fun u => (p = 0 → u.rdP 0 = true) ∧ (p ≠ 0 → (u.rdP p.toNat = true ↔
        (c = 0 ∧ eq) ∨ (c = 1 ∧ ¬eq) ∨ (c = 2 ∧ lt) ∨ (c = 3 ∧ (gt ∨ eq)) ∨ (c = 4 ∧ (lt ∨ eq)) ∨ (c = 5 ∧ gt) ∨ (c = 6 ∧ nan) ∨
          (c = 7 ∧ ¬nan))))) ∧
    (s.th.free [1] → s.th.at1 0 d nd →
      ∃ k, s.gives2 (.fclass d a) d a nd (BitVec.ofNat 32 (2 ^ k)) ∧
        (k = 9 ↔ f32Nan x ∧ ¬f32Sig x) ∧ (k = 8 ↔ f32Sig x) ∧ (k = 7 ↔ x = 0x7F800000) ∧ (k = 0 ↔ x = 0xFF800000) ∧
        (k = 4 ↔ x = 0) ∧ (k = 3 ↔ x = 0x80000000) ∧
        (k = 5 ↔ 0 < x.toNat ∧ x.toNat < 2 ^ 23) ∧ (k = 2 ↔ 2 ^ 31 < x.toNat ∧ x.toNat < 2 ^ 31 + 2 ^ 23) ∧
        (k = 6 ↔ 2 ^ 23 ≤ x.toNat ∧ x.toNat < 0x7F800000) ∧ (k = 1 ↔ 2 ^ 31 + 2 ^ 23 ≤ x.toNat ∧ x.toNat < 0xFF800000))

/-- R335, R331, R332. The binary64 forms act on pairs: on a swarm core, and on a wave engine whose binary64 unit is free, which they
then hold for 16 clk.
Model's choices that it rests on: log 5. -/
def Says.Float64Completion : Prop :=
  ∀ (s : State) (d a b : Code) (na nb nc nd : Nat) (c : BitVec 3) (p : BitVec 4),
    (s.th.isWave = false ∨ (s.core s.th.core).f64Free ≤ s.clk) → s.th.fxen = 0 → s.th.at2 1 a na →
    let w := s.th.compat
    let x := (s.th.rd2 na).toNat
    let y := (s.th.rd2 nb).toNat
    let e : Code := (s.th.rdX 0).setWidth 7
    let gives (i : Instr) (codes : List Code) (v : Nat) : Prop :=
      ∃ u, exec i s = .next u ∧ u.th.gets2 s.th nd (BitVec.ofNat 64 v) ∧ s.th.frame u.th [nd, nd + 1] [] codes [] [] ∧ s.sameMem u ∧
        u.th.run = .ready ∧ u.th.pc = s.th.pc + s.th.parcels 2 ∧ u.threads = s.threads ∧
        (s.th.isWave = true → (u.core s.th.core).f64Free = s.clk + 16)
    (s.th.at2 2 b nb → s.th.at2 0 d nd →
      gives (.dadd d a b) [a, b, d] (addE w f64 x y).1 ∧ gives (.dmul d a b) [a, b, d] (mulE w f64 x y).1 ∧
      (s.th.at2 3 e nc → gives (.dfma d a b) [a, b, e, d] (fmaE w f64 x y (s.th.rd2 nc).toNat).1)) ∧
    (s.th.at2 2 b nb →
      s.completes (.fcmpF64 c p a b) 2 [] [p.toNat] [a, b] [] [] (fun u => (p = 0 → u.rdP 0 = true) ∧
        (p ≠ 0 → u.rdP p.toNat = (fcmpR c (unpack f64 x) (unpack f64 y)).1))) ∧
    (s.th.at1 0 d nd → s.completes (.fclassF64 d a) 2 [nd] [] [a, d] [] [] (fun u => u.gets s.th nd (classOf f64 (unpack f64 x))))

/-- R336, R337, R322. Each conversion reads its source as a register or a pair, converts it to its own type and writes that type's register
or pair; narrow results stand in the low bits. -/
def Says.ConversionForms : Prop :=
  ∀ (s : State) (d a : Code) (na nd : Nat) (t : BitVec 4) (r : BitVec 3) (k : Nat) (sat : Bool)
    (i : Code → Code → BitVec 4 → BitVec 3 → Instr),
    (k, sat, i) ∈ [(0, false, Instr.cvtS32), (1, false, .cvtN32), (2, false, .cvtS64), (3, false, .cvtN64), (4, false, .cvtF32),
      (5, false, .cvtF16), (6, false, .cvtBf16), (7, false, .cvtF64), (8, false, .cvtE4m3), (9, false, .cvtE5m2), (10, false, .cvtE2m1),
      (8, true, .cvtE4m3Sat)] →
    let wide (n : Nat) : Bool := n == 2 || n == 3 || n == 7
    s.th.fxen = 0 →
    (if wide t.toNat then s.th.at2 1 a na else s.th.at1 1 a na ∧ s.th.free [1]) → (if wide k then s.th.at2 0 d nd else s.th.at1 0 d nd) →
    let v : Nat := if wide t.toNat then (s.th.rd2 na).toNat else (s.src s.th 1 na).toNat
    let z := (cvtR s.th.compat t.toNat k (roundMode s.th.compat r) v sat).1
    s.completes (i d a t r) 2 (if wide k then [nd, nd + 1] else [nd]) [] [a, d] [] (if wide t.toNat then [] else [1])
      (fun u => if wide k then u.gets2 s.th nd (BitVec.ofNat 64 z) else u.gets s.th nd (BitVec.ofNat 32 z))

/-- R337, R258. A finite binary32 converts to the integer that the mode rounds it to when that lies in range; a value out of range and a NaN
give 0x80000000, or saturate with NaN to 0 under COMPAT[8]; an integer converts to binary32 rounded once, and to another integer type
clamped to its range. -/
def Says.ConversionValues : Prop :=
  ∀ (s : State) (d a : Code) (na nd : Nat) (r : BitVec 3), r.toNat ≤ 4 → s.th.fxen = 0 → s.th.compat.getLsbD 0 = false →
    s.th.compat.getLsbD 1 = false → s.th.free [1] →
    s.th.at1 1 a na → s.th.at1 0 d nd →
    let x := s.src s.th 1 na
    let m : Nat := if r = 0 then bits s.th.compat.toNat 12 11 else r.toNat - 1
    (∀ (p : ℚ) (n : ℤ), f32Val x = some p →
      (m = 0 → |p - (n : ℚ)| ≤ 1 / 2 ∧ (|p - (n : ℚ)| = 1 / 2 → n % 2 = 0)) → (m = 1 → n = if 0 ≤ p then ⌊p⌋ else ⌈p⌉) → (m = 2 → n = ⌊p⌋) →
      (m = 3 → n = ⌈p⌉) →
      s.gives2 (.cvtS32 d a 4 r) d a nd
        (if -2 ^ 31 ≤ n ∧ n < 2 ^ 31 then BitVec.ofInt 32 n else if s.th.compat.getLsbD 8 = true ∧ 0 < n then 0x7FFFFFFF else 0x80000000)) ∧
    (f32Nan x → s.gives2 (.cvtS32 d a 4 r) d a nd (if s.th.compat.getLsbD 8 then 0 else 0x80000000)) ∧
    (∃ z, s.gives2 (.cvtF32 d a 0 r) d a nd z ∧ f32Rounds m (x.toInt : ℚ) z) ∧
    s.gives2 (.cvtN32 d a 0 r) d a nd (BitVec.ofInt 32 (max x.toInt 0))

/-! Memory. -/

/-- R341, R282. A load brings the bytes at its address, little-endian, zero-extended or sign-extended, to its register, pair or quad, in
every size, with a scaled or an x0 offset, and in the 16-bit form; memory is unchanged.
Model's choices that it rests on: log 14, 16. -/
def Says.LoadResults : Prop :=
  ∀ (s : State) (d b : Code) (nb nd : Nat) (r m : BitVec 2) (o : BitVec 5) (y : BitVec 3) (l : Loc) (z : Nat) (i : Instr) (off : DWord),
    (z, i, off) ∈ [(0, Instr.ldB d b r m o, BitVec.ofNat 64 o.toNat), (1, .ldH d b r m o, BitVec.ofNat 64 (o.toNat * 2)),
      (2, .ldW d b r m o, BitVec.ofNat 64 (o.toNat * 4)), (3, .ldD d b r m o, BitVec.ofNat 64 (o.toNat * 8)),
      (4, .ldQ d b r m o, BitVec.ofNat 64 (o.toNat * 16)), (5, .ldBs d b r m o, BitVec.ofNat 64 o.toNat),
      (6, .ldHs d b r m o, BitVec.ofNat 64 (o.toNat * 2)), (y.toNat, .ldExtended d b r m y, BitVec.ofInt 64 (s.th.rdX 0).toInt)] →
    z < 7 → (s.th.isWave = true → r.toNat < 2) → s.th.atA 1 b nb → s.th.atK 0 d (sizeRegs z) nd →
    checkAddr s (agentOf s.th m.toNat) (s.th.rd2 nb + off) (sizeBytes z) needR false = .ok l →
    s.performs l (sizeBytes z) (r == 2 || (r == 0 && s.th.reach)) →
    s.loads i 2 (List.range' nd (sizeRegs z)) [b, d]
      (fun u => ∀ (j : Nat) (w : Word), (loadedAt s.mem z l)[j]? = some w → u.gets s.th (nd + j) w)

/-- R341, R342. A store writes the low bytes of its register, pair or quad at its address, little-endian, and no other byte of memory.
Model's choices that it rests on: log 14, 16. -/
def Says.StoreResults : Prop :=
  ∀ (s : State) (d b : Code) (nb nd : Nat) (r m : BitVec 2) (o : BitVec 5) (y : BitVec 3) (l : Loc) (z : Nat) (i : Instr) (off : DWord),
    (z, i, off) ∈ [(0, Instr.stB d b r m o, BitVec.ofNat 64 o.toNat), (1, .stH d b r m o, BitVec.ofNat 64 (o.toNat * 2)),
      (2, .stW d b r m o, BitVec.ofNat 64 (o.toNat * 4)), (3, .stD d b r m o, BitVec.ofNat 64 (o.toNat * 8)),
      (4, .stQ d b r m o, BitVec.ofNat 64 (o.toNat * 16)), (y.toNat, .stExtended d b r m y, BitVec.ofInt 64 (s.th.rdX 0).toInt)] →
    z < 5 → r ≠ 3 → (s.th.isWave = true → r.toNat < 2) → s.th.atA 1 b nb → s.th.atK 0 d (sizeRegs z) nd →
    checkAddr s (agentOf s.th m.toNat) (s.th.rd2 nb + off) (sizeBytes z) needW false = .ok l →
    s.performs l (sizeBytes z) (r == 2 || (r == 0 && s.th.reach)) →
    s.storesAt i 2 [b, d] l (sizeBytes z) (fun j => (s.th.rd (nd + j / 4)).extractLsb' (8 * (j % 4)) 8)

/-- R278. ld.s and st.s move the word at the address in gb and gb+1. -/
def Says.ShortMemoryForms : Prop :=
  ∀ (s : State) (a : BitVec 6) (b : BitVec 5) (l : Loc), a.toNat < s.th.limit (code16 a) → b.toNat + 1 < s.th.limit (code16 b) →
    s.performs l 4 s.th.reach →
    (checkAddr s (agentOf s.th 0) (s.th.rd2 b.toNat) 4 needR false = .ok l →
      s.loads (.ldS a b) 1 [a.toNat] [] (fun u => u.gets s.th a.toNat (memWord s.mem l.key))) ∧
    (checkAddr s (agentOf s.th 0) (s.th.rd2 b.toNat) 4 needW false = .ok l →
      s.storesAt (.stS a b) 1 [] l 4 (fun j => (s.th.rd a.toNat).extractLsb' (8 * j) 8))

/-- R345, R346. ldm loads n + 1 words from consecutive addresses into consecutive registers; stm stores them, a later word standing where
two meet. -/
def Says.MultipleRegisters : Prop :=
  ∀ (s : State) (d b : Code) (nb nd : Nat) (r m : BitVec 2) (n : BitVec 5) (ls : Nat → Loc),
    let cnt := n.toNat + 1
    let apart (i j : Nat) : Prop := (ls i).key + 4 ≤ (ls j).key ∨ (ls j).key + 4 ≤ (ls i).key
    (s.th.isWave = true → r.toNat < 2) → s.th.atA 1 b nb → s.th.atL 0 d cnt nd →
    (∀ j, j < cnt → s.performs (ls j) 4 (r == 2 || (r == 0 && s.th.reach))) →
    ((∀ j, j < cnt → checkAddr s (agentOf s.th m.toNat) (s.th.rd2 nb + BitVec.ofNat 64 (4 * j)) 4 needR false = .ok (ls j)) →
      (nb + 1 < nd ∨ nd + cnt ≤ nb) →
      s.loads (.ldm d b r m n) 2 (List.range' nd cnt) [b, d]
        (fun u => ∀ j, j < cnt → u.gets s.th (nd + j) (memWord s.mem (ls j).key))) ∧
    ((∀ j, j < cnt → checkAddr s (agentOf s.th m.toNat) (s.th.rd2 nb + BitVec.ofNat 64 (4 * j)) 4 needW false = .ok (ls j)) →
      ∃ u, exec (.stm d b r m n) s = .next u ∧ u = { s.worn u with th := u.th, mem := u.mem } ∧ s.th.frame u.th [] [] [b, d] [] [] ∧
        u.th.run = .ready ∧ u.th.pc = s.th.pc + s.th.parcels 2 ∧
        (∀ a, (∀ j, j < cnt → a < (ls j).key ∨ (ls j).key + 4 ≤ a) → memRead u.mem a = memRead s.mem a) ∧
        ∀ j, j < cnt → (∀ i, j < i → i < cnt → apart i j) → memWord u.mem (ls j).key = s.th.rd (nd + j))

/-- R343, R344. Full/empty instructions on a word that no other access waits for: ldf and lde read a full word, lde leaving it empty; stf
writes an empty word and stx any word, leaving it full; sete empties it; fest reads its bit. A swarm thread parks at the home of a word in
the wrong state. Every other word's bit stays.
Model's choices that it rests on: log 14, 16. -/
def Obligations.FullEmpty : Prop :=
  ∀ (s : State) (d b : Code) (nb nd : Nat) (r m : BitVec 2) (f : BitVec 5) (l : Loc),
    (s.th.isWave = true → r.toNat < 2) → s.th.atA 1 b nb → s.th.at1 0 d nd →
    checkAddr s (agentOf s.th m.toNat) (s.th.rd2 nb + BitVec.ofNat 64 (f.toNat * 4)) 4 needRW true = .ok l →
    s.performs l 4 (r == 2 || (r == 0 && s.th.reach)) → (∀ e ∈ s.feWaits, e.2 ≠ l.key) →
    let full := isFull s.full l.key
    let loads (i : Instr) (after : Bool) (v : Word) : Prop :=
      ∃ u, exec i s = .next u ∧ u = { s with th := u.th, full := u.full } ∧ isFull u.full l.key = after ∧
        (∀ a, a ≠ l.key → isFull u.full a = isFull s.full a) ∧ s.th.frame u.th [nd] [] [b, d] [] [] ∧ u.th.gets s.th nd v ∧
        u.th.run = .ready ∧ u.th.pc = s.th.pc + s.th.parcels 2
    let stores (i : Instr) : Prop :=
      ∃ u, exec i s = .next u ∧ u = { s with th := u.th, mem := u.mem, full := u.full } ∧ isFull u.full l.key = true ∧
        (∀ a, a ≠ l.key → isFull u.full a = isFull s.full a) ∧ memWord u.mem l.key = s.th.rd nd ∧ s.sameMemBut u l.key 4 ∧
        s.th.frame u.th [] [] [b, d] [] [] ∧ u.th.run = .ready ∧ u.th.pc = s.th.pc + s.th.parcels 2
    let parks (i : Instr) : Prop := s.th.isWave = false → ∃ a, s.waitsFor i (.fe a)
    (full = true → loads (.ldf d b r m f) true (memWord s.mem l.key) ∧ loads (.lde d b r m f) false (memWord s.mem l.key) ∧
      parks (.stf d b r m f)) ∧
    (full = false → stores (.stf d b r m f) ∧ parks (.ldf d b r m f) ∧ parks (.lde d b r m f)) ∧
    stores (.stx d b r m f) ∧
    loads (.fest d b r m f) full (if full then 1 else 0) ∧
    ∃ u, exec (.sete b r m f) s = .next u ∧ u = { s with th := u.th, full := u.full } ∧ isFull u.full l.key = false ∧
      (∀ a, a ≠ l.key → isFull u.full a = isFull s.full a) ∧ s.th.frame u.th [] [] [b] [] [] ∧ u.th.run = .ready ∧
      u.th.pc = s.th.pc + s.th.parcels 2

/-- R349 to R351. An amo of a swarm thread replaces the value at its address by the operation's result and returns the old value, whatever
its ordering but sc.
Model's choices that it rests on: log 14, 16. -/
def Obligations.AtomicResults : Prop :=
  ∀ (s : State) (d a : Code) (na nd : Nat) (o z : BitVec 3) (l : Loc), s.th.isWave = false → o.toNat < 4 → s.th.atA 1 a na →
    s.performs l 8 false →
    let swaps (i : Instr) (n k : Nat) (new : BitVec 64) : Prop :=
      ∃ u, exec i s = .next u ∧ u = { s.worn u with th := u.th, mem := u.mem } ∧ s.sameMemAt u l n ∧
        (∀ j, j < n → memRead u.mem (l.byte j) = new.extractLsb' (8 * j) 8) ∧
        s.th.frame u.th (List.range' nd k) [] [a, d] [] [] ∧ u.th.run = .ready ∧ u.th.pc = s.th.pc + s.th.parcels 2 ∧
        u.th.gets s.th nd (memWord s.mem l.key) ∧ (k = 2 → u.th.gets s.th (nd + 1) (memWord s.mem (l.word 1)))
    (checkAddr s (agentOf s.th 0) (s.th.rd2 na) 4 needRW false = .ok l →
      let x := memWord s.mem l.key
      (s.th.at1 0 d nd →
        let v := s.th.rd nd
        swaps (.amoAdd d a o z 0) 4 1 (BitVec.ofNat 64 ((x.toNat + v.toNat) % 2 ^ 32)) ∧
        swaps (.amoAnd d a o z 0) 4 1 ((x &&& v).setWidth 64) ∧ swaps (.amoOr d a o z 0) 4 1 ((x ||| v).setWidth 64) ∧
        swaps (.amoXor d a o z 0) 4 1 ((x ^^^ v).setWidth 64) ∧
        swaps (.amoMin d a o z 0) 4 1 (BitVec.ofInt 64 (min x.toInt v.toInt)) ∧
        swaps (.amoMax d a o z 0) 4 1 (BitVec.ofInt 64 (max x.toInt v.toInt)) ∧
        swaps (.amoMinn d a o z 0) 4 1 (BitVec.ofNat 64 (min x.toNat v.toNat)) ∧
        swaps (.amoMaxn d a o z 0) 4 1 (BitVec.ofNat 64 (max x.toNat v.toNat)) ∧
        swaps (.amoSwap d a o z 0) 4 1 (v.setWidth 64) ∧
        swaps (.amoFadd d a o z) 4 1 ((memFadd x v).setWidth 64)) ∧
      (s.th.at2 0 d nd → swaps (.amoCas d a o z 0) 4 1 (if x = s.th.rd nd then (s.th.rd (nd + 1)).setWidth 64 else x.setWidth 64))) ∧
    (checkAddr s (agentOf s.th 0) (s.th.rd2 na) 8 needRW false = .ok l →
      let x : DWord := memWord s.mem (l.word 1) ++ memWord s.mem l.key
      (s.th.at2 0 d nd →
        let v := s.th.rd2 nd
        swaps (.amoAdd d a o z 1) 8 2 (BitVec.ofNat 64 (x.toNat + v.toNat)) ∧
        swaps (.amoAnd d a o z 1) 8 2 (x &&& v) ∧ swaps (.amoOr d a o z 1) 8 2 (x ||| v) ∧ swaps (.amoXor d a o z 1) 8 2 (x ^^^ v) ∧
        swaps (.amoMin d a o z 1) 8 2 (BitVec.ofInt 64 (min x.toInt v.toInt)) ∧
        swaps (.amoMax d a o z 1) 8 2 (BitVec.ofInt 64 (max x.toInt v.toInt)) ∧
        swaps (.amoMinn d a o z 1) 8 2 (BitVec.ofNat 64 (min x.toNat v.toNat)) ∧
        swaps (.amoMaxn d a o z 1) 8 2 (BitVec.ofNat 64 (max x.toNat v.toNat)) ∧ swaps (.amoSwap d a o z 1) 8 2 v) ∧
      (s.th.at4 0 d nd → swaps (.amoCas d a o z 1) 8 2 (if x = s.th.rd2 nd then s.th.rd2 (nd + 2) else x)))

/-- R144, R340, R342, R349. An rx access, a spawned store and a reduction of a swarm thread leave it and let it go on at once, 8 clk later,
with memory and registers as before: the access is on its way, a spawned store as a context to the core of R157 where its window migrates. A
fifth waits for room.
Model's choices that it rests on: log 15. -/
def Says.AccessesThatLeave : Prop :=
  ∀ (s : State) (d b : Code) (nb nd : Nat) (r m : BitVec 2) (f : BitVec 5) (o z : BitVec 3) (l : Loc),
    s.th.isWave = false → s.undone s.th.uid = false → s.th.carried = [] → s.th.atA 1 b nb →
    let leaves (i : Instr) (codes : List Code) (room : Bool) (op : AccOp) (dst nreg : Nat) : Prop :=
      (room = true → ∃ u g, exec i s = .next u ∧ s.sameMem u ∧ u.flights = s.flights ++ [g] ∧ g.owner = s.th.uid ∧ g.pa = l.key ∧
        g.op = placedOp l op ∧ (nreg ≠ 0 → g.dst = dst) ∧ g.nreg = nreg ∧ g.phase = .sent ∧ g.blocks = false ∧
        s.th.frame u.th [] [] codes [] [] ∧ u.th.run = .ready ∧ u.th.readyAt = s.clk + 8 ∧ u.th.pc = s.th.pc + s.th.parcels 2) ∧
      (room = false → s.waitsFor i .slots)
    let free : Bool := decide (s.rxOut s.th.uid < 4)
    let at4 (a : DWord) (n : Need) : Prop := checkAddr s (agentOf s.th m.toNat) a 4 n false = .ok l
    let addr := s.th.rd2 nb + BitVec.ofNat 64 (f.toNat * 4)
    (s.th.at1 0 d nd →
      (s.th.rx = true → (r = 1 ∨ (r = 0 ∧ s.th.reach = false)) →
        (at4 addr needR → leaves (.ldW d b r m f) [b, d] free (.load 4 false) nd 1) ∧
        (at4 addr needW → leaves (.stW d b r m f) [b, d] free (.store 4 ((s.th.rd nd).setWidth 128)) 0 0)) ∧
      (s.th.rx = false → at4 addr needW →
        (migrateTo l = none → leaves (.stW d b 3 m f) [b, d] (decide (s.spawnOut s.th.uid < 4)) (.store 4 ((s.th.rd nd).setWidth 128)) 0 0) ∧
        (∀ c, migrateTo l = some c → 4 ≤ s.spawnOut s.th.uid → s.waitsFor (.stW d b 3 m f) .slots) ∧
        (∀ c, migrateTo l = some c → s.spawnOut s.th.uid < 4 → ∃ u g, exec (.stW d b 3 m f) s = .next u ∧ s.sameMem u ∧
          u.threads = s.threads ++ [g] ∧ g.spawner = some s.th.uid ∧ g.place = .transit c ∧
          g.update = some (l.key, .store 4 ((s.th.rd nd).setWidth 128)) ∧ s.th.frame u.th [] [] [b, d] [] [] ∧ u.th.run = .ready ∧
          u.th.readyAt = s.clk + 8 ∧ u.th.pc = s.th.pc + s.th.parcels 2)) ∧
      (m = 0 → (o = 0 ∨ o = 2) → at4 (s.th.rd2 nb) needRW →
        let red (i : Instr) (k : Nat) : Prop := leaves i [b, d] free (.rmw k false ((s.th.rd nd).setWidth 64) 0 false) nd 0
        red (.redAdd d b o z 0) 0 ∧ red (.redAnd d b o z 0) 1 ∧ red (.redOr d b o z 0) 2 ∧ red (.redXor d b o z 0) 3 ∧
        red (.redMin d b o z 0) 4 ∧ red (.redMax d b o z 0) 5 ∧ red (.redMinn d b o z 0) 6 ∧ red (.redMaxn d b o z 0) 7 ∧
        red (.redSwap d b o z 0) 8 ∧ red (.redFadd d b o z) 10)) ∧
    (s.th.at2 0 d nd → m = 0 → (o = 0 ∨ o = 2) →
      (at4 (s.th.rd2 nb) needRW →
        leaves (.redCas d b o z 0) [b, d] free (.rmw 9 false ((s.th.rd nd).setWidth 64) ((s.th.rd (nd + 1)).setWidth 64) false) nd 0) ∧
      (checkAddr s (agentOf s.th 0) (s.th.rd2 nb) 8 needRW false = .ok l →
        leaves (.redAdd d b o z 1) [b, d] free (.rmw 0 true (s.th.rd2 nd) 0 false) nd 0 ∧
        leaves (.redFx64 d b o z) [b, d] free (.rmw 0 true (fxOf (s.th.rd2 nd)) 0 false) nd 0))

/-- R203, R144, R350. An access that left is performed when it arrives at its home: a store writes its bytes, a reduction its result, a load
takes the bytes; a load's reply then writes its registers.
Model's choices that it rests on: log 15. -/
def Says.HomesAndReplies : Prop :=
  ∀ (s : State) (a : Nat) (f : Flight), s.flight? a = some f → (s.th.uid = f.owner → s.th.live = true) →
    (∀ t ∈ s.threads, t.uid = f.owner → t.live = true) →
    (f.phase = .sent → homeHeld s (s.flightDie f) f.pa = false → memKey f.pa → s.clearOf f.pa 8 → (s.thread? f.owner).isSome = true →
      s.behind f = false →
      (∀ n v, n ≤ 8 → f.op = .store n v → f.nreg = 0 → ∃ u, exec (.homeAccess a) s = .next u ∧ s.sameMemBut u f.pa n ∧
        (∀ j, j < n → memRead u.mem (f.pa + j) = v.extractLsb' (8 * j) 8) ∧ u.flight? a = none) ∧
      (∀ v n, f.op = .rmw 0 false v n false → f.nreg = 0 → ∃ u, exec (.homeAccess a) s = .next u ∧ s.sameMemBut u f.pa 4 ∧
        memWord u.mem f.pa = memWord s.mem f.pa + v.setWidth 32 ∧ u.flight? a = none) ∧
      (f.op = .load 4 false → f.nreg = 1 → f.blocks = false → ∃ u g, exec (.homeAccess a) s = .next u ∧ s.sameMem u ∧
        u.flight? a = some g ∧ g.phase = .done [memWord s.mem f.pa])) ∧
    (∀ ws t, f.op ≠ .prefetch → f.phase = .done ws → s.thread? f.owner = some t → ∃ u v, exec (.memoryReply a) s = .next u ∧
      u.thread? f.owner = some v ∧ u.flight? a = none ∧ s.sameMem u ∧
      ∀ (j : Nat) (w : Word), ws[j]? = some w → v.gets t (f.dst + j) w)

/-- R347, R348, R353. pf raises nothing and changes no visible state of its thread or memory, whatever its checks say; a fence other than sc completes when every earlier access has been
performed, and waits until then; wback writes a line's dirty bytes to memory, and inval leaves memory alone.
Model's choices that it rests on: log 16. -/
def Obligations.FencesAndLines : Prop :=
  ∀ (s : State) (a : Code) (na : Nat) (o z : BitVec 3) (l : Loc),
    (s.th.isWave = false → s.undone s.th.uid = false → o ≠ 4 → s.completes (.fence o z) 2 [] [] [] [] [] (fun _ => True)) ∧
    (s.undone s.th.uid = true → s.waitsFor (.fence o z) .drain) ∧
    (s.undone s.th.uid = false → s.th.isWave = false → ∃ k, s.waitsFor (.fence 4 3) (.access k)) ∧
    (s.th.atA 1 a na →
      (∃ u, exec (.pf a) s = .next u ∧ s.sameMem u ∧ u.full = s.full ∧ u.threads = s.threads ∧ s.th.frame u.th [] [] [a] [] [] ∧
        u.th.run = .ready ∧ u.th.rx = false ∧ u.th.pc = s.th.pc + s.th.parcels 2) ∧
      (s.th.isWave = true → checkAddr s (agentOf s.th 0) (s.th.rd2 na) 1 needR false = .ok l → (l.win = 0 ∨ l.win = 4) →
        (Table.at s.l1 (clusterOf s.th.core) []).length ≤ 16384 →
        let line := l1Line s (clusterOf s.th.core) (l.key / 128 * 128) s.th.part
        (∃ u, exec (.inval a) s = .next u ∧ s.sameMem u ∧ s.th.frame u.th [] [] [a] [] [] ∧ u.th.run = .ready ∧
          u.th.pc = s.th.pc + s.th.parcels 2 ∧
          ∀ j, (l1Line u (clusterOf s.th.core) (l.key / 128 * 128) s.th.part).valid.getLsbD j = line.dirty.getLsbD j) ∧
        (s.clearOf line.pa 128 → ∃ u, exec (.wback a) s = .next u ∧ s.th.frame u.th [] [] [a] [] [] ∧ u.th.run = .ready ∧ u.th.pc = s.th.pc + s.th.parcels 2 ∧
          ∀ j, j < 128 → memRead u.mem (line.pa + j) =
            if line.dirty.getLsbD j then line.bytes.extractLsb' (8 * j) 8 else memRead s.mem (line.pa + j)))) ∧
    (s.th.isWave = false → s.traps (.inval a) .wrongEngine ∧ s.traps (.wback a) .wrongEngine)

/-- R354. bar and bar.gang: the thread waits until every live member of its group, or of its gang, waits at the same barrier; the last
arrival lets all of them go on. -/
def Says.GroupBarriers : Prop :=
  ∀ s : State, s.undone s.th.uid = false → s.th.live = true → s.th.spawner = none → s.th.ofRecord = true → s.th.isWave = false →
    let lasts (i : Instr) (w : Wait) (mate : Thread → Prop) : Prop :=
      ((∃ t ∈ s.threads, t.live = true ∧ t.spawner = none ∧ t.ofRecord = true ∧ mate t ∧ t.run ≠ .waiting w) → s.waitsFor i w) ∧
      ((∀ t ∈ s.threads, t.live = true → t.spawner = none → t.ofRecord = true → mate t → t.run = .waiting w) →
        ∃ u, exec i s = .next u ∧ u.th.run = .ready ∧ u.th.pc = s.th.pc + s.th.parcels 2 ∧ u.th.g = s.th.g ∧ s.sameMem u ∧
          ∀ t ∈ u.threads, t.live = true → t.spawner = none → t.ofRecord = true → mate t → t.run = .ready)
    (∀ t ∈ s.threads, t.live = true → (t.grp = s.th.grp ∨ t.gang = s.th.gang) → t.isWave = false) →
    lasts .bar .bar (fun t => t.grp = s.th.grp) ∧ lasts .barGang .barGang (fun t => t.gang = s.th.gang)

/-- R355, R356. barj counts one arrival at the object; the arrival that reaches EXPECT flips SENSE, clears ARRIVED and takes DROP from EXPECT;
barx also counts a departure; barw returns 0 at once when SENSE is as wanted, else parks until it is or its time is over, then 1. -/
def Says.BarrierObjects : Prop :=
  ∀ (s : State) (d a : Code) (na nd : Nat) (z : BitVec 3) (l : Loc), s.th.atA 1 a na →
    checkAddr s (agentOf s.th 0) (s.th.rd2 na) 1 needRW false = .ok l → l.win = 0 → isStack l.key = true →
    (s.th.rd2 na).toNat % 16 = 0 → homeHeld s s.th.die l.key = false → scopeL1 s s.th z = false → s.undone s.th.uid = false →
    let o := (readBytes s.mem l.key 16).toNat
    let expect := bits o 23 0
    let arrived := bits o 55 32
    let drop := bits o 87 64
    s.th.run = .ready → bits o 127 88 = 0 → bits o 63 57 = 0 → bits o 31 24 = 0 → arrived < expect → drop < expect →
    let arrives (i : Instr) (leave : Nat) : Prop :=
      ∃ u, exec i s = .next u ∧ s.sameMemBut u l.key 16 ∧ u.th.run = .ready ∧ u.th.pc = s.th.pc + s.th.parcels 2 ∧ u.th.g = s.th.g ∧
        let n := (readBytes u.mem l.key 16).toNat
        (arrived + 1 < expect → bits n 23 0 = expect ∧ bits n 55 32 = arrived + 1 ∧ n.testBit 56 = o.testBit 56 ∧ bits n 87 64 = drop + leave) ∧
        (arrived + 1 = expect → bits n 23 0 = expect - (drop + leave) ∧ bits n 55 32 = 0 ∧ n.testBit 56 = !o.testBit 56 ∧ bits n 87 64 = 0)
    arrives (.barj a z) 0 ∧ arrives (.barx a z) 1 ∧
    (s.th.at1 0 d nd →
      (o.testBit 56 = (s.th.rd nd).getLsbD 31 → s.loads (.barw d a z) 2 [nd] [a, d] (fun u => u.gets s.th nd 0)) ∧
      (o.testBit 56 ≠ (s.th.rd nd).getLsbD 31 →
        s.waitsFor (.barw d a z) (.barObj l.key ((s.th.rd nd).getLsbD 31)
          (if (s.th.rd nd).toNat % 2 ^ 31 = 0 then 0 else s.clk + 1000 * ((s.th.rd nd).toNat % 2 ^ 31)))))

/-! Messages. -/

/-- R359, R360, R362, R446. mput and msend send a register's value, or a quad, to the core that their first operand names, where it arrives
not before half the latency of R446; a name of no core of the thread's partition raises the window fault. The bits of a name below its
core field are ignored. A mover command that a wave thread posts with a wide scope releases first what its cluster's L1 holds (R232). -/
def Says.MessagesSent : Prop :=
  ∀ (s : State) (n : BitVec 4) (a b : Code) (na nb c : Nat), s.th.at1 1 a na →
    let name := s.src s.th 1 na
    let there : Prop := bits name.toNat 31 21 = 0 ∧ c = bits name.toNat 20 6 ∧ bits name.toNat 20 16 < 24 ∧
      bits name.toNat 20 16 ∈ s.partDies s.th.part ∧
      ((bits name.toNat 15 12 < 12 ∧ bits name.toNat 11 6 < 38) ∨ (bits name.toNat 15 12 = 15 ∧ bits name.toNat 11 6 < 32))
    let sends (i : Instr) (ovr : List Nat) (e : Event) (flush : Prop) : Prop :=
      ∃ u k, exec i s = .next u ∧ (¬flush → u = { s with th := u.th, timers := u.timers }) ∧
        (flush → u = { s with th := u.th, timers := u.timers, mem := u.mem, l1 := u.l1, l2 := u.l2, evc := u.evc, free := u.free
                              threads := u.threads }) ∧ (k, e) ∈ u.timers ∧ (∀ x ∈ s.timers, x ∈ u.timers) ∧
        s.clk + msgLatency s.th.core c / 2 ≤ k ∧ s.th.frame u.th [] [] [a, b] [] ovr ∧ u.th.run = .ready ∧
        u.th.pc = s.th.pc + s.th.parcels 2
    (s.th.free [1, 2] → s.th.at1 2 b nb →
      (there → (n = 15 → s.undone s.th.uid = false ∨ 32 ≤ c % 64) →
        sends (.mput n a b) [1, 2] (.messageRegisterArrival c n.toNat (s.src s.th 2 nb) s.th.uid)
          (n = 15 ∧ c % 64 < 32 ∧ scopeL1 s s.th ((s.src s.th 2 nb).extractLsb' 8 3) = true)) ∧
      (bits name.toNat 31 21 ≠ 0 ∨ bits name.toNat 20 16 ∉ s.partDies s.th.part → s.traps (.mput n a b) .window)) ∧
    (s.th.free [1] → s.th.at4 2 b nb →
      (there → sends (.msend a b) [1] (.mailboxArrival c (s.th.rd4 nb) s.th.uid false) False) ∧
      (bits name.toNat 31 21 ≠ 0 ∨ bits name.toNat 20 16 ∉ s.partDies s.th.part → s.traps (.msend a b) .window))

/-- R149, R361. A write that arrives at an empty message register for which no thread waits fills it. mget takes a full register and
empties it; wmsg finds it full and leaves it; both wait at an empty one. On a swarm core the four request ports cannot be read.
Model's choices that it rests on: log 72. -/
def Says.MessageRegisters : Prop :=
  ∀ (s : State) (d : Code) (n : BitVec 4) (nd : Nat),
    let c := s.th.core
    let k := s.core c
    let waits : List (Nat × Instr) := [(0, .wmsg0), (1, .wmsg1), (2, .wmsg2), (3, .wmsg3), (4, .wmsg4), (5, .wmsg5), (6, .wmsg6),
      (7, .wmsg7), (8, .wmsg8), (9, .wmsg9), (10, .wmsg10), (11, .wmsg11), (12, .wmsg12), (13, .wmsg13), (14, .wmsg14), (15, .wmsg15)]
    (∀ j i, (j, i) ∈ waits → (s.th.isWave = false → j < 12) →
      (k.mFull.getLsbD j = true → s.completes i 1 [] [] [] [] [] (fun _ => True)) ∧
      (k.mFull.getLsbD j = false → s.waitsFor i (.msgReg j false))) ∧
    (s.th.isWave = false → 12 ≤ n.toNat →
      s.traps (.mget d n) .illegal ∧ ∀ j i, (j, i) ∈ waits → 12 ≤ j → s.traps i .illegal) ∧
    ((s.th.isWave = false → n.toNat < 12) → s.th.at1 0 d nd →
      (k.mFull.getLsbD n.toNat = false → s.waitsFor (.mget d n) (.msgReg n.toNat true)) ∧
      (k.mFull.getLsbD n.toNat = true → k.port = [] →
        ∃ u, exec (.mget d n) s = .next u ∧ u = { s with th := u.th, cores := u.cores } ∧
          u.core c = { k with mFull := (u.core c).mFull } ∧
          (∀ j, j < 16 → (u.core c).mFull.getLsbD j = (k.mFull.getLsbD j && j != n.toNat)) ∧ (∀ e, e ≠ c → u.core e = s.core e) ∧
          s.th.frame u.th [nd] [] [d] [] [] ∧ u.th.gets s.th nd (k.m[n.toNat]?.getD 0) ∧ u.th.run = .ready ∧
          u.th.pc = s.th.pc + s.th.parcels 2)) ∧
    (∀ (e r : Nat) (v : Word) (w : Nat), (s.die (coreDie e)).inReset = false → r < 16 → (r = 15 → coreIsWave e = true) →
      (s.core e).port = [] → (s.core e).mFull.getLsbD r = false → (∀ t ∈ s.th :: s.threads, ∀ x, waitsMsg e r x t = false) →
      ∃ u, exec (.messageRegisterArrival e r v w) s = .next u ∧ (u.core e).m[r]? = some v ∧
        (∀ j, j < 16 → (u.core e).mFull.getLsbD j = ((s.core e).mFull.getLsbD j || j == r)) ∧ (u.core e).port = [] ∧ u.th = s.th)

/-- R150, R363. A mailbox holds messages in order of arrival: rmsg takes the oldest into a quad, or parks until one arrives, and a message
that arrives while a thread of the core waits goes to that thread. -/
def Says.Mailboxes : Prop :=
  ∀ (s : State) (d : Code) (z : BitVec 3) (nd e : Nat) (v : BitVec 128) (w : Nat) (mv : Bool),
    let c := s.th.core
    (s.th.at4 0 d nd →
      ((s.core c).mail = [] → s.waitsFor (.rmsg d z) .mailbox) ∧
      (∀ m r, (s.core c).mail = m :: r → m.mover = false → r.length < 32 →
        ∃ u, exec (.rmsg d z) s = .next u ∧ u = { s with th := u.th, cores := u.cores } ∧ u.core c = { s.core c with mail := r } ∧
          (∀ e, e ≠ c → u.core e = s.core e) ∧ s.th.frame u.th (List.range' nd 4) [] [d] [] [] ∧
          (∀ j, j < 4 → u.th.gets s.th (nd + j) (m.msg.extractLsb' (32 * j) 32)) ∧ u.th.run = .ready ∧
          u.th.pc = s.th.pc + s.th.parcels 2)) ∧
    ((s.die (coreDie e)).inReset = false →
      ((s.core e).mail ≠ [] ∨ (∀ t ∈ s.th :: s.threads, t.core = e → t.run ≠ .waiting .mailbox) →
        ∃ u, exec (.mailboxArrival e v w mv) s = .next u ∧ (u.core e).mail = (s.core e).mail ++ [⟨v, mv, w⟩] ∧ s.sameMem u) ∧
      ((s.core e).mail = [] → s.th.core = e → s.th.run = .waiting .mailbox → s.th.hold = .running → s.th.live = true →
        (∀ t ∈ s.threads, t.core = e → t.run ≠ .waiting .mailbox) → s.th.fin.adv = [] →
        ∃ u, exec (.mailboxArrival e v w mv) s = .next u ∧ (u.core e).mail = [] ∧ u.th.run = .ready ∧
          u.th.pc = s.th.pc + BitVec.ofNat 32 s.th.fin.len ∧
          ∀ j, j < 4 → u.th.gets s.th (s.th.fin.dst + j) (v.extractLsb' (32 * j) 32)))

/-- R15, R359. A message for a core of a die that is held in reset waits for it, with the die-lost time-out behind it. -/
def Says.MessagesHeld : Prop :=
  ∀ (s : State) (e r : Nat) (v : Word) (w : Nat) (m : BitVec 128) (mv : Bool), (s.die (coreDie e)).inReset = true →
    ∀ i ev, (i, ev) ∈ [(Instr.messageRegisterArrival e r v w, Event.messageRegisterArrival e r v w),
        (.mailboxArrival e m w mv, .mailboxArrival e m w mv)] →
      ∃ u, exec i s = .next u ∧ u = { s with heldMsgs := u.heldMsgs, timers := u.timers } ∧
        u.heldMsgs = s.heldMsgs ++ [⟨coreDie e, s.clk, ev⟩] ∧ (s.clk + 50000, .dieLostTimeout (coreDie e)) ∈ u.timers

/-- R152, R153, R364. Rills, for the owner of a wired port at the core where it was placed: qput and qctl append an entry that its reader
finds 4 clk later, or wait for one of 16 places; qget takes the head, a control entry entering the light handler outside one; qpeek
counts; without the wire each raises the window fault. -/
def Obligations.Rills : Prop :=
  ∀ (s : State) (d a : Code) (n : BitVec 2) (na nd : Nat), s.th.isWave = false →
    let c := s.th.core
    let base (i : Instr) (u : State) (ds : List Nat) (codes : List Code) (ovr : List Nat) : Prop :=
      exec i s = .next u ∧ u = { s with th := u.th, cores := u.cores, timers := u.timers, threads := u.threads } ∧
        s.th.frame u.th ds [] codes [] ovr ∧ u.th.run = .ready ∧ u.th.pc = s.th.pc + s.th.parcels 2
    (∀ w, wireOf s n.toNat (some true) = some w → w.peerPort < 4 → s.th.free [1] → s.th.at1 1 a na →
      ∀ i ctl, (i, ctl) ∈ [(Instr.qput n a, false), (.qctl n a, true)] →
        (16 ≤ (rillAt s w.peer w.peerPort).length → s.waitsFor i (.rill n.toNat)) ∧
        ((rillAt s w.peer w.peerPort).length < 16 →
          ∃ u, base i u [] [a] [] ∧ rillAt u w.peer w.peerPort = rillAt s w.peer w.peerPort ++ [⟨s.th.rd na, ctl, s.clk + 4⟩] ∧
            (s.clk + 4, .rillEntryReadable w.peer w.peerPort) ∈ u.timers)) ∧
    (∀ w, wireOf s n.toNat (some false) = some w → s.th.at1 0 d nd → s.th.live = true →
      (rillAt s c n.toNat = [] → s.waitsFor (.qget d n) (.rill n.toNat)) ∧
      ∀ e r, rillAt s c n.toNat = e :: r →
        (s.clk < e.at_ → s.waitsFor (.qget d n) (.rill n.toNat)) ∧
        (e.at_ ≤ s.clk → (e.ctl = false ∨ s.th.inH = true) → s.th.run = .ready →
          ∃ u, base (.qget d n) u [nd] [d] [] ∧ rillAt u c n.toNat = r ∧ u.th.gets s.th nd e.data) ∧
        (e.at_ ≤ s.clk → e.ctl = true → s.th.inH = false → s.th.lhpc ≠ 0 → s.th.run = .ready →
          ∃ u, exec (.qget d n) s = .next u ∧ rillAt u c n.toNat = r ∧ u.th.inH = true ∧ u.th.lhcause = 1 ∧ u.th.lhdat = e.data ∧
            u.th.pc = s.th.lhpc ∧ u.th.lhret = s.th.pc)) ∧
    (∀ w, wireOf s n.toNat none = some w → s.th.at1 0 d nd →
      (w.out = true → s.completes (.qpeek d n) 2 [nd] [] [d] [] []
        (fun u => u.gets s.th nd (BitVec.ofNat 32 (16 - (rillAt s w.peer w.peerPort).length)))) ∧
      (w.out = false → s.completes (.qpeek d n) 2 [nd] [] [d] [] [] (fun u => u.gets s.th nd (BitVec.ofNat 32
        (((rillAt s c n.toNat).filter (fun e => decide (e.at_ ≤ s.clk))).length +
          32 * (((rillAt s c n.toNat).filter (fun e => decide (e.at_ ≤ s.clk))).head?.map (fun e => e.ctl.toNat)).getD 0))))) ∧
    ((∀ w ∈ (s.core c).wires, w.owner ≠ s.th.uid) →
      (s.th.free [1] → s.th.at1 1 a na → s.traps (.qput n a) .window ∧ s.traps (.qctl n a) .window) ∧
      (s.th.at1 0 d nd → s.traps (.qget d n) .window ∧ s.traps (.qpeek d n) .window)) ∧
    ∃ u, exec (.rillEntryReadable c n.toNat) s = .next u ∧ s.sameMem u ∧
      (s.th.live = true → s.th.run = .waiting (.rill n.toNat) → u.th.run = .ready ∧ u.th.pc = s.th.pc)

/-! State words, causes and light handlers. -/

/-- R404, R405, R407. sget reads each state word: thirty-two bits into a register, %clk and %args into a pair; a word for supervisors is
refused to a user thread by the privilege cause. -/
def Says.StateWordsRead : Prop :=
  ∀ (s : State) (d : Code) (nd : Nat),
    let t := s.th
    let k := s.core t.core
    let reads (n : Nat) (v : Word) : Prop := s.completes (.sget d (BitVec.ofNat 7 n)) 2 [nd] [] [d] [] [] (fun u => u.gets t nd v)
    (t.at1 0 d nd →
      (∀ n v, (n, v) ∈ [(0, t.placeWord), (1, BitVec.ofNat 32 (t.core * 64)), (2, (t.p ||| 1).setWidth 32), (3, t.compat.setWidth 32),
          (4, t.fxen.setWidth 32), (5, t.lhpc), (7, t.lhret), (8, t.lhcause), (9, t.lhdat), (10, t.h[0]), (11, t.h[1]), (12, t.h[2]),
          (13, t.h[3]), (16, k.evs0.setWidth 32), (17, k.evs1.setWidth 32), (19, BitVec.ofNat 32 t.tid), (23, t.dslo), (24, t.dshi),
          (25, t.basin), (20, BitVec.ofNat 32 (t.gidx % 16 + t.gangIdx % 2 ^ 24 * 16 + t.role % 16 * 2 ^ 28)),
          (22, BitVec.ofNat 32 (t.slot % 256 + t.stream % 64 * 256 + t.part % 32 * 2 ^ 16))] → reads n v) ∧
      (∀ j, j < 8 → reads (32 + j) (t.rdI j)) ∧
      (∃ v : Word, (∀ j, v.getLsbD j = ((decide (2 ≤ j) && decide (j ≤ 5) && t.lhen.getLsbD j) || (j == 1 && t.lhpc != 0))) ∧ reads 6 v) ∧
      reads 14 k.evc0 ∧ reads 15 k.evc1 ∧
      (t.isSuper = true → ∀ q, s.part? t.part = some q → reads 40 q.wdlim)) ∧
    (t.at2 0 d nd → ∀ n v, (n, v) ∈ [(18, BitVec.ofNat 64 s.clk), (21, t.args)] →
      s.completes (.sget d (BitVec.ofNat 7 n)) 2 [nd, nd + 1] [] [d] [] [] (fun u => u.gets2 t nd v)) ∧
    (t.isSuper = false → s.traps (.sget d 40) .privilege) ∧
    (∀ c j, t.place = .swarm c j → t.placeWord = BitVec.ofNat 32 (c * 64 + j)) ∧
    (∀ c l j, t.place = .wave c l j → t.placeWord = BitVec.ofNat 32 (2 ^ 31 + j * 2 ^ 21 + c * 64 + l))

/-- R404, R407, R173. sset writes each writable state word and leaves every other as it was: a thread's own word, a counter or select of
its core, an index register, or the partition's watchdog limit, which a user thread is refused by the privilege cause. -/
def Says.StateWordsWritten : Prop :=
  ∀ (s : State) (a : Code) (na : Nat), s.th.free [1] →
    let t := s.th
    let c := t.core
    let v := s.src t 1 na
    let ends (n : Nat) (u : State) (w : Thread) (js : List Nat) : Prop :=
      exec (.sset a (BitVec.ofNat 7 n)) s = .next u ∧ t.frame w [] [] [a] js [1] ∧ u.th.run = .ready ∧ u.th.pc = t.pc + t.parcels 2
    let own (n : Nat) (undo : Thread → Thread) (r : Thread → Prop) : Prop := ∃ u, ends n u (undo u.th) [] ∧ s.keeps u ∧ r u.th
    let counts (n : Nat) (r : Core → Prop) : Prop :=
      ∃ u, ends n u u.th [] ∧ u = { s with th := u.th, cores := u.cores } ∧ (∀ e, e ≠ c → u.core e = s.core e) ∧ r (u.core c)
    (t.at1 1 a na →
      own 2 (fun u => { u with p := t.p }) (fun u => ∀ j, 1 ≤ j → j < 16 → u.rdP j = v.getLsbD j) ∧
      own 5 (fun u => { u with lhpc := t.lhpc }) (fun u => u.lhpc = v) ∧
      own 6 (fun u => { u with lhen := t.lhen }) (fun u => ∀ j, u.lhen.getLsbD j = (decide (2 ≤ j) && decide (j ≤ 5) && v.getLsbD j)) ∧
      own 7 (fun u => { u with lhret := t.lhret }) (fun u => u.lhret = v) ∧
      (∀ j, (_ : j < 4) → own (10 + j) (fun u => { u with h := t.h }) (fun u => u.h = t.h.set j v)) ∧
      (∀ j, j < 8 → ∃ u, ends (32 + j) u u.th [j] ∧ s.keeps u ∧ u.th.rdI j = v) ∧
      counts 14 (fun k => k = { s.core c with evc0 := v }) ∧ counts 15 (fun k => k = { s.core c with evc1 := v }) ∧
      counts 16 (fun k => k = { s.core c with evs0 := v.setWidth 8 }) ∧ counts 17 (fun k => k = { s.core c with evs1 := v.setWidth 8 }) ∧
      (t.isSuper = true → ∀ q, s.part? t.part = some q →
        ∃ u, ends 40 u u.th [] ∧ u = { s with th := u.th, parts := u.parts } ∧ u.part? t.part = some { q with wdlim := v } ∧
          ∀ p, p ≠ t.part → u.part? p = s.part? p)) ∧
    (t.isSuper = false → s.traps (.sset a 40) .privilege)

/-- R175, R408. cset writes one uniform register of the thread's group, and the thread is ready 16 clk later; a thread entered by wenter
and a swarm thread are refused. -/
def Says.UniformRegisters : Prop :=
  ∀ (s : State) (n : BitVec 7) (a : Code) (na : Nat), s.th.free [1] → s.th.at1 1 a na →
    let sets (i : Instr) (k : Nat) : Prop :=
      ∃ u, exec i s = .next u ∧ u = { s with th := u.th, groups := u.groups } ∧ u.uniform s.th k = s.src s.th 1 na ∧
        (∀ j, j ≠ k → u.uniform s.th j = s.uniform s.th j) ∧ s.th.frame u.th [] [] [a] [] [1] ∧ u.th.run = .ready ∧
        u.th.readyAt = s.clk + 16 ∧ u.th.pc = s.th.pc + s.th.parcels 2
    (s.th.isWave = true → s.th.entered = false → (s.group? s.th.grp).isSome = true →
      sets (.cset n a) n.toNat ∧ sets (.csetHigh n a) (128 + n.toNat)) ∧
    (s.th.isWave = true → s.th.entered = true → s.traps (.cset n a) .illegal ∧ s.traps (.csetHigh n a) .illegal) ∧
    (s.th.isWave = false → s.traps (.cset n a) .wrongEngine ∧ s.traps (.csetHigh n a) .wrongEngine)

/-- R416, R409, R317, R275, R276, R68. Taking a cause: trap, brk, an illegal instruction and a zero parcel park their thread at the
instruction with its context as it was, and write one THREAD record to the partition's fault queue: kind 1, the cause, the socket of its
die, its place, its PC and the code. -/
def Obligations.CausesTaken : Prop :=
  ∀ (s : State) (n : BitVec 7) (b : BitVec 5) (i : Instr) (c : Cause) (code : Nat),
    (i, c, code) ∈ [(Instr.trap n, Cause.trap, n.toNat), (.brk b, .breakpoint, b.toNat), (.illegalInstruction, .illegal, 0),
      (.zeroParcel, .zeroParcel, 0)] →
    s.traps i c ∧ (∃ u f, exec i s = .next u ∧ u.th.run = .faulted f ∧ f.code = code) ∧
    ∀ q, s.part? s.th.part = some q → s.homeUp q = true → q.fqWait = [] → q.fqTail - q.fqHead ≠ 4096 → q.mirror = none →
      ∃ u v, exec i s = .next u ∧ u.part? s.th.part = some v ∧ v.fqTail = q.fqTail + 1 ∧ v.fqSeq = q.fqSeq + 1 ∧ v.fqHead = q.fqHead ∧
        let k := q.home * 2 ^ 46 + 0x01D00000 + 64 * (q.fqTail.toNat % 4096)
        s.sameMemBut u k 64 ∧ memRead u.mem k = 1 ∧ memRead u.mem (k + 1) = BitVec.ofNat 8 c.code ∧
        memRead u.mem (k + 2) = BitVec.ofNat 8 s.th.die ∧ memWord u.mem (k + 4) = s.th.placeWord ∧
        memWord u.mem (k + 16) = BitVec.ofNat 32 q.fqSeq ∧ memWord u.mem (k + 24) = s.th.pc ∧
        memRead u.mem (k + 30) = BitVec.ofNat 8 code

/-- R155, R410. lret returns: the first four registers change back with h0 to h3 and control goes to %lhret, or, when MAIL or COPY is
pending, the lower cause is entered at once with the same %lhret. Outside a handler it is the illegal-instruction trap. -/
def Says.HandlerReturns : Prop :=
  ∀ (s : State) (i : Instr), i ∈ [Instr.lret, .lretS] →
    let back (u : State) : Prop := exec i s = .next u ∧ s.sameMem u ∧ u.threads = s.threads ∧ u.th.p = s.th.p ∧ u.th.idx = s.th.idx ∧
      u.th.x = s.th.x ∧ u.th.lhen = s.th.lhen ∧ u.th.lhpc = s.th.lhpc ∧ ∀ j, 4 ≤ j → u.th.g[j]? = s.th.g[j]?
    let enters (c : Nat) (dat : Word) : Prop :=
      ∃ u, back u ∧ u.th.inH = true ∧ u.th.lhcause = BitVec.ofNat 32 c ∧ u.th.lhdat = dat ∧ u.th.lhret = s.th.lhret ∧
        u.th.pc = s.th.lhpc ∧ u.th.pend.getLsbD c = false ∧ (∀ j, j < 4 → u.th.g[j]? = s.th.g[j]? ∧ u.th.h[j]? = s.th.h[j]?)
    (s.th.inH = true →
      (s.th.pend.getLsbD 2 = false → s.th.pend.getLsbD 3 = false →
        ∃ u, back u ∧ u.th.inH = false ∧ u.th.pc = s.th.lhret ∧ (∀ j, j < 4 → u.th.g[j]? = s.th.h[j]? ∧ u.th.h[j]? = s.th.g[j]?)) ∧
      (s.th.pend.getLsbD 2 = true → enters 2 s.th.pendMail) ∧
      (s.th.pend.getLsbD 2 = false → s.th.pend.getLsbD 3 = true → enters 3 s.th.pendCopy)) ∧
    (s.th.inH = false → s.traps i .illegal)

/-- R154, R155, R380. A MAIL or COPY event of the issuing thread: discarded when its cause is not enabled, entered at an instruction
boundary outside a handler unless one of g0 to g3 awaits a result, else pending. -/
def Says.HandlerEvents : Prop :=
  ∀ (s : State) (c : Nat) (dat : Word), c = 2 ∨ c = 3 → s.th.live = true →
    let i := Instr.lightHandlerEntry s.th.uid c dat
    (s.th.lhen.getLsbD c = false → exec i s = .next s) ∧
    (s.th.lhen.getLsbD c = true → s.th.pend = 0 →
      (s.th.inH = true ∨ (atBoundary s s.th = true ∧ awaits s s.th 0 4 = true) → ∃ u, exec i s = .next u ∧ u.th.pend.getLsbD c = true ∧ u.th.g = s.th.g ∧ u.th.pc = s.th.pc ∧
        (c = 2 → u.th.pendMail = dat) ∧ (c = 3 → u.th.pendCopy = dat)) ∧
      (s.th.inH = false → atBoundary s s.th = true → awaits s s.th 0 4 = false → ∃ u, exec i s = .next u ∧ u.th.inH = true ∧ u.th.pend = 0 ∧
        u.th.lhcause = BitVec.ofNat 32 c ∧ u.th.lhdat = dat ∧ u.th.lhret = s.th.pc ∧ u.th.pc = s.th.lhpc ∧
        (∀ j, j < 4 → u.th.g[j]? = s.th.h[j]? ∧ u.th.h[j]? = s.th.g[j]?) ∧ ∀ j, 4 ≤ j → u.th.g[j]? = s.th.g[j]?))

/-- R413. sleep waits until max(8, G(A)) clk have gone by; at that clk it ends, past the instruction, with nothing else changed. -/
def Obligations.SleepAndTimeouts : Prop :=
  ∀ (s : State) (a : Code) (na : Nat),
    (s.th.free [1] → s.th.at1 1 a na →
      let due := s.clk + max 8 (s.src s.th 1 na).toNat
      ∃ u, exec (.sleep a) s = .next u ∧ u = { s with th := u.th, timers := u.timers } ∧ u.th.run = .waiting (.sleep due) ∧
        u.th.g = s.th.g ∧ u.th.p = s.th.p ∧ BitVec.ofNat 32 u.th.fin.len = s.th.parcels 2 ∧ u.th.pc = s.th.pc ∧
        (due, .sleepExpiry s.th.uid) ∈ u.timers) ∧
    (∀ k, s.th.run = .waiting (.sleep k) →
      (k ≤ s.clk → ∃ u, exec (.sleepExpiry s.th.uid) s = .next u ∧ s.sameMem u ∧ u.th.run = .ready ∧
        u.th.pc = s.th.pc + BitVec.ofNat 32 s.th.fin.len ∧ u.th.g = s.th.g ∧ s.th.specials u.th) ∧
      (s.clk < k → ∃ u, exec (.sleepExpiry s.th.uid) s = .next u ∧ u.th = s.th)) ∧
    (∀ k w m, s.th.run = .waiting (.barObj k w m) → m ≠ 0 → m ≤ s.clk → s.th.fin.adv = [] →
      ∃ u, exec (.barwTimeout s.th.uid) s = .next u ∧ s.sameMem u ∧ u.th.run = .ready ∧ u.th.gets s.th s.th.fin.dst 1 ∧
        u.th.pc = s.th.pc + BitVec.ofNat 32 s.th.fin.len) ∧
    (∀ w q, s.th.run = .waiting w → w.parked = true → s.th.hold = .running → s.part? s.th.part = some q → q.wdlim ≠ 0 →
      (s.th.parkedAt + 1000 * q.wdlim.toNat ≤ s.clk →
        ∃ u f, exec (.watchdog s.th.uid) s = .next u ∧ (w = .mailbox → u.th.run = .faulted f ∧ f.cause = .watchdog ∧ u.th.pc = s.th.pc ∧
          u.th.g = s.th.g)) ∧
      (s.clk < s.th.parkedAt + 1000 * q.wdlim.toNat → exec (.watchdog s.th.uid) s = .next s))

/-- R418. The thread at TSEL of a die that is parked on a fault replays its instruction, resumes at the next one, resumes at TPC, or is
killed; where TSEL names no such thread, TERR is set and nothing else changes. -/
def Says.ThreadResolution : Prop :=
  ∀ (s : State) (die : Nat), die < 24 →
    let acts : List Instr := [.threadReplay die, .threadResumeNext die, .threadResumeAtTpc die, .threadKill die]
    ((∀ t ∈ s.th :: s.threads, t.die = die → t.placeWord = (s.die die).tsel → ∀ f, t.run ≠ .faulted f) → ∀ i ∈ acts,
      ∃ u, exec i s = .next u ∧ u = { s with dies := u.dies } ∧ u.die die = { s.die die with terr := true } ∧
        ∀ e, e ≠ die → u.die e = s.die e) ∧
    (∀ f, s.th.die = die → s.th.placeWord = (s.die die).tsel → s.th.run = .faulted f → f.cause ≠ .translation → f.cause ≠ .permission →
      let goes (i : Instr) (pc : Word) : Prop :=
        ∃ u, exec i s = .next u ∧ s.sameMem u ∧ (u.die die).terr = false ∧ u.th.run = .ready ∧ u.th.pc = pc ∧ u.th.g = s.th.g ∧
          u.th.p = s.th.p ∧ u.th.idx = s.th.idx ∧ u.th.x = s.th.x ∧ s.th.specials u.th
      goes (.threadReplay die) s.th.pc ∧ (f.len ≠ 0 → goes (.threadResumeNext die) (s.th.pc + BitVec.ofNat 32 f.len)) ∧
      goes (.threadResumeAtTpc die) (s.die die).tpc ∧
      ∃ u, exec (.threadKill die) s = .next u ∧ u.thread? s.th.uid = none)

/-- R418, R420. A word of the context of the thread at TSEL that is parked on a fault is written: a register below its count, its
predicates, its PC, an index, extension or shadow register or a handler word; the place, counts and waits are not, nor the index registers of
a version-1 thread (R268).
Model's choices that it rests on: log 35. -/
def Says.ContextWrites : Prop :=
  ∀ (s : State) (die : Nat) (v : Word) (f : FaultRec), s.th.die = die → s.th.placeWord = (s.die die).tsel → s.th.run = .faulted f →
    let t := s.th
    let writes (off : Nat) (r : Thread → Prop) : Prop :=
      ∃ u, exec (.contextWrite die off v) s = .next u ∧ s.sameMem u ∧ u.th.run = t.run ∧ u.th.place = t.place ∧ r u.th
    (∀ k, k < t.count → t.count ≤ 128 → writes (4 * k) (fun u => u = { t with g := t.g.setIfInBounds k v })) ∧
    writes 512 (fun u => ∀ j, 1 ≤ j → j < 16 → u.rdP j = v.getLsbD j) ∧
    writes 516 (fun u => u = { t with pc := v }) ∧
    writes 520 (fun u => u = t) ∧
    (∀ k, k < 8 → (t.version = 1 → writes (528 + 4 * k) (fun u => u = t)) ∧
      (t.version ≠ 1 → bits v.toNat 31 27 = 0 → t.reach = false → writes (528 + 4 * k) (fun u => u = t.wrI k v))) ∧
    (∀ k, k < 4 → writes (560 + 4 * k) (fun u => u = t.wrX k v) ∧ writes (576 + 4 * k) (fun u => u = { t with h := t.h.setIfInBounds k v })) ∧
    writes 592 (fun u => u = { t with lhpc := v }) ∧ writes 600 (fun u => u = { t with lhret := v })

/-- R67, R412. tlsig adds its pair to a counter of the partition and tlsig.set sets it; a sum past 2^64 - 1 stays there, and a set to less
is refused and changes nothing. A counter number that does not exist raises the window fault. The host's operations are the same. -/
def Obligations.TimelineCounters : Prop :=
  ∀ (s : State) (a b : Code) (na nb : Nat) (q : Part), s.part? s.th.part = some q → s.homeUp q = true →
    (∀ e ∈ q.streams, e.2.recs = [] ∧ e.2.held = []) →
    let p := s.th.part
    let result (u : State) (k : Nat) (w : DWord) : Prop :=
      ∃ x, u.part? p = some x ∧ Table.at x.ctrs k 0 = w ∧ ∀ j, j ≠ k → Table.at x.ctrs j 0 = Table.at q.ctrs j 0
    let added (c v : DWord) : DWord := BitVec.ofNat 64 (min (c.toNat + v.toNat) (2 ^ 64 - 1))
    let placed (c v : DWord) : DWord := BitVec.ofNat 64 (max c.toNat v.toNat)
    (∀ (k : Nat) (v : DWord), k < 4096 → q.running = true →
      (∃ u, exec (.timelineAdd p k v) s = .next u ∧ result u k (added (Table.at q.ctrs k 0) v)) ∧
      (∃ u, exec (.timelineSet p k v) s = .next u ∧ result u k (placed (Table.at q.ctrs k 0) v))) ∧
    (s.th.free [1] → s.th.at1 1 a na → s.th.at2 2 b nb → s.undone s.th.uid = false →
      let k := (s.src s.th 1 na).toNat
      let ends (u : State) : Prop := s.th.frame u.th [] [] [a, b] [] [1] ∧ u.th.run = .ready ∧ u.th.pc = s.th.pc + s.th.parcels 2
      (k < 4096 → s.th.isWave = false →
        (∃ u, exec (.tlsig a b) s = .next u ∧ ends u ∧ result u k (added (Table.at q.ctrs k 0) (s.th.rd2 nb))) ∧
        (∃ u, exec (.tlsigSet a b) s = .next u ∧ ends u ∧ result u k (placed (Table.at q.ctrs k 0) (s.th.rd2 nb)))) ∧
      (4096 ≤ k → s.traps (.tlsig a b) .window ∧ s.traps (.tlsigSet a b) .window))
/-! Migration, spawned contexts and crossings. -/

/-- R365, R158, R359, R160. go takes its thread's context to the swarm or channel core that it names, where it goes on after the go: the
context leaves its place and arrives 16 clk later, 60 more on another die. A go to its own core completes; a wave engine or a name of no
core is the window fault, and a context that does not pack the migration-oversize cause.
Model's choices that it rests on: log 27. -/
def Says.GoMoves : Prop :=
  ∀ (s : State) (a : Code) (na c : Nat), s.th.isWave = false → s.th.free [1] → s.th.at1 1 a na → s.th.isSuper = false →
    (namedCore s s.th (s.th.rd na) = some c → coreIsWave c = false → s.undone s.th.uid = false →
      (c = s.th.core → s.completes (.go a) 2 [] [] [a] [] [] (fun _ => True)) ∧
      (c ≠ s.th.core → s.th.packable (s.th.pc + 2) = true → ∃ u, exec (.go a) s = .next u ∧ s.sameMem u ∧ u.th.place = .transit c ∧
        u.th.run = .ready ∧ u.th.pc = s.th.pc + s.th.parcels 2 ∧ u.th.g = s.th.g ∧ u.th.p = s.th.p ∧ u.th.uid = s.th.uid ∧
        (s.clk + 16 + (if coreDie s.th.core = coreDie c then 0 else 60), .migrantArrival s.th.uid) ∈ u.timers) ∧
      (c ≠ s.th.core → s.th.packable (s.th.pc + 2) = false → s.traps (.go a) .migOversize)) ∧
    ((namedCore s s.th (s.th.rd na) = none ∨ (namedCore s s.th (s.th.rd na) = some c ∧ coreIsWave c = true)) → s.traps (.go a) .window)

/-- R366, R367, R157. spawn sends a context with the thread's g0 to g23, predicates and index registers, at the PC that its second
operand gives, to the core of the address, and goes on; the context's other registers are zero, and it belongs to the spawner's group and
record. -/
def Says.SpawnSends : Prop :=
  ∀ (s : State) (a b : Code) (na nb c : Nat) (l : Loc), s.th.isWave = false → s.th.free [2] → s.th.atA 1 a na → s.th.at1 2 b nb →
    checkAddr s (agentOf s.th 0) (s.th.rd2 na) 1 needR false = .ok l → l.win ≠ 1 → l.win ≠ 4 → migrateTo l = some c →
    s.th.packable (if s.th.bound ≤ (s.th.rd nb).toNat then 0 else s.th.rd nb) = true → s.spawnOut s.th.uid < 4 →
    s.undone s.th.uid = false →
    ∃ u v, exec (.spawn a b) s = .next u ∧ s.sameMem u ∧ u.threads = s.threads ++ [v] ∧ s.th.frame u.th [] [] [a, b] [] [] ∧
      u.th.run = .ready ∧ u.th.pc = s.th.pc + s.th.parcels 2 ∧ v.uid = s.nextId ∧ v.spawner = some s.th.uid ∧ v.place = .transit c ∧
      v.pc = s.th.rd nb ∧ v.p = s.th.p ∧ v.grp = s.th.grp ∧ v.gang = s.th.gang ∧ v.part = s.th.part ∧ v.run = .ready ∧
      (∀ k, k < 24 → v.g[k]? = s.th.g[k]?) ∧ (∀ k, 24 ≤ k → k < 128 → v.g[k]? = some 0) ∧
      (∀ j, (∀ e ∈ [a, b], s.th.indirect e = true → e.toNat ≠ 120 + j) → v.rdI j = s.th.rdI j) ∧
      (s.clk + 16 + (if s.th.die = coreDie c then 0 else 60), .migrantArrival s.nextId) ∈ u.timers

/-- R277. The rx prefix fuses with the instruction after it: major 13, 14, 15 or 29, ld.s or st.s. Another parcel there, a second prefix, or
a prefix on the last parcel before the bound is the illegal-instruction trap at the prefix. -/
def Says.RxPrefix : Prop :=
  ∀ (s : State) (v : BitVec 16),
    let next := fetchParcel s s.th (s.th.pc.toNat + 1)
    let allowed : Prop := (v.getLsbD 0 = true ∧ bits v.toNat 5 1 ∈ [13, 14, 15, 29]) ∨ (v.getLsbD 0 = false ∧ bits v.toNat 4 1 ∈ [10, 11])
    (next = .parcel v → allowed → s.th.rx = false → exec .rx s = .next { s with th := { s.th with rx := true } }) ∧
      (next = .parcel v → (¬allowed ∨ s.th.rx = true) → s.traps .rx .illegal) ∧
      (s.th.bound ≤ s.th.pc.toNat + 1 → s.traps .rx .illegal)

/-- R158, R162 to R164. A migrant that arrives takes a free guest slot when none waits before it, and restarts 12 clk later; else it waits in
the landing area, or in the overflow queue once that has begun. Waiting migrants take free slots, and the overflow queue moves up, oldest
first; each goes on with the registers, PC and memory with which it came.
Model's choices that it rests on: log 33. -/
def Says.MigrantsLand : Prop :=
  ∀ (s : State) (c : Nat) (rest : List Nat), s.th.place = .transit c → s.th.live = true → s.th.run = .ready → s.th.count ≠ 0 →
    (s.die (coreDie c)).inReset = false → (s.die (coreDie c)).drains = [] → (∀ t ∈ s.threads, t.uid ≠ s.th.uid) →
    (∀ t ∈ s.threads, parkedGuest c t = false) → s.th.uid ∉ rest →
    let k := s.core c
    let room := s.slotFor c (allocOf s.th.count)
    let kept (u : State) : Prop := s.sameMem u ∧ u.th.g = s.th.g ∧ u.th.p = s.th.p ∧ u.th.pc = s.th.pc ∧ u.th.run = .ready ∧ u.th.uid = s.th.uid
    let lands (i : Instr) : Prop := ∃ u j, exec i s = .next u ∧ kept u ∧ u.th.place = .swarm c j ∧ j < 63 ∧ u.th.guest = true ∧
      u.th.readyAt = s.clk + 12 ∧ s.th.uid ∉ (u.core c).landing
    (k.landing = [] → k.overflow = [] → room → lands (.migrantArrival s.th.uid)) ∧
    (k.landing = [] → k.overflow = [] → ¬room → ∃ u, exec (.migrantArrival s.th.uid) s = .next u ∧ kept u ∧ u.th.place = .transit c ∧
      (u.core c).landing = [s.th.uid]) ∧
    (k.overflow ≠ [] → k.landing = [] → ∃ u, exec (.migrantArrival s.th.uid) s = .next u ∧ kept u ∧
      (u.core c).overflow = k.overflow ++ [s.th.uid] ∧ ∃ m, (m, .overflowMove c) ∈ u.timers) ∧
    (k.landing = s.th.uid :: rest → room → lands (.landingSlotTake c)) ∧
    (k.overflow = s.th.uid :: rest → k.landing = [] → (room → lands (.overflowMove c)) ∧
      (¬room → ∃ u, exec (.overflowMove c) s = .next u ∧ kept u ∧ (u.core c).overflow = rest ∧ (u.core c).landing = [s.th.uid]))

/-- R168, R368. wenter takes a swarm thread of at most 24 registers to the lowest-numbered wave engine of its cluster with a free lane
position and registers, and wleave brings it back to the first swarm core with a free slot and registers, each going on at the PC in its
operand 28 clk later with every register as it was; without room each waits. -/
def Says.Crossings : Prop :=
  ∀ (s : State) (a : Code) (na n : Nat), s.th.free [1] → s.th.at1 1 a na → s.undone s.th.uid = false → s.th.count ≠ 0 →
    let cl := s.th.core / 64
    (s.die (cl / 16)).drains = [] → (s.die s.th.die).drains = [] → cl % 16 < 12 →
    let lane (i l : Nat) : Prop := s.laneFor (cl * 64 + 32 + i) l (allocOf s.th.count)
    let slot (j : Nat) : Prop := s.slotFor (cl * 64 + j) (allocOf s.th.count)
    let moved (u : State) : Prop := u.th.g = s.th.g ∧ u.th.p = s.th.p ∧ u.th.run = .ready ∧ u.th.pc = s.th.rd na ∧
      u.th.readyAt = s.clk + 28 ∧ u.th.uid = s.th.uid ∧ ((∀ x ∈ Table.at s.l1 (clusterOf s.th.core) [], x.dirty = 0) → s.sameMem u)
    (s.th.isWave = false → s.th.isSuper = false →
      (24 < s.th.count → s.traps (.wenter a) .migOversize) ∧
      (s.th.count ≤ 24 →
        ((∀ i l, i < 6 → l < 64 → ¬lane i l) → s.waitsFor (.wenter a) .engine) ∧
        (n < 6 → (∃ l, l < 64 ∧ lane n l) → (∀ i l, i < n → l < 64 → ¬lane i l) → ∃ u l p, exec (.wenter a) s = .next u ∧ moved u ∧
          u.th.place = .wave (cl * 64 + 32 + n) l p ∧ l < 64 ∧ p < 32 ∧ u.th.entered = true))) ∧
    (s.th.isWave = true →
      (s.th.entered = false → s.traps (.wleave a) .illegal) ∧
      (s.th.entered = true → s.th.armed 1 = false →
        ((∀ j, j < 32 → ¬slot j) → s.waitsFor (.wleave a) .engine) ∧
        (n < 32 → slot n → (∀ j, j < n → ¬slot j) → ∃ u k, exec (.wleave a) s = .next u ∧ moved u ∧
          u.th.place = .swarm (cl * 64 + n) k ∧ k < 63 ∧ u.th.entered = false)))

/-! Weirs and the mover. -/

/-- R370 to R372. wexp adds an expectation to one source's PENDING, or raises the weir-overflow cause; a decrement takes it back, sets ERR
when it falls below zero or no source has the place, and flips PHASE when the last PENDING becomes zero. wwait returns when every PENDING
is zero or ERR is set and else parks; wpoll reads the three. -/
def Obligations.Weirs : Prop :=
  ∀ (s : State) (n z : BitVec 3) (a b d : Code) (na nb nd : Nat) (l : Loc), l.key % 64 = 0 → isStack l.key = true → l.win = 0 →
    homeHeld s s.th.die l.key = false → s.undone s.th.uid = false →
    let e := weirEntries s l.key
    weirOk e = true → s.th.atA 1 a na → checkAddr s (agentOf s.th 0) (s.th.rd2 na) 1 needRW false = .ok l →
    let ends (u : State) (ds : List Nat) (codes : List Code) (ovr : List Nat) : Prop :=
      s.th.frame u.th ds [] codes [] ovr ∧ u.th.run = .ready ∧ u.th.pc = s.th.pc + s.th.parcels 2
    (s.th.free [2] → s.th.at1 2 b nb → n.toNat < weirSources e →
      let v := (s.src s.th 2 nb).toNat
      let p := pendingOf (e[n.toNat]?.getD 0)
      (2 ^ 24 ≤ p + v → s.traps (.wexp n a b) .weirOverflow) ∧
      (p + v < 2 ^ 24 → ∃ u, exec (.wexp n a b) s = .next u ∧ ends u [] [a, b] [2] ∧ s.sameMemBut u l.key 64 ∧
        (weirEntries u l.key).map pendingOf = (e.map pendingOf).set n.toNat (p + v) ∧ weirPhase (weirEntries u l.key) = weirPhase e ∧
        weirErr (weirEntries u l.key) = weirErr e)) ∧
    ((s.th.isWave = false ∨ weirErr e = true) → (weirIdle e = true ∨ weirErr e = true) → s.loads (.wwait a z) 2 [] [a] (fun _ => True)) ∧
    (weirIdle e = false → weirErr e = false → s.waitsFor (.wwait a z) (.weir l.key (weirPhase e))) ∧
    (s.th.at1 0 d nd → (s.th.isWave = false ∨ weirErr e = true) → s.loads (.wpoll d a z) 2 [nd] [a, d] (fun u => u.gets s.th nd
      (BitVec.ofNat 32 ((weirIdle e).toNat + 2 * (weirPhase e).toNat + 4 * (weirErr e).toNat)))) ∧
    (∀ place m j, 0 < m → (e.take (weirSources e)).findIdx? (fun v => bits v 20 0 == place) = some j →
      let p := pendingOf (e[j]?.getD 0)
      ∃ u, exec (.weirDecrement l.key place m) s = .next u ∧ s.sameMemBut u l.key 64 ∧
        (p < m → weirErr (weirEntries u l.key) = true) ∧
        (m ≤ p → weirErr (weirEntries u l.key) = weirErr e ∧
          (weirEntries u l.key).map pendingOf = (e.map pendingOf).set j (p - m) ∧
          (weirIdle (weirEntries u l.key) = true → weirPhase (weirEntries u l.key) = !weirPhase e) ∧
          (weirIdle (weirEntries u l.key) = false → weirPhase (weirEntries u l.key) = weirPhase e)))

/-- R373, R156. mvop posts a command to its core's mover when the port and the queue have room: the words of its quad, the low half of the
last replaced by operation, report and scope.
Model's choices that it rests on: log 72. -/
def Says.MoverPosts : Prop :=
  ∀ (s : State) (a : Code) (p z : BitVec 3) (na : Nat), s.th.isWave = false → p ≠ 0 → z.toNat ≤ 4 → s.th.at4 1 a na →
    s.undone s.th.uid = false →
    let c := s.th.core
    let k := s.core c
    k.port = [] → k.mFull &&& 0x7000 = 0 → k.movers.length < 8 →
    ∀ (o : Nat) (i : Instr), (o, i) ∈ [(0, Instr.mvcopy a p z), (1, .mvcopy2 a p z), (2, .mvgath a p z), (3, .mvscat a p z),
        (4, .mvfill a p z), (5, .mvred a p z)] →
      ∃ u cmd, exec i s = .next u ∧ u = { s with th := u.th, cores := u.cores, agenda := u.agenda } ∧
        u.core c = { k with movers := k.movers ++ [cmd] } ∧ (∀ e, e ≠ c → u.core e = s.core e) ∧ cmd.poster.uid = s.th.uid ∧ cmd.k = 0 ∧
        (∀ j, j < 3 → cmd.words.extractLsb' (32 * j) 32 = s.th.rd (na + j)) ∧
        cmd.word = bits (s.th.rd (na + 3)).toNat 31 16 * 2 ^ 16 + z.toNat * 2 ^ 8 + p.toNat * 2 ^ 5 + o ∧
        (k.movers = [] → .moverCommandStart c ∈ u.agenda) ∧ s.th.frame u.th [] [] [a] [] [] ∧ u.th.run = .ready ∧
        u.th.pc = s.th.pc + s.th.parcels 2

/-- R375, R376, R378. The mover performs a copy's or a fill's elements in ascending order, here with source and destination at multiples of
64: each writes up to 64 bytes. The last one done, the command ends: its message goes to its mailbox and the next command starts.
Model's choices that it rests on: log 31. -/
def Says.MoverElements : Prop :=
  ∀ (s : State) (core : Nat) (c : MoverCmd) (rest : List MoverCmd) (bs : List Byte) (b : Nat), (s.core core).movers = c :: rest →
    c.ended = none → c.fault = none → c.block = some bs → c.base = some b →
    (∀ ld ls : Loc, c.dst % 64 = 0 → c.src % 64 = 0 → 64 * c.k < c.len → c.dst + c.len < 2 ^ 56 → c.src + c.len < 2 ^ 56 →
      b + c.k ≤ s.clk → (c.has c.ahead = true → s.clk < c.start + c.ahead) →
      let n := min 64 (c.len - 64 * c.k)
      let g := moverAgent core c.poster
      let at_ (a : Nat) (w : Need) (l : Loc) : Prop := checkAddr s g (BitVec.ofNat 64 a) 1 w false = .ok l ∧ memKey l.key ∧
        s.clearOf l.key n ∧ homeHeld s (coreDie core) l.key = false
      let done (u : State) : Prop := s.sameMemBut u ld.key n ∧ (u.core core).movers.map (fun x => x.k) = (c.k + 1) :: rest.map (fun x => x.k)
      at_ (c.dst + 64 * c.k) needW ld →
      (c.opc = 4 → c.code = 0 → ∃ u, exec (.moverCommandStart core) s = .next u ∧ done u ∧
        ∀ j, j < n → memRead u.mem (ld.key + j) = BitVec.ofNat 8 (c.src / 2 ^ (8 * (j % 8)))) ∧
      (c.opc = 0 → at_ (c.src + 64 * c.k) needR ls → ∃ u, exec (.moverCommandStart core) s = .next u ∧ done u ∧
        ∀ j, j < n → memRead u.mem (ld.key + j) = memRead s.mem (ls.key + j))) ∧
    (c.has c.k = false → c.report = 1 → c.poster.ofRecord = false → (s.core core).port = [] → ∀ e, moverMbox s c = some e →
      ∃ u, exec (.moverCommandComplete core) s = .next u ∧ s.sameMem u ∧ (u.core core).movers = rest ∧
        (s.clk + msgLatency core e / 2, .mailboxArrival e (BitVec.ofNat 128 (c.tag * 2 ^ 16 + c.k * 2 ^ 32)) (moverUnit core) true) ∈ u.timers ∧
        (rest ≠ [] → .moverCommandStart core ∈ u.agenda))

/-! Waves, quads and teams. -/

/-- R167, R381 to R383. A cross-lane instruction of a static wave waits until every live thread of the wave waits at one. When the last
arrives at the same PC as all the others, each member takes its result from the members' values: the value at another lane, a vote, a
ballot, or the integer sum or minimum. -/
def Says.CrossLane : Prop :=
  ∀ (s : State) (i : Instr) (op : CrossOp) (d a b : Code) (x y : BitVec 4) (nd na nb : Thread → Nat),
    (i, op, d, a, b) ∈ [(Instr.shfl d a b, CrossOp.shfl, d, a, b), (.shflx d a b, .shflx, d, a, b), (.bcast d a b, .bcast, d, a, b),
      (.ballot d y, .ballot, d, y.setWidth 7, 0), (.lsum d a 0, .lsum 0, d, a, 0), (.lmin d a 0, .lmin 0, d, a, 0),
      (.lmin d a 1, .lmin 1, d, a, 0), (.voteAny x y, .voteAny, x.setWidth 7 <<< 3, y.setWidth 7, 0),
      (.voteAll x y, .voteAll, x.setWidth 7 <<< 3, y.setWidth 7, 0)] →
    s.th.isWave = true → s.th.entered = false → s.th.spawner = none → s.th.live = true → s.th.armed 1 = false → s.th.armed 2 = false →
    let mate : Thread → Bool := waveMember s.th.grp s.th.role (s.th.tid / 64)
    let set := s.th :: s.threads.filter mate
    ((∃ t ∈ s.threads, mate t = true ∧ waitsCross t = false) → s.waitsFor i (.cross op d a b)) ∧
    ((∀ t ∈ s.threads, mate t = true → t.run = .waiting (.cross op d a b) ∧ t.pc = s.th.pc ∧ t.rx = false ∧ t.armed 1 = false ∧
        t.armed 2 = false) → s.th.rx = false →
      ((s.th :: s.threads).map (fun t => t.uid)).Nodup → (set.map (fun t => t.tid)).Nodup →
      (op ≠ .voteAny → op ≠ .voteAll → op ≠ .ballot → ∀ t ∈ set, t.at1 0 d (nd t) ∧ t.at1 1 a (na t)) →
      (op = .shfl ∨ op = .shflx ∨ op = .bcast → ∀ t ∈ set, t.at1 2 b (nb t)) → (op = .ballot → ∀ t ∈ set, t.at2 0 d (nd t)) →
      let val (lane : Nat) (own : Word) : Word := ((set.find? (fun t => t.tid % 64 == lane)).map (fun t => t.rd (na t))).getD own
      let low := set.foldl (fun m t => if t.tid < m.tid then t else m) s.th
      let bit (t : Thread) : Bool := t.rdP y.toNat
      ∃ u, exec i s = .next u ∧ ∀ t ∈ set, ∃ v, u.thread? t.uid = some v ∧ v.run = .ready ∧ v.pc = t.pc + 2 ∧
        (op = .shfl → v.gets t (nd t) (val ((t.rd (nb t)).toNat % 64) (t.rd (na t)))) ∧
        (op = .shflx → v.gets t (nd t) (val (t.tid % 64 ^^^ (t.rd (nb t)).toNat % 64) (t.rd (na t)))) ∧
        (op = .bcast → v.gets t (nd t) (val ((low.rd (nb low)).toNat % 64) (t.rd (na t)))) ∧
        (op = .ballot → ∀ m : DWord, (∀ k, m.getLsbD k = set.any (fun w => w.tid % 64 == k && bit w)) → v.gets2 t (nd t) m) ∧
        (op = .voteAny → x ≠ 0 → v.rdP x.toNat = set.any bit) ∧ (op = .voteAll → x ≠ 0 → v.rdP x.toNat = set.all bit) ∧
        (op = .lsum 0 → v.gets t (nd t) (set.map (fun w => w.rd (na w))).sum) ∧
        (op = .lmin 0 → ∃ w ∈ set, v.gets t (nd t) (w.rd (na w)) ∧ ∀ z ∈ set, (w.rd (na w)).toInt ≤ (z.rd (na z)).toInt) ∧
        (op = .lmin 1 → ∃ w ∈ set, v.gets t (nd t) (w.rd (na w)) ∧ ∀ z ∈ set, (w.rd (na w)).toNat ≤ (z.rd (na z)).toNat))

/-- R396, R397. ddx and ddy wait until every live thread of their quad waits; a thread whose neighbour along the axis is missing gets +0, and
when all four come to the same PC each gets the difference of its row's, or column's, values. -/
def Says.Derivatives : Prop :=
  ∀ (s : State) (d a : Code) (nd na : Thread → Nat), s.th.isWave = true → s.th.entered = false → s.th.spawner = none →
    s.th.live = true → s.th.rx = false → s.th.armed 1 = false →
    ((s.th :: s.threads).map (fun t => t.uid)).Nodup → s.th.at1 1 a (na s.th) → s.th.at1 0 d (nd s.th) →
    let mate : Thread → Bool := quadMember s.th.grp s.th.role (s.th.tid / 64) (s.th.tid % 64 / 4)
    ∀ (i : Instr) (op : QuadOp) (step : Nat), (i, op, step) ∈ [(Instr.ddx d a, QuadOp.ddx, 1), (.ddy d a, .ddy, 2)] →
    ∃ w : Wait, (∃ b, w = .quad op d a b) ∧
    ((∃ t ∈ s.threads, mate t = true ∧ waitsQuad t = false) → s.waitsFor i w) ∧
    ((∀ t ∈ s.threads, mate t = false) →
      ∃ u, exec i s = .next u ∧ s.th.frame u.th [nd s.th] [] [a, d] [] [] ∧ u.th.run = .ready ∧ u.th.pc = s.th.pc + 2 ∧
        u.th.gets s.th (nd s.th) 0) ∧
    (∀ t1 t2 t3 : Thread, s.threads.filter mate = [t1, t2, t3] →
      (∀ t ∈ [t1, t2, t3], t.run = .waiting w ∧ t.pc = s.th.pc ∧ t.rx = false ∧ t.armed 1 = false ∧ t.at1 1 a (na t) ∧ t.at1 0 d (nd t) ∧
        t.fxen = 0 ∧ t.compat = s.th.compat) → s.th.fxen = 0 →
      ([s.th, t1, t2, t3].map (fun t => t.tid)).Nodup →
      ∃ u, exec i s = .next u ∧ ∀ t ∈ [s.th, t1, t2, t3], ∃ v hi lo, u.thread? t.uid = some v ∧ v.run = .ready ∧ v.pc = t.pc + 2 ∧
        hi ∈ [s.th, t1, t2, t3] ∧ lo ∈ [s.th, t1, t2, t3] ∧ hi.tid = lo.tid + step ∧ (lo.tid / step) % 2 = 0 ∧
        (lo.tid = t.tid ∨ hi.tid = t.tid) ∧
        v.gets t (nd t) (BitVec.ofNat 32 (faddR s.th.compat (roundMode s.th.compat 0) true (hi.rd (na hi)) (lo.rd (na lo))).1))

/-- R386, R389 to R393. A team's instruction waits for every live thread of the team. mrdy arms it; an mma of an armed team is issued into
the array of its engine, which then holds its registers and its B bytes until it completes; an mma of a team that is not armed is the
illegal-instruction trap; mwait goes on once the array holds none of the team's, and frees what they held. -/
def Says.Teams : Prop :=
  ∀ (s : State) (d a b : Code) (k : BitVec 1) (nd na nb : Nat) (x : Group), s.th.isWave = true → s.th.entered = false →
    s.th.spawner = none → s.th.live = true → s.group? s.th.grp = some x →
    let key := s.th.role * 64 + s.th.tid / 256
    let mate : Thread → Bool := teamMember s.th.grp s.th.role (s.th.tid / 256)
    let c := s.th.core
    let armed (u : State) : Bool := ((u.group? s.th.grp).map (fun g => (g.team key).armed)).getD false
    let minors : List (Nat × Instr) := [(2, .mmaBf16 d a b k), (3, .mmaF16 d a b k), (4, .mmaF8E4m3E4m3 d a b k),
      (5, .mmaF8E4m3E5m2 d a b k), (6, .mmaF8E5m2E4m3 d a b k), (7, .mmaF8E5m2E5m2 d a b k), (8, .mmaF8S8 d a b k),
      (9, .mmaQ4 d a b k), (10, .mmaMx4 d a b k), (11, .mmaTs8W8 d a b k), (12, .mmaTs8W4 d a b k)]
    ((∃ t ∈ s.threads, mate t = true ∧ waitsTeam t = false) → s.undone s.th.uid = false →
      s.waitsFor .mrdy (.team .mrdy 0 0 0) ∧ s.waitsFor .mwait (.team .mwait 0 0 0)) ∧
    ((∀ t ∈ s.threads, mate t = false) → (∀ t ∈ s.threads, t.uid ≠ s.th.uid) →
      let goes (u : State) : Prop := u.th.run = .ready ∧ u.th.pc = s.th.pc + s.th.parcels 2 ∧ u.th.g = s.th.g ∧ s.sameMem u
      (s.undone s.th.uid = false → ∃ u, exec .mrdy s = .next u ∧ goes u ∧ armed u = true) ∧
      ((∀ j ∈ (s.core c).mmaQ, j.team ≠ (s.th.grp, key)) → ∃ u, exec .mwait s = .next u ∧ goes u ∧ u.th.busy = []) ∧
      (∀ minor i, (minor, i) ∈ minors → s.th.atK 1 a (aRegs minor) na → s.th.atA 2 b nb →
        resolve s.th ⟨0, d, 16, 4⟩ = .ok nd → (s.core c).mmaQ.length < 4 →
        let o := (s.th.rd2 nb).toNat % 2 ^ 24
        (armed s = false → ∃ u f, exec i s = .next u ∧ u.th.run = .faulted f ∧ f.cause = .illegal ∧ u.th.pc = s.th.pc ∧ u.th.g = s.th.g) ∧
        (armed s = true → (x.team key).latch = none → (s.th.rd2 nb).toNat / 2 ^ 24 = 0xF100000000 → o + bExtent minor ≤ 0x40000 → o % 256 = 0 →
          ∃ u job, exec i s = .next u ∧ goes u ∧ armed u = false ∧ (u.core c).mmaQ = (s.core c).mmaQ ++ [job] ∧ job.minor = minor ∧
            job.b = readList s.mem (localKey c o) (bExtent minor) ∧ job.who = [(s.th.uid, s.th.tid % 256, nd)] ∧
            (job.doneAt, .mmaComplete c) ∈ u.timers ∧ (∀ j, j < 16 → nd + j ∈ u.th.busy) ∧
            ⟨localKey c o, bExtent minor, false, (s.th.grp, key)⟩ ∈ u.regions)))

/-- R390, R387, R393. When the oldest matrix instruction of an array completes, each of its live threads gets, in its D registers, the
elements of its row and columns as the form's arithmetic gives them, for the signed-byte forms D plus the sum of the 32 products modulo
2^32; no other thread's registers change. -/
def Says.MatrixResults : Prop :=
  ∀ (s : State) (c : Nat) (j : MmaJob) (r : List MmaJob) (m d : Nat), (s.core c).mmaQ = j :: r → j.doneAt ≤ s.clk → j.free = [] →
    (∀ t ∈ s.th :: s.threads, waitsTeam t = false) → j.who = [(s.th.uid, m, d)] → s.th.live = true → d + 16 ≤ 128 →
    ∃ u, exec (.mmaComplete c) s = .next u ∧ (u.core c).mmaQ = r ∧ s.sameMem u ∧
      (∀ k, k < d ∨ d + 16 ≤ k → u.th.g[k]? = s.th.g[k]?) ∧ u.th.pc = s.th.pc ∧ u.th.p = s.th.p ∧
      (∀ t ∈ u.threads, t.uid ≠ s.th.uid → t ∈ s.threads) ∧
      (∀ x, x < 16 → u.th.g[d + x]? =
        some (mmaElement j.minor j.compat j.a j.b (m % 64) (16 * (m / 64) + x) (s.th.g[d + x]?.getD 0))) ∧
      (j.minor = 8 ∨ j.minor = 11 → ∀ x, x < 16 → u.th.g[d + x]? = some (BitVec.ofInt 32 ((s.th.g[d + x]?.getD 0).toInt +
        ((List.range 32).map (fun k => ((((j.a[m % 64 + 64 * (k / 8)]?.getD [])[k % 8 / 4]?.getD 0).extractLsb' (8 * (k % 4)) 8).toInt) *
          (j.b[64 * k + 16 * (m / 64) + x]?.getD 0).toInt)).sum)))

/-! Textures, pixels and primitives. -/

/-- R399, R137, R134. fetch brings one texel into a quad: zero beyond the level or the levels; the four words as they stand in a format of
four binary32 components. -/
def Says.TextureFetch : Prop :=
  ∀ (s s1 s2 : State) (d a b : Code) (na nb nd v w lat : Nat), s.th.isWave = true → s.th.atA 1 a na → s.th.atL 2 b 3 nb → s.th.at4 0 d nd →
    readSampler s (s.th.rd2 na).toNat = (s1, .ok v) →
    let i := (s.th.rd nb).toInt
    let j := (s.th.rd (nb + 1)).toInt
    let l := (s.th.rd (nb + 2)).toNat
    let ends (r : Nat → Word) : Prop := ∃ u, exec (.fetch d a b) s = .next u ∧ s.th.frame u.th (List.range' nd 4) [] [a, b, d] [] [] ∧
      u.th.run = .ready ∧ u.th.pc = s.th.pc + s.th.parcels 2 ∧ ∀ k, k < 4 → u.th.gets s.th (nd + k) (r k)
    ((bits v 207 204 < l ∨ i < 0 ∨ j < 0 ∨ (levelW v l : Int) ≤ i ∨ (levelH v l : Int) ≤ j) → ends (fun _ => 0)) ∧
    (l ≤ bits v 207 204 → 0 ≤ i → 0 ≤ j → i < levelW v l → j < levelH v l → bits v 199 192 = 6 →
      texRead s1 (levelBase v l + (j.toNat * levelW v l + i.toNat) * 16) 16 = (s2, .ok (w, lat)) →
      ends (fun k => BitVec.ofNat 32 (w / 2 ^ (32 * k))))

/-- R398, R138, R139. smpl, smpg and smp complete with four components when their descriptor and texels can be read. Under nearest
magnification, at a level of detail of zero or less with one probe, each component is that of the texel at the floor of the scaled
coordinates, rounded to binary32. A smp of a thread alone in its quad has derivatives of zero. -/
def Says.TextureSampling : Prop :=
  ∀ (s s1 s2 : State) (d a b : Code) (na nb nd v : Nat) (x : TexAcc), s.th.isWave = true → s.th.atA 1 a na → s.th.at4 0 d nd →
    s.th.rx = false →
    let uv := (coordOf (s.th.rd nb), coordOf (s.th.rd (nb + 1)))
    let ends (i : Instr) (s0 : State) (lod : Int × Nat × Rat × Rat) : Prop :=
      readSampler s0 (s.th.rd2 na).toNat = (s1, .ok v) →
      addLevels v (allTaps v uv.1 uv.2 lod.1 lod.2.1 lod.2.2.1 lod.2.2.2) s1 TexAcc.zero = (s2, .ok x) →
      ∃ u, exec i s = .next u ∧ s.th.frame u.th (List.range' nd 4) [] [a, b, d] [] [] ∧ u.th.run = .ready ∧
        u.th.pc = s.th.pc + s.th.parcels 2 ∧
        (lod.1 ≤ 0 → lod.2.1 = 1 → v.testBit 213 = false → bits v 217 216 = 2 → bits v 219 218 = 2 → ∀ t lat,
          texRead s1 (bits v 63 0 + ((max 0 (min (floorRat (uv.2 * (levelH v 0 : Rat))) (levelH v 0 - 1))).toNat * levelW v 0 +
            (max 0 (min (floorRat (uv.1 * (levelW v 0 : Rat))) (levelW v 0 - 1))).toNat) * texelBytes v) (texelBytes v) = (s2, .ok (t, lat)) →
          ∀ k q r, k < 4 → ((colourIn (bits v 199 192) t)[k]?).bind f32Val = some q → s.th.busy = [] → u.th.g[nd + k]? = some r → f32Rounds 0 q r)
    (s.th.atL 2 b 3 nb → ends (.smpl d a b) s (givenLod v (s.th.rd (nb + 2)), 1, 0, 0)) ∧
    (s.th.atL 2 b 6 nb → ends (.smpg d a b) s (lodOf v (coordOf (s.th.rd (nb + 2))) (coordOf (s.th.rd (nb + 3))) (coordOf (s.th.rd (nb + 4)))
      (coordOf (s.th.rd (nb + 5))))) ∧
    (s.th.atL 2 b 2 nb → s.th.entered = false → s.th.spawner = none → s.th.live = true → (∀ t ∈ s.threads, t.uid ≠ s.th.uid) →
      (∀ t ∈ s.threads, quadMember s.th.grp s.th.role (s.th.tid / 64) (s.th.tid % 64 / 4) t = false) →
      ends (.smp d a b) (s.put (s.th.await s.clk (.quad .smp d a b) 0 [] 2)) (lodOf v 0 0 0 0))

/-- R400, R402. interp gives a pixel thread an attribute of its primitive, +0 beyond the record's attributes, and a value that the three
vertices share everywhere on it; pexp captures a quad and a mask once. Elsewhere both are the illegal-instruction trap. -/
def Says.PixelInstructions : Prop :=
  ∀ (s : State) (d a b : Code) (na nb nd : Nat), s.th.isWave = true →
    (s.th.free [1, 2] → s.th.at1 1 a na → s.th.at1 2 b nb → s.th.at1 0 d nd →
      (s.th.pixel = none → s.traps (.interp d a b) .illegal) ∧
      (∀ x p, s.th.pixel = some x → (s.rast s.th.die).prims.find? (fun p => p.ord == x.ord && p.idx == x.prim) = some p →
        let k := (s.src s.th 1 na).toNat % 32
        ∃ w, s.gives3 (.interp d a b) d a b nd w ∧ (p.nattr ≤ k → w = 0) ∧
          ∀ f, k < p.nattr → (∀ v, v < 3 → f32Val (p.attrs[p.nattr * v + k]?.getD 0) = some f) → p.verts.length = 3 →
            (∀ v ∈ p.verts, (f32Val v.2.2.2).isSome = true) → f32Nan w ∨ f32Rounds 0 f w)) ∧
    (s.th.free [2] → s.th.at4 1 a na → s.th.at1 2 b nb →
      ((s.th.pixel = none ∨ ∃ p, s.th.pixel = some p ∧ p.exported = true) → s.traps (.pexp a b) .illegal) ∧
      (∀ p, s.th.pixel = some p → p.exported = false → s.th.die < 24 → ∃ u, exec (.pexp a b) s = .next u ∧ s.sameMem u ∧
        u.th.pixel = some { p with exported := true } ∧ s.th.frame u.th [] [] [a, b] [] [2] ∧ u.th.run = .ready ∧
        u.th.pc = s.th.pc + s.th.parcels 2 ∧ .exportApply s.th.die ∈ u.agenda ∧
        (u.rast s.th.die).exports = (s.rast s.th.die).exports.map (fun e =>
          if e.thread = s.th.uid then { e with value := some (s.th.rd4 na, (s.src s.th 2 nb).setWidth 4) } else e)))

/-- R401, R121. pemit hands setup the record at its address for an index of the die's slice that has not been emitted, and pemit.cull the
index alone; an index outside the slice or emitted before is the window fault, and one 1,024 or more ahead of setup waits. -/
def Says.PrimitiveEmission : Prop :=
  ∀ (s s1 : State) (a b : Code) (na nb : Nat) (dr : Draw) (sl : Slice), s.th.isWave = true → s.th.prim = true → s.th.free [1] →
    s.th.at1 1 a na → s.drawOf s.th = some dr → (s.rast s.th.die).slices.find? (fun x => x.ord == dr.ord) = some sl → s.th.die < 24 →
    let i := (s.src s.th 1 na).toNat
    let used : Prop := ∃ e ∈ (s.rast s.th.die).emissions, e.ord = dr.ord ∧ e.idx = i
    let ends (u : State) (codes : List Code) (ws : Option (List Word)) : Prop :=
      s.th.frame u.th [] [] codes [] [1] ∧ u.th.run = .ready ∧ u.th.pc = s.th.pc + s.th.parcels 2 ∧ .primitiveSetup s.th.die ∈ u.agenda ∧
        (u.rast s.th.die).emissions = (s.rast s.th.die).emissions ++ [⟨dr.ord, i, ws⟩]
    ((i < sl.next ∨ sl.stop ≤ i ∨ used) → s.traps (.pemitCull a) .window) ∧
    (sl.next + 1024 ≤ i → i < sl.stop → ¬used → s.waitsFor (.pemitCull a) (.emit i)) ∧
    (sl.next ≤ i → i < sl.stop → i < sl.next + 1024 → ¬used →
      (∃ u, exec (.pemitCull a) s = .next u ∧ ends u [a] none) ∧
      (∀ ws lat, s.th.atA 2 b nb → (s.th.rd2 nb).toNat % 16 = 0 → topByte (s.th.rd2 nb).toNat = 0 →
        readWords (12 + 3 * dr.nattr) s (s.th.rd2 nb).toNat = (s1, .ok (ws, lat)) → ws.length = 12 + 3 * dr.nattr →
        ∃ u, exec (.pemit a b) s = .next u ∧ ends u [a, b] (some ws)))

/-- R411, R58, R59. launch posts the 16 words at its address to the first empty slot of an enabled stream and returns the slot's number; a
stream that is full or not enabled gives a result with bit 31 set, and a stream number above 63 the window fault. -/
def Obligations.LaunchPosts : Prop :=
  ∀ (s : State) (d a b : Code) (na nb nd : Nat) (l : Loc) (q : Part), s.th.free [2] → s.th.atA 1 a na → s.th.at1 2 b nb → s.th.at1 0 d nd →
    s.th.isWave = false → s.part? s.th.part = some q →
    let n := (s.src s.th 2 nb).toNat
    let x := q.stream n
    (64 ≤ n → s.traps (.launch d a b) .window) ∧
    (n < 64 → checkAddr s (agentOf s.th 0) (s.th.rd2 na) 64 needR false = .ok l → (l.win = 0 ∨ l.win = 1 ∨ l.win = 3) →
      s.undone s.th.uid = false → homeHeld s s.th.die l.key = false → memKey l.key → s.clearOf l.key 64 →
      broughtImage s = none →
      let ends (u : State) (r : Word) : Prop := exec (.launch d a b) s = .next u ∧ s.th.frame u.th [nd] [] [a, b, d] [] [2] ∧
        u.th.gets s.th nd r ∧ u.th.run = .ready ∧ u.th.pc = s.th.pc + s.th.parcels 2
      (x.en = false → ∃ u, ends u 0x80000002 ∧ s.sameMem u) ∧
      (x.en = true → freeSlot x = none → ∃ u, ends u 0x80000001 ∧ s.sameMem u) ∧
      (∀ k, x.en = true → freeSlot x = some k → ∃ u y, ends u (BitVec.ofNat 32 k) ∧ .recordAccept s.th.part n ∈ u.agenda ∧
        u.part? s.th.part = some y ∧ ∀ j, j < 16 → Table.get (y.stream n).words (16 * k + j) = some (memWord s.mem (l.key + 4 * j))))

/-! Streams, records and the fault queue. -/

/-- A partition with its counter home up, whose streams other than n hold no record and no completion, stream n posting to no host
address. -/
def Says.quiet (s : State) (p n : Nat) (q : Part) : Prop :=
  s.part? p = some q ∧ q.running = true ∧ s.homeUp q = true ∧ (q.streams.map Prod.fst).Nodup ∧ (q.stream n).cqhost = 0 ∧
    ∀ e ∈ q.streams, e.1 ≠ n → e.2.recs = [] ∧ e.2.held = []

/-- The event i completes the one record of stream n, in this slot and with these words, with a status and a detail: its completion entry
is written in order, its slot is emptied, and the stream holds no record. -/
def Says.retires (s : State) (p n : Nat) (q : Part) (i : Instr) (slot : Nat) (r : Rec) (status detail : Nat) : Prop :=
  ∃ u y e, exec i s = .next u ∧ u.part? p = some y ∧
    (y.stream n).done = (q.stream n).done + 1 ∧ (y.stream n).recs = [] ∧ (y.stream n).held = [] ∧
    (∀ j, j / 16 = slot → Table.get (y.stream n).words j = none) ∧
    (∀ j, j / 16 ≠ slot → Table.get (y.stream n).words j = Table.get (q.stream n).words j) ∧
    Table.get (y.stream n).cq ((q.stream n).done.toNat % 256) = some e ∧
    bits e.toNat 15 0 = bits (r.word 0) 31 16 ∧ bits e.toNat 23 16 = slot ∧ e.getLsbD 30 = r.rerun ∧
    bits e.toNat 31 31 = ((q.stream n).done.toNat / 256 + 1) % 2 ∧ bits e.toNat 39 32 = status ∧ bits e.toNat 63 40 = detail ∧
    bits e.toNat 127 64 = s.clk % 2 ^ 64

/-- R58, R64, R75. Within the mirroring budget, a word that the host or MIRROR writes to an empty word of a record slot fills it in every live copy of the stream, and its
record is looked at; a write of a word that is full is discarded with a HOSTERR record that names the stream, the slot and the word. -/
def Says.StreamWrites : Prop :=
  ∀ (s : State) (p n port off : Nat) (v : Word) (q : Part), s.part? p = some q →
    off % 4 = 0 → off + 4 ≤ 0x4000 → n < 64 →
    let budget (src : Nat) (more : List (Nat × Nat × Nat)) : Prop := (spend s (mirrorBudgets s p n src off 4 ++ more)).isSome = true
    let goes (i : Instr) : Prop :=
      (Table.get (q.stream n).words (off / 4) = none →
        ∃ u y, exec i s = .next u ∧ u.part? p = some y ∧ Table.get (y.stream n).words (off / 4) = some v ∧
          (∀ k, k ≠ off / 4 → Table.get (y.stream n).words k = Table.get (q.stream n).words k) ∧
          (∀ d ∈ [(q.stream n).home, (q.stream n).mirror],
            memWord u.mem (d * 2 ^ 46 + 0x01E00000 + 0x8000 * n + off) = v ∧
              isFull u.full (d * 2 ^ 46 + 0x01E00000 + 0x8000 * n + off) = true) ∧
          .recordAccept p n ∈ u.agenda) ∧
      (∀ w, Table.get (q.stream n).words (off / 4) = some w → s.homeUp q = true → q.fqTail - q.fqHead ≠ 4096 →
        ∃ u y, exec i s = .next u ∧ u.part? p = some y ∧ y.streams = q.streams ∧ y.fqTail = q.fqTail + 1 ∧
          let k := q.home * 2 ^ 46 + 0x01D00000 + 64 * (q.fqTail.toNat % 4096)
          memRead u.mem k = 6 ∧ memRead u.mem (k + 24) = BitVec.ofNat 8 n ∧ memRead u.mem (k + 25) = BitVec.ofNat 8 (off / 64) ∧
            memRead u.mem (k + 26) = BitVec.ofNat 8 (off / 4 % 16) ∧ memRead u.mem (k + 27) = 0)
    (budget (ioOfPart s p) [] → goes (.mirrorWrite p n off (leBytes 4 v.toNat))) ∧
    (hostReaches s p port = true → s.portHeld port = none → budget (56 + port / 2) [(portKey port, 0, 0)] → goes (.hostStreamWrite p port (0x8000 * n + off) (leBytes 4 v.toNat)))

/-- R59, R62, R63, R66, R93, R94. A record without a launch at HEAD is accepted, within the mirroring budget, and completes at once with status 0; a cancel completes a
record that has not started with status 4; a record whose work has ended completes with status 0, with status 3 and its fault's detail, or
with status 2 and the socket of the die lost; a completion that waits for HOSTHEAD is written when HOSTHEAD lets it. -/
def Obligations.RecordCourse : Prop :=
  ∀ (s : State) (p n : Nat) (q : Part), Says.quiet s p n q →
    let x := q.stream n
    (∀ r, r = (⟨x.head, x.slotWords x.head, x.nacc, .accepted, none, none, 0, 0, 0, [], none, none, false, none, none, none, none⟩ : Rec) →
      (spend s (mirrorBudgets s p n x.home (64 * x.head) 1)).isSome = true →
      x.en = true → (s.die x.home).inReset = false → x.recs = [] → x.held = [] → x.mayWrite = true → x.head < 256 →
      (∀ j, j < 16 → x.isFull (16 * x.head + j) = true) → x.isFull (16 * ((x.head + 1) % 256) + 15) = false →
      bits (r.word 0) 15 0 = 2 → r.word 1 = 0 →
      Says.retires s p n q (.recordAccept p n) x.head r 0 0) ∧
    (∀ r, x.recs = [r] → x.held = [] → x.mayWrite = true → r.status = none → r.ord = none → (r.word 0).testBit 7 = false → r.slot < 256 →
      (r.state = .accepted ∨ r.state = .waiting ∨ r.state = .ready → Says.retires s p n q (.streamCancel p n) r.slot r 4 0) ∧
      (r.state = .ending → workEnded s p n r.slot r = true →
        (r.lost = none → r.faulted = none → Says.retires s p n q (.recordComplete p n r.slot) r.slot r 0 0) ∧
        (∀ d, r.lost = none → r.faulted = some d → d < 2 ^ 24 → Says.retires s p n q (.recordComplete p n r.slot) r.slot r 3 d) ∧
        (∀ d, r.lost = some d → d < 2 ^ 24 → Says.retires s p n q (.recordComplete p n r.slot) r.slot r 2 d))) ∧
    (∀ r st d v, x.recs = [r] → x.held = [(r.slot, st, d)] → r.status.isSome = true → r.ord = none → (r.word 0).testBit 7 = false →
      r.slot < 256 → st < 256 → d < 2 ^ 24 → x.mayWrite = false → ({ x with hosthead := v } : Stream).mayWrite = true →
      Says.retires s p n q (.hostheadWrite p n v) r.slot r st d) ∧
    (x.recs = [] → x.held = [] → ∀ v, ∃ u y, exec (.hostheadWrite p n v) s = .next u ∧ s.sameMem u ∧ u.part? p = some y ∧
      y.stream n = { x with hosthead := v })

/-- R69. FQHEAD is written; a record that waited for space is then written at FQTAIL with its sequence number. -/
def Says.FaultQueueSpace : Prop :=
  ∀ (s : State) (p : Nat) (v : Word) (q : Part), s.part? p = some q → q.running = true → s.homeUp q = true → q.fqDropped = 0 →
    q.fqTail - v ≠ 4096 →
    (q.fqWait = [] → ∃ u y, exec (.fqheadWrite p v) s = .next u ∧ s.sameMem u ∧ u.part? p = some y ∧ y = { q with fqHead := v }) ∧
    (∀ w, q.fqWait = [w] → w.bytes.length = 64 → ∃ u y, exec (.fqheadWrite p v) s = .next u ∧ u.part? p = some y ∧ y.fqHead = v ∧
      y.fqTail = q.fqTail + 1 ∧ y.fqSeq = q.fqSeq + 1 ∧ y.fqWait = [] ∧
      let k := q.home * 2 ^ 46 + 0x01D00000 + 64 * (q.fqTail.toNat % 4096)
      (∀ (j : Nat) (b : Byte), j < 16 ∨ 24 ≤ j → w.bytes[j]? = some b → memRead u.mem (k + j) = b) ∧
        memWord u.mem (k + 16) = BitVec.ofNat 32 q.fqSeq)

/-- R264, R270, R273. A translation that a die was asked for enters its cache once it fits and the refill budget allows it, and the placer looks again. An instruction at
or past the bound of its object raises the fetch-bound cause at its address. A legacy trap whose operands resolve parks its swarm thread with
cause 15, its record giving the word's address, the sub-cause and the operands' values.
Model's choices that it rests on: log 19. -/
def Obligations.TranslatedCode : Prop :=
  ∀ (s : State),
    (∀ (die part va : Nat) (c : TCode), die < 24 →
      (s.die die).tpend.find? (fun x => x.part == part && x.codeVA == va) = some c →
      cacheBytes ((s.die die).tcache) + 2 * c.parcels.length ≤ 2 ^ 28 →
      (spend s [(2 ^ 27 + die, min c.cycles refillAllow, refillAllow)]).isSome = true →
      ∃ u, exec (.cuiqueTranslation die part va) s = .next u ∧ s.sameMem u ∧ (u.die die).tcache = (s.die die).tcache ++ [c] ∧
        c ∉ (u.die die).tpend ∧ (∀ e, e ≠ die → u.die e = s.die e) ∧ ∃ k, (k, .placementWindow) ∈ u.timers) ∧
    s.traps .fetchBound .fetchBound ∧
    (∀ (sub va : Nat) (d a b : BitVec 8) (lit : Word) (v : Word × Word × Word) (q : Part), s.th.isWave = false →
      legacyValues s.th d a b = .ok v → s.part? s.th.part = some q → s.homeUp q = true → q.fqWait = [] → q.fqTail - q.fqHead ≠ 4096 →
      q.mirror = none →
      ∃ u f y, exec (.legacyTrap sub va d a b lit) s = .next u ∧ u.th.run = .faulted f ∧ f.cause = .legacy ∧ u.th.pc = s.th.pc ∧
        u.th.g = s.th.g ∧ u.th.p = s.th.p ∧ u.part? s.th.part = some y ∧ y.fqTail = q.fqTail + 1 ∧
        let k := q.home * 2 ^ 46 + 0x01D00000 + 64 * (q.fqTail.toNat % 4096)
        memRead u.mem k = 1 ∧ memRead u.mem (k + 1) = 15 ∧ memWord u.mem (k + 24) = BitVec.ofNat 32 va ∧
          memRead u.mem (k + 36) = BitVec.ofNat 8 sub ∧ memWord u.mem (k + 48) = v.1 ∧ memWord u.mem (k + 52) = v.2.1 ∧
          memWord u.mem (k + 56) = v.2.2 ∧ memWord u.mem (k + 60) = lit)

/-! Placement and pre-emption. -/

/-- The partition q is the only one, with one present die and one stream that holds one record, and no reservation or quad stands on any die
of it. -/
def Says.offersOne (s : State) (q : Part) (die n : Nat) (x : Stream) (r : Rec) : Prop :=
  s.parts = [q] ∧ q.running = true ∧ q.streams = [(n, x)] ∧ x.recs = [r] ∧ x.held = [] ∧ n < 64 ∧ x.cls < 4 ∧ die < 24 ∧
    s.presentDies q.id = [die] ∧ (∀ d ∈ q.dies, (s.die d).drains = [] ∧ (s.rast d).quads = []) ∧ r.ord = none ∧ r.ahead = none ∧
    r.fail = none ∧ r.status = none

/-- R95 to R99, R106. At a placement window the record's next gang goes where it fits: a resident gang at the lowest cluster, its threads
ready 64 clk later with the argument and their number in their first registers; where it does not fit, the record counts from then on as
offered. A gang offered for 20,000 clk receives a drain reservation. A stalled grid whose eviction lets its waiting gang fit is evicted.
Model's choices that it rests on: log 39. -/
def Says.GangsPlaced : Prop :=
  ∀ (s : State) (q : Part) (die n : Nat) (x : Stream) (r : Rec), Says.offersOne s q die n x r →
    (∀ o, (∀ g ∈ s.gangs, g.status = .resident) → bits (r.word 0) 3 0 = 1 → (r.word 0).testBit 5 = false →
      r.state = .ready ∨ r.state = .running → r.nextGang < r.gangs → r.obj = some o → o.tkey = 0 →
      (∀ f oc, fitGang s r die (closedTo s die q.id n r.slot (.fresh r.nextGang)) [] (occupied s) = some (f, oc) → f.bad = false →
        ∃ u g ts y, exec .placementWindow s = .next u ∧ s.sameMem u ∧ u.gangs = s.gangs ++ [g] ∧ g.index = r.nextGang ∧ g.die = die ∧
          g.cluster = f.k ∧ g.size = f.groups.length ∧ g.part = q.id ∧ g.stream = n ∧ g.slot = r.slot ∧ g.status = .resident ∧
          u.th = s.th ∧ u.threads = s.threads ++ ts ∧
          (∀ t ∈ ts, t.gang = g.id ∧ t.part = q.id ∧ t.readyAt = s.clk + 64 ∧ t.g[0]? = some (r.args.setWidth 32) ∧
            t.g[1]? = some (r.args.extractLsb' 32 32) ∧ t.g[2]? = some (BitVec.ofNat 32 t.tid)) ∧
          u.rec? q.id n r.slot = some y ∧ y.state = .running ∧ y.nextGang = r.nextGang + 1 ∧ y.words = r.words) ∧
      (fitGang s r die (closedTo s die q.id n r.slot (.fresh r.nextGang)) [] (occupied s) = none → r.offered = [] →
        ∃ u y, exec .placementWindow s = .next u ∧ s.sameMem u ∧ u.gangs = s.gangs ∧ u.threads = s.threads ∧
          u.rec? q.id n r.slot = some y ∧ y = { r with offered := [(.fresh r.nextGang, s.clk)] } ∧
          (s.clk + 20000, .drainReservation q.id n r.slot) ∈ u.timers)) ∧
    (∀ k l c, r.offered = [(.fresh r.nextGang, c)] → c + 20000 ≤ s.clk → bits (r.word 0) 3 0 = 1 → r.state = .ready ∨ r.state = .running →
      r.nextGang < r.gangs →
      rangeFor s r die (reserved s die) = some (k, l) →
      ∃ u d, exec (.drainReservation q.id n r.slot) s = .next u ∧ s.sameMem u ∧ u.th = s.th ∧ u.threads = s.threads ∧
        (u.die die).drains = [d] ∧ d.part = q.id ∧ d.stream = n ∧ d.slot = r.slot ∧ d.key = .fresh r.nextGang ∧ d.cluster = k ∧ d.size = r.gsize ∧ d.since = s.clk ∧
        d.plan = l ∧ (∀ e, e ≠ die → u.die e = s.die e) ∧ (x.cls = 0 → ∃ c, (c, .framePreemption die) ∈ u.timers)) ∧
    (∀ l key, (∀ e ∈ s.cores, e.2.movers = []) → (s.gangs.map Gang.id).Nodup → stallDue s q.id n r = true →
      waitingGang s q.id n r = some key → evictions s q.id n die r key = some l →
      ∃ u y, exec (.stallResolution q.id n r.slot) s = .next u ∧ s.sameMem u ∧ u.rec? q.id n r.slot = some y ∧
        y = { r with ahead := some (die, key) } ∧
        ∀ g ∈ s.gangs, g.id ∈ l → g.status = .resident →
          u.gang? g.id = some { g with status := .saving, evicted := true } ∧ ∃ k, (k, .saveComplete g.id) ∈ u.timers) ∧
    (stallDue s q.id n r = false → exec (.stallResolution q.id n r.slot) s = .next s)

/-- R109 to R113. A pre-empted gang halts at once and is being saved, for at least 60,000 clk; its save keeps its threads as they are and
frees their places at the next window; its restore brings them back, ready at a window. A frame-class reservation pre-empts what stands in
its way.
Model's choices that it rests on: log 38, 90. -/
def Says.GangsPreempted : Prop :=
  ∀ (s : State) (id : Nat) (g : Gang), s.gang? id = some g → g.die < 24 → (s.gangs.map Gang.id).Nodup → (∀ e ∈ s.cores, e.2.movers = []) →
    let halts (i : Instr) : Prop :=
      ∃ u, exec i s = .next u ∧ s.sameMem u ∧ u.gang? id = some { g with status := .saving, evicted := false } ∧
        (∀ j, j ≠ id → u.gang? j = s.gang? j) ∧ (∀ t ∈ u.th :: u.threads, t.gang = id → t.ofRecord = true → t.hold = .halted) ∧
        ∃ k, s.clk + 60000 ≤ k ∧ (k, .saveComplete id) ∈ u.timers
    (g.status = .resident → halts (.preemptionRequest [id]) ∧
      ∀ die p, s.partOfDie die = some p → frameTargets s p die = [id] → halts (.framePreemption die)) ∧
    (g.status = .saving → s.flights = [] →
      ∃ u, exec (.saveComplete id) s = .next u ∧ s.sameMem u ∧ u.gang? id = some { g with status := .saved } ∧
        (∀ t ∈ s.th :: s.threads, t.gang = id → t.ofRecord = true → ∃ v ∈ u.th :: u.threads, v.uid = t.uid ∧ v.hold = .saved ∧
          v.g = t.g ∧ v.p = t.p ∧ v.idx = t.idx ∧ v.x = t.x ∧ v.pc = t.pc ∧ v.place = t.place ∧ t.specials { v with hold := t.hold }) ∧
        ∃ k, (k, .placementWindow) ∈ u.timers) ∧
    (g.status = .restoring → g.movers = [] → ((s.th :: s.threads).map Thread.uid).Nodup →
      (∀ t ∈ s.th :: s.threads, t.gang = id → t.ofRecord = true → t.run = .ready ∧ t.replay = [] ∧ ∀ c, t.place ≠ .transit c) →
      ∃ u, exec (.restoreComplete id) s = .next u ∧ u.gang? id = some { g with status := .resident, evicted := false } ∧
        ∀ t ∈ s.th :: s.threads, t.gang = id → t.ofRecord = true → ∃ v ∈ u.th :: u.threads, v.uid = t.uid ∧ v.hold = .running ∧
          v.run = .ready ∧ s.clk < v.readyAt ∧ v.g = t.g ∧ v.p = t.p ∧ v.idx = t.idx ∧ v.x = t.x ∧ v.pc = t.pc ∧ v.place = t.place ∧
          t.specials { v with hold := t.hold })

/-! The rasteriser. -/

/-- A primitive message keeps the layout of R123. -/
def Says.primFits (p : Prim) : Prop :=
  p.ord < 2 ^ 32 ∧ p.idx < 2 ^ 32 ∧ p.sseq < 2 ^ 16 ∧ p.src < 32 ∧ p.nattr ≤ 28 ∧ p.verts.length = 3 ∧ p.attrs.length = 3 * p.nattr ∧
    ∀ v ∈ p.verts, -(2 ^ 31) ≤ v.1 ∧ v.1 < 2 ^ 31 ∧ -(2 ^ 31) ≤ v.2.1 ∧ v.2.1 < 2 ^ 31

/-- The payload l has been handed to link n as a packet of the SLUICE class for a socket (R31, R32): each of its pieces waits in the link's queue, or
has been sent and stands in its replay buffer. -/
def Says.sends (u : State) (n dst : Nat) (l : List Byte) : Prop :=
  ∀ z ∈ piecesOf 104 4 l,
    (∃ x ∈ (u.link n).queue, hdrChan x.head = 3 ∧ hdrDst x.head = dst ∧ z ∈ x.flits) ∨
    ∃ r ∈ (u.link n).replay, hdrChan (sliceNat r.bytes 0 8) = 3 ∧ hdrDst (sliceNat r.bytes 0 8) = dst ∧ (r.bytes.drop 8).take z.length = z

/-- R115, R121 to R127. Sluice messages at a die: a primitive whose sequence number is next joins the entries of its source, and one ahead of
a missing number waits; a message that breaks the layout changes nothing of the rasteriser; a watermark raises the bound of its source once
every earlier primitive has come; a credit total that advances is taken; a close is kept. While a draw is in flight the die's bound goes to
every other die. A write of the raster control block is applied to every die of the partition when no draw runs, and waits otherwise. Setup
takes the next primitive of its slice, culled, for its own die or for another one, and ends its slice with the END watermark.
Model's choices that it rests on: log 81. -/
def Obligations.RasterMessages : Prop :=
  ∀ (s : State) (src die p : Nat) (q : Part), die < 24 → (s.die die).inReset = false →
    let r := s.rast die
    let x := r.source src
    let waits (i : Instr) (c : Source → Prop) : Prop :=
      ∃ u, exec i s = .next u ∧ s.sameMem u ∧ c ((u.rast die).source src) ∧ .mergeRelease die ∈ u.agenda
    (∀ m, Says.primFits m → x.early = [] → x.marks = [] →
      (m.sseq = x.nextSeq → waits (.primitiveMessage src die (primPayload m)) (fun y =>
        y.got = x.got ++ [m] ∧ y.nextSeq = (x.nextSeq + 1) % 2 ^ 16 ∧ y.early = [])) ∧
      (m.sseq ≠ x.nextSeq → waits (.primitiveMessage src die (primPayload m)) (fun y =>
        y.got = x.got ∧ y.nextSeq = x.nextSeq ∧ y.early = [m]))) ∧
    (∀ l, primOf l = none → ∃ u, exec (.primitiveMessage src die l) s = .next u ∧ s.sameMem u ∧ ∀ d, u.rast d = s.rast d) ∧
    (∀ o i k f, o < 2 ^ 32 → i < 2 ^ 32 → src < 32 → f < 2 → x.nextSeq < 2 ^ 16 → x.early = [] → x.marks = [] →
      let m := if f = 1 then ((o + 1) % 2 ^ 32, 0) else (o, i)
      (k = (x.nextSeq + 2 ^ 16 - 1) % 2 ^ 16 → waits (.watermark src die (sluicePayload o i k src 2 f)) (fun y =>
        y.bound = (if tagLt x.bound m then m else x.bound) ∧ y.got = x.got ∧ y.marks = [])) ∧
      (k = x.nextSeq → waits (.watermark src die (sluicePayload o i k src 2 f)) (fun y =>
        y.bound = x.bound ∧ y.got = x.got ∧ y.marks = [(m.1, m.2, k)]))) ∧
    (∀ n, n < 2 ^ 16 → src < 32 →
      let step := (n + 2 ^ 16 - (r.dest src).credits) % 2 ^ 16
      ∃ u, exec (.credit src die (sluicePayload n 0 0 src 3 0)) s = .next u ∧ s.sameMem u ∧
        ((u.rast die).dest src).credits = (if 0 < step ∧ step < 2 ^ 15 then n else (r.dest src).credits) ∧
        ((u.rast die).dest src).nextSeq = (r.dest src).nextSeq) ∧
    (∀ o k, o < 2 ^ 32 → k < 256 → src < 32 → src ≠ die →
      ∃ u, exec (.close src die (sluicePayload o k 0 src 4 0)) s = .next u ∧ s.sameMem u ∧ u.rast die = { r with closes := r.closes ++ [(o, k)] } ∧
        .mergeRelease die ∈ u.agenda) ∧
    (drawInFlight s die = true →
      ∃ u, exec (.watermarkPeriod die) s = .next u ∧ s.sameMem u ∧ u.rast die = r ∧ (∃ k, (k, .watermarkPeriod die) ∈ u.timers) ∧
        ∀ d ∈ s.peers die, d ≠ die → d < 24 → Says.sends u die d (sluicePayload r.bound.1 r.bound.2
          (((r.dest d).nextSeq + 2 ^ 16 - 1) % 2 ^ 16) die 2 0)) ∧
    (∀ (off : Nat) (v : DWord), s.part? p = some q →
      (drawRunning q = false → q.rastWait = [] →
        ∃ u, exec (.rasterControlWrite p off v) s = .next u ∧ s.sameMem u ∧ ∀ d ∈ q.dies, d < 24 →
          (off = 0x4000 → u.rast d = { s.rast d with control := v &&& 0xFFF03F01 }) ∧
          (∀ j, off = 0x4100 + 8 * j → j < 32 → (u.rast d).control = (s.rast d).control ∧ ∀ k, k < 256 →
            (u.rast d).owner[k]? = if k / 8 = j then some (v.extractLsb' (8 * (k % 8)) 8) else (s.rast d).owner[k]?)) ∧
      (drawRunning q = true →
        ∃ u, exec (.rasterControlWrite p off v) s = .next u ∧ s.sameMem u ∧ u.dies = s.dies ∧
          u.part? p = some { q with rastWait := q.rastWait ++ [(off, v)] })) ∧
    (∀ (o i : Nat) (w : Option (List Word)) (d : Draw), s.partOfDie die = some p → s.draw? p o = some d →
      (∀ y ∈ drawsBefore s p o, y.dies ≠ []) → (∀ e ∈ s.timers, e.2 ≠ .primitiveSetup die) →
      r.slices = [⟨o, i, i + 1⟩] → r.emissions = [⟨o, i, w⟩] → r.setupClk ≠ s.clk → d.gone = [] →
      let ends (c : State → Prop) : Prop :=
        ∃ u, exec (.primitiveSetup die) s = .next u ∧ s.sameMem u ∧ (u.rast die).slices = [] ∧ (u.rast die).emissions = [] ∧
          (u.rast die).bound = ((o + 1) % 2 ^ 32, 0) ∧
          (∀ y ∈ s.peers die, y ≠ die → y < 24 → ∃ k, Says.sends u die y (sluicePayload o (2 ^ 32 - 1) k die 2 1)) ∧ c u
      (setupPrim d die ⟨o, i, w⟩ = none → ends (fun u => ∀ y, (u.rast die).source y = r.source y)) ∧
      (∀ m, setupPrim d die ⟨o, i, w⟩ = some m →
        (ownersOf r d m = [die] → r.hasCredit die = true → ends (fun u =>
          ((u.rast die).source die).got = (r.source die).got ++ [{ m with sseq := (r.dest die).nextSeq }])) ∧
        (∀ y, ownersOf r d m = [y] → y ≠ die → r.hasCredit y = true → ends (fun u =>
          Says.sends u die y (primPayload { m with sseq := (r.dest y).nextSeq }) ∧
            ((u.rast die).dest y).nextSeq = ((r.dest y).nextSeq + 1) % 2 ^ 16))))

/-- R126, R130 to R135, R402. The merge releases the head of least tag that no other source can precede, and returns its credit. The quads of a
released primitive wait in order for a static wave, and enter it; a static wave of 16 quads starts. An export of a thread that has ended
gives up its turn; an export to an RGBA32F target without tests writes the sample's four channels. -/
def Obligations.RasterCourse : Prop :=
  ∀ (s : State) (die p : Nat), die < 24 → (s.die die).inReset = false → s.partOfDie die = some p →
    let r := s.rast die
    (∀ x q, r.quads = [] → r.released = [] → leastHead r.sources = some (x, q) →
      ((∀ y ∈ s.peers die, y ≠ x.die → blocks s die p q.tag y = false) → r.lastRelease ≠ s.clk →
        (∀ d, s.draw? p q.ord = some d → x.die ∉ d.gone) →
        ∃ u, exec (.mergeRelease die) s = .next u ∧ s.sameMem u ∧ (u.rast die).released = [q] ∧ (u.rast die).prims = r.prims ++ [q] ∧
          ((u.rast die).source x.die).got = (r.source x.die).got.drop 1 ∧ (u.rast die).lastRelease = s.clk ∧ .rasterise die ∈ u.agenda ∧
          (x.die ≠ die → x.die < 24 → Says.sends u die x.die (sluicePayload ((x.returned + 1) % 2 ^ 16) 0 0 die 3 0)) ∧
          (x.die = die → ((u.rast die).dest die).credits = (x.returned + 1) % 2 ^ 16)) ∧
      ((∃ y ∈ s.peers die, y ≠ x.die ∧ blocks s die p q.tag y = true) →
        ∃ u, exec (.mergeRelease die) s = .next u ∧ s.sameMem u ∧ u.rast die = r)) ∧
    (∀ q d, r.quads = [] → r.released = [q] → s.draw? p q.ord = some d → d.flag 0 = false →
      let l := quadsOf r d die q
      (openWave s p d die = none →
        ∃ u, exec (.rasterise die) s = .next u ∧ s.sameMem u ∧ (u.rast die).released = [] ∧ (u.rast die).quads = l ∧
          (l = [] → .mergeRelease die ∈ u.agenda) ∧ (l ≠ [] → ∃ k, (k, .placementWindow) ∈ u.timers)) ∧
      (∀ z g k m, l = [z] → openWave s p d die = some (g, k, m) → s.group? g.id = some g →
        ∃ u, exec (.rasterise die) s = .next u ∧ s.sameMem u ∧ (u.rast die).released = [] ∧ (u.rast die).quads = [] ∧
          .mergeRelease die ∈ u.agenda ∧ u.group? g.id = some { g with pixel := g.pixel.map (fun x => (x.1, x.2.set k (m + 1))) } ∧
          ∀ t ∈ s.threads, t.grp = g.id → t.spawner = none → t.tid / 4 = 16 * k + m → quadThread z (t.tid % 4) t ∈ u.threads)) ∧
    (∀ g st n k, s.group? g.id = some g → g.pixel = some (st, n) → st[k]? = some false → n[k]? = some 16 →
      ∃ u, exec (.staticWaveStart die g.id k) s = .next u ∧ s.sameMem u ∧ u.group? g.id = some { g with pixel := some (st.set k true, n) } ∧
        ∀ t ∈ s.threads, t.grp = g.id → t.spawner = none → t.tid / 64 = k → t.pixel.isSome = true → t.run = .absent → t.place ≠ .nowhere →
          { t with run := .ready, readyAt := s.clk } ∈ u.threads) ∧
    (∀ e, r.exports = [e] → r.expFault = none →
      (e.value = none → s.thread? e.thread = none → unstarted s e.thread = false →
        ∃ u, exec (.exportApply die) s = .next u ∧ s.sameMem u ∧ (u.rast die).exports = []) ∧
      (∀ (d : Draw) (c : BitVec 128) (m : BitVec 4) (k : Nat), e.value = some (c, m) → e.cov &&& m = 1 → s.draw? p e.ord = some d →
        d.flag 5 = false → d.flag 6 = false → d.samples = 1 → d.cfmt = 6 → d.field 22 1 = 15 → (d.field 34 1).testBit 6 = false →
        d.field 8 8 ≠ 0 →
        (targetKey s (exportUnit die) p die (targetAddr (d.field 8 8) (d.field 16 2) 1 16 e.x e.y 0) 16 true).2 = .ok k → k % 16 = 0 →
        memKey k → memKey (k + 8) → s.clearOf k 16 →
        ∃ u, exec (.exportApply die) s = .next u ∧ (u.rast die).exports = [] ∧ s.sameMemBut u k 16 ∧
          ∀ j, j < 16 → memRead u.mem (k + j) = c.extractLsb' (8 * j) 8))

/-! Walks, invalidations, the herald, faults of pages, and homes that answer late. -/

/-- R205, R207, R208. A walk that finds its leaf fills the die's translations and those of the cluster that waits, and its thread executes again;
one that does not, or that read an entry with an uncorrectable error, parks it on the translation cause at its instruction. An invalidation
drops exactly the partition's translations that it names, on all its dies and their clusters, and completes 512 clk later or when the accesses
translated before have been performed.
Model's choices that it rests on: log 41. -/
def Says.PageWalks : Prop :=
  ∀ (s : State) (p : Nat) (q : Part), s.part? p = some q →
    (∀ die vpage w, die < 24 → s.th.live = true → s.th.part = p → s.th.run = .waiting (.walk die vpage) →
      (∀ t ∈ s.threads, t.uid ≠ s.th.uid) → (s.die die).walks.find? (fun x => x.part == p && x.vpage == vpage) = some w →
      (∀ pte pages, w.bad = false → walkHeld s die w = none → walkFrom s die p (vpage * 65536) w.root = some (pte, pages) →
        ∃ u, exec (.pageWalkComplete die p vpage) s = .next u ∧ s.sameMem u ∧ u.th.run = .ready ∧ u.th.pc = s.th.pc ∧ u.th.g = s.th.g ∧
          (u.die die).tlb = (⟨p, vpage / pages * pages, pages, pte⟩ :: (s.die die).tlb).take 16384 ∧
          ⟨p, vpage / pages * pages, pages, pte⟩ ∈ Table.at u.ctlb (s.th.core / 64) [] ∧
          ∀ x ∈ (u.die die).walks, x.part = p → x.vpage ≠ vpage) ∧
      (w.bad = true ∨ (walkHeld s die w = none ∧ walkFrom s die p (vpage * 65536) w.root = none) →
        ∃ u f, exec (.pageWalkComplete die p vpage) s = .next u ∧ u.th.run = .faulted f ∧ f.cause = .translation ∧
          f.addr = BitVec.ofNat 64 (s.th.fin.adv.headD 0) ∧ u.th.pc = s.th.pc ∧ u.th.g = s.th.g ∧ u.th.p = s.th.p)) ∧
    (∀ first count, ∃ u, exec (.tlbInvalidateRange p first count) s = .next u ∧ s.sameMem u ∧ u.th = s.th ∧
      (s.clk + 512, .invalidationComplete p) ∈ u.timers ∧
      let named (e : TlbEntry) : Prop := e.part = p ∧ e.vpage < first + count ∧ first < e.vpage + e.pages
      ∀ d ∈ q.dies, d < 24 → ∀ e, (e ∈ (u.die d).tlb ↔ e ∈ (s.die d).tlb ∧ ¬named e) ∧
        ∀ c, c / 16 = d → (e ∈ Table.at u.ctlb c [] ↔ e ∈ Table.at s.ctlb c [] ∧ ¬named e)) ∧
    (∃ u, exec (.tlbInvalidateAll p) s = .next u ∧ s.sameMem u ∧ u.th = s.th ∧ (s.clk + 512, .invalidationComplete p) ∈ u.timers ∧
      ∀ d ∈ q.dies, d < 24 → ∀ e, (e ∈ (u.die d).tlb ↔ e ∈ (s.die d).tlb ∧ e.part ≠ p) ∧
        ∀ c, c / 16 = d → (e ∈ Table.at u.ctlb c [] ↔ e ∈ Table.at s.ctlb c [] ∧ e.part ≠ p)) ∧
    (s.flights = [] → s.unitReads = [] → (∀ t ∈ s.th :: s.threads, t.carried = [] ∧ t.update = none) →
      ∃ u, exec (.invalidationComplete p) s = .next u ∧ s.sameMem u ∧ u.part? p = some { q with ibusy := false }) ∧
    (∀ f ∈ s.flights, f.undone = true → s.partOfFlight f = p → f.pte ≠ 0 → f.id < q.ibusyFrom →
      ∃ u, exec (.invalidationComplete p) s = .next u ∧ u.parts = s.parts ∧ (s.clk + 64, .invalidationComplete p) ∈ u.timers)

/-- R211, R227, R228. A fault table entry whose one waiter is the issuing thread replays it or kills it, and is free. A herald window
announces an operation that waits, to complete 160 clk after its start; a fence.sc that completes lets its thread go on, and an sc
read-modify-write is applied then, its thread receiving the old value.
Model's choices that it rests on: log 21, 26. -/
def Obligations.HeraldAndReplay : Prop :=
  ∀ (s : State),
    (∀ die e x f, Table.get (s.die die).ftab e = some x → x.resolving = false → x.waiters = [s.th.uid] → s.th.uid < 2 ^ 40 →
      s.th.live = true → s.th.run = .faulted f → f.entry = some e →
      (∃ u, exec (.faultReplay die e) s = .next u ∧ s.sameMem u ∧ u.th.run = .ready ∧ u.th.pc = s.th.pc ∧ u.th.g = s.th.g ∧
        Table.get (u.die die).ftab e = none) ∧
      ∃ u, exec (.faultKill die e) s = .next u ∧ u.thread? s.th.uid = none ∧ Table.get (u.die die).ftab e = none) ∧
    (∀ h, s.heralds = [h] → h.due = none → h.window ≤ s.clk / 32 * 32 → h.die < 24 →
      let due := s.clk / 32 * 32 + 160
      ∃ u, exec .heraldWindow s = .next u ∧ s.sameMem u ∧ u.th = s.th ∧ u.heralds = [{ h with due := some due }] ∧
        (due, .heraldCompletion h.id) ∈ u.timers) ∧
    (∀ h, s.heralds = [h] → h.thread = s.th.uid → s.th.live = true → s.th.run = .waiting (.access h.id) → s.th.fin.adv = [] →
      (h.fence = true → ∃ u, exec (.heraldCompletion h.id) s = .next u ∧ s.sameMem u ∧ u.heralds = [] ∧ u.th.run = .ready ∧
        u.th.pc = s.th.pc + BitVec.ofNat 32 s.th.fin.len ∧ u.th.g = s.th.g) ∧
      (∀ f v n, h.fence = false → s.flight? h.id = some f → f.owner = s.th.uid → f.op = .rmw 0 false v n true →
        homeHeld s (s.flightDie f) f.pa = false → memKey f.pa → s.clearOf f.pa 4 →
        ∃ u, exec (.heraldCompletion h.id) s = .next u ∧ s.sameMemBut u f.pa 4 ∧
          memWord u.mem f.pa = memWord s.mem f.pa + v.setWidth 32 ∧ u.heralds = [] ∧ u.flight? h.id = none ∧ u.th.run = .ready ∧
          u.th.pc = s.th.pc + BitVec.ofNat 32 s.th.fin.len ∧ u.th.gets s.th s.th.fin.dst (memWord s.mem f.pa)))

/-- R15, R55. A read that left the package ends with its completion: its thread receives the data, or zero and a PEERERR record when the
completion reports an error or has not come in time. An access held for 50,000 clk for a die that has not returned ends with zero; one held
for less goes on waiting.
Model's choices that it rests on: log 42. -/
def Says.LateReplies : Prop :=
  ∀ (s : State) (f : Flight), s.flights = [f] → f.owner = s.th.uid → s.th.live = true → f.blocks = true → f.op = .load 4 false → f.nreg = 1 →
    s.th.run = .waiting (.access f.id) → s.th.fin.adv = [] →
    let ends (i : Instr) (w : Word) (c : State → Prop) : Prop :=
      ∃ u, exec i s = .next u ∧ u.flights = [] ∧ u.th.run = .ready ∧ u.th.pc = s.th.pc + BitVec.ofNat 32 s.th.fin.len ∧
        u.th.gets s.th s.th.fin.dst w ∧ c u
    let recorded (k : Nat) (u : State) : Prop := ∀ q, s.part? s.th.part = some q → s.homeUp q = true → q.fqTail - q.fqHead ≠ 4096 →
      ∃ y, u.part? s.th.part = some y ∧ y.fqTail = q.fqTail + 1 ∧
        memRead u.mem (q.home * 2 ^ 46 + 0x01D00000 + 64 * (q.fqTail.toNat % 4096)) = BitVec.ofNat 8 k
    (f.phase = .peer →
      (∀ v : Word, ends (.peerReadCompletion f.id 0 (leBytes 4 v.toNat)) v (fun u => s.sameMem u)) ∧
      (∀ st data, st ≠ 0 → ends (.peerReadCompletion f.id st data) 0 (recorded 10)) ∧
      ends (.peerReadTimeout f.id) 0 (recorded 10)) ∧
    (∀ die c, f.phase = .held c → homeSocket f.pa = die → s.heldMsgs = [] →
      (c + 50000 ≤ s.clk → ends (.dieLostTimeout die) 0 (recorded 3)) ∧
      (s.clk < c + 50000 → ∃ u, exec (.dieLostTimeout die) s = .next u ∧ s.sameMem u ∧ u.flights = [f] ∧ u.th = s.th))

/-! Registers written by name. -/

/-- R55 to R57, R62, R81, R199, R208, R210, R418. Writes of control words: a die event counter's value or select, which keeps OVF until a 1
clears it; the roots and the invalidation words on every die of the partition, the pool on its die, an invalidation that starts; a stream
descriptor's words; the thread control block, whose ACT starts its action; ACT of a fault table entry; a down span port's buffers; an IDE
requirement; and the entries of both aperture tables, by the host or by a supervisor of the partition that they name.
Model's choices that it rests on: log 30, 43. -/
def Obligations.ControlWrites : Prop :=
  ∀ (s : State) (v : DWord),
    (∀ die k, die < 24 → k < 64 →
      let e := s.evCounter die k
      let rest (u : State) : Prop := u = { s with evc := u.evc } ∧ ∀ d j, j < 64 → (d, j) ≠ (die, k) → u.evCounter d j = s.evCounter d j
      (∃ u, exec (.eventCounterWrite die k false v) s = .next u ∧ rest u ∧ (u.evCounter die k).count = v &&& 0xFFFFFFFFFFFF ∧
        (u.evCounter die k).sel = e.sel) ∧
      (openEvent e.sel = false → ∃ u, exec (.eventCounterWrite die k true v) s = .next u ∧ rest u ∧ (u.evCounter die k).count = e.count ∧
        ∀ j, j < 64 → (u.evCounter die k).sel.getLsbD j =
          if j = 61 then e.sel.getLsbD 61 && !v.getLsbD 61 else v.getLsbD j && (decide (j < 56) || decide (62 ≤ j)))) ∧
    (∀ die super p q, die < 24 → s.partOfDie die = some p → s.part? p = some q →
      let all (off : Nat) (c : MemCtl → MemCtl) : Prop :=
        ∃ u, exec (.registerWrite (.memControl die off super) v) s = .next u ∧ u = { s with dies := u.dies } ∧
          ∀ d ∈ q.dies, d < 24 → (u.die d).mcb = c (s.die d).mcb
      all 0x0 (fun m => { m with troot := v &&& 0xFFFFFFFFF0001 }) ∧
      (s.groups = [] → bits v.toNat 15 0 = 0 ∨ ((32 + die) * 2 ^ 46 ≤ bits v.toNat 51 16 * 65536 ∧
          (bits v.toNat 51 16 + bits v.toNat 15 0) * 65536 ≤ (32 + die) * 2 ^ 46 + Config.stackCapacity) →
        ∃ u, exec (.registerWrite (.memControl die 0x8 super) v) s = .next u ∧ u = { s with dies := u.dies } ∧
          (u.die die).mcb = { (s.die die).mcb with privpool := v &&& 0xFFFFFFFFFFFFF } ∧ ∀ d, d ≠ die → u.die d = s.die d) ∧
      (q.ibusy = false → all 0x10 (fun m => { m with iva := v &&& 0x7FFFFFFFFF0000 }) ∧
        (v.getLsbD 0 = false → all 0x18 (fun m => { m with ictl := v &&& 0xFFFF0002 })) ∧
        (v.getLsbD 0 = true → ∃ u, exec (.registerWrite (.memControl die 0x18 super) v) s = .next u ∧
          u.part? p = some { q with ibusy := true } ∧
          (v.getLsbD 1 = true → .tlbInvalidateAll p ∈ u.agenda) ∧
          (v.getLsbD 1 = false →
            .tlbInvalidateRange p (bits (s.die die).mcb.iva.toNat 54 16) (bits v.toNat 31 16) ∈ u.agenda))) ∧
      (q.ibusy = true → exec (.registerWrite (.memControl die 0x10 super) v) s = .next s ∧
        exec (.registerWrite (.memControl die 0x18 super) v) s = .next s)) ∧
    (∀ p n port q, s.part? p = some q →
      (v.getLsbD 1 = false → ∃ u y, exec (.registerWrite (.stream p n 0 port) v) s = .next u ∧ u.part? p = some y ∧
        (y.stream n).cls = bits v.toNat 21 20 ∧ (y.stream n).en = v.getLsbD 0 ∧
        (y.stream n).home = (if (q.stream n).en = false ∧ bits v.toNat 26 22 ∈ q.dies then bits v.toNat 26 22 else (q.stream n).home) ∧
        (y.stream n).words = (q.stream n).words ∧ (y.stream n).head = (q.stream n).head ∧
        (v.getLsbD 0 = true → .recordAccept p n ∈ u.agenda)) ∧
      (v.getLsbD 1 = true → v.getLsbD 0 = false → ∃ w, exec (.registerWrite (.stream p n 0 port) (v &&& ~~~2)) s = .next w ∧
        exec (.registerWrite (.stream p n 0 port) v) s = exec (.streamCancel p n) w) ∧
      exec (.registerWrite (.stream p n 1 port) v) s = exec (.hostheadWrite p n (v.setWidth 32)) s ∧
      exec (.registerWrite (.stream p n 2 port) v) s = .next s ∧
      ∃ u y, exec (.registerWrite (.stream p n 3 port) v) s = .next u ∧ s.sameMem u ∧ u.part? p = some y ∧
        y.stream n = { q.stream n with cqhost := v, cqPort := port }) ∧
    (∀ die, die < 24 →
      (∃ u, exec (.registerWrite (.threadControl die 0) v) s = .next u ∧ u = { s with dies := u.dies } ∧
        u.die die = { s.die die with tsel := v.setWidth 32 } ∧ ∀ d, d ≠ die → u.die d = s.die d) ∧
      (∃ w, exec (.registerWrite (.threadControl die 8) (v &&& ~~~7)) s = .next w ∧ w = { s with dies := w.dies } ∧
        w.die die = { s.die die with tpc := v.extractLsb' 32 32 } ∧ (∀ d, d ≠ die → w.die d = s.die d) ∧
        ∀ i, (bits v.toNat 2 0, i) ∈ [(1, Instr.threadReplay die), (2, .threadResumeNext die), (3, .threadResumeAtTpc die), (4, .threadKill die)] →
          exec (.registerWrite (.threadControl die 8) v) s = exec i w) ∧
      (∀ e, (bits v.toNat 5 4 = 0 → exec (.registerWrite (.faultEntry die e) v) s = .next s) ∧
        (bits v.toNat 5 4 = 1 → exec (.registerWrite (.faultEntry die e) v) s = exec (.faultReplay die e) s) ∧
        (bits v.toNat 5 4 = 2 → exec (.registerWrite (.faultEntry die e) v) s = exec (.faultKill die e) s))) ∧
    (∀ k, (s.spanUp k = true → exec (.registerWrite (.spanClear k) v) s = .next s) ∧
      (s.spanUp k = false → ∃ u, exec (.registerWrite (.spanClear k) v) s = .next u ∧ u = { s with links := u.links } ∧
        u.link (320 + k) = { s.link (320 + k) with replay := [], queue := [] })) ∧
    (∀ k, (_ : k < 4) → exec (.registerWrite (.ideRequire k) v) s = .next { s with ports := s.ports.set k { s.ports[k] with ideOnly := true } }) ∧
    (∀ (io k : Nat) (e : BitVec 128), io < 2 →
      ((_ : 32 * io + k < 64) → k < 32 → ∀ w,
        let now := s.apert[32 * io + k]
        let held := e &&& 0xFFFFFFFFFFFFF000000000F80000010F
        (w = none ∨ (∃ p, w = some p ∧ bits now.toNat 39 35 = p ∧ bits held.toNat 39 35 = p) →
          exec (.apertureEntryWrite io k e w) s = .next { s with apert := s.apert.set (32 * io + k) held }) ∧
        (∀ p, w = some p → bits now.toNat 39 35 ≠ p → ∃ u, exec (.apertureEntryWrite io k e w) s = .next u ∧ u.apert = s.apert)) ∧
      ((_ : 8 * io + k < 16) → k < 8 → ∀ w,
        let now := s.spanApert[8 * io + k]
        (w = none ∨ (∃ p, w = some p ∧ bits now.toNat 39 35 = p ∧ e &&& ~~~3 = now &&& ~~~3) →
          exec (.spanApertureEntryWrite io k e w) s =
            .next { s with spanApert := s.spanApert.set (8 * io + k) (e &&& 0xFFFFFFFFFFFF0000000000F800000003) }) ∧
        (∀ p, w = some p → bits now.toNat 39 35 ≠ p → ∃ u, exec (.spanApertureEntryWrite io k e w) s = .next u ∧ u.spanApert = s.spanApert)))

/-! Resets, bring-up and the service die. -/

/-- One record of a kind is written to the fault queue of partition p, if it has space and its home is up. -/
def Says.records (s : State) (p kind : Nat) (u : State) : Prop :=
  ∀ q, s.part? p = some q → s.homeUp q = true → q.fqTail - q.fqHead ≠ 4096 →
    ∃ y, u.part? p = some y ∧ y.fqTail = q.fqTail + 1 ∧
      memRead u.mem (q.home * 2 ^ 46 + 0x01D00000 + 64 * (q.fqTail.toNat % 4096)) = BitVec.ofNat 8 kind

/-- R11, R14, R15, R16, R20. A cold reset leaves the reset state; a device reset leaves it but for the service die's log, mailbox and
measurements, the routers with their links and the count of clk, and bring-up begins; so does the loss of the reference, after which the
package is held. A reading above 115 degrees stops and latches, one above 105 is recorded, one below changes nothing. Each phase of bring-up
ends within its bound and the next begins, its failures recorded; a firmware that does not load and a failure in phase 2 leave the package in
reset; phase 3 finds the dies present, phase 7 publishes population and identity.
Model's choices that it rests on: log 2, 3, 49, 50. -/
def Obligations.ResetsAndBringUp : Prop :=
  ∀ (s : State),
    (∃ a, (∀ e ∈ a, e ∈ s.agenda) ∧ exec .coldReset s = .next { State.reset with agenda := a, out := s.out, free := s.free }) ∧
    (∃ a l z, (∀ e ∈ a, e ∈ s.agenda) ∧ (∀ x ∈ l, x ∈ s.links ∧ 64 ≤ x.1 ∧ x.1 < 320) ∧ (s.clk + 200000000, .bringUpPhase []) ∈ z ∧
      (∀ x ∈ z, x = (s.clk + 200000000, .bringUpPhase []) ∨ x ∈ s.timers ∧ routerEvent x.2 = true) ∧ exec .deviceReset s = .next { State.reset with
        agenda := a, out := s.out, free := s.free, nextId := s.nextId, clk := s.clk, sdLog := s.sdLog, meas := s.meas, mbox := s.mbox,
        sdUp := s.sdUp, population := s.population, badRoutes := s.badRoutes, links := l, timers := z }) ∧
    (∃ u, exec .clockFault s = .next u ∧ u.clockHeld = true ∧ u.parts = [] ∧ u.threads = [] ∧ u.th = Thread.reset ∧ u.mem = [] ∧
      (∀ x ∈ u.timers, routerEvent x.2 = true) ∧
      u.meas = s.meas ∧ u.clk = s.clk ∧ ∃ e, u.sdLog = e :: s.sdLog) ∧
    (s.clockHeld = true → s.faultPin = false → ∃ u, exec .clockReferenceReturn s = .next u ∧ u = { s with clockHeld := false, timers := u.timers } ∧
      (s.clk + 200000000, .bringUpPhase []) ∈ u.timers) ∧
    (s.clockHeld = false ∨ s.faultPin = true → exec .clockReferenceReturn s = .next s) ∧
    (∀ c n, 115 < c → ∃ u, exec (.junctionSensorRead c n) s = .next u ∧ u.trip = true ∧ u.parts = [] ∧ u.threads = [] ∧ u.mem = [] ∧
      u.meas = s.meas ∧ u.phase = s.phase ∧ ∀ k, (_ : k < 4) → s.ports[k].up = true → .linkDown k ∈ u.out) ∧
    (∀ c n q, 105 < c → c ≤ 115 → s.parts = [q] → ∃ u, exec (.junctionSensorRead c n) s = .next u ∧ u.th = s.th ∧ u.threads = s.threads ∧
      u.trip = s.trip ∧ Says.records s q.id 8 u) ∧
    (∀ c n, c ≤ 105 → exec (.junctionSensorRead c n) s = .next s) ∧
    (s.trip = false → s.clockHeld = false →
      (∀ k m l, (k, m) ∈ [(2, 1500000000), (3, 300000000), (4, 100000000), (5, 1)] → s.phase = k →
        ∃ u, exec (.bringUpPhase l) s = .next u ∧ u.phase = k + 1 ∧ u.clockHeld = false ∧ (s.clk + m, .bringUpPhase []) ∈ u.timers) ∧
      (s.phase = 0 → firmwareLoads = true → ∃ u, exec (.bringUpPhase []) s = .next u ∧ u.phase = 1 ∧ u.meas[0] = Config.firmwareDigest ∧
        (s.clk + 5000000, .bringUpPhase []) ∈ u.timers) ∧
      (s.phase = 0 → firmwareLoads = false → ∃ u, exec (.bringUpPhase []) s = .next u ∧ u.clockHeld = true ∧ u.faultPin = true ∧
        u.phase = 0 ∧ ∃ e ∈ u.sdLog, e.num = 60) ∧
      (∀ l n, n ∈ l → 1 ≤ s.phase → s.phase ≤ 4 → ∃ u, exec (.bringUpPhase l) s = .next u ∧ ∃ e ∈ u.sdLog, e.num = n) ∧
      (s.phase = 1 → ∃ u, exec (.bringUpPhase []) s = .next u ∧ u.phase = 2 ∧ (s.clk + 20000000, .bringUpPhase []) ∈ u.timers) ∧
      (∀ l, s.phase = 1 → l ≠ [] → ∃ u, exec (.bringUpPhase l) s = .next u ∧ u.clockHeld = true ∧ u.phase = 1) ∧
      (∀ l, s.phase = 2 → ∃ u, exec (.bringUpPhase l) s = .next u ∧
        ∀ d, d < 24 → ((u.die d).present = true ↔ d ∉ l ∧ 32 + d ∉ l)) ∧
      (∀ l, s.phase = 5 → ∃ u, exec (.bringUpPhase l) s = .next u ∧
        ∀ k, (_ : k < 4) → (u.ports[k].up = true ↔ k ∉ l ∧ (s.link (56 + k / 2)).failed = false)) ∧
      (s.phase = 6 → ∃ u, exec (.bringUpPhase []) s = .next u ∧ u.phase = 7 ∧ u.population = BitVec.ofNat 64 (presenceMap s) ∧
        .identity u.population Config.stackCapacity Config.identityKey Config.identityCert ∈ u.out)) ∧
    (7 ≤ s.phase → ∀ l, exec (.bringUpPhase l) s = .next s)

/-- R15, R18, R65, R66. A die that is reset or lost is held in reset with its blocks clear and nothing running on it; its link is retrained
after 2,000 clk, and it returns 20,000 clk later, unless its link or its stack's has failed; a lost die returns by a reset. A partition reset
ends every thread of the partition, completes a waiting record, clears its measurement register and holds its dies in reset. A stack that is
clear reads zero.
Model's choices that it rests on: log 44, 90. -/
def Obligations.DieResets : Prop :=
  ∀ (s : State) (die : Nat), die < 24 →
    let d := s.die die
    let cleared (u : State) : Prop := (u.die die).inReset = true ∧ (u.die die).mcb = ⟨0, 0, 0, 0⟩ ∧ (u.die die).tlb = [] ∧ (u.die die).ftab = [] ∧
      (u.die die).tsel = 0 ∧ (∀ k, k < 64 → u.evCounter die k = EvCounter.reset) ∧
      ((∃ c k, s.th.place = .swarm c k ∧ coreDie c = die) → s.th.hold = .running → s.th.live = true → u.th.run = .absent)
    (d.present = true → d.lost = false →
      (∃ u, exec (.dieReset die) s = .next u ∧ cleared u ∧ (u.die die).lost = false ∧
        ((s.partOfDie die).isSome = true → (s.clk + 2000, .dieLinkRetrain die) ∈ u.timers) ∧
        (s.partOfDie die = none → ∀ k, die * 2 ^ 46 ≤ k → k < (die + 1) * 2 ^ 46 → memRead u.mem k = 0)) ∧
      (∃ u, exec (.dieLost die) s = .next u ∧ cleared u ∧ (u.die die).lost = true ∧ ∃ e ∈ u.sdLog, e.num = die)) ∧
    (d.present = false → exec (.dieReset die) s = .next s ∧ exec (.dieLost die) s = .next s ∧ exec (.dieReturn die) s = .next s) ∧
    (d.present = true → d.lost = true → exec (.dieLost die) s = .next s ∧
      (s.linkGood die = true → ∃ u, exec (.dieReset die) s = .next u ∧ u = { s with timers := u.timers } ∧
        (s.clk + 2000, .dieLinkRetrain die) ∈ u.timers) ∧
      (s.linkGood die = false → exec (.dieReset die) s = .next s)) ∧
    (d.inReset = true → s.linkGood die = true →
      (∃ u, exec (.dieLinkRetrain die) s = .next u ∧ u = { s with links := u.links, timers := u.timers } ∧ (u.link die).training = true ∧
        (s.clk + 20000, .dieReturn die) ∈ u.timers) ∧
      (d.present = true → ∃ u, exec (.dieReturn die) s = .next u ∧ (u.die die).inReset = false ∧ (u.die die).lost = false ∧ (u.link die).up = true)) ∧
    (d.inReset = false ∨ s.linkGood die = false → exec (.dieLinkRetrain die) s = .next s ∧ exec (.dieReturn die) s = .next s) ∧
    (∀ p q, s.part? p = some q →
      ∃ u y, exec (.partitionReset p) s = .next u ∧ u.part? p = some y ∧ y.running = false ∧ y.superCode = none ∧ y.fqSeq = 0 ∧ y.fqWait = [] ∧
        y.wdlim = 0 ∧ y.ibusy = false ∧ y.dies = q.dies ∧
        (s.feWaits = [] → ∀ t ∈ u.th :: u.threads, t.part = p → t.live = false) ∧
        (∀ r, (_ : r < 16) → q.measReg = some r → u.meas[r] = 0) ∧
        (∀ n x r, q.streams = [(n, x)] → x.recs = [r] → r.state = .waiting → r.status = none → ∃ z, (y.stream n).recs = [z] ∧ z.status = some (5, 0)) ∧
        ∀ e ∈ q.dies, e < 24 → (s.die e).present = true → (s.die e).lost = false →
          (u.die e).inReset = true ∧ (s.clk + 2000, .dieLinkRetrain e) ∈ u.timers) ∧
    (d.clearing = true → ∃ u, exec (.stackClearComplete die) s = .next u ∧ (u.die die).clearing = false ∧
      (∀ k, (32 + die) * 2 ^ 46 ≤ k → k < (33 + die) * 2 ^ 46 → memRead u.mem k = 0) ∧
      ∀ k, k < (32 + die) * 2 ^ 46 ∨ (33 + die) * 2 ^ 46 ≤ k → memRead u.mem k = memRead s.mem k) ∧
    (d.clearing = false → exec (.stackClearComplete die) s = .next s)

/-- R17, R18, R20, R46, R49, R78. Partition configuration: a die held in reset joins a partition that does not run, or leaves it and is
cleared; a share of a link, a measurement register, a function and a span port are set; the kept flits of a port that is down are cleared; a
command for a running partition, or one whose floors do not fit, is refused and changes nothing. -/
def Says.PartitionCommands : Prop :=
  ∀ (s : State) (p : Nat) (q : Part), s.sdUp = true → 7 ≤ s.phase → p < 24 → s.part? p = some q →
    let done (c : PartCmd) (r : State → Prop) : Prop :=
      ∃ u, exec (.partitionConfiguration c) s = .next u ∧ s.sameMem u ∧ (∃ w, u.out = .status w 0 :: s.out) ∧ r u
    let refused (c : PartCmd) : Prop := ∃ w, exec (.partitionConfiguration c) s = .next { s with out := .status w 1 :: s.out }
    let becomes (u : State) (y : Part) : Prop := u.part? p = some y
    (∀ d, d < 24 → (s.die d).present = true → (s.die d).lost = false → (s.die d).inReset = true → (s.die d).clearing = false →
      s.partOfDie d = none →
      (q.running = false → done (.addDie p d) (fun u => (∃ l, becomes u { q with dies := l } ∧ ∀ e, e ∈ l ↔ e = d ∨ e ∈ q.dies) ∧
        (s.clk + 2000, .dieLinkRetrain d) ∈ u.timers)) ∧
      (q.running = true → refused (.addDie p d))) ∧
    (∀ d, d < 24 → s.partOfDie d = some p → (s.die d).inReset = true →
      (q.running = false → done (.removeDie p d) (fun u => becomes u { q with dies := q.dies.filter (fun e => e != d) } ∧
        (u.die d).clearing = true ∧ (u.die d).left = some p ∧ (s.clk + 1500000000, .stackClearComplete d) ∈ u.timers)) ∧
      (q.running = true → refused (.removeDie p d))) ∧
    (∀ n f c,
      let others := (Table.at s.shares n []).filter (fun e => e.1 != p)
      (isShared n = true → f ≤ c → c ≤ 63 → (others.map (fun e => e.2.1)).sum + f ≤ 63 →
        done (.setShare n p f c) (fun u => Table.at u.shares n [] = others ++ [(p, f, c)])) ∧
      (isShared n = false ∨ c < f ∨ 63 < c ∨ 63 < (others.map (fun e => e.2.1)).sum + f → refused (.setShare n p f c))) ∧
    (∀ r, 4 ≤ r → r < 16 → q.running = false → done (.setMeasure p r) (fun u => becomes u { q with measReg := some r })) ∧
    (∀ k, (_ : k < 4) → s.ports[k].root = false →
      done (.setFunction p k false) (fun u => becomes u { q with functions := q.functions.filter (fun x => x != k) }) ∧
      done (.setFunction p k true) (fun u => ∃ y, becomes u y ∧ ∀ x, x ∈ y.functions ↔ x = k ∨ x ∈ q.functions)) ∧
    (∀ k, k < 16 →
      (∃ u w l, exec (.partitionConfiguration (.bindSpan p k)) s = .next u ∧ s.sameMem u ∧ u.out = .status w 0 :: l ∧ (u.span k).part = p) ∧
      ((s.span k).part = p → (s.link (320 + k)).up = false →
        done (.clearSpan p k) (fun u => u.link (320 + k) = { s.link (320 + k) with replay := [], queue := [] })) ∧
      ((s.span k).part ≠ p ∨ (s.link (320 + k)).up = true → refused (.clearSpan p k)))

/-- R20, R21, R48 to R50, R65, R92. The service die extends a measurement register, answers a report with the nonce, the identity, the
measurements and the partition of each die, starts a partition's supervisor from a code object that it can read, and sets a port's mode and
IDE keys; a port whose link goes down or fails its integrity check drops its keys; the service die itself fails and returns.
Model's choices that it rests on: log 51, 53. -/
def Says.ServiceDieActs : Prop :=
  ∀ (s : State),
    (∀ r (dg : List Byte), (_ : r < 16) → 4 ≤ r → dg.length = 32 → s.sdUp = true →
      ∃ u, exec (.measurementExtend r dg) s = .next u ∧ u = { s with meas := u.meas } ∧ (∀ j, (_ : j < 16) → j ≠ r → u.meas[j] = s.meas[j]) ∧
        beBytes 32 (u.meas[r]).toNat = sm3 (beBytes 32 (s.meas[r]).toNat ++ dg)) ∧
    (∀ r dg, r < 4 → ∃ w, exec (.measurementExtend r dg) s = .next { s with out := w :: s.out }) ∧
    (∀ n : List Byte, n.length = 32 → s.sdUp = true → ∃ b, exec (.attestationReport n) s = .next { s with out := .report b :: s.out } ∧
      b.length = 664 ∧ b.take 32 = n ∧ sliceNat b 32 4 = 3480 ∧ sliceNat b 56 8 = Config.stackCapacity ∧
      (∀ j, (_ : j < 16) → (b.drop (64 + 32 * j)).take 32 = beBytes 32 (s.meas[j]).toNat) ∧
      (∀ d, d < 24 → b[576 + d]? = some (match s.partOfDie d with | some p => BitVec.ofNat 8 p | none => 0xFF)) ∧
      b.drop 600 = beBytes 64 (Config.sm2Sign (b.take 600)).toNat) ∧
    (s.sdUp = false → ∀ n, exec (.attestationReport n) s = .next s) ∧
    (∀ p q d va z o m e, s.sdUp = true → s.part? p = some q → q.dies = [d] → (s.die d).present = true → (s.die d).inReset = false →
      (s.die d).lost = false → s.anyThread (fun t => t.part == p && t.isSuper) = false →
      readSupervisor s (placerUnit p 128) p d va = (z, .ok (o, m)) → o.roles = [e] → e.wave = false → allocOf e.nreg ≤ 2048 → (occupied s).regsOf (coreNo d 15 0) = [] →
      ∃ u y t, exec (.supervisorStart p va) s = .next u ∧ u.part? p = some y ∧ y.running = true ∧ y.superCode = some (va, o) ∧
        (∀ r, (_ : r < 16) → q.measReg = some r → beBytes 32 (u.meas[r]).toNat = sm3 (beBytes 32 (s.meas[r]).toNat ++ sm3 m)) ∧
        t ∈ u.threads ∧ t.place = .swarm (coreNo d 15 0) 56 ∧ t.run = .ready ∧ t.part = p ∧ t.pc = BitVec.ofNat 32 e.entry ∧
        t.g[0]? = some (BitVec.ofNat 32 va) ∧ t.g[2]? = some (BitVec.ofNat 32 d) ∧ t.privSize = 0) ∧
    (∀ p va, s.part? p = none → ∃ u w, exec (.supervisorStart p va) s = .next u ∧ s.sameMem u ∧ u.th = s.th ∧ u.threads = s.threads ∧
      u.out = .status w 1 :: s.out) ∧
    (∀ k ps, (_ : k < 4) → (∀ x ∈ s.parts, x.running = false) →
      (∀ p, ∃ u, exec (.portModeSet k true [p]) s = .next u ∧ u.ports[k] = { s.ports[k] with root := true, parts := [p] } ∧
        ∀ y ∈ u.parts, k ∉ y.functions) ∧
      (∃ u, exec (.portModeSet k false ps) s = .next u ∧ u.ports[k] = { s.ports[k] with root := false, parts := [] } ∧
        ∀ y ∈ u.parts, y.id ∈ ps → k ∈ y.functions)) ∧
    (∀ k root p q, s.part? p = some q → q.running = true → ∃ w, exec (.portModeSet k root [p]) s = .next { s with out := .status w 1 :: s.out }) ∧
    (∀ k n key, (_ : k < 4) → (s.ports[k].up = true → ∃ u, exec (.ideKeySet k n key) s = .next u ∧ u = { s with ports := u.ports } ∧
        Table.get u.ports[k].ide n = some key ∧ u.ports[k].up = true) ∧
      (s.ports[k].up = false → exec (.ideKeySet k n key) s = .next s)) ∧
    (∀ k, (_ : k < 4) → ∀ i ∈ [Instr.ideIntegrityFailure k, .pcieLinkDown k],
      (s.ports[k].up = true → ∃ u, exec i s = .next u ∧ u.ports[k].up = false ∧ u.ports[k].ide = [] ∧ .linkDown k ∈ u.out ∧ u.th = s.th ∧
        u.threads = s.threads) ∧
      (s.ports[k].up = false → exec i s = .next s)) ∧
    (∀ k, (_ : k < 4) → (6 ≤ s.phase → (s.link (56 + k / 2)).failed = false →
        exec (.pcieLinkUp k true) s = .next { s with ports := s.ports.set k { s.ports[k] with up := true } }) ∧
      exec (.pcieLinkUp k false) s = .next s) ∧
    (∃ u, exec .serviceDieFailure s = .next u ∧ u = { s with sdUp := false, sdLog := u.sdLog }) ∧
    exec .serviceDieReturn s = .next { s with sdUp := true }

/-! Links, keys, and requests from outside. -/

/-- R28 to R32, R35, R37 to R39. A link retrains for 20,000 clk and goes on; a failed one takes its die, its ports or its routes with it; a
lane repair takes its module out for 10,000 clk, waits for another of the link, or retires it. A span port runs on four lanes or goes down, and trains again from number
zero. A flit that is not acknowledged in time is sent again with its codes afresh. A flit that no code corrects is counted; the next data flit
in order is delivered.
Model's choices that it rests on: log 61, 63, 90. -/
def Says.LinkEvents : Prop :=
  ∀ (s : State) (n : Nat),
    let l := s.link n
    (l.up = true → l.training = false → ∃ u, exec (.linkRetrain n) s = .next u ∧ u.link n = { l with training := true } ∧
      (s.clk + 20000, .retrainingComplete n) ∈ u.timers) ∧
    (l.up = false ∨ l.training = true → exec (.linkRetrain n) s = .next s) ∧
    (l.up = true → l.training = true → l.replay = [] → l.queue = [] →
      ∃ u, exec (.retrainingComplete n) s = .next u ∧ u.link n = { l with training := false }) ∧
    (l.training = false → (∀ m, farEnd n = some m → (s.link m).training = false) → exec (.retrainingComplete n) s = .next s) ∧
    (l.failed = false → ∃ u, exec (.linkFailed n) s = .next u ∧ (u.link n).failed = true ∧ (u.link n).up = false ∧
      (n < 24 → .dieLost n ∈ u.agenda) ∧ (32 ≤ n → n < 56 → .dieLost (n - 32) ∈ u.agenda) ∧ (n = 60 → .serviceDieFailure ∈ u.agenda) ∧
      (64 ≤ n → n < 320 → n ∈ u.badRoutes)) ∧
    (l.failed = true → exec (.linkFailed n) s = .next s) ∧
    (∀ m k,
      let total := Table.at l.lanes m 0 + k
      let lanes := Table.put l.lanes m total
      (m < 48 → m ∉ l.retired →
        (total ≤ 4 → l.repairing = [] → ∃ u, exec (.laneRepair n m k) s = .next u ∧ u.link n = { l with lanes := lanes, repairing := [m] } ∧
          (s.clk + 10000, .laneRepairComplete n m) ∈ u.timers) ∧
        (total ≤ 4 → l.repairing ≠ [] → ∃ u key, exec (.laneRepair n m k) s = .next u ∧ u.links = s.links ∧
          u.deferred = s.deferred ++ [([key], .laneRepair n m k)]) ∧
        (4 < total → ∃ u, exec (.laneRepair n m k) s = .next u ∧
          u.link n = { l with lanes := lanes, retired := l.retired ++ [m], repairing := l.repairing.filter (fun x => x != m) } ∧
          (24 ≤ l.retired.length → .linkFailed n ∈ u.agenda))) ∧
      (48 ≤ m ∨ m ∈ l.retired → exec (.laneRepair n m k) s = .next s) ∧
      ∃ u, exec (.laneRepairComplete n m) s = .next u ∧ u = { s with links := u.links } ∧
        u.link n = { l with repairing := l.repairing.filter (fun x => x != m) }) ∧
    (∀ p k, p < 16 →
      (1 ≤ k → k ≤ 4 → ∃ u, exec (.spanLaneFailure p k) s = .next u ∧ u.span p = { s.span p with lanes := 4 } ∧ u.links = s.links) ∧
      (5 ≤ k → k ≤ 8 → ∃ u, exec (.spanLaneFailure p k) s = .next u ∧ (u.span p).lanes = 8 - k ∧ (u.link (320 + p)).up = false ∧
        (u.span p).tx = Vector.replicate 2 KeySlot.reset ∧ (u.span p).rx = Vector.replicate 2 KeySlot.reset) ∧
      (4 ≤ (s.span p).lanes → (s.link (320 + p)).up = false → (s.link (56 + p / 8)).failed = false →
        ∃ u, exec (.spanPortReturn p) s = .next u ∧ (u.link (320 + p)).up = true ∧ (u.link (320 + p)).rxBase = 0 ∧
          ((s.link (320 + p)).replay = [] → (s.link (320 + p)).queue = [] → (u.link (320 + p)).txNext = 0 ∧ (u.link (320 + p)).replay = []))) ∧
    (∀ e r, l.replay.find? (fun x => x.seq == e) = some r →
      (l.up = true → l.training = false → r.at_ + Config.roundTrip n + 32 ≤ s.clk → r.bytes.length = 112 →
        ∃ u b, exec (.repeatTimeout n e) s = .next u ∧ b.length = 128 ∧ (b.take 112).drop 8 = r.bytes.drop 8 ∧
          sliceNat b 112 4 = (crc32c (b.take 112)).toNat ∧ (farEnd n = none → .flit n b ∈ u.out) ∧
          ∀ m, farEnd n = some m → (s.clk + 4, .flitReceive m b) ∈ u.timers) ∧
      (s.clk < r.at_ + Config.roundTrip n + 32 → exec (.repeatTimeout n e) s = .next s)) ∧
    (l.up = false ∨ l.training = true → ∀ f, exec (.flitReceive n f) s = .next s) ∧
    (∀ f : List Byte, spanOf n = none → l.up = true → l.training = false → f.length = 128 →
      (rsDecode (f.map BitVec.toNat) = none → ∃ u, exec (.flitReceive n f) s = .next u ∧ s.sameMem u ∧ (u.link n).bad = l.bad + 1 ∧
        (u.link n).rxBase = l.rxBase ∧ (u.link n).delivered = l.delivered) ∧
      (let h := sliceNat f 0 8
       rsDecode (f.map BitVec.toNat) = some (f.map BitVec.toNat) → crc32c (f.take 112) = BitVec.ofNat 32 (sliceNat f 112 4) →
        flitHeaderOk s n h = true → hdrKind h = 0 → h.testBit 52 = false → hdrSeq h = l.rxBase % 4096 → hdrFidx h = 0 → hdrFlast h = 0 →
        l.rxMap = [] → l.rxBuf = [] →
        ∃ u, exec (.flitReceive n f) s = .next u ∧ (u.link n).rxBase = l.rxBase + 1 ∧ (u.link n).rxMap = [] ∧ (u.link n).rxBuf = [] ∧
          (u.link n).delivered = (hdrChan h, [(f.take 112).drop 8]) :: l.delivered ∧ (u.link n).bad = l.bad))

/-- R43 to R46. The first key of a span port is installed in slot 0 of both directions; a rollover installs the next ones in empty slots, the
old transmit slot retiring, and is refused as busy where none is empty; 2^36 flits under one key ask for one; a retired slot is emptied when
nothing sealed under it is left. Four failed authentications of one number take the port down.
Model's choices that it rests on: log 60. -/
def Says.SealingKeys : Prop :=
  ∀ (s : State) (p : Nat), p < 16 → (s.link (320 + p)).queue = [] →
    let x := s.span p
    let e := (s.link (320 + p)).txNext
    (∀ peer m kt kr st sr, s.sdUp = true → (s.link (320 + p)).up = true → (∀ i, i < 2 → (slotAt x.tx i).state = .empty ∧ (slotAt x.rx i).state = .empty) →
      (Config.keyAgreement peer p = some (kt, kr, st, sr) →
        ∃ u w, exec (.keyAgreement p peer m) s = .next u ∧ s.sameMem u ∧ slotAt (u.span p).tx 0 = ⟨kt, st, 0, some e, .live⟩ ∧
          slotAt (u.span p).rx 0 = ⟨kr, sr, 0, none, .live⟩ ∧ (u.span p).cur = 0 ∧ (u.span p).peerPart = m ∧ .status w 0 ∈ u.out) ∧
      (Config.keyAgreement peer p = none → ∃ u w, exec (.keyAgreement p peer m) s = .next u ∧ u.spans = s.spans ∧ .status w 1 ∈ u.out)) ∧
    (s.sdUp = true → x.cur < 2 → (slotAt x.tx x.cur).state = .live →
      (∀ i j kt kr st sr, emptyKeySlot x.rx = some i → emptyKeySlot x.tx = some j → Config.rolloverKeys p s.free = (kt, kr, st, sr) →
        ∃ u, exec (.keyRollover p) s = .next u ∧ s.sameMem u ∧ slotAt (u.span p).tx j = ⟨kt, st, 0, some e, .live⟩ ∧
          slotAt (u.span p).rx i = ⟨kr, sr, 0, none, .live⟩ ∧ (u.span p).cur = j ∧ (slotAt (u.span p).tx x.cur).state = .retiring) ∧
      (emptyKeySlot x.rx = none ∨ emptyKeySlot x.tx = none → ∃ w, exec (.keyRollover p) s = .next { s with out := .status w 2 :: s.out }) ∧
      (2 ^ 36 ≤ (slotAt x.tx x.cur).used → exec (.keyUseLimit p) s = .next { s with agenda := s.agenda ++ [.keyRollover p] }) ∧
      ((slotAt x.tx x.cur).used < 2 ^ 36 → exec (.keyUseLimit p) s = .next s)) ∧
    (x.cur < 2 → (mayRetire s p = true → ∃ u, exec (.slotRetire p) s = .next u ∧ s.sameMem u ∧ slotAt (u.span p).tx (1 - x.cur) = KeySlot.reset ∧
        slotAt (u.span p).tx x.cur = slotAt x.tx x.cur) ∧
      (mayRetire s p = false → exec (.slotRetire p) s = .next s)) ∧
    (∀ q, (4 ≤ Table.at (s.link (320 + p)).authFail q 0 → ∃ u, exec (.spanAuthFailure p q) s = .next u ∧ (u.link (320 + p)).up = false ∧
        (u.span p).tx = Vector.replicate 2 KeySlot.reset ∧ (u.span p).rx = Vector.replicate 2 KeySlot.reset) ∧
      (Table.at (s.link (320 + p)).authFail q 0 < 4 → exec (.spanAuthFailure p q) s = .next s))

/-- R49, R51, R52, R54, R56, R71. A word of a partition's memory that the host writes or reads through its function, that physical function
0, a drive below a root port or the peer package writes or reads: the write changes those four bytes and no other, the read answers what
stands there, and the peer's addition answers the old value. A function that the port does not reach, and a port that is down or whose IDE
streams are not active, answer Unsupported Request; a request for
a die in reset is held; the peer package's request in another partition's name counts as a bad flit.
Model's choices that it rests on: log 59, 86. -/
def Obligations.OutsideAccesses : Prop :=
  ∀ (s : State) (p port off k : Nat) (v : Word), s.clearOf k 4 → memKey k → off % 4 = 0 → k % 4 = 0 →
    let data := leBytes 4 v.toNat
    let old := leBytes 4 (memWord s.mem k).toNat
    let writes (i : Instr) : Prop := ∃ u, exec i s = .next u ∧ s.sameMemBut u k 4 ∧ memWord u.mem k = v ∧ u.th = s.th ∧ u.threads = s.threads
    let reads (i : Instr) (m : OutMsg) : Prop := exec i s = .next { s with out := m :: s.out }
    (bar4 s p off = some k → bar4 s p (off + 3) = some (k + 3) →
      (∀ o, o = off ∨ o = off + 3 → ∀ j, bar4 s p o = some j → homeHeld s (56 + port / 2) j = false) →
      hostReaches s p port = true → s.portHeld port = none → (∀ x ∈ s.deferred, portKey port ∉ x.1) →
      writes (.hostMemoryWrite p port off data) ∧ reads (.hostMemoryRead p port off 4) (.readData port old)) ∧
    (hostReaches s p port = false → reads (.hostMemoryWrite p port off data) (.unsupported port) ∧
      reads (.hostMemoryRead p port off 4) (.unsupported port)) ∧
    (bar4 s p off = some k → homeHeld s (56 + port / 2) k = true → hostReaches s p port = true → s.portHeld port = none →
      ∃ u h, exec (.hostMemoryWrite p port off data) s = .next u ∧ s.sameMem u ∧ u.heldMsgs = s.heldMsgs ++ [h] ∧
        h.event = .hostMemoryWrite p port off data ∧ h.since = s.clk ∧ h.die = homeSocket k) ∧
    ((s.port port).root = false → s.portOpen port = true → s.portHeld port = none → (∀ x ∈ s.deferred, portKey port ∉ x.1) →
      managementKey s 4 off = some k → managementKey s 4 (off + 3) = some (k + 3) →
      homeHeld s (56 + port / 2) k = false → homeHeld s (56 + port / 2) (k + 3) = false →
      writes (.managementBarAccess ⟨port, 4⟩ off true data 0) ∧ reads (.managementBarAccess ⟨port, 4⟩ off false [] 4) (.readData port old)) ∧
    ((s.port port).root = true ∨ s.portOpen port = false → reads (.managementBarAccess ⟨port, 4⟩ off true data 0) (.unsupported port)) ∧
    (∀ q, (s.port port).root = true → s.portOpen port = true → (∀ x ∈ s.deferred, portKey port ∉ x.1) → (s.port port).parts = [p] → s.part? p = some q →
      q.running = true → q.id = p → s.portHeld port = none → isStack k = true → k < 2 ^ 52 →
      upstreamKey s p k = some k → upstreamKey s p (k + 3) = some (k + 3) → upstreamKey s p (k / 8 * 8 + 4) = some (k / 8 * 8 + 4) →
      homeHeld s (56 + port / 2) k = false → homeHeld s (56 + port / 2) (k + 3) = false →
      writes (.upstreamRequest port (BitVec.ofNat 64 k) true data 0) ∧
        reads (.upstreamRequest port (BitVec.ofNat 64 k) false [] 4) (.readData port old)) ∧
    (∀ m n, s.spanUp port = true → (s.span port).part = p → (s.span port).peerPart = m →
      bar4 s p off = some k → bar4 s p (off + 3) = some (k + 3) → homeHeld s (56 + port / 8) k = false →
      let answers (op : SpanOp) (w : Word) (r : List Byte) : Prop :=
        ∃ u, exec (.spanRequest port m off op) s = .next u ∧ s.sameMemBut u k 4 ∧ memWord u.mem k = w ∧ .spanReply port (some r) ∈ u.out
      answers (.read 4) (memWord s.mem k) old ∧ answers (.write data) v [] ∧
        answers (.rmw 0 false (v.setWidth 64) n) (memWord s.mem k + v) old) ∧
    (∀ m op, s.spanUp port = true → m ≠ (s.span port).peerPart →
      ∃ u, exec (.spanRequest port m off op) s = .next u ∧ u = { s with links := u.links } ∧
        u.link (320 + port) = { s.link (320 + port) with bad := (s.link (320 + port)).bad + 1 })

/-- R23, R73 to R76. A period reloads every budget and puts deferred work first. A scrub within its allowance spends it, and one of a core takes
the next issue slot, and delays by one clk the threads that are due later; one beyond it, or behind one that waits, is deferred to the next
period. An uncorrectable error is recorded, and kills the thread that holds it.
Model's choices that it rests on: log 64. -/
def Obligations.BackgroundWork : Prop :=
  ∀ (s : State),
    (∃ u, exec .budgetPeriod s = .next u ∧ s.sameMem u ∧ u.budget = [] ∧ u.deferred = [] ∧ s.deferred.map Prod.snd <+: u.agenda) ∧
    ((∀ x ∈ s.links, x.2.queue = []) →
      exec .budgetPeriod s = .next { s with budget := [], agenda := s.deferred.map Prod.snd ++ s.agenda, deferred := [] }) ∧
    (∀ c,
      let used := Table.at s.budget (2 ^ 22 + c) 0
      let waits := ∃ x ∈ s.deferred, 2 ^ 22 + c ∈ x.1
      (used < 10 → ¬waits → ∃ u, exec (.patrolScrub (.core c) false) s = .next u ∧ s.sameMem u ∧
        u.th = (if s.th.live = true ∧ s.th.core = c ∧ s.clk < s.th.readyAt then { s.th with readyAt := s.th.readyAt + 1 } else s.th) ∧
        (u.core c).issued = max s.clk (s.core c).issued + 1 ∧ Table.at u.budget (2 ^ 22 + c) 0 = used + 1) ∧
      (10 ≤ used ∨ waits → ∃ u, exec (.patrolScrub (.core c) false) s = .next u ∧ u.cores = s.cores ∧ u.th = s.th ∧ u.budget = s.budget ∧
        u.deferred = s.deferred ++ [([2 ^ 22 + c], .patrolScrub (.core c) false)] ∧ ∃ k, (k, .budgetPeriod) ∈ u.timers)) ∧
    (∀ pa,
      let a := scrubKey pa
      let used := Table.at s.budget a 0
      let waits := ∃ x ∈ s.deferred, a ∈ x.1
      (used < 100 → ¬waits → ∃ u, exec (.patrolScrub (.range pa 64) false) s = .next u ∧ s.sameMem u ∧ u.th = s.th ∧
        Table.at u.budget a 0 = used + 1) ∧
      (100 ≤ used ∨ waits → ∃ u, exec (.patrolScrub (.range pa 64) false) s = .next u ∧ s.sameMem u ∧ u.budget = s.budget ∧
        u.deferred = s.deferred ++ [([a], .patrolScrub (.range pa 64) false)])) ∧
    (∀ pa n p, (keyDie pa).bind s.partOfDie = some p → ∃ u, exec (.uncorrectableError (.range pa n)) s = .next u ∧ u.th = s.th ∧
      Says.records s p 2 u) ∧
    (∀ c p, s.partOfDie (coreDie c) = some p → (s.core c).movers = [] → ∃ u, exec (.uncorrectableError (.core c)) s = .next u ∧ u.th = s.th ∧
      Says.records s p 2 u) ∧
    (s.th.live = true → ∃ u, exec (.uncorrectableError (.thread s.th.uid)) s = .next u ∧ u.thread? s.th.uid = none)

/-! The whole machine: reset, the canonical form, encoding, and what a step runs. -/

/-- R15, R16, R20, R55, R199, R200, R404. After a cold reset the clock count is 0, no partition is configured, no thread exists, memory reads zero
everywhere, every full/empty bit is empty, the trip latch is clear, the measurement registers and aperture entries are zero, no die is
present and its control words are zero, and bring-up is in its first phase, which ends within 200 ms. The reset state is in canonical form, and a thread's p0 reads true.
Model's choices that it rests on: log 8. -/
def Obligations.ResetValues : Prop :=
  let s := State.reset
  s.clk = 0 ∧ s.parts = [] ∧ s.threads = [] ∧ s.th.live = false ∧ (∀ a, memRead s.mem a = 0) ∧ (∀ a, isFull s.full a = false) ∧ s.trip = false ∧
    (∀ r, (_ : r < 16) → s.meas[r] = 0) ∧ (∀ k, (_ : k < 64) → s.apert[k] = 0) ∧ (∀ k, (_ : k < 16) → s.spanApert[k] = 0) ∧ s.phase = 0 ∧ s.timers = [(200000000, .bringUpPhase [])] ∧ s.wf ∧ s.th.rdP 0 = true ∧
    ∀ d, d < 24 → (s.die d).present = false ∧ (s.die d).mcb = ⟨0, 0, 0, 0⟩ ∧ (∀ k, s.evCounter d k = EvCounter.reset) ∧ (s.die d).tsel = 0

/-- Every step keeps memory and the list of full words in their canonical forms: equal contents are equal data.
Model's choices that it rests on: log 8, 9. -/
def Obligations.StepKeepsCanonical : Prop := ∀ s u : State, s.wf → step s = .next u → u.wf

/-- R268, R274, R276, R278, R280, R288. Encoding and decoding agree in every version: a well-formed instruction's parcels decode to it with
its length, whatever follows them; and parcels that decode are those of the instruction that they decode to. -/
def Obligations.DecodeEncode : Prop :=
  (∀ (v : Ver) (i : Instr) (rest : List (BitVec 16)), wellFormed v i = true → encode i ≠ [] →
    decode v (encodeV v i ++ rest) = some (i, (encodeV v i).length)) ∧
  ∀ (v : Ver) (l : List (BitVec 16)) (i : Instr) (n : Nat), decode v l = some (i, n) →
    wellFormed v i = true ∧ encodeV v i = l.take n ∧ (n = 1 ∨ n = 2)

/-- The parcel p stands at a PC of a thread whose code is native: within the bound, at a translated address that the thread may execute. -/
def Says.parcel (s : State) (t : Thread) (pc : Nat) (p : BitVec 16) : Prop :=
  pc < t.bound ∧ ∃ l, checkAddr s (agentOf t 0) (BitVec.ofNat 64 (t.codeVA + 2 * pc)) 2 needX false = .ok l ∧ p = memHalf s.mem l.key

/-- R264, R274 to R276, R155. A STEP RUNS THE DECODED INSTRUCTION. When the turn is a thread's and no pending event enters its handler, and the
parcels at its PC (past an rx prefix that has issued) decode to i, the step is exec of i at that state; the parcel 0, an encoding that does
not decode and a PC at the bound raise their traps. On a wave engine the registers that the instruction writes then await their results. A
pending event enters the handler in place of the instruction. An event whose turn it is takes its course, an input of the agenda before a
timer.
Model's choices that it rests on: log 3, 84. -/
def Obligations.StepRunsDecoded : Prop :=
  ∀ (s : State),
    (∀ u z, turn s = .thread u z →
      let y := bringUp z u
      let b := y.put (y.th.settleCur y.clk)
      let t := b.th
      let v := Ver.ofByte t.version
      let runs (i : Instr) : Prop := (t.isWave = false → step s = exec i b) ∧ ∀ w, exec i b = .next w → step s = .next (scoreboard b i w)
      (t.inH = true ∨ t.rx = true ∨ (t.pend.getLsbD 2 = false ∧ t.pend.getLsbD 3 = false) → t.isCuique = false →
        (∀ p i, Says.parcel b t t.at_ p → decode v [p] = some (i, 1) → runs i) ∧
        (∀ p q i, Says.parcel b t t.at_ p → Says.parcel b t (t.at_ + 1) q → decode v [p, q] = some (i, 2) → runs i) ∧
        (Says.parcel b t t.at_ 0 → step s = exec .zeroParcel b) ∧
        (∀ p, Says.parcel b t t.at_ p → p ≠ 0 → p.getLsbD 0 = false → decode v [p] = none → step s = exec .illegalInstruction b) ∧
        (∀ p q, Says.parcel b t t.at_ p → Says.parcel b t (t.at_ + 1) q → p.getLsbD 0 = true → decode v [p, q] = none →
          step s = exec .illegalInstruction b) ∧
        (t.bound ≤ t.at_ → step s = exec .fetchBound b)) ∧
      (t.inH = false → t.rx = false → t.run = .ready → awaits y t 0 4 = false → t.pend.getLsbD 2 = true ∨ t.pend.getLsbD 3 = true →
        ∃ w, step s = .next w ∧ w.th.inH = true ∧ w.th.pc = t.lhpc ∧ w.th.lhret = t.pc ∧
          w.th.lhcause = if t.pend.getLsbD 2 then 2 else 3)) ∧
    (s.trip = false → s.clockHeld = false →
      (prefixed s = true → turn s = .thread s.th.uid s) ∧
      (prefixed s = false → (updateNow s).orElse (fun _ => rejoin s (neededCore s)) = none →
        (∀ e r, s.agenda = e :: r → step s = runEvent e { s with agenda := r }) ∧
        (s.agenda = [] → ∀ c e r, s.timers = (c, e) :: r → c ≤ s.clk → step s = runEvent e { s with timers := r })))

/-- R11, R14. The step stops exactly while the package is held: by a thermal trip until a cold reset, or by the loss of the reference until
it returns or a cold reset; every instruction and event gives a next state.
Model's choices that it rests on: log 10. -/
def Obligations.StepStopsWhenHeld : Prop :=
  ∀ (s : State),
    (s.trip = true → .coldReset ∉ s.agenda → step s = .fault .thermalTrip) ∧
    (s.trip = false → s.clockHeld = true → .coldReset ∉ s.agenda → .clockReferenceReturn ∉ s.agenda → step s = .fault .packageHeld) ∧
    (s.trip = true ∨ s.clockHeld = true → .coldReset ∈ s.agenda → ∃ u, step s = .next u) ∧
    (s.trip = false → s.clockHeld = false → ∃ u, step s = .next u) ∧
    (∀ i, ∃ u, exec i s = .next u)

/-- R101, R143. A swarm core with one eligible thread issues it: when nothing else is due, the step is exec of the instruction that stands at
its PC, at a state with the same memory and the thread as it was but for its turn counts.
Model's choices that it rests on: log 3. -/
def Obligations.OneThreadRuns : Prop :=
  ∀ (s : State) (c k : Nat) (p q : BitVec 16) (i : Instr),
    s.trip = false → s.clockHeld = false → s.th.rx = false → updateNow s = none → rejoin s (neededCore s) = none → s.agenda = [] → (∀ x ∈ s.timers, s.clk < x.1) →
    watchdogNow s = none → s.threads = [] → s.th.place = .swarm c k → k < 64 → (coreIsWave c = false ∨ coreCluster c = 15) →
    (s.core c).issued ≤ s.clk → s.th.cur = none → (∀ e ∈ s.cores, e.2.wave = []) → eligible s s.th = true →
    (s.th.inH = true ∨ (s.th.pend.getLsbD 2 = false ∧ s.th.pend.getLsbD 3 = false)) → s.th.isCuique = false →
    Says.parcel s s.th s.th.pc.toNat p → Says.parcel s s.th (s.th.pc.toNat + 1) q →
    (decode (Ver.ofByte s.th.version) [p] = some (i, 1) ∨ decode (Ver.ofByte s.th.version) [p, q] = some (i, 2)) →
    ∃ z, step s = exec i z ∧ z.mem = s.mem ∧ z.th = { s.th with skip := 0, yields := 0 } ∧ z.threads = [] ∧ z.parts = s.parts ∧ z.clk = s.clk

/-- R278, R280, R281, R282, R288. Words written out from the encoding tables decode to their instructions: one or more of each format. -/
def Obligations.DecodeWords : Prop :=
  decode .v3 [0b00000#5 ++ 0b000001#6 ++ 0b0001#4 ++ 0#1] = some (.addS 1 0, 1) ∧
  ∀ (d a b : Code),
    (let w := 0#5 ++ b ++ a ++ d ++ 0#5 ++ 1#1; decode .v3 [w.extractLsb' 0 16, w.extractLsb' 16 16] = some (.add d a b, 2)) ∧
    (let w := 1#5 ++ b ++ a ++ d ++ 0#5 ++ 1#1; decode .v1 [w.extractLsb' 0 16, w.extractLsb' 16 16] = some (.sub d a b, 2)) ∧
    (let w := 0#5 ++ b ++ a ++ d ++ 1#5 ++ 1#1; decode .v3 [w.extractLsb' 0 16, w.extractLsb' 16 16] = some (.addi d a (0#5 ++ b), 2)) ∧
    (let w := 0#5 ++ 0#7 ++ a ++ d ++ 11#5 ++ 1#1; decode .v3 [w.extractLsb' 0 16, w.extractLsb' 16 16] = some (.call d (0#12 ++ a), 2)) ∧
    (let w := 0#5 ++ b ++ a ++ d ++ 23#5 ++ 1#1; decode .v3 [w.extractLsb' 0 16, w.extractLsb' 16 16] = some (.shfl d a b, 2)) ∧
    (let w := 6#5 ++ b ++ a ++ d ++ 28#5 ++ 1#1; decode .v3 [w.extractLsb' 0 16, w.extractLsb' 16 16] = some (.launch d a b, 2)) ∧
    (let w := 0#5 ++ b ++ a ++ d ++ 31#5 ++ 1#1; decode .v3 [w.extractLsb' 0 16, w.extractLsb' 16 16] = none)

/-- R291, R283, R288. An instruction that the opcode map marks S raises the wrong-engine trap on a wave engine, one that it marks W does on a
swarm core, and a load or store of reach 2 or 3 does on a wave engine, all before any operand resolves. -/
def Obligations.WrongEngine : Prop :=
  ∀ (s : State) (d a b : Code) (n r m : BitVec 2) (p z : BitVec 3) (o : BitVec 5) (v w : BitVec 4) (k : BitVec 1),
    (s.th.isWave = true →
      (∀ i ∈ [Instr.qget d n, .qput n a, .qctl n a, .qpeek d n, .go a, .spawn a b, .wenter a, .mvcopy a p z, .mvcopy2 a p z, .mvgath a p z,
        .mvscat a p z, .mvfill a p z, .mvred a p z], s.traps i .wrongEngine) ∧
      (2 ≤ r.toNat → ∀ i ∈ [Instr.ldB d b r m o, .ldH d b r m o, .ldW d b r m o, .ldD d b r m o, .ldQ d b r m o, .ldBs d b r m o,
        .ldHs d b r m o, .ldExtended d b r m p, .stB d b r m o, .stH d b r m o, .stW d b r m o, .stD d b r m o, .stQ d b r m o,
        .stExtended d b r m p, .ldf d b r m o, .lde d b r m o, .stf d b r m o, .stx d b r m o, .fest d b r m o, .sete b r m o,
        .ldm d b r m o, .stm d b r m o], s.traps i .wrongEngine)) ∧
    (s.th.isWave = false →
      ∀ i ∈ [Instr.wleave a, .inval a, .wback a, .cset b a, .csetHigh b a, .shfl d a b, .shflx d a b, .voteAny v w, .voteAll v w, .ballot d w,
        .lsum d a n, .lmin d a n, .bcast d a b, .mrdy, .mwait, .mmaBf16 d a b k, .mmaF16 d a b k, .mmaF8E4m3E4m3 d a b k,
        .mmaF8E4m3E5m2 d a b k, .mmaF8E5m2E4m3 d a b k, .mmaF8E5m2E5m2 d a b k, .mmaF8S8 d a b k, .mmaQ4 d a b k, .mmaMx4 d a b k,
        .mmaTs8W8 d a b k, .mmaTs8W4 d a b k, .smp d a b, .smpl d a b, .smpg d a b, .fetch d a b, .interp d a b, .ddx d a, .ddy d a,
        .pemit a b, .pemitCull a, .pexp a b, .kill], s.traps i .wrongEngine)

/-! Statements of several parts. -/

/-- Integer, immediate, constant, select and 16-bit instructions write the results of the tables: Says.IntegerArithmetic, Says.ImmediateResults, Says.ShortForms. -/
def Obligations.IntegerResults : Prop :=
  Says.IntegerArithmetic ∧ Says.ImmediateResults ∧ Says.ShortForms

/-- Pair forms, division in both widths, and bit counts give the values of R303 to R305: Says.PairResults, Says.Division, Says.BitCounts. -/
def Obligations.WideResults : Prop :=
  Says.PairResults ∧ Says.Division ∧ Says.BitCounts

/-- Branches, calls, jumps, returns, nop and yield: where control goes and what stays: Says.Branches, Says.CallsAndJumps, Says.NopAndYield. -/
def Obligations.ControlTransfer : Prop :=
  Says.Branches ∧ Says.CallsAndJumps ∧ Says.NopAndYield

/-- Instructions on index and extension registers give the values of R319 and R321: Says.IndexRegisters, Says.ExtensionRegisters. -/
def Obligations.IndexAndExtension : Prop :=
  Says.IndexRegisters ∧ Says.ExtensionRegisters

/-- Floating-point instructions complete, write their result once and raise FLOAT after it: Says.BinaryFloats, Says.FusedCompletion, Says.Float64Completion. -/
def Obligations.FloatCompletion : Prop :=
  Says.BinaryFloats ∧ Says.FusedCompletion ∧ Says.Float64Completion

/-- Conversions read, round and write each type, with the results out of range: Says.ConversionForms, Says.ConversionValues. -/
def Obligations.Conversions : Prop :=
  Says.ConversionForms ∧ Says.ConversionValues

/-- Loads, stores and their multiple-register forms move exactly the bytes at their address: Says.LoadResults, Says.StoreResults, Says.ShortMemoryForms, Says.MultipleRegisters. -/
def Obligations.LoadsAndStores : Prop :=
  Says.LoadResults ∧ Says.StoreResults ∧ Says.ShortMemoryForms ∧ Says.MultipleRegisters

/-- Accesses that leave their thread, their performance and reply, and the rx prefix: Says.AccessesThatLeave, Says.HomesAndReplies, Says.RxPrefix. -/
def Obligations.LeavingAccesses : Prop :=
  Says.AccessesThatLeave ∧ Says.HomesAndReplies ∧ Says.RxPrefix

/-- Group and gang barriers, and barrier objects: Says.GroupBarriers, Says.BarrierObjects. -/
def Obligations.Barriers : Prop :=
  Says.GroupBarriers ∧ Says.BarrierObjects

/-- Messages go to the core that is named, and wait for a die in reset: Says.MessagesSent, Says.MessagesHeld. -/
def Obligations.Messages : Prop :=
  Says.MessagesSent ∧ Says.MessagesHeld

/-- Message registers and mailboxes deliver in order: Says.MessageRegisters, Says.Mailboxes. -/
def Obligations.MessageReceipt : Prop :=
  Says.MessageRegisters ∧ Says.Mailboxes

/-- State words and uniform registers are read and written as their table says: Says.StateWordsRead, Says.StateWordsWritten, Says.UniformRegisters. -/
def Obligations.StateWords : Prop :=
  Says.StateWordsRead ∧ Says.StateWordsWritten ∧ Says.UniformRegisters

/-- Light-handler events, entry and return: Says.HandlerReturns, Says.HandlerEvents. -/
def Obligations.Handlers : Prop :=
  Says.HandlerReturns ∧ Says.HandlerEvents

/-- Supervisor actions on a parked thread and writes of its context: Says.ThreadResolution, Says.ContextWrites. -/
def Obligations.ThreadControl : Prop :=
  Says.ThreadResolution ∧ Says.ContextWrites

/-- go and spawn send contexts to the core that they name: Says.GoMoves, Says.SpawnSends. -/
def Obligations.GoAndSpawn : Prop :=
  Says.GoMoves ∧ Says.SpawnSends

/-- Migrants land in order; crossings between engines keep every register: Says.MigrantsLand, Says.Crossings. -/
def Obligations.Landings : Prop :=
  Says.MigrantsLand ∧ Says.Crossings

/-- Mover commands are posted, performed element by element, and reported: Says.MoverPosts, Says.MoverElements. -/
def Obligations.Movers : Prop :=
  Says.MoverPosts ∧ Says.MoverElements

/-- Cross-lane instructions and quad derivatives: Says.CrossLane, Says.Derivatives. -/
def Obligations.LanesAndQuads : Prop :=
  Says.CrossLane ∧ Says.Derivatives

/-- Teams, matrix issue and matrix results: Says.Teams, Says.MatrixResults. -/
def Obligations.Matrices : Prop :=
  Says.Teams ∧ Says.MatrixResults

/-- Texture fetch and sampling: Says.TextureFetch, Says.TextureSampling. -/
def Obligations.Textures : Prop :=
  Says.TextureFetch ∧ Says.TextureSampling

/-- Pixel instructions and primitive emission: Says.PixelInstructions, Says.PrimitiveEmission. -/
def Obligations.Pixels : Prop :=
  Says.PixelInstructions ∧ Says.PrimitiveEmission

/-- Stream words fill once; fault records that waited are written when there is space: Says.StreamWrites, Says.FaultQueueSpace. -/
def Obligations.StreamsAndQueues : Prop :=
  Says.StreamWrites ∧ Says.FaultQueueSpace

/-- Gangs are placed, reserved for, pre-empted, saved and restored: Says.GangsPlaced, Says.GangsPreempted. -/
def Obligations.GangCourse : Prop :=
  Says.GangsPlaced ∧ Says.GangsPreempted

/-- Page walks, invalidations, and replies from outside: Says.PageWalks, Says.LateReplies. -/
def Obligations.TranslationAndReplies : Prop :=
  Says.PageWalks ∧ Says.LateReplies

/-- Partition commands and the other acts of the service die: Says.PartitionCommands, Says.ServiceDieActs. -/
def Obligations.ServiceDie : Prop :=
  Says.PartitionCommands ∧ Says.ServiceDieActs

/-- Links retrain, repeat and fail; span keys roll over: Says.LinkEvents, Says.SealingKeys. -/
def Obligations.LinkLayer : Prop :=
  Says.LinkEvents ∧ Says.SealingKeys
end

