-- ==== Sys2Proof/Laws/Faults.lean ====
section
/-! SUPPORT. Taking an exception, said once: what a raised cause leaves of its thread, what entering and leaving a handler change, and the
engine check. -/

namespace Sys2Proof.Machine
open Sys2Proof

/-- A parked fault keeps the thread's context and names its cause, position and index. -/
theorem parkFault_thread (s : State) (t : Thread) (f : FaultRec) :
    ∃ g, (parkFault s t f).2.run = .faulted g ∧ g.cause = f.cause ∧ g.pos = f.pos ∧ g.idx = f.idx ∧ (parkFault s t f).2.pc = t.pc ∧
      (parkFault s t f).2.g = t.g ∧ (parkFault s t f).2.p = t.p ∧ (parkFault s t f).2.idx = t.idx ∧ (parkFault s t f).2.x = t.x ∧
      t.specials (parkFault s t f).2 := by
  unfold parkFault
  dsimp only
  split
  · exact ⟨_, rfl, rfl, rfl, rfl, rfl, rfl, rfl, rfl, rfl, by simp [Thread.specials]⟩
  · exact ⟨_, rfl, rfl, rfl, rfl, rfl, rfl, rfl, rfl, rfl, by simp [Thread.specials]⟩

/-- An instruction that raises a cause at once traps with it. -/
theorem raise_traps {s : State} {i : Instr} {f : FaultRec} (e : exec i s = .next (raise s f)) : s.traps i f.cause := by
  obtain ⟨g, h1, h2, _, _, h5, h6, h7, h8, h9, h10⟩ := parkFault_thread s s.th f
  exact ⟨_, g, e, h1, h2, h5, h6, h7, h8, h9, h10⟩

/-- A check of the engine that fails is the wrong-engine trap. -/
theorem onEngine_traps {s : State} {i : Instr} {w : Bool} {len : Nat} {k : State} (e : exec i s = .next (onEngine w s len k))
    (h : s.th.isWave ≠ w) : s.traps i .wrongEngine := by
  rw [onEngine, if_neg h] at e
  exact raise_traps e

/-- A check of the engine that holds goes on. -/
theorem onEngine_same {s : State} {w : Bool} {len : Nat} {k : State} (h : s.th.isWave = w) : onEngine w s len k = k := by
  rw [onEngine, if_pos h]

/-- The exchange of the first four registers is its own inverse. -/
theorem exchange_twice (t : Thread) : (exchange (exchange t)).g = t.g ∧ (exchange (exchange t)).h = t.h := by
  constructor
  · ext i hi
    simp only [exchange, Vector.getElem_set]
    split
    · next h => subst h; simp
    · split
      · next h => subst h; simp
      · split
        · next h => subst h; simp
        · split
          · next h => subst h; simp
          · rfl
  · ext i hi
    have : i = 0 ∨ i = 1 ∨ i = 2 ∨ i = 3 := by omega
    rcases this with rfl | rfl | rfl | rfl <;> simp [exchange]

/-- The bookkeeping of awaited results touches nothing else of a thread (R146). -/
theorem settleCur_same (t : Thread) (clk : Nat) :
    (t.settleCur clk).g = t.g ∧ (t.settleCur clk).p = t.p ∧ (t.settleCur clk).idx = t.idx ∧ (t.settleCur clk).x = t.x ∧
      (t.settleCur clk).h = t.h ∧ (t.settleCur clk).pc = t.pc := by
  unfold Thread.settleCur
  cases t.cur <;> simp

/-- What entry to a handler sets, and that predicates, index and extension registers stay. -/
theorem enterHandler_thread (t : Thread) (clk cause : Nat) (dat ret : Word) :
    (enterHandler t clk cause dat ret).inH = true ∧ (enterHandler t clk cause dat ret).pc = t.lhpc ∧
      (enterHandler t clk cause dat ret).lhret = ret ∧ (enterHandler t clk cause dat ret).lhdat = dat ∧
      (enterHandler t clk cause dat ret).lhcause = BitVec.ofNat 32 cause ∧ (enterHandler t clk cause dat ret).p = t.p ∧
      (enterHandler t clk cause dat ret).idx = t.idx ∧ (enterHandler t clk cause dat ret).x = t.x := by
  simp [enterHandler, exchange, settleCur_same]

end Sys2Proof.Machine
end

