-- ==== Sys2Proof/Laws/Memory.lean ====
section
/-! SUPPORT. Memory, full bits and tables: a read after a write, what a write leaves alone, and the canonical forms. -/

namespace Sys2Proof.Machine
open Sys2Proof

/-! Tables. -/

/-- An entry just set reads back. -/
@[simp] theorem get_put {α : Type} (t : Table α) (k : Nat) (v : α) : Table.get (Table.put t k v) k = some v := by
  induction t with
  | nil => simp [Table.put, Table.get]
  | cons e r ih =>
    obtain ⟨j, w⟩ := e
    unfold Table.put
    split
    · simp [Table.get]
    · split
      · simp [Table.get]
      · simp only [Table.get]
        rw [if_neg (by omega), ih]

/-- Setting an entry leaves every other. -/
theorem get_put_other {α : Type} (t : Table α) {k j : Nat} (v : α) (h : j ≠ k) : Table.get (Table.put t k v) j = Table.get t j := by
  induction t with
  | nil => simp [Table.put, Table.get, Ne.symm h]
  | cons e r ih =>
    obtain ⟨i, w⟩ := e
    unfold Table.put
    split
    · simp [Table.get, Ne.symm h]
    · split
      · next e => subst e; simp [Table.get, Ne.symm h]
      · simp only [Table.get, ih]

@[simp] theorem at_put {α : Type} (t : Table α) (k : Nat) (v d : α) : Table.at (Table.put t k v) k d = v := by
  simp [Table.at]

theorem at_put_other {α : Type} (t : Table α) {k j : Nat} (v d : α) (h : j ≠ k) : Table.at (Table.put t k v) j d = Table.at t j d := by
  simp [Table.at, get_put_other t v h]

/-! One byte. -/

theorem memRead_insert (m : Memory) (a b : Nat) (v : Byte) : memRead (memInsert m a v) b = if b = a then v else memRead m b := by
  induction m with
  | nil =>
    by_cases h : b = a
    · simp [memInsert, memRead, h]
    · simp [memInsert, memRead, h, Ne.symm h]
  | cons e r ih =>
    obtain ⟨k, w⟩ := e
    unfold memInsert
    split
    · by_cases h : b = a
      · simp [memRead, h]
      · simp [memRead, h, Ne.symm h]
    · split
      · next e =>
        subst e
        by_cases h : b = a
        · simp [memRead, h]
        · simp [memRead, h, Ne.symm h]
      · next n =>
        simp only [memRead, ih]
        by_cases h : b = a
        · subst h; simp [Ne.symm n]
        · simp [h]

theorem memRead_remove (m : Memory) (a b : Nat) :
    memRead (m.filter (fun c => c.1 != a)) b = if b = a then unlisted else memRead m b := by
  induction m with
  | nil => simp [memRead]
  | cons e r ih =>
    obtain ⟨k, w⟩ := e
    by_cases h : k = a
    · subst h
      simp only [List.filter_cons, bne_self_eq_false, Bool.false_eq_true, if_false, ih, memRead]
      by_cases c : b = k
      · simp [c]
      · simp [c, Ne.symm c]
    · have : (k != a) = true := by simpa using h
      simp only [List.filter_cons, this, if_true, memRead, ih]
      by_cases c : b = a
      · subst c; simp [h]
      · simp [c]

/-- A read after a write of one byte. -/
theorem memRead_write (m : Memory) (a b : Nat) (v : Byte) : memRead (memWrite m a v) b = if b = a then v else memRead m b := by
  unfold memWrite
  split
  · next h => rw [memRead_remove, h]
  · exact memRead_insert m a b v

/-! The canonical form. -/

theorem memWf_weaken {m : Memory} {x y : Option Nat} (h : memWfFrom x m = true)
    (l : ∀ j, y = some j → ∃ i, x = some i ∧ j ≤ i) : memWfFrom y m = true := by
  cases m with
  | nil => rfl
  | cons e r =>
    obtain ⟨k, v⟩ := e
    simp only [memWfFrom, Bool.and_eq_true] at h ⊢
    refine ⟨⟨?_, h.1.2⟩, h.2⟩
    cases y with
    | none => rfl
    | some j =>
      obtain ⟨i, rfl, hi⟩ := l j rfl
      have := h.1.1
      simp at this ⊢
      omega

theorem memWf_filter {m : Memory} {x : Option Nat} (f : Host.Cell → Bool) (h : memWfFrom x m = true) : memWfFrom x (m.filter f) = true := by
  induction m generalizing x with
  | nil => rfl
  | cons e r ih =>
    obtain ⟨k, v⟩ := e
    simp only [memWfFrom, Bool.and_eq_true] at h
    simp only [List.filter_cons]
    split
    · simp only [memWfFrom, Bool.and_eq_true]
      exact ⟨h.1, ih h.2⟩
    · refine memWf_weaken (ih h.2) (fun j e => ⟨k, rfl, ?_⟩)
      subst e
      have := h.1.1
      simp at this
      omega

theorem memWf_cons {x : Option Nat} {k : Nat} {v : Byte} {r : Memory} :
    memWfFrom x ((k, v) :: r) = true ↔ (∀ j, x = some j → j < k) ∧ v ≠ unlisted ∧ memWfFrom (some k) r = true := by
  cases x <;> simp [memWfFrom, and_assoc]

theorem memWf_insert {m : Memory} {x : Option Nat} {a : Nat} {v : Byte} (h : memWfFrom x m = true) (n : v ≠ unlisted)
    (l : ∀ j, x = some j → j < a) : memWfFrom x (memInsert m a v) = true := by
  induction m generalizing x with
  | nil => exact memWf_cons.2 ⟨l, n, rfl⟩
  | cons e r ih =>
    obtain ⟨k, w⟩ := e
    obtain ⟨h1, h2, h3⟩ := memWf_cons.1 h
    unfold memInsert
    split
    · next lt => exact memWf_cons.2 ⟨l, n, memWf_cons.2 ⟨fun j e => by cases e; exact lt, h2, h3⟩⟩
    · split
      · next e => subst e; exact memWf_cons.2 ⟨l, n, h3⟩
      · exact memWf_cons.2 ⟨h1, h2, ih h3 (fun j e => by cases e; omega)⟩

/-- A write keeps the canonical form. -/
theorem memWrite_wf {m : Memory} (a : Nat) (v : Byte) (h : Memory.wf m = true) : Memory.wf (memWrite m a v) = true := by
  unfold memWrite
  split
  · exact memWf_filter _ h
  · next n => exact memWf_insert h n (by simp)

theorem filter_wf {m : Memory} (f : Host.Cell → Bool) (h : Memory.wf m = true) : Memory.wf (m.filter f) = true := memWf_filter f h

theorem clearRange_wf {m : Memory} (lo hi : Nat) (h : Memory.wf m = true) : Memory.wf (clearRange m lo hi) = true := filter_wf _ h

theorem writeBytes_wf (n : Nat) : ∀ {m : Memory} (a : Nat) (v : BitVec 128), Memory.wf m = true → Memory.wf (writeBytes m a n v) = true := by
  induction n with
  | zero => intro m a v h; exact h
  | succ n ih => intro m a v h; exact ih _ _ (memWrite_wf _ _ h)

theorem writeList_wf (l : List Byte) : ∀ {m : Memory} (a : Nat), Memory.wf m = true → Memory.wf (writeList m a l) = true := by
  induction l with
  | nil => intro m a h; exact h
  | cons v r ih => intro m a h; exact ih _ (memWrite_wf _ _ h)

/-! Wider writes. -/

/-- A wide write leaves every byte outside it. -/
theorem memRead_writeBytes_other (n : Nat) : ∀ (m : Memory) (a b : Nat) (v : BitVec 128), (b < a ∨ a + n ≤ b) →
    memRead (writeBytes m a n v) b = memRead m b := by
  induction n with
  | zero => intros; rfl
  | succ n ih =>
    intro m a b v h
    rw [writeBytes, ih _ _ _ _ (by omega), memRead_write, if_neg (by omega)]

/-- A wide write puts byte j of its value at a + j. -/
theorem memRead_writeBytes (n : Nat) : ∀ (m : Memory) (a j : Nat) (v : BitVec 128), j < n →
    memRead (writeBytes m a n v) (a + j) = (v >>> (8 * j)).setWidth 8 := by
  induction n with
  | zero => intros; omega
  | succ n ih =>
    intro m a j v h
    cases j with
    | zero => rw [writeBytes, memRead_writeBytes_other _ _ _ _ _ (by omega), memRead_write]; simp
    | succ j =>
      rw [writeBytes, show a + (j + 1) = a + 1 + j by omega, ih _ _ _ _ (by omega), ← BitVec.shiftRight_add,
        show 8 + 8 * j = 8 * (j + 1) by omega]

theorem memRead_writeList_other (l : List Byte) : ∀ (m : Memory) (a b : Nat), (b < a ∨ a + l.length ≤ b) →
    memRead (writeList m a l) b = memRead m b := by
  induction l with
  | nil => intros; rfl
  | cons v r ih =>
    intro m a b h
    simp only [List.length_cons] at h
    rw [writeList, ih _ _ _ (by omega), memRead_write, if_neg (by omega)]

/-- Clearing a range leaves zero in it and every byte outside it. -/
theorem memRead_clearRange (m : Memory) (lo hi a : Nat) :
    memRead (clearRange m lo hi) a = if lo ≤ a ∧ a < hi then unlisted else memRead m a := by
  induction m with
  | nil => simp [clearRange, memRead]
  | cons e r ih =>
    obtain ⟨k, v⟩ := e
    simp only [clearRange] at ih ⊢
    by_cases c : k < lo ∨ hi ≤ k
    · simp only [List.filter_cons, c, decide_true, if_true, memRead, ih]
      by_cases e : k = a
      · subst e
        rw [if_pos rfl, if_neg (by omega), if_pos rfl]
      · simp [e]
    · simp only [List.filter_cons, c, decide_false, Bool.false_eq_true, if_false, memRead, ih]
      by_cases e : k = a
      · subst e
        rw [if_pos (by omega), if_pos (by omega)]
      · simp [e]

/-! Full bits. -/

theorem mem_addFull (l : List Nat) (a b : Nat) : b ∈ addFull l a ↔ b = a ∨ b ∈ l := by
  induction l with
  | nil => simp [addFull]
  | cons k r ih =>
    unfold addFull
    split
    · simp
    · split
      · next e => subst e; simp
      · simp only [List.mem_cons, ih]; tauto

theorem isFull_addFull (l : List Nat) (a b : Nat) : isFull (addFull l a) b = decide (b = a ∨ isFull l b = true) := by
  simp [isFull, mem_addFull]

/-- The bit of a word after it is set, and of every other. -/
theorem isFull_setFull (l : List Nat) (a b : Nat) (v : Bool) : isFull (setFull l a v) b = if b = a then v else isFull l b := by
  cases v
  · simp only [setFull, Bool.false_eq_true, if_false, isFull]
    by_cases h : b = a
    · subst h; simp
    · simp [h]
  · simp only [setFull, if_true, isFull_addFull]
    by_cases h : b = a <;> simp [h]

theorem fullWf_weaken {l : List Nat} {x y : Option Nat} (h : fullWfFrom x l = true)
    (w : ∀ j, y = some j → ∃ i, x = some i ∧ j ≤ i) : fullWfFrom y l = true := by
  cases l with
  | nil => rfl
  | cons k r =>
    simp only [fullWfFrom, Bool.and_eq_true] at h ⊢
    refine ⟨?_, h.2⟩
    cases y with
    | none => rfl
    | some j =>
      obtain ⟨i, rfl, hi⟩ := w j rfl
      have := h.1
      simp at this ⊢
      omega

theorem fullWf_filter {l : List Nat} {x : Option Nat} (f : Nat → Bool) (h : fullWfFrom x l = true) : fullWfFrom x (l.filter f) = true := by
  induction l generalizing x with
  | nil => rfl
  | cons k r ih =>
    simp only [fullWfFrom, Bool.and_eq_true] at h
    simp only [List.filter_cons]
    split
    · simp only [fullWfFrom, Bool.and_eq_true]
      exact ⟨h.1, ih h.2⟩
    · refine fullWf_weaken (ih h.2) (fun j e => ⟨k, rfl, ?_⟩)
      subst e
      have := h.1
      simp at this
      omega

theorem fullWf_cons {x : Option Nat} {k : Nat} {r : List Nat} :
    fullWfFrom x (k :: r) = true ↔ (∀ j, x = some j → j < k) ∧ fullWfFrom (some k) r = true := by
  cases x <;> simp [fullWfFrom]

theorem fullWf_add {l : List Nat} {x : Option Nat} {a : Nat} (h : fullWfFrom x l = true) (w : ∀ j, x = some j → j < a) :
    fullWfFrom x (addFull l a) = true := by
  induction l generalizing x with
  | nil => exact fullWf_cons.2 ⟨w, rfl⟩
  | cons k r ih =>
    obtain ⟨h1, h2⟩ := fullWf_cons.1 h
    unfold addFull
    split
    · next lt => exact fullWf_cons.2 ⟨w, fullWf_cons.2 ⟨fun j e => by cases e; exact lt, h2⟩⟩
    · split
      · exact fullWf_cons.2 ⟨h1, h2⟩
      · exact fullWf_cons.2 ⟨h1, ih h2 (fun j e => by cases e; omega)⟩

/-- Setting a full bit keeps the list's canonical form. -/
theorem setFull_wf {l : List Nat} (a : Nat) (b : Bool) (h : fullWfFrom none l = true) : fullWfFrom none (setFull l a b) = true := by
  unfold setFull
  split
  · exact fullWf_add h (by simp)
  · exact fullWf_filter _ h

end Sys2Proof.Machine
end

