-- ==== Sys2Proof/Laws/Ops.lean ====
section
/-! SUPPORT. What the shared operations over operands and registers do, said once: writes of a context, advances of index registers,
overrides, resolution, and the end of an instruction. -/

namespace Sys2Proof.Machine
open Sys2Proof

/-! Writes of a context. -/

/-- Two contexts agree but for general registers, predicates, index and extension registers, PC and what an issue leaves. -/
def Thread.alike (t u : Thread) : Prop := t.specials u ∧ u.busy = t.busy ∧ u.rx = t.rx ∧ u.pc = t.pc ∧ u.seed = t.seed

theorem Thread.alike_refl (t : Thread) : t.alike t := by simp [Thread.alike, Thread.specials]

theorem Thread.alike_trans {t u v : Thread} (h : t.alike u) (k : u.alike v) : t.alike v := by
  simp only [Thread.alike, Thread.specials] at *
  simp_all

theorem wr_alike (t : Thread) (n : Nat) (v : Word) : t.alike (t.wr n v) := by simp [Thread.alike, Thread.specials, Thread.wr]
theorem wr2_alike (t : Thread) (n : Nat) (v : DWord) : t.alike (t.wr2 n v) := by simp [Thread.alike, Thread.specials, Thread.wr2, Thread.wr]
theorem wrP_alike (t : Thread) (n : Nat) (v : Bool) : t.alike (t.wrP n v) := by
  unfold Thread.wrP; split <;> simp [Thread.alike, Thread.specials]
theorem wrI_alike (t : Thread) (n : Nat) (v : Word) : t.alike (t.wrI n v) := by simp [Thread.alike, Thread.specials, Thread.wrI]
theorem wrX_alike (t : Thread) (n : Nat) (v : Word) : t.alike (t.wrX n v) := by simp [Thread.alike, Thread.specials, Thread.wrX]

@[simp] theorem wr_p (t : Thread) (n : Nat) (v : Word) : (t.wr n v).p = t.p := rfl
@[simp] theorem wr_idx (t : Thread) (n : Nat) (v : Word) : (t.wr n v).idx = t.idx := rfl
@[simp] theorem wr_x (t : Thread) (n : Nat) (v : Word) : (t.wr n v).x = t.x := rfl
@[simp] theorem wr_busy (t : Thread) (n : Nat) (v : Word) : (t.wr n v).busy = t.busy := rfl
@[simp] theorem wr2_p (t : Thread) (n : Nat) (v : DWord) : (t.wr2 n v).p = t.p := rfl
@[simp] theorem wr2_idx (t : Thread) (n : Nat) (v : DWord) : (t.wr2 n v).idx = t.idx := rfl
@[simp] theorem wr2_x (t : Thread) (n : Nat) (v : DWord) : (t.wr2 n v).x = t.x := rfl
@[simp] theorem wr2_busy (t : Thread) (n : Nat) (v : DWord) : (t.wr2 n v).busy = t.busy := rfl
@[simp] theorem wrP_g (t : Thread) (n : Nat) (v : Bool) : (t.wrP n v).g = t.g := by unfold Thread.wrP; split <;> rfl
@[simp] theorem wrP_idx (t : Thread) (n : Nat) (v : Bool) : (t.wrP n v).idx = t.idx := by unfold Thread.wrP; split <;> rfl
@[simp] theorem wrP_x (t : Thread) (n : Nat) (v : Bool) : (t.wrP n v).x = t.x := by unfold Thread.wrP; split <;> rfl
@[simp] theorem wrP_busy (t : Thread) (n : Nat) (v : Bool) : (t.wrP n v).busy = t.busy := by unfold Thread.wrP; split <;> rfl
@[simp] theorem wrI_g (t : Thread) (n : Nat) (v : Word) : (t.wrI n v).g = t.g := rfl
@[simp] theorem wrI_p (t : Thread) (n : Nat) (v : Word) : (t.wrI n v).p = t.p := rfl
@[simp] theorem wrI_x (t : Thread) (n : Nat) (v : Word) : (t.wrI n v).x = t.x := rfl
@[simp] theorem wrI_busy (t : Thread) (n : Nat) (v : Word) : (t.wrI n v).busy = t.busy := rfl
@[simp] theorem wrX_g (t : Thread) (n : Nat) (v : Word) : (t.wrX n v).g = t.g := rfl
@[simp] theorem wrX_p (t : Thread) (n : Nat) (v : Word) : (t.wrX n v).p = t.p := rfl
@[simp] theorem wrX_idx (t : Thread) (n : Nat) (v : Word) : (t.wrX n v).idx = t.idx := rfl
@[simp] theorem wrX_busy (t : Thread) (n : Nat) (v : Word) : (t.wrX n v).busy = t.busy := rfl

/-- A register that no matrix instruction holds takes the value written. -/
theorem wr_get {t : Thread} {n : Nat} {v : Word} (h : n < 128) (b : n ∉ t.busy) : (t.wr n v).g[n]? = some v := by
  simp [Thread.wr, b, h]

/-- A write leaves every other register. -/
theorem wr_other {t : Thread} {n k : Nat} {v : Word} (h : k ≠ n) : (t.wr n v).g[k]? = t.g[k]? := by
  simp only [Thread.wr]
  by_cases hk : k < 128
  · simp [hk, Ne.symm h]
  · simp [hk]

theorem wr2_lo {t : Thread} {n : Nat} {v : DWord} (h : n < 128) (b : n ∉ t.busy) : (t.wr2 n v).g[n]? = some (v.setWidth 32) := by
  rw [Thread.wr2, wr_other (by omega), wr_get h b]

theorem wr2_hi {t : Thread} {n : Nat} {v : DWord} (h : n + 1 < 128) (b : n + 1 ∉ t.busy) :
    (t.wr2 n v).g[n + 1]? = some (v.extractLsb' 32 32) := by
  rw [Thread.wr2, wr_get h (by simpa using b)]

theorem wr2_other {t : Thread} {n k : Nat} {v : DWord} (h : k ≠ n) (h' : k ≠ n + 1) : (t.wr2 n v).g[k]? = t.g[k]? := by
  rw [Thread.wr2, wr_other h', wr_other h]

/-- p0 reads true whatever is written (R173). -/
@[simp] theorem rdP_zero (t : Thread) : t.rdP 0 = true := rfl

theorem wrP_get {t : Thread} {n : Nat} {v : Bool} (h : n < 16) (h0 : n ≠ 0) : (t.wrP n v).rdP n = v := by
  have : (n == 0) = false := by simpa using h0
  simp only [Thread.wrP, h0, if_false, Thread.rdP, this, Bool.false_or]
  cases v <;> simp [h]

theorem wrP_other {t : Thread} {n k : Nat} {v : Bool} (h : k ≠ n) : (t.wrP n v).rdP k = t.rdP k := by
  unfold Thread.wrP
  split
  · rfl
  · cases v
    · by_cases hk : k < n
      · simp [Thread.rdP, BitVec.getLsbD_and, BitVec.getLsbD_not, BitVec.getLsbD_shiftLeft, hk]
        cases hx : t.p.getLsbD k <;> simp
        exact .inr (BitVec.lt_of_getLsbD hx)
      · have : ¬ (k - n = 0) := by omega
        simp [Thread.rdP, BitVec.getLsbD_and, BitVec.getLsbD_not, BitVec.getLsbD_shiftLeft, hk, this]
        cases hx : t.p.getLsbD k <;> simp
        exact .inr (BitVec.lt_of_getLsbD hx)
    · by_cases hk : k < n
      · simp [Thread.rdP, BitVec.getLsbD_or, BitVec.getLsbD_shiftLeft, hk]
      · have : ¬ (k - n = 0) := by omega
        simp [Thread.rdP, BitVec.getLsbD_or, BitVec.getLsbD_shiftLeft, hk, this]

theorem wrI_get {t : Thread} {n : Nat} {v : Word} (h : n < 8) : (t.wrI n v).rdI n = v := by simp [Thread.wrI, Thread.rdI, h]

theorem wrI_other {t : Thread} {n k : Nat} {v : Word} (h : k ≠ n) : (t.wrI n v).rdI k = t.rdI k := by
  by_cases hk : k < 8 <;> simp [Thread.wrI, Thread.rdI, hk, Ne.symm h]

theorem wrX_get {t : Thread} {n : Nat} {v : Word} (h : n < 4) : (t.wrX n v).rdX n = v := by simp [Thread.wrX, Thread.rdX, h]

theorem wrX_other {t : Thread} {n k : Nat} {v : Word} (h : k ≠ n) : (t.wrX n v).rdX k = t.rdX k := by
  by_cases hk : k < 4 <;> simp [Thread.wrX, Thread.rdX, hk, Ne.symm h]

/-! Index registers advance, and overrides are cleared. -/

theorem advance_alike (t : Thread) (j : Nat) : t.alike (advance t j) := by
  unfold advance; dsimp only; split
  · exact wrI_alike ..
  · exact t.alike_refl

@[simp] theorem advance_g (t : Thread) (j : Nat) : (advance t j).g = t.g := by unfold advance; dsimp only; split <;> rfl
@[simp] theorem advance_p (t : Thread) (j : Nat) : (advance t j).p = t.p := by unfold advance; dsimp only; split <;> rfl
@[simp] theorem advance_x (t : Thread) (j : Nat) : (advance t j).x = t.x := by unfold advance; dsimp only; split <;> rfl
@[simp] theorem advance_busy (t : Thread) (j : Nat) : (advance t j).busy = t.busy := by unfold advance; dsimp only; split <;> rfl

theorem advance_other {t : Thread} {j k : Nat} (h : k ≠ j) : (advance t j).rdI k = t.rdI k := by
  unfold advance; dsimp only; split
  · exact wrI_other h
  · rfl

/-- An index register with POSTINC set moves its OFFSET by its STEP; another stays (R183). -/
theorem advance_at {t : Thread} {j : Nat} (h : j < 8) :
    (advance t j).rdI j = if (t.rdI j).getLsbD 25 then moveOffset (t.rdI j) (idxStep (t.rdI j)) else t.rdI j := by
  simp only [advance]
  split
  · rw [wrI_get h]
  · rfl

theorem advances_alike (t : Thread) (js : List Nat) : t.alike (advances t js) := by
  induction js generalizing t with
  | nil => exact t.alike_refl
  | cons j js ih => exact Thread.alike_trans (advance_alike t j) (ih _)

@[simp] theorem advances_g (t : Thread) (js : List Nat) : (advances t js).g = t.g := by
  induction js generalizing t with
  | nil => rfl
  | cons j js ih => exact (ih (advance t j)).trans (advance_g t j)
@[simp] theorem advances_p (t : Thread) (js : List Nat) : (advances t js).p = t.p := by
  induction js generalizing t with
  | nil => rfl
  | cons j js ih => exact (ih (advance t j)).trans (advance_p t j)
@[simp] theorem advances_x (t : Thread) (js : List Nat) : (advances t js).x = t.x := by
  induction js generalizing t with
  | nil => rfl
  | cons j js ih => exact (ih (advance t j)).trans (advance_x t j)

/-- An index register that is not advanced stays. -/
theorem advances_other {t : Thread} {js : List Nat} {k : Nat} (h : k ∉ js) : (advances t js).rdI k = t.rdI k := by
  induction js generalizing t with
  | nil => rfl
  | cons j js ih =>
    simp only [List.mem_cons, not_or] at h
    rw [show advances t (j :: js) = advances (advance t j) js from rfl, ih h.2, advance_other h.1]

/-- Each register of the list advances exactly once, whatever else the list holds (R183). -/
theorem advances_once {t : Thread} {js : List Nat} {k : Nat} (h : k ∈ js) (d : js.Nodup) :
    (advances t js).rdI k = (advance t k).rdI k := by
  induction js generalizing t with
  | nil => simp at h
  | cons j js ih =>
    rw [show advances t (j :: js) = advances (advance t j) js from rfl]
    rw [List.nodup_cons] at d
    by_cases hk : k = j
    · subst hk; exact advances_other d.1
    · rw [ih (by simpa [hk] using h) d.2]
      have e : (advance t j).rdI k = t.rdI k := advance_other hk
      by_cases hj : k < 8
      · rw [advance_at hj, advance_at hj, e]
      · have z (u : Thread) : u.rdI k = 0 := by simp [Thread.rdI, hj]
        rw [z, z]

/-- The index registers that codes use are those that an indirect one names, but for the exceptions. -/
theorem mem_usedIdx {t : Thread} {cs : List Code} {ex : List Nat} {j : Nat} (h : j ∈ usedIdx t cs ex) :
    j ∉ ex ∧ ∃ c ∈ cs, t.indirect c = true ∧ c.toNat = 120 + j := by
  simp only [usedIdx, List.mem_filter, List.mem_dedup, List.mem_map] at h
  obtain ⟨⟨c, ⟨hc, hi⟩, rfl⟩, he⟩ := h
  refine ⟨by simpa using he, c, hc, hi, ?_⟩
  simp only [Thread.indirect, Sys2Proof.indirect, Bool.and_eq_true, decide_eq_true_eq] at hi
  omega

theorem usedIdx_nodup (t : Thread) (cs : List Code) (ex : List Nat) : (usedIdx t cs ex).Nodup :=
  (List.nodup_dedup _).filter _

theorem clearArms_alike (t : Thread) (ovr : List Nat) : t.alike (clearArms t ovr) := by
  unfold clearArms
  induction ovr generalizing t with
  | nil => exact t.alike_refl
  | cons n ns ih =>
    simp only [List.foldl_cons]
    refine Thread.alike_trans ?_ (ih _)
    split
    · exact wrX_alike ..
    · exact t.alike_refl

theorem clearArms_same (t : Thread) (ovr : List Nat) :
    (clearArms t ovr).g = t.g ∧ (clearArms t ovr).p = t.p ∧ (clearArms t ovr).idx = t.idx := by
  unfold clearArms
  induction ovr generalizing t with
  | nil => simp
  | cons n ns ih =>
    simp only [List.foldl_cons]
    split
    · exact ih (t.wrX n _)
    · exact ih t

@[simp] theorem clearArms_g (t : Thread) (ovr : List Nat) : (clearArms t ovr).g = t.g := (clearArms_same t ovr).1
@[simp] theorem clearArms_p (t : Thread) (ovr : List Nat) : (clearArms t ovr).p = t.p := (clearArms_same t ovr).2.1
@[simp] theorem clearArms_idx (t : Thread) (ovr : List Nat) : (clearArms t ovr).idx = t.idx := (clearArms_same t ovr).2.2
@[simp] theorem clearArms_busy (t : Thread) (ovr : List Nat) : (clearArms t ovr).busy = t.busy := (clearArms_alike t ovr).2.1

theorem clearArms_other {t : Thread} {ovr : List Nat} {k : Nat} (h : k ∉ ovr) : (clearArms t ovr).rdX k = t.rdX k := by
  unfold clearArms
  induction ovr generalizing t with
  | nil => rfl
  | cons n ns ih =>
    simp only [List.mem_cons, not_or] at h
    simp only [List.foldl_cons]
    rw [ih h.2]
    split
    · exact wrX_other h.1
    · rfl

/-- An override of the list that was armed is no longer, with nothing else of its register changed (R177). -/
theorem clearArms_mem {t : Thread} {ovr : List Nat} {k : Nat} (h : k ∈ ovr) (d : ovr.Nodup) (hk : k < 4) :
    (clearArms t ovr).rdX k = if t.armed k then t.rdX k &&& 0x7FFFFFFF else t.rdX k := by
  unfold clearArms
  induction ovr generalizing t with
  | nil => simp at h
  | cons n ns ih =>
    rw [List.nodup_cons] at d
    simp only [List.foldl_cons]
    by_cases e : k = n
    · subst e
      rw [show List.foldl (fun t n => if t.armed n = true then t.wrX n (t.rdX n &&& 0x7FFFFFFF) else t) _ ns = clearArms _ ns from rfl,
        clearArms_other d.1]
      split
      · exact wrX_get hk
      · rfl
    · rw [ih (by simpa [e] using h) d.2]
      have key (w : Word) : (if t.armed n then t.wrX n w else t).rdX k = t.rdX k := by
        split
        · exact wrX_other e
        · rfl
      generalize ht : (if t.armed n then _ else t : Thread) = u
      have ku : u.rdX k = t.rdX k := ht ▸ key _
      have au : u.armed k = t.armed k := by simp only [Thread.armed, ku]
      rw [au, ku]

/-! Frames of a context. -/

/-- A context alike to t, with the registers other than ds, predicates other than ps, index registers other than js, and
extension registers as an override of ovr leaves them, is framed once its index registers advance. -/
theorem frame_advances {t u : Thread} {ds ps : List Nat} {codes : List Code} {js ovr : List Nat} (a : t.specials u)
    (g : ∀ k, k ∉ ds → u.g[k]? = t.g[k]?) (p : ∀ k, k ∉ ps → u.rdP k = t.rdP k) (i : ∀ j, j ∉ js → u.rdI j = t.rdI j)
    (x : ∀ n, n ∉ ovr → u.rdX n = t.rdX n)
    (y : ∀ n, n ∈ ovr → u.rdX n = if t.armed n then t.rdX n &&& 0x7FFFFFFF else t.rdX n) (ex : List Nat) :
    t.frame (advances u (usedIdx t codes ex)) ds ps codes js ovr := by
  have al := (advances_alike u (usedIdx t codes ex)).1
  refine ⟨fun k hk => by simpa using g k hk, fun k hk => ?_, fun j hj hc => ?_, fun n hn => ?_, fun n hn => ?_, ?_⟩
  · simpa [Thread.rdP] using p k hk
  · rw [advances_other, i j hj]
    intro hm
    obtain ⟨-, c, hc', hi, e⟩ := mem_usedIdx hm
    exact hc c hc' hi e
  · simpa [Thread.rdX] using x n hn
  · simpa [Thread.rdX, Thread.armed] using y n hn
  · simp only [Thread.specials] at *
    simp_all

theorem frame_done {t u : Thread} {ds ps : List Nat} {codes : List Code} {js ovr : List Nat} (h : t.frame u ds ps codes js ovr)
    (c l n : Nat) : t.frame (u.done c l n) ds ps codes js ovr := h

theorem frame_jump {t u : Thread} {ds ps : List Nat} {codes : List Code} {js ovr : List Nat} (h : t.frame u ds ps codes js ovr)
    (c : Nat) (w : Word) (n : Nat) : t.frame (u.jump c w n) ds ps codes js ovr := h

/-! Resolution (R181). -/

/-- A direct code reaches its own register. -/
theorem resolve_direct {t : Thread} {o : Opnd} (d : t.indirect o.code = false) (a : o.code.toNat % o.align = 0)
    (l : o.code.toNat + o.k ≤ t.limit o.code) : resolve t o = .ok o.code.toNat := by
  simp [resolve, d, a, Nat.not_lt.mpr l]

/-- What resolves lies below the declared count and is aligned. -/
theorem resolve_ok {t : Thread} {o : Opnd} {n : Nat} (h : resolve t o = .ok n) : n + o.k ≤ t.limit o.code ∧ n % o.align = 0 := by
  unfold resolve at h
  dsimp only at h
  generalize (if t.indirect o.code = true then _ else _ : Nat) = m at h
  generalize (if t.indirect o.code = true then _ else _ : Nat) = ix at h
  by_cases h1 : (t.indirect o.code && bits (t.rdI (o.code.toNat - 120)).toNat 31 27 != 0) = true
  · rw [if_pos h1] at h; cases h
  rw [if_neg h1] at h
  by_cases h2 : (t.indirect o.code &&
      decide (bits (t.rdI (o.code.toNat - 120)).toNat 13 7 < idxOffset (t.rdI (o.code.toNat - 120)) + o.k)) = true
  · rw [if_pos h2] at h; cases h
  rw [if_neg h2] at h
  by_cases h3 : (m % o.align != 0) = true
  · rw [if_pos h3] at h; cases h
  rw [if_neg h3] at h
  by_cases h4 : t.limit o.code < m + o.k
  · rw [if_pos h4] at h; cases h
  rw [if_neg h4] at h
  cases h
  exact ⟨Nat.not_lt.mp h4, by simpa using h3⟩

/-! The operands of an instruction. -/

theorem ops1_ok {s : State} {len : Nat} {ovr : List Nat} {o : Opnd} {k : Nat → State} {n : Nat} (f : s.th.free ovr)
    (h : resolve s.th o = .ok n) : ops1 s len ovr o k = k n := by
  simp only [ops1, checkOverride]
  rw [Thread.free] at f
  simp [f, h]

theorem ops2_ok {s : State} {len : Nat} {ovr : List Nat} {o p : Opnd} {k : Nat → Nat → State} {n m : Nat} (f : s.th.free ovr)
    (h : resolve s.th o = .ok n) (h' : resolve s.th p = .ok m) : ops2 s len ovr o p k = k n m := by
  rw [ops2, ops1_ok f h, h']

theorem ops3_ok {s : State} {len : Nat} {ovr : List Nat} {o p q : Opnd} {k : Nat → Nat → Nat → State} {n m l : Nat} (f : s.th.free ovr)
    (h : resolve s.th o = .ok n) (h' : resolve s.th p = .ok m) (h'' : resolve s.th q = .ok l) : ops3 s len ovr o p q k = k n m l := by
  rw [ops3, ops2_ok f h h', h'']

theorem ops4_ok {s : State} {len : Nat} {ovr : List Nat} {o p q r : Opnd} {k : Nat → Nat → Nat → Nat → State} {n m l i : Nat}
    (f : s.th.free ovr) (h : resolve s.th o = .ok n) (h' : resolve s.th p = .ok m) (h'' : resolve s.th q = .ok l)
    (h3 : resolve s.th r = .ok i) : ops4 s len ovr o p q r k = k n m l i := by
  rw [ops4, ops3_ok f h h' h'', h3]

theorem free_nil (t : Thread) : t.free [] := by simp [Thread.free, overrideCause]

/-- The first operand that does not resolve stops the instruction (R182). -/
theorem ops1_error {s : State} {len : Nat} {ovr : List Nat} {o : Opnd} {k : Nat → State} {e : OpErr} (f : s.th.free ovr)
    (h : resolve s.th o = .error e) : ops1 s len ovr o k = operandFault s len e := by
  simp only [ops1, checkOverride]
  rw [Thread.free] at f
  simp [f, h]

/-! The end of an instruction. -/

/-- An instruction that ends in finish completes, when the context it wrote is framed. -/
theorem completes_finish {s : State} {i : Instr} {t : Thread} {len n : Nat} {ds ps js ovr ex : List Nat} {codes codes' : List Code}
    {r : Thread → Prop} (e : exec i s = .next (finish s t codes' ex len n)) (a : s.th.alike t)
    (f : s.th.frame (advances t (usedIdx s.th codes' ex)) ds ps codes js ovr)
    (h : r ((advances t (usedIdx s.th codes' ex)).done s.clk len n)) : s.completes i len ds ps codes js ovr r := by
  have b := Thread.alike_trans a (advances_alike t (usedIdx s.th codes' ex))
  refine ⟨_, e, rfl, fun _ => rfl, frame_done f .., rfl, rfl, ?_, h⟩
  show (advances t _).pc + _ = _
  simp only [Thread.parcels, b.2.2.2.1, b.2.2.1]

end Sys2Proof.Machine
end

