-- ==== Sys2Proof/Laws/PerInstr.lean ====
section
/-! SUPPORT. Properties of every instruction as syntax. -/

namespace Sys2Proof.Laws
open Sys2Proof

end Sys2Proof.Laws
end

