-- ==== Sys2Proof/Laws/Shapes.lean ====
section
/-! SUPPORT. One lemma for each shape of register instruction: when its operands resolve and no override traps, it completes with the
result of its function, and leaves everything else as it was. -/

namespace Sys2Proof.Machine
open Sys2Proof

/-- A context with register nd written after overrides were cleared is framed. -/
theorem frame_wr {t : Thread} {nd : Nat} {v : Word} {ovr ex : List Nat} {codes : List Code} (d : ovr.Nodup) (l : ∀ n ∈ ovr, n < 4) :
    t.frame (advances ((clearArms t ovr).wr nd v) (usedIdx t codes ex)) [nd] [] codes [] ovr := by
  refine frame_advances (Thread.alike_trans (clearArms_alike t ovr) (wr_alike _ nd v)).1 ?_ ?_ ?_ ?_ ?_ ex
  · intro k hk; rw [wr_other (by simpa using hk), clearArms_g]
  · intro k _; simp [Thread.rdP]
  · intro j _; simp [Thread.rdI]
  · intro n hn; simpa [Thread.rdX] using clearArms_other (t := t) hn
  · intro n hn; simpa [Thread.rdX, Thread.armed] using clearArms_mem (t := t) hn d (l n hn)

/-- The same for a pair. -/
theorem frame_wr2 {t : Thread} {nd : Nat} {v : DWord} {ovr ex : List Nat} {codes : List Code} (d : ovr.Nodup) (l : ∀ n ∈ ovr, n < 4) :
    t.frame (advances ((clearArms t ovr).wr2 nd v) (usedIdx t codes ex)) [nd, nd + 1] [] codes [] ovr := by
  refine frame_advances (Thread.alike_trans (clearArms_alike t ovr) (wr2_alike _ nd v)).1 ?_ ?_ ?_ ?_ ?_ ex
  · intro k hk
    simp only [List.mem_cons, List.not_mem_nil, or_false, not_or] at hk
    rw [wr2_other hk.1 hk.2, clearArms_g]
  · intro k _; simp [Thread.rdP]
  · intro j _; simp [Thread.rdI]
  · intro n hn; simpa [Thread.rdX] using clearArms_other (t := t) hn
  · intro n hn; simpa [Thread.rdX, Thread.armed] using clearArms_mem (t := t) hn d (l n hn)

/-- The same for a predicate. -/
theorem frame_wrP {t : Thread} {n : Nat} {v : Bool} {ovr ex : List Nat} {codes : List Code} (d : ovr.Nodup) (l : ∀ n ∈ ovr, n < 4) :
    t.frame (advances ((clearArms t ovr).wrP n v) (usedIdx t codes ex)) [] [n] codes [] ovr := by
  refine frame_advances (Thread.alike_trans (clearArms_alike t ovr) (wrP_alike _ n v)).1 ?_ ?_ ?_ ?_ ?_ ex
  · intro k _; simp
  · intro k hk
    rw [wrP_other (by simpa using hk)]
    simp [Thread.rdP]
  · intro j _; simp [Thread.rdI]
  · intro n hn; simpa [Thread.rdX] using clearArms_other (t := t) hn
  · intro n hn; simpa [Thread.rdX, Thread.armed] using clearArms_mem (t := t) hn d (l n hn)

theorem clearArms_nil (t : Thread) : clearArms t [] = t := rfl

/-- Register nd written, seen through the advance of index registers and the end of the instruction. -/
theorem gets_wr {t w : Thread} {nd : Nat} {v : Word} {js : List Nat} {c l n : Nat} (h : w.busy = t.busy) :
    ((advances (w.wr nd v) js).done c l n).gets t nd v := by
  intro hn hb
  show (advances (w.wr nd v) js).g[nd]? = _
  rw [advances_g, wr_get hn (h ▸ hb)]

theorem gets2_wr2 {t w : Thread} {nd : Nat} {v : DWord} {js : List Nat} {c l n : Nat} (h : w.busy = t.busy) :
    ((advances (w.wr2 nd v) js).done c l n).gets2 t nd v := by
  constructor
  · intro hn hb
    show (advances (w.wr2 nd v) js).g[nd]? = _
    rw [advances_g, wr2_lo hn (h ▸ hb)]
  · intro hn hb
    show (advances (w.wr2 nd v) js).g[nd + 1]? = _
    rw [advances_g, wr2_hi hn (h ▸ hb)]

/-- alu3: D := f A B. -/
theorem alu3_gives {s : State} {i : Instr} {d a b : Code} {na nb nd sw wv : Nat} {f : Word → Word → Word}
    (e : exec i s = .next (alu3 2 sw wv d a b f s)) (fr : s.th.free [1, 2]) (ha : s.th.at1 1 a na) (hb : s.th.at1 2 b nb)
    (hd : s.th.at1 0 d nd) : s.gives3 i d a b nd (f (s.src s.th 1 na) (s.src s.th 2 nb)) := by
  rw [alu3, ops3_ok fr ha hb hd] at e
  exact completes_finish e (Thread.alike_trans (clearArms_alike ..) (wr_alike ..)) (frame_wr (by decide) (by decide)) (gets_wr (clearArms_busy ..))

/-- alu2: D := f A. -/
theorem alu2_gives {s : State} {i : Instr} {d a : Code} {na nd sw wv : Nat} {f : Word → Word}
    (e : exec i s = .next (alu2 2 sw wv d a f s)) (fr : s.th.free [1]) (ha : s.th.at1 1 a na) (hd : s.th.at1 0 d nd) :
    s.gives2 i d a nd (f (s.src s.th 1 na)) := by
  rw [alu2, ops2_ok fr ha hd] at e
  exact completes_finish e (Thread.alike_trans (clearArms_alike ..) (wr_alike ..)) (frame_wr (by decide) (by decide)) (gets_wr (clearArms_busy ..))

/-- alu3w: the pair D := f A B on single registers. -/
theorem alu3w_gives {s : State} {i : Instr} {d a b : Code} {na nb nd sw wv : Nat} {f : Word → Word → DWord}
    (e : exec i s = .next (alu3w 2 sw wv d a b f s)) (fr : s.th.free [1, 2]) (ha : s.th.at1 1 a na) (hb : s.th.at1 2 b nb)
    (hd : s.th.at2 0 d nd) :
    s.completes i 2 [nd, nd + 1] [] [a, b, d] [] [1, 2] (fun u => u.gets2 s.th nd (f (s.src s.th 1 na) (s.src s.th 2 nb))) := by
  rw [alu3w, ops3_ok fr ha hb hd] at e
  exact completes_finish e (Thread.alike_trans (clearArms_alike ..) (wr2_alike ..)) (frame_wr2 (by decide) (by decide)) (gets2_wr2 (clearArms_busy ..))

/-- alu3d: the pair D := f A B on pairs. -/
theorem alu3d_gives {s : State} {i : Instr} {d a b : Code} {na nb nd sw wv : Nat} {f : DWord → DWord → DWord}
    (e : exec i s = .next (alu3d 2 sw wv d a b f s)) (ha : s.th.at2 1 a na) (hb : s.th.at2 2 b nb) (hd : s.th.at2 0 d nd) :
    s.givesD i d a b nd (f (s.th.rd2 na) (s.th.rd2 nb)) := by
  rw [alu3d, ops3_ok (free_nil _) ha hb hd] at e
  exact completes_finish e (wr2_alike ..) (by simpa [clearArms_nil] using frame_wr2 (ovr := []) (by decide) (by decide)) (gets2_wr2 rfl)

/-- A code of a 16-bit form names its register. -/
theorem at1_short {t : Thread} {pos w : Nat} {c : BitVec w} (h : w ≤ 6) (l : c.toNat < t.limit (code16 c)) :
    t.at1 pos (code16 c) c.toNat := by
  have e : (code16 c).toNat = c.toNat := by
    simp only [code16, BitVec.toNat_setWidth]
    exact Nat.mod_eq_of_lt (Nat.lt_of_lt_of_le c.isLt (Nat.pow_le_pow_right (by decide) (by omega)))
  have lt : c.toNat < 64 := Nat.lt_of_lt_of_le c.isLt (by simpa using Nat.pow_le_pow_right (n := 2) (by decide) h)
  have := resolve_direct (t := t) (o := reg pos (code16 c))
    (by simp [reg, Thread.indirect, Sys2Proof.indirect, show ¬ 120 ≤ (code16 c).toNat by omega])
    (by simp [reg, Nat.mod_one]) (by simp only [reg, e]; omega)
  simpa [Thread.at1, reg, e] using this

/-- alu16: ga := f ga gb. -/
theorem alu16_gives {s : State} {i : Instr} {a : BitVec 6} {b : BitVec 5} {f : Word → Word → Word}
    (e : exec i s = .next (alu16 a b f s)) (fr : s.th.free [1]) (ha : a.toNat < s.th.limit (code16 a))
    (hb : b.toNat < s.th.limit (code16 b)) : s.gives16 i a.toNat [1] (f (s.th.rd a.toNat) (s.src s.th 1 b.toNat)) := by
  rw [alu16, ops2_ok fr (at1_short (by decide) hb) (at1_short (by decide) ha)] at e
  exact completes_finish e (Thread.alike_trans (clearArms_alike ..) (wr_alike ..)) (frame_wr (by decide) (by decide)) (gets_wr (clearArms_busy ..))

/-- alu16i: ga := f ga. -/
theorem alu16i_gives {s : State} {i : Instr} {a : BitVec 6} {f : Word → Word} (e : exec i s = .next (alu16i a f s))
    (ha : a.toNat < s.th.limit (code16 a)) : s.gives16 i a.toNat [] (f (s.th.rd a.toNat)) := by
  rw [alu16i, ops1_ok (free_nil _) (at1_short (by decide) ha)] at e
  exact completes_finish e (wr_alike ..) (by simpa [clearArms_nil] using frame_wr (ovr := []) (by decide) (by decide)) (gets_wr rfl)

/-- A predicate written, seen through the end of the instruction. -/
theorem sets_wrP {w : Thread} {p : BitVec 4} {v : Bool} {js : List Nat} {c l n : Nat} {P : Prop} (h : v = true ↔ P) :
    (p = 0 → ((advances (w.wrP p.toNat v) js).done c l n).rdP 0 = true) ∧
      (p ≠ 0 → (((advances (w.wrP p.toNat v) js).done c l n).rdP p.toNat = true ↔ P)) := by
  refine ⟨fun _ => rfl, fun hp => ?_⟩
  have e : ((advances (w.wrP p.toNat v) js).done c l n).rdP p.toNat = (w.wrP p.toNat v).rdP p.toNat := by
    show (_ || (advances (w.wrP p.toNat v) js).p.getLsbD _) = _
    rw [advances_p]; rfl
  have h0 : p.toNat ≠ 0 := fun h => hp (BitVec.eq_of_toNat_eq h)
  rw [e, wrP_get p.isLt h0, h]

/-- cmp32: one predicate from two registers. -/
theorem cmp32_sets {s : State} {i : Instr} {c : BitVec 3} {p : BitVec 4} {a b : Code} {na nb : Nat} {lt : Word → Word → Bool} {P : Prop}
    (e : exec i s = .next (cmp32 c p a b lt s)) (fr : s.th.free [1, 2]) (ha : s.th.at1 1 a na) (hb : s.th.at1 2 b nb)
    (h : condHolds c (s.src s.th 1 na == s.src s.th 2 nb) (lt (s.src s.th 1 na) (s.src s.th 2 nb)) = true ↔ P) :
    s.completes i 2 [] [p.toNat] [a, b] [] [1, 2] (fun u => (p = 0 → u.rdP 0 = true) ∧ (p ≠ 0 → (u.rdP p.toNat = true ↔ P))) := by
  rw [cmp32, ops2_ok fr ha hb] at e
  exact completes_finish e (Thread.alike_trans (clearArms_alike ..) (wrP_alike ..)) (frame_wrP (by decide) (by decide)) (sets_wrP h)

/-- cmp64: one predicate from two pairs. -/
theorem cmp64_sets {s : State} {i : Instr} {c : BitVec 3} {p : BitVec 4} {a b : Code} {na nb : Nat} {lt : DWord → DWord → Bool} {P : Prop}
    (e : exec i s = .next (cmp64 c p a b lt s)) (ha : s.th.at2 1 a na) (hb : s.th.at2 2 b nb)
    (h : condHolds c (s.th.rd2 na == s.th.rd2 nb) (lt (s.th.rd2 na) (s.th.rd2 nb)) = true ↔ P) :
    s.completes i 2 [] [p.toNat] [a, b] [] [] (fun u => (p = 0 → u.rdP 0 = true) ∧ (p ≠ 0 → (u.rdP p.toNat = true ↔ P))) := by
  rw [cmp64, ops2_ok (free_nil _) ha hb] at e
  exact completes_finish e (wrP_alike ..) (by simpa [clearArms_nil] using frame_wrP (ovr := []) (by decide) (by decide)) (sets_wrP h)

/-- predLogic: one predicate from predicates. -/
theorem predLogic_sets {s : State} {i : Instr} {p : BitVec 4} {v : Bool} {P : Prop} (e : exec i s = .next (predLogic p v s))
    (h : v = true ↔ P) :
    s.completes i 2 [] [p.toNat] [] [] [] (fun u => (p = 0 → u.rdP 0 = true) ∧ (p ≠ 0 → (u.rdP p.toNat = true ↔ P))) :=
  completes_finish e (wrP_alike ..) (by simpa [clearArms_nil] using frame_wrP (ovr := []) (by decide) (by decide)) (sets_wrP h)

end Sys2Proof.Machine
end

