-- ==== Sys2Proof/Laws/State.lean ====
section
/-! SUPPORT. One lemma for each field of State and each named update: what the update leaves there. -/

namespace Sys2Proof.Machine
open Sys2Proof

/-! put. -/

@[simp] theorem State.put_th (s : State) (t : Thread) : (s.put t).th = t := rfl
@[simp] theorem State.put_threads (s : State) (t : Thread) : (s.put t).threads = s.threads := rfl
@[simp] theorem State.put_mem (s : State) (t : Thread) : (s.put t).mem = s.mem := rfl
@[simp] theorem State.put_full (s : State) (t : Thread) : (s.put t).full = s.full := rfl
@[simp] theorem State.put_flights (s : State) (t : Thread) : (s.put t).flights = s.flights := rfl
@[simp] theorem State.put_feWaits (s : State) (t : Thread) : (s.put t).feWaits = s.feWaits := rfl
@[simp] theorem State.put_feTickets (s : State) (t : Thread) : (s.put t).feTickets = s.feTickets := rfl
@[simp] theorem State.put_heralds (s : State) (t : Thread) : (s.put t).heralds = s.heralds := rfl
@[simp] theorem State.put_regions (s : State) (t : Thread) : (s.put t).regions = s.regions := rfl
@[simp] theorem State.put_heldMsgs (s : State) (t : Thread) : (s.put t).heldMsgs = s.heldMsgs := rfl
@[simp] theorem State.put_cores (s : State) (t : Thread) : (s.put t).cores = s.cores := rfl
@[simp] theorem State.put_l1 (s : State) (t : Thread) : (s.put t).l1 = s.l1 := rfl
@[simp] theorem State.put_ctlb (s : State) (t : Thread) : (s.put t).ctlb = s.ctlb := rfl
@[simp] theorem State.put_l2 (s : State) (t : Thread) : (s.put t).l2 = s.l2 := rfl
@[simp] theorem State.put_evc (s : State) (t : Thread) : (s.put t).evc = s.evc := rfl
@[simp] theorem State.put_groups (s : State) (t : Thread) : (s.put t).groups = s.groups := rfl
@[simp] theorem State.put_gangs (s : State) (t : Thread) : (s.put t).gangs = s.gangs := rfl
@[simp] theorem State.put_dies (s : State) (t : Thread) : (s.put t).dies = s.dies := rfl
@[simp] theorem State.put_parts (s : State) (t : Thread) : (s.put t).parts = s.parts := rfl
@[simp] theorem State.put_clk (s : State) (t : Thread) : (s.put t).clk = s.clk := rfl
@[simp] theorem State.put_phase (s : State) (t : Thread) : (s.put t).phase = s.phase := rfl
@[simp] theorem State.put_trip (s : State) (t : Thread) : (s.put t).trip = s.trip := rfl
@[simp] theorem State.put_clockHeld (s : State) (t : Thread) : (s.put t).clockHeld = s.clockHeld := rfl
@[simp] theorem State.put_faultPin (s : State) (t : Thread) : (s.put t).faultPin = s.faultPin := rfl
@[simp] theorem State.put_sdUp (s : State) (t : Thread) : (s.put t).sdUp = s.sdUp := rfl
@[simp] theorem State.put_sdLog (s : State) (t : Thread) : (s.put t).sdLog = s.sdLog := rfl
@[simp] theorem State.put_meas (s : State) (t : Thread) : (s.put t).meas = s.meas := rfl
@[simp] theorem State.put_apert (s : State) (t : Thread) : (s.put t).apert = s.apert := rfl
@[simp] theorem State.put_spanApert (s : State) (t : Thread) : (s.put t).spanApert = s.spanApert := rfl
@[simp] theorem State.put_ports (s : State) (t : Thread) : (s.put t).ports = s.ports := rfl
@[simp] theorem State.put_mbox (s : State) (t : Thread) : (s.put t).mbox = s.mbox := rfl
@[simp] theorem State.put_links (s : State) (t : Thread) : (s.put t).links = s.links := rfl
@[simp] theorem State.put_spans (s : State) (t : Thread) : (s.put t).spans = s.spans := rfl
@[simp] theorem State.put_badRoutes (s : State) (t : Thread) : (s.put t).badRoutes = s.badRoutes := rfl
@[simp] theorem State.put_shares (s : State) (t : Thread) : (s.put t).shares = s.shares := rfl
@[simp] theorem State.put_population (s : State) (t : Thread) : (s.put t).population = s.population := rfl
@[simp] theorem State.put_unitReads (s : State) (t : Thread) : (s.put t).unitReads = s.unitReads := rfl
@[simp] theorem State.put_badWalks (s : State) (t : Thread) : (s.put t).badWalks = s.badWalks := rfl
@[simp] theorem State.put_budget (s : State) (t : Thread) : (s.put t).budget = s.budget := rfl
@[simp] theorem State.put_deferred (s : State) (t : Thread) : (s.put t).deferred = s.deferred := rfl
@[simp] theorem State.put_out (s : State) (t : Thread) : (s.put t).out = s.out := rfl
@[simp] theorem State.put_agenda (s : State) (t : Thread) : (s.put t).agenda = s.agenda := rfl
@[simp] theorem State.put_timers (s : State) (t : Thread) : (s.put t).timers = s.timers := rfl
@[simp] theorem State.put_free (s : State) (t : Thread) : (s.put t).free = s.free := rfl
@[simp] theorem State.put_nextId (s : State) (t : Thread) : (s.put t).nextId = s.nextId := rfl

/-! updCore. -/

@[simp] theorem State.updCore_th (s : State) (c : Nat) (f : Core → Core) : (s.updCore c f).th = s.th := rfl
@[simp] theorem State.updCore_threads (s : State) (c : Nat) (f : Core → Core) : (s.updCore c f).threads = s.threads := rfl
@[simp] theorem State.updCore_mem (s : State) (c : Nat) (f : Core → Core) : (s.updCore c f).mem = s.mem := rfl
@[simp] theorem State.updCore_full (s : State) (c : Nat) (f : Core → Core) : (s.updCore c f).full = s.full := rfl
@[simp] theorem State.updCore_flights (s : State) (c : Nat) (f : Core → Core) : (s.updCore c f).flights = s.flights := rfl
@[simp] theorem State.updCore_feWaits (s : State) (c : Nat) (f : Core → Core) : (s.updCore c f).feWaits = s.feWaits := rfl
@[simp] theorem State.updCore_feTickets (s : State) (c : Nat) (f : Core → Core) : (s.updCore c f).feTickets = s.feTickets := rfl
@[simp] theorem State.updCore_heralds (s : State) (c : Nat) (f : Core → Core) : (s.updCore c f).heralds = s.heralds := rfl
@[simp] theorem State.updCore_regions (s : State) (c : Nat) (f : Core → Core) : (s.updCore c f).regions = s.regions := rfl
@[simp] theorem State.updCore_heldMsgs (s : State) (c : Nat) (f : Core → Core) : (s.updCore c f).heldMsgs = s.heldMsgs := rfl
@[simp] theorem State.updCore_cores (s : State) (c : Nat) (f : Core → Core) : (s.updCore c f).cores = Table.put s.cores c (f (s.core c)) := rfl
@[simp] theorem State.updCore_l1 (s : State) (c : Nat) (f : Core → Core) : (s.updCore c f).l1 = s.l1 := rfl
@[simp] theorem State.updCore_ctlb (s : State) (c : Nat) (f : Core → Core) : (s.updCore c f).ctlb = s.ctlb := rfl
@[simp] theorem State.updCore_l2 (s : State) (c : Nat) (f : Core → Core) : (s.updCore c f).l2 = s.l2 := rfl
@[simp] theorem State.updCore_evc (s : State) (c : Nat) (f : Core → Core) : (s.updCore c f).evc = s.evc := rfl
@[simp] theorem State.updCore_groups (s : State) (c : Nat) (f : Core → Core) : (s.updCore c f).groups = s.groups := rfl
@[simp] theorem State.updCore_gangs (s : State) (c : Nat) (f : Core → Core) : (s.updCore c f).gangs = s.gangs := rfl
@[simp] theorem State.updCore_dies (s : State) (c : Nat) (f : Core → Core) : (s.updCore c f).dies = s.dies := rfl
@[simp] theorem State.updCore_parts (s : State) (c : Nat) (f : Core → Core) : (s.updCore c f).parts = s.parts := rfl
@[simp] theorem State.updCore_clk (s : State) (c : Nat) (f : Core → Core) : (s.updCore c f).clk = s.clk := rfl
@[simp] theorem State.updCore_phase (s : State) (c : Nat) (f : Core → Core) : (s.updCore c f).phase = s.phase := rfl
@[simp] theorem State.updCore_trip (s : State) (c : Nat) (f : Core → Core) : (s.updCore c f).trip = s.trip := rfl
@[simp] theorem State.updCore_clockHeld (s : State) (c : Nat) (f : Core → Core) : (s.updCore c f).clockHeld = s.clockHeld := rfl
@[simp] theorem State.updCore_faultPin (s : State) (c : Nat) (f : Core → Core) : (s.updCore c f).faultPin = s.faultPin := rfl
@[simp] theorem State.updCore_sdUp (s : State) (c : Nat) (f : Core → Core) : (s.updCore c f).sdUp = s.sdUp := rfl
@[simp] theorem State.updCore_sdLog (s : State) (c : Nat) (f : Core → Core) : (s.updCore c f).sdLog = s.sdLog := rfl
@[simp] theorem State.updCore_meas (s : State) (c : Nat) (f : Core → Core) : (s.updCore c f).meas = s.meas := rfl
@[simp] theorem State.updCore_apert (s : State) (c : Nat) (f : Core → Core) : (s.updCore c f).apert = s.apert := rfl
@[simp] theorem State.updCore_spanApert (s : State) (c : Nat) (f : Core → Core) : (s.updCore c f).spanApert = s.spanApert := rfl
@[simp] theorem State.updCore_ports (s : State) (c : Nat) (f : Core → Core) : (s.updCore c f).ports = s.ports := rfl
@[simp] theorem State.updCore_mbox (s : State) (c : Nat) (f : Core → Core) : (s.updCore c f).mbox = s.mbox := rfl
@[simp] theorem State.updCore_links (s : State) (c : Nat) (f : Core → Core) : (s.updCore c f).links = s.links := rfl
@[simp] theorem State.updCore_spans (s : State) (c : Nat) (f : Core → Core) : (s.updCore c f).spans = s.spans := rfl
@[simp] theorem State.updCore_badRoutes (s : State) (c : Nat) (f : Core → Core) : (s.updCore c f).badRoutes = s.badRoutes := rfl
@[simp] theorem State.updCore_shares (s : State) (c : Nat) (f : Core → Core) : (s.updCore c f).shares = s.shares := rfl
@[simp] theorem State.updCore_population (s : State) (c : Nat) (f : Core → Core) : (s.updCore c f).population = s.population := rfl
@[simp] theorem State.updCore_unitReads (s : State) (c : Nat) (f : Core → Core) : (s.updCore c f).unitReads = s.unitReads := rfl
@[simp] theorem State.updCore_badWalks (s : State) (c : Nat) (f : Core → Core) : (s.updCore c f).badWalks = s.badWalks := rfl
@[simp] theorem State.updCore_budget (s : State) (c : Nat) (f : Core → Core) : (s.updCore c f).budget = s.budget := rfl
@[simp] theorem State.updCore_deferred (s : State) (c : Nat) (f : Core → Core) : (s.updCore c f).deferred = s.deferred := rfl
@[simp] theorem State.updCore_out (s : State) (c : Nat) (f : Core → Core) : (s.updCore c f).out = s.out := rfl
@[simp] theorem State.updCore_agenda (s : State) (c : Nat) (f : Core → Core) : (s.updCore c f).agenda = s.agenda := rfl
@[simp] theorem State.updCore_timers (s : State) (c : Nat) (f : Core → Core) : (s.updCore c f).timers = s.timers := rfl
@[simp] theorem State.updCore_free (s : State) (c : Nat) (f : Core → Core) : (s.updCore c f).free = s.free := rfl
@[simp] theorem State.updCore_nextId (s : State) (c : Nat) (f : Core → Core) : (s.updCore c f).nextId = s.nextId := rfl

/-! updDie. -/

@[simp] theorem State.updDie_th (s : State) (d : Nat) (f : Die → Die) : (s.updDie d f).th = s.th := rfl
@[simp] theorem State.updDie_threads (s : State) (d : Nat) (f : Die → Die) : (s.updDie d f).threads = s.threads := rfl
@[simp] theorem State.updDie_mem (s : State) (d : Nat) (f : Die → Die) : (s.updDie d f).mem = s.mem := rfl
@[simp] theorem State.updDie_full (s : State) (d : Nat) (f : Die → Die) : (s.updDie d f).full = s.full := rfl
@[simp] theorem State.updDie_flights (s : State) (d : Nat) (f : Die → Die) : (s.updDie d f).flights = s.flights := rfl
@[simp] theorem State.updDie_feWaits (s : State) (d : Nat) (f : Die → Die) : (s.updDie d f).feWaits = s.feWaits := rfl
@[simp] theorem State.updDie_feTickets (s : State) (d : Nat) (f : Die → Die) : (s.updDie d f).feTickets = s.feTickets := rfl
@[simp] theorem State.updDie_heralds (s : State) (d : Nat) (f : Die → Die) : (s.updDie d f).heralds = s.heralds := rfl
@[simp] theorem State.updDie_regions (s : State) (d : Nat) (f : Die → Die) : (s.updDie d f).regions = s.regions := rfl
@[simp] theorem State.updDie_heldMsgs (s : State) (d : Nat) (f : Die → Die) : (s.updDie d f).heldMsgs = s.heldMsgs := rfl
@[simp] theorem State.updDie_cores (s : State) (d : Nat) (f : Die → Die) : (s.updDie d f).cores = s.cores := rfl
@[simp] theorem State.updDie_l1 (s : State) (d : Nat) (f : Die → Die) : (s.updDie d f).l1 = s.l1 := rfl
@[simp] theorem State.updDie_ctlb (s : State) (d : Nat) (f : Die → Die) : (s.updDie d f).ctlb = s.ctlb := rfl
@[simp] theorem State.updDie_l2 (s : State) (d : Nat) (f : Die → Die) : (s.updDie d f).l2 = s.l2 := rfl
@[simp] theorem State.updDie_evc (s : State) (d : Nat) (f : Die → Die) : (s.updDie d f).evc = s.evc := rfl
@[simp] theorem State.updDie_groups (s : State) (d : Nat) (f : Die → Die) : (s.updDie d f).groups = s.groups := rfl
@[simp] theorem State.updDie_gangs (s : State) (d : Nat) (f : Die → Die) : (s.updDie d f).gangs = s.gangs := rfl
@[simp] theorem State.updDie_dies (s : State) (d : Nat) (f : Die → Die) : (s.updDie d f).dies = s.dies.setIfInBounds d (f (s.die d)) := rfl
@[simp] theorem State.updDie_parts (s : State) (d : Nat) (f : Die → Die) : (s.updDie d f).parts = s.parts := rfl
@[simp] theorem State.updDie_clk (s : State) (d : Nat) (f : Die → Die) : (s.updDie d f).clk = s.clk := rfl
@[simp] theorem State.updDie_phase (s : State) (d : Nat) (f : Die → Die) : (s.updDie d f).phase = s.phase := rfl
@[simp] theorem State.updDie_trip (s : State) (d : Nat) (f : Die → Die) : (s.updDie d f).trip = s.trip := rfl
@[simp] theorem State.updDie_clockHeld (s : State) (d : Nat) (f : Die → Die) : (s.updDie d f).clockHeld = s.clockHeld := rfl
@[simp] theorem State.updDie_faultPin (s : State) (d : Nat) (f : Die → Die) : (s.updDie d f).faultPin = s.faultPin := rfl
@[simp] theorem State.updDie_sdUp (s : State) (d : Nat) (f : Die → Die) : (s.updDie d f).sdUp = s.sdUp := rfl
@[simp] theorem State.updDie_sdLog (s : State) (d : Nat) (f : Die → Die) : (s.updDie d f).sdLog = s.sdLog := rfl
@[simp] theorem State.updDie_meas (s : State) (d : Nat) (f : Die → Die) : (s.updDie d f).meas = s.meas := rfl
@[simp] theorem State.updDie_apert (s : State) (d : Nat) (f : Die → Die) : (s.updDie d f).apert = s.apert := rfl
@[simp] theorem State.updDie_spanApert (s : State) (d : Nat) (f : Die → Die) : (s.updDie d f).spanApert = s.spanApert := rfl
@[simp] theorem State.updDie_ports (s : State) (d : Nat) (f : Die → Die) : (s.updDie d f).ports = s.ports := rfl
@[simp] theorem State.updDie_mbox (s : State) (d : Nat) (f : Die → Die) : (s.updDie d f).mbox = s.mbox := rfl
@[simp] theorem State.updDie_links (s : State) (d : Nat) (f : Die → Die) : (s.updDie d f).links = s.links := rfl
@[simp] theorem State.updDie_spans (s : State) (d : Nat) (f : Die → Die) : (s.updDie d f).spans = s.spans := rfl
@[simp] theorem State.updDie_badRoutes (s : State) (d : Nat) (f : Die → Die) : (s.updDie d f).badRoutes = s.badRoutes := rfl
@[simp] theorem State.updDie_shares (s : State) (d : Nat) (f : Die → Die) : (s.updDie d f).shares = s.shares := rfl
@[simp] theorem State.updDie_population (s : State) (d : Nat) (f : Die → Die) : (s.updDie d f).population = s.population := rfl
@[simp] theorem State.updDie_unitReads (s : State) (d : Nat) (f : Die → Die) : (s.updDie d f).unitReads = s.unitReads := rfl
@[simp] theorem State.updDie_badWalks (s : State) (d : Nat) (f : Die → Die) : (s.updDie d f).badWalks = s.badWalks := rfl
@[simp] theorem State.updDie_budget (s : State) (d : Nat) (f : Die → Die) : (s.updDie d f).budget = s.budget := rfl
@[simp] theorem State.updDie_deferred (s : State) (d : Nat) (f : Die → Die) : (s.updDie d f).deferred = s.deferred := rfl
@[simp] theorem State.updDie_out (s : State) (d : Nat) (f : Die → Die) : (s.updDie d f).out = s.out := rfl
@[simp] theorem State.updDie_agenda (s : State) (d : Nat) (f : Die → Die) : (s.updDie d f).agenda = s.agenda := rfl
@[simp] theorem State.updDie_timers (s : State) (d : Nat) (f : Die → Die) : (s.updDie d f).timers = s.timers := rfl
@[simp] theorem State.updDie_free (s : State) (d : Nat) (f : Die → Die) : (s.updDie d f).free = s.free := rfl
@[simp] theorem State.updDie_nextId (s : State) (d : Nat) (f : Die → Die) : (s.updDie d f).nextId = s.nextId := rfl

/-! updPart. -/

@[simp] theorem State.updPart_th (s : State) (p : Nat) (f : Part → Part) : (s.updPart p f).th = s.th := rfl
@[simp] theorem State.updPart_threads (s : State) (p : Nat) (f : Part → Part) : (s.updPart p f).threads = s.threads := rfl
@[simp] theorem State.updPart_mem (s : State) (p : Nat) (f : Part → Part) : (s.updPart p f).mem = s.mem := rfl
@[simp] theorem State.updPart_full (s : State) (p : Nat) (f : Part → Part) : (s.updPart p f).full = s.full := rfl
@[simp] theorem State.updPart_flights (s : State) (p : Nat) (f : Part → Part) : (s.updPart p f).flights = s.flights := rfl
@[simp] theorem State.updPart_feWaits (s : State) (p : Nat) (f : Part → Part) : (s.updPart p f).feWaits = s.feWaits := rfl
@[simp] theorem State.updPart_feTickets (s : State) (p : Nat) (f : Part → Part) : (s.updPart p f).feTickets = s.feTickets := rfl
@[simp] theorem State.updPart_heralds (s : State) (p : Nat) (f : Part → Part) : (s.updPart p f).heralds = s.heralds := rfl
@[simp] theorem State.updPart_regions (s : State) (p : Nat) (f : Part → Part) : (s.updPart p f).regions = s.regions := rfl
@[simp] theorem State.updPart_heldMsgs (s : State) (p : Nat) (f : Part → Part) : (s.updPart p f).heldMsgs = s.heldMsgs := rfl
@[simp] theorem State.updPart_cores (s : State) (p : Nat) (f : Part → Part) : (s.updPart p f).cores = s.cores := rfl
@[simp] theorem State.updPart_l1 (s : State) (p : Nat) (f : Part → Part) : (s.updPart p f).l1 = s.l1 := rfl
@[simp] theorem State.updPart_ctlb (s : State) (p : Nat) (f : Part → Part) : (s.updPart p f).ctlb = s.ctlb := rfl
@[simp] theorem State.updPart_l2 (s : State) (p : Nat) (f : Part → Part) : (s.updPart p f).l2 = s.l2 := rfl
@[simp] theorem State.updPart_evc (s : State) (p : Nat) (f : Part → Part) : (s.updPart p f).evc = s.evc := rfl
@[simp] theorem State.updPart_groups (s : State) (p : Nat) (f : Part → Part) : (s.updPart p f).groups = s.groups := rfl
@[simp] theorem State.updPart_gangs (s : State) (p : Nat) (f : Part → Part) : (s.updPart p f).gangs = s.gangs := rfl
@[simp] theorem State.updPart_dies (s : State) (p : Nat) (f : Part → Part) : (s.updPart p f).dies = s.dies := rfl
@[simp] theorem State.updPart_parts (s : State) (p : Nat) (f : Part → Part) : (s.updPart p f).parts = s.parts.map (fun q => if q.id == p then f q else q) := rfl
@[simp] theorem State.updPart_clk (s : State) (p : Nat) (f : Part → Part) : (s.updPart p f).clk = s.clk := rfl
@[simp] theorem State.updPart_phase (s : State) (p : Nat) (f : Part → Part) : (s.updPart p f).phase = s.phase := rfl
@[simp] theorem State.updPart_trip (s : State) (p : Nat) (f : Part → Part) : (s.updPart p f).trip = s.trip := rfl
@[simp] theorem State.updPart_clockHeld (s : State) (p : Nat) (f : Part → Part) : (s.updPart p f).clockHeld = s.clockHeld := rfl
@[simp] theorem State.updPart_faultPin (s : State) (p : Nat) (f : Part → Part) : (s.updPart p f).faultPin = s.faultPin := rfl
@[simp] theorem State.updPart_sdUp (s : State) (p : Nat) (f : Part → Part) : (s.updPart p f).sdUp = s.sdUp := rfl
@[simp] theorem State.updPart_sdLog (s : State) (p : Nat) (f : Part → Part) : (s.updPart p f).sdLog = s.sdLog := rfl
@[simp] theorem State.updPart_meas (s : State) (p : Nat) (f : Part → Part) : (s.updPart p f).meas = s.meas := rfl
@[simp] theorem State.updPart_apert (s : State) (p : Nat) (f : Part → Part) : (s.updPart p f).apert = s.apert := rfl
@[simp] theorem State.updPart_spanApert (s : State) (p : Nat) (f : Part → Part) : (s.updPart p f).spanApert = s.spanApert := rfl
@[simp] theorem State.updPart_ports (s : State) (p : Nat) (f : Part → Part) : (s.updPart p f).ports = s.ports := rfl
@[simp] theorem State.updPart_mbox (s : State) (p : Nat) (f : Part → Part) : (s.updPart p f).mbox = s.mbox := rfl
@[simp] theorem State.updPart_links (s : State) (p : Nat) (f : Part → Part) : (s.updPart p f).links = s.links := rfl
@[simp] theorem State.updPart_spans (s : State) (p : Nat) (f : Part → Part) : (s.updPart p f).spans = s.spans := rfl
@[simp] theorem State.updPart_badRoutes (s : State) (p : Nat) (f : Part → Part) : (s.updPart p f).badRoutes = s.badRoutes := rfl
@[simp] theorem State.updPart_shares (s : State) (p : Nat) (f : Part → Part) : (s.updPart p f).shares = s.shares := rfl
@[simp] theorem State.updPart_population (s : State) (p : Nat) (f : Part → Part) : (s.updPart p f).population = s.population := rfl
@[simp] theorem State.updPart_unitReads (s : State) (p : Nat) (f : Part → Part) : (s.updPart p f).unitReads = s.unitReads := rfl
@[simp] theorem State.updPart_badWalks (s : State) (p : Nat) (f : Part → Part) : (s.updPart p f).badWalks = s.badWalks := rfl
@[simp] theorem State.updPart_budget (s : State) (p : Nat) (f : Part → Part) : (s.updPart p f).budget = s.budget := rfl
@[simp] theorem State.updPart_deferred (s : State) (p : Nat) (f : Part → Part) : (s.updPart p f).deferred = s.deferred := rfl
@[simp] theorem State.updPart_out (s : State) (p : Nat) (f : Part → Part) : (s.updPart p f).out = s.out := rfl
@[simp] theorem State.updPart_agenda (s : State) (p : Nat) (f : Part → Part) : (s.updPart p f).agenda = s.agenda := rfl
@[simp] theorem State.updPart_timers (s : State) (p : Nat) (f : Part → Part) : (s.updPart p f).timers = s.timers := rfl
@[simp] theorem State.updPart_free (s : State) (p : Nat) (f : Part → Part) : (s.updPart p f).free = s.free := rfl
@[simp] theorem State.updPart_nextId (s : State) (p : Nat) (f : Part → Part) : (s.updPart p f).nextId = s.nextId := rfl

/-! updStream. -/

@[simp] theorem State.updStream_th (s : State) (p n : Nat) (f : Stream → Stream) : (s.updStream p n f).th = s.th := rfl
@[simp] theorem State.updStream_threads (s : State) (p n : Nat) (f : Stream → Stream) : (s.updStream p n f).threads = s.threads := rfl
@[simp] theorem State.updStream_mem (s : State) (p n : Nat) (f : Stream → Stream) : (s.updStream p n f).mem = s.mem := rfl
@[simp] theorem State.updStream_full (s : State) (p n : Nat) (f : Stream → Stream) : (s.updStream p n f).full = s.full := rfl
@[simp] theorem State.updStream_flights (s : State) (p n : Nat) (f : Stream → Stream) : (s.updStream p n f).flights = s.flights := rfl
@[simp] theorem State.updStream_feWaits (s : State) (p n : Nat) (f : Stream → Stream) : (s.updStream p n f).feWaits = s.feWaits := rfl
@[simp] theorem State.updStream_feTickets (s : State) (p n : Nat) (f : Stream → Stream) : (s.updStream p n f).feTickets = s.feTickets := rfl
@[simp] theorem State.updStream_heralds (s : State) (p n : Nat) (f : Stream → Stream) : (s.updStream p n f).heralds = s.heralds := rfl
@[simp] theorem State.updStream_regions (s : State) (p n : Nat) (f : Stream → Stream) : (s.updStream p n f).regions = s.regions := rfl
@[simp] theorem State.updStream_heldMsgs (s : State) (p n : Nat) (f : Stream → Stream) : (s.updStream p n f).heldMsgs = s.heldMsgs := rfl
@[simp] theorem State.updStream_cores (s : State) (p n : Nat) (f : Stream → Stream) : (s.updStream p n f).cores = s.cores := rfl
@[simp] theorem State.updStream_l1 (s : State) (p n : Nat) (f : Stream → Stream) : (s.updStream p n f).l1 = s.l1 := rfl
@[simp] theorem State.updStream_ctlb (s : State) (p n : Nat) (f : Stream → Stream) : (s.updStream p n f).ctlb = s.ctlb := rfl
@[simp] theorem State.updStream_l2 (s : State) (p n : Nat) (f : Stream → Stream) : (s.updStream p n f).l2 = s.l2 := rfl
@[simp] theorem State.updStream_evc (s : State) (p n : Nat) (f : Stream → Stream) : (s.updStream p n f).evc = s.evc := rfl
@[simp] theorem State.updStream_groups (s : State) (p n : Nat) (f : Stream → Stream) : (s.updStream p n f).groups = s.groups := rfl
@[simp] theorem State.updStream_gangs (s : State) (p n : Nat) (f : Stream → Stream) : (s.updStream p n f).gangs = s.gangs := rfl
@[simp] theorem State.updStream_dies (s : State) (p n : Nat) (f : Stream → Stream) : (s.updStream p n f).dies = s.dies := rfl
@[simp] theorem State.updStream_parts (s : State) (p n : Nat) (f : Stream → Stream) : (s.updStream p n f).parts = s.parts.map (fun q => if q.id == p then q.updStream n f else q) := rfl
@[simp] theorem State.updStream_clk (s : State) (p n : Nat) (f : Stream → Stream) : (s.updStream p n f).clk = s.clk := rfl
@[simp] theorem State.updStream_phase (s : State) (p n : Nat) (f : Stream → Stream) : (s.updStream p n f).phase = s.phase := rfl
@[simp] theorem State.updStream_trip (s : State) (p n : Nat) (f : Stream → Stream) : (s.updStream p n f).trip = s.trip := rfl
@[simp] theorem State.updStream_clockHeld (s : State) (p n : Nat) (f : Stream → Stream) : (s.updStream p n f).clockHeld = s.clockHeld := rfl
@[simp] theorem State.updStream_faultPin (s : State) (p n : Nat) (f : Stream → Stream) : (s.updStream p n f).faultPin = s.faultPin := rfl
@[simp] theorem State.updStream_sdUp (s : State) (p n : Nat) (f : Stream → Stream) : (s.updStream p n f).sdUp = s.sdUp := rfl
@[simp] theorem State.updStream_sdLog (s : State) (p n : Nat) (f : Stream → Stream) : (s.updStream p n f).sdLog = s.sdLog := rfl
@[simp] theorem State.updStream_meas (s : State) (p n : Nat) (f : Stream → Stream) : (s.updStream p n f).meas = s.meas := rfl
@[simp] theorem State.updStream_apert (s : State) (p n : Nat) (f : Stream → Stream) : (s.updStream p n f).apert = s.apert := rfl
@[simp] theorem State.updStream_spanApert (s : State) (p n : Nat) (f : Stream → Stream) : (s.updStream p n f).spanApert = s.spanApert := rfl
@[simp] theorem State.updStream_ports (s : State) (p n : Nat) (f : Stream → Stream) : (s.updStream p n f).ports = s.ports := rfl
@[simp] theorem State.updStream_mbox (s : State) (p n : Nat) (f : Stream → Stream) : (s.updStream p n f).mbox = s.mbox := rfl
@[simp] theorem State.updStream_links (s : State) (p n : Nat) (f : Stream → Stream) : (s.updStream p n f).links = s.links := rfl
@[simp] theorem State.updStream_spans (s : State) (p n : Nat) (f : Stream → Stream) : (s.updStream p n f).spans = s.spans := rfl
@[simp] theorem State.updStream_badRoutes (s : State) (p n : Nat) (f : Stream → Stream) : (s.updStream p n f).badRoutes = s.badRoutes := rfl
@[simp] theorem State.updStream_shares (s : State) (p n : Nat) (f : Stream → Stream) : (s.updStream p n f).shares = s.shares := rfl
@[simp] theorem State.updStream_population (s : State) (p n : Nat) (f : Stream → Stream) : (s.updStream p n f).population = s.population := rfl
@[simp] theorem State.updStream_unitReads (s : State) (p n : Nat) (f : Stream → Stream) : (s.updStream p n f).unitReads = s.unitReads := rfl
@[simp] theorem State.updStream_badWalks (s : State) (p n : Nat) (f : Stream → Stream) : (s.updStream p n f).badWalks = s.badWalks := rfl
@[simp] theorem State.updStream_budget (s : State) (p n : Nat) (f : Stream → Stream) : (s.updStream p n f).budget = s.budget := rfl
@[simp] theorem State.updStream_deferred (s : State) (p n : Nat) (f : Stream → Stream) : (s.updStream p n f).deferred = s.deferred := rfl
@[simp] theorem State.updStream_out (s : State) (p n : Nat) (f : Stream → Stream) : (s.updStream p n f).out = s.out := rfl
@[simp] theorem State.updStream_agenda (s : State) (p n : Nat) (f : Stream → Stream) : (s.updStream p n f).agenda = s.agenda := rfl
@[simp] theorem State.updStream_timers (s : State) (p n : Nat) (f : Stream → Stream) : (s.updStream p n f).timers = s.timers := rfl
@[simp] theorem State.updStream_free (s : State) (p n : Nat) (f : Stream → Stream) : (s.updStream p n f).free = s.free := rfl
@[simp] theorem State.updStream_nextId (s : State) (p n : Nat) (f : Stream → Stream) : (s.updStream p n f).nextId = s.nextId := rfl

/-! mapThreads. -/

@[simp] theorem State.mapThreads_th (s : State) (f : Thread → Thread) : (s.mapThreads f).th = f s.th := rfl
@[simp] theorem State.mapThreads_threads (s : State) (f : Thread → Thread) : (s.mapThreads f).threads = s.threads.map f := rfl
@[simp] theorem State.mapThreads_mem (s : State) (f : Thread → Thread) : (s.mapThreads f).mem = s.mem := rfl
@[simp] theorem State.mapThreads_full (s : State) (f : Thread → Thread) : (s.mapThreads f).full = s.full := rfl
@[simp] theorem State.mapThreads_flights (s : State) (f : Thread → Thread) : (s.mapThreads f).flights = s.flights := rfl
@[simp] theorem State.mapThreads_feWaits (s : State) (f : Thread → Thread) : (s.mapThreads f).feWaits = s.feWaits := rfl
@[simp] theorem State.mapThreads_feTickets (s : State) (f : Thread → Thread) : (s.mapThreads f).feTickets = s.feTickets := rfl
@[simp] theorem State.mapThreads_heralds (s : State) (f : Thread → Thread) : (s.mapThreads f).heralds = s.heralds := rfl
@[simp] theorem State.mapThreads_regions (s : State) (f : Thread → Thread) : (s.mapThreads f).regions = s.regions := rfl
@[simp] theorem State.mapThreads_heldMsgs (s : State) (f : Thread → Thread) : (s.mapThreads f).heldMsgs = s.heldMsgs := rfl
@[simp] theorem State.mapThreads_cores (s : State) (f : Thread → Thread) : (s.mapThreads f).cores = s.cores := rfl
@[simp] theorem State.mapThreads_l1 (s : State) (f : Thread → Thread) : (s.mapThreads f).l1 = s.l1 := rfl
@[simp] theorem State.mapThreads_ctlb (s : State) (f : Thread → Thread) : (s.mapThreads f).ctlb = s.ctlb := rfl
@[simp] theorem State.mapThreads_l2 (s : State) (f : Thread → Thread) : (s.mapThreads f).l2 = s.l2 := rfl
@[simp] theorem State.mapThreads_evc (s : State) (f : Thread → Thread) : (s.mapThreads f).evc = s.evc := rfl
@[simp] theorem State.mapThreads_groups (s : State) (f : Thread → Thread) : (s.mapThreads f).groups = s.groups := rfl
@[simp] theorem State.mapThreads_gangs (s : State) (f : Thread → Thread) : (s.mapThreads f).gangs = s.gangs := rfl
@[simp] theorem State.mapThreads_dies (s : State) (f : Thread → Thread) : (s.mapThreads f).dies = s.dies := rfl
@[simp] theorem State.mapThreads_parts (s : State) (f : Thread → Thread) : (s.mapThreads f).parts = s.parts := rfl
@[simp] theorem State.mapThreads_clk (s : State) (f : Thread → Thread) : (s.mapThreads f).clk = s.clk := rfl
@[simp] theorem State.mapThreads_phase (s : State) (f : Thread → Thread) : (s.mapThreads f).phase = s.phase := rfl
@[simp] theorem State.mapThreads_trip (s : State) (f : Thread → Thread) : (s.mapThreads f).trip = s.trip := rfl
@[simp] theorem State.mapThreads_clockHeld (s : State) (f : Thread → Thread) : (s.mapThreads f).clockHeld = s.clockHeld := rfl
@[simp] theorem State.mapThreads_faultPin (s : State) (f : Thread → Thread) : (s.mapThreads f).faultPin = s.faultPin := rfl
@[simp] theorem State.mapThreads_sdUp (s : State) (f : Thread → Thread) : (s.mapThreads f).sdUp = s.sdUp := rfl
@[simp] theorem State.mapThreads_sdLog (s : State) (f : Thread → Thread) : (s.mapThreads f).sdLog = s.sdLog := rfl
@[simp] theorem State.mapThreads_meas (s : State) (f : Thread → Thread) : (s.mapThreads f).meas = s.meas := rfl
@[simp] theorem State.mapThreads_apert (s : State) (f : Thread → Thread) : (s.mapThreads f).apert = s.apert := rfl
@[simp] theorem State.mapThreads_spanApert (s : State) (f : Thread → Thread) : (s.mapThreads f).spanApert = s.spanApert := rfl
@[simp] theorem State.mapThreads_ports (s : State) (f : Thread → Thread) : (s.mapThreads f).ports = s.ports := rfl
@[simp] theorem State.mapThreads_mbox (s : State) (f : Thread → Thread) : (s.mapThreads f).mbox = s.mbox := rfl
@[simp] theorem State.mapThreads_links (s : State) (f : Thread → Thread) : (s.mapThreads f).links = s.links := rfl
@[simp] theorem State.mapThreads_spans (s : State) (f : Thread → Thread) : (s.mapThreads f).spans = s.spans := rfl
@[simp] theorem State.mapThreads_badRoutes (s : State) (f : Thread → Thread) : (s.mapThreads f).badRoutes = s.badRoutes := rfl
@[simp] theorem State.mapThreads_shares (s : State) (f : Thread → Thread) : (s.mapThreads f).shares = s.shares := rfl
@[simp] theorem State.mapThreads_population (s : State) (f : Thread → Thread) : (s.mapThreads f).population = s.population := rfl
@[simp] theorem State.mapThreads_unitReads (s : State) (f : Thread → Thread) : (s.mapThreads f).unitReads = s.unitReads := rfl
@[simp] theorem State.mapThreads_badWalks (s : State) (f : Thread → Thread) : (s.mapThreads f).badWalks = s.badWalks := rfl
@[simp] theorem State.mapThreads_budget (s : State) (f : Thread → Thread) : (s.mapThreads f).budget = s.budget := rfl
@[simp] theorem State.mapThreads_deferred (s : State) (f : Thread → Thread) : (s.mapThreads f).deferred = s.deferred := rfl
@[simp] theorem State.mapThreads_out (s : State) (f : Thread → Thread) : (s.mapThreads f).out = s.out := rfl
@[simp] theorem State.mapThreads_agenda (s : State) (f : Thread → Thread) : (s.mapThreads f).agenda = s.agenda := rfl
@[simp] theorem State.mapThreads_timers (s : State) (f : Thread → Thread) : (s.mapThreads f).timers = s.timers := rfl
@[simp] theorem State.mapThreads_free (s : State) (f : Thread → Thread) : (s.mapThreads f).free = s.free := rfl
@[simp] theorem State.mapThreads_nextId (s : State) (f : Thread → Thread) : (s.mapThreads f).nextId = s.nextId := rfl

/-! updThread. -/

@[simp] theorem State.updThread_th (s : State) (u : Nat) (f : Thread → Thread) : (s.updThread u f).th = if s.th.uid == u then f s.th else s.th := rfl
@[simp] theorem State.updThread_threads (s : State) (u : Nat) (f : Thread → Thread) : (s.updThread u f).threads = s.threads.map (fun t => if t.uid == u then f t else t) := rfl
@[simp] theorem State.updThread_mem (s : State) (u : Nat) (f : Thread → Thread) : (s.updThread u f).mem = s.mem := rfl
@[simp] theorem State.updThread_full (s : State) (u : Nat) (f : Thread → Thread) : (s.updThread u f).full = s.full := rfl
@[simp] theorem State.updThread_flights (s : State) (u : Nat) (f : Thread → Thread) : (s.updThread u f).flights = s.flights := rfl
@[simp] theorem State.updThread_feWaits (s : State) (u : Nat) (f : Thread → Thread) : (s.updThread u f).feWaits = s.feWaits := rfl
@[simp] theorem State.updThread_feTickets (s : State) (u : Nat) (f : Thread → Thread) : (s.updThread u f).feTickets = s.feTickets := rfl
@[simp] theorem State.updThread_heralds (s : State) (u : Nat) (f : Thread → Thread) : (s.updThread u f).heralds = s.heralds := rfl
@[simp] theorem State.updThread_regions (s : State) (u : Nat) (f : Thread → Thread) : (s.updThread u f).regions = s.regions := rfl
@[simp] theorem State.updThread_heldMsgs (s : State) (u : Nat) (f : Thread → Thread) : (s.updThread u f).heldMsgs = s.heldMsgs := rfl
@[simp] theorem State.updThread_cores (s : State) (u : Nat) (f : Thread → Thread) : (s.updThread u f).cores = s.cores := rfl
@[simp] theorem State.updThread_l1 (s : State) (u : Nat) (f : Thread → Thread) : (s.updThread u f).l1 = s.l1 := rfl
@[simp] theorem State.updThread_ctlb (s : State) (u : Nat) (f : Thread → Thread) : (s.updThread u f).ctlb = s.ctlb := rfl
@[simp] theorem State.updThread_l2 (s : State) (u : Nat) (f : Thread → Thread) : (s.updThread u f).l2 = s.l2 := rfl
@[simp] theorem State.updThread_evc (s : State) (u : Nat) (f : Thread → Thread) : (s.updThread u f).evc = s.evc := rfl
@[simp] theorem State.updThread_groups (s : State) (u : Nat) (f : Thread → Thread) : (s.updThread u f).groups = s.groups := rfl
@[simp] theorem State.updThread_gangs (s : State) (u : Nat) (f : Thread → Thread) : (s.updThread u f).gangs = s.gangs := rfl
@[simp] theorem State.updThread_dies (s : State) (u : Nat) (f : Thread → Thread) : (s.updThread u f).dies = s.dies := rfl
@[simp] theorem State.updThread_parts (s : State) (u : Nat) (f : Thread → Thread) : (s.updThread u f).parts = s.parts := rfl
@[simp] theorem State.updThread_clk (s : State) (u : Nat) (f : Thread → Thread) : (s.updThread u f).clk = s.clk := rfl
@[simp] theorem State.updThread_phase (s : State) (u : Nat) (f : Thread → Thread) : (s.updThread u f).phase = s.phase := rfl
@[simp] theorem State.updThread_trip (s : State) (u : Nat) (f : Thread → Thread) : (s.updThread u f).trip = s.trip := rfl
@[simp] theorem State.updThread_clockHeld (s : State) (u : Nat) (f : Thread → Thread) : (s.updThread u f).clockHeld = s.clockHeld := rfl
@[simp] theorem State.updThread_faultPin (s : State) (u : Nat) (f : Thread → Thread) : (s.updThread u f).faultPin = s.faultPin := rfl
@[simp] theorem State.updThread_sdUp (s : State) (u : Nat) (f : Thread → Thread) : (s.updThread u f).sdUp = s.sdUp := rfl
@[simp] theorem State.updThread_sdLog (s : State) (u : Nat) (f : Thread → Thread) : (s.updThread u f).sdLog = s.sdLog := rfl
@[simp] theorem State.updThread_meas (s : State) (u : Nat) (f : Thread → Thread) : (s.updThread u f).meas = s.meas := rfl
@[simp] theorem State.updThread_apert (s : State) (u : Nat) (f : Thread → Thread) : (s.updThread u f).apert = s.apert := rfl
@[simp] theorem State.updThread_spanApert (s : State) (u : Nat) (f : Thread → Thread) : (s.updThread u f).spanApert = s.spanApert := rfl
@[simp] theorem State.updThread_ports (s : State) (u : Nat) (f : Thread → Thread) : (s.updThread u f).ports = s.ports := rfl
@[simp] theorem State.updThread_mbox (s : State) (u : Nat) (f : Thread → Thread) : (s.updThread u f).mbox = s.mbox := rfl
@[simp] theorem State.updThread_links (s : State) (u : Nat) (f : Thread → Thread) : (s.updThread u f).links = s.links := rfl
@[simp] theorem State.updThread_spans (s : State) (u : Nat) (f : Thread → Thread) : (s.updThread u f).spans = s.spans := rfl
@[simp] theorem State.updThread_badRoutes (s : State) (u : Nat) (f : Thread → Thread) : (s.updThread u f).badRoutes = s.badRoutes := rfl
@[simp] theorem State.updThread_shares (s : State) (u : Nat) (f : Thread → Thread) : (s.updThread u f).shares = s.shares := rfl
@[simp] theorem State.updThread_population (s : State) (u : Nat) (f : Thread → Thread) : (s.updThread u f).population = s.population := rfl
@[simp] theorem State.updThread_unitReads (s : State) (u : Nat) (f : Thread → Thread) : (s.updThread u f).unitReads = s.unitReads := rfl
@[simp] theorem State.updThread_badWalks (s : State) (u : Nat) (f : Thread → Thread) : (s.updThread u f).badWalks = s.badWalks := rfl
@[simp] theorem State.updThread_budget (s : State) (u : Nat) (f : Thread → Thread) : (s.updThread u f).budget = s.budget := rfl
@[simp] theorem State.updThread_deferred (s : State) (u : Nat) (f : Thread → Thread) : (s.updThread u f).deferred = s.deferred := rfl
@[simp] theorem State.updThread_out (s : State) (u : Nat) (f : Thread → Thread) : (s.updThread u f).out = s.out := rfl
@[simp] theorem State.updThread_agenda (s : State) (u : Nat) (f : Thread → Thread) : (s.updThread u f).agenda = s.agenda := rfl
@[simp] theorem State.updThread_timers (s : State) (u : Nat) (f : Thread → Thread) : (s.updThread u f).timers = s.timers := rfl
@[simp] theorem State.updThread_free (s : State) (u : Nat) (f : Thread → Thread) : (s.updThread u f).free = s.free := rfl
@[simp] theorem State.updThread_nextId (s : State) (u : Nat) (f : Thread → Thread) : (s.updThread u f).nextId = s.nextId := rfl

/-! updGroup. -/

@[simp] theorem State.updGroup_th (s : State) (g : Nat) (f : Group → Group) : (s.updGroup g f).th = s.th := rfl
@[simp] theorem State.updGroup_threads (s : State) (g : Nat) (f : Group → Group) : (s.updGroup g f).threads = s.threads := rfl
@[simp] theorem State.updGroup_mem (s : State) (g : Nat) (f : Group → Group) : (s.updGroup g f).mem = s.mem := rfl
@[simp] theorem State.updGroup_full (s : State) (g : Nat) (f : Group → Group) : (s.updGroup g f).full = s.full := rfl
@[simp] theorem State.updGroup_flights (s : State) (g : Nat) (f : Group → Group) : (s.updGroup g f).flights = s.flights := rfl
@[simp] theorem State.updGroup_feWaits (s : State) (g : Nat) (f : Group → Group) : (s.updGroup g f).feWaits = s.feWaits := rfl
@[simp] theorem State.updGroup_feTickets (s : State) (g : Nat) (f : Group → Group) : (s.updGroup g f).feTickets = s.feTickets := rfl
@[simp] theorem State.updGroup_heralds (s : State) (g : Nat) (f : Group → Group) : (s.updGroup g f).heralds = s.heralds := rfl
@[simp] theorem State.updGroup_regions (s : State) (g : Nat) (f : Group → Group) : (s.updGroup g f).regions = s.regions := rfl
@[simp] theorem State.updGroup_heldMsgs (s : State) (g : Nat) (f : Group → Group) : (s.updGroup g f).heldMsgs = s.heldMsgs := rfl
@[simp] theorem State.updGroup_cores (s : State) (g : Nat) (f : Group → Group) : (s.updGroup g f).cores = s.cores := rfl
@[simp] theorem State.updGroup_l1 (s : State) (g : Nat) (f : Group → Group) : (s.updGroup g f).l1 = s.l1 := rfl
@[simp] theorem State.updGroup_ctlb (s : State) (g : Nat) (f : Group → Group) : (s.updGroup g f).ctlb = s.ctlb := rfl
@[simp] theorem State.updGroup_l2 (s : State) (g : Nat) (f : Group → Group) : (s.updGroup g f).l2 = s.l2 := rfl
@[simp] theorem State.updGroup_evc (s : State) (g : Nat) (f : Group → Group) : (s.updGroup g f).evc = s.evc := rfl
@[simp] theorem State.updGroup_groups (s : State) (g : Nat) (f : Group → Group) : (s.updGroup g f).groups = s.groups.map (fun x => if x.id == g then f x else x) := rfl
@[simp] theorem State.updGroup_gangs (s : State) (g : Nat) (f : Group → Group) : (s.updGroup g f).gangs = s.gangs := rfl
@[simp] theorem State.updGroup_dies (s : State) (g : Nat) (f : Group → Group) : (s.updGroup g f).dies = s.dies := rfl
@[simp] theorem State.updGroup_parts (s : State) (g : Nat) (f : Group → Group) : (s.updGroup g f).parts = s.parts := rfl
@[simp] theorem State.updGroup_clk (s : State) (g : Nat) (f : Group → Group) : (s.updGroup g f).clk = s.clk := rfl
@[simp] theorem State.updGroup_phase (s : State) (g : Nat) (f : Group → Group) : (s.updGroup g f).phase = s.phase := rfl
@[simp] theorem State.updGroup_trip (s : State) (g : Nat) (f : Group → Group) : (s.updGroup g f).trip = s.trip := rfl
@[simp] theorem State.updGroup_clockHeld (s : State) (g : Nat) (f : Group → Group) : (s.updGroup g f).clockHeld = s.clockHeld := rfl
@[simp] theorem State.updGroup_faultPin (s : State) (g : Nat) (f : Group → Group) : (s.updGroup g f).faultPin = s.faultPin := rfl
@[simp] theorem State.updGroup_sdUp (s : State) (g : Nat) (f : Group → Group) : (s.updGroup g f).sdUp = s.sdUp := rfl
@[simp] theorem State.updGroup_sdLog (s : State) (g : Nat) (f : Group → Group) : (s.updGroup g f).sdLog = s.sdLog := rfl
@[simp] theorem State.updGroup_meas (s : State) (g : Nat) (f : Group → Group) : (s.updGroup g f).meas = s.meas := rfl
@[simp] theorem State.updGroup_apert (s : State) (g : Nat) (f : Group → Group) : (s.updGroup g f).apert = s.apert := rfl
@[simp] theorem State.updGroup_spanApert (s : State) (g : Nat) (f : Group → Group) : (s.updGroup g f).spanApert = s.spanApert := rfl
@[simp] theorem State.updGroup_ports (s : State) (g : Nat) (f : Group → Group) : (s.updGroup g f).ports = s.ports := rfl
@[simp] theorem State.updGroup_mbox (s : State) (g : Nat) (f : Group → Group) : (s.updGroup g f).mbox = s.mbox := rfl
@[simp] theorem State.updGroup_links (s : State) (g : Nat) (f : Group → Group) : (s.updGroup g f).links = s.links := rfl
@[simp] theorem State.updGroup_spans (s : State) (g : Nat) (f : Group → Group) : (s.updGroup g f).spans = s.spans := rfl
@[simp] theorem State.updGroup_badRoutes (s : State) (g : Nat) (f : Group → Group) : (s.updGroup g f).badRoutes = s.badRoutes := rfl
@[simp] theorem State.updGroup_shares (s : State) (g : Nat) (f : Group → Group) : (s.updGroup g f).shares = s.shares := rfl
@[simp] theorem State.updGroup_population (s : State) (g : Nat) (f : Group → Group) : (s.updGroup g f).population = s.population := rfl
@[simp] theorem State.updGroup_unitReads (s : State) (g : Nat) (f : Group → Group) : (s.updGroup g f).unitReads = s.unitReads := rfl
@[simp] theorem State.updGroup_badWalks (s : State) (g : Nat) (f : Group → Group) : (s.updGroup g f).badWalks = s.badWalks := rfl
@[simp] theorem State.updGroup_budget (s : State) (g : Nat) (f : Group → Group) : (s.updGroup g f).budget = s.budget := rfl
@[simp] theorem State.updGroup_deferred (s : State) (g : Nat) (f : Group → Group) : (s.updGroup g f).deferred = s.deferred := rfl
@[simp] theorem State.updGroup_out (s : State) (g : Nat) (f : Group → Group) : (s.updGroup g f).out = s.out := rfl
@[simp] theorem State.updGroup_agenda (s : State) (g : Nat) (f : Group → Group) : (s.updGroup g f).agenda = s.agenda := rfl
@[simp] theorem State.updGroup_timers (s : State) (g : Nat) (f : Group → Group) : (s.updGroup g f).timers = s.timers := rfl
@[simp] theorem State.updGroup_free (s : State) (g : Nat) (f : Group → Group) : (s.updGroup g f).free = s.free := rfl
@[simp] theorem State.updGroup_nextId (s : State) (g : Nat) (f : Group → Group) : (s.updGroup g f).nextId = s.nextId := rfl

/-! updGang. -/

@[simp] theorem State.updGang_th (s : State) (g : Nat) (f : Gang → Gang) : (s.updGang g f).th = s.th := rfl
@[simp] theorem State.updGang_threads (s : State) (g : Nat) (f : Gang → Gang) : (s.updGang g f).threads = s.threads := rfl
@[simp] theorem State.updGang_mem (s : State) (g : Nat) (f : Gang → Gang) : (s.updGang g f).mem = s.mem := rfl
@[simp] theorem State.updGang_full (s : State) (g : Nat) (f : Gang → Gang) : (s.updGang g f).full = s.full := rfl
@[simp] theorem State.updGang_flights (s : State) (g : Nat) (f : Gang → Gang) : (s.updGang g f).flights = s.flights := rfl
@[simp] theorem State.updGang_feWaits (s : State) (g : Nat) (f : Gang → Gang) : (s.updGang g f).feWaits = s.feWaits := rfl
@[simp] theorem State.updGang_feTickets (s : State) (g : Nat) (f : Gang → Gang) : (s.updGang g f).feTickets = s.feTickets := rfl
@[simp] theorem State.updGang_heralds (s : State) (g : Nat) (f : Gang → Gang) : (s.updGang g f).heralds = s.heralds := rfl
@[simp] theorem State.updGang_regions (s : State) (g : Nat) (f : Gang → Gang) : (s.updGang g f).regions = s.regions := rfl
@[simp] theorem State.updGang_heldMsgs (s : State) (g : Nat) (f : Gang → Gang) : (s.updGang g f).heldMsgs = s.heldMsgs := rfl
@[simp] theorem State.updGang_cores (s : State) (g : Nat) (f : Gang → Gang) : (s.updGang g f).cores = s.cores := rfl
@[simp] theorem State.updGang_l1 (s : State) (g : Nat) (f : Gang → Gang) : (s.updGang g f).l1 = s.l1 := rfl
@[simp] theorem State.updGang_ctlb (s : State) (g : Nat) (f : Gang → Gang) : (s.updGang g f).ctlb = s.ctlb := rfl
@[simp] theorem State.updGang_l2 (s : State) (g : Nat) (f : Gang → Gang) : (s.updGang g f).l2 = s.l2 := rfl
@[simp] theorem State.updGang_evc (s : State) (g : Nat) (f : Gang → Gang) : (s.updGang g f).evc = s.evc := rfl
@[simp] theorem State.updGang_groups (s : State) (g : Nat) (f : Gang → Gang) : (s.updGang g f).groups = s.groups := rfl
@[simp] theorem State.updGang_gangs (s : State) (g : Nat) (f : Gang → Gang) : (s.updGang g f).gangs = s.gangs.map (fun x => if x.id == g then f x else x) := rfl
@[simp] theorem State.updGang_dies (s : State) (g : Nat) (f : Gang → Gang) : (s.updGang g f).dies = s.dies := rfl
@[simp] theorem State.updGang_parts (s : State) (g : Nat) (f : Gang → Gang) : (s.updGang g f).parts = s.parts := rfl
@[simp] theorem State.updGang_clk (s : State) (g : Nat) (f : Gang → Gang) : (s.updGang g f).clk = s.clk := rfl
@[simp] theorem State.updGang_phase (s : State) (g : Nat) (f : Gang → Gang) : (s.updGang g f).phase = s.phase := rfl
@[simp] theorem State.updGang_trip (s : State) (g : Nat) (f : Gang → Gang) : (s.updGang g f).trip = s.trip := rfl
@[simp] theorem State.updGang_clockHeld (s : State) (g : Nat) (f : Gang → Gang) : (s.updGang g f).clockHeld = s.clockHeld := rfl
@[simp] theorem State.updGang_faultPin (s : State) (g : Nat) (f : Gang → Gang) : (s.updGang g f).faultPin = s.faultPin := rfl
@[simp] theorem State.updGang_sdUp (s : State) (g : Nat) (f : Gang → Gang) : (s.updGang g f).sdUp = s.sdUp := rfl
@[simp] theorem State.updGang_sdLog (s : State) (g : Nat) (f : Gang → Gang) : (s.updGang g f).sdLog = s.sdLog := rfl
@[simp] theorem State.updGang_meas (s : State) (g : Nat) (f : Gang → Gang) : (s.updGang g f).meas = s.meas := rfl
@[simp] theorem State.updGang_apert (s : State) (g : Nat) (f : Gang → Gang) : (s.updGang g f).apert = s.apert := rfl
@[simp] theorem State.updGang_spanApert (s : State) (g : Nat) (f : Gang → Gang) : (s.updGang g f).spanApert = s.spanApert := rfl
@[simp] theorem State.updGang_ports (s : State) (g : Nat) (f : Gang → Gang) : (s.updGang g f).ports = s.ports := rfl
@[simp] theorem State.updGang_mbox (s : State) (g : Nat) (f : Gang → Gang) : (s.updGang g f).mbox = s.mbox := rfl
@[simp] theorem State.updGang_links (s : State) (g : Nat) (f : Gang → Gang) : (s.updGang g f).links = s.links := rfl
@[simp] theorem State.updGang_spans (s : State) (g : Nat) (f : Gang → Gang) : (s.updGang g f).spans = s.spans := rfl
@[simp] theorem State.updGang_badRoutes (s : State) (g : Nat) (f : Gang → Gang) : (s.updGang g f).badRoutes = s.badRoutes := rfl
@[simp] theorem State.updGang_shares (s : State) (g : Nat) (f : Gang → Gang) : (s.updGang g f).shares = s.shares := rfl
@[simp] theorem State.updGang_population (s : State) (g : Nat) (f : Gang → Gang) : (s.updGang g f).population = s.population := rfl
@[simp] theorem State.updGang_unitReads (s : State) (g : Nat) (f : Gang → Gang) : (s.updGang g f).unitReads = s.unitReads := rfl
@[simp] theorem State.updGang_badWalks (s : State) (g : Nat) (f : Gang → Gang) : (s.updGang g f).badWalks = s.badWalks := rfl
@[simp] theorem State.updGang_budget (s : State) (g : Nat) (f : Gang → Gang) : (s.updGang g f).budget = s.budget := rfl
@[simp] theorem State.updGang_deferred (s : State) (g : Nat) (f : Gang → Gang) : (s.updGang g f).deferred = s.deferred := rfl
@[simp] theorem State.updGang_out (s : State) (g : Nat) (f : Gang → Gang) : (s.updGang g f).out = s.out := rfl
@[simp] theorem State.updGang_agenda (s : State) (g : Nat) (f : Gang → Gang) : (s.updGang g f).agenda = s.agenda := rfl
@[simp] theorem State.updGang_timers (s : State) (g : Nat) (f : Gang → Gang) : (s.updGang g f).timers = s.timers := rfl
@[simp] theorem State.updGang_free (s : State) (g : Nat) (f : Gang → Gang) : (s.updGang g f).free = s.free := rfl
@[simp] theorem State.updGang_nextId (s : State) (g : Nat) (f : Gang → Gang) : (s.updGang g f).nextId = s.nextId := rfl

/-! later. -/

@[simp] theorem State.later_th (s : State) (e : Event) : (s.later e).th = s.th := rfl
@[simp] theorem State.later_threads (s : State) (e : Event) : (s.later e).threads = s.threads := rfl
@[simp] theorem State.later_mem (s : State) (e : Event) : (s.later e).mem = s.mem := rfl
@[simp] theorem State.later_full (s : State) (e : Event) : (s.later e).full = s.full := rfl
@[simp] theorem State.later_flights (s : State) (e : Event) : (s.later e).flights = s.flights := rfl
@[simp] theorem State.later_feWaits (s : State) (e : Event) : (s.later e).feWaits = s.feWaits := rfl
@[simp] theorem State.later_feTickets (s : State) (e : Event) : (s.later e).feTickets = s.feTickets := rfl
@[simp] theorem State.later_heralds (s : State) (e : Event) : (s.later e).heralds = s.heralds := rfl
@[simp] theorem State.later_regions (s : State) (e : Event) : (s.later e).regions = s.regions := rfl
@[simp] theorem State.later_heldMsgs (s : State) (e : Event) : (s.later e).heldMsgs = s.heldMsgs := rfl
@[simp] theorem State.later_cores (s : State) (e : Event) : (s.later e).cores = s.cores := rfl
@[simp] theorem State.later_l1 (s : State) (e : Event) : (s.later e).l1 = s.l1 := rfl
@[simp] theorem State.later_ctlb (s : State) (e : Event) : (s.later e).ctlb = s.ctlb := rfl
@[simp] theorem State.later_l2 (s : State) (e : Event) : (s.later e).l2 = s.l2 := rfl
@[simp] theorem State.later_evc (s : State) (e : Event) : (s.later e).evc = s.evc := rfl
@[simp] theorem State.later_groups (s : State) (e : Event) : (s.later e).groups = s.groups := rfl
@[simp] theorem State.later_gangs (s : State) (e : Event) : (s.later e).gangs = s.gangs := rfl
@[simp] theorem State.later_dies (s : State) (e : Event) : (s.later e).dies = s.dies := rfl
@[simp] theorem State.later_parts (s : State) (e : Event) : (s.later e).parts = s.parts := rfl
@[simp] theorem State.later_clk (s : State) (e : Event) : (s.later e).clk = s.clk := rfl
@[simp] theorem State.later_phase (s : State) (e : Event) : (s.later e).phase = s.phase := rfl
@[simp] theorem State.later_trip (s : State) (e : Event) : (s.later e).trip = s.trip := rfl
@[simp] theorem State.later_clockHeld (s : State) (e : Event) : (s.later e).clockHeld = s.clockHeld := rfl
@[simp] theorem State.later_faultPin (s : State) (e : Event) : (s.later e).faultPin = s.faultPin := rfl
@[simp] theorem State.later_sdUp (s : State) (e : Event) : (s.later e).sdUp = s.sdUp := rfl
@[simp] theorem State.later_sdLog (s : State) (e : Event) : (s.later e).sdLog = s.sdLog := rfl
@[simp] theorem State.later_meas (s : State) (e : Event) : (s.later e).meas = s.meas := rfl
@[simp] theorem State.later_apert (s : State) (e : Event) : (s.later e).apert = s.apert := rfl
@[simp] theorem State.later_spanApert (s : State) (e : Event) : (s.later e).spanApert = s.spanApert := rfl
@[simp] theorem State.later_ports (s : State) (e : Event) : (s.later e).ports = s.ports := rfl
@[simp] theorem State.later_mbox (s : State) (e : Event) : (s.later e).mbox = s.mbox := rfl
@[simp] theorem State.later_links (s : State) (e : Event) : (s.later e).links = s.links := rfl
@[simp] theorem State.later_spans (s : State) (e : Event) : (s.later e).spans = s.spans := rfl
@[simp] theorem State.later_badRoutes (s : State) (e : Event) : (s.later e).badRoutes = s.badRoutes := rfl
@[simp] theorem State.later_shares (s : State) (e : Event) : (s.later e).shares = s.shares := rfl
@[simp] theorem State.later_population (s : State) (e : Event) : (s.later e).population = s.population := rfl
@[simp] theorem State.later_unitReads (s : State) (e : Event) : (s.later e).unitReads = s.unitReads := rfl
@[simp] theorem State.later_badWalks (s : State) (e : Event) : (s.later e).badWalks = s.badWalks := rfl
@[simp] theorem State.later_budget (s : State) (e : Event) : (s.later e).budget = s.budget := rfl
@[simp] theorem State.later_deferred (s : State) (e : Event) : (s.later e).deferred = s.deferred := rfl
@[simp] theorem State.later_out (s : State) (e : Event) : (s.later e).out = s.out := rfl
@[simp] theorem State.later_agenda (s : State) (e : Event) : (s.later e).agenda = s.agenda ++ [e] := rfl
@[simp] theorem State.later_timers (s : State) (e : Event) : (s.later e).timers = s.timers := rfl
@[simp] theorem State.later_free (s : State) (e : Event) : (s.later e).free = s.free := rfl
@[simp] theorem State.later_nextId (s : State) (e : Event) : (s.later e).nextId = s.nextId := rfl

/-! at_. -/

@[simp] theorem State.due_th (s : State) (c : Nat) (e : Event) : (s.at_ c e).th = s.th := rfl
@[simp] theorem State.due_threads (s : State) (c : Nat) (e : Event) : (s.at_ c e).threads = s.threads := rfl
@[simp] theorem State.due_mem (s : State) (c : Nat) (e : Event) : (s.at_ c e).mem = s.mem := rfl
@[simp] theorem State.due_full (s : State) (c : Nat) (e : Event) : (s.at_ c e).full = s.full := rfl
@[simp] theorem State.due_flights (s : State) (c : Nat) (e : Event) : (s.at_ c e).flights = s.flights := rfl
@[simp] theorem State.due_feWaits (s : State) (c : Nat) (e : Event) : (s.at_ c e).feWaits = s.feWaits := rfl
@[simp] theorem State.due_feTickets (s : State) (c : Nat) (e : Event) : (s.at_ c e).feTickets = s.feTickets := rfl
@[simp] theorem State.due_heralds (s : State) (c : Nat) (e : Event) : (s.at_ c e).heralds = s.heralds := rfl
@[simp] theorem State.due_regions (s : State) (c : Nat) (e : Event) : (s.at_ c e).regions = s.regions := rfl
@[simp] theorem State.due_heldMsgs (s : State) (c : Nat) (e : Event) : (s.at_ c e).heldMsgs = s.heldMsgs := rfl
@[simp] theorem State.due_cores (s : State) (c : Nat) (e : Event) : (s.at_ c e).cores = s.cores := rfl
@[simp] theorem State.due_l1 (s : State) (c : Nat) (e : Event) : (s.at_ c e).l1 = s.l1 := rfl
@[simp] theorem State.due_ctlb (s : State) (c : Nat) (e : Event) : (s.at_ c e).ctlb = s.ctlb := rfl
@[simp] theorem State.due_l2 (s : State) (c : Nat) (e : Event) : (s.at_ c e).l2 = s.l2 := rfl
@[simp] theorem State.due_evc (s : State) (c : Nat) (e : Event) : (s.at_ c e).evc = s.evc := rfl
@[simp] theorem State.due_groups (s : State) (c : Nat) (e : Event) : (s.at_ c e).groups = s.groups := rfl
@[simp] theorem State.due_gangs (s : State) (c : Nat) (e : Event) : (s.at_ c e).gangs = s.gangs := rfl
@[simp] theorem State.due_dies (s : State) (c : Nat) (e : Event) : (s.at_ c e).dies = s.dies := rfl
@[simp] theorem State.due_parts (s : State) (c : Nat) (e : Event) : (s.at_ c e).parts = s.parts := rfl
@[simp] theorem State.due_clk (s : State) (c : Nat) (e : Event) : (s.at_ c e).clk = s.clk := rfl
@[simp] theorem State.due_phase (s : State) (c : Nat) (e : Event) : (s.at_ c e).phase = s.phase := rfl
@[simp] theorem State.due_trip (s : State) (c : Nat) (e : Event) : (s.at_ c e).trip = s.trip := rfl
@[simp] theorem State.due_clockHeld (s : State) (c : Nat) (e : Event) : (s.at_ c e).clockHeld = s.clockHeld := rfl
@[simp] theorem State.due_faultPin (s : State) (c : Nat) (e : Event) : (s.at_ c e).faultPin = s.faultPin := rfl
@[simp] theorem State.due_sdUp (s : State) (c : Nat) (e : Event) : (s.at_ c e).sdUp = s.sdUp := rfl
@[simp] theorem State.due_sdLog (s : State) (c : Nat) (e : Event) : (s.at_ c e).sdLog = s.sdLog := rfl
@[simp] theorem State.due_meas (s : State) (c : Nat) (e : Event) : (s.at_ c e).meas = s.meas := rfl
@[simp] theorem State.due_apert (s : State) (c : Nat) (e : Event) : (s.at_ c e).apert = s.apert := rfl
@[simp] theorem State.due_spanApert (s : State) (c : Nat) (e : Event) : (s.at_ c e).spanApert = s.spanApert := rfl
@[simp] theorem State.due_ports (s : State) (c : Nat) (e : Event) : (s.at_ c e).ports = s.ports := rfl
@[simp] theorem State.due_mbox (s : State) (c : Nat) (e : Event) : (s.at_ c e).mbox = s.mbox := rfl
@[simp] theorem State.due_links (s : State) (c : Nat) (e : Event) : (s.at_ c e).links = s.links := rfl
@[simp] theorem State.due_spans (s : State) (c : Nat) (e : Event) : (s.at_ c e).spans = s.spans := rfl
@[simp] theorem State.due_badRoutes (s : State) (c : Nat) (e : Event) : (s.at_ c e).badRoutes = s.badRoutes := rfl
@[simp] theorem State.due_shares (s : State) (c : Nat) (e : Event) : (s.at_ c e).shares = s.shares := rfl
@[simp] theorem State.due_population (s : State) (c : Nat) (e : Event) : (s.at_ c e).population = s.population := rfl
@[simp] theorem State.due_unitReads (s : State) (c : Nat) (e : Event) : (s.at_ c e).unitReads = s.unitReads := rfl
@[simp] theorem State.due_badWalks (s : State) (c : Nat) (e : Event) : (s.at_ c e).badWalks = s.badWalks := rfl
@[simp] theorem State.due_budget (s : State) (c : Nat) (e : Event) : (s.at_ c e).budget = s.budget := rfl
@[simp] theorem State.due_deferred (s : State) (c : Nat) (e : Event) : (s.at_ c e).deferred = s.deferred := rfl
@[simp] theorem State.due_out (s : State) (c : Nat) (e : Event) : (s.at_ c e).out = s.out := rfl
@[simp] theorem State.due_agenda (s : State) (c : Nat) (e : Event) : (s.at_ c e).agenda = s.agenda := rfl
@[simp] theorem State.due_timers (s : State) (c : Nat) (e : Event) : (s.at_ c e).timers = insertTimer s.timers c e := rfl
@[simp] theorem State.due_free (s : State) (c : Nat) (e : Event) : (s.at_ c e).free = s.free := rfl
@[simp] theorem State.due_nextId (s : State) (c : Nat) (e : Event) : (s.at_ c e).nextId = s.nextId := rfl

/-! send. -/

@[simp] theorem State.send_th (s : State) (m : OutMsg) : (s.send m).th = s.th := rfl
@[simp] theorem State.send_threads (s : State) (m : OutMsg) : (s.send m).threads = s.threads := rfl
@[simp] theorem State.send_mem (s : State) (m : OutMsg) : (s.send m).mem = s.mem := rfl
@[simp] theorem State.send_full (s : State) (m : OutMsg) : (s.send m).full = s.full := rfl
@[simp] theorem State.send_flights (s : State) (m : OutMsg) : (s.send m).flights = s.flights := rfl
@[simp] theorem State.send_feWaits (s : State) (m : OutMsg) : (s.send m).feWaits = s.feWaits := rfl
@[simp] theorem State.send_feTickets (s : State) (m : OutMsg) : (s.send m).feTickets = s.feTickets := rfl
@[simp] theorem State.send_heralds (s : State) (m : OutMsg) : (s.send m).heralds = s.heralds := rfl
@[simp] theorem State.send_regions (s : State) (m : OutMsg) : (s.send m).regions = s.regions := rfl
@[simp] theorem State.send_heldMsgs (s : State) (m : OutMsg) : (s.send m).heldMsgs = s.heldMsgs := rfl
@[simp] theorem State.send_cores (s : State) (m : OutMsg) : (s.send m).cores = s.cores := rfl
@[simp] theorem State.send_l1 (s : State) (m : OutMsg) : (s.send m).l1 = s.l1 := rfl
@[simp] theorem State.send_ctlb (s : State) (m : OutMsg) : (s.send m).ctlb = s.ctlb := rfl
@[simp] theorem State.send_l2 (s : State) (m : OutMsg) : (s.send m).l2 = s.l2 := rfl
@[simp] theorem State.send_evc (s : State) (m : OutMsg) : (s.send m).evc = s.evc := rfl
@[simp] theorem State.send_groups (s : State) (m : OutMsg) : (s.send m).groups = s.groups := rfl
@[simp] theorem State.send_gangs (s : State) (m : OutMsg) : (s.send m).gangs = s.gangs := rfl
@[simp] theorem State.send_dies (s : State) (m : OutMsg) : (s.send m).dies = s.dies := rfl
@[simp] theorem State.send_parts (s : State) (m : OutMsg) : (s.send m).parts = s.parts := rfl
@[simp] theorem State.send_clk (s : State) (m : OutMsg) : (s.send m).clk = s.clk := rfl
@[simp] theorem State.send_phase (s : State) (m : OutMsg) : (s.send m).phase = s.phase := rfl
@[simp] theorem State.send_trip (s : State) (m : OutMsg) : (s.send m).trip = s.trip := rfl
@[simp] theorem State.send_clockHeld (s : State) (m : OutMsg) : (s.send m).clockHeld = s.clockHeld := rfl
@[simp] theorem State.send_faultPin (s : State) (m : OutMsg) : (s.send m).faultPin = s.faultPin := rfl
@[simp] theorem State.send_sdUp (s : State) (m : OutMsg) : (s.send m).sdUp = s.sdUp := rfl
@[simp] theorem State.send_sdLog (s : State) (m : OutMsg) : (s.send m).sdLog = s.sdLog := rfl
@[simp] theorem State.send_meas (s : State) (m : OutMsg) : (s.send m).meas = s.meas := rfl
@[simp] theorem State.send_apert (s : State) (m : OutMsg) : (s.send m).apert = s.apert := rfl
@[simp] theorem State.send_spanApert (s : State) (m : OutMsg) : (s.send m).spanApert = s.spanApert := rfl
@[simp] theorem State.send_ports (s : State) (m : OutMsg) : (s.send m).ports = s.ports := rfl
@[simp] theorem State.send_mbox (s : State) (m : OutMsg) : (s.send m).mbox = s.mbox := rfl
@[simp] theorem State.send_links (s : State) (m : OutMsg) : (s.send m).links = s.links := rfl
@[simp] theorem State.send_spans (s : State) (m : OutMsg) : (s.send m).spans = s.spans := rfl
@[simp] theorem State.send_badRoutes (s : State) (m : OutMsg) : (s.send m).badRoutes = s.badRoutes := rfl
@[simp] theorem State.send_shares (s : State) (m : OutMsg) : (s.send m).shares = s.shares := rfl
@[simp] theorem State.send_population (s : State) (m : OutMsg) : (s.send m).population = s.population := rfl
@[simp] theorem State.send_unitReads (s : State) (m : OutMsg) : (s.send m).unitReads = s.unitReads := rfl
@[simp] theorem State.send_badWalks (s : State) (m : OutMsg) : (s.send m).badWalks = s.badWalks := rfl
@[simp] theorem State.send_budget (s : State) (m : OutMsg) : (s.send m).budget = s.budget := rfl
@[simp] theorem State.send_deferred (s : State) (m : OutMsg) : (s.send m).deferred = s.deferred := rfl
@[simp] theorem State.send_out (s : State) (m : OutMsg) : (s.send m).out = m :: s.out := rfl
@[simp] theorem State.send_agenda (s : State) (m : OutMsg) : (s.send m).agenda = s.agenda := rfl
@[simp] theorem State.send_timers (s : State) (m : OutMsg) : (s.send m).timers = s.timers := rfl
@[simp] theorem State.send_free (s : State) (m : OutMsg) : (s.send m).free = s.free := rfl
@[simp] theorem State.send_nextId (s : State) (m : OutMsg) : (s.send m).nextId = s.nextId := rfl

/-! log. -/

@[simp] theorem State.log_th (s : State) (w : String) (n : Nat) : (s.log w n).th = s.th := rfl
@[simp] theorem State.log_threads (s : State) (w : String) (n : Nat) : (s.log w n).threads = s.threads := rfl
@[simp] theorem State.log_mem (s : State) (w : String) (n : Nat) : (s.log w n).mem = s.mem := rfl
@[simp] theorem State.log_full (s : State) (w : String) (n : Nat) : (s.log w n).full = s.full := rfl
@[simp] theorem State.log_flights (s : State) (w : String) (n : Nat) : (s.log w n).flights = s.flights := rfl
@[simp] theorem State.log_feWaits (s : State) (w : String) (n : Nat) : (s.log w n).feWaits = s.feWaits := rfl
@[simp] theorem State.log_feTickets (s : State) (w : String) (n : Nat) : (s.log w n).feTickets = s.feTickets := rfl
@[simp] theorem State.log_heralds (s : State) (w : String) (n : Nat) : (s.log w n).heralds = s.heralds := rfl
@[simp] theorem State.log_regions (s : State) (w : String) (n : Nat) : (s.log w n).regions = s.regions := rfl
@[simp] theorem State.log_heldMsgs (s : State) (w : String) (n : Nat) : (s.log w n).heldMsgs = s.heldMsgs := rfl
@[simp] theorem State.log_cores (s : State) (w : String) (n : Nat) : (s.log w n).cores = s.cores := rfl
@[simp] theorem State.log_l1 (s : State) (w : String) (n : Nat) : (s.log w n).l1 = s.l1 := rfl
@[simp] theorem State.log_ctlb (s : State) (w : String) (n : Nat) : (s.log w n).ctlb = s.ctlb := rfl
@[simp] theorem State.log_l2 (s : State) (w : String) (n : Nat) : (s.log w n).l2 = s.l2 := rfl
@[simp] theorem State.log_evc (s : State) (w : String) (n : Nat) : (s.log w n).evc = s.evc := rfl
@[simp] theorem State.log_groups (s : State) (w : String) (n : Nat) : (s.log w n).groups = s.groups := rfl
@[simp] theorem State.log_gangs (s : State) (w : String) (n : Nat) : (s.log w n).gangs = s.gangs := rfl
@[simp] theorem State.log_dies (s : State) (w : String) (n : Nat) : (s.log w n).dies = s.dies := rfl
@[simp] theorem State.log_parts (s : State) (w : String) (n : Nat) : (s.log w n).parts = s.parts := rfl
@[simp] theorem State.log_clk (s : State) (w : String) (n : Nat) : (s.log w n).clk = s.clk := rfl
@[simp] theorem State.log_phase (s : State) (w : String) (n : Nat) : (s.log w n).phase = s.phase := rfl
@[simp] theorem State.log_trip (s : State) (w : String) (n : Nat) : (s.log w n).trip = s.trip := rfl
@[simp] theorem State.log_clockHeld (s : State) (w : String) (n : Nat) : (s.log w n).clockHeld = s.clockHeld := rfl
@[simp] theorem State.log_faultPin (s : State) (w : String) (n : Nat) : (s.log w n).faultPin = s.faultPin := rfl
@[simp] theorem State.log_sdUp (s : State) (w : String) (n : Nat) : (s.log w n).sdUp = s.sdUp := rfl
@[simp] theorem State.log_sdLog (s : State) (w : String) (n : Nat) : (s.log w n).sdLog = ⟨w, n, 0⟩ :: s.sdLog := rfl
@[simp] theorem State.log_meas (s : State) (w : String) (n : Nat) : (s.log w n).meas = s.meas := rfl
@[simp] theorem State.log_apert (s : State) (w : String) (n : Nat) : (s.log w n).apert = s.apert := rfl
@[simp] theorem State.log_spanApert (s : State) (w : String) (n : Nat) : (s.log w n).spanApert = s.spanApert := rfl
@[simp] theorem State.log_ports (s : State) (w : String) (n : Nat) : (s.log w n).ports = s.ports := rfl
@[simp] theorem State.log_mbox (s : State) (w : String) (n : Nat) : (s.log w n).mbox = s.mbox := rfl
@[simp] theorem State.log_links (s : State) (w : String) (n : Nat) : (s.log w n).links = s.links := rfl
@[simp] theorem State.log_spans (s : State) (w : String) (n : Nat) : (s.log w n).spans = s.spans := rfl
@[simp] theorem State.log_badRoutes (s : State) (w : String) (n : Nat) : (s.log w n).badRoutes = s.badRoutes := rfl
@[simp] theorem State.log_shares (s : State) (w : String) (n : Nat) : (s.log w n).shares = s.shares := rfl
@[simp] theorem State.log_population (s : State) (w : String) (n : Nat) : (s.log w n).population = s.population := rfl
@[simp] theorem State.log_unitReads (s : State) (w : String) (n : Nat) : (s.log w n).unitReads = s.unitReads := rfl
@[simp] theorem State.log_badWalks (s : State) (w : String) (n : Nat) : (s.log w n).badWalks = s.badWalks := rfl
@[simp] theorem State.log_budget (s : State) (w : String) (n : Nat) : (s.log w n).budget = s.budget := rfl
@[simp] theorem State.log_deferred (s : State) (w : String) (n : Nat) : (s.log w n).deferred = s.deferred := rfl
@[simp] theorem State.log_out (s : State) (w : String) (n : Nat) : (s.log w n).out = s.out := rfl
@[simp] theorem State.log_agenda (s : State) (w : String) (n : Nat) : (s.log w n).agenda = s.agenda := rfl
@[simp] theorem State.log_timers (s : State) (w : String) (n : Nat) : (s.log w n).timers = s.timers := rfl
@[simp] theorem State.log_free (s : State) (w : String) (n : Nat) : (s.log w n).free = s.free := rfl
@[simp] theorem State.log_nextId (s : State) (w : String) (n : Nat) : (s.log w n).nextId = s.nextId := rfl

end Sys2Proof.Machine
end

