-- ==== Sys2Proof/Machine/Debug.lean ====
section
/-! DEFINITION. What the debug interface reports of the indirect operands of the instruction at which a thread is stopped (R192). -/

namespace Sys2Proof.Machine
open Sys2Proof

/-- Operands that need no alignment: address pairs, and those of another number of registers (R171, R284). -/
def unaligned : Instr → List (Code × Nat)
  | .ldB _ b _ _ _ | .ldH _ b _ _ _ | .ldW _ b _ _ _ | .ldBs _ b _ _ _ | .ldHs _ b _ _ _ | .ldf _ b _ _ _ | .lde _ b _ _ _
  | .fest _ b _ _ _ | .ldD _ b _ _ _ | .ldQ _ b _ _ _ | .ldExtended _ b _ _ _ | .sete b _ _ _ | .stB _ b _ _ _ | .stH _ b _ _ _
  | .stW _ b _ _ _ | .stf _ b _ _ _ | .stx _ b _ _ _ | .stD _ b _ _ _ | .stQ _ b _ _ _ | .stExtended _ b _ _ _ => [(b, 2)]
  | .ldm d b _ _ n | .stm d b _ _ n => [(b, 2), (d, n.toNat + 1)]
  | .amoAdd _ a _ _ _ | .amoAnd _ a _ _ _ | .amoOr _ a _ _ _ | .amoXor _ a _ _ _ | .amoMin _ a _ _ _ | .amoMax _ a _ _ _
  | .amoMinn _ a _ _ _ | .amoMaxn _ a _ _ _ | .amoSwap _ a _ _ _ | .amoCas _ a _ _ _ | .redAdd _ a _ _ _ | .redAnd _ a _ _ _
  | .redOr _ a _ _ _ | .redXor _ a _ _ _ | .redMin _ a _ _ _ | .redMax _ a _ _ _ | .redMinn _ a _ _ _ | .redMaxn _ a _ _ _
  | .redSwap _ a _ _ _ | .redCas _ a _ _ _ => [(a, 2)]
  | .amoFadd _ a _ _ | .redFadd _ a _ _ | .redFx64 _ a _ _ | .barw _ a _ | .barj a _ | .barx a _ | .wwait a _ | .wpoll _ a _ | .pf a
  | .inval a | .wback a | .spawn a _ | .wexp _ a _ | .launch _ a _ => [(a, 2)]
  | .mmaBf16 _ _ b _ | .mmaF16 _ _ b _ | .mmaQ4 _ _ b _ | .mmaF8E4m3E4m3 _ _ b _ | .mmaF8E4m3E5m2 _ _ b _ | .mmaF8E5m2E4m3 _ _ b _
  | .mmaF8E5m2E5m2 _ _ b _ | .mmaF8S8 _ _ b _ | .mmaMx4 _ _ b _ | .mmaTs8W8 _ _ b _ | .mmaTs8W4 _ _ b _ | .pemit _ b => [(b, 2)]
  | .smp _ a b => [(a, 2), (b, 2)]
  | .smpl _ a b | .fetch _ a b => [(a, 2), (b, 3)]
  | .smpg _ a b => [(a, 2), (b, 6)]
  | _ => []

/-- The register operands of an instruction with their alignment; operands of one code and one number of registers stand once. -/
def operandsOf (t : Thread) (i : Instr) : List Opnd :=
  let free := unaligned i
  (((readsOf i ++ addendOf t i ++ writesOf i).diff free).map (fun o => (⟨0, o.1, o.2, min o.2 4⟩ : Opnd)) ++
    free.map (fun o => (⟨0, o.1, o.2, 1⟩ : Opnd))).dedup

/-- A thread is stopped: parked on a fault, or halted. -/
def Thread.stopped (t : Thread) : Bool :=
  t.live && (t.hold != .running || (match t.run with | .faulted _ => true | _ => false))

/-- Two threads stand in one static wave of a role (R89); one that has entered by wenter is in none but its own. -/
def sameWave (t u : Thread) : Bool :=
  u.uid == t.uid || (!t.entered && !u.entered && u.grp == t.grp && u.role == t.role && u.tid / 64 == t.tid / 64 && u.isWave)

/-- The byte of one lane: bit 7 for an operand resolved without fault, and the register reached. -/
def laneByte (u : Thread) (o : Opnd) : Byte :=
  match resolve u o with
  | .ok n => BitVec.ofNat 8 (128 + n)
  | .error _ => 0

/-- One byte for each lane of the thread's wave, or the thread's own on a swarm core. A lane was in the dynamic wave when its thread is
stopped at this instruction too. [DEDUCED: log 103] -/
def laneBytes (s : State) (t : Thread) (o : Opnd) : List Byte :=
  if !t.isWave then [laneByte t o]
  else (List.range 64).map (fun l =>
    match (s.selThreads (fun u => sameWave t u && u.laneNo == l && u.stopped && u.pc == t.pc)).head? with
    | some u => laneByte u o
    | none => 0)

/-- The name of an indirect operand (R192): POSTINC adds a plus sign. -/
def operandName (t : Thread) (o : Opnd) : String :=
  let j := o.code.toNat - 120
  "g[i" ++ toString j ++ (if (t.rdI j).getLsbD 25 then "+]" else "]")

/-- THE DEBUG REPORT of a stopped thread (R192): each indirect operand of its instruction by name, with a byte of each lane. -/
def debugReport (s : State) (uid : Nat) : List (String × List Byte) :=
  match s.thread? uid with
  | none => []
  | some t =>
    if !t.stopped then []
    else match peek s t with
      | none => []
      | some i => ((operandsOf t i).filter (fun o => t.indirect o.code)).map (fun o => (operandName t o, laneBytes s t o))

end Sys2Proof.Machine
end

