-- ==== Sys2Proof/Tests/Slice0.lean ====
section
/-! SUPPORT. Tests: decoding of words written out from the opcode map of R278 to R289, the field checks of R276, and single instructions on
small states with results worked out from the manual. -/

namespace Sys2Proof.Tests
open Sys2Proof Sys2Proof.Machine

section
set_option Elab.async false

/-- The word with these fields, as R280 lays them out: minor [31:27], B [26:20], A [19:13], D [12:6], major [5:1], 1. -/
def word (minor b a d major : Nat) : Nat := minor * 0x8000000 + b * 0x100000 + a * 0x2000 + d * 0x40 + major * 2 + 1

/-- The parcel with these fields, as R278 lays them out: b [15:11], a [10:5], op4 [4:1]. -/
def half (op a b : Nat) : Nat := b * 0x800 + a * 0x20 + op * 2

/-- Each word decodes to its instruction. -/
def reads (l : List (Nat × Instr)) : Bool :=
  l.all (fun x => decide (decode .v3 [BitVec.ofNat 16 x.1, BitVec.ofNat 16 (x.1 / 0x10000)] = some (x.2, 2)))

/-- Each parcel decodes to its instruction. -/
def readsShort (l : List (Nat × Instr)) : Bool := l.all (fun x => decide (decode .v3 [BitVec.ofNat 16 x.1] = some (x.2, 1)))

/-! Decoding. -/

theorem test_decode_major0 : reads [
    (word 0 28 20 12 0, .add 12 20 28), (word 1 28 20 12 0, .sub 12 20 28), (word 2 28 20 12 0, .mul 12 20 28),
    (word 3 28 20 12 0, .mulh 12 20 28), (word 4 28 20 12 0, .mulhn 12 20 28), (word 5 28 20 12 0, .mulw 12 20 28),
    (word 6 28 20 12 0, .mulwn 12 20 28), (word 7 28 20 12 0, .div 12 20 28), (word 8 28 20 12 0, .divn 12 20 28),
    (word 9 28 20 12 0, .rem 12 20 28), (word 10 28 20 12 0, .remn 12 20 28), (word 11 28 20 12 0, .and 12 20 28),
    (word 12 28 20 12 0, .or 12 20 28), (word 13 28 20 12 0, .xor 12 20 28), (word 14 28 20 12 0, .andn 12 20 28),
    (word 15 28 20 12 0, .shl 12 20 28), (word 16 28 20 12 0, .shr 12 20 28), (word 17 28 20 12 0, .sra 12 20 28),
    (word 18 28 20 12 0, .rol 12 20 28), (word 19 28 20 12 0, .min 12 20 28), (word 20 28 20 12 0, .max 12 20 28),
    (word 21 28 20 12 0, .minn 12 20 28), (word 22 28 20 12 0, .maxn 12 20 28), (word 23 0 20 12 0, .clz 12 20),
    (word 23 1 20 12 0, .ctz 12 20), (word 23 2 20 12 0, .popc 12 20), (word 23 3 20 12 0, .brev 12 20),
    (word 24 28 20 12 0, .addD 12 20 28), (word 25 28 20 12 0, .subD 12 20 28), (word 26 28 20 12 0, .shlD 12 20 28),
    (word 27 28 20 12 0, .divS64 12 20 28), (word 28 28 20 12 0, .divnN64 12 20 28), (word 29 28 20 12 0, .remS64 12 20 28),
    (word 30 28 20 12 0, .remnN64 12 20 28)] = true := by decide +kernel

theorem test_decode_immediates : reads [
    (word 18 52 20 12 1, .addi 12 20 0x934), (word 18 52 20 12 2, .andi 12 20 0x934), (word 18 52 20 12 3, .ori 12 20 0x934),
    (word 18 52 20 12 4, .xori 12 20 0x934), (word 0 19 20 12 5, .shli 12 20 19), (word 0 51 20 12 5, .shri 12 20 19),
    (word 0 83 20 12 5, .srai 12 20 19), (word 30 1 20 110 7, .cmpi 6 13 20 0xF01), (word 17 3 5 12 8, .ldi 12 0x44185),
    (word 17 3 5 12 9, .ldih 12 0x44185)] = true := by decide +kernel

theorem test_decode_predicates : reads [
    (word 0 28 20 76 6, .cmpS32 4 9 20 28), (word 1 28 20 76 6, .cmpN32 4 9 20 28), (word 2 28 20 76 6, .cmpS64 4 9 20 28),
    (word 3 28 20 76 6, .cmpN64 4 9 20 28), (word 4 11 7 72 6, .pand 9 7 11), (word 5 11 7 72 6, .por 9 7 11),
    (word 6 11 7 72 6, .pxor 9 7 11), (word 7 0 7 72 6, .pnot 9 7), (word 5 28 20 12 30, .sel 12 20 28 5),
    (word 21 28 20 12 30, .selNot 12 20 28 5)] = true := by decide +kernel

theorem test_decode_control : reads [
    (word 31 127 126 0 10, .b 0x7FFFE), (word 0 0 3 49 10, .bp 6 3), (word 1 0 0 122 10, .bnp 15 0x4000),
    (word 0 1 2 31 11, .call 31 0x82), (word 0 0 20 0 12, .jmp 20), (word 1 0 20 12 12, .callr 12 20)] = true := by decide +kernel

theorem test_decode_loads_stores : reads [
    (word 31 112 20 12 13, .ldB 12 20 2 3 31), (word 31 113 20 12 13, .ldH 12 20 2 3 31),
    (word 31 114 20 12 13, .ldW 12 20 2 3 31), (word 31 115 20 12 13, .ldD 12 20 2 3 31),
    (word 31 116 20 12 13, .ldQ 12 20 2 3 31), (word 31 117 20 12 13, .ldBs 12 20 2 3 31),
    (word 31 118 20 12 13, .ldHs 12 20 2 3 31), (word 6 15 20 12 13, .ldExtended 12 20 1 0 6),
    (word 31 56 20 12 14, .stB 12 20 3 1 31), (word 31 57 20 12 14, .stH 12 20 3 1 31),
    (word 31 58 20 12 14, .stW 12 20 3 1 31), (word 31 59 20 12 14, .stD 12 20 3 1 31),
    (word 31 60 20 12 14, .stQ 12 20 3 1 31), (word 4 71 20 12 14, .stExtended 12 20 0 2 4),
    (word 9 72 20 12 29, .ldf 12 20 1 2 9), (word 9 73 20 12 29, .lde 12 20 1 2 9), (word 9 74 20 12 29, .stf 12 20 1 2 9),
    (word 9 75 20 12 29, .stx 12 20 1 2 9), (word 9 76 20 0 29, .sete 20 1 2 9), (word 9 77 20 12 29, .fest 12 20 1 2 9),
    (word 7 22 20 12 29, .ldm 12 20 2 0 7), (word 31 23 20 12 29, .stm 12 20 2 0 31)] = true := by decide +kernel

theorem test_decode_atomics : reads [
    (word 0 92 20 12 15, .amoAdd 12 20 4 3 1), (word 1 92 20 12 15, .amoAnd 12 20 4 3 1),
    (word 2 92 20 12 15, .amoOr 12 20 4 3 1), (word 3 92 20 12 15, .amoXor 12 20 4 3 1),
    (word 4 92 20 12 15, .amoMin 12 20 4 3 1), (word 5 92 20 12 15, .amoMax 12 20 4 3 1),
    (word 6 92 20 12 15, .amoMinn 12 20 4 3 1), (word 7 92 20 12 15, .amoMaxn 12 20 4 3 1),
    (word 8 92 20 12 15, .amoSwap 12 20 4 3 1), (word 9 92 20 12 15, .amoCas 12 20 4 3 1),
    (word 10 33 20 12 15, .amoFadd 12 20 1 4), (word 16 82 20 12 15, .redAdd 12 20 2 2 1),
    (word 17 82 20 12 15, .redAnd 12 20 2 2 1), (word 18 82 20 12 15, .redOr 12 20 2 2 1),
    (word 19 82 20 12 15, .redXor 12 20 2 2 1), (word 20 82 20 12 15, .redMin 12 20 2 2 1),
    (word 21 82 20 12 15, .redMax 12 20 2 2 1), (word 22 82 20 12 15, .redMinn 12 20 2 2 1),
    (word 23 82 20 12 15, .redMaxn 12 20 2 2 1), (word 24 82 20 12 15, .redSwap 12 20 2 2 1),
    (word 25 82 20 12 15, .redCas 12 20 2 2 1), (word 26 10 20 12 15, .redFadd 12 20 2 1),
    (word 27 72 20 12 15, .redFx64 12 20 0 1)] = true := by decide +kernel

theorem test_decode_fences_barriers : reads [
    (word 0 28 0 0 16, .fence 4 3), (word 1 0 0 0 16, .bar), (word 2 0 0 0 16, .barGang), (word 3 16 20 0 16, .barj 20 2),
    (word 4 8 20 12 16, .barw 12 20 1), (word 5 24 20 0 16, .barx 20 3), (word 6 0 20 0 16, .pf 20),
    (word 7 0 20 0 16, .inval 20), (word 8 0 20 0 16, .wback 20)] = true := by decide +kernel

theorem test_decode_floats : reads [
    (word 12 28 20 12 17, .fadd 12 20 28 3), (word 13 28 20 12 17, .fsub 12 20 28 3),
    (word 14 28 20 12 17, .fmul 12 20 28 3), (word 15 28 20 12 17, .fdiv 12 20 28 3), (word 0 28 20 12 18, .hadd2 12 20 28),
    (word 1 28 20 12 18, .hmul2 12 20 28), (word 2 28 20 12 18, .hfma2 12 20 28), (word 3 28 20 12 18, .badd2 12 20 28),
    (word 4 28 20 12 18, .bmul2 12 20 28), (word 5 28 20 12 18, .bfma2 12 20 28), (word 6 28 20 12 18, .dadd 12 20 28),
    (word 7 28 20 12 18, .dmul 12 20 28), (word 8 28 20 12 18, .dfma 12 20 28), (word 9 36 20 12 18, .cvtS32 12 20 4 2),
    (word 10 36 20 12 18, .cvtN32 12 20 4 2), (word 11 36 20 12 18, .cvtS64 12 20 4 2),
    (word 12 36 20 12 18, .cvtN64 12 20 4 2), (word 13 37 20 12 18, .cvtF32 12 20 5 2),
    (word 14 36 20 12 18, .cvtF16 12 20 4 2), (word 15 36 20 12 18, .cvtBf16 12 20 4 2),
    (word 16 36 20 12 18, .cvtF64 12 20 4 2), (word 17 36 20 12 18, .cvtE4m3 12 20 4 2),
    (word 18 36 20 12 18, .cvtE5m2 12 20 4 2), (word 19 36 20 12 18, .cvtE2m1 12 20 4 2),
    (word 20 20 20 12 18, .cvtE4m3Sat 12 20 4 1), (word 0 28 20 79 19, .fcmpF32 7 9 20 28),
    (word 1 28 20 78 19, .fcmpF64 6 9 20 28), (word 2 0 20 12 19, .fclass 12 20), (word 3 0 20 12 19, .fclassF64 12 20),
    (word 4 28 20 12 19, .fmin 12 20 28), (word 5 28 20 12 19, .fmax 12 20 28), (word 16 0 20 12 20, .fsqrt 12 20 4),
    (word 16 1 20 12 20, .frcp 12 20 4), (word 16 2 20 12 20, .frsq 12 20 4), (word 16 3 20 12 20, .fexp2 12 20 4),
    (word 16 4 20 12 20, .flog2 12 20 4), (word 16 5 20 12 20, .fsin 12 20 4), (word 16 6 20 12 20, .fcos 12 20 4),
    (word 16 7 20 12 20, .fsinR 12 20 4), (word 16 8 20 12 20, .fcosR 12 20 4)] = true := by decide +kernel

theorem test_decode_floats_more : reads [
    (word 0 9 20 12 20, .ffloor 12 20), (word 0 10 20 12 20, .fceil 12 20), (word 0 11 20 12 20, .ftrunc 12 20),
    (word 4 12 20 12 20, .frint 12 20 1), (word 8 13 20 12 20, .ffrac 12 20 2), (word 0 14 20 12 20, .fabs 12 20),
    (word 0 15 20 12 20, .fneg 12 20), (word 13 28 20 12 20, .fma 12 20 28 3), (word 18 28 20 12 20, .fnma 12 20 28 4)] = true := by decide +kernel

theorem test_decode_messages : reads [
    (word 0 28 20 13 21, .mput 13 20 28), (word 1 0 13 12 21, .mget 12 13), (word 2 28 20 0 21, .msend 20 28),
    (word 3 16 0 12 21, .rmsg 12 2), (word 4 0 2 12 21, .qget 12 2), (word 5 0 20 2 21, .qput 2 20),
    (word 6 0 20 3 21, .qctl 3 20), (word 7 0 1 12 21, .qpeek 12 1), (word 8 0 20 0 21, .go 20),
    (word 9 28 20 0 21, .spawn 20 28), (word 10 0 20 0 21, .wenter 20), (word 11 0 20 0 21, .wleave 20),
    (word 12 28 20 5 21, .wexp 5 20 28), (word 13 24 20 0 21, .wwait 20 3), (word 14 32 20 12 21, .wpoll 12 20 4),
    (word 0 29 20 0 22, .mvcopy 20 5 3), (word 1 29 20 0 22, .mvcopy2 20 5 3), (word 2 29 20 0 22, .mvgath 20 5 3),
    (word 3 29 20 0 22, .mvscat 20 5 3), (word 4 29 20 0 22, .mvfill 20 5 3), (word 5 29 20 0 22, .mvred 20 5 3)] = true := by decide +kernel

theorem test_decode_wave : reads [
    (word 0 28 20 12 23, .shfl 12 20 28), (word 1 28 20 12 23, .shflx 12 20 28), (word 7 28 20 12 23, .bcast 12 20 28),
    (word 2 0 7 72 23, .voteAny 9 7), (word 3 0 7 72 23, .voteAll 9 7), (word 4 0 7 12 23, .ballot 12 7),
    (word 5 2 20 12 23, .lsum 12 20 2), (word 6 1 20 12 23, .lmin 12 20 1), (word 0 0 0 0 24, .mrdy),
    (word 2 0 0 0 24, .mwait), (word 5 28 20 12 24, .mmaBf16 12 20 28 1), (word 7 28 20 12 24, .mmaF16 12 20 28 1),
    (word 9 28 20 12 24, .mmaF8E4m3E4m3 12 20 28 1), (word 11 28 20 12 24, .mmaF8E4m3E5m2 12 20 28 1),
    (word 13 28 20 12 24, .mmaF8E5m2E4m3 12 20 28 1), (word 15 28 20 12 24, .mmaF8E5m2E5m2 12 20 28 1),
    (word 17 28 20 12 24, .mmaF8S8 12 20 28 1), (word 19 28 20 12 24, .mmaQ4 12 20 28 1),
    (word 21 28 20 12 24, .mmaMx4 12 20 28 1), (word 23 28 20 12 24, .mmaTs8W8 12 20 28 1),
    (word 25 28 20 12 24, .mmaTs8W4 12 20 28 1), (word 0 28 20 12 25, .smp 12 20 28), (word 1 28 20 12 25, .smpl 12 20 28),
    (word 2 28 20 12 25, .smpg 12 20 28), (word 3 28 20 12 25, .fetch 12 20 28), (word 4 28 20 12 25, .interp 12 20 28),
    (word 5 0 20 12 25, .ddx 12 20), (word 6 0 20 12 25, .ddy 12 20), (word 7 28 20 0 25, .pemit 20 28),
    (word 7 0 20 1 25, .pemitCull 20), (word 8 28 20 0 25, .pexp 20 28), (word 9 0 0 0 25, .kill)] = true := by decide +kernel

theorem test_decode_index_system : reads [
    (word 0 0 20 5 26, .iset 5 20), (word 0 0 20 13 26, .iget 5 20), (word 0 0 0 16 26, .iclr0), (word 0 0 0 17 26, .iclr1),
    (word 0 0 0 18 26, .iclr2), (word 0 0 0 19 26, .iclr3), (word 0 0 0 20 26, .iclr4), (word 0 0 0 21 26, .iclr5),
    (word 0 0 0 22 26, .iclr6), (word 0 0 0 23 26, .iclr7), (word 31 100 0 29 26, .iadv 5 0xFE4),
    (word 22 127 20 37 26, .isetFields 5 20 127 6 1), (word 6 127 20 45 26, .isetWrap 5 20 127 6 0),
    (word 17 3 5 3 27, .xset 3 0x44185), (word 17 3 5 6 27, .xsetHi 2 0x44185), (word 0 0 20 9 27, .xld 1 20),
    (word 0 18 0 12 28, .sget 12 18), (word 1 17 20 0 28, .sset 20 17), (word 2 0 20 99 28, .cset 99 20),
    (word 3 0 20 99 28, .csetHigh 99 20), (word 4 77 0 0 28, .trap 77), (word 5 0 0 0 28, .lret),
    (word 6 28 20 12 28, .launch 12 20 28), (word 7 28 20 0 28, .tlsig 20 28), (word 8 28 20 0 28, .tlsigSet 20 28),
    (word 9 0 20 0 28, .sleep 20), (word 10 0 0 0 28, .nopLong)] = true := by decide +kernel

theorem test_decode_short : readsShort [
    (half 0 45 19, .movS 45 19), (half 1 45 19, .addS 45 19), (half 2 45 19, .subS 45 19), (half 3 45 19, .andS 45 19),
    (half 4 45 19, .orS 45 19), (half 5 45 19, .xorS 45 19), (half 6 45 19, .addiS 45 19), (half 7 45 19, .shliS 45 19),
    (half 8 45 19, .shriS 45 19), (half 9 45 19, .ldiS 45 19), (half 10 45 19, .ldS 45 19), (half 11 45 19, .stS 45 19),
    (half 12 45 19, .bzS 45 19), (half 13 45 19, .bnzS 45 19), (0x001C, .nop), (0x003C, .rx), (half 14 2 19, .ret 19),
    (half 14 3 0, .lretS), (half 14 4 0, .yield), (half 14 5 0, .wmsg0), (half 14 5 1, .wmsg1), (half 14 5 2, .wmsg2),
    (half 14 5 3, .wmsg3), (half 14 5 4, .wmsg4), (half 14 5 5, .wmsg5), (half 14 5 6, .wmsg6), (half 14 5 7, .wmsg7),
    (half 14 5 8, .wmsg8), (half 14 5 9, .wmsg9), (half 14 5 10, .wmsg10), (half 14 5 11, .wmsg11), (half 14 5 12, .wmsg12),
    (half 14 5 13, .wmsg13), (half 14 5 14, .wmsg14), (half 14 5 15, .wmsg15), (0x00DC, .exit), (half 14 7 19, .brk 19)] = true := by decide +kernel

/-! Field checks: an instruction that breaks each check of R276 step 3 is refused. -/

theorem test_wf_scalar : [Instr.movS 0 0, .mulw 3 0 0, .mulwn 3 0 0, .addD 2 3 4, .subD 3 2 4, .divS64 2 4 5, .divnN64 3 2 2, .remS64 2 3 2,
    .remnN64 2 2 3, .shlD 2 3 0, .cmpS32 6 0 0 0, .cmpN32 7 0 0 0, .cmpS64 6 0 2 2, .cmpN64 0 0 3 2, .sget 0 26, .sget 3 18, .sget 3 21,
    .sset 0 0, .sset 0 18, .tlsig 0 3, .tlsigSet 0 3].all (fun i => !wellFormed .v3 i) = true := by decide +kernel

theorem test_wf_memory : [Instr.ldB 0 0 3 0 0, .ldH 0 0 3 0 0, .ldW 0 0 3 0 0, .ldBs 0 0 3 0 0, .ldHs 0 0 3 0 0, .ldD 3 0 0 0 0, .ldD 2 0 3 0 0,
    .ldQ 2 0 0 0 0, .ldQ 4 0 3 0 0, .ldExtended 0 0 0 0 7, .ldExtended 0 0 3 0 0, .ldExtended 3 0 0 0 3, .ldExtended 2 0 0 0 4, .stD 3 0 0 0 0,
    .stQ 2 0 0 0 0, .stExtended 0 0 0 0 5, .stExtended 3 0 0 0 3, .ldf 0 0 3 0 0, .lde 0 0 3 0 0, .stf 0 0 3 0 0, .stx 0 0 3 0 0,
    .fest 0 0 3 0 0, .sete 0 3 0 0, .ldm 10 4 3 0 0, .ldm 4 5 0 0 1, .ldm 4 3 0 0 0, .stm 0 0 3 0 0, .amoAdd 0 0 5 0 0, .amoAnd 0 0 0 5 0,
    .amoOr 0 0 4 0 0, .amoXor 3 0 0 0 1, .amoCas 3 0 0 0 0, .amoCas 2 0 0 0 1, .amoFadd 0 0 4 0, .redAdd 0 0 1 0 0, .redSwap 3 0 0 0 1,
    .redCas 2 0 0 0 1, .redFadd 0 0 0 5, .redFx64 3 0 0 0, .redFx64 2 0 4 3, .fence 0 0, .fence 4 0, .barj 0 5, .barw 0 0 5, .barx 0 6].all
    (fun i => !wellFormed .v3 i) = true := by decide +kernel

theorem test_wf_units : [Instr.fadd 0 0 0 5, .fma 0 0 0 6, .fsqrt 0 0 7, .frint 0 0 5, .dadd 3 2 2, .dfma 2 3 2, .fcmpF64 0 0 3 2, .fclassF64 0 3,
    .cvtS32 0 0 0 0, .cvtF32 0 0 11 0, .cvtF32 0 0 5 5, .cvtN32 0 0 0 1, .cvtF64 3 0 4 0, .cvtF32 0 3 7 0, .cvtE4m3Sat 0 0 8 0, .rmsg 2 0,
    .rmsg 4 5, .msend 0 2, .wwait 0 5, .wpoll 0 0 5, .mvcopy 4 0 0, .mvfill 4 1 5, .mvred 2 1 0, .ballot 3 0, .lsum 0 0 3, .lmin 0 0 3,
    .mmaBf16 2 0 0 0, .mmaF16 4 2 0 0, .mmaF8S8 4 1 0 0, .mmaQ4 4 2 0 0, .mmaMx4 2 0 0 0, .smp 2 0 0, .smpl 1 0 0, .smpg 2 0 0, .fetch 3 0 0,
    .pexp 2 0].all (fun i => !wellFormed .v3 i) = true := by decide +kernel

theorem test_wf_versions : [(Ver.v2, Instr.mmaMx4 4 0 0 0), (.v1, .mmaTs8W8 4 0 0 0), (.v2, .mmaTs8W4 4 0 0 0), (.v2, .pemit 0 0), (.v1, .pemitCull 0),
    (.v1, .iset 0 0), (.v1, .iget 0 0), (.v1, .iclr0), (.v1, .iadv 0 0), (.v1, .isetFields 0 0 0 0 0), (.v1, .isetWrap 0 0 0 0 0), (.v1, .sget 0 32),
    (.v1, .addD 121 0 0)].all (fun x => !wellFormed x.1 x.2) = true ∧ wellFormed .v2 (.addD 121 0 0) = true := by decide +kernel

theorem test_wf_units_of_the_package : [Instr.dieReset 24, .dieReturn 24, .dieLost 30, .dieLinkRetrain 24, .dieLostTimeout 24, .stackClearComplete 24,
    .measurementExtend 16 (List.replicate 32 0), .measurementExtend 0 [], .attestationReport [], .flitReceive 0 [], .recordAccept 0 64,
    .streamCancel 0 64, .timelineSet 0 4096 0, .timelineAdd 0 4096 0].all (fun i => !wellFormed .v3 i) = true := by decide +kernel

/-- R274, R275, R279, R290: the zero parcel, a reserved op4, a misc.s minor and field that are not assigned, major 31, an unassigned minor, and
the version table (R268) do not decode. -/
theorem test_refused : [(Ver.v3, 0x0000, 0), (.v3, half 15 0 0, 0), (.v3, half 14 8 0, 0), (.v3, half 14 0 1, 0), (.v3, half 14 5 16, 0), (.v3, half 0 0 0, 0),
    (.v3, word 0 0 0 0 31, 1), (.v3, word 31 0 0 0 0, 1), (.v3, word 23 4 0 0 0, 1), (.v3, word 3 0 0 0 5, 1), (.v3, word 8 0 0 0 6, 1),
    (.v3, word 0 0 0 3 10, 1), (.v3, word 0 1 0 0 12, 1), (.v3, word 11 0 0 0 15, 1), (.v3, word 9 0 0 0 16, 1), (.v3, word 21 4 0 0 18, 1),
    (.v3, word 6 0 0 0 19, 1), (.v3, word 0 16 0 0 20, 1), (.v3, word 15 0 0 0 21, 1), (.v3, word 6 8 0 0 22, 1), (.v3, word 8 0 0 0 23, 1),
    (.v3, word 26 0 0 0 24, 1), (.v3, word 10 0 0 0 25, 1), (.v3, word 0 0 0 48 26, 1), (.v3, word 0 0 0 12 27, 1), (.v3, word 11 0 0 0 28, 1),
    (.v1, word 0 0 20 5 26, 1), (.v2, word 7 28 20 0 25, 1)].all
    (fun x => (decode x.1 [BitVec.ofNat 16 x.2.1, BitVec.ofNat 16 (x.2.1 / 0x10000)]).isNone) = true := by decide +kernel

/-- R394, R395: the two words that the chapter gives, and the exchange of A and B in version 2. -/
theorem test_decode_graphics_words : decode .v3 [0xC533, 0x0040] = some (.smp 20 6 4, 2) ∧ decode .v3 [0x0033, 0x4800] = some (.kill, 2) ∧
    decode .v2 [0xC533, 0x0040] = some (.smp 20 4 6, 2) := by decide +kernel

/-! Single instructions. -/

/-- A swarm thread of 64 registers on die 0, changed by f. -/
def swarm (f : Thread → Thread) : State := let s := State.reset.withFetchWord 16 0x1C; { s with th := f s.th }

/-- A wave thread of 64 registers on die 0, changed by f. -/
def wave (f : Thread → Thread) : State := let s := State.reset.withFetchWord 16 0x1C; { s with th := f (fetchThread true) }

/-- The thread with these registers set. -/
def with_ (l : List (Nat × Nat)) (t : Thread) : Thread := l.foldl (fun t x => { t with g := t.g.setIfInBounds x.1 (BitVec.ofNat 32 x.2) }) t

/-- The issuing thread after an instruction. -/
def after (i : Instr) (s : State) : Option Thread :=
  match exec i s with
  | .next u => some u.th
  | _ => none

/-- Register n after an instruction. -/
def reg_ (i : Instr) (s : State) (n : Nat) : Option Word := (after i s).map (fun t => t.rd n)

/-- R303: a sum wraps modulo 2^32; R264: the PC is two parcels on. -/
theorem test_add_wraps : reg_ (.add 6 4 5) (swarm (with_ [(4, 0xFFFFFFFF), (5, 2)])) 6 = some 1 ∧
    (after (.add 6 4 5) (swarm id)).map (·.pc) = some 2 := by decide +kernel

/-- R303: a source that is also the destination is read first. -/
theorem test_sub_same_register : reg_ (.sub 4 5 4) (swarm (with_ [(4, 3), (5, 10)])) 4 = some 7 := by decide +kernel

/-- R303: a count of 33 shifts by 1, with the sign. -/
theorem test_sra_count : reg_ (.sra 6 4 5) (swarm (with_ [(4, 0x80000000), (5, 33)])) 6 = some 0xC0000000 := by decide +kernel

/-- R304: the two corners of signed division. -/
theorem test_div_corners : reg_ (.div 6 4 5) (swarm (with_ [(4, 7), (5, 0)])) 6 = some 0xFFFFFFFF ∧
    reg_ (.div 6 4 5) (swarm (with_ [(4, 0x80000000), (5, 0xFFFFFFFF)])) 6 = some 0x80000000 ∧
    reg_ (.rem 6 4 5) (swarm (with_ [(4, 0xFFFFFFF9), (5, 2)])) 6 = some 0xFFFFFFFF := by decide +kernel

/-- R305: a word of zeros has 32 leading zeros. -/
theorem test_clz_zero : reg_ (.clz 6 4) (swarm id) 6 = some 32 ∧ reg_ (.brev 6 4) (swarm (with_ [(4, 1)])) 6 = some 0x80000000 := by decide +kernel

/-- R307: ldih keeps bits [12:0]; ldi extends the sign. -/
theorem test_ldi_ldih : reg_ (.ldih 4 1) (swarm (with_ [(4, 0xFFFFFFFF)])) 4 = some 0x3FFF ∧ reg_ (.ldi 4 0x40000) (swarm id) 4 = some 0xFFFC0000 := by
  decide +kernel

/-- R309: cmpi.ltn p1, g2, -1 tests g2 below 0xFFFF_FFFF. -/
theorem test_cmpi_ltn : (after (.cmpi 6 1 2 0xFFF) (swarm (with_ [(2, 0xFFFFFFFE)]))).map (·.rdP 1) = some true ∧
    (after (.cmpi 6 1 2 0xFFF) (swarm (with_ [(2, 0xFFFFFFFF)]))).map (·.rdP 1) = some false := by decide +kernel

/-- R312, R313: a branch counts from its own parcel; callr takes its target before it writes its link register. -/
theorem test_branch_callr : (after (.b 0x7FFFF) (swarm (fun t => { t with pc := 5 }))).map (·.pc) = some 4 ∧
    (after (.callr 4 4) (swarm (with_ [(4, 9)]))).map (fun t => (t.pc, t.rd 4)) = some (9, 2) := by decide +kernel

/-- R178, R183: an indirect operand reaches BASE + OFFSET, and then OFFSET advances by STEP. -/
theorem test_index_advance : (after (.addi 120 4 1) (swarm (fun t => with_ [(4, 8)] (t.wrI 0 (0x2000000 + 3 * 0x200000 + 16 * 0x80 + 20))))).map
    (fun t => (t.rd 20, (t.rdI 0).toNat / 0x4000 % 0x80)) = some (9, 3) := by decide +kernel

/-- R319: iadv with WRAP stays below BOUND. -/
theorem test_iadv_wrap : (after (.iadv 2 5) (swarm (fun t => t.wrI 2 (0x4000000 + 4 * 0x4000 + 7 * 0x80)))).map
    (fun t => (t.rdI 2).toNat / 0x4000 % 0x80) = some 2 := by decide +kernel

/-- R242: 2^24 + 1 rounds to the even neighbour, and up in mode RUP. -/
theorem test_fadd_rounds : reg_ (.fadd 6 4 5 0) (swarm (with_ [(4, 0x4B800000), (5, 0x3F800000)])) 6 = some 0x4B800000 ∧
    reg_ (.fadd 6 4 5 4) (swarm (with_ [(4, 0x4B800000), (5, 0x3F800000)])) 6 = some 0x4B800001 := by decide +kernel

/-- R240: the sum of opposite infinities is the canonical NaN; R337: a NaN converts to 0x8000_0000. -/
theorem test_float_nan : reg_ (.fadd 6 4 5 0) (swarm (with_ [(4, 0x7F800000), (5, 0xFF800000)])) 6 = some 0x7FC00000 ∧
    reg_ (.cvtS32 6 4 4 0) (swarm (with_ [(4, 0x7FC00000)])) 6 = some 0x80000000 := by decide +kernel

/-- R246, R155: an enabled exception enters the handler after the result is written. -/
theorem test_float_handler : (after (.fdiv 6 4 5 0) (swarm (fun t => with_ [(4, 0x3F800000)] { t with fxen := 2, lhen := 0x20, lhpc := 7 }))).map
    (fun t => (t.rd 6, t.inH, t.lhcause, t.lhdat, t.pc, t.lhret)) = some (0x7F800000, true, 5, 2, 7, 2) := by decide +kernel

/-- R415, R416, R68: trap parks its thread at the instruction and writes the partition's first fault record, kind 1, cause 19. -/
theorem test_trap_record : (match exec (.trap 9) (swarm id) with
    | .next u => (u.th.pc, (u.part? 0).map (·.fqTail), memRead u.mem 0x01D00000, memRead u.mem 0x01D00001)
    | _ => (1, none, 0, 0)) = (0, some 1, 1, 19) := by decide +kernel

/-- R143, R264: a step fetches and runs the instruction at the PC. -/
theorem test_step_runs : (match step (State.reset.withFetchWord 32 (word 0 5 4 6 8)) with
    | .next u => (u.th.rd 6, u.th.pc)
    | _ => (0, 0)) = (0x284, 2) := by decide +kernel

/-- R194, R200: a store to self-local memory and the load after it. -/
theorem test_store_load : (match exec (.stW 6 4 0 0 1) (swarm (with_ [(5, 0xF1000000), (6, 0x12345678)])) with
    | .next u => (match exec (.ldB 7 4 0 0 5) { u with th := { u.th with pc := 0 } } with
      | .next v => v.th.rd 7
      | _ => 0)
    | _ => 0) = 0x56 := by decide +kernel

/-- The manual's example for R192: lanes 0 and 1 of a static wave stopped at st.w g[i1], [g4+0]; i1 of lane 1 is out of its bound. -/
def debugged : State :=
  let w := ((encode (.stW 121 4 0 0 0)).zipIdx.map (fun x => x.1.toNat * 2 ^ (16 * x.2))).sum
  let s := State.reset.withFetchWord 32 w
  let t (uid lane : Nat) (v : Word) : Thread :=
    { fetchThread true with uid := uid, tid := lane, place := .wave 32 lane 0, idx := (fetchThread true).idx.set 1 v, run := .faulted ⟨.trap, 0, 255, 255, 3, 0, 2, none, none, 0⟩ }
  { s with th := t 1 0 (16 + 8 * 2 ^ 7 + 3 * 2 ^ 14), threads := [t 2 1 (16 + 2 * 2 ^ 7 + 2 * 2 ^ 14)] }

/-- R192: the report of that example: g19 of lane 0, and zero for lane 1, which faults, and for every other lane. -/
theorem test_debug_report : debugReport debugged 1 = [("g[i1]", 0b10010011 :: List.replicate 63 0)] := by decide +kernel

end

end Sys2Proof.Tests
end

