-- ==== Sys2Proof/Tests/Witnesses.lean ====
section
/-! SUPPORT. Witnesses: for each statement with hypotheses, and for each of its clauses, a concrete state and operands that meet them all. -/

namespace Sys2Proof.Tests
open Sys2Proof Sys2Proof.Machine

section
set_option Elab.async false

/-! Operands: a thread of 64 registers, with direct codes up to the last register, and indirect ones. -/

/-- A swarm thread whose index register 0 reaches register 8 with BOUND 4. -/
def indexed : State := swarm (fun t => t.wrI 0 (0x200 + 8))

theorem witness_IntegerArithmetic : ∃ s : State, ∃ d a b : Code, s.th.free [1, 2] ∧ s.th.at1 1 a 63 ∧ s.th.at1 2 b 0 ∧ s.th.at1 0 d 63 :=
  ⟨swarm id, 63, 63, 0, by simp only [Thread.free, Thread.at1]; decide +kernel⟩

theorem witness_IntegerArithmetic_indirect : ∃ s : State, ∃ d a b : Code, s.th.free [1, 2] ∧ s.th.indirect a = true ∧ s.th.at1 1 a 8 ∧
    s.th.at1 2 b 8 ∧ s.th.at1 0 d 8 :=
  ⟨indexed, 120, 120, 120, by simp only [Thread.free, Thread.at1]; decide +kernel⟩

theorem witness_IntegerArithmetic_wave : ∃ s : State, ∃ d a b : Code, s.th.isWave = true ∧ s.th.free [1, 2] ∧ s.th.at1 1 a 5 ∧ s.th.at1 2 b 6 ∧
    s.th.at1 0 d 7 :=
  ⟨wave id, 7, 5, 6, by simp only [Thread.free, Thread.at1]; decide +kernel⟩

theorem witness_PairResults : ∃ s : State, ∃ d a b : Code, s.th.at2 0 d 62 ∧ s.th.free [1, 2] ∧ s.th.at1 1 a 62 ∧ s.th.at1 2 b 62 ∧ s.th.free [2] ∧
    s.th.at2 1 a 62 ∧ s.th.at2 2 b 62 :=
  ⟨swarm id, 62, 62, 62, by simp only [Thread.free, Thread.at1, Thread.at2]; decide +kernel⟩

theorem witness_Division : ∃ s : State, ∃ d a b : Code, s.th.free [1, 2] ∧ s.th.at1 1 a 4 ∧ s.th.at1 2 b 62 ∧ s.th.at1 0 d 0 ∧ s.th.at2 1 a 4 ∧
    s.th.at2 2 b 62 ∧ s.th.at2 0 d 0 :=
  ⟨swarm id, 0, 4, 62, by simp only [Thread.free, Thread.at1, Thread.at2]; decide +kernel⟩

theorem witness_BitCounts : ∃ s : State, ∃ d a : Code, s.th.free [1] ∧ s.th.at1 1 a 63 ∧ s.th.at1 0 d 0 :=
  ⟨swarm id, 0, 63, by simp only [Thread.free, Thread.at1]; decide +kernel⟩

theorem witness_ImmediateResults : ∃ s : State, ∃ d a b : Code, s.th.at1 0 d 63 ∧ s.th.free [1] ∧ s.th.free [1, 2] ∧ s.th.at1 1 a 0 ∧ s.th.at1 2 b 1 :=
  ⟨swarm id, 63, 0, 1, by simp only [Thread.free, Thread.at1]; decide +kernel⟩

theorem witness_PredicateResults : ∃ s : State, ∃ a b : Code, ∃ c : BitVec 3, c.toNat ≤ 5 ∧ s.th.free [1] ∧ s.th.free [1, 2] ∧ s.th.at1 1 a 0 ∧
    s.th.at1 2 b 62 ∧ s.th.at2 1 a 0 ∧ s.th.at2 2 b 62 :=
  ⟨swarm id, 0, 62, 5, by simp only [Thread.free, Thread.at1, Thread.at2]; decide +kernel⟩

theorem witness_ShortForms : ∃ s : State, ∃ a : BitVec 6, ∃ b : BitVec 5, a.toNat < s.th.limit (code16 a) ∧ b.toNat < s.th.limit (code16 b) ∧ s.th.free [1] :=
  ⟨swarm id, 63, 31, by simp only [Thread.free]; decide +kernel⟩

theorem witness_Branches : ∃ s : State, ∃ b : BitVec 5, s.th.rdP 0 = true ∧ s.th.rdP 15 = false ∧ b.toNat < s.th.limit (code16 b) ∧ s.th.free [1] ∧
    s.src s.th 1 b.toNat = 0 ∧ s.src s.th 1 4 ≠ 0 :=
  ⟨swarm (with_ [(4, 1)]), 31, by simp only [Thread.free]; decide +kernel⟩

theorem witness_CallsAndJumps : ∃ s : State, ∃ d a : Code, ∃ b : BitVec 5, s.th.at1 0 d 31 ∧ s.th.at1 1 a 31 ∧ s.th.free [1] ∧
    b.toNat < s.th.limit (code16 b) :=
  ⟨swarm id, 31, 31, 31, by simp only [Thread.free, Thread.at1]; decide +kernel⟩

theorem witness_NopAndYield : (swarm id).th.isWave = false ∧ (wave id).th.isWave = true := by decide +kernel

/-- A pixel thread, before or after its export. -/
def pixelOf (e : Bool) : Pixel := ⟨0, 0, 15, 0, 0, false, e⟩

theorem witness_ThreadEnds : (swarm id).th.live = true ∧
    (∃ s : State, ∃ p, s.th.live = true ∧ s.th.isWave = true ∧ s.th.pixel = some p ∧ p.exported = false) ∧
    (∃ s : State, s.th.live = true ∧ s.th.isWave = true ∧ ∀ p, s.th.pixel = some p → p.exported = true) :=
  ⟨by decide +kernel, ⟨wave (fun t => { t with pixel := some (pixelOf false) }), pixelOf false, by decide +kernel⟩,
    ⟨wave (fun t => { t with pixel := some (pixelOf true) }), by decide +kernel, by decide +kernel, fun p h => by
      have : some (pixelOf true) = some p := h
      cases this; rfl⟩⟩

theorem witness_IndexRegisters : ∃ s : State, ∃ a : Code, s.th.at1 1 a 63 ∧ s.th.free [1] :=
  ⟨swarm id, 63, by simp only [Thread.free, Thread.at1]; decide +kernel⟩

theorem witness_IndexAdvancesOnce : ∃ s : State, ∃ d a b : Code, ∃ j : Nat, s.th.free [1, 2] ∧ s.th.at1 1 a 8 ∧ s.th.at1 2 b 8 ∧ s.th.at1 0 d 8 ∧
    (∃ c, (c = a ∨ c = b ∨ c = d) ∧ s.th.indirect c = true ∧ c.toNat = 120 + j) ∧ (s.th.rdI j).getLsbD 25 = true :=
  ⟨swarm (fun t => t.wrI 7 (0x2000000 + 0x200 + 8)), 127, 127, 127, 7, by simp only [Thread.free]; decide +kernel,
    by simp only [Thread.at1]; decide +kernel, by simp only [Thread.at1]; decide +kernel, by simp only [Thread.at1]; decide +kernel,
    ⟨127, by decide +kernel⟩, by decide +kernel⟩

/-- A swarm thread whose index register 0 holds v. -/
def indexIs (v : Word) : State := swarm (fun t => t.wrI 0 v)

theorem witness_OperandFaults : (∃ s : State, ∃ a : Code, s.th.free [1, 2] ∧ s.th.isCuique = false ∧ s.th.indirect a = false ∧ s.th.count ≤ a.toNat) ∧
    (∃ s : State, s.th.free [1, 2] ∧ s.th.isCuique = false ∧ s.th.indirect 120 = true ∧ bits (s.th.rdI 0).toNat 31 27 ≠ 0) ∧
    (∃ s : State, s.th.free [1, 2] ∧ s.th.isCuique = false ∧ s.th.indirect 120 = true ∧ bits (s.th.rdI 0).toNat 31 27 = 0 ∧
      bits (s.th.rdI 0).toNat 13 7 ≤ idxOffset (s.th.rdI 0) ∧ s.th.lhen.getLsbD 4 = true ∧ s.th.inH = false) ∧
    (∃ s : State, s.th.free [1, 2] ∧ s.th.isCuique = false ∧ s.th.indirect 120 = true ∧ bits (s.th.rdI 0).toNat 31 27 = 0 ∧
      bits (s.th.rdI 0).toNat 13 7 ≤ idxOffset (s.th.rdI 0) ∧ s.th.lhen.getLsbD 4 = false) ∧
    (∃ s : State, s.th.free [1, 2] ∧ s.th.isCuique = false ∧ s.th.indirect 120 = true ∧ bits (s.th.rdI 0).toNat 31 27 = 0 ∧
      idxOffset (s.th.rdI 0) < bits (s.th.rdI 0).toNat 13 7 ∧ s.th.count ≤ bits (s.th.rdI 0).toNat 6 0 + idxOffset (s.th.rdI 0)) := by
  simp only [Thread.free]
  exact ⟨⟨swarm id, 64, by decide +kernel⟩, ⟨indexIs 0x80000000, by decide +kernel⟩,
    ⟨swarm (fun t => { t.wrI 0 (4 * 0x4000 + 4 * 0x80) with lhen := 0x10 }), by decide +kernel⟩, ⟨indexIs 0, by decide +kernel⟩,
    ⟨indexIs (0x80 + 64), by decide +kernel⟩⟩

/-! Floating point. -/

theorem witness_BinaryFloats : (∃ s : State, ∃ d a b : Code, s.th.at1 1 a 4 ∧ s.th.at1 0 d 63 ∧ s.th.free [1] ∧ s.th.free [1, 2] ∧ s.th.at1 2 b 5) ∧
    (∃ s : State, s.th.lhen.getLsbD 5 = true ∧ s.th.inH = false ∧ s.th.fxen ≠ 0) ∧
    (∃ s : State, s.th.lhen.getLsbD 5 = false ∧ s.th.fxen ≠ 0) :=
  ⟨⟨swarm id, 63, 4, 5, by simp only [Thread.free, Thread.at1]; decide +kernel⟩, ⟨swarm (fun t => { t with fxen := 31, lhen := 0x20 }), by decide +kernel⟩,
    ⟨swarm (fun t => { t with fxen := 31 }), by decide +kernel⟩⟩

theorem witness_FusedCompletion : ∃ s : State, ∃ d a b : Code, s.th.free [1, 2, 3] ∧ s.th.at1 1 a 4 ∧ s.th.at1 2 b 5 ∧
    s.th.at1 3 ((s.th.rdX 0).setWidth 7) 63 ∧ s.th.at1 0 d 6 :=
  ⟨swarm (fun t => t.wrX 0 63), 6, 4, 5, by simp only [Thread.free, Thread.at1]; decide +kernel⟩

/-- A swarm thread with 1.5, 2.5 and 0.5 in registers 4, 5 and 0. -/
def floats : State := swarm (with_ [(4, 0x3FC00000), (5, 0x40200000), (0, 0x3F000000)])

theorem floats_4 : f32Val (floats.src floats.th 1 4) = some (3 / 2) := by
  rw [show floats.src floats.th 1 4 = 0x3FC00000 by decide +kernel]; decide +kernel

theorem floats_5 : f32Val (floats.src floats.th 2 5) = some (5 / 2) := by
  rw [show floats.src floats.th 2 5 = 0x40200000 by decide +kernel]; decide +kernel

theorem floats_0 : f32Val (floats.src floats.th 3 0) = some (1 / 2) := by
  rw [show floats.src floats.th 3 0 = 0x3F000000 by decide +kernel]; decide +kernel

theorem witness_FloatRoundedOnce : ∃ s : State, ∃ d a b : Code, ∃ r : BitVec 3, ∃ p q t : ℚ, r.toNat ≤ 4 ∧ s.th.fxen = 0 ∧ bits s.th.compat.toNat 4 0 = 0 ∧
    s.th.at1 1 a 4 ∧ s.th.at1 2 b 5 ∧ s.th.at1 0 d 6 ∧ f32Val (s.src s.th 1 4) = some p ∧ f32Val (s.src s.th 2 5) = some q ∧ s.th.free [1, 2] ∧
    s.th.free [1, 2, 3] ∧ s.th.at1 3 ((s.th.rdX 0).setWidth 7) 0 ∧ f32Val (s.src s.th 3 0) = some t ∧ q ≠ 0 ∧ |p + q| ≤ (2 ^ 24 - 1) * 2 ^ 104 ∧
    |p - q| ≤ (2 ^ 24 - 1) * 2 ^ 104 ∧ |p * q| ≤ (2 ^ 24 - 1) * 2 ^ 104 ∧ |p / q| ≤ (2 ^ 24 - 1) * 2 ^ 104 ∧
    |p * q + t| ≤ (2 ^ 24 - 1) * 2 ^ 104 ∧ |t - p * q| ≤ (2 ^ 24 - 1) * 2 ^ 104 :=
  ⟨floats, 6, 4, 5, 4, 3 / 2, 5 / 2, 1 / 2, by decide +kernel, by decide +kernel, by decide +kernel, by unfold Thread.at1; decide +kernel,
    by unfold Thread.at1; decide +kernel, by unfold Thread.at1; decide +kernel, floats_4, floats_5, by unfold Thread.free; decide +kernel,
    by unfold Thread.free; decide +kernel, by unfold Thread.at1; decide +kernel, floats_0, by norm_num, by norm_num [abs_of_pos], by norm_num [abs_of_neg],
    by norm_num [abs_of_pos], by norm_num [abs_of_pos], by norm_num [abs_of_pos], by norm_num [abs_of_neg]⟩

theorem witness_FloatSpecials : (∃ s : State, ∃ d a : Code, ∃ p, s.th.at1 1 a 4 ∧ s.th.at1 0 d 6 ∧ s.th.free [1] ∧ s.th.fxen = 0 ∧
      s.th.compat.getLsbD 0 = false ∧ f32Val (s.src s.th 1 4) = some p) ∧
    ∃ s : State, ∃ d a b : Code, s.th.at1 1 a 4 ∧ s.th.at1 0 d 6 ∧ s.th.fxen = 0 ∧ s.th.free [1, 2] ∧ s.th.at1 2 b 5 ∧
      s.th.compat.getLsbD 3 = false ∧ s.th.compat.getLsbD 9 = false ∧ f32Nan (s.src s.th 2 5) :=
  ⟨⟨floats, 6, 4, 3 / 2, by unfold Thread.at1; decide +kernel, by unfold Thread.at1; decide +kernel, by unfold Thread.free; decide +kernel,
    by decide +kernel, by decide +kernel, floats_4⟩,
    ⟨swarm (with_ [(5, 0x7F800001)]), 6, 4, 5, by simp only [Thread.free, Thread.at1, f32Nan]; decide +kernel⟩⟩

theorem witness_FloatCompareAndClass : ∃ s : State, ∃ d a b : Code, s.th.fxen = 0 ∧ s.th.compat.getLsbD 0 = false ∧ s.th.at1 1 a 4 ∧ s.th.free [1] ∧
    s.th.free [1, 2] ∧ s.th.at1 2 b 5 ∧ s.th.at1 0 d 6 :=
  ⟨swarm id, 6, 4, 5, by simp only [Thread.free, Thread.at1]; decide +kernel⟩

theorem witness_Float64Completion : (∃ s : State, ∃ d a b : Code, s.th.isWave = false ∧ s.th.fxen = 0 ∧ s.th.at2 1 a 62 ∧ s.th.at2 2 b 4 ∧ s.th.at2 0 d 6 ∧
      s.th.at2 3 ((s.th.rdX 0).setWidth 7) 8 ∧ s.th.at1 0 d 6) ∧
    ∃ s : State, ∃ d a b : Code, s.th.isWave = true ∧ (s.core s.th.core).f64Free ≤ s.clk ∧ s.th.fxen = 0 ∧ s.th.at2 1 a 62 ∧ s.th.at2 2 b 4 ∧
      s.th.at2 0 d 6 ∧ s.th.at2 3 ((s.th.rdX 0).setWidth 7) 8 ∧ s.th.at1 0 d 6 :=
  ⟨⟨swarm (fun t => t.wrX 0 8), 6, 62, 4, by simp only [Thread.at1, Thread.at2]; decide +kernel⟩,
    ⟨wave (fun t => t.wrX 0 8), 6, 62, 4, by simp only [Thread.at1, Thread.at2]; decide +kernel⟩⟩

theorem witness_ConversionForms : (∃ s : State, ∃ d a : Code, s.th.fxen = 0 ∧ s.th.at2 1 a 62 ∧ s.th.at2 0 d 62) ∧
    ∃ s : State, ∃ d a : Code, s.th.fxen = 0 ∧ s.th.at1 1 a 63 ∧ s.th.free [1] ∧ s.th.at1 0 d 63 :=
  ⟨⟨swarm id, 62, 62, by simp only [Thread.at2]; decide +kernel⟩, ⟨swarm id, 63, 63, by simp only [Thread.free, Thread.at1]; decide +kernel⟩⟩

theorem witness_ConversionValues : (∃ s : State, ∃ d a : Code, ∃ r : BitVec 3, r.toNat ≤ 4 ∧ s.th.fxen = 0 ∧ s.th.compat.getLsbD 0 = false ∧
      s.th.compat.getLsbD 1 = false ∧ s.th.free [1] ∧ s.th.at1 1 a 4 ∧ s.th.at1 0 d 6 ∧ f32Val (s.src s.th 1 4) = some (3 / 2)) ∧
    ((3 / 2 : ℚ) - 2 = -(1 / 2) ∧ (2 : ℤ) % 2 = 0) ∧
    ∃ s : State, ∃ d a : Code, s.th.fxen = 0 ∧ s.th.compat.getLsbD 0 = false ∧ s.th.compat.getLsbD 1 = false ∧ s.th.compat.getLsbD 8 = true ∧
      s.th.free [1] ∧ s.th.at1 1 a 4 ∧ s.th.at1 0 d 6 ∧ f32Nan (s.src s.th 1 4) :=
  ⟨⟨floats, 6, 4, 4, by decide +kernel, by decide +kernel, by decide +kernel, by decide +kernel, by unfold Thread.free; decide +kernel,
    by unfold Thread.at1; decide +kernel, by unfold Thread.at1; decide +kernel, floats_4⟩, by norm_num,
    ⟨swarm (fun t => with_ [(4, 0x7FC00000)] { t with compat := 0x100 }), 6, 4, by simp only [Thread.free, Thread.at1, f32Nan]; decide +kernel⟩⟩

/-! Memory: registers 4 and 5 hold an address, in self-local memory (0xF1) or in the mapped page of the stack of die 0. -/

/-- What holds of some option holds of its value. -/
theorem of_any {α : Type} {o : Option α} {p : α → Bool} (h : o.any p = true) : ∃ x, o = some x ∧ p x = true := by
  cases o with
  | none => simp at h
  | some x => exact ⟨x, rfl, by simpa using h⟩

/-- A swarm thread with the self-local address o in registers 4 and 5. -/
def atLocal (o : Nat) (f : Thread → Thread) : State := swarm (fun t => f (with_ [(4, o), (5, 0xF1000000)] t))

/-- A swarm thread with the virtual address a of the mapped page in registers 4 and 5. -/
def atGlobal (a : Nat) (f : Thread → Thread) : State := swarm (fun t => f (with_ [(4, a)] t))

/-- The location of that address. -/
def globalLoc (a : Nat) : Loc := ⟨fetchBase + (a - 0x10000), 0, BitVec.ofNat 64 (fetchBase + 0x1F)⟩

/-- The location of self-local offset o of core 0. -/
def localLoc (o : Nat) : Loc := ⟨localKey 0 o, 1, 0⟩

theorem witness_LoadResults : (∃ s : State, ∃ l : Loc, s.th.atA 1 4 4 ∧ s.th.atK 0 60 (sizeRegs 4) 60 ∧
      checkAddr s (agentOf s.th 0) (s.th.rd2 4 + BitVec.ofNat 64 (31 * 16)) (sizeBytes 4) needR false = .ok l ∧ s.performs l (sizeBytes 4) (false || s.th.reach)) ∧
    (∃ s : State, ∃ l : Loc, s.th.atA 1 4 4 ∧ s.th.atK 0 63 (sizeRegs 0) 63 ∧
      checkAddr s (agentOf s.th 0) (s.th.rd2 4 + BitVec.ofInt 64 (s.th.rdX 0).toInt) (sizeBytes 0) needR false = .ok l ∧ s.performs l (sizeBytes 0) true) ∧
    ∃ s : State, ∃ l : Loc, s.th.isWave = true ∧ s.th.atA 1 4 4 ∧ s.th.atK 0 62 (sizeRegs 3) 62 ∧
      checkAddr s (agentOf s.th 0) (s.th.rd2 4 + BitVec.ofNat 64 0) (sizeBytes 3) needR false = .ok l ∧ s.performs l (sizeBytes 3) (false || s.th.reach) := by
  simp only [Thread.atA, Thread.atK, State.performs, State.clearOf, memKey]
  exact ⟨⟨atLocal 0 id, localLoc 496, by decide +kernel⟩, ⟨atLocal 0x40 (fun t => t.wrX 0 0xFFFFFFFF), localLoc 0x3F, by decide +kernel⟩,
    ⟨wave (with_ [(4, 8), (5, 0xF1000000)]), ⟨localKey (coreNo 0 0 32) 8, 1, 0⟩, by decide +kernel⟩⟩

theorem witness_StoreResults : (∃ s : State, ∃ l : Loc, s.th.atA 1 4 4 ∧ s.th.atK 0 63 (sizeRegs 2) 63 ∧
      checkAddr s (agentOf s.th 0) (s.th.rd2 4 + BitVec.ofNat 64 (31 * 4)) (sizeBytes 2) needW false = .ok l ∧ s.performs l (sizeBytes 2) true) ∧
    ∃ s : State, ∃ l : Loc, s.th.isWave = true ∧ s.th.atA 1 4 4 ∧ s.th.atK 0 60 (sizeRegs 4) 60 ∧
      checkAddr s (agentOf s.th 0) (s.th.rd2 4 + BitVec.ofInt 64 (s.th.rdX 0).toInt) (sizeBytes 4) needW false = .ok l ∧ s.performs l (sizeBytes 4) false := by
  simp only [Thread.atA, Thread.atK, State.performs, State.clearOf, memKey]
  exact ⟨⟨atLocal 0x5BF80 id, localLoc 0x5BFFC, by decide +kernel⟩,
    ⟨wave (fun t => with_ [(4, 32), (5, 0xF1000000)] (t.wrX 0 0xFFFFFFF0)), ⟨localKey (coreNo 0 0 32) 16, 1, 0⟩, by decide +kernel⟩⟩

theorem witness_ShortMemoryForms : ∃ s : State, ∃ a : BitVec 6, ∃ b : BitVec 5, ∃ l : Loc, a.toNat < s.th.limit (code16 a) ∧
    b.toNat + 1 < s.th.limit (code16 b) ∧ s.performs l 4 s.th.reach ∧ checkAddr s (agentOf s.th 0) (s.th.rd2 b.toNat) 4 needR false = .ok l ∧
    checkAddr s (agentOf s.th 0) (s.th.rd2 b.toNat) 4 needW false = .ok l := by
  simp only [State.performs, State.clearOf, memKey]
  exact ⟨atLocal 4 id, 63, 4, localLoc 4, by decide +kernel⟩

theorem witness_MultipleRegisters : ∃ s : State, ∃ n : BitVec 5, ∃ ls : Nat → Loc, s.th.isWave = false ∧ s.th.atA 1 4 4 ∧ s.th.atL 0 6 (n.toNat + 1) 6 ∧
    (∀ j, j < n.toNat + 1 → s.performs (ls j) 4 s.th.reach) ∧
    (∀ j, j < n.toNat + 1 → checkAddr s (agentOf s.th 0) (s.th.rd2 4 + BitVec.ofNat 64 (4 * j)) 4 needR false = .ok (ls j)) ∧
    ∀ j, j < n.toNat + 1 → checkAddr s (agentOf s.th 0) (s.th.rd2 4 + BitVec.ofNat 64 (4 * j)) 4 needW false = .ok (ls j) := by
  simp only [Thread.atA, Thread.atL, State.performs, State.clearOf, memKey]
  refine ⟨atLocal 0 id, 31, fun j => localLoc (4 * j), by decide +kernel, by decide +kernel, by decide +kernel, ?_, by decide +kernel, by decide +kernel⟩
  refine fun j hj => ⟨?_, ?_, ?_, ?_, ?_⟩ <;> revert j <;> decide +kernel

theorem witness_FullEmpty : (∃ s : State, ∃ l : Loc, s.th.atA 1 4 4 ∧ s.th.at1 0 63 63 ∧
      checkAddr s (agentOf s.th 0) (s.th.rd2 4 + BitVec.ofNat 64 (31 * 4)) 4 needRW true = .ok l ∧ s.performs l 4 s.th.reach ∧
      (∀ e ∈ s.feWaits, e.2 ≠ l.key) ∧ isFull s.full l.key = true ∧ s.th.isWave = false) ∧
    ∃ s : State, ∃ l : Loc, s.th.atA 1 4 4 ∧ s.th.at1 0 63 63 ∧
      checkAddr s (agentOf s.th 0) (s.th.rd2 4 + BitVec.ofNat 64 0) 4 needRW true = .ok l ∧ s.performs l 4 s.th.reach ∧
      (∀ e ∈ s.feWaits, e.2 ≠ l.key) ∧ isFull s.full l.key = false ∧ s.th.isWave = false := by
  simp only [Thread.atA, Thread.at1, State.performs, State.clearOf, memKey]
  exact ⟨⟨{ atLocal 0 id with full := [localKey 0 124] }, localLoc 124, by decide +kernel⟩, ⟨atLocal 0 id, localLoc 0, by decide +kernel⟩⟩

theorem witness_AtomicResults : ∃ s : State, ∃ o : BitVec 3, ∃ l : Loc, s.th.isWave = false ∧ o.toNat < 4 ∧ s.th.atA 1 4 4 ∧ s.performs l 8 false ∧
    checkAddr s (agentOf s.th 0) (s.th.rd2 4) 4 needRW false = .ok l ∧ checkAddr s (agentOf s.th 0) (s.th.rd2 4) 8 needRW false = .ok l ∧
    s.th.at1 0 60 60 ∧ s.th.at2 0 60 60 ∧ s.th.at4 0 60 60 := by
  simp only [Thread.atA, Thread.at1, Thread.at2, Thread.at4, State.performs, State.clearOf, memKey]
  exact ⟨atGlobal 0x10008 id, 3, globalLoc 0x10008, by decide +kernel⟩

/-- A reply to an access of thread 1 that has not arrived yet. -/
def replying (id : Nat) : Flight := ⟨id, 1, localKey 0 0, .load 4 false, 8, 1, false, false, false, 0, 0, false, .done [7]⟩

theorem witness_AccessesThatLeave : (∃ s : State, ∃ l : Loc, s.th.isWave = false ∧ s.undone s.th.uid = false ∧ s.th.carried = [] ∧ s.th.atA 1 4 4 ∧ s.th.at1 0 62 62 ∧
      s.th.at2 0 62 62 ∧ s.th.rx = true ∧ s.th.reach = false ∧ checkAddr s (agentOf s.th 0) (s.th.rd2 4 + BitVec.ofNat 64 (31 * 4)) 4 needR false = .ok l ∧
      checkAddr s (agentOf s.th 0) (s.th.rd2 4 + BitVec.ofNat 64 (31 * 4)) 4 needW false = .ok l ∧ s.rxOut s.th.uid < 4) ∧
    (∃ s : State, ∃ l : Loc, s.th.isWave = false ∧ s.undone s.th.uid = false ∧ s.th.carried = [] ∧ s.th.atA 1 4 4 ∧ s.th.at1 0 62 62 ∧ s.th.at2 0 62 62 ∧ s.th.rx = false ∧
      checkAddr s (agentOf s.th 0) (s.th.rd2 4) 4 needRW false = .ok l ∧ checkAddr s (agentOf s.th 0) (s.th.rd2 4) 8 needRW false = .ok l ∧
      checkAddr s (agentOf s.th 0) (s.th.rd2 4 + BitVec.ofNat 64 0) 4 needW false = .ok l ∧ s.spawnOut s.th.uid < 4) ∧
    ∃ s : State, s.th.isWave = false ∧ s.undone s.th.uid = false ∧ s.th.carried = [] ∧ s.th.atA 1 4 4 ∧ ¬s.rxOut s.th.uid < 4 := by
  simp only [Thread.atA, Thread.at1, Thread.at2]
  exact ⟨⟨atLocal 0 (fun t => { t with rx := true }), localLoc 124, by decide +kernel⟩, ⟨atLocal 8 id, localLoc 8, by decide +kernel⟩,
    ⟨{ atLocal 0 id with flights := [replying 2, replying 3, replying 4, replying 5] }, by decide +kernel⟩⟩

/-- A store, a sum and a load of thread 1 on their way to words of its core. -/
def onTheWay : List Flight :=
  let f (id : Nat) (op : AccOp) (n : Nat) : Flight := ⟨id, 1, localKey 0 (8 * id), op, 8, n, false, false, false, 0, 0, false, .sent⟩
  [f 2 (.store 8 5) 0, f 3 (.rmw 0 false 5 0 false) 0, f 4 (.load 4 false) 1, replying 5]

theorem witness_HomesAndReplies : (∀ a, 2 ≤ a → a ≤ 4 → ∃ s : State, ∃ f, s.flight? a = some f ∧ f.phase = .sent ∧ homeHeld s (s.flightDie f) f.pa = false ∧
      memKey f.pa ∧ s.clearOf f.pa 8 ∧ s.behind f = false ∧ (s.thread? f.owner).isSome = true ∧ s.th.live = true ∧ s.threads = [] ∧
      (a = 2 → f.op = .store 8 5 ∧ f.nreg = 0) ∧ (a = 3 → f.op = .rmw 0 false 5 0 false ∧ f.nreg = 0) ∧
      (a = 4 → f.op = .load 4 false ∧ f.nreg = 1 ∧ f.blocks = false)) ∧
    ∃ s : State, ∃ f t, s.flight? 5 = some f ∧ f.op ≠ .prefetch ∧ f.phase = .done [7] ∧ s.thread? f.owner = some t := by
  simp only [memKey, State.clearOf]
  refine ⟨fun a h2 h4 => ?_, ?_⟩
  · have : a = 2 ∨ a = 3 ∨ a = 4 := by omega
    rcases this with rfl | rfl | rfl
    · exact ⟨{ swarm id with flights := onTheWay }, onTheWay[0], by decide +kernel⟩
    · exact ⟨{ swarm id with flights := onTheWay }, onTheWay[1], by decide +kernel⟩
    · exact ⟨{ swarm id with flights := onTheWay }, onTheWay[2], by decide +kernel⟩
  · exact ⟨{ swarm id with flights := onTheWay }, onTheWay[3], (swarm id).th, by decide +kernel⟩

theorem witness_FencesAndLines : (∃ s : State, s.th.isWave = false ∧ s.undone s.th.uid = false) ∧ (∃ s : State, s.undone s.th.uid = true) ∧
    (∃ s : State, s.th.atA 1 4 4 ∧ s.th.isWave = false ∧ ∃ c, checkAddr s (agentOf s.th 0) (s.th.rd2 4) 1 needR false = .bad c) ∧
    (∃ s : State, ∃ l, s.th.atA 1 4 4 ∧ s.th.isWave = false ∧ checkAddr s (agentOf s.th 0) (s.th.rd2 4) 1 needR false = .ok l) ∧
    ∃ s : State, ∃ l, s.th.atA 1 4 4 ∧ s.th.isWave = true ∧ checkAddr s (agentOf s.th 0) (s.th.rd2 4) 1 needR false = .ok l ∧ l.win = 0 := by
  simp only [Thread.atA]
  exact ⟨⟨swarm id, by decide +kernel⟩, ⟨{ swarm id with flights := onTheWay }, by decide +kernel⟩,
    ⟨atLocal 0x5C000 id, by decide +kernel, by decide +kernel, .window, by decide +kernel⟩, ⟨atGlobal 0x1FFFF id, globalLoc 0x1FFFF, by decide +kernel⟩,
    ⟨wave (with_ [(4, 0x10080)]), globalLoc 0x10080, by decide +kernel⟩⟩

/-- A swarm thread of a record, with another thread of its group that waits as given. -/
def mates (r : Run) : State :=
  let s := swarm (fun t => { t with ofRecord := true })
  { s with threads := [{ s.th with uid := 7, place := .swarm 0 1, run := r }] }

theorem witness_GroupBarriers : (∃ s : State, s.undone s.th.uid = false ∧ s.th.live = true ∧ s.th.spawner = none ∧ s.th.ofRecord = true ∧ s.th.isWave = false ∧
      (∀ t ∈ s.threads, t.live = true → (t.grp = s.th.grp ∨ t.gang = s.th.gang) → t.isWave = false) ∧
      ∃ t ∈ s.threads, t.live = true ∧ t.spawner = none ∧ t.ofRecord = true ∧ t.grp = s.th.grp ∧ t.gang = s.th.gang ∧ t.run ≠ .waiting .bar ∧ t.run ≠ .waiting .barGang) ∧
    (∃ s : State, s.undone s.th.uid = false ∧ s.th.live = true ∧ s.th.spawner = none ∧ s.th.ofRecord = true ∧ s.th.isWave = false ∧
      (∀ t ∈ s.threads, t.live = true → (t.grp = s.th.grp ∨ t.gang = s.th.gang) → t.isWave = false) ∧
      ∀ t ∈ s.threads, t.live = true → t.spawner = none → t.ofRecord = true → t.grp = s.th.grp → t.run = .waiting .bar) ∧
    ∃ s : State, s.undone s.th.uid = false ∧ s.th.live = true ∧ s.th.spawner = none ∧ s.th.ofRecord = true ∧ s.th.isWave = false ∧
      (∀ t ∈ s.threads, t.live = true → (t.grp = s.th.grp ∨ t.gang = s.th.gang) → t.isWave = false) ∧
      ∀ t ∈ s.threads, t.live = true → t.spawner = none → t.ofRecord = true → t.gang = s.th.gang → t.run = .waiting .barGang :=
  ⟨⟨mates .ready, by decide +kernel⟩, ⟨mates (.waiting .bar), by decide +kernel⟩, ⟨mates (.waiting .barGang), by decide +kernel⟩⟩

/-- A barrier object of two threads, with arrivals a, at an address of the mapped page, which registers 4 and 5 hold. -/
def barObj (a : Nat) (f : Thread → Thread) : State :=
  let s := atGlobal 0x10100 f
  { s with mem := writeBytes s.mem (fetchBase + 0x100) 16 (BitVec.ofNat 128 (2 + a * 2 ^ 32)) }

theorem witness_BarrierObjects : ∀ a, a < 2 → ∀ v : Word, v = 0 ∨ v = 0x80000001 → ∃ s : State, ∃ l : Loc, s.th.atA 1 4 4 ∧
    checkAddr s (agentOf s.th 0) (s.th.rd2 4) 1 needRW false = .ok l ∧ l.win = 0 ∧ isStack l.key = true ∧ (s.th.rd2 4).toNat % 16 = 0 ∧
    homeHeld s s.th.die l.key = false ∧ scopeL1 s s.th 4 = false ∧ s.undone s.th.uid = false ∧
    bits (readBytes s.mem l.key 16).toNat 127 88 = 0 ∧ bits (readBytes s.mem l.key 16).toNat 63 57 = 0 ∧ bits (readBytes s.mem l.key 16).toNat 31 24 = 0 ∧
    bits (readBytes s.mem l.key 16).toNat 55 32 = a ∧ bits (readBytes s.mem l.key 16).toNat 23 0 = 2 ∧ bits (readBytes s.mem l.key 16).toNat 87 64 = 0 ∧
    s.th.at1 0 6 6 ∧ s.th.rd 6 = v ∧ (readBytes s.mem l.key 16).toNat.testBit 56 = false := by
  simp only [Thread.atA, Thread.at1]
  intro a ha v hv
  have : a = 0 ∨ a = 1 := by omega
  rcases this with rfl | rfl <;> rcases hv with rfl | rfl
  · exact ⟨barObj 0 id, globalLoc 0x10100, by decide +kernel⟩
  · exact ⟨barObj 0 (with_ [(6, 0x80000001)]), globalLoc 0x10100, by decide +kernel⟩
  · exact ⟨barObj 1 id, globalLoc 0x10100, by decide +kernel⟩
  · exact ⟨barObj 1 (with_ [(6, 0x80000001)]), globalLoc 0x10100, by decide +kernel⟩

/-! Messages, state words, light handlers and the supervisor's operations. -/

/-- The state s in which core c holds k. -/
def withCore (c : Nat) (k : Core) (s : State) : State := { s with cores := [(c, k)] }

/-- A swarm thread with the name of core c, its unused bits set, in register 4. -/
def naming (c : Nat) : State := swarm (with_ [(4, c * 64 + 63), (8, 7)])

theorem witness_MessagesSent : (∀ c, c = 0 ∨ c = 31 ∨ c = 11 * 64 + 37 ∨ c = 15 * 64 + 31 → ∃ s : State, s.th.at1 1 4 4 ∧ s.th.free [1, 2] ∧ s.th.at1 2 8 8 ∧
      s.th.at4 2 8 8 ∧ bits (s.src s.th 1 4).toNat 31 21 = 0 ∧ c = bits (s.src s.th 1 4).toNat 20 6 ∧ bits (s.src s.th 1 4).toNat 20 16 < 24 ∧
      bits (s.src s.th 1 4).toNat 20 16 ∈ s.partDies s.th.part ∧ ((bits (s.src s.th 1 4).toNat 15 12 < 12 ∧ bits (s.src s.th 1 4).toNat 11 6 < 38) ∨
        (bits (s.src s.th 1 4).toNat 15 12 = 15 ∧ bits (s.src s.th 1 4).toNat 11 6 < 32)) ∧ s.undone s.th.uid = false) ∧
    (∃ s : State, s.th.at1 1 4 4 ∧ s.th.free [1, 2] ∧ bits (s.src s.th 1 4).toNat 31 21 ≠ 0) ∧
    ∃ s : State, s.th.at1 1 4 4 ∧ s.th.free [1, 2] ∧ bits (s.src s.th 1 4).toNat 20 16 ∉ s.partDies s.th.part := by
  simp only [Thread.at1, Thread.at4, Thread.free]
  refine ⟨fun c h => ?_, ⟨naming 0x8000, by decide +kernel⟩, ⟨naming 0x400, by decide +kernel⟩⟩
  rcases h with rfl | rfl | rfl | rfl
  · exact ⟨naming 0, by decide +kernel⟩
  · exact ⟨naming 31, by decide +kernel⟩
  · exact ⟨naming (11 * 64 + 37), by decide +kernel⟩
  · exact ⟨naming (15 * 64 + 31), by decide +kernel⟩

/-- The wave engine of `wave`. -/
def waveCore : Nat := coreNo 0 0 32

theorem witness_MessageRegisters : (∃ s : State, s.th.isWave = false ∧ ∀ j, j < 16 → (s.core s.th.core).mFull.getLsbD j = true) ∧
    (∃ s : State, s.th.isWave = false ∧ ∀ j, j < 16 → (s.core s.th.core).mFull.getLsbD j = false) ∧
    (∃ s : State, s.th.isWave = true ∧ s.th.at1 0 9 9 ∧ (s.core s.th.core).port = [] ∧ ∀ j, j < 16 → (s.core s.th.core).mFull.getLsbD j = true) ∧
    (∃ s : State, s.th.isWave = false ∧ s.th.at1 0 9 9 ∧ (s.core s.th.core).port = [] ∧ (s.core s.th.core).mFull.getLsbD 11 = true) ∧
    ∃ s : State, ∃ e : Nat, (s.die (coreDie e)).inReset = false ∧ coreIsWave e = true ∧ (s.core e).port = [] ∧ (s.core e).mFull.getLsbD 15 = false ∧
      ∀ t ∈ s.th :: s.threads, (∀ x, waitsMsg e 15 x t = false) := by
  simp only [Thread.at1]
  exact ⟨⟨withCore 0 { Core.reset with mFull := 0xFFFF } (swarm id), by decide +kernel⟩, ⟨swarm id, by decide +kernel⟩,
    ⟨withCore waveCore { Core.reset with mFull := 0xFFFF } (wave id), by decide +kernel⟩,
    ⟨withCore 0 { Core.reset with mFull := 0x800 } (swarm id), by decide +kernel⟩, ⟨swarm id, waveCore, by decide +kernel⟩⟩

/-- A message. -/
def letter (n : Nat) : Mail := ⟨BitVec.ofNat 128 n, false, 0⟩

/-- A swarm thread that waits for a message, with its instruction of two parcels and registers from 8 to write. -/
def awaiting : State := swarm (fun t => { t with run := .waiting .mailbox, fin := ⟨8, [], 2⟩ })

theorem witness_Mailboxes : (∃ s : State, s.th.at4 0 60 60 ∧ (s.core s.th.core).mail = []) ∧
    (∃ s : State, ∃ m r, s.th.at4 0 60 60 ∧ (s.core s.th.core).mail = m :: r ∧ m.mover = false ∧ r.length < 32) ∧
    (∃ s : State, ∃ e, (s.die (coreDie e)).inReset = false ∧ (s.core e).mail ≠ []) ∧
    (∃ s : State, ∃ e, (s.die (coreDie e)).inReset = false ∧ ∀ t ∈ s.th :: s.threads, t.core = e → t.run ≠ .waiting .mailbox) ∧
    ∃ s : State, ∃ e, (s.die (coreDie e)).inReset = false ∧ (s.core e).mail = [] ∧ s.th.core = e ∧ s.th.run = .waiting .mailbox ∧ s.th.hold = .running ∧
      s.th.live = true ∧ (∀ t ∈ s.threads, t.core = e → t.run ≠ .waiting .mailbox) ∧ s.th.fin.adv = [] := by
  simp only [Thread.at4]
  exact ⟨⟨swarm id, by decide +kernel⟩,
    ⟨withCore 0 { Core.reset with mail := letter 5 :: List.replicate 31 (letter 6) } (swarm id), letter 5, List.replicate 31 (letter 6), by decide +kernel⟩,
    ⟨withCore 0 { Core.reset with mail := [letter 5] } (swarm id), 0, by decide +kernel⟩, ⟨swarm id, 0, by decide +kernel⟩, ⟨awaiting, 0, by decide +kernel⟩⟩

theorem witness_MessagesHeld : ∃ s : State, ∃ e, (s.die (coreDie e)).inReset = true := ⟨swarm id, 1024, by decide +kernel⟩

/-- A swarm thread that owns in port 0 and out port 1 of its core, the out port joined to in port 3 of core 1; the in port holds the entries
given and that of core 1 n entries. -/
def wired (entries : List RillEntry) (n : Nat) (f : Thread → Thread) : State :=
  { swarm f with cores := [
      (0, { Core.reset with wires := [⟨0, false, 1, 2, 1, 0⟩, ⟨1, true, 1, 3, 1, 0⟩], rill := Core.reset.rill.set 0 entries }),
      (1, { Core.reset with rill := Core.reset.rill.set 3 (List.replicate n ⟨9, false, 0⟩) })] }

theorem witness_Rills : (∃ s : State, ∃ w, s.th.isWave = false ∧ wireOf s 1 (some true) = some w ∧ w.peerPort < 4 ∧ s.th.free [1] ∧ s.th.at1 1 63 63 ∧
      (rillAt s w.peer w.peerPort).length = 15) ∧
    (∃ s : State, ∃ w, s.th.isWave = false ∧ wireOf s 1 (some true) = some w ∧ w.peerPort < 4 ∧ s.th.free [1] ∧ s.th.at1 1 63 63 ∧
      (rillAt s w.peer w.peerPort).length = 16) ∧
    (∃ s : State, ∃ w, s.th.isWave = false ∧ wireOf s 0 (some false) = some w ∧ s.th.at1 0 63 63 ∧ s.th.live = true ∧ rillAt s s.th.core 0 = []) ∧
    (∃ s : State, ∃ w e, s.th.isWave = false ∧ wireOf s 0 (some false) = some w ∧ s.th.at1 0 63 63 ∧ s.th.live = true ∧ rillAt s s.th.core 0 = [e] ∧
      s.clk < e.at_) ∧
    (∃ s : State, ∃ w e, s.th.isWave = false ∧ wireOf s 0 (some false) = some w ∧ s.th.at1 0 63 63 ∧ s.th.live = true ∧ rillAt s s.th.core 0 = [e] ∧
      e.at_ = s.clk ∧ e.ctl = false ∧ s.th.run = .ready) ∧
    (∃ s : State, ∃ w e, s.th.isWave = false ∧ wireOf s 0 (some false) = some w ∧ s.th.at1 0 63 63 ∧ s.th.live = true ∧ rillAt s s.th.core 0 = [e] ∧
      e.at_ = s.clk ∧ e.ctl = true ∧ s.th.inH = false ∧ s.th.lhpc ≠ 0 ∧ s.th.run = .ready) ∧
    (∃ s : State, ∃ w, s.th.isWave = false ∧ wireOf s 1 none = some w ∧ w.out = true ∧ s.th.at1 0 63 63) ∧
    (∃ s : State, ∃ w, s.th.isWave = false ∧ wireOf s 0 none = some w ∧ w.out = false ∧ s.th.at1 0 63 63) ∧
    (∃ s : State, s.th.isWave = false ∧ (∀ w ∈ (s.core s.th.core).wires, w.owner ≠ s.th.uid) ∧ s.th.free [1] ∧ s.th.at1 1 63 63 ∧ s.th.at1 0 63 63) ∧
    ∃ s : State, s.th.isWave = false ∧ s.th.live = true ∧ s.th.run = .waiting (.rill 0) := by
  simp only [Thread.at1, Thread.free]
  exact ⟨⟨wired [] 15 id, ⟨1, true, 1, 3, 1, 0⟩, by decide +kernel⟩, ⟨wired [] 16 id, ⟨1, true, 1, 3, 1, 0⟩, by decide +kernel⟩,
    ⟨wired [] 0 id, ⟨0, false, 1, 2, 1, 0⟩, by decide +kernel⟩, ⟨wired [⟨7, true, 1⟩] 0 id, ⟨0, false, 1, 2, 1, 0⟩, ⟨7, true, 1⟩, by decide +kernel⟩,
    ⟨wired [⟨7, false, 0⟩] 0 id, ⟨0, false, 1, 2, 1, 0⟩, ⟨7, false, 0⟩, by decide +kernel⟩,
    ⟨wired [⟨7, true, 0⟩] 0 (fun t => { t with lhpc := 5 }), ⟨0, false, 1, 2, 1, 0⟩, ⟨7, true, 0⟩, by decide +kernel⟩,
    ⟨wired [] 3 id, ⟨1, true, 1, 3, 1, 0⟩, by decide +kernel⟩, ⟨wired [⟨7, true, 0⟩] 0 id, ⟨0, false, 1, 2, 1, 0⟩, by decide +kernel⟩,
    ⟨swarm id, by decide +kernel⟩, ⟨wired [⟨7, true, 0⟩] 0 (fun t => { t with run := .waiting (.rill 0) }), by decide +kernel⟩⟩

/-- A swarm thread in a supervisor's slot. -/
def superThread (f : Thread → Thread) : State := swarm (fun t => f { t with place := .swarm (coreNo 0 15 0) 62 })

theorem witness_StateWordsRead : (∃ s : State, s.th.at1 0 62 62 ∧ s.th.at2 0 62 62 ∧ (s.core s.th.core).evs0 ≠ 3 ∧ (s.core s.th.core).evs0 ≠ 4 ∧
      (s.core s.th.core).evs1 ≠ 3 ∧ (s.core s.th.core).evs1 ≠ 4 ∧ s.th.isSuper = false ∧ s.th.place = .swarm 0 0) ∧
    (∃ s : State, ∃ q, s.th.at1 0 62 62 ∧ s.th.isSuper = true ∧ s.part? s.th.part = some q) ∧
    ∃ s : State, s.th.at1 0 62 62 ∧ s.th.place = .wave waveCore 0 0 := by
  simp only [Thread.at1, Thread.at2]
  exact ⟨⟨swarm id, by decide +kernel⟩, ⟨superThread id, fetchPart, by decide +kernel⟩, ⟨wave id, by decide +kernel⟩⟩

theorem witness_StateWordsWritten : (∃ s : State, s.th.free [1] ∧ s.th.at1 1 63 63 ∧ (s.core s.th.core).evs0 ≠ 3 ∧ (s.core s.th.core).evs0 ≠ 4 ∧
      (s.core s.th.core).evs1 ≠ 3 ∧ (s.core s.th.core).evs1 ≠ 4 ∧ s.th.isSuper = false) ∧
    ∃ s : State, ∃ q, s.th.free [1] ∧ s.th.at1 1 63 63 ∧ s.th.isSuper = true ∧ s.part? s.th.part = some q := by
  simp only [Thread.at1, Thread.free]
  exact ⟨⟨swarm id, by decide +kernel⟩, ⟨superThread id, fetchPart, by decide +kernel⟩⟩

/-- A group of thread 1. -/
def oneGroup : Group := ⟨0, 0, 0, 0, true, true, [(5, 9)], (0, 0), [], [], none, none, 0⟩

theorem witness_UniformRegisters : (∃ s : State, s.th.free [1] ∧ s.th.at1 1 63 63 ∧ s.th.isWave = true ∧ s.th.entered = false ∧
      (s.group? s.th.grp).isSome = true) ∧
    (∃ s : State, s.th.free [1] ∧ s.th.at1 1 63 63 ∧ s.th.isWave = true ∧ s.th.entered = true) ∧
    ∃ s : State, s.th.free [1] ∧ s.th.at1 1 63 63 ∧ s.th.isWave = false := by
  simp only [Thread.at1, Thread.free]
  exact ⟨⟨{ wave id with groups := [oneGroup] }, by decide +kernel⟩, ⟨wave (fun t => { t with entered := true }), by decide +kernel⟩,
    ⟨swarm id, by decide +kernel⟩⟩

theorem witness_CausesTaken : ∃ s : State, ∃ q, s.part? s.th.part = some q ∧ s.homeUp q = true ∧ q.fqWait = [] ∧ q.fqTail - q.fqHead ≠ 4096 ∧
    q.mirror = none := ⟨swarm id, fetchPart, by decide +kernel⟩

/-- A swarm thread in its light handler with these causes pending. -/
def inHandler (pend : BitVec 6) : State := swarm (fun t => { t with inH := true, pend, lhpc := 12, lhret := 5, pendMail := 7, pendCopy := 8 })

theorem witness_HandlerReturns : (∃ s : State, s.th.inH = true ∧ s.th.pend.getLsbD 2 = false ∧ s.th.pend.getLsbD 3 = false) ∧
    (∃ s : State, s.th.inH = true ∧ s.th.pend.getLsbD 2 = true ∧ s.th.pend.getLsbD 3 = true) ∧
    (∃ s : State, s.th.inH = true ∧ s.th.pend.getLsbD 2 = false ∧ s.th.pend.getLsbD 3 = true) ∧ ∃ s : State, s.th.inH = false :=
  ⟨⟨inHandler 0, by decide +kernel⟩, ⟨inHandler 12, by decide +kernel⟩, ⟨inHandler 8, by decide +kernel⟩, ⟨swarm id, by decide +kernel⟩⟩

theorem witness_HandlerEvents : ∀ c, c = 2 ∨ c = 3 → (∃ s : State, s.th.live = true ∧ s.th.lhen.getLsbD c = false) ∧
    (∃ s : State, s.th.live = true ∧ s.th.lhen.getLsbD c = true ∧ s.th.pend = 0 ∧ s.th.inH = true) ∧
    (∃ s : State, s.th.live = true ∧ s.th.lhen.getLsbD c = true ∧ s.th.pend = 0 ∧ s.th.inH = false ∧ atBoundary s s.th = true ∧
      awaits s s.th 0 4 = true) ∧
    ∃ s : State, s.th.live = true ∧ s.th.lhen.getLsbD c = true ∧ s.th.pend = 0 ∧ s.th.inH = false ∧ atBoundary s s.th = true ∧
      awaits s s.th 0 4 = false := by
  intro c h
  rcases h with rfl | rfl <;>
    exact ⟨⟨swarm id, by decide +kernel⟩, ⟨swarm (fun t => { t with lhen := 12, inH := true }), by decide +kernel⟩,
      ⟨wave (fun t => { t with lhen := 12, marks := [⟨3, 1, 5, none⟩] }), by decide +kernel⟩,
      ⟨wave (fun t => { t with lhen := 12, marks := [⟨4, 1, 5, none⟩] }), by decide +kernel⟩⟩

/-- A swarm thread that waits, with its instruction of two parcels and register 9 to write, at clk 1,000,000. -/
def waits (w : Wait) : State := { swarm (fun t => { t with run := .waiting w, fin := ⟨9, [], 2⟩ }) with clk := 1000000 }

theorem witness_SleepAndTimeouts : (∃ s : State, s.th.free [1] ∧ s.th.at1 1 63 63) ∧
    (∃ s : State, ∃ k, s.th.run = .waiting (.sleep k) ∧ k = s.clk) ∧ (∃ s : State, ∃ k, s.th.run = .waiting (.sleep k) ∧ k = s.clk + 1) ∧
    (∃ s : State, ∃ k w m, s.th.run = .waiting (.barObj k w m) ∧ m ≠ 0 ∧ m = s.clk ∧ s.th.fin.adv = []) ∧
    (∃ s : State, ∃ q, s.th.run = .waiting .mailbox ∧ Wait.mailbox.parked = true ∧ s.th.hold = .running ∧ s.part? s.th.part = some q ∧ q.wdlim ≠ 0 ∧
      s.th.parkedAt + 1000 * q.wdlim.toNat = s.clk) ∧
    ∃ s : State, ∃ q, s.th.run = .waiting .mailbox ∧ Wait.mailbox.parked = true ∧ s.th.hold = .running ∧ s.part? s.th.part = some q ∧ q.wdlim ≠ 0 ∧
      s.clk + 1000 = s.th.parkedAt + 1000 * q.wdlim.toNat := by
  simp only [Thread.at1, Thread.free]
  exact ⟨⟨swarm id, by decide +kernel⟩, ⟨waits (.sleep 1000000), 1000000, by decide +kernel⟩, ⟨waits (.sleep 1000001), 1000001, by decide +kernel⟩,
    ⟨waits (.barObj 16 true 1000000), 16, true, 1000000, by decide +kernel⟩,
    ⟨{ waits .mailbox with parts := [{ fetchPart with wdlim := 1000 }] }, { fetchPart with wdlim := 1000 }, by decide +kernel⟩,
    ⟨{ waits .mailbox with parts := [{ fetchPart with wdlim := 1001 }] }, { fetchPart with wdlim := 1001 }, by decide +kernel⟩⟩

/-- A trap of code 3, and a thread parked on it. -/
def trapRec : FaultRec := ⟨.trap, 0, 255, 255, 3, 0, 2, none, none, 0⟩

/-- A swarm thread parked on a trap. -/
def parked (f : Thread → Thread) : State := swarm (fun t => f { t with run := .faulted trapRec })

theorem witness_ThreadResolution : (∃ s : State, ∀ t ∈ s.th :: s.threads, t.die = 0 → t.placeWord = (s.die 0).tsel → ∀ f, t.run ≠ .faulted f) ∧
    ∃ s : State, ∃ f, s.th.die = 0 ∧ s.th.placeWord = (s.die 0).tsel ∧ s.th.run = .faulted f ∧ f.cause ≠ .translation ∧ f.cause ≠ .permission ∧ f.len ≠ 0 := by
  refine ⟨⟨swarm id, fun t h _ _ f e => ?_⟩, ⟨parked id, trapRec, by decide +kernel⟩⟩
  have : (swarm id).threads = [] := by decide +kernel
  rw [this, List.mem_singleton] at h
  subst h
  cases (show Run.ready = .faulted f from e)

theorem witness_ContextWrites : (∃ s : State, ∃ f, s.th.die = 0 ∧ s.th.placeWord = (s.die 0).tsel ∧ s.th.run = .faulted f ∧ s.th.count ≤ 128 ∧
    s.th.version = 1) ∧ ∃ s : State, ∃ f, ∃ v : Word, s.th.version ≠ 1 ∧ s.th.die = 0 ∧ s.th.placeWord = (s.die 0).tsel ∧ s.th.run = .faulted f ∧ s.th.count ≤ 128 ∧
    bits v.toNat 31 27 = 0 ∧ s.th.reach = false := ⟨⟨parked (fun t => { t with version := 1 }), trapRec, by decide +kernel⟩, ⟨parked id, trapRec, 0x7FFFFFF, by decide +kernel⟩⟩

theorem witness_TimelineCounters : (∃ s : State, ∃ q, s.part? s.th.part = some q ∧ s.homeUp q = true ∧
      (∀ e ∈ q.streams, e.2.recs = [] ∧ e.2.held = []) ∧ q.running = true ∧ s.th.free [1] ∧ s.th.at1 1 62 62 ∧ s.th.at2 2 62 62 ∧
      s.undone s.th.uid = false ∧ (s.src s.th 1 62).toNat = 4095 ∧ s.th.isWave = false) ∧
    ∃ s : State, ∃ q, s.part? s.th.part = some q ∧ s.homeUp q = true ∧ (∀ e ∈ q.streams, e.2.recs = [] ∧ e.2.held = []) ∧
      s.th.free [1] ∧ s.th.at1 1 62 62 ∧ s.th.at2 2 62 62 ∧ s.undone s.th.uid = false ∧ (s.src s.th 1 62).toNat = 4096 := by
  simp only [Thread.at1, Thread.at2, Thread.free]
  exact ⟨⟨swarm (with_ [(62, 4095)]), fetchPart, by decide +kernel⟩, ⟨swarm (with_ [(62, 4096)]), fetchPart, by decide +kernel⟩⟩

/-! Migration, crossings, weirs, the mover, waves, matrices, textures, pixels and launches. -/

/-- A swarm thread of n registers with the name of core c in register 4. -/
def goer (c n : Nat) : State := swarm (fun t => { with_ [(4, c * 64)] t with count := n })

theorem witness_GoMoves : ∀ c, c = 0 ∨ c = 31 ∨ c = 15 * 64 + 31 →
    (∃ s : State, s.th.isWave = false ∧ s.th.free [1] ∧ s.th.at1 1 4 4 ∧ s.th.isSuper = false ∧ namedCore s s.th (s.th.rd 4) = some c ∧
      coreIsWave c = false ∧ s.undone s.th.uid = false ∧ s.th.packable (s.th.pc + 2) = true) ∧
    (∃ s : State, s.th.isWave = false ∧ s.th.free [1] ∧ s.th.at1 1 4 4 ∧ s.th.isSuper = false ∧ namedCore s s.th (s.th.rd 4) = some c ∧
      coreIsWave c = false ∧ s.undone s.th.uid = false ∧ s.th.packable (s.th.pc + 2) = false) := by
  simp only [Thread.at1, Thread.free]
  intro c h
  rcases h with rfl | rfl | rfl
  · exact ⟨⟨goer 0 24, by decide +kernel⟩, ⟨goer 0 25, by decide +kernel⟩⟩
  · exact ⟨⟨goer 31 24, by decide +kernel⟩, ⟨goer 31 25, by decide +kernel⟩⟩
  · exact ⟨⟨goer (15 * 64 + 31) 24, by decide +kernel⟩, ⟨goer (15 * 64 + 31) 25, by decide +kernel⟩⟩

theorem witness_GoMoves_window : (∃ s : State, s.th.isWave = false ∧ s.th.free [1] ∧ s.th.at1 1 4 4 ∧ s.th.isSuper = false ∧
      namedCore s s.th (s.th.rd 4) = none) ∧
    ∃ s : State, s.th.isWave = false ∧ s.th.free [1] ∧ s.th.at1 1 4 4 ∧ s.th.isSuper = false ∧ namedCore s s.th (s.th.rd 4) = some waveCore ∧
      coreIsWave waveCore = true := by
  simp only [Thread.at1, Thread.free]
  exact ⟨⟨goer (12 * 64) 24, by decide +kernel⟩, ⟨goer waveCore 24, by decide +kernel⟩⟩

theorem witness_SpawnSends : ∀ v : Nat, v = 15 ∨ v = 16 → ∃ s : State, ∃ c, ∃ l : Loc, s.th.isWave = false ∧ s.th.free [2] ∧ s.th.atA 1 4 4 ∧
    s.th.at1 2 23 23 ∧ checkAddr s (agentOf s.th 0) (s.th.rd2 4) 1 needR false = .ok l ∧ l.win ≠ 1 ∧ l.win ≠ 4 ∧ migrateTo l = some c ∧
    s.th.packable (if s.th.bound ≤ (s.th.rd 23).toNat then 0 else s.th.rd 23) = true ∧ s.spawnOut s.th.uid < 4 ∧ s.undone s.th.uid = false ∧
    (s.th.rd 23).toNat = v := by
  simp only [Thread.at1, Thread.atA, Thread.free]
  intro v h
  rcases h with rfl | rfl
  · exact ⟨atGlobal 0x10000 (fun t => { with_ [(23, 15)] t with count := 24 }), coreNo 0 15 4, globalLoc 0x10000, by decide +kernel⟩
  · exact ⟨atGlobal 0x10000 (fun t => { with_ [(23, 16)] t with count := 24 }), coreNo 0 15 4, globalLoc 0x10000, by decide +kernel⟩

/-- A migrant of 24 registers on its way to core 5, whose state is k; the other threads are those given. -/
def migrant (k : Core) (others : List Thread) : State :=
  { swarm (fun t => { t with count := 24, place := .transit 5 }) with cores := [(5, k)], threads := others }

/-- A thread that holds every register of its lane or core. -/
def hog (j : Nat) (p : Place) : Thread := { fetchThread false with uid := 10 + j, place := p, base := 0, count := 2048 }

/-- It starts at register 0. -/
theorem hog_base (j : Nat) (p : Place) : (hog j p).base = 0 := rfl

/-- It holds 2,048 of them. -/
theorem hog_alloc (j : Nat) (p : Place) : allocOf (hog j p).count = 2048 := by
  change allocOf 2048 = 2048
  decide

/-- A thread in a slot of a core holds its registers. -/
theorem regs_taken {s : State} {t : Thread} {c k : Nat} (h : t ∈ s.th :: s.threads) (e : t.place = .swarm c k) (r : t.hold = .running) :
    (t.base, allocOf t.count) ∈ (occupied s).regsOf c := by
  refine List.mem_map.2 ⟨(c, k, t.base, allocOf t.count), List.mem_filter.2 ⟨List.mem_filterMap.2 ⟨t, h, ?_⟩, by simp⟩, rfl⟩
  simp [e, r]

/-- A thread at a position of a lane holds its registers. -/
theorem lane_taken {s : State} {t : Thread} {c l p : Nat} (h : t ∈ s.th :: s.threads) (e : t.place = .wave c l p) (r : t.hold = .running) :
    (t.base, allocOf t.count) ∈ (occupied s).laneRegs c l := by
  refine List.mem_map.2 ⟨(c, l, p, t.base, allocOf t.count), List.mem_filter.2 ⟨List.mem_filterMap.2 ⟨t, h, ?_⟩, by simp⟩, rfl⟩
  simp [e, r]

/-- Nothing fits beside a thread that holds every register. -/
theorem not_fits {l : List (Nat × Nat)} {n : Nat} (h : (0, 2048) ∈ l) (hn : 0 < n) : ¬fitsRegs l n := by
  rintro ⟨b, hb, hl⟩
  have := hl _ h
  simp only [meets] at this
  rcases this with h | h
  · exact absurd h (by decide)
  · simp only [Bool.and_eq_false_iff, decide_eq_false_iff_not] at h
    omega

/-- A slot with registers, given by their numbers. -/
theorem slot_for {s : State} {c n : Nat} (k b : Nat) (h : k < 56 ∧ k ∉ (occupied s).slotsOf c ∧ b + n ≤ 2048 ∧
    ∀ r ∈ (occupied s).regsOf c, r.2 = 0 ∨ meets b n r.1 r.2 = false) : s.slotFor c n :=
  ⟨⟨k, by omega, h.2.1, fun _ _ => h.1⟩, b, h.2.2⟩

/-- What the statement about arrivals asks of a state, with the rest of a queue. -/
abbrev arriving (s : State) (k : Core) (rest : List Nat) : Prop :=
  s.core 5 = k ∧ s.th.place = .transit 5 ∧ s.th.live = true ∧ s.th.run = .ready ∧ s.th.count ≠ 0 ∧ (s.die (coreDie 5)).inReset = false ∧
    (s.die (coreDie 5)).drains = [] ∧ (∀ t ∈ s.threads, t.uid ≠ s.th.uid) ∧ (∀ t ∈ s.threads, parkedGuest 5 t = false) ∧ s.th.uid ∉ rest

theorem witness_MigrantsLand : ∀ k, k ∈ [Core.reset, { Core.reset with landing := [1, 9] }, { Core.reset with overflow := [1, 9] }] →
    ∃ s : State, arriving s k [9] ∧ s.slotFor 5 (allocOf s.th.count) := by
  intro k h
  simp only [List.mem_cons, List.not_mem_nil, or_false] at h
  rcases h with rfl | rfl | rfl
  · exact ⟨migrant Core.reset [], by decide +kernel, slot_for 0 0 (by decide +kernel)⟩
  · exact ⟨migrant { Core.reset with landing := [1, 9] } [], by decide +kernel, slot_for 55 2024 (by decide +kernel)⟩
  · exact ⟨migrant { Core.reset with overflow := [1, 9] } [], by decide +kernel, slot_for 0 0 (by decide +kernel)⟩

/-- A core full of one thread's registers has no slot for another. -/
theorem hogged (k : Core) : ¬(migrant k [hog 0 (.swarm 5 0)]).slotFor 5 24 :=
  fun h => not_fits (l := (occupied (migrant k [hog 0 (.swarm 5 0)])).regsOf 5)
    (regs_taken (t := hog 0 (.swarm 5 0)) (k := 0) (by simp [migrant]) rfl rfl) (by decide) h.2

theorem witness_MigrantsLand_full : ∀ k, k ∈ [Core.reset, { Core.reset with overflow := [9] }, { Core.reset with overflow := [1, 9] }] →
    ∃ s : State, arriving s k [9] ∧ ¬s.slotFor 5 (allocOf s.th.count) := by
  intro k h
  simp only [List.mem_cons, List.not_mem_nil, or_false] at h
  rcases h with rfl | rfl | rfl
  · exact ⟨migrant Core.reset [hog 0 (.swarm 5 0)], by decide +kernel, hogged _⟩
  · exact ⟨migrant { Core.reset with overflow := [9] } [hog 0 (.swarm 5 0)], by decide +kernel, hogged _⟩
  · exact ⟨migrant { Core.reset with overflow := [1, 9] } [hog 0 (.swarm 5 0)], by decide +kernel, hogged _⟩

/-- A thread that has entered a wave engine, of n registers. -/
def enteredThread (n : Nat) : State := wave (fun t => { t with count := n, entered := true })

/-- A thread on each of the first n lanes of cluster 0 that holds every register of the lane. -/
def fullLanes (n : Nat) : List Thread := (List.range n).map (fun j => hog j (.wave (32 + j / 64) (j % 64) 0))

/-- A thread on each of the first n swarm cores of cluster 0 that holds every register of the core. -/
def fullCores (n : Nat) : List Thread := (List.range n).map (fun j => hog j (.swarm j 0))

/-- No room on those lanes. -/
theorem no_lane {s : State} {n i l : Nat} (h : s.threads = fullLanes n) (hj : i * 64 + l < n) (hl : l < 64) : ¬s.laneFor (32 + i) l 24 := by
  intro r
  have m : ((hog (i * 64 + l) (.wave (32 + (i * 64 + l) / 64) ((i * 64 + l) % 64) 0)).base,
      allocOf (hog (i * 64 + l) (.wave (32 + (i * 64 + l) / 64) ((i * 64 + l) % 64) 0)).count) ∈ (occupied s).laneRegs (32 + i) l := by
    refine lane_taken (p := 0) ?_ ?_ rfl
    · exact List.mem_cons_of_mem _ (by rw [h]; exact List.mem_map.2 ⟨i * 64 + l, List.mem_range.2 hj, rfl⟩)
    · simp only [hog, Place.wave.injEq, and_true]
      omega
  rw [hog_base, hog_alloc] at m
  exact not_fits m (by decide) r.2

/-- No room on those cores. -/
theorem no_slot {s : State} {n j : Nat} (h : s.threads = fullCores n) (hj : j < n) : ¬s.slotFor j 24 :=
by
  intro r
  have m := regs_taken (s := s) (t := hog j (.swarm j 0)) (c := j) (k := 0)
    (List.mem_cons_of_mem _ (by rw [h]; exact List.mem_map.2 ⟨j, List.mem_range.2 hj, rfl⟩)) rfl rfl
  rw [hog_base, hog_alloc] at m
  exact not_fits m (by decide) r.2

/-- What the statement about crossings asks of a state. -/
abbrev crosses (s : State) : Prop :=
  s.th.free [1] ∧ s.th.at1 1 4 4 ∧ s.undone s.th.uid = false ∧ s.th.core / 64 = 0 ∧ (s.die 0).drains = [] ∧ s.th.die = 0 ∧ s.th.isSuper = false

theorem witness_Crossings_in : (∃ s : State, crosses s ∧ s.th.isWave = false ∧ s.th.count = 25) ∧
    (∃ s : State, crosses s ∧ s.th.isWave = false ∧ s.th.count = 24 ∧ ∀ i l, i < 6 → l < 64 → ¬s.laneFor (32 + i) l (allocOf s.th.count)) ∧
    ∀ n, n = 0 ∨ n = 5 → ∃ s : State, crosses s ∧ s.th.isWave = false ∧ s.th.count = 24 ∧ (∃ l, l < 64 ∧ s.laneFor (32 + n) l (allocOf s.th.count)) ∧
      ∀ i l, i < n → l < 64 → ¬s.laneFor (32 + i) l (allocOf s.th.count) := by
  simp only [crosses, Thread.at1, Thread.free]
  refine ⟨⟨goer 0 25, by decide +kernel⟩, ⟨{ goer 0 24 with threads := fullLanes 384 }, by decide +kernel, by decide +kernel, rfl,
    fun i l hi hl => no_lane rfl (by omega) hl⟩, fun n h => ?_⟩
  rcases h with rfl | rfl
  · exact ⟨goer 0 24, by decide +kernel, by decide +kernel, rfl, ⟨63, by decide, ⟨31, by decide, by decide +kernel⟩, 0, by decide, by decide +kernel⟩,
      fun i l h => by omega⟩
  · exact ⟨{ goer 0 24 with threads := fullLanes 320 }, by decide +kernel, by decide +kernel, rfl,
      ⟨0, by decide, ⟨0, by decide, by decide +kernel⟩, 0, by decide, by decide +kernel⟩, fun i l hi hl => no_lane rfl (by omega) hl⟩

theorem witness_Crossings_out : (∃ s : State, crosses s ∧ s.th.isWave = true ∧ s.th.count ≠ 0 ∧ s.th.entered = false) ∧
    (∃ s : State, crosses s ∧ s.th.isWave = true ∧ s.th.entered = true ∧ s.th.armed 1 = false ∧ s.th.count = 24 ∧
      ∀ j, j < 32 → ¬s.slotFor j (allocOf s.th.count)) ∧
    ∀ n, n = 0 ∨ n = 31 → ∃ s : State, crosses s ∧ s.th.isWave = true ∧ s.th.entered = true ∧ s.th.armed 1 = false ∧ s.th.count = 24 ∧
      s.slotFor n (allocOf s.th.count) ∧ ∀ j, j < n → ¬s.slotFor j (allocOf s.th.count) := by
  simp only [crosses, Thread.at1, Thread.free]
  refine ⟨⟨wave id, by decide +kernel⟩, ⟨{ enteredThread 24 with threads := fullCores 32 }, by decide +kernel, rfl, rfl, by decide +kernel, rfl,
    fun j hj => no_slot rfl hj⟩, fun n h => ?_⟩
  rcases h with rfl | rfl
  · exact ⟨enteredThread 24, by decide +kernel, rfl, rfl, by decide +kernel, rfl, slot_for 0 0 (by decide +kernel), fun j h => by omega⟩
  · exact ⟨{ enteredThread 24 with threads := fullCores 31 }, by decide +kernel, rfl, rfl, by decide +kernel, rfl, slot_for 0 0 (by decide +kernel),
      fun j h => no_slot rfl h⟩

/-- A weir of two sources, the mover of core 0 and place 5, with these pending counts, phase and error, at an address of the mapped page. -/
def weirObj (p0 p1 ph er : Nat) (f : Thread → Thread) : State :=
  let s := atGlobal 0x10140 f
  let v := 63 + p0 * 2 ^ 24 + ph * 2 ^ 48 + 2 ^ 49 + er * 2 ^ 52 + (5 + p1 * 2 ^ 24) * 2 ^ 64
  { s with mem := writeBytes s.mem (fetchBase + 0x140) 16 (BitVec.ofNat 128 v) }

/-- What the statement about weirs asks of a state and a weir. -/
abbrev weirAt (s : State) (l : Loc) : Prop :=
  l.key % 64 = 0 ∧ isStack l.key = true ∧ l.win = 0 ∧ homeHeld s s.th.die l.key = false ∧ s.undone s.th.uid = false ∧
    weirOk (weirEntries s l.key) = true ∧ resolve s.th (addrPair 1 4) = .ok 4 ∧ checkAddr s (agentOf s.th 0) (s.th.rd2 4) 1 needRW false = .ok l ∧
    s.th.free [2] ∧ s.th.at1 2 8 8 ∧ s.th.at1 0 9 9

theorem witness_Weirs : (∃ s l, weirAt s l ∧ pendingOf ((weirEntries s l.key)[1]?.getD 0) + (s.src s.th 2 8).toNat = 2 ^ 24) ∧
    (∃ s l, weirAt s l ∧ pendingOf ((weirEntries s l.key)[1]?.getD 0) + (s.src s.th 2 8).toNat = 2 ^ 24 - 1 ∧ weirIdle (weirEntries s l.key) = false ∧
      weirErr (weirEntries s l.key) = false) ∧
    (∃ s l, weirAt s l ∧ weirIdle (weirEntries s l.key) = true ∧ weirErr (weirEntries s l.key) = false ∧ s.th.isWave = false) ∧
    (∃ s l, weirAt s l ∧ weirErr (weirEntries s l.key) = true ∧ s.th.isWave = false) ∧
    ∃ s l, weirAt s l ∧ ((weirEntries s l.key).take (weirSources (weirEntries s l.key))).findIdx? (fun v => bits v 20 0 == 5) = some 1 ∧
      pendingOf ((weirEntries s l.key)[1]?.getD 0) = 64 := by
  simp only [weirAt, Thread.at1, Thread.free]
  exact ⟨⟨weirObj 0 0xFFFFFF 0 0 (with_ [(8, 1)]), globalLoc 0x10140, by decide +kernel⟩,
    ⟨weirObj 0 0xFFFFFE 0 0 (with_ [(8, 1)]), globalLoc 0x10140, by decide +kernel⟩, ⟨weirObj 0 0 1 0 id, globalLoc 0x10140, by decide +kernel⟩,
    ⟨weirObj 5 0 0 1 id, globalLoc 0x10140, by decide +kernel⟩, ⟨weirObj 0 64 0 0 id, globalLoc 0x10140, by decide +kernel⟩⟩

/-- A mover command of thread 1: operation, report and length, its block, and how far it has come. -/
def moverCmd (op report len : Nat) (block : List Byte) (k : Nat) : MoverCmd where
  words := BitVec.ofNat 128 (len * 2 ^ 64 + (0x1234 * 2 ^ 16 + report * 2 ^ 5 + op) * 2 ^ 96)
  poster := ⟨1, 0, false, false, 0, 0, 0, 0, 0⟩
  block := some block
  k := k
  uncounted := 0
  base := some 0
  fault := none
  ahead := 2
  start := 0
  weir := none
  ended := none

/-- A command block: source, destination and mailbox. -/
def moverBlock (src dst mbox : Nat) : List Byte := bytesOf 8 src ++ bytesOf 8 dst ++ bytesOf 8 0 ++ bytesOf 4 mbox ++ List.replicate 36 0
where bytesOf (n v : Nat) : List Byte := (List.range n).map (fun i => BitVec.ofNat 8 (v / 2 ^ (8 * i)))

/-- A state in which the mover of core 0 has the command given, and n more. -/
def moving (c : MoverCmd) (n : Nat) : State := { withCore 0 { Core.reset with movers := c :: List.replicate n c } (swarm id) with clk := 500 }

theorem witness_MoverPosts : (∃ s : State, ∃ p z : BitVec 3, s.th.isWave = false ∧ p ≠ 0 ∧ z.toNat ≤ 4 ∧ s.th.at4 1 60 60 ∧ s.undone s.th.uid = false ∧
      (s.core s.th.core).port = [] ∧ (s.core s.th.core).mFull &&& 0x7000 = 0 ∧ (s.core s.th.core).movers.length = 7) ∧
    ∃ s : State, ∃ p z : BitVec 3, s.th.isWave = false ∧ p ≠ 0 ∧ z.toNat ≤ 4 ∧ s.th.at4 1 60 60 ∧ s.undone s.th.uid = false ∧
      (s.core s.th.core).port = [] ∧ (s.core s.th.core).mFull &&& 0x7000 = 0 ∧ (s.core s.th.core).movers = [] := by
  simp only [Thread.at4]
  exact ⟨⟨moving (moverCmd 0 1 64 (moverBlock 0x10100 0x10200 0) 0) 6, 7, 4, by decide +kernel⟩, ⟨swarm id, 1, 0, by decide +kernel⟩⟩

theorem witness_MoverElements : (∀ op, op = 0 ∨ op = 4 → ∃ s : State, ∃ c : MoverCmd, ∃ bs, ∃ ld ls : Loc, (s.core 0).movers = [c] ∧ c.ended = none ∧ c.fault = none ∧
      c.block = some bs ∧ c.base = some 0 ∧ c.has c.ahead = false ∧ c.dst % 64 = 0 ∧ c.src % 64 = 0 ∧ 64 * c.k < c.len ∧ c.len - 64 * c.k = 1 ∧
      c.dst + c.len < 2 ^ 56 ∧ c.src + c.len < 2 ^ 56 ∧ c.k ≤ s.clk ∧ c.opc = op ∧ c.code = 0 ∧
      checkAddr s (moverAgent 0 c.poster) (BitVec.ofNat 64 (c.dst + 64 * c.k)) 1 needW false = .ok ld ∧ memKey ld.key ∧ s.clearOf ld.key 1 ∧
      homeHeld s 0 ld.key = false ∧ checkAddr s (moverAgent 0 c.poster) (BitVec.ofNat 64 (c.src + 64 * c.k)) 1 needR false = .ok ls ∧ memKey ls.key ∧
      s.clearOf ls.key 1 ∧ homeHeld s 0 ls.key = false) ∧
    ∃ s : State, ∃ c : MoverCmd, ∃ e, (s.core 0).movers = [c, c] ∧ c.ended = none ∧ c.fault = none ∧ c.base = some 0 ∧
      c.has c.k = false ∧ c.report = 1 ∧ c.poster.ofRecord = false ∧ (s.core 0).port = [] ∧ moverMbox s c = some e := by
  simp only [memKey, State.clearOf]
  refine ⟨fun op h => ?_, ⟨moving (moverCmd 0 1 65 (moverBlock 0x10100 0x10200 (7 * 64)) 2) 1, moverCmd 0 1 65 (moverBlock 0x10100 0x10200 (7 * 64)) 2, 7,
    by decide +kernel⟩⟩
  rcases h with rfl | rfl
  · exact ⟨moving (moverCmd 0 1 65 (moverBlock 0x10100 0x10200 0) 1) 0, moverCmd 0 1 65 (moverBlock 0x10100 0x10200 0) 1, moverBlock 0x10100 0x10200 0,
      globalLoc 0x10240, globalLoc 0x10140, by decide +kernel⟩
  · exact ⟨moving (moverCmd 4 1 65 (moverBlock 0x10100 0x10200 0) 1) 0, moverCmd 4 1 65 (moverBlock 0x10100 0x10200 0) 1, moverBlock 0x10100 0x10200 0,
      globalLoc 0x10240, globalLoc 0x10140, by decide +kernel⟩

/-- What holds of an answer that is a value holds of that value. -/
theorem ok_of {α ε : Type} {x : State × Except ε α} {p : α → Bool} (h : (match x.2 with | .ok v => p v | .error _ => false) = true) :
    ∃ s v, x = (s, .ok v) ∧ p v = true := by
  obtain ⟨s, e⟩ := x
  cases e with
  | error e => simp at h
  | ok v => exact ⟨s, v, rfl, h⟩

/-- n further wave threads with the numbers from 1 up, each with its number in register 8, running as given. -/
def lanes (n : Nat) (r : Run) (f : Thread → Thread) : List Thread :=
  (List.range n).map (fun j => f { with_ [(8, j + 1)] (fetchThread true) with uid := 11 + j, tid := j + 1, place := .wave waveCore (j + 1) 0, run := r })

/-- A wave thread, number 0, with others of its static wave. -/
def inWave (l : List Thread) : State := { wave (with_ [(8, 100)]) with threads := l }

theorem witness_CrossLane : (∃ s : State, s.th.isWave = true ∧ s.th.entered = false ∧ s.th.spawner = none ∧ s.th.live = true ∧ s.th.armed 1 = false ∧
      s.th.armed 2 = false ∧ ∃ t ∈ s.threads, waveMember s.th.grp s.th.role (s.th.tid / 64) t = true ∧ waitsCross t = false) ∧
    (∀ op, op ∈ [CrossOp.shfl, .shflx, .voteAny, .voteAll, .lsum 0, .lmin 0, .lmin 1, .bcast] → ∃ s : State, s.threads.length = 3 ∧ s.th.isWave = true ∧
      s.th.entered = false ∧ s.th.spawner = none ∧ s.th.live = true ∧ s.th.armed 1 = false ∧ s.th.armed 2 = false ∧ s.th.rx = false ∧
      (∀ t ∈ s.threads, waveMember s.th.grp s.th.role (s.th.tid / 64) t = true ∧ t.run = .waiting (.cross op 4 8 8) ∧ t.pc = s.th.pc ∧ t.rx = false ∧
        t.armed 1 = false ∧ t.armed 2 = false) ∧ ((s.th :: s.threads).map (fun t => t.uid)).Nodup ∧ ((s.th :: s.threads).map (fun t => t.tid)).Nodup ∧
      ∀ t ∈ s.th :: s.threads, t.at1 0 4 4 ∧ t.at1 1 8 8 ∧ t.at1 2 8 8) ∧
    ∃ s : State, s.threads.length = 3 ∧ s.th.isWave = true ∧ s.th.entered = false ∧ s.th.spawner = none ∧ s.th.live = true ∧ s.th.rx = false ∧
      (∀ t ∈ s.threads, waveMember s.th.grp s.th.role (s.th.tid / 64) t = true ∧ t.run = .waiting (.cross .ballot 4 0 0) ∧ t.pc = s.th.pc ∧ t.rx = false) ∧
      ∀ t ∈ s.th :: s.threads, t.at2 0 4 4 := by
  simp only [Thread.at1, Thread.at2]
  refine ⟨⟨inWave (lanes 1 .ready id), by decide +kernel⟩, fun op h => ?_, ⟨inWave (lanes 3 (.waiting (.cross .ballot 4 0 0)) id), by decide +kernel⟩⟩
  simp only [List.mem_cons, List.not_mem_nil, or_false] at h
  rcases h with rfl | rfl | rfl | rfl | rfl | rfl | rfl | rfl
  · exact ⟨inWave (lanes 3 (.waiting (.cross .shfl 4 8 8)) id), by decide +kernel⟩
  · exact ⟨inWave (lanes 3 (.waiting (.cross .shflx 4 8 8)) id), by decide +kernel⟩
  · exact ⟨inWave (lanes 3 (.waiting (.cross .voteAny 4 8 8)) id), by decide +kernel⟩
  · exact ⟨inWave (lanes 3 (.waiting (.cross .voteAll 4 8 8)) id), by decide +kernel⟩
  · exact ⟨inWave (lanes 3 (.waiting (.cross (.lsum 0) 4 8 8)) id), by decide +kernel⟩
  · exact ⟨inWave (lanes 3 (.waiting (.cross (.lmin 0) 4 8 8)) id), by decide +kernel⟩
  · exact ⟨inWave (lanes 3 (.waiting (.cross (.lmin 1) 4 8 8)) id), by decide +kernel⟩
  · exact ⟨inWave (lanes 3 (.waiting (.cross .bcast 4 8 8)) id), by decide +kernel⟩

theorem witness_Derivatives : (∃ s : State, s.th.isWave = true ∧ s.th.entered = false ∧ s.th.spawner = none ∧ s.th.live = true ∧ s.th.rx = false ∧
      s.th.armed 1 = false ∧ ((s.th :: s.threads).map (fun t => t.uid)).Nodup ∧ s.th.at1 1 8 8 ∧ s.th.at1 0 4 4 ∧
      ∃ t ∈ s.threads, quadMember s.th.grp s.th.role (s.th.tid / 64) (s.th.tid % 64 / 4) t = true ∧ waitsQuad t = false) ∧
    (∃ s : State, s.th.isWave = true ∧ s.th.entered = false ∧ s.th.spawner = none ∧ s.th.live = true ∧ s.th.rx = false ∧ s.th.armed 1 = false ∧
      s.th.at1 1 8 8 ∧ s.th.at1 0 4 4 ∧ ∀ t ∈ s.threads, quadMember s.th.grp s.th.role (s.th.tid / 64) (s.th.tid % 64 / 4) t = false) ∧
    ∀ op, op = QuadOp.ddx ∨ op = QuadOp.ddy → ∃ s : State, ∃ t1 t2 t3, s.th.isWave = true ∧ s.th.entered = false ∧ s.th.spawner = none ∧ s.th.live = true ∧
      s.th.rx = false ∧ s.th.armed 1 = false ∧ s.th.at1 1 8 8 ∧ s.th.at1 0 4 4 ∧ s.th.fxen = 0 ∧
      ((s.th :: s.threads).map (fun t => t.uid)).Nodup ∧ ([s.th, t1, t2, t3].map (fun t => t.tid)).Nodup ∧
      s.threads.filter (quadMember s.th.grp s.th.role (s.th.tid / 64) (s.th.tid % 64 / 4)) = [t1, t2, t3] ∧
      ∀ t ∈ [t1, t2, t3], t.run = .waiting (.quad op 4 8 0) ∧ t.pc = s.th.pc ∧ t.rx = false ∧ t.armed 1 = false ∧ t.at1 1 8 8 ∧ t.at1 0 4 4 ∧ t.fxen = 0 ∧
        t.compat = s.th.compat := by
  simp only [Thread.at1]
  refine ⟨⟨inWave (lanes 1 .ready id), by decide +kernel⟩, ⟨wave id, by decide +kernel⟩, fun op h => ?_⟩
  rcases h with rfl | rfl
  · refine ⟨inWave (lanes 3 (.waiting (.quad .ddx 4 8 0)) id), _, _, _, ?_, ?_, ?_, ?_, ?_, ?_, ?_, ?_, ?_, ?_, ?_, rfl, ?_⟩ <;> decide +kernel
  · refine ⟨inWave (lanes 3 (.waiting (.quad .ddy 4 8 0)) id), _, _, _, ?_, ?_, ?_, ?_, ?_, ?_, ?_, ?_, ?_, ?_, ?_, rfl, ?_⟩ <;> decide +kernel

/-- A wave thread with its group, whose team 0 is as given, with the self-local address o in registers 4 and 5. -/
def inTeam (a : Bool) (o : Nat) (f : Thread → Thread) (l : List Thread) : State :=
  { wave (fun t => f (with_ [(4, o), (5, 0xF1000000)] t)) with groups := [{ oneGroup with teams := [(0, ⟨a, none, []⟩)] }], threads := l }

theorem witness_Teams : (∃ s : State, ∃ x, s.th.isWave = true ∧ s.th.entered = false ∧ s.th.spawner = none ∧ s.th.live = true ∧
      s.group? s.th.grp = some x ∧ s.undone s.th.uid = false ∧
      ∃ t ∈ s.threads, teamMember s.th.grp s.th.role (s.th.tid / 256) t = true ∧ waitsTeam t = false) ∧
    ∀ minor, 2 ≤ minor → minor ≤ 12 → ∀ a : Bool, ∃ s : State, ∃ x o, s.th.isWave = true ∧ s.th.entered = false ∧ s.th.spawner = none ∧ s.th.live = true ∧
      s.group? s.th.grp = some x ∧ (∀ t ∈ s.threads, teamMember s.th.grp s.th.role (s.th.tid / 256) t = false) ∧ (∀ t ∈ s.threads, t.uid ≠ s.th.uid) ∧
      s.undone s.th.uid = false ∧ (∀ j ∈ (s.core s.th.core).mmaQ, j.team ≠ (s.th.grp, 0)) ∧ s.th.atK 1 56 (aRegs minor) 56 ∧ s.th.atA 2 4 4 ∧
      resolve s.th ⟨0, 48, 16, 4⟩ = .ok 48 ∧ (s.core s.th.core).mmaQ.length < 4 ∧ (x.team 0).armed = a ∧ (x.team 0).latch = none ∧
      (s.th.rd2 4).toNat / 2 ^ 24 = 0xF100000000 ∧ o = (s.th.rd2 4).toNat % 2 ^ 24 ∧ o + bExtent minor ≤ 0x40000 ∧ 0x40000 < o + 256 + bExtent minor ∧
      o % 256 = 0 := by
  simp only [Thread.atK, Thread.atA]
  refine ⟨⟨inTeam false 0 id (lanes 1 .ready id), { oneGroup with teams := [(0, ⟨false, none, []⟩)] }, by decide +kernel⟩, fun minor h2 h12 a => ?_⟩
  refine ⟨inTeam a ((0x40000 - bExtent minor) / 256 * 256) id [], { oneGroup with teams := [(0, ⟨a, none, []⟩)] }, (0x40000 - bExtent minor) / 256 * 256, ?_⟩
  interval_cases minor <;> revert a <;> decide +kernel

/-- A signed-byte multiplication of thread 1, whose D registers begin at 48, done at clk 0. -/
def mmaJob (minor : Nat) : MmaJob where
  team := (0, 0)
  minor := minor
  compat := 0
  who := [(1, 255, 48)]
  a := List.replicate 256 [0x01020380, 0x7F]
  b := (List.range 2048).map (BitVec.ofNat 8)
  free := []
  doneAt := 0

theorem witness_MatrixResults : ∀ minor, minor = 8 ∨ minor = 12 → ∃ s : State, ∃ c j, (s.core c).mmaQ = [j] ∧ j.minor = minor ∧ j.doneAt ≤ s.clk ∧
    j.free = [] ∧ (∀ t ∈ s.th :: s.threads, waitsTeam t = false) ∧ j.who = [(s.th.uid, 255, 48)] ∧ s.th.live = true := by
  intro minor h
  rcases h with rfl | rfl
  · exact ⟨withCore waveCore { Core.reset with mmaQ := [mmaJob 8] } (wave id), waveCore, mmaJob 8, by decide +kernel⟩
  · exact ⟨withCore waveCore { Core.reset with mmaQ := [mmaJob 12] } (wave id), waveCore, mmaJob 12, by decide +kernel⟩

/-- A wave thread with a sampler descriptor at the address in registers 4 and 5: a level of 2 by 1 texels of four binary32 components, the
second 1, 2, 3, 4, its edges clamped; registers from 8 are those given. -/
def sampling (l : List (Nat × Nat)) : State :=
  let s := wave (with_ ([(4, 0x10200)] ++ l))
  let d := 0x10300 + 1 * 2 ^ 160 + 6 * 2 ^ 192 + 2 * 2 ^ 216 + 2 * 2 ^ 218
  let m := writeBytes (writeBytes s.mem (fetchBase + 0x200) 16 (BitVec.ofNat 128 d)) (fetchBase + 0x210) 16 (BitVec.ofNat 128 (d / 2 ^ 128))
  { s with mem := writeBytes m (fetchBase + 0x310) 16 (BitVec.ofNat 128 (0x3F800000 + 0x40000000 * 2 ^ 32 + 0x40400000 * 2 ^ 64 + 0x40800000 * 2 ^ 96)) }

theorem witness_TextureFetch : (∃ s s1 : State, ∃ v, s.th.isWave = true ∧ s.th.atA 1 4 4 ∧ s.th.atL 2 8 3 8 ∧ s.th.at4 0 60 60 ∧
      readSampler s (s.th.rd2 4).toNat = (s1, .ok v) ∧ (levelW v 0 : Int) = (s.th.rd 8).toInt) ∧
    (∃ s s1 : State, ∃ v, s.th.isWave = true ∧ s.th.atA 1 4 4 ∧ s.th.atL 2 8 3 8 ∧ s.th.at4 0 60 60 ∧
      readSampler s (s.th.rd2 4).toNat = (s1, .ok v) ∧ bits v 207 204 + 1 = (s.th.rd 10).toNat) ∧
    ∃ s s1 : State, ∃ v, s.th.isWave = true ∧ s.th.atA 1 4 4 ∧ s.th.atL 2 8 3 8 ∧ s.th.at4 0 60 60 ∧ readSampler s (s.th.rd2 4).toNat = (s1, .ok v) ∧
      (s.th.rd 10).toNat = bits v 207 204 ∧ (levelW v 0 : Int) = (s.th.rd 8).toInt + 1 ∧ (s.th.rd 9).toInt < levelH v 0 ∧ bits v 199 192 = 6 ∧
      ∃ s2 w lat, texRead s1 (levelBase v 0 + 16) 16 = (s2, .ok (w, lat)) := by
  simp only [Thread.atA, Thread.atL, Thread.at4]
  refine ⟨?_, ?_, ?_⟩
  · obtain ⟨s1, v, e, p⟩ := ok_of (x := readSampler (sampling [(8, 2)]) 0x10200) (p := fun v => levelW v 0 == 2) (by decide +kernel)
    exact ⟨sampling [(8, 2)], s1, v, by decide +kernel, by decide +kernel, by decide +kernel, by decide +kernel,
      by rw [show ((sampling [(8, 2)]).th.rd2 4).toNat = 0x10200 by decide +kernel]; exact e, by
      rw [show (sampling [(8, 2)]).th.rd 8 = 2 by decide +kernel, show levelW v 0 = 2 by simpa using p]; rfl⟩
  · obtain ⟨s1, v, e, p⟩ := ok_of (x := readSampler (sampling [(10, 1)]) 0x10200) (p := fun v => bits v 207 204 == 0) (by decide +kernel)
    exact ⟨sampling [(10, 1)], s1, v, by decide +kernel, by decide +kernel, by decide +kernel, by decide +kernel,
      by rw [show ((sampling [(10, 1)]).th.rd2 4).toNat = 0x10200 by decide +kernel]; exact e, by
      rw [show bits v 207 204 = 0 by simpa using p]; decide +kernel⟩
  · obtain ⟨s1, v, e, p⟩ := ok_of (x := readSampler (sampling [(8, 1)]) 0x10200)
      (p := fun v => bits v 207 204 == 0 && levelW v 0 == 2 && levelH v 0 == 1 && bits v 199 192 == 6 && levelBase v 0 == 0x10300) (by decide +kernel)
    simp only [Bool.and_eq_true, beq_iff_eq] at p
    obtain ⟨⟨⟨⟨p1, p2⟩, p3⟩, p4⟩, p5⟩ := p
    have e1 : s1 = (readSampler (sampling [(8, 1)]) 0x10200).1 := by rw [e]
    obtain ⟨s2, w, e2, _⟩ := ok_of (x := texRead (readSampler (sampling [(8, 1)]) 0x10200).1 0x10310 16) (p := fun _ => true) (by decide +kernel)
    refine ⟨sampling [(8, 1)], s1, v, by decide +kernel, by decide +kernel, by decide +kernel, by decide +kernel,
      by rw [show ((sampling [(8, 1)]).th.rd2 4).toNat = 0x10200 by decide +kernel]; exact e, ?_, ?_, ?_, p4, s2, w.1, w.2, ?_⟩
    · rw [p1]; decide +kernel
    · rw [p2]; decide +kernel
    · rw [p3]; decide +kernel
    · rw [p5, e1]; exact e2

/-- The descriptor of `sampling`. -/
def texDesc : Nat := 0x10300 + 2 ^ 160 + 6 * 2 ^ 192 + 2 * 2 ^ 216 + 2 * 2 ^ 218

/-- Coordinates 0.75 and 0.5, with a level of detail of 0. -/
def texCoords : List (Nat × Nat) := [(8, 0x3F400000), (9, 0x3F000000)]

theorem witness_TextureSampling : ∃ s s1 s2 : State, ∃ v x, s.th.isWave = true ∧ s.th.atA 1 4 4 ∧ s.th.at4 0 60 60 ∧ s.th.rx = false ∧ s.th.atL 2 8 3 8 ∧
    s.th.atL 2 8 6 8 ∧ s.th.atL 2 8 2 8 ∧ s.th.entered = false ∧ s.th.spawner = none ∧ s.th.live = true ∧ (∀ t ∈ s.threads, t.uid ≠ s.th.uid) ∧
    (∀ t ∈ s.threads, quadMember s.th.grp s.th.role (s.th.tid / 64) (s.th.tid % 64 / 4) t = false) ∧
    readSampler s (s.th.rd2 4).toNat = (s1, .ok v) ∧ (givenLod v (s.th.rd 10) ≤ 0 ∧ v.testBit 213 = false ∧ bits v 217 216 = 2 ∧ bits v 219 218 = 2) ∧
    addLevels v (allTaps v (coordOf (s.th.rd 8)) (coordOf (s.th.rd 9)) (givenLod v (s.th.rd 10)) 1 0 0) s1 TexAcc.zero = (s2, .ok x) := by
  simp only [Thread.atA, Thread.atL, Thread.at4]
  obtain ⟨s1, v, e, p⟩ := ok_of (x := readSampler (sampling texCoords) 0x10200) (p := fun v => v == texDesc) (by decide +kernel)
  have p : v = texDesc := by simpa using p
  have e1 : s1 = (readSampler (sampling texCoords) 0x10200).1 := by rw [e]
  obtain ⟨s2, x, e2, _⟩ := ok_of (x := addLevels texDesc (allTaps texDesc (coordOf ((sampling texCoords).th.rd 8)) (coordOf ((sampling texCoords).th.rd 9))
    (givenLod texDesc ((sampling texCoords).th.rd 10)) 1 0 0) (readSampler (sampling texCoords) 0x10200).1 TexAcc.zero) (p := fun _ => true) (by decide +kernel)
  refine ⟨sampling texCoords, s1, s2, texDesc, x, ?_, ?_, ?_, ?_, ?_, ?_, ?_, ?_, ?_, ?_, ?_, ?_, ?read, ?_, by rw [e1]; exact e2⟩
  case read => rw [show ((sampling texCoords).th.rd2 4).toNat = 0x10200 by decide +kernel, e, p]
  all_goals decide +kernel

/-- A pixel thread in registers of a wave, its primitive of n attributes, each of them v at every vertex, and its export. -/
def shading (e : Bool) (n : Nat) (v : Word) (f : Thread → Thread) : State :=
  let s := wave (fun t => f { t with pixel := some (pixelOf e) })
  let p : Prim := ⟨0, 0, 0, 0, true, n, [(0, 0, 0, 0x3F800000), (4096, 0, 0, 0x3F800000), (0, 4096, 0, 0x3F800000)], List.replicate (3 * n) v⟩
  { s with dies := s.dies.setIfInBounds 0 { s.die 0 with
      rast := { Raster.reset with prims := [p], exports := [⟨0, 0, 0, 0, 1, 15, [], none⟩] } } }

theorem witness_PixelInstructions : (∃ s : State, s.th.isWave = true ∧ s.th.free [1, 2] ∧ s.th.at1 1 8 8 ∧ s.th.at1 2 9 9 ∧ s.th.at1 0 4 4 ∧ s.th.at4 1 60 60 ∧
      s.th.pixel = none) ∧
    (∀ k, k = 3 ∨ k = 4 → ∃ s : State, ∃ x p f, s.th.isWave = true ∧ s.th.free [1, 2] ∧ s.th.at1 1 8 8 ∧ s.th.at1 2 9 9 ∧ s.th.at1 0 4 4 ∧
      s.th.pixel = some x ∧ (s.rast s.th.die).prims.find? (fun p => p.ord == x.ord && p.idx == x.prim) = some p ∧ (s.src s.th 1 8).toNat % 32 = k ∧
      p.nattr = 4 ∧ (∀ v, v < 3 → f32Val (p.attrs[p.nattr * v + 3]?.getD 0) = some f) ∧ p.verts.length = 3 ∧
      ∀ v ∈ p.verts, (f32Val v.2.2.2).isSome = true) ∧
    (∃ s : State, ∃ p, s.th.isWave = true ∧ s.th.free [2] ∧ s.th.at4 1 60 60 ∧ s.th.at1 2 9 9 ∧ s.th.pixel = some p ∧ p.exported = true) ∧
    ∃ s : State, ∃ p, s.th.isWave = true ∧ s.th.free [2] ∧ s.th.at4 1 60 60 ∧ s.th.at1 2 9 9 ∧ s.th.pixel = some p ∧ p.exported = false ∧ s.th.die < 24 := by
  simp only [Thread.at1, Thread.at4, Thread.free]
  refine ⟨⟨wave id, by decide +kernel⟩, fun k h => ?_, ⟨shading true 4 0 id, pixelOf true, by decide +kernel⟩, ⟨shading false 4 0 id, pixelOf false, by decide +kernel⟩⟩
  rcases h with rfl | rfl
  · exact ⟨shading false 4 0x40400000 (with_ [(8, 3)]), pixelOf false, _, 3, by decide +kernel, by decide +kernel, by decide +kernel, by decide +kernel,
      by decide +kernel, by decide +kernel, rfl, by decide +kernel, by decide +kernel, by decide +kernel, by decide +kernel, by decide +kernel⟩
  · exact ⟨shading false 4 0x40400000 (with_ [(8, 4)]), pixelOf false, _, 3, by decide +kernel, by decide +kernel, by decide +kernel, by decide +kernel,
      by decide +kernel, by decide +kernel, rfl, by decide +kernel, by decide +kernel, by decide +kernel, by decide +kernel, by decide +kernel⟩

/-- A draw of 5,000 primitives with two attributes, of slot 0 of stream 0. -/
def drawOf5000 : Draw := ⟨0, 0, 0, [0x88, 0x13, 0, 0, 0, 2] ++ List.replicate 122 0, [0], [(0, 1)], none, []⟩

/-- A primitive thread of that draw, setup having taken those below 100, with index i in register 8 and a record address in registers 4 and 5. -/
def emitting (i : Nat) (used : List Emission) : State :=
  let s := wave (fun t => { with_ [(4, 0x10400), (8, i)] t with prim := true })
  { s with parts := [{ fetchPart with draws := [drawOf5000] }]
           dies := s.dies.setIfInBounds 0 { s.die 0 with rast := { Raster.reset with slices := [⟨0, 100, 5000⟩], emissions := used } } }

/-- What the statement about emissions asks of a state. -/
abbrev emits (s : State) (i : Nat) : Prop :=
  s.th.isWave = true ∧ s.th.prim = true ∧ s.th.free [1] ∧ s.th.at1 1 8 8 ∧ s.drawOf s.th = some drawOf5000 ∧
    (s.rast s.th.die).slices.find? (fun x => x.ord == drawOf5000.ord) = some ⟨0, 100, 5000⟩ ∧ s.th.die < 24 ∧ (s.src s.th 1 8).toNat = i

theorem witness_PrimitiveEmission : (∀ i, i = 99 ∨ i = 5000 → ∃ s, emits s i) ∧
    (∃ s, emits s 100 ∧ ∃ e ∈ (s.rast s.th.die).emissions, e.ord = 0 ∧ e.idx = 100) ∧
    (∀ i, i = 1124 ∨ i = 4999 → ∃ s, emits s i ∧ (s.rast s.th.die).emissions = []) ∧
    ∀ i, i = 100 ∨ i = 1123 → ∃ s, emits s i ∧ (s.rast s.th.die).emissions = [] ∧ s.th.atA 2 4 4 ∧ (s.th.rd2 4).toNat % 16 = 0 ∧
      topByte (s.th.rd2 4).toNat = 0 ∧ ∃ s1 ws lat, readWords (12 + 3 * drawOf5000.nattr) s (s.th.rd2 4).toNat = (s1, .ok (ws, lat)) ∧
        ws.length = 12 + 3 * drawOf5000.nattr := by
  simp only [emits, Thread.at1, Thread.atA, Thread.free]
  refine ⟨fun i h => ?_, ⟨emitting 100 [⟨0, 100, none⟩], by decide +kernel⟩, fun i h => ?_, fun i h => ?_⟩
  · rcases h with rfl | rfl
    · exact ⟨emitting 99 [], by decide +kernel⟩
    · exact ⟨emitting 5000 [], by decide +kernel⟩
  · rcases h with rfl | rfl
    · exact ⟨emitting 1124 [], by decide +kernel⟩
    · exact ⟨emitting 4999 [], by decide +kernel⟩
  · rcases h with rfl | rfl
    · obtain ⟨s1, v, e, p⟩ := ok_of (x := readWords (12 + 3 * drawOf5000.nattr) (emitting 100 []) 0x10400) (p := fun v => v.1.length == 12 + 3 * drawOf5000.nattr) (by decide +kernel)
      exact ⟨emitting 100 [], by decide +kernel, by decide +kernel, by decide +kernel, by decide +kernel, by decide +kernel, s1, v.1, v.2,
        by rw [show ((emitting 100 []).th.rd2 4).toNat = 0x10400 by decide +kernel]; exact e, by simpa using p⟩
    · obtain ⟨s1, v, e, p⟩ := ok_of (x := readWords (12 + 3 * drawOf5000.nattr) (emitting 1123 []) 0x10400) (p := fun v => v.1.length == 12 + 3 * drawOf5000.nattr) (by decide +kernel)
      exact ⟨emitting 1123 [], by decide +kernel, by decide +kernel, by decide +kernel, by decide +kernel, by decide +kernel, s1, v.1, v.2,
        by rw [show ((emitting 1123 []).th.rd2 4).toNat = 0x10400 by decide +kernel]; exact e, by simpa using p⟩

/-- A swarm thread with a record image in the mapped page and stream number n in register 8; the stream's state is x. -/
def launching (n : Nat) (x : Stream) : State :=
  { atGlobal 0x10440 (with_ [(8, n)]) with parts := [{ fetchPart with streams := [(63, x)] }] }

/-- A stream that is enabled, with the slots below n full and its head at slot 200. -/
def enabled (n : Nat) : Stream := { Stream.reset with en := true, head := 200, words := (List.range n).map (fun k => (16 * k, 1)) }

theorem enabled_full : freeSlot (enabled 256) = none := by
  rw [freeSlot, List.find?_eq_none]
  intro k hk
  have h : k ∈ List.range 256 := by
    obtain ⟨i, _, rfl⟩ := List.mem_map.1 hk
    exact List.mem_range.2 (Nat.mod_lt _ (by decide))
  have : k ∈ (enabled 256).words.map (fun e => e.1 / 16) := by
    simp only [enabled, List.map_map]
    exact List.mem_map.2 ⟨k, h, by simp⟩
  simp [List.mem_dedup.2 this]

/-- What the statement about launches asks of a state. -/
abbrev launches (s : State) (l : Loc) : Prop :=
  s.th.free [2] ∧ s.th.atA 1 4 4 ∧ s.th.at1 2 8 8 ∧ s.th.at1 0 9 9 ∧ s.th.isWave = false ∧
    checkAddr s (agentOf s.th 0) (s.th.rd2 4) 64 needR false = .ok l ∧ l.win = 0 ∧ s.undone s.th.uid = false ∧ homeHeld s s.th.die l.key = false ∧
    isCtl l.key = false ∧ socketOf l.key < 56 ∧ (∀ r ∈ s.regions, meets l.key 64 r.key r.len = false) ∧ broughtImage s = none

theorem witness_LaunchPosts : (∃ s l, launches s l ∧ (s.src s.th 2 8).toNat = 64 ∧ (s.part? s.th.part).isSome = true) ∧
    (∀ x, x ∈ [Stream.reset, enabled 256, enabled 0] → ∃ s l q, launches s l ∧ (s.src s.th 2 8).toNat = 63 ∧ s.part? s.th.part = some q ∧
      q.stream 63 = x) ∧
    (enabled 256).en = true ∧ freeSlot (enabled 256) = none ∧ freeSlot (enabled 0) = some 200 := by
  simp only [launches, Thread.at1, Thread.atA, Thread.free]
  refine ⟨⟨launching 64 (enabled 0), globalLoc 0x10440, by decide +kernel⟩, fun x h => ?_, rfl, enabled_full, by decide +kernel⟩
  simp only [List.mem_cons, List.not_mem_nil, or_false] at h
  rcases h with rfl | rfl | rfl
  · exact ⟨launching 63 Stream.reset, globalLoc 0x10440, { fetchPart with streams := [(63, Stream.reset)] }, by decide +kernel, by decide +kernel, by decide +kernel,
      by decide +kernel⟩
  · exact ⟨launching 63 (enabled 256), globalLoc 0x10440, { fetchPart with streams := [(63, (enabled 256))] }, by decide +kernel, by decide +kernel, by decide +kernel,
      by decide +kernel⟩
  · exact ⟨launching 63 (enabled 0), globalLoc 0x10440, { fetchPart with streams := [(63, (enabled 0))] }, by decide +kernel, by decide +kernel, by decide +kernel,
      by decide +kernel⟩

/-! Streams, records and the fault queue. -/

/-- A partition whose stream 63 is x, its mirror copy on another die. -/
def streamPart (x : Stream) : Part := { fetchPart with streams := [(63, { x with mirror := 1 })], functions := [3] }

/-- A state with that partition, its port 3 up. -/
def withStream (x : Stream) : State := { swarm id with parts := [streamPart x], ports := (swarm id).ports.setIfInBounds 3 ⟨true, false, [0], [], false⟩ }

theorem witness_StreamWrites : ∀ l : Table Word, l = [] ∨ l = [(0xFFF, 5)] → ∃ s : State, ∃ q, s.part? 0 = some q ∧
    (spend s (mirrorBudgets s 0 63 (ioOfPart s 0) 0x3FFC 4)).isSome = true ∧
    (spend s (mirrorBudgets s 0 63 (56 + 3 / 2) 0x3FFC 4 ++ [(portKey 3, 0, 0)])).isSome = true ∧
    (q.stream 63).words = l ∧ s.homeUp q = true ∧ q.fqTail - q.fqHead ≠ 4096 ∧ hostReaches s 0 3 = true ∧ s.portHeld 3 = none := by
  intro l h
  rcases h with rfl | rfl
  · exact ⟨withStream Stream.reset, streamPart Stream.reset, by decide +kernel⟩
  · exact ⟨withStream { Stream.reset with words := [(0xFFF, 5)] }, streamPart { Stream.reset with words := [(0xFFF, 5)] }, by decide +kernel⟩

/-- Words of a record in slot 255: a word w0, and the last word of the slot full. -/
def slotFull (w0 : Word) : Table Word := (List.range 16).map (fun j => (16 * 255 + j, if j = 0 then w0 else 0))

/-- A record of slot 255 in this state. -/
def recOf (st : RecState) (faulted lost : Option Nat) (status : Option (Nat × Nat)) : Rec :=
  ⟨255, Vector.ofFn (fun i => if i.val = 0 then 0xABCD0001 else 0), 0, st, none, none, 0, 0, 0, [], faulted, none, false, status, none, lost, none⟩

/-- Stream 63 with its head at slot 255, enabled, with these records and held completions, and hosthead h. -/
def course (l : List Rec) (held : List (Nat × Nat × Nat)) (done h : Word) : Stream :=
  { Stream.reset with en := true, head := 255, words := slotFull 0xABCD0002, recs := l, held, done, hosthead := h }

/-- What the statement about the course of a record asks of a partition. -/
abbrev calm (s : State) (q : Part) : Prop :=
  s.part? 0 = some q ∧ q.running = true ∧ s.homeUp q = true ∧ (q.streams.map Prod.fst).Nodup ∧ (q.stream 63).cqhost = 0 ∧
    ∀ e ∈ q.streams, e.1 ≠ 63 → e.2.recs = [] ∧ e.2.held = []

theorem witness_RecordCourse : (∃ s q, calm s q ∧ (q.stream 63).en = true ∧ (s.die (q.stream 63).home).inReset = false ∧ (q.stream 63).recs = [] ∧
      (q.stream 63).held = [] ∧ (q.stream 63).mayWrite = true ∧ (q.stream 63).head = 255 ∧ (∀ j, j < 16 → (q.stream 63).isFull (16 * 255 + j) = true) ∧
      (q.stream 63).isFull (16 * ((255 + 1) % 256) + 15) = false ∧ bits ((q.stream 63).slotWords 255)[0].toNat 15 0 = 2 ∧
      ((q.stream 63).slotWords 255)[1] = 0 ∧ (spend s (mirrorBudgets s 0 63 (q.stream 63).home (64 * 255) 1)).isSome = true) ∧
    (∀ st, st = RecState.accepted ∨ st = RecState.waiting ∨ st = RecState.ready → ∃ s q r, calm s q ∧ (q.stream 63).recs = [r] ∧ (q.stream 63).held = [] ∧
      (q.stream 63).mayWrite = true ∧ r.status = none ∧ r.ord = none ∧ (r.word 0).testBit 7 = false ∧ r.slot = 255 ∧ r.state = st) ∧
    (∀ o, o ∈ [((none : Option Nat), (none : Option Nat)), (some (2 ^ 24 - 1), none), (none, some (2 ^ 24 - 1))] → ∃ s q r, calm s q ∧
      (q.stream 63).recs = [r] ∧ (q.stream 63).held = [] ∧ (q.stream 63).mayWrite = true ∧ r.status = none ∧ r.ord = none ∧
      (r.word 0).testBit 7 = false ∧ r.slot = 255 ∧ r.state = .ending ∧ workEnded s 0 63 255 r = true ∧ r.faulted = o.1 ∧ r.lost = o.2) ∧
    (∃ s q r, calm s q ∧ (q.stream 63).recs = [r] ∧ (q.stream 63).held = [(255, 255, 2 ^ 24 - 1)] ∧ r.slot = 255 ∧ r.status.isSome = true ∧ r.ord = none ∧
      (r.word 0).testBit 7 = false ∧ (q.stream 63).mayWrite = false ∧ ({ q.stream 63 with hosthead := 1 } : Stream).mayWrite = true) := by
  refine ⟨⟨withStream (course [] [] 255 0), streamPart (course [] [] 255 0), by decide +kernel⟩, fun st h => ?_, fun o h => ?_,
    ⟨withStream (course [recOf .ending none none (some (3, 5))] [(255, 255, 2 ^ 24 - 1)] 256 0),
      streamPart (course [recOf .ending none none (some (3, 5))] [(255, 255, 2 ^ 24 - 1)] 256 0), recOf .ending none none (some (3, 5)), by decide +kernel⟩⟩
  · exact ⟨withStream (course [recOf st none none none] [] 0 0), streamPart (course [recOf st none none none] [] 0 0), recOf st none none none, by
      rcases h with rfl | rfl | rfl <;> decide +kernel⟩
  · exact ⟨withStream (course [recOf .ending o.1 o.2 none] [] 0 0), streamPart (course [recOf .ending o.1 o.2 none] [] 0 0), recOf .ending o.1 o.2 none, by
      simp only [List.mem_cons, List.not_mem_nil, or_false] at h
      rcases h with rfl | rfl | rfl <;> decide +kernel⟩

/-- A partition whose fault queue is full, with the records that wait. -/
def fullQueue (w : List FqWait) : Part := { fetchPart with fqTail := 4096, fqWait := w }

theorem witness_FaultQueueSpace : ∀ w, w = [] ∨ w = [⟨List.replicate 64 7, 0, 0, 0, 0⟩] → ∃ s : State, ∃ q, s.part? 0 = some q ∧ q.running = true ∧
    s.homeUp q = true ∧ q.fqDropped = 0 ∧ q.fqTail - 1 ≠ 4096 ∧ q.fqWait = w := by
  intro w h
  rcases h with rfl | rfl
  · exact ⟨{ swarm id with parts := [fullQueue []] }, fullQueue [], by decide +kernel⟩
  · exact ⟨{ swarm id with parts := [fullQueue [⟨List.replicate 64 7, 0, 0, 0, 0⟩]] }, fullQueue [⟨List.replicate 64 7, 0, 0, 0, 0⟩], by decide +kernel⟩

/-- A translated object of two parcels. -/
def tcode : TCode := ⟨3, 0, [0], [], 0x20000, [0x1C, 0], [], [some 0]⟩

theorem witness_TranslatedCode : (∃ s : State, (s.die 0).tpend.find? (fun x => x.part == 0 && x.codeVA == 0x20000) = some tcode ∧
      cacheBytes ((s.die 0).tcache) + 2 * tcode.parcels.length ≤ 2 ^ 28 ∧
      (spend s [(2 ^ 27 + 0, min tcode.cycles refillAllow, refillAllow)]).isSome = true) ∧
    ∃ s : State, ∃ v q, s.th.isWave = false ∧ (match legacyValues s.th 255 61 8 with | .ok w => w == v | .error _ => false) = true ∧
      s.part? s.th.part = some q ∧ s.homeUp q = true ∧ q.fqWait = [] ∧ q.fqTail - q.fqHead ≠ 4096 ∧ q.mirror = none :=
  ⟨⟨{ swarm id with dies := (swarm id).dies.setIfInBounds 0 { (swarm id).die 0 with tpend := [tcode] } }, by decide +kernel⟩,
    ⟨swarm (with_ [(61, 5), (8, 6)]), (0, 5, 6), fetchPart, by decide +kernel⟩⟩

/-! Placement and pre-emption. -/

/-- A role of n registers on swarm cores. -/
def swarmRole (n : Nat) : RoleEntry := ⟨n, false, 0, false, false, false, 0, 0, 0, 0, 0⟩

/-- A grid of two gangs, each of one group and `last` more, with two threads of 24 registers in each. -/
def gridRec (last : Nat) (st : RecState) (next : Nat) (offered : List (OfferKey × Nat)) : Rec where
  slot := 255
  words := Vector.ofFn (fun i => if i.val = 0 then 0x00010001 else if i.val = 10 then 2 else if i.val = 12 then BitVec.ofNat 32 (2 * 256 + last * 16) else 0)
  seq := 0
  state := st
  fail := none
  obj := some ⟨1, 0, 0x10000, 64, [swarmRole 24], [], 0⟩
  run := 1
  nextGang := next
  ended := 0
  offered := offered
  faulted := none
  ord := none
  rerun := false
  status := none
  ahead := none
  lost := none
  tcode := none

/-- A stream of a class that holds this record. -/
def gridStream (cls : Nat) (r : Rec) : Stream := { Stream.reset with en := true, cls := cls, recs := [r] }

/-- A partition whose one stream holds this record. -/
def gridPart (cls : Nat) (r : Rec) : Part := { fetchPart with streams := [(63, gridStream cls r)] }

/-- The gang 8 of that record, on cluster 0 of die 0, in this state, of class 3. -/
def oldGang (st : GangStatus) : Gang := ⟨8, 0, 63, 255, 0, 0, 0, 1, 3, st, true, false, false, []⟩

/-- Its group. -/
def oldGroup : Group := { oneGroup with id := 8192, gang := 8 }

/-- A thread of that gang, running and held as given. -/
def gangThread (r : Run) (h : Hold) : Thread :=
  { fetchThread false with uid := 20, place := .swarm 0 1, grp := 8192, gang := 8, ofRecord := true, stream := 63, slot := 255, run := r, hold := h, count := 24 }

/-- Parked threads of that gang that hold every register of the swarm cores of cluster 0. -/
def parkedThreads : List Thread :=
  (List.range 32).map (fun j => { gangThread (.waiting .mailbox) .running with uid := 20 + j, place := .swarm j 1, base := 0, count := 2048 })

/-- A state at a clk with that partition, and with the gangs and the threads given; the issuing thread has ended. -/
def gridState (cls : Nat) (r : Rec) (clk : Nat) (gs : List Gang) (ts : List Thread) : State :=
  { swarm (fun t => { t with run := .absent, place := .nowhere }) with parts := [gridPart cls r], clk := clk, gangs := gs, threads := ts, groups := [oldGroup] }

/-- What the statement about placement asks of the state, the partition and the record. -/
abbrev offersIt (s : State) (q : Part) (x : Stream) (r : Rec) : Prop :=
  s.parts = [q] ∧ q.running = true ∧ q.streams = [(63, x)] ∧ x.recs = [r] ∧ x.held = [] ∧ x.cls < 4 ∧ s.presentDies q.id = [0] ∧
    (∀ d ∈ q.dies, (s.die d).drains = [] ∧ (s.rast d).quads = []) ∧ r.ord = none ∧ r.ahead = none ∧ r.fail = none ∧ r.status = none

theorem witness_GangsPlaced_fits : ∀ st, st = RecState.ready ∨ st = RecState.running → ∃ s q x r, offersIt s q x r ∧ (∀ g ∈ s.gangs, g.status = .resident) ∧
    bits (r.word 0) 3 0 = 1 ∧ (r.word 0).testBit 5 = false ∧ r.state = st ∧ r.nextGang < r.gangs ∧ (∃ o, r.obj = some o ∧ o.tkey = 0) ∧
    ∃ f oc, fitGang s r 0 (closedTo s 0 q.id 63 r.slot (.fresh r.nextGang)) [] (occupied s) = some (f, oc) ∧ f.bad = false := by
  intro st h
  rcases h with rfl | rfl
  · obtain ⟨f, e, p⟩ := of_any (o := fitGang (gridState 1 (gridRec 0 .ready 0 []) 5 [] []) (gridRec 0 .ready 0 []) 0 0 [] (occupied (gridState 1 (gridRec 0 .ready 0 []) 5 [] [])))
      (p := fun f => !f.1.bad) (by decide +kernel)
    exact ⟨gridState 1 (gridRec 0 .ready 0 []) 5 [] [], gridPart 1 (gridRec 0 .ready 0 []), gridStream 1 (gridRec 0 .ready 0 []), gridRec 0 .ready 0 [],
      by decide +kernel, by decide +kernel, by decide +kernel, by decide +kernel, by decide +kernel, by decide +kernel, ⟨_, rfl, rfl⟩, f.1, f.2,
      by rw [show closedTo (gridState 1 (gridRec 0 .ready 0 []) 5 [] []) 0 (gridPart 1 (gridRec 0 .ready 0 [])).id 63 (gridRec 0 .ready 0 []).slot (.fresh (gridRec 0 .ready 0 []).nextGang) = 0 by decide +kernel]
         exact e, by simpa using p⟩
  · obtain ⟨f, e, p⟩ := of_any (o := fitGang (gridState 1 (gridRec 0 .running 1 []) 5 [oldGang .resident] [gangThread .ready .running]) (gridRec 0 .running 1 []) 0 0 []
      (occupied (gridState 1 (gridRec 0 .running 1 []) 5 [oldGang .resident] [gangThread .ready .running]))) (p := fun f => !f.1.bad) (by decide +kernel)
    exact ⟨gridState 1 (gridRec 0 .running 1 []) 5 [oldGang .resident] [gangThread .ready .running], gridPart 1 (gridRec 0 .running 1 []),
      gridStream 1 (gridRec 0 .running 1 []), gridRec 0 .running 1 [],
      by decide +kernel, by decide +kernel, by decide +kernel, by decide +kernel, by decide +kernel, by decide +kernel, ⟨_, rfl, rfl⟩, f.1, f.2,
      by rw [show closedTo (gridState 1 (gridRec 0 .running 1 []) 5 [oldGang .resident] [gangThread .ready .running]) 0 (gridPart 1 (gridRec 0 .running 1 [])).id 63
            (gridRec 0 .running 1 []).slot (.fresh (gridRec 0 .running 1 []).nextGang) = 0 by decide +kernel]
         exact e, by simpa using p⟩

theorem witness_GangsPlaced_waits : (∃ s q x r, offersIt s q x r ∧ (∀ g ∈ s.gangs, g.status = .resident) ∧ bits (r.word 0) 3 0 = 1 ∧
      (r.word 0).testBit 5 = false ∧ r.state = .ready ∧ r.nextGang < r.gangs ∧ (∃ o, r.obj = some o ∧ o.tkey = 0) ∧
      fitGang s r 0 (closedTo s 0 q.id 63 r.slot (.fresh r.nextGang)) [] (occupied s) = none ∧ r.offered = []) ∧
    (∀ cls, cls = 0 ∨ cls = 1 → ∃ s q x r, offersIt s q x r ∧ r.offered = [(.fresh r.nextGang, 0)] ∧ s.clk = 20000 ∧ bits (r.word 0) 3 0 = 1 ∧ r.state = .ready ∧ r.nextGang < r.gangs ∧
      (rangeFor s r 0 (reserved s 0)).isSome = true ∧ x.cls = cls) ∧
    (∃ s q x r, offersIt s q x r ∧ (∀ e ∈ s.cores, e.2.movers = []) ∧ (s.gangs.map Gang.id).Nodup ∧ stallDue s q.id 63 r = true ∧
      waitingGang s q.id 63 r = some (.fresh 1) ∧ evictions s q.id 63 0 r (.fresh 1) = some [8] ∧ ∃ g ∈ s.gangs, g.id = 8 ∧ g.status = .resident) ∧
    ∃ s q x r, offersIt s q x r ∧ stallDue s q.id 63 r = false := by
  refine ⟨⟨gridState 1 (gridRec 12 .ready 0 []) 5 [] [], gridPart 1 (gridRec 12 .ready 0 []), gridStream 1 (gridRec 12 .ready 0 []), gridRec 12 .ready 0 [],
    by decide +kernel, by decide +kernel, by decide +kernel, by decide +kernel, by decide +kernel, by decide +kernel, ⟨_, rfl, rfl⟩, by decide +kernel, rfl⟩,
    fun cls h => ?_, ?_, ?_⟩
  · rcases h with rfl | rfl
    · exact ⟨gridState 0 (gridRec 0 .ready 0 [(.fresh 0, 0)]) 20000 [] [], gridPart 0 (gridRec 0 .ready 0 [(.fresh 0, 0)]), gridStream 0 (gridRec 0 .ready 0 [(.fresh 0, 0)]), gridRec 0 .ready 0 [(.fresh 0, 0)], by decide +kernel⟩
    · exact ⟨gridState 1 (gridRec 0 .ready 0 [(.fresh 0, 0)]) 20000 [] [], gridPart 1 (gridRec 0 .ready 0 [(.fresh 0, 0)]), gridStream 1 (gridRec 0 .ready 0 [(.fresh 0, 0)]), gridRec 0 .ready 0 [(.fresh 0, 0)], by decide +kernel⟩
  · exact ⟨gridState 1 (gridRec 11 .running 1 [(.fresh 1, 0)]) 50000 [oldGang .resident] parkedThreads, gridPart 1 (gridRec 11 .running 1 [(.fresh 1, 0)]),
      gridStream 1 (gridRec 11 .running 1 [(.fresh 1, 0)]), gridRec 11 .running 1 [(.fresh 1, 0)], by decide +kernel⟩
  · exact ⟨gridState 1 (gridRec 0 .running 1 [(.fresh 1, 0)]) 49999 [oldGang .resident] [gangThread (.waiting .mailbox) .running], gridPart 1 (gridRec 0 .running 1 [(.fresh 1, 0)]),
      gridStream 1 (gridRec 0 .running 1 [(.fresh 1, 0)]), gridRec 0 .running 1 [(.fresh 1, 0)], by decide +kernel⟩

/-- A drain reservation of the record, of clk 0, with a thread planned where the old gang's stands. -/
def oldDrain : Drain := ⟨0, 63, 255, .fresh 1, 0, 1, 0, [⟨0, 0, .swarm 0 1, 0, false⟩]⟩

theorem witness_GangsPreempted : (∃ s : State, ∃ g : Gang, s.gang? 8 = some g ∧ (s.gangs.map Gang.id).Nodup ∧ (∀ e ∈ s.cores, e.2.movers = []) ∧ g.status = .resident ∧
      s.partOfDie 0 = some 0 ∧ frameTargets s 0 0 = [8] ∧ ∃ t ∈ s.threads, t.gang = 8 ∧ t.ofRecord = true) ∧
    (∃ s : State, ∃ g : Gang, s.gang? 8 = some g ∧ (s.gangs.map Gang.id).Nodup ∧ (∀ e ∈ s.cores, e.2.movers = []) ∧ g.status = .saving ∧ s.flights = [] ∧
      ∃ t ∈ s.threads, t.gang = 8 ∧ t.ofRecord = true) ∧
    ∃ s : State, ∃ g : Gang, s.gang? 8 = some g ∧ (s.gangs.map Gang.id).Nodup ∧ (∀ e ∈ s.cores, e.2.movers = []) ∧ g.status = .restoring ∧ g.movers = [] ∧
      ((s.th :: s.threads).map Thread.uid).Nodup ∧ (∃ t ∈ s.threads, t.gang = 8 ∧ t.ofRecord = true) ∧
      ∀ t ∈ s.th :: s.threads, t.gang = 8 → t.ofRecord = true → t.run = .ready ∧ t.replay = [] ∧ ∀ c, t.place ≠ .transit c := by
  refine ⟨⟨{ gridState 0 (gridRec 0 .running 1 [(.fresh 1, 0)]) 20000 [oldGang .resident] [gangThread .ready .running] with
      dies := (swarm id).dies.setIfInBounds 0 { (swarm id).die 0 with drains := [oldDrain] } }, oldGang .resident, by decide +kernel⟩,
    ⟨gridState 0 (gridRec 0 .running 1 [(.fresh 1, 0)]) 5 [oldGang .saving] [gangThread .ready .halted], oldGang .saving, by decide +kernel⟩,
    ⟨gridState 0 (gridRec 0 .running 1 [(.fresh 1, 0)]) 5 [oldGang .restoring] [gangThread .ready .saved], oldGang .restoring, by decide +kernel, by decide +kernel,
      by decide +kernel, by decide +kernel, by decide +kernel, by decide +kernel, by decide +kernel, fun t h hg ho => ?_⟩⟩
  have h : t = (gridState 0 (gridRec 0 .running 1 [(.fresh 1, 0)]) 5 [oldGang .restoring] [gangThread .ready .saved]).th ∨ t = gangThread .ready .saved := by
    rcases List.mem_cons.1 h with h | h
    · exact .inl h
    · exact .inr (List.mem_singleton.1 h)
  rcases h with rfl | rfl
  · exact absurd hg (by decide +kernel)
  · exact ⟨rfl, by decide +kernel, fun c h => by cases h⟩

/-! The rasteriser. -/

/-- A state whose partition q has dies 0 and 1, with rasteriser r on die 0. -/
def rasterState (q : Part) (r : Raster) : State :=
  let s := swarm id
  { s with parts := [{ q with dies := [0, 1] }], dies := (s.dies.setIfInBounds 0 { s.die 0 with rast := r }).setIfInBounds 1 (s.die 0) }

/-- A draw of one primitive over a target of 64 by 64 pixels in format RGBA32F. -/
def oneDraw : Draw where
  ord := 4294967295
  stream := 63
  slot := 255
  desc := [1, 0, 0, 0, 0, 0, 1, 0] ++ leBytes 8 0x10400 ++ [64, 0, 64, 0, 6, 0, 15, 0] ++ List.replicate 44 0 ++ [64, 0, 64, 0] ++ List.replicate 56 0
  dies := [0, 1]
  next := []
  pixRole := none
  gone := []

/-- The partition with that draw. -/
def drawPart : Part := { fetchPart with draws := [oneDraw] }

/-- A primitive at the bounds of its layout. -/
def farPrim (sseq : Nat) : Prim :=
  ⟨4294967295, 4294967295, 31, sseq, true, 28, [(-2147483648, 2147483647, 1, 2), (2147483647, -2147483648, 3, 4), (0, 0, 5, 6)], List.replicate 84 7⟩

/-- A rasteriser that expects number 65535 of source 31. -/
def lastSeq : Raster := { Raster.reset with sources := [⟨31, 65535, [], [], (4294967295, 4294967295), [], 0⟩] }

theorem witness_RasterMessages : ∃ s : State, ∃ q, (s.die 0).inReset = false ∧ Says.primFits (farPrim 65535) ∧ Says.primFits (farPrim 0) ∧
    ((s.rast 0).source 31).early = [] ∧ ((s.rast 0).source 31).marks = [] ∧ ((s.rast 0).source 31).nextSeq = 65535 ∧ primOf [] = none ∧
    drawInFlight s 0 = true ∧ (∃ d ∈ s.peers 0, d ≠ 0) ∧ s.part? 0 = some q ∧ drawRunning q = false ∧ q.rastWait = [] ∧ ∃ d ∈ q.dies, d < 24 := by
  simp only [Says.primFits]
  exact ⟨rasterState drawPart lastSeq, { drawPart with dies := [0, 1] }, by decide +kernel⟩

theorem witness_RasterMessages_running : ∃ s : State, ∃ q, (s.die 0).inReset = false ∧ s.part? 0 = some q ∧ drawRunning q = true :=
  ⟨rasterState { drawPart with streams := [(63, course [recOf .running none none none] [] 0 0)] } Raster.reset,
    { drawPart with streams := [(63, course [recOf .running none none none] [] 0 0)], dies := [0, 1] }, by decide +kernel⟩

/-- The record of a primitive that covers one quad. -/
def smallRecord : List Word := [0, 0, 0, 0x3F800000, 0x40000000, 0, 0, 0x3F800000, 0, 0x40000000, 0, 0x3F800000]

/-- A primitive that covers one quad, as setup makes it. -/
def smallPrim : Prim := ⟨4294967295, 0, 0, 0, true, 0, [(0, 0, 0, 0x3F800000), (512, 0, 0, 0x3F800000), (0, 512, 0, 0x3F800000)], []⟩

/-- A rasteriser with that primitive, or a culled one, at the end of its slice; the tile belongs to die o. -/
def setting (w : Option (List Word)) (o : Byte) : Raster :=
  { Raster.reset with setupClk := 1000, slices := [⟨4294967295, 0, 1⟩], emissions := [⟨4294967295, 0, w⟩], owner := Raster.reset.owner.setIfInBounds 0 o }

/-- What the statement about setup asks of a state. -/
abbrev setsUp (s : State) (w : Option (List Word)) : Prop :=
  (s.die 0).inReset = false ∧ s.partOfDie 0 = some 0 ∧ s.draw? 0 4294967295 = some oneDraw ∧ (∀ y ∈ drawsBefore s 0 4294967295, y.dies ≠ []) ∧
    (∀ e ∈ s.timers, e.2 ≠ .primitiveSetup 0) ∧ (s.rast 0).slices = [⟨4294967295, 0, 1⟩] ∧ (s.rast 0).emissions = [⟨4294967295, 0, w⟩] ∧
    (s.rast 0).setupClk ≠ s.clk ∧ oneDraw.gone = [] ∧
    ∃ y ∈ s.peers 0, y ≠ 0

theorem setsUp_of (w : Option (List Word)) (o : Byte) (h : w = none ∨ w = some smallRecord) (g : o = 0 ∨ o = 1) :
    setsUp (rasterState drawPart (setting w o)) w := by
  rcases h with rfl | rfl <;> rcases g with rfl | rfl <;> refine ⟨by decide +kernel, by decide +kernel, by decide +kernel, by decide +kernel, fun e h => ?_,
    by decide +kernel, by decide +kernel, by decide +kernel, rfl, by decide +kernel⟩ <;> cases h

theorem witness_RasterMessages_setup : (∃ s, setsUp s none ∧ setupPrim oneDraw 0 ⟨4294967295, 0, none⟩ = none) ∧
    (∃ s m, setsUp s (some smallRecord) ∧ setupPrim oneDraw 0 ⟨4294967295, 0, some smallRecord⟩ = some m ∧ ownersOf (s.rast 0) oneDraw m = [0] ∧
      (s.rast 0).hasCredit 0 = true) ∧
    ∃ s m, setsUp s (some smallRecord) ∧ setupPrim oneDraw 0 ⟨4294967295, 0, some smallRecord⟩ = some m ∧ ownersOf (s.rast 0) oneDraw m = [1] ∧
      (s.rast 0).hasCredit 1 = true :=
  ⟨⟨_, setsUp_of none 0 (.inl rfl) (.inl rfl), rfl⟩,
    ⟨_, smallPrim, setsUp_of (some smallRecord) 0 (.inr rfl) (.inl rfl), by decide +kernel, by decide +kernel, by decide +kernel⟩,
    ⟨_, smallPrim, setsUp_of (some smallRecord) 1 (.inr rfl) (.inr rfl), by decide +kernel, by decide +kernel, by decide +kernel⟩⟩

/-- A rasteriser whose source x holds that primitive; its own bound is b. -/
def merging (x : Nat) (b : Nat × Nat) : Raster :=
  { Raster.reset with sources := [⟨x, 1, [smallPrim], [], (4294967295, 1), [], 65535⟩], bound := b, lastRelease := 1000 }

/-- What the statement about the merge and the quads asks of a state. -/
abbrev merges (s : State) : Prop :=
  (s.die 0).inReset = false ∧ s.partOfDie 0 = some 0 ∧ (s.rast 0).quads = [] ∧ ∀ d, s.draw? 0 smallPrim.ord = some d → d.gone = []

theorem witness_RasterCourse_merge : (∃ s x, merges s ∧ (s.rast 0).released = [] ∧ leastHead (s.rast 0).sources = some (x, smallPrim) ∧
      (∀ y ∈ s.peers 0, y ≠ x.die → blocks s 0 0 smallPrim.tag y = false) ∧ (s.rast 0).lastRelease ≠ s.clk ∧ x.die = 1) ∧
    (∃ s x, merges s ∧ (s.rast 0).released = [] ∧ leastHead (s.rast 0).sources = some (x, smallPrim) ∧
      (∀ y ∈ s.peers 0, y ≠ x.die → blocks s 0 0 smallPrim.tag y = false) ∧ (s.rast 0).lastRelease ≠ s.clk ∧ x.die = 0) ∧
    ∃ s x, merges s ∧ (s.rast 0).released = [] ∧ leastHead (s.rast 0).sources = some (x, smallPrim) ∧
      ∃ y ∈ s.peers 0, y ≠ x.die ∧ blocks s 0 0 smallPrim.tag y = true :=
  ⟨⟨rasterState drawPart (merging 1 (0, 0)), ⟨1, 1, [smallPrim], [], (4294967295, 1), [], 65535⟩, by decide +kernel⟩,
    ⟨rasterState { drawPart with draws := [{ oneDraw with dies := [0] }] } (merging 0 (0, 0)), ⟨0, 1, [smallPrim], [], (4294967295, 1), [], 65535⟩, by decide +kernel⟩,
    ⟨rasterState drawPart (merging 1 (4294967295, 0)), ⟨1, 1, [smallPrim], [], (4294967295, 1), [], 65535⟩, by decide +kernel⟩⟩

/-- A pixel group with its second wave one quad short of full. -/
def pixelGroup (n : Nat) : Group := { oldGroup with pixel := some ([true, false, true, true], [16, n, 16, 16]) }

/-- A pixel thread of that group, its identity i. -/
def pixelThread (i : Nat) : Thread :=
  { fetchThread true with uid := 100 + i, place := .wave waveCore 0 i, grp := 8192, gang := 8, tid := i, stream := 63, slot := 255, run := .absent, spawner := none,
                          pixel := some (pixelOf false) }

/-- A released primitive on die 0, with that group, its second wave holding n quads, or without one. -/
def quadding (n : Option Nat) : State :=
  { rasterState drawPart { Raster.reset with released := [smallPrim] } with
    gangs := [oldGang .resident]
    groups := (n.map pixelGroup).toList
    threads := [pixelThread 124, pixelThread 127] }

theorem witness_RasterCourse_quads : (∃ s, merges s ∧ (s.rast 0).released = [smallPrim] ∧ s.draw? 0 smallPrim.ord = some oneDraw ∧ oneDraw.flag 0 = false ∧
      openWave s 0 oneDraw 0 = none ∧ quadsOf (s.rast 0) oneDraw 0 smallPrim ≠ []) ∧
    (∃ s, merges s ∧ (s.rast 0).released = [{ smallPrim with verts := [(0, 0, 0, 0), (1, 0, 0, 0), (0, 1, 0, 0)] }] ∧
      s.draw? 0 smallPrim.ord = some oneDraw ∧ openWave s 0 oneDraw 0 = none ∧
      quadsOf (s.rast 0) oneDraw 0 { smallPrim with verts := [(0, 0, 0, 0), (1, 0, 0, 0), (0, 1, 0, 0)] } = []) ∧
    (∃ s z, merges s ∧ (s.rast 0).released = [smallPrim] ∧ s.draw? 0 smallPrim.ord = some oneDraw ∧ quadsOf (s.rast 0) oneDraw 0 smallPrim = [z] ∧
      openWave s 0 oneDraw 0 = some (pixelGroup 15, 1, 15) ∧ s.group? (pixelGroup 15).id = some (pixelGroup 15) ∧
      ∃ t ∈ s.threads, t.grp = (pixelGroup 15).id ∧ t.spawner = none ∧ t.tid / 4 = 16 * 1 + 15) ∧
    ∃ s : State, merges s ∧ ∃ g, s.group? g.id = some g ∧ g.pixel = some ([true, false, true, true], [16, 16, 16, 16]) ∧
      ∃ t ∈ s.threads, t.grp = g.id ∧ t.spawner = none ∧ t.tid / 64 = 1 ∧ t.pixel.isSome = true ∧ t.run = .absent ∧ t.place ≠ .nowhere := by
  obtain ⟨z, e, -⟩ := of_any (o := (quadsOf ((quadding (some 15)).rast 0) oneDraw 0 smallPrim).head?) (p := fun _ => true) (by decide +kernel)
  refine ⟨⟨quadding none, by decide +kernel⟩, ⟨rasterState drawPart { Raster.reset with released := [{ smallPrim with verts := [(0, 0, 0, 0), (1, 0, 0, 0), (0, 1, 0, 0)] }] },
    by decide +kernel⟩, ⟨quadding (some 15), z, by decide +kernel, by decide +kernel, by decide +kernel, ?_, by decide +kernel, by decide +kernel, by decide +kernel⟩,
    ⟨quadding (some 16), by decide +kernel, pixelGroup 16, by decide +kernel⟩⟩
  have h : (quadsOf ((quadding (some 15)).rast 0) oneDraw 0 smallPrim).length = 1 := by decide +kernel
  obtain ⟨y, hy⟩ := List.length_eq_one_iff.1 h
  rw [hy] at e
  simp only [List.head?_cons, Option.some.injEq] at e
  rw [hy, e]

/-- An export of sample 0 of pixel (0, 0). -/
def oneExport (v : Option (BitVec 128 × BitVec 4)) : Export := ⟨4294967295, 0, 0, 0, 12345, 1, [0, 0, 0, 0], v⟩

theorem witness_RasterCourse_exports : (∃ s : State, merges s ∧ (s.rast 0).exports = [oneExport none] ∧ (s.rast 0).expFault = none ∧ s.thread? 12345 = none ∧
      unstarted s 12345 = false) ∧
    ∃ s : State, ∃ k, merges s ∧ (s.rast 0).exports = [oneExport (some (5, 15))] ∧ (s.rast 0).expFault = none ∧ s.draw? 0 (oneExport none).ord = some oneDraw ∧
      (oneExport none).cov &&& 15 = 1 ∧ oneDraw.flag 5 = false ∧ oneDraw.flag 6 = false ∧ oneDraw.samples = 1 ∧ oneDraw.cfmt = 6 ∧ oneDraw.field 22 1 = 15 ∧
      (oneDraw.field 34 1).testBit 6 = false ∧ oneDraw.field 8 8 ≠ 0 ∧
      (targetKey s (exportUnit 0) 0 0 (targetAddr (oneDraw.field 8 8) (oneDraw.field 16 2) 1 16 0 0 0) 16 true).2 = .ok k ∧ k % 16 = 0 ∧ memKey k ∧ memKey (k + 8) ∧
      s.clearOf k 16 := by
  simp only [memKey, State.clearOf]
  exact ⟨⟨rasterState drawPart { Raster.reset with exports := [oneExport none] }, by decide +kernel⟩,
    ⟨rasterState drawPart { Raster.reset with exports := [oneExport (some (5, 15))] }, fetchBase + 0x400, by decide +kernel⟩⟩

/-! Walks, heralds, late replies, and registers written by name. -/

/-- A swarm thread that waits for the walk of a page, which began from that root. -/
def walking (vpage : Nat) (bad : Bool) : State :=
  let s := swarm (fun t => { t with run := .waiting (.walk 0 vpage), fin := ⟨8, [vpage * 65536], 4⟩ })
  { s with dies := s.dies.setIfInBounds 0 { s.die 0 with walks := [⟨0, vpage, (s.die 0).mcb.troot, bad, []⟩] } }

/-- A read that has left the package through IO die 0, of the issuing thread. -/
def peerRead (ph : AccPhase) (pa : Nat) : Flight := ⟨2, 1, pa, .load 4 false, 8, 1, true, false, false, 1, 0, false, ph⟩

/-- What the statement about walks asks of a state. -/
abbrev walksFor (s : State) (vpage : Nat) (w : Walk) : Prop :=
  (∃ q, s.part? 0 = some q) ∧ s.th.live = true ∧ s.th.part = 0 ∧ s.th.run = .waiting (.walk 0 vpage) ∧ (∀ t ∈ s.threads, t.uid ≠ s.th.uid) ∧
    (s.die 0).walks.find? (fun x => x.part == 0 && x.vpage == vpage) = some w

theorem witness_PageWalks : (∃ s w, walksFor s 1 w ∧ w.bad = false ∧ walkHeld s 0 w = none ∧ ∃ pte pages, walkFrom s 0 0 (1 * 65536) w.root = some (pte, pages)) ∧
    (∃ s w, walksFor s 1 w ∧ w.bad = true) ∧
    (∃ s w, walksFor s 8191 w ∧ walkHeld s 0 w = none ∧ walkFrom s 0 0 (8191 * 65536) w.root = none) ∧
    (∃ s : State, ∃ q, s.part? 0 = some q ∧ s.flights = [] ∧ s.unitReads = [] ∧ (∀ t ∈ s.th :: s.threads, t.carried = [] ∧ t.update = none) ∧
      (s.die 0).tlb ≠ [] ∧ 0 ∈ q.dies) ∧
    ∃ s : State, ∃ q, s.part? 0 = some q ∧ ∃ f ∈ s.flights, f.undone = true ∧ s.partOfFlight f = 0 ∧ f.pte ≠ 0 ∧ f.id < q.ibusyFrom := by
  have of_find (vpage : Nat) (bad : Bool) : ∃ q, (walking vpage bad).part? 0 = some q := ⟨fetchPart, rfl⟩
  obtain ⟨v, e, -⟩ := of_any (o := walkFrom (walking 1 false) 0 0 65536 ((walking 1 false).die 0).mcb.troot) (p := fun _ => true) (by decide +kernel)
  exact ⟨⟨walking 1 false, ⟨0, 1, _, false, []⟩, ⟨of_find _ _, by decide +kernel⟩, rfl, by decide +kernel, v.1, v.2, e⟩,
    ⟨walking 1 true, ⟨0, 1, ((walking 1 true).die 0).mcb.troot, true, []⟩, ⟨of_find _ _, by decide +kernel⟩, rfl⟩,
    ⟨walking 8191 false, ⟨0, 8191, ((walking 8191 false).die 0).mcb.troot, false, []⟩, ⟨of_find _ _, by decide +kernel⟩, by decide +kernel⟩,
    ⟨swarm id, fetchPart, by decide +kernel⟩,
    ⟨{ swarm id with parts := [{ fetchPart with ibusyFrom := 3 }], flights := [peerRead .peer (56 * 2 ^ 46)] }, { fetchPart with ibusyFrom := 3 }, by decide +kernel⟩⟩

/-- A swarm thread parked on the translation cause with entry 1023 of die 0. -/
def atEntry : State :=
  let s := swarm (fun t => { t with run := .faulted { trapRec with cause := .translation, entry := some 1023 } })
  { s with dies := s.dies.setIfInBounds 0 { s.die 0 with ftab := [(1023, ⟨1, .translation, [1], false, 0⟩)] } }

/-- A swarm thread with an operation on the herald. -/
def heralded (fence : Bool) (due : Option Nat) : State :=
  { swarm (fun t => { t with run := .waiting (.access 2), fin := ⟨8, [], 8⟩ }) with
    heralds := [⟨2, 1, fence, 0, 0, 0, fetchBase + 0x100, 0, due⟩]
    flights := if fence then [] else [⟨2, 1, fetchBase + 0x100, .rmw 0 false 5 0 true, 8, 1, true, false, false, 1, 0, false, .herald⟩] }

theorem witness_HeraldAndReplay : (∃ s : State, ∃ x f, Table.get (s.die 0).ftab 1023 = some x ∧ x.resolving = false ∧ x.waiters = [s.th.uid] ∧ s.th.uid < 2 ^ 40 ∧
      s.th.live = true ∧ s.th.run = .faulted f ∧ f.entry = some 1023) ∧
    (∃ s : State, ∃ h, s.heralds = [h] ∧ h.due = none ∧ h.window ≤ s.clk / 32 * 32 ∧ h.die < 24) ∧
    (∃ s : State, ∃ h, s.heralds = [h] ∧ h.thread = s.th.uid ∧ s.th.live = true ∧ s.th.run = .waiting (.access h.id) ∧ s.th.fin.adv = [] ∧ h.fence = true) ∧
    ∃ s : State, ∃ h f v n, s.heralds = [h] ∧ h.thread = s.th.uid ∧ s.th.live = true ∧ s.th.run = .waiting (.access h.id) ∧ s.th.fin.adv = [] ∧
      h.fence = false ∧ s.flight? h.id = some f ∧ f.owner = s.th.uid ∧ f.op = .rmw 0 false v n true ∧ homeHeld s (s.flightDie f) f.pa = false ∧
      memKey f.pa ∧ s.clearOf f.pa 4 := by
  simp only [memKey, State.clearOf]
  exact ⟨⟨atEntry, ⟨1, .translation, [1], false, 0⟩, { trapRec with cause := .translation, entry := some 1023 }, by decide +kernel⟩,
    ⟨heralded true none, ⟨2, 1, true, 0, 0, 0, fetchBase + 0x100, 0, none⟩, by decide +kernel⟩,
    ⟨heralded true (some 160), ⟨2, 1, true, 0, 0, 0, fetchBase + 0x100, 0, some 160⟩, by decide +kernel⟩,
    ⟨heralded false (some 160), ⟨2, 1, false, 0, 0, 0, fetchBase + 0x100, 0, some 160⟩,
      ⟨2, 1, fetchBase + 0x100, .rmw 0 false 5 0 true, 8, 1, true, false, false, 1, 0, false, .herald⟩, 5, 0, by decide +kernel⟩⟩

/-- A swarm thread that waits for that access. -/
def expecting (clk : Nat) (f : Flight) : State :=
  { swarm (fun t => { t with run := .waiting (.access 2), fin := ⟨8, [], 4⟩ }) with flights := [f], clk := clk }

/-- What the statement about late replies asks of a state. -/
abbrev expects (s : State) (f : Flight) : Prop :=
  s.flights = [f] ∧ f.owner = s.th.uid ∧ s.th.live = true ∧ f.blocks = true ∧ f.op = .load 4 false ∧ f.nreg = 1 ∧
    s.th.run = .waiting (.access f.id) ∧ s.th.fin.adv = []

theorem witness_LateReplies : (∃ s f, expects s f ∧ f.phase = .peer ∧ ∃ q, s.part? s.th.part = some q ∧ s.homeUp q = true ∧ q.fqTail - q.fqHead ≠ 4096) ∧
    ∀ k, k = 50000 ∨ k = 50001 → ∃ s f, expects s f ∧ f.phase = .held (50001 - k) ∧ homeSocket f.pa = 1 ∧ s.heldMsgs = [] ∧ s.clk = 50000 ∧
      ∃ q, s.part? s.th.part = some q ∧ s.homeUp q = true ∧ q.fqTail - q.fqHead ≠ 4096 := by
  refine ⟨⟨expecting 9 (peerRead .peer (56 * 2 ^ 46)), peerRead .peer (56 * 2 ^ 46), by decide +kernel⟩, fun k h => ?_⟩
  rcases h with rfl | rfl
  · exact ⟨expecting 50000 (peerRead (.held 1) (2 ^ 46 + 0x100)), peerRead (.held 1) (2 ^ 46 + 0x100), by decide +kernel⟩
  · exact ⟨expecting 50000 (peerRead (.held 0) (2 ^ 46 + 0x100)), peerRead (.held 0) (2 ^ 46 + 0x100), by decide +kernel⟩

/-- A state whose partition has a busy invalidation or not. -/
def invalidating (b : Bool) : State := { swarm id with parts := [{ fetchPart with ibusy := b }] }

theorem witness_ControlWrites : (∃ s : State, openEvent (s.evCounter 23 63).sel = false) ∧
    (∃ s : State, ∃ q, s.partOfDie 0 = some 0 ∧ s.part? 0 = some q ∧ q.ibusy = false ∧ 0 ∈ q.dies) ∧
    (∃ s : State, ∃ q, s.partOfDie 0 = some 0 ∧ s.part? 0 = some q ∧ q.ibusy = true) ∧
    (∃ s : State, ∃ v : DWord, s.partOfDie 0 = some 0 ∧ s.groups = [] ∧ 0 < bits v.toNat 15 0 ∧ (32 + 0) * 2 ^ 46 ≤ bits v.toNat 51 16 * 65536 ∧
      (bits v.toNat 51 16 + bits v.toNat 15 0) * 65536 ≤ (32 + 0) * 2 ^ 46 + Config.stackCapacity ∧
      (32 + 0) * 2 ^ 46 + Config.stackCapacity < (bits v.toNat 51 16 + bits v.toNat 15 0 + 1) * 65536) ∧
    (∃ s : State, ∃ v : DWord, ∃ q, s.part? 0 = some q ∧ (q.stream 63).en = false ∧ bits v.toNat 26 22 ∈ q.dies ∧ v.getLsbD 0 = true ∧ v.getLsbD 1 = true) ∧
    (∃ s : State, s.spanUp 15 = true) ∧ (∃ s : State, s.spanUp 15 = false) ∧
    (∃ s : State, ∃ e : BitVec 128, bits s.apert[63].toNat 39 35 = 31 ∧ bits (e &&& 0xFFFFFFFFFFFFF000000000F80000010F).toNat 39 35 = 31) ∧
    (∃ s : State, bits s.apert[63].toNat 39 35 ≠ 31) ∧
    (∃ s : State, ∃ e : BitVec 128, bits s.spanApert[15].toNat 39 35 = 31 ∧ e &&& ~~~(3 : BitVec 128) = s.spanApert[15] &&& ~~~(3 : BitVec 128)) ∧
    ∃ s : State, bits s.spanApert[15].toNat 39 35 ≠ 31 :=
  ⟨⟨swarm id, by decide +kernel⟩, ⟨invalidating false, fetchPart, by decide +kernel⟩, ⟨invalidating true, { fetchPart with ibusy := true }, by decide +kernel⟩,
    ⟨swarm id, BitVec.ofNat 64 (32 * 2 ^ 46 + (976562 - 65535) * 65536 + 65535), by decide +kernel⟩,
    ⟨swarm id, 3, fetchPart, by decide +kernel⟩,
    ⟨{ swarm id with links := [(335, { Link.reset with up := true })] }, by decide +kernel⟩, ⟨{ swarm id with links := [(335, { Link.reset with up := false })] }, by decide +kernel⟩,
    ⟨{ swarm id with apert := (swarm id).apert.set 63 (BitVec.ofNat 128 (31 * 2 ^ 35)) }, BitVec.ofNat 128 (31 * 2 ^ 35 + 15), by decide +kernel⟩,
    ⟨swarm id, by decide +kernel⟩,
    ⟨{ swarm id with spanApert := (swarm id).spanApert.set 15 (BitVec.ofNat 128 (31 * 2 ^ 35)) }, BitVec.ofNat 128 (31 * 2 ^ 35 + 3), by decide +kernel⟩,
    ⟨swarm id, by decide +kernel⟩⟩

/-! Resets, bring-up, partition commands, and the service die. -/

/-- The state after reset at a phase of bring-up. -/
def bringing (n : Nat) : State := { State.reset with phase := n, trip := false, clockHeld := false }

theorem witness_ResetsAndBringUp : (∃ s : State, s.clockHeld = true ∧ s.faultPin = false) ∧ (∃ s : State, s.clockHeld = true ∧ s.faultPin = true) ∧
    (∃ s : State, s.clockHeld = false) ∧
    (∃ s : State, ∃ q, s.parts = [q] ∧ s.part? q.id = some q ∧ s.homeUp q = true ∧ q.fqTail - q.fqHead ≠ 4096) ∧
    (∀ k, k ≤ 6 → ∃ s : State, s.trip = false ∧ s.clockHeld = false ∧ s.phase = k) ∧ (firmwareLoads = true ∨ firmwareLoads = false) ∧
    (∃ s : State, ∃ h : 3 < 4, s.trip = false ∧ s.clockHeld = false ∧ s.phase = 5 ∧ (s.link (56 + 3 / 2)).failed = true ∧ s.ports[3].up = false) ∧
    ∃ s : State, 7 ≤ s.phase := by
  refine ⟨⟨{ swarm id with clockHeld := true, faultPin := false }, by decide +kernel⟩, ⟨{ swarm id with clockHeld := true, faultPin := true }, by decide +kernel⟩,
    ⟨swarm id, by decide +kernel⟩, ⟨swarm id, fetchPart, by decide +kernel⟩, fun k h => ⟨bringing k, rfl, rfl, rfl⟩, ?_,
    ⟨{ bringing 5 with links := [(57, { Link.reset with failed := true })] }, by decide, by decide +kernel⟩, ⟨bringing 7, by decide +kernel⟩⟩
  cases firmwareLoads <;> simp

/-- A state with die 0 changed. -/
def dieIs (f : Die → Die) : State := let s := swarm id; { s with dies := s.dies.setIfInBounds 0 (f (s.die 0)) }

/-- A partition with measurement register 15. -/
def measuredPart : Part := { fetchPart with measReg := some 15, fqSeq := 9, wdlim := 3 }

theorem witness_DieResets : (∃ s : State, (s.die 0).present = true ∧ (s.die 0).lost = false ∧ (s.partOfDie 0).isSome = true ∧
      (∃ c k, s.th.place = .swarm c k ∧ coreDie c = 0) ∧ s.th.hold = .running ∧ s.th.live = true) ∧
    (∃ s : State, (s.die 0).present = true ∧ (s.die 0).lost = false ∧ s.partOfDie 0 = none) ∧
    (∃ s : State, (s.die 0).present = false) ∧ (∃ s : State, (s.die 0).present = true ∧ (s.die 0).lost = true ∧ s.linkGood 0 = true) ∧
    (∃ s : State, (s.die 0).present = true ∧ (s.die 0).lost = true ∧ s.linkGood 0 = false) ∧
    (∃ s : State, (s.die 0).inReset = true ∧ s.linkGood 0 = true ∧ (s.die 0).present = true) ∧
    (∃ s : State, (s.die 0).inReset = false) ∧
    (∃ s : State, ∃ q n x r, s.part? 0 = some q ∧ q.streams = [(n, x)] ∧ x.recs = [r] ∧ r.state = .waiting ∧ r.status = none) ∧
    (∃ s : State, ∃ q, s.part? 0 = some q ∧ s.feWaits = [] ∧ q.measReg = some 15 ∧ (∃ e ∈ q.dies, e < 24 ∧ (s.die e).present = true ∧ (s.die e).lost = false) ∧
      s.th.part = 0 ∧ s.th.live = true) ∧
    (∃ s : State, (s.die 0).clearing = true) ∧ ∃ s : State, (s.die 0).clearing = false :=
  ⟨⟨swarm id, by decide +kernel, by decide +kernel, by decide +kernel, ⟨0, 0, by decide +kernel⟩, by decide +kernel, by decide +kernel⟩,
    ⟨{ swarm id with parts := [] }, by decide +kernel⟩, ⟨dieIs (fun d => { d with present := false }), by decide +kernel⟩,
    ⟨dieIs (fun d => { d with lost := true }), by decide +kernel⟩,
    ⟨{ dieIs (fun d => { d with lost := true }) with links := [(32, { Link.reset with failed := true })] }, by decide +kernel⟩,
    ⟨dieIs (fun d => { d with inReset := true }), by decide +kernel⟩, ⟨swarm id, by decide +kernel⟩,
    ⟨gridState 1 (gridRec 0 .waiting 0 []) 5 [] [], gridPart 1 (gridRec 0 .waiting 0 []), 63, gridStream 1 (gridRec 0 .waiting 0 []), gridRec 0 .waiting 0 [], by decide +kernel⟩,
    ⟨{ swarm id with parts := [measuredPart] }, measuredPart, by decide +kernel⟩, ⟨dieIs (fun d => { d with clearing := true }), by decide +kernel⟩,
    ⟨swarm id, by decide +kernel⟩⟩

/-- Partition 23 of these dies, running or not, beside partition 1 with a floor on link 64; the service die is up. -/
def commanding (ds : List Nat) (r : Bool) : State :=
  let s := dieIs (fun d => { d with inReset := true })
  { s with parts := [{ fetchPart with id := 23, dies := ds, running := r }, Part.fresh 1], shares := [(64, [(1, 10, 20)])], sdUp := true }

/-- That partition. -/
def commandPart (ds : List Nat) (r : Bool) : Part := { fetchPart with id := 23, dies := ds, running := r }

theorem witness_PartitionCommands : (∀ r, ∃ s : State, ∃ q, s.sdUp = true ∧ 7 ≤ s.phase ∧ s.part? 23 = some q ∧ (s.die 0).present = true ∧ (s.die 0).lost = false ∧
      (s.die 0).inReset = true ∧ (s.die 0).clearing = false ∧ s.partOfDie 0 = none ∧ q.running = r) ∧
    (∀ r, ∃ s : State, ∃ q, s.sdUp = true ∧ 7 ≤ s.phase ∧ s.part? 23 = some q ∧ s.partOfDie 0 = some 23 ∧ (s.die 0).inReset = true ∧ q.running = r) ∧
    (∃ s : State, ∃ q, s.sdUp = true ∧ 7 ≤ s.phase ∧ s.part? 23 = some q ∧ q.running = false ∧ isShared 64 = true ∧ isShared 63 = false ∧
      (((Table.at s.shares 64 []).filter (fun e => e.1 != 23)).map (fun e => e.2.1)).sum + 53 = 63 ∧
      (((Table.at s.shares 64 []).filter (fun e => e.1 != 23)).map (fun e => e.2.1)).sum + 54 = 64) ∧
    (∀ b, ∃ s : State, ∃ q, s.sdUp = true ∧ 7 ≤ s.phase ∧ s.part? 23 = some q ∧ (s.span 15).part = 23 ∧ (s.link (320 + 15)).up = b) ∧
    (∃ s : State, ∃ q, s.sdUp = true ∧ 7 ≤ s.phase ∧ s.part? 23 = some q ∧ (s.span 15).part ≠ 23) ∧
    ∃ s : State, ∃ q, ∃ h : 3 < 4, s.sdUp = true ∧ 7 ≤ s.phase ∧ s.part? 23 = some q ∧ s.ports[3].root = false := by
  refine ⟨fun r => ⟨commanding [] r, commandPart [] r, ?_⟩, fun r => ⟨commanding [0] r, commandPart [0] r, ?_⟩,
    ⟨commanding [] false, commandPart [] false, by decide +kernel⟩,
    fun b => ⟨{ commanding [] false with spans := (swarm id).spans.setIfInBounds 15 { Span.reset with part := 23 }, links := [(335, { Link.reset with up := b })] },
      commandPart [] false, ?_⟩,
    ⟨commanding [] false, commandPart [] false, by decide +kernel⟩, ⟨commanding [] false, commandPart [] false, by decide, by decide +kernel⟩⟩
  · cases r <;> decide +kernel
  · cases r <;> decide +kernel
  · cases b <;> decide +kernel

/-- A state whose mapped page holds, at address 0x10400, a code object of one swarm role of 24 registers. -/
def objectState (f : State → State) : State :=
  let s := swarm (fun t => { t with run := .absent, place := .nowhere })
  let m := writeBytes s.mem (fetchBase + 0x400) 16 (BitVec.ofNat 128 (0x54484B43 + 3 * 2 ^ 32 + 1 * 2 ^ 40 + 0x100 * 2 ^ 64 + 2 * 2 ^ 96))
  let m := writeBytes m (fetchBase + 0x410) 16 (BitVec.ofNat 128 64)
  f { s with mem := writeBytes m (fetchBase + 0x440) 16 (BitVec.ofNat 128 24), sdUp := true }

theorem okPair_of {α β ε : Type} {x : α × Except ε β} {p : β → Bool} (h : (match x.2 with | .ok o => p o | .error _ => false) = true) :
    ∃ z o, x = (z, .ok o) ∧ p o = true := by
  obtain ⟨z, e | o⟩ := x
  · cases h
  · exact ⟨z, o, rfl, h⟩

theorem witness_ServiceDieActs : (∃ s : State, s.sdUp = true) ∧ (∃ s : State, s.sdUp = false) ∧
    (∃ s : State, ∃ q z o m e, s.sdUp = true ∧ s.part? 0 = some q ∧ q.dies = [0] ∧ (s.die 0).present = true ∧ (s.die 0).inReset = false ∧ (s.die 0).lost = false ∧
      s.anyThread (fun t => t.part == 0 && t.isSuper) = false ∧ readSupervisor s (placerUnit 0 128) 0 0 0x10400 = (z, .ok (o, m)) ∧ o.roles = [e] ∧
      e.wave = false ∧ allocOf e.nreg ≤ 2048 ∧ (occupied s).regsOf (coreNo 0 15 0) = []) ∧
    (∃ s : State, s.part? 5 = none) ∧ (∃ s : State, ∀ x ∈ s.parts, x.running = false) ∧
    (∃ s : State, ∃ q, s.part? 0 = some q ∧ q.running = true) ∧
    (∃ s : State, ∃ h : 3 < 4, s.ports[3].up = true) ∧ (∃ s : State, ∃ h : 3 < 4, s.ports[3].up = false) ∧
    ∃ s : State, 6 ≤ s.phase ∧ (s.link (56 + 3 / 2)).failed = false := by
  refine ⟨⟨{ swarm id with sdUp := true }, rfl⟩, ⟨{ swarm id with sdUp := false }, rfl⟩, ?_, ⟨swarm id, by decide +kernel⟩,
    ⟨{ swarm id with parts := [Part.fresh 0] }, by decide +kernel⟩, ⟨swarm id, fetchPart, by decide +kernel⟩,
    ⟨withStream Stream.reset, by decide, by decide +kernel⟩, ⟨swarm id, by decide, by decide +kernel⟩, ⟨swarm id, by decide +kernel⟩⟩
  obtain ⟨z, ⟨o, m⟩, hp, hr⟩ := okPair_of (x := readSupervisor (objectState id) (placerUnit 0 128) 0 0 0x10400)
    (p := fun o => match o.1.roles with | [e] => !e.wave && decide (allocOf e.nreg ≤ 2048) | _ => false) (by decide +kernel)
  have base : (objectState id).sdUp = true ∧ (objectState id).part? 0 = some fetchPart ∧ fetchPart.dies = [0] ∧ ((objectState id).die 0).present = true ∧
      ((objectState id).die 0).inReset = false ∧ ((objectState id).die 0).lost = false ∧
      (objectState id).anyThread (fun t => t.part == 0 && t.isSuper) = false ∧ (occupied (objectState id)).regsOf (coreNo 0 15 0) = [] := by decide +kernel
  obtain ⟨a, b, c, d, e, f, g, k⟩ := base
  match r : o.roles, hr with
  | [x], hr =>
    simp only [Bool.and_eq_true, Bool.not_eq_true', decide_eq_true_eq] at hr
    exact ⟨objectState id, fetchPart, z, o, m, x, a, b, c, d, e, f, g, hp, r, hr.1, hr.2, k⟩

/-! Links, span keys, requests from outside, and background work. -/

/-- A state with link n as given. -/
def linkIs (n : Nat) (l : Link) : State := { swarm id with links := [(n, l)] }

/-- A data flit in order for a die's link: number 4095, channel 1, one flit, its payload zero. -/
def goodFlit : List Byte := [255, 31, 0, 128, 255] ++ List.replicate 107 0 ++ [21, 225, 193, 80, 98, 112, 187, 189, 11, 201, 131, 148, 97, 112, 152, 178]

theorem goodFlit_crc : crc32c (goodFlit.take 112) = BitVec.ofNat 32 (sliceNat goodFlit 112 4) := by
  rw [show goodFlit.take 112 = [255, 31, 0, 128, 255] ++ (List.replicate 27 0 ++ (List.replicate 27 0 ++ (List.replicate 27 0 ++ List.replicate 26 0))) by
    decide +kernel, crc32c, List.foldl_append, List.foldl_append, List.foldl_append, List.foldl_append,
    show ([255, 31, 0, 128, 255] : List Byte).foldl crcByte 0xFFFFFFFF#32 = 1249584336#32 by decide +kernel,
    show (List.replicate 27 0).foldl crcByte 1249584336#32 = 2252522496#32 by decide +kernel,
    show (List.replicate 27 0).foldl crcByte 2252522496#32 = 819056923#32 by decide +kernel,
    show (List.replicate 27 0).foldl crcByte 819056923#32 = 1991040904#32 by decide +kernel]
  decide +kernel

/-- A replay entry sent at clk 0. -/
def unacked : Replay := ⟨5, List.replicate 112 3, false, 0, 0, false⟩

theorem witness_LinkEvents : (∃ s : State, (s.link 319).up = true ∧ (s.link 319).training = false) ∧ (∃ s : State, (s.link 319).up = false) ∧
    (∃ s : State, (s.link 319).up = true ∧ (s.link 319).training = true ∧ (s.link 319).replay = [] ∧ (s.link 319).queue = []) ∧
    (∃ s : State, (s.link 319).failed = false) ∧ (∃ s : State, (s.link 319).failed = true) ∧
    (∃ s : State, (s.link 319).training = false ∧ ∀ m, farEnd 319 = some m → (s.link m).training = false) ∧
    (∃ s : State, (s.link 319).repairing = [] ∧ Table.at (s.link 319).lanes 47 0 + 2 = 4 ∧ Table.at (s.link 319).lanes 47 0 + 3 = 5 ∧
      (s.link 319).retired.length = 24 ∧ 47 ∉ (s.link 319).retired ∧ 0 ∈ (s.link 319).retired) ∧
    (∃ s : State, (s.link 319).repairing ≠ [] ∧ 47 ∉ (s.link 319).retired) ∧
    (∃ s : State, 4 ≤ (s.span 15).lanes ∧ (s.link (320 + 15)).up = false ∧ (s.link (56 + 15 / 8)).failed = false) ∧
    (∃ s : State, ∃ r, (s.link 319).replay.find? (fun x => x.seq == 5) = some r ∧ (s.link 319).up = true ∧ (s.link 319).training = false ∧
      r.at_ + Config.roundTrip 319 + 32 ≤ s.clk ∧ r.bytes.length = 112) ∧
    (∃ s : State, ∃ r, (s.link 319).replay.find? (fun x => x.seq == 5) = some r ∧ s.clk < r.at_ + Config.roundTrip 319 + 32) ∧
    (∃ s : State, ∃ f : List Byte, spanOf 319 = none ∧ (s.link 319).up = true ∧ (s.link 319).training = false ∧ f.length = 128 ∧ rsDecode (f.map BitVec.toNat) = none) ∧
    ∃ s : State, ∃ f : List Byte, spanOf 0 = none ∧ (s.link 0).up = true ∧ (s.link 0).training = false ∧ f.length = 128 ∧ rsDecode (f.map BitVec.toNat) = some (f.map BitVec.toNat) ∧
      crc32c (f.take 112) = BitVec.ofNat 32 (sliceNat f 112 4) ∧ flitHeaderOk s 0 (sliceNat f 0 8) = true ∧ hdrKind (sliceNat f 0 8) = 0 ∧
      (sliceNat f 0 8).testBit 52 = false ∧ hdrSeq (sliceNat f 0 8) = (s.link 0).rxBase % 4096 ∧ hdrFidx (sliceNat f 0 8) = 0 ∧ hdrFlast (sliceNat f 0 8) = 0 ∧
      (s.link 0).rxMap = [] ∧ (s.link 0).rxBuf = [] := by
  refine ⟨⟨linkIs 319 { Link.reset with up := true }, by decide +kernel⟩, ⟨linkIs 319 Link.reset, by decide +kernel⟩,
    ⟨linkIs 319 { Link.reset with up := true, training := true }, by decide +kernel⟩, ⟨linkIs 319 Link.reset, by decide +kernel⟩,
    ⟨linkIs 319 { Link.reset with failed := true }, by decide +kernel⟩, ⟨linkIs 319 Link.reset, by decide +kernel⟩,
    ⟨linkIs 319 { Link.reset with lanes := [(47, 2)], retired := List.range 24 }, by decide +kernel⟩,
    ⟨linkIs 319 { Link.reset with repairing := [3] }, by decide +kernel⟩,
    ⟨linkIs 319 Link.reset, by decide +kernel⟩,
    ⟨{ linkIs 319 { Link.reset with up := true, replay := [unacked] } with clk := Config.roundTrip 319 + 32 }, unacked, rfl, rfl, rfl, ?_, rfl⟩,
    ⟨linkIs 319 { Link.reset with up := true, replay := [unacked] }, unacked, rfl, ?_⟩,
    ⟨linkIs 319 { Link.reset with up := true }, [1, 2, 3, 4, 5, 6, 7, 8, 9] ++ List.replicate 119 0, by decide +kernel, by decide +kernel, by decide +kernel, by decide +kernel, by decide +kernel⟩,
    ⟨linkIs 0 { Link.reset with up := true, rxBase := 8191 }, goodFlit, by decide +kernel, by decide +kernel, by decide +kernel,
      by decide +kernel, by decide +kernel, goodFlit_crc, by decide +kernel⟩⟩
  · show 0 + Config.roundTrip 319 + 32 ≤ Config.roundTrip 319 + 32
    omega
  · show (swarm id).clk < 0 + Config.roundTrip 319 + 32
    have : (swarm id).clk = 0 := by decide +kernel
    omega

/-- A live key slot. -/
def liveSlot (used : Nat) (st : SlotState) : KeySlot := ⟨1, 2, used, some 0, st⟩

/-- A state with span port 15, up, in this condition. -/
def spanIs (x : Span) (af : Table Nat) : State :=
  { swarm id with spans := (swarm id).spans.setIfInBounds 15 x, links := [(335, { Link.reset with up := true, authFail := af })], sdUp := true }

/-- A span whose current transmit slot is 1, with these slots 0. -/
def spanKeys (tx rx : KeySlot) (used : Nat) (acked : Bool) : Span :=
  { Span.reset with tx := Vector.ofFn (fun i => if i.val = 0 then tx else liveSlot used .live)
                    rx := Vector.ofFn (fun i => if i.val = 0 then rx else liveSlot used .live)
                    cur := 1, acked := acked }

/-- What the statement about span keys asks of a state. -/
abbrev sealing (s : State) : Prop :=
  (s.link (320 + 15)).queue = [] ∧ s.sdUp = true ∧ (s.link (320 + 15)).up = true ∧ (s.span 15).cur < 2

theorem witness_SealingKeys : (∃ s, sealing s ∧ ∀ i, i < 2 → (slotAt (s.span 15).tx i).state = .empty ∧ (slotAt (s.span 15).rx i).state = .empty) ∧
    (∃ s, sealing s ∧ (slotAt (s.span 15).tx (s.span 15).cur).state = .live ∧ emptyKeySlot (s.span 15).rx = some 0 ∧ emptyKeySlot (s.span 15).tx = some 0) ∧
    (∃ s, sealing s ∧ (slotAt (s.span 15).tx (s.span 15).cur).state = .live ∧ emptyKeySlot (s.span 15).tx = none ∧
      (slotAt (s.span 15).tx (s.span 15).cur).used = 2 ^ 36 ∧ mayRetire s 15 = true) ∧
    (∃ s, sealing s ∧ (slotAt (s.span 15).tx (s.span 15).cur).state = .live ∧ emptyKeySlot (s.span 15).rx = none ∧
      (slotAt (s.span 15).tx (s.span 15).cur).used = 2 ^ 36 - 1 ∧ mayRetire s 15 = false) ∧
    (∃ s, sealing s ∧ Table.at (s.link (320 + 15)).authFail 4095 0 = 4) ∧ ∃ s, sealing s ∧ Table.at (s.link (320 + 15)).authFail 4095 0 = 3 :=
  ⟨⟨spanIs Span.reset [], by decide +kernel⟩, ⟨spanIs (spanKeys KeySlot.reset KeySlot.reset 9 false) [], by decide +kernel⟩,
    ⟨spanIs (spanKeys (liveSlot 9 .retiring) KeySlot.reset (2 ^ 36) true) [], by decide +kernel⟩,
    ⟨spanIs (spanKeys (liveSlot 9 .retiring) (liveSlot 9 .live) (2 ^ 36 - 1) false) [], by decide +kernel⟩,
    ⟨spanIs (spanKeys KeySlot.reset KeySlot.reset 9 false) [(4095, 4)], by decide +kernel⟩,
    ⟨spanIs (spanKeys KeySlot.reset KeySlot.reset 9 false) [(4095, 3)], by decide +kernel⟩⟩

/-- The last word of the stack of die 0. -/
def lastWord : Nat := 32 * 2 ^ 46 + Config.stackCapacity - 4

theorem witness_OutsideAccesses : (∃ s : State, s.clearOf lastWord 4 ∧ memKey lastWord ∧ lastWord % 4 = 0 ∧ bar4 s 0 (Config.stackCapacity - 4) = some lastWord ∧
      bar4 s 0 (Config.stackCapacity - 4 + 3) = some (lastWord + 3) ∧ homeHeld s (56 + 3 / 2) lastWord = false ∧ homeHeld s (56 + 3 / 2) (lastWord + 3) = false ∧
      hostReaches s 0 3 = true ∧ s.portHeld 3 = none ∧ s.deferred ≠ [] ∧ (∀ x ∈ s.deferred, portKey 3 ∉ x.1) ∧ (s.port 3).root = false ∧ s.portOpen 3 = true ∧
      managementKey s 4 (Config.stackCapacity - 4) = some lastWord ∧ managementKey s 4 (Config.stackCapacity - 4 + 3) = some (lastWord + 3)) ∧
    (∃ s : State, hostReaches s 0 3 = false ∧ s.clearOf lastWord 4) ∧ (∃ s : State, (s.port 3).root = true ∧ s.clearOf lastWord 4) ∧
    (∃ s : State, s.portOpen 3 = false ∧ s.clearOf lastWord 4) ∧
    (∃ s : State, s.clearOf lastWord 4 ∧ bar4 s 0 (Config.stackCapacity - 4) = some lastWord ∧ homeHeld s (56 + 3 / 2) lastWord = true ∧
      hostReaches s 0 3 = true ∧ s.portHeld 3 = none) ∧
    (∃ s : State, ∃ q, s.clearOf lastWord 4 ∧ (s.port 3).root = true ∧ s.portOpen 3 = true ∧ (∀ x ∈ s.deferred, portKey 3 ∉ x.1) ∧ (s.port 3).parts = [0] ∧ s.part? 0 = some q ∧
      q.running = true ∧ q.id = 0 ∧ s.portHeld 3 = none ∧ isStack lastWord = true ∧ lastWord < 2 ^ 52 ∧ upstreamKey s 0 lastWord = some lastWord ∧
      upstreamKey s 0 (lastWord + 3) = some (lastWord + 3) ∧ upstreamKey s 0 (lastWord / 8 * 8 + 4) = some (lastWord / 8 * 8 + 4) ∧
      homeHeld s (56 + 3 / 2) lastWord = false ∧ homeHeld s (56 + 3 / 2) (lastWord + 3) = false) ∧
    ∃ s : State, s.clearOf lastWord 4 ∧ s.spanUp 15 = true ∧ (s.span 15).part = 0 ∧ (s.span 15).peerPart = 0 ∧ bar4 s 0 (Config.stackCapacity - 4) = some lastWord ∧
      bar4 s 0 (Config.stackCapacity - 4 + 3) = some (lastWord + 3) ∧ homeHeld s (56 + 15 / 8) lastWord = false := by
  simp only [memKey, State.clearOf]
  exact ⟨⟨{ withStream Stream.reset with deferred := [([5], .budgetPeriod)] }, by decide +kernel⟩, ⟨swarm id, by decide +kernel⟩,
    ⟨{ swarm id with ports := (swarm id).ports.setIfInBounds 3 ⟨true, true, [0], [], false⟩ }, by decide +kernel⟩, ⟨swarm id, by decide +kernel⟩,
    ⟨{ withStream Stream.reset with dies := (swarm id).dies.setIfInBounds 0 { (swarm id).die 0 with inReset := true } }, by decide +kernel⟩,
    ⟨{ swarm id with ports := (swarm id).ports.setIfInBounds 3 ⟨true, true, [0], [], false⟩ }, fetchPart, by decide +kernel⟩,
    ⟨spanIs Span.reset [], by decide +kernel⟩⟩

/-- A state with this much of a core's or a channel's budget spent. -/
def spent (a n : Nat) : State := { swarm id with budget := [(a, n)] }

theorem witness_BackgroundWork : (∃ s : State, Table.at s.budget (2 ^ 22 + 0) 0 = 9 ∧ s.deferred = []) ∧ (∃ s : State, Table.at s.budget (2 ^ 22 + 0) 0 = 10) ∧
    (∀ n, n = 99 ∨ n = 100 → ∃ s : State, Table.at s.budget (scrubKey fetchBase) 0 = n ∧ s.deferred = []) ∧
    (∃ s : State, Table.at s.budget (2 ^ 22 + 0) 0 = 0 ∧ Table.at s.budget (scrubKey fetchBase) 0 = 0 ∧
      (∃ x ∈ s.deferred, 2 ^ 22 + 0 ∈ x.1) ∧ ∃ x ∈ s.deferred, scrubKey fetchBase ∈ x.1) ∧ (∃ s : State, ∀ x ∈ s.links, x.2.queue = []) ∧
    (∃ s : State, ∃ q, (keyDie fetchBase).bind s.partOfDie = some 0 ∧ s.part? 0 = some q ∧ s.homeUp q = true ∧ q.fqTail - q.fqHead ≠ 4096) ∧
    (∃ s : State, ∃ q, s.partOfDie (coreDie 0) = some 0 ∧ (s.core 0).movers = [] ∧ s.part? 0 = some q ∧ s.homeUp q = true ∧ q.fqTail - q.fqHead ≠ 4096) ∧
    ∃ s : State, s.th.live = true := by
  refine ⟨⟨spent (2 ^ 22) 9, by decide +kernel⟩, ⟨spent (2 ^ 22) 10, by decide +kernel⟩, fun n h => ?_,
    ⟨{ swarm id with deferred := [([2 ^ 22, scrubKey fetchBase], .budgetPeriod)] }, by decide +kernel⟩, ⟨swarm id, by decide +kernel⟩, ⟨swarm id, fetchPart, by decide +kernel⟩,
    ⟨swarm id, fetchPart, by decide +kernel⟩, ⟨swarm id, by decide +kernel⟩⟩
  rcases h with rfl | rfl
  · exact ⟨spent (scrubKey fetchBase) 99, by decide +kernel⟩
  · exact ⟨spent (scrubKey fetchBase) 100, by decide +kernel⟩

/-! The whole machine. -/

/-- A parcel stands at a PC, as a check that computes. -/
def stands (s : State) (t : Thread) (pc : Nat) (p : BitVec 16) : Bool :=
  decide (pc < t.bound) && (match checkAddr s (agentOf t 0) (BitVec.ofNat 64 (t.codeVA + 2 * pc)) 2 needX false with
    | .ok l => p == memHalf s.mem l.key
    | _ => false)

theorem parcel_of {s : State} {t : Thread} {pc : Nat} {p : BitVec 16} (h : stands s t pc p = true) : Says.parcel s t pc p := by
  simp only [stands, Bool.and_eq_true, decide_eq_true_eq] at h
  refine ⟨h.1, ?_⟩
  have h2 := h.2
  split at h2
  · next l e => exact ⟨l, e, by simpa using h2⟩
  · simp at h2

theorem turn_of {s : State} {p : Nat → State → Bool} (h : (match turn s with | .thread u z => p u z | _ => false) = true) :
    ∃ u z, turn s = .thread u z ∧ p u z = true := by
  split at h
  · next u z e => exact ⟨u, z, e, h⟩
  · simp at h

/-- A thread whose code begins with this word of nbits. -/
def coded (nbits w : Nat) (f : Thread → Thread) : State := let s := State.reset.withFetchWord nbits w; { s with th := f s.th }

/-- The state at which a turn's thread issues. -/
abbrev settled (z : State) (u : Nat) : State := (bringUp z u).put ((bringUp z u).th.settleCur (bringUp z u).clk)

/-- What the statement about steps asks of a thread before its parcels are read. -/
def issuing (t : Thread) : Bool :=
  (t.inH || t.rx || (t.pend.getLsbD 2 == false && t.pend.getLsbD 3 == false)) && !t.isCuique && Ver.ofByte t.version == .v3

/-- The same as the statement has it. -/
abbrev issues (t : Thread) : Prop :=
  (t.inH = true ∨ t.rx = true ∨ (t.pend.getLsbD 2 = false ∧ t.pend.getLsbD 3 = false)) ∧ t.isCuique = false

theorem issues_of {t : Thread} (h : issuing t = true) : issues t ∧ Ver.ofByte t.version = .v3 := by
  simp only [issuing, Bool.and_eq_true, Bool.or_eq_true, beq_iff_eq, Bool.not_eq_true'] at h
  refine ⟨⟨?_, h.1.2⟩, h.2⟩
  rcases h.1.1 with (a | b) | c
  · exact .inl a
  · exact .inr (.inl b)
  · exact .inr (.inr c)

theorem witness_StepRunsDecoded_short : ∃ s : State, ∃ u z, turn s = .thread u z ∧ issues (settled z u).th ∧
    ∃ p i, Says.parcel (settled z u) (settled z u).th (settled z u).th.at_ p ∧ decode (Ver.ofByte (settled z u).th.version) [p] = some (i, 1) := by
  obtain ⟨u, z, e, h⟩ := turn_of (s := coded 16 0x22 id) (p := fun u z => issuing (settled z u).th && stands (settled z u) (settled z u).th (settled z u).th.at_ 0x22)
    (by decide +kernel)
  simp only [Bool.and_eq_true] at h
  exact ⟨_, u, z, e, (issues_of h.1).1, 0x22, .addS 1 0, parcel_of h.2, by rw [(issues_of h.1).2]; decide +kernel⟩

theorem witness_StepRunsDecoded_long : ∃ s : State, ∃ u z, turn s = .thread u z ∧ issues (settled z u).th ∧
    ∃ p q i, Says.parcel (settled z u) (settled z u).th (settled z u).th.at_ p ∧ Says.parcel (settled z u) (settled z u).th ((settled z u).th.at_ + 1) q ∧
      decode (Ver.ofByte (settled z u).th.version) [p, q] = some (i, 2) := by
  obtain ⟨u, z, e, h⟩ := turn_of (s := coded 32 (word 0 3 2 1 0) id) (p := fun u z => issuing (settled z u).th &&
    (stands (settled z u) (settled z u).th (settled z u).th.at_ 0x4041 && stands (settled z u) (settled z u).th ((settled z u).th.at_ + 1) 0x30)) (by decide +kernel)
  simp only [Bool.and_eq_true] at h
  exact ⟨_, u, z, e, (issues_of h.1).1, 0x4041, 0x30, .add 1 2 3, parcel_of h.2.1, parcel_of h.2.2, by rw [(issues_of h.1).2]; decide +kernel⟩

theorem witness_StepRunsDecoded_zero : ∃ s : State, ∃ u z, turn s = .thread u z ∧ issues (settled z u).th ∧
    Says.parcel (settled z u) (settled z u).th (settled z u).th.at_ 0 := by
  obtain ⟨u, z, e, h⟩ := turn_of (s := coded 16 0 id) (p := fun u z => issuing (settled z u).th && stands (settled z u) (settled z u).th (settled z u).th.at_ 0)
    (by decide +kernel)
  simp only [Bool.and_eq_true] at h
  exact ⟨_, u, z, e, (issues_of h.1).1, parcel_of h.2⟩

theorem witness_StepRunsDecoded_illegal : (∃ s : State, ∃ u z, turn s = .thread u z ∧ issues (settled z u).th ∧
      ∃ p, Says.parcel (settled z u) (settled z u).th (settled z u).th.at_ p ∧ p ≠ 0 ∧ p.getLsbD 0 = false ∧ decode (Ver.ofByte (settled z u).th.version) [p] = none) ∧
    ∃ s : State, ∃ u z, turn s = .thread u z ∧ issues (settled z u).th ∧
      ∃ p q, Says.parcel (settled z u) (settled z u).th (settled z u).th.at_ p ∧ Says.parcel (settled z u) (settled z u).th ((settled z u).th.at_ + 1) q ∧
        p.getLsbD 0 = true ∧ decode (Ver.ofByte (settled z u).th.version) [p, q] = none := by
  constructor
  · obtain ⟨u, z, e, h⟩ := turn_of (s := coded 16 30 id) (p := fun u z => issuing (settled z u).th && stands (settled z u) (settled z u).th (settled z u).th.at_ 30)
      (by decide +kernel)
    simp only [Bool.and_eq_true] at h
    exact ⟨_, u, z, e, (issues_of h.1).1, 30, parcel_of h.2, by decide, by decide, by rw [(issues_of h.1).2]; decide +kernel⟩
  · obtain ⟨u, z, e, h⟩ := turn_of (s := coded 32 (word 0 0 0 0 31) id) (p := fun u z => issuing (settled z u).th &&
      (stands (settled z u) (settled z u).th (settled z u).th.at_ 63 && stands (settled z u) (settled z u).th ((settled z u).th.at_ + 1) 0)) (by decide +kernel)
    simp only [Bool.and_eq_true] at h
    exact ⟨_, u, z, e, (issues_of h.1).1, 63, 0, parcel_of h.2.1, parcel_of h.2.2, by decide, by rw [(issues_of h.1).2]; decide +kernel⟩

theorem witness_StepRunsDecoded_bound : ∃ s : State, ∃ u z, turn s = .thread u z ∧ issues (settled z u).th ∧ (settled z u).th.bound ≤ (settled z u).th.at_ := by
  obtain ⟨u, z, e, h⟩ := turn_of (s := swarm (fun t => { t with pc := 16 })) (p := fun u z => issuing (settled z u).th &&
    decide ((settled z u).th.bound ≤ (settled z u).th.at_)) (by decide +kernel)
  simp only [Bool.and_eq_true, decide_eq_true_eq] at h
  exact ⟨_, u, z, e, (issues_of h.1).1, h.2⟩

theorem witness_StepRunsDecoded_handler : ∀ p : BitVec 6, p = 4 ∨ p = 8 ∨ p = 12 → ∃ s : State, ∃ u z, turn s = .thread u z ∧ (settled z u).th.inH = false ∧
    (settled z u).th.rx = false ∧ (settled z u).th.run = .ready ∧ awaits (bringUp z u) (settled z u).th 0 4 = false ∧
    ((settled z u).th.pend.getLsbD 2 = true ∨ (settled z u).th.pend.getLsbD 3 = true) := by
  intro p hp
  obtain ⟨u, z, e, h⟩ := turn_of (s := swarm (fun t => { t with pend := p })) (p := fun u z => !(settled z u).th.inH && !(settled z u).th.rx &&
    decide ((settled z u).th.run = .ready) && !awaits (bringUp z u) (settled z u).th 0 4 && ((settled z u).th.pend.getLsbD 2 || (settled z u).th.pend.getLsbD 3)) (by
      rcases hp with rfl | rfl | rfl <;> decide +kernel)
  simp only [Bool.and_eq_true, Bool.not_eq_true', decide_eq_true_eq, Bool.or_eq_true] at h
  exact ⟨_, u, z, e, h.1.1.1.1, h.1.1.1.2, h.1.1.2, h.1.2, h.2⟩

theorem witness_StepRunsDecoded_turns : (∃ s : State, s.trip = false ∧ s.clockHeld = false ∧ prefixed s = true) ∧
    (∃ s : State, s.trip = false ∧ s.clockHeld = false ∧ prefixed s = false ∧ (updateNow s).orElse (fun _ => rejoin s (neededCore s)) = none ∧
      ∃ e r, s.agenda = e :: r) ∧
    ∃ s : State, s.trip = false ∧ s.clockHeld = false ∧ prefixed s = false ∧ (updateNow s).orElse (fun _ => rejoin s (neededCore s)) = none ∧ s.agenda = [] ∧ ∃ c e r, s.timers = (c, e) :: r ∧ c = s.clk := by
  refine ⟨⟨swarm (fun t => { t with rx := true }), by decide +kernel⟩, ⟨{ swarm id with agenda := [.budgetPeriod] }, by decide +kernel, by decide +kernel,
    by decide +kernel, ?_, .budgetPeriod, [], rfl⟩, ⟨{ swarm id with timers := [(0, .budgetPeriod)] }, by decide +kernel, by decide +kernel,
    by decide +kernel, ?_, by decide +kernel, 0, .budgetPeriod, [], rfl, by decide +kernel⟩⟩ <;> decide +kernel

theorem witness_StepKeepsCanonical : ∃ s u : State, s.wf ∧ s.mem ≠ [] ∧ step s = .next u := by
  have h : (match step (coded 16 0x22 id) with | .next _ => true | _ => false) = true := by decide +kernel
  refine ⟨coded 16 0x22 id, ?_⟩
  split at h
  · next u e => exact ⟨u, by rw [State.wf]; decide +kernel, by decide +kernel, e⟩
  · cases h

theorem witness_DecodeEncode : wellFormed .v3 (.addS 31 31) = true ∧ encode (.addS 31 31) ≠ [] ∧ wellFormed .v1 (.add 127 127 127) = true ∧
    encode (.add 127 127 127) ≠ [] ∧ decode .v3 [0x0022] = some (.addS 1 0, 1) ∧ ∃ i, decode .v1 [0xFFC1, 0x07FF] = some (i, 2) :=
  ⟨by decide +kernel, by decide +kernel, by decide +kernel, by decide +kernel, by decide +kernel, ⟨.add 127 127 127, by decide +kernel⟩⟩

theorem witness_StepStopsWhenHeld : (∃ s : State, s.trip = true ∧ .coldReset ∉ s.agenda) ∧
    (∃ s : State, s.trip = false ∧ s.clockHeld = true ∧ .coldReset ∉ s.agenda ∧ .clockReferenceReturn ∉ s.agenda) ∧
    (∃ s : State, s.trip = true ∧ s.clockHeld = true ∧ .coldReset ∈ s.agenda) ∧ ∃ s : State, s.trip = false ∧ s.clockHeld = false :=
  ⟨⟨{ swarm id with trip := true }, by decide +kernel⟩, ⟨{ swarm id with clockHeld := true }, by decide +kernel⟩,
    ⟨{ swarm id with trip := true, clockHeld := true, agenda := [.budgetPeriod, .coldReset] }, by decide +kernel⟩, ⟨swarm id, by decide +kernel⟩⟩

/-- What the statement about one thread asks of a state, its code apart. -/
abbrev alone (s : State) (c k : Nat) : Prop :=
  (s.trip = false ∧ s.clockHeld = false ∧ s.th.rx = false ∧ updateNow s = none ∧ rejoin s (neededCore s) = none ∧ s.agenda = []) ∧
    ((∀ x ∈ s.timers, s.clk < x.1) ∧ watchdogNow s = none ∧ s.threads = [] ∧ s.th.place = .swarm c k ∧ k < 64) ∧
    (coreIsWave c = false ∨ coreCluster c = 15) ∧ ((s.core c).issued ≤ s.clk ∧ s.th.cur = none ∧ (∀ e ∈ s.cores, e.2.wave = []) ∧ eligible s s.th = true) ∧
    (s.th.inH = true ∨ (s.th.pend.getLsbD 2 = false ∧ s.th.pend.getLsbD 3 = false)) ∧ s.th.isCuique = false

theorem witness_OneThreadRuns : ∃ s : State, ∃ c k, ∃ p q, ∃ i, alone s c k ∧ Says.parcel s s.th s.th.pc.toNat p ∧ Says.parcel s s.th (s.th.pc.toNat + 1) q ∧
    (decode (Ver.ofByte s.th.version) [p] = some (i, 1) ∨ decode (Ver.ofByte s.th.version) [p, q] = some (i, 2)) :=
  ⟨coded 32 (word 0 3 2 1 0) id, coreNo 0 0 0, 0, 0x4041, 0x30, .add 1 2 3, by decide +kernel, parcel_of (by decide +kernel), parcel_of (by decide +kernel),
    .inr (by decide +kernel)⟩

theorem witness_WrongEngine : (∃ s : State, s.th.isWave = true) ∧ (∃ s : State, s.th.isWave = false) ∧ ∃ r : BitVec 2, r.toNat = 2 :=
  ⟨⟨wave id, by decide +kernel⟩, ⟨swarm id, by decide +kernel⟩, 2, rfl⟩

theorem witness_ExtensionRegisters : ∃ s : State, ∃ a : Code, s.th.free [1] ∧ s.th.at1 1 a 63 :=
  ⟨swarm id, 63, by simp only [Thread.free, Thread.at1]; decide +kernel⟩

end

end Sys2Proof.Tests
end

section
/-! PROOFS. The package: the step that stops exactly while it is held, and the reset state (O58, O53). -/

namespace Sys2Proof.Machine
open Sys2Proof

/-! Every instruction, event and turn of a package that is not held answers a next state. -/

/-- The outcome is a next state. -/
def IsNext (o : Out) : Prop := ∃ u, o = .next u

theorem isNext_next (u : State) : IsNext (.next u) := ⟨u, rfl⟩

theorem isNext_ite {c : Prop} [Decidable c] {a b : Out} (ha : IsNext a) (hb : IsNext b) : IsNext (if c then a else b) := by
  split
  · exact ha
  · exact hb

theorem inOrder_next {s : State} {port : Nat} {e : Event} {go : Out} (h : IsNext go) : IsNext (inOrder s port e go) := by
  unfold inOrder
  split
  · exact isNext_next _
  · exact isNext_ite (isNext_next _) h

theorem execHostStreamWrite_next (p k o : Nat) (l : List Byte) (s : State) : IsNext (execHostStreamWrite p k o l s) :=
  isNext_ite (isNext_next _) (inOrder_next (isNext_next _))

theorem execHostMemoryWrite_next (p k o : Nat) (l : List Byte) (s : State) : IsNext (execHostMemoryWrite p k o l s) :=
  isNext_ite (isNext_next _) (inOrder_next (isNext_next _))

theorem execHostMemoryRead_next (p k o n : Nat) (s : State) : IsNext (execHostMemoryRead p k o n s) :=
  isNext_ite (isNext_next _) (inOrder_next (isNext_next _))

theorem execManagementBarAccess_next (b : PortBar) (o : Nat) (w : Bool) (l : List Byte) (n : Nat) (s : State) :
    IsNext (execManagementBarAccess b o w l n s) :=
  isNext_ite (isNext_next _) (inOrder_next (isNext_next _))

theorem execUpstreamRequest_next (k : Nat) (a : DWord) (w : Bool) (l : List Byte) (n : Nat) (s : State) :
    IsNext (execUpstreamRequest k a w l n s) := by
  unfold execUpstreamRequest
  dsimp only
  split
  · exact isNext_next _
  · exact isNext_ite (isNext_next _) (inOrder_next (isNext_next _))

theorem hostControl_next (s : State) (p k o : Nat) (l : List Byte) : IsNext (hostControl s p k o l) :=
  isNext_ite (isNext_next _) (inOrder_next (isNext_next _))

theorem hostReadBar_next (s : State) (p k b o n : Nat) : IsNext (hostReadBar s p k b o n) := by
  unfold hostReadBar
  split
  · exact inOrder_next (isNext_next _)
  · exact isNext_next _

theorem execRegisterWrite_next (r : RegName) (v : DWord) (s : State) : IsNext (execRegisterWrite r v s) := by
  cases r with
  | threadControl die off =>
    refine isNext_ite (isNext_next _) ?_
    split <;> exact isNext_next _
  | faultEntry die e =>
    simp only [execRegisterWrite]
    split <;> exact isNext_next _
  | _ => exact isNext_next _

/-- Every instruction, and every row of the table without an encoding, answers a next state. -/
theorem exec_next (i : Instr) (s : State) : IsNext (exec i s) := by
  cases i with
  | hostStreamWrite => exact execHostStreamWrite_next ..
  | hostMemoryWrite => exact execHostMemoryWrite_next ..
  | hostMemoryRead => exact execHostMemoryRead_next ..
  | managementBarAccess => exact execManagementBarAccess_next ..
  | upstreamRequest => exact execUpstreamRequest_next ..
  | registerWrite => exact execRegisterWrite_next ..
  | _ => exact isNext_next _

theorem runEvent_next (e : Event) (s : State) : IsNext (runEvent e s) := by
  cases e with
  | hostStreamWrite => exact execHostStreamWrite_next ..
  | hostMemoryWrite => exact execHostMemoryWrite_next ..
  | hostMemoryRead => exact execHostMemoryRead_next ..
  | managementBarAccess => exact execManagementBarAccess_next ..
  | upstreamRequest => exact execUpstreamRequest_next ..
  | registerWrite => exact execRegisterWrite_next ..
  | hostControlWrite => exact hostControl_next ..
  | hostRead => exact hostReadBar_next ..
  | _ => exact isNext_next _

theorem runFetched_next (s : State) (f : Fetch) : IsNext (runFetched s f) := by
  cases f with
  | instr i => exact exec_next i s
  | special x =>
    cases x with
    | boundIf => exact isNext_ite (isNext_next _) (isNext_next _)
    | _ => exact isNext_next _
  | _ => exact isNext_next _

theorem runThread_next (s : State) : IsNext (runThread s) := by
  unfold runThread
  split
  · next i _ =>
    obtain ⟨u, h⟩ := exec_next i s
    rw [h]
    exact isNext_next _
  · exact runFetched_next ..

theorem issue_next (s : State) (uid : Nat) : IsNext (issue s uid) :=
  isNext_ite (isNext_next _) (runThread_next _)

/-- A turn other than a stop comes to a next state. -/
theorem takeTurn_next {t : Turn} (h : ∀ b, t ≠ .stopped b) : IsNext (takeTurn t) := by
  cases t with
  | stopped b => exact absurd rfl (h b)
  | event e s => exact runEvent_next e s
  | thread u s => exact issue_next s u
  | rejoined s => exact isNext_next s
  | passes s => exact isNext_next s

/-! When the turn is a stop (R11, R14). -/

theorem turnThreads_not_stopped (s : State) (b : Bool) : turn.turnThreads s ≠ .stopped b := by
  unfold turn.turnThreads
  repeat' split
  all_goals simp

/-- A package that is not held does not stop. -/
theorem turn_not_stopped {s : State} (ht : s.trip = false) (hc : s.clockHeld = false) (b : Bool) : turn s ≠ .stopped b := by
  rw [turn, ht, hc]
  simp only [Bool.or_self, Bool.false_eq_true, if_false]
  repeat' split
  all_goals simp [turnThreads_not_stopped]

/-- A held package takes the next input that releases it. -/
theorem turn_held_some {s u : State} {e : Event} (h : s.trip = true ∨ s.clockHeld = true) (hn : releaseNow s = some (e, u)) :
    turn s = .event e u := by
  simp [turn, h, hn]

/-- Without such an input it stops. -/
theorem turn_held_none {s : State} (h : s.trip = true ∨ s.clockHeld = true) (hn : releaseNow s = none) : turn s = .stopped s.trip := by
  simp [turn, h, hn]

theorem releaseNow_none {s : State} (hc : .coldReset ∉ s.agenda) (hr : s.trip = true ∨ .clockReferenceReturn ∉ s.agenda) :
    releaseNow s = none := by
  have h : s.agenda.dropWhile (fun e => !(e == .coldReset || (!s.trip && e == .clockReferenceReturn))) = [] := by
    rw [List.dropWhile_eq_nil_iff]
    intro e he
    have h1 : e ≠ .coldReset := fun h => hc (h ▸ he)
    rcases hr with ht | hr
    · simp [h1, ht]
    · have h2 : e ≠ .clockReferenceReturn := fun h => hr (h ▸ he)
      simp [h1, h2]
  rw [releaseNow, h]

theorem releaseNow_some {s : State} (hc : .coldReset ∈ s.agenda) : ∃ x, releaseNow s = some x := by
  unfold releaseNow
  split
  · next h =>
    rw [List.dropWhile_eq_nil_iff] at h
    simpa using h _ hc
  · exact ⟨_, rfl⟩

theorem step_held_stops {s : State} (h : s.trip = true ∨ s.clockHeld = true) (hc : .coldReset ∉ s.agenda)
    (hr : s.trip = true ∨ .clockReferenceReturn ∉ s.agenda) : step s = takeTurn (.stopped s.trip) := by
  rw [step, turn_held_none h (releaseNow_none hc hr)]

/-- Settles O58: a held package without a releasing input stops, and every other turn comes to an event or an issue, which answer a next
state. -/
theorem stepStopsWhenHeld : Obligations.StepStopsWhenHeld := by
  intro s
  refine ⟨fun ht hc => ?_, fun ht hk hc hr => ?_, fun h hc => ?_, fun ht hk => ?_, fun i => exec_next i s⟩
  · rw [step_held_stops (.inl ht) hc (.inl ht), ht]
    rfl
  · rw [step_held_stops (.inr hk) hc (.inr hr), ht]
    rfl
  · obtain ⟨⟨e, u⟩, hx⟩ := releaseNow_some hc
    rw [step, turn_held_some h hx]
    exact runEvent_next e u
  · exact takeTurn_next (turn_not_stopped ht hk)

/-! The reset state. -/

/-- Settles O53: the fields of the reset state, read off one by one. -/
theorem resetValues : Obligations.ResetValues := by
  unfold Obligations.ResetValues
  refine ⟨rfl, rfl, rfl, rfl, fun _ => rfl, fun _ => rfl, rfl, fun r h => ?_, fun k h => ?_, fun k h => ?_, rfl, rfl, ⟨rfl, rfl⟩, rfl, fun d h => ?_⟩
  · simp [State.reset]
  · simp [State.reset]
  · simp [State.reset]
  · simp [State.reset, State.die, h, Die.reset, State.evCounter, Table.at, Table.get]

end Sys2Proof.Machine
end

section
/-! PROOFS. The package: what operations leave alone, and the messages between cores (O20). -/

namespace Sys2Proof.Machine
open Sys2Proof

/-! What an operation leaves alone, said by what is forgotten. -/

/-- A fold keeps what each of its steps keeps. -/
theorem foldl_keeps {α β : Type} {φ : State → β} {f : State → α → State} (h : ∀ s x, φ (f s x) = φ s) (l : List α) (s : State) :
    φ (l.foldl f s) = φ s := by
  induction l generalizing s with
  | nil => rfl
  | cons x l ih => exact (ih (f s x)).trans (h s x)

/-- Event counters without what they hold. -/
def blankCounters (l : Table EvCounter) : Table EvCounter := l.map (fun e => (e.1, EvCounter.reset))

/-- The state without the bytes of memory, the lines of L1 and L2, what event counters hold and free values. -/
def State.sansCache (s : State) : State := { s with mem := [], l1 := [], l2 := [], evc := blankCounters s.evc, free := 0 }

/-- Two states that differ there alone. -/
theorem eq_of_sansCache {s u : State} (h : u.sansCache = s.sansCache) :
    u = { s with mem := u.mem, l1 := u.l1, l2 := u.l2, evc := u.evc, free := u.free } := by
  simp only [State.sansCache, State.mk.injEq] at h
  cases s
  cases u
  simp_all

/-- An event changes what counters hold. -/
theorem dieEvent_counters (s : State) (d b e i n : Nat) : ∃ l, dieEvent s d b e i n = { s with evc := l } ∧ blankCounters l = blankCounters s.evc := by
  unfold dieEvent
  split
  · exact ⟨_, rfl, rfl⟩
  · refine ⟨_, rfl, ?_⟩
    rw [blankCounters, List.map_map]
    refine List.map_congr_left (fun x _ => ?_)
    rw [Function.comp_apply]
    split <;> rfl

@[simp] theorem dieEvent_sansCache (s : State) (d b e i n : Nat) : (dieEvent s d b e i n).sansCache = s.sansCache := by
  obtain ⟨l, h, k⟩ := dieEvent_counters s d b e i n
  rw [h, State.sansCache, State.sansCache]
  simp [k]

@[simp] theorem memStore_sansCache (s : State) (k n : Nat) (v : BitVec 128) : (memStore s k n v).sansCache = s.sansCache := by
  refine (foldl_keeps (φ := State.sansCache) (fun s r => ?_) _ _).trans ?_
  · rfl
  · rfl

@[simp] theorem l2Touch_sansCache (s : State) (k : Nat) (pte : DWord) : (l2Touch s k pte).sansCache = s.sansCache := by
  have h := dieEvent_sansCache s (socketOf k - 32) 2 0 (homeChannel k) 1
  unfold l2Touch
  dsimp only
  split
  · rfl
  · split
    · exact h
    · split
      · exact (dieEvent_sansCache ..).trans h
      · exact (dieEvent_sansCache ..).trans h

@[simp] theorem writeBackBytes_sansCache (s : State) (l : L1Line) (m : BitVec 128) : (writeBackBytes s l m).sansCache = s.sansCache := by
  unfold writeBackBytes
  split
  · rfl
  · refine (foldl_keeps (fun s i => ?_) _ _).trans (l2Touch_sansCache s l.pa 0)
    split
    · exact memStore_sansCache ..
    · rfl

@[simp] theorem l1Put_sansCache (s : State) (c : Nat) (l : L1Line) : (l1Put s c l).sansCache = s.sansCache := by
  unfold l1Put l1Evict
  dsimp only
  split
  · rfl
  · exact writeBackBytes_sansCache ..

@[simp] theorem l1WriteBack_sansCache (s : State) (c : Nat) (l : L1Line) : (l1WriteBack s c l).sansCache = s.sansCache :=
  (l1Put_sansCache ..).trans (writeBackBytes_sansCache ..)

@[simp] theorem l1Release_sansCache (s : State) (c p : Nat) : (l1Release s c p).sansCache = s.sansCache :=
  foldl_keeps (fun s l => l1WriteBack_sansCache s c l) _ _


/-! Timers. -/

theorem mem_insertTimer (l : List (Nat × Event)) (c : Nat) (e : Event) (x : Nat × Event) :
    x ∈ insertTimer l c e ↔ x = (c, e) ∨ x ∈ l := by
  induction l with
  | nil => simp [insertTimer]
  | cons y r ih =>
    unfold insertTimer
    split
    · simp
    · simp only [List.mem_cons, ih]
      tauto

/-- The timers after an event was set: it, and those before. -/
theorem mem_at_ (s : State) (c : Nat) (e : Event) (x : Nat × Event) : x ∈ (s.at_ c e).timers ↔ x = (c, e) ∨ x ∈ s.timers :=
  mem_insertTimer ..

/-! Messages between cores (R359, R360, R362). -/

/-- A name of a core of the partition names that core, whatever its bits below the core field. -/
theorem namedCore_some {s : State} {t : Thread} {n : Word} (hz : bits n.toNat 31 21 = 0) (hd : bits n.toNat 20 16 < 24)
    (hp : bits n.toNat 20 16 ∈ s.partDies t.part)
    (hc : (bits n.toNat 15 12 < 12 ∧ bits n.toNat 11 6 < 38) ∨ (bits n.toNat 15 12 = 15 ∧ bits n.toNat 11 6 < 32)) :
    namedCore s t n = some (bits n.toNat 20 6) := by
  have hdie : coreDie (coreOfName n) = bits n.toNat 20 16 := by
    simp only [coreDie, coreOfName, bits]
    omega
  have hok : coreNameOk n = true := by simpa [coreNameOk, hz, hd] using hc
  simp only [namedCore, hok, hdie, List.contains_iff_mem.2 hp, Bool.and_self, if_true]
  rfl

/-- A name with bits above the die, or of a die that is not the partition's, names no core. -/
theorem namedCore_none {s : State} {t : Thread} {n : Word} (h : bits n.toNat 31 21 ≠ 0 ∨ bits n.toNat 20 16 ∉ s.partDies t.part) :
    namedCore s t n = none := by
  have hdie : coreDie (coreOfName n) = bits n.toNat 20 16 := by
    simp only [coreDie, coreOfName, bits]
    omega
  rw [namedCore, if_neg]
  rw [hdie]
  rcases h with h | h <;> simp [coreNameOk, h]

/-- A message's arrival is a timer, not before half the latency, and the other timers stay. -/
theorem sendMessage_timers (s : State) (c e : Nat) (ev : Event) (same : Event → Bool) :
    ∃ k, (k, ev) ∈ (sendMessage s c e ev same).timers ∧ s.clk + msgLatency c e / 2 ≤ k ∧
      ∀ x ∈ s.timers, x ∈ (sendMessage s c e ev same).timers :=
  ⟨_, (mem_at_ ..).2 (.inl rfl), Nat.le_max_left .., fun _ h => (mem_at_ ..).2 (.inr h)⟩

/-- The context that an instruction leaves which writes no register, after overrides. -/
theorem frame_clearArms {t : Thread} {ovr ex : List Nat} {codes : List Code} (d : ovr.Nodup) (l : ∀ n ∈ ovr, n < 4) :
    t.frame (advances (clearArms t ovr) (usedIdx t codes ex)) [] [] codes [] ovr := by
  refine frame_advances (clearArms_alike t ovr).1 ?_ ?_ ?_ ?_ ?_ ex
  · intro k _; rw [clearArms_g]
  · intro k _; simp [Thread.rdP]
  · intro j _; simp [Thread.rdI]
  · intro n hn; exact clearArms_other hn
  · intro n hn; exact clearArms_mem hn d (l n hn)

/-- The release of a wave thread changes its thread's last performance and what the caches hold (R221, R227). -/
theorem releaseL1_eq {s u : State} {scope : BitVec 3} (h : scopeL1 s s.th scope = true) (e : releaseL1 s s.th scope = u) :
    u = { s with th := { s.th with performedAt := u.th.performedAt }, mem := u.mem, l1 := u.l1, l2 := u.l2, evc := u.evc
                 free := u.free, threads := u.threads } := by
  have r := eq_of_sansCache (l1Release_sansCache s (clusterOf s.th.core) s.th.part)
  rw [releaseL1, if_pos h] at e
  subst e
  dsimp only
  rw [r]
  simp [State.updThread, State.mapThreads]

/-- The same, once its thread and the timers have changed further. -/
theorem released_timers {s v : State} {t : Thread} {z : List (Nat × Event)}
    (h : v = { s with th := { s.th with performedAt := v.th.performedAt }, mem := v.mem, l1 := v.l1, l2 := v.l2, evc := v.evc
                      free := v.free, threads := v.threads }) :
    ({ v with th := t, timers := z } : State) = { s with th := t, timers := z, mem := v.mem, l1 := v.l1, l2 := v.l2, evc := v.evc
                                                         free := v.free, threads := v.threads } := by
  rw [h]

/-- A message that leaves once its thread v.th has completed: only the thread and the timers change then. -/
theorem sendMessage_finish {s v : State} {a b : Code} {ovr : List Nat} (c n : Nat) (ev : Event) (same : Event → Bool) (d : ovr.Nodup)
    (l : ∀ n ∈ ovr, n < 4) (ht : v.th = { s.th with performedAt := v.th.performedAt }) (hc : v.clk = s.clk) (hz : v.timers = s.timers) :
    let u := sendMessage (finish v (clearArms v.th ovr) [a, b] [] 2 n) s.th.core c ev same
    u = { v with th := u.th, timers := u.timers } ∧
      ∃ k, (k, ev) ∈ u.timers ∧ (∀ x ∈ s.timers, x ∈ u.timers) ∧ s.clk + msgLatency s.th.core c / 2 ≤ k ∧
        s.th.frame u.th [] [] [a, b] [] ovr ∧ u.th.run = .ready ∧ u.th.pc = s.th.pc + s.th.parcels 2 := by
  intro u
  obtain ⟨k, hk, hl, hs⟩ := sendMessage_timers (finish v (clearArms v.th ovr) [a, b] [] 2 n) s.th.core c ev same
  obtain ⟨-, -, hrx, hpc, -⟩ := Thread.alike_trans (clearArms_alike v.th ovr) (advances_alike _ (usedIdx v.th [a, b] []))
  refine ⟨rfl, k, hk, fun x hx => hs x (hz ▸ hx), hc ▸ hl, ?_, rfl, ?_⟩
  · have hf : v.th.frame = s.th.frame := by rw [ht]; rfl
    exact hf ▸ frame_done (frame_clearArms d l) v.clk 2 n
  · have hp : v.th.pc = s.th.pc := by rw [ht]
    have hr : v.th.rx = s.th.rx := by rw [ht]
    show (advances (clearArms v.th ovr) _).pc + _ = _
    rw [Thread.parcels, hpc, hrx, hp, hr]

/-- What an mput that posts a command performs before its thread completes (R232). -/
def beforePost (s : State) (post : Bool) (v : Word) : State := if post then releaseL1 s s.th (v.extractLsb' 8 3) else s

/-- The source operands read the same once the caches were written back. -/
theorem src_sameGroups {s v : State} (h : v.groups = s.groups) (t : Thread) (pos n : Nat) : v.src t pos n = s.src t pos n := by
  simp only [State.src, State.uniform, State.group?, h]

/-- mput to a core that is named, by a thread with nothing outstanding that a post would wait for. -/
theorem execMput_named {s : State} {n : BitVec 4} {a b : Code} {na nb c : Nat} (fr : s.th.free [1, 2]) (ha : s.th.at1 1 a na)
    (hb : s.th.at1 2 b nb) (hc : namedCore s s.th (s.src s.th 1 na) = some c) (hu : n = 15 → s.undone s.th.uid = false ∨ 32 ≤ c % 64) :
    ∃ same, exec (.mput n a b) s = .next (
      let v := beforePost s (n.toNat == 15 && !coreIsWave c) (s.src s.th 2 nb)
      sendMessage (finish v (clearArms v.th [1, 2]) [a, b] [] 2 (s.th.interval 8 4)) s.th.core c
        (.messageRegisterArrival c n.toNat (v.src s.th 2 nb) s.th.uid) same) := by
  have hd : ((n.toNat == 15 && !coreIsWave c) && s.undone s.th.uid) = false := by
    by_cases h : n = 15
    · rcases hu h with h | h <;> simp [h, coreIsWave, coreIdx]
    · have : n.toNat ≠ 15 := fun e => h (BitVec.eq_of_toNat_eq e)
      simp [this]
  apply Exists.intro
  show Host.Outcome.next _ = _
  rw [ops2_ok fr ha hb]
  simp only [hc, drained, hd]
  rfl

/-- msend to a core that is named. -/
theorem execMsend_named {s : State} {a b : Code} {na nb c : Nat} (fr : s.th.free [1]) (ha : s.th.at1 1 a na) (hb : s.th.at4 2 b nb)
    (hc : namedCore s s.th (s.src s.th 1 na) = some c) :
    ∃ same, exec (.msend a b) s = .next (sendMessage (finish s (clearArms s.th [1]) [a, b] [] 2 (s.th.interval 8 4)) s.th.core c
      (.mailboxArrival c (s.th.rd4 nb) s.th.uid false) same) := by
  apply Exists.intro
  show Host.Outcome.next _ = _
  rw [ops2_ok fr ha hb]
  simp only [hc]
  rfl

/-- Messages that are sent (R359, R360, R362). -/
theorem messagesSent : Says.MessagesSent := by
  intro s n a b na nb c ha name there sends
  have named (h : there) : namedCore s s.th (s.src s.th 1 na) = some c := by
    obtain ⟨hz, hc, hd, hp, hn⟩ := h
    exact hc ▸ namedCore_some hz hd hp hn
  have unnamed (h : bits name.toNat 31 21 ≠ 0 ∨ bits name.toNat 20 16 ∉ s.partDies s.th.part) :
      namedCore s s.th (s.src s.th 1 na) = none := namedCore_none h
  refine ⟨fun fr hb => ⟨fun h hu => ?_, fun h => ?_⟩, fun fr hb => ⟨fun h => ?_, fun h => ?_⟩⟩
  · obtain ⟨same, e⟩ := execMput_named fr ha hb (named h) hu
    generalize hv : beforePost s (n.toNat == 15 && !coreIsWave c) (s.src s.th 2 nb) = v at e
    by_cases hf : n = 15 ∧ c % 64 < 32 ∧ scopeL1 s s.th ((s.src s.th 2 nb).extractLsb' 8 3) = true
    · obtain ⟨rfl, hw, hl⟩ := hf
      have hr : releaseL1 s s.th ((s.src s.th 2 nb).extractLsb' 8 3) = v := by
        have hs : coreIsWave c = false := decide_eq_false (Nat.not_le.2 hw)
        rw [← hv, hs]
        rfl
      have q := releaseL1_eq hl hr
      dsimp only at e
      rw [src_sameGroups (s := s) (congrArg State.groups q :)] at e
      obtain ⟨hs, k, h⟩ := sendMessage_finish (s := s) (v := v) (a := a) (b := b) (ovr := [1, 2]) c (s.th.interval 8 4)
        (.messageRegisterArrival c (15#4).toNat (s.src s.th 2 nb) s.th.uid) same (by decide) (by decide) (congrArg State.th q :)
        (congrArg State.clk q :) (congrArg State.timers q :)
      refine ⟨_, k, e, fun h => absurd ⟨rfl, hw, hl⟩ h, fun _ => hs.trans (released_timers q), h⟩
    · obtain rfl : v = s := by
        rw [← hv, beforePost]
        split
        · next hp =>
          simp only [coreIsWave, coreIdx, Bool.and_eq_true, beq_iff_eq, Bool.not_eq_true'] at hp
          have hn : n = 15 := BitVec.eq_of_toNat_eq hp.1
          rw [releaseL1, if_neg (fun h => hf ⟨hn, Nat.not_le.1 (of_decide_eq_false hp.2), h⟩)]
        · rfl
      obtain ⟨hs, k, h⟩ := sendMessage_finish (s := v) (a := a) (b := b) (ovr := [1, 2]) c (v.th.interval 8 4) _ same
        (by decide) (by decide) rfl rfl rfl
      exact ⟨_, k, e, fun _ => hs, fun h => absurd h hf, h⟩
  · have e : exec (.mput n a b) s = .next (raise s (faultOf .window 2)) := by
      show Host.Outcome.next _ = _
      rw [ops2_ok fr ha hb]
      simp only [unnamed h]
    exact raise_traps e
  · obtain ⟨same, e⟩ := execMsend_named fr ha hb (named h)
    obtain ⟨hs, k, h⟩ := sendMessage_finish (s := s) (a := a) (b := b) (ovr := [1]) c (s.th.interval 8 4)
      (.mailboxArrival c (s.th.rd4 nb) s.th.uid false) same (by decide) (by decide) rfl rfl rfl
    exact ⟨_, k, e, fun _ => hs, False.elim, h⟩
  · have e : exec (.msend a b) s = .next (raise s (faultOf .window 2)) := by
      show Host.Outcome.next _ = _
      rw [ops2_ok fr ha hb]
      simp only [unnamed h]
    exact raise_traps e

/-- Messages for a die in reset are held, with the time-out behind them (R15, R359). -/
theorem messagesHeld : Says.MessagesHeld := by
  intro s e r v w m mv hr i ev h
  have held (j : Instr) (x : Event) (hx : exec j s = .next (holdMessage s (coreDie e) x)) :
      ∃ u, exec j s = .next u ∧ u = { s with heldMsgs := u.heldMsgs, timers := u.timers } ∧
        u.heldMsgs = s.heldMsgs ++ [⟨coreDie e, s.clk, x⟩] ∧ (s.clk + 50000, .dieLostTimeout (coreDie e)) ∈ u.timers :=
    ⟨_, hx, rfl, rfl, (mem_at_ ..).2 (.inl rfl)⟩
  simp only [List.mem_cons, Prod.mk.injEq, List.not_mem_nil, or_false] at h
  rcases h with ⟨rfl, rfl⟩ | ⟨rfl, rfl⟩
  · exact held _ _ (congrArg Host.Outcome.next (if_pos hr))
  · exact held _ _ (congrArg Host.Outcome.next (if_pos hr))

/-- Settles O20: what is sent, and what is held. -/
theorem messages : Obligations.Messages := ⟨messagesSent, messagesHeld⟩

end Sys2Proof.Machine
end

section
/-! PROOFS. What the link layer leaves alone. -/

namespace Sys2Proof.Machine
open Sys2Proof

/-! Reading back a die, a core, a link or a partition that was changed. -/

theorem die_updDie_same {s : State} {d : Nat} (f : Die → Die) (h : d < 24) : (s.updDie d f).die d = f (s.die d) := by
  simp [State.die, h]

theorem die_updDie_other (s : State) {d e : Nat} (f : Die → Die) (h : e ≠ d) : (s.updDie d f).die e = s.die e := by
  simp [State.die, Ne.symm h]

theorem sameMem_of_mem {s u : State} (h : u.mem = s.mem) : s.sameMem u := fun a => congrArg (fun m => memRead m a) h

theorem send_part? (s : State) (m : OutMsg) (p : Nat) : (s.send m).part? p = s.part? p := rfl

theorem at_part? (s : State) (c : Nat) (e : Event) (p : Nat) : (s.at_ c e).part? p = s.part? p := rfl

theorem updDie_part? (s : State) (d : Nat) (f : Die → Die) (p : Nat) : (s.updDie d f).part? p = s.part? p := rfl

theorem at_die (s : State) (c : Nat) (e : Event) (d : Nat) : (s.at_ c e).die d = s.die d := rfl

theorem send_link (s : State) (m : OutMsg) (n : Nat) : (s.send m).link n = s.link n := rfl

theorem link_updLink (s : State) (n m : Nat) (f : Link → Link) : (s.updLink n f).link m = if m = n then f (s.link n) else s.link m := by
  split
  · next h => simp [State.link, State.updLink, h]
  · next h => simp [State.link, State.updLink, at_put_other _ _ _ h]

theorem part?_updPart (s : State) (p q : Nat) (f : Part → Part) (h : ∀ x, (f x).id = x.id) :
    (s.updPart p f).part? q = if q = p then (s.part? p).map f else s.part? q := by
  have e (l : List Part) : (l.map (fun x => if x.id == p then f x else x)).find? (fun x => x.id == q) =
      (l.find? (fun x => x.id == q)).map (fun x => if x.id == p then f x else x) := by
    induction l with
    | nil => rfl
    | cons a r ih =>
      have k : (if a.id == p then f a else a).id = a.id := by split <;> simp [h]
      simp only [List.map_cons, List.find?_cons, k, ih]
      split <;> rfl
  rw [State.part?, State.updPart, e]
  split
  · next g =>
    subst g
    refine Option.map_congr (fun x hx => ?_)
    rw [if_pos (List.find?_some hx)]
  · next g =>
    refine (Option.map_congr (g := id) (fun x hx => ?_)).trans (by simp [State.part?])
    have : x.id = q := by simpa using List.find?_some hx
    simp [this, g]

/-! Links: what a queue sends out. -/

/-- Which links are up. -/
def State.ups (s : State) : Nat → Bool := fun n => (s.link n).up

/-- The partitions of the span ports. -/
def State.spanParts (s : State) : Nat → Nat := fun n => (s.span n).part

/-- The state without its links, span ports, timers, messages to the outside, agenda and what event counters hold, and with it which links are
up and whose the span ports are. -/
def State.sansLinks (s : State) : State × (Nat → Bool) × (Nat → Nat) :=
  ({ s with links := [], spans := Vector.replicate 16 Span.reset, timers := [], out := [], agenda := [], evc := blankCounters s.evc }, s.ups,
    s.spanParts)

theorem updLink_ups (s : State) (n : Nat) {f : Link → Link} (h : (f (s.link n)).up = (s.link n).up) : (s.updLink n f).ups = s.ups := by
  funext m
  rw [State.ups, State.ups, link_updLink]
  split
  · next e => rw [h, e]
  · rfl

theorem updLink_sansLinks (s : State) (n : Nat) {f : Link → Link} (h : (f (s.link n)).up = (s.link n).up) :
    (s.updLink n f).sansLinks = s.sansLinks :=
  Prod.ext rfl (Prod.ext (updLink_ups s n h) rfl)

theorem span_updSpan (s : State) (n m : Nat) (f : Span → Span) (h : n < 16) : (s.updSpan n f).span m = if m = n then f (s.span n) else s.span m := by
  split
  · next e => simp [State.span, State.updSpan, e, h]
  · next e => simp [State.span, State.updSpan, Ne.symm e]

theorem updSpan_sansLinks (s : State) (n : Nat) {f : Span → Span} (h : (f (s.span n)).part = (s.span n).part) :
    (s.updSpan n f).sansLinks = s.sansLinks := by
  refine Prod.ext rfl (Prod.ext rfl (funext fun m => ?_))
  by_cases hn : n < 16
  · simp only [State.sansLinks, State.spanParts, span_updSpan s n m f hn]
    split
    · next e => rw [h, e]
    · rfl
  · have e (x : Span) : s.spans.setIfInBounds n x = s.spans := by
      ext i hi
      simp [show n ≠ i by omega]
    simp only [State.sansLinks, State.spanParts, State.span, State.updSpan]
    rw [e]

@[simp] theorem dieEvent_sansLinks (s : State) (d b e i n : Nat) : (dieEvent s d b e i n).sansLinks = s.sansLinks := by
  obtain ⟨l, h, k⟩ := dieEvent_counters s d b e i n
  rw [h]
  refine Prod.ext ?_ rfl
  simp [State.sansLinks, k]

@[simp] theorem atOnce_sansLinks (s : State) (c : Nat) (e : Event) : (s.atOnce c e).sansLinks = s.sansLinks := by
  unfold State.atOnce
  split <;> rfl

@[simp] theorem emit_sansLinks (s : State) (n : Nat) (b : List Byte) : (emit s n b).sansLinks = s.sansLinks := by
  unfold emit
  dsimp only
  split
  · split
    · exact dieEvent_sansLinks ..
    · rfl
  · split
    · exact dieEvent_sansLinks ..
    · rfl

@[simp] theorem sendControl_sansLinks (s : State) (n : Nat) : (sendControl s n).sansLinks = s.sansLinks := by
  unfold sendControl
  split
  · exact emit_sansLinks ..
  · rfl

@[simp] theorem sendFlit_sansLinks (s : State) (n h : Nat) (b : List Byte) (fb : Bool) : (sendFlit s n h b fb).sansLinks = s.sansLinks := by
  unfold sendFlit
  dsimp only
  refine (emit_sansLinks ..).trans ?_
  generalize e : s.updLink n _ = u
  have k : u.sansLinks = s.sansLinks := by
    rw [← e]
    exact updLink_sansLinks _ _ rfl
  split
  · next p q _ _ =>
    have g : (u.updSpan p (fun x => { x with tx := x.tx.setIfInBounds x.cur { q with used := q.used + 1 } })).sansLinks = u.sansLinks :=
      updSpan_sansLinks _ _ rfl
    split
    all_goals exact g.trans k
  · exact k

@[simp] theorem sendPacket_sansLinks (s : State) (n : Nat) (x : Packet) : (sendPacket s n x).sansLinks = s.sansLinks := by
  have h : ((x.flits.zipIdx.foldl (fun s f => sendFlit s n (x.head + (x.flits.length - 1) * 2 ^ 21 + f.2 * 2 ^ 19) f.1 x.fallback) s).updLink n
      (fun l => { l with served := x.cls })).sansLinks = s.sansLinks :=
    (updLink_sansLinks _ _ rfl).trans (foldl_keeps (fun s f => sendFlit_sansLinks ..) _ _)
  unfold sendPacket
  dsimp only
  split
  · split
    · exact h
    · exact (updSpan_sansLinks _ _ rfl).trans h
  · exact h

@[simp] theorem pumpGo_sansLinks (n f : Nat) (s : State) : (pumpGo n f s).sansLinks = s.sansLinks := by
  induction f generalizing s with
  | zero => rfl
  | succ f ih =>
    unfold pumpGo
    dsimp only
    split
    · rfl
    · exact (ih _).trans ((sendPacket_sansLinks ..).trans (updLink_sansLinks _ _ rfl))

@[simp] theorem pumpLink_sansLinks (s : State) (n : Nat) : (pumpLink s n).sansLinks = s.sansLinks := by
  unfold pumpLink
  dsimp only
  split
  · exact pumpGo_sansLinks ..
  · refine (atOnce_sansLinks ..).trans ?_
    split
    · exact (foldl_keeps (fun s x => dieEvent_sansLinks ..) _ _).trans (pumpGo_sansLinks ..)
    · exact pumpGo_sansLinks ..

@[simp] theorem sendOn_sansLinks (s : State) (n : Nat) (x : Packet) : (sendOn s n x).sansLinks = s.sansLinks :=
  (pumpLink_sansLinks ..).trans (updLink_sansLinks _ _ rfl)

@[simp] theorem sendBytes_sansLinks (s : State) (n a h : Nat) (r : Bool) (l : List Byte) : (sendBytes s n a h r l).sansLinks = s.sansLinks :=
  foldl_keeps (fun _ _ => sendOn_sansLinks ..) _ _

/-! What was on the agenda stays there. -/

theorem dieEvent_agenda (s : State) (d b e i n : Nat) : (dieEvent s d b e i n).agenda = s.agenda := by
  obtain ⟨l, h, -⟩ := dieEvent_counters s d b e i n
  rw [h]

theorem emit_agenda (s : State) (n : Nat) (b : List Byte) : (emit s n b).agenda = s.agenda := by
  unfold emit
  dsimp only
  split
  · split
    · exact dieEvent_agenda ..
    · rfl
  · split
    · exact dieEvent_agenda ..
    · rfl

theorem sendFlit_agenda (s : State) (n h : Nat) (b : List Byte) (fb : Bool) : s.agenda <+: (sendFlit s n h b fb).agenda := by
  unfold sendFlit
  dsimp only
  rw [show ∀ u e c, (armRepeat (emit u n c) n e).agenda = u.agenda from fun u e c => emit_agenda ..]
  split
  · split
    · exact List.prefix_append ..
    · exact List.prefix_rfl
  · exact List.prefix_rfl

/-- A fold by steps that only add to the agenda only adds to it. -/
theorem foldl_agenda {α : Type} {f : State → α → State} (h : ∀ s x, s.agenda <+: (f s x).agenda) (l : List α) (s : State) :
    s.agenda <+: (l.foldl f s).agenda := by
  induction l generalizing s with
  | nil => exact List.prefix_rfl
  | cons x l ih => exact (h s x).trans (ih (f s x))

theorem sendPacket_agenda (s : State) (n : Nat) (x : Packet) : s.agenda <+: (sendPacket s n x).agenda := by
  unfold sendPacket
  dsimp only
  split
  · split
    all_goals exact foldl_agenda (fun s _ => sendFlit_agenda s _ _ _ _) _ s
  · exact foldl_agenda (fun s _ => sendFlit_agenda s _ _ _ _) _ s

theorem pumpGo_agenda (n f : Nat) (s : State) : s.agenda <+: (pumpGo n f s).agenda := by
  induction f generalizing s with
  | zero => exact List.prefix_rfl
  | succ f ih =>
    unfold pumpGo
    dsimp only
    split
    · exact List.prefix_rfl
    · exact List.IsPrefix.trans (sendPacket_agenda (s.updLink n _) n _) (ih _)

theorem atOnce_agenda (s : State) (c : Nat) (e : Event) : (s.atOnce c e).agenda = s.agenda := by
  unfold State.atOnce
  split <;> rfl

theorem pumpLink_agenda (s : State) (n : Nat) : s.agenda <+: (pumpLink s n).agenda := by
  have h := pumpGo_agenda n ((s.link n).queue.length + 1) s
  unfold pumpLink
  dsimp only
  split
  · exact h
  · rw [atOnce_agenda]
    split
    · rw [foldl_keeps (φ := State.agenda) (fun s _ => dieEvent_agenda ..)]
      exact h
    · exact h

end Sys2Proof.Machine
end

section
/-! PROOFS. Fault queues: what a record leaves alone, and where it stands (R68 to R70). -/

namespace Sys2Proof.Machine
open Sys2Proof

/-- A partition without its fault queue and what waits for its counter home. -/
def Part.sansQueue (q : Part) : Part := { q with fqTail := 0, fqSeq := 0, fqDropped := 0, fqWait := [], fq := [], homeWait := [] }

/-- The state without fault queues, memory and the next identity. -/
def State.sansQueues (s : State) : State := { s with mem := [], nextId := 0, parts := s.parts.map Part.sansQueue }

/-- What a change of one partition keeps of every partition. -/
theorem updPart_map {β : Type} {ψ : Part → β} (s : State) (p : Nat) {f : Part → Part} (h : ∀ x, ψ (f x) = ψ x) :
    (s.updPart p f).parts.map ψ = s.parts.map ψ := by
  rw [State.updPart, List.map_map]
  refine List.map_congr_left (fun x _ => ?_)
  rw [Function.comp_apply]
  split
  · exact h x
  · rfl

theorem updPart_sansQueues (s : State) (p : Nat) {f : Part → Part} (h : ∀ x, (f x).sansQueue = x.sansQueue) :
    (s.updPart p f).sansQueues = s.sansQueues :=
  congrArg (fun l => { s with mem := [], nextId := 0, parts := l }) (updPart_map s p h)

@[simp] theorem fqWrite_sansQueues (s : State) (q : Part) (b : List Byte) : (fqWrite s q b).sansQueues = s.sansQueues :=
  updPart_sansQueues _ _ (fun _ => rfl)

@[simp] theorem fqPush_sansQueues (s : State) (p : Nat) (b : List Byte) (w : FqWait) : (fqPush s p b w).sansQueues = s.sansQueues := by
  unfold fqPush
  dsimp only
  split
  · rfl
  · split
    · exact updPart_sansQueues s p (fun _ => rfl)
    · split
      · exact updPart_sansQueues s p (fun _ => rfl)
      · split
        · exact updPart_sansQueues s p (fun _ => rfl)
        · exact fqWrite_sansQueues ..

@[simp] theorem fqNote_sansQueues (s : State) (p : Nat) (b : List Byte) : (fqNote s p b).sansQueues = s.sansQueues :=
  fqPush_sansQueues ..

/-! The record. -/

theorem memRead_writeList_first (m : Memory) (a : Nat) (v : Byte) (l : List Byte) : memRead (writeList m a (v :: l)) a = v := by
  rw [writeList, memRead_writeList_other _ _ _ _ (by omega), memRead_write, if_pos rfl]

/-- Records of other dies' queues stand elsewhere. -/
theorem memRead_fqCopy (m : Memory) (d e n : Nat) (v : Byte) (l : List Byte) (h : memRead m (fqAddr d n) = v) (hl : l.length < 64) :
    memRead (writeList m (fqAddr e n) (v :: l)) (fqAddr d n) = v := by
  by_cases hd : d = e
  · rw [hd, memRead_writeList_first]
  · rw [memRead_writeList_other, h]
    have : n % 4096 < 4096 := Nat.mod_lt _ (by omega)
    simp only [fqAddr, List.length_cons]
    omega

theorem leBytes_length (n v : Nat) : (leBytes n v).length = n := by
  induction n generalizing v with
  | zero => rfl
  | succ n ih => simp [leBytes, ih]

/-- A record with its SEQ is 64 bytes long, and begins with its kind. -/
theorem fqWithSeq_bytes (kind cause socket place addr seq : Nat) (l : List Byte) :
    ∃ r, fqWithSeq (fqBytes kind cause socket place addr l) seq = BitVec.ofNat 8 kind :: r ∧ r.length < 64 := by
  refine ⟨_, rfl, ?_⟩
  simp [leBytes_length, fqBytes]

theorem fqWrite_mem (s : State) (q : Part) (kind cause socket place addr : Nat) (l : List Byte) :
    memRead (fqWrite s q (fqBytes kind cause socket place addr l)).mem (fqAddr q.home q.fqTail.toNat) = BitVec.ofNat 8 kind := by
  obtain ⟨r, hr, hl⟩ := fqWithSeq_bytes kind cause socket place addr q.fqSeq l
  have h := memRead_writeList_first s.mem (fqAddr q.home q.fqTail.toNat) (BitVec.ofNat 8 kind) r
  simp only [fqWrite, hr, State.updPart_mem]
  split
  · exact memRead_fqCopy _ _ _ _ _ _ h hl
  · exact h

/-- A record that no thread waits for is written at the tail while the home is not in reset and the queue not full. -/
theorem fqNote_eq {s : State} {p : Nat} {q : Part} {kind : Nat} (cause socket place addr : Nat) (l : List Byte) (hk : BitVec.ofNat 8 kind ≠ 1#8)
    (hq : s.part? p = some q) (hh : s.homeUp q = true) (hf : q.fqTail - q.fqHead ≠ 4096) :
    fqNote s p (fqBytes kind cause socket place addr l) = fqWrite s q (fqBytes kind cause socket place addr l) := by
  have ht : (fqBytes kind cause socket place addr l).head? ≠ some 1#8 := fun e => hk (Option.some.inj e)
  have hx : q.fqFull = false := beq_eq_false_iff_ne.2 hf
  rw [fqNote, fqPush, hq]
  simp [ht, hh, hx, Part.fqHolds]

theorem part?_updPart_some {s : State} {p : Nat} {q : Part} {f : Part → Part} (h : ∀ x, (f x).id = x.id) (hq : s.part? p = some q) :
    (s.updPart p f).part? p = some (f q) := by
  rw [part?_updPart s p p f h, if_pos rfl, hq, Option.map_some]

/-- A record moves the tail on. -/
theorem fqWrite_part? {s : State} {p : Nat} {q : Part} (b : List Byte) (hq : s.part? p = some q) :
    ∃ y, (fqWrite s q b).part? p = some y ∧ y.fqTail = q.fqTail + 1 := by
  have hid : q.id = p := by simpa using List.find?_some hq
  subst hid
  refine ⟨_, part?_updPart_some ?_ hq, ?_⟩
  · exact fun _ => rfl
  · rfl

theorem fqNote_records (s : State) (p : Nat) {kind : Nat} (cause socket place addr : Nat) (l : List Byte) (hk : BitVec.ofNat 8 kind ≠ 1#8) :
    Says.records s p kind (fqNote s p (fqBytes kind cause socket place addr l)) := by
  intro q hq hh hf
  rw [fqNote_eq cause socket place addr l hk hq hh hf]
  obtain ⟨y, hy, ht⟩ := fqWrite_part? (fqBytes kind cause socket place addr l) hq
  exact ⟨y, hy, ht, fqWrite_mem s q kind cause socket place addr l⟩

end Sys2Proof.Machine
end

section
/-! PROOFS. The threads: which operations leave them alone, and a thread that has ended stays ended. -/

namespace Sys2Proof.Machine
open Sys2Proof

/-! Which threads there are. -/

/-- Both branches keep it. -/
theorem ite_keeps {β : Type} {φ : State → β} {c : Prop} [Decidable c] {u v : State} {w : β} (hu : φ u = w) (hv : φ v = w) :
    φ (if c then u else v) = w := by
  split
  · exact hu
  · exact hv

/-- The threads of a state. -/
def State.crew (s : State) : Thread × List Thread := (s.th, s.threads)

/-- The state that a pair names. -/
theorem crew_of_pair {α : Type} {x : State × α} {u : State} {a : α} {c : Thread × List Thread} (e : x = (u, a)) (h : x.1.crew = c) : u.crew = c := by
  subst e
  exact h

theorem crew_of_sansCache {s u : State} (h : u.sansCache = s.sansCache) : u.crew = s.crew := (congrArg State.crew h :)

theorem crew_of_sansLinks {s u : State} (h : u.sansLinks = s.sansLinks) : u.crew = s.crew := (congrArg (fun x => x.1.crew) h :)

theorem crew_of_sansQueues {s u : State} (h : u.sansQueues = s.sansQueues) : u.crew = s.crew := (congrArg State.crew h :)

@[simp] theorem dieEvent_crew (s : State) (d b e i n : Nat) : (dieEvent s d b e i n).crew = s.crew := crew_of_sansCache (dieEvent_sansCache ..)

@[simp] theorem clusterEvent_crew (s : State) (c b e n : Nat) : (clusterEvent s c b e n).crew = s.crew := by
  unfold clusterEvent
  split
  · exact dieEvent_crew ..
  · rfl

@[simp] theorem coreEvent_crew (s : State) (c e n : Nat) : (coreEvent s c e n).crew = s.crew := by
  unfold coreEvent
  dsimp only
  split <;> rfl

@[simp] theorem fqPush_crew (s : State) (p : Nat) (b : List Byte) (w : FqWait) : (fqPush s p b w).crew = s.crew :=
  crew_of_sansQueues (fqPush_sansQueues ..)

@[simp] theorem joinFault_crew (s : State) (d p v : Nat) (c : Cause) (w : Nat) (rec : Nat → List Byte) (wait : FqWait) :
    (joinFault s d p v c w rec wait).1.crew = s.crew := by
  unfold joinFault
  dsimp only
  split
  · split
    · exact dieEvent_crew ..
    · rfl
  · split
    · exact fqPush_crew ..
    · rfl

@[simp] theorem parkFault_crew (s : State) (t : Thread) (f : FaultRec) : (parkFault s t f).1.crew = s.crew := by
  unfold parkFault
  dsimp only
  split
  · exact joinFault_crew ..
  · exact fqPush_crew ..

/-! Reads of the texture path. -/

@[simp] theorem l1Put_crew (s : State) (c : Nat) (l : L1Line) : (l1Put s c l).crew = s.crew := crew_of_sansCache (l1Put_sansCache ..)

@[simp] theorem l2Touch_crew (s : State) (k : Nat) (e : DWord) : (l2Touch s k e).crew = s.crew := crew_of_sansCache (l2Touch_sansCache ..)

@[simp] theorem tlbUse_crew (s : State) (c p v : Nat) : (tlbUse s c p v).crew = s.crew := by
  unfold tlbUse
  split
  · rfl
  · split
    · exact clusterEvent_crew ..
    · rfl

@[simp] theorem useTlb_crew (s : State) (a : DWord) : (useTlb s a).crew = s.crew := by
  unfold useTlb
  split
  · exact tlbUse_crew ..
  · rfl

@[simp] theorem l1Miss_crew (s : State) (c p k : Nat) (e : DWord) : (l1Miss s c p k e).crew = s.crew :=
  (l1Put_crew ..).trans ((l2Touch_crew ..).trans (clusterEvent_crew ..))

@[simp] theorem l1Read_crew (s : State) (c p k n : Nat) (e : DWord) : (l1Read s c p k n e).2.crew = s.crew := by
  unfold l1Read
  refine (l1Put_crew ..).trans ?_
  split
  · rfl
  · exact l1Miss_crew ..

@[simp] theorem homeRead_crew (s : State) (k n : Nat) : (homeRead s k n).2.crew = s.crew := by
  unfold homeRead
  split
  · rfl
  · split
    · unfold ioRead
      dsimp only
      repeat' split
      all_goals rfl
    · rfl

@[simp] theorem readRun_crew (f : Nat) (s : State) (k n : Nat) : (readRun f s k n).1.crew = s.crew := by
  induction f generalizing s k n with
  | zero => rfl
  | succ f ih =>
    unfold readRun
    split
    · rfl
    · exact (ih ..).trans (homeRead_crew ..)

@[simp] theorem unitFetch_crew (s : State) (u d k n : Nat) : (unitFetch s u d k n).1.crew = s.crew := by
  unfold unitFetch
  split
  · split <;> rfl
  · split
    · rfl
    · exact readRun_crew ..

@[simp] theorem texRead_crew (s : State) (a n : Nat) : (texRead s a n).1.crew = s.crew := by
  unfold texRead
  dsimp only
  split
  · rfl
  · rfl
  · split
    · exact (l1Read_crew ..).trans (useTlb_crew ..)
    · split
      · split
        all_goals
          next e => exact (crew_of_pair e (unitFetch_crew ..)).trans (useTlb_crew ..)
      · split
        · exact (l1Read_crew ..).trans (useTlb_crew ..)
        · exact (homeRead_crew ..).trans ((l2Touch_crew ..).trans (useTlb_crew ..))

@[simp] theorem readSampler_crew (s : State) (a : Nat) : (readSampler s a).1.crew = s.crew := by
  unfold readSampler
  split
  · rfl
  · split
    · rfl
    · split
      · next e => exact crew_of_pair e (texRead_crew ..)
      · next e =>
        have h := crew_of_pair e (texRead_crew ..)
        split
        all_goals
          next e => exact (crew_of_pair e (texRead_crew ..)).trans h

@[simp] theorem addTexel_crew (s : State) (d l : Nat) (i j : Int) (w : Rat) (x : TexAcc) : (addTexel s d l i j w x).1.crew = s.crew := by
  unfold addTexel
  split
  · dsimp only
    split
    all_goals
      next e => exact crew_of_pair e (texRead_crew ..)
  · rfl

@[simp] theorem addTexels_crew (d l : Nat) (r : List (Int × Int × Rat)) (s : State) (x : TexAcc) : (addTexels d l r s x).1.crew = s.crew := by
  induction r generalizing s x with
  | nil => rfl
  | cons y r ih =>
    obtain ⟨i, j, w⟩ := y
    unfold addTexels
    split
    · next e => exact crew_of_pair e (addTexel_crew ..)
    · next e => exact (ih ..).trans (crew_of_pair e (addTexel_crew ..))

@[simp] theorem addLevels_crew (d : Nat) (r : List (Nat × List (Int × Int × Rat))) (s : State) (x : TexAcc) :
    (addLevels d r s x).1.crew = s.crew := by
  induction r generalizing s x with
  | nil => rfl
  | cons y r ih =>
    unfold addLevels
    split
    · next e => exact crew_of_pair e (addTexels_crew ..)
    · next e => exact (ih ..).trans (crew_of_pair e (addTexels_crew ..))

@[simp] theorem sampleSum_crew (s : State) (a : Nat) (u v : Rat) (pick : Nat → Int × Nat × Rat × Rat) :
    (sampleSum s a u v pick).1.crew = s.crew := by
  unfold sampleSum
  split
  · next e => exact crew_of_pair e (readSampler_crew ..)
  · next e => exact (addLevels_crew ..).trans (crew_of_pair e (readSampler_crew ..))

/-! What a unit asks for. -/

@[simp] theorem beginWalk_crew (s : State) (d : Nat) (w : Walk) : (beginWalk s d w).crew = s.crew := by
  refine (foldl_keeps (φ := State.crew) (fun s a => ?_) _ _).trans (dieEvent_crew ..)
  split
  · exact l2Touch_crew ..
  · rfl

@[simp] theorem askWalk_crew (s : State) (d p v : Nat) (u : Option Nat) : (askWalk s d p v u).crew = s.crew := by
  unfold askWalk
  dsimp only
  split
  · rfl
  · split
    · rfl
    · exact beginWalk_crew ..

@[simp] theorem sendSpan_crew (s : State) (a b c d n : Nat) : (sendSpan s a b c d n).crew = s.crew :=
  foldl_keeps (φ := State.crew) (fun _ _ => crew_of_sansLinks (sendBytes_sansLinks ..)) _ _

@[simp] theorem sendOutside_crew (s : State) (a b k : Nat) (r : SpanOp) : (sendOutside s a b k r).1.crew = s.crew := by
  unfold sendOutside
  dsimp only
  split
  · cases r
    all_goals exact ite_keeps rfl rfl
  · exact sendSpan_crew ..

@[simp] theorem askOutside_crew (s : State) (a u g k n : Nat) : (askOutside s a u g k n).crew = s.crew := by
  unfold askOutside
  split
  · rfl
  · dsimp only
    split
    · exact sendOutside_crew ..
    · rfl

@[simp] theorem askUnit_crew (s : State) (u d p : Nat) (e : MStop) : (askUnit s u d p e).crew = s.crew := by
  unfold askUnit
  split
  · exact askWalk_crew ..
  · exact foldl_keeps (fun _ _ => askOutside_crew ..) _ _
  · rfl

/-! The issuing thread goes on by itself. -/

/-- A step of the issuing thread: it is the same thread, and the others stay. -/
def State.sameOthers (s u : State) : Prop := u.threads = s.threads ∧ u.th.uid = s.th.uid

theorem sameOthers_of_crew {s u : State} (h : u.crew = s.crew) : s.sameOthers u := by
  have e := Prod.mk.inj h
  exact ⟨e.2, congrArg Thread.uid e.1⟩

theorem State.sameOthers.trans {s u v : State} (h : s.sameOthers u) (k : u.sameOthers v) : s.sameOthers v :=
  ⟨k.1.trans h.1, k.2.trans h.2⟩

theorem sameOthers_put {s u : State} {t : Thread} (h : s.sameOthers u) (e : t.uid = s.th.uid) : s.sameOthers (u.put t) :=
  ⟨h.1, e⟩

@[simp] theorem advances_uid (t : Thread) (js : List Nat) : (advances t js).uid = t.uid := by
  unfold advances
  induction js generalizing t with
  | nil => rfl
  | cons j js ih =>
    refine (ih _).trans ?_
    unfold advance
    dsimp only
    split <;> rfl

@[simp] theorem clearArms_uid (t : Thread) (l : List Nat) : (clearArms t l).uid = t.uid := by
  unfold clearArms
  induction l generalizing t with
  | nil => rfl
  | cons j js ih =>
    refine (ih _).trans ?_
    dsimp only
    split <;> rfl

@[simp] theorem wrs_uid (t : Thread) (n : Nat) (l : List Word) : (t.wrs n l).uid = t.uid := by
  induction l generalizing t n with
  | nil => rfl
  | cons v r ih => exact ih ..

@[simp] theorem settleCur_uid (t : Thread) (c : Nat) : (t.settleCur c).uid = t.uid := by
  unfold Thread.settleCur
  split <;> rfl

theorem finish_sameOthers {s : State} {t : Thread} (h : t.uid = s.th.uid) (codes : List Code) (ex : List Nat) (len i : Nat) :
    s.sameOthers (finish s t codes ex len i) :=
  ⟨rfl, (advances_uid ..).trans h⟩

theorem raise_sameOthers (s : State) (f : FaultRec) : s.sameOthers (raise s f) := by
  have h := Prod.mk.inj (parkFault_crew s s.th f)
  refine ⟨h.2, ?_⟩
  unfold raise parkFault
  dsimp only
  split <;> rfl

theorem enterHandler_uid (t : Thread) (k c : Nat) (d r : Word) : (enterHandler t k c d r).uid = t.uid := settleCur_uid ..

theorem operandFault_sameOthers (s : State) (len : Nat) (e : OpErr) : s.sameOthers (operandFault s len e) := by
  unfold operandFault
  dsimp only
  split
  · exact sameOthers_put (sameOthers_of_crew (coreEvent_crew ..)) (enterHandler_uid ..)
  · exact raise_sameOthers ..

theorem floatEvent_sameOthers (s : State) (f : Flags) : s.sameOthers (floatEvent s f) := by
  unfold floatEvent
  split
  · exact ⟨rfl, rfl⟩
  · split
    · exact sameOthers_put (sameOthers_of_crew (coreEvent_crew ..)) (enterHandler_uid ..)
    · exact raise_sameOthers ..

theorem finishF_sameOthers {s : State} {t : Thread} (h : t.uid = s.th.uid) (codes : List Code) (i : Nat) (f : Flags) :
    s.sameOthers (finishF s t codes i f) :=
  (finish_sameOthers h ..).trans (floatEvent_sameOthers ..)

theorem ops1_sameOthers {s : State} {len : Nat} {ovr : List Nat} {o : Opnd} {k : Nat → State} (h : ∀ n, s.sameOthers (k n)) :
    s.sameOthers (ops1 s len ovr o k) := by
  unfold ops1 checkOverride
  split
  · exact raise_sameOthers ..
  · split
    · exact operandFault_sameOthers ..
    · exact h _

theorem ops2_sameOthers {s : State} {len : Nat} {ovr : List Nat} {o p : Opnd} {k : Nat → Nat → State} (h : ∀ n m, s.sameOthers (k n m)) :
    s.sameOthers (ops2 s len ovr o p k) := by
  refine ops1_sameOthers (fun n => ?_)
  split
  · exact operandFault_sameOthers ..
  · exact h ..

theorem ops3_sameOthers {s : State} {len : Nat} {ovr : List Nat} {o p q : Opnd} {k : Nat → Nat → Nat → State}
    (h : ∀ n m l, s.sameOthers (k n m l)) : s.sameOthers (ops3 s len ovr o p q k) := by
  refine ops2_sameOthers (fun n m => ?_)
  split
  · exact operandFault_sameOthers ..
  · exact h ..

theorem texStop_sameOthers (s : State) (e : MStop) : s.sameOthers (texStop s e) := by
  unfold texStop
  dsimp only
  split
  · exact raise_sameOthers (forgetUnit (s.put { s.th with run := .ready }) s.th.uid) _
  · have h (y : State) (hy : y.crew = s.crew) (e : MStop) : s.sameOthers (askUnit (y.put (s.th.await y.clk .texels 0 [] 2)) s.th.uid s.th.die s.th.part e) :=
      (sameOthers_put (t := s.th.await y.clk .texels 0 [] 2) (sameOthers_of_crew hy) rfl).trans (sameOthers_of_crew (askUnit_crew ..))
    split
    · exact h _ (clusterEvent_crew ..) _
    · exact h _ rfl _

theorem sampleAt_sameOthers (s : State) (nd : Nat) (codes : List Code) (a : Nat) (u v : Rat) (pick : Nat → Int × Nat × Rat × Rat) :
    s.sameOthers (sampleAt s nd codes a u v pick) := by
  unfold sampleAt
  split
  · next e =>
    have h := crew_of_pair e (sampleSum_crew ..)
    split
    · exact (sameOthers_of_crew h).trans (texStop_sameOthers ..)
    · exact texStop_sameOthers ..
  · next y x e =>
    have h := crew_of_pair e (sampleSum_crew ..)
    exact (sameOthers_of_crew (u := forgetUnit (texResult y x).1 y.th.uid) h).trans (finish_sameOthers (wrs_uid ..) ..)

end Sys2Proof.Machine
end

section
/-! PROOFS. A thread that has ended stays ended. -/

namespace Sys2Proof.Machine
open Sys2Proof

/-- No thread of that identity lives. -/
def State.gone (s : State) (uid : Nat) : Prop := ∀ t ∈ s.th :: s.threads, t.uid = uid → t.live = false

theorem gone_iff {s : State} {uid : Nat} : s.gone uid ↔ s.thread? uid = none := by
  unfold State.gone State.thread? State.findThread
  split
  · next h =>
    simp only [Bool.and_eq_true, beq_iff_eq] at h
    simp [h.1, h.2]
  · next h => simp_all

variable {s u : State} {uid : Nat}

theorem State.gone.of_crew (h : s.gone uid) (e : u.crew = s.crew) : u.gone uid := by
  intro t ht
  rw [(Prod.mk.inj e).1, (Prod.mk.inj e).2] at ht
  exact h t ht

theorem State.gone.mapThreads (h : s.gone uid) {f : Thread → Thread} (hu : ∀ t, (f t).uid = t.uid) (hl : ∀ t, t.live = false → (f t).live = false) :
    (s.mapThreads f).gone uid := by
  intro t ht e
  obtain ⟨x, hx, rfl⟩ : ∃ x ∈ s.th :: s.threads, f x = t := by simpa [State.mapThreads, eq_comm] using ht
  exact hl x (h x hx ((hu x).symm.trans e))

theorem State.gone.updThread (h : s.gone uid) (n : Nat) {f : Thread → Thread} (hu : ∀ t, (f t).uid = t.uid)
    (hl : ∀ t, t.live = false → (f t).live = false) : (s.updThread n f).gone uid := by
  refine h.mapThreads (fun t => ?_) (fun t ht => ?_)
  · split
    · exact hu t
    · rfl
  · split
    · exact hl t ht
    · exact ht

theorem State.gone.subset (h : s.gone uid) (e : ∀ t ∈ u.th :: u.threads, t ∈ s.th :: s.threads) : u.gone uid := fun t ht => h t (e t ht)

theorem State.gone.filter (h : s.gone uid) (f : Thread → Bool) : State.gone { s with threads := s.threads.filter f } uid :=
  h.subset (fun _ ht => List.mem_cons.2 ((List.mem_cons.1 ht).imp_right List.mem_of_mem_filter))

/-- A fold by steps that keep it ended. -/
theorem State.gone.foldl {α : Type} {f : State → α → State} (hf : ∀ y x, y.gone uid → (f y x).gone uid) (l : List α) (h : s.gone uid) :
    (l.foldl f s).gone uid := by
  induction l generalizing s with
  | nil => exact h
  | cons x l ih => exact ih (hf s x h)

theorem State.gone.focus (h : s.gone uid) (n : Nat) : (s.focus n).gone uid := by
  unfold State.focus
  split
  · exact h
  · split
    · exact h
    · next t ht =>
      refine h.subset (fun x hx => ?_)
      simp only [List.mem_cons, List.mem_map] at hx ⊢
      rcases hx with rfl | ⟨y, hy, rfl⟩
      · exact .inr (List.mem_of_find?_eq_some ht)
      · split
        · exact .inl rfl
        · exact .inr hy

/-- The thread in focus is the one that was asked for, where there is one. -/
theorem focus_uid {n : Nat} (h : (s.thread? n).isSome = true) : (s.focus n).th.uid = n := by
  unfold State.focus
  split
  · next e => exact e
  · next e =>
    split
    · next hn =>
      have : s.gone n := by
        intro t ht et
        rcases List.mem_cons.1 ht with rfl | k
        · exact absurd et e
        · exact absurd (beq_iff_eq.2 et) (by simpa using List.find?_eq_none.1 hn t k)
      rw [gone_iff.1 this] at h
      simp at h
    · next t ht => simpa using List.find?_some ht

/-- What another thread does for itself leaves it ended. -/
theorem gone_asThread (h : s.gone uid) (n : Nat) {f : State → State} (hf : ∀ y : State, y.sameOthers (f y)) : (asThread s n f).gone uid := by
  unfold asThread
  dsimp only
  split
  · exact h
  · next hs =>
    have hn : (s.thread? n).isSome = true := by simpa [Option.isSome_iff_ne_none] using hs
    have hne : n ≠ uid := by
      rintro rfl
      rw [gone_iff.1 h] at hn
      simp at hn
    obtain ⟨ht, hu⟩ := hf (s.focus n)
    refine State.gone.focus (fun t hx e => ?_) _
    rcases List.mem_cons.1 hx with rfl | k
    · exact absurd ((hu.trans (focus_uid hn)).symm.trans e) hne
    · exact h.focus n t (List.mem_cons.2 (.inr (ht ▸ k))) e

/-! What waits together. -/

theorem gone_raiseReady (h : s.gone uid) (n : Nat) (f : FaultRec) :
    (asThread s n (fun s => raise (s.put { s.th with run := .ready }) f)).gone uid :=
  gone_asThread h n (fun y => (sameOthers_put (t := { y.th with run := .ready }) ⟨rfl, rfl⟩ rfl).trans (raise_sameOthers ..))

theorem gone_trapTeam (h : s.gone uid) (l : List Thread) (c : Cause) : (trapTeam s l c).gone uid :=
  .foldl (fun _ _ hy => gone_raiseReady hy _ _) l h

theorem gone_resolveSet (h : s.gone uid) (a b d : Option Opnd) (l : List Thread) : (resolveSet a b d l s).1.gone uid := by
  induction l generalizing s with
  | nil => exact h
  | cons t r ih =>
    unfold resolveSet
    split
    · exact ih (gone_asThread h _ (fun y => (sameOthers_put (t := { y.th with run := .ready }) ⟨rfl, rfl⟩ rfl).trans (operandFault_sameOthers ..)))
    · exact ih h

theorem wr_uid (t : Thread) (n : Nat) (v : Word) : (t.wr n v).uid = t.uid := rfl

theorem wrP_uid (t : Thread) (n : Nat) (v : Bool) : (t.wrP n v).uid = t.uid := by
  unfold Thread.wrP
  split <;> rfl

theorem gone_runSet (h : s.gone uid) (op : CrossOp) (d a b : Code) (l : List Thread) (i : Nat) : (runSet s op d a b l i).gone uid := by
  unfold runSet
  dsimp only
  refine .foldl (fun y m hy => gone_asThread hy _ (fun z => finishF_sameOthers ?_ ..)) _ (gone_resolveSet h _ _ _ _)
  have hc := clearArms_uid z.th
  cases op
  case voteAny => exact (wrP_uid ..).trans (hc _)
  case voteAll => exact (wrP_uid ..).trans (hc _)
  all_goals exact hc _

theorem gone_runSets (h : s.gone uid) (n : Nat) (l : List Thread) (i : Nat) : (runSets n l i s).gone uid := by
  induction n generalizing l i s with
  | zero => exact h
  | succ n ih =>
    unfold runSets
    split
    · exact h
    · refine ih ?_ _ _
      split
      · split
        · exact gone_runSet h _ _ _ _ _ _
        · exact h
      · exact h

theorem gone_crossCheck (h : s.gone uid) (g r w : Nat) : (crossCheck s g r w).gone uid := by
  unfold crossCheck
  dsimp only
  split
  · exact h
  · exact gone_runSets h _ _ _

theorem complete_uid (t : Thread) (l : List Word) (k : Nat) : (t.complete l k).uid = t.uid := (advances_uid ..).trans (wrs_uid ..)

/-- The completion of threads that live. -/
theorem gone_complete (h : s.gone uid) {c : Thread → Bool} (hc : ∀ t, c t = true → t.live = true) {f : Thread → Thread}
    (hf : ∀ t, (f t).uid = t.uid) : (s.mapThreads (fun t => if c t then f t else t)).gone uid := by
  refine h.mapThreads (fun t => ?_) (fun t ht => ?_)
  · split
    · exact hf t
    · rfl
  · split
    · next k => simp [hc t k] at ht
    · exact ht

theorem gone_releaseTeam (h : s.gone uid) (l : List Thread) (k : Nat) : (releaseTeam s l k).gone uid :=
  gone_complete h (fun _ ht => (Bool.and_eq_true_iff.1 ht).2) (fun _ => complete_uid ..)

theorem gone_ite {c : Prop} [Decidable c] {a b : State} (ha : a.gone uid) (hb : b.gone uid) : (if c then a else b).gone uid := by
  split
  · exact ha
  · exact hb

theorem gone_at_ {k : Nat} {e : Event} : (s.at_ k e).gone uid ↔ s.gone uid := Iff.rfl

theorem gone_issueMma (h : s.gone uid) (m : Nat) (k : Bool) (l : List Thread) : (issueMma s m k l).gone uid := by
  unfold issueMma
  dsimp only
  split
  · exact h
  · split
    · refine gone_ite (gone_trapTeam h _ _) (gone_ite (gone_trapTeam h _ _) (gone_ite (gone_trapTeam h _ _) (gone_ite (gone_trapTeam h _ _) ?_)))
      refine gone_at_.2 (gone_complete ?_ (fun _ ht => (Bool.and_eq_true_iff.1 ht).2) (fun t => ?_))
      · refine h.of_crew ?_
        exact ite_keeps (φ := State.crew) ((coreEvent_crew ..).trans (coreEvent_crew ..)) (coreEvent_crew ..)
      · exact complete_uid t [] 0
    · exact h

theorem gone_endMwait (h : s.gone uid) (l : List Thread) (g k : Nat) : (endMwait s l g k).gone uid := by
  refine gone_releaseTeam (State.gone.mapThreads (State.gone.of_crew h ?_) (fun t => ?_) (fun t ht => ?_)) _ _
  · rfl
  · split <;> rfl
  · split
    · exact ht
    · exact ht

theorem gone_teamCheck (h : s.gone uid) (g r j : Nat) : (teamCheck s g r j).gone uid := by
  unfold teamCheck
  dsimp only
  split
  · exact h
  · split
    · exact gone_trapTeam h _ _
    · split
      · exact h
      · split
        · exact gone_releaseTeam (h.of_crew (u := updTeam s _ _ _) rfl) _ _
        · split
          · exact h
          · exact gone_endMwait h _ _ _
        · split
          · exact h
          · exact gone_issueMma h _ _ _
        · exact h

theorem gone_runQuad (h : s.gone uid) (op : QuadOp) (d a b : Code) (l : List Thread) : (runQuad s op d a b l).gone uid := by
  cases op
  case smp =>
    unfold runQuad
    dsimp only
    split
    · exact .foldl (fun y x hy => gone_asThread hy _ (fun _ => texStop_sameOthers ..)) _ h
    · exact .foldl (fun y x hy => gone_asThread hy _ (fun _ => ops3_sameOthers (fun _ _ _ => sampleAt_sameOthers ..))) _ h
  all_goals
    unfold runQuad
    dsimp only
    exact .foldl (fun y x hy => gone_asThread hy _ (fun z => ops2_sameOthers (fun _ _ => finishF_sameOthers ((wr_uid ..).trans (clearArms_uid z.th [1])) ..))) _ h

theorem gone_runQuads (h : s.gone uid) (n : Nat) (l : List Thread) : (runQuads n l s).gone uid := by
  induction n generalizing l s with
  | zero => exact h
  | succ n ih =>
    unfold runQuads
    split
    · exact h
    · refine ih ?_ _
      split
      · split
        · exact gone_runQuad h _ _ _ _ _
        · exact h
      · exact h

theorem gone_quadCheck (h : s.gone uid) (g r w q : Nat) : (quadCheck s g r w q).gone uid := by
  unfold quadCheck
  dsimp only
  split
  · exact h
  · exact gone_runQuads h _ _

theorem l1Acquire_crew (s : State) (c p : Nat) : (l1Acquire s c p).crew = s.crew := rfl

theorem gone_barCheck (h : s.gone uid) (b : Bool) (n d : Nat) : (barCheck s b n d).gone uid := by
  unfold barCheck
  dsimp only
  refine gone_ite h (gone_complete (h.of_crew ?_) (fun t ht => ?_) (fun t => complete_uid ..))
  · exact foldl_keeps (φ := State.crew) (fun y (t : Thread) => l1Acquire_crew y (clusterOf t.core) t.part) _ _
  · simp only [barMember, Bool.and_eq_true] at ht
    exact ht.1.1.1

/-! What ends with it. -/

theorem gone_pokeOwner (h : s.gone uid) (n : Nat) : (pokeOwner s n).gone uid := by
  refine h.updThread n (fun t => ?_) (fun t ht => ?_)
  · split <;> rfl
  · have : t.run = .absent := by simpa [Thread.live] using ht
    simp [this, Thread.live]

theorem gone_pokeEngine (h : s.gone uid) (c : Nat) : (pokeEngine s c).gone uid := by
  refine gone_complete (c := fun t => t.live && t.core / 64 == c && t.run == .waiting .engine) h (fun t ht => ?_) (fun _ => rfl)
  simp only [Bool.and_eq_true] at ht
  exact ht.1.1

theorem gone_offerPlace (h : s.gone uid) (p : Place) : (offerPlace s p).gone uid := by
  unfold offerPlace
  split
  · refine gone_pokeEngine ?_ _
    split
    · exact h
    · exact h
  · exact gone_pokeEngine h _
  · exact h

theorem gone_reap (h : s.gone uid) (n : Nat) : (reap s n).gone uid := by
  unfold reap
  split
  · exact h
  · dsimp only
    split
    · exact h
    · have k : (s.updThread n (fun t => { t with place := .nowhere })).gone uid := h.updThread n (fun _ => rfl) (fun _ ht => ht)
      exact gone_offerPlace (k.filter _) _

theorem recheck_crew (s : State) (p n k : Nat) : (recheck s p n k).crew = s.crew := by
  unfold recheck
  split
  · split <;> rfl
  · rfl

theorem gone_groupCheck (h : s.gone uid) (g : Nat) : (groupCheck s g).gone uid := by
  unfold groupCheck
  split
  · exact h
  · dsimp only
    split
    · split
      · exact h
      · exact (h.filter _).of_crew rfl
    · split
      · exact h
      · exact (h.filter _).of_crew rfl

theorem gangCheck_crew (s : State) (g : Nat) : (gangCheck s g).crew = s.crew := by
  unfold gangCheck
  split
  · rfl
  · dsimp only
    refine ite_keeps rfl ((recheck_crew ..).trans ?_)
    split
    · exact ite_keeps (φ := State.crew) rfl rfl
    · exact ite_keeps (φ := State.crew) rfl rfl

/-- A thread that is made to end has ended. -/
theorem updThread_gone (s : State) (uid : Nat) {f : Thread → Thread} (hl : ∀ t, (f t).live = false) :
    (s.updThread uid f).gone uid := by
  intro x hx e
  obtain ⟨y, -, rfl⟩ : ∃ y ∈ s.th :: s.threads, (if y.uid == uid then f y else y) = x := by
    rcases List.mem_cons.1 hx with rfl | k
    · exact ⟨s.th, List.mem_cons_self, rfl⟩
    · obtain ⟨y, hy, rfl⟩ := List.mem_map.1 k
      exact ⟨y, List.mem_cons_of_mem _ hy, rfl⟩
  split at e
  · next k => rw [if_pos k]; exact hl y
  · next k => exact absurd (beq_iff_eq.2 e) k

theorem endThread_gone (s : State) (uid : Nat) : (endThread s uid).gone uid := by
  unfold endThread
  split
  · next h => exact gone_iff.2 h
  · next t ht =>
    lift_lets
    extract_lets s1 s2 busy s3 s4 s5 s6 s7 s8 s9 s10 s11
    have h4 : s4.gone uid := updThread_gone s3 uid (fun _ => rfl)
    have h5 : s5.gone uid := by
      unfold s5
      split
      · exact State.gone.updThread (s := s4.updCore _ _) h4 uid (fun _ => rfl) (fun _ hx => hx)
      · exact gone_reap h4 uid
    have h6 : s6.gone uid := by
      unfold s6
      split
      · exact h5.of_crew rfl
      · exact h5.of_crew rfl
      · exact h5
    have h7 : s7.gone uid := by
      unfold s7
      split
      · exact gone_pokeOwner h6 _
      · exact h6
    have h9 : s9.gone uid := gone_barCheck (gone_barCheck h7 _ _ _) _ _ _
    have h10 : s10.gone uid := gone_ite (gone_quadCheck (gone_teamCheck (gone_crossCheck h9 _ _ _) _ _ _) _ _ _ _) h9
    have h11 : s11.gone uid := gone_ite (h10.of_crew rfl) h10
    exact gone_ite ((gone_groupCheck h11 _).of_crew ((recheck_crew ..).trans (gangCheck_crew ..))) h11

/-- A thread that is killed lives no more. -/
theorem killThread_gone (s : State) (uid seq : Nat) : (killThread s uid seq).gone uid := by
  unfold killThread
  split
  · next h => exact gone_iff.2 h
  · exact endThread_gone _ uid

end Sys2Proof.Machine
end

section
/-! PROOFS. Budgets, scrubs and uncorrectable errors (O52). -/

namespace Sys2Proof.Machine
open Sys2Proof

/-! Budgets (R73, R74). -/

/-- An event that is set once is due at some time. -/
theorem atOnce_mem (s : State) (c : Nat) (e : Event) : ∃ k, (k, e) ∈ (s.atOnce c e).timers := by
  unfold State.atOnce
  split
  · next h =>
    obtain ⟨⟨k, e'⟩, hx, he⟩ := List.any_eq_true.1 h
    exact ⟨k, (beq_iff_eq.1 he : e' = e) ▸ hx⟩
  · exact ⟨c, (mem_at_ ..).2 (.inl rfl)⟩

theorem atOnce_eq (s : State) (c : Nat) (e : Event) : s.atOnce c e = { s with timers := (s.atOnce c e).timers } := by
  unfold State.atOnce
  split <;> rfl

/-- Work that waits for a budget. -/
def budgetWaits (s : State) (k : Nat) : Prop := ∃ x ∈ s.deferred, k ∈ x.1

theorem any_deferred {s : State} {k n a : Nat} :
    (s.deferred.any (fun d => d.1.any (fun j => [(k, n, a)].any (fun x => x.1 == j)))) = true ↔ budgetWaits s k := by
  simp [budgetWaits]

/-- Within its allowance, and behind nothing that waits for it, work is done and charged. -/
theorem budgeted_now {s : State} {k n a : Nat} (h : Table.at s.budget k 0 + n ≤ a) (w : ¬budgetWaits s k) (e : Event) (go late : State → State) :
    ∃ z, budgeted s [(k, n, a)] e go late = go { s with budget := Table.put s.budget k (Table.at s.budget k 0 + n), timers := z } := by
  rw [budgeted, spend, if_neg (mt any_deferred.1 w)]
  simp only [chargeAll]
  rw [if_neg (by omega), Option.map_some]
  exact ⟨_, congrArg go (atOnce_eq ..)⟩

/-- Beyond it, or behind such work, it waits for the next period. -/
theorem budgeted_late {s : State} {k n a : Nat} (h : a < Table.at s.budget k 0 + n ∨ budgetWaits s k) (e : Event) (go late : State → State) :
    budgeted s [(k, n, a)] e go late = late (defer s [k] e) := by
  have hs : spend s [(k, n, a)] = none := by
    rw [spend]
    split
    · rfl
    · next w =>
      rw [chargeAll, if_pos (h.resolve_right (mt any_deferred.2 w))]
      rfl
  rw [budgeted, hs]
  rfl

theorem defer_eq (s : State) (l : List Nat) (e : Event) : defer s l e = { s with deferred := s.deferred ++ [(l, e)], timers := (defer s l e).timers } :=
  atOnce_eq ..

/-- A new period: the budgets and what was deferred, and links as far as a queue holds something. -/
theorem execBudgetPeriod_sansLinks (s : State) :
    ∃ u, exec .budgetPeriod s = .next u ∧ s.sameMem u ∧ u.budget = [] ∧ u.deferred = [] ∧ s.deferred.map Prod.snd <+: u.agenda := by
  let y : State := { s with budget := [], agenda := s.deferred.map Prod.snd ++ s.agenda, deferred := [] }
  let l := (s.links.filter (fun l => !l.2.queue.isEmpty)).map Prod.fst
  have h : (l.foldl pumpLink y).sansLinks = y.sansLinks := foldl_keeps pumpLink_sansLinks l y
  have g : y.agenda <+: (l.foldl pumpLink y).agenda := foldl_agenda pumpLink_agenda l y
  refine ⟨l.foldl pumpLink y, rfl, fun a => ?_, ?_, ?_, (List.prefix_append ..).trans g⟩
  · exact congrArg (fun m => memRead m a) (congrArg (fun x => x.1.mem) h :)
  · exact (congrArg (fun x => x.1.budget) h :)
  · exact (congrArg (fun x => x.1.deferred) h :)

/-- No queue holds anything: the budgets and what was deferred alone. -/
theorem execBudgetPeriod_empty {s : State} (h : ∀ x ∈ s.links, x.2.queue = []) :
    exec .budgetPeriod s = .next { s with budget := [], agenda := s.deferred.map Prod.snd ++ s.agenda, deferred := [] } := by
  have e : s.links.filter (fun l => !l.2.queue.isEmpty) = [] := List.filter_eq_nil_iff.2 (fun x hx => by simp [h x hx])
  rw [show exec .budgetPeriod s = execBudgetPeriod s from rfl, execBudgetPeriod]
  simp only [e, List.map_nil, List.foldl_nil]

/-! Scrubs (R75, R76). -/

/-- A core's event counters change, and nothing else of it. -/
theorem coreEvent_issued (s : State) (c ev n k : Nat) : ((coreEvent s c ev n).core k).issued = (s.core k).issued := by
  unfold coreEvent
  dsimp only
  split
  · rfl
  · by_cases h : k = c
    · subst h
      simp [State.core]
    · simp [State.core, at_put_other _ _ _ h]

theorem coreEvent_cores (s : State) (c ev n : Nat) : ∃ l, coreEvent s c ev n = { s with cores := l } := by
  unfold coreEvent
  dsimp only
  split
  · exact ⟨_, rfl⟩
  · exact ⟨_, rfl⟩

theorem clusterEvent_evc (s : State) (c b e n : Nat) : ∃ l, clusterEvent s c b e n = { s with evc := l } := by
  unfold clusterEvent
  split
  · obtain ⟨l, h, -⟩ := dieEvent_counters s (coreDie c) b e (coreCluster c) n
    exact ⟨l, h⟩
  · exact ⟨_, rfl⟩

/-- The delay of a thread by an issue slot that its core loses. -/
def slotLost (clk c : Nat) (t : Thread) : Thread := if t.live && t.core == c && decide (clk < t.readyAt) then { t with readyAt := t.readyAt + 1 } else t

/-- A lost issue slot: the threads of the core that are due later, the core's count and event counters. -/
theorem stealSlot_eq (s : State) (c : Nat) : ∃ l k, stealSlot s c =
    { s with th := slotLost s.clk c s.th, threads := s.threads.map (slotLost s.clk c), cores := l, evc := k } ∧
      ((stealSlot s c).core c).issued = max s.clk (s.core c).issued + 1 := by
  let y := (s.updCore c (fun k => { k with issued := max s.clk k.issued + 1 })).mapThreads (slotLost s.clk c)
  obtain ⟨l, hl⟩ := coreEvent_cores y c 2 1
  obtain ⟨k, hk⟩ := clusterEvent_evc (coreEvent y c 2 1) c 1 1 1
  refine ⟨l, k, hk.trans (by rw [hl]; rfl), ?_⟩
  calc ((stealSlot s c).core c).issued
      = ((coreEvent y c 2 1).core c).issued := by rw [show stealSlot s c = _ from hk]; rfl
    _ = (y.core c).issued := coreEvent_issued ..
    _ = max s.clk (s.core c).issued + 1 := by simp [y, State.core, State.mapThreads]

/-- Within its allowance the scrub of a core takes its next issue slot. -/
theorem patrolScrub_core {s : State} {c : Nat} (h : Table.at s.budget (2 ^ 22 + c) 0 < 10) (w : ¬budgetWaits s (2 ^ 22 + c)) :
    ∃ u, exec (.patrolScrub (.core c) false) s = .next u ∧ s.sameMem u ∧
      u.th = (if s.th.live = true ∧ s.th.core = c ∧ s.clk < s.th.readyAt then { s.th with readyAt := s.th.readyAt + 1 } else s.th) ∧
      (u.core c).issued = max s.clk (s.core c).issued + 1 ∧ Table.at u.budget (2 ^ 22 + c) 0 = Table.at s.budget (2 ^ 22 + c) 0 + 1 := by
  obtain ⟨z, hz⟩ := budgeted_now (a := 10) (n := 1) h w (.patrolScrub (.core c) false) (fun s => Machine.corrected (stealSlot s c) false (coreDie c) 0) id
  obtain ⟨l, k, he, hi⟩ := stealSlot_eq { s with budget := Table.put s.budget (2 ^ 22 + c) (Table.at s.budget (2 ^ 22 + c) 0 + 1), timers := z } c
  refine ⟨_, congrArg Host.Outcome.next hz, ?_, ?_, hi, ?_⟩
  all_goals rw [show Machine.corrected (stealSlot _ c) false (coreDie c) 0 = _ from he]
  · exact fun _ => rfl
  · simp [slotLost, and_assoc]
  · exact at_put ..

/-- Beyond it the scrub waits for the next period. -/
theorem patrolScrub_core_late {s : State} {c : Nat} (h : 10 ≤ Table.at s.budget (2 ^ 22 + c) 0 ∨ budgetWaits s (2 ^ 22 + c)) :
    ∃ u, exec (.patrolScrub (.core c) false) s = .next u ∧ u.cores = s.cores ∧ u.th = s.th ∧ u.budget = s.budget ∧
      u.deferred = s.deferred ++ [([2 ^ 22 + c], .patrolScrub (.core c) false)] ∧ ∃ k, (k, .budgetPeriod) ∈ u.timers := by
  have hz := budgeted_late (n := 1) (h.imp_left Nat.lt_succ_of_le) (.patrolScrub (.core c) false)
    (fun s => Machine.corrected (stealSlot s c) false (coreDie c) 0) id
  have he := defer_eq s [2 ^ 22 + c] (.patrolScrub (.core c) false)
  refine ⟨_, congrArg Host.Outcome.next hz, ?_, ?_, ?_, ?_, atOnce_mem ..⟩
  all_goals exact (congrArg _ he).trans rfl

/-- A scrub that corrects nothing changes what the counters of a die hold. -/
theorem scrubbed_evc (s : State) (pa d e c n : Nat) :
    ∃ l, (if isStack pa then dieEvent s d 3 e c n else s) = { s with evc := l } := by
  split
  · obtain ⟨l, h, -⟩ := dieEvent_counters s d 3 e c n
    exact ⟨l, h⟩
  · exact ⟨_, rfl⟩

/-- The scrub of 64 bytes of a range. -/
theorem patrolScrub_range_eq (s : State) (pa : Nat) : exec (.patrolScrub (.range pa 64) false) s =
    .next (budgeted s [(scrubKey pa, 1, 100)] (.patrolScrub (.range pa 64) false)
      (fun s => if isStack pa then dieEvent s ((keyDie pa).getD 0) 3 1 (homeChannel pa) 1 else s)
      (fun s => if isStack pa then dieEvent s ((keyDie pa).getD 0) 3 3 (homeChannel pa) 1 else s)) := by
  rw [show exec (.patrolScrub (.range pa 64) false) s = execPatrolScrub (.range pa 64) false s from rfl, execPatrolScrub]
  simp [scrubRange, corrected]

theorem patrolScrub_range {s : State} {pa : Nat} (h : Table.at s.budget (scrubKey pa) 0 < 100) (w : ¬budgetWaits s (scrubKey pa)) :
    ∃ u, exec (.patrolScrub (.range pa 64) false) s = .next u ∧ s.sameMem u ∧ u.th = s.th ∧
      Table.at u.budget (scrubKey pa) 0 = Table.at s.budget (scrubKey pa) 0 + 1 := by
  obtain ⟨z, hz⟩ := budgeted_now (a := 100) (n := 1) h w (.patrolScrub (.range pa 64) false)
    (fun s => if isStack pa then dieEvent s ((keyDie pa).getD 0) 3 1 (homeChannel pa) 1 else s)
    (fun s => if isStack pa then dieEvent s ((keyDie pa).getD 0) 3 3 (homeChannel pa) 1 else s)
  obtain ⟨l, he⟩ := scrubbed_evc { s with budget := Table.put s.budget (scrubKey pa) (Table.at s.budget (scrubKey pa) 0 + 1), timers := z } pa
    ((keyDie pa).getD 0) 1 (homeChannel pa) 1
  exact ⟨_, (patrolScrub_range_eq s pa).trans (congrArg Host.Outcome.next (hz.trans he)), fun _ => rfl, rfl, at_put ..⟩

theorem patrolScrub_range_late {s : State} {pa : Nat} (h : 100 ≤ Table.at s.budget (scrubKey pa) 0 ∨ budgetWaits s (scrubKey pa)) :
    ∃ u, exec (.patrolScrub (.range pa 64) false) s = .next u ∧ s.sameMem u ∧ u.budget = s.budget ∧
      u.deferred = s.deferred ++ [([scrubKey pa], .patrolScrub (.range pa 64) false)] := by
  have hz := budgeted_late (n := 1) (h.imp_left Nat.lt_succ_of_le) (.patrolScrub (.range pa 64) false)
    (fun s => if isStack pa then dieEvent s ((keyDie pa).getD 0) 3 1 (homeChannel pa) 1 else s)
    (fun s => if isStack pa then dieEvent s ((keyDie pa).getD 0) 3 3 (homeChannel pa) 1 else s)
  have hd := defer_eq s [scrubKey pa] (.patrolScrub (.range pa 64) false)
  obtain ⟨l, he⟩ := scrubbed_evc (defer s [scrubKey pa] (.patrolScrub (.range pa 64) false)) pa ((keyDie pa).getD 0) 3 (homeChannel pa) 1
  refine ⟨_, (patrolScrub_range_eq s pa).trans (congrArg Host.Outcome.next (hz.trans he)), fun a => ?_, ?_, ?_⟩
  · exact (congrArg (fun u => memRead u.mem a) hd).trans rfl
  · exact (congrArg State.budget hd).trans rfl
  · exact (congrArg State.deferred hd).trans rfl

/-! Uncorrectable errors (R23). -/

theorem memErr_some (s : State) (p socket place addr len : Nat) : Says.records s p 2 (memErr s (some p) socket place addr len) :=
  fqNote_records (s.logAt "uncorrectable error" socket (if len = 0 then place else addr)) p 0 socket place addr _ (by decide)

theorem memErr_crew (s : State) (p : Option Nat) (socket place addr len : Nat) : (memErr s p socket place addr len).crew = s.crew := by
  unfold memErr
  dsimp only
  split
  · exact fqPush_crew ..
  · rfl

/-- An error in a range is recorded for the partition of its die. -/
theorem uncorrectableError_range {s : State} {pa p : Nat} (n : Nat) (h : (keyDie pa).bind s.partOfDie = some p) :
    ∃ u, exec (.uncorrectableError (.range pa n)) s = .next u ∧ u.th = s.th ∧ Says.records s p 2 u := by
  refine ⟨rangeError s pa n, rfl, (Prod.mk.inj (memErr_crew ..)).1, ?_⟩
  unfold rangeError
  rw [h]
  exact memErr_some s p _ _ _ _

/-- An error in a core whose mover is idle is recorded. -/
theorem uncorrectableError_core {s : State} {c p : Nat} (h : s.partOfDie (coreDie c) = some p) (hm : (s.core c).movers = []) :
    ∃ u, exec (.uncorrectableError (.core c)) s = .next u ∧ u.th = s.th ∧ Says.records s p 2 u := by
  have hc : (memErr s (some p) (coreDie c) (moverPlace c) 0 0).cores = s.cores :=
    (congrArg State.cores (fqNote_sansQueues (s.logAt "uncorrectable error" (coreDie c) (moverPlace c)) p _) :)
  refine ⟨memErr s (some p) (coreDie c) (moverPlace c) 0 0, ?_, (Prod.mk.inj (memErr_crew ..)).1, memErr_some s p _ _ _ _⟩
  rw [show exec (.uncorrectableError (.core c)) s = execUncorrectableError (.core c) s from rfl, execUncorrectableError]
  simp only [h]
  rw [show State.core _ c = s.core c from congrArg (fun l => Table.at l c Core.reset) hc, hm]

/-- An error in a thread kills it. -/
theorem uncorrectableError_thread (s : State) (uid : Nat) :
    ∃ u, exec (.uncorrectableError (.thread uid)) s = .next u ∧ u.thread? uid = none := by
  rw [show exec (.uncorrectableError (.thread uid)) s = execUncorrectableError (.thread uid) s from rfl, execUncorrectableError]
  refine ⟨_, rfl, gone_iff.1 ?_⟩
  split
  · next h => exact gone_iff.2 h
  · next t h =>
    have ht : t.uid = uid := by
      unfold State.thread? State.findThread at h
      split at h
      · next k =>
        cases h
        exact beq_iff_eq.1 (Bool.and_eq_true_iff.1 k).1
      · exact beq_iff_eq.1 (Bool.and_eq_true_iff.1 (List.find?_some h :)).1
    rw [← ht]
    exact killThread_gone _ t.uid _

/-- Settles O52: budgets, scrubs and errors, case by case. -/
theorem backgroundWork : Obligations.BackgroundWork := by
  intro s
  refine ⟨execBudgetPeriod_sansLinks s, execBudgetPeriod_empty, fun c => ?_, fun pa => ?_, fun pa n p h => uncorrectableError_range n h,
    fun c p h hm => uncorrectableError_core h hm, fun _ => uncorrectableError_thread s s.th.uid⟩
  · exact ⟨patrolScrub_core, patrolScrub_core_late⟩
  · exact ⟨patrolScrub_range, patrolScrub_range_late⟩

end Sys2Proof.Machine
end

section
/-! PROOFS. Records, streams and counters: what their work leaves alone. -/

namespace Sys2Proof.Machine
open Sys2Proof

/-- A partition as it was configured and started: without streams, counters, draws and fault queue. -/
def Part.outline (q : Part) : Part :=
  { Part.fresh q.id with
    dies := q.dies, running := q.running, superCode := q.superCode, measReg := q.measReg, functions := q.functions, wdlim := q.wdlim
    ibusy := q.ibusy, ibusyFrom := q.ibusyFrom, starting := q.starting }

/-- A die without its rasteriser. -/
def Die.sansRast (d : Die) : Die := { d with rast := Raster.reset }

/-- The state without memory, caches, links, what is due, streams, fault queues, rasterisers and the next identity; with it which links are up,
whose the span ports are and which event counters are in use. -/
def State.sansRecords (s : State) : State × ((Nat → Bool) × (Nat → Nat)) × List Nat :=
  ({ s with
    mem := [], l1 := [], l2 := [], evc := [], free := 0, full := [], links := [], spans := Vector.replicate 16 Span.reset, timers := []
    out := [], agenda := [], nextId := 0, parts := s.parts.map Part.outline, dies := s.dies.map Die.sansRast }, (s.ups, s.spanParts),
    s.evc.map Prod.fst)

theorem blankCounters_fst {l k : Table EvCounter} (h : blankCounters l = blankCounters k) : l.map Prod.fst = k.map Prod.fst := by
  have e (l : Table EvCounter) : l.map Prod.fst = (blankCounters l).map Prod.fst := by simp [blankCounters]
  rw [e l, e k, h]

variable {s u : State}

theorem sansRecords_of_sansCache (h : u.sansCache = s.sansCache) : u.sansRecords = s.sansRecords :=
  Prod.ext (congrArg (fun x => x.sansRecords.1) h :) (Prod.ext (congrArg (fun x => x.sansRecords.2.1) h :)
    (blankCounters_fst (congrArg State.evc h :)))

theorem sansRecords_of_sansLinks (h : u.sansLinks = s.sansLinks) : u.sansRecords = s.sansRecords :=
  Prod.ext (congrArg (fun x => x.1.sansRecords.1) h :) (Prod.ext (congrArg Prod.snd h :) (blankCounters_fst (congrArg (fun x => x.1.evc) h :)))

theorem outline_sansQueue (l : List Part) : (l.map Part.sansQueue).map Part.outline = l.map Part.outline := by
  rw [List.map_map]
  rfl

theorem sansRecords_of_sansQueues (h : u.sansQueues = s.sansQueues) : u.sansRecords = s.sansRecords := by
  have e : u.parts.map Part.outline = s.parts.map Part.outline := by
    rw [← outline_sansQueue, ← outline_sansQueue s.parts]
    exact congrArg (List.map Part.outline) (congrArg State.parts h :)
  refine Prod.ext ?_ (congrArg (fun x => x.sansRecords.2) h :)
  have k := (congrArg (fun x : State => { x.sansRecords.1 with parts := u.parts.map Part.outline }) h :)
  exact k.trans (congrArg (fun l => { s.sansRecords.1 with parts := l }) e)

theorem updPart_sansRecords (s : State) (p : Nat) {f : Part → Part} (h : ∀ x, (f x).outline = x.outline) :
    (s.updPart p f).sansRecords = s.sansRecords :=
  congrArg (fun l => ({ s.sansRecords.1 with parts := l }, s.sansRecords.2)) (updPart_map s p h)

@[simp] theorem updStream_sansRecords (s : State) (p n : Nat) (f : Stream → Stream) : (s.updStream p n f).sansRecords = s.sansRecords :=
  updPart_sansRecords s p (fun _ => rfl)

/-- What a change of one die keeps of every die. -/
theorem updDie_map {β : Type} {ψ : Die → β} (s : State) (d : Nat) {f : Die → Die} (h : ψ (f (s.die d)) = ψ (s.die d)) :
    (s.updDie d f).dies.map ψ = s.dies.map ψ := by
  ext i hi
  simp only [State.updDie_dies, Vector.getElem_map, Vector.getElem_setIfInBounds]
  split
  · next e =>
    subst e
    rw [h]
    simp [State.die, hi]
  · rfl

theorem updDie_sansRecords (s : State) (d : Nat) {f : Die → Die} (h : (f (s.die d)).sansRast = (s.die d).sansRast) :
    (s.updDie d f).sansRecords = s.sansRecords :=
  congrArg (fun l => ({ s.sansRecords.1 with dies := l }, s.sansRecords.2)) (updDie_map s d h)

@[simp] theorem updRast_sansRecords (s : State) (d : Nat) (f : Raster → Raster) : (s.updRast d f).sansRecords = s.sansRecords :=
  updDie_sansRecords s d rfl

@[simp] theorem fqNote_sansRecords (s : State) (p : Nat) (b : List Byte) : (fqNote s p b).sansRecords = s.sansRecords :=
  sansRecords_of_sansQueues (fqNote_sansQueues ..)

@[simp] theorem atOnce_sansRecords (s : State) (c : Nat) (e : Event) : (s.atOnce c e).sansRecords = s.sansRecords :=
  sansRecords_of_sansLinks (atOnce_sansLinks ..)

theorem later_sansRecords (s : State) (e : Event) : (s.later e).sansRecords = s.sansRecords := rfl

@[simp] theorem holdRec_sansRecords (s : State) (p n k a b : Nat) : (holdRec s p n k a b).sansRecords = s.sansRecords := by
  unfold holdRec
  dsimp only
  split
  · exact (fqNote_sansRecords ..).trans (updStream_sansRecords ..)
  · exact updStream_sansRecords ..

@[simp] theorem updRec_sansRecords (s : State) (p n k : Nat) (f : Rec → Rec) : (updRec s p n k f).sansRecords = s.sansRecords :=
  updStream_sansRecords ..

@[simp] theorem releaseAll_sansRecords (s : State) (p : Nat) : (releaseAll s p).sansRecords = s.sansRecords :=
  foldl_keeps (fun s c => sansRecords_of_sansCache (l1Release_sansCache s c p)) _ _

@[simp] theorem putEntry_sansRecords (s : State) (p n i : Nat) (e : BitVec 128) : (putEntry s p n i e).sansRecords = s.sansRecords := by
  unfold putEntry
  split
  · rfl
  · refine (updStream_sansRecords ..).trans (foldl_keeps (fun s d => ?_) _ _)
    rfl

@[simp] theorem linkNote_sansRecords (s : State) (p k : Nat) : (linkNote s p k).sansRecords = s.sansRecords := fqNote_sansRecords ..

@[simp] theorem postEntry_sansRecords (s : State) (p : Nat) (x : Stream) (e : BitVec 128) : (postEntry s p x e).sansRecords = s.sansRecords := by
  unfold postEntry
  split
  · rfl
  · dsimp only
    split
    · split
      · rfl
      · exact linkNote_sansRecords ..
    · exact linkNote_sansRecords ..

@[simp] theorem ctrDo_sansRecords (s : State) (p : Nat) (a : Bool) (k : Nat) (v : DWord) : (ctrDo s p a k v).sansRecords = s.sansRecords := by
  have h (q : State) (f : Part → Table DWord) : (q.updPart p (fun x => { x with ctrs := f x })).sansRecords = q.sansRecords :=
    updPart_sansRecords q p (fun _ => rfl)
  unfold ctrDo
  split
  · rfl
  · dsimp only
    split
    · split
      · exact (fqNote_sansRecords ..).trans (h ..)
      · exact h ..
    · split
      · exact fqNote_sansRecords ..
      · exact h ..

@[simp] theorem emptySlot_sansRecords (s : State) (p n k : Nat) : (emptySlot s p n k).sansRecords = s.sansRecords := by
  unfold emptySlot
  split
  · rfl
  · refine (updStream_sansRecords ..).trans (foldl_keeps (fun s d => ?_) _ _)
    rfl

@[simp] theorem dieEvent_sansRecords (s : State) (d b e i n : Nat) : (dieEvent s d b e i n).sansRecords = s.sansRecords :=
  sansRecords_of_sansCache (dieEvent_sansCache ..)

@[simp] theorem sendClose_sansRecords (s : State) (p h o l : Nat) : (sendClose s p h o l).sansRecords = s.sansRecords := by
  refine foldl_keeps (fun s d => ?_) _ _
  split
  · rfl
  · exact (sansRecords_of_sansLinks (sendBytes_sansLinks ..)).trans (dieEvent_sansRecords ..)

@[simp] theorem rasterPump_sansRecords (s : State) (p : Nat) : (rasterPump s p).sansRecords = s.sansRecords := by
  unfold rasterPump
  split
  · rfl
  · split
    · rfl
    · refine (updPart_sansRecords _ p ?_).trans ?_
      · exact fun _ => rfl
      · exact foldl_keeps (fun s w => foldl_keeps (fun s d => updRast_sansRecords ..) _ _) _ _

@[simp] theorem dropDraw_sansRecords (s : State) (p o : Nat) : (dropDraw s p o).sansRecords = s.sansRecords := by
  unfold dropDraw
  split
  · next q d _ _ =>
    have h : (s.updPart p (fun q => { q with draws := q.draws.filter (fun x => x.ord != o) })).sansRecords = s.sansRecords :=
      updPart_sansRecords s p (fun _ => rfl)
    refine (rasterPump_sansRecords ..).trans ((foldl_keeps (fun s e => ?_) _ _).trans (ite_keeps ((sendClose_sansRecords ..).trans h) h))
    exact (later_sansRecords ..).trans ((later_sansRecords ..).trans (updRast_sansRecords ..))
  · rfl

@[simp] theorem finishRec_sansRecords (s : State) (p n : Nat) : (finishRec s p n).sansRecords = s.sansRecords := by
  unfold finishRec
  split
  · rfl
  · extract_lets x
    split
    · rfl
    · extract_lets rest
      split
      · exact updStream_sansRecords ..
      · extract_lets e s1 s2 s3 s4 s5 s6
        have h1 : s1.sansRecords = s.sansRecords := (putEntry_sansRecords ..).trans (releaseAll_sansRecords ..)
        have h3 : s3.sansRecords = s.sansRecords := (postEntry_sansRecords ..).trans ((updStream_sansRecords ..).trans h1)
        have h4 : s4.sansRecords = s.sansRecords := ite_keeps ((ctrDo_sansRecords ..).trans h3) h3
        have h6 : s6.sansRecords = s.sansRecords := (updStream_sansRecords ..).trans ((emptySlot_sansRecords ..).trans h4)
        split
        · exact (dropDraw_sansRecords ..).trans h6
        · exact h6

theorem recChange_sansRecords {q : Part} {n : Nat} {x : Stream} {r : Rec} (h : recChange s q n x r = some u) : u.sansRecords = s.sansRecords := by
  have keep {a b : State} (e : some a = some b) (k : a.sansRecords = s.sansRecords) : b.sansRecords = s.sansRecords := Option.some.inj e ▸ k
  unfold recChange at h
  dsimp only at h
  split at h
  · cases h
  · split at h
    · split at h
      · cases h
      · split at h
        · exact keep h (holdRec_sansRecords ..)
        · exact keep h (updRec_sansRecords ..)
    · split at h
      · cases h
      · exact keep h (updRec_sansRecords ..)
    · split at h
      · exact keep h (holdRec_sansRecords ..)
      · split at h
        · exact keep h (holdRec_sansRecords ..)
        · split at h
          · exact keep h (holdRec_sansRecords ..)
          · cases h
    · cases h

theorem recStep_sansRecords {p : Nat} (h : recStep s p = some u) : u.sansRecords = s.sansRecords := by
  obtain ⟨q, -, h⟩ := Option.bind_eq_some_iff.1 h
  split at h
  · cases h
  · obtain ⟨l, e, k, hl, he, hk⟩ := List.findSome?_eq_some_iff.1 h
    split at he
    · cases he
      exact finishRec_sansRecords ..
    · obtain ⟨i, r, j, hi, hr, hj⟩ := List.findSome?_eq_some_iff.1 he
      exact recChange_sansRecords hr

@[simp] theorem settleGo_sansRecords (p n : Nat) (s : State) : (settleGo p n s).sansRecords = s.sansRecords := by
  induction n generalizing s with
  | zero => rfl
  | succ n ih =>
    unfold settleGo
    split
    · rfl
    · next h => exact (ih _).trans (recStep_sansRecords h)

@[simp] theorem settleRecs_sansRecords (s : State) (p : Nat) : (settleRecs s p).sansRecords = s.sansRecords :=
  ite_keeps ((atOnce_sansRecords ..).trans (settleGo_sansRecords ..)) (settleGo_sansRecords ..)

/-! Copies. -/

@[simp] theorem copyQueue_sansRecords (s : State) (p d : Nat) : (copyQueue s p d).sansRecords = s.sansRecords := by
  unfold copyQueue
  split <;> rfl

@[simp] theorem copyStream_sansRecords (s : State) (p n d : Nat) : (copyStream s p n d).sansRecords = s.sansRecords := by
  unfold copyStream
  split
  · rfl
  · refine (foldl_keeps (fun s e => ?_) _ _).trans ((foldl_keeps (fun s e => ?_) _ _).trans ?_)
    all_goals rfl

@[simp] theorem nameHomes_sansRecords (s : State) (p : Nat) : (nameHomes s p).sansRecords = s.sansRecords := by
  unfold nameHomes
  split
  · rfl
  · refine (foldl_keeps (fun s e => ?_) _ _).trans ((foldl_keeps (fun s d => ?_) _ _).trans (updPart_sansRecords _ _ ?_))
    · exact (copyStream_sansRecords ..).trans ((copyStream_sansRecords ..).trans (updStream_sansRecords ..))
    · exact copyQueue_sansRecords ..
    · exact fun _ => rfl

end Sys2Proof.Machine
end

section
/-! PROOFS. The service die: partition commands (O49). -/

namespace Sys2Proof.Machine
open Sys2Proof

theorem mem_insertAsc (x y : Nat) (l : List Nat) : y ∈ insertAsc x l ↔ y = x ∨ y ∈ l := by
  induction l with
  | nil => simp [insertAsc]
  | cons a r ih =>
    unfold insertAsc
    split
    · simp
    · simp only [List.mem_cons, ih]
      tauto

section
variable {s : State} {p : Nat} {q : Part}

/-- A partition that exists is not made anew. -/
theorem withPart_same (hq : s.part? p = some q) : withPart s p = s := by
  rw [withPart, if_pos (by simp [hq])]

/-- A command that is obeyed. -/
theorem partCommand_done {c : PartCmd} {u : State} (hs : s.sdUp = true) (hp : 7 ≤ s.phase) (h : configure s c = some u) :
    exec (.partitionConfiguration c) s = .next (u.send (.status "partition configuration" 0)) := by
  rw [show exec (.partitionConfiguration c) s = execPartitionConfiguration c s from rfl, execPartitionConfiguration, if_neg, h]
  simp [hs]
  omega

/-- A command that is refused. -/
theorem partCommand_refused {c : PartCmd} (hs : s.sdUp = true) (hp : 7 ≤ s.phase) (h : configure s c = none) :
    ∃ w, exec (.partitionConfiguration c) s = .next { s with out := .status w 1 :: s.out } := by
  refine ⟨"partition configuration", ?_⟩
  rw [show exec (.partitionConfiguration c) s = execPartitionConfiguration c s from rfl, execPartitionConfiguration, if_neg, h]
  · rfl
  · simp [hs]
    omega

theorem configure_addDie {d : Nat} (hp : p < 24) (hq : s.part? p = some q) (hr : q.running = false) (hd : d < 24) (h1 : (s.die d).present = true)
    (h2 : (s.die d).lost = false) (h3 : (s.die d).inReset = true) (h4 : (s.die d).clearing = false) (h5 : s.partOfDie d = none) :
    configure s (.addDie p d) = some (((s.updPart p (fun q => { q with dies := insertAsc d q.dies })).updDie d
      (fun x => { x with left := none })).at_ (s.clk + 2000) (.dieLinkRetrain d)) := by
  simp only [configure]
  rw [if_neg, withPart_same hq]
  simp [hq, hr, h1, h2, h3, h4, h5]
  omega

theorem configure_addDie_running {d : Nat} (hq : s.part? p = some q) (hr : q.running = true) : configure s (.addDie p d) = none := by
  simp [configure, hq, hr]

theorem configure_removeDie {d : Nat} (hq : s.part? p = some q) (hr : q.running = false) (h1 : s.partOfDie d = some p) (h2 : (s.die d).inReset = true) :
    configure s (.removeDie p d) = some (((s.updPart p (fun q => { q with dies := q.dies.filter (fun x => x != d) })).updDie d (fun x => { x with
      left := some p, clearing := true })).at_ (s.clk + 1500000000) (.stackClearComplete d)) := by
  simp only [configure]
  rw [if_neg]
  simp [hq, hr, h1, h2]

/-- A die removed: its partition goes on without it, and its stack is being cleared. -/
theorem removedDie {d : Nat} (hq : s.part? p = some q) (hd : d < 24) (k : Nat) (e : Event) :
    let u := ((s.updPart p (fun q => { q with dies := q.dies.filter (fun x => x != d) })).updDie d (fun x => { x with
      left := some p, clearing := true })).at_ k e
    u.part? p = some { q with dies := q.dies.filter (fun x => x != d) } ∧ (u.die d).clearing = true ∧ (u.die d).left = some p := by
  refine ⟨(at_part? ..).trans ((updDie_part? ..).trans (part?_updPart_some (fun _ => rfl) hq)), ?_, ?_⟩
  · rw [at_die, die_updDie_same _ hd]
  · rw [at_die, die_updDie_same _ hd]

theorem configure_removeDie_running {d : Nat} (hq : s.part? p = some q) (hr : q.running = true) : configure s (.removeDie p d) = none := by
  simp [configure, hq, hr]

theorem setShare_some {n f c : Nat} (hp : p < 24) (h1 : isShared n = true) (h2 : f ≤ c) (h3 : c ≤ 63)
    (h4 : (((Table.at s.shares n []).filter (fun e => e.1 != p)).map (fun e => e.2.1)).sum + f ≤ 63) :
    setShare s n p f c = some { s with shares := Table.put s.shares n ((Table.at s.shares n []).filter (fun e => e.1 != p) ++ [(p, f, c)]) } := by
  unfold setShare
  dsimp only
  rw [if_neg]
  rintro (h | h | h | h | h)
  · simp [h1] at h
  all_goals omega

theorem setShare_none {n f c : Nat} (h : isShared n = false ∨ c < f ∨ 63 < c ∨
    63 < (((Table.at s.shares n []).filter (fun e => e.1 != p)).map (fun e => e.2.1)).sum + f) : setShare s n p f c = none := by
  unfold setShare
  dsimp only
  rw [if_pos]
  rcases h with h | h | h | h
  · exact .inl (by simp [h])
  · exact .inr (.inr (.inl h))
  · exact .inr (.inr (.inr (.inl h)))
  · exact .inr (.inr (.inr (.inr h)))

theorem configure_setMeasure {r : Nat} (hp : p < 24) (hq : s.part? p = some q) (hr : q.running = false) (h1 : 4 ≤ r) (h2 : r < 16) :
    configure s (.setMeasure p r) = some (s.updPart p (fun q => { q with measReg := some r })) := by
  simp only [configure]
  rw [if_neg, withPart_same hq]
  simp [hq, hr]
  omega

theorem configure_setFunction {k : Nat} (on : Bool) (hp : p < 24) (hq : s.part? p = some q) (hk : k < 4) (hr : s.ports[k].root = false) :
    configure s (.setFunction p k on) = some (s.updPart p (fun q => { q with functions :=
      if on then (if q.functions.contains k then q.functions else insertAsc k q.functions) else q.functions.filter (fun x => x != k) })) := by
  simp only [configure]
  rw [if_neg, withPart_same hq]
  simp [State.port, hk, hr]
  omega

theorem configure_clearSpan {k : Nat} (hk : k < 16) (h1 : (s.span k).part = p) (h2 : (s.link (320 + k)).up = false) :
    configure s (.clearSpan p k) = some (s.updLink (320 + k) (fun l => { l with replay := [], queue := [] })) := by
  simp only [configure]
  rw [if_neg]
  simp [h1, h2]
  omega

theorem configure_clearSpan_none {k : Nat} (h : (s.span k).part ≠ p ∨ (s.link (320 + k)).up = true) : configure s (.clearSpan p k) = none := by
  simp only [configure]
  rw [if_pos (.inr h)]

theorem sendKeyMessage_sansLinks (s : State) (k : Nat) : (sendKeyMessage s k).sansLinks = s.sansLinks :=
  foldl_keeps (fun _ _ => sendBytes_sansLinks ..) _ _

/-- A span port that is bound: its partition, and what the message of the binding does to links. -/
theorem configure_bindSpan {k : Nat} (hp : p < 24) (hq : s.part? p = some q) (hk : k < 16) :
    ∃ u, configure s (.bindSpan p k) = some u ∧ u.mem = s.mem ∧ (u.span k).part = p := by
  have h (u : State) (e : u.sansLinks = (s.updSpan k (fun x => { x with part := p })).sansLinks) : u.mem = s.mem ∧ (u.span k).part = p := by
    refine ⟨(congrArg (fun x => x.1.mem) e :), (congrFun (congrArg (fun x => x.2.2) e :) k).trans ?_⟩
    simp only [State.sansLinks, State.spanParts, span_updSpan _ _ _ _ hk, if_true]
  simp only [configure]
  rw [if_neg (by omega), withPart_same hq]
  split
  · exact ⟨_, rfl, h _ (sendKeyMessage_sansLinks ..)⟩
  · exact ⟨_, rfl, h _ rfl⟩

end

theorem partitionCommands : Says.PartitionCommands := by
  intro s p q hs hph hp hq
  refine ⟨fun d hd h1 h2 h3 h4 h5 => ⟨fun hr => ?_, fun hr => partCommand_refused hs hph (configure_addDie_running hq hr)⟩,
    fun d hd h1 h2 => ⟨fun hr => ?_, fun hr => partCommand_refused hs hph (configure_removeDie_running hq hr)⟩,
    fun n f c => ⟨fun h1 h2 h3 h4 => ?_, fun h => partCommand_refused hs hph (setShare_none h)⟩, fun r h1 h2 hr => ?_,
    fun k hk hr => ⟨?_, ?_⟩, fun k hk => ⟨?_, fun h1 h2 => ?_, fun h => partCommand_refused hs hph (configure_clearSpan_none h)⟩⟩
  · refine ⟨_, partCommand_done hs hph (configure_addDie hp hq hr hd h1 h2 h3 h4 h5), sameMem_of_mem rfl, ⟨_, rfl⟩, ⟨insertAsc d q.dies, ?_, ?_⟩, ?_⟩
    · exact (send_part? ..).trans ((at_part? ..).trans ((updDie_part? ..).trans (part?_updPart_some (fun _ => rfl) hq)))
    · exact fun e => mem_insertAsc d e q.dies
    · exact (mem_at_ ..).2 (.inl rfl)
  · obtain ⟨h3, h4, h5⟩ := removedDie hq hd (s.clk + 1500000000) (.stackClearComplete d)
    exact ⟨_, partCommand_done hs hph (configure_removeDie hq hr h1 h2), sameMem_of_mem rfl, ⟨_, rfl⟩, h3, h4, h5, (mem_at_ ..).2 (.inl rfl)⟩
  · exact ⟨_, partCommand_done hs hph (setShare_some hp h1 h2 h3 h4), sameMem_of_mem rfl, ⟨_, rfl⟩, at_put ..⟩
  · exact ⟨_, partCommand_done hs hph (configure_setMeasure hp hq hr h1 h2), sameMem_of_mem rfl, ⟨_, rfl⟩, (send_part? ..).trans (part?_updPart_some (fun _ => rfl) hq)⟩
  · exact ⟨_, partCommand_done hs hph (configure_setFunction false hp hq hk hr), sameMem_of_mem rfl, ⟨_, rfl⟩, (send_part? ..).trans (part?_updPart_some (fun _ => rfl) hq)⟩
  · refine ⟨_, partCommand_done hs hph (configure_setFunction true hp hq hk hr), sameMem_of_mem rfl, ⟨_, rfl⟩, _, (send_part? ..).trans (part?_updPart_some (fun _ => rfl) hq), ?_⟩
    intro x
    dsimp only
    rw [if_pos rfl]
    split
    · next h =>
      have hk : k ∈ q.functions := by simpa using h
      exact ⟨.inr, fun e => e.elim (fun e => e ▸ hk) id⟩
    · exact mem_insertAsc ..
  · obtain ⟨u, hu, hm, hsp⟩ := configure_bindSpan hp hq hk
    exact ⟨_, _, _, partCommand_done hs hph hu, sameMem_of_mem hm, rfl, hsp⟩
  · refine ⟨_, partCommand_done hs hph (configure_clearSpan hk h1 h2), sameMem_of_mem rfl, ⟨_, rfl⟩, ?_⟩
    beta_reduce
    rw [send_link, link_updLink, if_pos rfl]

end Sys2Proof.Machine
end

section
/-! PROOFS. The service die: measurements and reports (O49). -/

namespace Sys2Proof.Machine
open Sys2Proof

/-! Bytes and digests. -/

theorem leBytes_leNat (l : List Byte) : leBytes l.length (leNat l) = l := by
  induction l with
  | nil => rfl
  | cons b r ih =>
    have hb : b.toNat < 256 := b.isLt
    simp only [List.length_cons, leBytes, leNat]
    rw [show (b.toNat + 256 * leNat r) / 256 = leNat r by omega, ih]
    congr 1
    apply BitVec.eq_of_toNat_eq
    simp
    omega

theorem leNat_lt (l : List Byte) : leNat l < 256 ^ l.length := by
  induction l with
  | nil => simp [leNat]
  | cons b r ih =>
    have hb : b.toNat < 256 := b.isLt
    simp only [leNat, List.length_cons, pow_succ]
    omega

theorem leNat_leBytes (n v : Nat) : leNat (leBytes n v) = v % 256 ^ n := by
  induction n generalizing v with
  | zero => simp [leBytes, leNat, Nat.mod_one]
  | succ n ih =>
    rw [leBytes, leNat, ih, pow_succ', Nat.mod_mul]
    simp

theorem beBytes_length (n v : Nat) : (beBytes n v).length = n := by simp [beBytes, leBytes_length]

/-- A register that holds the bytes of a digest gives them back. -/
theorem measBytes_ofBytes {l : List Byte} (h : l.length = 32) : measBytes (BitVec.ofNat 256 (leNat l.reverse)) = l := by
  have e := leBytes_leNat l.reverse
  have k := leNat_lt l.reverse
  rw [List.length_reverse, h] at e k
  rw [measBytes, beBytes, BitVec.toNat_ofNat, Nat.mod_eq_of_lt (by simpa using k), e, List.reverse_reverse]

theorem sm3Round_length (w v : List Word) (j : Nat) : (sm3Round w v j).length = v.length := by
  unfold sm3Round
  split <;> rfl

/-- A fold by steps that keep the length of a list keeps it. -/
theorem foldl_length {α β : Type} {f : List α → β → List α} (h : ∀ v x, (f v x).length = v.length) (l : List β) (v : List α) :
    (l.foldl f v).length = v.length := by
  induction l generalizing v with
  | nil => rfl
  | cons x l ih => rw [List.foldl_cons, ih, h]

theorem sm3Block_length (v : List Word) (b : List Byte) : (sm3Block v b).length = v.length := by
  simp [sm3Block, foldl_length (sm3Round_length _)]

/-- Pieces of one length after another. -/
theorem flatMap_length {α : Type} {f : α → List Byte} {n : Nat} (h : ∀ x, (f x).length = n) (l : List α) : (l.flatMap f).length = n * l.length := by
  induction l with
  | nil => rfl
  | cons x l ih => simp [h, ih, Nat.mul_succ, Nat.add_comm]

theorem flatMap_piece {α : Type} {f : α → List Byte} {n : Nat} (h : ∀ x, (f x).length = n) (l : List α) (j : Nat) (hj : j < l.length) :
    ((l.flatMap f).drop (n * j)).take n = f l[j] := by
  induction l generalizing j with
  | nil => simp at hj
  | cons x l ih =>
    cases j with
    | zero => simp [← h x]
    | succ j =>
      have : (f x ++ l.flatMap f).drop (n * (j + 1)) = (l.flatMap f).drop (n * j) := by
        rw [List.drop_append, h, List.drop_eq_nil_of_le (by rw [h, Nat.mul_succ]; omega), Nat.mul_succ, Nat.add_sub_cancel, List.nil_append]
      rw [List.flatMap_cons, this, ih j (by simpa using hj), List.getElem_cons_succ]

theorem sm3_length (l : List Byte) : (sm3 l).length = 32 := by
  unfold sm3
  dsimp only
  rw [flatMap_length (n := 4) (fun w : Word => beBytes_length 4 w.toNat), foldl_length sm3Block_length]
  rfl

/-! Measurements and reports (R20, R21). -/

theorem extend_meas (s : State) {r : Nat} (d : List Byte) (h : r < 16) :
    beBytes 32 ((extend s r d).meas[r]).toNat = sm3 (beBytes 32 (s.meas[r]).toNat ++ d) := by
  have e : (extend s r d).meas[r] = BitVec.ofNat 256 (leNat (sm3 (measBytes (s.meas[r]) ++ d)).reverse) := by simp [extend, h]
  rw [e]
  exact measBytes_ofBytes (sm3_length _)

theorem extend_meas_other (s : State) {r j : Nat} (d : List Byte) (hj : j < 16) (h : j ≠ r) : (extend s r d).meas[j] = s.meas[j] := by
  simp [extend, Ne.symm h]

/-- The host extends a register. -/
theorem measurementExtend_done {s : State} {r : Nat} {d : List Byte} (hr : r < 16) (h4 : 4 ≤ r) (hd : d.length = 32) (hs : s.sdUp = true) :
    ∃ u, exec (.measurementExtend r d) s = .next u ∧ u = { s with meas := u.meas } ∧ (∀ j, (_ : j < 16) → j ≠ r → u.meas[j] = s.meas[j]) ∧
      beBytes 32 (u.meas[r]).toNat = sm3 (beBytes 32 (s.meas[r]).toNat ++ d) := by
  refine ⟨extend s r d, ?_, rfl, fun j hj h => extend_meas_other s d hj h, extend_meas s d hr⟩
  rw [show exec (.measurementExtend r d) s = execMeasurementExtend r d s from rfl, execMeasurementExtend, if_pos ⟨hs, h4, hr, hd⟩]

theorem measurementExtend_refused (s : State) {r : Nat} (d : List Byte) (h : r < 4) :
    exec (.measurementExtend r d) s = .next { s with out := .status "measurement" 1 :: s.out } := by
  rw [show exec (.measurementExtend r d) s = execMeasurementExtend r d s from rfl, execMeasurementExtend, if_neg (by omega)]
  rfl

/-- The byte of a report for a die: its partition, or all ones. -/
def partByte (o : Option Nat) : Byte := match o with | some p => BitVec.ofNat 8 p | none => 0xFF

/-- The parts of a report: nonce, numbers, measurements and partitions. -/
theorem reportBody_eq (s : State) {n : List Byte} (h : n.length = 32) : ∃ a, reportBody s n =
    n ++ (leBytes 4 3480 ++ (a ++ (leBytes 8 Config.stackCapacity ++ (s.meas.toList.flatMap measBytes ++
      (List.range 24).map (fun d => partByte (s.partOfDie d)))))) ∧ a.length = 20 := by
  refine ⟨leBytes 4 Config.variant.toNat ++ leBytes 8 (presenceMap s) ++ leBytes 8 Config.securityVersion.toNat, ?_, by simp [leBytes_length]⟩
  simp only [reportBody, ← h, List.take_left', List.append_assoc]
  rfl

theorem measBytes_length (v : BitVec 256) : (measBytes v).length = 32 := beBytes_length ..

/-- The part of a list behind a first part. -/
theorem drop_behind {a b : List Byte} {n k : Nat} (h : a.length = n) : (a ++ b).drop (n + k) = b.drop k := by
  subst h
  exact List.drop_length_add_append ..

/-- The bytes of a report, whatever follows them. -/
theorem attestationReport_bytes (s : State) {n : List Byte} (h : n.length = 32) (t : List Byte) :
    (reportBody s n).length = 600 ∧ (reportBody s n ++ t).take 32 = n ∧ sliceNat (reportBody s n ++ t) 32 4 = 3480 ∧
      sliceNat (reportBody s n ++ t) 56 8 = Config.stackCapacity ∧
      (∀ j, (_ : j < 16) → ((reportBody s n ++ t).drop (64 + 32 * j)).take 32 = beBytes 32 (s.meas[j]).toNat) ∧
      ∀ d, d < 24 → (reportBody s n ++ t)[576 + d]? = some (partByte (s.partOfDie d)) := by
  obtain ⟨a, e, ha⟩ := reportBody_eq s h
  have hm : (s.meas.toList.flatMap measBytes).length = 512 := by simp [flatMap_length measBytes_length]
  have h4 : (leBytes 4 3480).length = 4 := leBytes_length ..
  have h8 : (leBytes 8 Config.stackCapacity).length = 8 := leBytes_length ..
  refine ⟨by simp [e, h, ha, hm, leBytes_length], ?_⟩
  rw [e]
  simp only [List.append_assoc]
  refine ⟨?_, ?_, ?_, fun j hj => ?_, fun d hd => ?_⟩
  · exact List.take_left' h
  · rw [sliceNat, drop_behind (k := 0) h, List.drop_zero, List.take_left' h4, leNat_leBytes]
    rfl
  · rw [sliceNat, show 56 = 32 + (4 + (20 + 0)) from rfl, drop_behind h, drop_behind h4, drop_behind ha, List.drop_zero, List.take_left' h8,
      leNat_leBytes]
    rfl
  · rw [show 64 + 32 * j = 32 + (4 + (20 + (8 + 32 * j))) by omega, drop_behind h, drop_behind h4, drop_behind ha, drop_behind h8,
      List.drop_append_of_le_length (by omega), List.take_append_of_le_length (by rw [List.length_drop]; omega),
      flatMap_piece measBytes_length _ j (by simpa using hj)]
    simp [measBytes]
  · rw [← List.getElem?_drop, show 576 = 32 + (4 + (20 + (8 + (512 + 0)))) from rfl, drop_behind h, drop_behind h4, drop_behind ha, drop_behind h8,
      drop_behind hm, List.drop_zero, List.getElem?_append_left (by simpa using hd)]
    simp [hd]

/-- A signed report. -/
theorem attestationReport_done {s : State} (n : List Byte) (hs : s.sdUp = true) :
    exec (.attestationReport n) s = .next { s with out := .report (reportBody s n ++ beBytes 64 (Config.sm2Sign (reportBody s n)).toNat) :: s.out } := by
  rw [show exec (.attestationReport n) s = execAttestationReport n s from rfl, execAttestationReport, if_neg (by simp [hs])]
  rfl

end Sys2Proof.Machine
end

section
/-! PROOFS. The service die: the start of a supervisor, ports, and the service die itself (O49). -/

namespace Sys2Proof.Machine
open Sys2Proof

/-! Reads of the placer. -/

/-- The state without what a read leaves: L2 lines, event counts, cluster TLBs, free values and identities. -/
def State.sansReads (s : State) : State := { s with l2 := [], evc := [], ctlb := [], free := 0, nextId := 0 }

/-- The state that a pair names. -/
theorem sansReads_of_pair {α : Type} {x : State × α} {u v : State} {a : α} (e : x = (u, a)) (h : x.1.sansReads = v) : u.sansReads = v := by
  subst e
  exact h

section
variable (s : State)

@[simp] theorem dieEvent_sansReads (d b e i n : Nat) : (dieEvent s d b e i n).sansReads = s.sansReads := by
  obtain ⟨l, h, -⟩ := dieEvent_counters s d b e i n
  rw [h]
  rfl

@[simp] theorem clusterEvent_sansReads (c b e n : Nat) : (clusterEvent s c b e n).sansReads = s.sansReads := by
  obtain ⟨l, h⟩ := clusterEvent_evc s c b e n
  rw [h]
  rfl

@[simp] theorem l2Touch_sansReads (k : Nat) (pte : DWord) : (l2Touch s k pte).sansReads = s.sansReads := by
  unfold l2Touch
  dsimp only
  split
  · rfl
  · split
    · exact dieEvent_sansReads ..
    · split
      · exact (dieEvent_sansReads ..).trans (dieEvent_sansReads ..)
      · exact (dieEvent_sansReads ..).trans (dieEvent_sansReads ..)

@[simp] theorem tlbUse_sansReads (c p v : Nat) : (tlbUse s c p v).sansReads = s.sansReads := by
  unfold tlbUse
  split
  · rfl
  · split
    · exact clusterEvent_sansReads ..
    · rfl

@[simp] theorem passAt_sansReads (g : Agent) (a : Nat) (l : Loc) : (passAt s g a l).sansReads = s.sansReads :=
  (l2Touch_sansReads ..).trans (ite_keeps (tlbUse_sansReads ..) rfl)

@[simp] theorem homeRead_sansReads (k n : Nat) : (homeRead s k n).2.sansReads = s.sansReads := by
  unfold homeRead
  split
  · rfl
  · split
    · unfold ioRead
      dsimp only
      repeat' split
      all_goals rfl
    · rfl

end

@[simp] theorem readRun_sansReads (f : Nat) (s : State) (k n : Nat) : (readRun f s k n).1.sansReads = s.sansReads := by
  induction f generalizing s k n with
  | zero => rfl
  | succ f ih =>
    unfold readRun
    split
    · rfl
    · exact (ih ..).trans (homeRead_sansReads ..)

@[simp] theorem unitFetch_sansReads (s : State) (u d k n : Nat) : (unitFetch s u d k n).1.sansReads = s.sansReads := by
  unfold unitFetch
  split
  · split <;> rfl
  · split
    · rfl
    · exact readRun_sansReads ..

@[simp] theorem placerRead_sansReads (u p home : Nat) (need : Need) (f : Nat) (s : State) (a n : Nat) :
    (placerRead u p home need f s a n).1.sansReads = s.sansReads := by
  induction f generalizing s a n with
  | zero => rfl
  | succ f ih =>
    unfold placerRead
    dsimp only
    split
    · rfl
    · split
      · rfl
      · rfl
      · split
        · next e => exact (sansReads_of_pair e (unitFetch_sansReads ..)).trans (passAt_sansReads ..)
        · next e =>
          have h := (sansReads_of_pair e (unitFetch_sansReads ..)).trans (passAt_sansReads ..)
          split
          all_goals
            next k => exact (sansReads_of_pair k (ih ..)).trans h

@[simp] theorem makeObject_sansReads (s : State) (p code : Nat) (h rt rm region : List Byte) :
    (makeObject s p code h rt rm region).1.sansReads = s.sansReads := by
  unfold makeObject
  dsimp only
  split
  · rfl
  · split
    · split
      · rfl
      · split <;> rfl
    · split <;> rfl

@[simp] theorem readObject_sansReads (s : State) (u p home code : Nat) : (readObject s u p home code).1.sansReads = s.sansReads := by
  unfold readObject
  split
  · rfl
  · split
    · next e => exact sansReads_of_pair e (placerRead_sansReads ..)
    · next e =>
      have h1 := sansReads_of_pair e (placerRead_sansReads ..)
      split
      · exact h1
      · dsimp only
        split
        · next e => exact (sansReads_of_pair e (placerRead_sansReads ..)).trans h1
        · next e =>
          have h2 := (sansReads_of_pair e (placerRead_sansReads ..)).trans h1
          split
          · next e => exact (sansReads_of_pair e (placerRead_sansReads ..)).trans h2
          · next e =>
            have h3 := (sansReads_of_pair e (placerRead_sansReads ..)).trans h2
            split
            · next e => exact (sansReads_of_pair e (placerRead_sansReads ..)).trans h3
            · next e => exact (makeObject_sansReads ..).trans ((sansReads_of_pair e (placerRead_sansReads ..)).trans h3)

@[simp] theorem readSupervisor_sansReads (s : State) (u p home code : Nat) : (readSupervisor s u p home code).1.sansReads = s.sansReads := by
  unfold readSupervisor
  split
  · next e => exact sansReads_of_pair e (readObject_sansReads ..)
  · next e =>
    have h := sansReads_of_pair e (readObject_sansReads ..)
    split
    · exact h
    · split
      all_goals
        next e => exact (sansReads_of_pair e (placerRead_sansReads ..)).trans h

/-! The start of a supervisor (R92). -/

/-- A partition's outline where the partitions agree in outline. -/
theorem part?_outline {s u : State} (h : u.parts.map Part.outline = s.parts.map Part.outline) (p : Nat) :
    (u.part? p).map Part.outline = (s.part? p).map Part.outline := by
  have e (l : List Part) : (l.find? (fun q => q.id == p)).map Part.outline = (l.map Part.outline).find? (fun q => q.id == p) := by
    rw [List.find?_map]
    rfl
  rw [State.part?, State.part?, e, e, h]

theorem parts_of_sansRecords {s u : State} (h : u.sansRecords = s.sansRecords) : u.parts.map Part.outline = s.parts.map Part.outline :=
  (congrArg (fun x => x.1.parts) h :)

theorem die_map {β : Type} {ψ : Die → β} {s u : State} (h : u.dies.map ψ = s.dies.map ψ) (d : Nat) : ψ (u.die d) = ψ (s.die d) := by
  have e (l : Vector Die 24) : ψ (l[d]?.getD Die.reset) = ((l.map ψ)[d]?).getD (ψ Die.reset) := by
    by_cases hd : d < 24
    · simp [hd]
    · simp [hd]
  rw [State.die, State.die, e, e, h]

theorem dies_of_sansRecords {s u : State} (h : u.sansRecords = s.sansRecords) (d : Nat) : (u.die d).sansRast = (s.die d).sansRast :=
  die_map (congrArg (fun x => x.1.dies) h :) d

/-- What of a start comes before the partition runs. -/
def beforeRunning (s : State) (q : Part) (m : List Byte) : State :=
  let s := match q.measReg with
    | some r => extend s r (sm3 m)
    | none => s
  if q.running then s else nameHomes s q.id

/-- The partition runs. -/
def nowRuns (s : State) (p va : Nat) (o : CodeObj) : State :=
  s.updPart p (fun q => { q with running := true, superCode := some (va, o), starting := none })

theorem startPart_eq (s : State) (q : Part) (va : Nat) (o : CodeObj) (m : List Byte) : startPart s q va o m =
    settleRecs ((q.streams.foldl (fun s e => s.later (.recordAccept q.id e.1)) (((nowRuns (beforeRunning s q m) q.id va o).presentDies q.id).foldl
      (fun s d => startSupervisor s q.id d) (nowRuns (beforeRunning s q m) q.id va o))).send (.status "supervisor start" 0)) q.id := rfl

/-- The partition's register is extended, if it has one, and its homes are named. -/
theorem beforeRunning_sansRecords (s : State) (q : Part) (m : List Byte) : ∃ v,
    (beforeRunning s q m).sansRecords = State.sansRecords { s with meas := v } ∧
      ∀ r, (_ : r < 16) → q.measReg = some r → beBytes 32 (v[r]).toNat = sm3 (beBytes 32 (s.meas[r]).toNat ++ sm3 m) := by
  unfold beforeRunning
  cases q.measReg with
  | none => exact ⟨s.meas, ite_keeps rfl (nameHomes_sansRecords ..), by simp⟩
  | some r =>
    refine ⟨(extend s r (sm3 m)).meas, ite_keeps rfl (nameHomes_sansRecords ..), fun j hj e => ?_⟩
    cases e
    exact extend_meas s (sm3 m) hj

/-- The partition's dies stay when it runs. -/
theorem nowRuns_part? {s x : State} {p : Nat} {q : Part} (va : Nat) (o : CodeObj) (h : x.parts.map Part.outline = s.parts.map Part.outline)
    (hq : s.part? p = some q) :
    ∃ y, (nowRuns x p va o).part? p = some y ∧ y.running = true ∧ y.superCode = some (va, o) ∧ y.dies = q.dies := by
  have e := part?_outline h p
  rw [hq, Option.map_some, Option.map_eq_some_iff] at e
  obtain ⟨y, hy, hd⟩ := e
  exact ⟨_, part?_updPart_some (fun _ => rfl) hy, rfl, rfl, (congrArg Part.dies hd :)⟩

/-- A supervisor of one role on a die whose channel core 0 is empty. -/
theorem startSupervisor_one {s : State} {p d va : Nat} {y : Part} {o : CodeObj} {e : RoleEntry} (hy : s.part? p = some y)
    (ho : y.superCode = some (va, o)) (hr : o.roles = [e]) (hn : allocOf e.nreg ≤ 2048) (hc : (occupied s).regsOf (coreNo d 15 0) = []) :
    ∃ t, startSupervisor s p d = { s with nextId := s.nextId + 1, threads := s.threads ++ [t] } ∧ t.place = .swarm (coreNo d 15 0) 56 ∧
      t.run = .ready ∧ t.part = p ∧ t.pc = BitVec.ofNat 32 e.entry ∧ t.g[0]? = some (BitVec.ofNat 32 va) ∧
      t.g[2]? = some (BitVec.ofNat 32 d) ∧ t.privSize = 0 := by
  have hf : lowestFit [] (allocOf e.nreg) 2048 1 = some 0 := by simp [lowestFit, hn]
  unfold startSupervisor
  simp only [hy, Option.bind_some, ho, hr, List.zipIdx_cons, List.zipIdx_nil, List.foldl_cons, List.foldl_nil, supervisorThread, hc, hf]
  refine ⟨_, rfl, rfl, rfl, rfl, rfl, ?_, ?_, rfl⟩
  · simp [firstThread, firstRegs]
  · simp [firstThread, firstRegs]

theorem occupied_congr {s u : State} (h : u.crew = s.crew) (hg : u.groups = s.groups) (hx : u.gangs = s.gangs) : occupied u = occupied s := by
  have e := Prod.mk.inj h
  simp only [occupied, State.groupSaved, State.gang?, e.1, e.2, hg, hx]

/-- The start of a supervisor of one role. -/
theorem startPart_one {s : State} {q : Part} {d va : Nat} {o : CodeObj} {e : RoleEntry} (m : List Byte) (hq : s.part? q.id = some q)
    (hd : q.dies = [d]) (h1 : (s.die d).present = true) (h2 : (s.die d).inReset = false) (h3 : (s.die d).lost = false) (hr : o.roles = [e])
    (hn : allocOf e.nreg ≤ 2048) (hc : (occupied s).regsOf (coreNo d 15 0) = []) :
    ∃ y t, (startPart s q va o m).part? q.id = some y ∧ y.running = true ∧ y.superCode = some (va, o) ∧
      (∀ r, (_ : r < 16) → q.measReg = some r → beBytes 32 ((startPart s q va o m).meas[r]).toNat = sm3 (beBytes 32 (s.meas[r]).toNat ++ sm3 m)) ∧
      t ∈ (startPart s q va o m).threads ∧ t.place = .swarm (coreNo d 15 0) 56 ∧ t.run = .ready ∧ t.part = q.id ∧
      t.pc = BitVec.ofNat 32 e.entry ∧ t.g[0]? = some (BitVec.ofNat 32 va) ∧ t.g[2]? = some (BitVec.ofNat 32 d) ∧ t.privSize = 0 := by
  obtain ⟨v, hv, hm⟩ := beforeRunning_sansRecords s q m
  obtain ⟨y, hy, hrun, hsc, hyd⟩ := nowRuns_part? va o (parts_of_sansRecords hv) hq
  have hp : (nowRuns (beforeRunning s q m) q.id va o).presentDies q.id = [d] := by
    have e := dies_of_sansRecords hv d
    have g1 : ((beforeRunning s q m).die d).present = true := (congrArg Die.present e :).trans h1
    have g2 : ((beforeRunning s q m).die d).inReset = false := (congrArg Die.inReset e :).trans h2
    have g3 : ((beforeRunning s q m).die d).lost = false := (congrArg Die.lost e :).trans h3
    have k : (nowRuns (beforeRunning s q m) q.id va o).partDies q.id = [d] := by rw [State.partDies, hy, Option.map_some, Option.getD_some, hyd, hd]
    rw [State.presentDies, k, List.filter_singleton]
    rw [show (nowRuns (beforeRunning s q m) q.id va o).die d = (beforeRunning s q m).die d from rfl, g1, g2, g3]
    rfl
  have ho : occupied (nowRuns (beforeRunning s q m) q.id va o) = occupied s :=
    occupied_congr (congrArg (fun x => x.1.crew) hv :) (congrArg (fun x => x.1.groups) hv :) (congrArg (fun x => x.1.gangs) hv :)
  obtain ⟨t, ht, hplace, ht'⟩ := startSupervisor_one (va := va) hy hsc hr hn (ho ▸ hc)
  have hx : (startPart s q va o m).sansRecords =
      (startSupervisor (nowRuns (beforeRunning s q m) q.id va o) q.id d).sansRecords := by
    rw [startPart_eq, hp, List.foldl_cons, List.foldl_nil]
    exact (settleRecs_sansRecords ..).trans (foldl_keeps (φ := State.sansRecords) (fun s e => later_sansRecords ..) q.streams _)
  rw [ht] at hx
  have hz := (part?_outline (parts_of_sansRecords hx) q.id).trans (congrArg (Option.map Part.outline) hy)
  rw [Option.map_some, Option.map_eq_some_iff] at hz
  obtain ⟨z, hz, hzy⟩ := hz
  have hmeas : (startPart s q va o m).meas = v := (congrArg (fun x => x.1.meas) hx :).trans (congrArg (fun x => x.1.meas) hv :)
  have hthreads : (startPart s q va o m).threads = (nowRuns (beforeRunning s q m) q.id va o).threads ++ [t] := (congrArg (fun x => x.1.threads) hx :)
  refine ⟨z, t, hz, (congrArg Part.running hzy :).trans hrun, (congrArg Part.superCode hzy :).trans hsc, ?_, ?_, hplace, ht'⟩
  · rw [hmeas]
    exact hm
  · rw [hthreads]
    exact List.mem_append_right _ List.mem_cons_self

/-- The start of a partition's supervisor. -/
theorem supervisorStart_done {s z : State} {p d va : Nat} {q : Part} {o : CodeObj} {m : List Byte} {e : RoleEntry} (hs : s.sdUp = true)
    (hq : s.part? p = some q) (hd : q.dies = [d]) (h1 : (s.die d).present = true) (h2 : (s.die d).inReset = false)
    (h3 : (s.die d).lost = false) (ha : s.anyThread (fun t => t.part == p && t.isSuper) = false)
    (hx : readSupervisor s (placerUnit p 128) p d va = (z, .ok (o, m))) (hr : o.roles = [e]) (hn : allocOf e.nreg ≤ 2048)
    (hc : (occupied s).regsOf (coreNo d 15 0) = []) :
    ∃ u y t, exec (.supervisorStart p va) s = .next u ∧ u.part? p = some y ∧ y.running = true ∧ y.superCode = some (va, o) ∧
      (∀ r, (_ : r < 16) → q.measReg = some r → beBytes 32 (u.meas[r]).toNat = sm3 (beBytes 32 (s.meas[r]).toNat ++ sm3 m)) ∧
      t ∈ u.threads ∧ t.place = .swarm (coreNo d 15 0) 56 ∧ t.run = .ready ∧ t.part = p ∧ t.pc = BitVec.ofNat 32 e.entry ∧
      t.g[0]? = some (BitVec.ofNat 32 va) ∧ t.g[2]? = some (BitVec.ofNat 32 d) ∧ t.privSize = 0 := by
  have hid : q.id = p := by simpa using List.find?_some hq
  subst hid
  have hz : z.sansReads = s.sansReads := sansReads_of_pair hx (readSupervisor_sansReads ..)
  have hzq : (forgetUnit z (placerUnit q.id 128)).part? q.id = some q := (congrArg (fun x => x.part? q.id) hz :).trans hq
  have hzd : (forgetUnit z (placerUnit q.id 128)).die d = s.die d := (congrArg (fun x => x.die d) hz :)
  have hzo : occupied (forgetUnit z (placerUnit q.id 128)) = occupied s := (congrArg occupied hz :)
  have hzm : (forgetUnit z (placerUnit q.id 128)).meas = s.meas := (congrArg State.meas hz :)
  obtain ⟨y, t, hy, hrun, hsc, hmeas, ht⟩ := startPart_one (va := va) m hzq hd (hzd ▸ h1) (hzd ▸ h2) (hzd ▸ h3) hr hn (hzo ▸ hc)
  rw [hzm] at hmeas
  refine ⟨_, y, t, ?_, hy, hrun, hsc, hmeas, ht⟩
  rw [show exec (.supervisorStart q.id va) s = execSupervisorStart q.id va s from rfl, execSupervisorStart]
  simp [hq, hd, h1, h2, hs, ha, hx]

end Sys2Proof.Machine
end

section
/-! PROOFS. The service die: its ports, its failure and return, and all its acts (O49). -/

namespace Sys2Proof.Machine
open Sys2Proof

section
variable {s : State} {k : Nat}

theorem port_eq (hk : k < 4) : s.port k = s.ports[k] := by simp [State.port, hk]

theorem ports_updPort (f : Port → Port) (hk : k < 4) : (s.updPort k f).ports[k] = f s.ports[k] := by simp [State.updPort, port_eq hk]

/-- No partition runs. -/
theorem running_none (h : ∀ x ∈ s.parts, x.running = false) (p : Nat) : ((s.part? p).map Part.running).getD false = false := by
  cases e : s.part? p with
  | none => rfl
  | some q => exact h q (List.mem_of_find?_eq_some e)

theorem any_running_none (h : ∀ x ∈ s.parts, x.running = false) (l : List Nat) :
    (l.any (fun p => ((s.part? p).map Part.running).getD false)) = false := by
  simp only [List.any_eq_false, running_none h]
  simp

/-- A port that becomes a root port serves its partition alone. -/
theorem portModeSet_root (hk : k < 4) (h : ∀ x ∈ s.parts, x.running = false) (p : Nat) : ∃ u, exec (.portModeSet k true [p]) s = .next u ∧
    u.ports[k] = { s.ports[k] with root := true, parts := [p] } ∧ ∀ y ∈ u.parts, k ∉ y.functions := by
  rw [show exec (.portModeSet k true [p]) s = execPortModeSet k true [p] s from rfl, execPortModeSet]
  dsimp only
  rw [any_running_none h, if_neg (by simp; omega)]
  refine ⟨_, rfl, ?_, ?_⟩
  · simp [State.send, State.updPort, port_eq hk]
  · simp [State.send, State.updPort]

theorem portModeSet_endpoint (hk : k < 4) (h : ∀ x ∈ s.parts, x.running = false) (ps : List Nat) : ∃ u, exec (.portModeSet k false ps) s = .next u ∧
    u.ports[k] = { s.ports[k] with root := false, parts := [] } ∧ ∀ y ∈ u.parts, y.id ∈ ps → k ∈ y.functions := by
  rw [show exec (.portModeSet k false ps) s = execPortModeSet k false ps s from rfl, execPortModeSet]
  dsimp only
  rw [any_running_none h, if_neg (by simp; omega)]
  refine ⟨_, rfl, ?_, fun y hy hps => ?_⟩
  · simp [State.send, State.updPort, port_eq hk]
  · obtain ⟨x, -, rfl⟩ := List.mem_map.1 hy
    have hx : x.id ∈ ps := hps
    clear hy
    by_cases hf : k ∈ x.functions
    · simp [hf]
    · simp [hx, hf]

/-- A command for a port of a running partition is refused. -/
theorem portModeSet_running {p : Nat} {q : Part} (root : Bool) (hq : s.part? p = some q) (hr : q.running = true) :
    exec (.portModeSet k root [p]) s = .next { s with out := .status "port mode" 1 :: s.out } := by
  rw [show exec (.portModeSet k root [p]) s = execPortModeSet k root [p] s from rfl, execPortModeSet]
  dsimp only
  rw [if_pos (.inr (.inl (by simp [hq, hr])))]
  rfl

theorem ideKeySet_up (n : Nat) (key : List Byte) (hk : k < 4) (h : s.ports[k].up = true) : ∃ u, exec (.ideKeySet k n key) s = .next u ∧
    u = { s with ports := u.ports } ∧ Table.get u.ports[k].ide n = some key ∧ u.ports[k].up = true := by
  rw [show exec (.ideKeySet k n key) s = execIdeKeySet k n key s from rfl, execIdeKeySet, if_pos (by rw [port_eq hk, h])]
  refine ⟨_, rfl, rfl, ?_, ?_⟩
  · rw [ports_updPort _ hk, get_put]
  · rw [ports_updPort _ hk, h]

theorem ideKeySet_down (n : Nat) (key : List Byte) (hk : k < 4) (h : s.ports[k].up = false) : exec (.ideKeySet k n key) s = .next s := by
  rw [show exec (.ideKeySet k n key) s = execIdeKeySet k n key s from rfl, execIdeKeySet, if_neg (by simp [port_eq hk, h])]

/-- The events of a link reach fault queues and the log. -/
theorem linkEvent_ports (s : State) (what : String) (k : Nat) : (linkEvent s what k).ports = s.ports ∧ (linkEvent s what k).crew = s.crew := by
  have e : (linkEvent s what k).sansRecords = (s.log what k).sansRecords := foldl_keeps (fun _ _ => linkNote_sansRecords ..) _ _
  exact ⟨(congrArg (fun x => x.1.ports) e :), (congrArg (fun x => x.1.crew) e :)⟩

theorem portDown_up (what : String) (hk : k < 4) (h : s.ports[k].up = true) : (portDown s what k).ports[k].up = false ∧
    (portDown s what k).ports[k].ide = [] ∧ .linkDown k ∈ (portDown s what k).out ∧ (portDown s what k).crew = s.crew := by
  rw [portDown, if_pos (by rw [port_eq hk, h])]
  obtain ⟨hp, hc⟩ := linkEvent_ports (s.updPort k (fun x => { x with up := false, ide := [] })) what k
  have hu : ((linkEvent (s.updPort k (fun x => { x with up := false, ide := [] })) what k).send (.linkDown k)).ports[k] =
      { s.ports[k] with up := false, ide := [] } := by
    simp only [State.send, hp]
    exact ports_updPort _ hk
  exact ⟨congrArg Port.up hu, congrArg Port.ide hu, List.mem_cons_self, hc⟩

theorem portDown_down (what : String) (hk : k < 4) (h : s.ports[k].up = false) : portDown s what k = s := by
  rw [portDown, if_neg (by simp [port_eq hk, h])]

/-- A port whose link goes down, by itself or by a failed integrity check. -/
theorem portDown_exec {i : Instr} (hi : i ∈ [Instr.ideIntegrityFailure k, .pcieLinkDown k]) : ∃ what, exec i s = .next (portDown s what k) := by
  simp only [List.mem_cons, List.not_mem_nil, or_false] at hi
  rcases hi with rfl | rfl
  · exact ⟨_, rfl⟩
  · exact ⟨_, rfl⟩

theorem pcieLinkUp_flit (hk : k < 4) (hp : 6 ≤ s.phase) (hf : (s.link (56 + k / 2)).failed = false) :
    exec (.pcieLinkUp k true) s = .next { s with ports := s.ports.set k { s.ports[k] with up := true } } := by
  rw [show exec (.pcieLinkUp k true) s = execPcieLinkUp k true s from rfl, execPcieLinkUp]
  rw [show (Table.at s.links (56 + k / 2) Link.reset).failed = false from hf, if_pos (by simpa using hp)]
  have e : s.ports.setIfInBounds k { s.ports[k] with up := true } = s.ports.set k { s.ports[k] with up := true } := by
    ext i hi
    rw [Vector.getElem_setIfInBounds, Vector.getElem_set]
  rw [State.updPort, port_eq hk, e]

theorem pcieLinkUp_other (k : Nat) (s : State) : exec (.pcieLinkUp k false) s = .next s := by
  rw [show exec (.pcieLinkUp k false) s = execPcieLinkUp k false s from rfl, execPcieLinkUp, if_neg (by simp)]

/-- The start of a partition that there is not. -/
theorem supervisorStart_none {p : Nat} (va : Nat) (hp : s.part? p = none) : exec (.supervisorStart p va) s =
    .next ((forgetUnit (s.updPart p (fun q => { q with starting := none })) (placerUnit p 128)).send (.status "supervisor start" 1)) := by
  rw [show exec (.supervisorStart p va) s = execSupervisorStart p va s from rfl, execSupervisorStart]
  simp [hp]

end

theorem serviceDieActs : Says.ServiceDieActs := by
  intro s
  refine ⟨fun r dg hr h4 hd hs => measurementExtend_done hr h4 hd hs, fun r dg hr => ⟨_, measurementExtend_refused s dg hr⟩, fun n hn hs => ?_,
    fun hs n => ?_, fun p q d va z o m e hs hq hd h1 h2 h3 ha hx hr _ hn hc => supervisorStart_done hs hq hd h1 h2 h3 ha hx hr hn hc,
    fun p va hp => ?_, fun k ps hk h => ⟨portModeSet_root hk h, portModeSet_endpoint hk h ps⟩,
    fun k root p q hq hr => ⟨_, portModeSet_running root hq hr⟩, fun k n key hk => ⟨ideKeySet_up n key hk, ideKeySet_down n key hk⟩,
    fun k hk i hi => ?_, fun k hk => ⟨pcieLinkUp_flit hk, pcieLinkUp_other k s⟩, ⟨_, rfl, rfl⟩, rfl⟩
  · obtain ⟨hl, h32, hz, hcap, hmeas, hpart⟩ := attestationReport_bytes s hn (beBytes 64 (Config.sm2Sign (reportBody s n)).toNat)
    refine ⟨_, attestationReport_done n hs, by simp [hl, beBytes_length], h32, hz, hcap, hmeas, hpart, ?_⟩
    rw [List.drop_left' hl, List.take_left' hl]
  · rw [show exec (.attestationReport n) s = execAttestationReport n s from rfl, execAttestationReport, if_pos (by simp [hs])]
  · refine ⟨_, _, supervisorStart_none va hp, sameMem_of_mem rfl, rfl, rfl, rfl⟩
  · obtain ⟨what, e⟩ := portDown_exec (s := s) hi
    refine ⟨fun h => ?_, fun h => by rw [e, portDown_down what hk h]⟩
    obtain ⟨h1, h2, h3, h4⟩ := portDown_up what hk h
    exact ⟨_, e, h1, h2, h3, (Prod.mk.inj h4).1, (Prod.mk.inj h4).2⟩

/-- Settles O49: partition commands, and the service die's other acts. -/
theorem serviceDie : Obligations.ServiceDie := ⟨partitionCommands, serviceDieActs⟩

end Sys2Proof.Machine
end

section
/-! PROOFS. Page walks and invalidations (O44). -/

namespace Sys2Proof.Machine
open Sys2Proof

/-! What the beginning of another walk leaves alone. -/

/-- Memory, dies, cluster TLBs, threads and the count of clk. -/
def State.walkView (s : State) : Memory × Vector Die 24 × Table (List TlbEntry) × (Thread × List Thread) × Nat := (s.mem, s.dies, s.ctlb, s.crew, s.clk)

theorem dieEvent_walkView (s : State) (d b e i n : Nat) : (dieEvent s d b e i n).walkView = s.walkView := by
  obtain ⟨l, h, -⟩ := dieEvent_counters s d b e i n
  rw [h]
  rfl

theorem l2Touch_walkView (s : State) (k : Nat) (pte : DWord) : (l2Touch s k pte).walkView = s.walkView := by
  unfold l2Touch
  dsimp only
  split
  · rfl
  · split
    · exact dieEvent_walkView ..
    · split
      · exact (dieEvent_walkView ..).trans (dieEvent_walkView ..)
      · exact (dieEvent_walkView ..).trans (dieEvent_walkView ..)

theorem beginWalk_walkView (s : State) (d : Nat) (w : Walk) : (beginWalk s d w).walkView = s.walkView := by
  refine (foldl_keeps (φ := State.walkView) (fun s a => ?_) _ _).trans (dieEvent_walkView ..)
  exact ite_keeps (l2Touch_walkView ..) rfl

/-! The threads that wait for a walk. -/

theorem mem_insertPlace (t x : Thread) (l : List Thread) : x ∈ insertPlace t l ↔ x = t ∨ x ∈ l := by
  induction l with
  | nil => simp [insertPlace]
  | cons y r ih =>
    unfold insertPlace
    split
    · simp only [List.mem_cons, ih]
      tauto
    · simp

/-- Those that wait for a walk are the live threads of its partition at it. -/
theorem mem_walkThreads {s : State} {die : Nat} {w : Walk} {t : Thread} : t ∈ walkThreads s die w ↔
    t ∈ s.th :: s.threads ∧ t.live = true ∧ t.run = .waiting (.walk die w.vpage) ∧ t.part = w.part := by
  have e (l a : List Thread) : t ∈ l.foldl (fun l t => insertPlace t l) a ↔ t ∈ l ∨ t ∈ a := by
    induction l generalizing a with
    | nil => simp
    | cons x l ih =>
      rw [List.foldl_cons, ih, mem_insertPlace, List.mem_cons]
      tauto
  rw [walkThreads, e, State.selThreads, List.mem_filter]
  simp

variable {s : State}

theorem updThread_th_same {n : Nat} (f : Thread → Thread) (h : s.th.uid = n) : (s.updThread n f).th = f s.th := by
  simp [State.updThread, State.mapThreads, h]

theorem updThread_th_other {n : Nat} (f : Thread → Thread) (h : s.th.uid ≠ n) : (s.updThread n f).th = s.th := by
  simp [State.updThread, State.mapThreads, h]

/-- Threads execute again. -/
def allAgain (s : State) (l : List Thread) : State := l.foldl (fun s t => s.updThread t.uid (fun t => t.again s.clk)) s

/-- So does the issuing thread, if it is one of them. -/
theorem allAgain_th (s : State) (l : List Thread) : (allAgain s l).th = if l.any (fun t => s.th.uid == t.uid) then s.th.again s.clk else s.th := by
  unfold allAgain
  induction l generalizing s with
  | nil => rfl
  | cons x l ih =>
    rw [List.foldl_cons, ih, List.any_cons]
    by_cases hx : s.th.uid = x.uid
    · rw [updThread_th_same _ hx]
      simp [hx, Thread.again]
    · rw [updThread_th_other _ hx]
      simp [hx]

/-- A unit that goes on is no concern of a thread that does not wait for texels. -/
theorem pokeUnit_th {u : Nat} (h : s.th.run ≠ .waiting .texels) : (pokeUnit s u).th = s.th := by
  unfold pokeUnit
  dsimp only
  have hx (f : Thread → Thread) (hf : ∀ t, t.run ≠ .waiting .texels → f t = t) : (s.updThread u f).th = s.th := by
    by_cases hu : s.th.uid = u
    · rw [updThread_th_same _ hu, hf _ h]
    · exact updThread_th_other _ hu
  refine ite_keeps (ite_keeps rfl (ite_keeps ?_ ?_)) (ite_keeps rfl (ite_keeps rfl (ite_keeps rfl (hx _ fun t ht => if_neg ?_))))
  · exact (Prod.mk.inj (crew_of_sansLinks (atOnce_sansLinks ..))).1
  · split <;> rfl
  · simpa using ht

/-- Memory, dies and cluster TLBs. -/
def State.tables (s : State) : Memory × Vector Die 24 × Table (List TlbEntry) := (s.mem, s.dies, s.ctlb)

theorem pokeUnit_tables (s : State) (u : Nat) : (pokeUnit s u).tables = s.tables := by
  unfold pokeUnit
  dsimp only
  refine ite_keeps (ite_keeps rfl (ite_keeps ?_ ?_)) (ite_keeps rfl (ite_keeps rfl (ite_keeps rfl rfl)))
  · exact (congrArg (fun x => x.1.tables) (atOnce_sansLinks ..) :)
  · split <;> rfl

/-- Units that go on. -/
theorem foldl_pokeUnit (l : List Nat) (h : s.th.run ≠ .waiting .texels) :
    (l.foldl pokeUnit s).th = s.th ∧ (l.foldl pokeUnit s).tables = s.tables := by
  refine ⟨?_, foldl_keeps pokeUnit_tables l s⟩
  induction l generalizing s with
  | nil => rfl
  | cons u l ih =>
    have k := pokeUnit_th (u := u) h
    exact (ih (k ▸ h)).trans k

/-! The walk ends. -/

/-- The walk is taken from the list, and the next that waits begins. -/
def walkTaken (s : State) (die : Nat) (w : Walk) : State :=
  let s := s.updDie die (fun d => { d with walks := d.walks.filter (fun x => !(x.part == w.part && x.vpage == w.vpage)) })
  match (s.die die).walks[63]? with
  | some x => beginWalk s die x
  | none => s

theorem walkTaken_view (s : State) (die : Nat) (w : Walk) : (walkTaken s die w).walkView =
    (s.updDie die (fun d => { d with walks := d.walks.filter (fun x => !(x.part == w.part && x.vpage == w.vpage)) })).walkView := by
  unfold walkTaken
  dsimp only
  split
  · exact beginWalk_walkView ..
  · rfl

/-- A walk that has found its leaf has filled the translations. -/
def walkFilled (s : State) (die : Nat) (w : Walk) (pte : DWord) (n : Nat) : State :=
  fillWalk (walkTaken s die w) die w (walkThreads s die w) pte n

theorem endWalk_some (s : State) (die : Nat) (w : Walk) (pte : DWord) (n : Nat) : endWalk s die w (some (pte, n)) =
    w.waits.foldl pokeUnit (allAgain (walkFilled s die w pte n) (walkThreads s die w)) := rfl

/-- What the walk has found is in the cluster TLBs of those that waited. -/
theorem fillWalk_ctlb (s : State) (die : Nat) (w : Walk) (ts : List Thread) (pte : DWord) (n : Nat) {t : Thread} (ht : t ∈ ts) :
    (⟨w.part, w.vpage / n * n, n, pte⟩ : TlbEntry) ∈ Table.at (fillWalk s die w ts pte n).ctlb (t.core / 64) [] := by
  have put (u : State) (c : Nat) (e : TlbEntry) : e ∈ Table.at (fillCluster u c e).ctlb c [] := by
    simp [fillCluster]
  have e (l : List Nat) (u : State) (x : TlbEntry) (c : Nat) (h : c ∈ l ∨ x ∈ Table.at u.ctlb c []) :
      x ∈ Table.at (l.foldl (fun s c => fillCluster s c x) u).ctlb c [] := by
    induction l generalizing u with
    | nil => simpa using h
    | cons a l ih =>
      refine ih _ ?_
      by_cases hc : c = a
      · subst hc
        exact .inr (put ..)
      · refine h.imp (fun k => (List.mem_cons.1 k).resolve_left hc) (fun k => ?_)
        simp only [fillCluster]
        rwa [at_put_other _ _ _ hc]
  refine e _ _ _ _ (.inl ?_)
  rw [List.mem_dedup, List.mem_map]
  exact ⟨t, ht, rfl⟩

/-- What a fill leaves alone: threads, memory and dies but for the translations of the one. -/
theorem fillWalk_rest (s : State) (die : Nat) (w : Walk) (ts : List Thread) (pte : DWord) (n : Nat) :
    (fillWalk s die w ts pte n).crew = s.crew ∧ (fillWalk s die w ts pte n).mem = s.mem ∧
      (fillWalk s die w ts pte n).dies = (tlbFill s die w.part w.vpage pte n).dies ∧ (fillWalk s die w ts pte n).clk = s.clk := by
  have h : ((fillWalk s die w ts pte n).crew, (fillWalk s die w ts pte n).mem, (fillWalk s die w ts pte n).dies, (fillWalk s die w ts pte n).clk) =
      (s.crew, s.mem, (tlbFill s die w.part w.vpage pte n).dies, s.clk) := by
    refine foldl_keeps (φ := fun s => (s.crew, s.mem, s.dies, s.clk)) (fun u c => ?_) _ _
    rfl
  simpa using h

theorem endWalk_found {die : Nat} {w : Walk} (pte : DWord) (n : Nat) (hd : die < 24) (hl : s.th.live = true) (hp : s.th.part = w.part)
    (hr : s.th.run = .waiting (.walk die w.vpage)) :
    let u := endWalk s die w (some (pte, n))
    u.mem = s.mem ∧ u.th = s.th.again s.clk ∧ (u.die die).tlb = (⟨w.part, w.vpage / n * n, n, pte⟩ :: (s.die die).tlb).take 16384 ∧
      ⟨w.part, w.vpage / n * n, n, pte⟩ ∈ Table.at u.ctlb (s.th.core / 64) [] ∧
      (u.die die).walks = (s.die die).walks.filter (fun x => !(x.part == w.part && x.vpage == w.vpage)) := by
  intro u
  have hv := walkTaken_view s die w
  have hin : s.th ∈ walkThreads s die w := mem_walkThreads.2 ⟨List.mem_cons_self, hl, hr, hp⟩
  obtain ⟨fc, fm, fd, fk⟩ := fillWalk_rest (walkTaken s die w) die w (walkThreads s die w) pte n
  have fctlb := fillWalk_ctlb (walkTaken s die w) die w (walkThreads s die w) pte n hin
  have hth : (walkFilled s die w pte n).th = s.th := (Prod.mk.inj (fc.trans (congrArg (fun x => x.2.2.2.1) hv :))).1
  have hclk : (walkFilled s die w pte n).clk = s.clk := fk.trans (congrArg (fun x => x.2.2.2.2) hv :)
  have ha : (allAgain (walkFilled s die w pte n) (walkThreads s die w)).th = s.th.again s.clk := by
    rw [allAgain_th, hth, hclk, if_pos]
    exact List.any_eq_true.2 ⟨s.th, hin, beq_self_eq_true _⟩
  have hat : (allAgain (walkFilled s die w pte n) (walkThreads s die w)).tables = (walkFilled s die w pte n).tables := by
    refine foldl_keeps (fun u t => ?_) _ _
    rfl
  obtain ⟨hu, hut⟩ := foldl_pokeUnit w.waits (s := allAgain (walkFilled s die w pte n) (walkThreads s die w)) (by rw [ha]; simp [Thread.again])
  rw [← endWalk_some] at hu hut
  have htab : u.tables = (walkFilled s die w pte n).tables := hut.trans hat
  have hdie : u.die die = (tlbFill (walkTaken s die w) die w.part w.vpage pte n).die die := by
    rw [State.die, State.die, ← fd]
    exact congrArg (fun x => x.2.1[die]?.getD Die.reset) htab
  have hy : (walkTaken s die w).die die = { s.die die with walks := (s.die die).walks.filter (fun x => !(x.part == w.part && x.vpage == w.vpage)) } := by
    rw [← die_updDie_same (s := s) (fun d => { d with walks := d.walks.filter (fun x => !(x.part == w.part && x.vpage == w.vpage)) }) hd]
    exact congrArg (fun x => x.2.1[die]?.getD Die.reset) hv
  rw [tlbFill, die_updDie_same _ hd, hy] at hdie
  refine ⟨(congrArg Prod.fst htab).trans (fm.trans (congrArg Prod.fst hv)), hu.trans ha, congrArg Die.tlb hdie, ?_, congrArg Die.walks hdie⟩
  rw [show u.ctlb = _ from congrArg (fun x => x.2.2) htab]
  exact fctlb

/-- The translation cause that a thread takes at a page that has none. -/
def walkFault (t : Thread) : FaultRec := faultAt .translation t.fin.len (BitVec.ofNat 64 (t.fin.adv.headD 0)) t.fin.dst

/-- A thread that waited for a walk parks on the translation cause. -/
def parkWalk (s : State) (t : Thread) : State := (parkFault s t (walkFault t)).1.updThread t.uid (fun _ => (parkFault s t (walkFault t)).2)

theorem endWalk_none (s : State) (die : Nat) (w : Walk) : endWalk s die w none =
    w.waits.foldl pokeUnit ((walkThreads s die w).foldl parkWalk
      { walkTaken s die w with badWalks := (walkTaken s die w).badWalks ++ w.waits.map (fun u => (u, w.vpage)) }) := rfl

/-- The thread x is t, parked on the translation cause at its instruction. -/
def parkedAs (t x : Thread) : Prop :=
  x.uid = t.uid ∧ (∃ f, x.run = .faulted f ∧ f.cause = .translation ∧ f.addr = BitVec.ofNat 64 (t.fin.adv.headD 0)) ∧ x.pc = t.pc ∧ x.g = t.g ∧ x.p = t.p

theorem parkFault_parkedAs (s : State) (t : Thread) : parkedAs t (parkFault s t (walkFault t)).2 := by
  unfold parkFault
  dsimp only
  split
  · exact ⟨rfl, ⟨_, rfl, rfl, rfl⟩, rfl, rfl, rfl⟩
  · exact ⟨rfl, ⟨_, rfl, rfl, rfl⟩, rfl, rfl, rfl⟩

theorem parkWalk_th_same {t : Thread} (h : s.th.uid = t.uid) : (parkWalk s t).th = (parkFault s t (walkFault t)).2 := by
  have e : (parkFault s t (walkFault t)).1.th = s.th := (Prod.mk.inj (parkFault_crew ..)).1
  exact updThread_th_same _ (e ▸ h)

theorem parkWalk_th_other {t : Thread} (h : s.th.uid ≠ t.uid) : (parkWalk s t).th = s.th := by
  have e : (parkFault s t (walkFault t)).1.th = s.th := (Prod.mk.inj (parkFault_crew ..)).1
  exact (updThread_th_other _ (e ▸ h)).trans e

/-- All that wait park: a thread whose identity is no other's among them. -/
theorem foldl_parkWalk {t : Thread} (l : List Thread) (hl : ∀ x ∈ l, x.uid = t.uid → x = t) (h : s.th.uid = t.uid) (ht : t ∈ l ∨ parkedAs t s.th) :
    parkedAs t (l.foldl parkWalk s).th := by
  induction l generalizing s with
  | nil => exact ht.resolve_left (by simp)
  | cons x l ih =>
    have hl' : ∀ y ∈ l, y.uid = t.uid → y = t := fun y hy => hl y (List.mem_cons_of_mem _ hy)
    by_cases hx : x.uid = t.uid
    · have e := hl x List.mem_cons_self hx
      subst e
      have hp : parkedAs x (parkWalk s x).th := by
        rw [parkWalk_th_same h]
        exact parkFault_parkedAs ..
      exact ih hl' hp.1 (.inr hp)
    · have e := parkWalk_th_other (t := x) (s := s) (fun k => hx (k.symm.trans h))
      refine ih hl' (e ▸ h) (ht.imp (fun k => (List.mem_cons.1 k).resolve_left ?_) (fun k => e ▸ k))
      rintro rfl
      exact hx rfl

theorem endWalk_parks {die : Nat} {w : Walk} (hl : s.th.live = true) (hp : s.th.part = w.part) (hr : s.th.run = .waiting (.walk die w.vpage))
    (hu : ∀ t ∈ s.threads, t.uid ≠ s.th.uid) : parkedAs s.th (endWalk s die w none).th := by
  have hin : s.th ∈ walkThreads s die w := mem_walkThreads.2 ⟨List.mem_cons_self, hl, hr, hp⟩
  have hth : (walkTaken s die w).th = s.th := (congrArg (fun x => x.2.2.2.1.1) (walkTaken_view s die w) :)
  have hone : ∀ x ∈ walkThreads s die w, x.uid = s.th.uid → x = s.th := by
    intro x hx e
    exact (List.mem_cons.1 (mem_walkThreads.1 hx).1).resolve_right (fun k => hu x k e)
  have h := foldl_parkWalk (s := { walkTaken s die w with badWalks := (walkTaken s die w).badWalks ++ w.waits.map (fun u => (u, w.vpage)) })
    _ hone (congrArg Thread.uid hth) (.inl hin)
  obtain ⟨f, hf, -⟩ := h.2.1
  rw [endWalk_none, (foldl_pokeUnit w.waits (by rw [hf]; simp)).1]
  exact h

section
variable {die p vpage : Nat} {w : Walk}

theorem pageWalkComplete_bad (hf : (s.die die).walks.find? (fun x => x.part == p && x.vpage == vpage) = some w) (hb : w.bad = true) :
    exec (.pageWalkComplete die p vpage) s = .next (endWalk s die w none) := by
  rw [show exec (.pageWalkComplete die p vpage) s = execPageWalkComplete die p vpage s from rfl, execPageWalkComplete]
  simp only [hf, hb, if_true]

theorem pageWalkComplete_end (hf : (s.die die).walks.find? (fun x => x.part == p && x.vpage == vpage) = some w) (hb : w.bad = false)
    (hh : walkHeld s die w = none) : exec (.pageWalkComplete die p vpage) s =
      .next (endWalk (cachePath s die p (vpage * 2 ^ 16) w.root) die w (walkFrom s die p (vpage * 65536) w.root)) := by
  rw [show exec (.pageWalkComplete die p vpage) s = execPageWalkComplete die p vpage s from rfl, execPageWalkComplete]
  simp only [hf, hb, hh]
  rfl

/-- The walk that was found is the one that was asked for. -/
theorem walk_named (hf : (s.die die).walks.find? (fun x => x.part == p && x.vpage == vpage) = some w) : w.part = p ∧ w.vpage = vpage := by
  simpa using List.find?_some hf

/-- A walk that finds its leaf (R207). -/
theorem pageWalk_found {pte : DWord} {n : Nat} (hd : die < 24) (hl : s.th.live = true) (hp : s.th.part = p) (hr : s.th.run = .waiting (.walk die vpage))
    (hf : (s.die die).walks.find? (fun x => x.part == p && x.vpage == vpage) = some w) (hb : w.bad = false) (hh : walkHeld s die w = none)
    (hw : walkFrom s die p (vpage * 65536) w.root = some (pte, n)) :
    ∃ u, exec (.pageWalkComplete die p vpage) s = .next u ∧ s.sameMem u ∧ u.th.run = .ready ∧ u.th.pc = s.th.pc ∧ u.th.g = s.th.g ∧
      (u.die die).tlb = (⟨p, vpage / n * n, n, pte⟩ :: (s.die die).tlb).take 16384 ∧
      ⟨p, vpage / n * n, n, pte⟩ ∈ Table.at u.ctlb (s.th.core / 64) [] ∧ ∀ x ∈ (u.die die).walks, x.part = p → x.vpage ≠ vpage := by
  obtain ⟨rfl, rfl⟩ := walk_named hf
  obtain ⟨hm, hth, ht, hc, hx⟩ := endWalk_found (s := cachePath s die w.part (w.vpage * 2 ^ 16) w.root) pte n hd hl hp hr
  refine ⟨_, hw ▸ pageWalkComplete_end hf hb hh, sameMem_of_mem hm, congrArg Thread.run hth, (congrArg Thread.pc hth).trans rfl, (congrArg Thread.g hth).trans rfl, ?_, hc, fun x k hxp hxv => ?_⟩
  · rw [ht, cachePath, die_updDie_same _ hd]
  · rw [hx] at k
    simp [hxp, hxv] at k

/-- A walk that does not, or that read an entry with an uncorrectable error (R213). -/
theorem pageWalk_failed (hl : s.th.live = true) (hp : s.th.part = p) (hr : s.th.run = .waiting (.walk die vpage))
    (hu : ∀ t ∈ s.threads, t.uid ≠ s.th.uid) (hf : (s.die die).walks.find? (fun x => x.part == p && x.vpage == vpage) = some w)
    (h : w.bad = true ∨ (walkHeld s die w = none ∧ walkFrom s die p (vpage * 65536) w.root = none)) :
    ∃ u f, exec (.pageWalkComplete die p vpage) s = .next u ∧ u.th.run = .faulted f ∧ f.cause = .translation ∧
      f.addr = BitVec.ofNat 64 (s.th.fin.adv.headD 0) ∧ u.th.pc = s.th.pc ∧ u.th.g = s.th.g ∧ u.th.p = s.th.p := by
  obtain ⟨rfl, rfl⟩ := walk_named hf
  have e (u : State) (hx : parkedAs s.th u.th) (he : exec (.pageWalkComplete die w.part w.vpage) s = .next u) :
      ∃ u f, exec (.pageWalkComplete die w.part w.vpage) s = .next u ∧ u.th.run = .faulted f ∧ f.cause = .translation ∧
        f.addr = BitVec.ofNat 64 (s.th.fin.adv.headD 0) ∧ u.th.pc = s.th.pc ∧ u.th.g = s.th.g ∧ u.th.p = s.th.p := by
    obtain ⟨-, ⟨f, h1, h2, h3⟩, h4, h5, h6⟩ := hx
    exact ⟨u, f, he, h1, h2, h3, h4, h5, h6⟩
  cases hb : w.bad with
  | true => exact e _ (endWalk_parks hl hp hr hu) (pageWalkComplete_bad hf hb)
  | false =>
    obtain ⟨hh, hw⟩ := h.resolve_left (by simp [hb])
    refine e _ (endWalk_parks (s := cachePath s die w.part (w.vpage * 2 ^ 16) w.root) hl hp hr hu) ?_
    exact hw ▸ pageWalkComplete_end hf hb hh

end

/-! Invalidations (R208). -/

theorem table_at_map {α : Type} (l : Table (List α)) (g : Nat → List α → List α) (hg : ∀ k, g k [] = []) (k : Nat) :
    Table.at (l.map (fun e => (e.1, g e.1 e.2))) k [] = g k (Table.at l k []) := by
  induction l with
  | nil => simp [Table.at, Table.get, hg]
  | cons x l ih =>
    simp only [Table.at, List.map_cons, Table.get] at ih ⊢
    split
    · next e => simp [e]
    · exact ih

/-- What a drop on one die leaves of the translations of a die. -/
theorem dropCached_tlb (s : State) (d e : Nat) (f : TlbEntry → Bool) (g : PtrEntry → Bool) (x : TlbEntry) (hd : d < 24) :
    x ∈ ((dropCached s e f g).die d).tlb ↔ x ∈ (s.die d).tlb ∧ ¬(d = e ∧ f x = true) := by
  have h : (dropCached s e f g).die d =
      (s.updDie e (fun d => { d with tlb := d.tlb.filter (fun e => !f e), wcache := d.wcache.filter (fun e => !g e) })).die d := rfl
  rw [h]
  by_cases hde : d = e
  · subst hde
    rw [die_updDie_same _ hd]
    simp
  · rw [die_updDie_other _ _ hde]
    simp [hde]

/-- What it leaves of those of a cluster. -/
theorem dropCached_ctlb (s : State) (c e : Nat) (f : TlbEntry → Bool) (g : PtrEntry → Bool) (x : TlbEntry) :
    x ∈ Table.at (dropCached s e f g).ctlb c [] ↔ x ∈ Table.at s.ctlb c [] ∧ ¬(c / 16 = e ∧ f x = true) := by
  have h : (dropCached s e f g).ctlb = s.ctlb.map (fun y => (y.1, if y.1 / 16 = e then y.2.filter (fun x => !f x) else y.2)) :=
    List.map_congr_left (fun y _ => by split <;> rfl)
  rw [h, table_at_map s.ctlb (fun k l => if k / 16 = e then l.filter (fun x => !f x) else l) (by simp)]
  split
  · next k => simp [k]
  · next k => simp [k]

/-- A partition's translations dropped on all its dies (R208). -/
theorem dropTlb_done {p : Nat} {q : Part} (hq : s.part? p = some q) (f : TlbEntry → Bool) :
    s.sameMem (dropTlb s p f) ∧ (dropTlb s p f).th = s.th ∧ (s.clk + 512, .invalidationComplete p) ∈ (dropTlb s p f).timers ∧
      ∀ d ∈ q.dies, d < 24 → ∀ e, (e ∈ ((dropTlb s p f).die d).tlb ↔ e ∈ (s.die d).tlb ∧ ¬(e.part = p ∧ f e = true)) ∧
        ∀ c, c / 16 = d → (e ∈ Table.at (dropTlb s p f).ctlb c [] ↔ e ∈ Table.at s.ctlb c [] ∧ ¬(e.part = p ∧ f e = true)) := by
  have hp : s.partDies p = q.dies := by rw [State.partDies, hq]; rfl
  let drop (s : State) (d : Nat) : State := dropCached s d (fun e => e.part == p && f e) (fun e => e.part == p)
  have keep : (fun s : State => (s.mem, s.th, s.clk)) ((s.partDies p).foldl drop s) = (s.mem, s.th, s.clk) := by
    refine foldl_keeps (φ := fun s : State => (s.mem, s.th, s.clk)) (fun u d => ?_) _ _
    rfl
  have tlb (l : List Nat) (u : State) (d : Nat) (hd : d < 24) (e : TlbEntry) :
      e ∈ ((l.foldl drop u).die d).tlb ↔ e ∈ (u.die d).tlb ∧ ¬(d ∈ l ∧ e.part = p ∧ f e = true) := by
    induction l generalizing u with
    | nil => simp
    | cons a l ih =>
      rw [List.foldl_cons, ih, dropCached_tlb u d a _ _ e hd]
      simp only [Bool.and_eq_true, beq_iff_eq, List.mem_cons]
      tauto
  have ctlb (l : List Nat) (u : State) (c : Nat) (e : TlbEntry) :
      e ∈ Table.at (l.foldl drop u).ctlb c [] ↔ e ∈ Table.at u.ctlb c [] ∧ ¬(c / 16 ∈ l ∧ e.part = p ∧ f e = true) := by
    induction l generalizing u with
    | nil => simp
    | cons a l ih =>
      rw [List.foldl_cons, ih, dropCached_ctlb u c a _ _ e]
      simp only [Bool.and_eq_true, beq_iff_eq, List.mem_cons]
      tauto
  refine ⟨sameMem_of_mem (congrArg Prod.fst keep), congrArg (fun x => x.2.1) keep, ?_, fun d hd h24 e => ⟨?_, fun c hc => ?_⟩⟩
  · refine (mem_at_ ..).2 (.inl (Prod.ext ?_ rfl))
    exact congrArg (fun x => x.2.2 + 512) keep.symm
  · exact (tlb (s.partDies p) s d h24 e).trans (by simp [hp, hd])
  · exact (ctlb (s.partDies p) s c e).trans (by simp [hp, hc, hd])

theorem invalidationComplete_done {p : Nat} {q : Part} (hq : s.part? p = some q) (hf : s.flights = []) (hr : s.unitReads = [])
    (ht : ∀ t ∈ s.th :: s.threads, t.carried = [] ∧ t.update = none) :
    ∃ u, exec (.invalidationComplete p) s = .next u ∧ s.sameMem u ∧ u.part? p = some { q with ibusy := false } := by
  have hn : translatedBefore s p q.ibusyFrom = false := by
    have : s.anyThread (fun t => t.part == p && (t.carried.any (fun x => x.2.2 != 0) || t.update.isSome)) = false := by
      rw [State.anyThread, List.any_eq_false]
      intro t h
      simp [ht t h]
    rw [translatedBefore, this, hf, hr]
    rfl
  rw [show exec (.invalidationComplete p) s = execInvalidationComplete p s from rfl, execInvalidationComplete]
  simp only [hq, hn, Bool.false_eq_true, if_false]
  exact ⟨_, rfl, sameMem_of_mem rfl, part?_updPart_some (fun _ => rfl) hq⟩

theorem invalidationComplete_waits {p : Nat} {q : Part} {f : Flight} (hq : s.part? p = some q) (hf : f ∈ s.flights) (hu : f.undone = true)
    (hp : s.partOfFlight f = p) (he : f.pte ≠ 0) (hi : f.id < q.ibusyFrom) :
    ∃ u, exec (.invalidationComplete p) s = .next u ∧ u.parts = s.parts ∧ (s.clk + 64, .invalidationComplete p) ∈ u.timers := by
  have hy : translatedBefore s p q.ibusyFrom = true := by
    rw [translatedBefore, Bool.or_eq_true, Bool.or_eq_true]
    exact .inl (.inl (List.any_eq_true.2 ⟨f, hf, by simpa [hp, hu, hi] using he⟩))
  rw [show exec (.invalidationComplete p) s = execInvalidationComplete p s from rfl, execInvalidationComplete]
  simp only [hq, hy, if_true]
  exact ⟨_, rfl, rfl, (mem_at_ ..).2 (.inl rfl)⟩

theorem pageWalks : Says.PageWalks := by
  intro s p q hq
  refine ⟨fun die vpage w hd hl hp hr hu hf => ⟨fun pte n hb hh hw => pageWalk_found hd hl hp hr hf hb hh hw, fun h => pageWalk_failed hl hp hr hu hf h⟩,
    fun first count => ⟨_, rfl, ?_⟩, ⟨_, rfl, ?_⟩, fun hf hr ht => invalidationComplete_done hq hf hr ht,
    fun f hf hu hp he hi => invalidationComplete_waits hq hf hu hp he hi⟩
  · obtain ⟨hm, hth, ht, hd⟩ := dropTlb_done hq (fun e => meets e.vpage e.pages first count)
    exact ⟨hm, hth, ht, fun d h h24 e => by simpa [meets] using hd d h h24 e⟩
  · obtain ⟨hm, hth, ht, hd⟩ := dropTlb_done hq (fun _ => true)
    exact ⟨hm, hth, ht, by simpa using hd⟩

end Sys2Proof.Machine
end

section
/-! PROOFS. Replies from outside, and homes that do not return (O44). -/

namespace Sys2Proof.Machine
open Sys2Proof

section
variable {s : State} {f : Flight}

/-- The issuing thread waits for a load of one register, the only outstanding access. -/
structure awaitsWord (s : State) (f : Flight) : Prop where
  only : s.flights = [f]
  owner : f.owner = s.th.uid
  live : s.th.live = true
  blocks : f.blocks = true
  op : f.op = .load 4 false
  nreg : f.nreg = 1
  run : s.th.run = .waiting (.access f.id)
  adv : s.th.fin.adv = []

theorem awaitsWord.flight (h : awaitsWord s f) : s.flight? f.id = some f := by simp [State.flight?, h.only]

theorem awaitsWord.part (h : awaitsWord s f) : s.partOfFlight f = s.th.part := by simp [State.partOfFlight, h.owner]

/-- No younger access waits. -/
theorem awaitsWord.wake (h : awaitsWord s f) : wakeYounger s f = s := by simp [wakeYounger, h.only]

/-- What a reply leaves alone: memory, partitions and dies. -/
def State.stores (s : State) : Memory × List Part × Vector Die 24 × Nat := (s.mem, s.parts, s.dies, s.clk)

/-- The acquire that a reply is, if it is one. -/
def acquired (s : State) (f : Flight) : State :=
  if f.acq then (match s.thread? f.owner with
    | some t => l1Acquire s (clusterOf t.core) t.part
    | none => s) else s

theorem acquired_eq (s : State) (f : Flight) : ∃ l, acquired s f = { s with l1 := l } := by
  unfold acquired
  split
  · split
    · exact ⟨_, rfl⟩
    · exact ⟨_, rfl⟩
  · exact ⟨_, rfl⟩

/-- An access that blocks its thread: the thread goes on. -/
theorem flightDone_blocks (h : f.blocks = true) (r : List Word) : flightDone s f r =
    pokeOwner ((((acquired (wakeYounger s f) f).updThread f.owner (fun t => { t with performedAt := (acquired (wakeYounger s f) f).clk })).dropFlight f.id).updThread
      f.owner (fun t => if t.run == .waiting (.access f.id) || t.run == .waiting (.fe f.id) then
        t.complete r ((acquired (wakeYounger s f) f).clk + f.rest) else t)) f.owner := by
  unfold flightDone
  dsimp only
  rw [if_pos h]
  rfl

/-- The load completes with its word. -/
theorem awaitsWord.arrives (h : awaitsWord s f) (v : Word) :
    (arriveReply s f [v]).th = Thread.complete { s.th with performedAt := s.clk } [v] (s.clk + f.rest) ∧ (arriveReply s f [v]).flights = [] ∧
      (arriveReply s f [v]).stores = s.stores := by
  obtain ⟨l, hl⟩ := acquired_eq s f
  have key : (flightDone s f [v]).th = Thread.complete { s.th with performedAt := s.clk } [v] (s.clk + f.rest) ∧
      (flightDone s f [v]).flights = [] ∧ (flightDone s f [v]).stores = s.stores := by
    rw [flightDone_blocks h.blocks, h.wake, hl]
    refine ⟨?_, by simp [pokeOwner, State.updThread, State.mapThreads, State.dropFlight, h.only], rfl⟩
    simp [pokeOwner, State.updThread, State.mapThreads, State.dropFlight, h.owner, h.run, Thread.complete]
  obtain ⟨k1, k2, k3⟩ := key
  have hs : arriveReply s f [v] = flightDone s f [v] := by
    have hu : (flightDone s f [v]).th.uid = f.owner := by rw [k1, complete_uid, h.owner]
    have hx : ((flightDone s f [v]).th :: (flightDone s f [v]).threads).find? (fun t => t.uid == f.owner) = some (flightDone s f [v]).th := by
      rw [List.find?_cons_of_pos]
      exact beq_iff_eq.2 hu
    rw [arriveReply, settleOwner, hx]
    exact if_pos (by rw [k1]; rfl)
  rw [hs]
  exact ⟨k1, k2, k3⟩

/-- What the thread of a load finds when its word has come. -/
theorem completed_word (h : awaitsWord s f) (v : Word) (k : Nat) :
    (Thread.complete { s.th with performedAt := s.clk } [v] k).run = .ready ∧
      (Thread.complete { s.th with performedAt := s.clk } [v] k).pc = s.th.pc + BitVec.ofNat 32 s.th.fin.len ∧
      (Thread.complete { s.th with performedAt := s.clk } [v] k).gets s.th s.th.fin.dst v := by
  refine ⟨rfl, ?_, fun hn hb => ?_⟩
  · simp [Thread.complete, h.adv, advances, Thread.wrs, Thread.wr]
  · simp [Thread.complete, h.adv, advances, Thread.wrs, Thread.wr, hn, hb]

/-- The end of such a load, with what it leaves of memory, partitions and dies. -/
theorem awaitsWord.ends (h : awaitsWord s f) (v : Word) : (arriveReply s f [v]).flights = [] ∧ (arriveReply s f [v]).th.run = .ready ∧
    (arriveReply s f [v]).th.pc = s.th.pc + BitVec.ofNat 32 s.th.fin.len ∧ (arriveReply s f [v]).th.gets s.th s.th.fin.dst v ∧
    (arriveReply s f [v]).stores = s.stores := by
  obtain ⟨k1, k2, k3⟩ := h.arrives v
  obtain ⟨h1, h2, h3⟩ := completed_word h v (s.clk + f.rest)
  rw [k1]
  exact ⟨k2, h1, h2, h3, k3⟩

/-! Completions (R55). -/

theorem outsideReply_word (h : f.op = .load 4 false) (s : State) (d : List Byte) :
    outsideReply s f.op d = (s, [BitVec.ofNat 32 (sliceNat d 0 4)]) := by
  rw [h]
  simp [outsideReply, replyWords, loadValue, BitVec.setWidth_ofNat_of_le]

theorem accessOutside_word (h : f.op = .load 4 false) (s : State) (d : List Byte) :
    accessOutside s f d = arriveReply s f [BitVec.ofNat 32 (sliceNat d 0 4)] := by
  rw [accessOutside, outsideReply_word h]
  exact if_neg (by simp [h, AccOp.size])

/-- A completion without an error. -/
theorem awaitsWord.outside_ok (h : awaitsWord s f) (hp : f.phase = .peer) (d : List Byte) :
    outsideDone s f.id 0 d = arriveReply s f [BitVec.ofNat 32 (sliceNat d 0 4)] := by
  unfold outsideDone
  simp only [h.flight, hp, if_true]
  exact accessOutside_word h.op s d

/-- A completion with one: a record, and zero. -/
theorem awaitsWord.outside_error (h : awaitsWord s f) (hp : f.phase = .peer) {st : Nat} (hs : st ≠ 0) (d : List Byte) :
    outsideDone s f.id st d = arriveReply (peerErr s s.th.part ((f.keys.find? isOutside).getD f.pa) st) f [0] := by
  unfold outsideDone
  simp only [h.flight, hp, hs, if_false, h.part]
  exact accessOutside_word h.op ..

theorem awaitsWord.of_sansQueues {u : State} (h : awaitsWord s f) (e : u.sansQueues = s.sansQueues) : awaitsWord u f := by
  have ht : u.th = s.th := (congrArg State.th e :)
  exact ⟨(congrArg State.flights e :).trans h.only, by rw [ht, h.owner], by rw [ht, h.live], h.blocks, h.op, h.nreg, by rw [ht, h.run], by rw [ht, h.adv]⟩

/-- A record that is written stays while memory and partitions do. -/
theorem records_of_stores {s u v : State} {p k : Nat} (h : Says.records s p k u) (e : v.stores = u.stores) : Says.records s p k v := by
  intro q hq hh hf
  obtain ⟨y, hy, ht, hm⟩ := h q hq hh hf
  exact ⟨y, (congrArg (fun x => x.2.1.find? (fun q => q.id == p)) e).trans hy, ht, (congrArg (fun x => memRead x.1 _) e).trans hm⟩

theorem awaitsWord.recorded (h : awaitsWord s f) (hp : f.phase = .peer) {st : Nat} (hs : st ≠ 0) (d : List Byte) :
    (outsideDone s f.id st d).flights = [] ∧ (outsideDone s f.id st d).th.run = .ready ∧
      (outsideDone s f.id st d).th.pc = s.th.pc + BitVec.ofNat 32 s.th.fin.len ∧ (outsideDone s f.id st d).th.gets s.th s.th.fin.dst 0 ∧
      Says.records s s.th.part 10 (outsideDone s f.id st d) := by
  rw [h.outside_error hp hs]
  have e : (peerErr s s.th.part ((f.keys.find? isOutside).getD f.pa) st).sansQueues = s.sansQueues := fqNote_sansQueues ..
  have hr : Says.records s s.th.part 10 (peerErr s s.th.part ((f.keys.find? isOutside).getD f.pa) st) := fqNote_records s _ _ _ _ _ _ (by decide)
  obtain ⟨h1, h2, h3, h4, h5⟩ := (h.of_sansQueues e).ends 0
  have ht : (peerErr s s.th.part ((f.keys.find? isOutside).getD f.pa) st).th = s.th := (congrArg State.th e :)
  rw [ht] at h3 h4
  exact ⟨h1, h2, h3, h4, records_of_stores hr h5⟩

/-! A home that does not return (R15). -/

theorem keys_word (h : f.op = .load 4 false) : f.keys = [f.pa] := by simp [Flight.keys, h, AccOp.keys, AccOp.ranges]

theorem lostReply_word (h : awaitsWord s f) (u : State) (die : Nat) : lostReply u f die = (u, [0]) := by
  unfold lostReply
  simp [h.op, h.nreg]

/-- What has been held long enough is lost: a record, and zero. -/
theorem awaitsWord.lost (h : awaitsWord s f) {die c : Nat} (hp : f.phase = .held c) (hd : homeSocket f.pa = die) (hm : s.heldMsgs = [])
    (ho : c + 50000 ≤ s.clk) : ∃ (l : List Herald) (k a : Nat), exec (.dieLostTimeout die) s =
      .next (dielost (arriveReply { s with heldMsgs := [], heralds := l } f [0]) s.th.part k a) := by
  rw [show exec (.dieLostTimeout die) s = .next (loseHeld s die false) from rfl, loseHeld]
  simp only [h.only, hm, List.filter_cons, List.filter_nil, keys_word h.op, List.any_cons, List.any_nil, hd, hp, ho, beq_self_eq_true, decide_true,
    Bool.or_false, Bool.false_or, Bool.and_self, if_true, List.foldl_cons, List.foldl_nil, lostReply_word h]
  refine ⟨_, _, _, congrArg Host.Outcome.next (congrArg (fun p => dielost _ p _ _) ?_)⟩
  exact h.part

/-- What has not been held so long goes on waiting. -/
theorem awaitsWord.stillHeld (h : awaitsWord s f) {die c : Nat} (hp : f.phase = .held c) (hm : s.heldMsgs = []) (ho : s.clk < c + 50000) :
    exec (.dieLostTimeout die) s = .next { s with flights := [f], heldMsgs := [] } := by
  rw [show exec (.dieLostTimeout die) s = .next (loseHeld s die false) from rfl, loseHeld]
  have hc : decide (c + 50000 ≤ s.clk) = false := by simpa using ho
  simp [h.only, hm, hp, hc]

end

theorem lateReplies : Says.LateReplies := by
  intro s f hf hown hl hb hop hn hr ha
  have h : awaitsWord s f := ⟨hf, hown, hl, hb, hop, hn, hr, ha⟩
  refine ⟨fun hp => ⟨fun v => ?_, fun st d hs => ⟨_, rfl, h.recorded hp hs d⟩, ⟨_, rfl, h.recorded hp (by decide) []⟩⟩,
    fun die c hp hd hm => ⟨fun ho => ?_, fun ho => ⟨_, h.stillHeld hp hm ho, sameMem_of_mem rfl, rfl, rfl⟩⟩⟩
  · obtain ⟨h1, h2, h3, h4, h5⟩ := h.ends v
    have e : sliceNat (leBytes 4 v.toNat) 0 4 = v.toNat := by
      rw [sliceNat, List.drop_zero, List.take_of_length_le (by rw [leBytes_length]), leNat_leBytes]
      exact Nat.mod_eq_of_lt v.isLt
    refine ⟨_, congrArg Host.Outcome.next (h.outside_ok hp _), ?_⟩
    rw [e, BitVec.ofNat_toNat, BitVec.setWidth_eq]
    exact ⟨h1, h2, h3, h4, sameMem_of_mem (congrArg Prod.fst h5)⟩
  · obtain ⟨l, k, a, he⟩ := h.lost hp hd hm ho
    have hy : awaitsWord { s with heldMsgs := [], heralds := l } f := ⟨hf, hown, hl, hb, hop, hn, hr, ha⟩
    obtain ⟨h1, h2, h3, h4, h5⟩ := hy.ends 0
    have hz := fqNote_sansQueues (arriveReply { s with heldMsgs := [], heralds := l } f [0]) s.th.part (fqBytes 3 0 k 0 a (Config.openDetail 3 []))
    have ht : (dielost (arriveReply { s with heldMsgs := [], heralds := l } f [0]) s.th.part k a).th =
        (arriveReply { s with heldMsgs := [], heralds := l } f [0]).th := (congrArg State.th hz :)
    refine ⟨_, he, (congrArg State.flights hz :).trans h1, ht ▸ h2, ht ▸ h3, ht ▸ h4, ?_⟩
    have hp' : (arriveReply { s with heldMsgs := [], heralds := l } f [0]).part? s.th.part = s.part? s.th.part :=
      congrArg (·.2.1.find? (·.id == s.th.part)) h5
    have hh (q : Part) : (arriveReply { s with heldMsgs := [], heralds := l } f [0]).homeUp q = s.homeUp q :=
      congrArg (fun d : Vector Die 24 => !(d[q.home]?.getD Die.reset).inReset) (congrArg (·.2.2.1) h5 :)
    intro q hq hu hf
    exact fqNote_records _ _ 0 k 0 a _ (by decide) q (hp'.trans hq) ((hh q).trans hu) hf

/-- Settles O44: walks and invalidations, and replies that come late or not at all. -/
theorem translationAndReplies : Obligations.TranslationAndReplies := ⟨pageWalks, lateReplies⟩

end Sys2Proof.Machine
end

section
/-! PROOFS. What work at the memory's home, and threads that cease, leave alone. -/

namespace Sys2Proof.Machine
open Sys2Proof

/-! How a thread goes on. -/

/-- A later state of a thread: it is of the same partition, it has not come to life again, and it stands where it stood, unless it has ended. -/
def Thread.evolves (t u : Thread) : Prop :=
  u.part = t.part ∧ (t.run = .absent → u.run = .absent) ∧ (u.run = .absent ∨ u.place = t.place ∧ u.hold = t.hold)

/-- A later state of all threads: none has come into being. -/
def State.evolves (s u : State) : Prop := s.th.evolves u.th ∧ ∀ t ∈ u.threads, ∃ x ∈ s.threads, x.evolves t

theorem Thread.evolves.refl (t : Thread) : t.evolves t := ⟨rfl, id, .inr ⟨rfl, rfl⟩⟩

theorem Thread.evolves.trans {t u v : Thread} (h : t.evolves u) (k : u.evolves v) : t.evolves v := by
  obtain ⟨h1, h2, h3⟩ := h
  obtain ⟨k1, k2, k3⟩ := k
  refine ⟨k1.trans h1, k2 ∘ h2, ?_⟩
  rcases k3 with k3 | ⟨k3, k4⟩
  · exact .inl k3
  · exact h3.imp k2 (fun h => ⟨k3.trans h.1, k4.trans h.2⟩)

/-- A thread that has not ended executes on where it stands. -/
theorem Thread.evolves_of_seat {t u : Thread} (h : t.run ≠ .absent) (hp : u.part = t.part) (hl : u.place = t.place) (hh : u.hold = t.hold) :
    t.evolves u := ⟨hp, fun e => absurd e h, .inr ⟨hl, hh⟩⟩

variable {s u v : State}

theorem State.evolves.refl (s : State) : s.evolves s := ⟨.refl _, fun t ht => ⟨t, ht, Thread.evolves.refl t⟩⟩

theorem State.evolves.trans (h : s.evolves u) (k : u.evolves v) : s.evolves v := by
  refine ⟨h.1.trans k.1, fun t ht => ?_⟩
  obtain ⟨y, hy, ey⟩ := k.2 t ht
  obtain ⟨x, hx, ex⟩ := h.2 y hy
  exact ⟨x, hx, ex.trans ey⟩

theorem evolves_of_crew (h : u.crew = s.crew) : s.evolves u := by
  obtain ⟨h1, h2⟩ := Prod.mk.inj h
  exact ⟨h1 ▸ .refl _, fun t ht => ⟨t, h2 ▸ ht, .refl t⟩⟩

theorem evolves_mapThreads (s : State) {f : Thread → Thread} (h : ∀ t : Thread, t.evolves (f t)) : s.evolves (s.mapThreads f) := by
  refine ⟨h _, fun t ht => ?_⟩
  obtain ⟨x, hx, rfl⟩ := List.mem_map.1 ht
  exact ⟨x, hx, h x⟩

theorem evolves_filter (s : State) (f : Thread → Bool) : s.evolves { s with threads := s.threads.filter f } :=
  ⟨.refl _, fun t ht => ⟨t, List.mem_of_mem_filter ht, Thread.evolves.refl t⟩⟩

/-- What no change of a waiting thread's registers touches. -/
def Thread.seat (t : Thread) : Nat × Place × Hold := (t.part, t.place, t.hold)

theorem advances_seat (t : Thread) (js : List Nat) : (advances t js).seat = t.seat := by
  unfold advances
  induction js generalizing t with
  | nil => rfl
  | cons j js ih =>
    refine (ih _).trans ?_
    unfold advance
    dsimp only
    split <;> rfl

theorem wrs_seat (t : Thread) (n : Nat) (l : List Word) : (t.wrs n l).seat = t.seat := by
  induction l generalizing t n with
  | nil => rfl
  | cons v r ih => exact ih ..

theorem complete_evolves {t : Thread} (h : t.run ≠ .absent) (l : List Word) (k : Nat) : t.evolves (t.complete l k) := by
  have e : (t.complete l k).seat = t.seat := (advances_seat ..).trans (wrs_seat ..)
  obtain ⟨e1, e2⟩ := Prod.mk.inj e
  exact Thread.evolves_of_seat h e1 (congrArg Prod.fst e2) (congrArg Prod.snd e2)

/-! The package as it stands. -/

/-- A die as it stands in its partition. -/
def Die.standing (d : Die) : Die := { Die.reset with present := d.present, lost := d.lost, inReset := d.inReset, clearing := d.clearing, left := d.left }

/-- What the service die holds, how dies and partitions stand, with the records of their streams. -/
def State.estate (s : State) : State :=
  { State.reset with
    clk := s.clk, phase := s.phase, trip := s.trip, clockHeld := s.clockHeld, faultPin := s.faultPin, sdUp := s.sdUp, sdLog := s.sdLog
    meas := s.meas, population := s.population, dies := s.dies.map Die.standing, parts := s.parts.map Part.sansQueue }

/-- With it the threads. -/
def State.still (s : State) : State := { s.estate with th := s.th, threads := s.threads }

/-- Threads have gone on, and the package stands as it did. -/
def State.calm (s u : State) : Prop := s.evolves u ∧ u.estate = s.estate

theorem calm_of_still (h : u.still = s.still) : s.calm u := ⟨evolves_of_crew (congrArg State.crew h :), (congrArg (fun x : State => { x with th := Thread.reset, threads := [] }) h :)⟩

theorem State.calm.refl (s : State) : s.calm s := ⟨.refl s, rfl⟩

theorem State.calm.trans (h : s.calm u) (k : u.calm v) : s.calm v := ⟨h.1.trans k.1, k.2.trans h.2⟩

theorem calm_foldl {α : Type} {f : State → α → State} (h : ∀ (s : State) x, s.calm (f s x)) (l : List α) (s : State) : s.calm (l.foldl f s) := by
  induction l generalizing s with
  | nil => exact State.calm.refl s
  | cons x l ih => exact (h s x).trans (ih _)

theorem calm_ite {c : Prop} [Decidable c] (hu : s.calm u) (hv : s.calm v) : s.calm (if c then u else v) := by
  split
  · exact hu
  · exact hv

theorem still_of_sansCache (h : u.sansCache = s.sansCache) : u.still = s.still := (congrArg State.still h :)

theorem still_of_sansQueues (h : u.sansQueues = s.sansQueues) : u.still = s.still := by
  have e (l : List Part) : (l.map Part.sansQueue).map Part.sansQueue = l.map Part.sansQueue := by
    rw [List.map_map]
    rfl
  have k : u.parts.map Part.sansQueue = s.parts.map Part.sansQueue := (congrArg State.parts h :)
  have j := (congrArg (fun x : State => { x.still with parts := u.parts.map Part.sansQueue }) h :)
  exact j.trans (congrArg (fun l => { s.still with parts := l }) k)

theorem updDie_still (s : State) (d : Nat) {f : Die → Die} (h : (f (s.die d)).standing = (s.die d).standing) : (s.updDie d f).still = s.still :=
  congrArg (fun l => { s.still with dies := l }) (updDie_map s d h)

theorem updRast_still (s : State) (d : Nat) (f : Raster → Raster) : (s.updRast d f).still = s.still := updDie_still s d rfl

/-! Accesses at their home. -/

theorem later_still (s : State) (e : Event) : (s.later e).still = s.still := rfl

theorem memStore_still (s : State) (k n : Nat) (v : BitVec 128) : (memStore s k n v).still = s.still := still_of_sansCache (memStore_sansCache ..)

theorem hosterr_still (s : State) (p a b c d e f : Nat) : (hosterr s p a b c d e f).still = s.still :=
  still_of_sansQueues (fqNote_sansQueues ..)

theorem writeAperture_still (s : State) (a k : Nat) (e : BitVec 128) (w : Option Nat) : (writeAperture s a k e w).still = s.still := by
  unfold writeAperture
  dsimp only
  split
  · rfl
  · exact ite_keeps rfl (hosterr_still ..)

theorem writeSpanAperture_still (s : State) (a k : Nat) (e : BitVec 128) (w : Option Nat) : (writeSpanAperture s a k e w).still = s.still := by
  unfold writeSpanAperture
  dsimp only
  split
  · rfl
  · exact ite_keeps rfl (hosterr_still ..)

theorem ioWrite_still (s : State) (a b n : Nat) (v : BitVec 128) (w : Option Nat) : (ioWrite s a b n v w).still = s.still :=
  ite_keeps rfl (ite_keeps (writeAperture_still ..) (ite_keeps (writeSpanAperture_still ..) rfl))

theorem ctlWrite_still (s : State) (d o : Nat) (b : Bool) (v : DWord) (f n : Nat) : (ctlWrite s d o b v f n).still = s.still := by
  unfold ctlWrite
  refine ite_keeps ?_ (ite_keeps rfl (ite_keeps (ite_keeps rfl rfl) (ite_keeps rfl (ite_keeps ?_ (ite_keeps rfl rfl)))))
  · split <;> rfl
  · exact ite_keeps (ite_keeps (φ := State.still) rfl rfl) (ite_keeps rfl rfl)

theorem ctlWriteBytes_still (s : State) (d o n : Nat) (b : Bool) (v : BitVec 128) : (ctlWriteBytes s d o n b v).still = s.still :=
  ite_keeps ((ctlWrite_still ..).trans (ctlWrite_still ..)) (ctlWrite_still ..)

theorem homeWrite_still (s : State) (k n : Nat) (v : BitVec 128) (w : Option Nat) : (homeWrite s k n v w).still = s.still :=
  ite_keeps (ctlWriteBytes_still ..) (ite_keeps (ioWrite_still ..) (memStore_still ..))

theorem homeRead_still (s : State) (k n : Nat) : (homeRead s k n).2.still = s.still := by
  unfold homeRead
  split
  · rfl
  · split
    · unfold ioRead
      dsimp only
      repeat' split
      all_goals rfl
    · rfl

theorem feDo_still (s : State) (k o : Nat) (v : Word) : (feDo s k o v).1.still = s.still := by
  unfold feDo
  dsimp only [memLoad]
  split
  · rfl
  · rfl
  · rfl
  · rfl
  · exact memStore_still s k 4 _

theorem homeDo_still (s : State) (k : Nat) (o : AccOp) (w : Option Nat) : (homeDo s k o w).1.still = s.still := by
  cases o with
  | load n sx => exact homeRead_still ..
  | store n d => exact homeWrite_still ..
  | fe o v => exact feDo_still ..
  | rmw o wide v n ret => exact (homeWrite_still ..).trans (homeRead_still ..)
  | rmwPair o hi v n ret => exact (homeWrite_still ..).trans ((homeWrite_still ..).trans ((homeRead_still ..).trans (homeRead_still ..)))
  | ldm ks =>
    have h (l : List Nat) (a : State × List Word) : (l.foldl (fun (acc : State × List Word) k =>
        ((homeRead acc.1 k 4).2, acc.2 ++ [(homeRead acc.1 k 4).1.setWidth 32])) a).1.still = a.1.still := by
      induction l generalizing a with
      | nil => rfl
      | cons x l ih => exact (ih _).trans (homeRead_still ..)
    exact h ..
  | stm ws => exact foldl_keeps (fun s w => homeWrite_still ..) _ _
  | prefetch => rfl

end Sys2Proof.Machine
end

section
/-! PROOFS. Threads, groups and mover commands that cease. -/

namespace Sys2Proof.Machine
open Sys2Proof

variable {s u v : State}

theorem calm_mapThreads (s : State) {f : Thread → Thread} (h : ∀ t : Thread, t.evolves (f t)) : s.calm (s.mapThreads f) :=
  ⟨evolves_mapThreads s h, rfl⟩

theorem calm_updThread (s : State) (n : Nat) {f : Thread → Thread} (h : ∀ t : Thread, t.evolves (f t)) : s.calm (s.updThread n f) := by
  refine calm_mapThreads s (fun t => ?_)
  split
  · exact h t
  · exact .refl t

theorem again_evolves {t : Thread} (h : t.run ≠ .absent) (k : Nat) : t.evolves (t.again k) := Thread.evolves_of_seat h rfl rfl rfl

theorem live_iff {t : Thread} : t.live = true ↔ t.run ≠ .absent := by simp [Thread.live]

theorem calm_pokeOwner (s : State) (n : Nat) : s.calm (pokeOwner s n) := by
  refine calm_updThread s n (fun t => ?_)
  split
  · next h => exact again_evolves (h ▸ nofun) _
  · next h => exact again_evolves (h ▸ nofun) _
  · exact .refl t

theorem calm_pokeEngine (s : State) (c : Nat) : s.calm (pokeEngine s c) := by
  refine calm_mapThreads s (fun t => ?_)
  split
  · next h =>
    simp only [Bool.and_eq_true] at h
    exact again_evolves (live_iff.1 h.1.1) _
  · exact .refl t

theorem calm_offerPlace (s : State) (p : Place) : s.calm (offerPlace s p) := by
  cases p with
  | swarm c k =>
    have h : s.calm (if (s.core c).landing.isEmpty then s else s.later (.landingSlotTake c)) := calm_ite (.refl s) (calm_of_still (later_still ..))
    exact h.trans (calm_pokeEngine ..)
  | wave c k l => exact calm_pokeEngine ..
  | nowhere => exact .refl s
  | transit c => exact .refl s

theorem wakeYounger_still (s : State) (f : Flight) : (wakeYounger s f).still = s.still := foldl_keeps (fun _ _ => later_still ..) _ _

theorem calm_flightDone (s : State) (f : Flight) (l : List Word) : s.calm (flightDone s f l) := by
  unfold flightDone
  extract_lets s1 s2 s3 s4
  have h1 : s.calm s1 := calm_of_still (wakeYounger_still ..)
  have h2 : s.calm s2 := by
    refine h1.trans (calm_ite (calm_of_still ?_) (.refl _))
    split <;> rfl
  have h3 : s.calm s3 := h2.trans (calm_updThread _ _ (fun t => ⟨rfl, id, .inr ⟨rfl, rfl⟩⟩))
  have drop (y : State) (n : Nat) : y.calm (y.dropFlight n) := calm_of_still rfl
  refine h3.trans (calm_ite ?_ (calm_ite ?_ ?_))
  · refine (drop s3 f.id).trans ((calm_updThread _ _ (fun t => ?_)).trans (calm_pokeOwner ..))
    split
    · next h =>
      refine complete_evolves (fun e => ?_) _ _
      simp [e] at h
    · exact .refl t
  · exact (drop s3 f.id).trans (calm_pokeOwner ..)
  · exact (calm_of_still (u := s4.at_ (s4.clk + f.rest) (.memoryReply f.id)) rfl).trans (calm_pokeOwner ..)

theorem calm_fePass (n : Nat) (s : State) (ks : List Nat) : s.calm (fePass n s ks) := by
  induction n generalizing s ks with
  | zero => exact .refl s
  | succ n ih =>
    cases ks with
    | nil => exact .refl s
    | cons k ks =>
      unfold fePass
      split
      · exact ih ..
      · next f _ =>
        extract_lets home s1 admitted
        have h : s.calm (homeDo s1 k f.op none).1 := (calm_of_still rfl : s.calm s1).trans (calm_of_still (homeDo_still ..))
        exact h.trans ((calm_flightDone ..).trans (ih ..))

/-! What a thread that ceases leaves. -/

theorem mapMovers_still (s : State) (c : Nat) (f : MoverCmd → MoverCmd) : (mapMovers s c f).still = s.still := rfl

theorem calm_releaseWaiter (s : State) (d w : Nat) (p : FaultRec → Bool) : s.calm (releaseWaiter s d w p) := by
  unfold releaseWaiter
  refine calm_ite (calm_of_still ?_) (calm_ite (calm_of_still ?_) (calm_ite (calm_of_still ?_) ?_))
  · exact (later_still ..).trans (updRast_still ..)
  · exact (later_still ..).trans (updRast_still ..)
  · exact (later_still ..).trans (mapMovers_still ..)
  refine calm_updThread s w (fun t => ?_)
  split
  · next h =>
    split
    · exact again_evolves (h ▸ nofun) _
    · exact .refl t
  · exact .refl t

theorem calm_admitTicket (s : State) (d : Nat) : s.calm (admitTicket s d) := by
  unfold admitTicket
  split
  · exact .refl s
  · exact calm_ite (.refl s) (calm_releaseWaiter ..)

theorem calm_leaveEntry (s : State) (d e w : Nat) : s.calm (leaveEntry s d e w) := by
  have h (f : Die → Table FaultEntry) : s.calm (s.updDie d (fun x => { x with ftab := f x })) := calm_of_still (updDie_still s d rfl)
  unfold leaveEntry
  split
  · exact .refl s
  · exact calm_ite ((h _).trans (calm_admitTicket ..)) (h _)

theorem dropPrivate_still (s : State) (t : Thread) (b : Bool) : (dropPrivate s t b).still = s.still := by
  refine ite_keeps rfl (foldl_keeps (fun s l => ite_keeps rfl ?_) _ _)
  exact (still_of_sansCache (l1Put_sansCache ..)).trans (ite_keeps (still_of_sansCache (writeBackBytes_sansCache ..)) rfl)

theorem settleObject_still (s : State) (o : Nat × Bool) : (settleObject s o).still = s.still := ite_keeps rfl rfl

/-- A thread when the ones that are named cease. -/
def Thread.ceased (mine : Thread → Bool) (t : Thread) : Thread :=
  if mine t then { t with run := .absent, hold := .running, pend := 0, rx := false, vacated := false, place := .nowhere, replay := [] } else t

theorem ceased_evolves (mine : Thread → Bool) (t : Thread) : t.evolves (t.ceased mine) := by
  unfold Thread.ceased
  split
  · exact ⟨rfl, fun _ => rfl, .inl rfl⟩
  · exact .refl t

/-- Threads cease in one moment; before and after it they go on. -/
theorem ceaseThreads_between (s : State) (mine : Thread → Bool) :
    ∃ y, s.calm y ∧ (y.mapThreads (Thread.ceased mine)).calm (ceaseThreads s mine) := by
  unfold ceaseThreads
  extract_lets ts ids s1 s2 told given gone waits s3 s4 s5 s6 s7
  have h1 : s.calm s1 := by
    refine calm_foldl (fun s t => ?_) ts s
    split
    · split
      · exact calm_ite (calm_leaveEntry ..) (.refl s)
      · exact .refl s
    · exact .refl s
  have h2 : s.calm s2 := h1.trans (calm_foldl (fun s t => calm_of_still (dropPrivate_still ..)) ts s1)
  have h3 : s.calm s3 := h2.trans (calm_of_still rfl)
  have h5 : s4.calm s5 := ⟨evolves_filter s4 _, rfl⟩
  have h6 : s5.calm s6 := calm_ite (.refl s5) (calm_fePass ..)
  have h7 : s6.calm s7 := calm_of_still (foldl_keeps settleObject_still ..)
  exact ⟨s3, h3, h5.trans (h6.trans (h7.trans (calm_foldl calm_offerPlace ..)))⟩

theorem calm_ceaseThreads (s : State) (mine : Thread → Bool) : s.calm (ceaseThreads s mine) := by
  obtain ⟨y, h, k⟩ := ceaseThreads_between s mine
  exact h.trans ((calm_mapThreads y (ceased_evolves mine)).trans k)

theorem ceased_ends {t : Thread} {mine : Thread → Bool} (h : t.run ≠ .absent → mine t = true) : (t.ceased mine).run = .absent := by
  unfold Thread.ceased
  split
  · rfl
  · next k => exact Classical.byContradiction (fun e => k (h e))

/-- Threads that are named however they go on have ended. -/
theorem ceaseThreads_ends {s : State} {mine : Thread → Bool} {p : Thread → Prop}
    (h : ∀ t ∈ s.th :: s.threads, p t → ∀ x : Thread, t.evolves x → x.run ≠ .absent → mine x = true) :
    (p s.th → (ceaseThreads s mine).th.run = .absent) ∧
      ∀ x ∈ (ceaseThreads s mine).threads, ∃ t ∈ s.threads, t.evolves x ∧ (p t → x.run = .absent) := by
  obtain ⟨y, ⟨⟨a1, a2⟩, -⟩, ⟨⟨b1, b2⟩, -⟩⟩ := ceaseThreads_between s mine
  refine ⟨fun hp => b1.2.1 (ceased_ends (h _ List.mem_cons_self hp _ a1)), fun x hx => ?_⟩
  obtain ⟨z, hz, e⟩ := b2 x hx
  obtain ⟨w, hw, rfl⟩ := List.mem_map.1 hz
  obtain ⟨t, ht, ev⟩ := a2 w hw
  exact ⟨t, ht, ev.trans ((ceased_evolves mine w).trans e), fun hp => e.2.1 (ceased_ends (h t (List.mem_cons_of_mem _ ht) hp w ev))⟩

theorem ceaseGangs_still (s : State) (l : List Nat) : (ceaseGangs s l).still = s.still := rfl

theorem ceaseMovers_still (s : State) (mine : Poster → Bool) : (ceaseMovers s mine).still = s.still := by
  refine foldl_keeps (fun s c => ?_) _ _
  rfl

theorem dropDrains_still (s : State) (p n k : Nat) : (dropDrains s p n k).still = s.still :=
  foldl_keeps (fun s d => updDie_still s d rfl) _ _

theorem calm_stopWork (s : State) (p n k : Nat) : s.calm (stopWork s p n k) := by
  unfold stopWork
  extract_lets gangs s1 s2
  have h1 : s.calm s1 := calm_of_still (ceaseMovers_still ..)
  exact h1.trans ((calm_ceaseThreads ..).trans ((calm_of_still (ceaseGangs_still s2 gangs)).trans (calm_of_still (dropDrains_still ..))))

end Sys2Proof.Machine
end

section
/-! PROOFS. A die that is taken from its partition. -/

namespace Sys2Proof.Machine
open Sys2Proof

variable {s u v : State}

/-! The package as it stands, without the records. -/

/-- What the service die holds and how dies and partitions stand. -/
def State.realm (s : State) : State := { s.estate with parts := s.parts.map Part.outline }

/-- Threads have gone on, and dies and partitions stand as they did. -/
def State.tame (s u : State) : Prop := s.evolves u ∧ u.realm = s.realm

theorem State.tame.refl (s : State) : s.tame s := ⟨State.evolves.refl s, rfl⟩

theorem State.tame.trans (h : s.tame u) (k : u.tame v) : s.tame v := ⟨h.1.trans k.1, k.2.trans h.2⟩

theorem tame_foldl {α : Type} {f : State → α → State} (h : ∀ (s : State) x, s.tame (f s x)) (l : List α) (s : State) : s.tame (l.foldl f s) := by
  induction l generalizing s with
  | nil => exact State.tame.refl s
  | cons x l ih => exact (h s x).trans (ih _)

theorem tame_ite {c : Prop} [Decidable c] (hu : s.tame u) (hv : s.tame v) : s.tame (if c then u else v) := by
  split
  · exact hu
  · exact hv

theorem realm_of_estate (h : u.estate = s.estate) : u.realm = s.realm := by
  have k : u.parts.map Part.outline = s.parts.map Part.outline := by
    rw [← outline_sansQueue, ← outline_sansQueue s.parts]
    exact congrArg (List.map Part.outline) (congrArg State.parts h :)
  have j := (congrArg (fun x : State => { x with parts := u.parts.map Part.outline }) h :)
  exact j.trans (congrArg (fun l => { s.estate with parts := l }) k)

theorem State.calm.tame (h : s.calm u) : s.tame u := ⟨h.1, realm_of_estate h.2⟩

theorem realm_of_sansRecords (h : u.sansRecords = s.sansRecords) : u.realm = s.realm := by
  have e (v : Vector Die 24) : (v.map Die.sansRast).map Die.standing = v.map Die.standing := by
    rw [Vector.map_map]
    rfl
  have k : u.dies.map Die.standing = s.dies.map Die.standing := by
    rw [← e, ← e s.dies]
    exact congrArg (Vector.map Die.standing) (congrArg (fun x => x.1.dies) h :)
  have j := (congrArg (fun x : State × ((Nat → Bool) × (Nat → Nat)) × List Nat =>
    { State.reset with
      clk := x.1.clk, phase := x.1.phase, trip := x.1.trip, clockHeld := x.1.clockHeld, faultPin := x.1.faultPin, sdUp := x.1.sdUp
      sdLog := x.1.sdLog, meas := x.1.meas, population := x.1.population, parts := x.1.parts, dies := u.dies.map Die.standing }) h :)
  exact j.trans (congrArg (fun l => { s.realm with dies := l }) k)

theorem tame_of_sansRecords (h : u.sansRecords = s.sansRecords) : s.tame u :=
  ⟨evolves_of_crew (congrArg (fun x => x.1.crew) h :), realm_of_sansRecords h⟩

/-! Records that stop, homes that move, draws that lose a die. -/

theorem tame_stopRecord (s : State) (p n k a b : Nat) : s.tame (stopRecord s p n k a b) := by
  unfold stopRecord
  split
  · exact .refl s
  · extract_lets s1
    have h : s.tame s1 := (calm_stopWork ..).tame
    exact tame_ite (.refl s) (tame_ite (h.trans (tame_of_sansRecords (updRec_sansRecords ..))) (h.trans (tame_of_sansRecords (holdRec_sansRecords ..))))

theorem moveHomes_sansRecords (s : State) (p die : Nat) : (moveHomes s p die).sansRecords = s.sansRecords := by
  unfold moveHomes
  split
  · rfl
  · next q _ =>
    extract_lets s1 renew
    have h1 : s1.sansRecords = s.sansRecords := by
      refine foldl_keeps (fun s e => ?_) _ _
      extract_lets x m s2 m2 s3
      have h2 : s2.sansRecords = s.sansRecords := updStream_sansRecords ..
      have h3 : s3.sansRecords = s.sansRecords := updStream_sansRecords ..
      exact ite_keeps (ite_keeps h2 ((copyStream_sansRecords ..).trans h2)) (ite_keeps (ite_keeps h3 ((copyStream_sansRecords ..).trans h3)) rfl)
    have hr (h : Nat) (y : State) : (renew h y).sansRecords = y.sansRecords := by
      unfold renew
      extract_lets m y1
      have hy : y1.sansRecords = y.sansRecords := updPart_sansRecords y p (fun _ => rfl)
      clear_value y1 m
      cases m with
      | some d => exact (copyQueue_sansRecords ..).trans hy
      | none => exact hy
    refine ite_keeps ?_ (ite_keeps ((hr ..).trans h1) h1)
    split
    · exact (hr ..).trans h1
    · exact h1

theorem loseDraw_sansRecords (s : State) (p die : Nat) (d : Draw) : (loseDraw s p die d).sansRecords = s.sansRecords := by
  unfold loseDraw
  split
  · extract_lets here next unplaced placed n s1 s2
    have h1 : s1.sansRecords = s.sansRecords := updPart_sansRecords s p (fun _ => rfl)
    exact ite_keeps rfl ((sendClose_sansRecords ..).trans ((updRec_sansRecords ..).trans h1))
  · rfl

/-! What settles after a die is clear. -/

/-- The dies without their rasterisers, and the event counters in use. -/
def State.blocks (s : State) : Vector Die 24 × List Nat := (s.dies.map Die.sansRast, s.evc.map Prod.fst)

theorem blocks_of_sansRecords (h : u.sansRecords = s.sansRecords) : u.blocks = s.blocks :=
  (congrArg (fun x => (x.1.dies, x.2.2)) h :)

theorem recheck_sansRecords (s : State) (p n k : Nat) : (recheck s p n k).sansRecords = s.sansRecords := by
  unfold recheck
  split
  · exact ite_keeps rfl rfl
  · rfl

/-- Threads have gone on; dies, blocks and partitions stand as they did. -/
def State.tidy (s u : State) : Prop := s.tame u ∧ u.blocks = s.blocks

theorem State.tidy.refl (s : State) : s.tidy s := ⟨State.tame.refl s, rfl⟩

theorem State.tidy.trans (h : s.tidy u) (k : u.tidy v) : s.tidy v := ⟨h.1.trans k.1, k.2.trans h.2⟩

theorem tidy_foldl {α : Type} {f : State → α → State} (h : ∀ (s : State) x, s.tidy (f s x)) (l : List α) (s : State) : s.tidy (l.foldl f s) := by
  induction l generalizing s with
  | nil => exact State.tidy.refl s
  | cons x l ih => exact (h s x).trans (ih _)

theorem tidy_ite {c : Prop} [Decidable c] (hu : s.tidy u) (hv : s.tidy v) : s.tidy (if c then u else v) := by
  split
  · exact hu
  · exact hv

theorem tidy_of_sansRecords (h : u.sansRecords = s.sansRecords) : s.tidy u := ⟨tame_of_sansRecords h, blocks_of_sansRecords h⟩

theorem tidy_groupCheck (s : State) (g : Nat) : s.tidy (groupCheck s g) := by
  unfold groupCheck
  split
  · exact .refl s
  · exact tidy_ite (.refl s) ⟨⟨evolves_filter s _, rfl⟩, rfl⟩

theorem tidy_gangCheck (s : State) (g : Nat) : s.tidy (gangCheck s g) := by
  unfold gangCheck
  split
  · exact .refl s
  · extract_lets open_ s1 s2 s3
    have h1 : s.tidy s1 := ⟨⟨evolves_of_crew rfl, rfl⟩, rfl⟩
    have h2 : s1.tidy s2 := tidy_ite (.refl _) (tidy_of_sansRecords (updStream_sansRecords ..))
    have h3 : s2.tidy s3 := by
      refine tidy_of_sansRecords ?_
      unfold s3
      split <;> rfl
    exact tidy_ite (.refl s) (h1.trans (h2.trans (h3.trans (tidy_of_sansRecords (recheck_sansRecords ..)))))

theorem tidy_settleAfter (s : State) (p : Nat) : s.tidy (settleAfter s p) := by
  unfold settleAfter
  extract_lets s1 s2 s3 s4
  have h3 : s2.tidy s3 := by
    refine tidy_foldl (fun s e => tidy_ite (.refl s) (tidy_of_sansRecords ?_)) ..
    rfl
  exact (tidy_foldl tidy_groupCheck ..).trans ((tidy_foldl tidy_gangCheck ..).trans (h3.trans
    ((tidy_foldl (fun s (d : Draw) => tidy_of_sansRecords (recheck_sansRecords s p d.stream d.slot)) ..).trans
      (tidy_of_sansRecords (settleRecs_sansRecords ..)))))

/-! A die cleared. -/

/-- A die when it has been cleared. -/
def Die.cleared (lost : Bool) (d : Die) : Die :=
  { Die.reset with
    present := d.present, lost := d.lost || lost, saved := if lost then none else d.saved, clearing := d.clearing, left := d.left
    tcache := d.tcache, tpend := d.tpend, inReset := true }

/-- A thread stands on a die as a swarm thread, and nothing holds it. -/
def Thread.onDie (t : Thread) (die : Nat) : Prop := (∃ c k, t.place = .swarm c k ∧ coreDie c = die) ∧ t.hold = .running

theorem onDie_stands {t x : Thread} {die : Nat} (s : State) (h : t.onDie die) (e : t.evolves x) (hx : x.run ≠ .absent) :
    (x.live && standsOn s die x) = true := by
  obtain ⟨⟨c, k, hp, hc⟩, hh⟩ := h
  obtain ⟨ep, eh⟩ := e.2.2.resolve_left hx
  simp [live_iff.2 hx, standsOn, ep.trans hp, eh.trans hh, Thread.die, Thread.core, hc]

/-- A die is cleared: the threads that stand on it end, what it remembers is forgotten, then its blocks are clear. -/
theorem clearDie_stages (s : State) (die : Nat) (lost : Bool) :
    ∃ v z : State, s.calm v ∧ (s.th.onDie die → v.th.run = .absent) ∧ z.still = v.still ∧ (∀ e ∈ z.evc, e.1 / 64 ≠ die) ∧
      (∀ e ∈ z.mem, ownMemory die e.1 = false) ∧ (clearDie s die lost).still = (z.updDie die (Die.cleared lost)).still ∧
      (clearDie s die lost).blocks = (z.updDie die (Die.cleared lost)).blocks ∧ (clearDie s die lost).mem = z.mem := by
  unfold clearDie
  extract_lets mine s1 s2 s3 s4 parked some_ s5 s6 blank s7 s8
  have h2 : s.calm s2 := (calm_of_still rfl : s.calm s1).trans (calm_ceaseThreads ..)
  have h3 : s2.calm s3 := calm_of_still (ceaseGangs_still ..)
  have h4 : s3.calm s4 := calm_ite (calm_ceaseThreads ..) (.refl _)
  have keep {β : Type} (φ : State → β) (hr : ∀ s d f, φ (State.updRast s d f) = φ s) (ha : ∀ s k e, φ (State.at_ s k e) = φ s) :
      φ (if some_ then s8.at_ (s8.clk + 50000) (.dieLostTimeout die) else s8) = φ (s6.updDie die (Die.cleared lost)) := by
    have e : φ s8 = φ (s6.updDie die (Die.cleared lost)) := foldl_keeps (fun s e => hr s e _) ..
    exact ite_keeps ((ha ..).trans e) e
  refine ⟨s4, s6, h2.trans (h3.trans h4), fun hd => ?_, rfl, fun e he => ?_, fun e he => ?_, ?_⟩
  · refine (h3.trans h4).1.1.2.1 ((ceaseThreads_ends (p := fun t => t.onDie die) (fun t _ hp x ev hx => ?_)).1 hd)
    rw [onDie_stands s1 hp ev hx, Bool.true_or]
  · simpa using (List.mem_filter.1 he).2
  · simpa using (List.mem_filter.1 he).2
  · exact ⟨keep _ updRast_still (fun _ _ _ => rfl), keep _ (fun s d f => blocks_of_sansRecords (updRast_sansRecords s d f)) (fun _ _ _ => rfl),
      keep _ (fun _ _ _ => rfl) (fun _ _ _ => rfl)⟩

end Sys2Proof.Machine
end

section
/-! PROOFS. Dies that are reset or lost. -/

namespace Sys2Proof.Machine
open Sys2Proof

variable {s u v : State} {die : Nat} {lost : Bool}

/-! How a die stands after it has been taken. -/

/-- A die held in reset, perhaps because it is lost. -/
def Die.held (lost : Bool) (d : Die) : Die := { d with inReset := true, lost := d.lost || lost }

theorem die_map_standing (s : State) (d : Nat) : (s.dies.map Die.standing)[d]?.getD Die.reset = (s.die d).standing := by
  unfold State.die
  rw [Vector.getElem?_map]
  cases s.dies[d]? <;> rfl

theorem estate_die (s : State) (d : Nat) : s.estate.die d = (s.die d).standing := die_map_standing s d

theorem realm_die (s : State) (d : Nat) : s.realm.die d = (s.die d).standing := die_map_standing s d

theorem updDie_map_standing (s : State) (d : Nat) {f : Die → Die} (h : ∀ x, (f x).standing = (x.standing.held lost)) :
    (s.updDie d f).dies.map Die.standing = (s.dies.map Die.standing).setIfInBounds d ((s.die d).standing.held lost) := by
  ext i hi
  simp only [State.updDie_dies, Vector.getElem_map, Vector.getElem_setIfInBounds]
  split
  · exact h _
  · rfl

theorem updDie_estate (s : State) (d : Nat) {f : Die → Die} (h : ∀ x, (f x).standing = x.standing.held lost) :
    (s.updDie d f).estate = s.estate.updDie d (Die.held lost) := by
  have k := congrArg (fun l => { s.estate with dies := l }) (updDie_map_standing s d h)
  rw [← estate_die] at k
  exact k

theorem updDie_realm (s : State) (d : Nat) {f : Die → Die} (h : ∀ x, (f x).standing = x.standing.held lost) :
    (s.updDie d f).realm = s.realm.updDie d (Die.held lost) := by
  have k := congrArg (fun l => { s.realm with dies := l }) (updDie_map_standing s d h)
  rw [← realm_die] at k
  exact k

/-- The die is clear: nothing of its blocks remains but its rasteriser's idle state, and none of its event counters is in use. -/
def State.dieClear (s : State) (die : Nat) : Prop :=
  (∃ l d, (s.die die).sansRast = (Die.cleared l d).sansRast) ∧ ∀ e ∈ s.evc.map Prod.fst, e / 64 ≠ die

theorem dieClear_of_blocks (hd : die < 24) (h : u.blocks = s.blocks) (k : s.dieClear die) : u.dieClear die := by
  have e (x : State) : (x.die die).sansRast = (x.blocks.1[die]) := by simp [State.blocks, State.die, hd]
  have hk : u.evc.map Prod.fst = s.evc.map Prod.fst := congrArg Prod.snd h
  refine ⟨?_, hk.symm ▸ k.2⟩
  rw [e, h, ← e]
  exact k.1

theorem get_eq_none {α : Type} {l : Table α} {k : Nat} (h : ∀ e ∈ l.map Prod.fst, e ≠ k) : Table.get l k = none := by
  induction l with
  | nil => rfl
  | cons x r ih =>
    rw [Table.get, if_neg (h _ List.mem_cons_self), ih (fun e he => h e (List.mem_cons_of_mem _ he))]

theorem dieClear_facts (h : s.dieClear die) :
    (s.die die).inReset = true ∧ (s.die die).mcb = ⟨0, 0, 0, 0⟩ ∧ (s.die die).tlb = [] ∧ (s.die die).ftab = [] ∧ (s.die die).tsel = 0 ∧
      ∀ k, k < 64 → s.evCounter die k = EvCounter.reset := by
  obtain ⟨⟨l, d, h⟩, he⟩ := h
  refine ⟨(congrArg Die.inReset h :), (congrArg Die.mcb h :), (congrArg Die.tlb h :), (congrArg Die.ftab h :), (congrArg Die.tsel h :), fun k hk => ?_⟩
  have : Table.get s.evc (die * 64 + k) = none := by
    refine get_eq_none (fun e m j => he e m ?_)
    omega
  simp [State.evCounter, Table.at, this]

/-! A die cleared. -/

theorem clearDie_estate (s : State) (die : Nat) (lost : Bool) : (clearDie s die lost).estate = s.estate.updDie die (Die.held lost) := by
  obtain ⟨v, z, hv, -, hz, -, -, hc, -⟩ := clearDie_stages s die lost
  rw [(calm_of_still hc).2, updDie_estate (lost := lost) _ _ (fun _ => rfl), (calm_of_still hz).2, hv.2]

theorem clearDie_realm (s : State) (die : Nat) (lost : Bool) : (clearDie s die lost).realm = s.realm.updDie die (Die.held lost) := by
  obtain ⟨v, z, hv, -, hz, -, -, hc, -⟩ := clearDie_stages s die lost
  rw [(calm_of_still hc).tame.2, updDie_realm (lost := lost) _ _ (fun _ => rfl), (calm_of_still hz).tame.2, hv.tame.2]

theorem clearDie_threads (s : State) (die : Nat) (lost : Bool) :
    s.evolves (clearDie s die lost) ∧ (s.th.onDie die → (clearDie s die lost).th.run = .absent) := by
  obtain ⟨v, z, hv, hd, hz, -, -, hc, -⟩ := clearDie_stages s die lost
  have e : (clearDie s die lost).crew = v.crew := (congrArg State.crew hc :).trans (congrArg State.crew hz :)
  refine ⟨hv.1.trans (evolves_of_crew e), fun k => ?_⟩
  exact (congrArg (fun x => x.1.run) e :).trans (hd k)

theorem clearDie_clear (s : State) (hd : die < 24) (lost : Bool) : (clearDie s die lost).dieClear die := by
  obtain ⟨v, z, -, -, -, he, -, -, hb, -⟩ := clearDie_stages s die lost
  refine dieClear_of_blocks hd hb ⟨⟨lost, z.die die, ?_⟩, ?_⟩
  · rw [die_updDie_same _ hd]
  · simpa [State.updDie] using he


/-! A die taken from its partition. -/

theorem held_held (d : Die) (lost : Bool) : (d.held lost).held lost = d.held lost := by simp [Die.held]

theorem updDie_updDie (s : State) (d : Nat) {f g : Die → Die} (h : ∀ x, f (g x) = g x) : (s.updDie d g).updDie d f = s.updDie d g := by
  have e : f ((s.updDie d g).die d) = g (s.die d) ∨ 24 ≤ d := by
    rcases Nat.lt_or_ge d 24 with hd | hd
    · rw [die_updDie_same g hd, h]
      exact .inl rfl
    · exact .inr hd
  have k : ((s.updDie d g).dies.setIfInBounds d (f ((s.updDie d g).die d))) = (s.updDie d g).dies := by
    ext i hi
    rw [Vector.getElem_setIfInBounds, State.updDie_dies, Vector.getElem_setIfInBounds]
    split
    · next hx => exact e.resolve_right (by omega)
    · rfl
  exact congrArg (fun l => { s.updDie d g with dies := l }) k

theorem onDie_evolves {t x : Thread} (h : t.onDie die) (e : t.evolves x) : x.run = .absent ∨ x.onDie die := by
  obtain ⟨⟨c, k, hp, hc⟩, hh⟩ := h
  exact e.2.2.imp_right (fun ⟨ep, eh⟩ => ⟨⟨c, k, ep.trans hp, hc⟩, eh.trans hh⟩)

/-- A die is taken: what its partition did on it is settled, it is cleared, and what that leaves to do is done. -/
theorem takeDie_stages (s : State) (die : Nat) (lost : Bool) :
    ∃ v, s.evolves v ∧ v.realm.updDie die (Die.held lost) = s.realm.updDie die (Die.held lost) ∧ (clearDie v die lost).tidy (takeDie s die lost) := by
  unfold takeDie
  split
  · exact ⟨s, .refl s, rfl, .refl _⟩
  · next p _ =>
    extract_lets work s1 s2 s3 s4 s5
    have h1 : s1.realm = s.realm.updDie die (Die.held lost) := updDie_realm s die (fun _ => rfl)
    have h2 : s1.tame s2 := tame_of_sansRecords (moveHomes_sansRecords ..)
    have h3 : s2.tame s3 := tame_ite (tame_of_sansRecords (fqNote_sansRecords ..)) (.refl _)
    have h4 : s3.tame s4 := tame_foldl (fun s d => tame_of_sansRecords (loseDraw_sansRecords s p die d)) ..
    have h5 : s4.tame s5 := by
      refine tame_foldl (fun s w => ?_) ..
      split
      · exact tame_ite (.refl s) (tame_stopRecord ..)
      · exact .refl s
    have h := h2.trans (h3.trans (h4.trans h5))
    refine ⟨s5, (evolves_of_crew (u := s1) rfl).trans h.1, ?_, tidy_settleAfter ..⟩
    rw [h.2, h1]
    exact updDie_updDie _ _ (fun x => held_held x lost)

theorem takeDie_realm (s : State) (die : Nat) (lost : Bool) : (takeDie s die lost).realm = s.realm.updDie die (Die.held lost) := by
  obtain ⟨v, -, hr, ht⟩ := takeDie_stages s die lost
  rw [ht.1.2, clearDie_realm, hr]

theorem takeDie_clear (s : State) (hd : die < 24) (lost : Bool) : (takeDie s die lost).dieClear die := by
  obtain ⟨v, -, -, ht⟩ := takeDie_stages s die lost
  exact dieClear_of_blocks hd ht.2 (clearDie_clear v hd lost)

theorem takeDie_thread (lost : Bool) (h : s.th.onDie die) : (takeDie s die lost).th.run = .absent := by
  obtain ⟨v, he, -, ht⟩ := takeDie_stages s die lost
  have hc := clearDie_threads v die lost
  refine ht.1.1.1.2.1 ?_
  rcases onDie_evolves h he.1 with k | k
  · exact hc.1.1.2.1 k
  · exact hc.2 k

end Sys2Proof.Machine
end

section
/-! PROOFS. Resets of dies and partitions, losses and returns. -/

namespace Sys2Proof.Machine
open Sys2Proof

variable {s u v : State} {die : Nat} {lost : Bool}

/-! A die reset or lost. -/

theorem takeDie_clk (s : State) (die : Nat) (lost : Bool) : (takeDie s die lost).clk = s.clk := (congrArg State.clk (takeDie_realm s die lost) :)

theorem takeDie_sdLog (s : State) (die : Nat) (lost : Bool) : (takeDie s die lost).sdLog = s.sdLog := (congrArg State.sdLog (takeDie_realm s die lost) :)

theorem takeDie_lost (s : State) (hd : die < 24) (lost : Bool) : ((takeDie s die lost).die die).lost = ((s.die die).lost || lost) := by
  have h := congrArg (fun x => (x.die die).lost) (takeDie_realm s die lost)
  simp only [realm_die, die_updDie_same _ hd] at h
  exact h

theorem memRead_unlisted {m : Memory} {k : Nat} (h : ∀ e ∈ m, e.1 ≠ k) : memRead m k = 0 := by
  induction m with
  | nil => rfl
  | cons x r ih => rw [memRead, if_neg (h _ List.mem_cons_self), ih (fun e he => h e (List.mem_cons_of_mem _ he))]

theorem clearDie_memory {k : Nat} (h : die * 2 ^ 46 ≤ k) (h' : k < (die + 1) * 2 ^ 46) : memRead (clearDie s die lost).mem k = 0 := by
  obtain ⟨v, z, -, -, -, -, hm, -, -, e⟩ := clearDie_stages s die lost
  rw [e]
  refine memRead_unlisted (fun x hx he => ?_)
  have hn := hm x hx
  rw [ownMemory, he, decide_eq_true h, decide_eq_true h'] at hn
  exact Bool.noConfusion hn

theorem takeDie_of_free (h : s.partOfDie die = none) : takeDie s die lost = clearDie s die lost := by simp [takeDie, h]

/-- A die, present and not lost, is reset. -/
theorem execDieReset_taken (hd : die < 24) (hp : (s.die die).present = true) (hl : (s.die die).lost = false) :
    ∃ u, exec (.dieReset die) s = .next u ∧ u = { takeDie s die false with timers := u.timers } ∧
      ((s.partOfDie die).isSome = true → (s.clk + 2000, .dieLinkRetrain die) ∈ u.timers) := by
  have e : execDieReset die s = .next (if (s.partOfDie die).isSome then
      (takeDie s die false).at_ ((takeDie s die false).clk + 2000) (.dieLinkRetrain die) else takeDie s die false) := by
    simp [execDieReset, hp, hl, Nat.not_le.2 hd]
  cases hs : (s.partOfDie die).isSome with
  | true =>
    rw [hs, if_pos rfl] at e
    exact ⟨_, e, rfl, fun _ => (mem_at_ ..).2 (.inl (by rw [takeDie_clk]))⟩
  | false =>
    rw [hs, if_neg Bool.false_ne_true] at e
    exact ⟨_, e, rfl, fun h => absurd h Bool.false_ne_true⟩

theorem execDieLost_taken (hd : die < 24) (hp : (s.die die).present = true) (hl : (s.die die).lost = false) :
    exec (.dieLost die) s = .next (takeDie (s.log "die lost" die) die true) := by
  have e : execDieLost die s = .next (takeDie (s.log "die lost" die) die true) := by simp [execDieLost, hp, hl, Nat.not_le.2 hd]
  exact e

/-! A die that returns. -/

/-- How the dies stand and which links are up. -/
def State.footing (s : State) : Vector Die 24 × (Nat → Bool) := (s.dies.map Die.standing, s.ups)

theorem footing_of_sansRecords (h : u.sansRecords = s.sansRecords) : u.footing = s.footing :=
  Prod.ext (congrArg State.dies (realm_of_sansRecords h) :) (congrArg (fun x => x.2.1.1) h :)

theorem startSupervisor_footing (s : State) (p d : Nat) : (startSupervisor s p d).footing = s.footing := by
  unfold startSupervisor
  split
  · rfl
  · refine foldl_keeps (fun s e => ?_) _ _
    unfold supervisorThread
    dsimp only
    split <;> rfl

theorem releaseHeld_footing (s : State) (d : Nat) : (releaseHeld s d).footing = s.footing := by
  unfold releaseHeld
  dsimp only
  refine (foldl_keeps (fun s m => ?_) _ _).trans ((foldl_keeps (fun s f => ?_) _ _).trans ((foldl_keeps (fun s h => ?_) _ _).trans ?_))
  · rfl
  · exact ite_keeps rfl rfl
  · rfl
  · rfl

theorem updDie_footing (s : State) (d : Nat) {f : Die → Die} (h : (f (s.die d)).standing = (s.die d).standing) : (s.updDie d f).footing = s.footing :=
  congrArg (fun l => (l, s.ups)) (updDie_map s d h)

theorem resolveSeq_footing (s : State) (p g n : Nat) : (resolveSeq s p g n).footing = s.footing := by
  unfold resolveSeq
  extract_lets s1 s2
  have h2 : s2.footing = s1.footing := by
    refine foldl_keeps (fun s d => ?_) _ _
    exact updDie_footing s d rfl
  exact h2

theorem fqWrite_footing (s : State) (q : Part) (l : List Byte) : (fqWrite s q l).footing = s.footing :=
  footing_of_sansRecords (sansRecords_of_sansQueues (fqWrite_sansQueues ..))

theorem fqWritten_footing (s : State) (q : Part) (w : FqWait) : (fqWritten s q w).footing = s.footing :=
  (footing_of_sansRecords (recheck_sansRecords ..)).trans ((resolveSeq_footing ..).trans (fqWrite_footing ..))

theorem updPart_footing (s : State) (p : Nat) (f : Part → Part) : (s.updPart p f).footing = s.footing := rfl

theorem fqPumpGo_footing (p n : Nat) (s : State) : (fqPumpGo p n s).footing = s.footing := by
  induction n generalizing s with
  | zero => rfl
  | succ n ih =>
    unfold fqPumpGo
    split
    · rfl
    · refine ite_keeps rfl (ite_keeps ((ih _).trans ((updPart_footing ..).trans (fqWrite_footing ..))) ?_)
      split
      · rfl
      · exact (ih _).trans ((updPart_footing ..).trans (fqWritten_footing ..))

theorem homeTake_footing (p : Nat) (s : State) (o : HomeOp) : (homeTake p s o).footing = s.footing := by
  unfold homeTake
  split
  · exact footing_of_sansRecords (ctrDo_sansRecords ..)
  · exact ite_keeps (updPart_footing ..) (ite_keeps ((updPart_footing ..).trans (resolveSeq_footing ..)) (fqWritten_footing ..))
  · rfl

theorem homePump_footing (s : State) (p : Nat) : (homePump s p).footing = s.footing := by
  unfold homePump
  split
  · rfl
  · next q _ =>
    refine ite_keeps rfl ((footing_of_sansRecords (settleRecs_sansRecords ..)).trans ((foldl_keeps (fun s e => ?_) _ _).trans
      ((foldl_keeps (fun s o => homeTake_footing p s o) _ _).trans ((fqPumpGo_footing ..).trans (updPart_footing ..)))))
    exact foldl_keeps (fun s (r : Rec) => footing_of_sansRecords (recheck_sansRecords s p e.1 r.slot)) _ _

theorem returnDie_footing (s : State) (die : Nat) : (returnDie s die).footing =
    (((s.updDie die (fun d => { d with inReset := false, lost := false })).updLink die (fun l => l.trained die)).updLink (336 + die)
      (fun l => l.trained (336 + die))).footing := by
  unfold returnDie
  extract_lets s1 s2 s3
  have h3 : s3.footing = s2.footing := footing_of_sansRecords (sansRecords_of_sansLinks (pumpLink_sansLinks ..))
  split
  · exact (releaseHeld_footing ..).trans h3
  · next p _ =>
    extract_lets s4 s5 s6 s7 s8 s9
    have h4 : s4.footing = s3.footing := foldl_keeps (fun s e => ite_keeps rfl (footing_of_sansRecords (updRast_sansRecords s e _))) ..
    have h5 : s5.footing = s4.footing := by
      unfold s5
      split
      · rfl
      · next q _ =>
        have copy (y : State) (n d : Nat) : (copyStream y p n d).footing = y.footing := footing_of_sansRecords (copyStream_sansRecords ..)
        have queue (y : State) (d : Nat) : (copyQueue y p d).footing = y.footing := footing_of_sansRecords (copyQueue_sansRecords ..)
        extract_lets a1
        have h1 : a1.footing = s4.footing := by
          refine foldl_keeps (fun s e => ?_) _ _
          extract_lets x m a2
          have h2 : a2.footing = s.footing := updPart_footing ..
          refine ite_keeps ((copy ..).trans (ite_keeps (ite_keeps h2 ((copy ..).trans h2)) rfl)) (ite_keeps ((copy ..).trans ?_) rfl)
          exact updPart_footing ..
        refine ite_keeps ((queue ..).trans h1) (ite_keeps ?_ h1)
        split
        · exact (queue ..).trans h1
        · exact h1
    have h6 : s6.footing = s5.footing := ite_keeps (startSupervisor_footing ..) rfl
    have h7 : s7.footing = s6.footing := releaseHeld_footing ..
    have h8 : s8.footing = s7.footing := homePump_footing ..
    have h9 : s9.footing = s8.footing := by
      refine foldl_keeps (fun s n => ?_) _ _
      rfl
    exact (footing_of_sansRecords (settleRecs_sansRecords ..)).trans (h9.trans (h8.trans (h7.trans (h6.trans (h5.trans (h4.trans h3))))))

theorem returnDie_returned (s : State) (hd : die < 24) :
    ((returnDie s die).die die).inReset = false ∧ ((returnDie s die).die die).lost = false ∧ ((returnDie s die).link die).up = true := by
  obtain ⟨h1, h2⟩ := Prod.mk.inj (returnDie_footing s die)
  have e := die_map h1 die
  have hx : ∀ f : Die → Die, (((s.updDie die f).updLink die (fun l => l.trained die)).updLink (336 + die) (fun l => l.trained (336 + die))).die die =
    f (s.die die) := fun f => die_updDie_same f hd
  rw [hx] at e
  refine ⟨(congrArg Die.inReset e :), (congrArg Die.lost e :), (congrFun h2 die).trans ?_⟩
  rw [State.ups, link_updLink, if_neg (by omega), link_updLink, if_pos rfl]
  rfl

end Sys2Proof.Machine
end

section
/-! PROOFS. The reset of a partition. -/

namespace Sys2Proof.Machine
open Sys2Proof

variable {s u v : State}

/-! Steps over the dies of a list. -/

/-- What one step of a fold brings about and all keep. -/
theorem foldl_reaches {α : Type} {P : State → Prop} {f : State → α → State} {a : α} {l : List α} (ha : a ∈ l) (hit : ∀ s, P (f s a))
    (keep : ∀ s x, P s → P (f s x)) (s : State) : P (l.foldl f s) := by
  have go (l : List α) (s : State) (h : P s) : P (l.foldl f s) := by
    induction l generalizing s with
    | nil => exact h
    | cons x l ih => exact ih _ (keep s x h)
  induction l generalizing s with
  | nil => cases ha
  | cons x l ih =>
    rcases List.mem_cons.1 ha with rfl | h
    · exact go l _ (hit s)
    · exact ih h _

theorem clearDie_inReset {e : Nat} (he : e < 24) (d : Nat) (lost : Bool) (h : e = d ∨ (s.die e).inReset = true) :
    ((clearDie s d lost).die e).inReset = true := by
  have k := congrArg (fun x => (x.die e).inReset) (clearDie_realm s d lost)
  have k1 : ((clearDie s d lost).realm.die e).inReset = ((clearDie s d lost).die e).inReset :=
    (congrArg Die.inReset (realm_die (clearDie s d lost) e) :)
  refine k1.symm.trans (k.trans ?_)
  by_cases hd : e = d
  · subst hd
    rw [die_updDie_same _ he]
    rfl
  · rw [die_updDie_other _ _ hd, realm_die]
    exact h.resolve_left hd

/-- The links of some dies are to be retrained 2,000 clk later. -/
def retrainLater (s : State) (l : List Nat) : State := l.foldl (fun s d => s.at_ (s.clk + 2000) (.dieLinkRetrain d)) s

theorem retrainLater_timers (s : State) {l : List Nat} {e : Nat} (he : e ∈ l) : (s.clk + 2000, .dieLinkRetrain e) ∈ (retrainLater s l).timers := by
  have h := foldl_reaches (P := fun u => u.clk = s.clk → (s.clk + 2000, .dieLinkRetrain e) ∈ u.timers) he
    (f := fun s d => s.at_ (s.clk + 2000) (.dieLinkRetrain d)) (fun u h => ?_) (fun u x h k => ?_) s
  · refine h (foldl_keeps (φ := State.clk) (fun _ _ => ?_) _ _)
    rfl
  · exact (mem_at_ ..).2 (.inl (by rw [show u.clk = s.clk from h]))
  · exact (mem_at_ ..).2 (.inr (h k))

theorem retrainLater_eq (s : State) (l : List Nat) : retrainLater s l = { s with timers := (retrainLater s l).timers } := by
  refine foldl_keeps (φ := fun u : State => { u with timers := (retrainLater s l).timers }) (fun _ _ => ?_) l s
  rfl

/-! The parts of a partition's reset. -/

/-- The dies of a partition that its reset takes. -/
def resetDies (s : State) (q : Part) : List Nat := q.dies.filter (fun d => (s.die d).present && !(s.die d).lost)

/-- The dies of a partition are held in reset. -/
def holdDies (s : State) (l : List Nat) : State := l.foldl (fun s d => s.updDie d (fun d => { d with inReset := true })) s

theorem holdDies_eq (s : State) (l : List Nat) : holdDies s l = { s with dies := (holdDies s l).dies } := by
  refine foldl_keeps (φ := fun u : State => { u with dies := (holdDies s l).dies }) (fun _ _ => ?_) l s
  rfl

/-- Its started records end. -/
def endRecords (s : State) (p : Nat) (q : Part) : State :=
  q.streams.foldl (fun s e => (e.2.recs.filter (fun r => r.state != .accepted && r.state != .ready)).foldl (fun s r =>
    if r.state == .waiting then (if r.status.isSome then s else holdRec s p e.1 r.slot 5 0) else stopRecord s p e.1 r.slot 5 0) s) s

/-- The partition as its reset leaves it. -/
def Part.stopped (q : Part) : Part :=
  let started (d : Draw) : Bool := (q.stream d.stream).recs.all (fun r => r.slot != d.slot || r.status.isSome)
  let draws := q.draws.filter (fun d => !started d)
  { q with running := false, superCode := none, fqSeq := 0, fqWait := [], wdlim := 0, rastWait := [], ibusy := false, starting := none
           homeWait := q.homeWait.filter (fun o => match o with | .counter _ _ _ => true | _ => false), draws := draws }

/-- Its dies are held, its records have ended, its dies are clear. -/
def clearPart (s : State) (p : Nat) (q : Part) : State :=
  (resetDies s q).foldl (fun s d => clearDie s d false)
    (endRecords (holdDies s (resetDies s q)) p q)

/-- Its threads and gangs have ceased. -/
def ceasePart (s : State) (p : Nat) : State :=
  let s := ceaseThreads s (fun t => t.part == p && t.live)
  ceaseGangs s ((s.gangs.filter (fun g => g.part == p)).map Gang.id)

/-- Its measurement register is clear. -/
def clearMeasure (s : State) (q : Part) : State :=
  match q.measReg with
  | some r => { s with meas := s.meas.setIfInBounds r 0 }
  | none => s

theorem execPartitionReset_eq {p : Nat} {q : Part} (h : s.part? p = some q) : exec (.partitionReset p) s = .next
    (retrainLater ((clearMeasure (ceasePart (clearPart s p q) p) q).updPart p Part.stopped) (resetDies s q)) := by
  have e : execPartitionReset p s = .next
      (retrainLater ((clearMeasure (ceasePart (clearPart s p q) p) q).updPart p Part.stopped) (resetDies s q)) := by
    unfold execPartitionReset
    rw [h]
    rfl
  exact e

/-! What each part keeps and does. -/

theorem clearMeasure_eq (s : State) (q : Part) : clearMeasure s q = { s with meas := (clearMeasure s q).meas } := by
  unfold clearMeasure
  split <;> rfl

theorem clearMeasure_meas (s : State) {q : Part} {r : Nat} (h : r < 16) (e : q.measReg = some r) : (clearMeasure s q).meas[r] = 0 := by
  simp [clearMeasure, e]

theorem calm_ceasePart (s : State) (p : Nat) : s.calm (ceasePart s p) := (calm_ceaseThreads ..).trans (calm_of_still (ceaseGangs_still ..))

theorem ceasePart_ends (s : State) (p : Nat) : ∀ t ∈ (ceasePart s p).th :: (ceasePart s p).threads, t.part = p → t.live = false := by
  have dead {t : Thread} (h : t.run = .absent) : t.live = false := by simp [Thread.live, h]
  obtain ⟨h1, h2⟩ := ceaseThreads_ends (s := s) (mine := fun t => t.part == p && t.live) (p := fun t => t.part = p)
    (fun t _ hp x ev hx => by rw [ev.1, hp, live_iff.2 hx, beq_self_eq_true]; rfl)
  intro t ht hp
  rcases List.mem_cons.1 ht with rfl | k
  · exact dead (h1 ((calm_ceaseThreads ..).1.1.1.symm.trans hp))
  · obtain ⟨x, -, ev, hx⟩ := h2 t k
    exact dead (hx (ev.1.symm.trans hp))

theorem endRecords_tame (s : State) (p : Nat) (q : Part) : s.tame (endRecords s p q) := by
  refine tame_foldl (fun s e => tame_foldl (fun s (r : Rec) => ?_) ..) ..
  exact tame_ite (tame_ite (.refl s) (tame_of_sansRecords (holdRec_sansRecords ..))) (tame_stopRecord ..)

theorem clearDies_estate (l : List Nat) (s : State) :
    s.evolves (l.foldl (fun s d => clearDie s d false) s) ∧
      (l.foldl (fun s d => clearDie s d false) s).parts.map Part.sansQueue = s.parts.map Part.sansQueue ∧
      (l.foldl (fun s d => clearDie s d false) s).clk = s.clk := by
  induction l generalizing s with
  | nil => exact ⟨.refl s, rfl, rfl⟩
  | cons d l ih =>
    obtain ⟨h1, h2, h3⟩ := ih (clearDie s d false)
    have e := clearDie_estate s d false
    exact ⟨(clearDie_threads s d false).1.trans h1, h2.trans (congrArg State.parts e :), h3.trans (congrArg State.clk e :)⟩

theorem clearPart_estate (s : State) (p : Nat) (q : Part) :
    (clearPart s p q).parts.map Part.sansQueue = (endRecords (holdDies s (resetDies s q)) p q).parts.map Part.sansQueue :=
  (clearDies_estate ..).2.1

theorem clearPart_clk (s : State) (p : Nat) (q : Part) : (clearPart s p q).clk = s.clk := by
  have h := (endRecords_tame (holdDies s (resetDies s q)) p q).2
  exact (clearDies_estate ..).2.2.trans ((congrArg State.clk h :).trans (congrArg State.clk (holdDies_eq ..) :))

theorem clearPart_outline (s : State) (p : Nat) (q : Part) : (clearPart s p q).parts.map Part.outline = s.parts.map Part.outline := by
  have h := (endRecords_tame (holdDies s (resetDies s q)) p q).2
  have k : (holdDies s (resetDies s q)).parts.map Part.outline = s.parts.map Part.outline := by rw [holdDies_eq]
  rw [← outline_sansQueue, clearPart_estate, outline_sansQueue]
  exact (congrArg State.parts h :).trans k

theorem clearPart_inReset (s : State) (p : Nat) {q : Part} {e : Nat} (h : e ∈ resetDies s q) (he : e < 24) :
    ((clearPart s p q).die e).inReset = true := by
  unfold clearPart
  refine foldl_reaches (P := fun u => (u.die e).inReset = true) h (fun u => ?_) (fun u x k => ?_) _
  · exact clearDie_inReset he e false (.inl rfl)
  · exact clearDie_inReset he x false (.inr k)

theorem endRecords_waiting {p n : Nat} {q : Part} {x : Stream} {r : Rec} (hx : q.streams = [(n, x)]) (hr : x.recs = [r])
    (hw : r.state = .waiting) (hs : r.status = none) : endRecords s p q = holdRec s p n r.slot 5 0 := by
  have e : r.state != .accepted && r.state != .ready := by simp [hw]
  simp [endRecords, hx, hr, hw, hs]

/-- The record that waits has its status. -/
theorem holdRec_waiting {p n : Nat} {q : Part} {x : Stream} {r : Rec} (hq : s.part? p = some q) (hx : q.streams = [(n, x)]) (hr : x.recs = [r])
    {y : Part} (hy : (holdRec s p n r.slot 5 0).part? p = some y) : ∃ z, (y.stream n).recs = [z] ∧ z.status = some (5, 0) := by
  have e := part?_updPart_some (f := fun q => q.updStream n (fun x => { x with
    held := x.held ++ [(r.slot, 5, 0)],
    recs := x.recs.map (fun z => if z.slot == r.slot then { z with status := some (5, 0) } else z) })) (fun _ => rfl) hq
  cases e.symm.trans hy
  refine ⟨{ r with status := some (5, 0) }, ?_, rfl⟩
  simp [Part.updStream, Part.stream, Table.at, Table.get, hx, hr]

theorem part?_sansQueue {s u : State} (h : u.parts.map Part.sansQueue = s.parts.map Part.sansQueue) (p : Nat) :
    (u.part? p).map Part.sansQueue = (s.part? p).map Part.sansQueue := by
  have e (l : List Part) : (l.find? (fun q => q.id == p)).map Part.sansQueue = (l.map Part.sansQueue).find? (fun q => q.id == p) := by
    rw [List.find?_map]
    rfl
  rw [State.part?, State.part?, e, e, h]

/-- The partition when its threads have ceased. -/
theorem ceased_part? {p : Nat} {q : Part} (hq : s.part? p = some q) :
    ∃ y, (clearMeasure (ceasePart (clearPart s p q) p) q).part? p = some y ∧ y.dies = q.dies ∧
      ∀ n x r, q.streams = [(n, x)] → x.recs = [r] → r.state = .waiting → r.status = none → ∃ z, (y.stream n).recs = [z] ∧ z.status = some (5, 0) := by
  have hc : (clearMeasure (ceasePart (clearPart s p q) p) q).parts.map Part.sansQueue = (clearPart s p q).parts.map Part.sansQueue :=
    (congrArg (fun u : State => u.parts.map Part.sansQueue) (clearMeasure_eq ..) :).trans (congrArg State.parts (calm_ceasePart ..).2 :)
  have ho : (clearMeasure (ceasePart (clearPart s p q) p) q).parts.map Part.outline = s.parts.map Part.outline := by
    rw [← outline_sansQueue, hc, outline_sansQueue, clearPart_outline]
  have e := part?_outline ho p
  rw [hq, Option.map_some, Option.map_eq_some_iff] at e
  obtain ⟨y, hy, hd⟩ := e
  refine ⟨y, hy, (congrArg Part.dies hd :), fun n x r hx hr hw hs => ?_⟩
  have hp : (holdDies s (resetDies s q)).part? p = some q := (congrArg (State.part? · p) (holdDies_eq ..) :).trans hq
  have k := part?_sansQueue (hc.trans (clearPart_estate s p q)) p
  rw [hy, endRecords_waiting hx hr hw hs, Option.map_some, eq_comm, Option.map_eq_some_iff] at k
  obtain ⟨z, hz, hzy⟩ := k
  have hst : z.streams = y.streams := (congrArg Part.streams hzy :)
  have h := holdRec_waiting hp hx hr hz
  rwa [Part.stream, hst] at h

/-- A partition that is configured is reset. -/
theorem partitionReset_resets {p : Nat} {q : Part} (hq : s.part? p = some q) :
    ∃ u y, exec (.partitionReset p) s = .next u ∧ u.part? p = some y ∧ y.running = false ∧ y.superCode = none ∧ y.fqSeq = 0 ∧ y.fqWait = [] ∧
      y.wdlim = 0 ∧ y.ibusy = false ∧ y.dies = q.dies ∧
      (s.feWaits = [] → ∀ t ∈ u.th :: u.threads, t.part = p → t.live = false) ∧
      (∀ r, (_ : r < 16) → q.measReg = some r → u.meas[r] = 0) ∧
      (∀ n x r, q.streams = [(n, x)] → x.recs = [r] → r.state = .waiting → r.status = none → ∃ z, (y.stream n).recs = [z] ∧ z.status = some (5, 0)) ∧
      ∀ e ∈ q.dies, e < 24 → (s.die e).present = true → (s.die e).lost = false →
        (u.die e).inReset = true ∧ (s.clk + 2000, .dieLinkRetrain e) ∈ u.timers := by
  obtain ⟨y, hy, hd, hw⟩ := ceased_part? hq
  have hu := retrainLater_eq ((clearMeasure (ceasePart (clearPart s p q) p) q).updPart p Part.stopped) (resetDies s q)
  have hc := clearMeasure_eq (ceasePart (clearPart s p q) p) q
  have hk : ((clearMeasure (ceasePart (clearPart s p q) p) q).updPart p Part.stopped).clk = s.clk :=
    (congrArg State.clk hc :).trans ((congrArg State.clk (calm_ceasePart ..).2 :).trans (clearPart_clk ..))
  refine ⟨_, y.stopped, execPartitionReset_eq hq, ?_, rfl, rfl, rfl, rfl, rfl, rfl, hd, fun _ => ?_, fun r h e => ?_, hw, fun e h he h1 h2 => ?_⟩
  · rw [hu]
    exact part?_updPart_some (fun _ => rfl) hy
  · have e := (congrArg State.crew hu :).trans (congrArg State.crew hc :)
    obtain ⟨e1, e2⟩ := Prod.mk.inj e
    rw [e1, e2]
    exact ceasePart_ends _ _
  · rw [hu]
    exact clearMeasure_meas _ h e
  · have hr : e ∈ resetDies s q := List.mem_filter.2 ⟨h, by rw [h1, h2]; rfl⟩
    refine ⟨?_, hk ▸ retrainLater_timers _ hr⟩
    have k1 := die_map (ψ := Die.standing) (congrArg State.dies (calm_ceasePart (clearPart s p q) p).2 :) e
    have k2 := (congrArg (fun u => (u.die e).inReset) hu :).trans (congrArg (fun u => (u.die e).inReset) hc :)
    exact k2.trans ((congrArg Die.inReset k1 :).trans (clearPart_inReset s p hr he))

end Sys2Proof.Machine
end

section
/-! PROOFS. Die and partition resets. -/

namespace Sys2Proof.Machine
open Sys2Proof

variable {s u v : State} {die : Nat}

/-- A state in which a die has been taken, whatever is due. -/
theorem taken_cleared {s x u : State} {die : Nat} (hd : die < 24) (hx : x.crew = s.crew) {lost : Bool} (h : u = { takeDie x die lost with timers := u.timers }) :
    (u.die die).inReset = true ∧ (u.die die).mcb = ⟨0, 0, 0, 0⟩ ∧ (u.die die).tlb = [] ∧ (u.die die).ftab = [] ∧ (u.die die).tsel = 0 ∧
      (∀ k, k < 64 → u.evCounter die k = EvCounter.reset) ∧
      ((∃ c k, s.th.place = .swarm c k ∧ coreDie c = die) → s.th.hold = .running → s.th.live = true → u.th.run = .absent) := by
  obtain ⟨h1, h2, h3, h4, h5, h6⟩ := dieClear_facts (takeDie_clear x hd lost)
  have ht : x.th = s.th := congrArg Prod.fst hx
  rw [h]
  exact ⟨h1, h2, h3, h4, h5, h6, fun hp hh _ => takeDie_thread (s := x) lost (ht ▸ ⟨hp, hh⟩)⟩

/-- A lost die returns by its reset, where its links are good. -/
theorem dieReset_lost (hd : die < 24) (hp : (s.die die).present = true) (hl : (s.die die).lost = true) :
    exec (.dieReset die) s = .next (if s.linkGood die then s.at_ (s.clk + 2000) (.dieLinkRetrain die) else s) := by
  have e : execDieReset die s = .next (if s.linkGood die then s.at_ (s.clk + 2000) (.dieLinkRetrain die) else s) := by
    simp [execDieReset, hp, hl, Nat.not_le.2 hd]
  exact e

theorem dieLinkRetrain_held (hi : (s.die die).inReset = true) (hg : s.linkGood die = true) :
    exec (.dieLinkRetrain die) s = .next ((s.updLink die (fun l => { l with training := true })).at_ (s.clk + 20000) (.dieReturn die)) :=
  congrArg Host.Outcome.next (if_pos (by rw [hi, hg]; rfl))

theorem dieReturn_held (hd : die < 24) (hp : (s.die die).present = true) (hi : (s.die die).inReset = true) (hg : s.linkGood die = true) :
    exec (.dieReturn die) s = .next (returnDie s die) :=
  congrArg Host.Outcome.next (if_neg (by simp [hp, hi, hg, hd]))

theorem dieReturn_refused (h : (s.die die).inReset = false ∨ (s.die die).present = false ∨ s.linkGood die = false) :
    exec (.dieReturn die) s = .next s :=
  congrArg Host.Outcome.next (if_pos (.inr (h.imp_right (Or.imp_right (by simp [·])))))

/-- A stack that is clear reads zero, and other memory as before. -/
theorem stackClear_memory (hd : die < 24) (hc : (s.die die).clearing = true) :
    ∃ u, exec (.stackClearComplete die) s = .next u ∧ (u.die die).clearing = false ∧
      (∀ k, (32 + die) * 2 ^ 46 ≤ k → k < (33 + die) * 2 ^ 46 → memRead u.mem k = 0) ∧
      ∀ k, k < (32 + die) * 2 ^ 46 ∨ (33 + die) * 2 ^ 46 ≤ k → memRead u.mem k = memRead s.mem k := by
  refine ⟨_, congrArg Host.Outcome.next (if_pos hc), ?_, fun k h1 h2 => ?_, fun k h => ?_⟩
  · rw [die_updDie_same _ hd]
  · exact (memRead_clearRange ..).trans (if_pos ⟨h1, h2⟩)
  · exact (memRead_clearRange ..).trans (if_neg (by omega))

/-- Settles O48: dies and partitions are reset, dies are lost and return, stacks are cleared. -/
theorem dieResets : Obligations.DieResets := by
  intro s die hd d cleared
  refine ⟨fun hp hl => ⟨?_, ?_⟩, fun hp => ⟨?_, ?_, ?_⟩, fun hp hl => ⟨?_, fun hg => ?_, fun hg => ?_⟩, fun hi hg => ⟨?_, fun hp => ?_⟩, fun h => ⟨?_, ?_⟩,
    fun p q hq => partitionReset_resets hq, stackClear_memory hd, fun hc => ?_⟩
  · obtain ⟨u, e, hu, ht⟩ := execDieReset_taken hd hp hl
    refine ⟨u, e, taken_cleared hd rfl hu, ?_, ht, fun hf k h1 h2 => ?_⟩
    · exact (congrArg (fun u => (u.die die).lost) hu :).trans ((takeDie_lost s hd false).trans (by rw [hl]; rfl))
    · rw [hu, takeDie_of_free hf]
      exact clearDie_memory h1 h2
  · refine ⟨_, execDieLost_taken hd hp hl, taken_cleared hd (x := s.log "die lost" die) rfl rfl, ?_, ⟨"die lost", die, 0⟩, ?_, rfl⟩
    · rw [takeDie_lost _ hd, Bool.or_true]
    · rw [takeDie_sdLog]
      exact List.mem_cons_self
  · exact congrArg Host.Outcome.next (if_pos (.inr hp))
  · exact congrArg Host.Outcome.next (if_pos (.inr (.inr hp)))
  · exact dieReturn_refused (.inr (.inl hp))
  · exact congrArg Host.Outcome.next (if_pos (.inr (.inl hl)))
  · exact ⟨_, (dieReset_lost hd hp hl).trans (congrArg _ (if_pos hg)), rfl, (mem_at_ ..).2 (.inl rfl)⟩
  · exact (dieReset_lost hd hp hl).trans (congrArg _ (if_neg (by rw [hg]; exact Bool.false_ne_true)))
  · refine ⟨_, dieLinkRetrain_held hi hg, rfl, ?_, (mem_at_ ..).2 (.inl rfl)⟩
    exact (congrArg Link.training (link_updLink s die die (fun l => { l with training := true })) :).trans (by rw [if_pos rfl])
  · exact ⟨_, dieReturn_held hd hp hi hg, returnDie_returned s hd⟩
  · refine congrArg Host.Outcome.next (if_neg ?_)
    rw [Bool.and_eq_true, not_and_or, Bool.not_eq_true, Bool.not_eq_true]
    exact h
  · exact dieReturn_refused (h.imp_right .inr)
  · exact congrArg Host.Outcome.next (if_neg (by rw [hc]; exact Bool.false_ne_true))

end Sys2Proof.Machine
end

section
/-! PROOFS. Cold and device reset, thermal actions and bring-up. -/

namespace Sys2Proof.Machine
open Sys2Proof

variable {s u v : State}

/-! Resets of the package. -/

theorem coldReset_agenda (s : State) :
    ∃ a, (∀ e ∈ a, e ∈ s.agenda) ∧ exec .coldReset s = .next { State.reset with agenda := a, out := s.out, free := s.free } :=
  ⟨_, fun _ => List.mem_of_mem_filter, rfl⟩

theorem deviceClear_links (s : State) : ∀ x ∈ (deviceClear s).links, x ∈ s.links ∧ 64 ≤ x.1 ∧ x.1 < 320 := by
  intro x hx
  obtain ⟨h1, h2⟩ := List.mem_filter.1 hx
  rw [Bool.and_eq_true, decide_eq_true_eq, decide_eq_true_eq] at h2
  exact ⟨h1, h2⟩

theorem deviceReset_router (s : State) :
    ∃ a l z, (∀ e ∈ a, e ∈ s.agenda) ∧ (∀ x ∈ l, x ∈ s.links ∧ 64 ≤ x.1 ∧ x.1 < 320) ∧ (s.clk + 200000000, .bringUpPhase []) ∈ z ∧
      (∀ x ∈ z, x = (s.clk + 200000000, .bringUpPhase []) ∨ x ∈ s.timers ∧ routerEvent x.2 = true) ∧ exec .deviceReset s = .next { State.reset with
        agenda := a, out := s.out, free := s.free, nextId := s.nextId, clk := s.clk, sdLog := s.sdLog, meas := s.meas, mbox := s.mbox,
        sdUp := s.sdUp, population := s.population, badRoutes := s.badRoutes, links := l, timers := z } := by
  refine ⟨_, _, _, fun _ => List.mem_of_mem_filter, deviceClear_links s, (mem_at_ (deviceClear s) ..).2 (.inl rfl), fun x hx => ?_, rfl⟩
  exact ((mem_at_ (deviceClear s) ..).1 hx).imp_right List.mem_filter.1

theorem clockFault_held (s : State) :
    ∃ u, exec .clockFault s = .next u ∧ u.clockHeld = true ∧ u.parts = [] ∧ u.threads = [] ∧ u.th = Thread.reset ∧ u.mem = [] ∧
      (∀ x ∈ u.timers, routerEvent x.2 = true) ∧ u.meas = s.meas ∧ u.clk = s.clk ∧ ∃ e, u.sdLog = e :: s.sdLog :=
  ⟨_, rfl, rfl, rfl, rfl, rfl, rfl, fun _ hx => (List.mem_filter.1 hx).2, rfl, rfl, _, rfl⟩

/-! Thermal actions. -/

/-- The links of the ports go down before a trip. -/
def portsDown (s : State) : State := (List.range 4).foldl (fun s k => if (s.port k).up then s.send (.linkDown k) else s) s

theorem portsDown_keeps {β : Type} {φ : State → β} (h : ∀ s m, φ (State.send s m) = φ s) (s : State) : φ (portsDown s) = φ s :=
  foldl_keeps (fun _ _ => ite_keeps (h ..) rfl) _ _

theorem portsDown_out (s : State) {k : Nat} (hk : k < 4) (h : (s.port k).up = true) : .linkDown k ∈ (portsDown s).out := by
  have e : (portsDown s).ports = s.ports := portsDown_keeps (φ := State.ports) (fun _ _ => rfl) s
  refine foldl_reaches (P := fun u => u.ports = s.ports → OutMsg.linkDown k ∈ u.out) (List.mem_range.2 hk)
    (f := fun s k => if (s.port k).up then s.send (.linkDown k) else s) (fun u e => ?_) (fun u x h e => ?_) s e
  · have hu : (u.port k).up = true := by
      by_cases c : (u.port k).up = true
      · exact c
      · rw [if_neg c] at e
        rwa [State.port, e]
    rw [if_pos hu]
    exact List.mem_cons_self
  · split at e
    · rw [if_pos (by assumption)]
      exact List.mem_cons_of_mem _ (h e)
    · rw [if_neg (by assumption)]
      exact h e

theorem junction_trip (s : State) {c : Nat} (n : Nat) (h : 115 < c) :
    ∃ u, exec (.junctionSensorRead c n) s = .next u ∧ u.trip = true ∧ u.parts = [] ∧ u.threads = [] ∧ u.mem = [] ∧
      u.meas = s.meas ∧ u.phase = s.phase ∧ ∀ k, (_ : k < 4) → s.ports[k].up = true → .linkDown k ∈ u.out := by
  refine ⟨_, congrArg Host.Outcome.next (if_pos h), rfl, rfl, rfl, rfl, ?_, ?_, fun k hk hu => ?_⟩
  · exact portsDown_keeps (φ := State.meas) (fun _ _ => rfl) (s.log "thermal trip" n)
  · exact portsDown_keeps (φ := State.phase) (fun _ _ => rfl) (s.log "thermal trip" n)
  · refine portsDown_out (s.log "thermal trip" n) hk ?_
    simpa [State.port, State.log, hk] using hu

theorem junction_alarm {s : State} {c : Nat} {q : Part} (n : Nat) (h : 105 < c) (h' : c ≤ 115) (hq : s.parts = [q]) :
    ∃ u, exec (.junctionSensorRead c n) s = .next u ∧ u.th = s.th ∧ u.threads = s.threads ∧ u.trip = s.trip ∧ Says.records s q.id 8 u := by
  have e : execJunctionSensorRead c n s =
      .next (fqNote (s.log "thermal alarm" n) q.id (fqBytes 8 0 n 0 0 (Config.openDetail 8 [c, n]))) := by
    rw [execJunctionSensorRead, if_neg (by omega), if_pos h, hq]
    rfl
  have k := fqNote_sansQueues (s.log "thermal alarm" n) q.id (fqBytes 8 0 n 0 0 (Config.openDetail 8 [c, n]))
  exact ⟨_, e, (congrArg State.th k :), (congrArg State.threads k :), (congrArg State.trip k :),
    fqNote_records (s.log "thermal alarm" n) q.id 0 n 0 0 _ (by decide)⟩

end Sys2Proof.Machine
end

section
/-! PROOFS. The phases of bring-up. -/

namespace Sys2Proof.Machine
open Sys2Proof

variable {s u v : State}

/-! A phase begins and ends. -/

/-- A phase begins: its time is over, and the sockets that have failed are recorded. -/
def phaseBegun (s : State) (l : List Nat) : State :=
  (failedSockets (s.phase + 1) l).foldl (fun s n => s.log "bring-up failure" n)
    { s with timers := s.timers.filter (fun x => match x.2 with | .bringUpPhase _ => false | _ => true) }

/-- A phase ends, and the next begins within its bound. -/
def phaseEnded (s : State) (k : Nat) : State :=
  if k < 7 then { s with phase := k }.at_ (s.clk + phaseTime (k + 1)) (.bringUpPhase []) else { s with phase := k }

/-- What a phase of bring-up comes to. -/
def phaseDone (s : State) (l : List Nat) : State := phaseAction (s.phase + 1) l (phaseBegun s l)

theorem bringUpPhase_eq (ht : s.trip = false) (hc : s.clockHeld = false) (hp : s.phase < 7) (l : List Nat) :
    exec (.bringUpPhase l) s = .next (if (phaseDone s l).clockHeld then phaseDone s l else phaseEnded (phaseDone s l) (s.phase + 1)) :=
  congrArg Host.Outcome.next (if_neg (by simp [ht, hc, hp]))

theorem bringUpPhase_ends (ht : s.trip = false) (hc : s.clockHeld = false) (hp : s.phase < 7) {l : List Nat} (h : (phaseDone s l).clockHeld = false) :
    exec (.bringUpPhase l) s = .next (phaseEnded (phaseDone s l) (s.phase + 1)) := by
  rw [bringUpPhase_eq ht hc hp, h, if_neg Bool.false_ne_true]

theorem bringUpPhase_stops (ht : s.trip = false) (hc : s.clockHeld = false) (hp : s.phase < 7) {l : List Nat} (h : (phaseDone s l).clockHeld = true) :
    exec (.bringUpPhase l) s = .next (phaseDone s l) := by
  rw [bringUpPhase_eq ht hc hp, h, if_pos rfl]

theorem phaseBegun_keeps {β : Type} {φ : State → β} (hl : ∀ s w n, φ (State.log s w n) = φ s)
    (ht : ∀ (s : State) t, φ { s with timers := t } = φ s) (s : State) (l : List Nat) : φ (phaseBegun s l) = φ s :=
  (foldl_keeps (fun _ _ => hl ..) _ _).trans (ht ..)

theorem phaseBegun_log (s : State) {l : List Nat} {n : Nat} (h : n ∈ failedSockets (s.phase + 1) l) : ∃ e ∈ (phaseBegun s l).sdLog, e.num = n := by
  refine foldl_reaches (P := fun u => ∃ e ∈ u.sdLog, e.num = n) h (fun u => ⟨_, List.mem_cons_self, rfl⟩) (fun u x h => ?_) _
  obtain ⟨e, he, hn⟩ := h
  exact ⟨e, List.mem_cons_of_mem _ he, hn⟩

theorem phaseEnded_phase (s : State) (k : Nat) : (phaseEnded s k).phase = k := by
  unfold phaseEnded
  split <;> rfl

theorem phaseEnded_keeps {β : Type} {φ : State → β} (hp : ∀ (s : State) k, φ { s with phase := k } = φ s) (ha : ∀ s k e, φ (State.at_ s k e) = φ s)
    (s : State) (k : Nat) : φ (phaseEnded s k) = φ s :=
  ite_keeps ((ha ..).trans (hp ..)) (hp ..)

theorem phaseEnded_timers (s : State) {k : Nat} (h : k < 7) : (s.clk + phaseTime (k + 1), .bringUpPhase []) ∈ (phaseEnded s k).timers := by
  rw [phaseEnded, if_pos h]
  exact (mem_at_ ..).2 (.inl rfl)

/-! What the actions of the phases keep. -/

/-- The count of clk, the hold and the log. -/
def State.watch (s : State) : Nat × Bool × List LogEntry := (s.clk, s.clockHeld, s.sdLog)

theorem markAbsent_keeps {β : Type} {φ : State → β} (h : ∀ s d f, φ (State.updDie s d f) = φ s) (s : State) (l : List Nat) : φ (markAbsent s l) = φ s :=
  foldl_keeps (fun _ _ => ite_keeps (h ..) rfl) _ _

theorem trainLinks_keeps {β : Type} {φ : State → β} (h : ∀ s n f, φ (State.updLink s n f) = φ s) (s : State) (l : List Nat) : φ (trainLinks s l) = φ s :=
  (foldl_keeps (fun _ _ => ite_keeps rfl (h ..)) _ _).trans (foldl_keeps (fun _ _ => ite_keeps (h ..) ((h ..).trans (h ..))) _ _)

theorem clearDie_watch (s : State) (d : Nat) (b : Bool) : (clearDie s d b).watch = s.watch :=
  (congrArg State.watch (clearDie_estate s d b) :)

theorem sendControl_watch (s : State) (n : Nat) : (sendControl s n).watch = s.watch := (congrArg (fun x => x.1.watch) (sendControl_sansLinks s n) :)

theorem sendControl_ports (s : State) (n : Nat) : (sendControl s n).ports = s.ports := (congrArg (fun x => x.1.ports) (sendControl_sansLinks s n) :)

theorem phaseAction_watch {k : Nat} (h : 3 ≤ k) (h' : k ≤ 6) (l : List Nat) (s : State) : (phaseAction k l s).watch = s.watch := by
  have mark (s : State) : (markAbsent s l).watch = s.watch := markAbsent_keeps (fun _ _ _ => rfl) ..
  match k, h, h' with
  | 3, _, _ =>
    have e (s : State) : ((List.range 24).foldl (fun s d => s.updDie d (fun x => { x with present := true })) s).watch = s.watch := by
      refine foldl_keeps (fun _ _ => ?_) _ _
      rfl
    exact (mark _).trans ((e _).trans (trainLinks_keeps (fun _ _ _ => rfl) ..))
  | 4, _, _ => exact mark s
  | 5, _, _ => exact (foldl_keeps (fun s d => ite_keeps (clearDie_watch s d false) rfl) _ _).trans (mark s)
  | 6, _, _ =>
    refine (foldl_keeps (φ := State.watch) (fun s j => ?_) _ _).trans ?_
    · exact (sendControl_watch ..).trans rfl
    · rfl

theorem phaseAction_sdLog {k : Nat} (h : 2 ≤ k) (h' : k ≤ 5) (l : List Nat) (s : State) : (phaseAction k l s).sdLog = s.sdLog := by
  rcases Nat.lt_or_ge k 3 with c | c
  · obtain rfl : k = 2 := by omega
    exact ite_keeps rfl rfl
  · exact (congrArg (fun x => x.2.2) (phaseAction_watch c (by omega) l s) :)

theorem phaseBegun_watch (s : State) (l : List Nat) : ((phaseBegun s l).clk, (phaseBegun s l).clockHeld) = (s.clk, s.clockHeld) :=
  phaseBegun_keeps (φ := fun s => (s.clk, s.clockHeld)) (fun _ _ _ => rfl) (fun _ _ => rfl) s l

end Sys2Proof.Machine
end

section
/-! PROOFS. Bring-up. -/

namespace Sys2Proof.Machine
open Sys2Proof

variable {s u v : State}

theorem phaseDone_watch {l : List Nat} (h : 2 ≤ s.phase) (h' : s.phase ≤ 5) :
    (phaseDone s l).clk = s.clk ∧ (phaseDone s l).clockHeld = s.clockHeld := by
  have e := phaseAction_watch (k := s.phase + 1) (by omega) (by omega) l (phaseBegun s l)
  have k := phaseBegun_watch s l
  exact ⟨(congrArg Prod.fst e :).trans (congrArg Prod.fst k :), (congrArg (fun x => x.2.1) e :).trans (congrArg Prod.snd k :)⟩

/-- A phase whose action does not hold the package ends, and the next one is to end within its bound. -/
theorem bringUp_next (ht : s.trip = false) (hc : s.clockHeld = false) (hp : s.phase < 6) {l : List Nat} (h1 : (phaseDone s l).clk = s.clk)
    (h2 : (phaseDone s l).clockHeld = s.clockHeld) :
    exec (.bringUpPhase l) s = .next (phaseEnded (phaseDone s l) (s.phase + 1)) ∧ (phaseEnded (phaseDone s l) (s.phase + 1)).phase = s.phase + 1 ∧
      (phaseEnded (phaseDone s l) (s.phase + 1)).clockHeld = false ∧
      (s.clk + phaseTime (s.phase + 2), .bringUpPhase []) ∈ (phaseEnded (phaseDone s l) (s.phase + 1)).timers := by
  refine ⟨bringUpPhase_ends ht hc (by omega) (h2.trans hc), phaseEnded_phase .., ?_, h1 ▸ phaseEnded_timers _ (by omega)⟩
  exact (phaseEnded_keeps (φ := State.clockHeld) (fun _ _ => rfl) (fun _ _ _ => rfl) ..).trans (h2.trans hc)

/-- Phases 3 to 6 end within their bounds, whatever fails in them. -/
theorem bringUp_goesOn (ht : s.trip = false) (hc : s.clockHeld = false) (l : List Nat) {k m : Nat}
    (hk : (k, m) ∈ [(2, 1500000000), (3, 300000000), (4, 100000000), (5, 1)]) (hp : s.phase = k) :
    ∃ u, exec (.bringUpPhase l) s = .next u ∧ u.phase = k + 1 ∧ u.clockHeld = false ∧ (s.clk + m, .bringUpPhase []) ∈ u.timers := by
  obtain ⟨h, h', hm⟩ : 2 ≤ k ∧ k ≤ 5 ∧ m = phaseTime (k + 2) := by
    simp only [List.mem_cons, Prod.mk.injEq, List.not_mem_nil, or_false] at hk
    rcases hk with ⟨rfl, rfl⟩ | ⟨rfl, rfl⟩ | ⟨rfl, rfl⟩ | ⟨rfl, rfl⟩
    all_goals decide
  subst hp hm
  obtain ⟨e1, e2⟩ := phaseDone_watch (l := l) h h'
  exact ⟨_, bringUp_next ht hc (by omega) e1 e2⟩

theorem phaseDone_log {l : List Nat} {n : Nat} (hn : n ∈ l) (h : 1 ≤ s.phase) (h' : s.phase ≤ 4) : ∃ e ∈ (phaseDone s l).sdLog, e.num = n := by
  rw [phaseDone, phaseAction_sdLog (by omega) (by omega)]
  refine phaseBegun_log s ?_
  rwa [failedSockets, if_neg (by omega), if_neg (by omega)]

/-- What has failed in phases 2 to 5 is recorded. -/
theorem bringUp_recorded (ht : s.trip = false) (hc : s.clockHeld = false) {l : List Nat} {n : Nat} (hn : n ∈ l) (h : 1 ≤ s.phase) (h' : s.phase ≤ 4) :
    ∃ u, exec (.bringUpPhase l) s = .next u ∧ ∃ e ∈ u.sdLog, e.num = n := by
  refine ⟨_, bringUpPhase_eq ht hc (by omega) l, ?_⟩
  split
  · exact phaseDone_log hn h h'
  · rw [phaseEnded_keeps (φ := State.sdLog) (fun _ _ => rfl) (fun _ _ _ => rfl)]
    exact phaseDone_log hn h h'

/-! The firmware, and the self-test of phase 2. -/

theorem bringUp_loads (ht : s.trip = false) (hc : s.clockHeld = false) (hp : s.phase = 0) (hf : firmwareLoads = true) :
    ∃ u, exec (.bringUpPhase []) s = .next u ∧ u.phase = 1 ∧ u.meas[0] = Config.firmwareDigest ∧ (s.clk + 5000000, .bringUpPhase []) ∈ u.timers := by
  obtain ⟨k1, k2⟩ := Prod.mk.inj (phaseBegun_watch s [])
  have e : phaseDone s [] = { phaseBegun s [] with meas := Vector.ofFn (fun i => if i.val = 0 then Config.firmwareDigest
      else if i.val < 4 then Config.microcodeDigest i.val else (phaseBegun s []).meas[i]) } := by
    rw [phaseDone, hp]
    simp [phaseAction, hf]
  obtain ⟨h1, h2, -, h4⟩ := bringUp_next (l := []) ht hc (by omega) ((congrArg State.clk e :).trans k1) ((congrArg State.clockHeld e :).trans k2)
  rw [hp] at h1 h2 h4
  refine ⟨_, h1, h2, ?_, h4⟩
  rw [phaseEnded_keeps (φ := fun u => u.meas[0]) (fun _ _ => rfl) (fun _ _ _ => rfl), e]
  simp

theorem bringUp_fails (ht : s.trip = false) (hc : s.clockHeld = false) (hp : s.phase = 0) (hf : firmwareLoads = false) :
    ∃ u, exec (.bringUpPhase []) s = .next u ∧ u.clockHeld = true ∧ u.faultPin = true ∧ u.phase = 0 ∧ ∃ e ∈ u.sdLog, e.num = 60 := by
  have e : phaseDone s [] = { phaseBegun s [] with clockHeld := true, faultPin := true } := by
    rw [phaseDone, hp]
    simp [phaseAction, hf]
  refine ⟨_, bringUpPhase_stops ht hc (by omega) ?_, ?_⟩
  · rw [e]
  · rw [e]
    refine ⟨rfl, rfl, ?_, ?_⟩
    · exact (phaseBegun_keeps (φ := State.phase) (fun _ _ _ => rfl) (fun _ _ => rfl) ..).trans hp
    · exact phaseBegun_log s (by simp [failedSockets, hp, hf])

theorem bringUp_tested (ht : s.trip = false) (hc : s.clockHeld = false) (hp : s.phase = 1) :
    ∃ u, exec (.bringUpPhase []) s = .next u ∧ u.phase = 2 ∧ (s.clk + 20000000, .bringUpPhase []) ∈ u.timers := by
  obtain ⟨k1, k2⟩ := Prod.mk.inj (phaseBegun_watch s [])
  have e : phaseDone s [] = phaseBegun s [] := by
    rw [phaseDone, hp]
    rfl
  obtain ⟨h1, h2, -, h4⟩ := bringUp_next (l := []) ht hc (by omega) ((congrArg State.clk e :).trans k1) ((congrArg State.clockHeld e :).trans k2)
  rw [hp] at h1 h2 h4
  exact ⟨_, h1, h2, h4⟩

theorem bringUp_untested (ht : s.trip = false) (hc : s.clockHeld = false) (hp : s.phase = 1) {l : List Nat} (hl : l ≠ []) :
    ∃ u, exec (.bringUpPhase l) s = .next u ∧ u.clockHeld = true ∧ u.phase = 1 := by
  have e : phaseDone s l = { phaseBegun s l with clockHeld := true } := by
    rw [phaseDone, hp]
    simp [phaseAction, hl]
  refine ⟨_, bringUpPhase_stops ht hc (by omega) ?_, ?_⟩
  · rw [e]
  · rw [e]
    exact ⟨rfl, (phaseBegun_keeps (φ := State.phase) (fun _ _ _ => rfl) (fun _ _ => rfl) ..).trans hp⟩

/-! Dies, ports and identity. -/

/-- Dies changed one after the other, each that is chosen once or more. -/
theorem foldl_die {g : State → Nat → State} {f : Die → Die} {c : Nat → Bool} {e : Nat} (hf : ∀ x, f (f x) = f x)
    (hg : ∀ s d, (g s d).die e = if d = e ∧ c d = true then f (s.die e) else s.die e) (l : List Nat) (s : State) :
    (l.foldl g s).die e = if e ∈ l ∧ c e = true then f (s.die e) else s.die e := by
  induction l generalizing s with
  | nil => simp
  | cons d l ih =>
    rw [List.foldl_cons, ih, hg]
    by_cases h : d = e
    · subst h
      by_cases h' : c d = true
      · simp [h', hf]
      · simp [h']
    · simp [h, Ne.symm h]

theorem die_updDie (s : State) (d : Nat) (f : Die → Die) {e : Nat} (he : e < 24) : (s.updDie d f).die e = if d = e then f (s.die e) else s.die e := by
  split
  · next h =>
    subst h
    exact die_updDie_same f he
  · next h => exact die_updDie_other s f (Ne.symm h)

theorem markAbsent_present (s : State) (l : List Nat) {d : Nat} (hd : d < 24) :
    ((markAbsent s l).die d).present = ((s.die d).present && !(l.contains d || l.contains (32 + d))) := by
  have h : (markAbsent s l).die d = if d ∈ List.range 24 ∧ (l.contains d || l.contains (32 + d)) = true then { s.die d with present := false } else s.die d := by
    refine foldl_die (c := fun d => l.contains d || l.contains (32 + d)) (f := fun x => { x with present := false }) (fun _ => rfl) (fun s x => ?_) _ s
    split
    · next hx => simp only [die_updDie s x _ hd, hx, and_true]
    · next hx => rw [if_neg (fun k => hx k.2)]
  rw [h]
  split
  · next hx => rw [hx.2, Bool.not_true, Bool.and_false]
  · next hx =>
    have hn : (l.contains d || l.contains (32 + d)) = false := by
      simpa only [List.mem_range, hd, true_and, Bool.not_eq_true] using hx
    rw [hn, Bool.not_false, Bool.and_true]

/-- All dies are taken for present when the links have been trained. -/
theorem allPresent_present (s : State) {d : Nat} (hd : d < 24) :
    (((List.range 24).foldl (fun s d => s.updDie d (fun x => { x with present := true })) s).die d).present = true := by
  have h := foldl_die (g := fun s d => s.updDie d (fun x => { x with present := true })) (c := fun _ => true) (f := fun x => { x with present := true })
    (e := d) (fun _ => rfl) (fun s x => by simp only [die_updDie s x _ hd, and_true]) (List.range 24) s
  rw [h, if_pos ⟨List.mem_range.2 hd, rfl⟩]

theorem bringUp_dies (ht : s.trip = false) (hc : s.clockHeld = false) (hp : s.phase = 2) (l : List Nat) :
    ∃ u, exec (.bringUpPhase l) s = .next u ∧ ∀ d, d < 24 → ((u.die d).present = true ↔ d ∉ l ∧ 32 + d ∉ l) := by
  obtain ⟨e1, e2⟩ := phaseDone_watch (s := s) (l := l) (by omega) (by omega)
  refine ⟨_, (bringUp_next ht hc (by omega) e1 e2).1, fun d hd => ?_⟩
  rw [phaseEnded_keeps (φ := fun s => (s.die d).present) (fun _ _ => rfl) (fun _ _ _ => rfl), phaseDone, hp]
  refine Iff.trans (Bool.eq_iff_iff.1 (markAbsent_present _ l hd)) ?_
  rw [allPresent_present _ hd]
  simp

/-- The links to the ports after phase 6. -/
theorem phaseAction_ports (s : State) (l : List Nat) : (phaseAction 6 l s).ports =
    Vector.ofFn (fun i => { s.ports[i] with up := !l.contains i.val && !(s.link (56 + i.val / 2)).failed }) := by
  refine (foldl_keeps (φ := State.ports) (fun s j => ?_) _ _).trans ?_
  · exact (sendControl_ports ..).trans rfl
  · rfl

theorem bringUp_ports (ht : s.trip = false) (hc : s.clockHeld = false) (hp : s.phase = 5) (l : List Nat) :
    ∃ u, exec (.bringUpPhase l) s = .next u ∧ ∀ k, (_ : k < 4) → (u.ports[k].up = true ↔ k ∉ l ∧ (s.link (56 + k / 2)).failed = false) := by
  obtain ⟨e1, e2⟩ := phaseDone_watch (s := s) (l := l) (by omega) (by omega)
  refine ⟨_, (bringUp_next ht hc (by omega) e1 e2).1, fun k hk => ?_⟩
  have hl : (phaseBegun s l).link (56 + k / 2) = s.link (56 + k / 2) :=
    phaseBegun_keeps (φ := fun s => s.link (56 + k / 2)) (fun _ _ _ => rfl) (fun _ _ => rfl) s l
  have h : (phaseEnded (phaseDone s l) (s.phase + 1)).ports = (phaseAction 6 l (phaseBegun s l)).ports := by
    rw [phaseEnded_keeps (φ := State.ports) (fun _ _ => rfl) (fun _ _ _ => rfl), phaseDone, hp]
  simp [h, phaseAction_ports, hl]

theorem bringUp_identity (ht : s.trip = false) (hc : s.clockHeld = false) (hp : s.phase = 6) :
    ∃ u, exec (.bringUpPhase []) s = .next u ∧ u.phase = 7 ∧ u.population = BitVec.ofNat 64 (presenceMap s) ∧
      .identity u.population Config.stackCapacity Config.identityKey Config.identityCert ∈ u.out := by
  have hm : presenceMap (phaseBegun s []) = presenceMap s := phaseBegun_keeps (φ := presenceMap) (fun _ _ _ => rfl) (fun _ _ => rfl) s []
  have hh := congrArg Prod.snd (phaseBegun_watch s [])
  have e : phaseDone s [] = ({ phaseBegun s [] with population := BitVec.ofNat 64 (presenceMap s) }).send
      (.identity (BitVec.ofNat 64 (presenceMap s)) Config.stackCapacity Config.identityKey Config.identityCert) := by
    rw [phaseDone, hp, ← hm]
    rfl
  refine ⟨_, bringUpPhase_ends ht hc (by omega) ((congrArg State.clockHeld e :).trans (hh.trans hc)), ?_, ?_, ?_⟩
  · rw [phaseEnded_phase, hp]
  · rw [phaseEnded_keeps (φ := State.population) (fun _ _ => rfl) (fun _ _ _ => rfl), e]
    rfl
  · rw [phaseEnded_keeps (φ := State.population) (fun _ _ => rfl) (fun _ _ _ => rfl),
      phaseEnded_keeps (φ := State.out) (fun _ _ => rfl) (fun _ _ _ => rfl), e]
    exact List.mem_cons_self

/-- Settles O47: resets of the package, thermal actions and the phases of bring-up. -/
theorem resetsAndBringUp : Obligations.ResetsAndBringUp := by
  intro s
  refine ⟨coldReset_agenda s, deviceReset_router s, clockFault_held s, fun hh hf => ?_, fun h => ?_, fun c n h => junction_trip s n h,
    fun c n q h h' hq => junction_alarm n h h' hq, fun c n h => ?_, fun ht hc => ⟨fun k m l hk hp => bringUp_goesOn ht hc l hk hp, bringUp_loads ht hc,
      bringUp_fails ht hc, fun l n hn h h' => bringUp_recorded ht hc hn h h', bringUp_tested ht hc, fun l hp hl => bringUp_untested ht hc hp hl,
      fun l hp => bringUp_dies ht hc hp l, fun l hp => bringUp_ports ht hc hp l, bringUp_identity ht hc⟩, fun h l => ?_⟩
  · exact ⟨_, congrArg Host.Outcome.next (if_pos (by rw [hh, hf]; rfl)), rfl, (mem_at_ ..).2 (.inl rfl)⟩
  · refine congrArg Host.Outcome.next (if_neg ?_)
    rcases h with h | h
    all_goals simp [h]
  · exact congrArg Host.Outcome.next ((if_neg (by omega)).trans (if_neg (by omega)))
  · exact congrArg Host.Outcome.next (if_pos (by simp [h]))

end Sys2Proof.Machine
end

section
/-! PROOFS. What the ends of links keep while flits and packets leave (R31 to R36). -/

namespace Sys2Proof.Machine
open Sys2Proof

/-! Links and span ports that an operation leaves alone. -/

/-- The links and the span ports. -/
def State.wiring (s : State) : Table Link × Vector Span 16 := (s.links, s.spans)

theorem wiring_of_sansCache {s u : State} (h : u.sansCache = s.sansCache) : u.wiring = s.wiring := (congrArg State.wiring h :)

theorem wiring_of_sansQueues {s u : State} (h : u.sansQueues = s.sansQueues) : u.wiring = s.wiring := (congrArg State.wiring h :)

theorem link_of_wiring {s u : State} (h : u.wiring = s.wiring) (n : Nat) : u.link n = s.link n :=
  congrArg (fun w : Table Link × Vector Span 16 => Table.at w.1 n Link.reset) h

theorem span_of_wiring {s u : State} (h : u.wiring = s.wiring) (p : Nat) : u.span p = s.span p :=
  congrArg (fun w : Table Link × Vector Span 16 => w.2[p]?.getD Span.reset) h

theorem dieEvent_wiring (s : State) (d b e i n : Nat) : (dieEvent s d b e i n).wiring = s.wiring := wiring_of_sansCache (dieEvent_sansCache ..)

theorem atOnce_wiring (s : State) (c : Nat) (e : Event) : (s.atOnce c e).wiring = s.wiring := by
  rw [atOnce_eq]
  rfl

theorem emit_wiring (s : State) (n : Nat) (b : List Byte) : (emit s n b).wiring = s.wiring := by
  have h (c : Nat) : (if n < 24 then dieEvent s n 4 0 c 1 else s).wiring = s.wiring := ite_keeps (dieEvent_wiring ..) rfl
  unfold emit
  dsimp only
  split
  all_goals exact h _

theorem sendControl_wiring (s : State) (n : Nat) : (sendControl s n).wiring = s.wiring := ite_keeps (emit_wiring ..) rfl

theorem sendIdle_wiring (s : State) (n : Nat) : (sendIdle s n).wiring = s.wiring := ite_keeps (emit_wiring ..) rfl

theorem link_updSpan (s : State) (p n : Nat) (f : Span → Span) : (s.updSpan p f).link n = s.link n := rfl

theorem at_link (s : State) (c : Nat) (e : Event) (n : Nat) : (s.at_ c e).link n = s.link n := rfl

theorem log_link (s : State) (what : String) (k n : Nat) : (s.log what k).link n = s.link n := rfl

theorem log_span (s : State) (what : String) (k p : Nat) : (s.log what k).span p = s.span p := rfl

theorem send_span (s : State) (m : OutMsg) (p : Nat) : (s.send m).span p = s.span p := rfl

theorem link_updLink_same (s : State) (n : Nat) (f : Link → Link) : (s.updLink n f).link n = f (s.link n) := (link_updLink ..).trans (if_pos rfl)

theorem span_updSpan_same (s : State) {p : Nat} (f : Span → Span) (h : p < 16) : (s.updSpan p f).span p = f (s.span p) :=
  (span_updSpan s p p f h).trans (if_pos rfl)

theorem span_updLink (s : State) (n p : Nat) (f : Link → Link) : (s.updLink n f).span p = s.span p := rfl

/-! The sending side of an end. -/

/-- An end of a link without what it has sent and has to send. -/
def Link.sansSending (l : Link) : Link := { l with served := 0, period := 0, spent := [], txNext := 0, replay := [], queue := [], sentOf := [] }

/-- All ends of links, that of link n without its sending side. -/
def State.linksBut (n : Nat) (s : State) : Nat → Link := fun m => if m = n then (s.link m).sansSending else s.link m

/-- All ends of links without their sending sides. -/
def State.receiving (s : State) : Nat → Link := fun m => (s.link m).sansSending

variable {s u : State} {n : Nat}

theorem linksBut_of_wiring (h : u.wiring = s.wiring) : u.linksBut n = s.linksBut n := by
  funext m
  simp only [State.linksBut, link_of_wiring h]

theorem receiving_of_wiring (h : u.wiring = s.wiring) : u.receiving = s.receiving := by
  funext m
  simp only [State.receiving, link_of_wiring h]

theorem receiving_of_linksBut (h : u.linksBut n = s.linksBut n) : u.receiving = s.receiving := by
  have e (s : State) : s.receiving = Link.sansSending ∘ s.linksBut n := by
    funext m
    rw [Function.comp_apply, State.linksBut]
    split <;> rfl
  rw [e u, e s, h]

/-- Another end is as it was. -/
theorem link_of_linksBut {m : Nat} (h : u.linksBut n = s.linksBut n) (hm : m ≠ n) : u.link m = s.link m := by
  simpa [State.linksBut, hm] using congrFun h m

/-- What an end keeps that keeps all but its sending side. -/
theorem field_of_receiving {β : Type} (φ : Link → β) (h : u.receiving = s.receiving) (hφ : ∀ l : Link, φ l.sansSending = φ l) (m : Nat) :
    φ (u.link m) = φ (s.link m) := by
  rw [← hφ (u.link m), ← hφ (s.link m)]
  exact congrArg φ (congrFun h m)

theorem updLink_linksBut (s : State) (n : Nat) {f : Link → Link} (h : (f (s.link n)).sansSending = (s.link n).sansSending) :
    (s.updLink n f).linksBut n = s.linksBut n := by
  funext m
  simp only [State.linksBut, link_updLink]
  split
  · next e => rw [h, e]
  · rfl

theorem sendFlit_linksBut (s : State) (n h : Nat) (b : List Byte) (fb : Bool) : (sendFlit s n h b fb).linksBut n = s.linksBut n := by
  unfold sendFlit
  dsimp only
  refine (linksBut_of_wiring (emit_wiring ..)).trans ?_
  generalize e : s.updLink n _ = u
  have k : u.linksBut n = s.linksBut n := by
    rw [← e]
    exact updLink_linksBut _ _ rfl
  split
  · split
    all_goals exact k
  · exact k

theorem sendPacket_linksBut (s : State) (n : Nat) (x : Packet) : (sendPacket s n x).linksBut n = s.linksBut n := by
  have h : ((x.flits.zipIdx.foldl (fun s f => sendFlit s n (x.head + (x.flits.length - 1) * 2 ^ 21 + f.2 * 2 ^ 19) f.1 x.fallback) s).updLink n
      (fun l => { l with served := x.cls })).linksBut n = s.linksBut n :=
    (updLink_linksBut _ _ rfl).trans (foldl_keeps (φ := State.linksBut n) (fun s f => sendFlit_linksBut ..) _ _)
  unfold sendPacket
  dsimp only
  split
  · exact ite_keeps (φ := State.linksBut n) h h
  · exact h

theorem pumpGo_linksBut (n f : Nat) (s : State) : (pumpGo n f s).linksBut n = s.linksBut n := by
  induction f generalizing s with
  | zero => rfl
  | succ f ih =>
    unfold pumpGo
    dsimp only
    split
    · rfl
    · exact (ih _).trans ((sendPacket_linksBut ..).trans (updLink_linksBut _ _ rfl))

theorem pumpLink_linksBut (s : State) (n : Nat) : (pumpLink s n).linksBut n = s.linksBut n := by
  have h := pumpGo_linksBut n ((s.link n).queue.length + 1) s
  unfold pumpLink
  dsimp only
  refine ite_keeps (φ := State.linksBut n) h ((linksBut_of_wiring (atOnce_wiring ..)).trans (ite_keeps (φ := State.linksBut n) ?_ h))
  exact (foldl_keeps (φ := State.linksBut n) (fun s x => linksBut_of_wiring (dieEvent_wiring ..)) _ _).trans h

/-- An end that has nothing to send sends nothing. -/
theorem pumpLink_idle (h : (s.link n).queue = []) : pumpLink s n = s := by
  have e : pumpGo n ((s.link n).queue.length + 1) s = s := by
    simp [pumpGo, h, queueHeads, serveNext]
  unfold pumpLink
  dsimp only
  rw [e]
  simp [h, queueHeads]

theorem sendOn_linksBut (s : State) (n : Nat) (x : Packet) : (sendOn s n x).linksBut n = s.linksBut n :=
  (pumpLink_linksBut ..).trans (updLink_linksBut _ _ rfl)

theorem sendBytes_linksBut (s : State) (n a h : Nat) (r : Bool) (l : List Byte) : (sendBytes s n a h r l).linksBut n = s.linksBut n :=
  foldl_keeps (φ := State.linksBut n) (fun _ _ => sendOn_linksBut ..) _ _

theorem sendToPort_linksBut (s : State) (n p a h : Nat) (r : Bool) (l : List Byte) : (sendToPort s n p a h r l).linksBut n = s.linksBut n :=
  foldl_keeps (φ := State.linksBut n) (fun _ _ => sendBytes_linksBut ..) _ _

theorem repeatFlit_linksBut (s : State) (n e : Nat) : (repeatFlit s n e).linksBut n = s.linksBut n := by
  unfold repeatFlit
  split
  · rfl
  · dsimp only
    have h (s : State) (b : List Byte) (c : Nat) : (if n < 24 then dieEvent (emit s n b) n 4 3 c 1 else emit s n b).linksBut n = s.linksBut n :=
      linksBut_of_wiring (ite_keeps ((dieEvent_wiring ..).trans (emit_wiring ..)) (emit_wiring ..))
    refine ite_keeps rfl (ite_keeps (φ := State.linksBut n) ((h ..).trans ?_) ((h ..).trans ?_))
    all_goals exact updLink_linksBut _ _ rfl

theorem forward_receiving (s : State) (n h : Nat) (l : List (List Byte)) : (forward s n h l).receiving = s.receiving := by
  unfold forward
  split
  · exact receiving_of_linksBut (sendOn_linksBut ..)
  · rfl

/-! A flit on its way (R29, R35). -/

theorem rsStep_length {r : List Nat} (h : r.length = 12) (m : Nat) : (rsStep (rsGen.take 12).reverse r m).length = 12 := by
  have hg : (rsGen.take 12).reverse.length = 12 := by decide +kernel
  simp only [rsStep, List.length_zipWith, List.length_append, List.length_drop, h, hg]
  decide

theorem rsParity_length (l : List Nat) : (rsParity l).length = 12 := by
  have h (r : List Nat) (hr : r.length = 12) : (l.foldl (rsStep (rsGen.take 12).reverse) r).length = 12 := by
    induction l generalizing r with
    | nil => exact hr
    | cons m l ih => exact ih _ (rsStep_length hr m)
  exact h _ (List.length_replicate ..)

variable {b : List Byte}

theorem flitOf_length (h : b.length = 112) : (flitOf b).length = 128 := by
  simp [flitOf, h, leBytes_length, rsParity_length]

theorem flitOf_take (h : b.length = 112) : (flitOf b).take 112 = b := by
  simp [flitOf, ← h]

theorem flitOf_crc (h : b.length = 112) : sliceNat (flitOf b) 112 4 = (crc32c b).toNat := by
  have e : ((flitOf b).drop 112).take 4 = leBytes 4 (crc32c b).toNat := by
    simp [flitOf, ← h, leBytes_length]
  rw [sliceNat, e, leNat_leBytes]
  exact Nat.mod_eq_of_lt (crc32c b).isLt

/-- A flit that goes out: the header's eight bytes are made afresh, and the codes; it leaves the package, or arrives at the far end 4 clk later. -/
theorem emit_goes (s : State) (n : Nat) (b : List Byte) :
    ∃ h, (farEnd n = none → .flit n (flitOf (leBytes 8 h ++ b.drop 8)) ∈ (emit s n b).out) ∧
      ∀ m, farEnd n = some m → (s.clk + 4, .flitReceive m (flitOf (leBytes 8 h ++ b.drop 8))) ∈ (emit s n b).timers := by
  have hc (c : Nat) : (if n < 24 then dieEvent s n 4 0 c 1 else s).clk = s.clk :=
    ite_keeps (φ := State.clk) (congrArg State.clk (dieEvent_sansCache ..) :) rfl
  unfold emit
  extract_lets l h0 h t f
  have ht : t.clk = s.clk := hc _
  refine ⟨h, fun hn => ?_, fun m hm => ?_⟩
  · simp only [hn]
    exact List.mem_cons_self
  · simp only [hm, ht]
    exact (mem_at_ ..).2 (.inl rfl)

end Sys2Proof.Machine
end

section
/-! PROOFS. Span ports that go down, and what the requests they lose leave alone (R37, R39, R45). -/

namespace Sys2Proof.Machine
open Sys2Proof

/-! A request that completes as die-lost. -/

theorem wakeYounger_wiring (s : State) (f : Flight) : (wakeYounger s f).wiring = s.wiring := by
  refine foldl_keeps (φ := State.wiring) (fun _ _ => ?_) _ _
  rfl

theorem pokeOwner_wiring (s : State) (n : Nat) : (pokeOwner s n).wiring = s.wiring := rfl

theorem flightDone_wiring (s : State) (f : Flight) (l : List Word) : (flightDone s f l).wiring = s.wiring := by
  have h : (acquired (wakeYounger s f) f).wiring = s.wiring := by
    obtain ⟨l, e⟩ := acquired_eq (wakeYounger s f) f
    rw [e]
    exact wakeYounger_wiring s f
  have h' : ((acquired (wakeYounger s f) f).updThread f.owner (fun t => { t with performedAt := (acquired (wakeYounger s f) f).clk })).wiring = s.wiring := h
  unfold flightDone
  dsimp only
  exact ite_keeps ((pokeOwner_wiring ..).trans h') (ite_keeps ((pokeOwner_wiring ..).trans h') ((pokeOwner_wiring ..).trans h'))

theorem offerPlace_wiring (s : State) (p : Place) : (offerPlace s p).wiring = s.wiring := by
  have h (c : Nat) : (if (s.core c).landing.isEmpty then s else s.later (.landingSlotTake c)).wiring = s.wiring := ite_keeps rfl rfl
  unfold offerPlace
  split
  · exact h _
  · rfl
  · rfl

theorem reap_wiring (s : State) (n : Nat) : (reap s n).wiring = s.wiring := by
  unfold reap
  split
  · rfl
  · exact ite_keeps rfl (offerPlace_wiring ..)

theorem recheck_wiring (s : State) (p n k : Nat) : (recheck s p n k).wiring = s.wiring := by
  unfold recheck
  split
  · exact ite_keeps rfl rfl
  · rfl

theorem settleOwner_wiring (s : State) (n : Nat) : (settleOwner s n).wiring = s.wiring := by
  unfold settleOwner
  split
  · rfl
  · exact ite_keeps rfl ((recheck_wiring ..).trans (reap_wiring ..))

theorem arriveReply_wiring (s : State) (f : Flight) (l : List Word) : (arriveReply s f l).wiring = s.wiring :=
  (settleOwner_wiring ..).trans (flightDone_wiring ..)

theorem dielost_wiring (s : State) (p k a : Nat) : (dielost s p k a).wiring = s.wiring := wiring_of_sansQueues (fqNote_sansQueues ..)

theorem moverData_wiring (s : State) (c k : Nat) : (moverData s c k).wiring = s.wiring := by
  unfold moverData
  split
  · rfl
  · split
    · exact ite_keeps rfl rfl
    · rfl

theorem pokeUnit_wiring (s : State) (u : Nat) : (pokeUnit s u).wiring = s.wiring := by
  unfold pokeUnit
  dsimp only
  refine ite_keeps (ite_keeps rfl (ite_keeps (atOnce_wiring ..) ?_)) (ite_keeps rfl (ite_keeps rfl (ite_keeps rfl rfl)))
  split <;> rfl

theorem unitGot_wiring (s : State) (r : UnitRead) (l : List Byte) (b : Bool) : (unitGot s r l b).wiring = s.wiring :=
  (pokeUnit_wiring ..).trans (ite_keeps (moverData_wiring ..) rfl)

theorem loseAsked_wiring (s : State) (p id : Nat) : (loseAsked s p id).wiring = s.wiring := by
  unfold loseAsked
  split
  · exact ite_keeps ((dielost_wiring ..).trans (arriveReply_wiring ..)) rfl
  · split
    · exact (dielost_wiring ..).trans (unitGot_wiring ..)
    · rfl

/-! Span ports down (R39, R43, R45). -/

/-- The end of a span port that goes down: it loses what was sealed and received. -/
def Link.wentDown (l : Link) : Link :=
  { l with
    up := false, training := false, bad := l.bad + (l.replay.filter (fun r => r.sealed)).length, replay := l.replay.filter (fun r => !r.sealed)
    rxMap := [], rxBuf := [], nak := [], authFail := [] }

/-- The sealing state of a port that goes down. -/
def Span.wentDown (x : Span) : Span :=
  { x with
    tx := Vector.replicate 2 KeySlot.reset, rx := Vector.replicate 2 KeySlot.reset, cur := 0, acked := false, keyEvent := 0, waiting := []
    asked := [] }

theorem spanDown_wiring (s : State) (p : Nat) : (spanDown s p).wiring = ((s.updLink (320 + p) Link.wentDown).updSpan p Span.wentDown).wiring :=
  foldl_keeps (φ := State.wiring) (fun _ _ => loseAsked_wiring ..) _ _

theorem spanDown_link (s : State) (p n : Nat) :
    (spanDown s p).link n = if n = 320 + p then (s.link (320 + p)).wentDown else s.link n := by
  rw [link_of_wiring (spanDown_wiring s p), link_updSpan, link_updLink]

theorem spanDown_span (s : State) {p : Nat} (h : p < 16) : (spanDown s p).span p = (s.span p).wentDown := by
  rw [span_of_wiring (spanDown_wiring s p), span_updSpan_same _ _ h, span_updLink]

/-! Failed links (R37, R40). -/

/-- The end of a link has failed. -/
def Link.dead (l : Link) : Prop := l.failed = true ∧ l.up = false

variable {s u : State} {n : Nat}

theorem dead_of_receiving (h : u.receiving = s.receiving) (d : (s.link n).dead) : (u.link n).dead := by
  obtain ⟨h1, h2⟩ := d
  exact ⟨(field_of_receiving Link.failed h (fun _ => rfl) n).trans h1, (field_of_receiving Link.up h (fun _ => rfl) n).trans h2⟩

theorem dead_of_wiring (h : u.wiring = s.wiring) (d : (s.link n).dead) : (u.link n).dead := dead_of_receiving (receiving_of_wiring h) d

/-- A fold by steps that keep an end failed. -/
theorem foldl_dead {α : Type} {f : State → α → State} (hf : ∀ s x, (State.link s n).dead → ((f s x).link n).dead) (l : List α)
    (d : (s.link n).dead) : ((l.foldl f s).link n).dead := by
  induction l generalizing s with
  | nil => exact d
  | cons x l ih => exact ih (hf s x d)

theorem spanDown_dead (p : Nat) (d : (s.link n).dead) : ((spanDown s p).link n).dead := by
  rw [spanDown_link]
  split
  · next e => exact e ▸ ⟨d.1, rfl⟩
  · exact d

theorem portDown_wiring (s : State) (what : String) (k : Nat) : (portDown s what k).wiring = s.wiring := by
  refine ite_keeps ?_ rfl
  exact (foldl_keeps (φ := State.wiring) (fun _ _ => wiring_of_sansQueues (fqNote_sansQueues ..)) _ _).trans rfl

theorem loseSocket_dead (k : Nat) (d : (s.link n).dead) : ((loseSocket s k).link n).dead := by
  unfold loseSocket
  split
  · exact d
  · split
    · exact d
    · split
      · refine foldl_dead (fun _ _ => spanDown_dead _) _ (dead_of_wiring ?_ d)
        exact foldl_keeps (φ := State.wiring) (fun _ _ => portDown_wiring ..) _ _
      · split
        · exact d
        · exact d

theorem reroute_receiving (s : State) (k : Nat) : (reroute s k).receiving = s.receiving :=
  (foldl_keeps (φ := State.receiving) (fun _ _ => forward_receiving ..) _ _).trans (receiving_of_linksBut (updLink_linksBut _ _ rfl))

theorem badRoutes_of_sansLinks (h : u.sansLinks = s.sansLinks) : u.badRoutes = s.badRoutes := (congrArg (fun x => x.1.badRoutes) h :)

theorem forward_badRoutes (s : State) (n h : Nat) (l : List (List Byte)) : (forward s n h l).badRoutes = s.badRoutes := by
  unfold forward
  split
  · exact badRoutes_of_sansLinks (sendOn_sansLinks ..)
  · rfl

theorem reroute_badRoutes (s : State) (k : Nat) : (reroute s k).badRoutes = s.badRoutes := by
  unfold reroute
  dsimp only
  refine (foldl_keeps (φ := State.badRoutes) (fun s x => ?_) _ _).trans ?_
  · exact forward_badRoutes s k x.head x.flits
  · rfl

/-! The two ends of a link. -/

theorem routerLink_dir (x y : Nat) {d : Nat} (h : d < 4) : (routerLink x y d - 64) % 4 = d := by
  unfold routerLink
  omega

/-- The other end of a link leaves its router in another direction. -/
theorem otherEnd_ne (n : Nat) : otherEnd n ≠ n := by
  intro h
  have turned (x y : Nat) {d : Nat} (hd : d < 4) (hn : (n - 64) % 4 ≠ d) : routerLink x y d ≠ n := fun e => hn (e ▸ routerLink_dir x y hd)
  unfold otherEnd at h
  dsimp only at h
  split at h
  · next e => exact turned _ _ (d := 1) (by decide) (by omega) h
  · next e => exact turned _ _ (d := 0) (by decide) (by omega) h
  · next e => exact turned _ _ (d := 3) (by decide) (by omega) h
  · next e => exact turned _ _ (d := 2) (by decide) e h

theorem farEnd_ne {n m : Nat} (h : farEnd n = some m) : m ≠ n := by
  unfold farEnd at h
  split at h
  · have := Option.some.inj h
    omega
  · split at h
    · exact Option.some.inj h ▸ otherEnd_ne n
    · split at h
      · have := Option.some.inj h
        omega
      · exact absurd h nofun

/-- Both ends changed alike. -/
theorem link_bothEnds (s : State) (n : Nat) (f : Link → Link) : ((bothEnds n).foldl (fun s m => s.updLink m f) s).link n = f (s.link n) := by
  unfold bothEnds
  cases h : farEnd n with
  | none => simp [link_updLink]
  | some m => simp [link_updLink, (farEnd_ne h).symm]

end Sys2Proof.Machine
end

section
/-! PROOFS. Links that retrain, fail and repair their lanes, and span ports that lose lanes and return (O50: R37 to R39). -/

namespace Sys2Proof.Machine
open Sys2Proof

variable {s : State} {n : Nat}

theorem ready_of (h : (s.link n).up = true) (h' : (s.link n).training = false) : (s.link n).ready = true := by
  rw [Link.ready, h, h']
  rfl

theorem not_ready_of (h : (s.link n).up = false ∨ (s.link n).training = true) : (s.link n).ready = false := by
  rcases h with h | h
  all_goals simp [Link.ready, h]

/-! Retraining (R37). -/

/-- An end in service that leaves it to retrain. -/
def Link.retrains (l : Link) : Link := { l with training := l.up }

/-- Both ends retrain, and the log. -/
def endsRetrain (s : State) (n : Nat) : State := ((bothEnds n).foldl (fun s m => s.updLink m Link.retrains) s).log "link retraining" n

theorem endsRetrain_link (s : State) (n : Nat) : (endsRetrain s n).link n = (s.link n).retrains := link_bothEnds s n _

theorem retrains_of_up {l : Link} (h : l.up = true) : l.retrains = { l with training := true } :=
  congrArg (fun b => { l with training := b }) h

theorem linkRetrain_ready (h : (s.link n).up = true) (h' : (s.link n).training = false) :
    ∃ u, exec (.linkRetrain n) s = .next u ∧ u.link n = { s.link n with training := true } ∧ (s.clk + 20000, .retrainingComplete n) ∈ u.timers := by
  have e : exec (.linkRetrain n) s = .next ((endsRetrain s n).at_ (s.clk + 20000) (.retrainingComplete n)) :=
    congrArg Host.Outcome.next (if_pos (ready_of h h'))
  refine ⟨_, e, ?_, (mem_at_ ..).2 (.inl rfl)⟩
  rw [at_link, endsRetrain_link, retrains_of_up h]

theorem linkRetrain_not_ready (h : (s.link n).up = false ∨ (s.link n).training = true) : exec (.linkRetrain n) s = .next s :=
  congrArg Host.Outcome.next (if_neg (by simp [not_ready_of h]))

theorem resumeLink_idle (h : (s.link n).training = false) : resumeLink s n = s := if_neg (by simp [h])

/-- An end with nothing to send goes on. -/
theorem resumeLink_empty (h : (s.link n).up = true) (h' : (s.link n).training = true) (hr : (s.link n).replay = []) (hq : (s.link n).queue = []) :
    (resumeLink s n).link n = { s.link n with training := false } := by
  unfold resumeLink
  dsimp only
  rw [if_pos (by simp [h, h']), hr, List.foldl_nil, pumpLink_idle]
  · rw [link_updLink_same, hr, List.map_nil, ← hr]
  · rw [link_updLink_same, hq]

theorem resumeLink_other (s : State) {m : Nat} (h : n ≠ m) : (resumeLink s m).link n = s.link n := by
  unfold resumeLink
  dsimp only
  split
  · refine (link_of_linksBut (n := m) ((pumpLink_linksBut ..).trans (foldl_keeps (φ := State.linksBut m) (fun _ _ => repeatFlit_linksBut ..) _ _)) h).trans ?_
    rw [link_updLink, if_neg h]
  · rfl

theorem retrainingComplete_empty (h : (s.link n).up = true) (h' : (s.link n).training = true) (hr : (s.link n).replay = [])
    (hq : (s.link n).queue = []) : ∃ u, exec (.retrainingComplete n) s = .next u ∧ u.link n = { s.link n with training := false } := by
  refine ⟨_, rfl, ?_⟩
  have e := resumeLink_empty h h' hr hq
  unfold bothEnds
  cases hm : farEnd n with
  | none => exact e
  | some m => exact (resumeLink_other _ (farEnd_ne hm).symm).trans e

theorem retrainingComplete_idle (h : (s.link n).training = false) (h' : ∀ m, farEnd n = some m → (s.link m).training = false) :
    exec (.retrainingComplete n) s = .next s := by
  refine congrArg Host.Outcome.next ?_
  unfold bothEnds
  cases hm : farEnd n with
  | none => exact resumeLink_idle h
  | some m =>
    show resumeLink (resumeLink s n) m = s
    rw [resumeLink_idle h, resumeLink_idle (h' m hm)]

/-! Failure (R37, R40). -/

/-- Both ends of a link out of service, and the log. -/
def endsFailed (s : State) (n : Nat) : State :=
  ((bothEnds n).foldl (fun s m => s.updLink m (fun l => { l with up := false, training := false, failed := true })) s).log "link failed" n

theorem endsFailed_dead (s : State) (n : Nat) : ((endsFailed s n).link n).dead := by
  have h : (endsFailed s n).link n = { s.link n with up := false, training := false, failed := true } := link_bothEnds s n _
  rw [h]
  exact ⟨rfl, rfl⟩

/-- A link between routers: its routes move. -/
theorem linkFailed_router (hf : (s.link n).failed = false) (h : 64 ≤ n) (h' : n < 320) :
    ∃ u, exec (.linkFailed n) s = .next u ∧ (u.link n).dead ∧ n ∈ u.badRoutes := by
  have hb : n ∈ ((endsFailed s n).badRoutes ++ bothEnds n).dedup := List.mem_dedup.2 (List.mem_append_right _ List.mem_cons_self)
  refine ⟨_, congrArg Host.Outcome.next ((if_neg (by simp [hf])).trans (if_pos ⟨h, h'⟩)), ?_, ?_⟩
  · exact dead_of_receiving (foldl_keeps (φ := State.receiving) reroute_receiving _ _) (endsFailed_dead s n)
  · exact (foldl_keeps (φ := State.badRoutes) reroute_badRoutes _ _).symm ▸ hb

/-- A span port goes down. -/
theorem linkFailed_span (hf : (s.link n).failed = false) (h : 320 ≤ n) (h' : n < 336) :
    ∃ u, exec (.linkFailed n) s = .next u ∧ (u.link n).dead :=
  ⟨_, congrArg Host.Outcome.next ((if_neg (by simp [hf])).trans ((if_neg (by omega)).trans (if_pos ⟨h, h'⟩))), spanDown_dead _ (endsFailed_dead s n)⟩

/-- The link of a socket: its passenger is lost. -/
theorem linkFailed_socket (hf : (s.link n).failed = false) (h : n < 64 ∨ 336 ≤ n) :
    exec (.linkFailed n) s = .next (loseSocket (endsFailed s n) (if 336 ≤ n then n - 336 else n)) :=
  congrArg Host.Outcome.next ((if_neg (by simp [hf])).trans ((if_neg (by omega)).trans (if_neg (by omega))))

/-- What the loss of a die, or of the service die, is due to. -/
theorem loseSocket_agenda (s : State) (k : Nat) :
    (k < 24 → .dieLost k ∈ (loseSocket s k).agenda) ∧ (32 ≤ k → k < 56 → .dieLost (k - 32) ∈ (loseSocket s k).agenda) ∧
      (k = 60 → .serviceDieFailure ∈ (loseSocket s k).agenda) := by
  refine ⟨fun h => ?_, fun h h' => ?_, fun h => ?_⟩
  · rw [loseSocket, if_pos h]
    exact List.mem_append_right _ List.mem_cons_self
  · rw [loseSocket, if_neg (by omega), if_pos ⟨h, h'⟩]
    exact List.mem_append_right _ List.mem_cons_self
  · subst h
    exact List.mem_append_right _ List.mem_cons_self

theorem linkFailed_live (hf : (s.link n).failed = false) :
    ∃ u, exec (.linkFailed n) s = .next u ∧ (u.link n).failed = true ∧ (u.link n).up = false ∧ (n < 24 → .dieLost n ∈ u.agenda) ∧
      (32 ≤ n → n < 56 → .dieLost (n - 32) ∈ u.agenda) ∧ (n = 60 → .serviceDieFailure ∈ u.agenda) ∧ (64 ≤ n → n < 320 → n ∈ u.badRoutes) := by
  rcases (by omega : (64 ≤ n ∧ n < 320) ∨ (320 ≤ n ∧ n < 336) ∨ n < 64 ∨ 336 ≤ n) with ⟨h, h'⟩ | ⟨h, h'⟩ | h
  · obtain ⟨u, e, ⟨d1, d2⟩, hb⟩ := linkFailed_router hf h h'
    exact ⟨u, e, d1, d2, fun _ => by omega, fun _ _ => by omega, fun _ => by omega, fun _ _ => hb⟩
  · obtain ⟨u, e, d1, d2⟩ := linkFailed_span hf h h'
    exact ⟨u, e, d1, d2, fun _ => by omega, fun _ _ => by omega, fun _ => by omega, fun _ _ => by omega⟩
  · obtain ⟨d1, d2⟩ := loseSocket_dead (if 336 ≤ n then n - 336 else n) (endsFailed_dead s n)
    obtain ⟨a1, a2, a3⟩ := loseSocket_agenda (endsFailed s n) n
    refine ⟨_, linkFailed_socket hf h, d1, d2, fun k => ?_, fun k k' => ?_, fun k => ?_, fun _ _ => by omega⟩
    · rw [if_neg (by omega)]
      exact a1 k
    · rw [if_neg (by omega)]
      exact a2 k k'
    · rw [if_neg (by omega)]
      exact a3 k

theorem linkFailed_failed (hf : (s.link n).failed = true) : exec (.linkFailed n) s = .next s := congrArg Host.Outcome.next (if_pos hf)

/-! Lane repair (R38). -/

variable {m k : Nat}

theorem laneRepair_skips (h : 48 ≤ m ∨ m ∈ (s.link n).retired) : exec (.laneRepair n m k) s = .next s :=
  congrArg Host.Outcome.next (if_pos (by simpa using h))

/-- A repair that goes beyond the check of its module. -/
theorem laneRepair_goes (h : m < 48) (h' : m ∉ (s.link n).retired) : ¬((decide (48 ≤ m) || (s.link n).retired.contains m) = true) := by
  simp [h, h']

theorem laneRepair_starts (h : m < 48) (h' : m ∉ (s.link n).retired) (ht : Table.at (s.link n).lanes m 0 + k ≤ 4) (hr : (s.link n).repairing = []) :
    ∃ u, exec (.laneRepair n m k) s = .next u ∧
      u.link n = { s.link n with lanes := Table.put (s.link n).lanes m (Table.at (s.link n).lanes m 0 + k), repairing := [m] } ∧
      (s.clk + 10000, .laneRepairComplete n m) ∈ u.timers := by
  refine ⟨_, congrArg Host.Outcome.next ((if_neg (laneRepair_goes h h')).trans ((if_neg (by omega)).trans (if_pos (by simp [hr])))), ?_,
    (mem_at_ ..).2 (.inl rfl)⟩
  rw [at_link, link_updLink_same]

theorem laneRepair_waits (h : m < 48) (h' : m ∉ (s.link n).retired) (ht : Table.at (s.link n).lanes m 0 + k ≤ 4) (hr : (s.link n).repairing ≠ []) :
    ∃ u key, exec (.laneRepair n m k) s = .next u ∧ u.links = s.links ∧ u.deferred = s.deferred ++ [([key], .laneRepair n m k)] := by
  refine ⟨_, 2 ^ 28 + n, congrArg Host.Outcome.next ((if_neg (laneRepair_goes h h')).trans ((if_neg (by omega)).trans ((if_neg (by simp [hr])).trans
    (defer_eq ..)))), rfl, rfl⟩

/-- An end whose module is retired with this many failed lanes. -/
def Link.retire (l : Link) (m c : Nat) : Link :=
  { l with lanes := Table.put l.lanes m c, retired := l.retired ++ [m], repairing := l.repairing.filter (fun x => x != m) }

/-- The state in which it is retired, with the log. -/
def moduleRetired (s : State) (n m c : Nat) : State := (s.updLink n (fun l => l.retire m c)).log "module retired" n

theorem moduleRetired_link (s : State) (n m c : Nat) : (moduleRetired s n m c).link n = (s.link n).retire m c :=
  (log_link ..).trans (link_updLink_same ..)

theorem retireModule_eq (s : State) (n m c : Nat) : retireModule s n m c =
    if ((s.link n).retire m c).retired.length ≤ 24 then moduleRetired s n m c else (moduleRetired s n m c).later (.linkFailed n) := by
  rw [← moduleRetired_link]
  rfl

theorem retireModule_link (s : State) (n m c : Nat) : (retireModule s n m c).link n = (s.link n).retire m c := by
  rw [retireModule_eq]
  split
  · exact moduleRetired_link ..
  · exact moduleRetired_link ..

theorem laneRepair_retires (h : m < 48) (h' : m ∉ (s.link n).retired) (ht : 4 < Table.at (s.link n).lanes m 0 + k) :
    ∃ u, exec (.laneRepair n m k) s = .next u ∧ u.link n = (s.link n).retire m (Table.at (s.link n).lanes m 0 + k) ∧
      (24 ≤ (s.link n).retired.length → .linkFailed n ∈ u.agenda) := by
  refine ⟨_, congrArg Host.Outcome.next ((if_neg (laneRepair_goes h h')).trans (if_pos ht)), retireModule_link .., fun hl => ?_⟩
  rw [retireModule_eq, if_neg (by simpa [Link.retire] using hl)]
  exact List.mem_append_right _ List.mem_cons_self

theorem laneRepairComplete_link (s : State) (n m : Nat) : ∃ u, exec (.laneRepairComplete n m) s = .next u ∧ u = { s with links := u.links } ∧
    u.link n = { s.link n with repairing := (s.link n).repairing.filter (fun x => x != m) } :=
  ⟨_, rfl, rfl, link_updLink_same ..⟩

/-! Span ports (R39). -/

variable {p : Nat}

theorem spanLaneFailure_four (h : p < 16) (hk : 1 ≤ k) (hk' : k ≤ 4) :
    ∃ u, exec (.spanLaneFailure p k) s = .next u ∧ u.span p = { s.span p with lanes := 4 } ∧ u.links = s.links := by
  refine ⟨_, congrArg Host.Outcome.next ((if_neg (by omega)).trans (if_neg (by omega))), ?_, rfl⟩
  rw [log_span, span_updSpan_same _ _ h, if_pos (by omega)]

theorem spanLaneFailure_down (h : p < 16) (hk : 5 ≤ k) (hk' : k ≤ 8) :
    ∃ u, exec (.spanLaneFailure p k) s = .next u ∧ (u.span p).lanes = 8 - k ∧ (u.link (320 + p)).up = false ∧
      (u.span p).tx = Vector.replicate 2 KeySlot.reset ∧ (u.span p).rx = Vector.replicate 2 KeySlot.reset := by
  refine ⟨_, congrArg Host.Outcome.next ((if_neg (by omega)).trans (if_pos (by omega))), ?_, ?_, ?_, ?_⟩
  · rw [spanDown_span _ h, log_span, span_updSpan_same _ _ h, if_neg (by omega)]
    rfl
  · rw [spanDown_link, if_pos rfl]
    rfl
  · rw [spanDown_span _ h]
    rfl
  · rw [spanDown_span _ h]
    rfl

/-- The message that agrees a key leaves from the service die's socket. -/
theorem sendKeyMessage_linksBut (s : State) (p : Nat) : (sendKeyMessage s p).linksBut 60 = s.linksBut 60 := sendToPort_linksBut ..

theorem spanPortReturn_trains (h : p < 16) (hl : 4 ≤ (s.span p).lanes) (hu : (s.link (320 + p)).up = false)
    (hf : (s.link (56 + p / 8)).failed = false) :
    ∃ u, exec (.spanPortReturn p) s = .next u ∧ (u.link (320 + p)).up = true ∧ (u.link (320 + p)).rxBase = 0 ∧
      ((s.link (320 + p)).replay = [] → (s.link (320 + p)).queue = [] → (u.link (320 + p)).txNext = 0 ∧ (u.link (320 + p)).replay = []) := by
  refine ⟨_, congrArg Host.Outcome.next (if_pos ⟨h, hl, by simp [hu], by simp [hf]⟩), ?_⟩
  extract_lets t v
  have ht : t.link (320 + p) = { (s.link (320 + p)).renew (regroup (s.link (320 + p)).replay ++ (s.link (320 + p)).queue) with up := true } :=
    link_updLink_same ..
  have hc : (sendControl t (320 + p)).link (320 + p) = t.link (320 + p) := link_of_wiring (sendControl_wiring ..) _
  have hv : v.receiving = t.receiving :=
    (receiving_of_linksBut (pumpLink_linksBut ..)).trans (receiving_of_wiring (sendControl_wiring ..))
  have hz : (if v.sdUp then sendKeyMessage v p else v).link (320 + p) = v.link (320 + p) := by
    split
    · exact link_of_linksBut (sendKeyMessage_linksBut v p) (by omega)
    · rfl
  rw [hz]
  refine ⟨?_, ?_, fun hr hq => ?_⟩
  · rw [field_of_receiving Link.up hv (fun _ => rfl), ht]
  · rw [field_of_receiving Link.rxBase hv (fun _ => rfl), ht]
    rfl
  · have hi : v = sendControl t (320 + p) := pumpLink_idle (by rw [hc, ht, hr, hq]; rfl)
    rw [hi, hc, ht, hr]
    exact ⟨rfl, rfl⟩

end Sys2Proof.Machine
end

section
/-! PROOFS. Flits that are repeated, and flits that are received (O50: R28 to R32, R35). -/

namespace Sys2Proof.Machine
open Sys2Proof

variable {s : State} {n e : Nat}

/-! Repeats (R35). -/

/-- An end that repeats flit r of number e. -/
def Link.repeats (l : Link) (clk e : Nat) (r : Replay) : Link :=
  { l.charge clk (hdrPart (sliceNat r.bytes 0 8)) with
    replay := l.replay.map (fun x => if x.seq == e then { x with sent := x.sent + 1, at_ := clk } else x) }

/-- The state in which the flit is on its way again, and the repeat counted. -/
def repeated (s : State) (n e : Nat) (r : Replay) : State :=
  let t := emit (s.updLink n (fun l => l.repeats s.clk e r)) n r.bytes
  if n < 24 then dieEvent t n 4 3 (hdrChan (sliceNat r.bytes 0 8)) 1 else t

theorem repeatFlit_eq {r : Replay} (hr : (s.link n).replay.find? (fun x => x.seq == e) = some r) (h : (s.link n).ready = true) :
    repeatFlit s n e = if r.sent = 8 then (repeated s n e r).later (.linkRetrain n) else armRepeat (repeated s n e r) n e := by
  unfold repeatFlit
  rw [hr]
  exact if_neg (by simp [h])

/-- What has gone out stands in the state afterwards. -/
theorem repeatFlit_goes {r : Replay} (hr : (s.link n).replay.find? (fun x => x.seq == e) = some r) (h : (s.link n).ready = true) :
    (∀ x ∈ (emit (s.updLink n (fun l => l.repeats s.clk e r)) n r.bytes).out, x ∈ (repeatFlit s n e).out) ∧
      ∀ x ∈ (emit (s.updLink n (fun l => l.repeats s.clk e r)) n r.bytes).timers, x ∈ (repeatFlit s n e).timers := by
  have ho : (repeated s n e r).out = (emit (s.updLink n (fun l => l.repeats s.clk e r)) n r.bytes).out :=
    ite_keeps (congrArg State.out (dieEvent_sansCache ..) :) rfl
  have ht : (repeated s n e r).timers = (emit (s.updLink n (fun l => l.repeats s.clk e r)) n r.bytes).timers :=
    ite_keeps (congrArg State.timers (dieEvent_sansCache ..) :) rfl
  rw [repeatFlit_eq hr h, ← ho, ← ht]
  split
  · exact ⟨fun _ => id, fun _ => id⟩
  · exact ⟨fun _ => id, fun _ hx => (mem_at_ ..).2 (.inr hx)⟩

theorem repeatTimeout_repeats {r : Replay} (hr : (s.link n).replay.find? (fun x => x.seq == e) = some r) (h : (s.link n).up = true)
    (h' : (s.link n).training = false) (hc : r.at_ + Config.roundTrip n + 32 ≤ s.clk) (hb : r.bytes.length = 112) :
    ∃ u b, exec (.repeatTimeout n e) s = .next u ∧ b.length = 128 ∧ (b.take 112).drop 8 = r.bytes.drop 8 ∧
      sliceNat b 112 4 = (crc32c (b.take 112)).toNat ∧ (farEnd n = none → .flit n b ∈ u.out) ∧
      ∀ m, farEnd n = some m → (s.clk + 4, .flitReceive m b) ∈ u.timers := by
  obtain ⟨ho, hz⟩ := repeatFlit_goes hr (ready_of h h')
  obtain ⟨k, k1, k2⟩ := emit_goes (s.updLink n (fun l => l.repeats s.clk e r)) n r.bytes
  have hl : (leBytes 8 k ++ r.bytes.drop 8).length = 112 := by simp [leBytes_length, hb]
  refine ⟨_, _, congrArg Host.Outcome.next ?_, flitOf_length hl, ?_, ?_, fun hn => ho _ (k1 hn), fun m hm => hz _ (k2 m hm)⟩
  · rw [hr]
    exact if_pos hc
  · rw [flitOf_take hl, List.drop_left' (leBytes_length 8 k)]
  · rw [flitOf_take hl, flitOf_crc hl]

theorem repeatTimeout_early {r : Replay} (hr : (s.link n).replay.find? (fun x => x.seq == e) = some r)
    (hc : s.clk < r.at_ + Config.roundTrip n + 32) : exec (.repeatTimeout n e) s = .next s := by
  refine congrArg Host.Outcome.next ?_
  rw [hr]
  exact if_neg (by omega)

/-! Bad flits (R30). -/

theorem flitReceive_out_of_service (h : (s.link n).up = false ∨ (s.link n).training = true) (f : List Byte) : exec (.flitReceive n f) s = .next s :=
  congrArg Host.Outcome.next (if_pos (by simp [not_ready_of h]))

/-- The end with one more bad flit counted and what is missing to be requested. -/
def Link.takesBad (l : Link) (e : Option Nat) : Link := { l with bad := l.bad + 1, nak := (l.missing ++ e.toList).dedup }

theorem badFlit_wiring (s : State) (n c : Nat) (e : Option Nat) :
    (badFlit s n c e).wiring = (s.updLink n (fun l => l.takesBad e)).wiring := by
  unfold badFlit
  extract_lets t v
  have hv : v.wiring = t.wiring := ite_keeps (dieEvent_wiring ..) rfl
  exact ite_keeps hv ((sendControl_wiring ..).trans hv)

theorem mem_of_sansLinks {u : State} (h : u.sansLinks = s.sansLinks) : u.mem = s.mem := (congrArg (fun x => x.1.mem) h :)

theorem sendControl_mem (s : State) (n : Nat) : (sendControl s n).mem = s.mem := mem_of_sansLinks (sendControl_sansLinks ..)

theorem dieEvent_mem (s : State) (d b e i n : Nat) : (dieEvent s d b e i n).mem = s.mem := mem_of_sansLinks (dieEvent_sansLinks ..)

theorem badFlit_mem (s : State) (n c : Nat) (e : Option Nat) : (badFlit s n c e).mem = s.mem := by
  unfold badFlit
  extract_lets t v
  have hv : v.mem = s.mem := ite_keeps (φ := State.mem) (dieEvent_mem ..) rfl
  exact ite_keeps hv ((sendControl_mem ..).trans hv)

/-- A received flit is counted. -/
def flitCounted (s : State) (n h : Nat) : State := if n < 24 then dieEvent s n 4 1 (hdrChan h) 1 else s

theorem flitCounted_wiring (s : State) (n h : Nat) : (flitCounted s n h).wiring = s.wiring := ite_keeps (dieEvent_wiring ..) rfl

theorem flitCounted_mem (s : State) (n h : Nat) : (flitCounted s n h).mem = s.mem := ite_keeps (dieEvent_mem ..) rfl

theorem flitReceive_uncorrectable {f : List Byte} (h : (s.link n).up = true) (h' : (s.link n).training = false) (hl : f.length = 128)
    (hd : rsDecode (f.map BitVec.toNat) = none) :
    exec (.flitReceive n f) s = .next (badFlit (flitCounted s n (sliceNat f 0 8)) n (hdrChan (sliceNat f 0 8)) none) := by
  refine congrArg Host.Outcome.next ((if_neg (by simp [ready_of h h'])).trans ?_)
  dsimp only
  rw [List.take_left' hl, hd]
  rfl

theorem flitReceive_bad {f : List Byte} (h : (s.link n).up = true) (h' : (s.link n).training = false) (hl : f.length = 128)
    (hd : rsDecode (f.map BitVec.toNat) = none) :
    ∃ u, exec (.flitReceive n f) s = .next u ∧ s.sameMem u ∧ (u.link n).bad = (s.link n).bad + 1 ∧ (u.link n).rxBase = (s.link n).rxBase ∧
      (u.link n).delivered = (s.link n).delivered := by
  have hw : ((badFlit (flitCounted s n (sliceNat f 0 8)) n (hdrChan (sliceNat f 0 8)) none).link n) = (s.link n).takesBad none := by
    rw [link_of_wiring (badFlit_wiring ..), link_updLink_same, link_of_wiring (flitCounted_wiring ..)]
  refine ⟨_, flitReceive_uncorrectable h h' hl hd, sameMem_of_mem ((badFlit_mem ..).trans (flitCounted_mem ..)), ?_⟩
  rw [hw]
  exact ⟨rfl, rfl, rfl⟩

/-! The next data flit in order (R31, R32). -/

theorem flitReceive_good {f : List Byte} (h : (s.link n).up = true) (h' : (s.link n).training = false) (hl : f.length = 128)
    (hd : rsDecode (f.map BitVec.toNat) = some (f.map BitVec.toNat)) :
    exec (.flitReceive n f) s = .next (takeCorrected (flitCounted s n (sliceNat f 0 8)) n f f) := by
  have hm : (f.map BitVec.toNat).map (BitVec.ofNat 8) = f := by simp [Function.comp_def]
  refine congrArg Host.Outcome.next ((if_neg (by simp [ready_of h h'])).trans ?_)
  dsimp only
  rw [List.take_left' hl, hd]
  dsimp only
  rw [hm, if_pos rfl]
  rfl

/-- The number of the next flit in order. -/
theorem rebuild_next (b : Nat) : rebuild b (b % 4096) = some b := by
  have h : (b % 4096 + 4096 - (b + 4095) % 4096) % 4096 = 1 := by omega
  simp [rebuild, h]

/-- Only span ports look at the span in the header's check. -/
theorem flitHeaderOk_inner {u : State} (hn : spanOf n = none) (h : Nat) : flitHeaderOk u n h = flitHeaderOk s n h := by
  simp [flitHeaderOk, hn]

/-- The header of a flit is that of its first 112 bytes. -/
theorem sliceNat_take (f : List Byte) : sliceNat (f.take 112) 0 8 = sliceNat f 0 8 := by
  simp [sliceNat, List.take_take]

theorem takeCorrected_data {f : List Byte} (hn : spanOf n = none) (hc : crc32c (f.take 112) = BitVec.ofNat 32 (sliceNat f 112 4))
    (hh : flitHeaderOk s n (sliceNat f 0 8) = true) (hk : hdrKind (sliceNat f 0 8) = 0) (ha : (sliceNat f 0 8).testBit 52 = false)
    (hs : hdrSeq (sliceNat f 0 8) = (s.link n).rxBase % 4096) : takeCorrected s n f f = takeData s n (s.link n).rxBase (f.take 112) := by
  unfold takeCorrected
  dsimp only
  rw [if_neg (by simp [hc]), if_neg (by simp [hk]), hs, rebuild_next, hn]
  dsimp only
  unfold takeFlit
  dsimp only
  rw [sliceNat_take, if_neg (by simp [hh]), hk, takeAck]
  dsimp only
  rw [if_neg (by simp [ha])]
  rfl

/-- The number expected next has been received, and none beyond it. -/
theorem advanceBase_next (l : Link) (f : Nat) (hm : l.rxMap = [l.rxBase]) : advanceBase (f + 1) l = { l with rxBase := l.rxBase + 1, rxMap := [] } := by
  cases f with
  | zero => simp [advanceBase, hm]
  | succ f => simp [advanceBase, hm]

theorem missing_nil {l : Link} (h : l.rxMap = []) : l.missing = [] := by simp [Link.missing, h]

/-- The class survives in the header that is kept. -/
theorem hdrChan_hdrOf (p a b h : Nat) : hdrChan (hdrOf p a b 0 (hdrChan h)) = hdrChan h := by
  simp only [hdrChan, hdrOf, bits]
  omega

/-- The end after a packet of this class has been delivered. -/
def Link.delivers (l : Link) (c : Nat) (fs : List (List Byte)) : Link := { l with delivered := (c, fs) :: l.delivered }

theorem takeSluice_wiring (s : State) (n a : Nat) (l : List Byte) : (takeSluice s n a l).wiring = s.wiring := by
  unfold takeSluice
  dsimp only
  split
  · rfl
  · rfl
  · rfl
  · rfl
  · exact dieEvent_wiring ..

theorem takeAtIo_receiving (s : State) (n h : Nat) (l : List Byte) : (takeAtIo s n h l).receiving = s.receiving :=
  ite_keeps (φ := State.receiving) rfl (receiving_of_linksBut (sendBytes_linksBut ..))

/-- A packet that leaves an end within the package changes no receiving side but for the record of its delivery. -/
theorem deliverPacket_receiving (hn : spanOf n = none) (h : Nat) (fs : List (List Byte)) :
    (deliverPacket s n h fs).receiving = (s.updLink n (fun l => l.delivers (hdrChan h) fs)).receiving := by
  unfold deliverPacket
  dsimp only
  rw [hn]
  refine ite_keeps (φ := State.receiving) (forward_receiving ..) (ite_keeps (φ := State.receiving) (receiving_of_wiring (takeSluice_wiring ..))
    (ite_keeps (φ := State.receiving) (takeAtIo_receiving ..) (ite_keeps (φ := State.receiving) rfl rfl)))

theorem updLink_congr {f g : Link → Link} (h : f (s.link n) = g (s.link n)) : s.updLink n f = s.updLink n g := by
  rw [State.updLink, h]
  rfl

/-- The end with the next flit in order received and in its buffer. -/
def Link.buffers (l : Link) (b : List Byte) : Link :=
  { l with rxBase := l.rxBase + 1, rxMap := [], rxBuf := [(l.rxBase, hdrChan (sliceNat b 0 8), b)], nak := [] }

/-- A packet of one flit, the only one in the buffer and in order, may be delivered. -/
theorem deliverable_buffers {l : Link} {b : List Byte} (h : hdrFidx (sliceNat b 0 8) = 0) (h' : hdrFlast (sliceNat b 0 8) = 0) :
    deliverable (l.buffers b) = some (l.rxBase, 1) := by
  simp [deliverable, Link.buffers, h, h']

theorem deliverAll_empty (f : Nat) (h : (s.link n).rxBuf = []) : deliverAll n f s = s := by
  cases f with
  | zero => rfl
  | succ f => simp [deliverAll, deliverable, h]

/-- A header as a receiver keeps it. -/
def hdrKept (h : Nat) : Nat := hdrOf (hdrPart h) (hdrSrc h) (hdrDst h) 0 (hdrChan h)

variable {l : Link} {b : List Byte}

theorem deliverAll_step (f : Nat) (hl : s.link n = l.buffers b) (h : hdrFidx (sliceNat b 0 8) = 0) (h' : hdrFlast (sliceNat b 0 8) = 0) :
    deliverAll n (f + 1) s =
      deliverAll n f (deliverPacket (s.updLink n (fun l => { l with rxBuf := [] })) n (hdrKept (sliceNat b 0 8)) [b.drop 8]) := by
  have hd : deliverable (s.link n) = some (l.rxBase, 1) := hl ▸ deliverable_buffers h h'
  have he : s.updLink n (fun x => { x with rxBuf := x.rxBuf.filter (fun y => !(decide (l.rxBase ≤ y.1) && decide (y.1 < l.rxBase + 1))) }) =
      s.updLink n (fun l => { l with rxBuf := [] }) := updLink_congr (by simp [hl, Link.buffers])
  have hp : (List.range 1).map (fun i => ((s.link n).rxBuf.find? (fun y => y.1 == l.rxBase + i)).getD (0, 0, [])) =
      [(l.rxBase, hdrChan (sliceNat b 0 8), b)] := by
    rw [hl]
    simp [Link.buffers]
  rw [deliverAll]
  dsimp only
  rw [hd]
  dsimp only
  rw [he, hp]
  rfl

/-- The packet of the only flit in the buffer is delivered. -/
theorem deliverAll_buffers (hn : spanOf n = none) (f : Nat) (hl : s.link n = l.buffers b) (h : hdrFidx (sliceNat b 0 8) = 0)
    (h' : hdrFlast (sliceNat b 0 8) = 0) :
    (deliverAll n (f + 1) s).receiving n = ({ l.buffers b with rxBuf := [] }.delivers (hdrChan (sliceNat b 0 8)) [b.drop 8]).sansSending := by
  rw [deliverAll_step f hl h h']
  generalize hw : deliverPacket (s.updLink n (fun l => { l with rxBuf := [] })) n (hdrKept (sliceNat b 0 8)) [b.drop 8] = w
  have hr : w.receiving n = ({ l.buffers b with rxBuf := [] }.delivers (hdrChan (sliceNat b 0 8)) [b.drop 8]).sansSending := by
    rw [← hw, deliverPacket_receiving hn, hdrKept, hdrChan_hdrOf, State.receiving, link_updLink_same, link_updLink_same, hl]
  rw [deliverAll_empty f (congrArg Link.rxBuf hr), hr]

/-- An end that takes data flit b of number e into its buffer and its received map. -/
def Link.takes (l : Link) (e : Nat) (b : List Byte) : Link :=
  let l : Link := { l with rxMap := e :: l.rxMap, rxBuf := l.rxBuf ++ [(e, hdrChan (sliceNat b 0 8), b)] }
  let l := advanceBase (l.rxMap.length + 1) l
  { l with nak := l.missing }

/-- What is delivered once it is taken. -/
def delivering (s : State) (n e : Nat) (b : List Byte) : State :=
  let t := s.updLink n (fun l => l.takes e b)
  deliverAll n ((t.link n).rxBuf.length + 1) t

/-- A data flit that has not been received before, on a link within the package. -/
theorem takeData_new {e : Nat} (hn : spanOf n = none) (h : ¬(e < (s.link n).rxBase ∨ (s.link n).rxMap.contains e = true)) :
    (takeData s n e b).receiving = (delivering s n e b).receiving := by
  have ha : ackSwitch s n (sliceNat b 0 8) = s := by simp [ackSwitch, hn]
  unfold takeData
  dsimp only
  rw [ha, if_neg h]
  exact ite_keeps (φ := State.receiving) (receiving_of_wiring (sendIdle_wiring ..)) (receiving_of_wiring (sendControl_wiring ..))

/-- The next number in order goes through the received map at once. -/
theorem takes_next (hm : l.rxMap = []) (hb : l.rxBuf = []) : l.takes l.rxBase b = l.buffers b := by
  unfold Link.takes
  extract_lets a c
  have hc : c = { l with rxBase := l.rxBase + 1, rxMap := [], rxBuf := [(l.rxBase, hdrChan (sliceNat b 0 8), b)] } := by
    simp only [c, a, hm, hb]
    exact advanceBase_next _ _ rfl
  rw [missing_nil (congrArg Link.rxMap hc), hc]
  rfl

/-- The next flit in order, a packet by itself, is delivered. -/
theorem takeData_next (hn : spanOf n = none) (hm : (s.link n).rxMap = []) (hb : (s.link n).rxBuf = []) (h : hdrFidx (sliceNat b 0 8) = 0)
    (h' : hdrFlast (sliceNat b 0 8) = 0) : (takeData s n (s.link n).rxBase b).receiving n =
      ({ (s.link n).buffers b with rxBuf := [] }.delivers (hdrChan (sliceNat b 0 8)) [b.drop 8]).sansSending := by
  have hl : (s.updLink n (fun l => l.takes (s.link n).rxBase b)).link n = (s.link n).buffers b :=
    (link_updLink_same ..).trans (takes_next hm hb)
  rw [takeData_new hn (by simp [hm])]
  exact deliverAll_buffers hn _ hl h h'

theorem flitReceive_next {f : List Byte} (hn : spanOf n = none) (h : (s.link n).up = true) (h' : (s.link n).training = false) (hl : f.length = 128)
    (hd : rsDecode (f.map BitVec.toNat) = some (f.map BitVec.toNat)) (hc : crc32c (f.take 112) = BitVec.ofNat 32 (sliceNat f 112 4))
    (hh : flitHeaderOk s n (sliceNat f 0 8) = true) (hk : hdrKind (sliceNat f 0 8) = 0) (ha : (sliceNat f 0 8).testBit 52 = false)
    (hs : hdrSeq (sliceNat f 0 8) = (s.link n).rxBase % 4096) (hi : hdrFidx (sliceNat f 0 8) = 0) (hj : hdrFlast (sliceNat f 0 8) = 0)
    (hm : (s.link n).rxMap = []) (hb : (s.link n).rxBuf = []) :
    ∃ u, exec (.flitReceive n f) s = .next u ∧ (u.link n).rxBase = (s.link n).rxBase + 1 ∧ (u.link n).rxMap = [] ∧ (u.link n).rxBuf = [] ∧
      (u.link n).delivered = (hdrChan (sliceNat f 0 8), [(f.take 112).drop 8]) :: (s.link n).delivered ∧ (u.link n).bad = (s.link n).bad := by
  generalize ht : flitCounted s n (sliceNat f 0 8) = t
  have hw : t.link n = s.link n := ht ▸ link_of_wiring (flitCounted_wiring ..) n
  have e : exec (.flitReceive n f) s = .next (takeData t n (s.link n).rxBase (f.take 112)) := by
    rw [flitReceive_good h h' hl hd, ht, takeCorrected_data hn hc ((flitHeaderOk_inner hn _).trans hh) hk ha (by rw [hs, hw]), hw]
  have hr := takeData_next (s := t) (b := f.take 112) hn (by rw [hw, hm]) (by rw [hw, hb]) (by rw [sliceNat_take, hi]) (by rw [sliceNat_take, hj])
  rw [sliceNat_take, hw] at hr
  exact ⟨_, e, (congrArg Link.rxBase hr :), (congrArg Link.rxMap hr :), (congrArg Link.rxBuf hr :), (congrArg Link.delivered hr :),
    (congrArg Link.bad hr :)⟩

/-- Links that retrain, fail, are repaired and repeat, span ports that go down and return, and flits that are received. -/
theorem linkEvents : Says.LinkEvents := by
  intro s n l
  refine ⟨linkRetrain_ready, linkRetrain_not_ready, retrainingComplete_empty, retrainingComplete_idle, linkFailed_live, linkFailed_failed,
    fun m k => ⟨fun h h' => ⟨laneRepair_starts h h', laneRepair_waits h h', laneRepair_retires h h'⟩, laneRepair_skips, laneRepairComplete_link s n m⟩,
    fun p k h => ⟨spanLaneFailure_four h, spanLaneFailure_down h, spanPortReturn_trains h⟩,
    fun e r hr => ⟨repeatTimeout_repeats hr, repeatTimeout_early hr⟩, flitReceive_out_of_service,
    fun f hn h h' hl => ⟨flitReceive_bad h h' hl, flitReceive_next hn h h' hl⟩⟩

end Sys2Proof.Machine
end

section
/-! PROOFS. The keys of span ports: agreement, rollover, retirement, and authentication that fails (O50: R43 to R46). -/

namespace Sys2Proof.Machine
open Sys2Proof

/-! Key slots. -/

theorem slotAt_set_same (v : Vector KeySlot 2) {i : Nat} (k : KeySlot) (h : i < 2) : slotAt (v.setIfInBounds i k) i = k := by
  simp [slotAt, h]

theorem slotAt_set_other (v : Vector KeySlot 2) {i j : Nat} (k : KeySlot) (h : j ≠ i) : slotAt (v.setIfInBounds i k) j = slotAt v j := by
  simp [slotAt, Ne.symm h]

theorem emptyKeySlot_spec {v : Vector KeySlot 2} {i : Nat} (h : emptyKeySlot v = some i) : i < 2 ∧ (slotAt v i).state = .empty := by
  have hm : i ∈ [0, 1] := List.mem_of_find?_eq_some h
  have hs : ((slotAt v i).state == .empty) = true := List.find?_some (p := fun i => (slotAt v i).state == .empty) h
  refine ⟨?_, by simpa using hs⟩
  simp only [List.mem_cons, List.not_mem_nil, or_false] at hm
  omega

/-- A slot within bounds is among those of its direction. -/
theorem mem_slots {v : Vector KeySlot 2} {k : KeySlot} (h : k ∈ v.toList) : ∃ i, i < 2 ∧ slotAt v i = k := by
  obtain ⟨i, hi, rfl⟩ := List.getElem_of_mem h
  have hi' : i < 2 := by simpa using hi
  exact ⟨i, hi', by simp [slotAt, hi']⟩

theorem sealing_of_live {x : Span} (h : (slotAt x.tx x.cur).state = .live) : x.sealing = some (slotAt x.tx x.cur) := if_pos h

/-! A key installed (R43, R44). -/

variable {s : State} {p i j m : Nat} {peer : List Byte} {key kt kr : BitVec 128} {salt st sr : Word}

/-- The span with a key in receive slot i. -/
def Span.installRx (x : Span) (i : Nat) (key : BitVec 128) (salt : Word) : Span :=
  { x with rx := x.rx.setIfInBounds i ⟨key, salt, 0, none, .live⟩, keyEvent := x.keyEvent &&& ~~~2#16 }

/-- The span with a key in transmit slot i, for the flits from number e on. -/
def Span.installTx (x : Span) (i e : Nat) (key : BitVec 128) (salt : Word) : Span :=
  { x with
    tx := x.tx.setIfInBounds i ⟨key, salt, 0, some e, .live⟩, cur := i, acked := false
    keyEvent := (x.keyEvent &&& 2#16) ||| BitVec.ofNat 16 (1 + 8 * i + e % 4096 * 16) }

theorem installRx_span (h : p < 16) : (installRx s p i key salt).span p = (s.span p).installRx i key salt := span_updSpan_same _ _ h

theorem installTx_span (h : p < 16) :
    (installTx s p i key salt).span p = (s.span p).installTx i (s.link (320 + p)).txNext key salt := span_updSpan_same _ _ h

theorem installRx_link (s : State) (p i : Nat) (key : BitVec 128) (salt : Word) (n : Nat) : (installRx s p i key salt).link n = s.link n :=
  link_updSpan ..

theorem installTx_link (s : State) (p i : Nat) (key : BitVec 128) (salt : Word) (n : Nat) : (installTx s p i key salt).link n = s.link n :=
  link_updSpan ..

theorem updSpan_mem (s : State) (p : Nat) (f : Span → Span) : (s.updSpan p f).mem = s.mem := rfl

theorem installRx_mem (s : State) (p i : Nat) (key : BitVec 128) (salt : Word) : (installRx s p i key salt).mem = s.mem := updSpan_mem ..

theorem installTx_mem (s : State) (p i : Nat) (key : BitVec 128) (salt : Word) : (installTx s p i key salt).mem = s.mem := updSpan_mem ..

/-- The switch notice goes out, and nothing behind it. -/
theorem announceKey_idle (h : (s.link (320 + p)).queue = []) : announceKey s p = sendControl s (320 + p) :=
  pumpLink_idle (by rw [link_of_wiring (sendControl_wiring ..), h])

theorem announceKey_span (h : (s.link (320 + p)).queue = []) : (announceKey s p).span p = s.span p := by
  rw [announceKey_idle h, span_of_wiring (sendControl_wiring ..)]

theorem announceKey_mem (s : State) (p : Nat) : (announceKey s p).mem = s.mem :=
  (mem_of_sansLinks (pumpLink_sansLinks ..)).trans (sendControl_mem ..)

theorem send_mem (s : State) (m : OutMsg) : (s.send m).mem = s.mem := rfl

/-! The first key (R43). -/

/-- No slot of a port holds a key. -/
def Span.keyless (x : Span) : Prop := ∀ i, i < 2 → (slotAt x.tx i).state = .empty ∧ (slotAt x.rx i).state = .empty

theorem keyless_slots (h : (s.span p).keyless) :
    ((s.span p).tx.toList ++ (s.span p).rx.toList).any (fun k => k.state != .empty) = false := by
  refine List.any_eq_false.2 (fun k hk => ?_)
  rcases List.mem_append.1 hk with hk | hk
  all_goals
    obtain ⟨i, hi, rfl⟩ := mem_slots hk
    simp [h i hi]

/-- The state in which the first keys stand in slots 0 and the peer's binding is known. -/
def firstKeyed (s : State) (p m : Nat) (kt kr : BitVec 128) (st sr : Word) : State :=
  installTx (installRx (s.updSpan p (fun x => { x with peerPart := m })) p 0 kr sr) p 0 kt st

theorem keyAgreement_first (hp : p < 16) (hd : s.sdUp = true) (hu : (s.link (320 + p)).up = true) (he : (s.span p).keyless)
    (hk : Config.keyAgreement peer p = some (kt, kr, st, sr)) :
    exec (.keyAgreement p peer m) s = .next ((announceKey (firstKeyed s p m kt kr st sr) p).send (.status "key agreement" 0)) := by
  refine congrArg Host.Outcome.next ((if_neg (by simp [hd, hu]; omega)).trans ?_)
  dsimp only
  rw [keyless_slots he, hk]
  rfl

theorem keyAgreement_none (hp : p < 16) (hd : s.sdUp = true) (hu : (s.link (320 + p)).up = true) (he : (s.span p).keyless)
    (hk : Config.keyAgreement peer p = none) :
    exec (.keyAgreement p peer m) s = .next ((s.log "key agreement" p).send (.status "key agreement" 1)) := by
  refine congrArg Host.Outcome.next ((if_neg (by simp [hd, hu]; omega)).trans ?_)
  dsimp only
  rw [keyless_slots he, hk]
  rfl

theorem firstKeyed_span (h : p < 16) : (firstKeyed s p m kt kr st sr).span p =
    (({ s.span p with peerPart := m }).installRx 0 kr sr).installTx 0 (s.link (320 + p)).txNext kt st := by
  rw [firstKeyed, installTx_span h, installRx_span h, span_updSpan_same _ _ h, installRx_link, link_updSpan]

theorem firstKeyed_mem (s : State) (p m : Nat) (kt kr : BitVec 128) (st sr : Word) : (firstKeyed s p m kt kr st sr).mem = s.mem := by
  rw [firstKeyed, installTx_mem, installRx_mem, updSpan_mem]

theorem firstKeyed_link (s : State) (p m : Nat) (kt kr : BitVec 128) (st sr : Word) (n : Nat) :
    (firstKeyed s p m kt kr st sr).link n = s.link n := by
  rw [firstKeyed, installTx_link, installRx_link, link_updSpan]

theorem keyAgreement_installs (hp : p < 16) (hq : (s.link (320 + p)).queue = [])
    (hd : s.sdUp = true) (hu : (s.link (320 + p)).up = true) (he : (s.span p).keyless)
    (hk : Config.keyAgreement peer p = some (kt, kr, st, sr)) :
    ∃ u w, exec (.keyAgreement p peer m) s = .next u ∧ s.sameMem u ∧
      slotAt (u.span p).tx 0 = ⟨kt, st, 0, some (s.link (320 + p)).txNext, .live⟩ ∧ slotAt (u.span p).rx 0 = ⟨kr, sr, 0, none, .live⟩ ∧
      (u.span p).cur = 0 ∧ (u.span p).peerPart = m ∧ .status w 0 ∈ u.out := by
  refine ⟨_, "key agreement", keyAgreement_first hp hd hu he hk, sameMem_of_mem ((send_mem ..).trans <| (announceKey_mem ..).trans (firstKeyed_mem ..)), ?_⟩
  rw [send_span, announceKey_span (by rw [firstKeyed_link, hq]), firstKeyed_span hp]
  exact ⟨slotAt_set_same _ _ (by decide), slotAt_set_same _ _ (by decide), rfl, rfl, List.mem_cons_self⟩

/-! Rollover (R44). -/

/-- The state in which the next keys are installed and the old transmit slot retires. -/
def rolled (s : State) (p i j : Nat) (kt kr : BitVec 128) (st sr : Word) : State :=
  installTx ((installRx { s with free := s.free + 1 } p i kr sr).updSpan p
    (fun x => { x with tx := x.tx.setIfInBounds x.cur { slotAt x.tx x.cur with state := .retiring } })) p j kt st

theorem keyRollover_rolls (hp : p < 16) (hd : s.sdUp = true)
    (hl : (slotAt (s.span p).tx (s.span p).cur).state = .live) (hi : emptyKeySlot (s.span p).rx = some i) (hj : emptyKeySlot (s.span p).tx = some j)
    (hk : Config.rolloverKeys p s.free = (kt, kr, st, sr)) :
    exec (.keyRollover p) s = .next ((announceKey (rolled s p i j kt kr st sr) p).send (.status "key rollover" 0)) := by
  refine congrArg Host.Outcome.next ((if_neg (by simp [hd, sealing_of_live hl]; omega)).trans ?_)
  dsimp only
  rw [hi, hj]
  dsimp only
  rw [hk]
  rfl

theorem keyRollover_busy (hp : p < 16) (hd : s.sdUp = true) (hl : (slotAt (s.span p).tx (s.span p).cur).state = .live)
    (h : emptyKeySlot (s.span p).rx = none ∨ emptyKeySlot (s.span p).tx = none) :
    ∃ w, exec (.keyRollover p) s = .next { s with out := .status w 2 :: s.out } := by
  refine ⟨"key rollover", congrArg Host.Outcome.next ((if_neg (by simp [hd, sealing_of_live hl]; omega)).trans ?_)⟩
  dsimp only
  split
  · next hi hj => simp [hi, hj] at h
  · rfl

theorem rolled_span (h : p < 16) : (rolled s p i j kt kr st sr).span p =
    { (s.span p).installRx i kr sr with
      tx := (s.span p).tx.setIfInBounds (s.span p).cur { slotAt (s.span p).tx (s.span p).cur with state := .retiring } }.installTx j
        (s.link (320 + p)).txNext kt st := by
  rw [rolled, installTx_span h, span_updSpan_same _ _ h, installRx_span h, link_updSpan, installRx_link]
  rfl

theorem rolled_mem (s : State) (p i j : Nat) (kt kr : BitVec 128) (st sr : Word) : (rolled s p i j kt kr st sr).mem = s.mem := by
  rw [rolled, installTx_mem, updSpan_mem, installRx_mem]

theorem rolled_link (s : State) (p i j : Nat) (kt kr : BitVec 128) (st sr : Word) (n : Nat) : (rolled s p i j kt kr st sr).link n = s.link n := by
  rw [rolled, installTx_link, link_updSpan, installRx_link]
  rfl

theorem keyRollover_installs (hp : p < 16) (hq : (s.link (320 + p)).queue = []) (hd : s.sdUp = true)
    (hc : (s.span p).cur < 2) (hl : (slotAt (s.span p).tx (s.span p).cur).state = .live) (hi : emptyKeySlot (s.span p).rx = some i)
    (hj : emptyKeySlot (s.span p).tx = some j) (hk : Config.rolloverKeys p s.free = (kt, kr, st, sr)) :
    ∃ u, exec (.keyRollover p) s = .next u ∧ s.sameMem u ∧ slotAt (u.span p).tx j = ⟨kt, st, 0, some (s.link (320 + p)).txNext, .live⟩ ∧
      slotAt (u.span p).rx i = ⟨kr, sr, 0, none, .live⟩ ∧ (u.span p).cur = j ∧ (slotAt (u.span p).tx (s.span p).cur).state = .retiring := by
  obtain ⟨hi2, -⟩ := emptyKeySlot_spec hi
  obtain ⟨hj2, hje⟩ := emptyKeySlot_spec hj
  have hne : (s.span p).cur ≠ j := by
    rintro rfl
    rw [hl] at hje
    cases hje
  refine ⟨_, keyRollover_rolls hp hd hl hi hj hk, sameMem_of_mem ((send_mem ..).trans <| (announceKey_mem ..).trans (rolled_mem ..)), ?_⟩
  rw [send_span, announceKey_span (by rw [rolled_link, hq]), rolled_span hp]
  refine ⟨slotAt_set_same _ _ hj2, slotAt_set_same _ _ hi2, rfl, ?_⟩
  exact congrArg KeySlot.state ((slotAt_set_other _ _ hne).trans (slotAt_set_same _ _ hc))

theorem keyUseLimit_reached (hl : (slotAt (s.span p).tx (s.span p).cur).state = .live) (h : 2 ^ 36 ≤ (slotAt (s.span p).tx (s.span p).cur).used) :
    exec (.keyUseLimit p) s = .next { s with agenda := s.agenda ++ [.keyRollover p] } := by
  refine congrArg Host.Outcome.next ?_
  rw [sealing_of_live hl]
  exact if_pos h

theorem keyUseLimit_below (hl : (slotAt (s.span p).tx (s.span p).cur).state = .live) (h : (slotAt (s.span p).tx (s.span p).cur).used < 2 ^ 36) :
    exec (.keyUseLimit p) s = .next s := by
  refine congrArg Host.Outcome.next ?_
  rw [sealing_of_live hl]
  exact if_neg (Nat.not_le.2 h)

/-! Retirement (R44). -/

/-- The span whose old transmit slot is emptied. -/
def Span.retireOld (x : Span) : Span :=
  { x with tx := x.tx.setIfInBounds (1 - x.cur) KeySlot.reset, keyEvent := (x.keyEvent &&& 2#16) ||| BitVec.ofNat 16 (4 + 8 * x.cur) }

theorem slotRetire_retires (hp : p < 16) (hc : (s.span p).cur < 2) (h : mayRetire s p = true) :
    ∃ u, exec (.slotRetire p) s = .next u ∧ s.sameMem u ∧ slotAt (u.span p).tx (1 - (s.span p).cur) = KeySlot.reset ∧
      slotAt (u.span p).tx (s.span p).cur = slotAt (s.span p).tx (s.span p).cur := by
  have e : exec (.slotRetire p) s = .next (sendControl (s.updSpan p Span.retireOld) (320 + p)) := congrArg Host.Outcome.next (if_pos ⟨hp, h⟩)
  refine ⟨_, e, sameMem_of_mem (sendControl_mem ..), ?_⟩
  rw [span_of_wiring (sendControl_wiring ..), span_updSpan_same _ _ hp]
  exact ⟨slotAt_set_same _ _ (by omega), slotAt_set_other _ _ (by omega)⟩

theorem slotRetire_waits (h : mayRetire s p = false) : exec (.slotRetire p) s = .next s :=
  congrArg Host.Outcome.next (if_neg (by simp [h]))

/-! Authentication that fails (R43). -/

theorem spanAuthFailure_fourth {q : Nat} (hp : p < 16) (h : 4 ≤ Table.at (s.link (320 + p)).authFail q 0) :
    ∃ u, exec (.spanAuthFailure p q) s = .next u ∧ (u.link (320 + p)).up = false ∧ (u.span p).tx = Vector.replicate 2 KeySlot.reset ∧
      (u.span p).rx = Vector.replicate 2 KeySlot.reset := by
  refine ⟨_, congrArg Host.Outcome.next (if_pos ⟨hp, h⟩), ?_⟩
  rw [log_link, log_span, spanDown_link, if_pos rfl, spanDown_span s hp]
  exact ⟨rfl, rfl, rfl⟩

theorem spanAuthFailure_fewer {q : Nat} (h : Table.at (s.link (320 + p)).authFail q 0 < 4) : exec (.spanAuthFailure p q) s = .next s :=
  congrArg Host.Outcome.next (if_neg (by omega))

/-- Span keys are agreed, roll over and retire, and a port whose flits fail authentication goes down. -/
theorem sealingKeys : Says.SealingKeys := by
  intro s p hp hq x e
  refine ⟨fun peer m kt kr st sr hd hu he => ⟨keyAgreement_installs hp hq hd hu he, fun hk => ?_⟩, fun hd hc hl =>
    ⟨fun i j kt kr st sr hi hj hk => keyRollover_installs hp hq hd hc hl hi hj hk, keyRollover_busy hp hd hl, keyUseLimit_reached hl,
      keyUseLimit_below hl⟩, fun hc => ⟨slotRetire_retires hp hc, slotRetire_waits⟩, fun q => ⟨spanAuthFailure_fourth hp, spanAuthFailure_fewer⟩⟩
  exact ⟨_, _, keyAgreement_none hp hd hu he hk, rfl, List.mem_cons_self⟩

/-- Settles O50: what links do, and the keys of span ports. -/
theorem linkLayer : Obligations.LinkLayer := ⟨linkEvents, sealingKeys⟩

end Sys2Proof.Machine
end

section
/-! PROOFS. Bytes and words of memory that a list of bytes was written to, and the records of a fault queue byte for byte (R68). -/

namespace Sys2Proof.Machine
open Sys2Proof

/-! Words of bytes. -/

/-- A word as its four bytes weigh. -/
theorem memWord_toNat (m : Memory) (k : Nat) :
    (memWord m k).toNat = (memRead m k).toNat + 2 ^ 8 * (memRead m (k + 1)).toNat + 2 ^ 16 * (memRead m (k + 2)).toNat +
      2 ^ 24 * (memRead m (k + 3)).toNat := by
  have h0 := (memRead m k).isLt
  have h1 := (memRead m (k + 1)).isLt
  have h2 := (memRead m (k + 2)).isLt
  simp only [memWord, BitVec.toNat_append]
  rw [← Nat.shiftLeft_add_eq_or_of_lt h2, ← Nat.shiftLeft_add_eq_or_of_lt h1, ← Nat.shiftLeft_add_eq_or_of_lt h0]
  simp only [Nat.shiftLeft_eq]
  omega

/-- The word whose four bytes are those of a number. -/
theorem memWord_of_leBytes {m : Memory} {k v : Nat} {r : List Byte} (h : ∀ j b, (leBytes 4 v ++ r)[j]? = some b → memRead m (k + j) = b) :
    memWord m k = BitVec.ofNat 32 v := by
  have h0 : memRead m k = BitVec.ofNat 8 v := h 0 _ rfl
  have h1 : memRead m (k + 1) = BitVec.ofNat 8 (v / 256) := h 1 _ rfl
  have h2 : memRead m (k + 2) = BitVec.ofNat 8 (v / 256 / 256) := h 2 _ rfl
  have h3 : memRead m (k + 3) = BitVec.ofNat 8 (v / 256 / 256 / 256) := h 3 _ rfl
  refine BitVec.eq_of_toNat_eq ?_
  rw [memWord_toNat, h0, h1, h2, h3]
  simp only [BitVec.toNat_ofNat]
  omega

/-- What was written as a list reads back byte by byte. -/
theorem memRead_writeList_get (l : List Byte) : ∀ (m : Memory) (a j : Nat) (b : Byte), l[j]? = some b →
    memRead (writeList m a l) (a + j) = b := by
  induction l with
  | nil => intro m a j b h; simp at h
  | cons v r ih =>
    intro m a j b h
    cases j with
    | zero =>
      cases h
      exact memRead_writeList_first ..
    | succ j =>
      rw [writeList, show a + (j + 1) = a + 1 + j by omega]
      exact ih _ _ _ _ h

/-! The record of a fault queue. -/

theorem fqAddr_apart {d e n : Nat} (h : d ≠ e) : fqAddr d n + 64 ≤ fqAddr e n ∨ fqAddr e n + 64 ≤ fqAddr d n := by
  have : n % 4096 < 4096 := Nat.mod_lt _ (by omega)
  simp only [fqAddr]
  omega

variable {s : State} {p : Nat} {q : Part} {b : List Byte}

/-- Each byte of a record, with its SEQ, stands at the tail of the queue, mirrored or not. -/
theorem memRead_fqWrite {j : Nat} {v : Byte} (hl : (fqWithSeq b q.fqSeq).length ≤ 64) (h : (fqWithSeq b q.fqSeq)[j]? = some v) :
    memRead (fqWrite s q b).mem (fqAddr q.home q.fqTail.toNat + j) = v := by
  have hj : j < (fqWithSeq b q.fqSeq).length := by
    rw [List.getElem?_eq_some_iff] at h
    exact h.1
  simp only [fqWrite, State.updPart_mem]
  split
  · next d _ =>
    by_cases e : d = q.home
    · rw [e]
      exact memRead_writeList_get _ _ _ _ _ h
    · have := fqAddr_apart (n := q.fqTail.toNat) e
      rw [memRead_writeList_other _ _ _ _ (by omega)]
      exact memRead_writeList_get _ _ _ _ _ h
  · exact memRead_writeList_get _ _ _ _ _ h

/-- A number that a record holds in four bytes or more is a word of memory. -/
theorem memWord_fqWrite {j v : Nat} {r : List Byte} (hl : (fqWithSeq b q.fqSeq).length ≤ 64)
    (h : (fqWithSeq b q.fqSeq).drop j = leBytes 4 v ++ r) :
    memWord (fqWrite s q b).mem (fqAddr q.home q.fqTail.toNat + j) = BitVec.ofNat 32 v := by
  refine memWord_of_leBytes (r := r) (fun i c hc => ?_)
  rw [← h, List.getElem?_drop] at hc
  rw [Nat.add_assoc]
  exact memRead_fqWrite hl hc

/-- Without a mirror nothing else of memory changes. -/
theorem fqWrite_sameMemBut (hl : (fqWithSeq b q.fqSeq).length ≤ 64) (hm : q.mirror = none) :
    s.sameMemBut (fqWrite s q b) (fqAddr q.home q.fqTail.toNat) 64 := by
  intro a ha
  simp only [fqWrite, State.updPart_mem, hm]
  exact memRead_writeList_other _ _ _ _ (by omega)

theorem fqBytes_length (kind cause socket place addr : Nat) (l : List Byte) (seq : Nat) :
    (fqWithSeq (fqBytes kind cause socket place addr l) seq).length ≤ 64 := by
  obtain ⟨r, hr, hl⟩ := fqWithSeq_bytes kind cause socket place addr seq l
  rw [hr]
  exact hl

/-- A record written moves TAIL and SEQ on, and is kept. -/
theorem part?_fqWrite (b : List Byte) (hq : s.part? p = some q) :
    (fqWrite s q b).part? p = some { q with
      fqTail := q.fqTail + 1, fqSeq := q.fqSeq + 1, fq := Table.put q.fq (q.fqTail.toNat % 4096) ⟨fqWithSeq b q.fqSeq⟩ } := by
  have hid : q.id = p := by simpa using List.find?_some hq
  subst hid
  exact part?_updPart_some (s := { s with mem := _ }) (fun _ => rfl) hq

/-- A record of any kind is written at once where the home is up, no record waits and there is space. -/
theorem fqPush_space (w : FqWait) (hq : s.part? p = some q) (hh : s.homeUp q = true) (hw : q.fqWait = []) (hf : q.fqTail - q.fqHead ≠ 4096) :
    fqPush s p b w = fqWrite s q b := by
  have hx : q.fqFull = false := beq_eq_false_iff_ne.2 hf
  simp [fqPush, hq, hh, hx, hw, Part.fqHolds]

end Sys2Proof.Machine
end

section
/-! PROOFS. Causes that park their thread at once, and their THREAD records (O24). -/

namespace Sys2Proof.Machine
open Sys2Proof

/-- A cause that goes by no fault table entry parks its thread with its code and pushes its THREAD record (R416). -/
theorem raise_plain {s : State} {f : FaultRec} (h : ¬ (f.cause = .translation ∨ f.cause = .permission)) :
    ∃ seq len, raise s f = { fqPush s s.th.part (threadRecord s.th f) ⟨threadRecord s.th f, 0, s.th.uid, s.th.stream, s.th.slot⟩ with
      th := { s.th with run := .faulted { f with seq := seq, len := len }, rx := false, parkedAt := s.clk, carried := [] } } := by
  simp only [raise, parkFault, if_neg h]
  exact ⟨_, _, rfl⟩

/-- Byte 30 of a THREAD record is the code of its fault (R416). -/
theorem threadRecord_code (t : Thread) (f : FaultRec) (seq : Nat) : (fqWithSeq (threadRecord t f) seq)[30]? = some (BitVec.ofNat 8 f.code) := by
  simp [fqWithSeq, threadRecord, fqBytes, threadDetail, leBytes]

/-- Where the queue has space and no mirror, a plain cause writes one THREAD record at its tail (R68, R416). -/
theorem raise_records {s : State} {f : FaultRec} {q : Part} (h : ¬ (f.cause = .translation ∨ f.cause = .permission))
    (hq : s.part? s.th.part = some q) (hh : s.homeUp q = true) (hw : q.fqWait = []) (hf : q.fqTail - q.fqHead ≠ 4096) (hm : q.mirror = none) :
    ∃ v, (raise s f).part? s.th.part = some v ∧ v.fqTail = q.fqTail + 1 ∧ v.fqSeq = q.fqSeq + 1 ∧ v.fqHead = q.fqHead ∧
      let k := fqAddr q.home q.fqTail.toNat
      let m := (raise s f).mem
      s.sameMemBut (raise s f) k 64 ∧ memRead m k = 1 ∧ memRead m (k + 1) = BitVec.ofNat 8 f.cause.code ∧
        memRead m (k + 2) = BitVec.ofNat 8 s.th.die ∧ memWord m (k + 4) = s.th.placeWord ∧
        memWord m (k + 16) = BitVec.ofNat 32 q.fqSeq ∧ memWord m (k + 24) = s.th.pc ∧ memRead m (k + 30) = BitVec.ofNat 8 f.code := by
  have hl : (fqWithSeq (threadRecord s.th f) q.fqSeq).length ≤ 64 := fqBytes_length ..
  have e : ∃ t, raise s f = (fqWrite s q (threadRecord s.th f)).put t := by
    obtain ⟨seq, len, e⟩ := raise_plain h
    rw [e, fqPush_space _ hq hh hw hf]
    exact ⟨_, rfl⟩
  obtain ⟨t, e⟩ := e
  have hu : (raise s f).mem = (fqWrite s q (threadRecord s.th f)).mem := by rw [e, State.put_mem]
  simp only [State.sameMemBut, hu]
  refine ⟨_, (congrArg (State.part? · _) e).trans (part?_fqWrite _ hq), rfl, rfl, rfl, fqWrite_sameMemBut hl hm, fqWrite_mem ..,
    memRead_fqWrite hl rfl, memRead_fqWrite hl rfl, (memWord_fqWrite (v := s.th.placeWord.toNat) hl rfl).trans (BitVec.ofNat_toNat ..),
    memWord_fqWrite hl rfl, (memWord_fqWrite (v := s.th.pc.toNat) hl rfl).trans (BitVec.ofNat_toNat ..), memRead_fqWrite hl (threadRecord_code ..)⟩

/-- The four instructions raise their causes at once, with their codes, of a thread that has shed no more than its rx code (R275, R276,
R317, R409). -/
theorem cause_raised {s : State} {n : BitVec 7} {b : BitVec 5} {i : Instr} {c : Cause} {code : Nat}
    (h : (i, c, code) ∈ [(Instr.trap n, Cause.trap, n.toNat), (.brk b, .breakpoint, b.toNat), (.illegalInstruction, .illegal, 0),
      (.zeroParcel, .zeroParcel, 0)]) :
    ∃ rx f, exec i s = .next (raise (s.put { s.th with rx := rx }) f) ∧ f.cause = c ∧ f.code = code ∧
      ¬ (f.cause = .translation ∨ f.cause = .permission) := by
  simp only [List.mem_cons, Prod.mk.injEq, List.not_mem_nil, or_false] at h
  rcases h with ⟨rfl, rfl, rfl⟩ | ⟨rfl, rfl, rfl⟩ | ⟨rfl, rfl, rfl⟩ | ⟨rfl, rfl, rfl⟩
  · exact ⟨s.th.rx, { faultOf .trap 2 with code := n.toNat }, rfl, rfl, rfl, by simp [faultOf]⟩
  · exact ⟨s.th.rx, { faultOf .breakpoint 1 with code := b.toNat }, rfl, rfl, rfl, by simp [faultOf]⟩
  · exact ⟨false, faultOf .illegal 0, rfl, rfl, rfl, by simp [faultOf]⟩
  · exact ⟨false, faultOf .zeroParcel 1, rfl, rfl, rfl, by simp [faultOf]⟩

/-- Settles O24: each cause is raised at once; the thread parks with its context, and its record stands at the tail. -/
theorem causesTaken : Obligations.CausesTaken := by
  intro s n b i c code h
  obtain ⟨rx, f, e, rfl, rfl, hf⟩ := cause_raised (s := s) h
  refine ⟨?_, ?_, fun q hq hh hw hs hm => ?_⟩
  · obtain ⟨g, h1, h2, _, _, h5, h6, h7, h8, h9, h10⟩ := parkFault_thread (s.put { s.th with rx := rx }) { s.th with rx := rx } f
    exact ⟨_, g, e, h1, h2, h5, h6, h7, h8, h9, h10⟩
  · obtain ⟨seq, len, e'⟩ := raise_plain (s := s.put { s.th with rx := rx }) hf
    exact ⟨_, _, e.trans (congrArg Host.Outcome.next e'), rfl, rfl⟩
  · obtain ⟨v, hv, h1, h2, h3, h4⟩ := raise_records (s := s.put { s.th with rx := rx }) hf hq hh hw hs hm
    exact ⟨_, v, e, hv, h1, h2, h3, h4⟩

end Sys2Proof.Machine
end

section
/-! PROOFS. Timeline counters: a counter of a partition whose streams hold no record (O28). -/

namespace Sys2Proof.Machine
open Sys2Proof

/-! Records that do not change by themselves. -/

/-- No stream of the partition holds a record or a completion. -/
def Part.idle (q : Part) : Prop := ∀ e ∈ q.streams, e.2.recs = [] ∧ e.2.held = []

variable {s : State} {p : Nat} {q : Part}

theorem recStep_idle (hq : s.part? p = some q) (h : q.idle) : recStep s p = none := by
  rw [recStep, hq, Option.bind_some]
  split
  · rfl
  · rw [List.findSome?_eq_none_iff]
    intro e he
    obtain ⟨hr, hh⟩ := h e he
    simp [Stream.nextHeld, hr, hh]

theorem offers_idle (h : q.idle) : q.offers = false := by
  rw [Part.offers, List.any_eq_false]
  intro e he
  simp [(h e he).1]

/-- Where no stream holds a record there is nothing to settle. -/
theorem settleRecs_idle (hq : s.part? p = some q) (h : q.idle) : settleRecs s p = s := by
  have hg (n : Nat) : settleGo p n s = s := by
    cases n with
    | zero => rfl
    | succ n => rw [settleGo, recStep_idle hq h]
  rw [settleRecs]
  simp [hg, hq, offers_idle h]

/-! Notes in the fault queue, seen from the partition and the thread. -/

theorem fqNote_th (s : State) (p : Nat) (b : List Byte) : (fqNote s p b).th = s.th := (congrArg State.th (fqNote_sansQueues s p b) :)

/-- A note changes nothing of a partition but its fault queue. -/
theorem fqNote_part? (b : List Byte) (hq : s.part? p = some q) : ∃ x, (fqNote s p b).part? p = some x ∧ x.sansQueue = q.sansQueue := by
  have h := part?_sansQueue (congrArg State.parts (fqNote_sansQueues s p b) :) p
  rw [hq] at h
  exact Option.map_eq_some_iff.1 h

/-! The operation (R67). -/

/-- A counter after an operation: a sum stays at 2^64 - 1, and a set does not fall. -/
def counted (add : Bool) (c v : DWord) : DWord :=
  if add then BitVec.ofNat 64 (min (c.toNat + v.toNat) (2 ^ 64 - 1)) else BitVec.ofNat 64 (max c.toNat v.toNat)

theorem counted_over {c v : DWord} (h : 2 ^ 64 ≤ c.toNat + v.toNat) : counted true c v = BitVec.allOnes 64 := by
  refine BitVec.eq_of_toNat_eq ?_
  simp only [counted, if_true, BitVec.toNat_ofNat, BitVec.toNat_allOnes]
  omega

theorem counted_sum {c v : DWord} (h : ¬ 2 ^ 64 ≤ c.toNat + v.toNat) : counted true c v = c + v := by
  refine BitVec.eq_of_toNat_eq ?_
  simp only [counted, if_true, BitVec.toNat_ofNat, BitVec.toNat_add]
  omega

theorem counted_less {c v : DWord} (h : v.ult c = true) : counted false c v = c := by
  have h : v.toNat < c.toNat := by simpa [BitVec.ult] using h
  refine BitVec.eq_of_toNat_eq ?_
  simp only [counted, Bool.false_eq_true, if_false, BitVec.toNat_ofNat]
  omega

theorem counted_set {c v : DWord} (h : ¬ v.ult c = true) : counted false c v = v := by
  have h : c.toNat ≤ v.toNat := by simpa [BitVec.ult] using h
  refine BitVec.eq_of_toNat_eq ?_
  simp only [counted, Bool.false_eq_true, if_false, BitVec.toNat_ofNat]
  omega

/-- Partition p of u is q, but for its fault queue and counter k, which holds w. -/
def hasCounted (p : Nat) (q : Part) (u : State) (k : Nat) (w : DWord) : Prop :=
  ∃ x, u.part? p = some x ∧ x.streams = q.streams ∧ Table.at x.ctrs k 0 = w ∧ ∀ j, j ≠ k → Table.at x.ctrs j 0 = Table.at q.ctrs j 0

theorem hasCounted_put (hq : s.part? p = some q) (k : Nat) (w : DWord) :
    hasCounted p q (s.updPart p (fun q => { q with ctrs := Table.put q.ctrs k w })) k w :=
  ⟨_, part?_updPart_some (fun _ => rfl) hq, rfl, at_put .., fun _ hj => at_put_other _ _ _ hj⟩

theorem hasCounted.note {u : State} {k : Nat} {w : DWord} (b : List Byte) (h : hasCounted p q u k w) : hasCounted p q (fqNote u p b) k w := by
  obtain ⟨x, hx, hs, hk, ho⟩ := h
  obtain ⟨y, hy, e⟩ := fqNote_part? b hx
  have es : y.streams = x.streams := (congrArg Part.streams e :)
  have ec : y.ctrs = x.ctrs := (congrArg Part.ctrs e :)
  exact ⟨y, hy, es.trans hs, ec ▸ hk, ec ▸ ho⟩

theorem ctrDo_counts (hq : s.part? p = some q) (add : Bool) (k : Nat) (v : DWord) :
    hasCounted p q (ctrDo s p add k v) k (counted add (q.ctr k) v) := by
  rw [ctrDo, hq]
  dsimp only
  split
  · next ha =>
    subst ha
    split
    · next h =>
      rw [counted_over (v := v) h]
      exact (hasCounted_put hq ..).note _
    · next h =>
      rw [counted_sum (v := v) h]
      exact hasCounted_put hq ..
  · next ha =>
    obtain rfl : add = false := by simpa using ha
    split
    · next h =>
      rw [counted_less (v := v) h]
      exact hasCounted.note _ ⟨q, hq, rfl, rfl, fun _ _ => rfl⟩
    · next h =>
      rw [counted_set (v := v) h]
      exact hasCounted_put hq ..

theorem ctrDo_th (s : State) (p : Nat) (add : Bool) (k : Nat) (v : DWord) : (ctrDo s p add k v).th = s.th := by
  unfold ctrDo
  dsimp only
  split
  · rfl
  · exact ite_keeps (ite_keeps (fqNote_th ..) rfl) (ite_keeps (fqNote_th ..) rfl)

/-- At a home that is up, with no record to test again, the operation is all that happens. -/
theorem ctrOp_idle (hq : s.part? p = some q) (hh : s.homeUp q = true) (h : q.idle) (add : Bool) (k : Nat) (v : DWord) :
    ctrOp s p add k v = ctrDo s p add k v := by
  obtain ⟨x, hx, hs, -, -⟩ := ctrDo_counts hq add k v
  have hi : x.idle := by rwa [Part.idle, hs]
  rw [ctrOp, hq]
  simp only [hh, if_true]
  exact settleRecs_idle hx hi

/-! The instructions (R412). -/

/-- An instruction that writes no register ends: its context is framed, and the PC is past it. -/
theorem finish_clearArms (s : State) {a b : Code} {ovr : List Nat} (d : ovr.Nodup) (l : ∀ n ∈ ovr, n < 4) (len n : Nat) :
    let t := (finish s (clearArms s.th ovr) [a, b] [] len n).th
    s.th.frame t [] [] [a, b] [] ovr ∧ t.run = .ready ∧ t.pc = s.th.pc + s.th.parcels len := by
  obtain ⟨-, -, hrx, hpc, -⟩ := Thread.alike_trans (clearArms_alike s.th ovr) (advances_alike _ (usedIdx s.th [a, b] []))
  refine ⟨frame_done (frame_clearArms d l) s.clk len n, rfl, ?_⟩
  show (advances (clearArms s.th ovr) _).pc + _ = _
  rw [Thread.parcels, hpc, hrx]

/-- tlsig and tlsig.set of a swarm thread with nothing outstanding, on a counter that exists. -/
theorem signalCounter_eq {a b : Code} {na nb : Nat} (fr : s.th.free [1]) (ha : s.th.at1 1 a na) (hb : s.th.at2 2 b nb)
    (hu : s.undone s.th.uid = false) (hk : (s.src s.th 1 na).toNat < 4096) (hw : s.th.isWave = false) (add : Bool) :
    ∃ n, signalCounter add a b s =
      ctrOp (finish s (clearArms s.th [1]) [a, b] [] 2 n) s.th.part add (s.src s.th 1 na).toNat (s.th.rd2 nb) := by
  rw [signalCounter, ops2_ok fr ha hb]
  simp only [if_neg (Nat.not_le.2 hk), hu, Bool.false_eq_true, if_false, releasePart, hw]
  exact ⟨_, rfl⟩

/-- On a counter that does not exist they are the window fault. -/
theorem signalCounter_traps {i : Instr} {a b : Code} {na nb : Nat} {add : Bool} (e : exec i s = .next (signalCounter add a b s))
    (fr : s.th.free [1]) (ha : s.th.at1 1 a na) (hb : s.th.at2 2 b nb) (hk : 4096 ≤ (s.src s.th 1 na).toNat) : s.traps i .window := by
  rw [signalCounter, ops2_ok fr ha hb] at e
  simp only [if_pos hk] at e
  exact raise_traps e

/-- Settles O28: what an operation leaves, by the host and by an instruction. -/
theorem timelineCounters : Obligations.TimelineCounters := by
  intro s a b na nb q hq hh hi p result added placed
  have counts {u : State} {k : Nat} {w : DWord} (h : hasCounted p q u k w) : result u k w := by
    obtain ⟨x, hx, -, hk, ho⟩ := h
    exact ⟨x, hx, hk, ho⟩
  refine ⟨fun k v hk hr => ?_, fun fr ha hb hu => ?_⟩
  · have host (add : Bool) : inFunction s p (ctrOp s p add (k % 4096) v) = ctrDo s p add k v := by
      rw [inFunction, hq]
      simp only [hr, if_true, Nat.mod_eq_of_lt hk]
      exact ctrOp_idle hq hh hi add k v
    exact ⟨⟨_, congrArg Host.Outcome.next (host true), counts (ctrDo_counts hq true k v)⟩,
      ⟨_, congrArg Host.Outcome.next (host false), counts (ctrDo_counts hq false k v)⟩⟩
  · refine ⟨fun hk hw => ?_, fun hk => ⟨signalCounter_traps (add := true) rfl fr ha hb hk, signalCounter_traps (add := false) rfl fr ha hb hk⟩⟩
    have signals (add : Bool) : ∃ u, signalCounter add a b s = u ∧
        (s.th.frame u.th [] [] [a, b] [] [1] ∧ u.th.run = .ready ∧ u.th.pc = s.th.pc + s.th.parcels 2) ∧
        hasCounted p q u (s.src s.th 1 na).toNat (counted add (q.ctr (s.src s.th 1 na).toNat) (s.th.rd2 nb)) := by
      obtain ⟨n, e⟩ := signalCounter_eq fr ha hb hu hk hw add
      rw [ctrOp_idle (s := finish ..) (q := q) hq hh hi] at e
      refine ⟨_, e, ?_, ctrDo_counts (s := finish ..) hq ..⟩
      rw [ctrDo_th]
      exact finish_clearArms s (by decide) (by decide) 2 n
    obtain ⟨u, hu, hf, hc⟩ := signals true
    obtain ⟨w, hw, hg, hd⟩ := signals false
    exact ⟨⟨u, congrArg Host.Outcome.next hu, hf, counts hc⟩, ⟨w, congrArg Host.Outcome.next hw, hg, counts hd⟩⟩

end Sys2Proof.Machine
end

section
/-! PROOFS. Words of memory read and written at their homes. -/

namespace Sys2Proof.Machine
open Sys2Proof

/-! Words. -/

theorem readList_length (m : Memory) (a n : Nat) : (readList m a n).length = n := by
  induction n generalizing a with
  | zero => rfl
  | succ n ih => simp [readList, ih]

/-- Bytes read together weigh as they stand, lowest first (R3). -/
theorem readBytes_toNat (m : Memory) (a n : Nat) (h : n ≤ 16) : (readBytes m a n).toNat = leNat (readList m a n) := by
  induction n generalizing a with
  | zero => rfl
  | succ n ih =>
    have hr := ih (a + 1) (by omega)
    have hl : leNat (readList m (a + 1) n) < 2 ^ 120 := by
      refine Nat.lt_of_lt_of_le (leNat_lt _) ?_
      rw [readList_length, show (256 : Nat) = 2 ^ 8 by rfl, ← Nat.pow_mul]
      exact Nat.pow_le_pow_right (by decide) (by omega)
    have hb := (memRead m a).isLt
    have hs : (readBytes m (a + 1) n <<< 8).toNat = (readBytes m (a + 1) n).toNat <<< 8 := by
      rw [BitVec.toNat_shiftLeft, Nat.mod_eq_of_lt]
      rw [Nat.shiftLeft_eq]
      omega
    rw [readBytes, BitVec.toNat_or, hs, BitVec.toNat_setWidth, Nat.mod_eq_of_lt (by omega), ← Nat.shiftLeft_add_eq_or_of_lt hb,
      Nat.shiftLeft_eq, hr, readList, leNat]
    omega

/-- Four bytes read together are the word there. -/
theorem readBytes_word (m : Memory) (k : Nat) : (readBytes m k 4).toNat = (memWord m k).toNat := by
  rw [readBytes_toNat m k 4 (by decide), memWord_toNat]
  simp only [readList, leNat, Nat.add_assoc, Nat.reduceAdd]
  omega

theorem readBytes_setWidth (m : Memory) (k : Nat) : (readBytes m k 4).setWidth 32 = memWord m k := by
  refine BitVec.eq_of_toNat_eq ?_
  rw [BitVec.toNat_setWidth, readBytes_word, Nat.mod_eq_of_lt (memWord m k).isLt]

/-- Four bytes written together read back as the word that they are. -/
theorem memWord_writeBytes (m : Memory) (k : Nat) (v : BitVec 128) : memWord (writeBytes m k 4 v) k = v.setWidth 32 := by
  have h (j : Nat) (hj : j < 4) : (memRead (writeBytes m k 4 v) (k + j)).toNat = v.toNat / 2 ^ (8 * j) % 2 ^ 8 := by
    rw [memRead_writeBytes 4 m k j v hj, BitVec.toNat_setWidth, BitVec.toNat_ushiftRight, Nat.shiftRight_eq_div_pow]
  have h0 : (memRead (writeBytes m k 4 v) k).toNat = v.toNat / 2 ^ (8 * 0) % 2 ^ 8 := h 0 (by decide)
  refine BitVec.eq_of_toNat_eq ?_
  rw [memWord_toNat, h0, h 1 (by decide), h 2 (by decide), h 3 (by decide), BitVec.toNat_setWidth]
  omega

theorem memWord_writeBytes_other {m : Memory} {a k n : Nat} (v : BitVec 128) (h : k + 4 ≤ a ∨ a + n ≤ k) :
    memWord (writeBytes m a n v) k = memWord m k := by
  simp only [memWord]
  rw [memRead_writeBytes_other n m a _ v (by omega), memRead_writeBytes_other n m a _ v (by omega),
    memRead_writeBytes_other n m a _ v (by omega), memRead_writeBytes_other n m a _ v (by omega)]

/-! Keys of memory. -/

/-- Bytes of one aligned run lie in the same window of the same socket. -/
theorem memKey_add {k j : Nat} (h : memKey k) (hk : k % 64 + j < 64) : memKey (k + j) := by
  obtain ⟨hc, hr⟩ := h
  have hs : socketOf (k + j) = socketOf k := by
    simp only [socketOf]
    omega
  refine ⟨?_, ?_⟩
  · simp only [isCtl, hs, Bool.and_eq_false_iff, decide_eq_false_iff_not] at hc ⊢
    omega
  · rw [hs]
    omega

/-- Memory lies behind no aperture. -/
theorem memKey.inside {k : Nat} (h : memKey k) : isPeer k = false ∧ isSpan k = false := by
  have hs : socketOf k ≠ 56 ∧ socketOf k ≠ 57 := by
    have := h.2
    simp only [socketOf] at *
    omega
  simp [isPeer, isSpan, hs.1, hs.2]

variable {s : State} {k : Nat}

theorem homeRead_memKey (h : memKey k) (n : Nat) : homeRead s k n = (readBytes s.mem k n, s) := by
  obtain ⟨hc, hr⟩ := h
  rw [homeRead, if_neg (by simp [hc]), if_neg (by omega)]
  rfl

end Sys2Proof.Machine
end

section
/-! PROOFS. Words of record slots filled, and the record that launch posts (O37). -/

namespace Sys2Proof.Machine
open Sys2Proof

variable {s : State} {p n : Nat} {q : Part}

/-! Words filled (R58). -/

theorem stream_updStream (q : Part) (n : Nat) (f : Stream → Stream) : (q.updStream n f).stream n = f (q.stream n) := at_put ..

theorem updStream_part? (hq : s.part? p = some q) (n : Nat) (f : Stream → Stream) : (s.updStream p n f).part? p = some (q.updStream n f) :=
  part?_updPart_some (fun _ => rfl) hq

theorem fillWord_part? (hq : s.part? p = some q) (n i : Nat) (v : Word) :
    (fillWord s p n i v).part? p = some (q.updStream n (fun x => { x with words := Table.put x.words i v })) := by
  rw [fillWord, hq]
  refine updStream_part? ?_ n _
  refine (foldl_keeps (φ := fun u => u.part? p) (fun _ _ => ?_) _ _).trans hq
  rfl

theorem fillWord_th (s : State) (p n i : Nat) (v : Word) : (fillWord s p n i v).th = s.th := by
  unfold fillWord
  split
  · rfl
  · refine foldl_keeps (φ := State.th) (fun _ _ => ?_) _ _
    rfl

/-- An image written word by word from place b of the slots. -/
def fillImage (s : State) (p n b : Nat) (l : List (Word × Nat)) : State := l.foldl (fun s w => fillWord s p n (b + w.2) w.1) s

theorem fillImage_th (s : State) (p n b : Nat) (l : List (Word × Nat)) : (fillImage s p n b l).th = s.th :=
  foldl_keeps (fun _ _ => fillWord_th ..) _ _

/-- Each word of an image stands at its place, and those below it are as before. -/
theorem fillImage_words (b : Nat) (img : List Word) (i : Nat) (hq : s.part? p = some q) :
    ∃ y, (fillImage s p n b (img.zipIdx i)).part? p = some y ∧
      (∀ k, k < b + i → Table.get (y.stream n).words k = Table.get (q.stream n).words k) ∧
      ∀ j v, img[j]? = some v → Table.get (y.stream n).words (b + i + j) = some v := by
  induction img generalizing s q i with
  | nil => exact ⟨q, hq, fun _ _ => rfl, fun j v h => by simp at h⟩
  | cons w img ih =>
    obtain ⟨y, hy, below, words⟩ := ih (i + 1) (fillWord_part? hq n (b + i) w)
    rw [stream_updStream] at below
    refine ⟨y, hy, fun k hk => ?_, fun j v h => ?_⟩
    · rw [below k (by omega)]
      exact get_put_other _ _ (by omega)
    · cases j with
      | zero =>
        cases h
        rw [Nat.add_zero, below _ (by omega)]
        exact get_put ..
      | succ j =>
        rw [show b + i + (j + 1) = b + (i + 1) + j by omega]
        exact words j v h

/-! The posting of an image (R411). -/

theorem postRecord_disabled (hq : s.part? p = some q) (h : (q.stream n).en = false) (img : List Word) :
    postRecord s p n img = (s, 0x80000002) := by
  rw [postRecord, hq]
  simp [h]

theorem postRecord_full (hq : s.part? p = some q) (h : (q.stream n).en = true) (hf : freeSlot (q.stream n) = none) (img : List Word) :
    postRecord s p n img = (s, 0x80000001) := by
  rw [postRecord, hq]
  simp [h, hf]

theorem postRecord_slot {k : Nat} (hq : s.part? p = some q) (h : (q.stream n).en = true) (hf : freeSlot (q.stream n) = some k) (img : List Word) :
    postRecord s p n img = ((fillImage s p n (16 * k) img.zipIdx).later (.recordAccept p n), BitVec.ofNat 32 k) := by
  rw [postRecord, hq]
  simp only [h, hf]
  rfl

theorem postRecord_th (s : State) (p n : Nat) (img : List Word) : (postRecord s p n img).1.th = s.th := by
  cases hq : s.part? p with
  | none => simp [postRecord, hq]
  | some q =>
    cases he : (q.stream n).en with
    | false => rw [postRecord_disabled hq he]
    | true =>
      cases hf : freeSlot (q.stream n) with
      | none => rw [postRecord_full hq he hf]
      | some k =>
        rw [postRecord_slot hq he hf]
        exact fillImage_th ..

/-! The address (R194). -/

theorem basinWin_two {g : Agent} {a key win die : Nat} (h : basinWin g a = some (.phys key win die)) : win = 2 := by
  have e {k d : Nat} (h : some (Win.phys k 2 d) = some (.phys key win die)) : win = 2 := by
    injection h with h
    injection h with _ h
    exact h.symm
  unfold basinWin at h
  dsimp only at h
  split at h
  · cases h
  · split at h
    · split at h
      · split at h
        · cases h
        · exact e h
      · split at h
        · cases h
        · exact e h
    · split at h
      · exact e h
      · cases h

/-- Multiples of 64 of the self-local and cistern windows lie at keys that are. -/
theorem windowOf_aligned {g : Agent} {fe : Bool} {a key win die : Nat} (h : windowOf g fe a = some (.phys key win die)) (ha : a % 64 = 0)
    (hw : win = 0 ∨ win = 1 ∨ win = 3) : key % 64 = 0 := by
  unfold windowOf at h
  dsimp only at h
  split at h
  · split at h
    · cases h
    · cases h
  · obtain ⟨-, h⟩ := Option.ite_none_left_eq_some.1 h
    cases h
    simp only [localKey, bits]
    split <;> omega
  · have := basinWin_two h
    omega
  · split at h
    · cases h
    · split at h
      · cases h
        simp only [bits]
        omega
      · cases h
  · split at h
    · split at h
      · cases h
      · cases h
        omega
    · cases h
  · cases h

theorem windowOf_virt {g : Agent} {fe : Bool} {a va : Nat} (h : windowOf g fe a = some (.virt va)) : va = bits a 54 0 := by
  unfold windowOf at h
  dsimp only at h
  split at h
  · split at h
    · cases h
    · cases h
      rfl
  · obtain ⟨-, h⟩ := Option.ite_none_left_eq_some.1 h
    cases h
  · exfalso
    unfold basinWin at h
    dsimp only at h
    repeat' split at h
    all_goals cases h
  · split at h
    · cases h
    · split at h <;> cases h
  · split at h
    · split at h <;> cases h
    · cases h
  · cases h

/-- What passes the checks for 64 bytes outside the basin and the threads' own windows is a multiple of 64. -/
theorem checkAddr_aligned {g : Agent} {a : DWord} {need : Need} {fe : Bool} {l : Loc} (h : checkAddr s g a 64 need fe = .ok l)
    (hw : l.win = 0 ∨ l.win = 1 ∨ l.win = 3) : l.key % 64 = 0 := by
  unfold checkAddr at h
  split at h
  · cases h
  · next w hwin =>
    split at h
    · cases h
    · next ha =>
      have ha : a.toNat % 64 = 0 := by simpa using ha
      split at h
      · split at h
        · cases h
          exact windowOf_aligned hwin ha hw
        · cases h
      · have hv := windowOf_virt hwin
        split at h
        · cases h
        · split at h
          · cases h
          · dsimp only at h
            split at h
            · cases h
              subst hv
              unfold leafPA
              split <;> simp only [bits] <;> omega
            · cases h

/-! The instruction. -/

/-- The 16 words at a key. -/
def imageAt (m : Memory) (k : Nat) : List Word := (List.range 16).map (fun i => memWord m (k + 4 * i))

/-- Words of memory are read one by one with nothing changed. -/
theorem foldl_homeRead {k : Nat} (l : List Nat) (h : ∀ i ∈ l, memKey (k + 4 * i)) (acc : List Word) :
    l.foldl (fun (x : State × List Word) i => ((homeRead x.1 (k + 4 * i) 4).2, x.2 ++ [(homeRead x.1 (k + 4 * i) 4).1.setWidth 32])) (s, acc) =
      (s, acc ++ l.map (fun i => memWord s.mem (k + 4 * i))) := by
  induction l generalizing acc with
  | nil => simp
  | cons i l ih =>
    rw [List.foldl_cons, homeRead_memKey (h i List.mem_cons_self) 4, readBytes_setWidth, ih (fun j hj => h j (List.mem_cons_of_mem _ hj))]
    simp

/-- A launch by a swarm thread with nothing outstanding, from memory within the package: its image is posted and the result written. -/
theorem launch_posts {d a b : Code} {na nb nd : Nat} {l : Loc} (fr : s.th.free [2]) (ha : s.th.atA 1 a na) (hb : s.th.at1 2 b nb)
    (hd : s.th.at1 0 d nd) (hw : s.th.isWave = false) (hn : (s.src s.th 2 nb).toNat < 64)
    (hc : checkAddr s (agentOf s.th 0) (s.th.rd2 na) 64 needR false = .ok l) (hl : l.win = 0 ∨ l.win = 1 ∨ l.win = 3)
    (hu : s.undone s.th.uid = false) (hh : homeHeld s s.th.die l.key = false) (hk : memKey l.key) (hi : broughtImage s = none) :
    ∃ c, exec (.launch d a b) s = .next (
      let v := postRecord s s.th.part (s.src s.th 2 nb).toNat (imageAt s.mem l.key)
      finish v.1 ((clearArms v.1.th [2]).wr nd v.2) [a, b, d] [] 2 c) := by
  have hm := checkAddr_aligned hc hl
  have hwin : ¬ (l.win ≠ 0 ∧ l.win ≠ 1 ∧ l.win ≠ 3) := by omega
  have words := foldl_homeRead (s := s) (k := l.key) (List.range 16)
    (fun i hi => memKey_add hk (by have := List.mem_range.1 hi; omega)) []
  apply Exists.intro
  show Host.Outcome.next _ = _
  rw [ops3_ok fr ha hb hd]
  simp only [if_neg (Nat.not_le.2 hn), hc, if_neg hwin, hu, hh, hi, hk.inside.1, hk.inside.2, releasePart, hw, Bool.false_eq_true, if_false, or_self]
  rw [words]
  simp only [hw, Bool.false_eq_true, if_false, List.nil_append]
  rfl

theorem finish_part? (s : State) (t : Thread) (codes : List Code) (ex : List Nat) (len c p : Nat) :
    (finish s t codes ex len c).part? p = s.part? p := rfl

theorem later_part? (s : State) (e : Event) (p : Nat) : (s.later e).part? p = s.part? p := rfl

/-- The thread of a launch that has ended. -/
theorem launch_ends {v : State} {codes : List Code} {nd c : Nat} {r : Word} (ht : v.th = s.th) :
    let t := (finish v ((clearArms v.th [2]).wr nd r) codes [] 2 c).th
    s.th.frame t [nd] [] codes [] [2] ∧ t.gets s.th nd r ∧ t.run = .ready ∧ t.pc = s.th.pc + s.th.parcels 2 := by
  rw [ht]
  obtain ⟨-, -, hrx, hpc, -⟩ :=
    Thread.alike_trans (Thread.alike_trans (clearArms_alike s.th [2]) (wr_alike _ nd r)) (advances_alike _ (usedIdx v.th codes []))
  refine ⟨?_, ?_, rfl, ?_⟩
  · have h := frame_done (frame_wr (t := s.th) (nd := nd) (v := r) (ovr := [2]) (ex := []) (codes := codes) (by decide) (by decide)) v.clk 2 c
    rw [← ht] at h ⊢
    exact h
  · exact gets_wr (clearArms_busy ..)
  · show (advances _ _).pc + _ = _
    rw [Thread.parcels, hpc, hrx]

/-- Settles O37: a stream that takes no record gives bit 31, and the first empty slot takes the image. -/
theorem launchPosts : Obligations.LaunchPosts := by
  intro s d a b na nb nd l q fr ha hb hd hw hq n x
  refine ⟨fun hn => ?_, ?_⟩
  · have e : exec (.launch d a b) s = .next (raise s (faultOf .window 2)) := by
      show Host.Outcome.next _ = _
      rw [ops3_ok fr ha hb hd]
      exact congrArg Host.Outcome.next (if_pos hn)
    exact raise_traps e
  · intro hn hc hl hu hh hk _ hi ends
    obtain ⟨c, e⟩ := launch_posts fr ha hb hd hw hn hc hl hu hh hk hi
    have ended {v : State} {r : Word} (h : postRecord s s.th.part n (imageAt s.mem l.key) = (v, r)) :
        ends (finish v ((clearArms v.th [2]).wr nd r) [a, b, d] [] 2 c) r := by
      have ht : v.th = s.th := by rw [← postRecord_th s s.th.part n (imageAt s.mem l.key), h]
      exact ⟨by rw [e, h], launch_ends ht⟩
    refine ⟨fun hx => ?_, fun hx hf => ?_, fun k hx hf => ?_⟩
    · exact ⟨_, ended (postRecord_disabled hq hx _), fun _ => rfl⟩
    · exact ⟨_, ended (postRecord_full hq hx hf _), fun _ => rfl⟩
    · obtain ⟨y, hy, -, words⟩ := fillImage_words (n := n) (16 * k) (imageAt s.mem l.key) 0 hq
      rw [Nat.add_zero] at words
      refine ⟨_, y, ended (postRecord_slot hq hx hf _), ?_, ?_, fun j hj => words j _ ?_⟩
      · simp [finish, State.later]
      · rw [finish_part?, later_part?]
        exact hy
      · simp [imageAt, hj]

end Sys2Proof.Machine
end

section
/-! PROOFS. Two statements that a state out of its usual form refutes: records in an unsorted table of streams (O39), and a port with a
deferred request (O51). -/

namespace Sys2Proof.Machine
open Sys2Proof

/-! Records of a stream that stands twice (O39). -/

/-- A record of type 3 in slot 0, accepted. -/
def acceptedMarker : Rec := ⟨0, (Vector.replicate 16 0).set 0 3, 0, .accepted, none, none, 0, 0, 0, [], none, none, false, none, none, none, none⟩

/-- A stream with this record, of which HOSTHEAD lets one completion be written and no more. -/
def lastCompletion : Stream := { Stream.reset with done := 255, recs := [acceptedMarker] }

/-- A partition whose streams have different numbers which do not rise: a change of stream 3 is put before stream 5 and leaves the old entry
behind it. -/
def unsortedPart : Part := { Part.fresh 0 with running := true, streams := [(5, Stream.reset), (3, lastCompletion)] }

/-- The reset state with this partition, its dies in service. -/
def unsortedState : State := { State.reset with parts := [unsortedPart], dies := Vector.replicate 24 { Die.reset with inReset := false } }

theorem unsortedState_quiet : Says.quiet unsortedState 0 3 unsortedPart :=
  ⟨rfl, rfl, rfl, by decide, rfl, by simp [unsortedPart, Stream.reset]⟩

/-- The cancel of stream 3 completes the record; the entry left behind then decides it again and again, and what it decides stays held. -/
theorem cancel_leaves_held :
    ((stateOf (exec (.streamCancel 0 3) unsortedState) unsortedState).part? 0).map (fun y => (y.stream 3).held) ≠ some [] := by
  decide

/-- Refutes O39: of a partition whose table of streams is not sorted, which its premises allow, a cancel leaves completions held. -/
theorem not_recordCourse : ¬ Obligations.RecordCourse := by
  intro h
  obtain ⟨-, course, -, -⟩ := h unsortedState 0 3 unsortedPart unsortedState_quiet
  obtain ⟨u, y, -, hu, hy, -, -, hh, -⟩ := (course acceptedMarker rfl rfl (by decide) rfl rfl (by decide) (by decide)).1 (.inl rfl)
  refine cancel_leaves_held ?_
  rw [hu, stateOf, hy, Option.map_some, hh]

/-! A host request behind one that is deferred (O51). -/

/-- A partition of die 0, with its function on port 0. -/
def hostedPart : Part := { Part.fresh 0 with dies := [0], running := true, functions := [0] }

/-- The reset state with this partition, die 0 in reset, port 0 up, and a request of the port deferred. -/
def deferringState : State :=
  { State.reset with
    parts := [hostedPart], dies := Vector.replicate 24 { Die.reset with present := true }
    ports := Vector.replicate 4 ⟨true, false, [], [], false⟩, deferred := [([portKey 0], .budgetPeriod)] }

/-- A write for the die in reset joins the deferred request of its port and is not held. -/
theorem deferring_write_not_held (l : List Byte) :
    exec (.hostMemoryWrite 0 0 0 l) deferringState = .next (defer deferringState [portKey 0] (.hostMemoryWrite 0 0 0 l)) := rfl

/-- Refutes O51: a request for a die in reset goes behind a deferred request of its port (R52), and then it is deferred and not held; the clause
for held requests has no premise that nothing of the port is deferred. -/
theorem not_outsideAccesses : ¬ Obligations.OutsideAccesses := by
  intro h
  have clear : deferringState.clearOf (32 * 2 ^ 46) 4 := fun r hr => nomatch hr
  obtain ⟨-, -, held, -⟩ := h deferringState 0 0 0 (32 * 2 ^ 46) 0 clear ⟨by decide, .inr (by decide)⟩ (by decide) (by decide)
  obtain ⟨u, m, hu, -, hm, -⟩ := held (by decide) (by decide) (by decide) (by decide)
  rw [deferring_write_not_held] at hu
  injection hu with hu
  subst hu
  have e : (defer deferringState [portKey 0] (.hostMemoryWrite 0 0 0 (leBytes 4 (0 : Word).toNat))).heldMsgs = [] := by decide
  rw [e] at hm
  exact absurd hm (by simp)

end Sys2Proof.Machine
end

section
/-! PROOFS. Words of stream areas written by the host and by MIRROR (O38: R58, R64, R75). -/

namespace Sys2Proof.Machine
open Sys2Proof

variable {s u : State} {p n i off : Nat} {q : Part} {v : Word}

/-! Budgets. -/

/-- Work that is charged changes budgets and timers alone. -/
theorem spend_some {l : List (Nat × Nat × Nat)} (h : spend s l = some u) : u = { s with budget := u.budget, timers := u.timers } := by
  unfold spend at h
  split at h
  · cases h
  · obtain ⟨b, -, rfl⟩ := Option.map_eq_some_iff.1 h
    unfold State.atOnce
    split <;> rfl

/-- A request goes at once where none of its port is held or deferred (R52). -/
theorem inOrder_free {port : Nat} {e : Event} {go : Out} (hp : s.portHeld port = none) (hd : ∀ x ∈ s.deferred, portKey port ∉ x.1) :
    inOrder s port e go = go := by
  have h : s.deferred.any (fun x => x.1.contains (portKey port)) = false := by
    rw [List.any_eq_false]
    intro x hx
    simpa using hd x hx
  rw [inOrder, hp]
  dsimp only
  rw [h]
  rfl

/-- Work that is charged goes behind nothing deferred of its budgets. -/
theorem spend_first {l : List (Nat × Nat × Nat)} {x : Nat × Nat × Nat} (h : spend s l = some u) (hx : x ∈ l) : ∀ d ∈ s.deferred, x.1 ∉ d.1 := by
  intro d hd hk
  unfold spend at h
  rw [if_pos] at h
  · cases h
  · rw [List.any_eq_true]
    refine ⟨d, hd, ?_⟩
    rw [List.any_eq_true]
    refine ⟨x.1, hk, ?_⟩
    rw [List.any_eq_true]
    exact ⟨x, hx, beq_self_eq_true _⟩

theorem budgeted_some {l : List (Nat × Nat × Nat)} {e : Event} {go late : State → State} (h : spend s l = some u) :
    budgeted s l e go late = go u := by
  rw [budgeted, h]

/-! A word of an empty place. -/

/-- The word stands, full, in every copy of the stream. -/
theorem fillWord_copies (hq : s.part? p = some q) (n i : Nat) (v : Word) {d : Nat} (hd : d ∈ [(q.stream n).home, (q.stream n).mirror]) :
    memWord (fillWord s p n i v).mem (d * 2 ^ 46 + streamOff n + 4 * i) = v ∧
      isFull (fillWord s p n i v).full (d * 2 ^ 46 + streamOff n + 4 * i) = true := by
  have hv : (v.setWidth 128).setWidth 32 = v := by rw [BitVec.setWidth_setWidth_of_le _ (by decide), BitVec.setWidth_eq]
  rw [fillWord, hq]
  refine foldl_reaches (P := fun u => memWord u.mem (d * 2 ^ 46 + streamOff n + 4 * i) = v ∧ isFull u.full (d * 2 ^ 46 + streamOff n + 4 * i) = true)
    (List.mem_dedup.2 hd) (fun u => ⟨?_, ?_⟩) (fun u e hu => ⟨?_, ?_⟩) s
  · exact (memWord_writeBytes ..).trans hv
  · simp [isFull_addFull]
  · by_cases he : e = d
    · rw [he]
      exact (memWord_writeBytes ..).trans hv
    · dsimp only
      rw [memWord_writeBytes_other _ (by omega)]
      exact hu.1
  · dsimp only
    rw [isFull_addFull, hu.2]
    simp

/-! A write of one word. -/

/-- An empty word is filled, and its record is looked at. -/
theorem applyStreamWrite_empty (hq : s.part? p = some q) (ho : off % 4 = 0) (hl : off + 4 ≤ 0x4000)
    (he : Table.get (q.stream n).words (off / 4) = none) :
    applyStreamWrite s p n off (leBytes 4 v.toNat) = (fillWord s p n (off / 4) v).later (.recordAccept p n) := by
  have hv : BitVec.ofNat 32 (sliceNat (leBytes 4 v.toNat) 0 4) = v := by
    rw [sliceNat, List.drop_zero, List.take_of_length_le (by rw [leBytes_length]), leNat_leBytes, Nat.mod_eq_of_lt (show v.toNat < 256 ^ 4 from v.isLt),
      BitVec.ofNat_toNat, BitVec.setWidth_eq]
  have hr : List.range (4 / 4) = [0] := rfl
  rw [applyStreamWrite, hq]
  simp only [leBytes_length, if_neg (Nat.not_lt.2 hl), ho, hr]
  simp [Stream.isFull, he, hv]

/-- A write of a full word is discarded with its record. -/
theorem applyStreamWrite_full {w : Word} (hq : s.part? p = some q) (ho : off % 4 = 0) (hl : off + 4 ≤ 0x4000)
    (he : Table.get (q.stream n).words (off / 4) = some w) :
    applyStreamWrite s p n off (leBytes 4 v.toNat) = hosterr s p n (off / 64) (off / 4 % 16) 0 0 0 := by
  have hr : List.range (4 / 4) = [0] := rfl
  have hk : 4 * (off / 4) = off := by omega
  rw [applyStreamWrite, hq]
  simp only [leBytes_length, if_neg (Nat.not_lt.2 hl), ho, hr]
  simp [Stream.isFull, he, hk, show off < 0x4000 by omega]

/-- Bytes 24 to 27 of a HOSTERR record: stream, slot, word and source (R447). -/
theorem hosterr_bytes (stream slot word source seq : Nat) (r : List Byte) :
    let b := fqWithSeq (fqBytes 6 0 0xFF 0 0 (leBytes 1 stream ++ leBytes 1 slot ++ leBytes 1 word ++ leBytes 1 source ++ r)) seq
    b[24]? = some (BitVec.ofNat 8 stream) ∧ b[25]? = some (BitVec.ofNat 8 slot) ∧ b[26]? = some (BitVec.ofNat 8 word) ∧
      b[27]? = some (BitVec.ofNat 8 source) := by
  simp [fqWithSeq, fqBytes, leBytes]

/-- What the host or MIRROR does by writing a word, once its budgets let it. -/
theorem applyStreamWrite_word (hs : u = { s with budget := u.budget, timers := u.timers }) (hq : s.part? p = some q) (ho : off % 4 = 0)
    (hl : off + 4 ≤ 0x4000) (n : Nat) (v : Word) :
    let z := applyStreamWrite u p n off (leBytes 4 v.toNat)
    (Table.get (q.stream n).words (off / 4) = none →
      ∃ y, z.part? p = some y ∧ Table.get (y.stream n).words (off / 4) = some v ∧
        (∀ k, k ≠ off / 4 → Table.get (y.stream n).words k = Table.get (q.stream n).words k) ∧
        (∀ d ∈ [(q.stream n).home, (q.stream n).mirror],
          memWord z.mem (d * 2 ^ 46 + 0x01E00000 + 0x8000 * n + off) = v ∧
            isFull z.full (d * 2 ^ 46 + 0x01E00000 + 0x8000 * n + off) = true) ∧
        .recordAccept p n ∈ z.agenda) ∧
    (∀ w, Table.get (q.stream n).words (off / 4) = some w → s.homeUp q = true → q.fqTail - q.fqHead ≠ 4096 →
      ∃ y, z.part? p = some y ∧ y.streams = q.streams ∧ y.fqTail = q.fqTail + 1 ∧
        let k := q.home * 2 ^ 46 + 0x01D00000 + 64 * (q.fqTail.toNat % 4096)
        memRead z.mem k = 6 ∧ memRead z.mem (k + 24) = BitVec.ofNat 8 n ∧ memRead z.mem (k + 25) = BitVec.ofNat 8 (off / 64) ∧
          memRead z.mem (k + 26) = BitVec.ofNat 8 (off / 4 % 16) ∧ memRead z.mem (k + 27) = 0) := by
  have hu : u.part? p = some q := by
    rw [hs]
    exact hq
  refine ⟨fun he => ?_, fun w he hh hf => ?_⟩
  · rw [applyStreamWrite_empty hu ho hl he]
    refine ⟨_, fillWord_part? hu n (off / 4) v, ?_, fun k hk => ?_, fun d hd => ?_, ?_⟩
    · rw [stream_updStream]
      exact get_put ..
    · rw [stream_updStream]
      exact get_put_other _ _ hk
    · rw [show d * 2 ^ 46 + 0x01E00000 + 0x8000 * n + off = d * 2 ^ 46 + streamOff n + 4 * (off / 4) by simp only [streamOff]; omega]
      exact fillWord_copies hu n (off / 4) v hd
    · simp [State.later]
  · have hh' : u.homeUp q = true := by
      rw [hs]
      exact hh
    rw [applyStreamWrite_full hu ho hl he, hosterr, fqNote_eq (kind := 6) _ _ _ _ _ (by decide) hu hh' hf]
    obtain ⟨b24, b25, b26, b27⟩ := hosterr_bytes n (off / 64) (off / 4 % 16) 0 q.fqSeq (leBytes 4 0 ++ leBytes 8 0)
    rw [← List.append_assoc] at b24 b25 b26 b27
    exact ⟨_, part?_fqWrite _ hu, rfl, rfl, fqWrite_mem .., memRead_fqWrite (fqBytes_length ..) b24, memRead_fqWrite (fqBytes_length ..) b25,
      memRead_fqWrite (fqBytes_length ..) b26, memRead_fqWrite (fqBytes_length ..) b27⟩

/-- MIRROR within its budget. -/
theorem mirrorWrite_goes {data : List Byte} (h : spend s (mirrorBudgets s p n (ioOfPart s p) off data.length) = some u) :
    exec (.mirrorWrite p n off data) s = .next (applyStreamWrite u p n off data) :=
  congrArg Host.Outcome.next (budgeted_some h)

/-- The host within its budget, through a port with no earlier request waiting. -/
theorem hostStreamWrite_goes {port : Nat} (hr : hostReaches s p port = true) (hp : s.portHeld port = none) (ho : off + 4 ≤ 0x4000) (hn : n < 64)
    (h : spend s (mirrorBudgets s p n (56 + port / 2) off 4 ++ [(portKey port, 0, 0)]) = some u) (v : Word) :
    exec (.hostStreamWrite p port (0x8000 * n + off) (leBytes 4 v.toNat)) s = .next (applyStreamWrite u p n off (leBytes 4 v.toNat)) := by
  have hd : (0x8000 * n + off) / 0x8000 = n := by omega
  have hm : (0x8000 * n + off) % 0x8000 = off := by omega
  show execHostStreamWrite .. = _
  rw [execHostStreamWrite, hr, inOrder_free hp (spend_first (x := (portKey port, 0, 0)) h (by simp)), hostStream, leBytes_length, hd, hm,
    if_neg (show ¬ (0x200000 < 0x8000 * n + off + 4 ∨ 0x8000 < off + 4) by omega), budgeted_some h]
  rfl

/-- Stream words fill once, whoever writes them. -/
theorem streamWrites : Says.StreamWrites := by
  intro s p n port off v q hq ho hl hn budget goes
  have writes {i : Instr} {u : State} (hs : u = { s with budget := u.budget, timers := u.timers })
      (e : exec i s = .next (applyStreamWrite u p n off (leBytes 4 v.toNat))) : goes i := by
    obtain ⟨h1, h2⟩ := applyStreamWrite_word hs hq ho hl n v
    refine ⟨fun he => ?_, fun w he hh hf => ?_⟩
    · obtain ⟨y, hy⟩ := h1 he
      exact ⟨_, y, e, hy⟩
    · obtain ⟨y, hy⟩ := h2 w he hh hf
      exact ⟨_, y, e, hy⟩
  refine ⟨fun hb => ?_, fun hr hp hb => ?_⟩
  · obtain ⟨u, hu⟩ := Option.isSome_iff_exists.1 hb
    rw [List.append_nil, ← leBytes_length 4 v.toNat] at hu
    exact writes (spend_some hu) (mirrorWrite_goes hu)
  · obtain ⟨u, hu⟩ := Option.isSome_iff_exists.1 hb
    exact writes (spend_some hu) (hostStreamWrite_goes hr hp hl hn hu v)

end Sys2Proof.Machine
end

section
/-! PROOFS. Records that waited for space in a fault queue (O38: R69). -/

namespace Sys2Proof.Machine
open Sys2Proof

variable {s : State} {p : Nat} {q : Part} {w : FqWait}

/-! A record that has waited. -/

/-- What a look at a record leaves alone. -/
theorem recheck_keeps {β : Type} {φ : State → β} (h : ∀ s e, φ (State.later s e) = φ s) (s : State) (p n k : Nat) : φ (recheck s p n k) = φ s := by
  unfold recheck
  split
  · exact ite_keeps (h ..) rfl
  · rfl

/-- The SEQ that has become known stands in threads, fault table entries and records: memory stays. -/
theorem resolveSeq_mem (s : State) (p g n : Nat) : (resolveSeq s p g n).mem = s.mem := by
  unfold resolveSeq
  extract_lets s1 s2
  have h2 : s2.mem = s1.mem := foldl_keeps (φ := State.mem) (fun s d => State.updDie_mem ..) _ _
  exact h2

/-- Of a partition it changes its streams alone. -/
theorem resolveSeq_part? (g n : Nat) (hq : s.part? p = some q) : ∃ l, (resolveSeq s p g n).part? p = some { q with streams := l } := by
  unfold resolveSeq
  extract_lets s1 s2
  have h2 : s2.parts = s1.parts := foldl_keeps (φ := State.parts) (fun s d => State.updDie_parts ..) _ _
  have hq2 : s2.part? p = some q := by
    rw [State.part?, h2]
    exact hq
  exact ⟨_, part?_updPart_some (fun _ => rfl) hq2⟩

theorem fqWritten_mem (s : State) (q : Part) (w : FqWait) : (fqWritten s q w).mem = (fqWrite s q w.bytes).mem :=
  (recheck_keeps (φ := State.mem) (fun _ _ => rfl) ..).trans (resolveSeq_mem ..)

theorem fqWritten_part? (w : FqWait) (hq : s.part? p = some q) :
    ∃ l f, (fqWritten s q w).part? p = some { q with fqTail := q.fqTail + 1, fqSeq := q.fqSeq + 1, fq := f, streams := l } := by
  obtain rfl : q.id = p := by simpa using List.find?_some hq
  obtain ⟨l, hl⟩ := resolveSeq_part? w.guess q.fqSeq (part?_fqWrite w.bytes hq)
  exact ⟨l, _, (recheck_keeps (φ := fun u => u.part? q.id) (fun _ _ => rfl) ..).trans hl⟩

/-! The pump. -/

theorem fqPumpGo_empty (hq : s.part? p = some q) (hd : q.fqDropped = 0) (hw : q.fqWait = []) (n : Nat) : fqPumpGo p n s = s := by
  cases n with
  | zero => rfl
  | succ n =>
    rw [fqPumpGo, hq]
    simp [hd, hw]

theorem fqPumpGo_one (hq : s.part? p = some q) (hh : s.homeUp q = true) (hf : q.fqTail - q.fqHead ≠ 4096) (hd : q.fqDropped = 0)
    (hw : q.fqWait = [w]) (n : Nat) :
    fqPumpGo p (n + 1) s = fqPumpGo p n ((fqWritten s q w).updPart p (fun q => { q with fqWait := [] })) := by
  have hx : q.fqFull = false := beq_eq_false_iff_ne.2 hf
  rw [fqPumpGo, hq]
  simp [hx, hh, hd, hw]

/-- One record that waited is written, and none waits any more. -/
theorem fqPump_one (hq : s.part? p = some q) (hh : s.homeUp q = true) (hf : q.fqTail - q.fqHead ≠ 4096) (hd : q.fqDropped = 0)
    (hw : q.fqWait = [w]) :
    fqPump s p = (fqWritten s q w).updPart p (fun q => { q with fqWait := [] }) := by
  obtain ⟨l, f, hl⟩ := fqWritten_part? w hq
  have e : fqPump s p = fqPumpGo p (2 + 1) s := by
    rw [fqPump, hq, Option.map_some, hw]
    rfl
  rw [e, fqPumpGo_one hq hh hf hd hw]
  exact fqPumpGo_empty (part?_updPart_some (f := fun q => { q with fqWait := [] }) (fun _ => rfl) hl) hd rfl 2

/-! FQHEAD. -/

theorem fqheadWrite_running (hq : s.part? p = some q) (hr : q.running = true) (v : Word) :
    exec (.fqheadWrite p v) s = .next (fqPump (s.updPart p (fun q => { q with fqHead := v })) p) := by
  show Host.Outcome.next (inFunction ..) = _
  rw [inFunction, hq]
  simp only [hr, if_true]

/-- A record of 64 bytes takes its SEQ in bytes 16 to 23. -/
theorem fqWithSeq_byte {b : List Byte} {j : Nat} {v : Byte} (seq : Nat) (hl : b.length = 64) (hj : j < 16 ∨ 24 ≤ j) (h : b[j]? = some v) :
    (fqWithSeq b seq)[j]? = some v := by
  rw [fqWithSeq, List.append_assoc]
  rcases hj with hj | hj
  · rw [List.getElem?_append_left (by simp; omega), List.getElem?_take_of_lt hj]
    exact h
  · rw [List.getElem?_append_right (by simp; omega), List.getElem?_append_right (by simp [leBytes_length]; omega), List.getElem?_drop, ← h]
    congr 1
    simp [leBytes_length]
    omega

theorem fqWithSeq_length {b : List Byte} (seq : Nat) (hl : b.length = 64) : (fqWithSeq b seq).length ≤ 64 := by
  simp [fqWithSeq, leBytes_length, hl]

theorem fqWithSeq_seq {b : List Byte} (seq : Nat) (hl : b.length = 64) : ∃ r, (fqWithSeq b seq).drop 16 = leBytes 4 seq ++ r := by
  refine ⟨leBytes 4 (seq / 256 / 256 / 256 / 256) ++ b.drop 24, ?_⟩
  rw [fqWithSeq, List.append_assoc, List.drop_append_of_le_length (by simp [hl]), List.drop_of_length_le (by simp), ← List.append_assoc]
  rfl

/-- Space in the queue lets a record go that waited for it. -/
theorem faultQueueSpace : Says.FaultQueueSpace := by
  intro s p v q hq hr hh hd hf
  have hq' : (s.updPart p (fun q => { q with fqHead := v })).part? p = some { q with fqHead := v } := part?_updPart_some (fun _ => rfl) hq
  rw [fqheadWrite_running hq hr]
  refine ⟨fun hw => ?_, fun w hw hb => ?_⟩
  · refine ⟨_, _, congrArg Host.Outcome.next (fqPumpGo_empty hq' hd hw _), fun _ => rfl, hq', rfl⟩
  · obtain ⟨l, f, hl⟩ := fqWritten_part? w hq'
    obtain ⟨r, hs⟩ := fqWithSeq_seq q.fqSeq hb
    refine ⟨_, _, congrArg Host.Outcome.next (fqPump_one hq' hh hf hd hw), part?_updPart_some (fun _ => rfl) hl, rfl, rfl, rfl, rfl, ?_⟩
    rw [State.updPart_mem, fqWritten_mem]
    exact ⟨fun j b hj h => memRead_fqWrite (q := { q with fqHead := v }) (fqWithSeq_length _ hb) (fqWithSeq_byte _ hb hj h),
      memWord_fqWrite (q := { q with fqHead := v }) (fqWithSeq_length _ hb) hs⟩

/-- Settles O38: words that fill once, and records that waited. -/
theorem streamsAndQueues : Obligations.StreamsAndQueues := ⟨streamWrites, faultQueueSpace⟩

end Sys2Proof.Machine
end

section
/-! PROOFS. Writes of control words: event counters, and the memory control block (O46: R81, R199, R208). -/

namespace Sys2Proof.Machine
open Sys2Proof

variable {s : State} {v : DWord}

/-! Event counters (R81). -/

section
variable {die k : Nat}

theorem evCounter_put (e : EvCounter) : ({ s with evc := Table.put s.evc (die * 64 + k) e } : State).evCounter die k = e := at_put ..

theorem evCounter_put_other {d j : Nat} (e : EvCounter) (hk : k < 64) (hj : j < 64) (h : (d, j) ≠ (die, k)) :
    ({ s with evc := Table.put s.evc (die * 64 + k) e } : State).evCounter d j = s.evCounter d j := by
  refine at_put_other _ _ _ (fun e => h ?_)
  rw [Prod.mk.injEq]
  omega

/-- A select word holds OVF until a 1 clears it, and its reserved bits stay 0. -/
theorem select_bits (o : Bool) (v : DWord) {j : Nat} (hj : j < 64) :
    ((v &&& 0xC0FFFFFFFFFFFFFF#64) ||| (if o && !v.getLsbD 61 then 1#64 <<< 61 else 0)).getLsbD j =
      if j = 61 then o && !v.getLsbD 61 else v.getLsbD j && (decide (j < 56) || decide (62 ≤ j)) := by
  have hm : ∀ j < 64, (0xC0FFFFFFFFFFFFFF#64).getLsbD j = (decide (j < 56) || decide (62 ≤ j)) := by decide
  have ho : ∀ b : Bool, ∀ j < 64, (if b then 1#64 <<< 61 else 0#64).getLsbD j = (b && decide (j = 61)) := by decide
  rw [BitVec.getLsbD_or, BitVec.getLsbD_and, hm j hj]
  refine (congrArg _ (ho _ j hj)).trans ?_
  by_cases e : j = 61
  · subst e
    simp
  · simp [e]

end

/-! The memory control block (R199, R208). -/

/-- The memory control blocks of some dies changed. -/
def setMcbs (s : State) (l : List Nat) (f : MemCtl → MemCtl) : State := l.foldl (fun s d => s.updDie d (fun d => { d with mcb := f d.mcb })) s

theorem setMcbs_eq (s : State) (l : List Nat) (f : MemCtl → MemCtl) : setMcbs s l f = { s with dies := (setMcbs s l f).dies } := by
  refine foldl_keeps (φ := fun u : State => { u with dies := (setMcbs s l f).dies }) (fun _ _ => ?_) l s
  rfl

theorem setMcbs_die {l : List Nat} {f : MemCtl → MemCtl} (hf : ∀ m, f (f m) = f m) {e : Nat} (he : e < 24) :
    (setMcbs s l f).die e = if e ∈ l then { s.die e with mcb := f (s.die e).mcb } else s.die e := by
  have h := foldl_die (g := fun s d => State.updDie s d (fun d => { d with mcb := f d.mcb })) (f := fun d => { d with mcb := f d.mcb })
    (c := fun _ => true) (e := e) (fun x => by simp [hf]) (fun s d => by simp [die_updDie s d _ he]) l s
  exact h.trans (by simp)

/-- Where a change keeps a part of the block, every die keeps it. -/
theorem setMcbs_keeps {β : Type} {φ : MemCtl → β} {l : List Nat} {f : MemCtl → MemCtl} (h : ∀ m, φ (f m) = φ m) (e : Nat) :
    φ ((setMcbs s l f).die e).mcb = φ (s.die e).mcb := by
  refine foldl_keeps (φ := fun u => φ (State.die u e).mcb) (fun s d => ?_) l s
  by_cases he : e < 24
  · rw [die_updDie s d _ he]
    split
    · exact h _
    · rfl
  · simp [State.die, he]

section
variable {die p : Nat} {super : Bool} {q : Part} (hp : s.partOfDie die = some p)
include hp

/-- The pool is written while no group holds backing of its pool and it lies in the die's stack. -/
theorem writeMemControl_pool (hg : s.groups = []) (h : bits v.toNat 15 0 = 0 ∨ ((32 + die) * 2 ^ 46 ≤ bits v.toNat 51 16 * 65536 ∧
      (bits v.toNat 51 16 + bits v.toNat 15 0) * 65536 ≤ (32 + die) * 2 ^ 46 + Config.stackCapacity)) :
    writeMemControl s die 0x8 super v = s.updDie die (fun d => { d with mcb := { d.mcb with privpool := v &&& 0xFFFFFFFFFFFFF } }) := by
  have hm : (v &&& 0xFFFFFFFFFFFFF#64).toNat = v.toNat % 2 ^ 52 := by
    rw [BitVec.toNat_and]
    exact Nat.and_two_pow_sub_one_eq_mod v.toNat 52
  have hb : bits (v.toNat % 2 ^ 52) 51 16 = bits v.toNat 51 16 := by
    simp only [bits]
    omega
  have hs : bits (v.toNat % 2 ^ 52) 15 0 = bits v.toNat 15 0 := by
    simp only [bits]
    omega
  simp only [writeMemControl, hp, hg, hm, hb, hs]
  rw [if_neg]
  · rfl
  · simp only [List.any_nil, Bool.false_eq_true, false_or]
    omega

variable (hq : s.part? p = some q)
include hq

theorem writeMemControl_root : writeMemControl s die 0x0 super v = setMcbs s q.dies (fun m => { m with troot := v &&& 0xFFFFFFFFF0001 }) := by
  simp only [writeMemControl, hp, State.partDies, hq]
  rfl

theorem writeMemControl_iva (hb : q.ibusy = false) :
    writeMemControl s die 0x10 super v = setMcbs s q.dies (fun m => { m with iva := v &&& 0x7FFFFFFFFF0000 }) := by
  simp only [writeMemControl, hp, State.partDies, hq, Option.map_some, Option.getD_some, hb]
  rfl

theorem writeMemControl_ictl (hb : q.ibusy = false) (h0 : v.getLsbD 0 = false) :
    writeMemControl s die 0x18 super v = setMcbs s q.dies (fun m => { m with ictl := v &&& 0xFFFF0002 }) := by
  simp only [writeMemControl, hp, State.partDies, hq, Option.map_some, Option.getD_some, hb, h0]
  rfl

/-- BUSY written with a 1 starts an invalidation of all translations, or of the range. -/
theorem writeMemControl_start (hb : q.ibusy = false) (h0 : v.getLsbD 0 = true) :
    writeMemControl s die 0x18 super v =
      ((setMcbs s q.dies (fun m => { m with ictl := v &&& 0xFFFF0002 })).updPart p (fun q => { q with ibusy := true })).later
        (if v.getLsbD 1 then .tlbInvalidateAll p else .tlbInvalidateRange p (bits (s.die die).mcb.iva.toNat 54 16) (bits v.toNat 31 16)) := by
  have hi := setMcbs_keeps (s := s) (l := q.dies) (φ := MemCtl.iva) (f := fun m => { m with ictl := v &&& 0xFFFF0002 }) (fun _ => rfl) die
  simp only [writeMemControl, hp, State.partDies, hq, Option.map_some, Option.getD_some, hb, h0, ← hi]
  cases v.getLsbD 1 <;> rfl

/-- While an invalidation goes on, its words are not written. -/
theorem writeMemControl_busy (hb : q.ibusy = true) : writeMemControl s die 0x10 super v = s ∧ writeMemControl s die 0x18 super v = s := by
  simp only [writeMemControl, hp, hq, Option.map_some, Option.getD_some, hb]
  exact ⟨rfl, rfl⟩

end

end Sys2Proof.Machine
end

section
/-! PROOFS. Writes of control words: stream descriptors, the thread control block, fault table entries, ports and aperture tables (O46: R55 to
R57, R62, R210, R418). -/

namespace Sys2Proof.Machine
open Sys2Proof

variable {s : State} {v : DWord}

/-! Masks. -/

theorem getLsbD_clear (v : DWord) (m : DWord) {j : Nat} (hj : j < 64) (hm : m.getLsbD j = false) : (v &&& ~~~m).getLsbD j = v.getLsbD j := by
  rw [BitVec.getLsbD_and, BitVec.getLsbD_not, hm]
  simp [hj]

/-- Bits above those that a mask clears stand. -/
theorem bits_clear (v : DWord) {k : Nat} (m : DWord) (hm : ∀ j, j < 64 → k ≤ j → m.getLsbD j = false) {hi lo : Nat} (hk : k ≤ lo) :
    bits (v &&& ~~~m).toNat hi lo = bits v.toNat hi lo := by
  refine Nat.eq_of_testBit_eq (fun i => ?_)
  simp only [bits, Nat.testBit_mod_two_pow, Nat.testBit_div_two_pow]
  by_cases hj : i + lo < 64
  · congr 1
    exact getLsbD_clear v m hj (hm _ hj (by omega))
  · rw [BitVec.testBit_toNat, BitVec.testBit_toNat, BitVec.getLsbD_of_ge _ _ (by omega), BitVec.getLsbD_of_ge _ _ (by omega)]

/-! Stream descriptors (R57, R62, R66). -/

section
variable {p : Nat} {q : Part} {port : Option Nat}

/-- The words of a copy change no partition. -/
theorem copyStream_part? (s : State) (p n d r : Nat) : (copyStream s p n d).part? r = s.part? r := by
  unfold copyStream
  split
  · rfl
  · refine (foldl_keeps (φ := fun u => State.part? u r) (fun s e => ?_) _ _).trans
      ((foldl_keeps (φ := fun u => State.part? u r) (fun s e => ?_) _ _).trans ?_)
    all_goals rfl

/-- Enable, class and home of a stream as a descriptor word gives them; a home moves while the stream is not enabled. -/
def Stream.described (x : Stream) (move : Bool) (mirror : Nat) (v : DWord) : Stream :=
  { x with
    cls := bits v.toNat 21 20, en := v.getLsbD 0, home := if move then bits v.toNat 26 22 else x.home, mirror := if move then mirror else x.mirror }

/-- What word 0 of a descriptor does before its actions. -/
def describe (s : State) (p n : Nat) (q : Part) (v : DWord) : State :=
  let home := bits v.toNat 26 22
  let move := !(q.stream n).en && q.dies.contains home
  let s' := s.updStream p n (fun x => x.described move (mirrorFor s p home) v)
  if move then copyStream (copyStream s' p n home) p n (mirrorFor s' p home) else s'

theorem describe_part? (hq : s.part? p = some q) (n : Nat) (v : DWord) :
    (describe s p n q v).part? p = some (q.updStream n (fun x =>
      x.described (!(q.stream n).en && q.dies.contains (bits v.toNat 26 22)) (mirrorFor s p (bits v.toNat 26 22)) v)) := by
  refine (ite_keeps (φ := fun u => u.part? p) ?_ rfl).trans (updStream_part? hq n _)
  rw [copyStream_part?, copyStream_part?]

theorem writeStream_describe (hq : s.part? p = some q) (n : Nat) :
    writeStream s p n 0 port v =
      (let s := if v.getLsbD 1 then stateOf (execStreamCancel p n (describe s p n q v)) (describe s p n q v) else describe s p n q v
       if v.getLsbD 0 then s.later (.recordAccept p n) else s) := by
  simp only [writeStream, hq]
  rfl

/-- CANCEL and its neighbours do not describe the stream. -/
theorem describe_clear (n : Nat) (q : Part) : describe s p n q (v &&& ~~~2) = describe s p n q v := by
  have hm : ∀ j < 64, 2 ≤ j → (2#64).getLsbD j = false := by decide
  have h1 : bits (v &&& ~~~2#64).toNat 21 20 = bits v.toNat 21 20 := bits_clear v 2#64 hm (by decide)
  have h2 : bits (v &&& ~~~2#64).toNat 26 22 = bits v.toNat 26 22 := bits_clear v 2#64 hm (by decide)
  have h3 : (v &&& ~~~2#64).getLsbD 0 = v.getLsbD 0 := getLsbD_clear v _ (by decide) (by decide)
  show describe s p n q (v &&& ~~~2#64) = _
  simp only [describe, Stream.described, h1, h2, h3]

/-- Each word of a stream descriptor. -/
theorem streamDescriptor (n : Nat) (hq : s.part? p = some q) :
    (v.getLsbD 1 = false → ∃ u y, exec (.registerWrite (.stream p n 0 port) v) s = .next u ∧ u.part? p = some y ∧
      (y.stream n).cls = bits v.toNat 21 20 ∧ (y.stream n).en = v.getLsbD 0 ∧
      (y.stream n).home = (if (q.stream n).en = false ∧ bits v.toNat 26 22 ∈ q.dies then bits v.toNat 26 22 else (q.stream n).home) ∧
      (y.stream n).words = (q.stream n).words ∧ (y.stream n).head = (q.stream n).head ∧
      (v.getLsbD 0 = true → .recordAccept p n ∈ u.agenda)) ∧
    (v.getLsbD 1 = true → v.getLsbD 0 = false → ∃ w, exec (.registerWrite (.stream p n 0 port) (v &&& ~~~2)) s = .next w ∧
      exec (.registerWrite (.stream p n 0 port) v) s = exec (.streamCancel p n) w) ∧
    exec (.registerWrite (.stream p n 1 port) v) s = exec (.hostheadWrite p n (v.setWidth 32)) s ∧
    exec (.registerWrite (.stream p n 2 port) v) s = .next s ∧
    ∃ u y, exec (.registerWrite (.stream p n 3 port) v) s = .next u ∧ s.sameMem u ∧ u.part? p = some y ∧
      y.stream n = { q.stream n with cqhost := v, cqPort := port } := by
  refine ⟨fun h1 => ?_, fun h1 h0 => ?_, rfl, rfl, _, _, rfl, fun _ => rfl, updStream_part? hq n _, stream_updStream ..⟩
  · have e := writeStream_describe (v := v) (port := port) hq n
    simp only [h1, Bool.false_eq_true, if_false] at e
    refine ⟨_, _, congrArg Host.Outcome.next e, (ite_keeps (φ := fun u => u.part? p) (later_part? ..) rfl).trans (describe_part? hq n v), ?_⟩
    rw [stream_updStream]
    refine ⟨rfl, rfl, ?_, rfl, rfl, fun h0 => ?_⟩
    · simp [Stream.described]
    · rw [if_pos h0]
      simp [State.later]
  · have hc1 : (v &&& ~~~2).getLsbD 1 = false := by
      show (v &&& ~~~2#64).getLsbD 1 = false
      simp
    have hc0 : (v &&& ~~~2).getLsbD 0 = false := by
      show (v &&& ~~~2#64).getLsbD 0 = false
      rw [getLsbD_clear v _ (by decide) (by decide)]
      exact h0
    have ew := writeStream_describe (v := v &&& ~~~2) (port := port) hq n
    have e := writeStream_describe (v := v) (port := port) hq n
    simp only [hc1, hc0, Bool.false_eq_true, if_false, describe_clear] at ew
    simp only [h1, h0, Bool.false_eq_true, if_true, if_false] at e
    exact ⟨_, congrArg Host.Outcome.next ew, congrArg Host.Outcome.next e⟩

end

/-! Registers by name. -/

theorem registerWrite_eq (r : RegName) (v : DWord) (s : State) : exec (.registerWrite r v) s = execRegisterWrite r v s := rfl

theorem setIfInBounds_of_lt {α : Type} {n : Nat} (l : Vector α n) {i : Nat} (h : i < n) (x : α) : l.setIfInBounds i x = l.set i x := by
  ext j hj
  simp [Vector.getElem_setIfInBounds, Vector.getElem_set]

/-! The thread control block and the fault table (R210, R418). -/

/-- TSEL and TPC are written, and ACT starts its action on the thread that stands there. -/
theorem threadControlBlock {die : Nat} (hd : die < 24) :
    (∃ u, exec (.registerWrite (.threadControl die 0) v) s = .next u ∧ u = { s with dies := u.dies } ∧
      u.die die = { s.die die with tsel := v.setWidth 32 } ∧ ∀ d, d ≠ die → u.die d = s.die d) ∧
    (∃ w, exec (.registerWrite (.threadControl die 8) (v &&& ~~~7)) s = .next w ∧ w = { s with dies := w.dies } ∧
      w.die die = { s.die die with tpc := v.extractLsb' 32 32 } ∧ (∀ d, d ≠ die → w.die d = s.die d) ∧
      ∀ i, (bits v.toNat 2 0, i) ∈ [(1, Instr.threadReplay die), (2, .threadResumeNext die), (3, .threadResumeAtTpc die), (4, .threadKill die)] →
        exec (.registerWrite (.threadControl die 8) v) s = exec i w) := by
  have hz : bits (v &&& ~~~7).toNat 2 0 = 0 := by
    show bits (v &&& ~~~7#64).toNat 2 0 = 0
    refine Nat.eq_of_testBit_eq (fun i => ?_)
    simp only [bits, Nat.testBit_mod_two_pow, Nat.testBit_div_two_pow, Nat.zero_testBit, Bool.and_eq_false_iff, decide_eq_false_iff_not]
    by_cases hi : i < 3
    · have h7 : ∀ i < 3, (~~~7#64).getLsbD (i + 0) = false := by decide
      rw [BitVec.testBit_toNat, BitVec.getLsbD_and, h7 i hi, Bool.and_false]
      exact .inr rfl
    · exact .inl (by omega)
  have hx : (v &&& ~~~7).extractLsb' 32 32 = v.extractLsb' 32 32 := by
    have h7 : ∀ i < 32, (7#64).getLsbD (32 + i) = false := by decide
    refine BitVec.eq_of_getLsbD_eq (fun i hi => ?_)
    rw [BitVec.getLsbD_extractLsb', BitVec.getLsbD_extractLsb']
    exact congrArg _ (getLsbD_clear v 7#64 (by omega) (h7 i hi))
  have e : exec (.registerWrite (.threadControl die 8) (v &&& ~~~7)) s = .next (s.updDie die (fun d => { d with tpc := v.extractLsb' 32 32 })) := by
    rw [registerWrite_eq]
    simp only [execRegisterWrite, hz, hx]
    rfl
  refine ⟨⟨_, rfl, rfl, die_updDie_same _ hd, fun d h => die_updDie_other _ _ h⟩, _, e, rfl, die_updDie_same _ hd,
    fun d h => die_updDie_other _ _ h, fun i hi => ?_⟩
  simp only [List.mem_cons, Prod.mk.injEq, List.not_mem_nil, or_false] at hi
  rcases hi with ⟨hb, rfl⟩ | ⟨hb, rfl⟩ | ⟨hb, rfl⟩ | ⟨hb, rfl⟩
  all_goals
    rw [registerWrite_eq]
    simp only [execRegisterWrite, hb]
    rfl

theorem faultEntryAct (die e : Nat) :
    (bits v.toNat 5 4 = 0 → exec (.registerWrite (.faultEntry die e) v) s = .next s) ∧
      (bits v.toNat 5 4 = 1 → exec (.registerWrite (.faultEntry die e) v) s = exec (.faultReplay die e) s) ∧
      (bits v.toNat 5 4 = 2 → exec (.registerWrite (.faultEntry die e) v) s = exec (.faultKill die e) s) := by
  refine ⟨fun h => ?_, fun h => ?_, fun h => ?_⟩
  all_goals
    rw [registerWrite_eq]
    simp only [execRegisterWrite, h]
  all_goals rfl

/-! Ports (R39, R49, R50). -/

theorem spanClear_up {k : Nat} (h : s.spanUp k = true) : exec (.registerWrite (.spanClear k) v) s = .next s :=
  congrArg Host.Outcome.next (if_pos h)

theorem spanClear_down {k : Nat} (h : s.spanUp k = false) :
    exec (.registerWrite (.spanClear k) v) s = .next (s.updLink (320 + k) (fun l => { l with replay := [], queue := [] })) :=
  congrArg Host.Outcome.next (if_neg (by simp [h]))

theorem ideRequire_done {k : Nat} (hk : k < 4) :
    exec (.registerWrite (.ideRequire k) v) s = .next { s with ports := s.ports.set k { s.ports[k] with ideOnly := true } } := by
  have hp : s.port k = s.ports[k] := by simp [State.port, hk]
  rw [registerWrite_eq, execRegisterWrite, hp, setIfInBounds_of_lt _ hk]

/-! Aperture tables (R55, R56). -/

theorem hosterr_tables (s : State) (p a b c d e f : Nat) : (hosterr s p a b c d e f).apert = s.apert ∧ (hosterr s p a b c d e f).spanApert = s.spanApert :=
  ⟨(congrArg State.apert (fqNote_sansQueues ..) :), (congrArg State.spanApert (fqNote_sansQueues ..) :)⟩

/-- An entry of the peer aperture table is written by the host, or by a supervisor of the partition that it names and goes on to name. -/
theorem apertureEntry {io k : Nat} (hk : 32 * io + k < 64) (e : BitVec 128) (w : Option Nat) :
    let now := s.apert[32 * io + k]
    let held := e &&& 0xFFFFFFFFFFFFF000000000F80000010F
    (w = none ∨ (∃ p, w = some p ∧ bits now.toNat 39 35 = p ∧ bits held.toNat 39 35 = p) →
      exec (.apertureEntryWrite io k e w) s = .next { s with apert := s.apert.set (32 * io + k) held }) ∧
    (∀ p, w = some p → bits now.toNat 39 35 ≠ p → ∃ u, exec (.apertureEntryWrite io k e w) s = .next u ∧ u.apert = s.apert) := by
  intro now held
  have hn : (s.apert[io * 32 + k]?).getD 0 = now := by
    rw [Nat.mul_comm io, Vector.getElem?_eq_getElem hk]
    rfl
  have hs : s.apert.setIfInBounds (io * 32 + k) held = s.apert.set (32 * io + k) held := by
    simp only [Nat.mul_comm io]
    exact setIfInBounds_of_lt _ hk _
  refine ⟨fun h => ?_, fun p hw hp => ?_⟩
  · rw [← hs]
    rcases h with rfl | ⟨p, rfl, h1, h2⟩
    · rfl
    · exact congrArg Host.Outcome.next (if_pos ⟨(congrArg (fun x : BitVec 128 => bits x.toNat 39 35) hn).trans h1, h2⟩)
  · subst hw
    refine ⟨_, congrArg Host.Outcome.next (if_neg (fun h => hp ?_)), (hosterr_tables ..).1⟩
    exact (congrArg (fun x : BitVec 128 => bits x.toNat 39 35) hn).symm.trans h.1

/-- Of an entry of the span aperture table a supervisor of the partition that it names writes EN and WR alone. -/
theorem spanApertureEntry {io k : Nat} (hk : 8 * io + k < 16) (e : BitVec 128) (w : Option Nat) :
    let now := s.spanApert[8 * io + k]
    (w = none ∨ (∃ p, w = some p ∧ bits now.toNat 39 35 = p ∧ e &&& ~~~3 = now &&& ~~~3) →
      exec (.spanApertureEntryWrite io k e w) s =
        .next { s with spanApert := s.spanApert.set (8 * io + k) (e &&& 0xFFFFFFFFFFFF0000000000F800000003) }) ∧
    (∀ p, w = some p → bits now.toNat 39 35 ≠ p → ∃ u, exec (.spanApertureEntryWrite io k e w) s = .next u ∧ u.spanApert = s.spanApert) := by
  intro now
  have hn : (s.spanApert[io * 8 + k]?).getD 0 = now := by
    rw [Nat.mul_comm io, Vector.getElem?_eq_getElem hk]
    rfl
  have hs (x : BitVec 128) : s.spanApert.setIfInBounds (io * 8 + k) x = s.spanApert.set (8 * io + k) x := by
    simp only [Nat.mul_comm io]
    exact setIfInBounds_of_lt _ hk _
  refine ⟨fun h => ?_, fun p hw hp => ?_⟩
  · rw [← hs]
    rcases h with rfl | ⟨p, rfl, h1, h2⟩
    · rfl
    · exact congrArg Host.Outcome.next (if_pos ⟨(congrArg (fun x : BitVec 128 => bits x.toNat 39 35) hn).trans h1,
        h2.trans (congrArg (fun x : BitVec 128 => x &&& ~~~3) hn.symm)⟩)
  · subst hw
    refine ⟨_, congrArg Host.Outcome.next (if_neg (fun h => hp ?_)), (hosterr_tables ..).2⟩
    exact (congrArg (fun x : BitVec 128 => bits x.toNat 39 35) hn).symm.trans h.1

end Sys2Proof.Machine
end

section
/-! PROOFS. Writes of control words: what they change (O46). -/

namespace Sys2Proof.Machine
open Sys2Proof

variable {s : State} {v : DWord}

/-- The value of an event counter is written, or its select while its count is no free value. -/
theorem eventCounterWrite {die k : Nat} (hk : k < 64) :
    let e := s.evCounter die k
    let rest (u : State) : Prop := u = { s with evc := u.evc } ∧ ∀ d j, j < 64 → (d, j) ≠ (die, k) → u.evCounter d j = s.evCounter d j
    (∃ u, exec (.eventCounterWrite die k false v) s = .next u ∧ rest u ∧ (u.evCounter die k).count = v &&& 0xFFFFFFFFFFFF ∧
      (u.evCounter die k).sel = e.sel) ∧
    (openEvent e.sel = false → ∃ u, exec (.eventCounterWrite die k true v) s = .next u ∧ rest u ∧ (u.evCounter die k).count = e.count ∧
      ∀ j, j < 64 → (u.evCounter die k).sel.getLsbD j =
        if j = 61 then e.sel.getLsbD 61 && !v.getLsbD 61 else v.getLsbD j && (decide (j < 56) || decide (62 ≤ j))) := by
  intro e rest
  refine ⟨⟨_, rfl, ⟨rfl, fun d j hj h => evCounter_put_other _ hk hj h⟩, ?_⟩,
    fun ho => ⟨_, rfl, ⟨rfl, fun d j hj h => evCounter_put_other _ hk hj h⟩, ?_⟩⟩
  · rw [evCounter_put]
    exact ⟨rfl, rfl⟩
  · rw [evCounter_put]
    exact ⟨if_neg (by simp [e] at ho; simp [ho]), fun j hj => select_bits _ v hj⟩

/-- The memory control block of a die of a partition. -/
theorem memControlWrite {die p : Nat} {q : Part} (super : Bool) (hd : die < 24) (hp : s.partOfDie die = some p) (hq : s.part? p = some q) :
    let all (off : Nat) (c : MemCtl → MemCtl) : Prop :=
      ∃ u, exec (.registerWrite (.memControl die off super) v) s = .next u ∧ u = { s with dies := u.dies } ∧
        ∀ d ∈ q.dies, d < 24 → (u.die d).mcb = c (s.die d).mcb
    all 0x0 (fun m => { m with troot := v &&& 0xFFFFFFFFF0001 }) ∧
    (s.groups = [] → bits v.toNat 15 0 = 0 ∨ ((32 + die) * 2 ^ 46 ≤ bits v.toNat 51 16 * 65536 ∧
        (bits v.toNat 51 16 + bits v.toNat 15 0) * 65536 ≤ (32 + die) * 2 ^ 46 + Config.stackCapacity) →
      ∃ u, exec (.registerWrite (.memControl die 0x8 super) v) s = .next u ∧ u = { s with dies := u.dies } ∧
        (u.die die).mcb = { (s.die die).mcb with privpool := v &&& 0xFFFFFFFFFFFFF } ∧ ∀ d, d ≠ die → u.die d = s.die d) ∧
    (q.ibusy = false → all 0x10 (fun m => { m with iva := v &&& 0x7FFFFFFFFF0000 }) ∧
      (v.getLsbD 0 = false → all 0x18 (fun m => { m with ictl := v &&& 0xFFFF0002 })) ∧
      (v.getLsbD 0 = true → ∃ u, exec (.registerWrite (.memControl die 0x18 super) v) s = .next u ∧
        u.part? p = some { q with ibusy := true } ∧
        (v.getLsbD 1 = true → .tlbInvalidateAll p ∈ u.agenda) ∧
        (v.getLsbD 1 = false →
          .tlbInvalidateRange p (bits (s.die die).mcb.iva.toNat 54 16) (bits v.toNat 31 16) ∈ u.agenda))) ∧
    (q.ibusy = true → exec (.registerWrite (.memControl die 0x10 super) v) s = .next s ∧
      exec (.registerWrite (.memControl die 0x18 super) v) s = .next s) := by
  have goes (off : Nat) {u : State} (h : writeMemControl s die off super v = u) : exec (.registerWrite (.memControl die off super) v) s = .next u :=
    congrArg Host.Outcome.next h
  have all (off : Nat) {c : MemCtl → MemCtl} (h : writeMemControl s die off super v = setMcbs s q.dies c) (hc : ∀ m, c (c m) = c m) :
      ∃ u, exec (.registerWrite (.memControl die off super) v) s = .next u ∧ u = { s with dies := u.dies } ∧
        ∀ d ∈ q.dies, d < 24 → (u.die d).mcb = c (s.die d).mcb := by
    refine ⟨_, goes off h, setMcbs_eq .., fun d hm hd => ?_⟩
    rw [setMcbs_die hc hd, if_pos hm]
  refine ⟨all 0x0 (writeMemControl_root hp hq) (fun _ => rfl), fun hg hv => ?_, fun hb => ⟨?_, fun h0 => ?_, fun h0 => ?_⟩, fun hb => ?_⟩
  · refine ⟨_, goes 0x8 (writeMemControl_pool hp hg hv), rfl, ?_, fun d h => die_updDie_other _ _ h⟩
    rw [die_updDie_same _ hd]
  · exact all 0x10 (writeMemControl_iva hp hq hb) (fun _ => rfl)
  · exact all 0x18 (writeMemControl_ictl hp hq hb h0) (fun _ => rfl)
  · have hs : (setMcbs s q.dies (fun m => { m with ictl := v &&& 0xFFFF0002 })).part? p = some q := by
      rw [setMcbs_eq]
      exact hq
    refine ⟨_, goes 0x18 (writeMemControl_start hp hq hb h0), part?_updPart_some (fun _ => rfl) hs, fun h1 => ?_, fun h1 => ?_⟩
    · rw [h1]
      simp [State.later]
    · rw [h1]
      simp [State.later]
  · obtain ⟨h10, h18⟩ := writeMemControl_busy (v := v) (super := super) hp hq hb
    exact ⟨goes 0x10 h10, goes 0x18 h18⟩

/-- Settles O46: each word by the lemma of its block. -/
theorem controlWrites : Obligations.ControlWrites := by
  intro s v
  refine ⟨fun die k _ hk => eventCounterWrite hk, fun die super p q hd hp hq => memControlWrite super hd hp hq,
    fun p n port q hq => streamDescriptor n hq, fun die hd => ?_, fun k => ⟨spanClear_up, fun h => ?_⟩, fun k hk => ideRequire_done hk,
    fun io k e _ => ⟨fun h _ w => apertureEntry h e w, fun h _ w => spanApertureEntry h e w⟩⟩
  · obtain ⟨tsel, act⟩ := threadControlBlock (s := s) (v := v) hd
    exact ⟨tsel, act, fun e => faultEntryAct die e⟩
  · exact ⟨_, spanClear_down h, rfl, link_updLink_same ..⟩

end Sys2Proof.Machine
end

section
/-! PROOFS. A lone thread that issues (O57). -/

namespace Sys2Proof.Machine
open Sys2Proof

/-! The fetch (R264, R274). -/

theorem readBytes_half (m : Memory) (k : Nat) : (readBytes m k 2).setWidth 16 = memHalf m k := by
  apply BitVec.eq_of_toNat_eq
  rw [BitVec.toNat_setWidth, readBytes_toNat m k 2 (by decide), memHalf, BitVec.toNat_append, ← Nat.shiftLeft_add_eq_or_of_lt (memRead m k).isLt]
  have h0 := (memRead m k).isLt
  have h1 := (memRead m (k + 1)).isLt
  simp only [readList, leNat]
  omega

/-- A parcel that stands at a PC of a native thread is what the fetch finds there. -/
theorem fetchParcel_parcel {s : State} {t : Thread} {pc : Nat} {p : BitVec 16} (hc : t.isCuique = false) (h : Says.parcel s t pc p) :
    fetchParcel s t pc = .parcel p := by
  obtain ⟨hb, l, hl, rfl⟩ := h
  rw [fetchParcel, if_neg (by omega), hc]
  simp only [Bool.false_eq_true, if_false, hl, readBytes_half]

/-- Parcels that decode, in one or in two, are the instruction that a native thread fetches. -/
theorem fetch_instr {s : State} {t : Thread} {pc : Nat} {p q : BitVec 16} {i : Instr} (hc : t.isCuique = false) (hp : Says.parcel s t pc p)
    (hq : Says.parcel s t (pc + 1) q) (h : decode (Ver.ofByte t.version) [p] = some (i, 1) ∨ decode (Ver.ofByte t.version) [p, q] = some (i, 2)) :
    fetch s t pc = .instr i := by
  have hz : p ≠ 0 := by rintro rfl; simp [decode] at h
  rw [fetch, specialAt, hc]
  simp only [Bool.not_false, if_true, fetchParcel_parcel hc hp, fetchParcel_parcel hc hq, if_neg hz]
  split
  · next odd =>
    have e := h.resolve_left (by rw [decode, if_neg hz, if_pos odd]; simp)
    rw [decodeAt, e]
  · next even =>
    have e := h.resolve_right (by rw [decode, if_neg hz, if_neg even]; simp)
    rw [decodeAt, e]

/-! The choice (R101, R143). -/

theorem filterMap_if {α β : Type} (l : List α) (c : α → Bool) (b : β) :
    l.filterMap (fun a => if c a then some b else none) = (l.filter c).map (fun _ => b) := by
  induction l with
  | nil => rfl
  | cons a r ih => cases h : c a <;> simp [h, ih]

/-- Exactly one step of a rotation over 64 numbers looks at a number. -/
theorem filter_slot {k : Nat} (hk : k < 64) (last : Nat) : ∃ j, (last + 1 + j) % 64 = k ∧ (List.range 64).filter (fun i => k == (last + 1 + i) % 64) = [j] := by
  let j := (k + 64 - (last + 1) % 64) % 64
  have hj (i : Nat) (hi : i ∈ List.range 64) : (k == (last + 1 + i) % 64) = (i == j) := by
    have := List.mem_range.1 hi
    rw [Bool.eq_iff_iff, beq_iff_eq, beq_iff_eq]
    omega
  refine ⟨j, by omega, ?_⟩
  rw [List.filter_congr hj, List.filter_beq, List.count_eq_one_of_mem List.nodup_range (List.mem_range.2 (Nat.mod_lt _ (by decide)))]
  rfl

theorem rotation_lone (last : Nat) {t : Thread} {c k : Nat} (hp : t.place = .swarm c k) (hk : k < 64) : rotation last [t] = [t] := by
  obtain ⟨j, -, hj⟩ := filter_slot hk last
  have e : rotation last [t] = (List.range 64).filterMap (fun i => if (k == (last + 1 + i) % 64) then some t else none) := by
    simp only [rotation, List.find?_cons, hp, List.find?_nil]
    congr 1
    funext i
    cases k == (last + 1 + i) % 64 <;> rfl
  rw [e, filterMap_if, hj]
  rfl

theorem look_lone (n : Nat) (t : Thread) : look (n + 1) [t] = some (t.uid, []) := by
  simp [look]

theorem settleSkips_lone {s : State} (hl : s.th.live = true) (ht : s.threads = []) :
    settleSkips s s.th.uid [] = s.put { s.th with skip := 0, yields := 0 } := by
  simp [settleSkips, State.mapThreads, hl, ht, State.put]

theorem countIssue_eq (s : State) (c : Nat) : ∃ l k, countIssue s c = { s with cores := l, evc := k } := by
  obtain ⟨l, hl⟩ := coreEvent_cores s c 1 1
  obtain ⟨k, hk⟩ := clusterEvent_evc (coreEvent s c 1 1) c 1 0 1
  exact ⟨l, k, by rw [countIssue, hk, hl]⟩

section
variable {s : State} {c k : Nat} (hl : s.th.live = true) (ht : s.threads = []) (hp : s.th.place = .swarm c k)
include hl ht hp

/-- Its core chooses the only thread, whose turn counts start afresh; beside it only the marks of an issue change. -/
theorem chooseAt_lone (hk : k < 64) (hc : coreIsWave c = false ∨ coreCluster c = 15) (hi : (s.core c).issued ≤ s.clk) :
    ∃ l e, chooseAt s c [s.th] = some (.thread s.th.uid { s with th := { s.th with skip := 0, yields := 0 }, cores := l, evc := e }) := by
  have hw : (coreIsWave c && coreCluster c != 15) = false := by rcases hc with h | h <;> simp [h]
  rw [chooseAt, if_neg (by omega), hw]
  simp only [Bool.false_eq_true, if_false, rotation_lone _ hp hk, look_lone, settleSkips_lone hl ht]
  obtain ⟨l, e, h⟩ := countIssue_eq (markIssued (s.put { s.th with skip := 0, yields := 0 }) c
    ((([s.th].find? (fun t => t.uid == s.th.uid)).map Thread.slotNo).getD 0)) c
  exact ⟨l, e, by rw [h]; rfl⟩

theorem chooseIssue_lone (he : eligible s s.th = true) : chooseIssue s = chooseAt s c [s.th] := by
  have hs : s.selThreads (eligible s) = [s.th] := by simp [State.selThreads, ht, hl, he]
  have hco : s.th.core = c := by rw [Thread.core, hp]
  simp [chooseIssue, hs, coresOf, hco]

end

/-- With nothing else due, a lone eligible thread of a swarm core has the turn. -/
theorem turn_lone {s : State} (htr : s.trip = false) (hck : s.clockHeld = false) (hrx : s.th.rx = false) (hu : updateNow s = none)
    (hr : rejoin s (neededCore s) = none) (ha : s.agenda = []) (hti : ∀ x ∈ s.timers, s.clk < x.1) (hwd : watchdogNow s = none)
    (hwave : ∀ e ∈ s.cores, e.2.wave = []) {u : Nat} {z : State} (h : chooseIssue s = some (.thread u z)) : turn s = .thread u z := by
  have hrest : restOfWave s = none := by
    rw [restOfWave, List.find?_eq_none.2 (fun e he => by simp [hwave e he])]
  have hth : turn.turnThreads s = .thread u z := by
    rw [turn.turnThreads, hwd, hrest, h]
  have hnone : (updateNow s).orElse (fun _ => rejoin s (neededCore s)) = none := by rw [hu, hr]; rfl
  rw [turn, htr, hck, if_neg (by decide), prefixed, hrx, Bool.false_and, Bool.false_and, if_neg (by decide), hnone, ha]
  cases e : s.timers with
  | nil => exact hth
  | cons x r =>
    have late : ¬x.1 ≤ s.clk := Nat.not_le.2 (hti x (e ▸ List.mem_cons_self))
    exact (if_neg late).trans hth

/-! The issue. -/

/-- A native swarm thread without an event to take executes the instruction that it fetches. -/
theorem issue_instr {s : State} (hcur : s.th.cur = none) (hw : s.th.isWave = false) (hrx : s.th.rx = false)
    (hpend : s.th.inH = true ∨ (s.th.pend.getLsbD 2 = false ∧ s.th.pend.getLsbD 3 = false)) {i : Instr}
    (hf : fetch s s.th s.th.pc.toNat = .instr i) : issue s s.th.uid = exec i s := by
  have hset : s.th.settleCur s.clk = s.th := by rw [Thread.settleCur, hcur]
  have hev : takeEvent s s.th = s.th := by
    have h : takePending s.th s.clk = s.th := by
      rw [takePending]
      split
      · rfl
      · next ready =>
        rcases hpend with h | ⟨h2, h3⟩
        · simp [h] at ready
        · rw [h2, h3]
          rfl
    rw [takeEvent, h, ite_self]
  have hat : s.th.at_ = s.th.pc.toNat := by simp [Thread.at_, hrx]
  have hb : bringUp s s.th.uid = s := if_pos rfl
  have hrun : runThread s = exec i s := by
    rw [runThread, hat, hf]
    obtain ⟨u, hu⟩ := exec_next i s
    simp only [hu, scoreboard, hw, Bool.not_false, if_true]
  rw [issue, hb, hset, hev, if_neg (by simp)]
  exact hrun

/-- Settles O57: the core of the only eligible thread chooses it, and its issue is what stands at its PC. -/
theorem oneThreadRuns : Obligations.OneThreadRuns := by
  intro s c k p q i htr hck hrx hu hr ha hti hwd ht hp hk hc hi hcur hwave he hpend hcu hpp hpq hdec
  have hl : s.th.live = true := by
    simp only [eligible, Bool.and_eq_true] at he
    exact he.1.1.1.2
  obtain ⟨l, e, hch⟩ := chooseAt_lone hl ht hp hk hc hi
  let z : State := { s with th := { s.th with skip := 0, yields := 0 }, cores := l, evc := e }
  have hfetch : fetch z z.th z.th.pc.toNat = .instr i := fetch_instr (s := z) (t := z.th) hcu hpp hpq hdec
  have hw : z.th.isWave = false := by rw [show z.th.isWave = s.th.isWave from rfl, Thread.isWave, hp]
  refine ⟨z, ?_, rfl, rfl, ht, rfl, rfl⟩
  rw [step, turn_lone htr hck hrx hu hr ha hti hwd hwave ((chooseIssue_lone hl ht hp he).trans hch)]
  exact issue_instr (s := z) hcur hw hrx hpend hfetch

end Sys2Proof.Machine
end

section
/-! PROOFS. Gangs that are halted, and the saves that begin (R109 to R113). -/

namespace Sys2Proof.Machine
open Sys2Proof

variable {s u v : State}

/-! Gangs by their identities. -/

/-- A change of gangs that keeps their identities is seen through them. -/
theorem gang?_map {f : Gang → Gang} (hf : ∀ g, (f g).id = g.id) (h : u.gangs = s.gangs.map f) (j : Nat) : u.gang? j = (s.gang? j).map f := by
  rw [State.gang?, State.gang?, h, List.find?_map]
  congr 2
  funext g
  exact congrArg (· == j) (hf g)

theorem gang?_mem {j : Nat} {g : Gang} (h : s.gang? j = some g) : g ∈ s.gangs ∧ g.id = j :=
  ⟨List.mem_of_find?_eq_some h, by simpa using List.find?_some h⟩

theorem gang_unique (hn : (s.gangs.map Gang.id).Nodup) {g y : Gang} (hg : g ∈ s.gangs) (hy : y ∈ s.gangs) (h : y.id = g.id) : y = g :=
  List.inj_on_of_nodup_map hn hy hg h

theorem gang?_of_mem (hn : (s.gangs.map Gang.id).Nodup) {g : Gang} (hg : g ∈ s.gangs) : s.gang? g.id = some g := by
  cases e : s.gang? g.id with
  | none => exact absurd (List.find?_eq_none.1 e g hg) (by simp)
  | some y =>
    obtain ⟨hy, hi⟩ := gang?_mem e
    rw [gang_unique hn hg hy hi]

/-! The halt (R110). -/

/-- No mover holds a command. -/
def State.moversIdle (s : State) : Prop := ∀ e ∈ s.cores, e.2.movers = []

theorem mem_of_get {α : Type} {t : Table α} {k : Nat} {a : α} (h : Table.get t k = some a) : (k, a) ∈ t := by
  induction t with
  | nil => cases h
  | cons e r ih =>
    rw [Table.get] at h
    split at h
    · next e' => cases h; subst e'; exact List.mem_cons_self
    · exact List.mem_cons_of_mem _ (ih h)

theorem core_movers (h : s.moversIdle) (c : Nat) : (s.core c).movers = [] := by
  rw [State.core, Table.at]
  cases e : Table.get s.cores c with
  | none => rfl
  | some k => exact h _ (mem_of_get e)

theorem stopMovers_idle (h : s.moversIdle) (id c : Nat) : stopMovers s id c = s := by
  rw [stopMovers, core_movers h c]
  exact if_pos (by rw [core_movers h c]; rfl)

/-- A halted thread of a gang. -/
def haltThread (id : Nat) (t : Thread) : Thread := if t.gang == id && t.ofRecord then { t with hold := .halted } else t

/-- A gang whose save is under way. -/
def Gang.saving (evicted : Bool) (g : Gang) : Gang := { g with status := .saving, evicted := evicted }

theorem haltGang_idle (h : s.moversIdle) (id : Nat) (ev : Bool) :
    haltGang s id ev = (s.updGang id (Gang.saving ev)).mapThreads (haltThread id) := by
  have hf (l : List Nat) (z : State) (hz : z.moversIdle) : l.foldl (fun z c => stopMovers z id c) z = z := by
    induction l with
    | nil => rfl
    | cons c l ih => rw [List.foldl_cons, stopMovers_idle hz, ih]
  exact hf _ _ h

/-- Every thread of a gang is halted. -/
def State.halted (s : State) (id : Nat) : Prop := ∀ t ∈ s.th :: s.threads, t.gang = id → t.ofRecord = true → t.hold = .halted

/-- A change of threads that keeps their gangs and what is halted keeps gangs halted. -/
theorem halted_mapThreads {id : Nat} (h : s.halted id) {f : Thread → Thread}
    (hf : ∀ t : Thread, (f t).gang = t.gang ∧ (f t).ofRecord = t.ofRecord ∧ (t.hold = .halted → (f t).hold = .halted)) : (s.mapThreads f).halted id := by
  intro t ht hg ho
  rw [show (s.mapThreads f).th :: (s.mapThreads f).threads = (s.th :: s.threads).map f from rfl] at ht
  obtain ⟨x, hx, rfl⟩ := List.mem_map.1 ht
  obtain ⟨h1, h2, h3⟩ := hf x
  exact h3 (h x hx (h1 ▸ hg) (h2 ▸ ho))

theorem halted_of_crew {id : Nat} (e : u.crew = s.crew) (h : s.halted id) : u.halted id := by
  obtain ⟨h1, h2⟩ := Prod.mk.inj e
  rw [State.halted, h1, h2]
  exact h

theorem haltThread_halted (s : State) (id : Nat) : (s.mapThreads (haltThread id)).halted id := by
  intro t ht hg ho
  rw [show (s.mapThreads (haltThread id)).th :: (s.mapThreads (haltThread id)).threads = (s.th :: s.threads).map (haltThread id) from rfl] at ht
  obtain ⟨x, -, rfl⟩ := List.mem_map.1 ht
  unfold haltThread at hg ho ⊢
  split at hg
  · rw [if_pos ‹_›]
  · next n =>
    rw [if_neg n] at ho
    exact absurd (by simp [hg, ho]) n

theorem haltThread_keeps (id : Nat) (t : Thread) : (haltThread id t).gang = t.gang ∧ (haltThread id t).ofRecord = t.ofRecord ∧
    (t.hold = .halted → (haltThread id t).hold = .halted) := by
  unfold haltThread
  split
  · exact ⟨rfl, rfl, fun _ => rfl⟩
  · exact ⟨rfl, rfl, fun h => h⟩

/-- Gangs of a list are halted in turn, each with the end of its halt due. -/
def haltAll (s : State) (l : List Gang) (ev : Bool) : State := l.foldl (fun s g => (haltGang s g.id ev).at_ (s.clk + 2000) (.haltEnd g.id)) s

theorem haltAll_cons (h : s.moversIdle) (g : Gang) (l : List Gang) (ev : Bool) :
    haltAll s (g :: l) ev = haltAll (((s.updGang g.id (Gang.saving ev)).mapThreads (haltThread g.id)).at_ (s.clk + 2000) (.haltEnd g.id)) l ev := by
  rw [haltAll, List.foldl_cons, haltGang_idle h]
  rfl

theorem haltAll_eq (h : s.moversIdle) (l : List Gang) (ev : Bool) : haltAll s l ev =
    { s with th := (haltAll s l ev).th, threads := (haltAll s l ev).threads, gangs := (haltAll s l ev).gangs, timers := (haltAll s l ev).timers } := by
  induction l generalizing s with
  | nil => rfl
  | cons g l ih =>
    rw [haltAll_cons h, ih (by exact h)]
    rfl

theorem haltAll_gangs (h : s.moversIdle) (l : List Gang) (ev : Bool) :
    (haltAll s l ev).gangs = s.gangs.map (fun g => if g.id ∈ l.map Gang.id then g.saving ev else g) := by
  induction l generalizing s with
  | nil => simp [haltAll]
  | cons y l ih =>
    rw [haltAll_cons h, ih (by exact h)]
    simp only [State.due_gangs, State.mapThreads_gangs, State.updGang_gangs, List.map_map]
    refine List.map_congr_left (fun g _ => ?_)
    by_cases e : g.id = y.id
    · by_cases m : y.id ∈ l.map Gang.id <;> simp [e, m, Gang.saving]
    · simp [e]

theorem haltAll_halted (h : s.moversIdle) {l : List Gang} (ev : Bool) {id : Nat} (hi : id ∈ l.map Gang.id ∨ s.halted id) : (haltAll s l ev).halted id := by
  induction l generalizing s with
  | nil => exact hi.resolve_left (by simp)
  | cons g l ih =>
    rw [haltAll_cons h]
    refine ih (by exact h) ?_
    rw [List.map_cons, List.mem_cons, or_assoc] at hi
    rcases hi with rfl | hi | hi
    · exact .inr (haltThread_halted _ g.id)
    · exact .inl hi
    · exact .inr (halted_mapThreads hi (haltThread_keeps g.id))

/-! The save (R112), and cores that are vacated (R113). -/

/-- Saves begin and cores are vacated: threads, cores, dies and what is due change; what was due stays so, and gangs stay halted. -/
def State.vacates (s u : State) : Prop :=
  u = { s with th := u.th, threads := u.threads, cores := u.cores, dies := u.dies, timers := u.timers } ∧ (∀ x ∈ s.timers, x ∈ u.timers) ∧
    ∀ id, s.halted id → u.halted id

theorem State.vacates.refl (s : State) : s.vacates s := ⟨rfl, fun _ h => h, fun _ h => h⟩

theorem State.vacates.trans (h : s.vacates u) (k : u.vacates v) : s.vacates v := by
  obtain ⟨h1, h2, h3⟩ := h
  obtain ⟨k1, k2, k3⟩ := k
  refine ⟨?_, fun x hx => k2 x (h2 x hx), fun id hi => k3 id (h3 id hi)⟩
  rw [h1] at k1
  exact k1

theorem vacates_foldl {α : Type} {f : State → α → State} (h : ∀ (s : State) x, s.vacates (f s x)) (l : List α) (s : State) : s.vacates (l.foldl f s) := by
  induction l generalizing s with
  | nil => exact .refl s
  | cons x l ih => exact (h s x).trans (ih _)

theorem vacates_at_ (s : State) (c : Nat) (e : Event) : s.vacates (s.at_ c e) :=
  ⟨rfl, fun _ hx => (mem_at_ ..).2 (.inr hx), fun _ => halted_of_crew rfl⟩

theorem vacates_atOnce (s : State) (c : Nat) (e : Event) : s.vacates (s.atOnce c e) := by
  unfold State.atOnce
  split
  · exact .refl s
  · exact vacates_at_ s c e

theorem vacates_updDie (s : State) (d : Nat) (f : Die → Die) : s.vacates (s.updDie d f) := ⟨rfl, fun _ h => h, fun _ => halted_of_crew rfl⟩

theorem vacates_updCore (s : State) (c : Nat) (f : Core → Core) : s.vacates (s.updCore c f) := ⟨rfl, fun _ h => h, fun _ => halted_of_crew rfl⟩

theorem vacates_moved (s : State) (n : Nat) : s.vacates (s.updThread n (fun t => { t with place := .transit t.homeCore, vacated := t.run != .ready })) := by
  refine ⟨rfl, fun _ h => h, fun id hi => halted_mapThreads hi (fun t => ?_)⟩
  split <;> exact ⟨rfl, rfl, fun h => h⟩

theorem vacateDie_vacates (s : State) (d : Nat) : s.vacates (vacateDie s d) := by
  refine vacates_foldl (fun s t => ?_) _ s
  have hm := (vacates_updCore s t.core (fun k => { k with landing := k.landing.filter (· != t.uid), overflow := k.overflow.filter (· != t.uid) })).trans
    (vacates_moved _ t.uid)
  dsimp only
  split
  · exact hm
  · exact hm.trans ((vacates_updCore ..).trans (vacates_atOnce ..))

/-- Each of these gangs has the end of its save due, no sooner than after 60,000 clk. -/
theorem beginSave_vacates (s : State) (d : Nat) (ids : List Nat) : s.vacates (beginSave s d ids) ∧
    ∀ id ∈ ids, ∃ k, s.clk + 60000 ≤ k ∧ (k, .saveComplete id) ∈ (beginSave s d ids).timers := by
  unfold beginSave
  extract_lets mate free stop s1
  have h1 : s.vacates s1 := vacates_foldl (fun s e => vacates_updDie ..) _ s
  have hk : s.clk + 60000 ≤ stop := by
    have : 60000 ≤ (if mate.isSome then 60000 else 120000) := by split <;> omega
    omega
  refine ⟨h1.trans (vacates_foldl (fun s g => vacates_at_ ..) ids s1), fun id hi => ⟨stop, hk, ?_⟩⟩
  clear_value s1
  induction ids generalizing s1 with
  | nil => cases hi
  | cons g l ih =>
    rcases List.mem_cons.1 hi with rfl | hi
    · exact (vacates_foldl (fun s g => vacates_at_ s stop (.saveComplete g)) l _).2.1 _ ((mem_at_ ..).2 (.inl rfl))
    · exact ih _ (h1.trans (vacates_at_ ..)) hi

/-! The whole request (R109). -/

/-- The resident gangs of a request. -/
def targets (s : State) (ids : List Nat) : List Gang := s.gangs.filter (fun g => ids.contains g.id && g.status == .resident)

/-- The saves of gangs on a die begin, and its cores are vacated. -/
def saveOn (l : List Gang) (s : State) (d : Nat) : State := vacateDie (beginSave s d ((l.filter (fun g => g.die == d)).map Gang.id)) d

theorem preempt_eq (s : State) (ids : List Nat) (ev : Bool) :
    preempt s ids ev = (ascending 24 ((targets s ids).map Gang.die)).foldl (saveOn (targets s ids)) (haltAll s (targets s ids) ev) := rfl

theorem saveOn_vacates (l : List Gang) (s : State) (d : Nat) : s.vacates (saveOn l s d) := (beginSave_vacates ..).1.trans (vacateDie_vacates ..)

theorem preempt_vacates (s : State) (ids : List Nat) (ev : Bool) : (haltAll s (targets s ids) ev).vacates (preempt s ids ev) :=
  vacates_foldl (saveOn_vacates _) _ _

variable {ids : List Nat} {ev : Bool}

/-- The state without threads, gangs, cores, dies and what is due at a later clk. -/
def State.sansGangs (s : State) : State :=
  { s with th := Thread.reset, threads := [], gangs := [], cores := [], dies := Vector.replicate 24 Die.reset, timers := [] }

/-- A request changes threads, gangs, cores, dies and what is due, and nothing else. -/
theorem preempt_sansGangs (h : s.moversIdle) : (preempt s ids ev).sansGangs = s.sansGangs :=
  (congrArg State.sansGangs (preempt_vacates s ids ev).1 :).trans (congrArg State.sansGangs (haltAll_eq h (targets s ids) ev) :)

theorem preempt_gangs (h : s.moversIdle) :
    (preempt s ids ev).gangs = s.gangs.map (fun g => if g.id ∈ (targets s ids).map Gang.id then g.saving ev else g) := by
  have e : (preempt s ids ev).gangs = (haltAll s (targets s ids) ev).gangs := (congrArg State.gangs (preempt_vacates s ids ev).1 :)
  rw [e, haltAll_gangs h]

theorem preempt_gang? (h : s.moversIdle) (j : Nat) :
    (preempt s ids ev).gang? j = (s.gang? j).map (fun g => if g.id ∈ (targets s ids).map Gang.id then g.saving ev else g) :=
  gang?_map (fun g => by split <;> rfl) (preempt_gangs h) j

theorem mem_targets {g : Gang} (hg : g ∈ s.gangs) (hi : g.id ∈ ids) (hr : g.status = .resident) : g ∈ targets s ids :=
  List.mem_filter.2 ⟨hg, by simp [hi, hr]⟩

theorem targets_id {g : Gang} (h : g ∈ targets s ids) : g.id ∈ ids := by
  have e := (List.mem_filter.1 h).2
  rw [Bool.and_eq_true, List.contains_iff_mem] at e
  exact e.1

theorem preempt_halted (h : s.moversIdle) {g : Gang} (hg : g ∈ targets s ids) : (preempt s ids ev).halted g.id :=
  (preempt_vacates s ids ev).2.2 _ (haltAll_halted h ev (.inl (List.mem_map_of_mem hg)))

/-- Every gang of the request has the end of its save due. -/
theorem preempt_saves (h : s.moversIdle) {g : Gang} (hg : g ∈ targets s ids) (hd : g.die < 24) :
    ∃ k, s.clk + 60000 ≤ k ∧ (k, .saveComplete g.id) ∈ (preempt s ids ev).timers := by
  have hm : g.die ∈ ascending 24 ((targets s ids).map Gang.die) :=
    List.mem_filter.2 ⟨List.mem_range.2 hd, by simpa using ⟨g, hg, rfl⟩⟩
  obtain ⟨a, b, e⟩ := List.append_of_mem hm
  have hc : (haltAll s (targets s ids) ev).clk = s.clk := (congrArg State.clk (haltAll_eq h (targets s ids) ev) :)
  have ha := vacates_foldl (saveOn_vacates (targets s ids)) a (haltAll s (targets s ids) ev)
  obtain ⟨k, hk, ht⟩ := (beginSave_vacates (a.foldl (saveOn (targets s ids)) (haltAll s (targets s ids) ev)) g.die
    (((targets s ids).filter (fun x => x.die == g.die)).map Gang.id)).2 g.id (List.mem_map_of_mem (List.mem_filter.2 ⟨hg, by simp⟩))
  refine ⟨k, ?_, ?_⟩
  · rw [show (a.foldl (saveOn (targets s ids)) (haltAll s (targets s ids) ev)).clk = s.clk from (congrArg State.clk ha.1 :).trans hc] at hk
    exact hk
  · rw [preempt_eq, e, List.foldl_append, List.foldl_cons]
    exact (vacates_foldl (saveOn_vacates _) b _).2.1 _ ((vacateDie_vacates ..).2.1 _ ht)

/-- A resident gang that alone is pre-empted halts at once and is being saved. -/
theorem preempt_one (h : s.moversIdle) {id : Nat} {g : Gang} (hg : s.gang? id = some g) (hd : g.die < 24) (hr : g.status = .resident) :
    s.sameMem (preempt s [id] false) ∧ (preempt s [id] false).gang? id = some { g with status := .saving, evicted := false } ∧
      (∀ j, j ≠ id → (preempt s [id] false).gang? j = s.gang? j) ∧ (preempt s [id] false).halted id ∧
      ∃ k, s.clk + 60000 ≤ k ∧ (k, .saveComplete id) ∈ (preempt s [id] false).timers := by
  obtain ⟨hm, rfl⟩ := gang?_mem hg
  have ht : g ∈ targets s [g.id] := mem_targets hm (by simp) hr
  refine ⟨sameMem_of_mem (congrArg State.mem (preempt_sansGangs h) :), ?_, fun j hj => ?_, preempt_halted h ht, preempt_saves h ht hd⟩
  · rw [preempt_gang? h, hg, Option.map_some, if_pos (List.mem_map_of_mem ht)]
    rfl
  · rw [preempt_gang? h]
    cases e : s.gang? j with
    | none => rfl
    | some y =>
      have hy : y.id ∉ (targets s [g.id]).map Gang.id := by
        intro hy
        obtain ⟨z, hz, e'⟩ := List.mem_map.1 hy
        have hyj := (gang?_mem e).2
        have hzi := targets_id hz
        rw [List.mem_singleton] at hzi
        omega
      rw [Option.map_some, if_neg hy]

end Sys2Proof.Machine
end

section
/-! PROOFS. Gangs that are pre-empted, saved and restored (R109 to R113). -/

namespace Sys2Proof.Machine
open Sys2Proof

variable {s u v : State} {id : Nat} {g : Gang}

/-! Requests (R109). -/

theorem framePreemption_preempts {die p : Nat} (hp : s.partOfDie die = some p) : exec (.framePreemption die) s = .next (preempt s (frameTargets s p die) false) := by
  rw [show exec (.framePreemption die) s = execFramePreemption die s from rfl, execFramePreemption, hp]

/-- The saves of whole dies change dies alone. -/
theorem preemptionRequest_dies (s : State) (ids : List Nat) : ∃ l, exec (.preemptionRequest ids) s = .next { preempt s ids false with dies := l } := by
  let whole (d : Nat) : DieSave := ⟨(s.gangs.filter (fun g => g.die == d && g.status == .resident)).map Gang.id, [], [], []⟩
  have h (l : List Nat) (z : State) : ∃ x, l.foldl (fun z d => z.updDie d (fun x => { x with saved := some (whole d) })) z = { z with dies := x } := by
    induction l generalizing z with
    | nil => exact ⟨_, rfl⟩
    | cons d l ih =>
      obtain ⟨x, e⟩ := ih (z.updDie d (fun x => { x with saved := some (whole d) }))
      exact ⟨x, e⟩
  obtain ⟨x, e⟩ := h ((List.range 24).filter (wholeDie s ids)) (preempt s ids false)
  exact ⟨x, congrArg Host.Outcome.next e⟩

/-! What a save and a restore keep of a thread (R111). -/

/-- The context of a thread, as far as a save keeps it. -/
def Thread.context (t : Thread) : Thread := { t with run := .absent, hold := .running, readyAt := 0, parkedAt := 0, replay := [] }

/-- Every thread has a later self with the same context and hold. -/
def State.holds (s u : State) : Prop := ∀ t ∈ s.th :: s.threads, ∃ v ∈ u.th :: u.threads, v.context = t.context ∧ v.hold = t.hold

theorem State.holds.refl (s : State) : s.holds s := fun t ht => ⟨t, ht, rfl, rfl⟩

theorem State.holds.trans (h : s.holds u) (k : u.holds v) : s.holds v := by
  intro t ht
  obtain ⟨x, hx, e1, e2⟩ := h t ht
  obtain ⟨y, hy, f1, f2⟩ := k x hx
  exact ⟨y, hy, f1.trans e1, f2.trans e2⟩

theorem holds_of_crew (h : u.crew = s.crew) : s.holds u := by
  obtain ⟨h1, h2⟩ := Prod.mk.inj h
  intro t ht
  exact ⟨t, by rw [h1, h2]; exact ht, rfl, rfl⟩

theorem holds_mapThreads (s : State) {f : Thread → Thread} (hf : ∀ t : Thread, (f t).context = t.context ∧ (f t).hold = t.hold) : s.holds (s.mapThreads f) :=
  fun t ht => ⟨f t, List.mem_map_of_mem ht, hf t⟩

/-- What equality of contexts says of a thread. -/
theorem specials_of_context {t v : Thread} (h : v.context = t.context) : v.uid = t.uid ∧ v.g = t.g ∧ v.p = t.p ∧ v.idx = t.idx ∧ v.x = t.x ∧
    v.pc = t.pc ∧ v.place = t.place ∧ t.specials { v with hold := t.hold } := by
  refine ⟨(congrArg Thread.uid h :), (congrArg Thread.g h :), (congrArg Thread.p h :), (congrArg Thread.idx h :), (congrArg Thread.x h :),
    (congrArg Thread.pc h :), (congrArg Thread.place h :), (congrArg Thread.h h :), (congrArg Thread.lhpc h :), (congrArg Thread.lhen h :),
    (congrArg Thread.lhret h :), (congrArg Thread.lhcause h :), (congrArg Thread.lhdat h :), (congrArg Thread.inH h :), (congrArg Thread.pend h :),
    (congrArg Thread.count h :), (congrArg Thread.fxen h :), (congrArg Thread.compat h :), (congrArg Thread.version h :), (congrArg Thread.place h :),
    (congrArg Thread.uid h :), rfl, (congrArg Thread.part h :), (congrArg Thread.grp h :), (congrArg Thread.gang h :)⟩

/-! The end of a save (R112). -/

theorem haltEnds_none (h : s.flights = []) (id : Nat) : haltEnds s id = s := by
  have hs (t : Thread) : saveThread s t = s := by
    rw [saveThread]
    simp [h]
  have hf (l : List Thread) : l.foldl saveThread s = s := by
    induction l with
    | nil => rfl
    | cons t l ih => rw [List.foldl_cons, hs, ih]
  unfold haltEnds
  split
  · rfl
  · split
    · rfl
    · exact hf _

/-- Memory and the gangs. -/
def State.memGangs (s : State) : Memory × List Gang := (s.mem, s.gangs)

theorem saveGroup_keeps (s : State) (x : Group) : (saveGroup s x).memGangs = s.memGangs ∧ (saveGroup s x).crew = s.crew := by
  unfold saveGroup
  extract_lets cl inn wires rills s1
  have h {β : Type} {φ : State → β} (hφ : ∀ s c f, φ (State.updCore s c f) = φ s) (l : List Nat) :
      φ (l.foldl (fun s c => s.updCore c (fun k => { k with wires := [], rill := Vector.replicate 4 [] })) s1) = φ s1 :=
    foldl_keeps (fun s c => hφ ..) l s1
  exact ⟨(h (φ := State.memGangs) (fun _ _ _ => rfl) _).trans rfl, (h (φ := State.crew) (fun _ _ _ => rfl) _).trans rfl⟩

theorem offerPlace_holds (s : State) (p : Place) : s.holds (offerPlace s p) ∧ (offerPlace s p).memGangs = s.memGangs := by
  have poke (s : State) (c : Nat) : s.holds (pokeEngine s c) ∧ (pokeEngine s c).memGangs = s.memGangs := by
    refine ⟨holds_mapThreads s (fun t => ?_), rfl⟩
    split <;> exact ⟨rfl, rfl⟩
  cases p with
  | swarm c k =>
    obtain ⟨h1, h2⟩ := poke (if (s.core c).landing.isEmpty then s else s.later (.landingSlotTake c)) (c / 64)
    have h0 : s.holds (if (s.core c).landing.isEmpty then s else s.later (.landingSlotTake c)) :=
      holds_of_crew (ite_keeps (φ := State.crew) rfl rfl)
    exact ⟨h0.trans h1, h2.trans (ite_keeps (φ := State.memGangs) rfl rfl)⟩
  | wave c k l => exact poke ..
  | nowhere => exact ⟨.refl s, rfl⟩
  | transit c => exact ⟨.refl s, rfl⟩

/-- A thread of a saved gang gives up its place. -/
def leavePlace (s : State) (t : Thread) : State :=
  match t.place with
  | .transit c => s.updCore c (fun k => { k with landing := k.landing.filter (· != t.uid), overflow := k.overflow.filter (· != t.uid) })
  | p => offerPlace s p

theorem leavePlace_holds (s : State) (t : Thread) : s.holds (leavePlace s t) ∧ (leavePlace s t).memGangs = s.memGangs := by
  unfold leavePlace
  split
  · exact ⟨holds_of_crew rfl, rfl⟩
  · exact offerPlace_holds ..

/-- A thread of a saved gang. -/
def savedThread (id : Nat) (t : Thread) : Thread := if t.gang == id && t.ofRecord then { t with hold := .saved } else t

/-- The groups of a gang saved. -/
def saveGroups (s : State) (id : Nat) : State := (s.groups.filter (fun x => x.gang == id)).foldl saveGroup s

/-- A gang saved with its die, groups and threads, which still have their places. -/
def keepGang (s : State) (g : Gang) : State :=
  ((saveGroups (saveDie s g.die) g.id).updGang g.id (fun g => { g with status := .saved })).mapThreads (savedThread g.id)

/-- A gang saved, its places given up. -/
def saveGang (s : State) (g : Gang) : State := (s.gangThreads g.id).foldl leavePlace (keepGang s g)

theorem saveComplete_eq (hg : s.gang? id = some g) (hs : g.status = .saving) (hf : s.flights = []) : exec (.saveComplete id) s = .next
    ((saveGang s g).atOnce (nextMultiple ((saveGang s g).clk + 1) 64) .placementWindow) := by
  obtain ⟨-, rfl⟩ := gang?_mem hg
  rw [show exec (.saveComplete g.id) s = execSaveComplete g.id s from rfl, execSaveComplete, hg]
  simp only [hs, haltEnds_none hf]
  rfl

theorem leavePlaces_holds (l : List Thread) (s : State) : s.holds (l.foldl leavePlace s) ∧ (l.foldl leavePlace s).memGangs = s.memGangs := by
  induction l generalizing s with
  | nil => exact ⟨.refl s, rfl⟩
  | cons t l ih =>
    obtain ⟨h1, h2⟩ := leavePlace_holds s t
    obtain ⟨k1, k2⟩ := ih (leavePlace s t)
    exact ⟨h1.trans k1, k2.trans h2⟩

theorem saveGroups_keeps (s : State) (die id : Nat) : (saveGroups (saveDie s die) id).memGangs = s.memGangs ∧ (saveGroups (saveDie s die) id).crew = s.crew :=
  ⟨foldl_keeps (fun s x => (saveGroup_keeps s x).1) _ _, foldl_keeps (fun s x => (saveGroup_keeps s x).2) _ _⟩

/-- The gang is saved, memory is as before, and its threads keep their context. -/
theorem saveGang_keeps (hg : s.gang? id = some g) : (saveGang s g).mem = s.mem ∧ (saveGang s g).gang? id = some { g with status := .saved } ∧
    ∀ t ∈ s.th :: s.threads, t.gang = id → t.ofRecord = true → ∃ v ∈ (saveGang s g).th :: (saveGang s g).threads, v.context = t.context ∧ v.hold = .saved := by
  obtain ⟨-, rfl⟩ := gang?_mem hg
  obtain ⟨hk, hc⟩ := saveGroups_keeps s g.die g.id
  obtain ⟨hl, hm⟩ := leavePlaces_holds (s.gangThreads g.id) (keepGang s g)
  have hsg : (saveGroups (saveDie s g.die) g.id).gangs = s.gangs := congrArg Prod.snd hk
  have hgs : (saveGang s g).gangs = s.gangs.map (fun x => if x.id == g.id then { x with status := .saved } else x) := by
    rw [← hsg]
    exact congrArg Prod.snd hm
  refine ⟨((congrArg Prod.fst hm :).trans (congrArg Prod.fst hk :)), ?_, fun t ht hgt ho => ?_⟩
  · rw [gang?_map (fun x => by split <;> rfl) hgs, hg, Option.map_some, if_pos (beq_self_eq_true g.id)]
  · obtain ⟨c1, c2⟩ := Prod.mk.inj hc
    have hx : savedThread g.id t = { t with hold := .saved } := if_pos (by simp [hgt, ho])
    obtain ⟨v, hv, e1, e2⟩ := hl (savedThread g.id t) (List.mem_map_of_mem (f := savedThread g.id) (by
      show t ∈ (saveGroups (saveDie s g.die) g.id).th :: (saveGroups (saveDie s g.die) g.id).threads
      rw [c1, c2]
      exact ht))
    rw [hx] at e1 e2
    exact ⟨v, hv, e1, e2⟩

/-! The end of a restore (R112). -/

theorem restoreDie_keeps (s : State) (die id : Nat) : (restoreDie s die id).crew = s.crew ∧ (restoreDie s die id).gangs = s.gangs := by
  unfold restoreDie
  split
  · exact ⟨rfl, rfl⟩
  · split
    · exact ⟨rfl, rfl⟩
    · extract_lets s1 s2
      have h {β : Type} {φ : State → β} (hφ : ∀ s c f, φ (State.updCore s c f) = φ s) : φ s2 = φ s1 := foldl_keeps (fun s c => hφ ..) _ _
      exact ⟨(h (φ := State.crew) (fun _ _ _ => rfl) :), (h (φ := State.gangs) (fun _ _ _ => rfl) :)⟩

theorem restoreGroup_keeps (s : State) (x : Group) : (restoreGroup s x).crew = s.crew ∧ (restoreGroup s x).gangs = s.gangs := by
  unfold restoreGroup
  split
  · exact ⟨rfl, rfl⟩
  · extract_lets cl inn s1 s2 s3
    have h {β : Type} {φ : State → β} (hφ : ∀ s c f, φ (State.updCore s c f) = φ s) : φ s3 = φ s1 :=
      (foldl_keeps (fun s c => hφ ..) _ _).trans (foldl_keeps (fun s c => hφ ..) _ _)
    exact ⟨(h (φ := State.crew) (fun _ _ _ => rfl) :), (h (φ := State.gangs) (fun _ _ _ => rfl) :)⟩

/-- A ready thread as its restore leaves it: it is due at a clk. -/
def restored (c : Nat) (t : Thread) : Thread := { t with hold := .running, replay := [], run := .ready, readyAt := max t.readyAt c, parkedAt := c }

theorem restored_context (c : Nat) (t : Thread) : (restored c t).context = t.context := rfl

/-- A thread whose restore does nothing but make it ready. -/
def Thread.restores (t : Thread) : Prop := t.run = .ready ∧ t.replay = [] ∧ ∀ c, t.place ≠ .transit c

theorem restoreThread_ready {t : Thread} (h : t.restores) (s : State) (c : Nat) : restoreThread s c t = s.updThread t.uid (fun _ => restored c t) := by
  obtain ⟨hr, hp, hl⟩ := h
  unfold restoreThread
  simp only [hr, hp, List.foldl_nil]
  rfl

/-- Threads restored in turn, of which no two have one identity: each stands there restored. -/
theorem restoreThreads_mem {l : List Thread} (hl : ∀ t ∈ l, t.restores) (hn : (l.map Thread.uid).Nodup) (c : Nat) {t : Thread} (ht : t ∈ l)
    (hs : ∃ x ∈ s.th :: s.threads, x.uid = t.uid) :
    restored c t ∈ (l.foldl (fun s t => restoreThread s c t) s).th :: (l.foldl (fun s t => restoreThread s c t) s).threads := by
  have crew (s : State) (y : Thread) : (s.updThread y.uid (fun _ => restored c y)).th :: (s.updThread y.uid (fun _ => restored c y)).threads =
      (s.th :: s.threads).map (fun x => if x.uid == y.uid then restored c y else x) := rfl
  have stays {l : List Thread} (hl : ∀ t ∈ l, t.restores) {v : Thread} (hv : v.uid ∉ l.map Thread.uid) (s : State) (hm : v ∈ s.th :: s.threads) :
      v ∈ (l.foldl (fun s t => restoreThread s c t) s).th :: (l.foldl (fun s t => restoreThread s c t) s).threads := by
    induction l generalizing s with
    | nil => exact hm
    | cons y l ih =>
      rw [List.map_cons, List.mem_cons, not_or] at hv
      rw [List.foldl_cons, restoreThread_ready (hl y List.mem_cons_self)]
      refine ih (fun t ht => hl t (List.mem_cons_of_mem _ ht)) hv.2 _ ?_
      rw [crew]
      exact List.mem_map.2 ⟨v, hm, if_neg (by simpa using hv.1)⟩
  induction l generalizing s with
  | nil => cases ht
  | cons y l ih =>
    have hl' : ∀ t ∈ l, t.restores := fun t ht => hl t (List.mem_cons_of_mem _ ht)
    rw [List.map_cons, List.nodup_cons] at hn
    obtain ⟨x, hx, hu⟩ := hs
    rw [List.foldl_cons, restoreThread_ready (hl y List.mem_cons_self)]
    rcases List.mem_cons.1 ht with rfl | ht
    · refine stays (v := restored c t) hl' hn.1 _ ?_
      rw [crew]
      exact List.mem_map.2 ⟨x, hx, if_pos (by simpa using hu)⟩
    · refine ih hl' hn.2 ht ⟨x, ?_, hu⟩
      have hne : x.uid ≠ y.uid := by
        rw [hu]
        rintro e
        exact hn.1 (e ▸ List.mem_map_of_mem ht)
      rw [crew]
      exact List.mem_map.2 ⟨x, hx, if_neg (by simpa using hne)⟩

theorem restoreThreads_gangs {l : List Thread} (hl : ∀ t ∈ l, t.restores) (c : Nat) (s : State) :
    (l.foldl (fun s t => restoreThread s c t) s).gangs = s.gangs := by
  induction l generalizing s with
  | nil => rfl
  | cons y l ih =>
    rw [List.foldl_cons, restoreThread_ready (hl y List.mem_cons_self)]
    exact ih (fun t ht => hl t (List.mem_cons_of_mem _ ht)) _

/-- A restored gang before its threads are ready: its die and groups stand as they were saved. -/
def returnGang (s : State) (g : Gang) : State :=
  (((s.groups.filter (fun x => x.gang == g.id)).foldl restoreGroup (restoreDie s g.die g.id))).updGang g.id
    (fun g => { g with status := .resident, evicted := false, movers := [] })

theorem returnGang_keeps (s : State) (g : Gang) : (returnGang s g).crew = s.crew ∧
    (returnGang s g).gangs = s.gangs.map (fun x => if x.id == g.id then { x with status := .resident, evicted := false, movers := [] } else x) := by
  have h1 : ((s.groups.filter (fun x => x.gang == g.id)).foldl restoreGroup (restoreDie s g.die g.id)).crew = s.crew :=
    (foldl_keeps (fun s x => (restoreGroup_keeps s x).1) _ _).trans (restoreDie_keeps ..).1
  have h2 : ((s.groups.filter (fun x => x.gang == g.id)).foldl restoreGroup (restoreDie s g.die g.id)).gangs = s.gangs :=
    (foldl_keeps (fun s x => (restoreGroup_keeps s x).2) _ _).trans (restoreDie_keeps ..).2
  exact ⟨h1, by rw [← h2]; rfl⟩

theorem restoreComplete_eq (hg : s.gang? id = some g) (hs : g.status = .restoring) (hm : g.movers = []) : exec (.restoreComplete id) s = .next
    (((returnGang s g).gangThreads id).foldl (fun u t => restoreThread u (nextMultiple (s.clk + 1) 64) t) (returnGang s g)) := by
  obtain ⟨-, rfl⟩ := gang?_mem hg
  rw [show exec (.restoreComplete g.id) s = execRestoreComplete g.id s from rfl, execRestoreComplete, hg]
  simp only [hs, hm]
  rfl

/-- The next window comes later. -/
theorem nextMultiple_gt (c : Nat) : c < nextMultiple (c + 1) 64 := by
  unfold nextMultiple
  omega

/-- The gang is resident again, and its threads are due at the next window. -/
theorem restoreComplete_returns (hg : s.gang? id = some g) (hs : g.status = .restoring) (hm : g.movers = [])
    (hn : ((s.th :: s.threads).map Thread.uid).Nodup) (hr : ∀ t ∈ s.th :: s.threads, t.gang = id → t.ofRecord = true → t.restores) :
    ∃ u, exec (.restoreComplete id) s = .next u ∧ u.gang? id = some { g with status := .resident, evicted := false } ∧
      ∀ t ∈ s.th :: s.threads, t.gang = id → t.ofRecord = true → restored (nextMultiple (s.clk + 1) 64) t ∈ u.th :: u.threads := by
  obtain ⟨hc, hgs⟩ := returnGang_keeps s g
  obtain ⟨c1, c2⟩ := Prod.mk.inj hc
  have hts : (returnGang s g).gangThreads id = s.gangThreads id := by rw [State.gangThreads, c1, c2]; rfl
  have hl : ∀ t ∈ s.gangThreads id, t.restores := fun t ht => by
    obtain ⟨h1, h2⟩ := List.mem_filter.1 ht
    rw [Bool.and_eq_true, beq_iff_eq] at h2
    exact hr t h1 h2.1 h2.2
  refine ⟨_, restoreComplete_eq hg hs hm, ?_, fun t ht hgt ho => ?_⟩
  · rw [hts, gang?_map (fun x => by split <;> rfl) ((restoreThreads_gangs hl _ _).trans hgs), hg, Option.map_some, if_pos (by simp [(gang?_mem hg).2]), hm]
  · rw [hts]
    refine restoreThreads_mem hl (hn.sublist (List.filter_sublist.map Thread.uid)) _ (List.mem_filter.2 ⟨ht, by simp [hgt, ho]⟩) ⟨t, ?_, rfl⟩
    rw [c1, c2]
    exact ht

/-- Requests, saves and restores, case by case. -/
theorem gangsPreempted : Says.GangsPreempted := by
  intro s id g hg hd _ hm halts
  refine ⟨fun hr => ⟨?_, fun die p hp ht => ?_⟩, fun hs hf => ?_, fun hs hmv hn hr => ?_⟩
  · obtain ⟨l, e⟩ := preemptionRequest_dies s [id]
    exact ⟨_, e, preempt_one hm hg hd hr⟩
  · exact ⟨_, ht ▸ framePreemption_preempts hp, preempt_one hm hg hd hr⟩
  · obtain ⟨h1, h2, h3⟩ := saveGang_keeps hg
    obtain ⟨k, hk⟩ := atOnce_mem (saveGang s g) (nextMultiple ((saveGang s g).clk + 1) 64) .placementWindow
    refine ⟨_, saveComplete_eq hg hs hf, ?_, ?_, fun t ht hgt ho => ?_, k, hk⟩
    · rw [atOnce_eq]
      exact sameMem_of_mem h1
    · rw [atOnce_eq]
      exact h2
    · obtain ⟨v, hv, e1, e2⟩ := h3 t ht hgt ho
      obtain ⟨c1, c2, c3, c4, c5, c6, c7, c8⟩ := specials_of_context e1
      rw [atOnce_eq]
      exact ⟨v, hv, c1, e2, c2, c3, c4, c5, c6, c7, c8⟩
  · obtain ⟨u, e, h1, h2⟩ := restoreComplete_returns hg hs hmv hn hr
    refine ⟨u, e, h1, fun t ht hgt ho => ?_⟩
    obtain ⟨c1, c2, c3, c4, c5, c6, c7, c8⟩ := specials_of_context (restored_context (nextMultiple (s.clk + 1) 64) t)
    have due : s.clk < max t.readyAt (nextMultiple (s.clk + 1) 64) := Nat.lt_of_lt_of_le (nextMultiple_gt s.clk) (Nat.le_max_right ..)
    exact ⟨_, h2 t ht hgt ho, c1, rfl, rfl, due, c2, c3, c4, c5, c6, c7, c8⟩

end Sys2Proof.Machine
end

section
/-! PROOFS. One record and what it offers its one die (R95, R97). -/

namespace Sys2Proof.Machine
open Sys2Proof

/-- The partition q is the only one, with one present die and one stream that holds one record. -/
structure LoneRec (s : State) (q : Part) (die n : Nat) (x : Stream) (r : Rec) : Prop where
  /-- Its partition. -/
  parts : s.parts = [q]
  /-- The partition runs. -/
  running : q.running = true
  /-- Its stream. -/
  streams : q.streams = [(n, x)]
  /-- It is the only record. -/
  recs : x.recs = [r]
  /-- No completion is held. -/
  held : x.held = []
  /-- The stream's number. -/
  num : n < 64
  /-- The stream's class. -/
  cls : x.cls < 4
  /-- The die's number. -/
  dieLt : die < 24
  /-- The present die. -/
  present : s.presentDies q.id = [die]
  /-- No reservation and no quad stands on a die. -/
  clear : ∀ d ∈ q.dies, (s.die d).drains = [] ∧ (s.rast d).quads = []
  /-- The record is no draw. -/
  ord : r.ord = none
  /-- No gang has been evicted for it. -/
  ahead : r.ahead = none
  /-- It has not failed. -/
  fail : r.fail = none
  /-- Its completion is not decided. -/
  status : r.status = none

theorem loneRec_of_offersOne {s : State} {q : Part} {die n : Nat} {x : Stream} {r : Rec} (h : Says.offersOne s q die n x r) : LoneRec s q die n x r := by
  obtain ⟨h1, h2, h3, h4, h5, h6, h7, h8, h9, h10, h11, h12, h13, h14⟩ := h
  exact ⟨h1, h2, h3, h4, h5, h6, h7, h8, h9, h10, h11, h12, h13, h14⟩

variable {s u : State} {q : Part} {die n : Nat} {x : Stream} {r : Rec}

/-! Where it stands. -/

section
variable (h : LoneRec s q die n x r)
include h

theorem LoneRec.part? : s.part? q.id = some q := by simp [State.part?, h.parts]

theorem LoneRec.partDies : s.partDies q.id = q.dies := by simp [State.partDies, h.part?]

theorem LoneRec.stream : q.stream n = x := by simp [Part.stream, Table.at, Table.get, h.streams]

theorem LoneRec.stream_other {m : Nat} (hm : m ≠ n) : q.stream m = Stream.reset := by
  simp [Part.stream, Table.at, Table.get, h.streams, Ne.symm hm]

theorem LoneRec.rec? : s.rec? q.id n r.slot = some r := by simp [State.rec?, h.part?, h.stream, h.recs]

theorem LoneRec.die_mem : die ∈ q.dies := by
  have hm : die ∈ s.presentDies q.id := by simp [h.present]
  rw [State.presentDies, h.partDies] at hm
  exact List.mem_of_mem_filter hm

theorem LoneRec.offerable (hb : bits (r.word 0) 3 0 = 1) (hst : r.state = .ready ∨ r.state = .running) : r.offerable = true := by
  rcases hst with e | e <;> simp [Rec.offerable, hb, h.status, h.fail, e]

theorem LoneRec.drawBlocked : drawBlocked s q.id r = false := by rw [Machine.drawBlocked, h.ord]

theorem LoneRec.drawWaits : drawWaits s q.id n r = none := by rw [Machine.drawWaits, h.ord]; rfl

/-- The stream with one record. -/
def Stream.only (x : Stream) (r : Rec) : Stream := { x with recs := [r] }

/-- The partition with one stream of one record. -/
def Part.only (q : Part) (n : Nat) (x : Stream) (r : Rec) : Part := { q with streams := [(n, x.only r)] }

/-- The record of a slot changed, and nothing else. -/
def withRec (s : State) (q : Part) (n : Nat) (x : Stream) (r : Rec) : State := { s with parts := [q.only n x r] }

theorem LoneRec.updRec_of_parts (hp : u.parts = s.parts) (f : Rec → Rec) : updRec u q.id n r.slot f = withRec u q n x (f r) := by
  simp [Machine.updRec, State.updStream, State.updPart, withRec, Part.only, Stream.only, hp, h.parts, Part.updStream, h.stream, h.streams, Table.put, h.recs]

theorem LoneRec.updRec (f : Rec → Rec) : updRec s q.id n r.slot f = withRec s q n x (f r) := h.updRec_of_parts rfl f

end

theorem withRec_rec? (s : State) (q : Part) (n : Nat) (x : Stream) (r : Rec) : (withRec s q n x r).rec? q.id n r.slot = some r := by
  simp [withRec, Part.only, Stream.only, State.rec?, State.part?, Part.stream, Table.at, Table.get]

/-- What placement asks of a die. -/
def Die.ground (d : Die) : Bool × Bool × Bool × List Drain × Raster := (d.present, d.inReset, d.lost, d.drains, d.rast)

/-- A changed record still stands alone, whatever else changes that placement does not ask. -/
theorem LoneRec.changed (h : LoneRec s q die n x r) {y : Rec} (hp : u.parts = (withRec s q n x y).parts) (hd : ∀ d, (u.die d).ground = (s.die d).ground)
    (ho : y.ord = none) (ha : y.ahead = none) (hf : y.fail = none) (hs : y.status = none) :
    LoneRec u (q.only n x y) die n (x.only y) y := by
  have hpd : u.presentDies q.id = s.presentDies q.id := by
    have e : u.partDies q.id = s.partDies q.id := by
      rw [h.partDies]
      simp [State.partDies, State.part?, hp, withRec, Part.only]
    rw [State.presentDies, State.presentDies, e]
    refine List.filter_congr (fun d _ => ?_)
    have e1 : (u.die d).present = (s.die d).present := congrArg Prod.fst (hd d)
    have e2 : (u.die d).inReset = (s.die d).inReset := congrArg (fun x => x.2.1) (hd d)
    have e3 : (u.die d).lost = (s.die d).lost := congrArg (fun x => x.2.2.1) (hd d)
    rw [e1, e2, e3]
  refine ⟨hp, h.running, rfl, rfl, h.held, h.num, h.cls, h.dieLt, hpd.trans h.present, fun d hm => ?_, ho, ha, hf, hs⟩
  obtain ⟨c1, c2⟩ := h.clear d hm
  have e1 : (u.die d).drains = (s.die d).drains := congrArg (fun x => x.2.2.2.1) (hd d)
  have e2 : (u.die d).rast = (s.die d).rast := congrArg (fun x => x.2.2.2.2) (hd d)
  exact ⟨e1.trans c1, (congrArg Raster.quads e2).trans c2⟩

/-! Reservations that are not there. -/

theorem updDie_same {d : Nat} {f : Die → Die} (hf : f (s.die d) = s.die d) : s.updDie d f = s := by
  have e : s.dies.setIfInBounds d (s.die d) = s.dies := by
    ext i hi
    rw [Vector.getElem_setIfInBounds]
    split
    · next e => subst e; simp [State.die, hi]
    · rfl
  rw [State.updDie, hf, e]

/-- Where no reservation stands none is dropped. -/
theorem dropDrains_none {l : List Nat} (hl : ∀ d ∈ l, (s.die d).drains = []) (f : State → Drain → Bool) :
    l.foldl (fun z d => z.updDie d (fun x => { x with drains := x.drains.filter (f z) })) s = s := by
  induction l with
  | nil => rfl
  | cons d l ih =>
    have e := hl d List.mem_cons_self
    rw [List.foldl_cons, updDie_same (by rw [e, List.filter_nil, ← e]), ih (fun d hd => hl d (List.mem_cons_of_mem _ hd))]

theorem LoneRec.taken (h : LoneRec s q die n x r) (key : OfferKey) :
    taken s q.id n r.slot key = withRec s q n x { r with offered := r.offered.filter (fun o => o.1 != key), ahead := none } := by
  unfold Machine.taken
  rw [dropDrains_none (fun d hd => (h.clear d (h.partDies ▸ hd)).1) (fun _ x => !x.isFor q.id n r.slot key)]
  rw [h.updRec, h.ahead]
  rfl

theorem LoneRec.draining (h : LoneRec s q die n x r) (sl : Nat) (key : OfferKey) : draining s q.id n sl key = false := by
  rw [Machine.draining, h.partDies, List.any_eq_false]
  intro d hd
  simp [(h.clear d hd).1]

theorem LoneRec.drainsFor (h : LoneRec s q die n x r) : drainsFor s q.id die = [] := by
  have hr : ((s.partDies q.id).filter (fun d => d != die)).flatMap (fun d => (s.die d).drains.filter (fun x => x.key == .resident)) = [] := by
    rw [List.flatMap_eq_nil_iff]
    intro d hd
    rw [(h.clear d (h.partDies ▸ List.mem_of_mem_filter hd)).1]
    rfl
  unfold Machine.drainsFor
  rw [(h.clear die h.die_mem).1, hr, ite_self]
  rfl

end Sys2Proof.Machine
end

section
/-! PROOFS. The window of a die whose partition holds one record (R95 to R98). -/

namespace Sys2Proof.Machine
open Sys2Proof

variable {s u : State} {q : Part} {die n : Nat} {x : Stream} {r : Rec}

/-! Offers (R95). -/

/-- The record offers its next gang: a LAUNCH record that is no resident grid, with native code, and with no gang saved. -/
structure OffersNext (s : State) (r : Rec) : Prop where
  /-- A LAUNCH record in READY or RUNNING. -/
  offerable : r.offerable = true
  /-- RESIDENT is clear. -/
  free : r.resident = false
  /-- A gang is to be placed. -/
  more : r.nextGang < r.gangs
  /-- The code is in the caches of every die. -/
  code : ∀ d, codeReady s d r = true
  /-- No gang is saved. -/
  gangs : ∀ g ∈ s.gangs, g.status = .resident

theorem savedReady_none (hg : ∀ g ∈ s.gangs, g.status = .resident) (p st slot : Nat) (ev : Bool) : savedReady s p st slot ev = none := by
  rw [savedReady, List.find?_eq_none]
  intro g hm
  simp [hg g (List.mem_of_mem_filter hm)]

/-- A gang never placed that is offered is the next one. -/
theorem LoneRec.offerOf_fresh (h : LoneRec s q die n x r) {d i : Nat} {y : Rec} (ho : offerOf s q.id d n x = some (y, .fresh i)) : i = r.nextGang := by
  obtain ⟨⟨y', o⟩, ho, hk⟩ := Option.bind_eq_some_iff.1 ho
  obtain ⟨z, hz, ho⟩ := List.exists_of_findSome?_eq_some ho
  rw [h.recs, List.mem_singleton] at hz
  subst hz
  obtain ⟨o', ho', e⟩ := Option.map_eq_some_iff.1 ho
  cases e
  obtain ⟨k, rfl, e⟩ := Option.map_eq_some_iff.1 hk
  cases e
  unfold recOffer nextIndex at ho'
  rw [h.ord] at ho'
  split at ho'
  · cases ho'
  · split at ho'
    · cases ho'
    · split at ho'
      · next hm =>
        rw [Option.some.injEq] at ho'
        split at ho'
        · cases ho'
        · split at ho'
          · split at ho' <;> cases ho'
          · simp only [Option.map_some, Option.some.injEq, OfferKey.fresh.injEq] at ho'
            exact ho'.symm
      · obtain ⟨g, -, e⟩ := Option.map_eq_some_iff.1 ho'
        cases e

/-- The offers of the stream are the offers of its record. -/
theorem LoneRec.mem_offering (h : LoneRec s q die n x r) {y : Nat × Rec × OfferKey} (hy : y ∈ offering s q.id) : ∀ i, y.2.2 = .fresh i → i = r.nextGang := by
  intro i hi
  rw [offering, h.part?] at hy
  simp only [h.streams, List.flatMap_cons, List.flatMap_nil, List.append_nil, List.mem_map, List.mem_dedup, List.mem_filterMap] at hy
  obtain ⟨⟨y1, k⟩, ⟨d, -, hd⟩, rfl⟩ := hy
  subst hi
  exact h.offerOf_fresh hd

section
variable (h : LoneRec s q die n x r) (o : OffersNext s r)
include h o

theorem LoneRec.offerOf (d : Nat) : offerOf s q.id d n x = some (r, .fresh r.nextGang) := by
  have e : recOffer s q.id d n r = some (some (.fresh r.nextGang)) := by
    rw [recOffer, savedReady_none o.gangs, nextIndex, h.ord, h.drawBlocked, h.drawWaits, o.code d, o.offerable, o.free]
    simp [o.more]
  simp [Machine.offerOf, h.recs, e]

theorem LoneRec.offering : offering s q.id = [(n, r, .fresh r.nextGang)] := by
  rw [Machine.offering, h.part?]
  simp [h.streams, h.present, h.offerOf o]

/-- A window needs nothing before it chooses. -/
theorem LoneRec.prepare : prepare s q.id = s := by
  have hf : x.recs.find? (fun r => r.offerable && decide (r.nextGang < r.gangs)) = some r := by simp [h.recs, o.offerable, o.more]
  rw [Machine.prepare, h.part?]
  simp only [h.streams, List.foldl_cons, List.foldl_nil, hf]
  have hc : (s.presentDies q.id).all (fun d => codeReady s d r) = true := by simp [o.code]
  simp only [hc, if_true, h.drawBlocked, h.drawWaits, Bool.false_eq_true, if_false]

end

/-! The choice (R97). -/

/-- Every class is served in every window. -/
theorem mem_classOrder {c : Nat} (hc : c < 4) (w : Nat) : c ∈ classOrder w := by
  refine List.mem_cons_of_mem _ ?_
  simp only [List.mem_cons, List.not_mem_nil, or_false]
  omega

/-- Only the one stream's class has a stream to serve. -/
theorem LoneRec.streamsFrom (h : LoneRec s q die n x r) (cls last : Nat) : streamsFrom q cls last = if x.cls = cls then [n] else [] := by
  obtain ⟨j, hj, e⟩ := filter_slot h.num last
  have hp (m : Nat) : ((q.stream m).cls == cls && !(q.stream m).recs.isEmpty) = ((n == m) && x.cls == cls) := by
    by_cases hm : m = n
    · subst hm
      simp [h.stream, h.recs]
    · rw [h.stream_other hm]
      simp [Stream.reset, Ne.symm hm]
  rw [Machine.streamsFrom, List.filter_map]
  simp only [Function.comp_def, hp]
  by_cases hc : x.cls = cls
  · simp [hc, e, hj]
  · simp [hc]

theorem findSome?_if {α β : Type} (l : List α) (c : α → Prop) [DecidablePred c] (v : Option β) (h : ∃ a ∈ l, c a) :
    l.findSome? (fun a => if c a then v else none) = v := by
  induction l with
  | nil => simp at h
  | cons a l ih =>
    rw [List.findSome?_cons]
    by_cases ha : c a
    · rw [if_pos ha]
      cases v with
      | some b => rfl
      | none => simp
    · rw [if_neg ha]
      obtain ⟨b, hb, hc⟩ := h
      rcases List.mem_cons.1 hb with rfl | hb
      · exact absurd hc ha
      · exact ih ⟨b, hb, hc⟩

/-- The stream is marked as the one that its class was served last. -/
def served (u : State) (die cls n : Nat) : State := u.updDie die (fun d => { d with served := d.served.setIfInBounds cls n })

/-- The die chooses the record's gang, if it fits. -/
theorem LoneRec.choose (h : LoneRec s q die n x r) (o : OffersNext s r) (w : Nat) :
    choose s q.id die w = (takeOffer s q.id die n r (.fresh r.nextGang)).map (fun u => (served u die x.cls n, false)) := by
  rw [Machine.choose, h.part?, Option.bind_some]
  rw [← findSome?_if (classOrder w) (fun cls => x.cls = cls) ((takeOffer s q.id die n r (.fresh r.nextGang)).map (fun u => (served u die x.cls n, false)))
    ⟨x.cls, mem_classOrder h.cls w, rfl⟩]
  congr 1
  funext cls
  rw [h.streamsFrom]
  split
  · next e =>
    subst e
    rw [List.findSome?_cons, List.findSome?_nil, h.stream, h.offerOf o]
    simp only [h.draining, Bool.false_eq_true, if_false]
    cases takeOffer s q.id die n r (.fresh r.nextGang) <;> rfl
  · rfl

/-- With no quad, no reservation and no eviction the die's window is its choice. -/
theorem LoneRec.windowDie (h : LoneRec s q die n x r) (w : Nat) : windowDie s q.id die w = (Machine.choose s q.id die w).getD (s, false) := by
  have h1 : pixelWanted s q.id die = none := by rw [pixelWanted, (h.clear die h.die_mem).2]
  have h2 : takeDrain s q.id die = none := by rw [takeDrain, h.drainsFor]; rfl
  have h3 : takeAhead s q.id die = none := by
    rw [takeAhead, h.part?]
    simp [h.streams, h.recs, h.ahead]
  rw [Machine.windowDie, h1, Option.bind_none, h2, h3]

theorem windowDies_one (p w d : Nat) (s : State) : windowDies p w [d] s = (Machine.windowDie s p d w).1 := by
  simp [windowDies]

end Sys2Proof.Machine
end

section
/-! PROOFS. What a window leaves due, and the record as it settles (R93, R96, R99). -/

namespace Sys2Proof.Machine
open Sys2Proof

variable {s u v : State} {q : Part} {die n : Nat} {x : Stream} {r : Rec}

/-! The parts of a window. -/

/-- The offers of a window that are still made after its placements. -/
def stillOffered (before still : List (Nat × Rec × OfferKey)) : List (Nat × Rec × OfferKey) :=
  before.filter (fun x => still.any (fun y => y.1 == x.1 && y.2.1.slot == x.2.1.slot && y.2.2 == x.2.2))

/-- An offer that was not taken counts from this window on. -/
def noteOffers (p : Nat) (s : State) (x : Nat × Rec × OfferKey) : State :=
  match s.rec? p x.1 x.2.1.slot with
  | none => s
  | some r =>
    if r.offered.any (fun o => o.1 == x.2.2) then s
    else (updRec s p x.1 r.slot (fun r => { r with offered := r.offered ++ [(x.2.2, s.clk)] })).at_ (s.clk + 20000) (.drainReservation p x.1 r.slot)

/-- Stalled grids are resolved, and frame-class reservations that have been held pre-empt. -/
def noteStalls (s : State) (p : Nat) (q : Part) : State :=
  let s := q.streams.foldl (fun s e => e.2.recs.foldl (fun s r =>
    match s.rec? p e.1 r.slot with
    | some r => if stallDue s p e.1 r then s.later (.stallResolution p e.1 r.slot) else s
    | none => s) s) s
  (s.presentDies p).foldl (fun s d => if (frameTargets s p d).isEmpty then s else s.later (.framePreemption d)) s

/-- The state without what is due. -/
def State.sansDue (s : State) : State := { s with agenda := [], timers := [] }

/-- Events have become due, and nothing else has changed. -/
def State.dues (s u : State) : Prop := u.sansDue = s.sansDue ∧ ∀ x ∈ s.timers, x ∈ u.timers

theorem State.dues.refl (s : State) : s.dues s := ⟨rfl, fun _ h => h⟩

theorem State.dues.trans (h : s.dues u) (k : u.dues v) : s.dues v := ⟨k.1.trans h.1, fun x hx => k.2 x (h.2 x hx)⟩

theorem dues_later (s : State) (e : Event) : s.dues (s.later e) := ⟨rfl, fun _ h => h⟩

theorem dues_atOnce (s : State) (c : Nat) (e : Event) : s.dues (s.atOnce c e) := by
  unfold State.atOnce
  split
  · exact .refl s
  · exact ⟨rfl, fun x hx => (mem_at_ ..).2 (.inr hx)⟩

theorem dues_foldl {α : Type} {f : State → α → State} (h : ∀ (s : State) x, s.dues (f s x)) (l : List α) (s : State) : s.dues (l.foldl f s) := by
  induction l generalizing s with
  | nil => exact .refl s
  | cons x l ih => exact (h s x).trans (ih _)

theorem dues_ite {c : Prop} [Decidable c] (hu : s.dues u) (hv : s.dues v) : s.dues (if c then u else v) := by
  split
  · exact hu
  · exact hv

theorem noteStalls_dues (s : State) (p : Nat) (q : Part) : s.dues (noteStalls s p q) := by
  refine (dues_foldl (fun s e => dues_foldl (fun s r => ?_) _ s) _ s).trans (dues_foldl (fun s d => dues_ite (.refl s) (dues_later ..)) _ _)
  split
  · exact dues_ite (dues_later ..) (.refl s)
  · exact .refl s

/-- What is due does not matter to where a record stands. -/
theorem LoneRec.of_dues (h : LoneRec s q die n x r) (k : s.dues u) : LoneRec u q die n x r := by
  have hp : u.parts = s.parts := (congrArg State.parts k.1 :)
  have hd (d : Nat) : u.die d = s.die d := (congrArg (fun z => State.die z d) k.1 :)
  have hl : u.presentDies q.id = s.presentDies q.id := (congrArg (fun z => State.presentDies z q.id) k.1 :)
  refine ⟨hp.trans h.parts, h.running, h.streams, h.recs, h.held, h.num, h.cls, h.dieLt, hl.trans h.present, fun d hm => ?_, h.ord, h.ahead, h.fail, h.status⟩
  rw [State.rast, hd]
  exact h.clear d hm

/-! Records that wait for the placer (R93). -/

/-- A record that does not change by itself: it runs, or is ready and has been offered. -/
def Rec.settled (r : Rec) : Prop := r.state = .running ∨ r.state = .ready ∧ bits (r.word 0) 3 0 = 1 ∧ r.offered ≠ []

theorem LoneRec.recStep (h : LoneRec s q die n x r) (hs : r.settled) : recStep s q.id = none := by
  have hc : recChange s q n x r = none := by
    unfold recChange
    rcases hs with e | ⟨e, ht, ho⟩
    · simp [e]
    · simp [h.status, e, h.fail, ht, ho]
  rw [Machine.recStep, h.part?, Option.bind_some, h.streams]
  simp [Stream.nextHeld, h.held, h.recs, hc]

theorem LoneRec.settleRecs (h : LoneRec s q die n x r) (hs : r.settled) : s.dues (settleRecs s q.id) := by
  have hg (k : Nat) : settleGo q.id k s = s := by
    cases k with
    | zero => rfl
    | succ k => rw [settleGo, h.recStep hs]
  rw [Machine.settleRecs]
  simp only [hg]
  exact dues_ite (dues_atOnce ..) (.refl s)

/-! The window (R96). -/

/-- The state after the choice of window w. -/
def chosen (s : State) (q : Part) (die w : Nat) : State := (Machine.windowDie s q.id die w).1

/-- With it what was offered and not taken. -/
def noted (s : State) (q : Part) (die w : Nat) : State :=
  (stillOffered (offering s q.id) (offering (chosen s q die w) q.id)).foldl (noteOffers q.id) (chosen s q die w)

theorem LoneRec.windowPart (h : LoneRec s q die n x r) (o : OffersNext s r) (w : Nat) :
    windowPart s q.id w = Machine.settleRecs (noteStalls (noted s q die w) q.id q) q.id := by
  have hd := dropDrains_none (fun d hd => (h.clear d hd).1) (fun z y => !drainStale z y)
  rw [Machine.windowPart, h.part?]
  simp only [h.running, h.prepare o, hd, h.present, windowDies_one]
  rfl

/-- A window comes to the choice of its die, with what becomes due. -/
theorem LoneRec.placementWindow (h : LoneRec s q die n x r) (o : OffersNext s r) {q' : Part} {x' : Stream} {r' : Rec} (hi : q'.id = q.id)
    (hv : LoneRec (noted s q die (s.clk / 64)) q' die n x' r') (hs : r'.settled) :
    ∃ u, exec .placementWindow s = .next u ∧ (noted s q die (s.clk / 64)).dues u := by
  have hn := noteStalls_dues (noted s q die (s.clk / 64)) q.id q
  have hr := (hv.of_dues hn).settleRecs hs
  rw [hi, ← h.windowPart o] at hr
  refine ⟨_, rfl, ?_⟩
  simp only [h.parts, List.map_cons, List.map_nil, List.foldl_cons, List.foldl_nil]
  exact (hn.trans hr).trans (dues_ite (dues_atOnce ..) (.refl _))

end Sys2Proof.Machine
end

section
/-! PROOFS. Gangs that are placed, and gangs that wait (R95 to R99). -/

namespace Sys2Proof.Machine
open Sys2Proof

variable {s u v : State} {q : Part} {die n : Nat} {x : Stream} {r : Rec}

/-! A gang that does not fit. -/

/-- The gang that does not fit is offered from this window on. -/
theorem LoneRec.window_waits (h : LoneRec s q die n x r) (o : OffersNext s r) (hb : bits (r.word 0) 3 0 = 1) (hst : r.state = .ready ∨ r.state = .running)
    (hf : fitGang s r die (closedTo s die q.id n r.slot (.fresh r.nextGang)) [] (occupied s) = none) (ho : r.offered = []) :
    ∃ u y, exec .placementWindow s = .next u ∧ s.sameMem u ∧ u.gangs = s.gangs ∧ u.threads = s.threads ∧ u.rec? q.id n r.slot = some y ∧
      y = { r with offered := [(.fresh r.nextGang, s.clk)] } ∧ (s.clk + 20000, .drainReservation q.id n r.slot) ∈ u.timers := by
  let y : Rec := { r with offered := [(.fresh r.nextGang, s.clk)] }
  have ht : takeOffer s q.id die n r (.fresh r.nextGang) = none := by rw [takeOffer, hf]; rfl
  have hc (w : Nat) : chosen s q die w = s := by
    rw [chosen, h.windowDie, h.choose o, ht]
    rfl
  have hn (w : Nat) : noted s q die w = (withRec s q n x y).at_ (s.clk + 20000) (.drainReservation q.id n r.slot) := by
    have e : (Machine.updRec s q.id n r.slot (fun z => { z with offered := z.offered ++ [(.fresh r.nextGang, s.clk)] })) = withRec s q n x y := by
      rw [h.updRec, ho]
      rfl
    rw [noted, hc, h.offering o, stillOffered]
    simp only [List.any_cons, beq_self_eq_true, Bool.and_self, Bool.true_or, List.filter_cons, List.filter_nil, if_true, List.foldl_cons, List.foldl_nil,
      noteOffers, h.rec?, ho, List.any_nil, Bool.false_eq_true, if_false, e]
  have hv : LoneRec (noted s q die (s.clk / 64)) (q.only n x y) die n (x.only y) y := by
    rw [hn]
    exact h.changed (u := (withRec s q n x y).at_ _ _) (y := y) rfl (fun d => rfl) h.ord h.ahead h.fail h.status
  have hs : y.settled := by
    rcases hst with e | e
    · exact .inr ⟨e, hb, by simp [y]⟩
    · exact .inl e
  obtain ⟨u, e, k⟩ := h.placementWindow (q' := q.only n x y) o rfl hv hs
  have hu := hv.of_dues k
  rw [hn] at k
  refine ⟨u, y, e, sameMem_of_mem (congrArg State.mem k.1 :), (congrArg State.gangs k.1 :), (congrArg State.threads k.1 :), hu.rec?,
    rfl, k.2 _ ((mem_at_ ..).2 (.inl rfl))⟩

/-! A gang that fits. -/

/-- A thread of a newly placed gang: it is ready at a clk, with the argument and its number in its first registers (R419). -/
def Thread.seated (t : Thread) (g : Gang) (args : DWord) (c : Nat) : Prop :=
  t.gang = g.id ∧ t.part = g.part ∧ t.readyAt = c ∧ t.g[0]? = some (args.setWidth 32) ∧ t.g[1]? = some (args.extractLsb' 32 32) ∧
    t.g[2]? = some (BitVec.ofNat 32 t.tid)

/-- Groups of a gang are placed: threads, groups, full words, rills, the clusters' L1 and the next identity change; the threads that are new
are the gang's. -/
def State.seats (s u : State) (g : Gang) (args : DWord) (c : Nat) : Prop :=
  u = { s with threads := u.threads, groups := u.groups, full := u.full, cores := u.cores, l1 := u.l1, nextId := u.nextId } ∧
    ∃ ts, u.threads = s.threads ++ ts ∧ ∀ t ∈ ts, t.seated g args c

theorem State.seats.trans {g : Gang} {args : DWord} {c : Nat} (h : s.seats u g args c) (k : u.seats v g args c) : s.seats v g args c := by
  obtain ⟨h1, ts, h2, h3⟩ := h
  obtain ⟨k1, us, k2, k3⟩ := k
  rw [h1] at k1
  refine ⟨k1, ts ++ us, by rw [k2, h2, List.append_assoc], fun t ht => ?_⟩
  exact (List.mem_append.1 ht).elim (h3 t) (k3 t)

/-- Groups of a gang are placed without a thread. -/
theorem seats_same {g : Gang} {args : DWord} {c : Nat} (h : u = { s with cores := u.cores, l1 := u.l1, nextId := u.nextId }) : s.seats u g args c :=
  ⟨by rw [h], [], by rw [h, List.append_nil], fun _ ht => nomatch ht⟩

theorem seats_foldl {α : Type} {f : State → α → State} {g : Gang} {args : DWord} {c : Nat} (h : ∀ (s : State) y, s.seats (f s y) g args c) (l : List α)
    (s : State) : s.seats (l.foldl f s) g args c := by
  induction l generalizing s with
  | nil => exact seats_same rfl
  | cons y l ih => exact (h s y).trans (ih _)

theorem firstRegs_get (args : DWord) (tid : Nat) : (firstRegs args tid)[0]? = some (args.setWidth 32) ∧
    (firstRegs args tid)[1]? = some (args.extractLsb' 32 32) ∧ (firstRegs args tid)[2]? = some (BitVec.ofNat 32 tid) := by
  refine ⟨?_, ?_, ?_⟩ <;> simp [firstRegs]

theorem placeGroup_seats (s : State) (o : CodeObj) (y : Seat) (roles : List (Nat × Nat × RoleEntry)) (args : DWord) (c : Nat) (g : GroupPlan)
    (w : List (Claim × Nat × Nat)) (pixel : Option (List Bool × List Nat)) : s.seats (placeGroup s o y roles args c g w pixel) y.gang args c := by
  unfold placeGroup
  extract_lets base sh ts grp s1 s2
  have h1 : s.seats s1 y.gang args c := by
    refine ⟨rfl, ts, rfl, fun t ht => ?_⟩
    obtain ⟨a, -, ha⟩ := List.mem_filterMap.1 ht
    obtain ⟨b, -, rfl⟩ := Option.map_eq_some_iff.1 ha
    obtain ⟨r0, r1, r2⟩ := firstRegs_get args a.1.tid
    exact ⟨rfl, rfl, rfl, r0, r1, r2⟩
  have h2 : s1.seats s2 y.gang args c := seats_foldl (fun _ _ => seats_same rfl) w s1
  exact (h1.trans h2).trans (seats_same rfl)

/-- The gang that a placement makes. -/
def newGang (s : State) (p st : Nat) (r : Rec) (f : Fit) (index : Nat) (drained : Bool) : Gang :=
  ⟨s.nextId, p, st, r.slot, index, f.die, f.k, f.groups.length, (((s.part? p).map (fun q => q.stream st)).map Stream.cls).getD 0, .resident, false,
    drained, false, []⟩

/-- A record of which a gang has been placed. -/
def Rec.advanced (r : Rec) (run : Nat) : Rec := { r with state := .running, run := run, nextGang := r.nextGang + 1 }

/-- The number of the run that a gang belongs to. -/
def Rec.runNo (r : Rec) : Nat := if r.nextGang = 0 then r.run + 1 else r.run

/-- The next group of a gang is placed under an identity of its own. -/
def seatGroup (gang : Gang) (o : CodeObj) (r : Rec) (f : Fit) (slice : Nat × Nat) (c : Nat) (s : State) (g : GroupPlan × Nat) : State :=
  placeGroup { s with nextId := s.nextId + 1 } o ⟨gang, s.nextId * 8192 + (g.1.cluster * 16 + g.1.entry), g.2, r.runNo, slice⟩ (r.groupRoles g.2) r.args c g.1
    ((f.wires[g.2]?).getD []) none

theorem seatGroup_seats (gang : Gang) (o : CodeObj) (r : Rec) (f : Fit) (slice : Nat × Nat) (c : Nat) (s : State) (g : GroupPlan × Nat) :
    s.seats (seatGroup gang o r f slice c s g) gang r.args c := by
  have h : s.seats { s with nextId := s.nextId + 1 } gang r.args c := seats_same rfl
  rw [seatGroup]
  exact h.trans (placeGroup_seats _ o ⟨gang, _, _, _, _⟩ ..)

theorem placeGang_eq (s : State) (p st : Nat) {r : Rec} (f : Fit) (index c : Nat) (drained : Bool) {o : CodeObj} (ho : r.running = some o)
    (hr : r.ord = none) : placeGang s p st r f index c drained = updRec
      (f.groups.zipIdx.foldl (seatGroup (newGang s p st r f index drained) o r f (0, 0) c)
        { s with nextId := s.nextId + 1, gangs := s.gangs ++ [newGang s p st r f index drained] }) p st r.slot (fun z => z.advanced r.runNo) := by
  unfold placeGang
  rw [ho, hr]
  rfl

/-- A gang placed is a gang more, its threads seated, and its record advanced (R96). -/
theorem placeGang_seats (s : State) (p st : Nat) {r : Rec} (f : Fit) (index c : Nat) (drained : Bool) {o : CodeObj} (ho : r.running = some o)
    (hr : r.ord = none) : ∃ u : State, placeGang s p st r f index c drained = updRec u p st r.slot (fun z => z.advanced r.runNo) ∧
      State.seats { s with gangs := s.gangs ++ [newGang s p st r f index drained] } u (newGang s p st r f index drained) r.args c := by
  rw [placeGang_eq s p st f index c drained ho hr]
  refine ⟨_, rfl, ?_⟩
  generalize newGang s p st r f index drained = g
  have h : State.seats { s with gangs := s.gangs ++ [g] } { s with nextId := s.nextId + 1, gangs := s.gangs ++ [g] } g r.args c := seats_same rfl
  exact h.trans (seats_foldl (seatGroup_seats g o r f (0, 0) c) _ _)

/-- A gang fits on the die that it was asked for. -/
theorem fitGang_die {d a : Nat} {l : List Nat} {oc oc' : Occ} {f : Fit} (h : fitGang s r d a l oc = some (f, oc')) : f.die = d := by
  obtain ⟨k, -, h⟩ := List.exists_of_findSome?_eq_some h
  split at h
  · cases h
  · split at h
    · cases h
    · split at h
      · cases h
      · split at h <;> cases h
        rfl
      · cases h
        rfl

end Sys2Proof.Machine
end

section
/-! PROOFS. A gang that fits is placed (R96, R98). -/

namespace Sys2Proof.Machine
open Sys2Proof

variable {s u v : State} {q : Part} {die n : Nat} {x : Stream} {r : Rec}

theorem updDie_ground (s : State) (d e : Nat) {f : Die → Die} (hf : ∀ z, (f z).ground = z.ground) : ((s.updDie d f).die e).ground = (s.die e).ground := by
  by_cases h : e = d
  · subst h
    by_cases he : e < 24
    · rw [die_updDie_same f he, hf]
    · simp [State.updDie, State.die, he]
  · rw [die_updDie_other s f h]

/-- The record that no longer counts its next gang as offered. -/
def Rec.taken (r : Rec) : Rec := { r with offered := r.offered.filter (fun o => o.1 != .fresh r.nextGang), ahead := none }

/-- The gang that a window makes of the record's next one. -/
def placedGang (s : State) (q : Part) (n : Nat) (x : Stream) (r : Rec) (f : Fit) : Gang := newGang (withRec s q n x r.taken) q.id n r f r.nextGang false

section
variable (h : LoneRec s q die n x r)
include h

/-- The next gang placed is a gang more, its threads seated, and its record advanced. -/
theorem LoneRec.placeFresh {f : Fit} (hb : f.bad = false) {o : CodeObj} (ho : r.running = some o) :
    ∃ v : State, placeFresh s q.id n r f r.nextGang false = withRec v q n x (r.taken.advanced r.runNo) ∧
      State.seats { withRec s q n x r.taken with gangs := s.gangs ++ [placedGang s q n x r f] } v (placedGang s q n x r f) r.args (s.clk + 64) := by
  obtain ⟨v, e, hv⟩ := placeGang_seats (withRec s q n x r.taken) q.id n f r.nextGang (s.clk + 64) false ho h.ord
  have hl : LoneRec v (q.only n x r.taken) die n (x.only r.taken) r.taken :=
    h.changed (congrArg State.parts hv.1 :) (fun d => (congrArg (fun z => (State.die z d).ground) hv.1 :)) h.ord rfl h.fail h.status
  refine ⟨v, ?_, hv⟩
  have hs : startWork (Machine.taken s q.id n r.slot (.fresh r.nextGang)) q.id n r f.bad = (withRec s q n x r.taken, true) := by
    rw [startWork, hb, h.ord, h.taken]
    rfl
  rw [Machine.placeFresh, hs]
  exact e.trans (hl.updRec _)

/-- The state of a die's window whose choice is a gang that fits. -/
theorem LoneRec.window_places (o : OffersNext s r) {f : Fit} {oc : Occ} {ob : CodeObj} (ho : r.running = some ob)
    (hf : fitGang s r die (closedTo s die q.id n r.slot (.fresh r.nextGang)) [] (occupied s) = some (f, oc)) (hb : f.bad = false) :
    ∃ u v : State, exec .placementWindow s = .next u ∧ (served (withRec v q n x (r.taken.advanced r.runNo)) die x.cls n).dues u ∧
      State.seats { withRec s q n x r.taken with gangs := s.gangs ++ [placedGang s q n x r f] } v (placedGang s q n x r f) r.args (s.clk + 64) ∧
      u.rec? q.id n r.slot = some (r.taken.advanced r.runNo) := by
  obtain ⟨v, e, hv⟩ := h.placeFresh hb ho
  let y := r.taken.advanced r.runNo
  let z := served (withRec v q n x y) die x.cls n
  have hc (w : Nat) : chosen s q die w = z := by
    rw [chosen, h.windowDie, h.choose o, takeOffer, hf, Option.map_some, Option.map_some, e]
    rfl
  have hz : LoneRec z (q.only n x y) die n (x.only y) y := by
    refine h.changed rfl (fun d => (updDie_ground _ die d ?_).trans ?_) h.ord rfl h.fail h.status
    · exact fun _ => rfl
    · exact (congrArg (fun z => (State.die z d).ground) hv.1 :)
  have hn (w : Nat) : noted s q die w = z := by
    have hs : stillOffered [(n, r, .fresh r.nextGang)] (Machine.offering z q.id) = [] := by
      rw [stillOffered, List.filter_eq_nil_iff]
      rintro _ ha
      rw [List.mem_singleton.1 ha, List.any_eq_true]
      rintro ⟨b, hb, hk⟩
      simp only [Bool.and_eq_true, beq_iff_eq] at hk
      exact absurd (hz.mem_offering hb _ hk.2) (Nat.ne_of_lt (Nat.lt_succ_self _))
    rw [noted, hc, h.offering o, hs]
    rfl
  have hw : LoneRec (noted s q die (s.clk / 64)) (q.only n x y) die n (x.only y) y := (hn _).symm ▸ hz
  obtain ⟨u, eu, k⟩ := h.placementWindow (q' := q.only n x y) o rfl hw (.inl rfl)
  have hu := hw.of_dues k
  rw [hn] at k
  exact ⟨u, v, eu, k, hv, hu.rec?⟩

/-- A window places the record's next gang where it fits. -/
theorem LoneRec.window_fits (o : OffersNext s r) {f : Fit} {oc : Occ} {ob : CodeObj} (ho : r.obj = some ob)
    (hf : fitGang s r die (closedTo s die q.id n r.slot (.fresh r.nextGang)) [] (occupied s) = some (f, oc)) (hb : f.bad = false) :
    ∃ u g ts y, exec .placementWindow s = .next u ∧ s.sameMem u ∧ u.gangs = s.gangs ++ [g] ∧ g.index = r.nextGang ∧ g.die = die ∧
      g.cluster = f.k ∧ g.size = f.groups.length ∧ g.part = q.id ∧ g.stream = n ∧ g.slot = r.slot ∧ g.status = .resident ∧
      u.th = s.th ∧ u.threads = s.threads ++ ts ∧
      (∀ t ∈ ts, t.gang = g.id ∧ t.part = q.id ∧ t.readyAt = s.clk + 64 ∧ t.g[0]? = some (r.args.setWidth 32) ∧
        t.g[1]? = some (r.args.extractLsb' 32 32) ∧ t.g[2]? = some (BitVec.ofNat 32 t.tid)) ∧
      u.rec? q.id n r.slot = some y ∧ y.state = .running ∧ y.nextGang = r.nextGang + 1 ∧ y.words = r.words := by
  obtain ⟨ob', ho'⟩ : ∃ a, r.running = some a := by simp [Rec.running, ho]
  obtain ⟨u, v, e, ⟨hk, -⟩, ⟨hv, ts, ht, hts⟩, hy⟩ := h.window_places o ho' hf hb
  refine ⟨u, placedGang s q n x r f, ts, _, e, sameMem_of_mem ?_, ?_, rfl, fitGang_die hf, rfl, rfl, rfl, rfl, rfl, rfl, ?_, ?_, hts, hy, rfl, rfl, rfl⟩
  · exact (congrArg State.mem hk :).trans (congrArg State.mem hv :)
  · exact (congrArg State.gangs hk :).trans (congrArg State.gangs hv :)
  · exact (congrArg State.th hk :).trans (congrArg State.th hv :)
  · exact (congrArg State.threads hk :).trans ht

end

end Sys2Proof.Machine
end

section
/-! PROOFS. Drain reservations and stall resolution (R99, R106). -/

namespace Sys2Proof.Machine
open Sys2Proof

variable {s u v : State} {q : Part} {die n : Nat} {x : Stream} {r : Rec}

/-! Drain reservations. -/

/-- Pre-emptions become due for a class of reservations. -/
def preemptFor (l : List (Nat × Drain)) (s : State) : State := l.foldl (fun t x => t.atOnce (t.clk + 20000) (.framePreemption x.1)) s

theorem preemptFor_dues (l : List (Nat × Drain)) (s : State) : s.dues (preemptFor l s) := dues_foldl (fun _ _ => dues_atOnce ..) l s

/-- The pre-emption of each reservation's die is due. -/
theorem preemptFor_due {l : List (Nat × Drain)} {y : Nat × Drain} (hy : y ∈ l) (s : State) : ∃ k, (k, .framePreemption y.1) ∈ (preemptFor l s).timers := by
  induction l generalizing s with
  | nil => cases hy
  | cons z l ih =>
    rcases List.mem_cons.1 hy with rfl | hy
    · obtain ⟨k, hk⟩ := atOnce_mem s (s.clk + 20000) (.framePreemption y.1)
      exact ⟨k, (preemptFor_dues l _).2 _ hk⟩
    · exact ih hy _

/-- The reservation that a record's next gang receives. -/
def nextDrain (s : State) (q : Part) (n : Nat) (r : Rec) (k : Nat) (l : List ThreadPlan) : Drain :=
  ⟨q.id, n, r.slot, .fresh r.nextGang, k, r.gsize, s.clk, l⟩

section
variable (h : LoneRec s q die n x r)
include h

theorem LoneRec.nextIndex (d : Nat) (hm : r.nextGang < r.gangs) : nextIndex s q.id d r = some r.nextGang := by
  rw [Machine.nextIndex, h.ord]
  exact if_pos hm

/-- The next gang's reservation takes the range of its least occupied plan. -/
theorem LoneRec.reserveFor (hm : r.nextGang < r.gangs) {k : Nat} {l : List ThreadPlan} (hr : rangeFor s r die (reserved s die) = some (k, l)) :
    reserveFor s q.id n r (.fresh r.nextGang) = some (addDrain s die (nextDrain s q n r k l)) := by
  simp [Machine.reserveFor, h.present, h.nextIndex _ hm, reserveOn, hr, nextDrain]

theorem LoneRec.drainDue (hb : r.offerable = true) (hm : r.nextGang < r.gangs) {k : Nat} {l : List ThreadPlan}
    (hr : rangeFor s r die (reserved s die) = some (k, l)) :
    let t := addDrain s die (nextDrain s q n r k l)
    drainDue q.id n r.slot x.cls s (.fresh r.nextGang) = if x.cls = 0 then preemptFor (drainsOf t q.id n r.slot (.fresh r.nextGang)) t else t := by
  rw [Machine.drainDue, h.rec?]
  simp only [hb, h.draining, h.reserveFor hm hr]
  rfl

/-- A gang offered for 20,000 clk receives its reservation. -/
theorem LoneRec.drainReservation (hb : r.offerable = true) (hm : r.nextGang < r.gangs) {c k : Nat} {l : List ThreadPlan}
    (ho : r.offered = [(.fresh r.nextGang, c)]) (hc : c + 20000 ≤ s.clk) (hr : rangeFor s r die (reserved s die) = some (k, l)) :
    ∃ u d, exec (.drainReservation q.id n r.slot) s = .next u ∧ s.sameMem u ∧ u.th = s.th ∧ u.threads = s.threads ∧
      (u.die die).drains = [d] ∧ d.part = q.id ∧ d.stream = n ∧ d.slot = r.slot ∧ d.key = .fresh r.nextGang ∧ d.cluster = k ∧ d.size = r.gsize ∧
      d.since = s.clk ∧ d.plan = l ∧ (∀ e, e ≠ die → u.die e = s.die e) ∧ (x.cls = 0 → ∃ c, (c, .framePreemption die) ∈ u.timers) := by
  let d := nextDrain s q n r k l
  let t := addDrain s die d
  let u := if x.cls = 0 then preemptFor (drainsOf t q.id n r.slot (.fresh r.nextGang)) t else t
  have hx : exec (.drainReservation q.id n r.slot) s = .next u := by
    have e : exec (.drainReservation q.id n r.slot) s = execDrainReservation q.id n r.slot s := rfl
    rw [e, execDrainReservation, h.part?, h.rec?]
    simp only [ho, hc, h.stream, decide_true, List.filter_cons, List.filter_nil, if_true, List.map_cons, List.map_nil, List.foldl_cons, List.foldl_nil]
    rw [h.drainDue hb hm hr]
  have hd : (t.die die).drains = [d] := by
    rw [show t = s.updDie die _ from rfl, die_updDie_same _ h.dieLt, (h.clear die h.die_mem).1]
    rfl
  obtain ⟨hk, -⟩ : t.dues u := dues_ite (preemptFor_dues ..) (.refl t)
  have hu (e : Nat) : u.die e = t.die e := (congrArg (fun z => State.die z e) hk :)
  refine ⟨u, d, hx, sameMem_of_mem (congrArg State.mem hk :), (congrArg State.th hk :), (congrArg State.threads hk :), (hu die).symm ▸ hd, rfl, rfl, rfl, rfl,
    rfl, rfl, rfl, rfl, fun e he => (hu e).trans (die_updDie_other s _ he), fun hc => ?_⟩
  have hm : (die, d) ∈ drainsOf t q.id n r.slot (.fresh r.nextGang) := by
    refine List.mem_flatMap.2 ⟨die, ?_, List.mem_map_of_mem ?_⟩
    · exact h.partDies.symm ▸ h.die_mem
    · simp [hd, d, nextDrain, Drain.isFor]
  rw [show u = preemptFor _ t from if_pos hc]
  exact preemptFor_due hm t

end

/-! Stall resolution. -/

/-- The gangs to evict stand on the die. -/
theorem evictions_die {p st : Nat} {key : OfferKey} {l : List Nat} (hn : (s.gangs.map Gang.id).Nodup) (hl : evictions s p st die r key = some l) {g : Gang}
    (hg : g ∈ s.gangs) (hi : g.id ∈ l) : g.die = die := by
  obtain ⟨k, -, hl⟩ := List.exists_of_findSome?_eq_some hl
  dsimp only at hl
  split at hl
  · cases hl
    obtain ⟨y, hy, he⟩ := List.mem_map.1 (List.mem_reverse.1 (List.mem_of_mem_take hi))
    obtain ⟨hy, hd⟩ := List.mem_filter.1 hy
    simp only [Bool.and_eq_true, beq_iff_eq] at hd
    obtain ⟨⟨⟨hd, -⟩, -⟩, -⟩ := hd
    exact gang_unique hn hg (List.mem_of_mem_filter hy) he ▸ hd
  · cases hl

/-- The groups of a grid count as not parked until now. -/
def unpark (s : State) (p st slot : Nat) : State :=
  { s with groups := s.groups.map (fun g => if ((s.gangsOf p st slot).map Gang.id).contains g.gang then { g with lastBusy := s.clk } else g) }

/-- What a die places ahead: the next gang that it may place, or the saved one. -/
def aheadKey (s : State) (p d : Nat) (r : Rec) : OfferKey → OfferKey
  | .fresh i => .fresh ((nextIndex s p d r).getD i)
  | k => k

section
variable (h : LoneRec s q die n x r)
include h

/-- The gang that waits is the next one, or a saved one. -/
theorem LoneRec.waiting_key {key : OfferKey} (hk : waitingGang s q.id n r = some key) (u : State) (d : Nat) : aheadKey u q.id d r key = key := by
  unfold waitingGang at hk
  split at hk
  · next hm =>
    cases hk
    rw [aheadKey, Machine.nextIndex, h.ord]
    simp [hm]
  · obtain ⟨g, -, rfl⟩ := Option.map_eq_some_iff.1 hk
    rfl

theorem LoneRec.stallResolution_eq {key : OfferKey} {l : List Nat} (hs : stallDue s q.id n r = true) (hk : waitingGang s q.id n r = some key)
    (hl : evictions s q.id n die r key = some l) : exec (.stallResolution q.id n r.slot) s =
      .next (Machine.updRec (unpark (preempt s l true) q.id n r.slot) q.id n r.slot (fun z => { z with ahead := some (die, key) })) := by
  have e : exec (.stallResolution q.id n r.slot) s = execStallResolution q.id n r.slot s := rfl
  rw [e, execStallResolution, h.rec?]
  simp only [hs, hk, h.present, List.findSome?_cons, hl, Option.map_some, if_true]
  have hw := h.waiting_key hk (unpark (preempt s l true) q.id n r.slot) die
  exact congrArg (fun k => Host.Outcome.next
    (Machine.updRec (unpark (preempt s l true) q.id n r.slot) q.id n r.slot (fun z => { z with ahead := some (die, k) }))) hw

/-- A grid that is not stalled keeps its gangs. -/
theorem LoneRec.stallResolution_idle (hs : stallDue s q.id n r = false) : exec (.stallResolution q.id n r.slot) s = .next s := by
  have e : exec (.stallResolution q.id n r.slot) s = execStallResolution q.id n r.slot s := rfl
  rw [e, execStallResolution, h.rec?]
  simp [hs]

/-- The gangs whose eviction lets a stalled grid's gang fit are evicted. -/
theorem LoneRec.stallResolution (hm : s.moversIdle) (hn : (s.gangs.map Gang.id).Nodup) {key : OfferKey} {l : List Nat} (hs : stallDue s q.id n r = true)
    (hk : waitingGang s q.id n r = some key) (hl : evictions s q.id n die r key = some l) :
    ∃ u y, exec (.stallResolution q.id n r.slot) s = .next u ∧ s.sameMem u ∧ u.rec? q.id n r.slot = some y ∧ y = { r with ahead := some (die, key) } ∧
      ∀ g ∈ s.gangs, g.id ∈ l → g.status = .resident →
        u.gang? g.id = some { g with status := .saving, evicted := true } ∧ ∃ k, (k, .saveComplete g.id) ∈ u.timers := by
  have hp : (preempt s l true).sansGangs = s.sansGangs := preempt_sansGangs hm
  have hu : Machine.updRec (unpark (preempt s l true) q.id n r.slot) q.id n r.slot (fun z => { z with ahead := some (die, key) }) =
      withRec (unpark (preempt s l true) q.id n r.slot) q n x { r with ahead := some (die, key) } :=
    h.updRec_of_parts (u := unpark (preempt s l true) q.id n r.slot) (congrArg State.parts hp :) _
  refine ⟨_, _, h.stallResolution_eq hs hk hl, ?_, ?_, rfl, fun g hg hi hr => ?_⟩ <;> rw [hu]
  · exact sameMem_of_mem (congrArg State.mem hp :)
  · exact withRec_rec? _ q n x { r with ahead := some (die, key) }
  · have ht : g ∈ targets s l := mem_targets hg hi hr
    obtain ⟨k, -, hk⟩ := preempt_saves (ev := true) hm ht (evictions_die hn hl hg hi ▸ h.dieLt)
    refine ⟨?_, k, hk⟩
    have e : (preempt s l true).gang? g.id = some (g.saving true) := by
      rw [preempt_gang? hm, gang?_of_mem hn hg, Option.map_some, if_pos (List.mem_map_of_mem ht)]
    exact e

end

/-! O41. -/

theorem gangsPlaced : Says.GangsPlaced := by
  intro s q die n x r h1
  have h := loneRec_of_offersOne h1
  refine ⟨fun o hg hb hf hst hm ho hk => ?_, fun k l c ho hc hb hst hm hr => h.drainReservation (h.offerable hb hst) hm ho hc hr,
    fun l key hi hn hs hk hl => h.stallResolution hi hn hs hk hl, h.stallResolution_idle⟩
  have w : OffersNext s r := ⟨h.offerable hb hst, hf, hm, fun d => by simp [codeReady, ho, hk], hg⟩
  exact ⟨fun f oc e hb => h.window_fits w ho e hb, fun e hn => h.window_waits w hb hst e hn⟩

/-- Settles O41: a window, a reservation, an eviction, a halt, a save and a restore, each taken apart for one record or one gang. -/
theorem gangCourse : Obligations.GangCourse := ⟨gangsPlaced, gangsPreempted⟩

end Sys2Proof.Machine
end

section
/-! PROOFS. Rounding: a binary32 value rounded to binary32 is itself (O35, O36). -/

namespace Sys2Proof.Machine
open Sys2Proof

/-! The value of a pattern, read by the format's fields and by its definition. -/

/-- A sign, a fraction and an exponent as a rational. -/
theorem dyRat_eq (s : Bool) (m : Nat) (e : Int) : dyRat s m e = (if s then -1 else 1) * (m : ℚ) * 2 ^ e := by
  have h : dyRat false m e = (m : ℚ) * 2 ^ e := by
    simp only [dyRat, Bool.false_eq_true, if_false]
    split
    · next he =>
      obtain ⟨n, rfl⟩ := Int.eq_ofNat_of_zero_le he
      simp
    · next he =>
      obtain ⟨n, rfl⟩ : ∃ n : Nat, e = -(n : Int) := ⟨(-e).toNat, by omega⟩
      simp [Rat.mkRat_eq_div, div_eq_mul_inv]
  cases s
  · simpa using h
  · have : dyRat true m e = -dyRat false m e := rfl
    rw [this, h]
    simp

/-- A pattern of binary32 by its fields (R238, R239). -/
theorem unpack_f32 (v : Nat) : unpack f32 v =
    if bits v 30 23 = 255 then (if bits v 22 0 = 0 then .inf (v.testBit 31) else .nan (v.testBit 31) (!(bits v 22 0).testBit 22) (bits v 22 0 * 2 ^ 29))
    else if bits v 30 23 = 0 then .fin (v.testBit 31) (bits v 22 0) (-149)
    else .fin (v.testBit 31) (2 ^ 23 + bits v 22 0) ((bits v 30 23 : Int) - 150) := by
  have he : v / 2 ^ 23 % 2 ^ 8 = bits v 30 23 := rfl
  have hm : v % 2 ^ 23 = bits v 22 0 := by simp [bits]
  simp only [unpack, f32, he, hm, Fmt.bias]
  by_cases h1 : bits v 30 23 = 255
  · simp [h1]
  · by_cases h0 : bits v 30 23 = 0
    · simp [h0]
    · simp [h1, h0, sub_sub]

/-- A pattern with a value is read as a sign, a fraction below 2^24 and an exponent in range, of that value. -/
theorem unpack_of_f32Val {w : Word} {q : ℚ} (h : f32Val w = some q) : ∃ s m, ∃ e : Int, unpack f32 w.toNat = .fin s m e ∧ m < 2 ^ 24 ∧ -149 ≤ e ∧
    e ≤ 104 ∧ q = (if s then -1 else 1) * (m : ℚ) * 2 ^ e := by
  unfold f32Val at h
  dsimp only at h
  have hm : bits w.toNat 22 0 < 2 ^ 23 := Nat.mod_lt _ (by decide)
  have he : bits w.toNat 30 23 < 2 ^ 8 := Nat.mod_lt _ (by decide)
  rw [BitVec.getLsbD] at h
  rw [unpack_f32]
  generalize bits w.toNat 30 23 = e at *
  generalize bits w.toNat 22 0 = m at *
  by_cases h1 : e = 255
  · simp [h1] at h
  rw [if_neg h1] at h ⊢
  by_cases h0 : e = 0
  · rw [if_pos h0] at h ⊢
    refine ⟨_, m, -149, rfl, by omega, by omega, by omega, ?_⟩
    rw [← Option.some.inj h, zpow_neg, show (149 : Int) = (149 : Nat) from rfl, zpow_natCast]
    ring
  · rw [if_neg h0] at h ⊢
    refine ⟨_, 2 ^ 23 + m, (e : Int) - 150, rfl, by omega, by omega, by omega, ?_⟩
    rw [← Option.some.inj h, show (150 : Int) = (150 : Nat) from rfl, zpow_sub₀ two_ne_zero, zpow_natCast, zpow_natCast]
    push_cast
    ring

/-- A pattern without a value is read as an infinity or a NaN. -/
theorem unpack_of_f32Val_none {w : Word} (h : f32Val w = none) : bits w.toNat 30 23 = 255 := by
  unfold f32Val at h
  by_contra hn
  simp only [hn, if_false] at h
  split at h <;> cases h

theorem ratOf_eq_f32Val (w : Word) : ratOf w = f32Val w := by
  cases h : f32Val w with
  | none =>
    rw [ratOf, unpack_f32, if_pos (unpack_of_f32Val_none h)]
    split <;> [skip; rfl]
    next hu => split at hu <;> cases hu
  | some q =>
    obtain ⟨s, m, e, hu, -, -, -, hq⟩ := unpack_of_f32Val h
    rw [ratOf, hu, hq, ← dyRat_eq]

/-! Rounding what needs none. -/

/-- A number whose fraction stands at or above the place of rounding is not changed by it. -/
theorem roundAt_exact (s : Bool) (n t : Nat) (e q : Int) (h : q ≤ e + t) : roundAt 0 s (n * 2 ^ t) e q = (n * 2 ^ (e + t - q).toNat, false) := by
  rw [roundAt]
  split
  · next hq =>
    rw [Nat.mul_assoc, ← Nat.pow_add]
    congr 3
    omega
  · next hq =>
    obtain ⟨k, hk⟩ : ∃ k : Nat, q - e = k := ⟨(q - e).toNat, by omega⟩
    obtain ⟨j, rfl⟩ : ∃ j, t = k + j := ⟨t - k, by omega⟩
    have hj : (e + (k + j : Nat) - q).toNat = j := by omega
    rw [hj, hk, Int.toNat_natCast, roundShift, Nat.pow_add, Nat.mul_left_comm, Nat.mul_div_cancel_left _ (Nat.two_pow_pos k), Nat.mul_mod_right]
    have : 2 ^ k ≠ 0 := (Nat.two_pow_pos k).ne'
    simp [Ne.symm this]

/-- A number below the place of its size, moved to it. -/
theorem size_shift {n : Nat} (h0 : 0 < n) (h : n < 2 ^ 24) : n.size ≤ 24 ∧ 2 ^ 23 ≤ n * 2 ^ (24 - n.size) ∧ n * 2 ^ (24 - n.size) < 2 ^ 24 := by
  have hs : n.size ≤ 24 := Nat.size_le.2 h
  have hp : 0 < n.size := Nat.size_pos.2 h0
  have lo : 2 ^ (n.size - 1) ≤ n := Nat.lt_size.1 (by omega)
  have hi : n < 2 ^ n.size := Nat.lt_size_self n
  refine ⟨hs, ?_, ?_⟩
  · calc 2 ^ 23 = 2 ^ (n.size - 1) * 2 ^ (24 - n.size) := by rw [← Nat.pow_add]; congr 1; omega
      _ ≤ _ := Nat.mul_le_mul_right _ lo
  · calc n * 2 ^ (24 - n.size) < 2 ^ n.size * 2 ^ (24 - n.size) := Nat.mul_lt_mul_of_pos_right hi (Nat.two_pow_pos _)
      _ = 2 ^ 24 := by rw [← Nat.pow_add]; congr 1; omega

theorem dyLt_iff (m : Nat) (e : Int) (n : Nat) (d : Int) : dyLt m e n d = true ↔ (m : ℚ) * 2 ^ e < n * 2 ^ d := by
  have key (k : Nat) (x : Int) (h : min e d ≤ x) : ((k * 2 ^ (x - min e d).toNat : Nat) : ℚ) * 2 ^ min e d = k * 2 ^ x := by
    push_cast
    rw [mul_assoc, ← zpow_natCast, ← zpow_add₀ two_ne_zero]
    congr 2
    omega
  have pos : (0 : ℚ) < 2 ^ min e d := by positivity
  rw [dyLt, decide_eq_true_iff, ← Nat.cast_lt (α := ℚ), ← mul_lt_mul_iff_of_pos_right pos, key _ _ (min_le_left ..), key _ _ (min_le_right ..)]

/-- The value of the fields of a finite pattern put together. -/
theorem f32Val_fields (s : Bool) {x m : Nat} (hx : x < 255) (hm : m < 2 ^ 23) : f32Val (BitVec.ofNat 32 (signBits f32 s + x * 2 ^ 23 + m)) =
    some (if x = 0 then (if s then -1 else 1) * (m : ℚ) / 2 ^ 149 else (if s then -1 else 1) * (2 ^ 23 + (m : ℚ)) * 2 ^ x / 2 ^ 150) := by
  have hv : (BitVec.ofNat 32 (signBits f32 s + x * 2 ^ 23 + m)).toNat = (if s then 2 ^ 31 else 0) + x * 2 ^ 23 + m := by
    rw [BitVec.toNat_ofNat]
    cases s <;> simp [signBits, f32] <;> omega
  have he : bits (BitVec.ofNat 32 (signBits f32 s + x * 2 ^ 23 + m)).toNat 30 23 = x := by
    rw [hv, bits]
    split <;> omega
  have hf : bits (BitVec.ofNat 32 (signBits f32 s + x * 2 ^ 23 + m)).toNat 22 0 = m := by
    rw [hv, bits]
    split <;> omega
  have hs : (BitVec.ofNat 32 (signBits f32 s + x * 2 ^ 23 + m)).getLsbD 31 = s := by
    rw [BitVec.getLsbD, hv, Nat.testBit_eq_decide_div_mod_eq]
    cases s <;> simp <;> omega
  unfold f32Val
  simp only [he, hf, hs, hx.ne, if_false]
  split <;> rfl

/-- Rounding to nearest in binary32, with its constants (R242). -/
theorem roundTo_f32 (s : Bool) (m : Nat) (e q : Int) (u : Nat × Bool) (hq : q = e + m.size - 24) (hu : roundAt 0 s m e q = u) :
    (roundTo f32 false false 0 s m e).1 =
      if dyLt (2 ^ 24 - 1) 104 u.1 q then infBits f32 s
      else if dyLt u.1 q 1 (-126) then signBits f32 s + (roundAt 0 s m e (-149)).1
      else signBits f32 s + (q + 150 + (if u.1 == 2 ^ 24 then 1 else 0)).toNat * 2 ^ 23 + ((if u.1 == 2 ^ 24 then 2 ^ 23 else u.1) - 2 ^ 23) := by
  have hk : f32.kind = .ieee := rfl
  have he : f32.ebits = 8 := rfl
  have hf : f32.fbits = 23 := rfl
  have hb : f32.bias = 127 := rfl
  have h1 : e + m.size - 1 - (23 : Nat) = q := by omega
  have h2 : (2 ^ 8 - 1 : Int) - (127 : Nat) - (23 : Nat) - 1 = 104 := by norm_num
  have h3 : q + (23 : Nat) + (127 : Nat) = q + 150 := by omega
  have h4 : (1 : Int) - (127 : Nat) = -126 := by norm_num
  have h5 : (-126 : Int) - (23 : Nat) = -149 := by norm_num
  have h6 : overflowBits f32 false 0 s = infBits f32 s := rfl
  unfold roundTo
  simp only [hk, he, hf, hb, h1, h2, h3, h4, h5, h6, hu, Bool.false_eq_true, if_false, if_true, apply_ite Prod.fst, Nat.reduceAdd]

/-- A number of at most 24 bits within the range of binary32 is rounded to itself. -/
theorem f32Val_roundTo {n t : Nat} {e : Int} (h0 : 0 < n) (hn : n < 2 ^ 24) (lo : -149 ≤ e + t) (hi : e + t + n.size ≤ 128) (s : Bool) :
    f32Val (BitVec.ofNat 32 (roundTo f32 false false 0 s (n * 2 ^ t) e).1) = some ((if s then -1 else 1) * (n : ℚ) * 2 ^ (e + t)) := by
  obtain ⟨hs, l23, h24⟩ := size_shift h0 hn
  have hz : (n * 2 ^ t).size = n.size + t := by rw [← Nat.shiftLeft_eq, Nat.size_shiftLeft h0.ne']
  -- the place of the last bit of a fraction of 24 bits, and that fraction
  obtain ⟨q, hq⟩ : ∃ q : Int, q = e + t + n.size - 24 := ⟨_, rfl⟩
  have hu : roundAt 0 s (n * 2 ^ t) e q = (n * 2 ^ (24 - n.size), false) := by
    rw [roundAt_exact s n t e q (by omega)]
    congr 3
    omega
  have hv : (n : ℚ) * 2 ^ (e + t) = (n * 2 ^ (24 - n.size) : Nat) * 2 ^ q := by
    push_cast
    rw [mul_assoc, ← zpow_natCast, ← zpow_add₀ two_ne_zero]
    congr 2
    omega
  generalize n * 2 ^ (24 - n.size) = N at *
  have fits : dyLt (2 ^ 24 - 1) 104 N q = false := by
    rw [Bool.eq_false_iff, Ne, dyLt_iff, not_lt]
    have : (N : ℚ) ≤ (2 ^ 24 - 1 : Nat) := by exact_mod_cast Nat.le_sub_one_of_lt h24
    exact mul_le_mul this (zpow_le_zpow_right₀ one_le_two (by omega)) (by positivity) (by positivity)
  have tiny : dyLt N q 1 (-126) = decide (q < -149) := by
    rw [Bool.eq_iff_iff, dyLt_iff, decide_eq_true_iff, Nat.cast_one, one_mul]
    constructor
    · intro h
      by_contra hq
      have : (2 : ℚ) ^ (23 : Nat) ≤ N := by exact_mod_cast l23
      have := mul_le_mul this (zpow_le_zpow_right₀ (a := (2 : ℚ)) one_le_two (not_lt.1 hq)) (by positivity) (by positivity)
      refine absurd h (not_lt.2 (le_trans (le_of_eq ?_) this))
      rw [← zpow_natCast, ← zpow_add₀ two_ne_zero]
      rfl
    · intro h
      have : (N : ℚ) < 2 ^ (24 : Nat) := by exact_mod_cast h24
      have := mul_lt_mul this (zpow_le_zpow_right₀ (a := (2 : ℚ)) one_le_two (show q ≤ -150 by omega)) (by positivity) (by positivity)
      refine lt_of_lt_of_eq this ?_
      rw [← zpow_natCast, ← zpow_add₀ two_ne_zero]
      rfl
  have hr : (roundTo f32 false false 0 s (n * 2 ^ t) e).1 =
      if q < -149 then signBits f32 s + 0 * 2 ^ 23 + n * 2 ^ (e + t + 149).toNat
      else signBits f32 s + (q + 150).toNat * 2 ^ 23 + (N - 2 ^ 23) := by
    have low : roundAt 0 s (n * 2 ^ t) e (-149) = (n * 2 ^ (e + t + 149).toNat, false) := by
      rw [roundAt_exact s n t e _ (by omega)]
      congr 3
    have hc : (N == 2 ^ 24) = false := beq_false_of_ne (Nat.ne_of_lt h24)
    rw [roundTo_f32 s (n * 2 ^ t) e q _ (by omega) hu, fits, tiny, low, hc]
    simp
  rw [hr, mul_assoc]
  split
  · next ht =>
    have hm : n * 2 ^ (e + t + 149).toNat < 2 ^ 23 := by
      refine lt_of_lt_of_le (Nat.mul_lt_mul_of_pos_right (Nat.lt_size_self n) (Nat.two_pow_pos _)) ?_
      rw [← Nat.pow_add]
      exact Nat.pow_le_pow_right (by decide) (by omega)
    obtain ⟨k, hk⟩ : ∃ k : Nat, e + t = k - 149 := ⟨(e + t + 149).toNat, by omega⟩
    rw [f32Val_fields s (by omega) hm, if_pos rfl, hk, sub_add_cancel, Int.toNat_natCast, show (149 : Int) = (149 : Nat) from rfl,
      zpow_sub₀ two_ne_zero, zpow_natCast, zpow_natCast]
    push_cast
    congr 1
    ring
  · next ht =>
    obtain ⟨x, hx⟩ : ∃ x : Nat, q = x - 150 := ⟨(q + 150).toNat, by omega⟩
    obtain ⟨m, rfl⟩ : ∃ m, N = 2 ^ 23 + m := ⟨N - 2 ^ 23, by omega⟩
    rw [hv, hx, sub_add_cancel, Int.toNat_natCast, Nat.add_sub_cancel_left, f32Val_fields s (by omega) (by omega), if_neg (by omega),
      show (150 : Int) = (150 : Nat) from rfl, zpow_sub₀ two_ne_zero, zpow_natCast, zpow_natCast]
    push_cast
    congr 1
    ring

/-! A rational that a pattern has as its value. -/

/-- A dyadic rational in lowest terms. -/
theorem den_dyadic {q : ℚ} {s : Bool} {m : Nat} {e : Int} (he : -149 ≤ e) (h : q = (if s then -1 else 1) * (m : ℚ) * 2 ^ e) :
    ∃ j, q.den = 2 ^ j := by
  obtain ⟨k, rfl⟩ : ∃ k : Nat, e = k - 149 := ⟨(e + 149).toNat, by omega⟩
  have hz : q = (((if s then -1 else 1) * (m : ℤ) * 2 ^ k : ℤ) : ℚ) / ((2 ^ 149 : ℤ) : ℚ) := by
    rw [h, show (149 : Int) = (149 : Nat) from rfl, zpow_sub₀ two_ne_zero, zpow_natCast, zpow_natCast]
    push_cast
    ring
  have hd : (q.den : ℤ) ∣ 2 ^ 149 := by
    rw [hz, ← Rat.divInt_eq_div]
    exact Rat.den_dvd _ _
  obtain ⟨j, -, hj⟩ := (Nat.dvd_prime_pow Nat.prime_two).1 (by exact_mod_cast hd : q.den ∣ 2 ^ 149)
  exact ⟨j, hj⟩

/-- The quotient of a number by a power of two is exact. -/
theorem ratioExact_two_pow (s : Bool) {n : Nat} (h : n ≠ 0) (j : Nat) : ratioExact s n (2 ^ j) = .fin s (n * 2 ^ 102) (-(j : Int) - 102) := by
  have hk : n * 2 ^ (100 + (2 ^ j).size) = 2 ^ j * (n * 2 ^ 101) := by
    rw [Nat.size_pow]
    ring
  rw [ratioExact, if_neg h]
  simp only [hk, Nat.mul_mod_right, Nat.mul_div_cancel_left _ (Nat.two_pow_pos j), if_true]
  rw [Nat.size_pow]
  congr 1
  · ring
  · push_cast
    ring

/-- The value of a pattern of binary32, rounded to binary32, is itself. -/
theorem f32Val_rneRat {w : Word} {q : ℚ} (h : f32Val w = some q) : f32Val (rneRat q) = some q := by
  obtain ⟨s, m, e, -, hm, lo, hi, hq⟩ := unpack_of_f32Val h
  rcases Nat.eq_zero_or_pos m with rfl | h0
  · have : q = 0 := by simp [hq]
    subst this
    have h0 : rneRat 0 = 0 := by decide
    rw [h0]
    simp [f32Val, bits]
  obtain ⟨j, hj⟩ := den_dyadic lo hq
  have hp : (0 : ℚ) < m * 2 ^ e := by positivity
  have hs : decide (q.num < 0) = s := by
    rw [Bool.eq_iff_iff, decide_eq_true_iff, Rat.num_neg, hq]
    cases s <;> simp <;> linarith
  have ha : (q.num.natAbs : ℚ) = m * 2 ^ (e + j) := by
    have : |q| = m * 2 ^ e := by
      rw [hq]
      cases s <;> simp
    rw [zpow_add₀ two_ne_zero, ← mul_assoc, ← this, Nat.cast_natAbs, zpow_natCast, ← Nat.cast_two (R := ℚ), ← Nat.cast_pow, ← hj,
      Int.cast_abs, ← Rat.mul_den_eq_num, abs_mul, Nat.abs_cast]
  have hn : q.num.natAbs ≠ 0 := by
    intro h0
    rw [h0, Nat.cast_zero] at ha
    exact absurd ha.symm (by positivity)
  -- the numerator is a number below 2^24 moved by no more places than 24
  have ht : -24 < e + j := by
    by_contra hlt
    have h1 : (1 : ℚ) ≤ q.num.natAbs := by exact_mod_cast Nat.one_le_iff_ne_zero.2 hn
    have h2 : (m : ℚ) < 2 ^ (24 : Nat) := by exact_mod_cast hm
    have h3 := mul_lt_mul h2 (zpow_le_zpow_right₀ (a := (2 : ℚ)) one_le_two (not_lt.1 hlt)) (by positivity) (by positivity)
    rw [← ha, ← zpow_natCast, ← zpow_add₀ two_ne_zero] at h3
    exact absurd h3 (not_lt.2 h1)
  obtain ⟨t, ht⟩ : ∃ t : Nat, e = -(j : Int) - 102 + t := ⟨(e + j + 102).toNat, by omega⟩
  have hM : q.num.natAbs * 2 ^ 102 = m * 2 ^ t := by
    have : ((q.num.natAbs * 2 ^ 102 : Nat) : ℚ) = (m * 2 ^ t : Nat) := by
      rw [Nat.cast_mul, Nat.cast_mul, ha, mul_assoc, Nat.cast_pow, Nat.cast_pow, Nat.cast_two, ← zpow_natCast, ← zpow_natCast, ← zpow_add₀ two_ne_zero]
      congr 2
      omega
    exact_mod_cast this
  have hr : rneRat q = BitVec.ofNat 32 (roundTo f32 false false 0 s (m * 2 ^ t) (-(j : Int) - 102)).1 := by
    rw [rneRat, hs, hj, ratioExact_two_pow s hn, hM]
    have : m * 2 ^ t ≠ 0 := (Nat.mul_pos h0 (Nat.two_pow_pos t)).ne'
    simp [outF, this, compatBit]
  rw [hr, f32Val_roundTo h0 hm (ht ▸ lo) (by have := (size_shift h0 hm).1; omega), ← ht, ← hq]

/-- So it is the nearest. -/
theorem rneRat_rounds {w : Word} {q : ℚ} (h : f32Val w = some q) : f32Rounds 0 q (rneRat q) := by
  refine ⟨q, f32Val_rneRat h, fun z p _ => ?_⟩
  rw [sub_self, abs_zero]
  exact ⟨abs_nonneg _, fun hp => .inl (sub_eq_zero.1 (abs_eq_zero.1 hp.symm))⟩

end Sys2Proof.Machine
end

section
/-! PROOFS. Texture reads leave a thread and its die alone; pixel instructions and primitive emission (O36). -/

namespace Sys2Proof.Machine
open Sys2Proof

/-! What the reads of a wave thread leave alone. -/

/-- The state without the bytes of memory, what caches hold, what event counters hold and free values. -/
def State.sansTex (s : State) : State := { s.sansCache with ctlb := [] }

theorem sansTex_of_sansCache {s u : State} (h : u.sansCache = s.sansCache) : u.sansTex = s.sansTex :=
  (congrArg (fun x : State => ({ x with ctlb := [] } : State)) h :)

/-- The state that a pair names. -/
theorem sansTex_of_pair {α : Type} {x : State × α} {u v : State} {a : α} (e : x = (u, a)) (h : x.1.sansTex = v) : u.sansTex = v := by
  subst e
  exact h

@[simp] theorem useTlb_sansTex (s : State) (a : DWord) : (useTlb s a).sansTex = s.sansTex := by
  unfold useTlb tlbUse fillCluster
  split
  · split
    · rfl
    · split
      · unfold clusterEvent
        split
        · exact (sansTex_of_sansCache (dieEvent_sansCache ..) :)
        · rfl
      · rfl
  · rfl

@[simp] theorem l1Read_sansTex (s : State) (c p k n : Nat) (e : DWord) : (l1Read s c p k n e).2.sansTex = s.sansTex := by
  unfold l1Read
  refine (sansTex_of_sansCache (l1Put_sansCache ..)).trans ?_
  split
  · rfl
  · refine sansTex_of_sansCache ((l1Put_sansCache ..).trans ((l2Touch_sansCache ..).trans ?_))
    exact ite_keeps (dieEvent_sansCache ..) rfl

@[simp] theorem homeRead_sansTex (s : State) (k n : Nat) : (homeRead s k n).2.sansTex = s.sansTex := by
  unfold homeRead ioRead
  dsimp only
  repeat' split
  all_goals rfl

@[simp] theorem readRun_sansTex (f : Nat) (s : State) (k n : Nat) : (readRun f s k n).1.sansTex = s.sansTex := by
  induction f generalizing s k n with
  | zero => rfl
  | succ f ih =>
    unfold readRun
    split
    · rfl
    · exact (ih ..).trans (homeRead_sansTex ..)

@[simp] theorem unitFetch_sansTex (s : State) (u d k n : Nat) : (unitFetch s u d k n).1.sansTex = s.sansTex := by
  unfold unitFetch
  split
  · split <;> rfl
  · split
    · rfl
    · exact readRun_sansTex ..

@[simp] theorem texRead_sansTex (s : State) (a n : Nat) : (texRead s a n).1.sansTex = s.sansTex := by
  unfold texRead
  dsimp only
  split
  · rfl
  · rfl
  · split
    · exact (l1Read_sansTex ..).trans (useTlb_sansTex ..)
    · split
      · split
        all_goals
          next e => exact (sansTex_of_pair e (unitFetch_sansTex ..)).trans (useTlb_sansTex ..)
      · split
        · exact (l1Read_sansTex ..).trans (useTlb_sansTex ..)
        · exact (homeRead_sansTex ..).trans ((sansTex_of_sansCache (l2Touch_sansCache ..)).trans (useTlb_sansTex ..))

@[simp] theorem readWords_sansTex (n : Nat) (s : State) (a : Nat) : (readWords n s a).1.sansTex = s.sansTex := by
  induction n generalizing s a with
  | zero => rfl
  | succ n ih =>
    unfold readWords
    split
    · next e => exact sansTex_of_pair e (texRead_sansTex ..)
    · next e =>
      have h := sansTex_of_pair e (texRead_sansTex ..)
      split
      all_goals
        next e => exact (sansTex_of_pair e (ih ..)).trans h

theorem th_of_sansTex {s u : State} (h : u.sansTex = s.sansTex) : u.th = s.th := (congrArg State.th h :)

theorem rast_of_sansTex {s u : State} (h : u.sansTex = s.sansTex) (d : Nat) : u.rast d = s.rast d := (congrArg (fun x : State => x.rast d) h :)

/-- The rasteriser of a die that was changed. -/
theorem rast_updRast_same {s : State} {d : Nat} (f : Raster → Raster) (h : d < 24) : (s.updRast d f).rast d = f (s.rast d) :=
  congrArg Die.rast (die_updDie_same _ h)

@[simp] theorem later_rast (s : State) (e : Event) (d : Nat) : (s.later e).rast d = s.rast d := rfl

@[simp] theorem finish_rast (s : State) (t : Thread) (codes : List Code) (ex : List Nat) (len n d : Nat) :
    (finish s t codes ex len n).rast d = s.rast d := rfl

@[simp] theorem forgetUnit_th (s : State) (u : Nat) : (forgetUnit s u).th = s.th := rfl

@[simp] theorem forgetUnit_rast (s : State) (u d : Nat) : (forgetUnit s u).rast d = s.rast d := rfl

/-! interp (R400). -/

variable {s : State}

/-- interp of a thread that is no pixel thread. -/
theorem interp_none {d a b : Code} {na nb nd : Nat} (hw : s.th.isWave = true) (fr : s.th.free [1, 2]) (ha : s.th.at1 1 a na) (hb : s.th.at1 2 b nb)
    (hd : s.th.at1 0 d nd) (hp : s.th.pixel = none) : exec (.interp d a b) s = .next (raise s (faultOf .illegal 2)) := by
  show Host.Outcome.next _ = _
  rw [onEngine_same hw, ops3_ok fr ha hb hd]
  simp only [hp]

/-- Where a pixel thread takes attributes for a selector: at a sample of its draw or at the pixel's centre. -/
def State.samplePoint (s : State) (x : Pixel) (sel : Nat) : Int × Int :=
  let n := ((s.draw? s.th.part x.ord).map (·.samples)).getD 1
  if sel.testBit 2 && decide (sel % 4 < n) then samplePos n x.x x.y (sel % 4) else samplePos 1 x.x x.y 0

/-- interp of a pixel thread writes one of its primitive's attributes, taken at the point that its selector names. -/
theorem interp_some {d a b : Code} {na nb nd : Nat} {x : Pixel} {p : Prim} (hw : s.th.isWave = true) (fr : s.th.free [1, 2]) (ha : s.th.at1 1 a na)
    (hb : s.th.at1 2 b nb) (hd : s.th.at1 0 d nd) (hp : s.th.pixel = some x)
    (hf : (s.rast s.th.die).prims.find? (fun p => p.ord == x.ord && p.idx == x.prim) = some p) :
    let at_ := s.samplePoint x (s.src s.th 2 nb).toNat
    exec (.interp d a b) s =
      .next (finish s ((clearArms s.th [1, 2]).wr nd (interpAt p ((s.src s.th 1 na).toNat % 32) at_.1 at_.2)) [a, b, d] [] 2 8) := by
  refine (congrArg Host.Outcome.next (onEngine_same hw) :).trans ?_
  rw [ops3_ok fr ha hb hd]
  simp only [hp, hf, bits, Nat.pow_zero, Nat.div_one]
  rfl

/-- Attributes beyond the record are +0. -/
theorem interpAt_beyond {p : Prim} {k : Nat} (h : p.nattr ≤ k) (px py : Int) : interpAt p k px py = 0 := if_pos h

/-- Weights of a value that is the same everywhere come out. -/
theorem zipWith_mul_some (l : List Rat) {n : Nat} (h : l.length = n) (f : Rat) :
    (l.zipWith (fun w (g : Option Rat) => w * g.getD 0) (List.replicate n (some f))).sum = l.sum * f := by
  subst h
  induction l with
  | nil => simp
  | cons w l ih => simp [List.replicate_succ, ih, add_mul]

/-- A value that the vertices share is that value everywhere, where the weights do not vanish. -/
theorem interpAt_shared {p : Prim} {k : Nat} {f : ℚ} (hk : k < p.nattr) (hf : ∀ v, v < 3 → f32Val (p.attrs[p.nattr * v + k]?.getD 0) = some f)
    (hl : p.verts.length = 3) (hv : ∀ v ∈ p.verts, (f32Val v.2.2.2).isSome = true) (px py : Int) :
    interpAt p k px py = BitVec.ofNat 32 (canonNan f32) ∨ interpAt p k px py = rneRat f := by
  have hr : (p.verts.map (fun v => ratOf v.2.2.2)).any Option.isNone = false := by
    simpa [ratOf_eq_f32Val, Option.isSome_iff_ne_none] using hv
  have hs : (List.range 3).map (fun v => ratOf (p.attrs[p.nattr * v + k]?.getD 0)) = List.replicate 3 (some f) :=
    List.map_eq_replicate_iff.2 (fun v hv => by rw [ratOf_eq_f32Val, hf v (List.mem_range.1 hv)])
  unfold interpAt
  simp only [hs, hr, if_neg (Nat.not_le.2 hk)]
  rw [if_neg (by simp)]
  split
  · exact .inl rfl
  · next hden =>
    rw [zipWith_mul_some _ (by obtain ⟨a, b, c, e⟩ := List.length_eq_three.1 hl; simp [weightsAt, e]), mul_div_cancel_left₀ _ hden]
    exact .inr rfl

/-- The canonical NaN is a NaN. -/
theorem f32Nan_canon : f32Nan (BitVec.ofNat 32 (canonNan f32)) := by unfold f32Nan; decide

/-! pexp (R402). -/

/-- pexp outside a pixel thread, or after the quad has been captured. -/
theorem pexp_illegal {a b : Code} {na nb : Nat} (hw : s.th.isWave = true) (fr : s.th.free [2]) (ha : s.th.at4 1 a na) (hb : s.th.at1 2 b nb)
    (h : s.th.pixel = none ∨ ∃ p, s.th.pixel = some p ∧ p.exported = true) : exec (.pexp a b) s = .next (raise s (faultOf .illegal 2)) := by
  refine (congrArg Host.Outcome.next (onEngine_same hw) :).trans ?_
  rw [ops2_ok fr ha hb]
  obtain hp | ⟨p, hp, he⟩ := h
  · simp only [hp]
  · simp only [hp, he, if_true]

/-- A thread with another pixel context. -/
def Thread.withPixel (t : Thread) (p : Option Pixel) : Thread := { t with pixel := p }

/-- pexp of a pixel thread that has not exported. -/
theorem pexp_exec {a b : Code} {na nb : Nat} {p : Pixel} (hw : s.th.isWave = true) (fr : s.th.free [2]) (ha : s.th.at4 1 a na)
    (hb : s.th.at1 2 b nb) (hp : s.th.pixel = some p) (he : p.exported = false) :
    exec (.pexp a b) s = .next ((finish (updExport s s.th.die s.th.uid (fun e => { e with value := some (s.th.rd4 na, (s.src s.th 2 nb).setWidth 4) }))
      ((clearArms s.th [2]).withPixel (some { p with exported := true })) [a, b] [] 2 4).later (.exportApply (clearArms s.th [2]).die)) := by
  refine (congrArg Host.Outcome.next (onEngine_same hw) :).trans ?_
  rw [ops2_ok fr ha hb]
  simp only [hp, he]
  rfl

@[simp] theorem updExport_th (s : State) (d u : Nat) (f : Export → Export) : (updExport s d u f).th = s.th := rfl

/-- The advance of index registers does not see the pixel context. -/
theorem advances_withPixel (t : Thread) (p : Option Pixel) (js : List Nat) : advances (t.withPixel p) js = (advances t js).withPixel p := by
  induction js generalizing t with
  | nil => rfl
  | cons j js ih =>
    have h : advance (t.withPixel p) j = (advance t j).withPixel p := by
      unfold advance
      rw [apply_ite (Thread.withPixel · p)]
      rfl
    exact (congrArg (advances · js) h).trans (ih _)

/-- Nor does a frame. -/
theorem frame_withPixel {t u : Thread} {ds ps : List Nat} {codes : List Code} {js ovr : List Nat} (h : t.frame u ds ps codes js ovr) (p : Option Pixel) :
    t.frame (u.withPixel p) ds ps codes js ovr := h

/-- The end of pexp. -/
theorem finish_pexp (s' : State) (e : s'.th = s.th) (p : Option Pixel) {a b : Code} :
    let t := (finish s' ((clearArms s.th [2]).withPixel p) [a, b] [] 2 4).th
    t.pixel = p ∧ s.th.frame t [] [] [a, b] [] [2] ∧ t.run = .ready ∧ t.pc = s.th.pc + s.th.parcels 2 := by
  obtain ⟨-, -, hrx, hpc, -⟩ := Thread.alike_trans (clearArms_alike s.th [2]) (advances_alike _ (usedIdx s.th [a, b] []))
  simp only [finish, e, advances_withPixel]
  refine ⟨rfl, frame_done (frame_withPixel (frame_clearArms (by decide) (by decide)) p) .., rfl, ?_⟩
  show (advances (clearArms s.th [2]) _).pc + BitVec.ofNat 32 (2 + if (advances (clearArms s.th [2]) _).rx then 1 else 0) = _
  rw [Thread.parcels, hpc, hrx]

@[simp] theorem clearArms_die (t : Thread) (l : List Nat) : (clearArms t l).die = t.die := by
  obtain ⟨-, -, -, -, -, -, -, -, -, -, -, -, h, -⟩ := (clearArms_alike t l).1
  rw [Thread.die, Thread.core, h]
  rfl

/-! Emission (R401). -/

variable {dr : Draw} {sl : Slice} {i : Nat}

/-- What emitCheck decides, for a thread of a draw whose slice stands at its die. -/
theorem emitCheck_eq (hd : s.drawOf s.th = some dr) (hs : (s.rast s.th.die).slices.find? (fun x => x.ord == dr.ord) = some sl) :
    emitCheck s i = if i < sl.next ∨ sl.stop ≤ i ∨ ∃ e ∈ (s.rast s.th.die).emissions, e.ord = dr.ord ∧ e.idx = i then .bad
      else if sl.next + 1024 ≤ i then .far else .ok dr := by
  simp [emitCheck, hd, hs]

/-- The index rules say yes. -/
theorem emitCheck_ok (hd : s.drawOf s.th = some dr) (hs : (s.rast s.th.die).slices.find? (fun x => x.ord == dr.ord) = some sl) (h1 : sl.next ≤ i)
    (h2 : i < sl.stop) (h3 : i < sl.next + 1024) (h4 : ¬∃ e ∈ (s.rast s.th.die).emissions, e.ord = dr.ord ∧ e.idx = i) : emitCheck s i = .ok dr := by
  rw [emitCheck_eq hd hs, if_neg (not_or.2 ⟨by omega, not_or.2 ⟨by omega, h4⟩⟩), if_neg (by omega)]

/-- What pemit.cull does once its operand has resolved. -/
theorem pemitCull_eq {a : Code} {na : Nat} (hw : s.th.isWave = true) (hp : s.th.prim = true) (fr : s.th.free [1]) (ha : s.th.at1 1 a na) :
    exec (.pemitCull a) s = .next (match emitCheck s (s.src s.th 1 na).toNat with
      | .bad => raise s { faultOf .window 2 with pos := 1 }
      | .far => s.put (s.th.await s.clk (.emit (s.src s.th 1 na).toNat) 0 [] 2)
      | .ok d => finish (emitTo s s.th.die d.ord (s.src s.th 1 na).toNat none) (clearArms s.th [1]) [a] [] 2 4) := by
  refine (congrArg Host.Outcome.next (onEngine_same hw) :).trans ?_
  rw [ops1_ok fr ha]
  simp only [hp]
  rfl

/-- What pemit does at an index that may be emitted, with its record read. -/
theorem pemit_eq {a b : Code} {na nb lat : Nat} {s1 : State} {ws : List Word} (hw : s.th.isWave = true) (hp : s.th.prim = true) (fr : s.th.free [1])
    (ha : s.th.at1 1 a na) (hb : s.th.atA 2 b nb) (hm : (s.th.rd2 nb).toNat % 16 = 0) (ht : topByte (s.th.rd2 nb).toNat = 0)
    (hc : emitCheck s (s.src s.th 1 na).toNat = .ok dr)
    (hr : readWords (12 + 3 * dr.nattr) s (s.th.rd2 nb).toNat = (s1, .ok (ws, lat))) (k : s1.th = s.th) :
    exec (.pemit a b) s = .next (finish (emitTo (forgetUnit s1 s.th.uid) s.th.die dr.ord (s.src s.th 1 na).toNat (some ws))
      (clearArms s.th [1]) [a, b] [] 2 (lat + (48 + 12 * dr.nattr + 15) / 16 - 1)) := by
  have e : (emitTo (forgetUnit s1 s.th.uid) s.th.die dr.ord (s.src s.th 1 na).toNat (some ws)).th = s.th := k
  refine (congrArg Host.Outcome.next (onEngine_same hw) :).trans ?_
  rw [ops2_ok fr ha hb]
  simp only [hp, ht, hm, hc, hr, ne_eq, not_true_eq_false, false_and, if_false, Bool.not_true, e]
  rfl

@[simp] theorem emitTo_th (s : State) (d ord : Nat) (ws : Option (List Word)) : (emitTo s d ord i ws).th = s.th := rfl

/-- What an emission leaves at its die. -/
theorem emitTo_emissions {d : Nat} (hd : d < 24) (s : State) (ord : Nat) (ws : Option (List Word)) :
    ((emitTo s d ord i ws).rast d).emissions = (s.rast d).emissions ++ [⟨ord, i, ws⟩] ∧ .primitiveSetup d ∈ (emitTo s d ord i ws).agenda := by
  refine ⟨?_, List.mem_append_right _ (List.mem_singleton.2 rfl)⟩
  rw [emitTo, later_rast, rast_updRast_same _ hd]

/-- The end of an emitting instruction: its context is framed. -/
theorem finish_emit {codes : List Code} (s' : State) (e : s'.th = s.th) (n : Nat) :
    let t := (finish s' (clearArms s.th [1]) codes [] 2 n).th
    s.th.frame t [] [] codes [] [1] ∧ t.run = .ready ∧ t.pc = s.th.pc + s.th.parcels 2 := by
  obtain ⟨-, -, hrx, hpc, -⟩ := Thread.alike_trans (clearArms_alike s.th [1]) (advances_alike _ (usedIdx s.th codes []))
  simp only [finish, e]
  refine ⟨frame_done (frame_clearArms (by decide) (by decide)) .., rfl, ?_⟩
  show (advances (clearArms s.th [1]) _).pc + _ = _
  rw [Thread.parcels, hpc, hrx]

/-- R400, R402. -/
theorem pixelInstructions : Says.PixelInstructions := by
  intro s d a b na nb nd hw
  refine ⟨fun fr ha hb hd => ⟨fun hp => raise_traps (interp_none hw fr ha hb hd hp), fun x p hp hf => ?_⟩, fun fr ha hb => ⟨?_, ?_⟩⟩
  · have e := interp_some hw fr ha hb hd hp hf
    refine ⟨_, completes_finish e (Thread.alike_trans (clearArms_alike ..) (wr_alike ..)) (frame_wr (by decide) (by decide)) (gets_wr (clearArms_busy ..)),
      fun h => interpAt_beyond h .., fun f hk hs hl hv => ?_⟩
    rcases interpAt_shared hk hs hl hv _ _ with e | e <;> rw [e]
    · exact .inl f32Nan_canon
    · exact .inr (rneRat_rounds (hs 0 (by decide)))
  · exact fun h => raise_traps (pexp_illegal hw fr ha hb h)
  · intro p hp he hd
    obtain ⟨hpx, hf, hrun, hpc⟩ := finish_pexp (a := a) (b := b) (updExport s s.th.die s.th.uid _) (updExport_th s s.th.die s.th.uid _)
      (some { p with exported := true })
    refine ⟨_, pexp_exec hw fr ha hb hp he, fun _ => rfl, hpx, hf, hrun, hpc, ?_, ?_⟩
    · rw [clearArms_die]
      exact List.mem_append_right _ (List.mem_singleton.2 rfl)
    · rw [later_rast, finish_rast, updExport, rast_updRast_same _ hd]
      simp only [beq_iff_eq]

/-- R401, R121. -/
theorem primitiveEmission : Says.PrimitiveEmission := by
  intro s s1 a b na nb dr sl hw hp fr ha hd hs hdie i used ends
  have cull := pemitCull_eq hw hp fr ha
  refine ⟨fun h => ?_, fun h1 h2 h3 => ?_, fun h1 h2 h3 h4 => ⟨?_, fun ws lat hb hm ht hr hl => ?_⟩⟩
  · rw [emitCheck_eq hd hs, if_pos h] at cull
    exact raise_traps cull
  · rw [emitCheck_eq hd hs, if_neg (not_or.2 ⟨by omega, not_or.2 ⟨by omega, h3⟩⟩), if_pos h1] at cull
    exact ⟨_, cull, rfl, rfl, rfl, rfl, fun _ => rfl⟩
  · rw [emitCheck_ok hd hs h1 h2 h3 h4] at cull
    obtain ⟨hf, hr, hpc⟩ := finish_emit (s := s) (codes := [a]) (emitTo s s.th.die dr.ord i none) rfl 4
    obtain ⟨he, hg⟩ := emitTo_emissions (i := i) hdie s dr.ord none
    exact ⟨_, cull, hf, hr, hpc, hg, he⟩
  · have k : s1.sansTex = s.sansTex := sansTex_of_pair hr (readWords_sansTex ..)
    obtain ⟨hf, hrun, hpc⟩ := finish_emit (s := s) (codes := [a, b]) (emitTo (forgetUnit s1 s.th.uid) s.th.die dr.ord i (some ws)) (by simp [th_of_sansTex k])
      (lat + (48 + 12 * dr.nattr + 15) / 16 - 1)
    obtain ⟨he, hg⟩ := emitTo_emissions (i := i) hdie (forgetUnit s1 s.th.uid) dr.ord (some ws)
    exact ⟨_, pemit_eq hw hp fr ha hb hm ht (emitCheck_ok hd hs h1 h2 h3 h4) hr (th_of_sansTex k), hf, hrun, hpc, hg, by rw [finish_rast, he, forgetUnit_rast, rast_of_sansTex k]⟩

/-- Settles O36: pixel instructions, and what pemit and pemit.cull hand to setup. -/
theorem pixels : Obligations.Pixels := ⟨pixelInstructions, primitiveEmission⟩

end Sys2Proof.Machine
end

section
/-! PROOFS. Packets of the sluice stay with a link until their flits stand in its replay buffer (O42, O43). -/

namespace Sys2Proof.Machine
open Sys2Proof

/-! One piece of a payload on its way in a link. -/

/-- A piece is with a link, of a packet of the SLUICE class between two sockets: it waits in the queue, or stands in the replay buffer. -/
def Link.holds (l : Link) (part src dst : Nat) (z : List Byte) : Prop :=
  (∃ x ∈ l.queue, x.head = hdrOf part src dst 0 3 ∧ x.flits.length ≤ 4 ∧ z ∈ x.flits) ∨
    ∃ r ∈ l.replay, hdrChan (sliceNat r.bytes 0 8) = 3 ∧ hdrDst (sliceNat r.bytes 0 8) = dst ∧ (r.bytes.drop 8).take z.length = z

/-- The header of a data flit. -/
theorem dataFlit_header (h : Nat) (z : List Byte) : sliceNat (dataFlit h z none) 0 8 = h % 2 ^ 64 := by
  rw [sliceNat, dataFlit, List.drop_zero, List.take_append_of_le_length (by rw [leBytes_length]), List.take_of_length_le (by rw [leBytes_length]),
    leNat_leBytes]
  rfl

/-- The payload of a data flit. -/
theorem dataFlit_payload {z : List Byte} (hz : z.length ≤ 104) (h : Nat) : ((dataFlit h z none).drop 8).take z.length = z := by
  rw [dataFlit, List.drop_append_of_le_length (by rw [leBytes_length]), List.drop_of_length_le (by rw [leBytes_length]), List.nil_append, List.take_take,
    Nat.min_eq_left hz, List.take_append_of_le_length le_rfl, List.take_length]

/-- Class and destination of the flits of a sluice packet. -/
theorem dataFlit_addressed {part src dst last i e : Nat} (hd : dst < 64) (hl : last ≤ 3) (hi : i ≤ 3) (z : List Byte) :
    let h := sliceNat (dataFlit (hdrOf part src dst 0 3 + last * 2 ^ 21 + i * 2 ^ 19 + e % 4096) z none) 0 8
    hdrChan h = 3 ∧ hdrDst h = dst := by
  simp only [dataFlit_header, hdrChan, hdrDst, hdrOf, bits]
  omega

variable {n part src dst : Nat} {z : List Byte}

/-- A flit that goes out stands in the replay buffer. -/
theorem sendFlit_link (hn : spanOf n = none) (s : State) (h : Nat) (b : List Byte) (fb : Bool) :
    ((sendFlit s n h b fb).link n).queue = (s.link n).queue ∧ ((sendFlit s n h b fb).link n).replay =
      (s.link n).replay ++ [⟨(s.link n).txNext, dataFlit (h + (s.link n).txNext % 4096) b none, false, 1, s.clk, fb⟩] := by
  unfold sendFlit armRepeat
  simp only [hn, Option.bind_none, Option.map_none, Option.isSome_none, Nat.zero_mul, Nat.add_zero]
  rw [show ∀ (s : State) c e, (s.at_ c e).link n = s.link n from fun _ _ _ => rfl, link_of_wiring (emit_wiring ..), link_updLink, if_pos rfl]
  exact ⟨rfl, rfl⟩

/-- So do all flits of a list. -/
theorem sendFlits_link (hn : spanOf n = none) (fb : Bool) (h : Nat → Nat) (l : List (List Byte × Nat)) (s : State) :
    let u := l.foldl (fun s f => sendFlit s n (h f.2) f.1 fb) s
    (u.link n).queue = (s.link n).queue ∧ (s.link n).replay ⊆ (u.link n).replay ∧
      ∀ f ∈ l, ∃ r ∈ (u.link n).replay, ∃ e, r.bytes = dataFlit (h f.2 + e % 4096) f.1 none := by
  induction l generalizing s with
  | nil => exact ⟨rfl, List.Subset.refl _, by simp⟩
  | cons f l ih =>
    obtain ⟨q, r⟩ := sendFlit_link hn s (h f.2) f.1 fb
    obtain ⟨iq, ir, il⟩ := ih (sendFlit s n (h f.2) f.1 fb)
    rw [r] at ir
    refine ⟨iq.trans q, fun x hx => ir (List.mem_append_left _ hx), fun g hg => ?_⟩
    rcases List.mem_cons.1 hg with rfl | hg
    · exact ⟨_, ir (List.mem_append_right _ (List.mem_singleton.2 rfl)), _, rfl⟩
    · exact il g hg

/-- A packet that goes out: the queue stays, and each of its flits stands in the replay buffer. -/
theorem sendPacket_link (hn : spanOf n = none) (s : State) (x : Packet) :
    ((sendPacket s n x).link n).queue = (s.link n).queue ∧ (s.link n).replay ⊆ ((sendPacket s n x).link n).replay ∧
      ∀ f ∈ x.flits.zipIdx, ∃ r ∈ ((sendPacket s n x).link n).replay, ∃ e,
        r.bytes = dataFlit (x.head + (x.flits.length - 1) * 2 ^ 21 + f.2 * 2 ^ 19 + e % 4096) f.1 none := by
  obtain ⟨q, r, l⟩ := sendFlits_link hn x.fallback (fun i => x.head + (x.flits.length - 1) * 2 ^ 21 + i * 2 ^ 19) x.flits.zipIdx s
  unfold sendPacket
  simp only [hn, link_updLink, if_true]
  exact ⟨q, r, l⟩

/-- What a link holds it still holds when a packet has gone out. -/
theorem holds_sendPacket (hn : spanOf n = none) {s : State} (x : Packet) (h : (s.link n).holds part src dst z) :
    ((sendPacket s n x).link n).holds part src dst z := by
  obtain ⟨q, r, -⟩ := sendPacket_link hn s x
  rw [Link.holds, q]
  exact h.imp id (fun ⟨y, hy, e⟩ => ⟨y, r hy, e⟩)

/-- The packet itself is held in the replay buffer. -/
theorem holds_sent (hn : spanOf n = none) (hd : dst < 64) (hz : z.length ≤ 104) (s : State) {x : Packet}
    (hx : x.head = hdrOf part src dst 0 3) (hl : x.flits.length ≤ 4) (h : z ∈ x.flits) : ((sendPacket s n x).link n).holds part src dst z := by
  obtain ⟨i, hi, rfl⟩ := List.getElem_of_mem h
  obtain ⟨r, hr, e, hb⟩ := (sendPacket_link hn s x).2.2 (x.flits[i], i) (List.mem_zipIdx_iff_getElem?.2 (List.getElem?_eq_getElem hi))
  have a := dataFlit_addressed (part := part) (src := src) (e := e) (last := x.flits.length - 1) (i := i) hd (by omega) (by omega) x.flits[i]
  refine .inr ⟨r, hr, ?_⟩
  rw [hb, hx]
  exact ⟨a.1, a.2, dataFlit_payload hz _⟩

/-! Serving a queue. -/

theorem queueHeads_subset (a b : List (Packet × Nat)) : ∀ x ∈ queueHeads a b, x ∈ a ∨ x ∈ b := by
  induction a generalizing b with
  | nil => exact fun x h => .inr h
  | cons y a ih =>
    intro x h
    unfold queueHeads at h
    split at h
    · exact (ih _ x h).imp (List.mem_cons_of_mem _) id
    · rcases ih _ x h with h | h
      · exact .inl (List.mem_cons_of_mem _ h)
      · rcases List.mem_append.1 h with h | h
        · exact .inr h
        · exact .inl (List.mem_singleton.1 h ▸ List.mem_cons_self ..)

theorem serveNext_mem (s : State) (n : Nat) (l : List (Packet × Nat)) : ∀ x, serveNext s n l = some x → x ∈ l := by
  induction l with
  | nil => exact fun x h => by cases h
  | cons y l ih =>
    intro x h
    unfold serveNext at h
    dsimp only at h
    split at h
    · cases h; exact List.mem_cons_self ..
    · next w hw =>
      split at h
      all_goals cases h
      · exact List.mem_cons_of_mem _ (ih _ hw)
      · exact List.mem_cons_self ..

/-- The packet that is served stands in the queue at its index. -/
theorem served_at {s : State} {f : Packet × Nat → Bool} {x : Packet} {i : Nat}
    (h : serveNext s n ((queueHeads ((s.link n).queue.zipIdx) []).filter f) = some (x, i)) : (s.link n).queue[i]? = some x := by
  have m := List.mem_of_mem_filter (serveNext_mem s n _ _ h)
  rcases queueHeads_subset _ _ _ m with m | m
  · exact List.mem_zipIdx_iff_getElem?.1 m
  · cases m

/-- A packet of a queue is the one taken out, or stays. -/
theorem mem_eraseIdx_or {α : Type} {l : List α} {i : Nat} {x y : α} (h : l[i]? = some x) (hy : y ∈ l) : y = x ∨ y ∈ l.eraseIdx i := by
  obtain ⟨j, hj, rfl⟩ := List.getElem_of_mem hy
  by_cases e : j = i
  · subst e
    exact .inl (Option.some.inj ((List.getElem?_eq_getElem hj).symm.trans h))
  · exact .inr (List.mem_eraseIdx_iff_getElem?.2 ⟨j, e, List.getElem?_eq_getElem hj⟩)

variable (hn : spanOf n = none) (hd : dst < 64) (hz : z.length ≤ 104)
include hn hd hz

theorem holds_pumpGo (f : Nat) : ∀ {s : State}, (s.link n).holds part src dst z → ((pumpGo n f s).link n).holds part src dst z := by
  induction f with
  | zero => exact fun h => h
  | succ f ih =>
    intro s h
    unfold pumpGo
    dsimp only
    split
    · exact h
    · next x i e =>
      refine ih ?_
      have q : ((s.updLink n (fun l => { l with queue := l.queue.eraseIdx i })).link n) = { s.link n with queue := (s.link n).queue.eraseIdx i } := by
        rw [link_updLink, if_pos rfl]
      rcases h with ⟨y, hy, hh, hl, hm⟩ | h
      · rcases mem_eraseIdx_or (served_at e) hy with rfl | hy
        · exact holds_sent hn hd hz _ hh hl hm
        · exact holds_sendPacket hn _ (q ▸ .inl ⟨y, hy, hh, hl, hm⟩)
      · exact holds_sendPacket hn _ (q ▸ .inr h)

theorem holds_pumpLink {s : State} (h : (s.link n).holds part src dst z) : ((pumpLink s n).link n).holds part src dst z := by
  have g := holds_pumpGo hn hd hz ((s.link n).queue.length + 1) h
  unfold pumpLink
  dsimp only
  split
  · exact g
  · rw [link_of_wiring (atOnce_wiring ..), link_of_wiring (ite_keeps (foldl_keeps (fun s x => dieEvent_wiring ..) _ _) rfl)]
    exact g

theorem holds_sendOn {s : State} (x : Packet) (h : (s.link n).holds part src dst z) : ((sendOn s n x).link n).holds part src dst z := by
  refine holds_pumpLink hn hd hz ?_
  rw [link_updLink, if_pos rfl]
  exact h.imp (fun ⟨y, hy, e⟩ => ⟨y, List.mem_append_left _ hy, e⟩) id

/-- A packet handed to a link is held by it. -/
theorem sendOn_holds (s : State) {x : Packet} (hx : x.head = hdrOf part src dst 0 3) (hl : x.flits.length ≤ 4) (h : z ∈ x.flits) :
    ((sendOn s n x).link n).holds part src dst z := by
  refine holds_pumpLink hn hd hz ?_
  rw [link_updLink, if_pos rfl]
  exact .inl ⟨x, List.mem_append_right _ (List.mem_singleton.2 rfl), hx, hl, h⟩

theorem holds_sendBytes {s : State} (a head : Nat) (r : Bool) (l : List Byte) (h : (s.link n).holds part src dst z) :
    ((sendBytes s n a head r l).link n).holds part src dst z := by
  unfold sendBytes
  exact List.foldlRecOn (motive := fun u : State => (u.link n).holds part src dst z) _ _ h (fun u hu p _ => holds_sendOn hn hd hz _ hu)

omit hn hd hz

/-! The pieces of a payload. -/

theorem piecesOf_length (k f : Nat) : ∀ l : List Byte, (piecesOf k f l).length ≤ f := by
  induction f with
  | zero => exact fun _ => le_rfl
  | succ f ih =>
    intro l
    unfold piecesOf
    split
    · exact Nat.succ_le_succ (Nat.zero_le _)
    · exact Nat.succ_le_succ (ih _)

theorem piecesOf_piece (k f : Nat) : ∀ l : List Byte, ∀ z ∈ piecesOf k f l, z.length ≤ k := by
  induction f with
  | zero => exact fun l z h => nomatch h
  | succ f ih =>
    intro l z h
    unfold piecesOf at h
    split at h
    · next hl => exact List.mem_singleton.1 h ▸ hl
    · rcases List.mem_cons.1 h with rfl | h
      · exact List.length_take_le ..
      · exact ih _ z h

/-- What f pieces can take is all that they depend on. -/
theorem piecesOf_take {k : Nat} (hk : 0 < k) (f : Nat) : ∀ l : List Byte, piecesOf k f (l.take (k * f)) = piecesOf k f l := by
  induction f with
  | zero => exact fun _ => rfl
  | succ f ih =>
    intro l
    have e : k * (f + 1) = k + k * f := by rw [Nat.mul_succ, Nat.add_comm]
    unfold piecesOf
    by_cases h : l.length ≤ k
    · rw [List.take_of_length_le (by omega)]
    · rw [if_neg h]
      cases f with
      | zero => rw [e, Nat.mul_zero, Nat.add_zero, if_pos (List.length_take_le ..)]; rfl
      | succ f =>
        have hf : k ≤ k * (f + 1) := Nat.le_mul_of_pos_right _ (Nat.succ_pos _)
        have hp : 0 < k * (f + 1) := Nat.mul_pos hk (Nat.succ_pos _)
        rw [if_neg (by rw [List.length_take]; omega), e, List.take_take, Nat.min_eq_left (by omega), List.drop_take, Nat.add_sub_cancel_left, ih]

/-- The first of many pieces. -/
theorem piecesOf_head (k f : Nat) (l : List Byte) : ∃ r, piecesOf k (f + 1) l = l.take k :: r := by
  unfold piecesOf
  split
  · next h => exact ⟨[], by rw [List.take_of_length_le h]⟩
  · exact ⟨_, rfl⟩

/-! A message of a die. -/

/-- The link of a die's socket is no span port's. -/
theorem spanOf_die {d : Nat} (h : d < 24) : spanOf d = none := if_neg (by omega)

/-- A payload is with the link of a die. -/
def State.carries (s : State) (src dst : Nat) (l : List Byte) : Prop :=
  ∃ part, ∀ z ∈ piecesOf 104 4 l, (s.link src).holds part src dst z

theorem sends_of_carries {s : State} {l : List Byte} (hd : dst < 24) (h : s.carries src dst l) : Says.sends s src dst l := by
  obtain ⟨part, h⟩ := h
  refine fun z hz => (h z hz).imp ?_ id
  rintro ⟨x, hx, e, -, m⟩
  refine ⟨x, hx, ?_, ?_, m⟩
  all_goals
    simp only [e, hdrChan, hdrDst, hdrOf, bits]
    omega

/-- The pieces of a payload handed to a link are held by it. -/
theorem sendBytes_holds (hn : spanOf n = none) (hd : dst < 64) (s : State) (a : Nat) (rp : Bool) {l : List Byte} (hz : z ∈ piecesOf 104 4 l) :
    ((sendBytes s n a (hdrOf part src dst 0 3) rp l).link n).holds part src dst z := by
  have hl := piecesOf_piece 104 4 l z hz
  have m : z ∈ piecesOf 104 4 (l.take (4 * 104)) := by rwa [Nat.mul_comm, piecesOf_take (by decide)]
  unfold sendBytes
  simp only [hn, Option.isSome_none, Bool.false_eq_true, if_false]
  obtain ⟨r, e⟩ := piecesOf_head (4 * 104) l.length l
  rw [e, List.foldl_cons]
  refine List.foldlRecOn (motive := fun u : State => (u.link n).holds part src dst z) _ _ (sendOn_holds hn hd hl _ rfl (piecesOf_length ..) m)
    (fun u hu p _ => holds_sendOn hn hd hl _ hu)

/-- A message that has been sent is with the die's link. -/
theorem sendSluice_carries (hs : src < 24) (hd : dst < 24) (s : State) (l : List Byte) : (sendSluice s src dst l).carries src dst l :=
  ⟨_, fun _ hz => sendBytes_holds (spanOf_die hs) (by omega) _ _ _ hz⟩

theorem carries_of_wiring {s u : State} {l : List Byte} (e : u.wiring = s.wiring) (h : s.carries src dst l) : u.carries src dst l :=
  h.imp (fun _ h z hz => link_of_wiring e src ▸ h z hz)

/-- It stays there while further messages leave. -/
theorem carries_sendSluice {s : State} {l : List Byte} (hs : src < 24) (hd : dst < 24) (d : Nat) (l' : List Byte) (h : s.carries src dst l) :
    (sendSluice s src d l').carries src dst l := by
  obtain ⟨part, h⟩ := h
  refine ⟨part, fun z hz => holds_sendBytes (spanOf_die hs) (by omega) (piecesOf_piece 104 4 l z hz) _ _ _ _ ?_⟩
  rw [link_of_wiring (dieEvent_wiring ..)]
  exact h z hz

/-! What a message leaves alone. -/

@[simp] theorem sendSluice_sansLinks (s : State) (a d : Nat) (l : List Byte) : (sendSluice s a d l).sansLinks = s.sansLinks :=
  (sendBytes_sansLinks ..).trans (dieEvent_sansLinks ..)

theorem rast_of_sansLinks {s u : State} (h : u.sansLinks = s.sansLinks) (d : Nat) : u.rast d = s.rast d :=
  (congrArg (fun x : State × (Nat → Bool) × (Nat → Nat) => x.1.rast d) h :)

end Sys2Proof.Machine
end

section
/-! PROOFS. Messages of the sluice read back, and what a rasteriser holds of its sources (O42). -/

namespace Sys2Proof.Machine
open Sys2Proof

/-! Fields of bytes as digits of their number. -/

theorem leNat_append (a b : List Byte) : leNat (a ++ b) = leNat a + 256 ^ a.length * leNat b := by
  induction a with
  | nil => simp [leNat]
  | cons x a ih => rw [List.cons_append, leNat, leNat, ih, List.length_cons, Nat.mul_add, pow_succ', Nat.mul_assoc, Nat.add_assoc]

theorem leNat_div (l : List Byte) (i : Nat) : leNat l / 256 ^ i = leNat (l.drop i) := by
  induction i generalizing l with
  | zero => simp
  | succ i ih =>
    cases l with
    | nil => simp [leNat]
    | cons b l =>
      rw [leNat, pow_succ', ← Nat.div_div_eq_div_mul, List.drop_succ_cons, ← ih]
      congr 1
      have := b.isLt
      omega

theorem leNat_mod (l : List Byte) (n : Nat) : leNat l % 256 ^ n = leNat (l.take n) := by
  have h := leNat_append (l.take n) (l.drop n)
  rw [List.take_append_drop] at h
  by_cases hn : n ≤ l.length
  · have k := leNat_lt (l.take n)
    rw [List.length_take, Nat.min_eq_left hn] at h k
    rw [h, Nat.add_mul_mod_self_left, Nat.mod_eq_of_lt k]
  · rw [List.take_of_length_le (by omega), Nat.mod_eq_of_lt]
    exact (leNat_lt l).trans_le (Nat.pow_le_pow_right (by decide) (by omega))

/-- A field is a digit of the number. -/
theorem sliceNat_eq (l : List Byte) (i n : Nat) : sliceNat l i n = leNat l / 256 ^ i % 256 ^ n := by
  rw [leNat_div, leNat_mod, sliceNat]

theorem sliceNat_left {a : List Byte} {i n : Nat} (h : i + n ≤ a.length) (b : List Byte) : sliceNat (a ++ b) i n = sliceNat a i n := by
  rw [sliceNat, sliceNat, List.drop_append_of_le_length (by omega), List.take_append_of_le_length (by rw [List.length_drop]; omega)]

theorem sliceNat_right (a b : List Byte) (i n : Nat) : sliceNat (a ++ b) (a.length + i) n = sliceNat b i n := by
  rw [sliceNat, sliceNat, List.drop_append, List.drop_of_length_le (by omega)]
  simp

/-- The words of a run of 4-byte fields. -/
theorem sliceNat_words (l : List Nat) {k w : Nat} (h : l[k]? = some w) : sliceNat (l.flatMap (leBytes 4)) (4 * k) 4 = w % 2 ^ 32 := by
  induction l generalizing k with
  | nil => cases h
  | cons x l ih =>
    rw [List.flatMap_cons]
    cases k with
    | zero =>
      cases h
      rw [sliceNat_left (by rw [leBytes_length]), sliceNat_eq, leNat_leBytes]
      simp
    | succ k =>
      have e := sliceNat_right (leBytes 4 x) (l.flatMap (leBytes 4)) (4 * k) 4
      rw [leBytes_length] at e
      rw [Nat.mul_succ, Nat.add_comm, e]
      exact ih h

/-! Short messages (R124, R125, R127). -/

variable {w0 w1 q c t f : Nat}

/-- A short message as a number. -/
theorem sluicePayload_nat (h0 : w0 < 2 ^ 32) (h1 : w1 < 2 ^ 32) (hq : q < 2 ^ 16) (hc : c < 2 ^ 8) (ht : t < 2 ^ 8) (hf : f < 2 ^ 8) :
    leNat (sluicePayload w0 w1 q c t f) = w0 + 2 ^ 32 * w1 + 2 ^ 64 * q + 2 ^ 80 * c + 2 ^ 88 * t + 2 ^ 96 * f := by
  simp only [sluicePayload, leNat_append, leNat_leBytes, leBytes_length, List.length_append]
  simp only [leNat]
  simp
  omega

theorem sluicePayload_length (w0 w1 q c t f : Nat) : (sluicePayload w0 w1 q c t f).length = 16 := by
  simp [sluicePayload, leBytes_length]

/-! Primitive messages (R123). -/

/-- A coordinate in 32 bits and back. -/
theorem coord_roundtrip {x : Int} (l : -(2 ^ 31) ≤ x) (h : x < 2 ^ 31) : (BitVec.ofNat 32 (x % 2 ^ 32).toNat).toInt = x := by
  rw [BitVec.toInt_ofNat']
  simp only [Int.bmod]
  omega

theorem ofNat_toNat_mod (w : Word) : BitVec.ofNat 32 (w.toNat % 2 ^ 32) = w := by
  rw [Nat.mod_eq_of_lt w.isLt, BitVec.ofNat_toNat, BitVec.setWidth_eq]

/-- The words of a primitive message beyond its head. -/
def Prim.words (p : Prim) : List Nat :=
  p.verts.flatMap (fun v => [(v.1 % 2 ^ 32).toNat, (v.2.1 % 2 ^ 32).toNat, v.2.2.1.toNat, v.2.2.2.toNat]) ++ p.attrs.map BitVec.toNat

/-- The head of a primitive message. -/
def Prim.head (p : Prim) : List Byte :=
  leBytes 4 p.ord ++ leBytes 4 p.idx ++ leBytes 2 p.sseq ++ leBytes 1 p.src ++ [1] ++ leBytes 1 p.nattr ++ [if p.front then 1 else 0, 0, 0]

theorem primPayload_eq (p : Prim) : primPayload p = p.head ++ p.words.flatMap (leBytes 4) := by
  simp [primPayload, Prim.head, Prim.words, List.flatMap_append, List.flatMap_assoc, List.flatMap_map]

theorem head_length (p : Prim) : p.head.length = 16 := by
  unfold Prim.head
  simp [leBytes_length]

/-- The head as a number. -/
theorem head_nat {p : Prim} (h : Says.primFits p) : leNat p.head = p.ord + 2 ^ 32 * p.idx + 2 ^ 64 * p.sseq + 2 ^ 80 * p.src + 2 ^ 88 + 2 ^ 96 * p.nattr +
    2 ^ 104 * (if p.front then 1 else 0) := by
  obtain ⟨ho, hi, hq, hs, hn, -⟩ := h
  simp only [Prim.head, leNat_append, leNat_leBytes, leBytes_length, List.length_append]
  cases p.front
  all_goals
    simp only [leNat]
    simp
    omega

/-- A field of the head. -/
theorem primPayload_head (p : Prim) {i n : Nat} (h : i + n ≤ 16) : sliceNat (primPayload p) i n = leNat p.head / 256 ^ i % 256 ^ n := by
  rw [primPayload_eq, sliceNat_left (by rwa [head_length]), sliceNat_eq]

/-- A word beyond the head. -/
theorem primPayload_word {p : Prim} {k w : Nat} (h : p.words[k]? = some w) : sliceNat (primPayload p) (16 + 4 * k) 4 = w % 2 ^ 32 := by
  have e := sliceNat_right p.head (p.words.flatMap (leBytes 4)) (4 * k) 4
  rw [head_length] at e
  rw [primPayload_eq, e, sliceNat_words _ h]

/-- The words of a vertex. -/
theorem words_vertex {p : Prim} {x : Int × Int × Word × Word} {v : Nat} (h : p.verts[v]? = some x) :
    p.words[4 * v]? = some (x.1 % 2 ^ 32).toNat ∧ p.words[4 * v + 1]? = some (x.2.1 % 2 ^ 32).toNat ∧
      p.words[4 * v + 2]? = some x.2.2.1.toNat ∧ p.words[4 * v + 3]? = some x.2.2.2.toNat := by
  unfold Prim.words
  generalize p.attrs.map BitVec.toNat = r
  generalize p.verts = l at h
  induction l generalizing v with
  | nil => cases h
  | cons y l ih =>
    cases v with
    | zero => cases h; exact ⟨rfl, rfl, rfl, rfl⟩
    | succ v => exact ih h

/-- The words of attributes. -/
theorem words_attr {p : Prim} {w : Word} {k : Nat} (hv : p.verts.length = 3) (h : p.attrs[k]? = some w) : p.words[12 + k]? = some w.toNat := by
  obtain ⟨a, b, c, e⟩ := List.length_eq_three.1 hv
  rw [Nat.add_comm]
  simp [Prim.words, e, h]

theorem primPayload_length {p : Prim} (h : Says.primFits p) : (primPayload p).length = 64 + 12 * p.nattr := by
  obtain ⟨-, -, -, -, -, hv, ha, -⟩ := h
  obtain ⟨a, b, c, e⟩ := List.length_eq_three.1 hv
  simp [primPayload, leBytes_length, e, ha, List.length_flatMap]
  omega

/-- A vertex of a message. -/
theorem primPayload_vertex {p : Prim} {x : Int × Int × Word × Word} {v : Nat} (h : Says.primFits p) (hx : p.verts[v]? = some x) :
    let i32 (i : Nat) : Int := (BitVec.ofNat 32 (sliceNat (primPayload p) i 4)).toInt
    (i32 (16 + 16 * v), i32 (20 + 16 * v), BitVec.ofNat 32 (sliceNat (primPayload p) (24 + 16 * v) 4),
      BitVec.ofNat 32 (sliceNat (primPayload p) (28 + 16 * v) 4)) = x := by
  obtain ⟨-, -, -, -, -, -, -, hc⟩ := h
  obtain ⟨l1, h1, l2, h2⟩ := hc x (List.mem_of_getElem? hx)
  obtain ⟨w0, w1, w2, w3⟩ := words_vertex hx
  have e0 := primPayload_word w0
  have e1 := primPayload_word w1
  have e2 := primPayload_word w2
  have e3 := primPayload_word w3
  rw [show 16 + 4 * (4 * v) = 16 + 16 * v by omega] at e0
  rw [show 16 + 4 * (4 * v + 1) = 20 + 16 * v by omega] at e1
  rw [show 16 + 4 * (4 * v + 2) = 24 + 16 * v by omega] at e2
  rw [show 16 + 4 * (4 * v + 3) = 28 + 16 * v by omega] at e3
  simp only [e0, e1, e2, e3]
  refine Prod.ext ?_ (Prod.ext ?_ (Prod.ext ?_ ?_))
  · show (BitVec.ofNat 32 ((x.1 % 2 ^ 32).toNat % 2 ^ 32)).toInt = _
    rw [Nat.mod_eq_of_lt (by omega), coord_roundtrip l1 h1]
  · show (BitVec.ofNat 32 ((x.2.1 % 2 ^ 32).toNat % 2 ^ 32)).toInt = _
    rw [Nat.mod_eq_of_lt (by omega), coord_roundtrip l2 h2]
  · exact ofNat_toNat_mod _
  · exact ofNat_toNat_mod _

/-- One of a message's attributes. -/
theorem primPayload_attr {p : Prim} {w : Word} {k : Nat} (hv : p.verts.length = 3) (h : p.attrs[k]? = some w) :
    BitVec.ofNat 32 (sliceNat (primPayload p) (64 + 4 * k) 4) = w := by
  have e := primPayload_word (words_attr hv h)
  rw [show 16 + 4 * (12 + k) = 64 + 4 * k by omega] at e
  rw [e, ofNat_toNat_mod]

/-- A list is what its elements say. -/
theorem map_range_eq {α : Type} {l : List α} {n : Nat} (hl : l.length = n) {g : Nat → α} (h : ∀ k x, l[k]? = some x → g k = x) :
    (List.range n).map g = l := by
  subst hl
  refine List.ext_getElem (by simp) (fun k h1 h2 => ?_)
  rw [List.getElem_map, List.getElem_range]
  exact h k _ (List.getElem?_eq_getElem h2)

/-- A message that keeps the layout is read back. -/
theorem primOf_primPayload {p : Prim} (h : Says.primFits p) : primOf (primPayload p) = some p := by
  have hh := head_nat h
  have hl := primPayload_length h
  obtain ⟨ho, hi, hq, hs, hn, hv, ha, -⟩ := id h
  have f {i n : Nat} (k : i + n ≤ 16) := primPayload_head p k
  unfold primOf
  have hverts := map_range_eq hv (fun v x hx => primPayload_vertex h hx)
  have hattrs := map_range_eq ha (fun k w hw => primPayload_attr hv hw)
  have e0 : sliceNat (primPayload p) 0 4 = p.ord := by rw [f (by decide), hh]; split <;> omega
  have e4 : sliceNat (primPayload p) 4 4 = p.idx := by rw [f (by decide), hh]; split <;> omega
  have e8 : sliceNat (primPayload p) 8 2 = p.sseq := by rw [f (by decide), hh]; split <;> omega
  have e10 : sliceNat (primPayload p) 10 1 = p.src := by rw [f (by decide), hh]; split <;> omega
  have e11 : sliceNat (primPayload p) 11 1 = 1 := by rw [f (by decide), hh]; split <;> omega
  have e12 : sliceNat (primPayload p) 12 1 = p.nattr := by rw [f (by decide), hh]; split <;> omega
  have e13 : sliceNat (primPayload p) 13 1 = if p.front then 1 else 0 := by rw [f (by decide), hh]; split <;> omega
  have e14 : sliceNat (primPayload p) 14 2 = 0 := by rw [f (by decide), hh]; split <;> omega
  have hf : ((if p.front = true then 1 else 0) == 1) = p.front := by cases p.front <;> rfl
  simp only [e0, e4, e8, e10, e11, e12, e13, e14, hl, hverts, hattrs, hf]
  rw [if_neg]
  split <;> omega

/-! What a rasteriser holds of a source and of a destination. -/

variable {r : Raster} {d : Nat}

theorem source_die (r : Raster) (d : Nat) : (r.source d).die = d := by
  unfold Raster.source
  cases e : r.sources.find? (fun x => x.die == d) with
  | none => rfl
  | some x => simpa using List.find?_some e

theorem dest_die (r : Raster) (d : Nat) : (r.dest d).die = d := by
  unfold Raster.dest
  cases e : r.dests.find? (fun x => x.die == d) with
  | none => rfl
  | some x => simpa using List.find?_some e

theorem source_updSource_same {g : Source → Source} (h : (g (r.source d)).die = d) : (r.updSource d g).source d = g (r.source d) := by
  rw [Raster.source, Raster.updSource]
  rw [List.find?_append, List.find?_eq_none.2 (by simp)]
  simp [h]

theorem dest_updDest_same {g : Dest → Dest} (h : (g (r.dest d)).die = d) : (r.updDest d g).dest d = g (r.dest d) := by
  rw [Raster.dest, Raster.updDest]
  rw [List.find?_append, List.find?_eq_none.2 (by simp)]
  simp [h]

/-- Every primitive up to a watermark's has come (R124). -/
def ripe (next : Nat) (m : Nat × Nat × Nat) : Bool := decide ((next + 2 ^ 17 - 1 - m.2.2) % 2 ^ 16 < 2 ^ 15)

/-- A watermark applied: a lower bound than the one held is ignored. -/
def Source.raise (x : Source) (m : Nat × Nat × Nat) : Source := if tagLt x.bound (m.1, m.2.1) then { x with bound := (m.1, m.2.1) } else x

/-- A step of the pump, in these words. -/
theorem pump_succ (n : Nat) (x : Source) : Source.pump (n + 1) x = match x.early.find? (fun p => p.sseq == x.nextSeq) with
    | some p => Source.pump n ({ x with early := x.early.filter (fun q => q != p) }.take p)
    | none => (x.marks.filter (ripe x.nextSeq)).foldl Source.raise { x with marks := x.marks.filter (fun m => !ripe x.nextSeq m) } := rfl

theorem raise_die (x : Source) (m : Nat × Nat × Nat) : (x.raise m).die = x.die := by
  unfold Source.raise
  split <;> rfl

theorem pump_die (n : Nat) (x : Source) : (Source.pump n x).die = x.die := by
  induction n generalizing x with
  | zero => rfl
  | succ n ih =>
    rw [pump_succ]
    split
    · exact ih _
    · exact List.foldlRecOn (motive := fun y : Source => y.die = x.die) _ _ rfl (fun y hy m _ => (raise_die y m).trans hy)

theorem settle_die (x : Source) : x.settle.die = x.die := pump_die ..

/-- A primitive whose number is next is taken. -/
theorem settle_next {x : Source} {m : Prim} (he : x.early = []) (hm : x.marks = []) (h : m.sseq = x.nextSeq) :
    Source.settle { x with early := x.early ++ [m] } = { x with early := [] }.take m := by
  simp [Source.settle, Source.pump, he, hm, h, Source.take]

/-- One ahead of a missing number waits. -/
theorem settle_early {x : Source} {m : Prim} (he : x.early = []) (hm : x.marks = []) (h : m.sseq ≠ x.nextSeq) :
    Source.settle { x with early := x.early ++ [m] } = { x with early := [m] } := by
  simp [Source.settle, Source.pump, he, hm, h]

/-- Watermarks where no primitive waits. -/
theorem settle_marks {x : Source} (he : x.early = []) :
    x.settle = (x.marks.filter (ripe x.nextSeq)).foldl Source.raise { x with marks := x.marks.filter (fun m => !ripe x.nextSeq m) } := by
  have h : x.early.find? (fun p => p.sseq == x.nextSeq) = none := by rw [he, List.find?_nil]
  rw [Source.settle, pump_succ, h]

/-- One watermark, by whether it is ripe; raise itself is no matter. -/
theorem foldl_one {x : Source} (hm : x.marks = []) (m : Nat × Nat × Nat) (f : Nat × Nat × Nat → Bool) (g : Source → Nat × Nat × Nat → Source) :
    ((x.marks ++ [m]).filter f).foldl g { x with marks := (x.marks ++ [m]).filter (fun m => !f m) } = if f m then g x m else { x with marks := [m] } := by
  cases x
  subst hm
  cases h : f m <;> simp [h]

/-- A watermark where none waits. -/
theorem settle_mark {x : Source} (he : x.early = []) (hm : x.marks = []) (m : Nat × Nat × Nat) :
    Source.settle { x with marks := x.marks ++ [m] } = if ripe x.nextSeq m then x.raise m else { x with marks := [m] } :=
  (settle_marks (x := { x with marks := x.marks ++ [m] }) he).trans (foldl_one hm m _ _)

/-- What a message leaves of its source at a die. -/
theorem source_later {s : State} {die : Nat} (hd : die < 24) (src : Nat) {g : Source → Source} (hg : ∀ x, (g x).die = x.die) (e : Event) :
    ((((s.updRast die (fun r => r.updSource src g)).later e).rast die).source src) = g ((s.rast die).source src) := by
  rw [later_rast, rast_updRast_same _ hd, source_updSource_same ((hg _).trans (source_die ..))]

/-! The messages of O42. -/

section
variable {s : State} {die src : Nat} (hd : die < 24) (hr : (s.die die).inReset = false)
include hr

theorem primitiveMessage_exec {l : List Byte} {m : Prim} (h : primOf l = some m) : exec (.primitiveMessage src die l) s =
    .next ((s.updRast die (fun r => r.updSource src (fun x => { x with early := x.early ++ [m] }.settle))).later (.mergeRelease die)) := by
  show Host.Outcome.next _ = _
  simp only [h, hr]
  rfl

theorem watermark_exec {l : List Byte} (h : shortOk l 2 = true) : exec (.watermark src die l) s =
    .next ((s.updRast die (fun r => r.updSource src (fun x => { x with marks := x.marks ++
      [if sliceNat l 12 1 = 1 then (ordNext (sliceNat l 0 4), 0, sliceNat l 8 2) else (sliceNat l 0 4, sliceNat l 4 4, sliceNat l 8 2)] }.settle))).later
      (.mergeRelease die)) := by
  show Host.Outcome.next _ = _
  simp only [h, hr]
  rfl

theorem credit_exec {l : List Byte} (h : shortOk l 3 = true) : exec (.credit src die l) s =
    .next ((s.updRast die (fun r => r.updDest src (fun d =>
      if 0 < (sliceNat l 0 2 + 2 ^ 16 - d.credits) % 2 ^ 16 ∧ (sliceNat l 0 2 + 2 ^ 16 - d.credits) % 2 ^ 16 < 2 ^ 15
        then { d with credits := sliceNat l 0 2 } else d))).later (.primitiveSetup die)) := by
  show Host.Outcome.next _ = _
  simp only [h, hr]
  rfl

theorem close_exec {l : List Byte} (hn : src ≠ die) (h : shortOk l 4 = true) : exec (.close src die l) s =
    .next ((s.updRast die (fun r => { r with closes := r.closes ++ [(sliceNat l 0 4, sliceNat l 4 1)] })).later (.mergeRelease die)) := by
  show Host.Outcome.next _ = _
  simp only [h, hr, hn, false_and]
  rfl

end

/-- A message that breaks the layout is counted and nothing else. -/
theorem primitiveMessage_bad {s : State} {src die : Nat} {l : List Byte} (h : primOf l = none) :
    exec (.primitiveMessage src die l) s = .next (badSluice s die) := by
  show Host.Outcome.next _ = _
  simp only [h]

/-- A short message keeps its layout. -/
theorem shortOk_payload (h0 : w0 < 2 ^ 32) (h1 : w1 < 2 ^ 32) (hq : q < 2 ^ 16) (hc : c < 32) (ht : t < 2 ^ 8) (hf : f < 2)
    (h : t = 2 ∨ (t = 3 ∧ w0 < 2 ^ 16 ∧ w1 = 0 ∧ q = 0 ∧ f = 0) ∨ (t = 4 ∧ w1 < 256 ∧ q = 0 ∧ f = 0)) : shortOk (sluicePayload w0 w1 q c t f) t = true := by
  have e := sluicePayload_nat h0 h1 hq (by omega) ht (by omega) (c := c) (f := f)
  rcases h with rfl | ⟨rfl, h⟩ | ⟨rfl, h⟩
  all_goals
    simp only [shortOk, sluicePayload_length, sliceNat_eq, e, Bool.and_eq_true, beq_iff_eq, decide_eq_true_eq, true_and]
    and_intros
    all_goals omega

/-- The fields of a short message. -/
theorem sluicePayload_fields (h0 : w0 < 2 ^ 32) (h1 : w1 < 2 ^ 32) (hq : q < 2 ^ 16) (hc : c < 32) (ht : t < 2 ^ 8) (hf : f < 2) :
    let l := sluicePayload w0 w1 q c t f
    sliceNat l 0 4 = w0 ∧ sliceNat l 0 2 = w0 % 2 ^ 16 ∧ sliceNat l 4 4 = w1 ∧ sliceNat l 4 1 = w1 % 256 ∧ sliceNat l 8 2 = q ∧ sliceNat l 12 1 = f := by
  have e := sluicePayload_nat h0 h1 hq (by omega) ht (by omega) (c := c) (f := f)
  simp only [sliceNat_eq, e]
  omega

end Sys2Proof.Machine
end

section
/-! PROOFS. Watermarks, raster control and setup of a die. -/

namespace Sys2Proof.Machine
open Sys2Proof

/-! Raster control (R115). -/

/-- A run of bytes written to an ownership table. -/
theorem setRun_get (g : Nat → Byte) (a n : Nat) (o : Vector Byte 256) (k : Nat) (hk : k < 256) :
    ((List.range n).foldl (fun o i => o.setIfInBounds (a + i) (g i)) o)[k]? = if a ≤ k ∧ k < a + n then some (g (k - a)) else o[k]? := by
  induction n with
  | zero => rw [if_neg (by omega)]; rfl
  | succ n ih =>
    rw [List.range_succ, List.foldl_append, List.foldl_cons, List.foldl_nil, Vector.getElem?_setIfInBounds, ih]
    by_cases h : a + n = k
    · subst h
      rw [if_pos rfl, if_pos hk, if_pos (by omega), Nat.add_sub_cancel_left]
    · rw [if_neg h]
      by_cases h' : a ≤ k ∧ k < a + n
      · rw [if_pos h', if_pos (by omega)]
      · rw [if_neg h', if_neg (by omega)]

variable {off j : Nat} {v : DWord}

/-- A row of the ownership table. -/
theorem applyRaster_owner (v : DWord) (r : Raster) {k : Nat} (hk : k < 256) :
    (applyRaster (0x4100 + 8 * j) v r).owner[k]? = if k / 8 = j then some (v.extractLsb' (8 * (k % 8)) 8) else r.owner[k]? := by
  rw [applyRaster, if_neg (by omega)]
  refine (setRun_get (fun i => v.extractLsb' (8 * i) 8) _ 8 r.owner k hk).trans ?_
  by_cases h : k / 8 = j
  · rw [if_pos h, if_pos (by omega), show k - (0x4100 + 8 * j - 0x4100) = k % 8 by omega]
  · rw [if_neg h, if_neg (by omega)]

/-- A write that comes twice is as one that comes once. -/
theorem applyRaster_twice (h : off = 0x4000 ∨ ∃ j, off = 0x4100 + 8 * j) (v : DWord) (r : Raster) :
    applyRaster off v (applyRaster off v r) = applyRaster off v r := by
  rcases h with rfl | ⟨j, rfl⟩
  · rfl
  · have e : (applyRaster (0x4100 + 8 * j) v (applyRaster (0x4100 + 8 * j) v r)).owner = (applyRaster (0x4100 + 8 * j) v r).owner := by
      refine Vector.ext (fun k hk => ?_)
      have e : (applyRaster (0x4100 + 8 * j) v (applyRaster (0x4100 + 8 * j) v r)).owner[k]? = (applyRaster (0x4100 + 8 * j) v r).owner[k]? := by
        rw [applyRaster_owner _ _ hk, applyRaster_owner _ _ hk]
        split <;> rfl
      rw [Vector.getElem?_eq_getElem hk, Vector.getElem?_eq_getElem hk] at e
      exact Option.some.inj e
    rw [applyRaster, if_neg (by omega)] at e ⊢
    rw [applyRaster, if_neg (by omega)] at e ⊢
    exact congrArg (fun o => { r with owner := o }) e

/-- A write at every die of a list. -/
theorem foldl_applyRaster (h : off = 0x4000 ∨ ∃ j, off = 0x4100 + 8 * j) (v : DWord) (l : List Nat) (s : State) {e : Nat} (he : e < 24) (hl : e ∈ l) :
    (l.foldl (fun s d => s.updRast d (applyRaster off v)) s).rast e = applyRaster off v (s.rast e) := by
  have k := foldl_die (g := fun s d => State.updRast s d (applyRaster off v)) (f := fun d => { d with rast := applyRaster off v d.rast })
    (c := fun _ => true) (e := e) (fun x => by simp [applyRaster_twice h]) (fun s d => by simp [State.updRast, die_updDie s d _ he]) l s
  rw [if_pos ⟨hl, rfl⟩] at k
  exact congrArg Die.rast k

/-- A write of the raster control block that waits at a partition. -/
def Part.queueRaster (off : Nat) (v : DWord) (q : Part) : Part := { q with rastWait := q.rastWait ++ [(off, v)] }

/-- What a write of the raster control block leaves when no draw runs. -/
def State.rasterWritten (s : State) (p off : Nat) (v : DWord) (l : List Nat) : State :=
  (l.foldl (fun s d => s.updRast d (applyRaster off v)) (s.updPart p (Part.queueRaster off v))).updPart p (fun q => { q with rastWait := [] })

section
variable {s : State} {p : Nat} {q : Part} (hq : s.part? p = some q)
include hq

theorem part?_queueRaster : (s.updPart p (Part.queueRaster off v)).part? p = some (q.queueRaster off v) := part?_updPart_some (fun _ => rfl) hq

theorem rasterControlWrite_idle (hd : drawRunning q = false) (hw : q.rastWait = []) :
    exec (.rasterControlWrite p off v) s = .next (s.rasterWritten p off v q.dies) := by
  have hd' : drawRunning (q.queueRaster off v) = false := hd
  have hw' : (q.queueRaster off v).rastWait = [(off, v)] := by rw [Part.queueRaster, hw]; rfl
  show Host.Outcome.next (rasterPump (s.updPart p (Part.queueRaster off v)) p) = _
  rw [rasterPump, part?_queueRaster hq]
  simp only [hd', hw', Bool.false_eq_true, if_false, List.foldl_cons, List.foldl_nil]
  rfl

theorem rasterControlWrite_waits (hd : drawRunning q = true) :
    exec (.rasterControlWrite p off v) s = .next (s.updPart p (Part.queueRaster off v)) := by
  have hd' : drawRunning (q.queueRaster off v) = true := hd
  show Host.Outcome.next (rasterPump (s.updPart p (Part.queueRaster off v)) p) = _
  rw [rasterPump, part?_queueRaster hq]
  simp only [hd', if_true]

end

theorem rasterWritten_rast (h : off = 0x4000 ∨ ∃ j, off = 0x4100 + 8 * j) (s : State) (p : Nat) {l : List Nat} {e : Nat} (he : e < 24) (hl : e ∈ l) :
    (s.rasterWritten p off v l).rast e = applyRaster off v (s.rast e) :=
  foldl_applyRaster h v l (s.updPart p (Part.queueRaster off v)) he hl

theorem rasterWritten_mem (s : State) (p off : Nat) (v : DWord) (l : List Nat) : (s.rasterWritten p off v l).mem = s.mem :=
  foldl_keeps (φ := State.mem) (f := fun s d => s.updRast d (applyRaster off v)) (fun _ _ => rfl) l (s.updPart p (Part.queueRaster off v))

/-! Watermarks to the other dies (R124). -/

/-- The watermark of a die for another one. -/
def markPayload (r : Raster) (die : Nat) (fin : Option Nat) (d : Nat) : List Byte :=
  match fin with
  | some o => sluicePayload o (2 ^ 32 - 1) (((r.dest d).nextSeq + 2 ^ 16 - 1) % 2 ^ 16) die 2 1
  | none => sluicePayload r.bound.1 r.bound.2 (((r.dest d).nextSeq + 2 ^ 16 - 1) % 2 ^ 16) die 2 0

theorem sendWatermark_eq (s : State) (die : Nat) (fin : Option Nat) : sendWatermark s die fin =
    ((s.peers die).filter (fun d => d != die)).foldl (fun u d => sendSluice (dieEvent u die 6 2 0 1) die d (markPayload (s.rast die) die fin d)) s := by
  cases fin <;> rfl

/-- A watermark to one die. -/
theorem markStep_sansLinks (s : State) (die d : Nat) (l : List Byte) : (sendSluice (dieEvent s die 6 2 0 1) die d l).sansLinks = s.sansLinks :=
  (sendSluice_sansLinks ..).trans (dieEvent_sansLinks ..)

@[simp] theorem sendWatermark_sansLinks (s : State) (die : Nat) (fin : Option Nat) : (sendWatermark s die fin).sansLinks = s.sansLinks := by
  rw [sendWatermark_eq]
  exact foldl_keeps (fun s d => markStep_sansLinks s die d _) _ _

section
variable {die y : Nat} (hd : die < 24) (hy : y < 24)
include hd hy

theorem markStep_carries {s : State} {b : List Byte} (d : Nat) (l : List Byte) (h : s.carries die y b) :
    (sendSluice (dieEvent s die 6 2 0 1) die d l).carries die y b :=
  carries_sendSluice hd hy d l (carries_of_wiring (dieEvent_wiring ..) h)

/-- What a die's link carries it carries still after the watermarks. -/
theorem carries_sendWatermark {s : State} {b : List Byte} (fin : Option Nat) (h : s.carries die y b) : (sendWatermark s die fin).carries die y b := by
  rw [sendWatermark_eq]
  exact List.foldlRecOn (motive := fun u : State => u.carries die y b) _ _ h (fun u hu d _ => markStep_carries hd hy d _ hu)

/-- Every die of a list is sent its message. -/
theorem foldl_markStep_carries (w : Nat → List Byte) {l : List Nat} (hm : y ∈ l) (s : State) :
    (l.foldl (fun s d => sendSluice (dieEvent s die 6 2 0 1) die d (w d)) s).carries die y (w y) := by
  induction l generalizing s with
  | nil => cases hm
  | cons d l ih =>
    rw [List.foldl_cons]
    by_cases e : y ∈ l
    · exact ih e _
    · obtain rfl : y = d := (List.mem_cons.1 hm).resolve_right e
      exact List.foldlRecOn (motive := fun u : State => u.carries die y (w y)) _ _ (sendSluice_carries hd hy _ _)
        (fun u hu d _ => markStep_carries hd hy d _ hu)

/-- Every other die of the partition is sent its watermark. -/
theorem sendWatermark_carries {s : State} (fin : Option Nat) (hp : y ∈ s.peers die) (hn : y ≠ die) :
    (sendWatermark s die fin).carries die y (markPayload (s.rast die) die fin y) := by
  rw [sendWatermark_eq]
  generalize markPayload (s.rast die) die fin = w
  exact foldl_markStep_carries hd hy w (List.mem_filter.2 ⟨hp, by simpa using hn⟩) s

end

end Sys2Proof.Machine
end

section
/-! PROOFS. Setup of a die (O42). -/

namespace Sys2Proof.Machine
open Sys2Proof

/-- A rasteriser whose setup has taken the next index of its slice (R122). -/
def Raster.takes (clk : Nat) (sl : Slice) (rest : List Slice) (r : Raster) : Raster :=
  { r with slices := { sl with next := sl.next + 1 } :: rest, bound := (sl.ord, sl.next + 1), setupClk := clk,
           setupCount := if r.setupClk = clk then r.setupCount + 1 else 1, emissions := r.emissions.filter (fun e => !(e.ord == sl.ord && e.idx == sl.next)) }

/-- A rasteriser whose setup has ended its last slice (R121). -/
def Raster.ends (o : Nat) (r : Raster) : Raster :=
  { r with slices := [], bound := (ordNext o, 0), emissions := r.emissions.filter (fun e => e.ord != o) }

/-- A primitive's message numbered for a die. -/
def State.sends1 (s : State) (die : Nat) (q : Prim) (x : Nat) : State :=
  let q := { q with sseq := ((s.rast die).dest x).nextSeq }
  let s := s.updRast die (fun r => r.updDest x (fun d => { d with nextSeq := (d.nextSeq + 1) % 2 ^ 16 }))
  if x = die then s.updRast die (fun r => r.updSource die (fun y => y.take q)) else sendSluice s die x (primPayload q)

section
variable {s : State} {die p o i : Nat} {w : Option (List Word)} {d : Draw} (hdraw : s.draw? p o = some d) (hb : ∀ y ∈ drawsBefore s p o, y.dies ≠ [])
  (hs : (s.rast die).slices = [⟨o, i, i + 1⟩]) (he : (s.rast die).emissions = [⟨o, i, w⟩]) (hg : d.gone = [])

/-- The emission of the slice's next index. -/
theorem find_emission (o i : Nat) (w : Option (List Word)) :
    [(⟨o, i, w⟩ : Emission)].find? (fun e => e.ord == o && e.idx == i) = some ⟨o, i, w⟩ := by simp

include hb in
/-- Every earlier draw has its dies. -/
theorem drawsBefore_ready : (drawsBefore s p o).any (fun x => x.dies.isEmpty) = false := by simpa using hb

include hdraw hb hs he

/-- Setup takes a culled index. -/
theorem setupOne_culled (hp : setupPrim d die ⟨o, i, w⟩ = none) :
    setupOne s die p = some ((wakeEmit (s.updRast die (Raster.takes s.clk ⟨o, i, i + 1⟩ [])) die d.stream d.slot (i + 1)).later (.mergeRelease die)) := by
  have hn : ¬i + 1 ≤ i := by omega
  unfold setupOne
  simp only [hs, hdraw, drawsBefore_ready hb, he, hn, find_emission, hp, Option.bind_some, Option.map_none, Option.getD_none, List.filter_nil, List.any_nil,
    Option.isNone_some, Option.isSome_none, Bool.false_and, Bool.false_eq_true, if_false]
  rfl

include hg

/-- Setup takes an index and sends its primitive to its one owner. -/
theorem setupOne_sent {m : Prim} {y : Nat} (hp : setupPrim d die ⟨o, i, w⟩ = some m) (ho : ownersOf (s.rast die) d m = [y])
    (hc : (s.rast die).hasCredit y = true) : setupOne s die p = some ((wakeEmit
      ((dieEvent (s.updRast die (Raster.takes s.clk ⟨o, i, i + 1⟩ [])) die 6 0 0 1).sends1 die m y) die d.stream d.slot (i + 1)).later (.mergeRelease die)) := by
  have hn : ¬i + 1 ≤ i := by omega
  have hf : [y].filter (fun x => !d.gone.contains x) = [y] := by simp [hg]
  have ha : [y].any (fun x => !(s.rast die).hasCredit x) = false := by simp [hc]
  unfold setupOne
  simp only [hs, hdraw, drawsBefore_ready hb, he, hn, find_emission, hp, Option.bind_some, Option.map_some, Option.getD_some, ho, hf, ha,
    Option.isNone_some, Option.isSome_some, Bool.false_and, Bool.false_eq_true, if_false]
  rfl

end

/-- A slice that has been taken ends, with its watermark. -/
theorem setupOne_ends {s : State} {die p o n : Nat} {d : Draw} (hdraw : s.draw? p o = some d) (hb : ∀ y ∈ drawsBefore s p o, y.dies ≠ [])
    (hs : (s.rast die).slices = [⟨o, n, n⟩]) :
    setupOne s die p = some ((sendWatermark (s.updRast die (Raster.ends o)) die (some o)).later (.mergeRelease die)) := by
  unfold setupOne
  simp only [hs, hdraw, drawsBefore_ready hb, le_rfl, Bool.false_eq_true, if_false, if_true]
  rfl

/-! From one step to the next. -/

/-- What a die's setup depends on, and memory. -/
def State.ground (s : State) : Memory × Nat × List Part := (s.mem, s.clk, s.parts)

theorem ground_of_sansLinks {s u : State} (h : u.sansLinks = s.sansLinks) : u.ground = s.ground :=
  (congrArg (fun x : State × (Nat → Bool) × (Nat → Nat) => x.1.ground) h :)

@[simp] theorem updRast_ground (s : State) (d : Nat) (f : Raster → Raster) : (s.updRast d f).ground = s.ground := rfl

@[simp] theorem wakeEmit_ground (s : State) (d a b n : Nat) : (wakeEmit s d a b n).ground = s.ground := rfl

@[simp] theorem wakeEmit_rast (s : State) (d a b n e : Nat) : (wakeEmit s d a b n).rast e = s.rast e := rfl

@[simp] theorem later_ground (s : State) (e : Event) : (s.later e).ground = s.ground := rfl

@[simp] theorem dieEvent_ground (s : State) (d b e i n : Nat) : (dieEvent s d b e i n).ground = s.ground := ground_of_sansLinks (dieEvent_sansLinks ..)

@[simp] theorem dieEvent_rast (s : State) (d b e i n x : Nat) : (dieEvent s d b e i n).rast x = s.rast x := rast_of_sansLinks (dieEvent_sansLinks ..) x

@[simp] theorem sendSluice_ground (s : State) (a d : Nat) (l : List Byte) : (sendSluice s a d l).ground = s.ground :=
  ground_of_sansLinks (sendSluice_sansLinks ..)

@[simp] theorem sendSluice_rast (s : State) (a d : Nat) (l : List Byte) (x : Nat) : (sendSluice s a d l).rast x = s.rast x :=
  rast_of_sansLinks (sendSluice_sansLinks ..) x

@[simp] theorem sendWatermark_ground (s : State) (d : Nat) (f : Option Nat) : (sendWatermark s d f).ground = s.ground :=
  ground_of_sansLinks (sendWatermark_sansLinks ..)

@[simp] theorem sendWatermark_rast (s : State) (d : Nat) (f : Option Nat) (x : Nat) : (sendWatermark s d f).rast x = s.rast x :=
  rast_of_sansLinks (sendWatermark_sansLinks ..) x

theorem parts_of_ground {s u : State} (h : u.ground = s.ground) : u.parts = s.parts := congrArg (fun g => g.2.2) h

theorem draw?_of_ground {s u : State} (h : u.ground = s.ground) (p o : Nat) : u.draw? p o = s.draw? p o := by
  rw [State.draw?, State.draw?, State.part?, State.part?, parts_of_ground h]

theorem drawsBefore_of_ground {s u : State} (h : u.ground = s.ground) (p o : Nat) : drawsBefore u p o = drawsBefore s p o := by
  rw [drawsBefore, drawsBefore, State.part?, State.part?, parts_of_ground h]

theorem peers_of_ground {s u : State} (h : u.ground = s.ground) (d : Nat) : u.peers d = s.peers d := by
  have e : u.partDies = s.partDies := funext (fun p => by rw [State.partDies, State.partDies, State.part?, State.part?, parts_of_ground h])
  rw [State.peers, State.peers, State.partOfDie, State.partOfDie, parts_of_ground h, e]

theorem mem_of_ground {s u : State} (h : u.ground = s.ground) : u.mem = s.mem := congrArg (fun g => g.1) h

/-- The end of a die's last slice. -/
def State.sliceEnded (s : State) (die o : Nat) : State :=
  (sendWatermark (s.updRast die (Raster.ends o)) die (some o)).later (.mergeRelease die)

/-- After one index a slice of one index ends. -/
theorem primitiveSetup_exec {s s1 : State} {die p o n : Nat} {d : Draw} (hd : die < 24) (hr : (s.die die).inReset = false) (hp : s.partOfDie die = some p)
    (hdraw : s.draw? p o = some d) (hb : ∀ y ∈ drawsBefore s p o, y.dies ≠ []) (ht : ∀ e ∈ s.timers, e.2 ≠ .primitiveSetup die)
    (hc : (s.rast die).setupClk ≠ s.clk) (h1 : setupOne s die p = some s1) (hg : s1.ground = s.ground) (hs : (s1.rast die).slices = [⟨o, n, n⟩])
    (hn : (s1.rast die).setupCount = 1) : exec (.primitiveSetup die) s = .next (s1.sliceEnded die o) := by
  have h2 : setupOne s1 die p = some (s1.sliceEnded die o) :=
    setupOne_ends ((draw?_of_ground hg ..).trans hdraw) (by rwa [drawsBefore_of_ground hg]) hs
  have hr2 : (s1.sliceEnded die o).rast die = Raster.ends o (s1.rast die) := by simp [State.sliceEnded, rast_updRast_same _ hd]
  have h3 : setupOne (s1.sliceEnded die o) die p = none := by simp [setupOne, hr2, Raster.ends]
  have ht' : s.timers.any (fun x => x.2 == Event.primitiveSetup die) = false := by simpa using fun a b h => ht (a, b) h
  have hrun : setupRun die p 8 s = (s1.sliceEnded die o, false) := by
    rw [setupRun, if_neg (fun h => hc h.1), h1]
    simp only
    rw [setupRun, if_neg (by omega), h2]
    simp only
    rw [setupRun, if_neg (by rw [hr2]; exact fun h => absurd h.2 (by rw [Raster.ends, hn]; decide)), h3]
  show Host.Outcome.next _ = _
  simp only [hp, hr, ht', hrun]
  rfl

/-! What each course of an index leaves. -/

/-- The die's own record after an index of a slice of one: setup has the end before it. -/
structure Raster.tookOne (r : Raster) (o n : Nat) : Prop where
  slices : r.slices = [⟨o, n, n⟩]
  emissions : r.emissions = []
  count : r.setupCount = 1

theorem takes_tookOne {r : Raster} {o i clk : Nat} {w : Option (List Word)} (he : r.emissions = [⟨o, i, w⟩]) (hc : r.setupClk ≠ clk) :
    (r.takes clk ⟨o, i, i + 1⟩ []).tookOne o (i + 1) := by
  refine ⟨rfl, ?_, if_neg hc⟩
  simp [Raster.takes, he]

theorem updDest_tookOne {r : Raster} {o n d : Nat} (f : Dest → Dest) (h : r.tookOne o n) : (r.updDest d f).tookOne o n := ⟨h.1, h.2, h.3⟩

theorem updSource_tookOne {r : Raster} {o n d : Nat} (f : Source → Source) (h : r.tookOne o n) : (r.updSource d f).tookOne o n := ⟨h.1, h.2, h.3⟩

/-- A message numbered leaves what setup depends on. -/
theorem sends1_ground (s : State) (die : Nat) (q : Prim) (x : Nat) : (s.sends1 die q x).ground = s.ground := by
  unfold State.sends1
  split
  · rfl
  · rw [sendSluice_ground, updRast_ground]

section
variable {s : State} {die : Nat} (hd : die < 24) (q : Prim)
include hd

/-- A primitive for the die itself is taken at once. -/
theorem sends1_own_rast : (s.sends1 die q die).rast die =
    ((s.rast die).updDest die (fun d => { d with nextSeq := (d.nextSeq + 1) % 2 ^ 16 })).updSource die
      (fun y => y.take { q with sseq := ((s.rast die).dest die).nextSeq }) := by
  rw [State.sends1, if_pos rfl, rast_updRast_same _ hd, rast_updRast_same _ hd]

/-- One for another die is numbered. -/
theorem sends1_other_rast {x : Nat} (hx : x ≠ die) : (s.sends1 die q x).rast die =
    (s.rast die).updDest x (fun d => { d with nextSeq := (d.nextSeq + 1) % 2 ^ 16 }) := by
  rw [State.sends1, if_neg hx, sendSluice_rast, rast_updRast_same _ hd]

/-- And sent. -/
theorem sends1_other_carries {x : Nat} (hx : x ≠ die) (hl : x < 24) :
    (s.sends1 die q x).carries die x (primPayload { q with sseq := ((s.rast die).dest x).nextSeq }) := by
  rw [State.sends1, if_neg hx]
  exact sendSluice_carries hd hl _ _

end

/-- Where a slice has ended: the die's record, memory, and the watermarks to the others. -/
theorem sliceEnded_spec {s : State} {die o n : Nat} (hd : die < 24) (h : (s.rast die).tookOne o n) :
    let u := s.sliceEnded die o
    u.mem = s.mem ∧ u.rast die = (s.rast die).ends o ∧ (u.rast die).emissions = [] ∧
      (∀ y ∈ s.peers die, y ≠ die → y < 24 → ∃ k, Says.sends u die y (sluicePayload o (2 ^ 32 - 1) k die 2 1)) ∧
      ∀ y b, y < 24 → s.carries die y b → Says.sends u die y b := by
  have hr : (s.sliceEnded die o).rast die = (s.rast die).ends o := by simp [State.sliceEnded, rast_updRast_same _ hd]
  refine ⟨mem_of_ground (u := s.sliceEnded die o) (by simp [State.sliceEnded]), hr, ?_, fun y hy hn hl => ⟨((((s.updRast die (Raster.ends o)).rast die).dest y).nextSeq + 2 ^ 16 - 1) % 2 ^ 16, ?_⟩, fun y b hl hc => ?_⟩
  · rw [hr, Raster.ends, h.emissions]
    rfl
  · exact sends_of_carries hl (sendWatermark_carries hd hl (some o) (by rwa [peers_of_ground (updRast_ground ..)]) hn)
  · exact sends_of_carries hl (carries_sendWatermark hd hl (some o) hc)

end Sys2Proof.Machine
end

section
/-! PROOFS. Sluice messages, watermarks, closes and setup (O42). -/

namespace Sys2Proof.Machine
open Sys2Proof

theorem atOnce_ground (s : State) (c : Nat) (e : Event) : (s.atOnce c e).ground = s.ground := ground_of_sansLinks (atOnce_sansLinks ..)

theorem atOnce_rast (s : State) (c : Nat) (e : Event) (d : Nat) : (s.atOnce c e).rast d = s.rast d := rast_of_sansLinks (atOnce_sansLinks ..) d

/-- A message of a source arrives at a die, and leaves of the source what c says. -/
def State.hears (s : State) (die src : Nat) (i : Instr) (c : Source → Prop) : Prop :=
  ∃ u, exec i s = .next u ∧ s.sameMem u ∧ c ((u.rast die).source src) ∧ .mergeRelease die ∈ u.agenda

section
variable {s : State} {src die p : Nat} (hd : die < 24) (hr : (s.die die).inReset = false)
include hd

/-- What a message of a source leaves. -/
theorem arrives {i : Instr} {g : Source → Source}
    (e : exec i s = .next ((s.updRast die (fun r => r.updSource src g)).later (.mergeRelease die))) (hg : ∀ x, (g x).die = x.die)
    {c : Source → Prop} (h : c (g ((s.rast die).source src))) :
    s.hears die src i c := by
  refine ⟨_, e, fun _ => rfl, ?_, List.mem_append_right _ (List.mem_singleton.2 rfl)⟩
  rwa [source_later hd src hg]

include hr

/-- R123. -/
theorem primitive_arrives {m : Prim} (hm : Says.primFits m) {c : Source → Prop}
    (h : c (Source.settle { (s.rast die).source src with early := ((s.rast die).source src).early ++ [m] })) :
    s.hears die src (.primitiveMessage src die (primPayload m)) c :=
  arrives hd (primitiveMessage_exec hr (primOf_primPayload hm)) (fun _ => settle_die _) h

/-- R124. -/
theorem watermark_arrives {o i k f : Nat} (ho : o < 2 ^ 32) (hi : i < 2 ^ 32) (hs : src < 32) (hf : f < 2) (hk : k < 2 ^ 16)
    (he : ((s.rast die).source src).early = []) (hm : ((s.rast die).source src).marks = []) {c : Source → Prop}
    (h : let x := (s.rast die).source src
      let m := if f = 1 then (ordNext o, 0, k) else (o, i, k)
      c (if ripe x.nextSeq m then x.raise m else { x with marks := [m] })) :
    s.hears die src (.watermark src die (sluicePayload o i k src 2 f)) c := by
  obtain ⟨e0, -, e4, -, e8, e12⟩ := sluicePayload_fields (t := 2) ho hi hk hs (by decide) hf
  have e := watermark_exec hr (src := src) (shortOk_payload (t := 2) ho hi hk hs (by decide) hf (.inl rfl))
  rw [e0, e4, e8, e12] at e
  refine arrives hd e (fun _ => settle_die _) ?_
  rw [settle_mark he hm]
  exact h

/-- R125. -/
theorem credit_arrives {n : Nat} (hn : n < 2 ^ 16) (hs : src < 32) :
    let r := s.rast die
    let step := (n + 2 ^ 16 - (r.dest src).credits) % 2 ^ 16
    ∃ u, exec (.credit src die (sluicePayload n 0 0 src 3 0)) s = .next u ∧ s.sameMem u ∧
      ((u.rast die).dest src).credits = (if 0 < step ∧ step < 2 ^ 15 then n else (r.dest src).credits) ∧
      ((u.rast die).dest src).nextSeq = (r.dest src).nextSeq := by
  obtain ⟨-, e0, -⟩ := sluicePayload_fields (w0 := n) (w1 := 0) (q := 0) (t := 3) (f := 0) (by omega) (by decide) (by decide) hs (by decide) (by decide)
  have e := credit_exec hr (src := src) (shortOk_payload (w0 := n) (w1 := 0) (q := 0) (t := 3) (f := 0) (by omega) (by decide) (by decide) hs (by decide)
    (by decide) (.inr (.inl ⟨rfl, hn, rfl, rfl, rfl⟩)))
  rw [e0, Nat.mod_eq_of_lt hn] at e
  refine ⟨_, e, fun _ => rfl, ?_⟩
  rw [later_rast, rast_updRast_same _ hd, dest_updDest_same]
  · split <;> exact ⟨rfl, rfl⟩
  · split <;> exact dest_die ..

/-- R127. -/
theorem close_arrives {o k : Nat} (ho : o < 2 ^ 32) (hk : k < 256) (hs : src < 32) (hn : src ≠ die) :
    ∃ u, exec (.close src die (sluicePayload o k 0 src 4 0)) s = .next u ∧ s.sameMem u ∧
      u.rast die = { s.rast die with closes := (s.rast die).closes ++ [(o, k)] } ∧ .mergeRelease die ∈ u.agenda := by
  obtain ⟨e0, -, -, e4, -⟩ := sluicePayload_fields (w1 := k) (q := 0) (t := 4) (f := 0) ho (by omega) (by decide) hs (by decide) (by decide)
  have e := close_exec hr hn (shortOk_payload (w1 := k) (q := 0) (t := 4) (f := 0) ho (by omega) (by decide) hs (by decide) (by decide)
    (.inr (.inr ⟨rfl, hk, rfl, rfl⟩)))
  rw [e0, e4, Nat.mod_eq_of_lt hk] at e
  exact ⟨_, e, fun _ => rfl, (later_rast ..).trans (rast_updRast_same _ hd), List.mem_append_right _ (List.mem_singleton.2 rfl)⟩

/-- R124: the period of a die with a draw in flight. -/
theorem watermarkPeriod_sends (h : drawInFlight s die = true) :
    let r := s.rast die
    ∃ u, exec (.watermarkPeriod die) s = .next u ∧ s.sameMem u ∧ u.rast die = r ∧ (∃ k, (k, .watermarkPeriod die) ∈ u.timers) ∧
      ∀ d ∈ s.peers die, d ≠ die → d < 24 → Says.sends u die d (sluicePayload r.bound.1 r.bound.2 (((r.dest d).nextSeq + 2 ^ 16 - 1) % 2 ^ 16) die 2 0) := by
  have e : exec (.watermarkPeriod die) s = .next ((sendWatermark s die none).atOnce (s.clk + 256) (.watermarkPeriod die)) := by
    show Host.Outcome.next (if drawInFlight s die && !(s.die die).inReset then _ else s) = _
    rw [h, hr]
    rfl
  refine ⟨_, e, sameMem_of_mem (mem_of_ground ?_), ?_, atOnce_mem .., fun d hp hn hl => ?_⟩
  · rw [atOnce_ground, sendWatermark_ground]
  · rw [atOnce_rast, sendWatermark_rast]
  · exact sends_of_carries hl (carries_of_wiring (atOnce_wiring ..) (sendWatermark_carries hd hl none hp hn))

end

/-- R115. -/
theorem rasterControlWrite_done {s : State} {p : Nat} {q : Part} (off : Nat) (v : DWord) (hq : s.part? p = some q) :
    (drawRunning q = false → q.rastWait = [] →
      ∃ u, exec (.rasterControlWrite p off v) s = .next u ∧ s.sameMem u ∧ ∀ d ∈ q.dies, d < 24 →
        (off = 0x4000 → u.rast d = { s.rast d with control := v &&& 0xFFF03F01 }) ∧
        (∀ j, off = 0x4100 + 8 * j → j < 32 → (u.rast d).control = (s.rast d).control ∧ ∀ k, k < 256 →
          (u.rast d).owner[k]? = if k / 8 = j then some (v.extractLsb' (8 * (k % 8)) 8) else (s.rast d).owner[k]?)) ∧
    (drawRunning q = true →
      ∃ u, exec (.rasterControlWrite p off v) s = .next u ∧ s.sameMem u ∧ u.dies = s.dies ∧
        u.part? p = some { q with rastWait := q.rastWait ++ [(off, v)] }) := by
  refine ⟨fun hi hw => ⟨_, rasterControlWrite_idle hq hi hw, sameMem_of_mem (rasterWritten_mem ..), fun d hm hl => ⟨?_, ?_⟩⟩, fun hi =>
    ⟨_, rasterControlWrite_waits hq hi, fun _ => rfl, rfl, part?_queueRaster hq⟩⟩
  · rintro rfl
    exact rasterWritten_rast (.inl rfl) s p hl hm
  · rintro j rfl -
    rw [rasterWritten_rast (.inr ⟨j, rfl⟩) s p hl hm]
    refine ⟨?_, fun k hk => applyRaster_owner v _ hk⟩
    rw [applyRaster, if_neg (by omega)]

/-- A primitive goes to dies alone. -/
theorem ownersOf_lt {r : Raster} {d : Draw} {m : Prim} {y : Nat} (h : y ∈ ownersOf r d m) : y < 24 := by
  unfold ownersOf at h
  split at h
  · cases h
  · exact List.mem_range.1 (List.mem_of_mem_filter h)

/-! Setup's course (R121, R122). -/

theorem ends_source (r : Raster) (o y : Nat) : (r.ends o).source y = r.source y := rfl

theorem ends_dest (r : Raster) (o y : Nat) : (r.ends o).dest y = r.dest y := rfl

/-- Setup takes the index of a slice of one, and ends the slice. -/
def State.setupEnds (s : State) (die o : Nat) (c : State → Prop) : Prop :=
    ∃ u, exec (.primitiveSetup die) s = .next u ∧ s.sameMem u ∧ (u.rast die).slices = [] ∧ (u.rast die).emissions = [] ∧
      (u.rast die).bound = ((o + 1) % 2 ^ 32, 0) ∧
      (∀ y ∈ s.peers die, y ≠ die → y < 24 → ∃ k, Says.sends u die y (sluicePayload o (2 ^ 32 - 1) k die 2 1)) ∧ c u

section
variable {s : State} {die p o i : Nat} {w : Option (List Word)} {d : Draw} (hd : die < 24) (hr : (s.die die).inReset = false)
  (hp : s.partOfDie die = some p) (hdraw : s.draw? p o = some d) (hb : ∀ y ∈ drawsBefore s p o, y.dies ≠ [])
  (ht : ∀ e ∈ s.timers, e.2 ≠ .primitiveSetup die) (hs : (s.rast die).slices = [⟨o, i, i + 1⟩]) (he : (s.rast die).emissions = [⟨o, i, w⟩])
  (hc : (s.rast die).setupClk ≠ s.clk) (hg : d.gone = [])

include hd hr hp hdraw hb ht hc in
/-- Setup that takes the one index of its slice ends the slice: what holds then, with what holds of the index taken. -/
theorem setup_ends {s1 : State} (h1 : setupOne s die p = some s1) (hk : s1.ground = s.ground) (h : (s1.rast die).tookOne o (i + 1)) {c : State → Prop}
    (h' : ∀ u, u.rast die = (s1.rast die).ends o → (∀ y b, y < 24 → s1.carries die y b → Says.sends u die y b) → c u) :
    s.setupEnds die o c := by
  obtain ⟨km, kr, ke, kw, kc⟩ := sliceEnded_spec hd h
  refine ⟨_, primitiveSetup_exec hd hr hp hdraw hb ht hc h1 hk h.slices h.count, sameMem_of_mem (km.trans (mem_of_ground hk)), ?_, ke, ?_, ?_, h' _ kr kc⟩
  · rw [kr, Raster.ends]
  · rw [kr, Raster.ends, ordNext]
  · rwa [peers_of_ground hk] at kw

include hd hr hp hdraw hb ht hs he hc

/-- A culled primitive. -/
theorem setup_culled (hn : setupPrim d die ⟨o, i, w⟩ = none) :
    s.setupEnds die o (fun u => ∀ y, (u.rast die).source y = (s.rast die).source y) := by
  have kr : ((wakeEmit (s.updRast die (Raster.takes s.clk ⟨o, i, i + 1⟩ [])) die d.stream d.slot (i + 1)).later (.mergeRelease die)).rast die =
      (s.rast die).takes s.clk ⟨o, i, i + 1⟩ [] := by rw [later_rast, wakeEmit_rast, rast_updRast_same _ hd]
  refine setup_ends (i := i) hd hr hp hdraw hb ht hc (setupOne_culled hdraw hb hs he hn) (by simp) (kr ▸ takes_tookOne he hc) (fun u hu _ y => ?_)
  rw [hu, kr]
  rfl

include hg

/-- One for the die itself. -/
theorem setup_own {m : Prim} (hm : setupPrim d die ⟨o, i, w⟩ = some m) (ho : ownersOf (s.rast die) d m = [die]) (hcr : (s.rast die).hasCredit die = true) :
    s.setupEnds die o (fun u => ((u.rast die).source die).got = ((s.rast die).source die).got ++ [{ m with sseq := ((s.rast die).dest die).nextSeq }]) := by
  have kr := sends1_own_rast (s := dieEvent (s.updRast die (Raster.takes s.clk ⟨o, i, i + 1⟩ [])) die 6 0 0 1) hd m
  rw [dieEvent_rast, rast_updRast_same _ hd] at kr
  refine setup_ends (i := i) hd hr hp hdraw hb ht hc (setupOne_sent hdraw hb hs he hg hm ho hcr) (by simp [sends1_ground]) ?_ (fun u hu _ => ?_)
  · rw [later_rast, wakeEmit_rast, kr]
    exact updSource_tookOne _ (updDest_tookOne _ (takes_tookOne he hc))
  · rw [later_rast, wakeEmit_rast, kr] at hu
    rw [hu]
    rw [ends_source, source_updSource_same (by exact source_die ..)]
    rfl

/-- One for another die. -/
theorem setup_other {m : Prim} {y : Nat} (hm : setupPrim d die ⟨o, i, w⟩ = some m) (ho : ownersOf (s.rast die) d m = [y]) (hy : y ≠ die)
    (hcr : (s.rast die).hasCredit y = true) :
    s.setupEnds die o (fun u => Says.sends u die y (primPayload { m with sseq := ((s.rast die).dest y).nextSeq }) ∧
      ((u.rast die).dest y).nextSeq = (((s.rast die).dest y).nextSeq + 1) % 2 ^ 16) := by
  have hl : y < 24 := ownersOf_lt (ho ▸ List.mem_singleton.2 rfl)
  have kr := sends1_other_rast (s := dieEvent (s.updRast die (Raster.takes s.clk ⟨o, i, i + 1⟩ [])) die 6 0 0 1) hd m hy
  have kc := sends1_other_carries (s := dieEvent (s.updRast die (Raster.takes s.clk ⟨o, i, i + 1⟩ [])) die 6 0 0 1) hd m hy hl
  rw [dieEvent_rast, rast_updRast_same _ hd] at kr kc
  refine setup_ends (i := i) hd hr hp hdraw hb ht hc (setupOne_sent hdraw hb hs he hg hm ho hcr) (by simp [sends1_ground]) ?_ (fun u hu hu' => ⟨hu' _ _ hl kc, ?_⟩)
  · rw [later_rast, wakeEmit_rast, kr]
    exact updDest_tookOne _ (takes_tookOne he hc)
  · rw [later_rast, wakeEmit_rast, kr] at hu
    rw [hu]
    rw [ends_dest, dest_updDest_same (by exact dest_die ..)]
    rfl

end

/-- A watermark's number stands beside its bound. -/
theorem mark_of_number (f o i k : Nat) : (if f = 1 then (ordNext o, 0, k) else (o, i, k)) =
    ((if f = 1 then ((o + 1) % 2 ^ 32, 0) else (o, i)).1, (if f = 1 then ((o + 1) % 2 ^ 32, 0) else (o, i)).2, k) := by
  split <;> rfl

/-- A watermark that names the last primitive taken is ripe. -/
theorem ripe_last {n : Nat} (h : n < 2 ^ 16) (a b : Nat) : ripe n (a, b, (n + 2 ^ 16 - 1) % 2 ^ 16) = true := by
  simp only [ripe, decide_eq_true_eq]
  omega

/-- One that names the next is not. -/
theorem ripe_next (n a b : Nat) : ripe n (a, b, n) = false := by
  simp only [ripe, decide_eq_false_iff_not]
  omega

/-- A watermark applied. -/
theorem raise_spec {x : Source} (hm : x.marks = []) (m : Nat × Nat × Nat) :
    (x.raise m).bound = (if tagLt x.bound (m.1, m.2.1) then (m.1, m.2.1) else x.bound) ∧ (x.raise m).got = x.got ∧ (x.raise m).marks = [] := by
  unfold Source.raise
  split
  · exact ⟨rfl, rfl, hm⟩
  · exact ⟨rfl, rfl, hm⟩

/-- Settles O42: each message as it arrives, the write of raster control, and setup's course over one index. -/
theorem rasterMessages : Obligations.RasterMessages := by
  intro s src die p q hd hr r x waits
  have hears (i : Instr) (c : Source → Prop) (h : s.hears die src i c) : waits i c := h
  clear_value waits
  refine ⟨fun m hm he hk => ⟨fun h => ?_, fun h => ?_⟩, fun l hl => ?_, ?_, fun n hn hs => credit_arrives hd hr hn hs,
    fun o k ho hk hs hn => close_arrives hd hr ho hk hs hn, fun h => watermarkPeriod_sends hd hr h, fun off v hq => rasterControlWrite_done off v hq, ?_⟩
  · refine hears _ _ (primitive_arrives hd hr hm ?_)
    rw [settle_next he hk h]
    exact ⟨rfl, rfl, rfl⟩
  · refine hears _ _ (primitive_arrives hd hr hm ?_)
    rw [settle_early he hk h]
    exact ⟨rfl, rfl, rfl⟩
  · exact ⟨_, primitiveMessage_bad hl, sameMem_of_mem (dieEvent_mem ..), fun d => dieEvent_rast ..⟩
  · intro o i k f ho hi hs hf hx he hm m
    constructor
    · intro h
      refine hears _ _ (watermark_arrives hd hr ho hi hs hf (by omega) he hm ?_)
      simp only [mark_of_number]
      rw [h, if_pos (ripe_last hx ..)]
      exact raise_spec hm _
    · intro h
      refine hears _ _ (watermark_arrives hd hr ho hi hs hf (by omega) he hm ?_)
      simp only [mark_of_number]
      rw [h, if_neg (by rw [ripe_next]; decide)]
      exact ⟨rfl, rfl, rfl⟩
  · intro o i w d hp hdraw hb ht hs he hc hg ends
    exact ⟨setup_culled hd hr hp hdraw hb ht hs he hc, fun m hm => ⟨setup_own hd hr hp hdraw hb ht hs he hc hg hm,
      fun y => setup_other hd hr hp hdraw hb ht hs he hc hg hm⟩⟩

end Sys2Proof.Machine
end

section
/-! PROOFS. The merge, static waves and exports (O43). -/

namespace Sys2Proof.Machine
open Sys2Proof

/-! Memory and the dies. -/

/-- Memory, and what the dies hold. -/
def State.stage (s : State) : Memory × Vector Die 24 := (s.mem, s.dies)

theorem rast_of_stage {s u : State} (h : u.stage = s.stage) (d : Nat) : u.rast d = s.rast d :=
  congrArg (fun g : Memory × Vector Die 24 => (g.2[d]?.getD Die.reset).rast) h

theorem mem_of_stage {s u : State} (h : u.stage = s.stage) : u.mem = s.mem := congrArg Prod.fst h

theorem recheck_stage (s : State) (p st sl : Nat) : (recheck s p st sl).stage = s.stage := by
  unfold recheck
  split
  · exact ite_keeps rfl rfl
  · rfl

theorem groupCheck_stage (s : State) (g : Nat) : (groupCheck s g).stage = s.stage := by
  unfold groupCheck
  split
  · rfl
  · exact ite_keeps rfl rfl

theorem gangCheck_stage (s : State) (g : Nat) : (gangCheck s g).stage = s.stage := by
  unfold gangCheck
  split
  · rfl
  · refine ite_keeps rfl ((recheck_stage ..).trans ?_)
    split
    all_goals
      split <;> rfl

theorem drawEnd_stage (s : State) (p die : Nat) : (drawEnd s p die).stage = s.stage := by
  unfold drawEnd
  refine foldl_keeps (fun s d => (recheck_stage ..).trans (foldl_keeps (fun s g => ?_) _ _)) _ _
  split
  · rfl
  · refine (gangCheck_stage ..).trans ((groupCheck_stage ..).trans ?_)
    exact foldl_keeps (φ := State.stage) (fun s k => by split <;> rfl) _ _

/-! The merge (R126). -/

section
variable {s : State} {die p : Nat} (hd : die < 24) (hr : (s.die die).inReset = false) (hp : s.partOfDie die = some p) (hq : (s.rast die).quads = [])
  (hl : (s.rast die).released = []) {x : Source} {q : Prim} (hx : leastHead (s.rast die).sources = some (x, q))

/-- A rasteriser that has released the head of a source (R126). -/
def Raster.releases (clk : Nat) (x : Source) (q : Prim) (r : Raster) : Raster :=
  { r.updSource x.die (fun y => { y with got := y.got.drop 1, returned := (x.returned + 1) % 2 ^ 16 }) with
    released := [q], prims := r.prims ++ [q], lastRelease := clk, relCount := if r.lastRelease = clk then r.relCount + 1 else 1 }

include hr hp hq hl hx

/-- A head that another source can precede stays. -/
theorem mergeRelease_blocked (h : ∃ y ∈ s.peers die, y ≠ x.die ∧ blocks s die p q.tag y = true) :
    exec (.mergeRelease die) s = .next (drawEnd s p die) := by
  have hb : (s.peers die).any (fun y => y != x.die && blocks s die p q.tag y) = true := by simpa using h
  show Host.Outcome.next _ = _
  simp only [hp, hr, Raster.busy, hq, hl, hx, hb]
  rfl

variable (hb : ∀ y ∈ s.peers die, y ≠ x.die → blocks s die p q.tag y = false) (hc : (s.rast die).lastRelease ≠ s.clk)
  (hg : ∀ d, s.draw? p q.ord = some d → x.die ∉ d.gone)
include hb hc hg

/-- The head is released; its credit returns. -/
theorem mergeRelease_exec : exec (.mergeRelease die) s = .next (((if x.die = die then
      ((s.updRast die (Raster.releases s.clk x q)).updRast die (fun r => r.updDest die (fun d => { d with credits := (x.returned + 1) % 2 ^ 16 }))).later
        (.primitiveSetup die)
    else sendSluice (s.updRast die (Raster.releases s.clk x q)) die x.die (sluicePayload ((x.returned + 1) % 2 ^ 16) 0 0 die 3 0))).later (.rasterise die)) := by
  have hb' : (s.peers die).any (fun y => y != x.die && blocks s die p q.tag y) = false := by simpa using hb
  have hg' : ((s.draw? p q.ord).map (fun d => d.gone.contains x.die)).getD false = false := by
    cases e : s.draw? p q.ord with
    | none => rfl
    | some d => simpa using hg d e
  show Host.Outcome.next _ = _
  simp only [hp, hr, Raster.busy, hq, hl, hx, hb', hc, hg', false_and, Bool.false_eq_true, if_false]
  rfl

omit hr hp hq hl hx hb hc hg in
/-- The record of the source whose head has gone. -/
theorem releases_got (clk : Nat) (r : Raster) : ((r.releases clk x q).source x.die).got = (r.source x.die).got.drop 1 :=
  congrArg Source.got (source_updSource_same (g := fun y => { y with got := y.got.drop 1, returned := (x.returned + 1) % 2 ^ 16 }) (source_die ..))

include hd

/-- What a release leaves (R126). -/
theorem mergeRelease_releases : ∃ u, exec (.mergeRelease die) s = .next u ∧ s.sameMem u ∧ (u.rast die).released = [q] ∧
    (u.rast die).prims = (s.rast die).prims ++ [q] ∧ ((u.rast die).source x.die).got = ((s.rast die).source x.die).got.drop 1 ∧
    (u.rast die).lastRelease = s.clk ∧ .rasterise die ∈ u.agenda ∧
    (x.die ≠ die → x.die < 24 → Says.sends u die x.die (sluicePayload ((x.returned + 1) % 2 ^ 16) 0 0 die 3 0)) ∧
    (x.die = die → ((u.rast die).dest die).credits = (x.returned + 1) % 2 ^ 16) := by
  have e := mergeRelease_exec hr hp hq hl hx hb hc hg
  have hg := releases_got (x := x) (q := q) s.clk (s.rast die)
  have ha {u : State} : Event.rasterise die ∈ (u.later (.rasterise die)).agenda := List.mem_append_right _ (List.mem_singleton.2 rfl)
  by_cases h : x.die = die
  · rw [if_pos h] at e
    refine ⟨_, e, sameMem_of_mem (mem_of_ground ?_), ?_, ?_, ?_, ?_, ha, fun n => absurd h n, fun _ => ?_⟩
    · simp
    all_goals rw [later_rast, later_rast, rast_updRast_same _ hd, rast_updRast_same _ hd]
    · rfl
    · rfl
    · exact hg
    · rfl
    · exact congrArg Dest.credits (dest_updDest_same (g := fun d => { d with credits := (x.returned + 1) % 2 ^ 16 }) (dest_die ..))
  · rw [if_neg h] at e
    refine ⟨_, e, sameMem_of_mem (mem_of_ground (by simp)), ?_, ?_, ?_, ?_, ha, fun _ hl => ?_, fun n => absurd n h⟩
    any_goals rw [later_rast, sendSluice_rast, rast_updRast_same _ hd]
    · rfl
    · rfl
    · exact hg
    · rfl
    · exact sends_of_carries hl (carries_of_wiring rfl (sendSluice_carries hd hl _ _))

end

/-! Quads (R130). -/

/-- No quad of a primitive is empty, and each is of its draw. -/
theorem quadsOf_mem {r : Raster} {d : Draw} {die : Nat} {q : Prim} {z : Quad} (h : z ∈ quadsOf r d die q) :
    z.ord = d.ord ∧ z.cov.all (fun c => c == 0) = false := by
  unfold quadsOf at h
  split at h
  · cases h
  · simp only [List.mem_flatMap, List.mem_filterMap] at h
    obtain ⟨t, -, j, -, i, -, h⟩ := h
    split at h
    · cases h
    · next hc =>
      cases h
      exact ⟨rfl, by simpa using hc⟩

theorem draw?_ord {s : State} {p o : Nat} {d : Draw} (h : s.draw? p o = some d) : d.ord = o := by
  obtain ⟨q, -, hq⟩ := Option.bind_eq_some_iff.1 h
  simpa using List.find?_some hq

/-- No quad waits. -/
theorem enterQuads_none {s : State} {die p : Nat} (h : (s.rast die).quads = []) (n : Nat) : enterQuads die p n s = s := by
  cases n with
  | zero => rfl
  | succ n =>
    unfold enterQuads
    simp only [h]

/-- Quads put to a die's order unit. -/
def State.putQuads (s : State) (die : Nat) (l : List Quad) : State := s.updRast die (fun r => { r with quads := l })

section
variable {s : State} {die p : Nat} {z : Quad} {l : List Quad} {d : Draw} (h : (s.rast die).quads = z :: l) (hdraw : s.draw? p z.ord = some d)
  (hf : d.flag 0 = false) (hc : z.cov.all (fun c => c == 0) = false)
include h hdraw hf hc

/-- The first quad finds no wave. -/
theorem enterQuads_waits (ho : openWave s p d die = none) (n : Nat) : enterQuads die p (n + 1) s = s.putQuads die (z :: l) := by
  have ho' : openWave (s.putQuads die (z :: l)) p d die = none := ho
  unfold State.putQuads at ho' ⊢
  unfold enterQuads
  simp only [h, hdraw, hf, hc, ho', Bool.false_eq_true, if_false, Bool.not_true]

/-- It finds one, and enters it. -/
theorem enterQuads_enters {g : Group} {k m : Nat} (ho : openWave s p d die = some (g, k, m)) (n : Nat) :
    enterQuads die p (n + 1) s = enterQuads die p n (enterQuad ((s.putQuads die (z :: l)).putQuads die l) die z g k m) := by
  have ho' : openWave (s.putQuads die (z :: l)) p d die = some (g, k, m) := ho
  unfold State.putQuads at ho' ⊢
  conv => lhs; unfold enterQuads
  simp only [h, hdraw, hf, hc, ho', Bool.false_eq_true, if_false, Bool.not_true]

end

/-- A group read back after it was changed. -/
theorem group?_updGroup {s : State} {n : Nat} {g : Group} {f : Group → Group} (hf : ∀ x, (f x).id = x.id) (h : s.group? n = some g) :
    (s.updGroup n f).group? n = some (f g) := by
  unfold State.group? at h ⊢
  rw [State.updGroup_groups]
  generalize s.groups = l at h ⊢
  induction l with
  | nil => cases h
  | cons x l ih =>
    rw [List.map_cons]
    by_cases e : x.id = n
    · rw [List.find?_cons_of_pos (by simpa using e)] at h
      cases h
      rw [List.find?_cons_of_pos (by simp [e, hf]), if_pos (by simpa using e)]
    · rw [List.find?_cons_of_neg (by simpa using e)] at h
      rw [List.find?_cons_of_neg (by simp [e]), ih h]

/-- The lane of a thread in a quad's place of a wave. -/
def quadRole (g : Group) (k m : Nat) (t : Thread) : Option Nat :=
  if t.grp = g.id ∧ t.spawner.isNone ∧ t.tid / 4 = 16 * k + m then some (t.tid % 4) else none

/-- A quad's threads and exports made ready, and its place taken. -/
def State.quadEntered (s : State) (die : Nat) (z : Quad) (g : Group) (k m : Nat) (l : List Export) : State :=
  ((s.mapThreads (fun t => match quadRole g k m t with | some i => quadThread z i t | none => t)).updRast die
    (fun r => { r with exports := r.exports ++ l })).updGroup g.id (fun x => { x with pixel := x.pixel.map (fun p => (p.1, p.2.set k (m + 1))) })

/-- A wave that a quad has entered starts at once when it is full, and later otherwise (R131). -/
theorem enterQuad_eq (s : State) (die : Nat) (z : Quad) (g : Group) (k m : Nat) : ∃ l c e e', enterQuad s die z g k m =
    if m + 1 = 16 then (s.quadEntered die z g k m l).later e else (s.quadEntered die z g k m l).atOnce c e' := ⟨_, _, _, _, rfl⟩

/-- A quad enters a wave: what it leaves beside the die's exports (R130). -/
theorem enterQuad_spec {s : State} {die : Nat} {z : Quad} {g : Group} {k m : Nat} (hd : die < 24) (hg : s.group? g.id = some g) :
    let u := enterQuad s die z g k m
    u.mem = s.mem ∧ (u.rast die).quads = (s.rast die).quads ∧ (u.rast die).released = (s.rast die).released ∧
      u.group? g.id = some { g with pixel := g.pixel.map (fun x => (x.1, x.2.set k (m + 1))) } ∧
      ∀ t ∈ s.threads, t.grp = g.id → t.spawner = none → t.tid / 4 = 16 * k + m → quadThread z (t.tid % 4) t ∈ u.threads := by
  obtain ⟨l, c, e, e', h⟩ := enterQuad_eq s die z g k m
  have hk (u : State) (hm : u.mem = (s.quadEntered die z g k m l).mem) (hs : u.dies = (s.quadEntered die z g k m l).dies)
      (hu : u.groups = (s.quadEntered die z g k m l).groups) (ht : u.threads = (s.quadEntered die z g k m l).threads) :
      u.mem = s.mem ∧ (u.rast die).quads = (s.rast die).quads ∧ (u.rast die).released = (s.rast die).released ∧
        u.group? g.id = some { g with pixel := g.pixel.map (fun x => (x.1, x.2.set k (m + 1))) } ∧
        ∀ t ∈ s.threads, t.grp = g.id → t.spawner = none → t.tid / 4 = 16 * k + m → quadThread z (t.tid % 4) t ∈ u.threads := by
    have hr : u.rast die = { s.rast die with exports := (s.rast die).exports ++ l } := by
      rw [State.rast, State.die, hs]
      exact rast_updRast_same (s := s.mapThreads _) (fun r => { r with exports := r.exports ++ l }) hd
    refine ⟨hm, by rw [hr], by rw [hr], ?_, fun t hm h1 h2 h3 => ?_⟩
    · rw [State.group?, hu]
      exact group?_updGroup (s := (s.mapThreads _).updRast die _) (fun _ => rfl) hg
    · rw [ht]
      refine List.mem_map.2 ⟨t, hm, ?_⟩
      rw [quadRole, if_pos ⟨h1, by rw [h2]; rfl, h3⟩]
  rw [h]
  split
  · exact hk _ rfl rfl rfl rfl
  · rw [atOnce_eq]
    exact hk _ rfl rfl rfl rfl

section
variable {s : State} {die p : Nat} (hd : die < 24) (hr : (s.die die).inReset = false) (hp : s.partOfDie die = some p) (hq : (s.rast die).quads = [])
  {q : Prim} {d : Draw} (hl : (s.rast die).released = [q]) (hdraw : s.draw? p q.ord = some d)

/-- A rasteriser with the quads of its primitive formed. -/
def Raster.formed (l : List Quad) (r : Raster) : Raster := { r with released := [], quads := l }

/-- What rasterising a primitive comes to: its quads are formed and enter. -/
def State.rasterised (s : State) (die p : Nat) (l : List Quad) : State :=
  enterQuads die p (l.length + 1) (s.updRast die (Raster.formed l))

include hd hr hp hq hl hdraw

theorem rasterise_exec : exec (.rasterise die) s =
    let u := s.rasterised die p (quadsOf (s.rast die) d die q)
    .next (if (u.rast die).quads.isEmpty then u.later (.mergeRelease die) else u.atOnce (nextMultiple (u.clk + 1) 64) .placementWindow) := by
  show Host.Outcome.next _ = _
  simp only [hp, hr, hq, hl, hdraw, Bool.false_eq_true, if_false]
  rw [State.rasterised, rast_updRast_same _ hd]
  rfl

omit hr hp hq hl in
/-- The quads find no wave. -/
theorem rasterised_waits (hf : d.flag 0 = false) (ho : openWave s p d die = none) :
    let u := s.rasterised die p (quadsOf (s.rast die) d die q)
    u.mem = s.mem ∧ u.rast die = (s.rast die).formed (quadsOf (s.rast die) d die q) := by
  have hm := fun z => quadsOf_mem (r := s.rast die) (d := d) (die := die) (q := q) (z := z)
  generalize quadsOf (s.rast die) d die q = l at hm
  have hr := rast_updRast_same (s := s) (Raster.formed l) hd
  cases l with
  | nil => 
    have e : s.rasterised die p [] = s.updRast die (Raster.formed []) := enterQuads_none (by rw [hr]; rfl) _
    rw [e]
    exact ⟨rfl, hr⟩
  | cons z l =>
    obtain ⟨hz, hc⟩ := hm z (List.mem_cons_self ..)
    have e : s.rasterised die p (z :: l) = (s.updRast die (Raster.formed (z :: l))).putQuads die (z :: l) :=
      enterQuads_waits (s := s.updRast die (Raster.formed (z :: l))) (by rw [hr]; rfl) (by rw [hz, draw?_ord hdraw]; exact hdraw) hf hc ho _
    rw [e]
    exact ⟨rfl, by rw [State.putQuads, rast_updRast_same _ hd, hr]; rfl⟩

omit hr hp hq hl in
/-- The one quad enters a wave. -/
theorem rasterised_enters {z : Quad} {g : Group} {k m : Nat} (hf : d.flag 0 = false) (hz : quadsOf (s.rast die) d die q = [z])
    (ho : openWave s p d die = some (g, k, m)) (hg : s.group? g.id = some g) :
    let u := s.rasterised die p (quadsOf (s.rast die) d die q)
    u.mem = s.mem ∧ (u.rast die).quads = [] ∧ (u.rast die).released = [] ∧
      u.group? g.id = some { g with pixel := g.pixel.map (fun x => (x.1, x.2.set k (m + 1))) } ∧
      ∀ t ∈ s.threads, t.grp = g.id → t.spawner = none → t.tid / 4 = 16 * k + m → quadThread z (t.tid % 4) t ∈ u.threads := by
  obtain ⟨ho', hc⟩ := quadsOf_mem (hz ▸ List.mem_singleton.2 rfl : z ∈ quadsOf (s.rast die) d die q)
  have hr := rast_updRast_same (s := s) (Raster.formed [z]) hd
  obtain ⟨em, eq, er, eg, et⟩ := enterQuad_spec (s := ((s.updRast die (Raster.formed [z])).putQuads die [z]).putQuads die []) (z := z) (k := k) (m := m) hd hg
  have e : s.rasterised die p [z] = enterQuad (((s.updRast die (Raster.formed [z])).putQuads die [z]).putQuads die []) die z g k m := by
    refine (enterQuads_enters (s := s.updRast die (Raster.formed [z])) (by rw [hr]; rfl) (by rw [ho', draw?_ord hdraw]; exact hdraw) hf hc ho _).trans (enterQuads_none ?_ _)
    rw [eq, State.putQuads, rast_updRast_same _ hd]
  rw [hz, e]
  refine ⟨em, ?_, ?_, eg, et⟩
  · rw [eq, State.putQuads, rast_updRast_same _ hd]
  · rw [er, State.putQuads, rast_updRast_same _ hd, State.putQuads, rast_updRast_same _ hd, hr]
    rfl

/-- The quads wait for a wave. -/
theorem rasterise_waits (hf : d.flag 0 = false) (ho : openWave s p d die = none) :
    let l := quadsOf (s.rast die) d die q
    ∃ u, exec (.rasterise die) s = .next u ∧ s.sameMem u ∧ (u.rast die).released = [] ∧ (u.rast die).quads = l ∧
      (l = [] → .mergeRelease die ∈ u.agenda) ∧ (l ≠ [] → ∃ k, (k, .placementWindow) ∈ u.timers) := by
  intro l
  obtain ⟨hm, hr'⟩ := rasterised_waits hd hdraw hf ho
  have e := rasterise_exec hd hr hp hq hl hdraw
  simp only [hr', Raster.formed] at e
  refine ⟨_, e, ?_⟩
  cases h : quadsOf (s.rast die) d die q with
  | nil =>
    rw [h] at hm hr'
    exact ⟨sameMem_of_mem hm, congrArg Raster.released hr', (congrArg Raster.quads hr').trans h.symm,
      fun _ => List.mem_append_right _ (List.mem_singleton.2 rfl), fun n => absurd h n⟩
  | cons z r =>
    rw [h] at hm hr'
    refine ⟨sameMem_of_mem ?_, ?_, ?_, fun n => absurd (h.symm.trans n) (by simp), fun _ => atOnce_mem ..⟩
    · exact (mem_of_ground (atOnce_ground ..)).trans hm
    · exact (congrArg Raster.released (atOnce_rast ..)).trans (congrArg Raster.released hr')
    · exact (congrArg Raster.quads (atOnce_rast ..)).trans ((congrArg Raster.quads hr').trans h.symm)

/-- The one quad enters its wave. -/
theorem rasterise_enters {z : Quad} {g : Group} {k m : Nat} (hf : d.flag 0 = false) (hz : quadsOf (s.rast die) d die q = [z])
    (ho : openWave s p d die = some (g, k, m)) (hg : s.group? g.id = some g) :
    ∃ u, exec (.rasterise die) s = .next u ∧ s.sameMem u ∧ (u.rast die).released = [] ∧ (u.rast die).quads = [] ∧
      .mergeRelease die ∈ u.agenda ∧ u.group? g.id = some { g with pixel := g.pixel.map (fun x => (x.1, x.2.set k (m + 1))) } ∧
      ∀ t ∈ s.threads, t.grp = g.id → t.spawner = none → t.tid / 4 = 16 * k + m → quadThread z (t.tid % 4) t ∈ u.threads := by
  obtain ⟨hm, hr', hl', hg', ht⟩ := rasterised_enters hd hdraw hf hz ho hg
  have e := rasterise_exec hd hr hp hq hl hdraw
  simp only [hr', List.isEmpty_nil, if_true] at e
  exact ⟨_, e, sameMem_of_mem hm, hl', hr', List.mem_append_right _ (List.mem_singleton.2 rfl), hg', ht⟩

end

/-! Static waves (R131). -/

/-- A static wave of 16 quads starts. -/
theorem staticWaveStart_full {s : State} {g : Group} {st : List Bool} {n : List Nat} {die k : Nat} (hg : s.group? g.id = some g)
    (hp : g.pixel = some (st, n)) (hs : st[k]? = some false) (hn : n[k]? = some 16) :
    ∃ u, exec (.staticWaveStart die g.id k) s = .next u ∧ s.sameMem u ∧ u.group? g.id = some { g with pixel := some (st.set k true, n) } ∧
      ∀ t ∈ s.threads, t.grp = g.id → t.spawner = none → t.tid / 64 = k → t.pixel.isSome = true → t.run = .absent → t.place ≠ .nowhere →
        { t with run := .ready, readyAt := s.clk } ∈ u.threads := by
  have e : exec (.staticWaveStart die g.id k) s = .next ((s.updGroup g.id (fun x => { x with pixel := some (st.set k true, n) })).mapThreads (fun t =>
      if t.grp == g.id && t.spawner.isNone && t.tid / 64 == k && t.pixel.isSome && t.run == .absent && t.place != .nowhere
      then { t with run := .ready, readyAt := s.clk } else t)) := by
    show Host.Outcome.next _ = _
    simp only [hg, hp, hs, hn, Option.getD_some]
    rfl
  refine ⟨_, e, fun _ => rfl, group?_updGroup (fun _ => rfl) hg, fun t ht h1 h2 h3 h4 h5 h6 => List.mem_map.2 ⟨t, ht, if_pos ?_⟩⟩
  simp [h1, h2, h3, h4, h5, h6]

end Sys2Proof.Machine
end

section
/-! PROOFS. Exports of a die (O43). -/

namespace Sys2Proof.Machine
open Sys2Proof

/-! Bytes that a unit writes to memory. -/

/-- A key of memory lies in the package, and writes to it change memory alone. -/
theorem homeWrite_mem {s : State} {k n : Nat} (h : memKey k) (hc : ∀ r ∈ s.regions, meets k n r.key r.len = false) (v : BitVec 128) (w : Option Nat) :
    homeWrite s k n v w = { s with mem := writeBytes s.mem k n v } := by
  obtain ⟨h1, h2⟩ := h
  have hf : s.regions.filter (fun r => r.whole && meets k n r.key r.len) = [] :=
    List.filter_eq_nil_iff.2 (fun r hr => by simp [hc r hr])
  rw [homeWrite, if_neg (by simp [h1]), if_neg (by omega), memStore]
  simp only [hf, List.foldl_nil]

theorem isOutside_of_memKey {k : Nat} (h : memKey k) : isOutside k = false := by
  obtain ⟨-, h⟩ := h
  have h' : socketOf k ≠ 56 ∧ socketOf k ≠ 57 := by
    unfold socketOf at h ⊢
    omega
  simp [isOutside, isPeer, isSpan, h']

/-- What is clear of 16 bytes is clear of either half. -/
theorem clearOf_half {s : State} {k : Nat} (h : s.clearOf k 16) : (∀ r ∈ s.regions, meets k 8 r.key r.len = false) ∧
    ∀ r ∈ s.regions, meets (k + 8) 8 r.key r.len = false := by
  refine ⟨fun r hr => ?_, fun r hr => ?_⟩
  all_goals
    have := h r hr
    simp only [meets, Bool.and_eq_false_iff, decide_eq_false_iff_not] at this ⊢
    omega

/-- Sixteen bytes that a unit writes at an aligned key of memory. -/
def State.write16 (s : State) (k : Nat) (l : List Byte) : State :=
  { s with mem := writeBytes (writeBytes s.mem k 8 (BitVec.ofNat 128 (leNat (l.take 8)))) (k + 8) 8 (BitVec.ofNat 128 (leNat (l.drop 8))) }

theorem writeRun_nil (p f : Nat) (s : State) (k : Nat) : writeRun p f s k [] = s := by cases f <;> rfl

/-- A run of eight bytes or more at an aligned key of memory goes on after its first eight. -/
theorem writeRun_8 {p f k : Nat} {s : State} {l : List Byte} (hl : 8 ≤ l.length) (ha : k % 8 = 0) (h : memKey k)
    (hc : ∀ r ∈ s.regions, meets k 8 r.key r.len = false) :
    writeRun p (f + 1) s k l = writeRun p f { s with mem := writeBytes s.mem k 8 (BitVec.ofNat 128 (leNat (l.take 8))) } (k + 8) (l.drop 8) := by
  have e : l.isEmpty = false := by cases l with | nil => cases hl | cons => rfl
  have z : pieceSize k l.length = 8 := if_pos ⟨ha, hl⟩
  rw [writeRun, if_neg (by simp [e]), z]
  dsimp only
  rw [homeWrite_mem h hc]

theorem unitWrite_16 {s : State} {k src p : Nat} {l : List Byte} (hl : l.length = 16) (ha : k % 16 = 0) (h : memKey k) (h' : memKey (k + 8))
    (hc : s.clearOf k 16) : unitWrite s src p k l = s.write16 k l := by
  obtain ⟨c1, c2⟩ := clearOf_half hc
  have l2 : (l.drop 8).length = 8 := by simp [hl]
  have d : (l.drop 8).drop 8 = [] := List.drop_of_length_le (by omega)
  have t : (l.drop 8).take 8 = l.drop 8 := List.take_of_length_le (by omega)
  rw [unitWrite, if_neg (by simp [isOutside_of_memKey h]), hl, writeRun_8 (by omega) (by omega) h c1, writeRun_8 (by omega) (by omega) h' (by exact c2),
    d, writeRun_nil, t, State.write16]

/-- A byte of the number of bytes. -/
theorem byte_of_leNat {b : List Byte} (hb : b.length ≤ 16) {j : Nat} {x : Byte} (h : b[j]? = some x) :
    ((BitVec.ofNat 128 (leNat b)) >>> (8 * j)).setWidth 8 = x := by
  have hl : leNat b < 2 ^ 128 := (leNat_lt b).trans_le (by rw [show 2 ^ 128 = 256 ^ 16 by decide]; exact Nat.pow_le_pow_right (by decide) hb)
  have hd : leNat b / 2 ^ (8 * j) = leNat (b.drop j) := by rw [Nat.pow_mul]; exact leNat_div b j
  obtain ⟨r, hr⟩ : ∃ r, b.drop j = x :: r := ⟨_, List.drop_eq_getElem?_toList_append.trans (by rw [h]; rfl)⟩
  apply BitVec.eq_of_toNat_eq
  rw [BitVec.toNat_setWidth, BitVec.toNat_ushiftRight, BitVec.toNat_ofNat, Nat.mod_eq_of_lt hl, Nat.shiftRight_eq_div_pow, hd, hr, leNat]
  have := x.isLt
  omega

/-- Byte j of those written. -/
theorem write16_get {s : State} {k j : Nat} {l : List Byte} (hl : l.length = 16) {x : Byte} (h : l[j]? = some x) :
    memRead (s.write16 k l).mem (k + j) = x := by
  obtain ⟨hj, -⟩ := List.getElem?_eq_some_iff.1 h
  rw [State.write16]
  by_cases h8 : j < 8
  · rw [memRead_writeBytes_other _ _ _ _ _ (by omega), memRead_writeBytes _ _ _ _ _ h8]
    exact byte_of_leNat (by simp) (by rwa [List.getElem?_take_of_lt h8])
  · obtain ⟨i, rfl⟩ := Nat.exists_eq_add_of_le (Nat.not_lt.1 h8)
    rw [← Nat.add_assoc, memRead_writeBytes _ _ _ i _ (by omega)]
    exact byte_of_leNat (by simp [hl]) (by rwa [List.getElem?_drop])

theorem write16_other (s : State) (k : Nat) (l : List Byte) : s.sameMemBut (s.write16 k l) k 16 := by
  intro a ha
  rw [State.write16, memRead_writeBytes_other _ _ _ _ _ (by omega), memRead_writeBytes_other _ _ _ _ _ (by omega)]

/-! A colour sample in four binary32 channels (R134). -/

theorem leBytes_get {n j : Nat} (h : j < n) (v : Nat) : (leBytes n v)[j]? = some (BitVec.ofNat 8 (v / 256 ^ j)) := by
  induction n generalizing j v with
  | zero => omega
  | succ n ih =>
    cases j with
    | zero => simp [leBytes]
    | succ j => rw [leBytes, List.getElem?_cons_succ, ih (by omega), pow_succ', Nat.div_div_eq_div_mul]

theorem byte_of_quad (c : BitVec 128) (j : Nat) : BitVec.ofNat 8 (c.toNat / 256 ^ j) = c.extractLsb' (8 * j) 8 := by
  apply BitVec.eq_of_toNat_eq
  rw [BitVec.toNat_ofNat, BitVec.extractLsb'_toNat, Nat.shiftRight_eq_div_pow, Nat.pow_mul]

/-- Four words put together. -/
theorem msgWords_sum (c : BitVec 128) : ∃ w0 w1 w2 w3 : Word, msgWords c = [w0, w1, w2, w3] ∧
    w0.toNat + w1.toNat * 2 ^ 32 + w2.toNat * 2 ^ 64 + w3.toNat * 2 ^ 96 = c.toNat := by
  refine ⟨_, _, _, _, rfl, ?_⟩
  have := c.isLt
  simp only [BitVec.toNat_setWidth, BitVec.extractLsb'_toNat, Nat.shiftRight_eq_div_pow]
  omega

theorem channelBits_words (c : Nat) : channelBits 6 c = (32 * c, 32) := rfl

theorem channelOut_words (c : Nat) (v : Word) : channelOut 6 c v = v.toNat := rfl

/-- Channel c of a sample of four words changed. -/
def putWord (v c : Nat) (w : Word) : Nat := v - bits v (32 * c + 32 - 1) (32 * c) * 2 ^ (32 * c) + w.toNat * 2 ^ (32 * c)

/-- The next channel above those that stand. -/
theorem putWord_above {v c : Nat} (h : v < 2 ^ (32 * c)) (w : Word) : putWord v c w = v + w.toNat * 2 ^ (32 * c) := by
  rw [putWord, bits, Nat.div_eq_of_lt h, Nat.zero_mod, Nat.zero_mul, Nat.sub_zero]

theorem testBit_15 {c : Nat} (h : c < 4) : Nat.testBit 15 c = true := by revert c; decide

/-- Four channels under a mask that has them all. -/
theorem foldl_channels (f : Nat → Nat → Nat) (v : Nat) :
    (List.range 4).foldl (fun v c => if Nat.testBit 15 c then f v c else v) v = f (f (f (f v 0) 1) 2) 3 := by
  rw [show List.range 4 = [0, 1, 2, 3] from rfl]
  simp only [List.foldl_cons, List.foldl_nil, testBit_15 (c := 0) (by decide), testBit_15 (c := 1) (by decide), testBit_15 (c := 2) (by decide),
    testBit_15 (c := 3) (by decide), if_true]

section
variable {d : Draw} (hf : d.cfmt = 6) (hm : d.field 22 1 = 15) (hb : (d.field 34 1).testBit 6 = false)
include hf hm hb

theorem colourOut_eq (l : List Word) (v : Nat) :
    colourOut d l v = (List.range 4).foldl (fun v c => if Nat.testBit 15 c then putWord v c (l[c]?.getD 0) else v) v := by
  unfold colourOut
  simp only [hf, hm, hb, channelBits_words, channelOut_words, Bool.false_eq_true, if_false]
  rfl

/-- Without blending the four channels stand as they come. -/
theorem colourOut_words (c : BitVec 128) : colourOut d (msgWords c) 0 = c.toNat := by
  obtain ⟨w0, w1, w2, w3, e, hs⟩ := msgWords_sum c
  have h0 := w0.isLt
  have h1 := w1.isLt
  have h2 := w2.isLt
  rw [colourOut_eq hf hm hb, foldl_channels (fun v i => putWord v i ((msgWords c)[i]?.getD 0)), e]
  have e0 : putWord 0 0 w0 = w0.toNat := by rw [putWord_above (by decide)]; omega
  have e1 : putWord w0.toNat 1 w1 = w0.toNat + w1.toNat * 2 ^ 32 := putWord_above (by omega) _
  have e2 : putWord (w0.toNat + w1.toNat * 2 ^ 32) 2 w2 = w0.toNat + w1.toNat * 2 ^ 32 + w2.toNat * 2 ^ 64 := putWord_above (by omega) _
  have e3 : putWord (w0.toNat + w1.toNat * 2 ^ 32 + w2.toNat * 2 ^ 64) 3 w3 = c.toNat := (putWord_above (by omega) _).trans hs
  calc putWord (putWord (putWord (putWord 0 0 w0) 1 w1) 2 w2) 3 w3 = c.toNat := by rw [e0, e1, e2, e3]

end

/-! A sample applied (R132). -/

section
variable {s s' : State} {d : Draw} {u p die x y k : Nat}

/-- A sample without tests, blending or a mask of channels is written as it comes. -/
theorem applySample_plain {z : Word} {c : BitVec 128} (h5 : d.flag 5 = false) (h6 : d.flag 6 = false) (hn : d.samples = 1) (hf : d.cfmt = 6)
    (hm : d.field 22 1 = 15) (hb : (d.field 34 1).testBit 6 = false) (ha : d.field 8 8 ≠ 0)
    (hk : targetKey s u p die (targetAddr (d.field 8 8) (d.field 16 2) 1 16 x y 0) 16 true = (s', .ok k)) :
    applySample s u p die d x y 0 z (msgWords c) = (unitWrite s' die p k (leBytes 16 c.toNat), .ok ()) := by
  have ht (v : Nat) : testSample d z v = ⟨true, none⟩ := by simp [testSample, h5, h6]
  have hd : depthSample s u p die d x y 0 = (s, .ok (targetAddr (d.field 24 8) (d.field 16 2) d.samples (formatBytes d.dfmt) x y 0, formatBytes d.dfmt, 0)) := by
    simp [depthSample, targetIf, h5, h6]
  have ha' : (d.field 8 8 != 0) = true := by simpa using ha
  have hf' : formatBytes d.cfmt = 16 := by rw [hf]; rfl
  unfold applySample
  simp only [hd, ht, hf', hn, hb, ha', hm, targetIf]
  simp [hk, colourOut_words hf hm hb]

end

/-! The turn of exports (R132). -/

section
variable {s : State} {die p : Nat} {e : Export}

/-- The exports of a thread are done with. -/
def State.endExport (s : State) (die uid : Nat) : State := s.updRast die (fun r => { r with exports := r.exports.filter (fun x => x.thread != uid) })

/-- No exports wait. -/
theorem applyExports_none (h : (s.rast die).exports = []) (n : Nat) : applyExports die p n s = s := by
  cases n with
  | zero => rfl
  | succ n =>
    unfold applyExports
    simp only [h, turnOf]

/-- The one of the exports that waits has its turn: it has a value, or its thread has ended. -/
theorem turnOf_one (h : e.value.isSome = true ∨ (s.thread? e.thread = none ∧ unstarted s e.thread = false)) : turnOf s none [e] [] = some e := by
  unfold turnOf
  rw [if_neg (by simp), if_pos]
  rcases h with h | ⟨h, h'⟩
  · simp [h]
  · simp [h, h']

variable (hx : (s.rast die).exports = [e]) (hf : (s.rast die).expFault = none)
  (ht : e.value.isSome = true ∨ (s.thread? e.thread = none ∧ unstarted s e.thread = false))
include hx hf ht

/-- What exports no sample any more is done with. -/
theorem applyExports_done (hd : die < 24) (hs : e.todo = [])
    (hb : ∀ d v, s.draw? p e.ord = some d → e.value = some v → (d.field 34 1).testBit 6 = false) (n : Nat) :
    applyExports die p (n + 1) s = s.endExport die e.thread := by
  have hn : applyExports die p n (s.endExport die e.thread) = s.endExport die e.thread := by
    refine applyExports_none ?_ n
    rw [State.endExport, rast_updRast_same _ hd]
    simp [hx]
  refine Eq.trans ?_ hn
  conv => lhs; unfold applyExports
  simp only [hx, hf, Option.map_none, turnOf_one ht, hs]
  cases hd : s.draw? p e.ord with
  | none => rfl
  | some d =>
    cases hv : e.value with
    | none => simp only [Bool.and_false, Bool.false_eq_true, if_false]; rfl
    | some v => simp only [hb d v hd hv, Bool.false_and, Bool.false_eq_true, if_false]; rfl

/-- A sample that is applied is done with. -/
theorem applyExports_applied {d : Draw} {k : Nat} {l : List Nat} {c : BitVec 128} {m : BitVec 4} {s1 : State} (hs : e.todo = k :: l)
    (hv : e.value = some (c, m)) (hdraw : s.draw? p e.ord = some d)
    (ha : applySample s (exportUnit die) p die d e.x e.y k (e.z[k]?.getD 0) (msgWords c) = (s1, .ok ())) (n : Nat) :
    applyExports die p (n + 1) s = applyExports die p n (dropSample (forgetUnit s1 (exportUnit die)) die e.thread k) := by
  conv => lhs; unfold applyExports
  simp only [hx, hf, Option.map_none, turnOf_one ht, hs, hdraw, hv, ha]

end

/-- What an event of exports comes to beside what only waits: exports are applied. -/
theorem exportApply_exec {s : State} {die p : Nat} (hr : (s.die die).inReset = false) (hp : s.partOfDie die = some p) :
    ∃ u, exec (.exportApply die) s = .next u ∧ u.stage = (applyExports die p (5 * (s.rast die).exports.length + 1) s).stage := by
  have e : ∃ l : List Draw, exec (.exportApply die) s = .next (l.foldl (fun s d => recheck s p d.stream d.slot)
      (if ((applyExports die p (5 * (s.rast die).exports.length + 1) s).rast die).busy
        then (applyExports die p (5 * (s.rast die).exports.length + 1) s).later (.rasterise die)
        else applyExports die p (5 * (s.rast die).exports.length + 1) s)) := by
    apply Exists.intro
    show Host.Outcome.next _ = _
    simp only [hp, hr, Bool.false_eq_true, if_false]
    rfl
  obtain ⟨l, e⟩ := e
  exact ⟨_, e, (foldl_keeps (fun s d => recheck_stage ..) _ _).trans (ite_keeps rfl rfl)⟩

/-- What a thread exports gives up its turn once the thread has ended. -/
theorem export_ended {s : State} {die p : Nat} {e : Export} (hd : die < 24) (hr : (s.die die).inReset = false) (hp : s.partOfDie die = some p)
    (hx : (s.rast die).exports = [e]) (hf : (s.rast die).expFault = none) (hv : e.value = none) (ht : s.thread? e.thread = none)
    (hu : unstarted s e.thread = false) : ∃ u, exec (.exportApply die) s = .next u ∧ s.sameMem u ∧ (u.rast die).exports = [] := by
  obtain ⟨u, hu', hs⟩ := exportApply_exec hr hp
  rw [applyExports_done hx hf (.inr ⟨ht, hu⟩) hd (by rw [Export.todo, hv]) (fun d v _ h => by rw [hv] at h; cases h)] at hs
  refine ⟨u, hu', sameMem_of_mem (mem_of_stage (s := s.endExport die e.thread) hs), ?_⟩
  rw [rast_of_stage hs, State.endExport, rast_updRast_same _ hd]
  simp [hx]

/-! Exports to a target of four binary32 channels. -/

theorem targetKey_sansReads (s : State) (u p die a n : Nat) (w : Bool) : (targetKey s u p die a n w).1.sansReads = s.sansReads := by
  unfold targetKey
  dsimp only
  split
  · exact passAt_sansReads ..
  · rfl

/-- The mask of the one sample. -/
theorem todo_one {e : Export} {c : BitVec 128} {m : BitVec 4} (hv : e.value = some (c, m)) (h : e.cov &&& m = 1) : e.todo = [0] := by
  rw [Export.todo, hv]
  simp only [h]
  decide

/-- Without that sample none is left. -/
theorem todo_dropped {e : Export} {c : BitVec 128} {m : BitVec 4} (hv : e.value = some (c, m)) (h : e.cov &&& m = 1) :
    Export.todo { e with cov := e.cov &&& ~~~(1#4 <<< 0) } = [] := by
  have h' : (e.cov &&& ~~~(1#4 <<< 0)) &&& m = 0 := by
    rw [BitVec.and_assoc, BitVec.and_comm _ m, ← BitVec.and_assoc, h]
    decide
  rw [Export.todo]
  simp only [hv, h']
  decide

section
variable {s s1 : State} {die p k : Nat} {e : Export} {d : Draw} {c : BitVec 128} {m : BitVec 4} (hd : die < 24) (hx : (s.rast die).exports = [e])
  (hf : (s.rast die).expFault = none) (hv : e.value = some (c, m)) (hm : e.cov &&& m = 1) (hdraw : s.draw? p e.ord = some d)
  (hb : (d.field 34 1).testBit 6 = false)
include hd hx hf hv hm hdraw hb

/-- The one sample that a thread exports is applied, and the entry done with. -/
theorem export_applied (ha : applySample s (exportUnit die) p die d e.x e.y 0 (e.z[0]?.getD 0) (msgWords c) = (s1, .ok ())) (hr : s1.dies = s.dies)
    (hq : s1.parts = s.parts) (n : Nat) : let u := applyExports die p (n + 2) s
    u.mem = s1.mem ∧ (u.rast die).exports = [] := by
  have hr1 : (dropSample (forgetUnit s1 (exportUnit die)) die e.thread 0).rast die =
      { s.rast die with exports := [{ e with cov := e.cov &&& ~~~(1#4 <<< 0) }] } := by
    have hs : (forgetUnit s1 (exportUnit die)).rast die = s.rast die := congrArg (fun v : Vector Die 24 => (v[die]?.getD Die.reset).rast) hr
    rw [dropSample, updExport, rast_updRast_same _ hd, hs, hx]
    simp
  have hd1 : (dropSample (forgetUnit s1 (exportUnit die)) die e.thread 0).draw? p e.ord = some d := by
    rw [← hdraw]
    exact congrArg (fun l : List Part => (l.find? (fun q => q.id == p)).bind (fun q => q.draws.find? (fun d => d.ord == e.ord))) hq
  have h2 := applyExports_done (s := dropSample (forgetUnit s1 (exportUnit die)) die e.thread 0) (p := p) (e := { e with cov := e.cov &&& ~~~(1#4 <<< 0) })
    (by rw [hr1]) (by rw [hr1]; exact hf) (.inl (by simp [hv])) hd (todo_dropped hv hm) (fun d' v h _ => by rw [hd1] at h; cases h; exact hb) n
  rw [applyExports_applied hx hf (.inl (by simp [hv])) (todo_one hv hm) hv hdraw ha, h2]
  refine ⟨rfl, ?_⟩
  rw [State.endExport, rast_updRast_same _ hd, hr1]
  simp

/-- What a thread exports to a target of four binary32 channels, without tests, writes its sample. -/
theorem export_writes (hr : (s.die die).inReset = false) (hp : s.partOfDie die = some p) (h5 : d.flag 5 = false) (h6 : d.flag 6 = false)
    (hn : d.samples = 1) (hc : d.cfmt = 6) (hcm : d.field 22 1 = 15) (ha : d.field 8 8 ≠ 0)
    (hk : (targetKey s (exportUnit die) p die (targetAddr (d.field 8 8) (d.field 16 2) 1 16 e.x e.y 0) 16 true).2 = .ok k) (hk16 : k % 16 = 0)
    (m0 : memKey k) (m8 : memKey (k + 8)) (hcl : s.clearOf k 16) :
    ∃ u, exec (.exportApply die) s = .next u ∧ (u.rast die).exports = [] ∧ s.sameMemBut u k 16 ∧
      ∀ j, j < 16 → memRead u.mem (k + j) = c.extractLsb' (8 * j) 8 := by
  obtain ⟨s', h'⟩ : ∃ s', targetKey s (exportUnit die) p die (targetAddr (d.field 8 8) (d.field 16 2) 1 16 e.x e.y 0) 16 true = (s', .ok k) :=
    ⟨_, Prod.ext rfl hk⟩
  have hs' : s'.sansReads = s.sansReads := sansReads_of_pair h' (targetKey_sansReads ..)
  have hm' : s'.mem = s.mem := (congrArg State.mem hs' :)
  have hg' : s'.regions = s.regions := (congrArg State.regions hs' :)
  have hw := unitWrite_16 (src := die) (p := p) (leBytes_length 16 c.toNat) hk16 m0 m8
    (show s'.clearOf k 16 from by rw [State.clearOf, hg']; exact hcl)
  have happ := applySample_plain (z := e.z[0]?.getD 0) (c := c) h5 h6 hn hc hcm hb ha h'
  rw [hw] at happ
  obtain ⟨hmem, hex⟩ := export_applied hd hx hf hv hm hdraw hb happ (congrArg State.dies hs' :) (congrArg State.parts hs' :) 4
  obtain ⟨u, hu, hst⟩ := exportApply_exec hr hp
  rw [hx] at hst
  have hum : u.mem = (s'.write16 k (leBytes 16 c.toNat)).mem := (mem_of_stage hst).trans hmem
  refine ⟨u, hu, (congrArg Raster.exports (rast_of_stage hst die)).trans hex, fun a hout => ?_, fun j hj => ?_⟩
  · rw [hum, write16_other s' k _ a hout, hm']
  · rw [hum, write16_get (leBytes_length ..) (leBytes_get hj _), byte_of_quad]

end

/-- Settles O43: the merge's release, the quads' way into a wave, a wave's start, and exports at their turn. -/
theorem rasterCourse : Obligations.RasterCourse := by
  intro s die p hd hr hp r
  refine ⟨fun x q hq hl hx => ⟨fun hb hc hg => mergeRelease_releases hd hr hp hq hl hx hb hc hg, fun hb => ?_⟩, fun q d hq hl hdraw hf => ?_,
    fun g st n k hg hpx hs hn => staticWaveStart_full hg hpx hs hn, fun e hx hf => ⟨fun hv ht hu => export_ended hd hr hp hx hf hv ht hu, ?_⟩⟩
  · exact ⟨_, mergeRelease_blocked hr hp hq hl hx hb, sameMem_of_mem (mem_of_stage (drawEnd_stage ..)), rast_of_stage (drawEnd_stage ..) _⟩
  · exact ⟨rasterise_waits hd hr hp hq hl hdraw hf, fun z g k m hz ho hg => rasterise_enters hd hr hp hq hl hdraw hf hz ho hg⟩
  · intro d c m k hv hm hdraw h5 h6 hn hc hcm hb ha hk hk16 m0 m8 hcl
    exact export_writes hd hx hf hv hm hdraw hb hr hp h5 h6 hn hc hcm ha hk hk16 m0 m8 hcl

end Sys2Proof.Machine
end

section
/-! PROOFS. What a texture read sees does not depend on how the reading thread waits (O35). -/

namespace Sys2Proof.Machine
open Sys2Proof

/-! Operations that act on the state and not on the issuing thread commute with its replacement. -/

/-- A fold of an operation that commutes with the replacement of the issuing thread. -/
theorem foldl_put {α : Type} {f : State → α → State} {t : Thread} (h : ∀ s x, f (s.put t) x = (f s x).put t) (l : List α) (s : State) :
    l.foldl f (s.put t) = (l.foldl f s).put t := by
  induction l generalizing s with
  | nil => rfl
  | cons x l ih => simp only [List.foldl_cons, h, ih]

variable (s : State) (t : Thread)

theorem dieEvent_put (die block ev inst n : Nat) : dieEvent (s.put t) die block ev inst n = (dieEvent s die block ev inst n).put t := by
  unfold dieEvent
  rw [apply_ite (State.put · t)]
  rfl

theorem clusterEvent_put (c block ev n : Nat) : clusterEvent (s.put t) c block ev n = (clusterEvent s c block ev n).put t := by
  unfold clusterEvent
  rw [apply_ite (State.put · t), dieEvent_put]

theorem l2Touch_put (k : Nat) (e : DWord) : l2Touch (s.put t) k e = (l2Touch s k e).put t := by
  unfold l2Touch
  simp only [dieEvent_put]
  repeat' rw [apply_ite (State.put · t)]
  rfl

theorem memStore_put (k n : Nat) (v : BitVec 128) : memStore (s.put t) k n v = (memStore s k n v).put t :=
  foldl_put (fun _ _ => rfl) _ ({ s with mem := writeBytes s.mem k n v } : State)

theorem writeBackBytes_put (l : L1Line) (m : BitVec 128) : writeBackBytes (s.put t) l m = (writeBackBytes s l m).put t := by
  unfold writeBackBytes
  rw [apply_ite (State.put · t), l2Touch_put, foldl_put]
  intro s i
  rw [apply_ite (State.put · t), memStore_put]

theorem l1Evict_put (c : Nat) : l1Evict (s.put t) c = (l1Evict s c).put t := by
  unfold l1Evict
  simp only [State.put_l1]
  cases (Table.at s.l1 c []).drop 16384 with
  | nil => rfl
  | cons l r => exact writeBackBytes_put ({ s with l1 := _ } : State) t l l.dirty

theorem l1Put_put (c : Nat) (l : L1Line) : l1Put (s.put t) c l = (l1Put s c l).put t := by
  unfold l1Put
  rw [← l1Evict_put]
  rfl

theorem l1Read_put (c p k n : Nat) (e : DWord) : l1Read (s.put t) c p k n e = ((l1Read s c p k n e).1, (l1Read s c p k n e).2.put t) := by
  have hm : (if l1Holds (s.put t) c k n then s.put t else l1Miss (s.put t) c p k e) = (if l1Holds s c k n then s else l1Miss s c p k e).put t := by
    rw [apply_ite (State.put · t)]
    unfold l1Miss
    dsimp only
    rw [clusterEvent_put, l2Touch_put]
    exact congrArg (ite _ _) (l1Put_put ..)
  unfold l1Read
  rw [hm]
  exact Prod.ext rfl (l1Put_put ..)

theorem tlbUse_put (c p v : Nat) : tlbUse (s.put t) c p v = (tlbUse s c p v).put t := by
  unfold tlbUse
  rw [clusterEvent_put]
  split
  · next h => simp only [show clusterTlb s c p v = _ from h]
  · next h =>
    simp only [show clusterTlb s c p v = _ from h]
    split
    · next h => simp only [show (s.die (coreDie c)).tlb.find? _ = _ from h]; rfl
    · next h => simp only [show (s.die (coreDie c)).tlb.find? _ = _ from h]

/-! Reads of a thread that waits in its quad, and of the same thread ready to execute. -/

/-- t is the thread w, which waits at a quad instruction, made ready. -/
def Thread.woken (w t : Thread) : Prop := (∃ op d a b, w.run = .waiting (.quad op d a b)) ∧ t = { w with run := .ready }

variable {s t}

theorem woken_of_sansTex {u : State} (h : s.th.woken t) (e : u.sansTex = s.sansTex) : u.th.woken t := by
  rwa [th_of_sansTex e]

theorem live_woken {w : Thread} (h : w.woken t) : t.live = w.live := by
  obtain ⟨⟨op, d, a, b, hr⟩, rfl⟩ := h
  unfold Thread.live
  rw [hr]
  rfl

theorem spawnOut_woken (h : s.th.woken t) (u : Nat) : (s.put t).spawnOut u = s.spawnOut u := by
  have hl := live_woken h
  have hs : t.spawner = s.th.spawner := by rw [h.2]
  simp only [State.spawnOut, State.selThreads, State.put_th, State.put_threads, State.put_flights, List.filter_cons, hl, hs]
  split <;> rfl

/-- Contexts are shown alike. -/
theorem contextImage_put (h : s.th.woken t) (x : Thread) : contextImage (s.put t) x = contextImage s x := by
  unfold contextImage
  rw [spawnOut_woken h]
  rfl

/-- The two threads have one image: neither waits for anything that the image names. -/
theorem contextImage_woken (h : s.th.woken t) : contextImage s t = contextImage s s.th := by
  obtain ⟨⟨op, d, a, b, hr⟩, rfl⟩ := h
  unfold contextImage
  rw [hr]
  rfl

/-- The context that CTX shows of a die, as its bytes. -/
theorem ctxThread_put (h : s.th.woken t) (die : Nat) :
    ((s.put t).ctxThread die).map (contextImage (s.put t)) = (s.ctxThread die).map (contextImage s) := by
  have hf : ∀ (p : Thread → Bool), p t = p s.th →
      ((s.put t).findThread p).map (contextImage s) = (s.findThread p).map (contextImage s) := by
    intro p hp
    simp only [State.findThread, State.put_th, State.put_threads, hp]
    split
    · exact congrArg some (contextImage_woken h)
    · rfl
  rw [funext (contextImage_put h)]
  refine hf _ ?_
  rw [live_woken h]
  obtain ⟨⟨op, d, a, b, hr⟩, rfl⟩ := h
  rw [hr]
  rfl

theorem ctlRead_put (h : s.th.woken t) (die off : Nat) : ctlRead (s.put t) die off = ctlRead s die off := by
  have hc := ctxThread_put h die
  unfold ctlRead
  cases e : (s.put t).ctxThread die with
  | none =>
    cases e' : s.ctxThread die with
    | none => rfl
    | some x => simp [e, e'] at hc
  | some y =>
    cases e' : s.ctxThread die with
    | none => simp [e, e'] at hc
    | some x =>
      simp only [e, e', Option.map_some, Option.some.injEq] at hc
      simp only [hc]
      rfl

theorem homeRead_put (h : s.th.woken t) (k n : Nat) : homeRead (s.put t) k n = ((homeRead s k n).1, (homeRead s k n).2.put t) := by
  unfold homeRead ctlReadBytes ioRead
  simp only [ctlRead_put h]
  split
  · rfl
  · split
    · repeat' split
      all_goals rfl
    · rfl

theorem readRun_put (f : Nat) {s : State} {t : Thread} (h : s.th.woken t) (k n : Nat) :
    readRun f (s.put t) k n = ((readRun f s k n).1.put t, (readRun f s k n).2) := by
  induction f generalizing s k n with
  | zero => rfl
  | succ f ih =>
    unfold readRun
    split
    · rfl
    · dsimp only
      rw [homeRead_put h]
      dsimp only
      rw [ih (woken_of_sansTex h (homeRead_sansTex ..))]

theorem unitFetch_put (h : s.th.woken t) (u d k n : Nat) : unitFetch (s.put t) u d k n = ((unitFetch s u d k n).1.put t, (unitFetch s u d k n).2) := by
  unfold unitFetch
  rw [show (s.put t).unitRead? u 0 k n = s.unitRead? u 0 k n from rfl]
  cases s.unitRead? u 0 k n with
  | some r => cases e : r.data <;> simp only [e]
  | none =>
    rw [show homeHeld (s.put t) d k = homeHeld s d k from rfl, readRun_put _ h]
    dsimp only
    split <;> rfl

theorem useTlb_put (h : s.th.woken t) (a : DWord) : useTlb (s.put t) a = (useTlb s a).put t := by
  unfold useTlb
  rw [apply_ite (State.put · t), ← tlbUse_put, h.2]
  rfl

theorem texRead_put (h : s.th.woken t) (a n : Nat) : texRead (s.put t) a n = ((texRead s a n).1.put t, (texRead s a n).2) := by
  have hg : agentOf t 0 = agentOf s.th 0 := by rw [h.2]; rfl
  have hu : (useTlb s (dw a)).th.woken t := woken_of_sansTex h (useTlb_sansTex ..)
  have h1 : t.uid = s.th.uid := by rw [h.2]
  have h2 : t.core = s.th.core := by rw [h.2]; rfl
  have h3 : t.part = s.th.part := by rw [h.2]
  have h4 : t.die = s.th.die := by rw [h.2]; rfl
  unfold texRead
  dsimp only [State.put_th]
  rw [h1, h2, h3, h4, hg, show checkAddr (s.put t) = checkAddr s from rfl, show (s.put t).badWalks = s.badWalks from rfl, useTlb_put h]
  cases checkAddr s (agentOf s.th 0) (dw a) n needR false with
  | bad c => rfl
  | miss v => rfl
  | ok l =>
    dsimp only
    have ht : (l2Touch (useTlb s (dw a)) l.key l.pte).th.woken t := woken_of_sansTex hu (sansTex_of_sansCache (l2Touch_sansCache ..))
    rw [l1Read_put, l2Touch_put, homeRead_put ht, unitFetch_put hu]
    generalize useTlb s (dw a) = u
    rw [show l1Holds (u.put t) = l1Holds u from rfl, show homeHeld (u.put t) = homeHeld u from rfl,
      show (u.put t).unitRead? = u.unitRead? from rfl, show hbmExtra (u.put t) = hbmExtra u from rfl]
    split
    · rfl
    · split
      · rcases unitFetch u s.th.uid s.th.die l.key n with ⟨v, e | w⟩ <;> rfl
      · split <;> rfl

/-! The reads of a sampling. -/

theorem readSampler_put (h : s.th.woken t) (a : Nat) : readSampler (s.put t) a = ((readSampler s a).1.put t, (readSampler s a).2) := by
  unfold readSampler
  rw [texRead_put h]
  split
  · rfl
  · split
    · rfl
    · rcases hr : texRead s a 16 with ⟨v, e | w⟩
      · rfl
      · dsimp only
        rw [texRead_put (woken_of_sansTex h (sansTex_of_pair hr (texRead_sansTex ..)))]
        rcases texRead v (a + 16) 16 with ⟨v', e | w'⟩ <;> rfl

theorem readSampler_sansTex (s : State) (a : Nat) : (readSampler s a).1.sansTex = s.sansTex := by
  unfold readSampler
  split
  · rfl
  · split
    · rfl
    · split
      · next e => exact sansTex_of_pair e (texRead_sansTex ..)
      · next e =>
        have h := sansTex_of_pair e (texRead_sansTex ..)
        split
        all_goals
          next e => exact (sansTex_of_pair e (texRead_sansTex ..)).trans h

theorem addTexel_put (h : s.th.woken t) (d l : Nat) (i j : Int) (w : Rat) (x : TexAcc) :
    addTexel (s.put t) d l i j w x = ((addTexel s d l i j w x).1.put t, (addTexel s d l i j w x).2) := by
  unfold addTexel
  split
  · dsimp only
    rw [texRead_put h]
    rcases texRead s _ _ with ⟨v, e | w⟩ <;> rfl
  · rfl

theorem addTexel_sansTex (s : State) (d l : Nat) (i j : Int) (w : Rat) (x : TexAcc) : (addTexel s d l i j w x).1.sansTex = s.sansTex := by
  unfold addTexel
  split
  · dsimp only
    split
    all_goals
      next e => exact sansTex_of_pair e (texRead_sansTex ..)
  · rfl

theorem addTexels_put (d l : Nat) (q : List (Int × Int × Rat)) {s : State} {t : Thread} (h : s.th.woken t) (x : TexAcc) :
    addTexels d l q (s.put t) x = ((addTexels d l q s x).1.put t, (addTexels d l q s x).2) := by
  induction q generalizing s x with
  | nil => rfl
  | cons p q ih =>
    obtain ⟨i, j, w⟩ := p
    unfold addTexels
    rw [addTexel_put h]
    rcases hr : addTexel s d l i j w x with ⟨v, e | y⟩
    · rfl
    · exact ih (woken_of_sansTex h (sansTex_of_pair hr (addTexel_sansTex ..))) y

theorem addTexels_sansTex (d l : Nat) (q : List (Int × Int × Rat)) (s : State) (x : TexAcc) : (addTexels d l q s x).1.sansTex = s.sansTex := by
  induction q generalizing s x with
  | nil => rfl
  | cons p q ih =>
    unfold addTexels
    split
    · next e => exact sansTex_of_pair e (addTexel_sansTex ..)
    · next e => exact (ih ..).trans (sansTex_of_pair e (addTexel_sansTex ..))

theorem addLevels_put (d : Nat) (q : List (Nat × List (Int × Int × Rat))) {s : State} {t : Thread} (h : s.th.woken t) (x : TexAcc) :
    addLevels d q (s.put t) x = ((addLevels d q s x).1.put t, (addLevels d q s x).2) := by
  induction q generalizing s x with
  | nil => rfl
  | cons p q ih =>
    unfold addLevels
    rw [addTexels_put d p.1 p.2 h]
    rcases hr : addTexels d p.1 p.2 s x with ⟨v, e | y⟩
    · rfl
    · exact ih (woken_of_sansTex h (sansTex_of_pair hr (addTexels_sansTex ..))) y

theorem addLevels_sansTex (d : Nat) (q : List (Nat × List (Int × Int × Rat))) (s : State) (x : TexAcc) : (addLevels d q s x).1.sansTex = s.sansTex := by
  induction q generalizing s x with
  | nil => rfl
  | cons p q ih =>
    unfold addLevels
    split
    · next e => exact sansTex_of_pair e (addTexels_sansTex ..)
    · next e => exact (ih ..).trans (sansTex_of_pair e (addTexels_sansTex ..))

/-- What a sampling of a thread reads does not depend on whether it waits in its quad. -/
theorem sampleSum_put (h : s.th.woken t) (a : Nat) (u v : Rat) (pick : Nat → Int × Nat × Rat × Rat) :
    sampleSum (s.put t) a u v pick = ((sampleSum s a u v pick).1.put t, (sampleSum s a u v pick).2) := by
  unfold sampleSum
  rw [readSampler_put h]
  rcases hr : readSampler s a with ⟨w, e | d⟩
  · rfl
  · exact addLevels_put _ _ (woken_of_sansTex h (sansTex_of_pair hr (readSampler_sansTex ..))) _

end Sys2Proof.Machine
end

section
/-! PROOFS. Textures (O35). -/

namespace Sys2Proof.Machine
open Sys2Proof

/-! Four registers written. -/

theorem wrs_alike (t : Thread) (n : Nat) (l : List Word) : t.alike (t.wrs n l) := by
  induction l generalizing t n with
  | nil => exact Thread.alike_refl t
  | cons v l ih => exact Thread.alike_trans (wr_alike t n v) (ih ..)

/-- Registers outside the list stay. -/
theorem wrs_other {t : Thread} {n k : Nat} {l : List Word} (h : k ∉ List.range' n l.length) : (t.wrs n l).g[k]? = t.g[k]? := by
  induction l generalizing t n with
  | nil => rfl
  | cons v l ih =>
    rw [List.length_cons, List.range'_succ, List.mem_cons, not_or] at h
    exact (ih h.2).trans (wr_other h.1)

/-- A register of the list holds its word. -/
theorem wrs_get {t : Thread} {n k : Nat} {l : List Word} {v : Word} (h : l[k]? = some v) (hn : n + k < 128) (b : n + k ∉ t.busy) :
    (t.wrs n l).g[n + k]? = some v := by
  induction l generalizing t n k with
  | nil => simp at h
  | cons w l ih =>
    cases k with
    | zero =>
      simp only [List.getElem?_cons_zero, Option.some.injEq] at h
      subst h
      show ((t.wr n w).wrs (n + 1) l).g[n]? = _
      rw [wrs_other (by simp [List.mem_range'_1])]
      exact wr_get hn b
    | succ k =>
      rw [← Nat.add_assoc, Nat.add_right_comm] at hn b ⊢
      exact ih (by simpa using h) hn b

theorem wrs_p (t : Thread) (n : Nat) (l : List Word) : (t.wrs n l).p = t.p := by
  induction l generalizing t n with
  | nil => rfl
  | cons v l ih => exact ih ..

theorem wrs_idx (t : Thread) (n : Nat) (l : List Word) : (t.wrs n l).idx = t.idx := by
  induction l generalizing t n with
  | nil => rfl
  | cons v l ih => exact ih ..

theorem wrs_x (t : Thread) (n : Nat) (l : List Word) : (t.wrs n l).x = t.x := by
  induction l generalizing t n with
  | nil => rfl
  | cons v l ih => exact ih ..

/-- The end of an instruction that writes up to four registers: its context is framed, and the registers hold the words. -/
theorem finish_wrs (s : State) {t : Thread} (e : s.th = t) {nd : Nat} {l : List Word} (hl : l.length ≤ 4) (codes : List Code) (n : Nat) :
    let u := (finish s (t.wrs nd l) codes [] 2 n).th
    t.frame u (List.range' nd 4) [] codes [] [] ∧ u.run = .ready ∧ u.pc = t.pc + t.parcels 2 ∧ ∀ k v, l[k]? = some v → u.gets t (nd + k) v := by
  subst e
  obtain ⟨-, -, hrx, hpc, -⟩ := Thread.alike_trans (wrs_alike s.th nd l) (advances_alike _ (usedIdx s.th codes []))
  refine ⟨frame_done (frame_advances (wrs_alike ..).1 (fun k hk => wrs_other fun h => hk ?_) (fun k _ => by rw [Thread.rdP, wrs_p]; rfl)
    (fun j _ => by rw [Thread.rdI, wrs_idx]; rfl) (fun n _ => by rw [Thread.rdX, wrs_x]; rfl) (fun _ h => absurd h List.not_mem_nil) []) .., rfl, ?_, ?_⟩
  · rw [List.mem_range'_1] at h ⊢
    omega
  · show (advances (s.th.wrs nd l) _).pc + _ = _
    rw [Thread.parcels, hpc, hrx]
  · intro k v h hn hb
    show (advances (s.th.wrs nd l) _).g[nd + k]? = _
    rw [advances_g, wrs_get h hn hb]

theorem uid_of_frame {t u : Thread} {ds ps : List Nat} {codes : List Code} {js ovr : List Nat} (h : t.frame u ds ps codes js ovr) : u.uid = t.uid := by
  obtain ⟨-, -, -, -, -, hs⟩ := h
  obtain ⟨-, -, -, -, -, -, -, -, -, -, -, -, -, hu, -⟩ := hs
  exact hu

/-! fetch (R399). -/

/-- A word of a texel of four binary32 components, as it stands. -/
theorem colourIn_floats {w k : Nat} (h : k < 4) : (colourIn 6 w)[k]? = some (BitVec.ofNat 32 (w / 2 ^ (32 * k))) := by
  have hb (hi lo : Nat) (e : hi + 1 - lo = 32) : BitVec.ofNat 32 (bits w hi lo) = BitVec.ofNat 32 (w / 2 ^ lo) := by
    rw [bits, e]
    exact BitVec.eq_of_toNat_eq (by simp)
  match k, h with
  | 0, _ => exact congrArg some (hb 31 0 rfl)
  | 1, _ => exact congrArg some (hb 63 32 rfl)
  | 2, _ => exact congrArg some (hb 95 64 rfl)
  | 3, _ => exact congrArg some (hb 127 96 rfl)

/-- R399, R137, R134. -/
theorem textureFetch : Says.TextureFetch := by
  intro s s1 s2 d a b na nb nd v w lat hw ha hb hd hr i j l ends
  have h1 : s1.th = s.th := th_of_sansTex (sansTex_of_pair hr (readSampler_sansTex ..))
  have he : exec (.fetch d a b) s = _ := congrArg Host.Outcome.next (onEngine_same hw)
  rw [ops3_ok (free_nil _) ha hb hd] at he
  simp only [hr] at he
  refine ⟨fun h => ?_, fun hl hi hj hiw hjh hf ht => ?_⟩
  · rw [if_pos h, h1] at he
    obtain ⟨hfr, hrun, hpc, hg⟩ := finish_wrs (forgetUnit s1 s.th.uid) h1 (nd := nd) (l := [0, 0, 0, 0]) (by simp) [a, b, d] 4
    refine ⟨_, he, hfr, hrun, hpc, fun k hk => hg k 0 ?_⟩
    match k, hk with
    | 0, _ | 1, _ | 2, _ | 3, _ => rfl
  · have h2 : s2.th = s.th := (th_of_sansTex (sansTex_of_pair ht (texRead_sansTex ..))).trans h1
    have hn : texelBytes v = 16 := by rw [texelBytes, hf]; rfl
    rw [if_neg (show ¬(_ ∨ i < 0 ∨ j < 0 ∨ (levelW v l : Int) ≤ i ∨ (levelH v l : Int) ≤ j) by omega), hn, hf] at he
    dsimp only [i, j, l] at ht
    simp only [ht, h2] at he
    obtain ⟨hfr, hrun, hpc, hg⟩ := finish_wrs (forgetUnit s2 s.th.uid) h2 (nd := nd) (l := colourIn 6 w) (by simp [colourIn]) [a, b, d] (lat + 4)
    exact ⟨_, he, hfr, hrun, hpc, fun k hk => hg k _ (colourIn_floats hk)⟩

/-! The sum of a sampling and its result (R139). -/

theorem add_length (x : TexAcc) (w : Rat) (l : List Word) (n : Nat) : (x.add w l n).sum.length ≤ x.sum.length := by
  simp [TexAcc.add]

theorem addTexels_length {d l : Nat} {q : List (Int × Int × Rat)} {s u : State} {x y : TexAcc} (h : addTexels d l q s x = (u, .ok y)) :
    y.sum.length ≤ x.sum.length := by
  induction q generalizing s x with
  | nil => cases h; exact le_rfl
  | cons p q ih =>
    unfold addTexels at h
    split at h
    · cases h
    · next z e =>
      refine (ih h).trans ?_
      unfold addTexel at e
      split at e
      · dsimp only at e
        split at e <;> cases e
        exact add_length ..
      · cases e; exact le_rfl

theorem addLevels_length {d : Nat} {q : List (Nat × List (Int × Int × Rat))} {s u : State} {x y : TexAcc}
    (h : addLevels d q s x = (u, .ok y)) : y.sum.length ≤ x.sum.length := by
  induction q generalizing s x with
  | nil => cases h; exact le_rfl
  | cons p q ih =>
    unfold addLevels at h
    split at h
    · cases h
    · next e => exact (ih h).trans (addTexels_length e)

theorem texResult_length (s : State) (x : TexAcc) : (texResult s x).2.length ≤ x.sum.length := by
  simp [texResult]

/-- A component whose texels were finite is its sum rounded. -/
theorem texResult_finite {x : TexAcc} {k : Nat} {q : Rat} (hs : x.sum[k]? = some q) (ho : x.odd[k]? = some (false, false, false, false)) :
    (texResult s x).2[k]? = some (rneRat q) := by
  simp [texResult, List.getElem?_zip_eq_some, hs, ho]

/-- One texel of weight one, of which a component is finite: the sum is its value. -/
theorem zero_add_finite {l : List Word} {w : Word} {k n : Nat} {q : Rat} (hk : k < 4) (hw : l[k]? = some w) (hq : ratOf w = some q) :
    (TexAcc.zero.add 1 l n).sum[k]? = some q ∧ (TexAcc.zero.add 1 l n).odd[k]? = some (false, false, false, false) := by
  have hz : TexAcc.zero.sum[k]? = some 0 ∧ TexAcc.zero.odd[k]? = some (false, false, false, false) := by
    match k, hk with
    | 0, _ | 1, _ | 2, _ | 3, _ => exact ⟨rfl, rfl⟩
  obtain ⟨hs, ho⟩ := hz
  have hu : ∃ s m e, unpack f32 w.toNat = .fin s m e := by
    unfold ratOf at hq
    split at hq
    · next e => exact ⟨_, _, _, e⟩
    · cases hq
  obtain ⟨_, _, _, hu⟩ := hu
  constructor
  · have hz : (TexAcc.zero.sum.zip l)[k]? = some (0, w) := List.getElem?_zip_eq_some.2 ⟨hs, hw⟩
    simp [TexAcc.add, hz, hq]
  · have hz : (TexAcc.zero.odd.zip l)[k]? = some ((false, false, false, false), w) := List.getElem?_zip_eq_some.2 ⟨ho, hw⟩
    simp [TexAcc.add, hz, hu]

/-! Nearest magnification with clamped coordinates (R138, R139). -/

/-- An index that is clamped. -/
theorem wrapIndex_clamp (i : Int) {n : Nat} (h : 1 ≤ n) : wrapIndex 2 i n = some (max 0 (min i (n - 1))).toNat := by
  simp only [wrapIndex, Option.some.injEq]
  split
  · omega
  · split <;> omega

theorem one_le_level (v l : Nat) : 1 ≤ levelW v l ∧ 1 ≤ levelH v l := ⟨Nat.le_max_left .., Nat.le_max_left ..⟩

/-- Nearest magnification with one probe has one tap, at the floor of the scaled coordinates of level 0, with weight one. -/
theorem allTaps_nearest {v : Nat} {lod : Int} (h : lod ≤ 0) (hb : v.testBit 213 = false) (pu pv du dv : Rat) :
    allTaps v pu pv lod 1 du dv = [(0, [(floorRat (pu * (levelW v 0 : Rat)), floorRat (pv * (levelH v 0 : Rat)), 1)])] := by
  simp [allTaps, levelsOf, h, hb, probesOf, filterTaps]

/-- A sampling of one tap of weight one reads one texel. -/
theorem addLevels_one {s1 s2 u : State} {v : Nat} {i j : Int} {x : TexAcc} {t lat : Nat} (hi : bits v 217 216 = 2) (hj : bits v 219 218 = 2)
    (hl : addLevels v [(0, [(i, j, 1)])] s1 TexAcc.zero = (s2, .ok x))
    (ht : texRead s1 (bits v 63 0 + ((max 0 (min j (levelH v 0 - 1))).toNat * levelW v 0 + (max 0 (min i (levelW v 0 - 1))).toNat) *
      texelBytes v) (texelBytes v) = (u, .ok (t, lat))) : x = TexAcc.zero.add 1 (colourIn (bits v 199 192) t) lat := by
  obtain ⟨hw, hh⟩ := one_le_level v 0
  simp only [addLevels, addTexels, addTexel, hi, hj, wrapIndex_clamp _ hw, wrapIndex_clamp _ hh, levelBase, ht, Prod.mk.injEq, Except.ok.injEq] at hl
  exact hl.2.symm

/-- A component of a sample of one finite texel is its value rounded. -/
theorem texResult_one {s : State} {x : TexAcc} {l : List Word} {n k : Nat} {q : ℚ} (e : x = TexAcc.zero.add 1 l n) (hk : k < 4)
    (hq : (l[k]?).bind f32Val = some q) : ∃ r, (texResult s x).2[k]? = some r ∧ f32Rounds 0 q r := by
  obtain ⟨w, hw, hq⟩ := Option.bind_eq_some_iff.1 hq
  obtain ⟨hs, ho⟩ := zero_add_finite (n := n) hk hw ((ratOf_eq_f32Val w).trans hq)
  exact ⟨_, e ▸ texResult_finite hs ho, rneRat_rounds hq⟩

/-! Samplings of the issuing thread (R398). -/

/-- A sampling that can read its descriptor and texels completes with their result. -/
theorem sampleAt_ok {s s2 : State} {nd addr : Nat} {codes : List Code} {pu pv : Rat} {pick : Nat → Int × Nat × Rat × Rat} {x : TexAcc}
    (h : sampleSum s addr pu pv pick = (s2, .ok x)) : sampleAt s nd codes addr pu pv pick =
      finish (forgetUnit (texResult s2 x).1 s2.th.uid) (s2.th.wrs nd (texResult s2 x).2) codes [] 2 (x.lat.getD 0 + 16) := by
  unfold sampleAt
  rw [h]
  rfl

theorem sampleSum_ok {s s1 s2 : State} {addr v : Nat} {pu pv : Rat} {pick : Nat → Int × Nat × Rat × Rat} {x : TexAcc}
    (hr : readSampler s addr = (s1, .ok v))
    (hl : addLevels v (allTaps v pu pv (pick v).1 (pick v).2.1 (pick v).2.2.1 (pick v).2.2.2) s1 TexAcc.zero = (s2, .ok x)) :
    sampleSum s addr pu pv pick = (s2, .ok x) := by
  rw [sampleSum, hr]
  exact hl

/-- What a sampling that can read its descriptor and texels leaves: four registers with its result. -/
theorem sampleAt_ends {s s1 s2 : State} {nd addr v : Nat} {codes : List Code} {pu pv : Rat} {pick : Nat → Int × Nat × Rat × Rat} {x : TexAcc}
    (hr : readSampler s addr = (s1, .ok v))
    (hl : addLevels v (allTaps v pu pv (pick v).1 (pick v).2.1 (pick v).2.2.1 (pick v).2.2.2) s1 TexAcc.zero = (s2, .ok x)) :
    let u := (sampleAt s nd codes addr pu pv pick).th
    s.th.frame u (List.range' nd 4) [] codes [] [] ∧ u.run = .ready ∧ u.pc = s.th.pc + s.th.parcels 2 ∧
      ∀ k w, (texResult s2 x).2[k]? = some w → u.gets s.th (nd + k) w := by
  have h2 : s2.th = s.th := (th_of_sansTex (sansTex_of_pair hl (addLevels_sansTex ..))).trans
    (th_of_sansTex (sansTex_of_pair hr (readSampler_sansTex ..)))
  have hn : (texResult s2 x).2.length ≤ 4 := (texResult_length s2 x).trans (addLevels_length hl)
  rw [sampleAt_ok (sampleSum_ok hr hl), h2]
  exact finish_wrs (forgetUnit (texResult s2 x).1 s.th.uid) h2 hn codes _

/-! A thread alone in its quad (R396, R398). -/

/-- A thread alone in its quad has no neighbour to differ from. -/
theorem coordDiff_alone (s : State) (t : Thread) {i : Nat} (hi : i ≠ 0) (o : Opnd) (k : Nat) : coordDiff s [t] i o k = 0 := by
  unfold coordDiff quadAt
  by_cases h : t.tid % 4 = 0
  · have : (t.tid % 4 == i) = false := beq_false_of_ne (by omega)
    simp [this]
  · have : (t.tid % 4 == 0) = false := beq_false_of_ne h
    simp only [List.find?_cons, List.find?_nil, this]
    split
    · next e => simp at e
    · rfl

/-- The only waiting thread of a quad executes its instruction. -/
theorem quadCheck_alone {s : State} {g r w q : Nat} {op : QuadOp} {d a b : Code} (hs : s.selThreads (quadMember g r w q) = [s.th])
    (hr : s.th.run = .waiting (.quad op d a b)) : quadCheck s g r w q = runQuad s op d a b [s.th] := by
  have hp : lowestPc [s.th] = s.th.pc.toNat := Nat.min_eq_right s.th.pc.isLt.le
  have hq : waitsQuad s.th = true := by rw [waitsQuad, hr]
  have hb : byTid [s.th] = [s.th] := rfl
  unfold quadCheck
  simp only [hs, hq, List.isEmpty_cons, List.all_cons, List.all_nil, Bool.and_self, Bool.not_true, Bool.or_self, Bool.false_eq_true, if_false,
    List.length_singleton, hb, runQuads, hp, List.filter_cons, beq_self_eq_true, if_true, List.filter_nil, hr]

/-- An operation on the issuing thread by its identity. -/
theorem asThread_self {s : State} {f : State → State} (hl : s.th.live = true) (hf : (f s).th.uid = s.th.uid) : asThread s s.th.uid f = f s := by
  have ht : s.thread? s.th.uid = some s.th := by simp [State.thread?, State.findThread, hl]
  have h1 : s.focus s.th.uid = s := if_pos rfl
  have h2 : (f s).focus s.th.uid = f s := if_pos hf
  unfold asThread
  rw [ht, h1]
  exact h2

/-- The smp of a thread alone in its quad that can read what it samples. -/
theorem runQuad_alone {s s2 : State} {d a b : Code} {na nb nd : Nat} {x : TexAcc} (hr : s.th.run = .waiting (.quad .smp d a b))
    (hl : s.th.live = true) (ha : s.th.atA 1 a na) (hb : s.th.atL 2 b 2 nb) (hd : s.th.at4 0 d nd)
    (hs : sampleSum s (s.th.rd2 na).toNat (coordOf (s.th.rd nb)) (coordOf (s.th.rd (nb + 1))) (fun v => lodOf v 0 0 0 0) = (s2, .ok x))
    (hu : (sampleAt s nd [a, b, d] (s.th.rd2 na).toNat (coordOf (s.th.rd nb)) (coordOf (s.th.rd (nb + 1))) (fun v => lodOf v 0 0 0 0)).th.uid =
      s.th.uid) :
    runQuad s .smp d a b [s.th] =
      sampleAt s nd [a, b, d] (s.th.rd2 na).toNat (coordOf (s.th.rd nb)) (coordOf (s.th.rd (nb + 1))) (fun v => lodOf v 0 0 0 0) := by
  have hk (i : Nat) : quadVal s s.th 2 (span 2 b 2) i = s.th.rd (nb + i) := by
    rw [quadVal, show resolve s.th (span 2 b 2) = .ok nb from hb]
    exact if_neg (by simp [span])
  have hn : sampleNeeds (s.put { s.th with run := .ready }) (s.th.rd2 na).toNat (coordOf (s.th.rd nb)) (coordOf (s.th.rd (nb + 1)))
      (fun v => lodOf v 0 0 0 0) = none := by
    rw [sampleNeeds, sampleSum_put ⟨⟨_, _, _, _, hr⟩, rfl⟩, hs]
  have ho : ops3 s 2 [] (addrPair 1 a) (span 2 b 2) (quad 0 d) (fun na _ nd =>
      sampleAt s nd [a, b, d] (s.th.rd2 na).toNat (coordOf (s.th.rd nb)) (coordOf (s.th.rd (nb + 1))) (fun v => lodOf v 0 0 0 0)) = _ :=
    ops3_ok (free_nil _) ha hb hd
  unfold runQuad
  simp only [coordDiff_alone s s.th (i := 1) (by decide), coordDiff_alone s s.th (i := 2) (by decide), List.filterMap_cons, List.filterMap_nil,
    show resolve s.th (addrPair 1 a) = .ok na from ha, hk, Nat.add_zero, hn, Option.map_none, List.isEmpty_nil, Bool.not_true, Bool.false_eq_true,
    if_false, List.map_cons, List.map_nil, List.foldl_cons, List.foldl_nil]
  rw [asThread_self hl]
  · exact ho
  · rw [ho]
    exact hu

/-- A smp of a thread alone in its quad waits there and executes. -/
theorem smp_alone {s : State} {d a b : Code} {na nb nd : Nat} (hw : s.th.isWave = true) (ha : s.th.atA 1 a na) (hb : s.th.atL 2 b 2 nb)
    (hd : s.th.at4 0 d nd) (he : s.th.entered = false) (hsp : s.th.spawner = none)
    (ho : ∀ t ∈ s.threads, quadMember s.th.grp s.th.role (s.th.tid / 64) (s.th.tid % 64 / 4) t = false) :
    let s0 := s.put (s.th.await s.clk (.quad .smp d a b) 0 [] 2)
    exec (.smp d a b) s = .next (runQuad s0 .smp d a b [s0.th]) := by
  intro s0
  have e : exec (.smp d a b) s = _ := congrArg Host.Outcome.next (onEngine_same hw)
  rw [ops3_ok (free_nil _) ha hb hd] at e
  have hm : quadMember s.th.grp s.th.role (s.th.tid / 64) (s.th.tid % 64 / 4) s0.th = true := by
    have h1 : s0.th.entered = false := he
    have h2 : s0.th.spawner = none := hsp
    have h3 : s0.th.isWave = true := hw
    have h4 : s0.th.live = true := rfl
    have h5 : s0.th.grp = s.th.grp ∧ s0.th.role = s.th.role ∧ s0.th.tid = s.th.tid := ⟨rfl, rfl, rfl⟩
    simp [quadMember, waveMember, Thread.lane, h1, h2, h3, h4, h5]
  have hs : s0.selThreads (quadMember s.th.grp s.th.role (s.th.tid / 64) (s.th.tid % 64 / 4)) = [s0.th] := by
    unfold State.selThreads
    rw [List.filter_cons, if_pos (by rw [hm]; rfl), List.filter_eq_nil_iff.2 fun t ht => by rw [ho t ht, Bool.and_false]; exact Bool.false_ne_true]
  refine e.trans (congrArg Host.Outcome.next ?_)
  unfold arriveQuad
  simp only [he, hsp, Option.isSome_none, Bool.or_self, Bool.false_eq_true, if_false]
  exact quadCheck_alone hs rfl

/-- A component of nearest magnification with one probe is that of one texel, rounded. -/
theorem nearest_rounds {s1 s2 : State} {w u : Thread} {x : TexAcc} {v nd : Nat} {pu pv : Rat} {lod : Int × Nat × Rat × Rat}
    (hl : addLevels v (allTaps v pu pv lod.1 lod.2.1 lod.2.2.1 lod.2.2.2) s1 TexAcc.zero = (s2, .ok x))
    (hg : ∀ k r, (texResult s2 x).2[k]? = some r → u.gets w (nd + k) r) (h0 : lod.1 ≤ 0) (h1 : lod.2.1 = 1) (hb : v.testBit 213 = false)
    (hi : bits v 217 216 = 2) (hj : bits v 219 218 = 2) (t lat : Nat)
    (ht : texRead s1 (bits v 63 0 + ((max 0 (min (floorRat (pv * (levelH v 0 : Rat))) (levelH v 0 - 1))).toNat * levelW v 0 +
      (max 0 (min (floorRat (pu * (levelW v 0 : Rat))) (levelW v 0 - 1))).toNat) * texelBytes v) (texelBytes v) = (s2, .ok (t, lat)))
    (k : Nat) (q : ℚ) (r : Word) (hk : k < 4) (hq : ((colourIn (bits v 199 192) t)[k]?).bind f32Val = some q) (hbusy : w.busy = [])
    (hr : u.g[nd + k]? = some r) : f32Rounds 0 q r := by
  rw [h1, allTaps_nearest h0 hb] at hl
  obtain ⟨z, hz, hround⟩ := texResult_one (s := s2) (addLevels_one hi hj hl ht) hk hq
  obtain ⟨hlt, -⟩ := Vector.getElem?_eq_some_iff.1 hr
  have := hg k z hz hlt (by simp [hbusy])
  rw [hr] at this
  cases this
  exact hround

/-- R398, R138, R139. -/
theorem textureSampling : Says.TextureSampling := by
  intro s s1 s2 d a b na nb nd v x hw ha hd hrx uv ends
  refine ⟨fun hb hr hl => ?_, fun hb hr hl => ?_, fun hb he hsp _ _ ho hr hl => ?_⟩
  · have e : exec (.smpl d a b) s = _ := congrArg Host.Outcome.next (onEngine_same hw)
    rw [ops3_ok (free_nil _) ha hb hd] at e
    obtain ⟨hfr, hrun, hpc, hg⟩ := sampleAt_ends (nd := nd) (codes := [a, b, d]) (pick := fun v => (givenLod v (s.th.rd (nb + 2)), 1, 0, 0)) hr hl
    exact ⟨_, e, hfr, hrun, hpc, nearest_rounds hl hg⟩
  · have e : exec (.smpg d a b) s = _ := congrArg Host.Outcome.next (onEngine_same hw)
    rw [ops3_ok (free_nil _) ha hb hd] at e
    obtain ⟨hfr, hrun, hpc, hg⟩ := sampleAt_ends (nd := nd) (codes := [a, b, d]) (pick := fun v => lodOf v (coordOf (s.th.rd (nb + 2)))
      (coordOf (s.th.rd (nb + 3))) (coordOf (s.th.rd (nb + 4))) (coordOf (s.th.rd (nb + 5)))) hr hl
    exact ⟨_, e, hfr, hrun, hpc, nearest_rounds hl hg⟩
  · have e := smp_alone hw ha hb hd he hsp ho
    obtain ⟨hfr, hrun, hpc, hg⟩ := sampleAt_ends (nd := nd) (codes := [a, b, d]) (pick := fun v => lodOf v 0 0 0 0) hr hl
    have hs := sampleSum_ok hr hl (pick := fun v => lodOf v 0 0 0 0)
    dsimp only at e
    rw [runQuad_alone (s := s.put (s.th.await s.clk (.quad .smp d a b) 0 [] 2)) rfl rfl ha hb hd hs (uid_of_frame hfr)] at e
    refine ⟨_, e, hfr, hrun, hpc.trans ?_, nearest_rounds hl hg⟩
    simp only [Thread.parcels, hrx]
    rfl

/-- Settles O35: a read of texels leaves the thread as it is and does not depend on its wait, so that a quad of one executes at once. -/
theorem textures : Obligations.Textures := ⟨textureFetch, textureSampling⟩

end Sys2Proof.Machine
end
